-- ==== Sys2Proof/Word.lean ====
section
/-! DEFINITION. The word types of the V64 and their plainest arithmetic (spec 00_scope R2, R6, R7). -/

namespace Sys2Proof

/-- A byte of any memory space (R2). -/
abbrev Byte := BitVec 8
/-- A 32-bit register image (R93). -/
abbrev Word := BitVec 32
/-- An instruction word, a clause header, or an even-odd register pair (R2, R20). -/
abbrev Word64 := BitVec 64

/-- A set of lanes of one warp, bit `L` standing for lane `L`; a warp has at most 128 lanes (R148). -/
abbrev Lanes := BitVec 128

/-- The pair whose even register is `lo` and odd register is `hi` (R2). -/
def pairOf (lo hi : Word) : Word64 := hi ++ lo

/-- The even register of a pair (R2). -/
def loOf (x : Word64) : Word := x.extractLsb' 0 32

/-- The odd register of a pair (R2). -/
def hiOf (x : Word64) : Word := x.extractLsb' 32 32

/-- `Sat` of R7 on integers. -/
def satInt (x lo hi : Int) : Int := if x < lo then lo else if hi < x then hi else x

/-- The number of set bits among the low `n` bits. -/
def popBits (n : Nat) (x : Nat) : Nat := ((List.range n).filter (fun i => x.testBit i)).length

end Sys2Proof
end

