-- ==== Sys2Proof/Syntax.lean ====
section
/-! DEFINITION. The syntax of Epvel: the operand records of the ten formats (spec 02_clause R38-R48) and one
constructor for every row of spec/opcode_table.json, the 195 instructions first and then the 100 steps of the
machine's engines, whose arguments name the party that acts. -/

namespace Sys2Proof

/-- A slice's two pipes (01_panel R13). -/
inductive Pipe where
  | a
  | b
deriving DecidableEq, Repr

/-- The guard of a word: bits [51:48] (R29, R30). -/
structure Guard where
  inv  : Bool
  pred : BitVec 3
deriving DecidableEq, Repr

/-- Format R (R38). -/
structure FmtR where
  g    : Guard
  mod  : BitVec 3
  d    : BitVec 9
  a    : BitVec 9
  b    : BitVec 9
  c    : BitVec 9
  keep : BitVec 2
  ea   : Bool
  eb   : Bool
  ec   : Bool
  za   : Bool
  zb   : Bool
  zc   : Bool
deriving DecidableEq, Repr

/-- Format I (R39). -/
structure FmtI where
  g   : Guard
  mod : BitVec 3
  d   : BitVec 9
  a   : BitVec 9
  ea  : Bool
  ka  : Bool
  za  : Bool
  imm : BitVec 24
deriving DecidableEq, Repr

/-- Format K (R40). -/
structure FmtK where
  g   : Guard
  mod : BitVec 7
  d   : BitVec 9
  imm : BitVec 32
deriving DecidableEq, Repr

/-- Format L (R41). -/
structure FmtL where
  g     : Guard
  d     : BitVec 9
  a     : BitVec 9
  b     : BitVec 9
  c     : BitVec 9
  table : BitVec 8
deriving DecidableEq, Repr

/-- Format V (R42). -/
structure FmtV where
  g    : Guard
  mod  : BitVec 3
  d    : BitVec 9
  a    : BitVec 9
  conv : BitVec 9
  keep : Bool
  ea   : Bool
  za   : Bool
deriving DecidableEq, Repr

/-- Format B (R43); `ind` is kind 1. -/
structure FmtB where
  g   : Guard
  ind : Bool
  a   : BitVec 9
  off : BitVec 32
deriving DecidableEq, Repr

/-- Format M (R44). -/
structure FmtM where
  g    : Guard
  size : BitVec 3
  d    : BitVec 9
  a    : BitVec 9
  ea   : Bool
  ka   : Bool
  za   : Bool
  off  : BitVec 24
deriving DecidableEq, Repr

/-- Format A (R45). -/
structure FmtA where
  g     : Guard
  op    : BitVec 4
  space : BitVec 2
  ref   : Bool
  pub   : Bool
  d     : BitVec 9
  a     : BitVec 9
  b     : BitVec 9
  c     : BitVec 9
  e     : Bool
deriving DecidableEq, Repr

/-- Format C (R46). -/
structure FmtC where
  g     : Guard
  token : BitVec 6
  buf   : BitVec 4
  wa    : BitVec 6
  wp    : BitVec 6
  v     : BitVec 9
  mod   : BitVec 5
  imm   : BitVec 12
deriving DecidableEq, Repr

/-- Format T (R47). -/
structure FmtT where
  g    : Guard
  tile : BitVec 5
  mask : BitVec 4
  va   : BitVec 9
  vf   : BitVec 9
  q    : BitVec 4
  mod  : BitVec 5
  imm  : BitVec 12
deriving DecidableEq, Repr

/-- Format S (R48). -/
structure FmtS where
  g   : Guard
  idx : BitVec 4
  w   : BitVec 6
  v   : BitVec 9
  mod : BitVec 5
  imm : BitVec 24
deriving DecidableEq, Repr

/-- A Dexyr frame: the header fields of R350 and its payload. -/
structure Frame where
  dmod  : Nat
  ddie  : Nat
  smod  : Nat
  sdie  : Nat
  cls   : Nat
  kind  : Nat
  beats : Nat
  zero  : Nat
  seq   : BitVec 32
  check : BitVec 32
  data  : List Byte
deriving DecidableEq, Repr

/-- The operations of the machine: one constructor for every row of spec/opcode_table.json. -/
inductive Instr where
  /-- NOP (R60). -/
  | nop (o : FmtR)
  /-- MOV (R102). -/
  | mov (o : FmtR)
  /-- MOVI (R102). -/
  | movi (o : FmtK)
  /-- MOVW (R102). -/
  | movw (o : FmtI)
  /-- WSET (R102). -/
  | wset (o : FmtI)
  /-- SREAD (R104). -/
  | sread (o : FmtI)
  /-- PMOV_RP (R107). -/
  | pmovRp (o : FmtR)
  /-- PMOV_PR (R107). -/
  | pmovPr (o : FmtR)
  /-- PMOV_SAVE (R107). -/
  | pmovSave (o : FmtR)
  /-- PMOV_LOAD (R107). -/
  | pmovLoad (o : FmtR)
  /-- PGATE (R108). -/
  | pgate (o : FmtL)
  /-- IADD (R109). -/
  | iadd (o : FmtR)
  /-- IADD_IMM (R109). -/
  | iaddImm (o : FmtI)
  /-- ISUB (R109). -/
  | isub (o : FmtR)
  /-- ISUB_IMM (R109). -/
  | isubImm (o : FmtI)
  /-- IMUL (R109). -/
  | imul (o : FmtR)
  /-- IMUL_IMM (R109). -/
  | imulImm (o : FmtI)
  /-- IMULH (R109). -/
  | imulh (o : FmtR)
  /-- IMULH_IMM (R109). -/
  | imulhImm (o : FmtI)
  /-- IMIN (R109). -/
  | imin (o : FmtR)
  /-- IMIN_IMM (R109). -/
  | iminImm (o : FmtI)
  /-- IMAX (R109). -/
  | imax (o : FmtR)
  /-- IMAX_IMM (R109). -/
  | imaxImm (o : FmtI)
  /-- ICMP (R110). -/
  | icmp (o : FmtR)
  /-- ICMP_IMM (R110). -/
  | icmpImm (o : FmtI)
  /-- SHL (R109). -/
  | shl (o : FmtR)
  /-- SHL_IMM (R109). -/
  | shlImm (o : FmtI)
  /-- SHR (R109). -/
  | shr (o : FmtR)
  /-- SHR_IMM (R109). -/
  | shrImm (o : FmtI)
  /-- SAR (R109). -/
  | sar (o : FmtR)
  /-- SAR_IMM (R109). -/
  | sarImm (o : FmtI)
  /-- LGATE (R112). -/
  | lgate (o : FmtL)
  /-- IMAD (R111). -/
  | imad (o : FmtR)
  /-- IMADW (R111). -/
  | imadw (o : FmtR)
  /-- IADDC (R111). -/
  | iaddc (o : FmtR)
  /-- ISEL (R111). -/
  | isel (o : FmtR)
  /-- IABS (R111). -/
  | iabs (o : FmtR)
  /-- INEG (R111). -/
  | ineg (o : FmtR)
  /-- FSHL (R113). -/
  | fshl (o : FmtR)
  /-- FSHR (R113). -/
  | fshr (o : FmtR)
  /-- POPC (R114). -/
  | popc (o : FmtR)
  /-- CLZ (R114). -/
  | clz (o : FmtR)
  /-- BREV (R114). -/
  | brev (o : FmtR)
  /-- BFX (R115). -/
  | bfx (o : FmtR)
  /-- BFI (R115). -/
  | bfi (o : FmtR)
  /-- LEA (R116). -/
  | lea (o : FmtR)
  /-- FADD (R119). -/
  | fadd (o : FmtR)
  /-- FADD_IMM (R119). -/
  | faddImm (o : FmtI)
  /-- FSUB (R119). -/
  | fsub (o : FmtR)
  /-- FSUB_IMM (R119). -/
  | fsubImm (o : FmtI)
  /-- FMUL (R119). -/
  | fmul (o : FmtR)
  /-- FMUL_IMM (R119). -/
  | fmulImm (o : FmtI)
  /-- FMIN (R120). -/
  | fmin (o : FmtR)
  /-- FMIN_IMM (R120). -/
  | fminImm (o : FmtI)
  /-- FMAX (R120). -/
  | fmax (o : FmtR)
  /-- FMAX_IMM (R120). -/
  | fmaxImm (o : FmtI)
  /-- FCMP (R121). -/
  | fcmp (o : FmtR)
  /-- FCMP_IMM (R121). -/
  | fcmpImm (o : FmtI)
  /-- FFMA (R119). -/
  | ffma (o : FmtR)
  /-- FABS (R122). -/
  | fabs (o : FmtR)
  /-- FNEG (R122). -/
  | fneg (o : FmtR)
  /-- FCLASS (R122). -/
  | fclass (o : FmtR)
  /-- FRND (R123). -/
  | frnd (o : FmtR)
  /-- FMAXA (R120). -/
  | fmaxa (o : FmtR)
  /-- HADD2 (R124). -/
  | hadd2 (o : FmtR)
  /-- HMUL2 (R124). -/
  | hmul2 (o : FmtR)
  /-- HFMA2 (R124). -/
  | hfma2 (o : FmtR)
  /-- HMAX2 (R124). -/
  | hmax2 (o : FmtR)
  /-- CVT (R126). -/
  | cvt (o : FmtV)
  /-- F8CV (R127). -/
  | f8cv (o : FmtR)
  /-- F8UP (R128). -/
  | f8up (o : FmtR)
  /-- LSHUF (R154). -/
  | lshuf (o : FmtR)
  /-- LXOR (R154). -/
  | lxor (o : FmtR)
  /-- LROTW (R154). -/
  | lrotw (o : FmtR)
  /-- LRED (R155). -/
  | lred (o : FmtR)
  /-- LSCAN (R155). -/
  | lscan (o : FmtR)
  /-- BALLOT (R156). -/
  | ballot (o : FmtR)
  /-- MATCH (R157). -/
  | matchKey (o : FmtR)
  /-- MATCHN (R157). -/
  | matchn (o : FmtR)
  /-- TBL (R158). -/
  | tbl (o : FmtR)
  /-- ELECT (R159). -/
  | elect (o : FmtR)
  /-- BRA (R143). -/
  | bra (o : FmtB)
  /-- JMP (R143). -/
  | jmp (o : FmtB)
  /-- CALL (R144). -/
  | call (o : FmtB)
  /-- RET (R144). -/
  | ret (o : FmtB)
  /-- EXIT (R146). -/
  | exit (o : FmtB)
  /-- TRAP (R147). -/
  | trap (o : FmtB)
  /-- RCP (R131). -/
  | rcp (o : FmtR)
  /-- RSQ (R131). -/
  | rsq (o : FmtR)
  /-- SQRT (R131). -/
  | sqrt (o : FmtR)
  /-- DIV (R131). -/
  | div (o : FmtR)
  /-- EXP2 (R131). -/
  | exp2 (o : FmtR)
  /-- LOG2 (R131). -/
  | log2 (o : FmtR)
  /-- SINP (R131). -/
  | sinp (o : FmtR)
  /-- COSP (R131). -/
  | cosp (o : FmtR)
  /-- TANH (R131). -/
  | tanh (o : FmtR)
  /-- SIGM (R131). -/
  | sigm (o : FmtR)
  /-- IDIV (R132). -/
  | idiv (o : FmtR)
  /-- IREM (R132). -/
  | irem (o : FmtR)
  /-- LDB (R163). -/
  | ldb (o : FmtM)
  /-- STB (R163). -/
  | stb (o : FmtM)
  /-- LDD (R175). -/
  | ldd (o : FmtM)
  /-- STD (R175). -/
  | std (o : FmtM)
  /-- LDK (R163). -/
  | ldk (o : FmtM)
  /-- STK (R163). -/
  | stk (o : FmtM)
  /-- ATOM (R193). -/
  | atom (o : FmtA)
  /-- RED (R193). -/
  | red (o : FmtA)
  /-- WAITV (R196). -/
  | waitv (o : FmtA)
  /-- NOTE (R198). -/
  | note (o : FmtA)
  /-- PHASE (R181). -/
  | phase (o : FmtR)
  /-- FENCE (R188). -/
  | fence (o : FmtR)
  /-- REGB (R219). -/
  | regb (o : FmtB)
  /-- REGE (R223). -/
  | rege (o : FmtR)
  /-- REGX (R224). -/
  | regx (o : FmtR)
  /-- REGQ (R232). -/
  | regq (o : FmtR)
  /-- FLTM (R178). -/
  | fltm (o : FmtR)
  /-- FLTM_CLR (R178). -/
  | fltmClr (o : FmtR)
  /-- CPYIN (R245). -/
  | cpyin (o : FmtC)
  /-- CPYOUT (R245). -/
  | cpyout (o : FmtC)
  /-- CPYG (R246). -/
  | cpyg (o : FmtC)
  /-- CPYS (R246). -/
  | cpys (o : FmtC)
  /-- CPYD (R247). -/
  | cpyd (o : FmtC)
  /-- CPYF (R248). -/
  | cpyf (o : FmtC)
  /-- CPYF_FAR (R248). -/
  | cpyfFar (o : FmtC)
  /-- STAGE_MAX (R257). -/
  | stageMax (o : FmtC)
  /-- STAGE_ADD (R257). -/
  | stageAdd (o : FmtC)
  /-- PUBL (R254). -/
  | publ (o : FmtC)
  /-- RPUSH (R250). -/
  | rpush (o : FmtC)
  /-- RPOP (R251). -/
  | rpop (o : FmtC)
  /-- RWAIT_C (R252). -/
  | rwaitC (o : FmtC)
  /-- RWAIT_P (R252). -/
  | rwaitP (o : FmtC)
  /-- CPYQ (R253). -/
  | cpyq (o : FmtC)
  /-- PFCH (R248). -/
  | pfch (o : FmtC)
  /-- EVICT (R338). -/
  | evict (o : FmtC)
  /-- BUFD (R235). -/
  | bufd (o : FmtC)
  /-- CLOAD (R367). -/
  | cload (o : FmtC)
  /-- CRUN (R368). -/
  | crun (o : FmtC)
  /-- CARM (R368). -/
  | carm (o : FmtC)
  /-- CSTEP_Q (R369). -/
  | cstepQ (o : FmtC)
  /-- CSTEP_WAIT (R369). -/
  | cstepWait (o : FmtC)
  /-- MMA (R264). -/
  | mma (o : FmtT)
  /-- MMA_KEEP (R268). -/
  | mmaKeep (o : FmtT)
  /-- MCLR (R271). -/
  | mclr (o : FmtT)
  /-- MLDT (R272). -/
  | mldt (o : FmtT)
  /-- MMOVR (R273). -/
  | mmovr (o : FmtT)
  /-- MMOVW (R273). -/
  | mmovw (o : FmtT)
  /-- MQRY (R274). -/
  | mqry (o : FmtT)
  /-- MDRAIN (R279). -/
  | mdrain (o : FmtT)
  /-- MDRAIN_ADD (R283). -/
  | mdrainAdd (o : FmtT)
  /-- MDRAIN_UPD (R283). -/
  | mdrainUpd (o : FmtT)
  /-- QDUAL (R286). -/
  | qdual (o : FmtT)
  /-- RQNT (R287). -/
  | rqnt (o : FmtT)
  /-- MJOIN (R150). -/
  | mjoin (o : FmtS)
  /-- MLEAVE (R150). -/
  | mleave (o : FmtS)
  /-- MWAIT (R150). -/
  | mwait (o : FmtS)
  /-- MSET (R151). -/
  | mset (o : FmtS)
  /-- MGET (R151). -/
  | mget (o : FmtS)
  /-- BARB (R212). -/
  | barb (o : FmtS)
  /-- BARA (R212). -/
  | bara (o : FmtS)
  /-- BARW (R212). -/
  | barw (o : FmtS)
  /-- BARD (R212). -/
  | bard (o : FmtS)
  /-- TREEA (R212). -/
  | treea (o : FmtS)
  /-- TREEW (R212). -/
  | treew (o : FmtS)
  /-- ATTACH (R167). -/
  | attach (o : FmtS)
  /-- DETACH (R169). -/
  | detach (o : FmtS)
  /-- YIELD (R170). -/
  | yieldStanding (o : FmtS)
  /-- SLEEP (R171). -/
  | sleep (o : FmtS)
  /-- SLEEP_UNTIL (R171). -/
  | sleepUntil (o : FmtS)
  /-- ENQ (R297). -/
  | enq (o : FmtS)
  /-- CSRR (R313). -/
  | csrr (o : FmtI)
  /-- CSRW (R313). -/
  | csrw (o : FmtI)
  /-- TRET (R317). -/
  | tret (o : FmtR)
  /-- XSAVE (R320). -/
  | xsave (o : FmtR)
  /-- XLOAD (R320). -/
  | xload (o : FmtR)
  /-- TLBI (R320). -/
  | tlbi (o : FmtR)
  /-- TLBI_PAGE (R320). -/
  | tlbiPage (o : FmtR)
  /-- PGSET (R337). -/
  | pgset (o : FmtR)
  /-- CTXEND (R320). -/
  | ctxend (o : FmtR)
  /-- HALT (R320). -/
  | halt (o : FmtR)
  /-- RETIRE (R320). -/
  | retire (o : FmtR)
  /-- SNAPM (R391). -/
  | snapm (o : FmtR)
  /-- LOGR_ADDR (R320). -/
  | logrAddr (o : FmtR)
  /-- LOGR_INFO (R320). -/
  | logrInfo (o : FmtR)
  /-- LOGR_COUNT (R320). -/
  | logrCount (o : FmtR)
  /-- LOGR_CLR (R320). -/
  | logrClr (o : FmtR)
  /-- TJOPEN (R380). -/
  | tjopen (o : FmtR)
  /-- TJSTEP (R382). -/
  | tjstep (o : FmtR)
  /-- TJEND (R382). -/
  | tjend (o : FmtR)
  /-- TJEND_FREE (R382). -/
  | tjendFree (o : FmtR)
  /-- TJREW (R382). -/
  | tjrew (o : FmtR)
  /-- TJTAKE (R387). -/
  | tjtake (o : FmtR)
  /-- TJTAKE_TRY (R387). -/
  | tjtakeTry (o : FmtR)
  /-- TJTAKE_DEPTH (R387). -/
  | tjtakeDepth (o : FmtR)
  /-- TJTAKE_STAT (R387). -/
  | tjtakeStat (o : FmtR)
  /-- TJSET (R377). -/
  | tjset (o : FmtI)
  /-- CLAUSE_ISSUE (R23): the bundle of warp `w` at lane `lane`'s header issues on `pipe`. -/
  | clauseIssue (w lane : Nat) (pipe : Pipe)
  /-- BUNDLE_PARK (R25): the blocked bundle on `pipe` parks. -/
  | bundlePark (w : Nat) (pipe : Pipe)
  /-- BLOCKED_REGISTER_FILL (R138): a blocked thread's registers have filled. -/
  | blockedRegisterFill (w lane : Nat)
  /-- CODE_FETCH (R28): the clause at lane `lane`'s header is fetched. -/
  | codeFetch (w lane : Nat)
  /-- COMPACTOR_MOVE (R96): the allocation of warp `w` moves to `base`. -/
  | compactorMove (w base : Nat)
  /-- SFU_QUEUE_GRANT (R133): the oldest waiting SFU word of a slice gets an entry. -/
  | sfuQueueGrant (die core slice : Nat)
  /-- SFU_RESULT (R134): the results of one SFU word land. -/
  | sfuResult (op : Nat)
  /-- TABLE_ENTRY_GRANT (R186): the oldest waiting word of a core gets its table entries. -/
  | tableEntryGrant (die core : Nat)
  /-- LOAD_RETURN (R165): a load reads its bank and, with `land`, lands. -/
  | loadReturn (op : Nat) (land : Bool)
  /-- STORE_ACK (R23): a store is performed and acknowledged. -/
  | storeAck (op : Nat)
  /-- PORT_OPERATION (R189): an atomic, WAITV check or NOTE (or unit `unit` of tile update `op`) is performed. -/
  | portOperation (op unit : Nat)
  /-- ATOMIC_RETURN (R193): an ATOM's old value lands. -/
  | atomicReturn (op : Nat)
  /-- WAITER_PLACE_FREE (R197): a WAITV waiting for room is enqueued. -/
  | waiterPlaceFree (op : Nat)
  /-- WAITV_TIMEOUT (R197): a .tmo waiter's limit passes. -/
  | waitvTimeout (op : Nat)
  /-- SLEEP_RELEASE (R171): sleeping threads of warp `w` whose time has come are released. -/
  | sleepRelease (w : Nat)
  /-- FENCE_COMPLETE (R188): the fence the bundle on `pipe` waits at releases. -/
  | fenceComplete (w : Nat) (pipe : Pipe)
  /-- PUBLICATION (R181): the publication a waiting word asked for is made. -/
  | publication (act : Nat)
  /-- TREE_RELEASE (R209): a core receives a channel's release. -/
  | treeRelease (ch die core : Nat)
  /-- TREE_CFG_WRITE (R207): TREE_CFG[ch] is written. -/
  | treeCfgWrite (ch : Nat) (val : Word64)
  /-- REGION_OPEN (R219): the region of warp `w` opens. -/
  | regionOpen (w : Nat)
  /-- REGION_ACCESS_RETRY (R221): a region access stalled by the level limit repeats. -/
  | regionAccessRetry (op : Nat)
  /-- REGION_COMMIT (R223): the committing region of warp `w` commits. -/
  | regionCommit (w : Nat)
  /-- MMA_FIRE (R266): an accepted MMA fires. -/
  | mmaFire (top : Nat)
  /-- TILE_OPERATION_PERFORM (R261): an accepted tile operation performs. -/
  | tileOperationPerform (top : Nat)
  /-- TILE_UPDATE_PERFORM (R284): a tile update all of whose units are done is performed. -/
  | tileUpdatePerform (top : Nat)
  /-- COPY_QUEUE_ACCEPT (R239): the oldest waiting copy word of a core gets a place. -/
  | copyQueueAccept (die core : Nat)
  /-- COPY_FIRE (R238): an accepted copy fires. -/
  | copyFire (copy : Nat)
  /-- COPY_COMPLETE (R244): one move of a fired copy, or (none) the rest and its token. -/
  | copyComplete (copy : Nat) (unit : Option Nat)
  /-- RWAIT_FILL (R252): a siding wait fills. -/
  | rwaitFill (wait : Nat)
  /-- SCHEDULE_FIRING (R256): the next due schedule entry of a block fires. -/
  | scheduleFiring (block : Nat)
  /-- BLOCK_PLACEMENT (R304): the next block of a die share is placed. -/
  | blockPlacement (share core : Nat)
  /-- PLACEMENT_WAIT_EXPIRY (R305): a waiting block reserves freed resources. -/
  | placementWaitExpiry (share : Nat)
  /-- SPARE_WARP_START (R166): a spare warp starts. -/
  | spareWarpStart (share core slot : Nat)
  /-- SHRINK_REQUEST (R306): a shrink request is raised. -/
  | shrinkRequest (block k : Nat)
  /-- SHRINK_CANCEL (R306): a shrink request is cancelled. -/
  | shrinkCancel (block : Nat)
  /-- PREEMPTION (R307): the dispatcher starts saving a block. -/
  | preemption (block : Nat)
  /-- BLOCK_SAVE (R308): a drained block is saved. -/
  | blockSave (block : Nat)
  /-- BLOCK_RESTORE (R307): a parked block is restored. -/
  | blockRestore (block core : Nat)
  /-- BLOCK_END (R172): an ending block becomes DONE. -/
  | blockEnd (block : Nat)
  /-- KERNEL_DONE (R294): a draining kernel becomes DONE. -/
  | kernelDone (k : Nat)
  /-- QUEUE_ENTRY_TAKE (R302): die 0's dispatcher takes an entry. -/
  | queueEntryTake (q : Nat)
  /-- DEPENDENCE_CHECK (R303): a WAITING kernel's dependences are read again. -/
  | dependenceCheck (k : Nat)
  /-- QUEUE_LEVEL_RAISE (R302): a queue READY for 10 ms is raised. -/
  | queueLevelRaise (q : Nat)
  /-- QUEUE_DOORBELL (R299): QWP is written. -/
  | queueDoorbell (q : Nat) (wp : Word)
  /-- QUEUE_ENABLE (R298): QCTL is written with enable set. -/
  | queueEnable (q : Nat) (ctl : Word)
  /-- QUEUE_DISABLE (R301): enable is cleared. -/
  | queueDisable (q : Nat)
  /-- QUEUE_SUSPEND (R301): suspend is set. -/
  | queueSuspend (q : Nat)
  /-- QUEUE_RESUME (R301): suspend is cleared. -/
  | queueResume (q : Nat)
  /-- REGISTER_WRITE (R312): a register without behaviour of its own is written. -/
  | registerWrite (die ctx idx : Nat) (val : Word64)
  /-- CONTEXT_BIND (R310): 1 is written to CTX_STATE. -/
  | contextBind (ctx : Nat)
  /-- CONTEXT_FREE (R310): 0 is written to CTX_STATE. -/
  | contextFree (ctx : Nat)
  /-- ERRQ_DROP_CLEAR (R312): ERRQ_DROP is written. -/
  | errqDropClear
  /-- HOST_CONTEXT_END (R319): the host ends a context. -/
  | hostContextEnd (ctx : Nat)
  /-- CONTEXT_ENDED (R310): a draining context becomes ENDED. -/
  | contextEnded (ctx : Nat)
  /-- ERROR_RING_RETRY (R321): an unreachable error ring is tried again. -/
  | errorRingRetry
  /-- STRIPE_REQUEST (R332): a member serves, or refuses, a stripe request. -/
  | stripeRequest (die gather member : Nat)
  /-- GATHER_REPLY (R331): a reply reaches the requesting die. -/
  | gatherReply (die gather member : Nat)
  /-- GATHER_TIMEOUT (R332): an unanswered request is resent or its page lost. -/
  | gatherTimeout (die gather member : Nat)
  /-- REDUCE_CONTRIBUTION (R335): a receiver adds a send's values. -/
  | reduceContribution (die red send : Nat)
  /-- REDUCE_DONE (R335): a done message arrives. -/
  | reduceDone (die red src : Nat)
  /-- REDUCE_SEND_TIMEOUT (R335): an unacknowledged send is resent or its member counted failed. -/
  | reduceSendTimeout (die red send : Nat)
  /-- REDUCING_TIMEOUT (R335): the progress timer expires. -/
  | reducingTimeout (die red : Nat)
  /-- MIGRATION_HANDOVER (R340): the owner hands over a page, or refuses. -/
  | migrationHandover (die mig : Nat)
  /-- MODE1_FILL (R340): a whole page is fetched into the local copy. -/
  | mode1Fill (die fill : Nat)
  /-- MESH_FLIT_RECEIVE (R348): a flit is checked and delivered, or replayed. -/
  | meshFlitReceive (link cls : Nat) (ok : Bool)
  /-- FRAME_RECEIVE (R352): a data frame arrives at a port. -/
  | frameReceive (port : Nat) (f : Frame)
  /-- ACK_RECEIVE (R351): an acknowledgement frame arrives at a port. -/
  | ackReceive (port : Nat) (f : Frame)
  /-- RETRANSMIT_TIMEOUT (R351): a frame unacknowledged after 20 us is resent. -/
  | retransmitTimeout (flow : Nat) (seq : Word)
  /-- PORT_TRAINING_END (R353): training ends with so many lanes. -/
  | portTrainingEnd (port lanes : Nat)
  /-- LANE_LOST (R353): a lane or an FEC burst is lost. -/
  | laneLost (port : Nat)
  /-- PORT_ENABLE (R353): a port is enabled. -/
  | portEnable (port : Nat)
  /-- PORT_DISABLE (R353): a port is disabled. -/
  | portDisable (port : Nat)
  /-- CXL_MEM_ACCESS (R355): a host access through the window. -/
  | cxlMemAccess (addr : Nat) (len : Nat) (wr : Option (List Byte))
  /-- HOST_TIMEOUT (R354): a host request passes HOST_TMO. -/
  | hostTimeout (req : Nat)
  /-- TIME_SYNC (R356): a die's copy of module time is brought up to die 0's; die 0 takes a reference (ns) of IEEE 1588, and under the
  number 64 one of the host. -/
  | timeSync (die : Nat) (ref : Nat)
  /-- GRAPH_LOAD_AT_PLACEMENT (R357): the graph image of a die share is loaded into g0. -/
  | graphLoadAtPlacement (share : Nat)
  /-- CARM_START (R368): an armed slot starts its run. -/
  | carmStart (share slot : Nat)
  /-- CHUNK_OFFER (R364): a receiver accepts a chunk or leaves it waiting. -/
  | chunkOffer (chunk : Nat)
  /-- NODE_COMPLETE (R362): a fired node completes. -/
  | nodeComplete (run node : Nat)
  /-- RUN_COMPLETE (R365): a run completes. -/
  | runComplete (run : Nat)
  /-- REWARD_MESSAGE (R383): a reward message of 16 bytes arrives. -/
  | rewardMessage (die : Nat) (msg : List Byte)
  /-- JOIN_DEADLINE (R384): a CLOSED entry's deadline passes. -/
  | joinDeadline (die entry : Nat)
  /-- ORPHAN_EXPIRY (R383): an orphan's grace period passes. -/
  | orphanExpiry (die orphan : Nat)
  /-- TURNTABLE_SCAN (R385): the turntable takes a JOINED entry. -/
  | turntableScan (die entry : Nat)
  /-- EPISODE_RELEASE (R386): a SCANNED entry is released. -/
  | episodeRelease (die entry : Nat)
  /-- TJTAKE_POP (R387): a waiting TJTAKE lane pops. -/
  | tjtakePop (wait : Nat)
  /-- CUT (R392): an armed die cuts. -/
  | cut (die ctx : Nat)
  /-- PAGE_DRAIN_ACK (R395): storage acknowledges a page. -/
  | pageDrainAck (die ctx page : Nat)
  /-- WARM_RESET (R398): a die takes a warm reset. -/
  | warmReset (die : Nat)
  /-- DIE_START (R400): a die takes its next start step. -/
  | dieStart (die : Nat) (warm : Bool)
  /-- START_STEP_FAILURE (R401): the start step a die is taking fails. -/
  | startStepFailure (die : Nat)
  /-- ATTESTATION_REQUEST (R404): the host asks for a report. -/
  | attestationRequest (die : Nat) (nonce : List Byte)
  /-- HEALTH_REFRESH (R405): an indicator is refreshed. -/
  | healthRefresh (die ind : Nat) (reading : Int) (age : Nat)
  /-- SRAM_SOFT_ERROR (R406): an uncorrectable SRAM error. -/
  | sramSoftError (die : Nat)
  /-- POWER_LIMIT (R19): the controller lowers a die's matrix issue rate. -/
  | powerLimit (die rate : Nat)
  /-- UNASSIGNED_OPCODE (R59): a word with an unassigned opcode or another class than its header. -/
  | unassignedOpcode (word : Word64)
  /-- REDUCE_SEND_ACKNOWLEDGEMENT (R335): an acknowledgement of a send arrives. -/
  | reduceSendAcknowledgement (die red send : Nat)
  /-- MIGRATION_HANDOVER_REPLY (R340): the owner's answer reaches the requesting die. -/
  | migrationHandoverReply (die mig : Nat)
  /-- ERROR_RING_WRITE_FAILURE (R321): a write to the error ring fails. -/
  | errorRingWriteFailure
  /-- MEASUREMENT_REGISTER_EXTENSION (R403): the host extends MR5 to MR7. -/
  | measurementRegisterExtension (die k : Nat) (digest : List Byte)
deriving DecidableEq, Repr

end Sys2Proof
end

