-- ==== Sys2Proof/WellFormed.lean ====
section
/-! DEFINITION. Well-formed words: the checks of spec 02_clause R30, R32-R35, R42-R49 that depend on the word alone
(checks 3 and 4 of R49), and the operand limits of check 5 as a list a warp's allocation is held against. -/

namespace Sys2Proof

/-- What a word uses one of its 9-bit fields for (R32-R35). -/
inductive Use where
  | none
  | reg (n : Nat)   -- `n` registers, aligned to `n` (R33)
  | pred
  | ctl
deriving DecidableEq, Repr

/-- What the word alone says of itself: its class and opcode (R29), its guard, whether checks 3 and 4 of R49 hold
(but for the slot it stands in), whether it must be the last word of its clause, the registers it names with the
number and alignment each needs, and whether the other index limits of check 5 hold. -/
structure WordInfo where
  cls  : Nat
  opc  : Nat
  g    : Guard
  ok4  : Bool
  last : Bool
  regs : List (Nat × Nat)
  ok5  : Bool
deriving DecidableEq, Repr

/-- Guard code 0b1111 is never legal (R30). -/
def Guard.ok (g : Guard) : Bool := !(g.inv && g.pred == 7)

/-- A source field with its trap, zero-literal and keep settings (R34, R35). -/
def srcOk (u : Use) (f : BitVec 9) (e z k : Bool) : Bool :=
  match u with
  | .none  => f == 0 && !e && !z && !k
  | .reg _ => !z || (f == 0 && !e && !k)
  | .pred  => decide (f.toNat < 8) && !e && !z && !k
  | .ctl   => !e && !z && !k

/-- A destination field (R32, R35). -/
def dstOk (u : Use) (f : BitVec 9) : Bool :=
  match u with
  | .none => f == 0
  | .pred => decide (f.toNat < 8)
  | _     => true

/-- The registers a field names. -/
def regsOf (u : Use) (f : BitVec 9) (z : Bool) : List (Nat × Nat) :=
  match u with
  | .reg n => if z then [] else [(f.toNat, n)]
  | _      => []

/-- A control field below a limit (R153). -/
def ctlBelow (f : BitVec 9) (n : Nat) : Bool := decide (f.toNat < n)

/-- The 64-bit special registers (R104). -/
def sreg64 (k : Nat) : Bool := [0x020, 0x101, 0x103].contains k

/-- The indices of R104's table. -/
def sregKnown (k : Nat) : Bool :=
  [0x000, 0x001, 0x002, 0x003, 0x004, 0x008, 0x009, 0x00A, 0x00C, 0x00D, 0x00E, 0x010, 0x011, 0x012, 0x013, 0x020,
   0x021, 0x030, 0x031, 0x032, 0x033, 0x034, 0x035, 0x100, 0x101, 0x102, 0x103].contains k

/-- The 64-bit registers of R312, the queue field QBASE of R298 among them. -/
def csr64 (k : Nat) : Bool :=
  (0x12 ≤ k && k ≤ 0x17) || k == 0x1B || k == 0x1C || (0x20 ≤ k && k ≤ 0x23) ||
  (0x100 ≤ k && k < 0x140 && k % 8 == 0) || k == 0x300 || (0x10000 ≤ k && k < 0x10000 + 8192 && k % 8 == 0)

/-- The indices of R312's table. -/
def csrKnown (k : Nat) : Bool :=
  k < 3 || (0x10 ≤ k && k ≤ 0x1C) || (0x20 ≤ k && k ≤ 0x23) || (0x100 ≤ k && k < 0x140 && k % 8 < 6) ||
  (0x200 ≤ k && k ≤ 0x204) || (0x300 ≤ k && k ≤ 0x303) || (0x800 ≤ k && k < 0x820) ||
  (0x10000 ≤ k && k < 0x10000 + 8192 && k % 8 < 5)

def FmtR.info (o : FmtR) (cls opc : Nat) (mods : List Nat) (d a b c : Use) (last extra ok5 : Bool) : WordInfo :=
  { cls := cls, opc := opc, g := o.g, last := last, ok5 := ok5
    ok4 := o.g.ok && mods.contains o.mod.toNat && dstOk d o.d && srcOk a o.a o.ea o.za (o.keep == 1) &&
      srcOk b o.b o.eb o.zb (o.keep == 2) && srcOk c o.c o.ec o.zc (o.keep == 3) && extra
    regs := regsOf d o.d false ++ regsOf a o.a o.za ++ regsOf b o.b o.zb ++ regsOf c o.c o.zc }

/-- `ew` allows a trap-on-empty bit that acts on a w register (MOVW, R102). -/
def FmtI.info (o : FmtI) (cls opc : Nat) (mods : List Nat) (d a : Use) (ew extra ok5 : Bool) : WordInfo :=
  { cls := cls, opc := opc, g := o.g, last := false, ok5 := ok5
    ok4 := o.g.ok && mods.contains o.mod.toNat && dstOk d o.d && srcOk a o.a (o.ea && !ew) o.za o.ka && extra
    regs := regsOf d o.d false ++ regsOf a o.a o.za }

def FmtK.info (o : FmtK) (cls opc : Nat) : WordInfo :=
  { cls := cls, opc := opc, g := o.g, last := false, ok5 := true, ok4 := o.g.ok && o.mod == 0
    regs := [(o.d.toNat, 1)] }

/-- `preds` for PGATE, whose fields name predicates (R108). -/
def FmtL.info (o : FmtL) (cls opc : Nat) (preds : Bool) : WordInfo :=
  let u := if preds then Use.pred else .reg 1
  { cls := cls, opc := opc, g := o.g, last := false, ok5 := true
    ok4 := o.g.ok && dstOk u o.d && dstOk u o.a && dstOk u o.b && dstOk u o.c
    regs := regsOf u o.d false ++ regsOf u o.a false ++ regsOf u o.b false ++ regsOf u o.c false }

/-- The conversion codes and mods of R125: types 0-6, source other than destination, nosat for E4M3 and E5M2 only. -/
def convOk (conv : BitVec 9) (mod : BitVec 3) : Bool :=
  let dst := conv.toNat % 16
  let src := conv.toNat / 16 % 16
  let nosat := conv.getLsbD 8
  decide (dst < 7) && decide (src < 7) && src != dst && (!nosat || dst == 3 || dst == 4) &&
    (if 5 ≤ src && 5 ≤ dst then mod == 0
     else decide (mod.toNat < 4) || (mod == 4 && 1 ≤ dst && dst ≤ 4 && src < 5))

def FmtV.info (o : FmtV) (cls opc : Nat) : WordInfo :=
  { cls := cls, opc := opc, g := o.g, last := false, ok5 := true
    ok4 := o.g.ok && srcOk (.reg 1) o.a o.ea o.za o.keep && convOk o.conv o.mod
    regs := [(o.d.toNat, 1)] ++ regsOf (.reg 1) o.a o.za }

/-- What a format B word holds (R43). -/
inductive BUse where
  | target
  | bare
  | code
deriving DecidableEq, Repr

def FmtB.info (o : FmtB) (cls opc : Nat) (u : BUse) : WordInfo :=
  { cls := cls, opc := opc, g := o.g, last := true, ok5 := true
    ok4 := o.g.ok && (match u with
      | .target => o.ind || (o.a == 0 && o.off.toNat % 8 == 0)
      | .bare   => !o.ind && o.a == 0 && o.off == 0
      | .code   => !o.ind && o.a == 0 && decide (o.off.toNat < 65536))
    regs := if o.ind then [(o.a.toNat, 1)] else [] }

/-- The registers a memory word's data takes (R44, R163). -/
def FmtM.nregs (o : FmtM) : Nat := if o.size == 3 then 2 else if o.size == 4 then 4 else 1

def FmtM.info (o : FmtM) (cls opc maxSize : Nat) : WordInfo :=
  { cls := cls, opc := opc, g := o.g, last := false, ok5 := true
    ok4 := o.g.ok && decide (o.size.toNat ≤ maxSize) && srcOk (.reg 1) o.a o.ea o.za o.ka
    regs := [(o.d.toNat, o.nregs)] ++ regsOf (.reg 1) o.a o.za }

/-- The four words of format A (R190, R196, R198). -/
inductive AUse where
  | atom
  | red
  | waitv
  | note
deriving DecidableEq, Repr

/-- Whether a format A word uses its c field: cas, and WAITV.tmo (R190, R196). -/
def FmtA.usesC (o : FmtA) (u : AUse) : Bool :=
  match u with
  | .atom  => o.op == 9
  | .red   => o.op == 9
  | .waitv => decide (8 ≤ o.op.toNat)
  | .note  => false

def FmtA.info (o : FmtA) (cls opc : Nat) (u : AUse) : WordInfo :=
  { cls := cls, opc := opc, g := o.g, last := o.pub || o.ref, ok5 := true
    ok4 := o.g.ok && decide (o.space.toNat < 3) && (o.usesC u || o.c == 0) && (match u with
      | .atom  => decide (o.op.toNat ≤ 13)
      | .red   => decide (o.op.toNat ≤ 13) && o.d == 0
      | .waitv => o.op == 0 || decide (8 ≤ o.op.toNat)
      | .note  => decide (o.op.toNat < 2) && !o.ref && o.d == 0 && o.b == 0)
    regs := [(o.a.toNat, if o.space == 2 then 2 else 1)] ++ (if u == .note then [] else [(o.b.toNat, 1)]) ++
      (if o.usesC u then [(o.c.toNat, 1)] else []) ++ (if u == .atom || u == .waitv then [(o.d.toNat, 1)] else []) }

def FmtC.info (o : FmtC) (opc : Nat) (mods : List Nat) (last extra : Bool) (regs : List (Nat × Nat)) (ok5 : Bool) :
    WordInfo :=
  { cls := 3, opc := opc, g := o.g, last := last, ok5 := ok5, regs := regs
    ok4 := o.g.ok && mods.contains o.mod.toNat && extra }

def FmtT.info (o : FmtT) (opc : Nat) (mods last extra : Bool) (regs : List (Nat × Nat)) (ok5 : Bool) : WordInfo :=
  { cls := 4, opc := opc, g := o.g, last := last, ok5 := ok5, regs := regs, ok4 := o.g.ok && mods && extra }

def FmtS.info (o : FmtS) (opc : Nat) (mods : List Nat) (last extra : Bool) (regs : List (Nat × Nat)) (ok5 : Bool) :
    WordInfo :=
  { cls := 5, opc := opc, g := o.g, last := last, ok5 := ok5, regs := regs
    ok4 := o.g.ok && mods.contains o.mod.toNat && extra }

/-- What each instruction says of itself in a warp of width `W`; `none` for the steps of the engines. -/
def Instr.info (W : Nat) : Instr → Option WordInfo
  | .nop o => some (o.info 0 0 [0] .none .none .none .none false (true) (true))
  | .mov o => some (o.info 0 1 [0, 1, 2] (.reg (2 ^ o.mod.toNat)) (.reg (2 ^ o.mod.toNat)) .none .none false (true) (true))
  | .movi o => some (o.info 0 2)
  | .movw o => some (o.info 0 3 [0] (.reg 1) .none true (true) (decide (o.imm.toNat < 64)))
  | .wset o => some (o.info 0 4 [0] .none (.reg 1) false (true) (decide (o.imm.toNat < 64)))
  | .sread o => some (o.info 0 5 [0, 1] (.reg (if sreg64 o.imm.toNat then 2 else 1)) .none false (true && (o.mod == 0 || o.imm.toNat == 0x031)) (sregKnown o.imm.toNat))
  | .pmovRp o => some (o.info 0 6 [0] .pred (.reg 1) (.reg 1) .none false (true) (true))
  | .pmovPr o => some (o.info 0 6 [1] (.reg 1) (.reg 1) (.reg 1) .pred false (true) (true))
  | .pmovSave o => some (o.info 0 6 [2] (.reg 1) .none .none .none false (true) (true))
  | .pmovLoad o => some (o.info 0 6 [3] .none (.reg 1) .none .none false (true) (true))
  | .pgate o => some (o.info 0 7 true)
  | .iadd o => some (o.info 0 16 [0, 1, 2] (.reg 1) (.reg 1) (.reg 1) .none false (true) (true))
  | .iaddImm o => some (o.info 0 17 [0, 1, 2] (.reg 1) (.reg 1) false (true) (true))
  | .isub o => some (o.info 0 18 [0, 1, 2] (.reg 1) (.reg 1) (.reg 1) .none false (true) (true))
  | .isubImm o => some (o.info 0 19 [0, 1, 2] (.reg 1) (.reg 1) false (true) (true))
  | .imul o => some (o.info 0 20 [0] (.reg 1) (.reg 1) (.reg 1) .none false (true) (true))
  | .imulImm o => some (o.info 0 21 [0] (.reg 1) (.reg 1) false (true) (true))
  | .imulh o => some (o.info 0 22 [0, 1, 2] (.reg 1) (.reg 1) (.reg 1) .none false (true) (true))
  | .imulhImm o => some (o.info 0 23 [0, 1, 2] (.reg 1) (.reg 1) false (true) (true))
  | .imin o => some (o.info 0 24 [0, 1] (.reg 1) (.reg 1) (.reg 1) .none false (true) (true))
  | .iminImm o => some (o.info 0 25 [0, 1] (.reg 1) (.reg 1) false (true) (true))
  | .imax o => some (o.info 0 26 [0, 1] (.reg 1) (.reg 1) (.reg 1) .none false (true) (true))
  | .imaxImm o => some (o.info 0 27 [0, 1] (.reg 1) (.reg 1) false (true) (true))
  | .icmp o => some (o.info 0 28 [0, 1, 2, 3, 4, 5, 6, 7] .pred (.reg 1) (.reg 1) .none false (true) (true))
  | .icmpImm o => some (o.info 0 29 [0, 1, 2, 3, 4, 5, 6, 7] .pred (.reg 1) false (true) (true))
  | .shl o => some (o.info 0 30 [0] (.reg 1) (.reg 1) (.reg 1) .none false (true) (true))
  | .shlImm o => some (o.info 0 31 [0] (.reg 1) (.reg 1) false (true) (true))
  | .shr o => some (o.info 0 32 [0] (.reg 1) (.reg 1) (.reg 1) .none false (true) (true))
  | .shrImm o => some (o.info 0 33 [0] (.reg 1) (.reg 1) false (true) (true))
  | .sar o => some (o.info 0 34 [0] (.reg 1) (.reg 1) (.reg 1) .none false (true) (true))
  | .sarImm o => some (o.info 0 35 [0] (.reg 1) (.reg 1) false (true) (true))
  | .lgate o => some (o.info 0 36 false)
  | .imad o => some (o.info 0 38 [0, 1] (.reg 1) (.reg 1) (.reg 1) (.reg 1) false (true) (true))
  | .imadw o => some (o.info 0 39 [0, 1] (.reg 2) (.reg 1) (.reg 1) (.reg 2) false (true) (true))
  | .iaddc o => some (o.info 0 40 [0, 1] (.reg 1) (.reg 1) (.reg 1) .pred false (true) (true))
  | .isel o => some (o.info 0 41 [0] (.reg 1) (.reg 1) (.reg 1) .pred false (true) (true))
  | .iabs o => some (o.info 0 42 [0, 1] (.reg 1) (.reg 1) .none .none false (true) (true))
  | .ineg o => some (o.info 0 43 [0, 1] (.reg 1) (.reg 1) .none .none false (true) (true))
  | .fshl o => some (o.info 0 44 [0, 1] (.reg 1) (.reg 1) (.reg 1) (.reg 1) false (true) (true))
  | .fshr o => some (o.info 0 45 [0, 1] (.reg 1) (.reg 1) (.reg 1) (.reg 1) false (true) (true))
  | .popc o => some (o.info 0 46 [0] (.reg 1) (.reg 1) .none .none false (true) (true))
  | .clz o => some (o.info 0 47 [0] (.reg 1) (.reg 1) .none .none false (true) (true))
  | .brev o => some (o.info 0 48 [0] (.reg 1) (.reg 1) .none .none false (true) (true))
  | .bfx o => some (o.info 0 49 [0, 1] (.reg 1) (.reg 1) (.reg 1) .none false (true) (true))
  | .bfi o => some (o.info 0 50 [0] (.reg 1) (.reg 1) (.reg 1) (.reg 1) false (true) (true))
  | .lea o => some (o.info 0 51 [0, 1, 2, 3, 4, 5, 6, 7] (.reg 1) (.reg 1) (.reg 1) (.reg 1) false (true) (true))
  | .fadd o => some (o.info 0 64 [0, 1, 2, 3] (.reg 1) (.reg 1) (.reg 1) .none false (true) (true))
  | .faddImm o => some (o.info 0 65 [0, 1, 2, 3] (.reg 1) (.reg 1) false (true) (true))
  | .fsub o => some (o.info 0 66 [0, 1, 2, 3] (.reg 1) (.reg 1) (.reg 1) .none false (true) (true))
  | .fsubImm o => some (o.info 0 67 [0, 1, 2, 3] (.reg 1) (.reg 1) false (true) (true))
  | .fmul o => some (o.info 0 68 [0, 1, 2, 3] (.reg 1) (.reg 1) (.reg 1) .none false (true) (true))
  | .fmulImm o => some (o.info 0 69 [0, 1, 2, 3] (.reg 1) (.reg 1) false (true) (true))
  | .fmin o => some (o.info 0 70 [0, 1] (.reg 1) (.reg 1) (.reg 1) .none false (true) (true))
  | .fminImm o => some (o.info 0 71 [0, 1] (.reg 1) (.reg 1) false (true) (true))
  | .fmax o => some (o.info 0 72 [0, 1] (.reg 1) (.reg 1) (.reg 1) .none false (true) (true))
  | .fmaxImm o => some (o.info 0 73 [0, 1] (.reg 1) (.reg 1) false (true) (true))
  | .fcmp o => some (o.info 0 74 [0, 1, 2, 3, 4, 5, 6, 7] .pred (.reg 1) (.reg 1) .none false (true) (true))
  | .fcmpImm o => some (o.info 0 75 [0, 1, 2, 3, 4, 5, 6, 7] .pred (.reg 1) false (true) (true))
  | .ffma o => some (o.info 0 76 [0, 1, 2, 3] (.reg 1) (.reg 1) (.reg 1) (.reg 1) false (true) (true))
  | .fabs o => some (o.info 0 77 [0] (.reg 1) (.reg 1) .none .none false (true) (true))
  | .fneg o => some (o.info 0 78 [0] (.reg 1) (.reg 1) .none .none false (true) (true))
  | .fclass o => some (o.info 0 79 [0] (.reg 1) (.reg 1) .none .none false (true) (true))
  | .frnd o => some (o.info 0 80 [0, 1, 2, 3] (.reg 1) (.reg 1) .none .none false (true) (true))
  | .fmaxa o => some (o.info 0 81 [0] (.reg 1) (.reg 1) (.reg 1) .none false (true) (true))
  | .hadd2 o => some (o.info 0 82 [0, 1, 2, 3, 4, 5, 6, 7] (.reg 1) (.reg 1) (.reg 1) .none false (true) (true))
  | .hmul2 o => some (o.info 0 83 [0, 1, 2, 3, 4, 5, 6, 7] (.reg 1) (.reg 1) (.reg 1) .none false (true) (true))
  | .hfma2 o => some (o.info 0 84 [0, 1, 2, 3, 4, 5, 6, 7] (.reg 1) (.reg 1) (.reg 1) (.reg 1) false (true) (true))
  | .hmax2 o => some (o.info 0 85 [0, 1, 4, 5] (.reg 1) (.reg 1) (.reg 1) .none false (true) (true))
  | .cvt o => some (o.info 0 88)
  | .f8cv o => some (o.info 0 89 [0, 1, 2, 3, 4] (.reg 1) (.reg 1) (.reg 1) .ctl false (true && ctlBelow o.c 16) (true))
  | .f8up o => some (o.info 0 90 [0, 1, 2, 3] (.reg 1) (.reg 1) (.reg 1) .ctl false (true && ctlBelow o.c 8) (true))
  | .lshuf o => some (o.info 0 96 [0] (.reg 1) (.reg 1) (.reg 1) .none false (true) (true))
  | .lxor o => some (o.info 0 97 [0] (.reg 1) (.reg 1) (.reg 1) .none false (true) (true))
  | .lrotw o => some (o.info 0 98 [0, 1] (.reg 1) (.reg 1) .none .ctl false (true && ctlBelow o.c 16) (true))
  | .lred o => some (o.info 0 99 [0] (.reg 1) (.reg 1) .none .ctl false (true && ctlBelow o.c 192) (decide (o.c.toNat % 16 < 12)))
  | .lscan o => some (o.info 0 100 [0, 1] (.reg 1) (.reg 1) .none .ctl false (true && ctlBelow o.c 192) (decide (o.c.toNat % 16 < 12)))
  | .ballot o => some (o.info 0 101 [0, 1, 2] .ctl .pred .none .none false (true && ctlBelow o.d 16) (decide (o.d.toNat < 12)))
  | .matchKey o => some (o.info 0 102 [0, 1, 2] (.reg 1) (.reg (if o.mod == 1 then 2 else 1)) .none .pred false (true) (true))
  | .matchn o => some (o.info 0 103 [0, 1, 2] (.reg 1) (.reg (if o.mod == 1 then 2 else 1)) .none .none false (true) (true))
  | .tbl o => some (o.info 0 104 [0, 1, 2, 3] (.reg 1) (.reg (2 ^ o.mod.toNat)) (.reg 1) .ctl false (true && ctlBelow o.c 256) (true))
  | .elect o => some (o.info 0 105 [0] .pred .none .none .none false (true) (true))
  | .bra o => some (o.info 0 112 .target)
  | .jmp o => some (o.info 0 113 .target)
  | .call o => some (o.info 0 114 .target)
  | .ret o => some (o.info 0 115 .bare)
  | .exit o => some (o.info 0 116 .bare)
  | .trap o => some (o.info 0 117 .code)
  | .rcp o => some (o.info 1 0 [0, 1, 2, 3] (.reg 1) (.reg 1) .none .none false (true) (true))
  | .rsq o => some (o.info 1 1 [0] (.reg 1) (.reg 1) .none .none false (true) (true))
  | .sqrt o => some (o.info 1 2 [0, 1, 2, 3] (.reg 1) (.reg 1) .none .none false (true) (true))
  | .div o => some (o.info 1 3 [0, 1, 2, 3] (.reg 1) (.reg 1) (.reg 1) .none false (true) (true))
  | .exp2 o => some (o.info 1 4 [0] (.reg 1) (.reg 1) .none .none false (true) (true))
  | .log2 o => some (o.info 1 5 [0] (.reg 1) (.reg 1) .none .none false (true) (true))
  | .sinp o => some (o.info 1 6 [0] (.reg 1) (.reg 1) .none .none false (true) (true))
  | .cosp o => some (o.info 1 7 [0] (.reg 1) (.reg 1) .none .none false (true) (true))
  | .tanh o => some (o.info 1 8 [0] (.reg 1) (.reg 1) .none .none false (true) (true))
  | .sigm o => some (o.info 1 9 [0] (.reg 1) (.reg 1) .none .none false (true) (true))
  | .idiv o => some (o.info 1 10 [0, 1] (.reg 1) (.reg 1) (.reg 1) .none false (true) (true))
  | .irem o => some (o.info 1 11 [0, 1] (.reg 1) (.reg 1) (.reg 1) .none false (true) (true))
  | .ldb o => some (o.info 2 0 6)
  | .stb o => some (o.info 2 1 4)
  | .ldd o => some (o.info 2 2 6)
  | .std o => some (o.info 2 3 4)
  | .ldk o => some (o.info 2 4 6)
  | .stk o => some (o.info 2 5 4)
  | .atom o => some (o.info 2 6 .atom)
  | .red o => some (o.info 2 7 .red)
  | .waitv o => some (o.info 2 8 .waitv)
  | .note o => some (o.info 2 9 .note)
  | .phase o => some (o.info 2 10 [0, 1, 2] .none .none .none .none true (true) (true))
  | .fence o => some (o.info 2 11 [0, 1, 2, 3] .none .none .none .none false (true) (true))
  | .regb o => some (o.info 2 12 .target)
  | .rege o => some (o.info 2 13 [0] .none .none .none .none true (true) (true))
  | .regx o => some (o.info 2 14 [0] .none .none .none .none false (true) (true))
  | .regq o => some (o.info 2 15 [0] (.reg 1) .none .none .none false (true) (true))
  | .fltm o => some (o.info 2 16 [0, 1, 2, 3] (.reg 1) .none .none .none false (true) (decide (o.mod.toNat * 32 < W)))
  | .fltmClr o => some (o.info 2 16 [4] .none .none .none .none false (true) (true))
  | .cpyin o => some (o.info 0 [0, 16] false (o.v == 0) [] (decide (o.wa.toNat % 2 = 0)))
  | .cpyout o => some (o.info 1 [0, 16] false (o.v == 0) [] (decide (o.wa.toNat % 2 = 0)))
  | .cpyg o => some (o.info 2 [0, 16] false (true) [(o.v.toNat, 1)] (decide (o.wa.toNat % 2 = 0)))
  | .cpys o => some (o.info 3 [0, 16] false (true) [(o.v.toNat, 1)] (decide (o.wa.toNat % 2 = 0)))
  | .cpyd o => some (o.info 4 [0, 1, 16, 17] false (o.v == 0) [] (decide (o.wa.toNat % 2 = 0)))
  | .cpyf o => some (o.info 5 [0, 16] false (o.wa == 0) [(o.v.toNat, 1)] (true))
  | .cpyfFar o => some (o.info 5 [1, 17] false (o.buf == 0 && o.imm == 0) [(o.v.toNat, 1)] (decide (o.wa.toNat % 2 = 0)))
  | .stageMax o => some (o.info 6 [0] false (o.token == 0 && o.buf == 0 && o.wa == 0 && o.v == 0 && o.imm == 0) [] (true))
  | .stageAdd o => some (o.info 6 [1] false (o.token == 0 && o.buf == 0 && o.wa == 0 && o.wp == 0 && o.v == 0) [] (decide (o.imm != 0)))
  | .publ o => some (o.info 7 [0, 1] true (o.token == 0 && o.wa == 0 && o.wp == 0 && o.v == 0 && o.imm == 0) [] (true))
  | .rpush o => some (o.info 8 [0] true (o.token == 0 && o.wa == 0 && o.wp == 0 && o.v == 0) [] (true))
  | .rpop o => some (o.info 9 [0] false (o.token == 0 && o.wa == 0 && o.wp == 0 && o.v == 0) [] (true))
  | .rwaitC o => some (o.info 10 [0] false (o.wa == 0 && o.wp == 0 && o.v == 0) [] (true))
  | .rwaitP o => some (o.info 10 [1] false (o.wa == 0 && o.wp == 0 && o.v == 0) [] (true))
  | .cpyq o => some (o.info 11 [0, 1, 2, 3] false (o.wa == 0 && o.wp == 0 && o.v == 0 && o.imm == 0 && (o.mod != 3 || o.buf == 0)) [] (true))
  | .pfch o => some (o.info 12 [0, 16] false (o.buf == 0 && o.v == 0 && o.imm == 0) [] (decide (o.wa.toNat % 2 = 0)))
  | .evict o => some (o.info 13 [0, 16] false (o.buf == 0 && o.v == 0 && o.imm == 0) [] (decide (o.wa.toNat % 2 = 0)))
  | .bufd o => some (o.info 18 [0] true (o.token == 0 && o.wp == 0 && o.v == 0 && o.imm == 0) [] (decide (o.wa.toNat % 4 == 0)))
  | .cload o => some (o.info 14 [0] false (o.buf == 0 && o.wp == 0 && o.v == 0) [] (decide (o.imm.toNat < 8) && decide (o.wa.toNat % 2 = 0)))
  | .crun o => some (o.info 15 [0] false (o.buf == 0 && o.wp == 0 && o.v == 0) [] (decide (o.imm.toNat < 8) && decide (o.wa.toNat % 2 = 0)))
  | .carm o => some (o.info 16 [0] false (o.buf == 0 && o.wp == 0) [(o.v.toNat, 2)] (decide (o.imm.toNat < 8) && decide (o.wa.toNat % 2 = 0)))
  | .cstepQ o => some (o.info 17 [0] false (o.buf == 0 && o.wa == 0 && o.wp == 0 && o.v == 0 && o.imm == 0) [] (true))
  | .cstepWait o => some (o.info 17 [1] false (o.buf == 0 && o.wa == 0 && o.wp == 0 && o.imm == 0) [(o.v.toNat, 1)] (true))
  | .mma o => some (o.info 0 (o.mod.toNat < 4) true (true && (if o.mod.getLsbD 0 then o.imm.toNat < 16 else o.imm == 0)) [(o.va.toNat, 256 / W), (o.vf.toNat, 1)] (decide (o.mask.toNat < 12)))
  | .mmaKeep o => some (o.info 0 ((4 <= o.mod.toNat && o.mod.toNat < 8)) true (o.va == 0 && o.vf == 0 && (if o.mod.getLsbD 0 then o.imm.toNat < 16 else o.imm == 0)) [] (decide (o.mask.toNat < 12)))
  | .mclr o => some (o.info 1 (o.mod == 0) false (o.mask == 0 && o.va == 0 && o.vf == 0 && o.q == 0 && decide (o.imm.toNat < 16)) [] (true))
  | .mldt o => some (o.info 2 (o.mod.toNat < 2) false (o.mask == 0 && o.va == 0) [(o.vf.toNat, 1)] (true))
  | .mmovr o => some (o.info 3 (o.mod.toNat < 2) false (o.mask == 0 && o.q == 0) [(o.va.toNat, 2), (o.vf.toNat, 1)] (true))
  | .mmovw o => some (o.info 4 (o.mod.toNat < 2) false (o.mask == 0 && o.q == 0) [(o.va.toNat, 2), (o.vf.toNat, 1)] (true))
  | .mqry o => some (o.info 6 (o.mod.toNat < 2) false (o.mask == 0 && o.q == 0 && (o.mod == 1 || (o.vf == 0 && o.imm == 0))) ([(o.va.toNat, 1)] ++ (if o.mod == 1 then [(o.vf.toNat, 1)] else [])) (true))
  | .mdrain o => some (o.info 5 (o.mod.toNat % 8 < 5) false (o.mask == 0 && o.vf == 0) [(o.va.toNat, 1)] (true))
  | .mdrainAdd o => some (o.info 5 ((o.mod.toNat % 8 == 5 && o.mod.toNat / 8 < 2)) false (o.mask == 0 && o.vf == 0 && o.q == 0) [(o.va.toNat, (if o.mod.toNat / 8 == 1 then 2 else 1))] (true))
  | .mdrainUpd o => some (o.info 5 ((o.mod.toNat % 8 == 6 && o.mod.toNat / 8 < 2)) false (o.mask == 0 && o.q == 0) [(o.va.toNat, (if o.mod.toNat / 8 == 1 then 2 else 1)), (o.vf.toNat, 1)] (true))
  | .qdual o => some (o.info 7 (o.mod.toNat % 8 < 2) false (o.tile == 0 && o.mask == 0) [(o.va.toNat, 1), (o.vf.toNat, 1)] (true))
  | .rqnt o => some (o.info 8 (o.mod.toNat % 8 == 0) false (o.tile == 0 && o.mask == 0) [(o.va.toNat, 1), (o.vf.toNat, 1)] (true))
  | .mjoin o => some (o.info 0 [0] false (o.w == 0 && o.v == 0 && o.imm == 0) [] (decide (o.idx.toNat < 12)))
  | .mleave o => some (o.info 1 [0] false (o.w == 0 && o.v == 0 && o.imm == 0) [] (decide (o.idx.toNat < 12)))
  | .mwait o => some (o.info 2 [0] true (o.w == 0 && o.v == 0 && o.imm == 0) [] (decide (o.idx.toNat < 12)))
  | .mset o => some (o.info 3 [0, 1, 2] false (o.w == 0) [(o.v.toNat, 1)] (decide (o.idx.toNat < 12) && decide (o.imm.toNat * 32 < W)))
  | .mget o => some (o.info 4 [0, 1] false (o.w == 0) [(o.v.toNat, 1)] (decide (o.idx.toNat < 12) && decide (o.imm.toNat * 32 < W)))
  | .barb o => some (o.info 5 [0] true (o.w == 0 && o.v == 0 && o.imm == 0) [] (true))
  | .bara o => some (o.info 6 [0] false (o.w == 0 && o.imm == 0) [(o.v.toNat, 1)] (true))
  | .barw o => some (o.info 7 [0] true (o.w == 0 && o.imm == 0) [(o.v.toNat, 1)] (true))
  | .bard o => some (o.info 8 [0, 1] true (o.idx == 0 && o.w == 0 && o.v == 0 && o.imm == 0) [] (true))
  | .treea o => some (o.info 9 [0] false (o.w == 0 && o.imm == 0) [(o.v.toNat, 1)] (decide (o.idx.toNat < 8)))
  | .treew o => some (o.info 10 [0] true (o.w == 0 && o.imm == 0) [(o.v.toNat, 1)] (decide (o.idx.toNat < 8)))
  | .attach o => some (o.info 11 [0] false (o.idx == 0 && o.w == 0 && o.imm == 0) [(o.v.toNat, 1)] (true))
  | .detach o => some (o.info 12 [0] false (o.idx == 0 && o.w == 0 && o.imm == 0) [(o.v.toNat, 1)] (true))
  | .yieldStanding o => some (o.info 13 [0] true (o.idx == 0 && o.w == 0 && o.v == 0 && o.imm == 0) [] (true))
  | .sleep o => some (o.info 14 [0] true (o.idx == 0 && o.w == 0 && o.v == 0) [] (true))
  | .sleepUntil o => some (o.info 14 [1] true (o.idx == 0 && o.w == 0 && o.imm == 0) [(o.v.toNat, 2)] (true))
  | .enq o => some (o.info 15 [0] true (o.idx == 0) [(o.v.toNat, 1)] (decide (o.w.toNat % 2 = 0) && decide (o.imm.toNat < 1024)))
  | .csrr o => some (o.info 6 0 [0] (.reg (if csr64 o.imm.toNat then 2 else 1)) .none false (true) (csrKnown o.imm.toNat))
  | .csrw o => some (o.info 6 1 [0] .none (.reg (if csr64 o.imm.toNat then 2 else 1)) false (true) (csrKnown o.imm.toNat))
  | .tret o => some (o.info 6 2 [0, 1, 2] .none (if o.mod == 2 then .reg 2 else .none) .none .none true (true) ((o.mod != 2 || o.a.toNat < 32)))
  | .xsave o => some (o.info 6 3 [0] (.reg 1) (.reg 1) .none .none true (true) (true))
  | .xload o => some (o.info 6 4 [0] (.reg 1) (.reg 1) .none .none true (true) (true))
  | .tlbi o => some (o.info 6 5 [0] (.reg 1) (.reg 1) .none .none true (true) (true))
  | .tlbiPage o => some (o.info 6 5 [1] (.reg 1) (.reg 1) (.reg 2) .none true (true) (true))
  | .pgset o => some (o.info 6 6 [0] (.reg 1) (.reg 1) (.reg 2) (.reg 2) true (true) (true))
  | .ctxend o => some (o.info 6 7 [0] (.reg 1) (.reg 1) .none .none true (true) (true))
  | .halt o => some (o.info 6 8 [0] .none .none .none .none true (true) (true))
  | .retire o => some (o.info 6 9 [0] (.reg 1) (.reg 1) .none .none true (true) (true))
  | .snapm o => some (o.info 6 10 [0] (.reg 1) (.reg 1) (.reg 2) .none true (true) (true))
  | .logrAddr o => some (o.info 6 11 [0] (.reg 1) (.reg 1) .none .none false (true) (true))
  | .logrInfo o => some (o.info 6 11 [1] (.reg 1) (.reg 1) .none .none false (true) (true))
  | .logrCount o => some (o.info 6 11 [2] (.reg 1) .none .none .none false (true) (true))
  | .logrClr o => some (o.info 6 11 [3] .none .none .none .none false (true) (true))
  | .tjopen o => some (o.info 7 0 [0] (.reg 1) (.reg 1) (.reg 1) .none true (true) (true))
  | .tjstep o => some (o.info 7 1 [0] .none (.reg 1) (.reg 1) (.reg 2) false (true) (true))
  | .tjend o => some (o.info 7 2 [0] .none (.reg 1) (.reg 1) (.reg 1) false (true) (true))
  | .tjendFree o => some (o.info 7 2 [1] .none (.reg 1) .none .none false (true) (true))
  | .tjrew o => some (o.info 7 3 [0] .none (.reg 1) (.reg 1) (.reg 1) false (true) (true))
  | .tjtake o => some (o.info 7 4 [0] (.reg 4) .none .none .none false (true) (true))
  | .tjtakeTry o => some (o.info 7 4 [1] (.reg 4) .none .none .none false (true) (true))
  | .tjtakeDepth o => some (o.info 7 4 [2] (.reg 1) .none .none .none false (true) (true))
  | .tjtakeStat o => some (o.info 7 4 [3] (.reg 1) .none (.reg 1) .none false (true) (true))
  | .tjset o => some (o.info 7 5 [0] .none (.reg (if o.imm == 6 then 2 else 1)) false (true) true)
  | .clauseIssue _ _ _ => none
  | .bundlePark _ _ => none
  | .blockedRegisterFill _ _ => none
  | .codeFetch _ _ => none
  | .compactorMove _ _ => none
  | .sfuQueueGrant _ _ _ => none
  | .sfuResult _ => none
  | .tableEntryGrant _ _ => none
  | .loadReturn _ _ => none
  | .storeAck _ => none
  | .portOperation _ _ => none
  | .atomicReturn _ => none
  | .waiterPlaceFree _ => none
  | .waitvTimeout _ => none
  | .sleepRelease _ => none
  | .fenceComplete _ _ => none
  | .publication _ => none
  | .treeRelease _ _ _ => none
  | .treeCfgWrite _ _ => none
  | .regionOpen _ => none
  | .regionAccessRetry _ => none
  | .regionCommit _ => none
  | .mmaFire _ => none
  | .tileOperationPerform _ => none
  | .tileUpdatePerform _ => none
  | .copyQueueAccept _ _ => none
  | .copyFire _ => none
  | .copyComplete _ _ => none
  | .rwaitFill _ => none
  | .scheduleFiring _ => none
  | .blockPlacement _ _ => none
  | .placementWaitExpiry _ => none
  | .spareWarpStart _ _ _ => none
  | .shrinkRequest _ _ => none
  | .shrinkCancel _ => none
  | .preemption _ => none
  | .blockSave _ => none
  | .blockRestore _ _ => none
  | .blockEnd _ => none
  | .kernelDone _ => none
  | .queueEntryTake _ => none
  | .dependenceCheck _ => none
  | .queueLevelRaise _ => none
  | .queueDoorbell _ _ => none
  | .queueEnable _ _ => none
  | .queueDisable _ => none
  | .queueSuspend _ => none
  | .queueResume _ => none
  | .registerWrite _ _ _ _ => none
  | .contextBind _ => none
  | .contextFree _ => none
  | .errqDropClear => none
  | .hostContextEnd _ => none
  | .contextEnded _ => none
  | .errorRingRetry => none
  | .stripeRequest _ _ _ => none
  | .gatherReply _ _ _ => none
  | .gatherTimeout _ _ _ => none
  | .reduceContribution _ _ _ => none
  | .reduceDone _ _ _ => none
  | .reduceSendTimeout _ _ _ => none
  | .reducingTimeout _ _ => none
  | .migrationHandover _ _ => none
  | .mode1Fill _ _ => none
  | .meshFlitReceive _ _ _ => none
  | .frameReceive _ _ => none
  | .ackReceive _ _ => none
  | .retransmitTimeout _ _ => none
  | .portTrainingEnd _ _ => none
  | .laneLost _ => none
  | .portEnable _ => none
  | .portDisable _ => none
  | .cxlMemAccess _ _ _ => none
  | .hostTimeout _ => none
  | .timeSync _ _ => none
  | .graphLoadAtPlacement _ => none
  | .carmStart _ _ => none
  | .chunkOffer _ => none
  | .nodeComplete _ _ => none
  | .runComplete _ => none
  | .rewardMessage _ _ => none
  | .joinDeadline _ _ => none
  | .orphanExpiry _ _ => none
  | .turntableScan _ _ => none
  | .episodeRelease _ _ => none
  | .tjtakePop _ => none
  | .cut _ _ => none
  | .pageDrainAck _ _ _ => none
  | .warmReset _ => none
  | .dieStart _ _ => none
  | .startStepFailure _ => none
  | .attestationRequest _ _ => none
  | .healthRefresh _ _ _ _ => none
  | .sramSoftError _ => none
  | .powerLimit _ _ => none
  | .unassignedOpcode _ => none
  | .reduceSendAcknowledgement _ _ _ => none
  | .migrationHandoverReply _ _ => none
  | .errorRingWriteFailure => none
  | .measurementRegisterExtension _ _ _ => none

/-- Checks 3 and 4 of R49 on the word alone; the steps of the engines are always well formed. -/
def Instr.wf (i : Instr) : Bool :=
  match i.info 128 with
  | some w => w.ok4
  | none   => true

/-- R33: the register lies within an allocation of `n` and is aligned to its count. -/
def regFits (n : Nat) (r : Nat × Nat) : Bool := decide (r.1 % r.2 = 0) && decide (r.1 + r.2 ≤ n)

/-- Check 5 of R49 for an allocation of `n` registers per thread. -/
def WordInfo.fits (w : WordInfo) (n : Nat) : Bool := w.ok5 && w.regs.all (regFits n)

end Sys2Proof
end

