-- ==== Sys2Proof/Decode.lean ====
section
/-! DEFINITION. The decoder of instruction words and clause headers (spec 02_clause R20-R22, R29, R38-R59), total
on any word and refusing by name, and after it the encoder, written from the same tables. -/

namespace Sys2Proof

/-- Bits [lo+n-1:lo] of a word. -/
def bits (lo n : Nat) (w : Word64) : BitVec n := w.extractLsb' lo n

/-- One bit of a word. -/
def bit (k : Nat) (w : Word64) : Bool := w.getLsbD k

/-- Bits [51:48] (R29). -/
def guardOf (w : Word64) : Guard := ⟨bit 51 w, bits 48 3 w⟩

def fmtR (w : Word64) : FmtR :=
  ⟨guardOf w, bits 45 3 w, bits 36 9 w, bits 27 9 w, bits 18 9 w, bits 9 9 w, bits 7 2 w, bit 6 w, bit 5 w, bit 4 w,
   bit 3 w, bit 2 w, bit 1 w⟩
def fmtI (w : Word64) : FmtI :=
  ⟨guardOf w, bits 45 3 w, bits 36 9 w, bits 27 9 w, bit 26 w, bit 25 w, bit 24 w, bits 0 24 w⟩
def fmtK (w : Word64) : FmtK := ⟨guardOf w, bits 41 7 w, bits 32 9 w, bits 0 32 w⟩
def fmtL (w : Word64) : FmtL := ⟨guardOf w, bits 36 9 w, bits 27 9 w, bits 18 9 w, bits 9 9 w, bits 1 8 w⟩
def fmtV (w : Word64) : FmtV :=
  ⟨guardOf w, bits 45 3 w, bits 36 9 w, bits 27 9 w, bits 18 9 w, bit 7 w, bit 6 w, bit 3 w⟩
def fmtB (w : Word64) : FmtB := ⟨guardOf w, bit 44 w, bits 32 9 w, bits 0 32 w⟩
def fmtM (w : Word64) : FmtM :=
  ⟨guardOf w, bits 45 3 w, bits 36 9 w, bits 27 9 w, bit 26 w, bit 25 w, bit 24 w, bits 0 24 w⟩
def fmtA (w : Word64) : FmtA :=
  ⟨guardOf w, bits 44 4 w, bits 42 2 w, bit 41 w, bit 40 w, bits 31 9 w, bits 22 9 w, bits 13 9 w, bits 4 9 w, bit 3 w⟩
def fmtC (w : Word64) : FmtC :=
  ⟨guardOf w, bits 42 6 w, bits 38 4 w, bits 32 6 w, bits 26 6 w, bits 17 9 w, bits 12 5 w, bits 0 12 w⟩
def fmtT (w : Word64) : FmtT :=
  ⟨guardOf w, bits 43 5 w, bits 39 4 w, bits 30 9 w, bits 21 9 w, bits 17 4 w, bits 12 5 w, bits 0 12 w⟩
def fmtS (w : Word64) : FmtS :=
  ⟨guardOf w, bits 44 4 w, bits 38 6 w, bits 29 9 w, bits 24 5 w, bits 0 24 w⟩

/-- The instruction a mod selects among those of one opcode. -/
def byMod (m : Nat) (l : List Instr) : Option Instr := l[m]?

/-- The opcodes of class 0 (R51). -/
def decodeGen (opc : Nat) (w : Word64) : Option Instr :=
  match opc with
  | 0 => some (.nop (fmtR w))
  | 1 => some (.mov (fmtR w))
  | 2 => some (.movi (fmtK w))
  | 3 => some (.movw (fmtI w))
  | 4 => some (.wset (fmtI w))
  | 5 => some (.sread (fmtI w))
  | 6 => byMod (fmtR w).mod.toNat [.pmovRp (fmtR w), .pmovPr (fmtR w), .pmovSave (fmtR w), .pmovLoad (fmtR w)]
  | 7 => some (.pgate (fmtL w))
  | 16 => some (.iadd (fmtR w))
  | 17 => some (.iaddImm (fmtI w))
  | 18 => some (.isub (fmtR w))
  | 19 => some (.isubImm (fmtI w))
  | 20 => some (.imul (fmtR w))
  | 21 => some (.imulImm (fmtI w))
  | 22 => some (.imulh (fmtR w))
  | 23 => some (.imulhImm (fmtI w))
  | 24 => some (.imin (fmtR w))
  | 25 => some (.iminImm (fmtI w))
  | 26 => some (.imax (fmtR w))
  | 27 => some (.imaxImm (fmtI w))
  | 28 => some (.icmp (fmtR w))
  | 29 => some (.icmpImm (fmtI w))
  | 30 => some (.shl (fmtR w))
  | 31 => some (.shlImm (fmtI w))
  | 32 => some (.shr (fmtR w))
  | 33 => some (.shrImm (fmtI w))
  | 34 => some (.sar (fmtR w))
  | 35 => some (.sarImm (fmtI w))
  | 36 => some (.lgate (fmtL w))
  | 38 => some (.imad (fmtR w))
  | 39 => some (.imadw (fmtR w))
  | 40 => some (.iaddc (fmtR w))
  | 41 => some (.isel (fmtR w))
  | 42 => some (.iabs (fmtR w))
  | 43 => some (.ineg (fmtR w))
  | 44 => some (.fshl (fmtR w))
  | 45 => some (.fshr (fmtR w))
  | 46 => some (.popc (fmtR w))
  | 47 => some (.clz (fmtR w))
  | 48 => some (.brev (fmtR w))
  | 49 => some (.bfx (fmtR w))
  | 50 => some (.bfi (fmtR w))
  | 51 => some (.lea (fmtR w))
  | 64 => some (.fadd (fmtR w))
  | 65 => some (.faddImm (fmtI w))
  | 66 => some (.fsub (fmtR w))
  | 67 => some (.fsubImm (fmtI w))
  | 68 => some (.fmul (fmtR w))
  | 69 => some (.fmulImm (fmtI w))
  | 70 => some (.fmin (fmtR w))
  | 71 => some (.fminImm (fmtI w))
  | 72 => some (.fmax (fmtR w))
  | 73 => some (.fmaxImm (fmtI w))
  | 74 => some (.fcmp (fmtR w))
  | 75 => some (.fcmpImm (fmtI w))
  | 76 => some (.ffma (fmtR w))
  | 77 => some (.fabs (fmtR w))
  | 78 => some (.fneg (fmtR w))
  | 79 => some (.fclass (fmtR w))
  | 80 => some (.frnd (fmtR w))
  | 81 => some (.fmaxa (fmtR w))
  | 82 => some (.hadd2 (fmtR w))
  | 83 => some (.hmul2 (fmtR w))
  | 84 => some (.hfma2 (fmtR w))
  | 85 => some (.hmax2 (fmtR w))
  | 88 => some (.cvt (fmtV w))
  | 89 => some (.f8cv (fmtR w))
  | 90 => some (.f8up (fmtR w))
  | 96 => some (.lshuf (fmtR w))
  | 97 => some (.lxor (fmtR w))
  | 98 => some (.lrotw (fmtR w))
  | 99 => some (.lred (fmtR w))
  | 100 => some (.lscan (fmtR w))
  | 101 => some (.ballot (fmtR w))
  | 102 => some (.matchKey (fmtR w))
  | 103 => some (.matchn (fmtR w))
  | 104 => some (.tbl (fmtR w))
  | 105 => some (.elect (fmtR w))
  | 112 => some (.bra (fmtB w))
  | 113 => some (.jmp (fmtB w))
  | 114 => some (.call (fmtB w))
  | 115 => some (.ret (fmtB w))
  | 116 => some (.exit (fmtB w))
  | 117 => some (.trap (fmtB w))
  | _ => none

/-- The opcodes of class 1 (R52). -/
def decodeSfu (opc : Nat) (w : Word64) : Option Instr :=
  match opc with
  | 0 => some (.rcp (fmtR w))
  | 1 => some (.rsq (fmtR w))
  | 2 => some (.sqrt (fmtR w))
  | 3 => some (.div (fmtR w))
  | 4 => some (.exp2 (fmtR w))
  | 5 => some (.log2 (fmtR w))
  | 6 => some (.sinp (fmtR w))
  | 7 => some (.cosp (fmtR w))
  | 8 => some (.tanh (fmtR w))
  | 9 => some (.sigm (fmtR w))
  | 10 => some (.idiv (fmtR w))
  | 11 => some (.irem (fmtR w))
  | _ => none

/-- The opcodes of class 2 (R53). -/
def decodeLds (opc : Nat) (w : Word64) : Option Instr :=
  match opc with
  | 0 => some (.ldb (fmtM w))
  | 1 => some (.stb (fmtM w))
  | 2 => some (.ldd (fmtM w))
  | 3 => some (.std (fmtM w))
  | 4 => some (.ldk (fmtM w))
  | 5 => some (.stk (fmtM w))
  | 6 => some (.atom (fmtA w))
  | 7 => some (.red (fmtA w))
  | 8 => some (.waitv (fmtA w))
  | 9 => some (.note (fmtA w))
  | 10 => some (.phase (fmtR w))
  | 11 => some (.fence (fmtR w))
  | 12 => some (.regb (fmtB w))
  | 13 => some (.rege (fmtR w))
  | 14 => some (.regx (fmtR w))
  | 15 => some (.regq (fmtR w))
  | 16 => some (if (fmtR w).mod.toNat = 4 then .fltmClr (fmtR w) else .fltm (fmtR w))
  | _ => none

/-- The opcodes of class 3 (R54). -/
def decodeCpy (opc : Nat) (w : Word64) : Option Instr :=
  match opc with
  | 0 => some (.cpyin (fmtC w))
  | 1 => some (.cpyout (fmtC w))
  | 2 => some (.cpyg (fmtC w))
  | 3 => some (.cpys (fmtC w))
  | 4 => some (.cpyd (fmtC w))
  | 5 => some (if (fmtC w).mod.toNat % 2 = 1 then .cpyfFar (fmtC w) else .cpyf (fmtC w))
  | 6 => byMod (fmtC w).mod.toNat [.stageMax (fmtC w), .stageAdd (fmtC w)]
  | 7 => some (.publ (fmtC w))
  | 8 => some (.rpush (fmtC w))
  | 9 => some (.rpop (fmtC w))
  | 10 => byMod (fmtC w).mod.toNat [.rwaitC (fmtC w), .rwaitP (fmtC w)]
  | 11 => some (.cpyq (fmtC w))
  | 12 => some (.pfch (fmtC w))
  | 13 => some (.evict (fmtC w))
  | 14 => some (.cload (fmtC w))
  | 15 => some (.crun (fmtC w))
  | 16 => some (.carm (fmtC w))
  | 17 => byMod (fmtC w).mod.toNat [.cstepQ (fmtC w), .cstepWait (fmtC w)]
  | 18 => some (.bufd (fmtC w))
  | _ => none

/-- The opcodes of class 4 (R55). -/
def decodeMma (opc : Nat) (w : Word64) : Option Instr :=
  match opc with
  | 0 => some (if (fmtT w).mod.toNat / 4 % 2 = 1 then .mmaKeep (fmtT w) else .mma (fmtT w))
  | 1 => some (.mclr (fmtT w))
  | 2 => some (.mldt (fmtT w))
  | 3 => some (.mmovr (fmtT w))
  | 4 => some (.mmovw (fmtT w))
  | 5 => some (if (fmtT w).mod.toNat % 8 = 5 then .mdrainAdd (fmtT w) else if (fmtT w).mod.toNat % 8 = 6 then .mdrainUpd (fmtT w) else .mdrain (fmtT w))
  | 6 => some (.mqry (fmtT w))
  | 7 => some (.qdual (fmtT w))
  | 8 => some (.rqnt (fmtT w))
  | _ => none

/-- The opcodes of class 5 (R56). -/
def decodeSyn (opc : Nat) (w : Word64) : Option Instr :=
  match opc with
  | 0 => some (.mjoin (fmtS w))
  | 1 => some (.mleave (fmtS w))
  | 2 => some (.mwait (fmtS w))
  | 3 => some (.mset (fmtS w))
  | 4 => some (.mget (fmtS w))
  | 5 => some (.barb (fmtS w))
  | 6 => some (.bara (fmtS w))
  | 7 => some (.barw (fmtS w))
  | 8 => some (.bard (fmtS w))
  | 9 => some (.treea (fmtS w))
  | 10 => some (.treew (fmtS w))
  | 11 => some (.attach (fmtS w))
  | 12 => some (.detach (fmtS w))
  | 13 => some (.yieldStanding (fmtS w))
  | 14 => byMod (fmtS w).mod.toNat [.sleep (fmtS w), .sleepUntil (fmtS w)]
  | 15 => some (.enq (fmtS w))
  | _ => none

/-- The opcodes of class 6 (R57). -/
def decodeSys (opc : Nat) (w : Word64) : Option Instr :=
  match opc with
  | 0 => some (.csrr (fmtI w))
  | 1 => some (.csrw (fmtI w))
  | 2 => some (.tret (fmtR w))
  | 3 => some (.xsave (fmtR w))
  | 4 => some (.xload (fmtR w))
  | 5 => byMod (fmtR w).mod.toNat [.tlbi (fmtR w), .tlbiPage (fmtR w)]
  | 6 => some (.pgset (fmtR w))
  | 7 => some (.ctxend (fmtR w))
  | 8 => some (.halt (fmtR w))
  | 9 => some (.retire (fmtR w))
  | 10 => some (.snapm (fmtR w))
  | 11 => byMod (fmtR w).mod.toNat [.logrAddr (fmtR w), .logrInfo (fmtR w), .logrCount (fmtR w), .logrClr (fmtR w)]
  | _ => none

/-- The opcodes of class 7 (R58). -/
def decodeTrj (opc : Nat) (w : Word64) : Option Instr :=
  match opc with
  | 0 => some (.tjopen (fmtR w))
  | 1 => some (.tjstep (fmtR w))
  | 2 => byMod (fmtR w).mod.toNat [.tjend (fmtR w), .tjendFree (fmtR w)]
  | 3 => some (.tjrew (fmtR w))
  | 4 => byMod (fmtR w).mod.toNat [.tjtake (fmtR w), .tjtakeTry (fmtR w), .tjtakeDepth (fmtR w), .tjtakeStat (fmtR w)]
  | 5 => some (.tjset (fmtI w))
  | _ => none

/-- Why a word is no instruction. -/
inductive DecodeError where
  | header        -- bit 63 set: a clause header stands where a word should (R21)
  | unassigned    -- check 2 of R49, R59
  | neverGuard    -- check 3 of R49
  | badField      -- check 4 of R49
deriving DecidableEq, Repr

/-- The opcode table of a class (R51-R58). -/
def decodeClass (cls opc : Nat) (w : Word64) : Option Instr :=
  match cls with
  | 0 => decodeGen opc w
  | 1 => decodeSfu opc w
  | 2 => decodeLds opc w
  | 3 => decodeCpy opc w
  | 4 => decodeMma opc w
  | 5 => decodeSyn opc w
  | 6 => decodeSys opc w
  | 7 => decodeTrj opc w
  | _ => none

/-- The bits of [47:0] that a format marks as zero (R38, R41-R45), by the instruction's format. -/
def zeroBits (i : Instr) (w : Word64) : Bool :=
  match i with
  | .pgate _ => bits 45 3 w == 0 && !bit 0 w
  | .lgate _ => bits 45 3 w == 0 && !bit 0 w
  | .cvt _ => bits 9 9 w == 0 && !bit 8 w && bits 4 2 w == 0 && bits 0 3 w == 0
  | .bra _ | .jmp _ | .call _ | .ret _ | .exit _ | .trap _ | .regb _ => bits 45 3 w == 0 && bits 41 3 w == 0
  | .atom _ | .red _ | .waitv _ | .note _ => bits 0 3 w == 0
  | .movi _ | .movw _ | .wset _ | .sread _ | .csrr _ | .csrw _ | .tjset _ => true
  | .iaddImm _ | .isubImm _ | .imulImm _ | .imulhImm _ | .iminImm _ | .imaxImm _ | .icmpImm _ | .shlImm _ | .shrImm _
  | .sarImm _ | .faddImm _ | .fsubImm _ | .fmulImm _ | .fminImm _ | .fmaxImm _ | .fcmpImm _ => true
  | .ldb _ | .stb _ | .ldd _ | .std _ | .ldk _ | .stk _ => true
  | i => match i.info 128 with
    | some k => k.cls == 3 || k.cls == 4 || k.cls == 5 || !bit 0 w
    | none   => true

/-- The instruction a word stands for, or why it stands for none. -/
def decode (w : Word64) : Except DecodeError Instr :=
  if bit 63 w then .error .header
  else match decodeClass (bits 60 4 w).toNat (bits 52 8 w).toNat w with
    | none =>
      if opcodeKnown (bits 60 4 w).toNat (bits 52 8 w).toNat then .error .badField else .error .unassigned
    | some i =>
      if !(guardOf w).ok then .error .neverGuard
      else if i.wf && zeroBits i w then .ok i
      else .error .badField
where
  /-- An opcode the map assigns although this mod selects no instruction of it. -/
  opcodeKnown (cls opc : Nat) : Bool :=
    (cls == 0 && opc == 0x06) || (cls == 3 && [0x06, 0x0A, 0x11].contains opc) || (cls == 5 && opc == 0x0E) ||
    (cls == 6 && [0x05, 0x0B].contains opc) || (cls == 7 && [0x02, 0x04].contains opc)

/-- A clause header (R21). -/
structure Header where
  tag  : BitVec 4
  cls  : BitVec 4
  count : BitVec 4
  wait : BitVec 8
  wsfu : Bool
  wmem : Bool
  hold : Bool
  yld  : Bool
  zero : BitVec 40
deriving DecidableEq, Repr

/-- The fields of a clause header (R21). -/
def decodeHeader (w : Word64) : Header :=
  ⟨bits 60 4 w, bits 56 4 w, bits 52 4 w, bits 44 8 w, bit 43 w, bit 42 w, bit 41 w, bit 40 w, bits 0 40 w⟩

/-- Checks 1 to 4 of R22 on a header at address `addr`. -/
def Header.ok (h : Header) (addr : Nat) : Bool :=
  h.tag == 0b1100 && decide (h.cls.toNat < 8) && h.zero == 0 && decide (addr % 4096 + 8 * (h.count.toNat + 2) ≤ 4096)

/-- The common part of a word, bits [63:48] (R29). -/
def encHead (cls opc : Nat) (g : Guard) : BitVec 16 :=
  (BitVec.ofNat 4 cls ++ BitVec.ofNat 8 opc ++ BitVec.ofBool g.inv ++ g.pred : BitVec (4 + 8 + 1 + 3))

def encR (cls opc : Nat) (o : FmtR) : Word64 :=
  (encHead cls opc o.g ++ o.mod ++ o.d ++ o.a ++ o.b ++ o.c ++ o.keep ++ BitVec.ofBool o.ea ++ BitVec.ofBool o.eb ++
    BitVec.ofBool o.ec ++ BitVec.ofBool o.za ++ BitVec.ofBool o.zb ++ BitVec.ofBool o.zc ++ 0#1 :
    BitVec (16 + 3 + 9 + 9 + 9 + 9 + 2 + 1 + 1 + 1 + 1 + 1 + 1 + 1))
def encI (cls opc : Nat) (o : FmtI) : Word64 :=
  (encHead cls opc o.g ++ o.mod ++ o.d ++ o.a ++ BitVec.ofBool o.ea ++ BitVec.ofBool o.ka ++ BitVec.ofBool o.za ++ o.imm :
    BitVec (16 + 3 + 9 + 9 + 1 + 1 + 1 + 24))
def encK (cls opc : Nat) (o : FmtK) : Word64 :=
  (encHead cls opc o.g ++ o.mod ++ o.d ++ o.imm : BitVec (16 + 7 + 9 + 32))
def encL (cls opc : Nat) (o : FmtL) : Word64 :=
  (encHead cls opc o.g ++ 0#3 ++ o.d ++ o.a ++ o.b ++ o.c ++ o.table ++ 0#1 : BitVec (16 + 3 + 9 + 9 + 9 + 9 + 8 + 1))
def encV (cls opc : Nat) (o : FmtV) : Word64 :=
  (encHead cls opc o.g ++ o.mod ++ o.d ++ o.a ++ o.conv ++ 0#9 ++ 0#1 ++ BitVec.ofBool o.keep ++ BitVec.ofBool o.ea ++ 0#2 ++
    BitVec.ofBool o.za ++ 0#3 : BitVec (16 + 3 + 9 + 9 + 9 + 9 + 1 + 1 + 1 + 2 + 1 + 3))
def encB (cls opc : Nat) (o : FmtB) : Word64 :=
  (encHead cls opc o.g ++ 0#3 ++ BitVec.ofBool o.ind ++ 0#3 ++ o.a ++ o.off : BitVec (16 + 3 + 1 + 3 + 9 + 32))
def encM (cls opc : Nat) (o : FmtM) : Word64 :=
  (encHead cls opc o.g ++ o.size ++ o.d ++ o.a ++ BitVec.ofBool o.ea ++ BitVec.ofBool o.ka ++ BitVec.ofBool o.za ++ o.off :
    BitVec (16 + 3 + 9 + 9 + 1 + 1 + 1 + 24))
def encA (cls opc : Nat) (o : FmtA) : Word64 :=
  (encHead cls opc o.g ++ o.op ++ o.space ++ BitVec.ofBool o.ref ++ BitVec.ofBool o.pub ++ o.d ++ o.a ++ o.b ++ o.c ++
    BitVec.ofBool o.e ++ 0#3 : BitVec (16 + 4 + 2 + 1 + 1 + 9 + 9 + 9 + 9 + 1 + 3))
def encC (cls opc : Nat) (o : FmtC) : Word64 :=
  (encHead cls opc o.g ++ o.token ++ o.buf ++ o.wa ++ o.wp ++ o.v ++ o.mod ++ o.imm : BitVec (16 + 6 + 4 + 6 + 6 + 9 + 5 + 12))
def encT (cls opc : Nat) (o : FmtT) : Word64 :=
  (encHead cls opc o.g ++ o.tile ++ o.mask ++ o.va ++ o.vf ++ o.q ++ o.mod ++ o.imm : BitVec (16 + 5 + 4 + 9 + 9 + 4 + 5 + 12))
def encS (cls opc : Nat) (o : FmtS) : Word64 :=
  (encHead cls opc o.g ++ o.idx ++ o.w ++ o.v ++ o.mod ++ o.imm : BitVec (16 + 4 + 6 + 9 + 5 + 24))

/-- The word of an instruction; `none` for the steps of the engines, which have none. -/
def encode (i : Instr) : Option Word64 :=
  match i with
  | .nop o => some (encR 0 0 o)
  | .mov o => some (encR 0 1 o)
  | .movi o => some (encK 0 2 o)
  | .movw o => some (encI 0 3 o)
  | .wset o => some (encI 0 4 o)
  | .sread o => some (encI 0 5 o)
  | .pmovRp o => some (encR 0 6 o)
  | .pmovPr o => some (encR 0 6 o)
  | .pmovSave o => some (encR 0 6 o)
  | .pmovLoad o => some (encR 0 6 o)
  | .pgate o => some (encL 0 7 o)
  | .iadd o => some (encR 0 16 o)
  | .iaddImm o => some (encI 0 17 o)
  | .isub o => some (encR 0 18 o)
  | .isubImm o => some (encI 0 19 o)
  | .imul o => some (encR 0 20 o)
  | .imulImm o => some (encI 0 21 o)
  | .imulh o => some (encR 0 22 o)
  | .imulhImm o => some (encI 0 23 o)
  | .imin o => some (encR 0 24 o)
  | .iminImm o => some (encI 0 25 o)
  | .imax o => some (encR 0 26 o)
  | .imaxImm o => some (encI 0 27 o)
  | .icmp o => some (encR 0 28 o)
  | .icmpImm o => some (encI 0 29 o)
  | .shl o => some (encR 0 30 o)
  | .shlImm o => some (encI 0 31 o)
  | .shr o => some (encR 0 32 o)
  | .shrImm o => some (encI 0 33 o)
  | .sar o => some (encR 0 34 o)
  | .sarImm o => some (encI 0 35 o)
  | .lgate o => some (encL 0 36 o)
  | .imad o => some (encR 0 38 o)
  | .imadw o => some (encR 0 39 o)
  | .iaddc o => some (encR 0 40 o)
  | .isel o => some (encR 0 41 o)
  | .iabs o => some (encR 0 42 o)
  | .ineg o => some (encR 0 43 o)
  | .fshl o => some (encR 0 44 o)
  | .fshr o => some (encR 0 45 o)
  | .popc o => some (encR 0 46 o)
  | .clz o => some (encR 0 47 o)
  | .brev o => some (encR 0 48 o)
  | .bfx o => some (encR 0 49 o)
  | .bfi o => some (encR 0 50 o)
  | .lea o => some (encR 0 51 o)
  | .fadd o => some (encR 0 64 o)
  | .faddImm o => some (encI 0 65 o)
  | .fsub o => some (encR 0 66 o)
  | .fsubImm o => some (encI 0 67 o)
  | .fmul o => some (encR 0 68 o)
  | .fmulImm o => some (encI 0 69 o)
  | .fmin o => some (encR 0 70 o)
  | .fminImm o => some (encI 0 71 o)
  | .fmax o => some (encR 0 72 o)
  | .fmaxImm o => some (encI 0 73 o)
  | .fcmp o => some (encR 0 74 o)
  | .fcmpImm o => some (encI 0 75 o)
  | .ffma o => some (encR 0 76 o)
  | .fabs o => some (encR 0 77 o)
  | .fneg o => some (encR 0 78 o)
  | .fclass o => some (encR 0 79 o)
  | .frnd o => some (encR 0 80 o)
  | .fmaxa o => some (encR 0 81 o)
  | .hadd2 o => some (encR 0 82 o)
  | .hmul2 o => some (encR 0 83 o)
  | .hfma2 o => some (encR 0 84 o)
  | .hmax2 o => some (encR 0 85 o)
  | .cvt o => some (encV 0 88 o)
  | .f8cv o => some (encR 0 89 o)
  | .f8up o => some (encR 0 90 o)
  | .lshuf o => some (encR 0 96 o)
  | .lxor o => some (encR 0 97 o)
  | .lrotw o => some (encR 0 98 o)
  | .lred o => some (encR 0 99 o)
  | .lscan o => some (encR 0 100 o)
  | .ballot o => some (encR 0 101 o)
  | .matchKey o => some (encR 0 102 o)
  | .matchn o => some (encR 0 103 o)
  | .tbl o => some (encR 0 104 o)
  | .elect o => some (encR 0 105 o)
  | .bra o => some (encB 0 112 o)
  | .jmp o => some (encB 0 113 o)
  | .call o => some (encB 0 114 o)
  | .ret o => some (encB 0 115 o)
  | .exit o => some (encB 0 116 o)
  | .trap o => some (encB 0 117 o)
  | .rcp o => some (encR 1 0 o)
  | .rsq o => some (encR 1 1 o)
  | .sqrt o => some (encR 1 2 o)
  | .div o => some (encR 1 3 o)
  | .exp2 o => some (encR 1 4 o)
  | .log2 o => some (encR 1 5 o)
  | .sinp o => some (encR 1 6 o)
  | .cosp o => some (encR 1 7 o)
  | .tanh o => some (encR 1 8 o)
  | .sigm o => some (encR 1 9 o)
  | .idiv o => some (encR 1 10 o)
  | .irem o => some (encR 1 11 o)
  | .ldb o => some (encM 2 0 o)
  | .stb o => some (encM 2 1 o)
  | .ldd o => some (encM 2 2 o)
  | .std o => some (encM 2 3 o)
  | .ldk o => some (encM 2 4 o)
  | .stk o => some (encM 2 5 o)
  | .atom o => some (encA 2 6 o)
  | .red o => some (encA 2 7 o)
  | .waitv o => some (encA 2 8 o)
  | .note o => some (encA 2 9 o)
  | .phase o => some (encR 2 10 o)
  | .fence o => some (encR 2 11 o)
  | .regb o => some (encB 2 12 o)
  | .rege o => some (encR 2 13 o)
  | .regx o => some (encR 2 14 o)
  | .regq o => some (encR 2 15 o)
  | .fltm o => some (encR 2 16 o)
  | .fltmClr o => some (encR 2 16 o)
  | .cpyin o => some (encC 3 0 o)
  | .cpyout o => some (encC 3 1 o)
  | .cpyg o => some (encC 3 2 o)
  | .cpys o => some (encC 3 3 o)
  | .cpyd o => some (encC 3 4 o)
  | .cpyf o => some (encC 3 5 o)
  | .cpyfFar o => some (encC 3 5 o)
  | .stageMax o => some (encC 3 6 o)
  | .stageAdd o => some (encC 3 6 o)
  | .publ o => some (encC 3 7 o)
  | .rpush o => some (encC 3 8 o)
  | .rpop o => some (encC 3 9 o)
  | .rwaitC o => some (encC 3 10 o)
  | .rwaitP o => some (encC 3 10 o)
  | .cpyq o => some (encC 3 11 o)
  | .pfch o => some (encC 3 12 o)
  | .evict o => some (encC 3 13 o)
  | .bufd o => some (encC 3 18 o)
  | .cload o => some (encC 3 14 o)
  | .crun o => some (encC 3 15 o)
  | .carm o => some (encC 3 16 o)
  | .cstepQ o => some (encC 3 17 o)
  | .cstepWait o => some (encC 3 17 o)
  | .mma o => some (encT 4 0 o)
  | .mmaKeep o => some (encT 4 0 o)
  | .mclr o => some (encT 4 1 o)
  | .mldt o => some (encT 4 2 o)
  | .mmovr o => some (encT 4 3 o)
  | .mmovw o => some (encT 4 4 o)
  | .mqry o => some (encT 4 6 o)
  | .mdrain o => some (encT 4 5 o)
  | .mdrainAdd o => some (encT 4 5 o)
  | .mdrainUpd o => some (encT 4 5 o)
  | .qdual o => some (encT 4 7 o)
  | .rqnt o => some (encT 4 8 o)
  | .mjoin o => some (encS 5 0 o)
  | .mleave o => some (encS 5 1 o)
  | .mwait o => some (encS 5 2 o)
  | .mset o => some (encS 5 3 o)
  | .mget o => some (encS 5 4 o)
  | .barb o => some (encS 5 5 o)
  | .bara o => some (encS 5 6 o)
  | .barw o => some (encS 5 7 o)
  | .bard o => some (encS 5 8 o)
  | .treea o => some (encS 5 9 o)
  | .treew o => some (encS 5 10 o)
  | .attach o => some (encS 5 11 o)
  | .detach o => some (encS 5 12 o)
  | .yieldStanding o => some (encS 5 13 o)
  | .sleep o => some (encS 5 14 o)
  | .sleepUntil o => some (encS 5 14 o)
  | .enq o => some (encS 5 15 o)
  | .csrr o => some (encI 6 0 o)
  | .csrw o => some (encI 6 1 o)
  | .tret o => some (encR 6 2 o)
  | .xsave o => some (encR 6 3 o)
  | .xload o => some (encR 6 4 o)
  | .tlbi o => some (encR 6 5 o)
  | .tlbiPage o => some (encR 6 5 o)
  | .pgset o => some (encR 6 6 o)
  | .ctxend o => some (encR 6 7 o)
  | .halt o => some (encR 6 8 o)
  | .retire o => some (encR 6 9 o)
  | .snapm o => some (encR 6 10 o)
  | .logrAddr o => some (encR 6 11 o)
  | .logrInfo o => some (encR 6 11 o)
  | .logrCount o => some (encR 6 11 o)
  | .logrClr o => some (encR 6 11 o)
  | .tjopen o => some (encR 7 0 o)
  | .tjstep o => some (encR 7 1 o)
  | .tjend o => some (encR 7 2 o)
  | .tjendFree o => some (encR 7 2 o)
  | .tjrew o => some (encR 7 3 o)
  | .tjtake o => some (encR 7 4 o)
  | .tjtakeTry o => some (encR 7 4 o)
  | .tjtakeDepth o => some (encR 7 4 o)
  | .tjtakeStat o => some (encR 7 4 o)
  | .tjset o => some (encI 7 5 o)
  | .clauseIssue _ _ _ => none
  | .bundlePark _ _ => none
  | .blockedRegisterFill _ _ => none
  | .codeFetch _ _ => none
  | .compactorMove _ _ => none
  | .sfuQueueGrant _ _ _ => none
  | .sfuResult _ => none
  | .tableEntryGrant _ _ => none
  | .loadReturn _ _ => none
  | .storeAck _ => none
  | .portOperation _ _ => none
  | .atomicReturn _ => none
  | .waiterPlaceFree _ => none
  | .waitvTimeout _ => none
  | .sleepRelease _ => none
  | .fenceComplete _ _ => none
  | .publication _ => none
  | .treeRelease _ _ _ => none
  | .treeCfgWrite _ _ => none
  | .regionOpen _ => none
  | .regionAccessRetry _ => none
  | .regionCommit _ => none
  | .mmaFire _ => none
  | .tileOperationPerform _ => none
  | .tileUpdatePerform _ => none
  | .copyQueueAccept _ _ => none
  | .copyFire _ => none
  | .copyComplete _ _ => none
  | .rwaitFill _ => none
  | .scheduleFiring _ => none
  | .blockPlacement _ _ => none
  | .placementWaitExpiry _ => none
  | .spareWarpStart _ _ _ => none
  | .shrinkRequest _ _ => none
  | .shrinkCancel _ => none
  | .preemption _ => none
  | .blockSave _ => none
  | .blockRestore _ _ => none
  | .blockEnd _ => none
  | .kernelDone _ => none
  | .queueEntryTake _ => none
  | .dependenceCheck _ => none
  | .queueLevelRaise _ => none
  | .queueDoorbell _ _ => none
  | .queueEnable _ _ => none
  | .queueDisable _ => none
  | .queueSuspend _ => none
  | .queueResume _ => none
  | .registerWrite _ _ _ _ => none
  | .contextBind _ => none
  | .contextFree _ => none
  | .errqDropClear => none
  | .hostContextEnd _ => none
  | .contextEnded _ => none
  | .errorRingRetry => none
  | .stripeRequest _ _ _ => none
  | .gatherReply _ _ _ => none
  | .gatherTimeout _ _ _ => none
  | .reduceContribution _ _ _ => none
  | .reduceDone _ _ _ => none
  | .reduceSendTimeout _ _ _ => none
  | .reducingTimeout _ _ => none
  | .migrationHandover _ _ => none
  | .mode1Fill _ _ => none
  | .meshFlitReceive _ _ _ => none
  | .frameReceive _ _ => none
  | .ackReceive _ _ => none
  | .retransmitTimeout _ _ => none
  | .portTrainingEnd _ _ => none
  | .laneLost _ => none
  | .portEnable _ => none
  | .portDisable _ => none
  | .cxlMemAccess _ _ _ => none
  | .hostTimeout _ => none
  | .timeSync _ _ => none
  | .graphLoadAtPlacement _ => none
  | .carmStart _ _ => none
  | .chunkOffer _ => none
  | .nodeComplete _ _ => none
  | .runComplete _ => none
  | .rewardMessage _ _ => none
  | .joinDeadline _ _ => none
  | .orphanExpiry _ _ => none
  | .turntableScan _ _ => none
  | .episodeRelease _ _ => none
  | .tjtakePop _ => none
  | .cut _ _ => none
  | .pageDrainAck _ _ _ => none
  | .warmReset _ => none
  | .dieStart _ _ => none
  | .startStepFailure _ => none
  | .attestationRequest _ _ => none
  | .healthRefresh _ _ _ _ => none
  | .sramSoftError _ => none
  | .powerLimit _ _ => none
  | .unassignedOpcode _ => none
  | .reduceSendAcknowledgement _ _ _ => none
  | .migrationHandoverReply _ _ => none
  | .errorRingWriteFailure => none
  | .measurementRegisterExtension _ _ _ => none

/-- The instruction the decoder reads from a table row's bits: a word has 64 of them, laid out as they are (R2). -/
def decodeTableWord (nbits w : Nat) : Option Instr :=
  if nbits ≤ 64 then
    match decode (BitVec.ofNat 64 w) with
    | .ok i    => some i
    | .error _ => none
  else none

end Sys2Proof
end

