-- ==== Sys2Proof/Config.lean ====
section
/-! DEFINITION. What one implementation fixes and the spec leaves open (log entries 1, 6, 8 and 9): opaque constants,
so that no proof sees their value. `choice`, `bit` and `byte` are applied to the counter `fresh` of the state. -/

namespace Sys2Proof.Config

/-- A choice among alternatives the spec calls unspecified (R5), drawn afresh from the state's counter. -/
opaque choice : Nat → Nat

/-- An open bit, drawn afresh. -/
opaque bit : Nat → Bool

/-- An open byte: the layout of a saved image is the device's own (R318). -/
opaque byte : Nat → Nat → Byte

/-- The device's value of an approximated special function (R130): function number, operand bits. -/
opaque sfu : Nat → Word → Word

/-- The Ed448 signature of a report (R404): die 0's fused seed number and the signed bytes. -/
opaque signature : List Byte → List Byte

/-- CRC-32 of a frame (R350): the spec names no polynomial. -/
opaque crc32 : List Byte → BitVec 32

/-- What a die measures into MRk (R403), of a version of it: fuses and ROM, firmware, runtime, training parameters. -/
opaque digest : Nat → Nat → Nat → List Byte

/-- What a replay after a warm reset sends again in place of some payloads (R399). -/
opaque replayed : Nat → List Byte → List Byte

/-- The 32-byte module identity of die 0's fuses (R404). -/
opaque identity : List Byte

/-- The stored retirement map of a die, word `k` (R400, R403). -/
opaque storedRetmap : Nat → Nat → BitVec 32

/-- The value of a die's wear indicator at manufacture (R405), in hundredths. -/
opaque manufacture : Nat → Nat → Int

/-- The fused limit of a die's electromigration indicator (R405), in hundredths. -/
opaque fusedLimit : Nat → Int

/-- The depth of a mesh channel buffer (R346), not given by the spec. -/
opaque meshDepth : Nat

end Sys2Proof.Config
end

