-- ==== Sys2Proof/Machine/State.lean ====
section
/-! DEFINITION. The state of the machine, as plain data: every piece of state the spec names (INVENTORY.md, State),
the reasons a step can stop, and the machine right after a cold start. -/

namespace Sys2Proof.Machine

/-- A finite map from numbers, kept in insertion order (names of records are drawn from the state's counter). -/
abbrev Table (α : Type) := List (Nat × α)

/-- The contents of a memory space: (address, byte) pairs, addresses strictly rising, no byte 0 listed; an unlisted
address reads 0 (Memory.wf in Ops; log entry 4). -/
abbrev Mem := List Host.Cell

/-! ### Threads and warps -/

/-- A 32-bit register with its full/empty bit (R92). -/
structure VReg where
  val  : Word
  full : Bool
deriving DecidableEq, Repr

/-- A continuation clause (R25): the class and word count of the split clause, and the word it starts at. -/
structure Cont where
  cls   : Nat
  count : Nat
  idx   : Nat
deriving DecidableEq, Repr

/-- A program counter (R137): a clause header, or a continuation point of the clause at that header. -/
structure CodePt where
  hdr     : Nat
  cont    : Option Cont
  skipBrk : Bool          -- TRET mode 0 skips the break test once (R315)
deriving DecidableEq, Repr

/-- What a WAITING thread waits for (R138). -/
inductive Wait where
  | mask (m : Nat)                   -- MWAIT (R149)
  | sign (m : Nat)                   -- a signing round it has signed (R264)
  | resign (m : Nat)                 -- the end of an accepted round, to act anew (R264)
  | barrier (b : Nat) (round : Word) -- R204
  | dieBar (round : Word)            -- R205
  | tree (ch : Nat) (round : Word)   -- R209
  | sleep (t : Nat)                  -- R171, in time units
  | act (id : Nat)                   -- an engine action (PHASE, edges, BUFD, PUBL, RPUSH, ENQ, TJOPEN, SYS, arrivals)
  | attach (r : Nat)                 -- R167, with its result register
  | regb                             -- R219
  | rege                             -- R223
deriving DecidableEq, Repr

/-- The thread states of R138. A BLOCKED thread is ISSUED with its bundle's `blocked` set; a TRAPPED thread holds a trap
frame and is READY, ISSUED or WAITING within its handler. -/
inductive TState where
  | ready
  | issued
  | waiting (w : Wait)
  | exited
  | off
deriving DecidableEq, Repr

/-- What a synchronous trap saves (R314), and the handler's window (R316). -/
structure TrapFrame where
  cause  : Nat          -- s.cause
  code   : Word         -- TCODE
  pred   : Word         -- TPRED
  cpc    : Nat          -- s.cpc
  cidx   : Nat          -- s.cidx
  faddr  : Word64       -- s.faddr
  cls    : Nat          -- of the clause that trapped, for a continuation (R317)
  count  : Nat
  window : List VReg    -- 32 registers
  target : Option Nat   -- the abort target of the region aborted at entry (R230)
deriving DecidableEq, Repr

/-- One thread (R92, R137, R138). -/
structure Thread where
  regs   : List VReg
  preds  : BitVec 8     -- bit 7 is p7
  gen    : Word         -- RS generator state (R75)
  pc     : CodePt
  rstack : List Nat     -- return stack, newest first
  pipe   : Pipe         -- select bit
  st     : TState
  count  : Nat          -- R141
  group  : Nat          -- arrival group (R139)
  since  : Nat          -- module time at which it became READY (R309)
  trap   : Option TrapFrame
  redirect : Option Nat -- a region abort's target, taken after the current word (R225)
deriving DecidableEq, Repr

/-- What one signer stages (R264), and the word a FORMAT-DIVERGENCE is precise at (R266). -/
structure Staged where
  regs  : List Word
  fmt   : Word
  hdr   : Nat
  idx   : Nat
  count : Nat
deriving DecidableEq, Repr

/-- The states of a signing round after NONE (R267). -/
inductive RoundState where
  | opened
  | accepting
  | accepted (top : Nat)
deriving DecidableEq, Repr

/-- A signing round (R264). -/
structure SignRound where
  tile   : Nat
  q      : Nat
  mod    : Nat
  imm    : Nat
  signed : Lanes
  staged : Table Staged
  st     : RoundState
deriving DecidableEq, Repr

/-- A mask register with its arrival and waiting sets and signing round (R148, R264). -/
structure MaskReg where
  bits  : Lanes
  arr   : Lanes
  wait  : Lanes
  round : Option SignRound
deriving DecidableEq, Repr

/-- The A latch (R268). -/
structure Latch where
  valid : Bool
  rows  : List Byte       -- 1,024 bytes, row by row
  codes : List Nat        -- 32 row codes
  kind  : Nat
  bias  : Int
deriving DecidableEq, Repr

/-- A warp's region (R218): the slot it holds while LIVE or COMMITTING. -/
inductive RegionState where
  | none
  | opening
  | live (slot : Nat)
  | committing (slot : Nat)
deriving DecidableEq, Repr

/-- A clause fetched and not yet issued (R28). -/
structure Fetched where
  hdr    : Nat
  header : Word64
  words  : List Word64
deriving DecidableEq, Repr

/-- Whether the word at a bundle's head waits for a resource it must have before it reads its operands (R49). -/
inductive Grant where
  | none
  | waiting
  | granted
deriving DecidableEq, Repr

/-- A clause issued on a pipe (R25): the lanes still executing it and the next word. -/
structure Issue where
  lanes   : Lanes
  hdr     : Nat
  cls     : Nat
  words   : List Word64
  idx     : Nat
  blocked : Bool
  grant   : Grant
  after   : Option (List Nat)  -- the operations a blocked word (FENCE, copy words) waits for
  since   : Option Nat         -- the module time at which the word at its head first waited (R25)
  yld     : Bool
deriving DecidableEq, Repr

/-- One warp (R92). -/
structure Warp where
  ctx      : Nat
  kern     : Nat
  share    : Nat
  die      : Nat
  core     : Nat
  slot     : Nat
  width    : Nat
  nregs    : Nat
  base     : Nat               -- of its registers in the core's pool (R94)
  block    : Option Nat        -- none while unattached (R166)
  index    : Nat
  threads  : List Thread
  wregs    : List VReg
  masks    : List MaskReg
  fpflags  : BitVec 5
  faults   : Lanes
  faulted  : Lanes             -- every lane that ever faulted (R178)
  ctxsel   : Nat
  latch    : Latch
  stk      : Table Byte        -- stack bytes its threads have written, by K·lane + offset (R164)
  region   : RegionState
  rtarget  : Nat               -- the abort target of the open region (R219)
  aborts   : Nat               -- consecutive aborts (R231)
  reason   : Nat               -- of the most recent abort (R232)
  departing : Bool             -- R169
  yielded  : Option Nat        -- standing set by a yield (R309)
  passed   : Nat               -- selections it was ready at and not chosen (R309)
  fetched  : List Fetched
  issA     : Option Issue
  issB     : Option Issue
  stopped  : Bool              -- issues no further clause: being saved, or its context is draining
deriving DecidableEq, Repr

/-- A bundle that has left its pipe (R25, R138): its threads are BLOCKED until `ready`, then READY at its continuation clause. -/
structure Parked where
  warp  : Nat
  iss   : Issue
  ready : Bool
deriving DecidableEq, Repr

/-! ### Operations in flight -/

/-- The four spaces a thread's word reaches (R189, R164). -/
inductive Space where
  | shared
  | scratch
  | main
  | stack
deriving DecidableEq, Repr

/-- What a memory operation does. -/
inductive OpKind where
  | load (signed : Bool)
  | store
  | atom (op : Nat) (ret : Bool)
  | waitv (tmo : Option (Nat × Nat))  -- deadline in time units, predicate
  | note (all : Bool)
  | regq                              -- R232
deriving DecidableEq, Repr

/-- How far it has come. -/
inductive OpState where
  | sent               -- on its way, not performed
  | read (v : Nat)     -- a load or atomic performed, its value on its way back
  | noroom             -- a WAITV at a full waiter store (R197), or a region access the level limit stalls (R221)
  | sleeping (seq : Nat)
  | held               -- at a controller until a cut (R393)
deriving DecidableEq, Repr

/-- One lane's memory operation (R185, R195). -/
structure MemOp where
  ctx   : Nat
  warp  : Nat
  block : Option Nat   -- of its warp when the word executed
  lane  : Nat
  word  : Nat          -- one name for all lanes of a word
  space : Space
  kind  : OpKind
  addr  : Nat
  size  : Nat
  data  : Nat          -- store data, or operand b
  cmp   : Word         -- operand c of cas
  dst   : Nat
  ndst  : Nat
  win   : Bool         -- the destination lies in the trap window (R135)
  region : Bool        -- a region access (R217)
  st    : OpState
  entry : Option Nat   -- the table entry it holds, named within its word (R185)
  xfer  : Option Nat   -- the mesh transfer that carries it
  port  : Nat          -- the die of its port, once resolved
  step  : Word         -- issue step (R393)
  time  : Nat          -- when its word executed
  act   : Option Nat   -- the edge that waits for it (R194)
  spot  : Option (Nat × Nat × Nat)  -- the word a waiter sleeps on: space, owner, address (R198)
  sfs   : Option Int   -- that word's scale, when it lies in a PARTIAL page (R334)
deriving DecidableEq, Repr

/-- The results of one SFU word (R133, R134). -/
structure SfuOp where
  warp  : Nat
  block : Option Nat
  dst   : Nat
  lanes : List (Nat × Word × Bool)   -- lane, result, destination in the trap window
  flags : BitVec 5
  pipe  : Pipe                       -- it issued on, and the cycle: in one cycle pipe A's word counts as issued first (R134)
  time  : Nat
deriving DecidableEq, Repr

/-- The words of format A (R190, R196, R198). -/
inductive EdgeWord where
  | atom
  | red
  | waitv
  | note
deriving DecidableEq, Repr

/-- The engine actions that WAITING threads wait for. -/
inductive ActKind where
  | phase (pub ref : Bool)                    -- R181
  | edge (u : EdgeWord) (o : FmtA) (hdr idx cls count : Nat) (pub sent : Bool)  -- R194: `pub` still to publish
  | arriveMask (m : Nat)                      -- R150
  | arriveBar (b : Nat)                       -- R202, BARB
  | arriveDie (pub : Bool)                    -- R212, BARD
  | bufd (q : Nat) (desc : List Word)         -- R235
  | publ (b q : Nat) (ref swapped : Bool)     -- R254
  | rpush (q k : Nat)                         -- R250
  | cpyq (r : Nat) (v : Word)                 -- R253: a value on its way to a w register
  | enq (addr : Nat) (queue v : Nat)          -- R297
  | xsave (c v : Nat)                         -- R320
  | snapm (c v : Nat) (step : Word) (addr : Nat)
  | retire (v : Nat) (core : Nat)
  | tjopen (v : Nat) (args : List (Nat × Word × Word)) (res : List (Nat × Word))  -- lane, ID, version (R379); results
deriving DecidableEq, Repr

/-- One such action: its threads and the operations it waits for first. -/
structure EngineAct where
  warp  : Nat
  lanes : Lanes
  kind  : ActKind
  after : List Nat
deriving DecidableEq, Repr

/-! ### Copies, buffers and tiles -/

/-- The copy words (R245, R246, R248), and a schedule's PUBL (R255). -/
inductive CopyKind where
  | cpyin
  | cpyout
  | cpyg
  | cpys
  | cpyd (out : Bool)
  | cpyf
  | cpyfFar
  | pfch
  | evict
deriving DecidableEq, Repr

/-- One move of a fired copy: far address, near offset and bytes; a transposed or scaled part is flagged by `tag`. -/
structure Move where
  far   : Nat
  near  : Nat
  len   : Nat
  tag   : Nat
deriving DecidableEq, Repr

/-- A copy's progress (R239, R243). -/
inductive CopyState where
  | waiting      -- accepted, not fired
  | fired
deriving DecidableEq, Repr

/-- An accepted copy, one command of 32 rows for CPYG and CPYS (R246). -/
structure Copy where
  ctx    : Nat
  block  : Option Nat       -- none from an unattached warp
  die    : Nat
  core   : Nat
  warp   : Nat
  token  : Nat
  group  : Nat              -- the word's name: commands of one word share its token
  kind   : CopyKind
  par    : Option (List Byte)  -- the parameter block; none when its address was bad
  far    : Nat              -- X, or window offset and die share for CPYD
  buf    : Nat
  imm    : Nat
  rows   : List (Nat × Nat) -- rank, index (R246)
  pat    : Word
  bad    : Bool             -- a schedule entry that breaks R255
  step   : Word             -- issue step (R393)
  st     : CopyState
  moves  : List Move        -- still to do
  pub    : List Host.Cell   -- far bytes of CPYD.out, published at completion (R247)
  got    : List (Nat × List Byte) -- source units read, which later destination units take too (R244)
  units  : List Nat         -- destination units written
  status : Nat
  start  : Word             -- the siding counter its reservation starts at
  frozen : Bool             -- its block is saved and it had not fired (R258)
deriving DecidableEq, Repr

/-- A finished command of a copy word whose other commands still run (R246). -/
structure CopyPart where
  group  : Nat
  rank   : Nat
  status : Nat
  units  : Nat
deriving DecidableEq, Repr

/-- A buffer's kinds (R234). -/
inductive BufKind where
  | none
  | plain
  | ring
deriving DecidableEq, Repr

/-- A reservation on a siding (R238). -/
structure Reservation where
  op    : Nat
  cnt   : Nat
  done  : Bool
  cells : List Host.Cell   -- bytes for a scratchpad siding, published when P advances over them
deriving DecidableEq, Repr

/-- A buffer (R233-R238). -/
structure Buffer where
  kind   : BufKind
  die    : Bool       -- space 1: the scratchpad window
  psd    : Bool
  csd    : Bool
  slots  : Nat
  base   : Nat
  size   : Nat
  second : Nat
  pubs   : Word       -- publication count
  p      : Word
  c      : Word
  pr     : Word
  cr     : Word
  aq     : Word
  rl     : Word
  prods  : List Reservation
  cons   : List Reservation
  shadow : Table Byte  -- the shadow of a PLAIN scratchpad buffer where it differs from the home bytes of the second range
deriving DecidableEq, Repr

/-- A tile's class (R260). -/
inductive TileClass where
  | unset
  | sx
  | vx
deriving DecidableEq, Repr

/-- The per-row numeric state of a tile (R87). -/
structure TileRow where
  base : Option Int
  nan  : Bool
  wit  : Nat
deriving DecidableEq, Repr

/-- An accumulator tile (R86, R87, R260, R276). -/
structure Tile where
  elems   : List (BitVec 48)
  head    : Nat
  cls     : TileClass
  base    : Option Int
  rows    : List TileRow
  range   : Bool
  rounded : Bool
  bias    : Option Int     -- product bias once a contribution has set it; reads 0 before
deriving DecidableEq, Repr

/-- The tile operations (R261), with the operands they read at issue. -/
inductive TileKind where
  | mma (m : Nat) (z t keep : Bool) (h q : Nat)
  | mclr (h : Nat)
  | mldt (raw : Bool) (q n : Nat) (ctl : Word)
  | mmovr (raw : Bool) (dst : Nat) (lanes : List (Nat × Nat × Bool))
  | mmovw (raw : Bool) (lanes : List (Nat × Nat × Word64))
  | mqry (row : Bool) (dst : Nat) (lanes : List (Nat × Nat × Bool))
  | mdrain (fmt rnd q n off : Nat)
  | update (upd mem : Bool) (addr stride : Nat) (lr : Word)
  | qdual (bf : Bool) (rnd q n off : Nat) (fmt : Word)
  | rqnt (rnd q n off : Nat) (fmt : Word)
deriving DecidableEq, Repr

/-- An accepted tile operation. -/
structure TileOp where
  ctx   : Nat
  block : Nat
  warp  : Nat
  die   : Nat
  core  : Nat
  half  : Nat            -- which core's tiles of a paired block
  tile  : Nat
  kind  : TileKind
  fired : Bool
  units : List Nat       -- performed units of a tile update (R284)
  start : Word           -- the siding slot a RING drain reserved
  vals  : List (Option (Int × Int)) -- the drained values of a tile update, I and exponent; none for NaN
  biasV : Int
  frozen : Bool
  step  : Word
deriving DecidableEq, Repr

/-! ### Blocks, die shares, kernels -/

/-- A block barrier (R200); its waiting set is the threads that wait for it. -/
structure Barrier where
  counter : Word
  members : List (Nat × Nat)   -- (warp, lane)
  arrived : List (Nat × Nat)
  pending : List (Nat × Nat)
deriving DecidableEq, Repr

/-- The block states of R172. -/
inductive BlockState where
  | placed
  | running
  | shrinking
  | parked
  | ending
  | done
deriving DecidableEq, Repr

/-- One copy-schedule entry (R255). -/
structure SchedEntry where
  far    : Nat
  lap    : Int
  stage  : Nat
  param  : Nat
  op     : Nat
  ps     : Bool
  warp   : Nat
  token  : Nat
  buf    : Nat
  imm    : Nat
  zero   : Bool    -- a zero field is set
  skip   : Bool    -- the entry could not be read
deriving DecidableEq, Repr

/-- A block's copy schedule: lap length, entries, and the (lap, entry) pairs already fired (R256). -/
structure Sched where
  lap     : Nat
  entries : List SchedEntry
  fired   : List (Nat × Nat)
deriving DecidableEq, Repr

/-- What an exit record gathers (R293). -/
structure ExitRec where
  faults  : Lanes
  fpflags : BitVec 5
deriving DecidableEq, Repr

/-- A saved image: the 4 KiB pages of the save area it lies in, its digest, and what its bytes are drawn from (R318). -/
structure Saved where
  pages  : List Nat
  digest : Word64
  seed   : Nat
deriving DecidableEq, Repr

/-- A shrink request (R168, R306): its target, when it was raised, and the die share and s.block it makes room for. -/
structure Shrink where
  k     : Nat
  at_   : Nat
  share : Nat
  next  : Nat
deriving DecidableEq, Repr

/-- One block (R160-R172, R179, R200, R233, R256, R259). -/
structure Block where
  ctx    : Nat
  kern   : Nat
  share  : Nat
  die    : Nat
  core   : Nat             -- the even core of a pair
  linear : Nat             -- B of R292
  idx    : Nat             -- s.block
  seq    : Nat             -- placement order
  st     : BlockState
  before : BlockState      -- the state a PARKED block returns to
  mem    : Mem             -- shared window
  view   : Mem
  pub    : Table Byte      -- publish buffer
  phase  : Word
  bars   : List Barrier
  bufs   : List Buffer
  tiles  : List (List Tile)  -- one list for each core it stands on
  sigma  : Word
  sched  : Option Sched
  shrink : Option Shrink
  stkAt  : Option Nat      -- address of the stack run
  stkOld : Table Byte      -- bytes of the run that ended warps have written, by offset (R164)
  exits  : Table ExitRec
  written : Nat            -- units of its exit records, or of the image being saved, already written (R293, R318)
  saving : Bool
  saved  : Option Saved
deriving DecidableEq, Repr

/-- A collective graph (R358, R359). -/
structure Node where
  op    : Nat
  npred : Nat
  tag   : Nat
  peer  : Nat
  sbase : Nat
  dbase : Nat
  len   : Nat
  soff  : Nat
  doff  : Nat
  succ  : List Nat
  mode  : Nat
  h     : Nat
deriving DecidableEq, Repr

structure Graph where
  nodes : List Node
  nslot : Nat
  slotb : Nat
  trig  : Nat
  pool  : Nat
  poolb : Nat
deriving DecidableEq, Repr

/-- The receiver of a token: warp, w register (R243), or none for an engine's own action. -/
abbrev Token := Option (Nat × Nat)

/-- An armed start (R368). -/
structure Armed where
  at_   : Nat
  bases : List Word64
  bad   : Nat              -- the status of a bad base table
  token : Token
deriving DecidableEq, Repr

/-- A run (R362), or a start that waits for the slot's previous run (R368). -/
structure Run where
  share   : Nat
  slot    : Nat
  step    : Word
  graph   : Graph
  bases   : List Word64
  counts  : List Nat
  fired   : List Nat
  done    : List Nat
  status  : Nat
  units   : Nat
  token   : Token
  wrote   : List Host.Cell   -- window bytes to publish at completion (R365)
  pending : Bool             -- waits for the slot
  progress : Table Nat       -- by node: 16-byte units performed, or whether its send or host request has been made
  closing : Bool             -- steps 1 and 2 of R365 are done
deriving DecidableEq, Repr

/-- A chunk (R364): at the sender, accepted into a slot or the pool, or written to D. -/
inductive ChunkPlace where
  | sender
  | slot
  | pool
  | landed
deriving DecidableEq, Repr

structure Chunk where
  src   : Nat            -- sending die share
  dst   : Nat            -- receiving die share
  slot  : Nat            -- graph slot
  step  : Word
  tag   : Nat
  run   : Nat            -- sending run and node
  node  : Nat
  data  : List Byte
  pos   : Nat            -- its offset in the pool
  place : ChunkPlace
  seq   : Nat            -- order of acceptance
  taker : Option (Nat × Nat)  -- the run and node of the RECV that takes it
deriving DecidableEq, Repr

/-- A CLOAD that waits for a run of its slot (R367), or a CSTEP.wait (R369). -/
inductive ShareWait where
  | load (ord slot : Nat) (addr : Nat) (token : Token)  -- in order of acceptance
  | step (n : Word) (token : Token)
deriving DecidableEq, Repr

/-- A die share (R162, R173, R205, R357). -/
structure Share where
  ctx     : Nat
  kern    : Nat
  index   : Nat
  die     : Nat
  order   : Nat              -- order of entering DISPATCHING
  nblocks : Nat
  next    : Nat              -- the next s.block to place
  size    : Nat              -- D
  home    : Mem
  barRound : Word            -- the die barrier
  barArr  : List Nat         -- blocks that have arrived
  barIn   : List (Nat × Nat) -- threads that have executed BARD in this round
  barRef  : List Nat         -- blocks whose view is refreshed at the release (R212)
  step    : Word
  done    : Word             -- completed step
  graphs  : Table Graph
  armed   : Table Armed
  waits   : List ShareWait
  tails   : Table Nat        -- the pool's tail of each slot (R364)
  runsDone : List (Word)     -- steps of runs that completed ahead of the completed step
  waitAt  : Option Nat       -- since when its next block waits to be placed
  kept    : Bool             -- R305: freed resources are kept for it
  loaded  : Bool             -- GRAPH_LOAD_AT_PLACEMENT done
  ended   : Bool
deriving DecidableEq, Repr

/-- The kernel states of R296. -/
inductive KernelState where
  | pending
  | waiting
  | dispatching
  | running
  | draining
  | done
  | failed
deriving DecidableEq, Repr

/-- The fields of a launch record (R289, R290). -/
structure Launch where
  entry    : Nat
  elastic  : Nat
  dieset   : List Nat
  nbx      : Nat
  nby      : Nat
  nbz      : Nat
  ncode    : Nat
  wcode    : Nat
  wmin     : Nat
  wmax     : Nat
  tiles    : Nat
  paired   : Bool
  resident : Bool
  prio     : Nat
  shared   : Nat
  stack    : Nat
  scratch  : Nat
  sched    : Nat
  graph    : Nat
  deps     : List (Nat × Word)
  trigger  : Nat
  done     : Nat
  exits    : Nat
  seed     : Word
  args     : List Word
deriving DecidableEq, Repr

/-- A kernel (R296). -/
structure Kernel where
  ctx    : Nat
  queue  : Nat
  record : Nat
  st     : KernelState
  reason : Nat
  launch : Launch
  met    : List Bool
  order  : Nat
deriving DecidableEq, Repr

/-! ### Queues and contexts -/

/-- The queue states of R301. -/
inductive QueueState where
  | empty
  | ready
  | blocked
  | suspended
  | disabled
deriving DecidableEq, Repr

/-- A queue (R298). -/
structure Queue where
  base   : Word64
  ctl    : Word
  wp     : Word
  rp     : Word
  st     : QueueState
  reason : Nat
  since  : Nat           -- READY since, without an entry taken (R302)
  raised : Bool
  last   : Option Nat    -- last-taken kernel
deriving DecidableEq, Repr

/-- The context states of R310. -/
inductive CtxState where
  | free
  | bound
  | runnable
  | running
  | parked
  | draining
  | ended
deriving DecidableEq, Repr

/-- The cause fields of an error record (R321). -/
structure Cause where
  die    : Nat
  core   : Nat
  slot   : Nat
  lane   : Nat
  cause  : Nat
  status : Nat
  addr   : Nat
  pc     : Nat
deriving DecidableEq, Repr

/-- One entry of a violation log (R322). -/
structure LogEntry where
  addr : Word64
  info : Word
deriving DecidableEq, Repr

/-- A context (R310, R312). -/
structure Context where
  st      : CtxState
  fpstat  : BitVec 5
  tvec    : Word64
  xarea   : Word64
  xsize   : Word64
  dies    : Word64
  pgroot  : Table Word64    -- per die; 0 where unlisted
  peertab : Table Word64
  stkarea : Table Word64
  stksize : Table Word64
  peerTmo : Word
  migrate : Word
  hostTmo : Word
  brk     : List Word64     -- BRK0-BRK3
  log     : Table LogEntry  -- by entry index
  logged  : Nat             -- LOGR.count
  seq     : Nat
  reason  : Nat
  cause   : Option Cause
  left    : Table Byte       -- stack bytes that ended warps have left, by 2^57·die + address (R164)
deriving DecidableEq, Repr

/-! ### The engines of a die -/

/-- A cached translation (R327), with mode 1's validity and mode 2's count (R340). -/
structure TlbEntry where
  ctx   : Nat
  page  : Nat        -- virtual address of the page
  bytes : Nat        -- 4,096, or 2 MiB
  pte   : Word64
  valid : Bool
  count : Nat
deriving DecidableEq, Repr

/-- Who holds an access at the page engine (R330). -/
inductive Holder where
  | op (id : Nat)
  | copy (id : Nat)
  | tile (id : Nat)
  | fetch (w lane : Nat)
  | lane (w lane : Nat)      -- of a TRJ word (R379)
  | sched (share n : Nat)    -- the copy schedule of block n of a die share (R292)
  | engine (id : Nat)
  | page (kind name k : Nat) -- a message between page engines that writes: 2 a stripe reply, 3 a reduction's send (R331, R335)
deriving DecidableEq, Repr

/-- An access that waits at the page engine (R330): its context, page and holder, and whether it writes: no read waits behind a write
that waits for spare frames (R342). -/
structure Held where
  ctx   : Nat
  page  : Nat
  who   : Holder
  write : Bool
deriving DecidableEq, Repr

/-- One request of a gather (R331, R332). -/
inductive ReqState where
  | asked (at_ : Nat) (mirror : Bool)     -- sent at a time, to the member or its mirror
  | stripes (at_ : Nat) (mirror : Bool) (d : List Host.Cell)  -- the answer travels back: bytes by page offset
  | refusal (at_ : Nat) (mirror : Bool) (status : Nat)        -- a reason travels back
  | arrived
deriving DecidableEq, Repr

structure Gather where
  ctx   : Nat
  page  : Nat
  reqs  : Table ReqState       -- by member number
  step  : Option (Nat × Word)  -- kernel and issue step of the access that caused it (R393)
deriving DecidableEq, Repr

/-- One send of a reduction (R335). -/
structure RedSend where
  member : Nat
  die    : Nat              -- receiving die
  module : Nat
  mirror : Bool             -- this send goes to the mirror
  stripes : List (Nat × Int)  -- word index, J
  state  : Nat              -- 0 travelling, 1 added (acknowledgement travels), 2 acknowledged, 3 failed
  at_    : Nat
  again  : Bool
deriving DecidableEq, Repr

structure Reduction where
  ctx   : Nat
  page  : Nat
  step  : Option (Nat × Word) -- kernel and issue step of the EVICT (R393)
  active : Bool             -- the page has entered REDUCING here; before, only dones have come
  conv  : Bool              -- the page has become SHARDED
  sends : List RedSend
  sent  : Bool              -- done messages sent
  dones : List Nat          -- members whose done has arrived
  coming : List Nat         -- members whose done is on its way
  timer : Nat
deriving DecidableEq, Repr

/-- A migration (R340). -/
structure Migration where
  ctx   : Nat
  page  : Nat
  bytes : Nat
  owner : Nat
  at_   : Nat
  reply : Option (Option Nat)   -- the owner's cow and writable bits; none for a refusal
deriving DecidableEq, Repr

/-- A region slot of the tracker (R217, R220). -/
structure Region where
  slot   : Nat
  warp   : Nat
  share  : Nat
  stamp  : Word
  excl   : Bool
  reads  : List Nat          -- granules
  writes : List Host.Cell    -- own latest bytes, by window address
  writeG : List Nat          -- granules written
deriving DecidableEq, Repr

/-- An edge of the dependence graph, between slots; forward when data was taken (R220, R227). -/
structure Edge where
  from_ : Nat
  to_   : Nat
  fwd   : Bool
deriving DecidableEq, Repr

/-- Entry states of the junction (R388). -/
inductive EpState where
  | open_
  | closed
  | joined
  | scanned
  | released
  | expired
  | dropped
deriving DecidableEq, Repr

/-- A non-FREE junction entry (R376). -/
structure Episode where
  ctx     : Nat
  idx     : Nat
  id      : Word
  version : Word
  st      : EpState
  length  : Nat
  vb      : Word
  trunc   : Bool
  due     : Nat
  order   : Nat              -- how many had joined then, itself included; 0 before it joins
  joined  : Nat              -- the cycle of its die it joined in
  term    : Bool             -- some scanned step is terminal
  late    : Bool             -- its deadline has taken its junction position and waits at the page engine
  busy    : Option Holder    -- the operation on it that waits at the page engine
  scan    : Option (Word × Word)  -- γ and λ of the scan that has started (R377)
deriving DecidableEq, Repr

structure Orphan where
  ctx    : Nat
  id     : Word
  step   : Nat
  term   : Bool
  reward : Word
  at_    : Nat           -- when its grace period passes, in time units
deriving DecidableEq, Repr

/-- A context's junction parameters, learner queue and counters on a die (R377, R386, R387). -/
structure Junction where
  gamma  : Word
  lambda : Word
  join   : Word
  grace  : Word
  stale  : Word
  learner : Word
  store  : Word64
  steps  : Nat
  usable : Nat
  queue  : List (List Byte)
  p      : Word
  c      : Word
  counts : List Word
deriving DecidableEq, Repr

/-- A lane that waits in TJTAKE (R387). -/
structure TakeWait where
  ctx  : Nat
  warp : Nat
  lane : Nat
  dst  : Nat
  win  : Bool
  try_ : Bool            -- of TJTAKE.try: an empty queue gives zeros at once
deriving DecidableEq, Repr

/-- The snapshot engine's states (R396). -/
inductive SnapState where
  | idle
  | armed
  | cut
  | draining
  | done
deriving DecidableEq, Repr

/-- A context's snapshot on a die (R390-R396). -/
structure Snapshot where
  st     : SnapState
  step   : Word
  share  : Option Nat        -- the die share whose completed step decides
  kern   : Nat
  pages  : List Nat          -- virtual page addresses in image order
  sbase  : Nat
  smod   : Nat
  sdie   : Nat
  done   : Nat
  result : Nat
  todo   : List (Nat × Nat)  -- pages marked and not acknowledged: p, page address
  leaves : Table Word64      -- the leaves of the marked pages at the cut (R395)
  copies : Table Nat         -- marked pages copied into a spare frame: page, frame
  wrote  : Nat
  skipped : Nat
  queue  : List (Nat × Holder)  -- writes held until the cut, by page, in arrival order (R396)
  flight : Option Nat        -- the page sent and not yet acknowledged
deriving DecidableEq, Repr

/-- What a keeper's checkpoint holds of a die's engines (R397). -/
structure Checkpoint where
  gathers  : Table Gather
  reds     : Table Reduction
  flows    : List (Nat × Word)                     -- flow, next sequence number
  graphs   : List (Nat × Table Graph × Word × Word) -- die share, its graphs, step counter and completed step
  episodes : Table Episode
  orphans  : Table Orphan
  juncs    : Table Junction
  queues   : Table Queue
  snaps    : Table Snapshot
deriving DecidableEq, Repr

/-- An entry of a keeper's log (R397): a copy of an accepted message, or an outgoing message's flow, number and running hash. -/
inductive Logged where
  | taken (cls src : Nat) (tag : List Nat) (data : List Byte)
  | sent (flow : Nat) (seq : Word) (hash : Word64)
deriving DecidableEq, Repr

/-- What a die keeps for a neighbour (R397). -/
structure Keeper where
  held   : Bool
  size   : Nat        -- log bytes
  image  : Option Checkpoint
  log    : List Logged
deriving DecidableEq, Repr

/-- A wear indicator (R405). -/
structure Health where
  x0    : Int
  xlim  : Int
  x     : Int
  age   : Nat
  index : Nat
  life  : Nat
deriving DecidableEq, Repr

/-- A start in progress (R400, R401). -/
structure Start where
  warm  : Bool
  step  : Nat
  fails : Nat
deriving DecidableEq, Repr

/-- One die (R15, R16). -/
structure Die where
  time    : Nat                 -- module time in 1/47,000,000 ns (R356)
  cycles  : Nat                 -- cycles of its arithmetic clock so far
  ppm     : Int                 -- slew in force
  dram    : Mem
  bad     : List Nat            -- uncorrectable 32-byte units
  corrected : List Nat          -- per layer
  tlb     : List TlbEntry
  held    : List Held           -- in wait order
  gathers : Table Gather
  reds    : Table Reduction
  migs    : Table Migration
  fills   : Table (Nat × Nat)   -- mode-1 fills: ctx, page
  spare   : Table Nat           -- spare frames in use and their contexts (R342, R394)
  regions : List Region
  edges   : List Edge
  chains  : List (Nat × Nat × List Nat) -- share, granule, slots in write order
  stamp   : Word
  opening : List Nat            -- warps whose last thread has arrived at REGB, in order
  retmap  : List Word           -- RETMAP0-4; the stored map where empty
  added   : List Nat            -- cores health refreshes have added to the stored map (R405)
  coldAdded : List Nat          -- those of them present at the last cold start (R400)
  excuse  : List (List Word)    -- TREE_EXC[c][k]
  excuseAt : List (List Word)   -- as latched at the round's start (R209)
  episodes : Table Episode
  orphans : Table Orphan
  juncs   : Table Junction      -- by context
  joins   : Nat                 -- join order counter
  takes   : Table TakeWait
  snaps   : Table Snapshot      -- by context
  keeper  : List Keeper         -- for the two neighbours it may keep
  payloads : Table (List (List Byte))  -- payloads sent on each flow since the checkpoint, whose running hash is logged
  seqs    : Table Word          -- logged sequence numbers
  safe    : Bool
  start   : Option Start
  stored  : Bool                -- it holds stored training parameters (R400)
  firmware : Nat                -- the version of the images of the last verified start (R400)
  trained : Nat                 -- the version of the training parameters in use (R403)
  mrs     : List (List Byte)    -- MR0-MR7
  health  : Table Health
  rate    : Nat                 -- matrix issue rate in percent (R19)
  lastTake : Option Nat         -- time of the last queue entry taken (die 0, R302)
deriving DecidableEq, Repr

/-- A line of a core's stack cache (R14, R164): 64 bytes of a block's stack run. -/
structure StackLine where
  block : Nat
  line  : Nat
  dirty : Bool
deriving DecidableEq, Repr

/-- What a core keeps that outlives warps: AND-tree arrival bits and release counts (R206), and the order in which
words began to wait for table entries, copy places and SFU entries (R186, R239, R133). -/
structure Core where
  arrived : List Bool
  counts  : List Word
  owed    : List Nat            -- releases sent and not yet received, per channel
  tableQ  : List (Nat × Pipe)
  copyQ   : List (Nat × Pipe)
  sfuQ    : List (Nat × Pipe)
  lines   : List StackLine      -- of the stack cache
deriving DecidableEq, Repr

/-! ### The module -/

/-- Link and port states (R353). -/
inductive LinkState where
  | down
  | training
  | up
  | degraded
  | retraining
  | failed
deriving DecidableEq, Repr

structure Port where
  st       : LinkState
  attempts : Nat
deriving DecidableEq, Repr

/-- A mesh link from a die in a direction (0 north, 1 east, 2 south, 3 west): its state, successive replays, and
which classes are signalled off (R346, R348, R353). -/
structure MeshLink where
  st      : LinkState
  replays : Nat
  off     : List Nat
deriving DecidableEq, Repr

/-- A transfer on the mesh (R345): the die it stands at, the message it carries, by name, and the bytes of a reply. -/
structure Transfer where
  cls  : Nat
  src  : Nat
  dst  : Nat
  at_  : Nat
  ctx  : Nat
  tag  : List Nat
  data : List Byte
deriving DecidableEq, Repr

/-- A frame a context sends, under its own name, before it has a number (R351). -/
structure OutFrame where
  name  : Nat
  ctx   : Nat
  frame : Frame
deriving DecidableEq, Repr

/-- An unacknowledged frame (R351), and the name and context it was sent under. -/
structure Unacked where
  name  : Nat
  ctx   : Nat
  seq   : Word
  sends : Nat
  at_   : Nat
  frame : Frame
deriving DecidableEq, Repr

/-- A flow (R349, R351): outgoing when `out`. -/
structure Flow where
  cls    : Nat
  src    : Nat
  dst    : Nat
  module : Nat
  out    : Bool
  next   : Word                 -- next number to send, or the lowest not yet arrived
  unacked : List Unacked
  waiting : List OutFrame       -- not yet numbered: 4,096 outstanding
  beyond : List Word            -- arrived beyond `next`
  ack    : Option Frame         -- the acknowledgement last returned (R351)
  heldF  : List Frame           -- class 1, held for order (R352)
  port   : Nat
  failed : Bool
  ctxs   : List Nat             -- contexts that have used it
deriving DecidableEq, Repr

/-- A host request without completion (R354). -/
structure HostReq where
  ctx  : Nat
  run  : Nat
  node : Nat
  at_  : Nat
deriving DecidableEq, Repr

/-- An access of the host's window (R355): the pieces not yet performed, by window address and length, the bytes of a write, what a read
has given, and whether a piece has failed. -/
structure HostAccess where
  addr   : Nat
  len    : Nat
  pieces : List (Nat × Nat)
  write  : Option (List Byte)
  got    : List Host.Cell
  failed : Bool
deriving DecidableEq, Repr

/-- A round of the weighted round robin of one queue level (R302): what each queue may still take, and the last visited. -/
structure Turn where
  budget : List (Nat × Nat)
  last   : Option Nat
deriving DecidableEq, Repr

/-- State of the module as a whole. -/
structure Module where
  treeCfg  : List Word64
  errBase  : Word64
  errSize  : Word
  errWp    : Word
  errDrop  : Word
  errWait  : List (List Byte)   -- records waiting on the device
  errBad   : Option Nat         -- time of the last failed write or retry
  errLast  : Option Nat         -- time of the last write that may still fail
  hostMem  : Mem
  hostReqs : Table HostReq
  slices   : Table (Nat × Nat)  -- CXL.mem slice: die, offset (R355)
  portTab  : Table (Nat × Nat)  -- remote module: primary, secondary port
  ports    : List Port
  links    : Table MeshLink     -- 4·die + direction; working and idle where unlisted
  transfers : Table Transfer
  flows    : Table Flow
  number   : Nat                -- this module's number
  timeHost : Bool               -- the host, not IEEE 1588, disciplines die 0 (R356)
  turns    : List Turn          -- the round of each queue level in progress (R302)
  reports  : List (List Byte)   -- attestation reports given to the host
  storage  : List (Nat × Nat × List Byte)  -- what storage has been sent: die, image offset, bytes
  accesses : Table HostAccess   -- of the host's window, in progress (R355)
  answers  : List (Option (List Byte))  -- the host's completions, in order: none for an error (R406)
deriving DecidableEq, Repr

/-- What comes from outside the tables of instructions: the management controller sets a slice of the host's window (R355), the ports of a
remote module (R349), the source that disciplines die 0's time (R356); DRAM meets an error it corrects in a layer, or one it cannot
correct in a unit (R406). -/
inductive Control where
  | slice (k : Nat) (place : Option (Nat × Nat))
  | route (module primary secondary : Nat)
  | timeSource (host : Bool)
  | corrected (die layer : Nat)
  | uncorrectable (die unit : Nat)
deriving DecidableEq, Repr

/-- What the next step does: the model's own order of happenings (log entry 5). -/
inductive Act where
  | word (w : Nat) (pipe : Pipe)   -- the bundle on a pipe executes its next word
  | resume (id : Nat)              -- a waiting engine action is tried again
  | retry (park : Nat)             -- the word of a parked bundle is tried: whether what it waits for has come
  | event (i : Instr)              -- a step of an engine, or an input from outside
  | control (c : Control)          -- the management controller sets a table
  | tick (n : Nat)                 -- every die's clock advances n cycles
deriving DecidableEq, Repr

/-- The whole machine. -/
structure State where
  fresh   : Nat                    -- names and free values drawn so far (log entry 1)
  instant : Nat                    -- the name of this instant: threads made READY in one instant form one arrival group (R139)
  agenda  : List Act
  cur     : Option (Nat × Pipe)    -- the bundle whose word a step executes
  mod     : Module
  dies    : Table Die
  cores   : Table Core             -- by 160·die + core
  ctxs    : Table Context
  queues  : Table Queue
  kernels : Table Kernel
  shares  : Table Share
  blocks  : Table Block
  warps   : Table Warp
  parks   : Table Parked
  ops     : Table MemOp
  sfu     : Table SfuOp
  copies  : Table Copy
  parts   : List CopyPart
  tops    : Table TileOp
  rwaits  : Table (Nat × Nat × Nat × Nat × Bool)  -- siding waits: block, q, k, w token of warp below, producer side
  rwaitW  : Table Nat              -- the warp of each siding wait
  acts    : Table EngineAct
  runs    : Table Run
  chunks  : Table Chunk
deriving DecidableEq, Repr

/-! ### Reset -/

/-- A core right after reset (R400; log entry 3). -/
def Core.init : Core := ⟨List.replicate 8 false, List.replicate 8 0, List.replicate 8 0, [], [], [], []⟩

/-- A FREE context; its registers read 0 (R312). -/
def Context.init : Context :=
  { st := .free, fpstat := 0, tvec := 0, xarea := 0, xsize := 0, dies := 0, pgroot := [], peertab := [], stkarea := [],
    stksize := [], peerTmo := 0, migrate := 0, hostTmo := 0, brk := [0, 0, 0, 0], log := [], logged := 0, seq := 0,
    reason := 0, cause := none, left := [] }

/-- A queue right after reset (log entry 3). -/
def Queue.init : Queue :=
  { base := 0, ctl := 0, wp := 0, rp := 0, st := .disabled, reason := 0, since := 0, raised := false, last := none }

/-- A die at the end of a cold start's step 10 (R400): DRAM zero, engines idle. The retirement map and the measurement
registers are the implementation's (Config), read through accessors where the state lists none. -/
def Die.init : Die :=
  { time := 0, cycles := 0, ppm := 0, dram := [], bad := [], corrected := [0, 0, 0, 0], tlb := [], held := [], gathers := [], reds := [],
    migs := [], fills := [], spare := [], regions := [], edges := [], chains := [], stamp := 0, opening := [], retmap := [], added := [], coldAdded := [],
    excuse := List.replicate 8 (List.replicate 5 0), excuseAt := List.replicate 8 (List.replicate 5 0), episodes := [],
    orphans := [], juncs := [], joins := 0, takes := [], snaps := [], keeper := [⟨false, 0, none, []⟩, ⟨false, 0, none, []⟩], payloads := [],
    seqs := [], safe := false, start := none, stored := true, firmware := 0, trained := 0, mrs := [], health := [], rate := 100, lastTake := none }

def Module.init : Module :=
  { treeCfg := List.replicate 8 0, errBase := 0, errSize := 0, errWp := 0, errDrop := 0, errWait := [], errBad := none, errLast := none,
    hostMem := [], hostReqs := [], slices := [], portTab := [], ports := List.replicate 32 ⟨.up, 0⟩, links := [],
    transfers := [], flows := [], number := 0, timeHost := false, turns := List.replicate 4 ⟨[], none⟩, reports := [], storage := [], accesses := [], answers := [] }

/-- The machine right after a cold start of every die (R400). -/
def State.reset : State :=
  { fresh := 0, instant := 0, agenda := [], cur := none, mod := Module.init, dies := [], cores := [], ctxs := [], queues := [],
    kernels := [], shares := [], blocks := [], warps := [], parks := [], ops := [], sfu := [], copies := [], parts := [], tops := [],
    rwaits := [], rwaitW := [], acts := [], runs := [], chunks := [] }

/-! ### How a step can stop -/

/-- The machine's faults. -/
inductive Fault where
  /-- `noBundle`: raised by the meaning of an instruction when the state names no issued bundle to execute it
  (`cur` is none, or its warp or pipe holds no issued clause). `step` never raises it: it sets `cur` from an issued
  clause first. Safe: the hardware executes words only in bundles (R25). -/
  | noBundle
deriving DecidableEq, Repr

/-- The machine's refusals. -/
inductive Refusal where
  /-- The dispatch has no meaning for an operation yet, named by its mnemonic. Safe: the run stops. -/
  | notModelled (mnemonic : String)
deriving DecidableEq, Repr

/-- The three outcomes of a step of this machine. -/
abbrev Outcome := Host.Outcome State Fault Refusal

end Sys2Proof.Machine
end

