-- ==== Sys2Proof/Machine/Base.lean ====
section
/-! DEFINITION. The plain data operations the machine is written with: finite maps, memories in canonical form, sets of
lanes, and the readers and writers of every table of the state. -/

namespace Sys2Proof.Machine

/-! ### Finite maps -/

def tget {α : Type} : Table α → Nat → Option α
  | [], _ => none
  | (i, a) :: t, k => if i = k then some a else tget t k

/-- Replaces the entry of `k`, or adds one at the end. -/
def tput {α : Type} : Table α → Nat → α → Table α
  | [], k, v => [(k, v)]
  | (i, a) :: t, k, v => if i = k then (k, v) :: t else (i, a) :: tput t k v

def tdel {α : Type} (t : Table α) (k : Nat) : Table α := t.filter (fun x => x.1 != k)

def tmod {α : Type} (t : Table α) (k : Nat) (f : α → α) : Table α :=
  match tget t k with
  | some a => tput t k (f a)
  | none   => t

/-- The entry of `k`, or `d` when there is none. -/
def tgetD {α : Type} (t : Table α) (k : Nat) (d : α) : α := (tget t k).getD d

def tkeep {α : Type} (t : Table α) (p : Nat → α → Bool) : Table α := t.filter (fun x => p x.1 x.2)

def tmap {α : Type} (t : Table α) (f : Nat → α → α) : Table α := t.map (fun x => (x.1, f x.1 x.2))

/-- The first entry that satisfies `p`. -/
def tfind {α : Type} (t : Table α) (p : Nat → α → Bool) : Option (Nat × α) := t.find? (fun x => p x.1 x.2)

def tany {α : Type} (t : Table α) (p : Nat → α → Bool) : Bool := t.any (fun x => p x.1 x.2)

/-- The element `i` of a list, changed by `f`; the list unchanged beyond its end. -/
def lmod {α : Type} : List α → Nat → (α → α) → List α
  | [], _, _ => []
  | a :: l, 0, f => f a :: l
  | a :: l, i + 1, f => a :: lmod l i f

/-! ### Memory -/

/-- The byte a memory holds at `a` (an unlisted address reads 0). -/
def mget : Mem → Nat → Byte
  | [], _ => 0
  | (i, b) :: m, a => if i = a then b else mget m a

/-- Writes one byte and keeps the canonical form. -/
def mset : Mem → Nat → Byte → Mem
  | [], a, b => if b = 0 then [] else [(a, b)]
  | (i, c) :: m, a, b =>
    if a < i then (if b = 0 then (i, c) :: m else (a, b) :: (i, c) :: m)
    else if a = i then (if b = 0 then m else (a, b) :: m)
    else (i, c) :: mset m a b

/-- The canonical form: addresses strictly rising, no byte 0 listed. -/
def Memory.wf : Mem → Bool
  | [] => true
  | (i, b) :: m => b != 0 && (m.all fun x => decide (i < x.1)) && Memory.wf m

/-- Writes a list of cells in order. -/
def msetAll (m : Mem) (cells : List Host.Cell) : Mem := cells.foldl (fun m x => mset m x.1 x.2) m

/-- `n` bytes from `a`, lowest address first. -/
def mbytes (m : Mem) (a n : Nat) : List Byte := (List.range n).map fun k => mget m (a + k)

/-- The little-endian number a list of bytes holds (R2). -/
def leNat : List Byte → Nat
  | [] => 0
  | b :: l => b.toNat + 256 * leNat l

/-- The `n` little-endian bytes of a number (R2). -/
def leBytes : Nat → Nat → List Byte
  | 0, _ => []
  | n + 1, v => BitVec.ofNat 8 v :: leBytes n (v / 256)

/-- Bytes as cells from address `a` on. -/
def cellsAt : Nat → List Byte → List Host.Cell
  | _, [] => []
  | a, b :: l => (a, b) :: cellsAt (a + 1) l

/-- The `n`-byte little-endian number at `a`. -/
def mread (m : Mem) (a n : Nat) : Nat := leNat (mbytes m a n)

/-- Writes the low `n` bytes of `v` at `a`. -/
def mwrite (m : Mem) (a n v : Nat) : Mem := msetAll m (cellsAt a (leBytes n v))

/-! ### Lanes -/

/-- The set of one lane. -/
def laneBit (l : Nat) : Lanes := BitVec.ofNat 128 (2 ^ l)

/-- The lanes of a set in a warp of width `w`, in ascending order. -/
def laneList (w : Nat) (m : Lanes) : List Nat := (List.range w).filter (fun l => m.getLsbD l)

/-- The set of the lanes of a list. -/
def lanesOf (l : List Nat) : Lanes := l.foldl (fun m k => m ||| laneBit k) 0

/-- Every lane of a warp of width `w`. -/
def allLanes (w : Nat) : Lanes := BitVec.ofNat 128 (2 ^ w - 1)

/-- The lanes of a set that satisfy `p`. -/
def laneFilter (w : Nat) (m : Lanes) (p : Nat → Bool) : Lanes := lanesOf ((laneList w m).filter p)

/-- The lowest lane of a set. -/
def lowestLane (w : Nat) (m : Lanes) : Option Nat := (laneList w m).head?

/-! ### Tables of the state -/

def emptyReg : VReg := ⟨0, false⟩
def zeroReg : VReg := ⟨0, true⟩

def State.die (s : State) (d : Nat) : Die := tgetD s.dies d Die.init
def State.core (s : State) (d c : Nat) : Core := tgetD s.cores (160 * d + c) Core.init
def State.ctx (s : State) (c : Nat) : Context := tgetD s.ctxs c Context.init
def State.queue (s : State) (q : Nat) : Queue := tgetD s.queues q Queue.init
def State.warp? (s : State) (w : Nat) : Option Warp := tget s.warps w
def State.block? (s : State) (b : Nat) : Option Block := tget s.blocks b
def State.share? (s : State) (h : Nat) : Option Share := tget s.shares h
def State.kernel? (s : State) (k : Nat) : Option Kernel := tget s.kernels k

def State.setDie (s : State) (d : Nat) (x : Die) : State := { s with dies := tput s.dies d x }
def State.setCore (s : State) (d c : Nat) (x : Core) : State := { s with cores := tput s.cores (160 * d + c) x }
def State.setCtx (s : State) (c : Nat) (x : Context) : State := { s with ctxs := tput s.ctxs c x }
def State.setQueue (s : State) (q : Nat) (x : Queue) : State := { s with queues := tput s.queues q x }
def State.setWarp (s : State) (w : Nat) (x : Warp) : State := { s with warps := tput s.warps w x }
def State.setBlock (s : State) (b : Nat) (x : Block) : State := { s with blocks := tput s.blocks b x }
def State.setShare (s : State) (h : Nat) (x : Share) : State := { s with shares := tput s.shares h x }
def State.setKernel (s : State) (k : Nat) (x : Kernel) : State := { s with kernels := tput s.kernels k x }

def State.modDie (s : State) (d : Nat) (f : Die → Die) : State := s.setDie d (f (s.die d))
def State.modCore (s : State) (d c : Nat) (f : Core → Core) : State := s.setCore d c (f (s.core d c))
def State.modCtx (s : State) (c : Nat) (f : Context → Context) : State := s.setCtx c (f (s.ctx c))
def State.modQueue (s : State) (q : Nat) (f : Queue → Queue) : State := s.setQueue q (f (s.queue q))
def State.modMod (s : State) (f : Module → Module) : State := { s with mod := f s.mod }

def State.modWarp (s : State) (w : Nat) (f : Warp → Warp) : State :=
  match s.warp? w with
  | some x => s.setWarp w (f x)
  | none   => s

def State.modBlock (s : State) (b : Nat) (f : Block → Block) : State :=
  match s.block? b with
  | some x => s.setBlock b (f x)
  | none   => s

def State.modShare (s : State) (h : Nat) (f : Share → Share) : State :=
  match s.share? h with
  | some x => s.setShare h (f x)
  | none   => s

def State.modKernel (s : State) (k : Nat) (f : Kernel → Kernel) : State :=
  match s.kernel? k with
  | some x => s.setKernel k (f x)
  | none   => s

/-- Draws the next name. -/
def State.bump (s : State) : State := { s with fresh := s.fresh + 1 }

/-- Time units in one ns (log entry 2). -/
def unitsPerNs : Nat := 47000000

/-- Module time of a die in ns (R356). -/
def State.ns (s : State) (d : Nat) : Nat := (s.die d).time / unitsPerNs

/-! ### Threads -/

/-- A register as a thread names it: in a handler, 0-31 name the window (R316). -/
def Thread.reg (t : Thread) (r : Nat) : VReg :=
  match t.trap with
  | some f => if r < 32 then f.window.getD r zeroReg else t.regs.getD r zeroReg
  | none   => t.regs.getD r zeroReg

/-- Writes a register as the thread names it. -/
def Thread.setReg (t : Thread) (r : Nat) (v : VReg) : Thread :=
  match t.trap with
  | some f => if r < 32 then { t with trap := some { f with window := f.window.set r v } } else { t with regs := t.regs.set r v }
  | none   => { t with regs := t.regs.set r v }

/-- Writes the interrupted thread's register, or the window's, whatever runs now: where a pending result lands (R135). -/
def Thread.land (t : Thread) (win : Bool) (r : Nat) (v : VReg) : Thread :=
  if win then
    match t.trap with
    | some f => { t with trap := some { f with window := f.window.set r v } }
    | none   => t
  else { t with regs := t.regs.set r v }

/-- Whether a write to register `r` now goes to the window. -/
def Thread.inWin (t : Thread) (r : Nat) : Bool := t.trap.isSome && decide (r < 32)

/-- A predicate (p7 reads true, R92). -/
def Thread.pred (t : Thread) (p : Nat) : Bool := p == 7 || t.preds.getLsbD p

/-- Writes a predicate; a write to p7 is discarded (R32). -/
def Thread.setPred (t : Thread) (p : Nat) (v : Bool) : Thread :=
  if 7 ≤ p then t
  else { t with preds := if v then t.preds ||| BitVec.ofNat 8 (2 ^ p) else t.preds &&& ~~~ BitVec.ofNat 8 (2 ^ p) }

/-- A live thread is neither OFF nor EXITED (R138). -/
def Thread.live (t : Thread) : Bool :=
  match t.st with
  | .exited => false
  | .off    => false
  | _       => true

def Warp.thread (w : Warp) (l : Nat) : Option Thread := w.threads[l]?

/-- Changes one thread. -/
def Warp.modThread (w : Warp) (l : Nat) (f : Thread → Thread) : Warp := { w with threads := lmod w.threads l f }

/-- Changes the threads of a set of lanes. -/
def Warp.mapLanes (w : Warp) (m : Lanes) (f : Nat → Thread → Thread) : Warp :=
  { w with threads := w.threads.mapIdx fun l t => if m.getLsbD l then f l t else t }

/-- The live lanes. -/
def Warp.live (w : Warp) : Lanes := lanesOf ((List.range w.width).filter fun l => ((w.thread l).map Thread.live).getD false)

/-- The clause issued on a pipe. -/
def Warp.iss (w : Warp) (p : Pipe) : Option Issue :=
  match p with
  | .a => w.issA
  | .b => w.issB

def Warp.setIss (w : Warp) (p : Pipe) (i : Option Issue) : Warp :=
  match p with
  | .a => { w with issA := i }
  | .b => { w with issB := i }

def Warp.slice (w : Warp) : Nat := w.slot / 16

/-- Whether a thread runs in supervisor mode (R311). -/
def superThread (w : Warp) (t : Thread) : Bool := w.ctx == 0 || t.trap.isSome

def State.modThread (s : State) (w l : Nat) (f : Thread → Thread) : State := s.modWarp w fun x => x.modThread l f

def State.mapLanes (s : State) (w : Nat) (m : Lanes) (f : Nat → Thread → Thread) : State :=
  s.modWarp w fun x => x.mapLanes m f

def State.thread? (s : State) (w l : Nat) : Option Thread := (s.warp? w).bind fun x => x.thread l

/-- The register `r` of lane `l` of warp `w` as its thread names it. -/
def State.vreg (s : State) (w l r : Nat) : VReg := ((s.thread? w l).map fun t => t.reg r).getD zeroReg

def State.wreg (s : State) (w r : Nat) : VReg := ((s.warp? w).map fun x => x.wregs.getD r zeroReg).getD zeroReg

def State.setWreg (s : State) (w r : Nat) (v : VReg) : State := s.modWarp w fun x => { x with wregs := x.wregs.set r v }

/-- The warps attached to a block, with their names. -/
def State.blockWarps (s : State) (b : Nat) : List (Nat × Warp) := s.warps.filter fun x => x.2.block == some b

/-- Whether a block is PARKED: its operations hold no place of its core (R172, R318). -/
def State.parked (s : State) (b : Nat) : Bool := ((s.block? b).map fun x => decide (x.st = .parked)).getD false

/-- s.nwarp of a block (R104). -/
def State.nwarp (s : State) (b : Nat) : Nat := (s.blockWarps b).length

/-- The header after a clause (R26). -/
def nextHeader (hdr count : Nat) : Nat := hdr + 8 * (count + 2)

def atHeader (hdr : Nat) : CodePt := ⟨hdr, none, false⟩

/-- Makes a thread READY at a code point, in an arrival group, at a module time (R138, R139). -/
def Thread.ready (t : Thread) (pc : CodePt) (group now : Nat) : Thread :=
  { t with st := .ready, pc := pc, group := group, since := now, count := 0, redirect := none }

/-- Releases a WAITING thread, whose program counter already names where it goes on. -/
def Thread.release (t : Thread) (group now : Nat) : Thread := t.ready t.pc group now

/-- Makes the threads of a set READY where their program counters stand, in the arrival group of this step (R139). -/
def State.releaseLanes (s : State) (w : Nat) (m : Lanes) : State :=
  match s.warp? w with
  | none   => s
  | some x =>
    let now := (s.die x.die).time
    s.mapLanes w m fun _ t => if t.live then t.release s.instant now else t

end Sys2Proof.Machine
end

