-- ==== Sys2Proof/Machine/Keccak.lean ====
section
/-! DEFINITION. SHAKE256: the digests of 27_snapshot R397, 19_context R318 and 28_die R403 (log entry 6). -/

namespace Sys2Proof.Machine

/-- The rotations of the lanes x + 5·y. -/
def keccakRotations : List Nat :=
  [0, 1, 62, 28, 27, 36, 44, 6, 55, 20, 3, 10, 43, 25, 39, 41, 45, 15, 21, 8, 18, 2, 61, 56, 14]

/-- The constants of the 24 rounds. -/
def keccakConstants : List Word64 :=
  [0x0000000000000001, 0x0000000000008082, 0x800000000000808A, 0x8000000080008000, 0x000000000000808B, 0x0000000080000001] ++
  [0x8000000080008081, 0x8000000000008009, 0x000000000000008A, 0x0000000000000088, 0x0000000080008009, 0x000000008000000A] ++
  [0x000000008000808B, 0x800000000000008B, 0x8000000000008089, 0x8000000000008003, 0x8000000000008002, 0x8000000000000080] ++
  [0x000000000000800A, 0x800000008000000A, 0x8000000080008081, 0x8000000000008080, 0x0000000080000001, 0x8000000080008008]

/-- Each lane with the parities of two columns beside its own (theta). -/
def keccakTheta (a : List Word64) : List Word64 :=
  let c := (List.range 5).map fun x => (List.range 5).foldl (fun v y => v ^^^ a.getD (x + 5 * y) 0) 0
  (List.range 25).map fun i => a.getD i 0 ^^^ c.getD ((i + 4) % 5) 0 ^^^ (c.getD ((i + 1) % 5) 0).rotateLeft 1

/-- The lanes turned and moved to their new places (rho, pi). -/
def keccakMove (a : List Word64) : List Word64 :=
  (List.range 25).map fun i =>
    let j := 3 * (i / 5 + 2 * (i % 5)) % 5 + 5 * (i % 5)
    (a.getD j 0).rotateLeft (keccakRotations.getD j 0)

/-- The one step that is not linear (chi). -/
def keccakChi (a : List Word64) : List Word64 :=
  (List.range 25).map fun i =>
    let at_ := fun (k : Nat) => a.getD ((i + k) % 5 + 5 * (i / 5)) 0
    a.getD i 0 ^^^ (~~~ at_ 1 &&& at_ 2)

/-- A round. -/
def keccakRound (a : List Word64) (rc : Word64) : List Word64 := lmod (keccakChi (keccakMove (keccakTheta a))) 0 fun x => x ^^^ rc

/-- The permutation of the 25 lanes. -/
def keccak (a : List Word64) : List Word64 := keccakConstants.foldl keccakRound a

/-- A block of 136 bytes is taken in. -/
def keccakTake (a : List Word64) (block : List Byte) : List Word64 :=
  keccak ((List.range 25).map fun i => a.getD i 0 ^^^ BitVec.ofNat 64 (leNat ((block.drop (8 * i)).take 8)))

/-- The message filled up to whole blocks, with the ending of SHAKE. -/
def shakePadded (m : List Byte) : List Byte :=
  let n := 136 - m.length % 136
  if n = 1 then m ++ [0x9F] else m ++ 0x1F :: (List.replicate (n - 2) 0 ++ [0x80])

/-- Takes in `n` blocks. -/
def keccakAll : Nat → List Byte → List Word64 → List Word64
  | 0, _, a => a
  | n + 1, bs, a => keccakAll n (bs.drop 136) (keccakTake a (bs.take 136))

/-- SHAKE256 truncated to `n` bytes, at most 136. -/
def shake256 (n : Nat) (m : List Byte) : List Byte :=
  let bs := shakePadded m
  ((keccakAll (bs.length / 136) bs (List.replicate 25 0)).flatMap fun w => leBytes 8 w.toNat).take n

/-- The first 64 bits of SHAKE256, the first byte lowest (R318, R397; log entry 6). -/
def hash64 (m : List Byte) : Word64 := BitVec.ofNat 64 (leNat (shake256 8 m))

end Sys2Proof.Machine
end

