-- ==== Sys2Proof/Machine/Flags.lean ====
section
/-! DEFINITION. Floating point as spec 03_numbers (R68-R78) and 05_float (R117-R131) define it: exact dyadic values,
rounding in every mode, the sticky flags every rounding and operation raises, comparisons and conversions. -/

namespace Sys2Proof.Machine

/-! ### Flags and formats -/

/-- The five sticky flags (R77): bit 0 nv, 1 dz, 2 of, 3 uf, 4 nx. -/
abbrev Flags := BitVec 5

def flagNv : Flags := 1
def flagDz : Flags := 2
def flagOf : Flags := 4
def flagUf : Flags := 8
def flagNx : Flags := 16

/-- A flag raised on a condition. -/
def flagIf (b : Bool) (f : Flags) : Flags := if b then f else 0

/-- A floating format (R68): total width, exponent and fraction widths, bias; `ocp` marks E4M3, which has no infinity. -/
structure Fmt where
  width : Nat
  ebits : Nat
  fbits : Nat
  bias  : Nat
  ocp   : Bool
deriving DecidableEq, Repr

def fp32 : Fmt := ⟨32, 8, 23, 127, false⟩
def fp16 : Fmt := ⟨16, 5, 10, 15, false⟩
def bf16 : Fmt := ⟨16, 8, 7, 127, false⟩
def e4m3 : Fmt := ⟨8, 4, 3, 7, true⟩
def e5m2 : Fmt := ⟨8, 5, 2, 15, false⟩

/-- The canonical NaN of a format (R71). -/
def Fmt.nan (f : Fmt) : Nat :=
  if f.ocp then 0x7F else (2 ^ f.ebits - 1) * 2 ^ f.fbits + 2 ^ (f.fbits - 1)

def Fmt.sign (f : Fmt) (neg : Bool) : Nat := if neg then 2 ^ (f.width - 1) else 0

/-- ±∞ (not for E4M3). -/
def Fmt.inf (f : Fmt) (neg : Bool) : Nat := f.sign neg + (2 ^ f.ebits - 1) * 2 ^ f.fbits

/-- ±the largest finite value. -/
def Fmt.max (f : Fmt) (neg : Bool) : Nat :=
  f.sign neg + (if f.ocp then 0x7E else (2 ^ f.ebits - 1) * 2 ^ f.fbits - 1)

/-- The exponent of the smallest normal value. -/
def Fmt.emin (f : Fmt) : Int := 1 - (f.bias : Int)

/-- An exact finite value `± m · 2^e`; the sign also tells the two zeros apart. -/
structure Dy where
  neg : Bool
  m   : Nat
  e   : Int
deriving DecidableEq, Repr

/-- What an encoding stands for (R69): NaN (`sig` when signalling), infinity, or a finite value. -/
inductive FVal where
  | nan (sig : Bool)
  | inf (neg : Bool)
  | fin (d : Dy)
deriving DecidableEq, Repr

/-- The value of an encoding (R69, R71). -/
def Fmt.decode (f : Fmt) (x : Nat) : FVal :=
  let fr := x % 2 ^ f.fbits
  let ex := x / 2 ^ f.fbits % 2 ^ f.ebits
  let neg := x.testBit (f.width - 1)
  if ex = 0 then .fin ⟨neg, fr, f.emin - f.fbits⟩
  else if ex = 2 ^ f.ebits - 1 && !f.ocp then
    if fr = 0 then .inf neg else .nan (!(fr.testBit (f.fbits - 1)))
  else if f.ocp && ex = 15 && fr = 7 then .nan false
  else .fin ⟨neg, 2 ^ f.fbits + fr, ex - f.bias - f.fbits⟩

/-! ### Rounding -/

/-- The rounding modes (R72, R74); `rs g` carries the generator's output `g` (R76). -/
inductive Rnd where
  | rn
  | rz
  | ru
  | rd
  | rs (g : Nat)
deriving DecidableEq, Repr

/-- Modes 0-3 as most entries code them (R119). -/
def rndOf (m : Nat) : Rnd := if m = 1 then .rz else if m = 2 then .ru else if m = 3 then .rd else .rn

/-- Whether the magnitude `n + r/d` (`r < d`) rounds up to `n + 1`. -/
def roundUp (mode : Rnd) (neg : Bool) (n r d : Nat) : Bool :=
  match mode with
  | .rn   => decide (d < 2 * r) || (decide (d = 2 * r) && n % 2 == 1)
  | .rz   => false
  | .ru   => !neg && decide (0 < r)
  | .rd   => neg && decide (0 < r)
  | .rs g => decide (g < r * 2 ^ 32 / d)

/-- `|x| = m·2^e` rounded to a multiple of `2^q`: the multiple, and whether it is inexact. -/
def roundGrid (mode : Rnd) (neg : Bool) (m : Nat) (e q : Int) : Nat × Bool :=
  if q ≤ e then (m * 2 ^ (e - q).toNat, false)
  else
    let d := 2 ^ (q - e).toNat
    let n := m / d
    let r := m % d
    (if roundUp mode neg n r d then n + 1 else n, r != 0)

/-- The exponent of the leading bit of `m·2^e`, `m ≠ 0`. -/
def topExp (m : Nat) (e : Int) : Int := e + m.log2

/-- An encoding and the flags its rounding raised. -/
structure Rounded where
  bits  : Nat
  flags : Flags
deriving DecidableEq, Repr

/-- The result of a finite overflow (R72, R73). -/
def overflow (f : Fmt) (mode : Rnd) (sat neg : Bool) : Rounded :=
  if sat then ⟨f.max neg, flagOf ||| flagNx⟩
  else if f.ocp then ⟨f.nan, flagOf ||| flagNx ||| flagNv⟩
  else
    let toMax := match mode with
      | .rz => true
      | .ru => neg
      | .rd => !neg
      | _   => false
    ⟨if toMax then f.max neg else f.inf neg, flagOf ||| flagNx⟩

/-- `Round` of a finite value (R72, R73, R76, R77). -/
def roundFin (f : Fmt) (mode : Rnd) (sat : Bool) (x : Dy) : Rounded :=
  if x.m = 0 then ⟨f.sign x.neg, 0⟩
  else
    let top := topExp x.m x.e
    let q := max top f.emin - f.fbits
    let (n, inexact) := roundGrid mode x.neg x.m x.e q
    let (nu, _) := roundGrid mode x.neg x.m x.e (top - f.fbits)
    -- the rounded magnitude under an unbounded exponent range lies below 2^emin
    let tiny := decide (top < f.emin) && decide (nu < 2 ^ (f.emin - (top - f.fbits)).toNat)
    let q' := if n = 2 ^ (f.fbits + 1) then q + 1 else q
    let n' := if n = 2 ^ (f.fbits + 1) then 2 ^ f.fbits else n
    let field := q' + f.fbits + f.bias
    if n' < 2 ^ f.fbits then
      ⟨f.sign x.neg + n', flagIf inexact flagNx ||| flagIf (tiny && inexact) flagUf⟩
    else
      let enc := field.toNat * 2 ^ f.fbits + (n' - 2 ^ f.fbits)
      if enc ≤ f.max false then
        ⟨f.sign x.neg + enc, flagIf inexact flagNx ||| flagIf (tiny && inexact) flagUf⟩
      else overflow f mode sat x.neg

/-- `Round` of any value (R72, R73): for conversions, `sat` selects R73's default. -/
def roundVal (f : Fmt) (mode : Rnd) (sat : Bool) (x : FVal) : Rounded :=
  match x with
  | .nan sig => ⟨f.nan, flagIf sig flagNv⟩
  | .inf neg => if f.ocp then ⟨if sat then f.max neg else f.nan, flagNv⟩ else ⟨f.inf neg, 0⟩
  | .fin d   => roundFin f mode sat d

/-- `Round(x, int, mode)` of `± m·2^e`: the signed integer and whether it is inexact (R277). -/
def roundInt (mode : Rnd) (x : Dy) : Int × Bool :=
  let (n, i) := roundGrid mode x.neg x.m x.e 0
  (if x.neg then -(n : Int) else n, i)

/-! ### Exact arithmetic -/

/-- The signed value of `x` at exponent `e ≤ x.e`. -/
def Dy.at (x : Dy) (e : Int) : Int :=
  let n : Int := x.m * 2 ^ (x.e - e).toNat
  if x.neg then -n else n

/-- An integer times `2^e`. -/
def dyInt (n e : Int) : Dy := ⟨decide (n < 0), n.natAbs, e⟩

/-- The exact sum; an exact zero is `+0`, or `-0` under RD or when both terms are negative zeros or negative (R72). -/
def Dy.add (mode : Rnd) (x y : Dy) : Dy :=
  let e := min x.e y.e
  let n := x.at e + y.at e
  if n = 0 then
    ⟨if x.neg && y.neg then true else if !x.neg && !y.neg then false else decide (mode = .rd), 0, e⟩
  else dyInt n e

def Dy.mul (x y : Dy) : Dy := ⟨x.neg != y.neg, x.m * y.m, x.e + y.e⟩
def Dy.negate (x : Dy) : Dy := { x with neg := !x.neg }

def FVal.isNan : FVal → Bool
  | .nan _ => true
  | _      => false

def FVal.isSig : FVal → Bool
  | .nan s => s
  | _      => false

def FVal.neg : FVal → FVal
  | .nan s => .nan s
  | .inf n => .inf (!n)
  | .fin d => .fin d.negate

def FVal.isZero : FVal → Bool
  | .fin d => d.m == 0
  | _      => false

def FVal.isInf : FVal → Bool
  | .inf _ => true
  | _      => false

/-- The sign bit of a value that is not NaN. -/
def FVal.sign : FVal → Bool
  | .nan _ => false
  | .inf n => n
  | .fin d => d.neg

/-- Canonical NaN with nv. -/
def invalid (f : Fmt) : Rounded := ⟨f.nan, flagNv⟩

/-- Canonical NaN for NaN operands, nv when one is signalling (R119). -/
def quiet (f : Fmt) (xs : List FVal) : Rounded := ⟨f.nan, flagIf (xs.any FVal.isSig) flagNv⟩

/-- The exact product of two values that are not NaN; none for 0 · ∞. -/
def FVal.mul (x y : FVal) : Option FVal :=
  match x, y with
  | .fin a, .fin b => some (.fin (a.mul b))
  | .inf a, .inf b => some (.inf (a != b))
  | .inf a, .fin b => if b.m = 0 then none else some (.inf (a != b.neg))
  | .fin a, .inf b => if a.m = 0 then none else some (.inf (a.neg != b))
  | _, _           => none

/-- The rounded sum of two values that are not NaN (R119). -/
def addVals (f : Fmt) (mode : Rnd) (x y : FVal) : Rounded :=
  match x, y with
  | .fin a, .fin b => roundFin f mode false (a.add mode b)
  | .inf a, .inf b => if a = b then ⟨f.inf a, 0⟩ else invalid f
  | .inf a, _      => ⟨f.inf a, 0⟩
  | _, .inf b      => ⟨f.inf b, 0⟩
  | _, _           => invalid f

/-- a + b (R119). -/
def fAdd (f : Fmt) (mode : Rnd) (a b : Nat) : Rounded :=
  let x := f.decode a
  let y := f.decode b
  if x.isNan || y.isNan then quiet f [x, y] else addVals f mode x y

/-- a − b (R119). -/
def fSub (f : Fmt) (mode : Rnd) (a b : Nat) : Rounded :=
  let x := f.decode a
  let y := f.decode b
  if x.isNan || y.isNan then quiet f [x, y] else addVals f mode x y.neg

/-- a · b of two values, rounded to `f` (R119, R127, R128). -/
def mulVals (f : Fmt) (mode : Rnd) (sat : Bool) (x y : FVal) : Rounded :=
  if x.isNan || y.isNan then quiet f [x, y]
  else match x.mul y with
    | none   => invalid f
    | some v => roundVal f mode sat v

def fMul (f : Fmt) (mode : Rnd) (a b : Nat) : Rounded := mulVals f mode false (f.decode a) (f.decode b)

/-- a · b + c with one rounding; 0 · ∞ raises nv even beside a quiet NaN c (R119). -/
def fFma (f : Fmt) (mode : Rnd) (a b c : Nat) : Rounded :=
  let x := f.decode a
  let y := f.decode b
  let z := f.decode c
  if x.isNan || y.isNan then quiet f [x, y, z]
  else match x.mul y with
    | none   => invalid f
    | some p => if z.isNan then quiet f [z] else addVals f mode p z

/-! ### Comparison -/

/-- The order of two values that are not NaN: −1, 0 or 1. -/
def cmpVals (x y : FVal) : Int :=
  match x, y with
  | .fin a, .fin b =>
    let e := min a.e b.e
    let d := a.at e - b.at e
    if d < 0 then -1 else if d = 0 then 0 else 1
  | .inf a, .inf b => if a = b then 0 else if a then -1 else 1
  | .inf a, _      => if a then -1 else 1
  | _, .inf b      => if b then 1 else -1
  | _, _           => 0

/-- x < y, with −0 below +0 (R120). -/
def lessZ (x y : FVal) : Bool :=
  if x.isZero && y.isZero then x.sign && !y.sign else decide (cmpVals x y < 0)

/-- FMIN (`big` false) and FMAX (R120): `nanm` is mod 1. -/
def fMinMax (f : Fmt) (big nanm : Bool) (a b : Nat) : Rounded :=
  let x := f.decode a
  let y := f.decode b
  let fl := flagIf (x.isSig || y.isSig) flagNv
  if x.isNan && y.isNan then ⟨f.nan, fl⟩
  else if x.isNan then ⟨if nanm then f.nan else b, fl⟩
  else if y.isNan then ⟨if nanm then f.nan else a, fl⟩
  else ⟨if lessZ x y != big then a else b, 0⟩

/-- The maximum of magnitudes (R120). -/
def fMaxA (f : Fmt) (a b : Nat) : Rounded :=
  let x := f.decode a
  let y := f.decode b
  let a' := a % 2 ^ (f.width - 1)
  let b' := b % 2 ^ (f.width - 1)
  if x.isNan || y.isNan then quiet f [x, y] else ⟨max a' b', 0⟩

/-- FCMP's condition and flags (R121). -/
def fCmp (cond a b : Nat) : Bool × Flags :=
  let x := fp32.decode a
  let y := fp32.decode b
  let un := x.isNan || y.isNan
  let c := cmpVals x y
  let res := match cond with
    | 0 => !un && c == 0
    | 1 => un || c != 0
    | 2 => !un && decide (c < 0)
    | 3 => !un && decide (c ≤ 0)
    | 4 => !un && decide (c > 0)
    | 5 => !un && decide (c ≥ 0)
    | 6 => un
    | _ => !un
  (res, flagIf (x.isSig || y.isSig || (un && 2 ≤ cond && cond ≤ 5)) flagNv)

/-- FCLASS's one-hot word (R122). -/
def fClass (a : Nat) : Nat :=
  match fp32.decode a with
  | .nan true  => 1
  | .nan false => 2
  | .inf true  => 4
  | .inf false => 0x200
  | .fin d =>
    if d.m = 0 then (if d.neg then 0x20 else 0x40)
    else if d.m < 2 ^ 23 then (if d.neg then 0x10 else 0x80)
    else (if d.neg then 8 else 0x100)

/-- FRND (R123): the integral value keeps the sign and raises neither nx nor uf. -/
def fRnd (mode : Rnd) (a : Nat) : Rounded :=
  match fp32.decode a with
  | .nan sig => ⟨fp32.nan, flagIf sig flagNv⟩
  | .inf _   => ⟨a, 0⟩
  | .fin d   =>
    let n := (roundGrid mode d.neg d.m d.e 0).1
    ⟨(roundFin fp32 mode false ⟨d.neg, n, 0⟩).bits, 0⟩

/-! ### Packed halves (R124) -/

/-- Two results in the halves of a register, the flags of both ORed. -/
def pack2 (lo hi : Rounded) : Rounded := ⟨lo.bits + 2 ^ 16 * hi.bits, lo.flags ||| hi.flags⟩

def halfFmt (bf : Bool) : Fmt := if bf then bf16 else fp16

def packed2 (op : Nat → Nat → Rounded) (a b : Nat) : Rounded :=
  pack2 (op (a % 2 ^ 16) (b % 2 ^ 16)) (op (a / 2 ^ 16) (b / 2 ^ 16))

def packed3 (op : Nat → Nat → Nat → Rounded) (a b c : Nat) : Rounded :=
  pack2 (op (a % 2 ^ 16) (b % 2 ^ 16) (c % 2 ^ 16)) (op (a / 2 ^ 16) (b / 2 ^ 16) (c / 2 ^ 16))

/-! ### Conversion (R125-R128) -/

/-- The floating types 0-4 (R125). -/
def typeFmt (t : Nat) : Fmt := if t = 0 then fp32 else if t = 1 then fp16 else if t = 2 then bf16 else if t = 3 then e4m3 else e5m2

/-- A 32-bit image read as signed (R93). -/
def sInt (x : Nat) : Int := if x < 2 ^ 31 then x else (x : Int) - 2 ^ 32

/-- An integer's 32-bit image (R93). -/
def img32 (x : Int) : Nat := (x % 2 ^ 32).toNat

/-- The limits of s32 (`s`) and u32. -/
def intLimits (s : Bool) : Int × Int := if s then (-(2 ^ 31), 2 ^ 31 - 1) else (0, 2 ^ 32 - 1)

/-- float → integer (R126). -/
def toInt (s : Bool) (mode : Rnd) (x : FVal) : Rounded :=
  let (lo, hi) := intLimits s
  match x with
  | .nan _ => ⟨0, flagNv⟩
  | .inf n => ⟨img32 (if n then lo else hi), flagNv⟩
  | .fin d =>
    let (n, i) := roundInt mode d
    if n < lo then ⟨img32 lo, flagNv⟩ else if hi < n then ⟨img32 hi, flagNv⟩ else ⟨img32 n, flagIf i flagNx⟩

/-- CVT of one source image (R126): `dst`, `src` type codes. -/
def convert (dst src : Nat) (nosat : Bool) (mode : Rnd) (a : Nat) : Rounded :=
  if 5 ≤ src then
    let x : Int := if src = 5 then sInt a else a
    if 5 ≤ dst then let (lo, hi) := intLimits (dst == 5); ⟨img32 (satInt x lo hi), 0⟩
    else roundFin (typeFmt dst) mode (!nosat && decide (3 ≤ dst)) (dyInt x 0)
  else
    let v := (typeFmt src).decode (a % 2 ^ (typeFmt src).width)
    if 5 ≤ dst then toInt (dst == 5) mode v
    else roundVal (typeFmt dst) mode (!nosat && decide (3 ≤ dst)) v

/-- F8CV's byte (R127). -/
def f8cvByte (f : Fmt) (mode : Rnd) (nosat : Bool) (a b : Nat) : Rounded :=
  mulVals f mode (!nosat) (fp32.decode a) (fp32.decode b)

/-- F8UP's word (R128). -/
def f8upWord (f : Fmt) (mode : Rnd) (a b : Nat) : Rounded := mulVals fp32 mode false (f.decode a) (fp32.decode b)

/-! ### The RS generator (R7, R75) -/

/-- XorShift of R7. -/
def xorShift (x : Word) : Word :=
  let x := x ^^^ (x <<< 13)
  let x := x ^^^ (x >>> 17)
  x ^^^ (x <<< 5)

/-- The generator's state when a warp starts or attaches (R75). -/
def seedGen (seed : Word) (linear width warp lane : Nat) : Word :=
  let x := seed ^^^ BitVec.ofNat 32 (4096 * linear + width * warp + lane)
  if x = 0 then 0x9E3779B9 else x

/-! ### Correctly rounded quotients and roots (R131) -/

/-- a / b of finite values, b ≠ 0: a quotient of at least 60 bits with a sticky bit, so that rounding it rounds the exact
quotient. -/
def quotient (a b : Dy) : Dy :=
  let k := 60 + b.m.log2
  let n := a.m * 2 ^ k
  let q := n / b.m
  ⟨a.neg != b.neg, if a.m = 0 then 0 else 2 * q + (if n % b.m = 0 then 0 else 1), a.e - b.e - k - 1⟩

/-- The integer square root. -/
def isqrt (n : Nat) : Nat := Nat.sqrt n

/-- √a of a positive finite value, with a sticky bit. -/
def root (a : Dy) : Dy :=
  let m := if a.e % 2 = 0 then a.m else 2 * a.m
  let e := if a.e % 2 = 0 then a.e else a.e - 1
  let n := m * 2 ^ 120
  let r := isqrt n
  ⟨false, 2 * r + (if r * r = n then 0 else 1), e / 2 - 61⟩

/-- DIV (R131). -/
def fDiv (mode : Rnd) (a b : Nat) : Rounded :=
  let x := fp32.decode a
  let y := fp32.decode b
  if x.isNan || y.isNan then quiet fp32 [x, y]
  else match x, y with
    | .inf _, .inf _ => invalid fp32
    | .inf n, _      => ⟨fp32.inf (n != y.sign), 0⟩
    | _, .inf n      => ⟨fp32.sign (x.sign != n), 0⟩
    | .fin p, .fin q =>
      if q.m = 0 then (if p.m = 0 then invalid fp32 else ⟨fp32.inf (p.neg != q.neg), flagDz⟩)
      else roundFin fp32 mode false (quotient p q)
    | _, _           => invalid fp32

/-- RCP is 1/a (R131). -/
def fRcp (mode : Rnd) (a : Nat) : Rounded := fDiv mode 0x3F800000 a

/-- SQRT (R131). -/
def fSqrt (mode : Rnd) (a : Nat) : Rounded :=
  match fp32.decode a with
  | .nan sig => ⟨fp32.nan, flagIf sig flagNv⟩
  | .inf n   => if n then invalid fp32 else ⟨fp32.inf false, 0⟩
  | .fin d   => if d.m = 0 then ⟨fp32.sign d.neg, 0⟩ else if d.neg then invalid fp32 else roundFin fp32 mode false (root d)

end Sys2Proof.Machine
end

