-- ==== Sys2Proof/Machine/Operands.lean ====
section
/-! DEFINITION. Every operand form: registers and zero literals (R33-R36), the B operand and immediates (R101, R117),
guards (R30), branch targets (R43), memory addresses (R44, R163) and the lists of registers a word waits for. -/

namespace Sys2Proof.Machine

/-- A source register of a word: its first register, how many, and its trap-on-empty bit. -/
structure Src where
  reg : Nat
  n   : Nat
  e   : Bool
deriving DecidableEq, Repr

/-- A source field as a list of sources: none under a zero literal (R34). -/
def src (r : BitVec 9) (n : Nat) (e z : Bool) : List Src := if z then [] else [⟨r.toNat, n, e⟩]

/-- The registers `r … r+n−1`. -/
def regRange (r n : Nat) : List Nat := (List.range n).map fun k => r + k

def Src.regs (x : Src) : List Nat := regRange x.reg x.n

/-- Whether some register of a list is empty in a thread. -/
def Thread.anyEmpty (t : Thread) (rs : List Nat) : Bool := rs.any fun r => !(t.reg r).full

/-- Whether a source with its trap-on-empty bit is empty (check 7 of R49). -/
def Thread.emptyTrap (t : Thread) (ss : List Src) : Bool := ss.any fun x => x.e && t.anyEmpty x.regs

/-- Whether a source or destination is empty, so that the word blocks (R36, R98, R99). -/
def Thread.mustWait (t : Thread) (ss : List Src) (ds : List Nat) : Bool :=
  (ss.any fun x => t.anyEmpty x.regs) || t.anyEmpty ds

/-- The value of a source register, 0 under a zero literal. -/
def Thread.val (t : Thread) (r : BitVec 9) (z : Bool) : Word := if z then 0 else (t.reg r.toNat).val

/-- The value of the pair at an even register (R2). -/
def Thread.pair (t : Thread) (r : Nat) : Word64 := pairOf (t.reg r).val (t.reg (r + 1)).val

/-- Writes a full register (R93). -/
def Thread.put (t : Thread) (r : Nat) (v : Word) : Thread := t.setReg r ⟨v, true⟩

/-- Writes a pair (R2). -/
def Thread.putPair (t : Thread) (r : Nat) (v : Word64) : Thread := (t.put r (loOf v)).put (r + 1) (hiOf v)

/-- Marks registers empty (R97). -/
def Thread.empty (t : Thread) (rs : List Nat) : Thread := rs.foldl (fun t r => t.setReg r { t.reg r with full := false }) t

/-- The guard of a word in a thread (R30). -/
def guardEval (g : Guard) (t : Thread) : Bool := g.inv != t.pred g.pred.toNat

/-- Operand B of an integer I form (R101). -/
def immB (i : BitVec 24) : Word := i.signExtend 32

/-- Operand B of a floating I form (R117). -/
def immF (i : BitVec 24) : Word := i.setWidth 32 <<< 8

/-- A relative branch target, modulo 2^57 (R43). -/
def relTarget (hdr : Nat) (off : Word) : Nat := ((hdr : Int) + off.toInt) % (2 ^ 57 : Int) |>.toNat

/-- An indirect branch target (R43): bits [56:32] of the header's address, then the register plus the offset. -/
def indTarget (hdr : Nat) (v off : Word) : Nat := hdr % 2 ^ 57 / 2 ^ 32 * 2 ^ 32 + (v + off).toNat

/-- The address a format M word forms (R163). -/
def memAddr (x : Word) (off : BitVec 24) : Nat := (x + off.signExtend 32).toNat

/-- The access width of a size code (R163). -/
def sizeBytes (z : BitVec 3) : Nat :=
  match z.toNat with
  | 0 | 5 => 1
  | 1 | 6 => 2
  | 2     => 4
  | 3     => 8
  | _     => 16

/-- The registers a size code needs (R44). -/
def sizeRegs (z : BitVec 3) : Nat := if z == 3 then 2 else if z == 4 then 4 else 1

/-- The little-endian number in `n` consecutive registers (R2). -/
def Thread.multi (t : Thread) (r : Nat) : Nat → Nat
  | 0     => 0
  | n + 1 => (t.reg r).val.toNat + 2 ^ 32 * t.multi (r + 1) n

/-- The low 32 bits of a number as a register image (R93). -/
def natWord (x : Nat) : Word := BitVec.ofNat 32 x

/-- An integer as a register image (R93). -/
def intWord (x : Int) : Word := BitVec.ofInt 32 x

end Sys2Proof.Machine
end

