-- ==== Sys2Proof/Machine/Ops.lean ====
section
/-! DEFINITION. The operations every family shares: logs and error records, queues and the end of a context, region
aborts, publications, mask rounds and barriers, a thread's leaving, taking an exception and returning from one, and the
execution of a word by the current bundle. -/

namespace Sys2Proof.Machine

/-! ### Logs and the host error record (R321, R322) -/

/-- Logs one entry in a context's violation log (R322). -/
def logViolation (c addr kind source die : Nat) (s : State) : State :=
  s.modCtx c fun x =>
    { x with
      log := tput x.log (x.seq % 256)
        ⟨BitVec.ofNat 64 addr, natWord (kind * 2 ^ 28 + source * 2 ^ 24 + die * 2 ^ 16 + x.seq % 2 ^ 16)⟩
      seq := x.seq + 1
      logged := min (x.logged + 1) (2 ^ 32 - 1) }

/-- The cause fields of a failure the dispatcher finds (R321). -/
def causeDispatch : Cause := ⟨0, 0xFFFF, 0xFF, 0xFF, 0, 0, 0, 0⟩

/-- The cause fields of an engine's error on a die. -/
def causeEngine (die addr status : Nat) : Cause := ⟨die, 0xFFFF, 0xFF, 0xFF, 0, status, addr, 0⟩

/-- The cause fields of a host request. -/
def causeHost : Cause := ⟨0xFF, 0xFFFF, 0xFF, 0xFF, 0, 0, 0, 0⟩

/-- The first 48 bytes of an error record (R321). -/
def errorRecord (kind ctx reason : Nat) (c : Cause) (ns record : Nat) : List Byte :=
  leBytes 4 kind ++ leBytes 1 ctx ++ leBytes 1 reason ++ leBytes 1 c.die ++ [0] ++ leBytes 2 c.core ++ leBytes 1 c.slot ++
  leBytes 1 c.lane ++ leBytes 1 c.cause ++ leBytes 1 c.status ++ [0, 0] ++ leBytes 8 c.addr ++ leBytes 8 c.pc ++
  leBytes 8 ns ++ leBytes 8 record

/-- Whether the error ring can be written (R321). -/
def Module.ringOk (m : Module) : Bool := m.errBase != 0 && m.errSize != 0 && m.errBad.isNone

/-- Writes one record at ERRQ_WP (R321). -/
def Module.writeRecord (m : Module) (now : Nat) (r : List Byte) : Module :=
  let at_ := m.errBase.toNat + 64 * (m.errWp.toNat % m.errSize.toNat)
  { m with hostMem := msetAll m.hostMem (cellsAt at_ (r.take 48 ++ leBytes 4 m.errWp.toNat ++ List.replicate 12 0))
           errWp := m.errWp + 1, errLast := some now }

/-- Appends a record: to the ring, to the 64 places on the device, or to the count of dropped ones (R321). -/
def Module.append (m : Module) (now : Nat) (r : List Byte) : Module :=
  if m.ringOk && m.errWait.isEmpty then m.writeRecord now r
  else if m.errWait.length < 64 then { m with errWait := m.errWait ++ [r] }
  else { m with errDrop := if m.errDrop = BitVec.allOnes 32 then m.errDrop else m.errDrop + 1 }

def appendRecord (kind ctx reason : Nat) (c : Cause) (record : Nat) (s : State) : State :=
  s.modMod fun m => m.append (s.die 0).time (errorRecord kind ctx reason c (s.ns 0) record)

/-! ### Kernels and queues (R296, R301) -/

/-- A kernel becomes FAILED, with its record and the cause fields of what failed it (R296, R321). -/
def failKernel (k reason : Nat) (why : Cause) (s : State) : State :=
  match s.kernel? k with
  | none   => s
  | some x => appendRecord 2 x.ctx reason why x.record (s.setKernel k { x with st := .failed, reason := reason })

/-- A queue that is not READY has no part in its level's round until the next (R302). -/
def leaveRound (q : Nat) (s : State) : State :=
  s.modMod fun m => { m with turns := m.turns.map fun t => { t with budget := t.budget.filter fun b => b.1 != q } }

/-- A queue becomes DISABLED (R301): enable cleared, its PENDING and WAITING kernels FAILED with 0x0B. -/
def disableQueue (q reason : Nat) (why : Cause) (s : State) : State :=
  if (s.queue q).st = .disabled then s
  else
    let s := leaveRound q (s.modQueue q fun x => { x with st := .disabled, reason := reason, ctl := x.ctl &&& ~~~1, raised := false })
    let ks := s.kernels.filter fun x => x.2.queue == q && (x.2.st == .pending || x.2.st == .waiting)
    ks.foldl (fun s x => failKernel x.1 0x0B why s) s

/-- The context a queue belongs to (R298). -/
def Queue.ctx (q : Queue) : Nat := (q.ctl.extractLsb' 16 8).toNat

/-- The ring's size in entries (R298). -/
def Queue.size (q : Queue) : Nat := 2 ^ (min (q.ctl.extractLsb' 24 4).toNat 12 + 4)

/-- Entries in the ring (R299). -/
def Queue.held (q : Queue) : Nat := (q.wp - q.rp).toNat

/-- Where a queue that is neither DISABLED nor SUSPENDED stands, as its pointers and last-taken kernel give (R301). -/
def queuePlace (s : State) (q : Queue) : QueueState :=
  match q.last.bind s.kernel? with
  | some k => if k.st = .waiting then .blocked else if q.held = 0 then .empty else .ready
  | none   => if q.held = 0 then .empty else .ready

/-- Puts a queue where it stands now; a queue that enters READY starts its 10 ms (R302). -/
def settleQueue (q : Nat) (s : State) : State :=
  let x := s.queue q
  if x.st = .disabled || x.st = .suspended then s
  else
    let st := queuePlace s x
    let s := if st = .ready then s else leaveRound q s
    s.setQueue q { x with st := st, since := if x.st = .ready && st = .ready then x.since else (s.die 0).time
                          raised := x.raised && decide (st = .ready) }

/-! ### Tile-operation queue places (R261, R267) -/

/-- Whether the core's matrix engine has a free place among its 16 (R261). -/
def tilePlace (s : State) (die core : Nat) : Bool :=
  decide ((s.tops.filter fun t => t.2.die == die && t.2.core == core && !s.parked t.2.block).length < 16)

/-- Which half of a paired block a core is (R259). -/
def halfOf (b : Block) (core : Nat) : Nat := if b.tiles.length < 2 then 0 else core - b.core

/-- The issue step of a share's writes (R393). -/
def issueStep (s : State) (h : Nat) : Word := ((s.share? h).map fun x => x.done + 1).getD 0

/-- An ACCEPTING round takes a queue place when there is one (R267). -/
def acceptRound (w m : Nat) (s : State) : State :=
  match s.warp? w with
  | none => s
  | some x =>
    match (x.masks[m]?).bind MaskReg.round, x.block.bind fun b => (s.block? b).map fun y => (b, y) with
    | some r, some (b, y) =>
      if r.st = .accepting && tilePlace s x.die x.core then
        let top : TileOp :=
          { ctx := x.ctx, block := b, warp := w, die := x.die, core := x.core, half := halfOf y x.core, tile := r.tile
            kind := .mma m (r.mod % 2 == 1) (r.mod / 2 % 2 == 1) (r.mod / 4 % 2 == 1) (r.imm % 16) r.q
            fired := false, units := [], start := 0, vals := [], biasV := 0, frozen := false, step := issueStep s x.share }
        { s.setWarp w { x with masks := lmod x.masks m fun k => { k with round := some { r with st := .accepted s.fresh } } } with
          tops := tput s.tops s.fresh top, fresh := s.fresh + 1 }
      else s
    | _, _ => s

/-- Gives freed queue places of a core to ACCEPTING rounds. -/
def acceptRounds (die core : Nat) (s : State) : State :=
  (s.warps.filter fun x => x.2.die == die && x.2.core == core).foldl
    (fun s x => (List.range 12).foldl (fun s m => acceptRound x.1 m s) s) s

/-- Gives freed queue places of every core to ACCEPTING rounds. -/
def acceptAll (s : State) : State :=
  s.warps.foldl (fun s x => (List.range 12).foldl (fun s m => acceptRound x.1 m s) s) s

/-! ### The end of a context (R319) -/

/-- Whether a context can be ended (R310). -/
def Context.canEnd (c : Context) : Bool :=
  match c.st with
  | .free | .ended | .draining => false
  | _ => true

/-- The block whose publication an action makes, whichever warp asked for it (R254, R256). -/
def ActKind.publBlock : ActKind → Option Nat
  | .publ b _ _ _ => some b
  | _ => none

/-- Whether a message on the mesh belongs to the AND tree: it is a channel's, and no context's (R206). -/
def treeTag (tag : List Nat) : Bool := tag.head? == some 10 || tag.head? == some 11

/-- Ends a context: it enters DRAINING, with all the effects of R319 in one step. -/
def endContext (c reason : Nat) (cause : Cause) (s : State) : State :=
  if (s.ctx c).canEnd then
    let s := s.modCtx c fun x => { x with st := .draining, reason := reason, cause := some cause }
    let s := { s with kernels := tmap s.kernels fun (_ : Nat) (k : Kernel) =>
      if k.ctx == c && k.st != KernelState.done && k.st != KernelState.failed then { k with st := .failed, reason := 0x0A } else k }
    let qs := (s.queues.filter fun (x : Nat × Queue) => x.2.ctx == c && x.2.st != QueueState.disabled).map Prod.fst
    let s := qs.foldl (fun s q => disableQueue q 0x04 cause s) s
    let mine := fun (w : Nat) => match s.warp? w with
      | some x => x.ctx == c
      | none   => true
    let slots := fun (d : Die) => (d.regions.filter fun r => mine r.warp).map Region.slot
    acceptAll { s with
      mod := { s.mod with
        flows := tmap s.mod.flows fun _ f => { f with ctxs := f.ctxs.filter (· != c) }
        hostReqs := tkeep s.mod.hostReqs fun _ r => r.ctx != c
        transfers := tkeep s.mod.transfers fun _ t => t.ctx != c || treeTag t.tag }
      cur := match s.cur with
        | some x => if mine x.1 then none else s.cur
        | none   => none
      ops := tkeep s.ops fun _ o => o.ctx != c
      sfu := tkeep s.sfu fun _ o => !mine o.warp
      copies := tkeep s.copies fun _ o => o.ctx != c
      tops := tkeep s.tops fun _ o => o.ctx != c
      acts := tkeep s.acts fun _ a => match a.kind.publBlock with
        | some b => ((s.block? b).map fun x => x.ctx != c).getD false
        | none => !mine a.warp
      rwaits := s.rwaits.filter fun r => !mine (tgetD s.rwaitW r.1 0)
      runs := tkeep s.runs fun _ r => match s.share? r.share with
        | some h => h.ctx != c
        | none   => false
      chunks := tkeep s.chunks fun _ r => match s.share? r.dst with
        | some h => h.ctx != c
        | none   => false
      dies := tmap s.dies fun _ d =>
        { d with
          regions := d.regions.filter fun r => !(slots d).contains r.slot
          edges := d.edges.filter fun e => !(slots d).contains e.from_ && !(slots d).contains e.to_
          chains := d.chains.map fun (g : Nat × Nat × List Nat) => (g.1, g.2.1, g.2.2.filter fun x => !(slots d).contains x)
          opening := d.opening.filter fun w => !mine w
          episodes := tkeep d.episodes fun _ e => e.ctx != c
          orphans := tkeep d.orphans fun _ o => o.ctx != c
          juncs := tmap d.juncs fun k j => if k = c then { j with queue := [], c := j.p } else j
          takes := tkeep d.takes fun _ t => t.ctx != c
          held := d.held.filter fun h => h.1 != c
          gathers := tkeep d.gathers fun _ g => g.ctx != c
          reds := tkeep d.reds fun _ r => r.ctx != c
          migs := tkeep d.migs fun _ m => m.ctx != c
          fills := tkeep d.fills fun _ f => f.1 != c
          spare := tkeep d.spare fun _ k => k != c
          snaps := tdel d.snaps c }
      shares := tkeep s.shares fun _ h => h.ctx != c
      blocks := tkeep s.blocks fun _ b => b.ctx != c
      warps := tkeep s.warps fun _ w => w.ctx != c
      parks := tkeep s.parks fun _ p => !mine p.warp
      cores := tmap s.cores fun _ k => { k with lines := k.lines.filter fun l => ((s.block? l.block).map fun b => b.ctx != c).getD false } }
  else s

/-! ### Region aborts (R225, R227) -/

/-- The slots that abort with `slots`: the forward dependents, again and again (R227). -/
def cascade (d : Die) : Nat → List Nat → List Nat
  | 0, slots => slots
  | n + 1, slots =>
    let more := (d.edges.filter fun e => e.fwd && slots.contains e.from_ && !slots.contains e.to_).map Edge.to_
    if more.isEmpty then slots else cascade d n (slots ++ more.dedup)

/-- Redirects one live thread of an aborted region to the target (R225): one that executes a clause completes its current word
first, one that waits for something else goes there when that ends. When the abort is a save's (`saved`), each stands READY at the
target at once (R230), and one that was READY keeps its count (R308). -/
def redirectThread (target group now : Nat) (executing saved : Bool) (t : Thread) : Thread :=
  match t.st with
  | .ready => { t.ready (atHeader target) group now with count := if saved then t.count else 0 }
  | .issued => if executing then { t with redirect := some target } else t.ready (atHeader target) group now
  | .waiting .regb => t.ready (atHeader target) group now
  | .waiting .rege => t.ready (atHeader target) group now
  | .waiting _ => if saved then t.ready (atHeader target) group now else { t with pc := atHeader target, redirect := some target }
  | _ => t

/-- A mask register in which only the lanes of `m` still wait (R149). -/
def MaskReg.keepWait (m : Lanes) (k : MaskReg) : MaskReg := { k with wait := k.wait &&& m }

/-- Whether the word a bundle is blocked at is a region access: an LDD or STD (R225). -/
def Issue.inAccess (i : Issue) : Bool :=
  i.blocked && i.cls == 2 && (match i.words[i.idx]? with
    | some w => let o := (w.extractLsb' 52 8).toNat; o == 2 || o == 3
    | none   => false)

/-- Lanes of a warp whose region access the level limit stalls (R221). -/
def stalledLanes (s : State) (w : Nat) : Lanes :=
  lanesOf ((s.ops.filter fun o => o.2.warp == w && o.2.region && o.2.st == .noroom).map fun o => o.2.lane)

/-- A pending region access at its region's abort: a load not yet performed fills with 0, a store is no more (R225). -/
def dropPending (w : Nat) (ops : Table MemOp) : Table MemOp :=
  ops.filterMap fun o =>
    if o.2.warp == w && o.2.region then
      match o.2.kind, o.2.st with
      | .store, _ => none
      | _, .read _ => some o
      | _, _ => some (o.1, { o.2 with st := .read 0 })
    else some o

/-- The warp of an aborted region: its count and reason, and its threads redirected (R225, R231). -/
def abortWarp (w reason : Nat) (s : State) : State :=
  match s.warp? w with
  | none => s
  | some x =>
    let now := (s.die x.die).time
    let stalled := stalledLanes s w
    let blocked := fun (i : Issue) => i.inAccess || (i.lanes &&& stalled) != 0
    let stays := fun (p : Parked) => p.warp != w || !(p.ready || blocked p.iss)
    let here := [x.issA, x.issB].reduceOption ++ ((s.parks.filter fun p => p.2.warp == w && stays p.2).map fun p => p.2.iss)
    let busy := fun l => here.any fun y => y.lanes.getLsbD l && !blocked y
    let keep := fun (i : Option Issue) => i.filter fun y => !blocked y
    { s.setWarp w { x with
        region := .none, aborts := x.aborts + 1, reason := reason
        issA := keep x.issA, issB := keep x.issB
        masks := if reason = 4 then x.masks.map (MaskReg.keepWait 0) else x.masks
        threads := x.threads.mapIdx fun l t => redirectThread x.rtarget s.instant now (busy l) (reason == 4) t } with
      parks := tkeep s.parks fun _ p => stays p
      ops := dropPending w s.ops }

/-- Aborts the regions of some slots of a die with one reason, and their forward dependents with reason 2 (R225, R227). -/
def abortSlots (die reason : Nat) (slots : List Nat) (s : State) : State :=
  let d := s.die die
  let gone := cascade d 64 slots
  let dead := d.regions.filter fun r => gone.contains r.slot
  let s := s.setDie die { d with
    regions := d.regions.filter fun r => !gone.contains r.slot
    edges := d.edges.filter fun e => !gone.contains e.from_ && !gone.contains e.to_
    chains := d.chains.map fun g => (g.1, g.2.1, g.2.2.filter fun x => !gone.contains x) }
  dead.foldl (fun s r => abortWarp r.warp (if slots.contains r.slot then reason else 2) s) s

/-- Aborts a warp's live region, if it has one (R224, R226, R230). -/
def abortRegion (w reason : Nat) (s : State) : State :=
  match s.warp? w with
  | none => s
  | some x =>
    match x.region with
    | .live slot | .committing slot => abortSlots x.die reason [slot] s
    | _ => s

/-- Whether a warp's region is live (R226). -/
def Warp.regionLive (w : Warp) : Bool :=
  match w.region with
  | .live _ => true
  | .committing _ => true
  | _ => false

/-! ### Home writes and publications (R179-R183, R228) -/

/-- The granules a list of window addresses touches (R217). -/
def granules (as : List Nat) : List Nat := (as.map (· / 32)).dedup

/-- Aborts the live regions of a share that have read a granule about to be written from outside (R228). -/
def externalWrite (h die : Nat) (as : List Nat) (except : Option Nat) (s : State) : State :=
  let gs := granules as
  let hit := ((s.die die).regions.filter fun r => r.share == h && some r.slot != except && r.reads.any gs.contains).map Region.slot
  if hit.isEmpty then s else abortSlots die 6 hit s

/-- Writes bytes to a window's home state at one position of the home order (R179). -/
def writeHome (h : Nat) (cells : List Host.Cell) (s : State) : State :=
  s.modShare h fun x => { x with home := msetAll x.home cells }

/-- A write of window bytes from outside any region (R228). -/
def homeWrite (h : Nat) (cells : List Host.Cell) (s : State) : State :=
  match s.share? h with
  | none   => s
  | some x => writeHome h cells (externalWrite h x.die (cells.map Prod.fst) none s)

/-- One publication of a block (R181): its buffer goes to home and view at one position; s.phase counts it. -/
def publish (b : Nat) (s : State) : State :=
  match s.block? b with
  | none => s
  | some x =>
    let s := homeWrite x.share x.pub s
    s.modBlock b fun y => { y with view := msetAll y.view x.pub, pub := [], phase := y.phase + 1 }

/-- One refresh of a block's view (R180). -/
def refresh (b : Nat) (s : State) : State :=
  match (s.block? b).bind fun x => s.share? x.share with
  | none   => s
  | some h => s.modBlock b fun y => { y with view := h.home }

/-! ### Mask rounds (R149, R264-R267) -/

/-- Threads waiting for a mask's accepted round to end act anew: they stand READY at their MMA word (R264). -/
def wakeResign (w m : Nat) (s : State) : State :=
  match s.warp? w with
  | none   => s
  | some x => s.releaseLanes w (lanesOf ((List.range x.width).filter fun l =>
      ((x.thread l).map fun t => decide (t.st = .waiting (.resign m))).getD false))

/-- Closes a mask's signing round and releases its signers (R265, R266). -/
def closeRound (w m : Nat) (s : State) : State :=
  match s.warp? w with
  | none => s
  | some x =>
    match (x.masks[m]?).bind MaskReg.round with
    | none   => s
    | some r =>
      let s := s.setWarp w { x with masks := lmod x.masks m fun k => { k with round := none } }
      wakeResign w m (s.releaseLanes w (lanesOf ((laneList x.width r.signed).filter fun l =>
        ((x.thread l).map fun t => decide (t.st = .waiting (.sign m))).getD false)))

/-- Checks a mask's signing round (R265). -/
def checkSign (w m : Nat) (s : State) : State :=
  match s.warp? w with
  | none => s
  | some x =>
    match x.masks[m]? with
    | none => s
    | some k =>
      match k.round with
      | none   => s
      | some r =>
        if r.st = .opened && (k.bits &&& x.live &&& ~~~ r.signed) = 0 then
          if (r.signed &&& k.bits) = 0 then closeRound w m s
          else acceptRound w m (s.setWarp w { x with masks := lmod x.masks m fun y => { y with round := some { r with st := .accepting } } })
        else s

/-- Checks a mask's MWAIT round (R149). -/
def checkWait (w m : Nat) (s : State) : State :=
  match (s.warp? w).bind fun x => x.masks[m]? with
  | none => s
  | some k =>
    if (k.bits &&& ~~~ k.arr) = 0 then
      let s := s.modWarp w fun x => { x with masks := lmod x.masks m fun y => { y with arr := 0, wait := 0 } }
      s.releaseLanes w k.wait
    else s

/-- Both checks of a mask (R149, R265). -/
def checkMask (w m : Nat) (s : State) : State := checkSign w m (checkWait w m s)

/-! ### Barriers (R200-R205) -/

/-- The live threads of the warps attached to a block (R200). -/
def liveThreads (s : State) (b : Nat) : List (Nat × Nat) :=
  ((s.blockWarps b).map fun x => (laneList x.2.width x.2.live).map fun l => (x.1, l)).flatten

/-- Whether round counter `c` has passed token `r` (R204). -/
def passedRound (c r : Word) : Bool := let d := (c - r).toNat; decide (1 ≤ d) && decide (d ≤ 2 ^ 31)

/-- Releases the threads of a warp whose wait satisfies `p`, as one arrival group. -/
def releaseWhere (w : Nat) (p : Wait → Bool) (s : State) : State :=
  match s.warp? w with
  | none => s
  | some x =>
    let m := lanesOf ((List.range x.width).filter fun l => match (x.thread l).map Thread.st with
      | some (.waiting k) => p k
      | _ => false)
    if m = 0 then s else s.releaseLanes w m

/-- One completion of a block barrier (R200). -/
def completeBar (b k : Nat) (s : State) : State :=
  match (s.block? b).bind fun x => x.bars[k]? with
  | none => s
  | some bar =>
    let c := bar.counter + 1
    let s := s.modBlock b fun x => { x with bars := lmod x.bars k fun y =>
      { counter := c, members := liveThreads s b, arrived := y.pending, pending := [] } }
    (s.blockWarps b).foldl (fun s x => releaseWhere x.1 (fun q => match q with
      | .barrier k' r => k' == k && passedRound c r
      | _ => false) s) s

/-- Whether a barrier's round is complete (R201). -/
def Barrier.full (b : Barrier) : Bool := b.members.all b.arrived.contains

/-- Checks a barrier; pending arrivals may complete the next round in the same step (R201). -/
def checkBar (b k : Nat) (s : State) : State :=
  let once := fun (s : State) => match (s.block? b).bind fun x => x.bars[k]? with
    | some bar => if bar.full && !(liveThreads s b).isEmpty then completeBar b k s else s
    | none     => s
  let again := match (s.block? b).bind fun x => x.bars[k]? with
    | some bar => !bar.pending.isEmpty
    | none     => false
  if again then once (once s) else once s

/-- The member blocks of a die barrier (R205). -/
def memberBlocks (s : State) (h : Nat) : List (Nat × Block) :=
  s.blocks.filter fun x => x.2.share == h && x.2.st != .ending && x.2.st != .done

/-- Whether every live thread of a block has executed BARD in this round, or the block's arrival is recorded already (R205). -/
def blockArrived (s : State) (x : Share) (b : Nat) : Bool :=
  let ts := liveThreads s b
  x.barArr.contains b || (!ts.isEmpty && ts.all x.barIn.contains)

/-- Checks the die barrier of a share (R205, R212): a block's arrival stays recorded until the round completes. -/
def checkDieBar (h : Nat) (s : State) : State :=
  match s.share? h with
  | none => s
  | some x =>
    let bs := memberBlocks s h
    let arr := (bs.filter fun y => blockArrived s x y.1).map Prod.fst
    if !bs.isEmpty && bs.length == arr.length && bs.length == x.nblocks - (s.blocks.filter fun y => y.2.share == h && (y.2.st == .ending || y.2.st == .done)).length then
      let c := x.barRound + 1
      let s := s.setShare h { x with barRound := c, barArr := [], barIn := [], barRef := [] }
      let s := x.barRef.foldl (fun s b => refresh b s) s
      bs.foldl (fun s y => (s.blockWarps y.1).foldl (fun s z => releaseWhere z.1 (fun q => match q with
        | .dieBar r => passedRound c r
        | _ => false) s) s) s
    else s.setShare h { x with barArr := arr }

/-! ### Warp rounds: REGB, REGE, ATTACH (R167, R219, R223) -/

/-- Whether a thread waits for something that satisfies `p`. -/
def Thread.waitsFor (t : Thread) (p : Wait → Bool) : Bool :=
  match t.st with
  | .waiting k => p k
  | _ => false

/-- The lanes of a warp that wait for something that satisfies `p`. -/
def Warp.waitingFor (w : Warp) (p : Wait → Bool) : Lanes :=
  lanesOf ((List.range w.width).filter fun l => ((w.thread l).map fun t => t.waitsFor p).getD false)

/-- Whether every live thread of a warp has arrived, and there is one (R167). -/
def Warp.allWait (w : Warp) (p : Wait → Bool) : Bool := w.waitingFor p != 0 && w.waitingFor p == w.live

def Wait.isAttach : Wait → Bool
  | .attach _ => true
  | _ => false

/-- REGB's last arrival: the warp joins the die's opening order (R219, R229). -/
def checkRegb (w : Nat) (s : State) : State :=
  match s.warp? w with
  | none => s
  | some x =>
    if x.region = .opening && x.allWait (· == .regb) && !((s.die x.die).opening.contains w) then
      s.modDie x.die fun d => { d with opening := d.opening ++ [w] }
    else s

/-- Whether an access of a warp's region is still to be performed. -/
def regionBusy (s : State) (w : Nat) : Bool :=
  s.ops.any fun o => o.2.warp == w && o.2.region && (o.2.st == .sent || o.2.st == .noroom)

/-- REGE's last arrival: COMMITTING, once every access of the region has been performed: a COMMITTING region makes none (R218,
R223). -/
def checkRege (w : Nat) (s : State) : State :=
  match s.warp? w with
  | none => s
  | some x =>
    match x.region with
    | .live slot => if x.allWait (· == .rege) && !regionBusy s w then s.setWarp w { x with region := .committing slot } else s
    | _ => s

/-- The linear index of the block and the warp index that seed a warp's generators (R75, R105). -/
def seedIndex (s : State) (w : Warp) : Nat × Nat :=
  match w.block.bind s.block? with
  | some b => (b.linear, w.index)
  | none   =>
    let u := 2 ^ 32 - 1
    match s.kernel? w.kern with
    | some k => (u + k.launch.nbx * (u + k.launch.nby * u), u)
    | none   => (0, u)

/-- Sets the generator of every thread of a warp (R75). -/
def seedWarp (w : Nat) (s : State) : State :=
  match s.warp? w with
  | none => s
  | some x =>
    let (lin, idx) := seedIndex s x
    let seed := ((s.kernel? x.kern).map fun k => k.launch.seed).getD 0
    s.setWarp w { x with threads := x.threads.mapIdx fun l t => { t with gen := seedGen seed lin x.width idx l } }

/-- The lowest number of `0 … n−1` not in a list. -/
def lowestFree (n : Nat) (used : List Nat) : Option Nat := (List.range n).find? fun i => !used.contains i

/-- The indices held in a block (R167). -/
def heldIndices (s : State) (b : Nat) : List Nat := (s.blockWarps b).map fun x => x.2.index

/-- The core a warp index of a block stands on (R160). -/
def coreOfIndex (b : Block) (i : Nat) : Nat := if b.tiles.length < 2 then b.core else b.core + i % 2

/-- The index a warp on `core` would take in a block, if it may join it (R167). -/
def joinIndex (s : State) (k : Kernel) (core : Nat) (bid : Nat) (b : Block) : Option Nat :=
  if b.st = .running && b.shrink.isNone && decide (s.nwarp bid < k.launch.wmax) then
    match lowestFree k.launch.wmax (heldIndices s bid) with
    | some i => if coreOfIndex b i = core then some i else none
    | none   => none
  else none

/-- The block an unattached warp joins (R167): fewest warps, then the lowest s.block. -/
def attachTarget (s : State) (w : Warp) : Option (Nat × Nat) :=
  match s.kernel? w.kern with
  | none => none
  | some k =>
    let cs := (s.blocks.filter fun x => x.2.kern == w.kern && x.2.die == w.die).filterMap fun x =>
      (joinIndex s k w.core x.1 x.2).map fun i => (s.nwarp x.1, x.2.idx, x.1, i)
    let better := fun (a b : Nat × Nat × Nat × Nat) => decide (a.1 < b.1) || (a.1 == b.1 && decide (a.2.1 < b.2.1))
    (cs.foldl (fun acc c => match acc with
      | none   => some c
      | some a => if better c a then some c else some a) none).map fun c => (c.2.2.1, c.2.2.2)

/-- A thread's result register of ATTACH receives `v` (R167). -/
def attachResult (v : Word) (t : Thread) : Thread :=
  match t.st with
  | .waiting (.attach r) => t.put r v
  | _ => t

/-- The pending results of a warp that joins a block are the block's from then on: a save of the block, and its end, wait for
them (R136, R172, R318). -/
def joinBlock (w b : Nat) (s : State) : State :=
  { s with ops := tmap s.ops fun _ o => if o.warp = w then { o with block := some b } else o
           sfu := tmap s.sfu fun _ o => if o.warp = w then { o with block := some b } else o }

/-- The lines of the run in which a warp that joins block `b` with index `i` has stored bytes before: dirty in its core's cache from then
on (R164; log entry 34). -/
def attachLines (x : Warp) (b i : Nat) (s : State) : State :=
  match (s.block? b).bind Block.stkAt, s.kernel? x.kern with
  | some _, some k =>
    let ls := (x.stk.map fun e => (k.launch.stack * x.width * i + e.1) / 64).dedup
    s.modCore x.die x.core fun c => { c with lines := c.lines ++ ls.map fun l => ⟨b, l, true⟩ }
  | _, _ => s

/-- ATTACH decides at the last arrival (R167); a warp that joins a block being saved issues no further clause (R308). -/
def checkAttach (w : Nat) (s : State) : State :=
  match s.warp? w with
  | none => s
  | some x =>
    if x.allWait Wait.isAttach then
      let m := x.waitingFor Wait.isAttach
      let (r, s) : Word × State := match x.block with
        | some _ => (natWord x.index, s)
        | none =>
          match attachTarget s x with
          | none        => (BitVec.allOnes 32, s)
          | some (b, i) =>
            let saving := ((s.block? b).map Block.saving).getD false
            (natWord i, seedWarp w (joinBlock w b (attachLines x b i (s.setWarp w { x with block := some b, index := i, stopped := saving }))))
      (s.mapLanes w m fun _ t => attachResult r t).releaseLanes w m
    else s

/-! ### Leaving (R146, R169, R172, R203) -/

/-- Whether results of a warp are still pending (R136). -/
def warpPending (s : State) (w : Nat) : Bool :=
  tany s.ops (fun _ o => o.warp == w) || tany s.sfu (fun _ o => o.warp == w) ||
  tany s.tops (fun _ t => t.warp == w) || s.dies.any (fun d => tany d.2.takes fun _ t => t.warp == w)

/-- A warp with no live thread is gone once no result of it is pending (R136). -/
def reapWarp (w : Nat) (s : State) : State :=
  match s.warp? w with
  | some x => if x.live = 0 && !warpPending s w then { s with warps := tdel s.warps w } else s
  | none   => s

/-- Exit records gather the faults and flags of the warps that held an index (R293). -/
def noteExit (t : Table ExitRec) (i : Nat) (w : Warp) : Table ExitRec :=
  let o := tgetD t i ⟨0, 0⟩
  tput t i ⟨o.faults ||| w.faulted, o.fpflags ||| w.fpflags⟩

/-- A block whose last warp has ended becomes ENDING: its unfired copies end with ENDED (R172, R258). -/
def endBlock (b : Nat) (s : State) : State :=
  match s.block? b with
  | none => s
  | some x =>
    let s := s.setBlock b { x with st := .ending, shrink := none }
    let s := { s with copies := tkeep s.copies fun _ c => c.block != some b || c.st != .waiting
                      rwaits := s.rwaits.filter fun r => r.2.1 != b }
    let s := checkDieBar x.share s
    -- the kernel drains once every block of the grid is placed and has ended (R296)
    match s.kernel? x.kern with
    | none => s
    | some k =>
      let open_ := tany s.blocks fun _ y => y.kern == x.kern && y.st != .ending && y.st != .done
      let more := tany s.shares fun _ h => h.kern == x.kern && decide (h.next < h.nblocks)
      if k.st = .running && !open_ && !more then s.setKernel x.kern { k with st := .draining } else s

/-- Adds the stack bytes of a warp to a table, its first byte at `base`. -/
def putStack (base : Nat) (x : Warp) (t : Table Byte) : Table Byte := x.stk.foldl (fun t e => tput t (base + e.1) e.2) t

/-- Stack bytes an ended warp has written stay the run's until its block ends, and may be read by later warps of its context that use the
same bytes of the region (R164). -/
def leaveStack (x : Warp) (s : State) : State :=
  let left := fun (base : Nat) (s : State) => s.modCtx x.ctx fun c => { c with left := putStack base x c.left }
  match (x.block.bind s.block?).bind Block.stkAt, s.kernel? x.kern with
  | some at_, some k =>
    let off := k.launch.stack * x.width * x.index
    left (2 ^ 57 * x.die + at_ + off) (s.modBlock (x.block.getD 0) fun b => { b with stkOld := putStack off x b.stkOld })
  | _, _ => left (2 ^ 64 * (x.die + 1)) s

/-- A warp none of whose threads is live ends (R138, R169). -/
def endWarp (w : Nat) (s : State) : State :=
  match s.warp? w with
  | none => s
  | some x =>
    if x.live != 0 then s
    else
      let s := leaveStack x s
      let s := if warpPending s w then s.setWarp w { x with block := none } else { s with warps := tdel s.warps w }
      match x.block with
      | none   => s
      | some b =>
        match s.block? b with
        | none => s
        | some y =>
          let n := s.nwarp b
          let done := match y.shrink with
            | some k => decide (n ≤ k.k)
            | none   => false
          let s := s.setBlock b { y with
            exits := noteExit y.exits x.index x
            shrink := if done then none else y.shrink
            st := if done && y.st = .shrinking then .running else y.st }
          if n = 0 then endBlock b s else s

/-- Removes a thread from every barrier of its block (R203). -/
def departBars (b w l : Nat) (s : State) : State :=
  let s := s.modBlock b fun x => { x with bars := x.bars.map fun y =>
    { y with members := y.members.filter (· != (w, l)), arrived := y.arrived.filter (· != (w, l))
             pending := y.pending.filter (· != (w, l)) } }
  (List.range 16).foldl (fun s k => checkBar b k s) s

/-- The rounds of a warp that a thread's leaving may complete. -/
def checkWarp (w : Nat) (s : State) : State :=
  checkAttach w (checkRege w (checkRegb w ((List.range 12).foldl (fun s m => checkMask w m s) s)))

/-- A clause without some of its lanes; none when no lane is left, which frees its pipe (R140). -/
def Issue.drop (m : Lanes) (i : Issue) : Option Issue :=
  if (i.lanes &&& ~~~ m) = 0 then none else some { i with lanes := i.lanes &&& ~~~ m }

/-- Threads leave by EXIT, DETACH or a lane fault (R146): out of every mask, barrier and region, in one step. -/
def leaveLanes (w : Nat) (m : Lanes) (st : TState) (reason : Nat) (s : State) : State :=
  match s.warp? w with
  | none => s
  | some x =>
    let gone := m &&& x.live
    if gone = 0 then s
    else
      let s := { s.setWarp w { x with
          threads := x.threads.mapIdx fun l t => if gone.getLsbD l then { t with st := st } else t
          masks := x.masks.map fun k => { k with bits := k.bits &&& ~~~ gone, arr := k.arr &&& ~~~ gone, wait := k.wait &&& ~~~ gone }
          issA := x.issA.bind (Issue.drop gone), issB := x.issB.bind (Issue.drop gone) } with
        parks := s.parks.filterMap fun p =>
          if p.2.warp = w then (p.2.iss.drop gone).map fun i => (p.1, { p.2 with iss := i }) else some p }
      let s := abortRegion w reason s
      let s := checkWarp w s
      let s := match x.block with
        | none   => s
        | some b =>
          let s := (laneList x.width gone).foldl (fun s l => departBars b w l s) s
          match s.block? b with
          | some y => checkDieBar y.share s
          | none   => s
      endWarp w s

/-- LaneFault (R7): switches lanes off and sets their bits in the fault mask. -/
def laneFault (w : Nat) (m : Lanes) (s : State) : State :=
  if m = 0 then s
  else
    let s := s.modWarp w fun x => { x with faults := x.faults ||| m, faulted := x.faulted ||| m }
    leaveLanes w m .off 5 s

/-! ### Taking an exception and returning from one (R314-R317) -/

/-- Where a word stands: what a trap saves (R50). -/
structure WordAt where
  hdr   : Nat
  idx   : Nat     -- 16 at the header
  cls   : Nat
  count : Nat
deriving DecidableEq, Repr

/-- The cause fields of a thread's trap or SYS word (R321). -/
def causeThread (s : State) (w l cause pc : Nat) : Cause :=
  match s.warp? w with
  | some x => ⟨x.die, x.core, x.slot, l, cause, 0, 0, pc⟩
  | none   => causeDispatch

/-- The abort target of a warp's live region: where a thread that traps in it resumes (R230). -/
def Warp.trapTarget (w : Warp) : Option Nat := if w.regionLive then some w.rtarget else none

/-- Takes a synchronous trap on one thread (R314); `target` is the abort target of the region that was live when the word
trapped, unless the region has aborted already and the thread was to go to its target after the word (R225, R230). -/
def enterTrap (w l : Nat) (at_ : WordAt) (cause : Nat) (faddr : Nat) (code : Word) (target : Option Nat) (s : State) : State :=
  match s.warp? w with
  | none => s
  | some x =>
    match x.thread l with
    | none => s
    | some t =>
      let why := { causeThread s w l cause at_.hdr with addr := faddr }
      if t.trap.isSome then endContext x.ctx 0x02 why s
      else if (s.ctx x.ctx).tvec = 0 then endContext x.ctx 0x03 why s
      else
        let s := abortRegion w 5 s
        let frame : TrapFrame :=
          { cause := cause, code := code, pred := (t.preds &&& 0x7F).setWidth 32, cpc := at_.hdr, cidx := at_.idx
            faddr := BitVec.ofNat 64 faddr, cls := at_.cls, count := at_.count
            window := List.replicate 32 zeroReg, target := t.redirect.or target }
        s.modWarp w fun y =>
          { y.modThread l fun t =>
              { t.ready (atHeader (s.ctx x.ctx).tvec.toNat) s.instant (s.die x.die).time with trap := some frame } with
            ctxsel := x.ctx }

/-- Traps a set of lanes on one word: they enter as one arrival group (R314), each with the target of the region the word
stood in. -/
def trapLanes (w : Nat) (m : Lanes) (at_ : WordAt) (cause : Nat) (faddr : Nat → Nat) (code : Nat → Word) (s : State) : State :=
  match s.warp? w with
  | none => s
  | some x =>
    if m = 0 then s
    else
      let drop := fun (i : Issue) => { i with lanes := i.lanes &&& ~~~ m }
      let s := s.modWarp w fun y => { y with issA := y.issA.map drop, issB := y.issB.map drop }
      (laneList x.width m).foldl (fun s l => enterTrap w l at_ cause (faddr l) (code l) x.trapTarget s) s

/-- Where TRET resumes (R317); none for TRET.next at a header trap. -/
def resumePoint (f : TrapFrame) (mode : Nat) (jump : Nat) : Option CodePt :=
  match mode with
  | 0 =>
    if f.cidx = 0 || f.cidx = 16 then some ⟨f.cpc, none, true⟩
    else some ⟨f.cpc, some ⟨f.cls, f.count, f.cidx⟩, false⟩
  | 1 =>
    if f.cidx = 16 then none
    else if f.cidx = f.count then some (atHeader (nextHeader f.cpc f.count))
    else some ⟨f.cpc, some ⟨f.cls, f.count, f.cidx + 1⟩, false⟩
  | _ => some (atHeader jump)

/-- A thread returns from its handler (R317): predicates, window, mode, and READY at the resume point, or at the abort
target of the region aborted at entry (R230). -/
def leaveTrap (pc : CodePt) (group now : Nat) (t : Thread) : Thread :=
  match t.trap with
  | none   => t
  | some f =>
    let pc := match f.target with
      | some a => atHeader a
      | none   => pc
    { t.ready pc group now with preds := (f.pred.setWidth 8 &&& 0x7F) ||| 0x80, trap := none }

/-- A tile operation without the results of a discarded window. -/
def TileKind.dropWindow (m : Lanes) : TileKind → TileKind
  | .mmovr raw dst ls => .mmovr raw dst (ls.filter fun x => !(m.getLsbD x.1 && x.2.2))
  | .mqry row dst ls => .mqry row dst (ls.filter fun x => !(m.getLsbD x.1 && x.2.2))
  | k => k

/-- Results still pending for a discarded window are dropped when they land. -/
def dropWindow (w : Nat) (m : Lanes) (s : State) : State :=
  { s with
    ops := tmap s.ops fun _ o => if o.warp = w && m.getLsbD o.lane && o.win then { o with dst := 512 } else o
    sfu := tmap s.sfu fun _ o => if o.warp = w then { o with lanes := o.lanes.filter fun x => !(m.getLsbD x.1 && x.2.2) } else o
    tops := tmap s.tops fun _ o => if o.warp = w then { o with kind := o.kind.dropWindow m } else o
    dies := tmap s.dies fun _ d => { d with takes := tmap d.takes fun _ t =>
      if (t.warp == w && m.getLsbD t.lane && t.win) then { t with dst := 512 } else t } }

/-! ### The current bundle and its word -/

/-- The bundle a step executes a word of. -/
structure Bundle where
  w    : Nat
  pipe : Pipe
  warp : Warp
  iss  : Issue
deriving DecidableEq, Repr

/-- The current bundle, when the state names an issued clause. -/
def State.bundle? (s : State) : Option Bundle :=
  match s.cur with
  | none => none
  | some (w, p) =>
    match s.warp? w with
    | none   => none
    | some x =>
      match x.iss p with
      | none   => none
      | some i => some ⟨w, p, x, i⟩

/-- Where the bundle's word stands. -/
def Bundle.at_ (b : Bundle) : WordAt := ⟨b.iss.hdr, b.iss.idx, b.iss.cls, b.iss.words.length - 1⟩

/-- Whether the bundle's word is the last of its clause. -/
def Bundle.isLast (b : Bundle) : Bool := b.iss.idx + 1 == b.iss.words.length

/-- The next header in fall-through order (R26). -/
def Bundle.next (b : Bundle) : Nat := nextHeader b.iss.hdr (b.iss.words.length - 1)

/-- The lanes of a set whose threads run in trap handlers. -/
def Bundle.inHandler (b : Bundle) (m : Lanes) : Lanes :=
  laneFilter b.warp.width m fun l => ((b.warp.thread l).map fun t => t.trap.isSome).getD false

/-- Changes the issued clause of a pipe. -/
def State.modIss (s : State) (w : Nat) (p : Pipe) (f : Issue → Issue) : State :=
  s.modWarp w fun x => x.setIss p ((x.iss p).map f)

/-- Lanes leave the bundle, for instance to wait. -/
def dropLanes (b : Bundle) (m : Lanes) (s : State) : State :=
  s.modIss b.w b.pipe fun i => { i with lanes := i.lanes &&& ~~~ m }

/-- Where a thread goes on after a word that ends its clause at `pc`: a region abort's target comes first (R225). -/
def Thread.after (t : Thread) (pc : Nat) : CodePt := atHeader (t.redirect.getD pc)

/-- Lanes of the bundle become WAITING, to go on at the next header (R138). -/
def waitLanes (b : Bundle) (m : Lanes) (k : Wait) (s : State) : State :=
  dropLanes b m (s.mapLanes b.w m fun _ t => { t with st := .waiting k, pc := t.after b.next })

/-- An issued clause whose word has waited since `now`, or since it first had to (R25). -/
def Issue.block (i : Issue) (g : Grant) (now : Nat) : Issue :=
  { i with blocked := true, grant := g, since := some (i.since.getD now) }

/-- The word blocks as on an empty register (R25): a resource granted to it is given back. -/
def blockWord (b : Bundle) (s : State) : State :=
  s.modIss b.w b.pipe fun i => i.block .none (s.die b.warp.die).time

/-- Moves the redirected lanes of a bundle out after their word (R225). -/
def takeRedirects (w : Nat) (p : Pipe) (s : State) : State :=
  match s.warp? w with
  | none => s
  | some x =>
    match x.iss p with
    | none => s
    | some i =>
      let ls := (laneList x.width i.lanes).filter fun l => ((x.thread l).map fun t => t.redirect.isSome).getD false
      if ls.isEmpty then s
      else
        let m := lanesOf ls
        let now := (s.die x.die).time
        s.setWarp w ((x.setIss p (some { i with lanes := i.lanes &&& ~~~ m })).mapLanes m fun _ t =>
          t.ready (atHeader (t.redirect.getD 0)) s.instant now)

/-- Whether some thread of the bundle has gone through its word: not all of them have trapped on it. -/
def Bundle.through (b : Bundle) (x : Warp) : Bool :=
  (laneList b.warp.width b.iss.lanes).any fun l =>
    ((b.warp.thread l).map fun t => t.trap.isSome).getD false || !((x.thread l).map fun t => t.trap.isSome).getD false

/-- A clause that ends without a thread left in it: its pipe is free, and a yield takes effect if it has completed (R24). -/
def emptyPipe (b : Bundle) (yld : Bool) (x : Warp) (now : Nat) : Warp :=
  { x.setIss b.pipe none with yielded := if yld && b.isLast && b.through x then some now else x.yielded }

/-- After a word (R25, R26): the clause goes on with its next word, or ends and each thread is READY where `dest` says;
a clause no thread is left in frees its pipe. -/
def finishTo (b : Bundle) (dest : Nat → Nat) (s : State) : State :=
  let s := takeRedirects b.w b.pipe s
  match s.warp? b.w with
  | none => s
  | some x =>
    let now := (s.die x.die).time
    match x.iss b.pipe with
    | none => s.setWarp b.w (emptyPipe b b.iss.yld x now)
    | some i =>
      if i.lanes = 0 then s.setWarp b.w (emptyPipe b i.yld x now)
      else if b.isLast then
        let x := (x.setIss b.pipe none).mapLanes i.lanes fun l t => t.ready (atHeader (dest l)) s.instant now
        s.setWarp b.w { x with yielded := if i.yld then some now else x.yielded }
      else s.setWarp b.w (x.setIss b.pipe (some { i with idx := i.idx + 1, blocked := false, grant := .none, after := none, since := none }))

/-- After a word that is no branch: a clause that ends goes on at the next header (R26). -/
def finishWord (b : Bundle) (s : State) : State := finishTo b (fun _ => b.next) s

/-- Whether an operation waits to take a table entry again: a save withdrew it (R187, R199). -/
def MemOp.waitsEntry (o : MemOp) : Bool := o.entry.isNone && o.st == .sent && o.kind != .regq

/-- The words of a list that still wait for a resource at a word of class `cls`, in the order they began to wait: bundles on a
pipe by warp and pipe; parked bundles, engine actions, withdrawn operations and blocks whose schedule fires a copy (R256) under their own
names. A warp or block that is being saved waits for nothing. -/
def waitersOf (s : State) (q : List (Nat × Pipe)) (cls : Nat) : List (Nat × Pipe) :=
  let runs := fun (w : Nat) => ((s.warp? w).map fun x => !x.stopped).getD false
  q.filter fun x => match (s.warp? x.1).bind fun w => w.iss x.2 with
    | some i => i.grant != .none && i.cls == cls && runs x.1
    | none   => ((tget s.acts x.1).map fun a => runs a.warp).getD false ||
        ((tget s.blocks x.1).map fun b => !b.saving && (b.st == .running || b.st == .shrinking)).getD false ||
        ((tget s.parks x.1).map fun p => p.iss.grant != .none && p.iss.cls == cls && runs p.warp).getD false ||
        ((tget s.ops x.1).map fun o => o.waitsEntry && !((o.block.map s.parked).getD false)).getD false

/-- Whether no earlier word waits for the resource (R133, R186, R239). -/
def myTurn (b : Bundle) (q : List (Nat × Pipe)) : Bool := q.isEmpty || q.head? == some (b.w, b.pipe)

/-- The bundle's word waits for a resource, as on an empty register, behind the words `q` that wait already. -/
def waitGrant (b : Bundle) (q : List (Nat × Pipe)) (put : List (Nat × Pipe) → Core → Core) (s : State) : State :=
  let s := s.modIss b.w b.pipe fun i => i.block .waiting (s.die b.warp.die).time
  s.modCore b.warp.die b.warp.core (put (if q.contains (b.w, b.pipe) then q else q ++ [(b.w, b.pipe)]))

/-- Where a bundle stands that leaves its pipe at its current word (R25). -/
def Issue.point (i : Issue) : CodePt := ⟨i.hdr, some ⟨i.cls, i.words.length - 1, i.idx⟩, false⟩

/-- The READY lanes of a warp whose thread satisfies `p`. -/
def readyWith (x : Warp) (p : Thread → Bool) : Lanes :=
  lanesOf ((List.range x.width).filter fun l => ((x.thread l).map fun t => t.st == .ready && p t).getD false)

/-- What a parked bundle waits for has come: its threads are READY at its continuation clause (R138). -/
def fillParked (id : Nat) (s : State) : State :=
  match tget s.parks id with
  | none => s
  | some p =>
    if p.ready then s
    else
      let now := ((s.warp? p.warp).map fun x => (s.die x.die).time).getD 0
      { s.mapLanes p.warp p.iss.lanes fun _ t =>
          { t with st := .ready, pc := p.iss.point, group := s.instant, since := now, count := 0 } with
        parks := tput s.parks id { p with ready := true } }

/-- Grants the resource to the first of some waiting bundles: it executes its word again, at once on its pipe, or from its
continuation clause (R133, R186, R239). -/
def grantFirst (q : List (Nat × Pipe)) (s : State) : State :=
  match q.head? with
  | some (w, p) =>
    if (tget s.parks w).isSome then
      fillParked w { s with parks := tmod s.parks w fun x => { x with iss := { x.iss with grant := .granted } } }
    else s.modIss w p fun i => { i with blocked := false, grant := .granted }
  | none => s

/-- Traps every lane of a set at the bundle's word, then goes on with the others (R314). -/
def trapWord (b : Bundle) (m : Lanes) (cause : Nat) (s : State) : State :=
  finishWord b (trapLanes b.w m b.at_ cause (fun _ => 0) (fun _ => 0) s)

/-- Traps the lanes `out` of a word's lanes `m`, then goes on with the others while any is left and the warp stands (R49, R314). -/
def trapThen (b : Bundle) (m out : Lanes) (cause : Nat) (act : Lanes → State → State) (s : State) : State :=
  if out = 0 then act m s
  else
    let t := trapLanes b.w out b.at_ cause (fun _ => 0) (fun _ => 0) s
    if m &&& ~~~ out = 0 || (t.warp? b.w).isNone then finishWord b t else act (m &&& ~~~ out) t

/-- The words that raise ILLEGAL-OPERAND for an unattached warp: its guard-true threads (R166, R233), once their sources are read
(checks 7 and 8 of R49). The tile words fail as a static check (`tileUnit`); REGB and the edges look for themselves. -/
def needsBlock (i : Instr) : Bool :=
  match i with
  | .barb _ | .bara _ | .barw _ | .bard _ => true
  | .cpyin _ | .cpyout _ | .cpyg _ | .cpys _ | .cpyd _ | .cpyf _ | .publ _ | .rpush _ | .rpop _ | .rwaitC _ | .rwaitP _
  | .cpyq _ | .bufd _ | .stageMax _ | .stageAdd _ => true
  | .phase _ => true
  | _ => false

/-- Whether a word of an unattached warp may not execute because it needs a block. -/
def lacksBlock (i : Instr) (b : Bundle) : Bool := needsBlock i && b.warp.block.isNone

/-- The tile words, which fail check 5 for an unattached warp (R259). -/
def tileUnit (i : Instr) : Bool :=
  match i with
  | .mma _ | .mmaKeep _ | .mclr _ | .mldt _ | .mmovr _ | .mmovw _ | .mdrain _ | .mdrainAdd _ | .mdrainUpd _ | .mqry _
  | .qdual _ | .rqnt _ => true
  | _ => false

/-- The static checks 1 to 5 of R49 on a word of the bundle: the cause of the trap it raises on every thread. -/
def staticTrap (i : Instr) (b : Bundle) : Option Nat :=
  match i.info b.warp.width with
  | none => none
  | some k =>
    if k.cls != b.iss.cls then some 0x02
    else if !k.ok4 || (k.last && !b.isLast) then some 0x02
    else if !k.fits b.warp.nregs then some 0x03
    else if tileUnit i && b.warp.block.isNone then some 0x03
    else none

/-- The guard-true lanes of the bundle (R30, R31). -/
def guardLanes (b : Bundle) (g : Guard) : Lanes :=
  laneFilter b.warp.width b.iss.lanes fun l => ((b.warp.thread l).map (guardEval g)).getD false

/-- A word's guard. -/
def wordGuard (i : Instr) : Guard := ((i.info 16).map WordInfo.g).getD ⟨false, 7⟩

/-- The frame of every word's meaning: the static checks, then `body` for the guard-true lanes. It answers a next state whenever
the state names a bundle. -/
def runWord (i : Instr) (body : Bundle → Lanes → State → State) (s : State) : Outcome :=
  match s.bundle? with
  | none   => .fault .noBundle
  | some b =>
    match staticTrap i b with
    | some c => .next (trapWord b b.iss.lanes c s)
    | none   =>
      .next (body b (guardLanes b (wordGuard i)) s)

/-- Check 7 of R49: lanes with an empty trap-on-empty source trap (EMPTY-READ); if a remaining lane must wait for a
register the word blocks; otherwise `act` performs the word for the remaining lanes. A lane with one empty source that has the
trap bit and another empty source without it traps at once: R49 gives no order among the sources (log entry 30). -/
def withOperands (ss : List Src) (ds : List Nat) (act : Bundle → Lanes → State → State) (b : Bundle) (m : Lanes) (s : State) :
    State :=
  let tr := laneFilter b.warp.width m fun l => ((b.warp.thread l).map fun t => t.emptyTrap ss).getD false
  let rest := m &&& ~~~ tr
  let go := fun s =>
    if (laneList b.warp.width rest).any fun l => ((b.warp.thread l).map fun t => t.mustWait ss ds).getD false then blockWord b s
    else act b rest s
  if tr = 0 then go s
  else
    let s := trapLanes b.w tr b.at_ 0x04 (fun _ => 0) (fun _ => 0) s
    if (s.warp? b.w).isNone then finishWord b s else go s

/-- A word that changes only its own threads' registers and predicates, and raises flags (R100, R118): `f` gives a
lane's new thread and its flags. -/
def laneWord (i : Instr) (ss : List Src) (ds : List Nat) (f : Warp → Nat → Thread → Thread × Flags) (s : State) : Outcome :=
  runWord i (withOperands ss ds fun b m s =>
    let fl := (laneList b.warp.width m).foldl (fun fl l => match b.warp.thread l with
      | some t => fl ||| (f b.warp l t).2
      | none   => fl) (0 : Flags)
    let s := s.modWarp b.w fun x => { x.mapLanes m (fun l t => (f b.warp l t).1) with fpflags := x.fpflags ||| fl }
    finishWord b s) s

end Sys2Proof.Machine
end

