-- ==== Sys2Proof/Machine/Gen.lean ====
section
/-! DEFINITION. The GEN words that move values and compute on integers and bits (spec 04_register R102-R116), and NOP. -/

namespace Sys2Proof.Machine

/-! ### Shapes of the words of this family -/

/-- Sources of a format R word that reads `na`, `nb`, `nc` registers (0: the field is unused). -/
def srcsR (o : FmtR) (na nb nc : Nat) : List Src :=
  (if na = 0 then [] else src o.a na o.ea o.za) ++ (if nb = 0 then [] else src o.b nb o.eb o.zb) ++
  (if nc = 0 then [] else src o.c nc o.ec o.zc)

/-- The one source of a format I word (R39). -/
def srcsI (o : FmtI) : List Src := src o.a 1 o.ea o.za

/-- v[d] ← f a. -/
def unaryR (i : Instr) (o : FmtR) (f : Word → Word) (s : State) : Outcome :=
  laneWord i (srcsR o 1 0 0) [o.d.toNat] (fun _ _ t => (t.put o.d.toNat (f (t.val o.a o.za)), 0)) s

/-- v[d] ← f a B, B a register (R101). -/
def binaryR (i : Instr) (o : FmtR) (f : Word → Word → Word) (s : State) : Outcome :=
  laneWord i (srcsR o 1 1 0) [o.d.toNat] (fun _ _ t => (t.put o.d.toNat (f (t.val o.a o.za) (t.val o.b o.zb)), 0)) s

/-- v[d] ← f a B, B the sign-extended immediate (R101). -/
def binaryI (i : Instr) (o : FmtI) (f : Word → Word → Word) (s : State) : Outcome :=
  laneWord i (srcsI o) [o.d.toNat] (fun _ _ t => (t.put o.d.toNat (f (t.val o.a o.za) (immB o.imm)), 0)) s

/-- v[d] ← f a b c. -/
def ternaryR (i : Instr) (o : FmtR) (f : Word → Word → Word → Word) (s : State) : Outcome :=
  laneWord i (srcsR o 1 1 1) [o.d.toNat]
    (fun _ _ t => (t.put o.d.toNat (f (t.val o.a o.za) (t.val o.b o.zb) (t.val o.c o.zc)), 0)) s

/-! ### Integer results (R109-R116) -/

/-- An integer saturated to the signed 32-bit range. -/
def satS (x : Int) : Word := intWord (satInt x (-2 ^ 31) (2 ^ 31 - 1))

/-- An integer saturated to the unsigned 32-bit range. -/
def satU (x : Int) : Word := intWord (satInt x 0 (2 ^ 32 - 1))

def addMod (m : BitVec 3) (a b : Word) : Word :=
  match m.toNat with
  | 1 => satS (a.toInt + b.toInt)
  | 2 => satU ((a.toNat : Int) + b.toNat)
  | _ => a + b

def subMod (m : BitVec 3) (a b : Word) : Word :=
  match m.toNat with
  | 1 => satS (a.toInt - b.toInt)
  | 2 => satU ((a.toNat : Int) - b.toNat)
  | _ => a - b

/-- The high 32 bits of a 64-bit two's-complement product (R109). -/
def mulHigh (m : BitVec 3) (a b : Word) : Word :=
  let p : Int :=
    match m.toNat with
    | 0 => a.toInt * b.toInt
    | 1 => (a.toNat : Int) * b.toNat
    | _ => a.toInt * b.toNat
  (BitVec.ofInt 64 p).extractLsb' 32 32

def minMod (m : BitVec 3) (a b : Word) : Word := if m == 1 then (if a.ult b then a else b) else (if a.slt b then a else b)
def maxMod (m : BitVec 3) (a b : Word) : Word := if m == 1 then (if a.ult b then b else a) else (if a.slt b then b else a)

/-- The condition of ICMP (R110). -/
def icmpCond (m : BitVec 3) (a b : Word) : Bool :=
  match m.toNat with
  | 0 => a == b
  | 1 => a != b
  | 2 => a.slt b
  | 3 => !a.slt b
  | 4 => a.ult b
  | 5 => !a.ult b
  | 6 => b.slt a
  | _ => !b.slt a

/-- The shift count is the whole unsigned value (R109). -/
def shlW (a b : Word) : Word := if b.toNat < 32 then a <<< b.toNat else 0
def shrW (a b : Word) : Word := if b.toNat < 32 then a >>> b.toNat else 0
def sarW (a b : Word) : Word := a.sshiftRight (min b.toNat 31)

def imadW (m : BitVec 3) (a b c : Word) : Word :=
  if m == 1 then satS (a.toInt * b.toInt + c.toInt) else a * b + c

/-- IMADW's pair (R111). -/
def imadwPair (m : BitVec 3) (a b : Word) (c : Word64) : Word64 :=
  if m == 1 then a.setWidth 64 * b.setWidth 64 + c else a.signExtend 64 * b.signExtend 64 + c

def absMod (m : BitVec 3) (a : Word) : Word :=
  if m == 1 then satS (a.toInt.natAbs : Int) else intWord (a.toInt.natAbs : Int)

def negMod (m : BitVec 3) (a : Word) : Word := if m == 1 then satS (-a.toInt) else -a

/-- The sum of IADDC, 33 bits (R111). -/
def addcSum (m : BitVec 3) (a b : Word) (p : Bool) : Nat :=
  a.toNat + (if m == 1 then 2 ^ 32 - 1 - b.toNat else b.toNat) + (if p then 1 else 0)

/-- The result bit of a three-input table (R108, R112). -/
def gateBit (table : BitVec 8) (a b c : Bool) : Bool :=
  table.getLsbD ((if a then 1 else 0) + (if b then 2 else 0) + (if c then 4 else 0))

/-- LGATE's word: the minterms of the table, ORed (R112). -/
def lgateW (table : BitVec 8) (a b c : Word) : Word :=
  let term := fun (k : Nat) => if table.getLsbD k then
      (if k % 2 = 1 then a else ~~~ a) &&& (if k / 2 % 2 = 1 then b else ~~~ b) &&& (if k / 4 % 2 = 1 then c else ~~~ c)
    else 0
  term 0 ||| term 1 ||| term 2 ||| term 3 ||| term 4 ||| term 5 ||| term 6 ||| term 7

/-- The count of a funnel shift (R113). -/
def funnelCount (m : BitVec 3) (c : Word) : Nat := if m == 1 then min c.toNat 32 else c.toNat % 32

def fshlW (m : BitVec 3) (a b c : Word) : Word := hiOf (pairOf b a <<< funnelCount m c)
def fshrW (m : BitVec 3) (a b c : Word) : Word := loOf (pairOf b a >>> funnelCount m c)

def popcW (a : Word) : Word := natWord (popBits 32 a.toNat)

def clzW (a : Word) : Word := natWord (if a = 0 then 32 else 31 - Nat.log2 a.toNat)

def brevW (a : Word) : Word := a.reverse

/-- Position and length of a bit field (R115). -/
def fieldPos (b : Word) : Nat := b.toNat % 256
def fieldLen (b : Word) : Nat := min (b.toNat / 256 % 256) 32

def bfxW (m : BitVec 3) (a b : Word) : Word :=
  let x : Int := if m == 1 then a.toInt else a.toNat
  let len := fieldLen b
  let f := (x / 2 ^ fieldPos b) % 2 ^ len
  if len = 0 then 0
  else if m == 1 && decide (2 ^ (len - 1) ≤ f) then intWord (f - 2 ^ len) else intWord f

def bfiW (a b c : Word) : Word :=
  let mask := natWord ((2 ^ fieldLen b - 1) * 2 ^ fieldPos b)
  (c &&& ~~~ mask) ||| (a <<< fieldPos b &&& mask)

/-! ### Words for one lane of the warp (R102) -/

/-- A once-per-bundle word that reads registers of its lowest guard-true lane L only (R102): where L holds an empty
trap-on-empty source, L traps and the word has no other effect; else the word blocks while L must wait for a source, or `wait`
holds. -/
def withLeader (ss : List Src) (wait : State → Bool) (act : Bundle → Lanes → Nat → State → State) (b : Bundle) (m : Lanes)
    (s : State) : State :=
  match lowestLane b.warp.width m with
  | none   => finishWord b s
  | some l =>
    if ((b.warp.thread l).map fun t => t.emptyTrap ss).getD false then
      finishWord b (trapLanes b.w (laneBit l) b.at_ 0x04 (fun _ => 0) (fun _ => 0) s)
    else if ((b.warp.thread l).map fun t => t.mustWait ss []).getD false || wait s then blockWord b s
    else act b m l s

/-! ### Moves, special registers, predicates -/

/-- NOP (R60). -/
def execNop (o : FmtR) (s : State) : Outcome := laneWord (.nop o) [] [] (fun _ _ t => (t, 0)) s

/-- MOV (R102): one, two or four registers, read before any is written. -/
def execMov (o : FmtR) (s : State) : Outcome :=
  let n := 2 ^ o.mod.toNat
  laneWord (.mov o) (srcsR o n 0 0) (regRange o.d.toNat n) (fun _ _ t =>
    ((List.range n).foldl (fun u k => u.put (o.d.toNat + k) (if o.za then 0 else (t.reg (o.a.toNat + k)).val)) t, 0)) s

/-- MOVI (R102). -/
def execMovi (o : FmtK) (s : State) : Outcome :=
  laneWord (.movi o) [] [o.d.toNat] (fun _ _ t => (t.put o.d.toNat o.imm, 0)) s

/-- MOVW (R102): an empty w register blocks the threads, or traps them with ea. -/
def execMovw (o : FmtI) (s : State) : Outcome :=
  runWord (.movw o) (fun b m s =>
    let w := b.warp.wregs.getD o.imm.toNat zeroReg
    if m ≠ 0 && !w.full && o.ea then trapWord b m 0x04 s
    else if m ≠ 0 && !w.full then blockWord b s
    else withOperands [] [o.d.toNat] (fun b m s =>
      finishWord b (s.mapLanes b.w m fun _ t => t.put o.d.toNat w.val)) b m s) s

/-- WSET (R102): the lowest guard-true lane's value. -/
def execWset (o : FmtI) (s : State) : Outcome :=
  runWord (.wset o) (withLeader (srcsI o) (fun s => !((s.bundle?.map fun b => b.warp.wregs.getD o.imm.toNat zeroReg).getD zeroReg).full)
    fun b _ l s => finishWord b (s.setWreg b.w o.imm.toNat ⟨((b.warp.thread l).map fun t => t.val o.a o.za).getD 0, true⟩)) s

/-- The value of a special register as a pair (R104, R105). -/
def sregValue (s : State) (w : Warp) (l : Nat) (t : Thread) (k : Nat) : Word64 :=
  let blk := w.block.bind s.block?
  let ker := s.kernel? w.kern
  let inBlock := fun (v : Nat) (other : Nat) => BitVec.ofNat 64 (if blk.isSome then v else other)
  let none32 := 0xFFFFFFFF
  let nbx := (ker.map fun k => k.launch.nbx).getD 0
  let nby := (ker.map fun k => k.launch.nby).getD 0
  let lin := (blk.map Block.linear).getD 0
  let word := fun (v : Word) => v.setWidth 64
  match k with
  | 0x000 => BitVec.ofNat 64 l
  | 0x001 => BitVec.ofNat 64 w.width
  | 0x002 => inBlock w.index none32
  | 0x003 => inBlock ((w.block.map s.nwarp).getD 0) 0
  | 0x004 => inBlock ((blk.map Block.idx).getD 0) none32
  | 0x008 => inBlock (lin % nbx) none32
  | 0x009 => inBlock (lin / nbx % nby) none32
  | 0x00A => inBlock (lin / (nbx * nby)) none32
  | 0x00C => BitVec.ofNat 64 nbx
  | 0x00D => BitVec.ofNat 64 nby
  | 0x00E => BitVec.ofNat 64 ((ker.map fun k => k.launch.nbz).getD 0)
  | 0x010 => BitVec.ofNat 64 (((s.share? w.share).map Share.index).getD 0)
  | 0x011 => BitVec.ofNat 64 ((ker.map fun k => k.launch.dieset.length).getD 0)
  | 0x012 => BitVec.ofNat 64 w.die
  | 0x013 => BitVec.ofNat 64 w.core
  | 0x020 => BitVec.ofNat 64 (s.ns w.die)
  | 0x021 => BitVec.ofNat 64 (s.ns w.die / 2 ^ 32 % 2 ^ 32)
  | 0x030 => inBlock (if (blk.bind Block.shrink).isSome then 1 else 0) 0
  | 0x031 => w.fpflags.setWidth 64
  | 0x032 => word (((s.share? w.share).map Share.step).getD 0)
  | 0x033 => BitVec.ofNat 64 w.ctx
  | 0x034 => word ((ker.map fun k => k.launch.seed).getD 0)
  | 0x035 => if blk.isSome then word ((blk.map Block.phase).getD 0) else 0
  | 0x100 => BitVec.ofNat 64 ((t.trap.map TrapFrame.cause).getD 0)
  | 0x101 => BitVec.ofNat 64 ((t.trap.map TrapFrame.cpc).getD 0)
  | 0x102 => BitVec.ofNat 64 ((t.trap.map TrapFrame.cidx).getD 0)
  | 0x103 => (t.trap.map TrapFrame.faddr).getD 0
  | _     => 0

/-- Writes a special register's value to d, or to the pair at d when it has 64 bits (R104). -/
def Thread.putSreg (t : Thread) (d k : Nat) (v : Word64) : Thread := if sreg64 k then t.putPair d v else t.put d (loOf v)

/-- SREAD (R104-R106): a trap register outside a handler raises ILLEGAL-OPERAND; .clr clears the flags it returned. -/
def execSread (o : FmtI) (s : State) : Outcome :=
  let k := o.imm.toNat
  runWord (.sread o) (fun b m s =>
    let bad := if 0x100 ≤ k then b.iss.lanes &&& ~~~ b.inHandler b.iss.lanes else 0
    trapThen b m bad 0x03 (fun m s => withOperands [] (regRange o.d.toNat (if sreg64 k then 2 else 1)) (fun b m s =>
      let s' := s.mapLanes b.w m fun l t => t.putSreg o.d.toNat k (sregValue s b.warp l t k)
      finishWord b (if o.mod == 1 && m != 0 then s'.modWarp b.w fun x => { x with fpflags := x.fpflags &&& ~~~ b.warp.fpflags } else s'))
      b m s) s) s

/-- k of R107. -/
def pmovBit (t : Thread) (o : FmtR) : Nat := (t.val o.b o.zb).toNat % 32

/-- PMOV.rp (R107). -/
def execPmovRp (o : FmtR) (s : State) : Outcome :=
  laneWord (.pmovRp o) (srcsR o 1 1 0) [] (fun _ _ t =>
    (t.setPred o.d.toNat ((t.val o.a o.za).getLsbD (pmovBit t o)), 0)) s

/-- PMOV.pr (R107). -/
def execPmovPr (o : FmtR) (s : State) : Outcome :=
  laneWord (.pmovPr o) (srcsR o 1 1 0) [o.d.toNat] (fun _ _ t =>
    let k := pmovBit t o
    let bit := natWord (2 ^ k)
    (t.put o.d.toNat (if t.pred o.c.toNat then t.val o.a o.za ||| bit else t.val o.a o.za &&& ~~~ bit), 0)) s

/-- The predicates as a word: bit 7 reads 1 (R107). -/
def Thread.predWord (t : Thread) : Word := (t.preds &&& 0x7F ||| 0x80).setWidth 32

/-- PMOV.save (R107). -/
def execPmovSave (o : FmtR) (s : State) : Outcome :=
  laneWord (.pmovSave o) [] [o.d.toNat] (fun _ _ t => (t.put o.d.toNat t.predWord, 0)) s

/-- PMOV.load (R107). -/
def execPmovLoad (o : FmtR) (s : State) : Outcome :=
  laneWord (.pmovLoad o) (srcsR o 1 0 0) [] (fun _ _ t =>
    ({ t with preds := (t.val o.a o.za).setWidth 8 &&& 0x7F ||| 0x80 }, 0)) s

/-- PGATE (R108). -/
def execPgate (o : FmtL) (s : State) : Outcome :=
  laneWord (.pgate o) [] [] (fun _ _ t =>
    (t.setPred o.d.toNat (gateBit o.table (t.pred o.a.toNat) (t.pred o.b.toNat) (t.pred o.c.toNat)), 0)) s

/-! ### Integer arithmetic -/

/-- IADD (R109). -/
def execIadd (o : FmtR) (s : State) : Outcome := binaryR (.iadd o) o (addMod o.mod) s
/-- IADD, immediate (R109). -/
def execIaddImm (o : FmtI) (s : State) : Outcome := binaryI (.iaddImm o) o (addMod o.mod) s
/-- ISUB (R109). -/
def execIsub (o : FmtR) (s : State) : Outcome := binaryR (.isub o) o (subMod o.mod) s
/-- ISUB, immediate (R109). -/
def execIsubImm (o : FmtI) (s : State) : Outcome := binaryI (.isubImm o) o (subMod o.mod) s
/-- IMUL (R109). -/
def execImul (o : FmtR) (s : State) : Outcome := binaryR (.imul o) o (fun a b => a * b) s
/-- IMUL, immediate (R109). -/
def execImulImm (o : FmtI) (s : State) : Outcome := binaryI (.imulImm o) o (fun a b => a * b) s
/-- IMULH (R109). -/
def execImulh (o : FmtR) (s : State) : Outcome := binaryR (.imulh o) o (mulHigh o.mod) s
/-- IMULH, immediate (R109). -/
def execImulhImm (o : FmtI) (s : State) : Outcome := binaryI (.imulhImm o) o (mulHigh o.mod) s
/-- IMIN (R109). -/
def execImin (o : FmtR) (s : State) : Outcome := binaryR (.imin o) o (minMod o.mod) s
/-- IMIN, immediate (R109). -/
def execIminImm (o : FmtI) (s : State) : Outcome := binaryI (.iminImm o) o (minMod o.mod) s
/-- IMAX (R109). -/
def execImax (o : FmtR) (s : State) : Outcome := binaryR (.imax o) o (maxMod o.mod) s
/-- IMAX, immediate (R109). -/
def execImaxImm (o : FmtI) (s : State) : Outcome := binaryI (.imaxImm o) o (maxMod o.mod) s

/-- ICMP (R110). -/
def execIcmp (o : FmtR) (s : State) : Outcome :=
  laneWord (.icmp o) (srcsR o 1 1 0) [] (fun _ _ t =>
    (t.setPred o.d.toNat (icmpCond o.mod (t.val o.a o.za) (t.val o.b o.zb)), 0)) s

/-- ICMP, immediate (R110). -/
def execIcmpImm (o : FmtI) (s : State) : Outcome :=
  laneWord (.icmpImm o) (srcsI o) [] (fun _ _ t =>
    (t.setPred o.d.toNat (icmpCond o.mod (t.val o.a o.za) (immB o.imm)), 0)) s

/-- SHL (R109). -/
def execShl (o : FmtR) (s : State) : Outcome := binaryR (.shl o) o shlW s
/-- SHL, immediate (R109). -/
def execShlImm (o : FmtI) (s : State) : Outcome := binaryI (.shlImm o) o shlW s
/-- SHR (R109). -/
def execShr (o : FmtR) (s : State) : Outcome := binaryR (.shr o) o shrW s
/-- SHR, immediate (R109). -/
def execShrImm (o : FmtI) (s : State) : Outcome := binaryI (.shrImm o) o shrW s
/-- SAR (R109). -/
def execSar (o : FmtR) (s : State) : Outcome := binaryR (.sar o) o sarW s
/-- SAR, immediate (R109). -/
def execSarImm (o : FmtI) (s : State) : Outcome := binaryI (.sarImm o) o sarW s

/-- LGATE (R112). -/
def execLgate (o : FmtL) (s : State) : Outcome :=
  laneWord (.lgate o) [⟨o.a.toNat, 1, false⟩, ⟨o.b.toNat, 1, false⟩, ⟨o.c.toNat, 1, false⟩] [o.d.toNat] (fun _ _ t =>
    (t.put o.d.toNat (lgateW o.table (t.reg o.a.toNat).val (t.reg o.b.toNat).val (t.reg o.c.toNat).val), 0)) s

/-- IMAD (R111). -/
def execImad (o : FmtR) (s : State) : Outcome := ternaryR (.imad o) o (imadW o.mod) s

/-- IMADW (R111). -/
def execImadw (o : FmtR) (s : State) : Outcome :=
  laneWord (.imadw o) (srcsR o 1 1 2) (regRange o.d.toNat 2) (fun _ _ t =>
    (t.putPair o.d.toNat (imadwPair o.mod (t.val o.a o.za) (t.val o.b o.zb) (if o.zc then 0 else t.pair o.c.toNat)), 0)) s

/-- IADDC (R111): the carry is read before it is written. -/
def execIaddc (o : FmtR) (s : State) : Outcome :=
  laneWord (.iaddc o) (srcsR o 1 1 0) [o.d.toNat] (fun _ _ t =>
    let x := addcSum o.mod (t.val o.a o.za) (t.val o.b o.zb) (t.pred o.c.toNat)
    ((t.put o.d.toNat (natWord x)).setPred o.c.toNat (decide (2 ^ 32 ≤ x)), 0)) s

/-- ISEL (R111). -/
def execIsel (o : FmtR) (s : State) : Outcome :=
  laneWord (.isel o) (srcsR o 1 1 0) [o.d.toNat] (fun _ _ t =>
    (t.put o.d.toNat (if t.pred o.c.toNat then t.val o.a o.za else t.val o.b o.zb), 0)) s

/-- IABS (R111). -/
def execIabs (o : FmtR) (s : State) : Outcome := unaryR (.iabs o) o (absMod o.mod) s
/-- INEG (R111). -/
def execIneg (o : FmtR) (s : State) : Outcome := unaryR (.ineg o) o (negMod o.mod) s
/-- FSHL (R113). -/
def execFshl (o : FmtR) (s : State) : Outcome := ternaryR (.fshl o) o (fshlW o.mod) s
/-- FSHR (R113). -/
def execFshr (o : FmtR) (s : State) : Outcome := ternaryR (.fshr o) o (fshrW o.mod) s
/-- POPC (R114). -/
def execPopc (o : FmtR) (s : State) : Outcome := unaryR (.popc o) o popcW s
/-- CLZ (R114). -/
def execClz (o : FmtR) (s : State) : Outcome := unaryR (.clz o) o clzW s
/-- BREV (R114). -/
def execBrev (o : FmtR) (s : State) : Outcome := unaryR (.brev o) o brevW s
/-- BFX (R115). -/
def execBfx (o : FmtR) (s : State) : Outcome := binaryR (.bfx o) o (bfxW o.mod) s
/-- BFI (R115). -/
def execBfi (o : FmtR) (s : State) : Outcome := ternaryR (.bfi o) o bfiW s
/-- LEA (R116). -/
def execLea (o : FmtR) (s : State) : Outcome := ternaryR (.lea o) o (fun a b c => a + b <<< o.mod.toNat + c) s

end Sys2Proof.Machine
end

