-- ==== Sys2Proof/Machine/Float.lean ====
section
/-! DEFINITION. The GEN words of FP32 and packed 16-bit arithmetic and of conversion (spec 05_float R117-R128). -/

namespace Sys2Proof.Machine

/-! ### Shapes of the words of this family -/

/-- v[d] ← f a, with its flags. -/
def floatR1 (i : Instr) (o : FmtR) (f : Nat → Rounded) (s : State) : Outcome :=
  laneWord i (srcsR o 1 0 0) [o.d.toNat] (fun _ _ t =>
    let r := f (t.val o.a o.za).toNat
    (t.put o.d.toNat (natWord r.bits), r.flags)) s

/-- v[d] ← f a B, B a register. -/
def floatR2 (i : Instr) (o : FmtR) (f : Nat → Nat → Rounded) (s : State) : Outcome :=
  laneWord i (srcsR o 1 1 0) [o.d.toNat] (fun _ _ t =>
    let r := f (t.val o.a o.za).toNat (t.val o.b o.zb).toNat
    (t.put o.d.toNat (natWord r.bits), r.flags)) s

/-- v[d] ← f a B, B the immediate's FP32 image (R117). -/
def floatI2 (i : Instr) (o : FmtI) (f : Nat → Nat → Rounded) (s : State) : Outcome :=
  laneWord i (srcsI o) [o.d.toNat] (fun _ _ t =>
    let r := f (t.val o.a o.za).toNat (immF o.imm).toNat
    (t.put o.d.toNat (natWord r.bits), r.flags)) s

/-- v[d] ← f a b c. -/
def floatR3 (i : Instr) (o : FmtR) (f : Nat → Nat → Nat → Rounded) (s : State) : Outcome :=
  laneWord i (srcsR o 1 1 1) [o.d.toNat] (fun _ _ t =>
    let r := f (t.val o.a o.za).toNat (t.val o.b o.zb).toNat (t.val o.c o.zc).toNat
    (t.put o.d.toNat (natWord r.bits), r.flags)) s

/-- The rounding mode of mod bits [1:0] (R119, R124). -/
def modeOf (m : BitVec 3) : Rnd := rndOf (m.toNat % 4)

/-- The element format of a packed word's mod (R124). -/
def packFmt (m : BitVec 3) : Fmt := halfFmt (m.getLsbD 2)

/-! ### FP32 (R119-R123) -/

/-- FADD (R119). -/
def execFadd (o : FmtR) (s : State) : Outcome := floatR2 (.fadd o) o (fAdd fp32 (modeOf o.mod)) s
/-- FADD, immediate (R119). -/
def execFaddImm (o : FmtI) (s : State) : Outcome := floatI2 (.faddImm o) o (fAdd fp32 (modeOf o.mod)) s
/-- FSUB (R119). -/
def execFsub (o : FmtR) (s : State) : Outcome := floatR2 (.fsub o) o (fSub fp32 (modeOf o.mod)) s
/-- FSUB, immediate (R119). -/
def execFsubImm (o : FmtI) (s : State) : Outcome := floatI2 (.fsubImm o) o (fSub fp32 (modeOf o.mod)) s
/-- FMUL (R119). -/
def execFmul (o : FmtR) (s : State) : Outcome := floatR2 (.fmul o) o (fMul fp32 (modeOf o.mod)) s
/-- FMUL, immediate (R119). -/
def execFmulImm (o : FmtI) (s : State) : Outcome := floatI2 (.fmulImm o) o (fMul fp32 (modeOf o.mod)) s
/-- FMIN (R120). -/
def execFmin (o : FmtR) (s : State) : Outcome := floatR2 (.fmin o) o (fMinMax fp32 false (o.mod == 1)) s
/-- FMIN, immediate (R120). -/
def execFminImm (o : FmtI) (s : State) : Outcome := floatI2 (.fminImm o) o (fMinMax fp32 false (o.mod == 1)) s
/-- FMAX (R120). -/
def execFmax (o : FmtR) (s : State) : Outcome := floatR2 (.fmax o) o (fMinMax fp32 true (o.mod == 1)) s
/-- FMAX, immediate (R120). -/
def execFmaxImm (o : FmtI) (s : State) : Outcome := floatI2 (.fmaxImm o) o (fMinMax fp32 true (o.mod == 1)) s

/-- FCMP (R121). -/
def execFcmp (o : FmtR) (s : State) : Outcome :=
  laneWord (.fcmp o) (srcsR o 1 1 0) [] (fun _ _ t =>
    let r := fCmp o.mod.toNat (t.val o.a o.za).toNat (t.val o.b o.zb).toNat
    (t.setPred o.d.toNat r.1, r.2)) s

/-- FCMP, immediate (R121). -/
def execFcmpImm (o : FmtI) (s : State) : Outcome :=
  laneWord (.fcmpImm o) (srcsI o) [] (fun _ _ t =>
    let r := fCmp o.mod.toNat (t.val o.a o.za).toNat (immF o.imm).toNat
    (t.setPred o.d.toNat r.1, r.2)) s

/-- FFMA (R119). -/
def execFfma (o : FmtR) (s : State) : Outcome := floatR3 (.ffma o) o (fFma fp32 (modeOf o.mod)) s
/-- FABS (R122): a bit operation. -/
def execFabs (o : FmtR) (s : State) : Outcome := unaryR (.fabs o) o (fun a => a &&& 0x7FFFFFFF) s
/-- FNEG (R122): a bit operation. -/
def execFneg (o : FmtR) (s : State) : Outcome := unaryR (.fneg o) o (fun a => a ^^^ 0x80000000) s
/-- FCLASS (R122). -/
def execFclass (o : FmtR) (s : State) : Outcome := unaryR (.fclass o) o (fun a => natWord (fClass a.toNat)) s
/-- FRND (R123). -/
def execFrnd (o : FmtR) (s : State) : Outcome := floatR1 (.frnd o) o (fRnd (modeOf o.mod)) s
/-- FMAXA (R120). -/
def execFmaxa (o : FmtR) (s : State) : Outcome := floatR2 (.fmaxa o) o (fMaxA fp32) s

/-! ### Packed 16-bit arithmetic (R124) -/

/-- HADD2 (R124). -/
def execHadd2 (o : FmtR) (s : State) : Outcome := floatR2 (.hadd2 o) o (packed2 (fAdd (packFmt o.mod) (modeOf o.mod))) s
/-- HMUL2 (R124). -/
def execHmul2 (o : FmtR) (s : State) : Outcome := floatR2 (.hmul2 o) o (packed2 (fMul (packFmt o.mod) (modeOf o.mod))) s
/-- HFMA2 (R124). -/
def execHfma2 (o : FmtR) (s : State) : Outcome := floatR3 (.hfma2 o) o (packed3 (fFma (packFmt o.mod) (modeOf o.mod))) s
/-- HMAX2 (R124). -/
def execHmax2 (o : FmtR) (s : State) : Outcome :=
  floatR2 (.hmax2 o) o (packed2 (fMinMax (packFmt o.mod) true (o.mod.getLsbD 0))) s

/-! ### Conversion (R125-R128) -/

/-- The thread's generator after one rounding under RS, and the mode that carries its output (R75, R76); other modes
leave it. -/
def rsMode (m : BitVec 3) (t : Thread) : Thread × Rnd :=
  if m == 4 then let g := xorShift t.gen; ({ t with gen := g }, .rs g.toNat) else (t, modeOf m)

/-- CVT (R126). -/
def execCvt (o : FmtV) (s : State) : Outcome :=
  laneWord (.cvt o) (src o.a 1 o.ea o.za) [o.d.toNat] (fun _ _ t =>
    let (t', mode) := rsMode o.mod t
    let r := convert (o.conv.toNat % 16) (o.conv.toNat / 16 % 16) (o.conv.getLsbD 8) mode (t.val o.a o.za).toNat
    (t'.put o.d.toNat (natWord r.bits), r.flags)) s

/-- A word with byte `k` replaced (R127). -/
def putByte (old : Word) (k y : Nat) : Word := (old &&& ~~~ (natWord (255 * 2 ^ (8 * k)))) ||| natWord (y % 256 * 2 ^ (8 * k))

/-- The FP8 format a control field selects (R127). -/
def ctlFmt (c : BitVec 9) : Fmt := if c.getLsbD 2 then e5m2 else e4m3

/-- F8CV (R127). -/
def execF8cv (o : FmtR) (s : State) : Outcome :=
  laneWord (.f8cv o) (srcsR o 1 1 0) [o.d.toNat] (fun _ _ t =>
    let (t', mode) := rsMode o.mod t
    let r := f8cvByte (ctlFmt o.c) mode (o.c.getLsbD 3) (t.val o.a o.za).toNat (t.val o.b o.zb).toNat
    (t'.put o.d.toNat (putByte (t.reg o.d.toNat).val (o.c.toNat % 4) r.bits), r.flags)) s

/-- F8UP (R128). -/
def execF8up (o : FmtR) (s : State) : Outcome :=
  floatR2 (.f8up o) o (fun a b => f8upWord (ctlFmt o.c) (modeOf o.mod) (a / 2 ^ (8 * (o.c.toNat % 4)) % 256) b) s

end Sys2Proof.Machine
end

