-- ==== Sys2Proof/Machine/Cross.lean ====
section
/-! DEFINITION. The cross-lane words (spec 06_group R153-R159). -/

namespace Sys2Proof.Machine

/-- The operands of a cross-lane word (R153). Every source of a participating lane counts as a register the word reads, also v[a] of a lane
outside the mask or that no lane selects, which R153 and R155 leave open (log entry 48): EMPTY-READ on every participating thread if any participating lane holds an
empty trap-on-empty source; otherwise the word waits until every source and destination of every lane is full. -/
def crossOperands (ss : List Src) (ds : List Nat) (act : Bundle → Lanes → State → State) (b : Bundle) (m : Lanes) (s : State) :
    State :=
  let ts := (laneList b.warp.width m).filterMap b.warp.thread
  if ts.any fun t => t.emptyTrap ss then trapWord b m 0x04 s
  else if ts.any fun t => t.mustWait ss ds then blockWord b s
  else act b m s

/-- A cross-lane word that changes only the participating lanes' registers and predicates: `f` gives lane `l`'s new
thread from the warp as it was read, and `fl` the flags the word raises. -/
def crossWord (i : Instr) (ss : List Src) (ds : List Nat) (f : Warp → Lanes → Nat → Thread → Thread) (fl : Warp → Lanes → Flags)
    (s : State) : Outcome :=
  runWord i (crossOperands ss ds fun b m s =>
    finishWord b (s.modWarp b.w fun x => { x.mapLanes m (f b.warp m) with fpflags := x.fpflags ||| fl b.warp m })) s

/-- A source register of one lane. -/
def laneVal (w : Warp) (l : Nat) (r : BitVec 9) (z : Bool) : Word := ((w.thread l).map fun t => t.val r z).getD 0

/-- The permutes (R154): lane L receives v[a] of `from_` if that lane participates, else its own. -/
def permute (o : FmtR) (from_ : Warp → Nat → Nat) (w : Warp) (m : Lanes) (l : Nat) (t : Thread) : Thread :=
  let k := from_ w l
  t.put o.d.toNat (laneVal w (if m.getLsbD k then k else l) o.a o.za)

/-- LSHUF (R154). -/
def execLshuf (o : FmtR) (s : State) : Outcome :=
  crossWord (.lshuf o) (srcsR o 1 1 0) [o.d.toNat] (permute o fun w l => (laneVal w l o.b o.zb).toNat % w.width) (fun _ _ => 0) s

/-- LXOR (R154). -/
def execLxor (o : FmtR) (s : State) : Outcome :=
  crossWord (.lxor o) (srcsR o 1 1 0) [o.d.toNat] (permute o fun w l => l ^^^ ((laneVal w l o.b o.zb).toNat % w.width))
    (fun _ _ => 0) s

/-- The source lane of LROTW (R154). -/
def rotLane (up : Bool) (n : Nat) (w : Warp) (l : Nat) : Nat :=
  let k := n * w.width / 16
  if up then (l + w.width - k % w.width) % w.width else (l + k) % w.width

/-- LROTW (R154). -/
def execLrotw (o : FmtR) (s : State) : Outcome :=
  crossWord (.lrotw o) (srcsR o 1 0 0) [o.d.toNat] (permute o (rotLane (o.mod == 1) (o.c.toNat % 16))) (fun _ _ => 0) s

/-- x ⊕ y of a reduction and its flags (R155). -/
def combine (op : Nat) (x y : Word) : Word × Flags :=
  let fl := fun (r : Rounded) => (natWord r.bits, r.flags)
  match op with
  | 0  => (x + y, 0)
  | 1  => (minMod 0 x y, 0)
  | 2  => (maxMod 0 x y, 0)
  | 3  => (minMod 1 x y, 0)
  | 4  => (maxMod 1 x y, 0)
  | 5  => (x &&& y, 0)
  | 6  => (x ||| y, 0)
  | 7  => (x ^^^ y, 0)
  | 8  => fl (fAdd fp32 .rn x.toNat y.toNat)
  | 9  => fl (fMinMax fp32 false false x.toNat y.toNat)
  | 10 => fl (fMinMax fp32 true false x.toNat y.toNat)
  | _  => fl (fMaxA fp32 x.toNat y.toNat)

/-- The empty result (R155). -/
def emptyResult (op : Nat) : Word :=
  match op with
  | 1      => 0x7FFFFFFF
  | 2      => 0x80000000
  | 3 | 5  => 0xFFFFFFFF
  | 9 | 10 => 0x7FC00000
  | _      => 0

/-- One level of LRED's tree: neighbours combine, a lone present child passes (R155). -/
def treeLevel (op : Nat) : List (Option Word) → List (Option Word) × Flags
  | some x :: some y :: l =>
    let r := treeLevel op l
    let c := combine op x y
    (some c.1 :: r.1, c.2 ||| r.2)
  | some x :: none :: l => let r := treeLevel op l; (some x :: r.1, r.2)
  | none :: y :: l => let r := treeLevel op l; (y :: r.1, r.2)
  | l => (l, 0)

/-- LRED's tree of `k` levels: the root and the flags of every combine. -/
def treeReduce (op : Nat) : Nat → List (Option Word) → Option Word × Flags
  | 0, l => (l.head?.join, 0)
  | k + 1, l =>
    let r := treeLevel op l
    let q := treeReduce op k r.1
    (q.1, r.2 ||| q.2)

/-- The contributing lanes of LRED and LSCAN (R155). -/
def contributing (w : Warp) (m : Lanes) (o : FmtR) : Lanes := m &&& ((w.masks[o.c.toNat % 16]?).map MaskReg.bits).getD 0

/-- The leaves of LRED. -/
def leaves (w : Warp) (m : Lanes) (o : FmtR) : List (Option Word) :=
  (List.range w.width).map fun l => if (contributing w m o).getLsbD l then some (laneVal w l o.a o.za) else none

def lredResult (w : Warp) (m : Lanes) (o : FmtR) : Option Word × Flags :=
  treeReduce (o.c.toNat / 16) w.width.log2 (leaves w m o)

/-- LRED (R155). -/
def execLred (o : FmtR) (s : State) : Outcome :=
  crossWord (.lred o) (srcsR o 1 0 0) [o.d.toNat]
    (fun w m _ t => t.put o.d.toNat ((lredResult w m o).1.getD (emptyResult (o.c.toNat / 16))))
    (fun w m => (lredResult w m o).2) s

/-- LSCAN's fold over the contributing lanes that satisfy `p`, in ascending order (R155). -/
def scanFold (op : Nat) (xs : List Word) : Option Word × Flags :=
  xs.foldl (fun acc x => match acc.1 with
    | none   => (some x, acc.2)
    | some y => let c := combine op y x; (some c.1, acc.2 ||| c.2)) (none, 0)

/-- LSCAN's result in lane `l`. -/
def scanAt (w : Warp) (m : Lanes) (o : FmtR) (l : Nat) : Option Word × Flags :=
  scanFold (o.c.toNat / 16) (((laneList w.width (contributing w m o)).filter fun k =>
    decide (k < l) || (o.mod == 0 && k == l)).map fun k => laneVal w k o.a o.za)

/-- LSCAN (R155). -/
def execLscan (o : FmtR) (s : State) : Outcome :=
  crossWord (.lscan o) (srcsR o 1 0 0) [o.d.toNat]
    (fun w m l t => t.put o.d.toNat ((scanAt w m o l).1.getD (emptyResult (o.c.toNat / 16))))
    (fun w m => (laneList w.width m).foldl (fun fl l => fl ||| (scanAt w m o l).2) 0) s

/-- Writes a mask register whole and checks its rounds (R149, R152, R265). -/
def writeMask (w k : Nat) (f : Lanes → Lanes) (s : State) : State :=
  checkMask w k (s.modWarp w fun x => { x with masks := lmod x.masks k fun r => { r with bits := f r.bits } })

/-- BALLOT (R156). -/
def execBallot (o : FmtR) (s : State) : Outcome :=
  runWord (.ballot o) (fun b m s =>
    if m = 0 then finishWord b s
    else
      let v := laneFilter b.warp.width m fun l => ((b.warp.thread l).map fun t => t.pred o.a.toNat).getD false
      finishWord b (writeMask b.w (o.d.toNat % 16) (fun k =>
        match o.mod.toNat with
        | 0 => v
        | 1 => k ||| v
        | _ => (k &&& ~~~ m) ||| v) s)) s

/-- Whether two keys are equal (R157). -/
def keyEq (mod : BitVec 3) (x y : Word64) : Bool :=
  if mod == 2 then
    let u := fp32.decode (loOf x).toNat
    let v := fp32.decode (loOf y).toNat
    if u.isNan || v.isNan then u.isNan && v.isNan else cmpVals u v == 0
  else if mod == 1 then x == y
  else loOf x == loOf y

/-- A lane's key (R157). -/
def laneKey (w : Warp) (o : FmtR) (l : Nat) : Word64 :=
  ((w.thread l).map fun t => if o.za then 0 else if o.mod == 1 then t.pair o.a.toNat else (t.reg o.a.toNat).val.setWidth 64).getD 0

/-- The participating lanes whose key equals lane `l`'s, ascending. -/
def matching (w : Warp) (m : Lanes) (o : FmtR) (l : Nat) : List Nat :=
  (laneList w.width m).filter fun k => keyEq o.mod (laneKey w o k) (laneKey w o l)

/-- MATCH (R157). -/
def execMatchKey (o : FmtR) (s : State) : Outcome :=
  crossWord (.matchKey o) (srcsR o (if o.mod == 1 then 2 else 1) 0 0) [o.d.toNat]
    (fun w m l t =>
      let k := (matching w m o l).headD l
      (t.put o.d.toNat (natWord k)).setPred o.c.toNat (k == l))
    (fun _ _ => 0) s

/-- MATCHN (R157). -/
def execMatchn (o : FmtR) (s : State) : Outcome :=
  crossWord (.matchn o) (srcsR o (if o.mod == 1 then 2 else 1) 0 0) [o.d.toNat]
    (fun w m l t => t.put o.d.toNat (natWord (matching w m o l).length)) (fun _ _ => 0) s

/-- The bytes of `n` consecutive registers, lowest first. -/
def regBytes (t : Thread) (r n : Nat) : List Byte := (regRange r n).flatMap fun k => leBytes 4 (t.reg k).val.toNat

/-- TBL (R158). -/
def tblWord (o : FmtR) (t : Thread) : Word :=
  let n := 2 ^ o.mod.toNat
  let table := if o.za then List.replicate (4 * n) 0 else regBytes t o.a.toNat n
  natWord (leNat ((leBytes 4 (t.val o.b o.zb).toNat).map fun j => table.getD j.toNat (o.c.setWidth 8)))

/-- TBL (R158): a lookup within each lane. -/
def execTbl (o : FmtR) (s : State) : Outcome :=
  crossWord (.tbl o) (srcsR o (2 ^ o.mod.toNat) 1 0) [o.d.toNat] (fun _ _ _ t => t.put o.d.toNat (tblWord o t)) (fun _ _ => 0) s

/-- ELECT (R159). -/
def execElect (o : FmtR) (s : State) : Outcome :=
  crossWord (.elect o) [] [] (fun w m l t => t.setPred o.d.toNat (lowestLane w.width m == some l)) (fun _ _ => 0) s

end Sys2Proof.Machine
end

