-- ==== Sys2Proof/Machine/Branch.lean ====
section
/-! DEFINITION. The branches (spec 06_group R143-R147). -/

namespace Sys2Proof.Machine

/-- Lanes whose target is no multiple of 8 trap MISALIGNED (R143); the others of `m` go to their targets, and the rest of
the bundle falls through. -/
def jumpLanes (b : Bundle) (m : Lanes) (target : Nat → Nat) (f : Thread → Thread) (s : State) : State :=
  let bad := laneFilter b.warp.width m fun l => target l % 8 != 0
  let good := m &&& ~~~ bad
  let s := trapLanes b.w bad b.at_ 0x07 target (fun _ => 0) s
  finishTo b (fun l => if good.getLsbD l then target l else b.next) (s.mapLanes b.w good fun _ t => f t)

/-- The target of a format B word in a thread (R43). -/
def branchTarget (b : Bundle) (o : FmtB) (l : Nat) : Nat :=
  if o.ind then indTarget b.iss.hdr (laneVal b.warp l o.a false) o.off else relTarget b.iss.hdr o.off

/-- The register an indirect branch reads. -/
def srcsB (o : FmtB) : List Src := if o.ind then [⟨o.a.toNat, 1, false⟩] else []

/-- BRA (R143). -/
def execBra (o : FmtB) (s : State) : Outcome :=
  runWord (.bra o) (withOperands (srcsB o) [] fun b m s => jumpLanes b m (branchTarget b o) id s) s

/-- JMP (R143): under IND the lowest guard-true lane's register alone gives the target. -/
def execJmp (o : FmtB) (s : State) : Outcome :=
  runWord (.jmp o) (withLeader (srcsB o) (fun _ => false) fun b m l s => jumpLanes b m (fun _ => branchTarget b o l) id s) s

/-- CALL (R144): the target is checked before the stack's depth. -/
def execCall (o : FmtB) (s : State) : Outcome :=
  runWord (.call o) (withOperands (srcsB o) [] fun b m s =>
    let full := laneFilter b.warp.width m fun l =>
      branchTarget b o l % 8 == 0 && ((b.warp.thread l).map fun t => decide (16 ≤ t.rstack.length)).getD false
    let s := trapLanes b.w full b.at_ 0x0B (fun _ => b.next) (fun _ => 0) s
    jumpLanes b (m &&& ~~~ full) (branchTarget b o) (fun t => { t with rstack := b.next :: t.rstack }) s) s

/-- RET (R144). -/
def execRet (o : FmtB) (s : State) : Outcome :=
  runWord (.ret o) (fun b m s =>
    let void := laneFilter b.warp.width m fun l => ((b.warp.thread l).map fun t => t.rstack.isEmpty).getD false
    let s := trapLanes b.w void b.at_ 0x0B (fun _ => 0) (fun _ => 0) s
    jumpLanes b (m &&& ~~~ void) (fun l => ((b.warp.thread l).map fun t => t.rstack.headD 0).getD 0)
      (fun t => { t with rstack := t.rstack.tail }) s) s

/-- EXIT (R146). -/
def execExit (o : FmtB) (s : State) : Outcome :=
  runWord (.exit o) (fun b m s => finishWord b (leaveLanes b.w m .exited 7 s)) s

/-- TRAP (R147): SOFTWARE, with the code of the word. -/
def execTrap (o : FmtB) (s : State) : Outcome :=
  runWord (.trap o) (fun b m s => finishWord b (trapLanes b.w m b.at_ 0x06 (fun _ => 0) (fun _ => o.off) s)) s

end Sys2Proof.Machine
end

