-- ==== Sys2Proof/Machine/Sfu.lean ====
section
/-! DEFINITION. The special-function unit (spec 05_float R129-R136): the functions with their bounds, the words, the
queue and the landing of results. -/

namespace Sys2Proof.Machine

/-! ### Reference values of the approximated functions (R130, R131)

Values in fixed point with 128 fraction bits, or exact scalings of such values; their error is below 2^−60 of the bounds they are
held against, so that the reference decides what those bounds allow (log entry 8). -/

def fixOne : Int := 2 ^ 128

/-- ln 2, log2 e and 2π, times 2^128. -/
def fixLn2 : Int := 235865763225513294137944142764154484399
def fixLog2e : Int := 490923683258796565746369346286093237521
def fixTwoPi : Int := 2138057168129933495719360746323741566601

def fixMul (x y : Int) : Int := x * y / 2 ^ 128

/-- A finite value in fixed point, rounded down. -/
def Dy.fix (x : Dy) : Int :=
  let n : Int := if x.neg then -(x.m : Int) else x.m
  if 0 ≤ x.e + 128 then n * 2 ^ (x.e + 128).toNat else n / 2 ^ (-(x.e + 128)).toNat

/-- Σ x^k / k! with `n` further terms, the term `t` being the `k`-th. -/
def fixExpSum (x : Int) : Nat → Int → Int → Int
  | 0, _, t => t
  | n + 1, k, t => t + fixExpSum x n (k + 1) (fixMul t x / k)

/-- e^x for |x| ≤ 1. -/
def fixExp (x : Int) : Int := fixExpSum x 40 1 fixOne

/-- 2^y for a fixed-point y, as an exact scaling. -/
def exp2Fix (y : Int) : Dy :=
  let n := y / 2 ^ 128
  ⟨false, (fixExp (fixMul (y % 2 ^ 128) fixLn2)).toNat, n - 128⟩

/-- Σ t^(2k+1)/(2k+1) with `n` further terms; `u` = t². -/
def fixAtanhSum (u : Int) : Nat → Int → Int → Int
  | 0, _, _ => 0
  | n + 1, k, p => p / k + fixAtanhSum u n (k + 2) (fixMul p u)

/-- log2 of a positive value. -/
def log2Fix (x : Dy) : Int :=
  let m : Int := ((x.m * 2 ^ (128 - x.m.log2) : Nat) : Int)
  let t := (m - fixOne) * 2 ^ 128 / (m + fixOne)
  (x.e + x.m.log2) * 2 ^ 128 + fixMul (2 * fixAtanhSum (fixMul t t) 50 1 t) fixLog2e

/-- Σ (−1)^k x^(2k+1)/(2k+1)! with `n` further terms; `u` = x². -/
def fixSinSum (u : Int) : Nat → Int → Int → Int
  | 0, _, _ => 0
  | n + 1, k, p => p - fixSinSum u n (k + 2) (fixMul p u / ((k + 1) * (k + 2)))

/-- sin 2πr for a fixed-point r in [0, 1). -/
def sinTurn (r : Int) : Int := let x := fixMul r fixTwoPi; fixSinSum (fixMul x x) 45 1 x

/-- The fraction of a value modulo 1, exact but for values below 2^−64, which `fTurn` does not ask it for. -/
def turnOf (x : Dy) : Int := x.fix % 2 ^ 128

def fixDy (x : Int) : Dy := dyInt x (-128)

/-- tanh of a positive value below 9.5. -/
def tanhRef (x : Dy) : Dy :=
  if topExp x.m x.e < -14 then
    -- a − a³/3 + 2a⁵/15
    let k : Nat := 320   -- so that the cubic term of every FP32 value counts: tanh a < a
    let m : Int := (x.m : Int) * 2 ^ k
    let sq : Int := (x.m : Int) * x.m          -- times 2^(2e)
    let sh := (-2 * x.e).toNat
    let c := m * sq / 2 ^ sh / 3
    dyInt (m - c + 6 * (c * sq / 2 ^ sh) / 15) (x.e - k)
  else
    let q := exp2Fix (-(fixMul (2 * x.fix) fixLog2e))
    let qf := q.fix
    fixDy ((fixOne - qf) * 2 ^ 128 / (fixOne + qf))

/-- 1/(1 + e^−a). -/
def sigmRef (x : Dy) : Dy :=
  let q := exp2Fix (-(fixMul x.fix.natAbs fixLog2e))
  let d := fixOne + q.fix
  if topExp x.m x.e < -64 then (⟨false, 1, -1⟩ : Dy).add .rn { x with e := x.e - 2 }   -- 1/2 + a/4
  else if x.neg then ⟨false, (q.m : Int).toNat * 2 ^ 128 / d.toNat, q.e⟩ else fixDy (fixOne * fixOne / d)

/-- 1/√a of a positive value. -/
def rsqRef (x : Dy) : Dy :=
  let m := if x.e % 2 = 0 then x.m else 2 * x.m
  let e := if x.e % 2 = 0 then x.e else x.e - 1
  ⟨false, isqrt (2 ^ 320 / m), -160 - e / 2⟩

/-- Whether a value other than zero is below 2^k in magnitude. -/
def Dy.below (x : Dy) (k : Int) : Bool := decide (topExp x.m x.e < k)

/-- c·x for a fixed-point constant c. -/
def Dy.times (c : Int) (x : Dy) : Dy := ⟨x.neg, x.m * c.toNat, x.e - 128⟩

/-- 2^−1500, which stands for every positive value below it: no bound tells them apart. -/
def dyTiny : Dy := ⟨false, 1, -1500⟩

def dyOne : Dy := ⟨false, 1, 0⟩

/-- 2^x: 1 + x·ln 2 where the rest is below 2^−64 of that. -/
def exp2Ref (x : Dy) : Dy :=
  if x.below (-64) then dyOne.add .rn (x.times fixLn2)
  else if x.fix < -400 * fixOne then dyTiny
  else exp2Fix x.fix

/-- sin 2πx, and cos 2πx: 2πx and 1 − (2πx)²/2 where the rest is below 2^−36 of the difference from 0 or 1. -/
def turnRef (q : Int) (x : Dy) : Dy :=
  let t := x.times fixTwoPi
  if q = 0 && x.below (-64) then t
  else if q = 1 && x.below (-20) then dyOne.add .rn ⟨true, t.m * t.m, 2 * t.e - 1⟩
  else fixDy (sinTurn ((turnOf x + q * 2 ^ 126) % 2 ^ 128))

/-! ### Bounds (R130, R131) -/

/-- How far a result may lie from the exact value: `k` ulp, or `2^e` absolutely. -/
inductive Bound where
  | ulp (k : Nat)
  | abs (e : Int)
deriving DecidableEq, Repr

/-- The bound as an exact value, for a function value near `y`. -/
def Bound.size (b : Bound) (y : Dy) : Dy :=
  match b with
  | .ulp k => ⟨false, k, max (topExp y.m y.e) (-126) - 23⟩
  | .abs e => ⟨false, 1, e⟩

/-- Whether a result lies within a bound of the reference. -/
def within (b : Bound) (y r : Dy) : Bool :=
  let d := r.add .rn y.negate
  decide (cmpVals (.fin { d with neg := false }) (.fin (b.size y)) ≤ 0)

/-- The device's result where it keeps the bound, else the reference rounded to nearest (log entry 8). -/
def bounded (fn : Nat) (a : Nat) (b : Bound) (y : Dy) : Nat :=
  let c := (Config.sfu fn (natWord a)).toNat
  match fp32.decode c with
  | .fin r => if within b y r then c else (roundFin fp32 .rn false y).bits
  | _      => (roundFin fp32 .rn false y).bits

/-- An approximated result: nx, and uf when the exact value is below 2^−126 (R130). -/
def approx (fn : Nat) (a : Nat) (b : Bound) (y : Dy) : Rounded :=
  ⟨bounded fn a b y, flagNx ||| flagIf (y.m != 0 && decide (topExp y.m y.e < -126)) flagUf⟩

/-- The bound of results that are held to 2 ulp from 2^−126 on and to 2^−148 below. -/
def boundLow (y : Dy) : Bound := if y.m != 0 && decide (-126 ≤ topExp y.m y.e) then .ulp 2 else .abs (-148)

/-- The integer a value is, if it is one. -/
def Dy.int? (x : Dy) : Option Int :=
  let (n, i) := roundInt .rz x
  if i then none else some n

/-- k when a positive value is 2^k. -/
def Dy.pow2? (x : Dy) : Option Int := if x.m = 2 ^ x.m.log2 then some (topExp x.m x.e) else none

/-- 2^k as an FP32 result, exact. -/
def pow2Bits (k : Int) : Nat := (roundFin fp32 .rn false ⟨false, 1, k⟩).bits

def oneBits : Nat := 0x3F800000

/-! ### The functions (R131, R132) -/

def fRsq (a : Nat) : Rounded :=
  match fp32.decode a with
  | .nan s     => quiet fp32 [.nan s]
  | .inf true  => invalid fp32
  | .inf false => ⟨0, 0⟩
  | .fin d =>
    if d.m = 0 then ⟨fp32.inf d.neg, flagDz⟩
    else if d.neg then invalid fp32
    else match d.pow2? with
      | some k => if k % 2 = 0 then ⟨pow2Bits (-(k / 2)), 0⟩ else approx 1 a (.ulp 1) (rsqRef d)
      | none   => approx 1 a (.ulp 1) (rsqRef d)

def fExp2 (a : Nat) : Rounded :=
  match fp32.decode a with
  | .nan s     => quiet fp32 [.nan s]
  | .inf true  => ⟨0, 0⟩
  | .inf false => ⟨fp32.inf false, 0⟩
  | .fin d =>
    match d.int? with
    | some n =>
      if n < -149 then ⟨0, flagUf ||| flagNx⟩
      else if n < 128 then ⟨pow2Bits n, 0⟩
      else ⟨fp32.inf false, flagOf ||| flagNx⟩
    | none =>
      -- a non-integral a above 128 overflows as an integral one does (log entry 8)
      if d.fix ≥ 128 * fixOne then ⟨fp32.inf false, flagOf ||| flagNx⟩
      else let y := exp2Ref d; approx 4 a (boundLow y) y

def fLog2 (a : Nat) : Rounded :=
  match fp32.decode a with
  | .nan s     => quiet fp32 [.nan s]
  | .inf true  => invalid fp32
  | .inf false => ⟨fp32.inf false, 0⟩
  | .fin d =>
    if d.m = 0 then ⟨fp32.inf true, flagDz⟩
    else if d.neg then invalid fp32
    else match d.pow2? with
      | some k => ⟨(roundFin fp32 .rn false (dyInt k 0)).bits, 0⟩
      | none   =>
        let top := topExp d.m d.e
        approx 5 a (if top = -1 || top = 0 then .abs (-22) else .ulp 2) (fixDy (log2Fix d))

/-- sin 2π(a + q/4) of a finite a that is no exact case, within 2^−22. -/
def fTurn (fn q : Nat) (a : Nat) (d : Dy) : Rounded :=
  let y := turnRef q d
  -- sin 2πa is below 2^−126 exactly when 2π|a| is; the cosine never is
  let tiny := q = 0 && decide (cmpVals (.fin ⟨false, d.m * fixTwoPi.toNat, d.e - 128⟩) (.fin ⟨false, 1, -126⟩) < 0)
  ⟨bounded fn a (.abs (-22)) y, flagNx ||| flagIf tiny flagUf⟩

def fSinp (a : Nat) : Rounded :=
  match fp32.decode a with
  | .nan s => quiet fp32 [.nan s]
  | .inf _ => invalid fp32
  | .fin d =>
    match ({ d with e := d.e + 2 } : Dy).int? with
    | some n =>   -- a = n/4
      if n % 2 = 0 then ⟨fp32.sign d.neg, 0⟩ else ⟨fp32.sign (n % 4 = 3) + oneBits, 0⟩
    | none => fTurn 6 0 a d

def fCosp (a : Nat) : Rounded :=
  match fp32.decode a with
  | .nan s => quiet fp32 [.nan s]
  | .inf _ => invalid fp32
  | .fin d =>
    match ({ d with e := d.e + 2 } : Dy).int? with
    | some n => if n % 2 = 0 then ⟨fp32.sign (n % 4 = 2) + oneBits, 0⟩ else ⟨0, 0⟩
    | none => fTurn 7 1 a d

/-- An odd function's result for −a. -/
def withSign (neg : Bool) (r : Rounded) : Rounded := ⟨r.bits % 2 ^ 31 + fp32.sign neg, r.flags⟩

def fTanh (a : Nat) : Rounded :=
  match fp32.decode a with
  | .nan s => quiet fp32 [.nan s]
  | .inf n => ⟨fp32.sign n + oneBits, 0⟩
  | .fin d =>
    if d.m = 0 then ⟨fp32.sign d.neg, 0⟩
    else if cmpVals (.fin { d with neg := false }) (.fin ⟨false, 19, -1⟩) ≥ 0 then ⟨fp32.sign d.neg + oneBits, flagNx⟩
    else
      let y := tanhRef { d with neg := false }
      let y' : Dy := { y with neg := d.neg }
      ⟨bounded 8 a (.ulp 2) y', flagNx ||| flagIf (decide (topExp y.m y.e < -126)) flagUf⟩

def fSigm (a : Nat) : Rounded :=
  match fp32.decode a with
  | .nan s     => quiet fp32 [.nan s]
  | .inf true  => ⟨0, 0⟩
  | .inf false => ⟨oneBits, 0⟩
  | .fin d =>
    if d.m = 0 then ⟨0x3F000000, 0⟩
    else if !d.neg && decide (cmpVals (.fin d) (.fin ⟨false, 35, -1⟩) ≥ 0) then ⟨oneBits, flagNx⟩
    else if d.neg && decide (cmpVals (.fin d) (.fin ⟨true, 1000, 0⟩) < 0) then
      ⟨bounded 9 a (.abs (-148)) dyTiny, flagNx ||| flagUf⟩
    else let y := sigmRef d; approx 9 a (boundLow y) y

/-- IDIV (R132). -/
def idivW (u : Bool) (a b : Word) : Word :=
  if b = 0 then BitVec.allOnes 32
  else if u then natWord (a.toNat / b.toNat) else intWord (a.toInt.tdiv b.toInt)

/-- IREM (R132). -/
def iremW (u : Bool) (a b : Word) : Word :=
  if b = 0 then a else if u then natWord (a.toNat % b.toNat) else intWord (a.toInt.tmod b.toInt)

/-! ### The queue and the words (R129, R133) -/

/-- Entries of a slice's queue in use (R133). -/
def sfuUsed (s : State) (die core slice : Nat) : Nat :=
  (s.sfu.filter fun x => match s.warp? x.2.warp with
    | some w => w.die == die && w.core == core && w.slice == slice
    | none   => false).length

/-- The words of a slice that wait for an entry, oldest first: on a pipe, or of a parked bundle. -/
def sfuWaiters (s : State) (die core slice : Nat) : List (Nat × Pipe) :=
  (waitersOf s (s.core die core).sfuQ 1).filter fun x =>
    (((tget s.parks x.1).map Parked.warp |>.getD x.1 |> s.warp?).map Warp.slice).getD 0 == slice

/-- An SFU word joins its warp's words in the order they issued: in one cycle a word on pipe A before one on pipe B (R134). -/
def putSfu (id : Nat) (op : SfuOp) : Table SfuOp → Table SfuOp
  | [] => [(id, op)]
  | (k, q) :: t =>
    if op.pipe == .a && q.warp == op.warp && q.pipe == .b && q.time == op.time then (id, op) :: (k, q) :: t
    else (k, q) :: putSfu id op t

/-- A lane that executes an SFU word marks its destination empty; its result is on its way (R97, R129). -/
def sfuIssue (b : Bundle) (d : Nat) (f : Thread → Rounded) (m : Lanes) (s : State) : State :=
  let rs := (laneList b.warp.width m).filterMap fun l => (b.warp.thread l).map fun t => (l, natWord (f t).bits, t.inWin d)
  let fl := (laneList b.warp.width m).foldl (fun fl l => match b.warp.thread l with
    | some t => fl ||| (f t).flags
    | none   => fl) (0 : Flags)
  let s := s.mapLanes b.w m fun _ t => t.empty [d]
  { s with sfu := putSfu s.fresh ⟨b.w, b.warp.block, d, rs, fl, b.pipe, (s.die b.warp.die).cycles⟩ s.sfu, fresh := s.fresh + 1 }

/-- An SFU word (R129): it waits for an entry before its operands are read, then takes it for the lanes that do not
trap. -/
def sfuWord (i : Instr) (o : FmtR) (two : Bool) (f : Thread → Rounded) (s : State) : Outcome :=
  runWord i (fun b m s =>
    let q := sfuWaiters s b.warp.die b.warp.core b.warp.slice
    if m = 0 then finishWord b s
    else if !(decide (sfuUsed s b.warp.die b.warp.core b.warp.slice < 16) && myTurn b q) then
      waitGrant b (waitersOf s (s.core b.warp.die b.warp.core).sfuQ 1) (fun q c => { c with sfuQ := q }) s
    else withOperands (srcsR o 1 (if two then 1 else 0) 0) [o.d.toNat] (fun b m s =>
      finishWord b (if m = 0 then s else sfuIssue b o.d.toNat f m s)) b m s) s

/-- The words of one source. -/
def sfuOne (i : Instr) (o : FmtR) (f : Nat → Rounded) (s : State) : Outcome :=
  sfuWord i o false (fun t => f (t.val o.a o.za).toNat) s

/-- RCP (R131). -/
def execRcp (o : FmtR) (s : State) : Outcome := sfuOne (.rcp o) o (fRcp (modeOf o.mod)) s
/-- RSQ (R131). -/
def execRsq (o : FmtR) (s : State) : Outcome := sfuOne (.rsq o) o fRsq s
/-- SQRT (R131). -/
def execSqrt (o : FmtR) (s : State) : Outcome := sfuOne (.sqrt o) o (fSqrt (modeOf o.mod)) s
/-- DIV (R131). -/
def execDiv (o : FmtR) (s : State) : Outcome :=
  sfuWord (.div o) o true (fun t => fDiv (modeOf o.mod) (t.val o.a o.za).toNat (t.val o.b o.zb).toNat) s
/-- EXP2 (R131). -/
def execExp2 (o : FmtR) (s : State) : Outcome := sfuOne (.exp2 o) o fExp2 s
/-- LOG2 (R131). -/
def execLog2 (o : FmtR) (s : State) : Outcome := sfuOne (.log2 o) o fLog2 s
/-- SINP (R131). -/
def execSinp (o : FmtR) (s : State) : Outcome := sfuOne (.sinp o) o fSinp s
/-- COSP (R131). -/
def execCosp (o : FmtR) (s : State) : Outcome := sfuOne (.cosp o) o fCosp s
/-- TANH (R131). -/
def execTanh (o : FmtR) (s : State) : Outcome := sfuOne (.tanh o) o fTanh s
/-- SIGM (R131). -/
def execSigm (o : FmtR) (s : State) : Outcome := sfuOne (.sigm o) o fSigm s
/-- IDIV (R132). -/
def execIdiv (o : FmtR) (s : State) : Outcome :=
  sfuWord (.idiv o) o true (fun t => ⟨(idivW (o.mod == 1) (t.val o.a o.za) (t.val o.b o.zb)).toNat, 0⟩) s
/-- IREM (R132). -/
def execIrem (o : FmtR) (s : State) : Outcome :=
  sfuWord (.irem o) o true (fun t => ⟨(iremW (o.mod == 1) (t.val o.a o.za) (t.val o.b o.zb)).toNat, 0⟩) s

/-! ### The unit's own steps -/

/-- SFU_QUEUE_GRANT (R133): the oldest word that waits for an entry of the slice's queue gets one, when one is free. -/
def execSfuQueueGrant (die core slice : Nat) (s : State) : Outcome :=
  let q := sfuWaiters s die core slice
  if sfuUsed s die core slice < 16 then .next (grantFirst q s) else .next s

/-- The results of one SFU word in the lanes of a warp (R134). -/
def landSfu (op : SfuOp) (x : Warp) : Warp :=
  let x := op.lanes.foldl (fun x r => x.modThread r.1 fun t => t.land r.2.2 op.dst ⟨r.2.1, true⟩) x
  { x with fpflags := x.fpflags ||| op.flags }

/-- Whether pipe A may still issue an SFU word of the warp that counts as issued before this one: it is pipe B's, of this cycle (R134). -/
def SfuOp.early (op : SfuOp) (s : State) : Bool :=
  op.pipe == .b && ((s.warp? op.warp).map fun x => (s.die x.die).cycles == op.time).getD false

/-- SFU_RESULT (R134): the results of a warp's oldest SFU word land in all its lanes at once. -/
def execSfuResult (op : Nat) (s : State) : Outcome :=
  match tget s.sfu op with
  | none   => .next s
  | some r =>
    if (tfind s.sfu fun _ q => q.warp == r.warp).map Prod.fst = some op && !r.early s then
      .next (reapWarp r.warp { s.modWarp r.warp (landSfu r) with sfu := tdel s.sfu op })
    else .next s

end Sys2Proof.Machine
end

