-- ==== Sys2Proof/Machine/Page.lean ====
section
/-! DEFINITION. Main memory: uncorrectable units (R406), the translation tree and its cache (R323-R329), where an access
is performed (R330, R339, R340), copy-on-write (R342), snapshot holds and marks (R393, R394), how a message goes
over the mesh to another die and its answer back (22_link R345-R348), and reading, writing and changing main memory through them. -/

namespace Sys2Proof.Machine

/-! ### DRAM of a die (R406) -/

/-- The uncorrectable units a range of bytes touches. -/
def badIn (d : Die) (a n : Nat) : List Nat := d.bad.filter fun u => decide (32 * u < a + n) && decide (a < 32 * u + 32)

/-- Reads bytes; none when a unit is uncorrectable. -/
def dramRead (s : State) (die a n : Nat) : Option (List Byte) :=
  if (badIn (s.die die) a n).isEmpty then some (mbytes (s.die die).dram a n) else none

/-- Writes bytes; a unit written whole becomes correctable, one written in part fails the write. -/
def dramWrite (s : State) (die a : Nat) (bs : List Byte) : Option State :=
  let bad := badIn (s.die die) a bs.length
  if bad.all fun u => decide (a ≤ 32 * u) && decide (32 * u + 32 ≤ a + bs.length) then
    some (s.modDie die fun d => { d with dram := msetAll d.dram (cellsAt a bs), bad := d.bad.filter fun u => !bad.contains u })
  else none

/-- Writes bytes; a write that meets an uncorrectable unit is not performed (R406). -/
def dramPut (die a : Nat) (bs : List Byte) (s : State) : State := (dramWrite s die a bs).getD s

/-! ### Leaves and tables (R323-R326) -/

def pteF (p : Word64) (lo n : Nat) : Nat := (p.extractLsb' lo n).toNat
def pteState (p : Word64) : Nat := pteF p 1 3
def pteMode (p : Word64) : Nat := pteF p 4 2
def pteW (p : Word64) : Bool := p.getLsbD 6
def pteCow (p : Word64) : Bool := p.getLsbD 7
def pteSize (p : Word64) : Nat := pteF p 10 2
def pteStripe (p : Word64) : Nat := pteF p 12 4
def pteGroup (p : Word64) : Nat := pteF p 16 6
def pteFrame (p : Word64) : Nat := pteF p 24 25
def ptePeer (p : Word64) : Nat := pteF p 49 12

/-- The stripe size of a leaf (R325). -/
def stripeBytes (p : Word64) : Nat := 16 * 2 ^ pteStripe p

/-- The leaf with bits [lo+n-1:lo] replaced. -/
def pteSet (p : Word64) (lo n v : Nat) : Word64 :=
  (p &&& ~~~ (BitVec.ofNat 64 ((2 ^ n - 1) * 2 ^ lo))) ||| BitVec.ofNat 64 (v % 2 ^ n * 2 ^ lo)

/-- The first frame no context maps (R324). -/
def frameLimit : Nat := 0x17F8000

/-- Whether a state belongs to a page group. -/
def groupState (st : Nat) : Bool := decide (2 ≤ st)

/-- The fields of a leaf at level `lvl` are legal (R324-R326); cow in another state than LOCAL or SHARDED is ignored. -/
def leafOk (p : Word64) (lvl : Nat) : Bool :=
  let st := pteState p
  p.getLsbD 0 && pteF p 61 3 == 0 && pteF p 22 2 == 0 &&
  (if lvl = 1 then pteSize p == 2 else decide (pteSize p < 2)) &&
  decide (pteFrame p < frameLimit) && (lvl == 0 || pteFrame p % 512 == 0) &&
  (st == 1 || ptePeer p == 0) && (groupState st || (pteGroup p == 0 && pteStripe p == 0)) && decide (pteStripe p ≤ 8) &&
  (if st ≤ 1 then decide (pteMode p < 3) else pteMode p == 0) && (pteSize p != 1 || decide (st ≤ 1)) &&
  (!(st == 1 && pteMode p == 0) || pteFrame p == 0) && (!(st == 5 || st == 6) || (pteFrame p % 2 == 0 && lvl == 0))

/-- A table pointer (R324). -/
def ptrOk (p : Word64) : Bool :=
  p.getLsbD 0 && pteF p 1 23 == 0 && pteF p 49 15 == 0 && decide (pteFrame p < frameLimit)

/-- A walk through the tables to the entry that maps an address: the leaf, where it lies and how many bytes it maps; or why it
fails (1 forbidden, 2 uncorrectable). -/
def walkLevels (s : State) (die x : Nat) : List Nat → Nat → Except Nat (Word64 × Nat × Nat)
  | [], _ => .error 1
  | sh :: rest, table =>
    let ea := table + 8 * (x / 2 ^ sh % 512)
    match dramRead s die ea 8 with
    | none => .error 2
    | some bs =>
      let e : Word64 := BitVec.ofNat 64 (leNat bs)
      if sh = 12 then (if leafOk e 0 then .ok (e, ea, 4096) else .error 1)
      else if sh = 21 && pteSize e == 2 then (if leafOk e 1 then .ok (e, ea, 2 ^ 21) else .error 1)
      else if ptrOk e then walkLevels s die x rest (4096 * pteFrame e)
      else .error 1

def State.pgroot (s : State) (ctx die : Nat) : Nat := (tgetD (s.ctx ctx).pgroot die 0).toNat
def State.peertab (s : State) (ctx die : Nat) : Nat := (tgetD (s.ctx ctx).peertab die 0).toNat

/-- The leaf that maps an address in a context's tree on a die (R323, R324). -/
def leafAt (s : State) (ctx die x : Nat) : Except Nat (Word64 × Nat × Nat) :=
  let root := s.pgroot ctx die
  if 2 ^ 57 ≤ x || root % 4096 != 0 || decide (frameLimit ≤ root / 4096) then .error 1
  else walkLevels s die x [48, 39, 30, 21, 12] root

/-- Whether a table of a die holds uncorrectable data in a range (R406). -/
def tableBad (s : State) (die a n : Nat) : Bool := !(badIn (s.die die) a n).isEmpty

/-- The peer at an index of a die's peer table (R328): module and die; none when the entry cannot be read. -/
def peerOf (s : State) (ctx die k : Nat) : Option (Nat × Nat) :=
  let a := s.peertab ctx die + 8 * k
  let e : Word64 := BitVec.ofNat 64 (mread (s.die die).dram a 8)
  if !tableBad s die a 8 && pteF e 6 26 == 0 && pteF e 48 16 == 0 then some (pteF e 32 16, pteF e 0 6) else none

/-- A page group (R328): members and mirrors as (module, die). -/
structure Group where
  n   : Nat
  fs  : Int
  mem : List (Nat × Nat)
  mir : List (Option (Nat × Nat))
deriving DecidableEq, Repr

/-- Why an access fails at a peer that is none: uncorrectable data (R406), else as a forbidden access. -/
def peerFail (s : State) (ctx die k : Nat) : Nat := if tableBad s die (s.peertab ctx die + 8 * k) 8 then 2 else 1

/-- Reads a group; none when it cannot be read, is not defined, or a field that must be zero is not. -/
def groupOf (s : State) (ctx die g : Nat) : Option Group :=
  let at_ := s.peertab ctx die + 32768 + 128 * g
  let d := (s.die die).dram
  let h := mread d at_ 8
  let n := h % 16 + 1
  let half := fun (o k : Nat) => mread d (at_ + o + 2 * k) 2
  if !tableBad s die at_ 128 && h / 16 % 16 == 0 && h / 256 % 256 == 1 && h / 2 ^ 32 == 0 && mread d (at_ + 72) 56 == 0 &&
      ((List.range n).all fun k => decide (half 8 k < 4096) && half 40 k / 4096 % 8 == 0) then
    match ((List.range n).map fun k => peerOf s ctx die (half 8 k)).reduceOption with
    | ms =>
      if ms.length = n then
        some ⟨n, ((BitVec.ofNat 16 (h / 65536)).toInt), ms, (List.range n).map fun k =>
          if half 40 k / 32768 = 1 then peerOf s ctx die (half 40 k % 4096) else none⟩
      else none
  else none

/-- Why a walk fails at a group that is none: uncorrectable data in its record or in a member's entry (R406), else as a forbidden
access. -/
def groupFail (s : State) (ctx die g : Nat) : Nat :=
  let at_ := s.peertab ctx die + 32768 + 128 * g
  let n := mread (s.die die).dram at_ 8 % 16 + 1
  if tableBad s die at_ 128 then 2
  else if (List.range n).any fun k => peerFail s ctx die (mread (s.die die).dram (at_ + 8 + 2 * k) 2 % 4096) == 2 then 2 else 1

/-- Whether member `k`'s stripes are a die's own (R329). -/
def Group.own (g : Group) (me : Nat × Nat) (k : Nat) : Bool := g.mem.getD k (0, 64) == me

/-- Whether a die holds member `k`'s stripes: it is that member or its mirror (R329). -/
def Group.holds (g : Group) (me : Nat × Nat) (k : Nat) : Bool := g.own me k || (g.mir.getD k none) == some me

/-- The mirror of member `k`, for that member's own writes (R333). -/
def Group.mirrorOf (g : Group) (me : Nat × Nat) (k : Nat) : Option (Nat × Nat) :=
  if g.own me k then g.mir.getD k none else none

/-- A walk of a context's tree on a die (R323, R324): it fails at a leaf whose group is not defined (R328). -/
def walk (s : State) (ctx die x : Nat) : Except Nat (Word64 × Nat × Nat) :=
  match leafAt s ctx die x with
  | .error k => .error k
  | .ok r =>
    if groupState (pteState r.1) && (groupOf s ctx die (pteGroup r.1)).isNone then .error (groupFail s ctx die (pteGroup r.1)) else .ok r

/-! ### The translation cache (R327) -/

/-- A cached translation of an address. -/
def cached (d : Die) (ctx x : Nat) : Option TlbEntry :=
  d.tlb.find? fun e => e.ctx == ctx && decide (e.page ≤ x) && decide (x < e.page + e.bytes)

/-- Changes the cached translations that cover an address. -/
def modTlb (ctx die x : Nat) (f : TlbEntry → TlbEntry) (s : State) : State :=
  s.modDie die fun d => { d with tlb := d.tlb.map fun e =>
    if (e.ctx == ctx && decide (e.page ≤ x) && decide (x < e.page + e.bytes)) then f e else e }

/-- Drops the cached translations that cover an address. -/
def dropTlb (ctx die x : Nat) (s : State) : State :=
  s.modDie die fun d => { d with tlb := d.tlb.filter fun e =>
    !(e.ctx == ctx && decide (e.page ≤ x) && decide (x < e.page + e.bytes)) }

/-- Changes a leaf in the cache and in the tree at once (R327); a leaf whose unit is uncorrectable keeps its bits in the tree, and the write
is logged (R406). -/
def updateLeaf (ctx die x : Nat) (f : Word64 → Word64) (s : State) : State :=
  let s := modTlb ctx die x (fun e => { e with pte := f e.pte }) s
  match leafAt s ctx die x with
  | .ok (p, ea, _) => dramPut die ea (leBytes 8 (f p).toNat) s
  | .error k       => if k = 2 then logViolation ctx x 2 5 die s else s

/-- An engine's write of main memory for address `x`; one that fails on an uncorrectable unit is logged (R406). -/
def engineDram (ctx die x a : Nat) (bs : List Byte) (s : State) : State :=
  match dramWrite s die a bs with
  | some s => s
  | none => logViolation ctx x 2 5 die s

/-- Whether a walk ends at a leaf with the contiguity hint. -/
def hinted (r : Except Nat (Word64 × Nat × Nat)) : Bool :=
  match r with
  | .ok (p, _, _) => pteSize p == 1
  | .error _ => false

/-- The leaf of a hinted range's first page with the frame offset of its page `k` added (R326); a leaf that names no frame names none for
the page either, and a frame that no context maps fails the walk (R324). -/
def offsetLeaf (p : Word64) (k : Nat) : Except Nat Word64 :=
  if pteState p = 1 && pteFrame p = 0 then .ok p
  else if frameLimit ≤ pteFrame p + k then .error 1 else .ok (pteSet p 24 25 (pteFrame p + k))

/-- The leaf that translates an address, and the bytes it maps: the one its own walk finds; under the contiguity hint, of its own leaf or
of the leaf of its range's first page, that one with the frame offset added, as a free choice (R326). -/
def hintLeaf (s : State) (ctx die x : Nat) : Except Nat (Word64 × Nat) :=
  let own := walk s ctx die x
  let first := walk s ctx die (x / 65536 * 65536)
  if (hinted own || hinted first) && Config.bit s.fresh then
    match first with
    | .ok (p, _, _) => (offsetLeaf p (x / 4096 % 16)).map fun q => (q, 4096)
    | .error k => .error k
  else own.map fun r => (r.1, r.2.2)

/-- The leaf that translates an address, from the cache or by a walk that fills the cache (16,384 entries). -/
def leafOf (s : State) (ctx die x : Nat) : Except Nat Word64 × State :=
  if 2 ^ 57 ≤ x then (.error 1, s)
  else match cached (s.die die) ctx x with
    | some e => (.ok e.pte, s)
    | none =>
      match hintLeaf s ctx die x with
      | .error k => (.error k, s.bump)
      | .ok (q, n) =>
        let e : TlbEntry := ⟨ctx, x / n * n, n, q, false, 0⟩
        (.ok q, (s.modDie die fun d => { d with tlb := (if d.tlb.length < 16384 then d.tlb else d.tlb.tail) ++ [e] }).bump)

/-- The bytes of the page that holds an address. -/
def pageBytes (p : Word64) : Nat := if pteSize p = 2 then 2 ^ 21 else 4096

/-- The DRAM address a leaf gives an address (R323). -/
def frameAddr (p : Word64) (x : Nat) : Nat := 4096 * pteFrame p + x % pageBytes p

/-! ### Spare frames: copy-on-write and snapshot marks (R342, R394) -/

/-- The first spare frame, and how many a die has. -/
def spareBase : Nat := 0x17FC000
def spareCount : Nat := 16384

/-- Takes `n` spare frames, if the pool has them. -/
def takeSpare (d : Die) (n : Nat) : Option (List Nat) :=
  let free := ((List.range (d.spare.length + n)).map (spareBase + ·)).filter fun f =>
    !(d.spare.any fun x => x.1 == f) && decide (f < spareBase + spareCount)
  if n ≤ free.length then some (free.take n) else none

/-- Copies a page of one frame or more into spare frames: the bytes whose offsets in the page satisfy `part`. -/
def copyFrames (d : Die) (ctx from_ : Nat) (part : Nat → Bool) (to_ : List Nat) : Die :=
  to_.zipIdx.foldl (fun d x =>
    let src := from_ + 4096 * x.2
    { d with dram := msetAll d.dram ((cellsAt (4096 * x.1) (mbytes d.dram src 4096)).filter fun c => part (4096 * x.2 + c.1 % 4096))
             bad := d.bad ++ (((List.range 128).map (src / 32 + ·)).filter d.bad.contains).map fun u => u - src / 32 + 128 * x.1
             spare := tput d.spare x.1 ctx }) d

/-- The offsets in a page whose bytes a die holds: of a SHARDED page its own and mirrored stripes (R342). -/
def heldPart (s : State) (ctx die : Nat) (p : Word64) (o : Nat) : Bool :=
  if pteState p = 0 then true
  else match groupOf s ctx die (pteGroup p) with
    | some g => g.holds (s.mod.number, die) (o / stripeBytes p % g.n)
    | none => true

/-- The first write to a copy-on-write page (R342); none while the pool is empty. -/
def breakCow (ctx die x : Nat) (p : Word64) (s : State) : Option State :=
  if pteCow p then
    match takeSpare (s.die die) (pageBytes p / 4096) with
    | none => none
    | some fs =>
      some (updateLeaf ctx die x (fun q => pteSet q 7 1 0)
        (s.modDie die fun d => copyFrames d ctx (4096 * pteFrame p) (heldPart s ctx die p) fs))
  else some s

/-- The first write to a marked page not yet drained (R394); none while the pool is empty. -/
def breakMark (ctx die page addr : Nat) (s : State) : Option State :=
  match tget (s.die die).snaps ctx with
  | none => some s
  | some sn =>
    if (sn.todo.any fun t => t.2 == page) && (tget sn.copies page).isNone then
      match takeSpare (s.die die) 1 with
      | some [f] => some (s.modDie die fun d =>
          let d := copyFrames d ctx (addr / 4096 * 4096) (fun _ => true) [f]
          { d with snaps := tput d.snaps ctx { sn with copies := tput sn.copies page f } })
      | _ => none
    else some s

/-- Whether a write is held at a die's controller until the cut (R393). -/
def snapHolds (s : State) (ctx die page : Nat) (step : Option (Nat × Word)) : Bool :=
  match step, tget (s.die die).snaps ctx with
  | some (kern, st), some sn =>
    sn.st == .armed && sn.kern == kern && sn.pages.contains page && passedRound st sn.step
  | _, _ => false

/-! ### The cut of a snapshot (R392-R396) -/

/-- The parts a die writes of the 4 KiB page at `x` with this leaf, as offsets in it and lengths (R395): the whole of a LOCAL page, of a
SHARDED or GATHERED one its own stripes. -/
def drainParts (s : State) (c die x : Nat) (p : Word64) : List (Nat × Nat) :=
  if pteState p = 0 then [(0, 4096)]
  else if pteState p = 2 || pteState p = 4 then match groupOf s c die (pteGroup p) with
    | none => []
    | some g =>
      let n := stripeBytes p
      ((List.range (4096 / n)).filter fun i => g.own (s.mod.number, die) ((x % pageBytes p / n + i) % g.n)).map fun i => (n * i, n)
  else []

/-- What a die writes of a page at the cut (R395): its number, address and leaf; none when it writes nothing, counting other states as
skipped. -/
def cutPage (s : State) (c die : Nat) (x : Nat × Nat) : Option (Nat × Nat × Word64) × Nat :=
  match walk s c die x.2 with
  | .ok (p, _, _) =>
    if (drainParts s c die x.2 p).isEmpty then (none, if pteState p ≤ 2 || pteState p = 4 then 0 else 1) else (some (x.1, x.2, p), 0)
  | .error _ => (none, 1)

/-- A die cuts (R392, R396): marks are set, and the writes held go on, in the order they arrived (`snapTurn`). -/
def cutDie (die c : Nat) (s : State) : State :=
  match tget (s.die die).snaps c with
  | none => s
  | some sn =>
    if sn.st = .armed then
      let rs := sn.pages.zipIdx.map fun x => cutPage s c die (x.2, x.1)
      let s := s.modDie die fun d => { d with snaps := tput d.snaps c { sn with
        st := .cut, todo := rs.filterMap fun r => r.1.map fun y => (y.1, y.2.1)
        leaves := rs.filterMap fun r => r.1.map Prod.snd, skipped := (rs.map Prod.snd).sum } }
      { s with ops := tmap s.ops fun _ o => if (o.ctx == c && o.st == .held) then { o with st := .sent } else o }
    else s

/-- A die share's end cuts the snapshots it decides, when its completed step is still below S (R392). -/
def cutShare (die share : Nat) (s : State) : State :=
  ((s.die die).snaps.filter fun x => x.2.share == some share).foldl (fun s x => cutDie die x.1 s) s

/-! ### Gathers, fills and migrations start (R331, R340) -/

/-- The members that own a stripe of a page, but for this die itself (R331). -/
def gatherMembers (g : Group) (me : Nat × Nat) (p : Word64) : List Nat :=
  (List.range (min g.n (pageBytes p / stripeBytes p))).filter fun k => !g.own me k

/-- Starts the fill of a mode-1 copy, if none is on its way (R340). -/
def startFill (ctx die page : Nat) (s : State) : State :=
  if tany (s.die die).fills fun _ f => f == (ctx, page) then s
  else (s.modDie die fun d => { d with fills := tput d.fills s.fresh (ctx, page) }).bump

/-- Counts a mode-2 access and, at the threshold, asks the owner for the page (R340). -/
def countAccess (ctx die x owner : Nat) (p : Word64) (s : State) : State :=
  let page := x / pageBytes p * pageBytes p
  let n := ((cached (s.die die) ctx x).map TlbEntry.count).getD 0 + 1
  let s := modTlb ctx die x (fun e => { e with count := n }) s
  if (s.ctx ctx).migrate.toNat ≤ n && pteFrame p != 0 && !(tany (s.die die).migs fun _ m => m.ctx == ctx && m.page == page) then
    (s.modDie die fun d => { d with migs := tput d.migs s.fresh ⟨ctx, page, pageBytes p, owner, d.time, none⟩ }).bump
  else s

/-- Whether a page is being handed over from or to a die (R340). -/
def migrating (s : State) (ctx die x : Nat) : Bool :=
  s.dies.any fun d => tany d.2.migs fun _ m =>
    m.ctx == ctx && decide (m.page ≤ x) && decide (x < m.page + m.bytes) && (d.1 == die || (m.owner == die && (m.reply.map Option.isSome).getD false))

/-! ### The mesh and the flows to other modules (R345, R348-R352) -/

/-- The direction of the next hop from die `a` to die `b`: along the row first (R345). -/
def nextDir (a b : Nat) : Nat :=
  if a % 8 < b % 8 then 1 else if b % 8 < a % 8 then 3 else if a / 8 < b / 8 then 2 else 0

/-- The direction of the next hop down a column first: a release of the AND tree goes the way of the arrivals in reverse (R208). -/
def columnDir (a b : Nat) : Nat :=
  if a / 8 < b / 8 then 2 else if b / 8 < a / 8 then 0 else if a % 8 < b % 8 then 1 else 3

/-- Whether a message is a release of the AND tree. -/
def releaseTag (tag : List Nat) : Bool := tag.head? == some 11

/-- The direction of a message's next hop. -/
def routeDir (tag : List Nat) (a b : Nat) : Nat := if releaseTag tag then columnDir a b else nextDir a b

/-- The die one hop away. -/
def hop (a dir : Nat) : Nat :=
  match dir with
  | 0 => a - 8
  | 1 => a + 1
  | 2 => a + 8
  | _ => a - 1

/-- A mesh link by its number, 4·die + direction. -/
def Module.link (m : Module) (k : Nat) : MeshLink := tgetD m.links k ⟨.up, 0, []⟩

/-- Whether a mesh link is FAILED (R348). -/
def MeshLink.failed (l : MeshLink) : Bool := l.st == .failed

/-- Whether no link of a message's fixed route between two dies is FAILED (R345, R348). -/
def routeOk (m : Module) (tag : List Nat) : Nat → Nat → Nat → Bool
  | 0, _, _ => true
  | n + 1, a, b => a == b || (!(m.link (4 * a + routeDir tag a b)).failed && routeOk m tag n (hop a (routeDir tag a b)) b)

/-- Whether a die reaches another over the mesh. -/
def State.reaches (s : State) (a b : Nat) : Bool := routeOk s.mod [] 14 a b

/-- The first transfer that carries a message (R345). -/
def State.transfer? (s : State) (tag : List Nat) : Option (Nat × Transfer) := s.mod.transfers.find? fun t => t.2.tag == tag

/-- A message has been acted on, or is no more. -/
def dropMessage (tag : List Nat) (s : State) : State :=
  s.modMod fun m => { m with transfers := m.transfers.filter fun t => t.2.tag != tag }

/-- How far a message between two dies has come: it has arrived, it is under way, or a FAILED link cuts its route (R348). -/
inductive Ride where
  | come
  | under
  | cut
deriving DecidableEq, Repr

/-- Whether the message `tag` from die `a` has come to die `b` (R345): within a die at once; to another die it is sent over the
mesh when it is first asked for. -/
def ride (cls ctx a b : Nat) (tag : List Nat) (data : List Byte) (s : State) : Ride × State :=
  if a = b then (.come, s)
  else match s.transfer? tag with
    | some (_, t) => (if t.at_ = t.dst then .come else .under, s)
    | none =>
      if routeOk s.mod tag 14 a b then
        (.under, { s with mod := { s.mod with transfers := tput s.mod.transfers s.fresh ⟨cls, a, b, a, ctx, tag, data⟩ }
                          fresh := s.fresh + 1 })
      else (.cut, s)

/-- A frame's header as a number (R350). -/
def frameHead (f : Frame) : Nat :=
  f.check.toNat + 2 ^ 32 * (f.seq.toNat + 2 ^ 32 * (f.zero % 2 ^ 7 + 2 ^ 7 * (f.beats % 2 ^ 9 + 2 ^ 9 * (f.kind % 4 +
    2 ^ 2 * (f.cls % 4 + 2 ^ 2 * (f.sdie % 2 ^ 6 + 2 ^ 6 * (f.smod % 2 ^ 16 + 2 ^ 16 * (f.ddie % 2 ^ 6 + 2 ^ 6 * f.dmod))))))))

/-- The check a frame should carry (R350). -/
def frameCrc (f : Frame) : BitVec 32 := Config.crc32 (leBytes 12 (frameHead f / 2 ^ 32) ++ f.data)

/-- The port a flow to a module leaves through (R349): the primary while it is UP or DEGRADED, else the secondary. -/
def Module.egress (m : Module) (module : Nat) : Nat :=
  match tget m.portTab module with
  | none => 0
  | some (p, q) =>
    match (m.ports[p]?).map Port.st with
    | some .up | some .degraded => p
    | _ => q

/-- Numbers the frames of an outgoing flow that wait, while fewer than 4,096 are outstanding (R351). -/
def Flow.number (now : Nat) : Nat → Flow → Flow
  | 0, f => f
  | n + 1, f =>
    match f.waiting with
    | [] => f
    | o :: rest =>
      if 4096 ≤ f.unacked.length then f
      else
        let x := { o.frame with seq := f.next }
        Flow.number now n { f with waiting := rest, next := f.next + 1
                                   unacked := f.unacked ++ [⟨o.name, o.ctx, f.next, 1, now, { x with check := frameCrc x }⟩] }

/-- Sets a page GATHERING and asks every member for its stripes (R331), a member of another module by a frame. -/
def askGather (ctx die x : Nat) (g : Group) (p : Word64) (s : State) : State :=
  let page := x / pageBytes p * pageBytes p
  let s := updateLeaf ctx die x (fun q => pteSet q 1 3 3) s
  let reqs : Table ReqState := (gatherMembers g (s.mod.number, die) p).map fun k => (k, .asked (s.die die).time false)
  (s.modDie die fun d => { d with gathers := tput d.gathers s.fresh ⟨ctx, page, reqs, none⟩ }).bump

/-- An error on a remote operation ends the context (R319): the die, the address and the status of the failure. -/
def remoteEnd (c die addr status : Nat) (s : State) : State := endContext c 0x01 (causeEngine die addr status) s

/-- The die that carries a port (R10). -/
def portDie (p : Nat) : Nat :=
  match p / 8 with
  | 0 => p % 8
  | 1 => 8 * (p % 8) + 7
  | 2 => 56 + p % 8
  | _ => 8 * (p % 8)

def newFlow (cls src dst module : Nat) (out : Bool) (port : Nat) : Flow :=
  { cls := cls, src := src, dst := dst, module := module, out := out, next := 0, unacked := [], waiting := [], beyond := []
    ack := none, heldF := [], port := port, failed := false, ctxs := [] }

/-- The die that keeps a die's checkpoint (R397): its east neighbour, or its west one in column 7. -/
def keeperOf (die : Nat) : Nat := if die % 8 = 7 then die - 1 else die + 1

/-- Which half of its keeper's region a die has. -/
def keeperHalf (die : Nat) : Nat := if die % 8 = 7 then 1 else 0

/-- The keeper's record of a die. -/
def State.keeper (s : State) (die : Nat) : Keeper := (s.die (keeperOf die)).keeper.getD (keeperHalf die) ⟨false, 0, none, []⟩

def setKeeper (die : Nat) (k : Keeper) (s : State) : State :=
  s.modDie (keeperOf die) fun d => { d with keeper := d.keeper.set (keeperHalf die) k }

/-- What a die's checkpoint holds now (R397). -/
def checkpointOf (s : State) (die : Nat) : Checkpoint :=
  let d := s.die die
  { gathers := d.gathers, reds := d.reds
    flows := (s.mod.flows.filter fun f => f.2.src == die || f.2.dst == die).map fun f => (f.1, f.2.next + BitVec.ofNat 32 f.2.waiting.length)
    graphs := (s.shares.filter fun h => h.2.die == die).map fun h => (h.1, h.2.graphs, h.2.step, h.2.done)
    episodes := d.episodes, orphans := d.orphans, juncs := d.juncs, queues := if die = 0 then s.queues else [], snaps := d.snaps }

/-- A die's checkpoint is refreshed: the log and the running hashes start anew (R397). -/
def refreshKeeper (die : Nat) (s : State) : State :=
  (setKeeper die ⟨true, 0, some (checkpointOf s die), []⟩ s).modDie die fun d => { d with payloads := [], seqs := [] }

/-- The keeper logs an entry of a die; a log that reaches 4 MiB forces a refresh (R397). -/
def logKeeper (die bytes : Nat) (e : Logged) (s : State) : State :=
  let k := s.keeper die
  if 4 * 2 ^ 20 ≤ k.size + bytes then refreshKeeper die s else setKeeper die { k with size := k.size + bytes, log := k.log ++ [e] } s

/-- A frame reaches the terminus it leaves by: it is numbered in the order of arrival there (R351, R352). The running hash of its flow
takes its payload, and the number and hash go to the keeper of its source (R397). -/
def numberFrame (id name ctx : Nat) (data : List Byte) (s : State) : State :=
  match tget s.mod.flows id with
  | none => s
  | some f =>
    let fr : Frame := ⟨f.module, f.dst, s.mod.number, f.src, f.cls, 0, data.length / 16, 0, 0, 0, data⟩
    let seq := f.next + BitVec.ofNat 32 f.waiting.length
    let f := Flow.number (s.die 0).time 1 { f with waiting := f.waiting ++ [⟨name, ctx, fr⟩] }
    let all := tgetD (s.die f.src).payloads id [] ++ [data]
    let s := s.modDie f.src fun d => { d with payloads := tput d.payloads id all, seqs := tput d.seqs id seq }
    logKeeper f.src 16 (.sent id seq (hash64 all.flatten)) (s.modMod fun m => { m with flows := tput m.flows id f })

/-- Sends one frame of at most 4,096 bytes, under a name of its own, over the mesh to its terminus (R345). -/
def sendPayload (id src ctx : Nat) (f : Flow) (data : List Byte) (s : State) : State :=
  let d := portDie f.port
  if d = src then numberFrame id s.fresh ctx data s.bump
  else { s with mod := { s.mod with transfers := tput s.mod.transfers s.fresh ⟨f.cls, src, d, src, ctx, [12, id, s.fresh], data⟩ }
                fresh := s.fresh + 1 }

/-- The payloads of `bytes` bytes, in frames of at most 4,096 (R350). The contents are the implementation's own (log entry 1). -/
def payloadsOf (seed bytes : Nat) : List (List Byte) :=
  let beats := (bytes + 15) / 16
  (List.range ((beats + 255) / 256)).map fun k =>
    (List.range (16 * min 256 (beats - 256 * k))).map fun i => Config.byte seed (4096 * k + i)

/-- The outgoing flow of a class from a die to a die of another module; a new one where there is none yet. -/
def outFlow (cls src module ddie : Nat) (s : State) : Nat × Flow × State :=
  match tfind s.mod.flows fun _ f => f.out && f.cls == cls && f.src == src && f.dst == ddie && f.module == module with
  | some (k, f) => (k, f, s)
  | none => (s.fresh, newFlow cls src ddie module true (s.mod.egress module), s.bump)

/-- Sends payloads of a context on a flow to a die of another module: the flow's name, the name of the first frame, and the state. A flow
that has FAILED, and a FAILED link on the way to the terminus, end the context (R348, R352). -/
def sendData (cls src module ddie ctx : Nat) (ps : List (List Byte)) (s : State) : Nat × Nat × State :=
  let (id, fl, s) := outFlow cls src module ddie s
  if fl.failed || !s.reaches src (portDie fl.port) then (id, s.fresh, remoteEnd ctx ddie 0 0 s)
  else
    let fl : Flow := { fl with ctxs := if fl.ctxs.contains ctx then fl.ctxs else fl.ctxs ++ [ctx] }
    let s := s.modMod fun m => { m with flows := tput m.flows id fl }
    (id, s.fresh, ps.foldl (fun s d => sendPayload id src ctx fl d s) s)

/-- Sends `bytes` bytes of a request (R350): the flow's name, and the state. -/
def sendFrame (cls src module ddie ctx bytes : Nat) (s : State) : Nat × State :=
  let r := sendData cls src module ddie ctx (payloadsOf s.fresh bytes) s
  (r.1, r.2.2)

/-- Whether a frame sent on a flow has been acknowledged (R351). -/
def frameDone (s : State) (id name : Nat) : Bool :=
  !(s.mod.transfers.any fun t => t.2.tag == [12, id, name]) && !((tget s.mod.flows id).map fun f =>
    f.waiting.any (·.name == name) || f.unacked.any (·.name == name)).getD false

/-- A page's first touch of a stripe that is not its own: GATHERING, and a request to every member that owns a stripe (R331); a
member of another module is asked by a frame. -/
def startGather (ctx die x : Nat) (g : Group) (p : Word64) (s : State) : State :=
  (((gatherMembers g (s.mod.number, die) p).filterMap fun k => g.mem[k]?).filter fun m => m.1 != s.mod.number).foldl
    (fun s m => (sendFrame 2 die m.1 m.2 ctx 16 s).2) (askGather ctx die x g p s)

/-- The fill of a mode-1 copy starts (R340); an owner in another module is asked by a frame. -/
def askFill (ctx die page m d : Nat) (s : State) : State :=
  if m = s.mod.number || tany (s.die die).fills fun _ f => f == (ctx, page) then startFill ctx die page s
  else (sendFrame 2 die m d ctx 16 (startFill ctx die page s)).2

/-! ### Where an access is performed (R330, R339) -/

/-- Where an access goes. -/
inductive Where where
  | here (die addr : Nat) (also : List (Nat × Nat))  -- DRAM of a die, and of mirrors for a write
  | accum (addr : Nat) (fs : Int) (also : List (Nat × Nat))  -- a PARTIAL page: the word's J, and its mirror's (R333, R334)
  | far (module die : Nat)                           -- another module
  | wait                                             -- held at the page engine
  | fail (kind : Nat)                                -- 1 forbidden, 2 uncorrectable
  | lost
  | remote (die kind : Nat)                          -- an error on a remote operation: token status 1 or 4, 0 for a link
deriving DecidableEq, Repr

/-- Marks a leaf accessed, and dirty by a write (R325). -/
def touch (ctx die x : Nat) (write : Bool) (s : State) : State :=
  updateLeaf ctx die x (fun q => if write then pteSet q 8 2 3 else pteSet q 8 1 1) s

/-- An access performed in a die's frame, a write after copy-on-write (R342): its address; none while the pool is empty. -/
def inFrame (ctx d x : Nat) (write : Bool) (p : Word64) (s : State) : Option (Nat × State) :=
  (if write then breakCow ctx d x p s else some s).map fun s =>
    (match leafOf s ctx d x with
      | (.ok q, _) => frameAddr q x
      | (.error _, _) => frameAddr p x, touch ctx d x write s)

/-- Whether a die's engines accept no work: it is in management-only safe mode (R402), or it starts (R398). -/
def State.shut (s : State) (die : Nat) : Bool := (s.die die).safe || (s.die die).start.isSome

/-- The status of an error on a remote operation met at a peer entry (R339). -/
def peerStatus (s : State) (ctx d k : Nat) : Nat := if peerFail s ctx d k = 2 then 4 else 1

/-- An access at a peer (R339): `fuel` is 1 while it may be forwarded. At a die whose engines accept no work it waits (R402); a forwarding
leaf is accessed, and dirty by a write (R325). -/
def remoteAt (s : State) (ctx x : Nat) (write : Bool) : Nat → Nat → Where × State
  | 0, d => (.remote d 1, s)
  | fuel + 1, d =>
    if s.shut d then (.wait, s)
    else match leafOf s ctx d x with
    | (.error k, s) => (.remote d (if k = 2 then 4 else 1), s)
    | (.ok p, s) =>
      if migrating s ctx d x then (.wait, s)
      else if write && !pteW p then (.remote d 1, s)
      else if pteState p = 0 then
        match inFrame ctx d x write p s with
        | none => (.wait, s)
        | some (a, s) => (.here d a [], s)
      else if pteState p = 1 && fuel != 0 then
        match peerOf s ctx d (ptePeer p) with
        | none => (.remote d (peerStatus s ctx d (ptePeer p)), s)
        | some (m, d') =>
          let s := touch ctx d x write s
          if m != s.mod.number then (.far m d', s)
          else if s.reaches d d' then remoteAt s ctx x write fuel d' else (.remote d' 0, s)
      else (.remote d 1, s)

/-- The mirror's place of a write to a member's stripe (R333): the page there names the same group. A write breaks copy-on-write
at a SHARDED mirror too, and marks its leaf; in GATHERING and GATHERED cow is ignored (R325, R342). A die whose engines accept no work
makes it wait (R402). -/
def mirrorAt (s : State) (ctx d x g : Nat) : Where × State :=
  if s.shut d then (.wait, s)
  else match walk s ctx d x with
  | .error k => (.remote d (if k = 2 then 4 else 1), s)
  | .ok (p, _, _) =>
    if pteGroup p != g || pteState p < 2 then (.remote d 1, s)
    else if pteState p = 3 || pteState p = 4 then (.here d (frameAddr p x) [], touch ctx d x true s)
    else if pteState p = 2 then
      match inFrame ctx d x true p s with
      | none => (.wait, s)
      | some (a, s) => (.here d a [], s)
    else if pteState p ≤ 6 then (.here d (4096 * pteFrame p + 8 * (x % 4096 / 4)) [], touch ctx d x true s)
    else (.remote d 1, s)

/-- A write to an own stripe at `w`, and at the mirror when there is one (R333); at a mirror of another module it has been performed before
(`mirrorFirst`). -/
def withMirror (ctx die x g : Nat) (mir : Option (Nat × Nat)) (w : List (Nat × Nat) → Where) (s : State) : Where × State :=
  match mir with
  | none => (w [], s)
  | some (m, d) =>
    if m != s.mod.number then (w [], s)
    else if !s.reaches die d then (.remote d 0, s)
    else match mirrorAt s ctx d x g with
      | (.here _ a _, s) => (w [(d, a)], s)
      | r => r

/-- Where an access of a die is performed (R330); `fadd` for the writes a PARTIAL page permits (R334). -/
def locate (s : State) (ctx die x : Nat) (write fadd : Bool) : Where × State :=
  match leafOf s ctx die x with
  | (.error k, s) => (.fail k, s)
  | (.ok p, s) =>
    let me := (s.mod.number, die)
    if migrating s ctx die x then (.wait, s)
    else match pteState p with
      | 0 =>
        if write && !pteW p then (.fail 1, s)
        else match inFrame ctx die x write p s with
          | none => (.wait, s)
          | some (a, s) => (.here die a [], s)
      | 1 =>
        if write && (!pteW p || pteMode p == 1) then (.fail 1, s)
        else match peerOf s ctx die (ptePeer p) with
          | none => (.fail (peerFail s ctx die (ptePeer p)), s)
          | some (m, d) =>
            let s := touch ctx die x write s
            if pteMode p = 1 then
              if ((cached (s.die die) ctx x).map TlbEntry.valid).getD false then (.here die (frameAddr p x) [], s)
              else (.wait, askFill ctx die (x / pageBytes p * pageBytes p) m d s)
            else if m != s.mod.number then (.far m d, s)
            else if s.reaches die d then remoteAt s ctx x write 2 d else (.remote d 0, s)
      | 2 =>
        match groupOf s ctx die (pteGroup p) with
        | none => (.fail (groupFail s ctx die (pteGroup p)), s)
        | some g =>
          let k := x % pageBytes p / stripeBytes p % g.n
          if g.own me k then
            if write && !pteW p then (.fail 1, s)
            else match inFrame ctx die x write p s with
              | none => (.wait, s)
              | some (a, t) =>
                if write then match withMirror ctx die x (pteGroup p) (g.mirrorOf me k) (.here die a) t with
                  | (.wait, _) => (.wait, s)
                  | r => r
                else (.here die a [], t)
          else if write then (.fail 1, s)
          else (.wait, startGather ctx die x g p (touch ctx die x false s))
      | 4 => if write then (.fail 1, s) else (.here die (frameAddr p x) [], touch ctx die x false s)
      | 5 =>
        if write && !(fadd && pteW p) then (.fail 1, s)
        else match groupOf s ctx die (pteGroup p) with
          | none   => (.fail (groupFail s ctx die (pteGroup p)), s)
          | some g =>
            let w := Where.accum (4096 * pteFrame p + 8 * (x % 4096 / 4)) g.fs
            let s := touch ctx die x write s
            if write then withMirror ctx die x (pteGroup p) (g.mirrorOf me (x % 4096 / stripeBytes p % g.n)) w s else (w [], s)
      | 7 => (.lost, s)
      | _ => (.wait, s)

/-! ### Reading, writing and changing main memory -/

/-- How an access ended. -/
inductive Ended (α : Type) where
  | done (a : α)
  | wait               -- at the page engine, or for a spare frame
  | held               -- at a controller until a cut (R393)
  | far (module die : Nat)
  | fail (kind : Nat)  -- local: 1 forbidden, 2 uncorrectable
  | lost
  | remote (die kind : Nat)
deriving DecidableEq, Repr

/-- An exact integer times 2^fs as FP32 (R334). -/
def accumWord (j fs : Int) : Rounded := roundFin fp32 .rn false (dyInt j fs)

/-- J at an address (R334). -/
def accumAt (s : State) (die a : Nat) : Option Int := (dramRead s die a 8).map fun bs => (BitVec.ofNat 64 (leNat bs)).toInt

/-- Adds a saturating integer to J (R334). -/
def addJ (j q : Int) : Int := satInt (j + q) (-(2 ^ 63)) (2 ^ 63 - 1)

/-- Adds an integer to a J of a die, saturating; none when its unit is uncorrectable (R406). -/
def addAt (d a : Nat) (q : Int) (s : State) : Option State :=
  (accumAt s d a).bind fun j => dramWrite s d a (leBytes 8 (addJ j q % 2 ^ 64).toNat)

/-- The integer a value adds to a PARTIAL word and its flags (R334); none for NaN. -/
def accumAdd (v : FVal) (fs : Int) : Option Int × Flags :=
  match v with
  | .nan _ => (none, flagNv)
  | .inf n => (some (if n then -(2 ^ 63) else 2 ^ 63 - 1), flagOf ||| flagNx)
  | .fin d =>
    let (n, i) := roundInt .rn { d with e := d.e - fs }
    let q := satInt n (-(2 ^ 63)) (2 ^ 63 - 1)
    (some q, flagIf (i || q != n) flagNx ||| flagIf (q != n) flagOf)

/-- An uncorrectable unit met by an access of `me`: local, or an error on a remote operation (R339). -/
def badAccess {α : Type} (me d : Nat) : Ended α := if d = me then .fail 2 else .remote d 4

/-- Reads `n` bytes that lie in one stripe. -/
def mainRead (s : State) (ctx die x n : Nat) : Ended (List Byte) × State :=
  match locate s ctx die x false false with
  | (.here d a _, s) =>
    match dramRead s d a n with
    | some bs => (.done bs, s)
    | none    => (badAccess die d, s)
  | (.accum a fs _, s) =>
    let words := (List.range ((x % 4 + n + 3) / 4)).map fun k => accumAt s die (a + 8 * k)
    if words.all Option.isSome then
      (.done (((words.flatMap fun j => leBytes 4 (accumWord (j.getD 0) fs).bits).drop (x % 4)).take n), s)
    else (.fail 2, s)
  | (.far m d, s) => (.far m d, s)
  | (.wait, s) => (.wait, s)
  | (.fail k, s) => (.fail k, s)
  | (.lost, s) => (.lost, s)
  | (.remote d k, s) => (.remote d k, s)

/-- How a write at all the places it goes to has gone: it is performed, it waits for a spare frame, a snapshot holds it (R393), or a die's
unit is uncorrectable. -/
inductive Wrote where
  | ok (s : State)
  | wait
  | held
  | bad (die : Nat)

/-- Changes the places a write goes to, the accessing die's and its mirror's, each held for a snapshot there (R393) and after its snapshot
mark (R394). -/
def changeAll (ctx page : Nat) (step : Option (Nat × Word)) (f : Nat → Nat → State → Option State) : List (Nat × Nat) → State → Wrote
  | [], s => .ok s
  | (d, a) :: rest, s =>
    if snapHolds s ctx d page step then .held
    else match breakMark ctx d page a s with
      | none => .wait
      | some s =>
        match f d a s with
        | none   => .bad d
        | some s => changeAll ctx page step f rest s

/-- Writes bytes at the places a write goes to. -/
def writeAll (ctx page : Nat) (step : Option (Nat × Word)) (bs : List Byte) (ps : List (Nat × Nat)) (s : State) : Wrote :=
  changeAll ctx page step (fun d a s => dramWrite s d a bs) ps s

/-- Writes some bytes of the aligned 16-byte unit at `a`, given by their offsets, as one write; none when the unit is uncorrectable
(R249, R406). -/
def dramCells (s : State) (die a : Nat) (cells : List Host.Cell) : Option State :=
  if (badIn (s.die die) a 16).isEmpty then
    some (s.modDie die fun d => { d with dram := msetAll d.dram (cells.map fun c => (a + c.1, c.2)) })
  else none

/-- Changes by `f` the places of an address that lies in one stripe; `step` is the kernel and issue step of R393. -/
def mainChange (s : State) (ctx die x : Nat) (f : Nat → Nat → State → Option State) (step : Option (Nat × Word)) : Ended Unit × State :=
  match locate s ctx die x true false with
  | (.here d a also, s') =>
    match changeAll ctx (x / 4096 * 4096) step f ((d, a) :: also) s' with
    | .wait  => (.wait, s)
    | .held  => (.held, s)
    | .bad e => (badAccess die e, s')
    | .ok s' => (.done (), s')
  | (.accum _ _ _, s) => (.fail 1, s)
  | (.far m d, s) => (.far m d, s)
  | (.wait, s) => (.wait, s)
  | (.fail k, s) => (.fail k, s)
  | (.lost, s) => (.lost, s)
  | (.remote d k, s) => (.remote d k, s)

/-- Writes bytes that lie in one stripe. -/
def mainWrite (s : State) (ctx die x : Nat) (bs : List Byte) (step : Option (Nat × Word)) : Ended Unit × State :=
  mainChange s ctx die x (fun d a s => dramWrite s d a bs) step

/-- Writes some bytes of one aligned 16-byte unit, given by their offsets, at one instant (R249). -/
def mainUnit (s : State) (ctx die x : Nat) (cells : List Host.Cell) (step : Option (Nat × Word)) : Ended Unit × State :=
  mainChange s ctx die x (fun d a s => dramCells s d a cells) step

/-- Whether the DRAM unit of 32 bytes a write goes to holds uncorrectable data (R406). -/
def unitBad (s : State) (ctx die x : Nat) : Bool :=
  match (locate s ctx die x true false).1 with
  | .here d a _ => !(badIn (s.die d) (a / 32 * 32) 32).isEmpty
  | _ => false

/-- Writes both halves of an aligned 32-byte unit as one write of the whole unit (R406); halves that lie in different
places are written one after the other. -/
def mainPair (s : State) (ctx die x : Nat) (bs : List Byte) (step : Option (Nat × Word)) : Ended Unit × State :=
  let apart := match mainWrite s ctx die x (bs.take 16) step with
    | (.done (), s) => mainWrite s ctx die (x + 16) (bs.drop 16) step
    | r => r
  match locate s ctx die x true false with
  | (.here d a also, s1) =>
    match locate s1 ctx die (x + 16) true false with
    | (.here d2 a2 also2, s2) =>
      if d2 = d && a2 = a + 16 && also2 = also.map fun y => (y.1, y.2 + 16) then
        match writeAll ctx (x / 4096 * 4096) step bs ((d, a) :: also) s2 with
        | .wait => (.wait, s)
        | .held => (.held, s)
        | .bad e => (badAccess die e, s2)
        | .ok s => (.done (), s)
      else apart
    | _ => apart
  | _ => apart

def orFpstat (ctx : Nat) (f : Flags) (s : State) : State := s.modCtx ctx fun c => { c with fpstat := c.fpstat ||| f }

/-- Changes one word at its port and returns the old one (R189, R193); `v` is what an FP add adds, for a PARTIAL page
(R334). A check that writes nothing gives `f` without a new value. -/
def mainRmw (s : State) (ctx die x : Nat) (f : Word → Option Word × Flags) (v : Option FVal) (step : Option (Nat × Word)) :
    Ended Word × State :=
  match locate s ctx die x true v.isSome with
  | (.here d a also, s') =>
    match dramRead s' d a 4 with
    | none => (badAccess die d, s')
    | some bs =>
      let old := natWord (leNat bs)
      match f old with
      | (none, fl) => (.done old, orFpstat ctx fl s')
      | (some new, fl) =>
        match writeAll ctx (x / 4096 * 4096) step (leBytes 4 new.toNat) ((d, a) :: also) s' with
        | .wait  => (.wait, s)
        | .held  => (.held, s)
        | .bad e => (badAccess die e, s')
        | .ok s' => (.done old, orFpstat ctx fl s')
  | (.accum a fs also, s') =>
    match accumAt s' die a with
    | none => (.fail 2, s')
    | some j =>
      let old := natWord (accumWord j fs).bits
      let (q, fl) := accumAdd (v.getD (.nan false)) fs
      match q with
      | none => (.done old, orFpstat ctx fl s')
      | some q =>
        match changeAll ctx (x / 4096 * 4096) step (fun d a s => addAt d a q s) ((die, a) :: also) s' with
        | .wait  => (.wait, s)
        | .held  => (.held, s)
        | .bad e => (badAccess die e, s')
        | .ok s' => (.done old, orFpstat ctx (fl ||| flagIf (addJ j q != j + q) flagOf) s')
  | (.far m d, s) => (.far m d, s)
  | (.wait, s) => (.wait, s)
  | (.fail k, s) => (.fail k, s)
  | (.lost, s) => (.lost, s)
  | (.remote d k, s) => (.remote d k, s)

/-! ### The order of held accesses (R330) -/

/-- Names of engine holders that stand for a context's or a queue's own engine, above every drawn name. -/
def engineBase : Nat := 2 ^ 64

/-- Whether a holder still waits: it exists, and its block is not saved (R333). -/
def holderLive (s : State) (h : Holder) : Bool :=
  match h with
  | .op i     => ((tget s.ops i).map fun o => !((o.block.map s.parked).getD false)).getD false
  | .copy i   => ((tget s.copies i).map fun c => !c.frozen).getD false
  | .tile i   => ((tget s.tops i).map fun t => !s.parked t.block).getD false
  | .engine i => (decide (engineBase ≤ i) && (if i < engineBase + 256 then s.dies.any fun d => (tget d.2.snaps (i - engineBase)).isSome
      else (s.queue (i - engineBase - 256)).st == .ready)) || (tget s.acts i).isSome || (tget s.kernels i).isSome || (tget s.shares i).isSome ||
      (tget s.blocks i).isSome || (tget s.runs i).isSome || 
      (s.dies.any fun d => (tget d.2.episodes i).isSome || (tget d.2.orphans i).isSome) || s.mod.transfers.any fun t => t.2.tag == [14, i]
  | .sched h _ => (tget s.shares h).isSome
  | .page 2 g _ => s.dies.any fun d => (tget d.2.gathers g).isSome
  | .page _ r _ => s.dies.any fun d => (tget d.2.reds r).isSome
  | .fetch w l => match s.thread? w l with
    | some t => t.st == .ready
    | none   => false
  | .lane w l => match s.warp? w with
    | some x => ((x.thread l).map Thread.live).getD false && !((x.block.map s.parked).getD false)
    | none   => false

/-- The page an address lies in, for the order of waiting (R330): 2 MiB under a leaf of that size. -/
def pageOf (s : State) (ctx die x : Nat) : Nat :=
  match cached (s.die die) ctx x with
  | some e => e.page
  | none => match leafAt s ctx die x with
    | .ok (_, _, n) => x / n * n
    | .error _ => x / 4096 * 4096

/-- Whether a write to a page cannot have the spare frames it needs: the page is copy-on-write, or marked and not drained, and the pool is
short of them (R342, R394). -/
def spareBlocked (s : State) (ctx die x : Nat) : Bool :=
  match leafOf s ctx die x with
  | (.ok p, s) =>
    ((pteState p == 0 || pteState p == 2) && (breakCow ctx die x p s).isNone) ||
    ((pteState p == 0 || pteState p == 2 || pteState p == 5) && (breakMark ctx die (x / 4096 * 4096) (frameAddr p x) s).isNone)
  | (.error _, _) => false

/-- Whether an access may go on: no other access has waited longer on its page (R330), a read apart from writes that wait for
spare frames (R342). -/
def heldTurn (s : State) (die ctx x : Nat) (write : Bool) (h : Holder) : Bool :=
  let page := pageOf s ctx die x
  match ((s.die die).held.filter fun e => e.ctx == ctx && e.page == page && holderLive s e.who &&
      (write || !(e.write && spareBlocked s ctx die x))).head? with
  | none   => true
  | some e => e.who == h

/-- An access begins to wait, or keeps its place. -/
def holdAccess (die ctx x : Nat) (write : Bool) (h : Holder) (s : State) : State :=
  let page := pageOf s ctx die x
  if (s.die die).held.any fun e => e.ctx == ctx && e.page == page && e.who == h then s
  else s.modDie die fun d => { d with held := (d.held.filter fun e => holderLive s e.who) ++ [⟨ctx, page, h, write⟩] }

/-- Whether an access waits on its page. -/
def isHeld (s : State) (die ctx x : Nat) (h : Holder) : Bool :=
  let page := pageOf s ctx die x
  (s.die die).held.any fun e => e.ctx == ctx && e.page == page && e.who == h

/-- An access that goes on leaves its place. -/
def freeAccess (die ctx x : Nat) (h : Holder) (s : State) : State :=
  let page := pageOf s ctx die x
  s.modDie die fun d => { d with held := d.held.filter fun e => !(e.ctx == ctx && e.page == page && e.who == h) }

/-! ### Accesses performed at other dies (R330, R339, R345) -/

/-- The dies an access of a REMOTE page goes to, one after another: its owner `d`, and the die that may forward it to (R339). -/
def ownerPath (s : State) (ctx x d : Nat) : List Nat :=
  match leafOf s ctx d x with
  | (.ok q, _) =>
    if pteState q = 1 then match peerOf s ctx d (ptePeer q) with
      | some (m', d') => if m' = s.mod.number then [d, d'] else [d]
      | none => [d]
    else [d]
  | (.error _, _) => [d]

/-- The dies an access goes to, one after another, before it is performed: the owner of a REMOTE page and the die it may forward to
(R339), the mirror of a write to an own stripe (R333); none for an access performed, or refused, on its own die. -/
def pathOf (s : State) (ctx die x : Nat) (write : Bool) : List Nat :=
  match leafOf s ctx die x with
  | (.error _, _) => []
  | (.ok p, _) =>
    if migrating s ctx die x || (write && !pteW p) then []
    else match pteState p with
      | 1 =>
        if pteMode p = 1 then []
        else match peerOf s ctx die (ptePeer p) with
          | none => []
          | some (m, d) =>
            if m != s.mod.number || d = die then [] else ownerPath s ctx x d
      | 2 | 5 =>
        if !write then []
        else match groupOf s ctx die (pteGroup p) with
          | none => []
          | some g => match g.mirrorOf (s.mod.number, die) (x % pageBytes p / stripeBytes p % g.n) with
            | some (m, d) => if m = s.mod.number && d != die then [d] else []
            | none => []
      | _ => []

/-- A counted access of a mode-2 page (R340). -/
def countRemote (s : State) (ctx die x : Nat) : State :=
  match leafOf s ctx die x with
  | (.ok p, _) =>
    if pteState p = 1 && pteMode p = 2 then match peerOf s ctx die (ptePeer p) with
      | some (m, d) => if m = s.mod.number then countAccess ctx die x d p s else s
      | none => s
    else s
  | (.error _, _) => s

/-- The name of the messages an access sends. -/
def accessTag (h : Holder) (write : Bool) (x : Nat) : List Nat :=
  let w := if write then 1 else 0
  match h with
  | .op i => [0, 0, i, 0, w, x]
  | .copy i => [0, 1, i, 0, w, x]
  | .tile i => [0, 2, i, 0, w, x]
  | .fetch i l => [0, 3, i, l, w, x]
  | .lane i l => [0, 5, i, l, w, x]
  | .sched i n => [0, 6, i, n, w, x]
  | .engine i => [0, 4, i, 0, w, x]
  | .page k i n => [0, 7 + k, i, n, w, x]

/-- Forgets the answers a holder has been given for some accesses, once it has done with them. -/
def dropAnswersOf (h : Holder) (p : Bool → Nat → Bool) (s : State) : State :=
  if s.mod.transfers.isEmpty then s
  else
    let base := (accessTag h false 0).take 4
    s.modMod fun m => { m with transfers := m.transfers.filter fun t =>
      !(t.2.tag.take 4 == base && t.2.tag.length == 7 && p (t.2.tag.getD 4 0 == 1) (t.2.tag.getD 5 0)) }

/-- Forgets every answer a holder has been given. -/
def dropAnswers (h : Holder) (s : State) : State := dropAnswersOf h (fun _ _ => true) s

/-- Forgets every message of a holder that is no more, or that starts anew. -/
def dropMessages (h : Holder) (s : State) : State :=
  let base := (accessTag h false 0).take 4
  s.modMod fun m => { m with transfers := m.transfers.filter fun t => t.2.tag.take 4 != base }

/-- Forgets everything a holder has asked for: its messages and its places at the page engines. -/
def forgetHolder (h : Holder) (s : State) : State :=
  dropMessages h { s with dies := tmap s.dies fun _ d => { d with held := d.held.filter fun e => e.who != h } }

/-- Whether an access of a holder is on its way or waits at the page engine of a die. -/
def holderWaits (s : State) (die : Nat) (h : Holder) : Bool :=
  ((s.die die).held.any fun e => e.who == h) || s.mod.transfers.any fun t => t.2.tag.take 4 == (accessTag h false 0).take 4

/-- Whether the request of an access has come to the last die of its path (R345-R348): it goes there over the mesh, from die to die.
`first` is done as it leaves. -/
def reach (tag : List Nat) (cls ctx die : Nat) (path : List Nat) (first : State → State) (s : State) : Ride × State :=
  let last := path.getLastD die
  match s.transfer? tag with
  | none =>
    if last = die then (.come, s)
    else match ride cls ctx die (path.headD die) tag [] s with
      | (.cut, s) => (.cut, s)
      | (_, s) => (.under, first s)
  | some (_, t) =>
    if t.at_ != t.dst then (.under, s)
    else if t.dst = last || last = die then (.come, s)
    else match ride cls ctx t.dst (if path.contains t.dst then last else path.headD last) tag [] (dropMessage tag s) with
      | (.cut, s) => (.cut, s)
      | (_, s) => (.under, s)

/-- The bytes an answer to an access carries: its data, or why it was refused (R339). -/
def answerBytes {α : Type} (enc : α → List Byte) (r : Ended α) : List Byte :=
  match r with
  | .done a => 0 :: enc a
  | .fail k => [1, BitVec.ofNat 8 k]
  | .lost => [2]
  | .remote d k => [3, BitVec.ofNat 8 d, BitVec.ofNat 8 k]
  | _ => []

/-- The answer some bytes carry. -/
def answerOf {α : Type} (dec : List Byte → α) (bs : List Byte) : Ended α :=
  match bs with
  | 1 :: k :: _ => .fail k.toNat
  | 2 :: _ => .lost
  | 3 :: d :: k :: _ => .remote d.toNat k.toNat
  | _ => .done (dec bs.tail)

/-- Performs `f` at the last die of a path, and brings its answer, or its refusal, back over the mesh. An answer is kept until the access's
holder has done with it (`dropAnswers`). -/
def overMesh {α : Type} (enc : α → List Byte) (dec : List Byte → α) (tag : List Nat) (cls ctx die : Nat) (path : List Nat)
    (first : State → State) (f : State → Ended α × State) (s : State) : Ended α × State :=
  let last := path.getLastD die
  match s.transfer? (tag ++ [1]) with
  | some (_, t) => if t.at_ = t.dst then (answerOf dec t.data, s) else (.wait, s)
  | none =>
    match reach tag cls ctx die path first s with
    | (.cut, s) => (.remote last 0, s)
    | (.under, s) => (.wait, s)
    | (.come, s) =>
      match f s with
      | (.wait, s') => (.wait, s')
      | (.held, s') => (.held, s')
      | (.far m d, s') => (.far m d, dropMessage tag s')
      | (r, s') =>
        if (s.transfer? tag).isNone then (r, s')
        else match ride cls ctx last die (tag ++ [1]) (answerBytes enc r) (dropMessage tag s') with
          | (.cut, s') => (.remote last 0, s')
          | (.come, s') => (r, s')
          | (.under, s') => (.wait, s')

/-! ### Turns (R330, R333, R396) -/

/-- Whether a holder's write is an FP addition, which a PARTIAL page permits (R334). -/
def fpAdds (s : State) (h : Holder) : Bool :=
  match h with
  | .op i => ((tget s.ops i).map fun o => match o.kind with
    | .atom 10 _ => true
    | _ => false).getD false
  | .tile i => ((tget s.tops i).map fun t => match t.kind with
    | .update upd _ _ _ _ => !upd
    | _ => false).getD false
  | _ => false

/-- The mirror in another module of what a write to an own stripe changes (R333). -/
def awayMirror (s : State) (h : Holder) (ctx die x : Nat) : Option (Nat × Nat) :=
  match leafOf s ctx die x with
  | (.ok p, _) =>
    if pteW p && (pteState p == 2 || (pteState p == 5 && fpAdds s h)) then
      ((groupOf s ctx die (pteGroup p)).bind fun g => g.mirrorOf (s.mod.number, die) (x % pageBytes p / stripeBytes p % g.n)).filter fun m =>
        m.1 != s.mod.number
    else none
  | (.error _, _) => none

/-- A write whose mirror lies in another module goes there in a frame before it is performed here: whether it may go on, its frame
acknowledged (R333; log entry 31). -/
def mirrorFirst (h : Holder) (ctx die x bytes : Nat) (s : State) : Bool × State :=
  match awayMirror s h ctx die x with
  | none => (true, s)
  | some (m, d) =>
    let tag := accessTag h true x ++ [2]
    match s.transfer? tag with
    | some (_, t) => (frameDone s (leNat (t.data.take 8)) (leNat (t.data.drop 8)), s)
    | none =>
      let (f, n, s) := sendData 2 die m d ctx (payloadsOf s.fresh bytes) s
      (false, { s with mod := { s.mod with transfers := tput s.mod.transfers s.fresh ⟨2, die, die, die, ctx, tag, leBytes 8 f ++ leBytes 8 n⟩ }
                       fresh := s.fresh + 1 })

/-- Whether a write may go on at a die: of the writes a snapshot has held there on its page, none that arrived earlier is left after the cut
(R396). -/
def snapTurn (s : State) (ctx die x : Nat) (h : Holder) : Bool :=
  match tget (s.die die).snaps ctx with
  | none => true
  | some sn => sn.st == .armed ||
    ((sn.queue.filter fun e => e.1 == x / 4096 * 4096 && holderLive s e.2).head?.map fun e => e.2 == h).getD true

/-- A write that a snapshot holds takes its place in the order of arrival. -/
def snapHold (ctx die x : Nat) (h : Holder) (s : State) : State :=
  s.modDie die fun d => { d with snaps := tmod d.snaps ctx fun sn =>
    if sn.st != .armed || sn.queue.contains (x / 4096 * 4096, h) then sn else { sn with queue := sn.queue ++ [(x / 4096 * 4096, h)] } }

/-- A write that has been performed leaves the order. -/
def snapLeave (ctx die x : Nat) (h : Holder) (s : State) : State :=
  if (tget (s.die die).snaps ctx).isNone then s
  else s.modDie die fun d => { d with snaps := tmod d.snaps ctx fun sn => { sn with queue := sn.queue.erase (x / 4096 * 4096, h) } }

/-- The kernel and issue step of what a holder does (R393); none for an engine that acts for no grid. -/
def holderStep (s : State) (h : Holder) : Option (Nat × Word) :=
  let share := fun (i : Nat) => (s.share? i).map fun x => (x.kern, x.done + 1)
  match h with
  | .op i => (tget s.ops i).bind fun o => (((o.block.bind s.block?).map Block.kern).or ((s.warp? o.warp).map Warp.kern)).map fun k => (k, o.step)
  | .copy i => (tget s.copies i).bind fun c =>
      (((c.block.bind s.block?).map Block.kern).or ((s.warp? c.warp).map Warp.kern)).map fun k => (k, c.step)
  | .tile i => (tget s.tops i).bind fun t => (s.block? t.block).map fun b => (b.kern, t.step)
  | .fetch w _ => (s.warp? w).bind fun x => share x.share
  | .engine i => (tget s.runs i).bind fun r => share r.share
  | _ => none

/-- The gathers an access has caused carry its step (R393). -/
def stampGathers (h : Holder) (die from_ : Nat) (s : State) : State :=
  if tany (s.die die).gathers fun k _ => decide (from_ ≤ k) then
    s.modDie die fun d => { d with gathers := tmap d.gathers fun k g => if from_ ≤ k then { g with step := holderStep s h } else g }
  else s

/-- An access at the die it has come to over the mesh, in its turn among those that wait on the page there (R330). -/
def inTurn {α : Type} (write : Bool) (h : Holder) (ctx die x : Nat) (f : State → Ended α × State) (s : State) : Ended α × State :=
  if !heldTurn s die ctx x write h || (write && !snapTurn s ctx die x h) then (.wait, holdAccess die ctx x write h s)
  else match f s with
    | (.wait, s) => (.wait, holdAccess die ctx x write h s)
    | (.held, s) => (.held, snapHold ctx die x h s)
    | (r, s) => (r, snapLeave ctx die x h (freeAccess die ctx x h s))

/-- Runs a main-memory access of an engine on a die, in its turn at the page (R330), at the die that holds the bytes (R345): it is held
while it must wait, and one for another module leaves as a frame once. -/
def engineAccess {α : Type} (enc : α → List Byte) (dec : List Byte → α) (write : Bool) (h : Holder) (ctx die x cls bytes : Nat)
    (f : State → Ended α × State) (s : State) : Ended α × State :=
  let tag := accessTag h write x
  let path := pathOf s ctx die x write
  if 2 ^ 57 ≤ x then (.fail 1, s)
  else if !heldTurn s die ctx x write h || (write && !snapTurn s ctx die x h) then (.wait, holdAccess die ctx x write h s)
  else
    let r := if write then mirrorFirst h ctx die x bytes s else (true, s)
    if !r.1 then (.wait, holdAccess die ctx x write h r.2)
    else match overMesh enc dec tag cls ctx die path (fun s => countRemote s ctx die x)
        (if path.isEmpty then f else inTurn write h ctx (path.getLastD die) x f) r.2 with
      | (.wait, t) =>
        (.wait, if (t.transfer? tag).isSome || (t.transfer? (tag ++ [1])).isSome then t
          else holdAccess die ctx x write h (stampGathers h die s.fresh t))
      | (.held, s) => (.wait, snapHold ctx die x h s)
      | (.far m d, s) =>
        if isHeld s die ctx x h then (.wait, s) else (.wait, holdAccess die ctx x write h (sendFrame cls die m d ctx bytes s).2)
      | (r, s) => (r, snapLeave ctx die x h (freeAccess die ctx x h (if write then dropMessage (tag ++ [2]) s else s)))

/-- An engine's read. -/
def readAccess (h : Holder) (ctx die x cls bytes : Nat) (f : State → Ended (List Byte) × State) (s : State) :
    Ended (List Byte) × State := engineAccess id id false h ctx die x cls bytes f s

/-- An engine's write. -/
def writeAccess (h : Holder) (ctx die x cls bytes : Nat) (f : State → Ended Unit × State) (s : State) : Ended Unit × State :=
  engineAccess (fun _ => []) (fun _ => ()) true h ctx die x cls bytes f s

/-- An engine's change of a word, which answers the old one. -/
def wordAccess (h : Holder) (ctx die x cls bytes : Nat) (f : State → Ended Word × State) (s : State) : Ended Word × State :=
  engineAccess (fun w => leBytes 4 w.toNat) (fun bs => natWord (leNat bs)) true h ctx die x cls bytes f s

/-- An access of an operation that makes several, each of them once: an answer is kept until the operation has been performed. -/
def onceAccess {α : Type} (enc : α → List Byte) (dec : List Byte → α) (write : Bool) (h : Holder) (ctx die x cls bytes : Nat)
    (f : State → Ended α × State) (s : State) : Ended α × State :=
  let tag := accessTag h write x ++ [1]
  match s.transfer? tag with
  | some (_, t) => if t.at_ = t.dst then (answerOf dec t.data, s) else (.wait, s)
  | none =>
    match engineAccess enc dec write h ctx die x cls bytes f s with
    | (.done a, s) =>
      if (s.transfer? tag).isSome then (.done a, s)
      else (.done a, { s with mod := { s.mod with transfers := tput s.mod.transfers s.fresh ⟨cls, die, die, die, ctx, tag, answerBytes enc (.done a)⟩ }
                              fresh := s.fresh + 1 })
    | r => r

/-- An access made alone: its answer is forgotten at once. -/
def alone {α : Type} (h : Holder) (r : Ended α × State) : Ended α × State :=
  match r with
  | (.wait, s) => (.wait, s)
  | (r, s) => (r, dropAnswers h s)

end Sys2Proof.Machine
end

