-- ==== Sys2Proof/Machine/Mem.lean ====
section
/-! DEFINITION. Loads and stores of the shared window, the stack and the scratchpad window (spec 07_block R163-R165,
08_phase R175-R177), the outstanding-transaction table (R185, R186), the region tracker's accesses (12_region R220-R222),
and the steps that perform and land them. -/

namespace Sys2Proof.Machine

/-! ### The outstanding-transaction table (R185, R186) -/

/-- Entries of a core's table in use. -/
def tableUsed (s : State) (die core : Nat) : Nat :=
  ((s.ops.filterMap fun o => match o.2.entry, s.warp? o.2.warp with
    | some e, some w => if w.die == die && w.core == core then some (o.2.word, e) else none
    | _, _ => none).dedup).length

/-- The words of a core that wait for entries, oldest first. -/
def tableWaiters (s : State) (b : Bundle) : List (Nat × Pipe) := waitersOf s (s.core b.warp.die b.warp.core).tableQ 2

/-- The bundle's word waits for table entries (R186). -/
def waitTable (b : Bundle) (s : State) : State := waitGrant b (tableWaiters s b) (fun q c => { c with tableQ := q }) s

/-- Whether a word that needs `n` entries may take them now. -/
def tableFree (s : State) (b : Bundle) (n : Nat) : Bool :=
  decide (tableUsed s b.warp.die b.warp.core + n ≤ 256) && myTurn b (tableWaiters s b)

/-! ### Windows and sidings (R161, R173, R177, R236, R237) -/

def State.launch? (s : State) (w : Warp) : Option Launch := (s.kernel? w.kern).map Kernel.launch

/-- The limit E of a space for a warp: S, D or K; an unattached warp has no window (R163, R175). -/
def limitOf (s : State) (w : Warp) (sp : Space) : Nat :=
  match sp with
  | .shared  => if w.block.isSome then ((s.launch? w).map Launch.shared).getD 0 else 0
  | .scratch => if w.block.isSome then ((s.launch? w).map Launch.scratch).getD 0 else 0
  | .stack   => ((s.launch? w).map Launch.stack).getD 0
  | .main    => 2 ^ 57

/-- Whether a block may write, or read, a slot (index `i`) of a ring (R237). -/
def slotHeld (q : Buffer) (write : Bool) (i : Nat) : Bool :=
  let n := q.slots
  let within := fun (from_ mark : Word) =>
    (List.range (min n (mark - from_).toNat)).any fun k => (from_ + BitVec.ofNat 32 k).toNat % n == i
  let wr := !q.psd && within q.p (q.rl + BitVec.ofNat 32 n)
  if write then wr else wr || (!q.csd && within q.c q.aq)

/-- Whether a buffer lets the block's threads access `n` bytes at `a` (R236, R237). -/
def bufferOk (q : Buffer) (a n : Nat) (write : Bool) : Bool :=
  match q.kind with
  | .none  => true
  | .plain => !(decide (a < q.second + q.size) && decide (q.second < a + n))
  | .ring  => (List.range q.slots).all fun i =>
      let lo := q.base + i * q.size
      !(decide (a < lo + q.size) && decide (lo < a + n)) || slotHeld q write i

/-- Whether every buffer of a block lets its threads access `n` bytes of a window (R177, R234). -/
def slotsOk (b : Block) (die : Bool) (a n : Nat) (write : Bool) : Bool :=
  b.bufs.all fun q => q.die != die || bufferOk q a n write

/-- The block of a warp. -/
def State.warpBlock (s : State) (w : Warp) : Option Block := w.block.bind s.block?

/-- The 64-byte lines a block's publish buffer holds (R177). -/
def pubLines (s : State) (w : Warp) : List Nat := (((s.warpBlock w).map fun x => x.pub.map fun c => c.1 / 64).getD []).dedup

/-- Why a lane's access is not made: a trap with its cause, or a lane fault. -/
inductive Denied where
  | trap (cause : Nat)
  | fault
deriving DecidableEq, Repr

/-- The checks of R163, R175 and R177 on one lane's access; `ls` are the lines the publish buffer holds when the lane executes the
word, with those the lower lanes of the word need (log entry 32). -/
def accessDenied (s : State) (w : Warp) (sp : Space) (a n : Nat) (write region : Bool) (ls : List Nat) : Option Denied :=
  if a % n != 0 then some (.trap 0x07)
  else if limitOf s w sp < a + n then some (if sp == .stack then .trap 0x0B else .fault)
  else if sp == .stack then none
  else match s.warpBlock w with
    | none   => some .fault
    | some b =>
      if !slotsOk b (sp == .scratch) a n write then some .fault
      else if sp == .scratch && write && !region && decide (4096 ≤ ls.length) && !ls.contains (a / 64) then some .fault
      else none

/-- The checks of a word's lanes, in ascending order. -/
def deniedLanes (s : State) (w : Warp) (sp : Space) (n : Nat) (write region : Bool) : List (Nat × Nat) → List Nat → Table Denied
  | [], _ => []
  | (l, a) :: rest, ls =>
    match accessDenied s w sp a n write region ls with
    | some d => (l, d) :: deniedLanes s w sp n write region rest ls
    | none => deniedLanes s w sp n write region rest (if ls.contains (a / 64) then ls else a / 64 :: ls)

/-! ### Issuing operations -/

/-- An operation of one lane of the bundle's word, before it is named. -/
def newOp (s : State) (b : Bundle) (l : Nat) (sp : Space) (k : OpKind) (a n : Nat) : MemOp :=
  { ctx := b.warp.ctx, warp := b.w, block := b.warp.block, lane := l, word := s.fresh, space := sp, kind := k, addr := a, size := n
    data := 0, cmp := 0, dst := 512, ndst := 0, win := false, region := false, st := .sent, entry := some (a / 64)
    xfer := none, port := b.warp.die, step := issueStep s b.warp.share, time := (s.die b.warp.die).time, act := none
    spot := none, sfs := none }

/-- Adds operations in order, each under its own name. -/
def addOps (ops : List MemOp) (s : State) : State :=
  ops.foldl (fun s o => { s with ops := tput s.ops s.fresh o, fresh := s.fresh + 1 }) s

/-- Offset of a thread's stack byte among its warp's (R164). -/
def warpOffset (s : State) (w : Warp) (l a : Nat) : Nat := ((s.launch? w).map Launch.stack).getD 0 * l + a

/-- Offset of a thread's stack byte in its block's run (R164). -/
def stackOffset (s : State) (w : Warp) (l a : Nat) : Nat :=
  ((s.launch? w).map Launch.stack).getD 0 * (w.width * w.index + l) + a

/-- Takes the lanes with denied accesses out of a word: traps and lane faults (R163, R177). -/
def denyLanes (b : Bundle) (m : Lanes) (addr : Nat → Nat) (deny : Nat → Option Denied) (s : State) : Lanes × State :=
  let of := fun (p : Option Denied → Bool) => laneFilter b.warp.width m fun l => p (deny l)
  let mis := of (· == some (.trap 0x07))
  let ovf := of (· == some (.trap 0x0B))
  let off := of (· == some .fault)
  let s := trapLanes b.w mis b.at_ 0x07 addr (fun _ => 0) s
  let s := trapLanes b.w ovf b.at_ 0x0B addr (fun _ => 0) s
  (m &&& ~~~ (mis ||| ovf ||| off), laneFault b.w off s)

/-- The address of a format M word in a thread (R44, R163). -/
def fmtMAddr (o : FmtM) (t : Thread) : Nat := memAddr (t.val o.a o.za) o.off

/-- A load's sign (R163). -/
def signedSize (z : BitVec 3) : Bool := z == 5 || z == 6

/-- LDB, STB, LDD, STD, LDK and STK (R163, R175, R220): table entries, operands, then each lane's checks; the lanes that
pass send their operations, a load marking its destination empty. The entries are those of the lanes whose address can be
read and whose access is made (R185, R186). -/
def memWord (i : Instr) (o : FmtM) (sp : Space) (store : Bool) (s : State) : Outcome :=
  runWord i (fun b m s =>
    let n := sizeBytes o.size
    let rs := regRange o.d.toNat (sizeRegs o.size)
    let region := sp == .scratch && b.warp.regionLive
    let addr := fun l => ((b.warp.thread l).map (fmtMAddr o)).getD 0
    let line := fun l => if sp == .stack then stackOffset s b.warp l (addr l) / 64 else addr l / 64
    let full := (laneList b.warp.width m).filter fun l =>
      ((b.warp.thread l).map fun t => !(src o.a 1 o.ea o.za).any fun x => t.anyEmpty x.regs).getD false
    let denied := deniedLanes s b.warp sp n store region (full.map fun l => (l, addr l)) (pubLines s b.warp)
    let needs := ((full.filter fun l => (tget denied l).isNone).map line).dedup.length
    if m = 0 then finishWord b s
    else if needs != 0 && !tableFree s b needs then waitTable b s
    else withOperands (src o.a 1 o.ea o.za) [] (fun b m s =>
      let (ok, s) := denyLanes b m addr (tget denied) s
      let ls := laneList b.warp.width ok
      if ls.any fun l => ((b.warp.thread l).map fun t => t.anyEmpty rs).getD false then blockWord b s
      else if (s.warp? b.w).isNone then s
      else
        -- a lane fault of this word may have aborted its region: the other lanes' accesses were the region's (R225)
        let gone := region && !((s.warp? b.w).map Warp.regionLive).getD false
        let ops := if store && gone then [] else ls.map fun l =>
          { newOp s b l sp (if store then .store else .load (signedSize o.size)) (addr l) n with
            data := if store then (((b.warp.thread l).map fun t => t.multi o.d.toNat (sizeRegs o.size)).getD 0) else 0
            dst := o.d.toNat, ndst := if store then 0 else sizeRegs o.size
            win := ((b.warp.thread l).map fun t => t.inWin o.d.toNat).getD false
            region := region, st := if gone then .read 0 else .sent, entry := some (line l) }
        finishWord b (addOps ops (if store then s else s.mapLanes b.w ok fun _ t => t.empty rs))) b m s) s

/-- LDB (R163). -/
def execLdb (o : FmtM) (s : State) : Outcome := memWord (.ldb o) o .shared false s
/-- STB (R163). -/
def execStb (o : FmtM) (s : State) : Outcome := memWord (.stb o) o .shared true s
/-- LDD (R175). -/
def execLdd (o : FmtM) (s : State) : Outcome := memWord (.ldd o) o .scratch false s
/-- STD (R175). -/
def execStd (o : FmtM) (s : State) : Outcome := memWord (.std o) o .scratch true s
/-- LDK (R163). -/
def execLdk (o : FmtM) (s : State) : Outcome := memWord (.ldk o) o .stack false s
/-- STK (R163). -/
def execStk (o : FmtM) (s : State) : Outcome := memWord (.stk o) o .stack true s

/-! ### Order among a thread's operations (R165, R176, R195) -/

/-- Whether an operation has been performed. -/
def MemOp.performed (o : MemOp) : Bool :=
  match o.st with
  | .read _ => true
  | .sleeping _ => true
  | _ => false

/-- A port's order class; none where R165, R176 and R195 order nothing. -/
def orderClass (o : MemOp) : Option Nat :=
  match o.space, o.kind with
  | _, .regq         => none
  | .shared, _       => some 0
  | .stack, _        => some 1
  | .scratch, .load _ | .scratch, .store => some (if o.region then 3 else 2)
  | .scratch, _      => some 4
  | .main, _         => some 5

/-- The die whose DRAM holds an operation's location, as the translation now gives it (R189). -/
def placeOf (s : State) (o : MemOp) : Option Nat :=
  match (locate s o.ctx o.port o.addr true true).1 with
  | .here d _ _ => some d
  | .accum _ _ _ => some o.port
  | .far m d    => some (64 * m + 64 + d)
  | _           => none

/-- Whether an operation has left for another module, whose flow keeps the order (R352). -/
def sentFar (s : State) (o : MemOp) : Bool := (o.xfer.bind fun f => tget s.mod.flows f).isSome

/-- The word of a space an atomic changes, when the translation answers: the die and address of a main-memory word, or of the J a word
of a PARTIAL page stands in (R334). -/
def wordOf (s : State) (o : MemOp) : Nat × Nat :=
  if o.space != .main then (o.block.getD 0, o.addr)
  else match (locate s o.ctx o.port o.addr true true).1 with
    | .here d a _ => (d, a)
    | .accum a _ _ => (2 ^ 64 + o.port, a)
    | _ => (2 ^ 65, o.addr)

/-- Whether two lanes of one word change one location: they do so in ascending order (R193). -/
def sameWord (s : State) (x o : MemOp) : Bool :=
  x.word == o.word && x.warp == o.warp && decide (x.lane < o.lane) && x.space == o.space &&
  (match o.kind with
    | .atom _ _ | .waitv _ | .note _ => x.addr == o.addr || (o.space == .main && wordOf s x == wordOf s o)
    | _ => false)

/-- Whether an earlier operation of the thread, or a lower lane of the word, must be performed first. -/
def mustFollow (s : State) (id : Nat) (o : MemOp) : Bool :=
  s.ops.any fun x =>
    !x.2.performed && (sameWord s x.2 o ||
    decide (x.1 < id) && x.2.warp == o.warp && x.2.lane == o.lane &&
    (orderClass o).isSome && orderClass x.2 == orderClass o &&
    (o.space != .main || (match placeOf s x.2, placeOf s o with
      | some a, some b => a == b && !(sentFar s x.2 && decide (64 ≤ b))
      | _, _ => true)))

/-! ### The region tracker (R220-R222, R229) -/

/-- The region of a warp, with its die. -/
def warpRegion (s : State) (w : Nat) : Option (Nat × Region) :=
  (s.warp? w).bind fun x => ((s.die x.die).regions.find? fun r => r.warp == w).map fun r => (x.die, r)

/-- The level of a slot (R221): `fuel` bounds the longest path. -/
def levelOf (es : List Edge) : Nat → Nat → Nat
  | 0, _ => 1
  | n + 1, k => 1 + ((es.filter fun e => e.to_ == k).map fun e => levelOf es n e.from_).foldl max 0

/-- The slots that reach `k` along edges. -/
def before (es : List Edge) : Nat → List Nat → List Nat
  | 0, ks => ks
  | n + 1, ks => before es n (ks ++ ((es.filter fun e => ks.contains e.to_ && !ks.contains e.from_).map Edge.from_).dedup)

/-- The slots reachable from `k`. -/
def after_ (es : List Edge) : Nat → List Nat → List Nat
  | 0, ks => ks
  | n + 1, ks => after_ es n (ks ++ ((es.filter fun e => ks.contains e.from_ && !ks.contains e.to_).map Edge.to_).dedup)

/-- The cycle a new edge `q → k` would close: the slots on paths from `k` to `q`. -/
def cycleOf (es : List Edge) (q k : Nat) : List Nat :=
  let up := before es 64 [q]
  (after_ es 64 [k]).filter up.contains

/-- The youngest of some regions: the largest begin stamp, stamps compared as R217 gives. -/
def youngest (d : Die) (ks : List Nat) : Option Region :=
  (d.regions.filter fun r => ks.contains r.slot).foldl (fun acc r => match acc with
    | none   => some r
    | some a => if passedRound r.stamp a.stamp then some r else acc) none

/-- What a region access may do next. -/
inductive Tracked where
  | go
  | stall
  | capacity
  | cycle (slot : Nat)   -- the slot that aborts
deriving DecidableEq, Repr

/-- The writer chain of a granule (R220). -/
def chainOf (d : Die) (share g : Nat) : List Nat :=
  ((d.chains.find? fun c => c.1 == share && c.2.1 == g).map fun c => c.2.2).getD []

/-- The slot of the region that forwards the byte at `a` to a read of region `r`: none for `r`'s own writes and for home (R220). -/
def forwarder (d : Die) (r : Region) (a : Nat) : Option Nat :=
  if (tget r.writes a).isSome then none
  else (chainOf d r.share (a / 32)).reverse.find? fun k => d.regions.any fun q => q.slot == k && (tget q.writes a).isSome

/-- The edges an access of region `r` to `n` bytes at `a` records (R220). A read records a forward edge from the last region of the chain,
as the table gives, and from each region whose uncommitted bytes it takes, so that a region it took data from never aborts without it
(R227; log entry 33). -/
def newEdges (d : Die) (r : Region) (a n : Nat) (write : Bool) : List Edge :=
  let g := a / 32
  let es := if write then
      (d.regions.filter fun q => q.slot != r.slot && q.share == r.share && (q.reads.contains g || q.writeG.contains g)).map
        fun q => (⟨q.slot, r.slot, false⟩ : Edge)
    else ((((chainOf d r.share g).getLast?.toList ++ (List.range n).filterMap fun k => forwarder d r (a + k)).dedup).filter (· != r.slot)).map
        fun q => (⟨q, r.slot, true⟩ : Edge)
  es.filter fun e => !(d.edges.any fun x => x.from_ == e.from_ && x.to_ == e.to_ && (x.fwd || !e.fwd))

/-- The fate of an access (R221, R222, R229). The limits of the sets come before cycles and levels, an order no rule gives, and when its
edges close several cycles at once, the youngest over all paths of the first such edge aborts (log entry 33). -/
def trackAccess (d : Die) (r : Region) (a n : Nat) (write : Bool) : Tracked :=
  let g := a / 32
  let es := newEdges d r a n write
  let full := if write then !r.writeG.contains g && decide (256 ≤ r.writeG.length)
    else !r.reads.contains g && decide (1024 ≤ r.reads.length)
  let cyc := (es.map fun e => cycleOf d.edges e.from_ e.to_).find? fun c => !c.isEmpty
  if full then .capacity
  else match cyc with
    | some c => match youngest d c with
      | some y => .cycle y.slot
      | none   => .stall
    | none =>
      if es.any fun e => decide (5 ≤ 1 + levelOf d.edges 8 e.from_) then .stall else .go

/-- The bytes a region reads (R220): its own writes, else the latest along the chain, else home. -/
def regionByte (d : Die) (h : Share) (r : Region) (a : Nat) : Byte :=
  let along := (forwarder d r a).bind fun k => (d.regions.find? fun q => q.slot == k).bind fun q => tget q.writes a
  ((tget r.writes a).or along).getD (mget h.home a)

/-- Records an access of a region (R220). An edge already there becomes a forward edge when a later read forwards along it (log
entry 33). -/
def recordAccess (d : Die) (r : Region) (a n : Nat) (cells : List Host.Cell) (write : Bool) : Die :=
  let g := a / 32
  let r' := if write then
      { r with writeG := if r.writeG.contains g then r.writeG else r.writeG ++ [g]
               writes := cells.foldl (fun m c => tput m c.1 c.2) r.writes }
    else { r with reads := if r.reads.contains g then r.reads else r.reads ++ [g] }
  let es := newEdges d r a n write
  let merged := d.edges.filter fun x => !(es.any fun e => e.from_ == x.from_ && e.to_ == x.to_)
  let chains := if write && !(chainOf d r.share g).contains r.slot then
      if d.chains.any fun c => c.1 == r.share && c.2.1 == g then
        d.chains.map fun c => if c.1 = r.share && c.2.1 == g then (c.1, c.2.1, c.2.2 ++ [r.slot]) else c
      else d.chains ++ [(r.share, g, [r.slot])]
    else d.chains
  { d with regions := d.regions.map fun q => if q.slot = r.slot then r' else q, edges := merged ++ es, chains := chains }

/-- One region access at the tracker: its value when it is performed, none when it stalls or the region is gone. A cycle
aborts its youngest region and the access is tried again (R222). -/
def regionAccess (w : Nat) (o : MemOp) : Nat → State → Option Nat × State
  | 0, s => (none, s)
  | fuel + 1, s =>
    match warpRegion s w with
    | none => (none, s)
    | some (die, r) =>
      let d := s.die die
      let write := o.kind == .store
      match trackAccess d r o.addr o.size write with
      | .capacity => (none, abortSlots die 3 [r.slot] s)
      | .stall => (none, s)
      | .cycle k => regionAccess w o fuel (abortSlots die 1 [k] s)
      | .go =>
        let bytes := match s.share? r.share with
          | some h => (List.range o.size).map fun k => regionByte d h r (o.addr + k)
          | none   => []
        (some (leNat bytes), s.setDie die (recordAccess d r o.addr o.size (cellsAt o.addr (leBytes o.size o.data)) write))

/-! ### Performing loads and stores (R165, R176, R164) -/

/-- The byte an LDD of a block returns (R180). -/
def viewByte (b : Block) (a : Nat) : Byte := (tget b.pub a).getD (mget b.view a)

/-! ### The stack and its cache (R14, R164) -/

/-- Lines of a core's stack cache: 32 KiB (R14). -/
def stackLines : Nat := 512

/-- A stack operation's place: its block, the block's run, and its offset there; none for a warp attached to no block, whose stack
lies at no place in main memory and passes by the cache (log entry 34). -/
def stackPlace (s : State) (o : MemOp) : Option (Nat × Nat × Nat) :=
  match s.warp? o.warp with
  | none => none
  | some x => match o.block with
    | none => none
    | some b => ((s.block? b).bind Block.stkAt).map fun at_ => (b, at_, stackOffset s x o.lane o.addr)

/-- A stack-cache fill or write-back that fails ends the context with reason STACK (R164, R319). -/
def stackEnd (ctx die addr kind : Nat) (s : State) : State :=
  endContext ctx 0x0B (causeEngine die addr 0) (logViolation ctx addr kind 7 die s)

/-- Why the stack region may not be read at an address: the translation forbids it, the page is not LOCAL, or its data is
uncorrectable (R164). -/
def stackFault (s : State) (ctx die a n : Nat) : Option Nat :=
  match leafOf s ctx die a with
  | (.error k, _) => some k
  | (.ok p, _) =>
    if pteState p != 0 then some 1
    else if (badIn (s.die die) (frameAddr p a) n).isEmpty then none else some 2

/-- The bytes the warps of a block have written in a line of its run, by offset in the run: those of ended warps first. -/
def lineBytes (s : State) (b line : Nat) : List (Nat × Byte) :=
  (((s.block? b).map Block.stkOld).getD []).filter (fun e => e.1 / 64 == line) ++
  (s.blockWarps b).flatMap fun x =>
    let base := stackOffset s x.2 0 0
    (x.2.stk.map fun e => (base + e.1, e.2)).filter fun e => e.1 / 64 == line

/-- Writes stack bytes back to the run (R164), with the issue step of the block's die share (R393): none while one waits, else the kind and
address of a failure, if one fails. -/
def writeBack (ctx die at_ : Nat) (step : Option (Nat × Word)) : List (Nat × Byte) → State → Option (Option (Nat × Nat)) × State
  | [], s => (some none, s)
  | (o, b) :: rest, s =>
    match stackFault s ctx die (at_ + o) 1 with
    | some k => (some (some (k, at_ + o)), s)
    | none => match mainWrite s ctx die (at_ + o) [b] step with
      | (.done (), s) => writeBack ctx die at_ step rest s
      | (.fail k, s) => (some (some (k, at_ + o)), s)
      | (_, s) => (none, s)

/-- A line leaves a core's cache, written back when it is dirty: false while it waits, or when the context has ended. -/
def evictLine (die core : Nat) (l : StackLine) (s : State) : Bool × State :=
  let drop := fun (s : State) => s.modCore die core fun c => { c with lines := c.lines.filter fun x => !(x.block == l.block && x.line == l.line) }
  match s.block? l.block with
  | none => (true, drop s)
  | some b =>
    if !l.dirty then (true, drop s)
    else match writeBack b.ctx die (b.stkAt.getD 0) (some (b.kern, issueStep s b.share)) (lineBytes s l.block l.line) s with
      | (some none, s) => (true, drop s)
      | (some (some (k, a)), s) => (false, stackEnd b.ctx die a k s)
      | (none, s) => (false, s)

/-- Lines leave a full cache, some line first, until one has room: false while one waits, or when the context has ended. -/
def makeRoom (die core : Nat) : Nat → State → Bool × State
  | 0, s => (true, s)
  | n + 1, s =>
    let ls := (s.core die core).lines
    if ls.length < stackLines then (true, s)
    else match ls[Config.choice s.fresh % ls.length]? with
      | none => (true, s)
      | some l => match evictLine die core l s.bump with
        | (true, s) => makeRoom die core n s
        | r => r

/-- The line of a stack access comes into its core's cache, and is dirty after a store (R164): a miss fills it from the run, after
the eviction of some line when the cache is full. False while it waits, or when the context has ended. -/
def touchLine (ctx die core b at_ off : Nat) (store : Bool) (s : State) : Bool × State :=
  let ls := (s.core die core).lines
  let same := fun (x : StackLine) => x.block == b && x.line == off / 64
  if ls.any same then
    (true, s.modCore die core fun c => { c with lines := c.lines.map fun x => if same x then { x with dirty := x.dirty || store } else x })
  else match stackFault s ctx die (at_ + off / 64 * 64) 64 with
    | some k => (false, stackEnd ctx die (at_ + off / 64 * 64) k s)
    | none =>
      let (ok, s) := makeRoom die core (ls.length + 1) s
      if ok then (true, s.modCore die core fun c => { c with lines := c.lines ++ [⟨b, off / 64, store⟩] }) else (false, s)

/-- A stack access reaches its bytes: at once for a warp that is attached to no block. -/
def stackReady (o : MemOp) (s : State) : Bool × State :=
  match stackPlace s o, s.warp? o.warp with
  | some (b, at_, off), some x => touchLine o.ctx x.die x.core b at_ off (o.kind == .store) s
  | _, _ => (true, s)

/-- A byte of a thread's stack: the one written last; one that was never written reads 0 or what an earlier warp of the context left
there (R164), as a free choice drawn from `k`. The stack of a warp attached to no block lies nowhere that the spec says, so what an
earlier warp left there is any byte one has left (log entry 34). -/
def stackByte (s : State) (x : Warp) (o : MemOp) (k i : Nat) : Byte :=
  match tget x.stk (warpOffset s x o.lane (o.addr + i)) with
  | some b => b
  | none => match stackPlace s o with
    | some (_, at_, off) => if Config.bit k then tgetD (s.ctx o.ctx).left (2 ^ 57 * x.die + at_ + off + i) 0 else 0
    | none =>
      let vs := (s.ctx o.ctx).left.map Prod.snd
      if Config.bit k then vs.getD (Config.choice k % vs.length) 0 else 0

/-- The value a load reads, and the state after it. -/
def performLoad (o : MemOp) (s : State) : Option Nat × State :=
  match o.space, o.block with
  | .scratch, some b =>
    if o.region then regionAccess o.warp o 65 s
    else (some (leNat ((List.range o.size).map fun k => ((s.block? b).map fun x => viewByte x (o.addr + k)).getD 0)), s)
  | .shared, some b => (some (((s.block? b).map fun x => mread x.mem o.addr o.size).getD 0), s)
  | .stack, _ =>
    match stackReady o s with
    | (false, s) => (none, s)
    | (true, s) => match s.warp? o.warp with
      | none => (none, s)
      | some x => (some (leNat ((List.range o.size).map fun i => stackByte s x o (s.fresh + i) i)), { s with fresh := s.fresh + o.size })
  | _, _ => (none, s)

/-- A store reaches the bytes of its thread's stack; those of a warp that has ended stay the run's (R164). -/
def stackWrite (o : MemOp) (s : State) : State :=
  let put := fun (a : Nat) (t : Table Byte) => (cellsAt a (leBytes o.size o.data)).foldl (fun t c => tput t c.1 c.2) t
  match s.warp? o.warp, stackPlace s o with
  | some x, some (b, _, off) =>
    if x.block.isNone then s.modBlock b fun y => { y with stkOld := put off y.stkOld }
    else s.setWarp o.warp { x with stk := put (warpOffset s x o.lane o.addr) x.stk }
  | some x, none => s.setWarp o.warp { x with stk := put (warpOffset s x o.lane o.addr) x.stk }
  | none, _ => s

/-- A store is performed (R165, R176); false while it must wait. -/
def performStore (o : MemOp) (s : State) : Bool × State :=
  let cells := cellsAt o.addr (leBytes o.size o.data)
  match o.space, o.block with
  | .scratch, some b =>
    if o.region then let r := regionAccess o.warp o 65 s; (r.1.isSome, r.2)
    else (true, s.modBlock b fun x => { x with pub := cells.foldl (fun p c => tput p c.1 c.2) x.pub })
  | .shared, some b => (true, s.modBlock b fun x => { x with mem := msetAll x.mem cells })
  | .stack, _ =>
    match stackReady o s with
    | (false, s) => (false, s)
    | (true, s) => (true, stackWrite o s)
  | _, _ => (true, s)

/-- An operation's entry frees: it leaves the table, and its warp with it when nothing else is left (R136, R185). -/
def dropOp (id : Nat) (s : State) : State :=
  match tget s.ops id with
  | none   => s
  | some o => reapWarp o.warp { s with ops := tdel s.ops id }

/-- A load's registers from its bytes (R163). -/
def loadValue (o : MemOp) (v : Nat) : Nat :=
  match o.kind with
  | .load true => if 2 ^ (8 * o.size - 1) ≤ v then v + 2 ^ 32 - 2 ^ (8 * o.size) else v
  | _ => v

/-- Writes an operation's result and, for WAITV.tmo, its predicate in the same instant (R97, R197). -/
def landThread (o : MemOp) (v : Nat) (t : Thread) : Thread :=
  let t := (List.range o.ndst).foldl (fun t k => t.land o.win (o.dst + k) ⟨natWord (loadValue o v / 2 ^ (32 * k)), true⟩) t
  match o.kind with
  | .waitv (some (_, p)) => t.setPred p (decide (2 ^ 32 ≤ v))
  | _ => t

/-- A result on its way lands. -/
def landOp (id : Nat) (s : State) : State :=
  match tget s.ops id with
  | none => s
  | some o =>
    match o.st with
    | .read v => dropOp id (if 512 ≤ o.dst then s else s.modThread o.warp o.lane (landThread o v))
    | _ => s

def setOp (id : Nat) (f : MemOp → MemOp) (s : State) : State := { s with ops := tmod s.ops id f }

/-- A region access that the level limit stalls (R221). -/
def stallOp (id : Nat) (s : State) : State :=
  setOp id (fun o => if o.region && o.st == .sent then { o with st := .noroom } else o) s

/-! ### The region query (R232) -/

/-- The region status word (R232). A predecessor that gains one can lift a level above 4, where R232 gives the field of two bits no value:
it then holds the level's low bits (log entry 33). -/
def regionWord (s : State) (w : Nat) : Word :=
  match s.warp? w with
  | none => 0
  | some x =>
    let tail := x.reason * 2 ^ 24 + min x.aborts 15 * 2 ^ 20
    match (if x.regionLive then warpRegion s w else none) with
    | none => natWord tail
    | some (die, r) =>
      natWord (2 ^ 31 + (if r.excl then 2 ^ 30 else 0) + (levelOf (s.die die).edges 8 r.slot - 1) % 4 * 2 ^ 28 + tail +
        r.reads.length * 2 ^ 9 + r.writeG.length)

/-- The table entry of an operation within its word (R185). -/
def MemOp.key (o : MemOp) : Nat :=
  match o.space, o.kind with
  | .main, .atom _ _ => o.lane
  | _, _ => o.addr / 64

/-- An operation withdrawn by a save and issued again takes an entry first, in its turn among the words that wait (R186, R199); none
while it may not go on: its block is PARKED, or the table is full (R187). -/
def regain (id : Nat) (o : MemOp) (s : State) : Option State :=
  if (o.block.map s.parked).getD false then none
  else if o.entry.isSome || o.kind == .regq || o.st != .sent then some s
  else match s.warp? o.warp with
    | some w =>
      let q := waitersOf s (s.core w.die w.core).tableQ 2
      if tableUsed s w.die w.core < 256 && (q.isEmpty || q.head? == some (id, .a)) then some (setOp id (fun o => { o with entry := some o.key }) s) else none
    | none => none

/-- A load is performed at its bank or tracker. -/
def readOp (id : Nat) (s : State) : State :=
  match tget s.ops id with
  | none => s
  | some o =>
    if o.performed || mustFollow s id o then s
    else match regain id o s with
    | none => s
    | some s =>
      match o.kind with
      | .regq => setOp id (fun o => { o with st := .read (regionWord s o.warp).toNat }) s
      | .load _ =>
        match performLoad o s with
        | (some v, s) => setOp id (fun o => { o with st := .read v }) s
        | (none, s) => stallOp id s
      | _ => s

/-- LOAD_RETURN (R165): a load reads its bank and, with `land`, its result lands. -/
def execLoadReturn (op : Nat) (land : Bool) (s : State) : Outcome :=
  match tget s.ops op with
  | none => .next s
  | some o =>
    match o.kind with
    | .load _ | .regq =>
      let s := checkRege o.warp (readOp op s)
      .next (if land then landOp op s else s)
    | _ => .next s

/-- A store is performed and acknowledged. -/
def ackOp (id : Nat) (s : State) : State :=
  match tget s.ops id with
  | none => s
  | some o =>
    if o.kind == .store && !mustFollow s id o then
      match regain id o s with
      | none => s
      | some s =>
        match performStore o s with
        | (true, s)  => dropOp id s
        | (false, s) => stallOp id s
    else s

/-- STORE_ACK (R23, R165). -/
def execStoreAck (op : Nat) (s : State) : Outcome :=
  .next (match tget s.ops op with
    | some o => checkRege o.warp (ackOp op s)
    | none => s)

/-- REGION_ACCESS_RETRY (R221): a stalled region access is tried again. -/
def execRegionAccessRetry (op : Nat) (s : State) : Outcome :=
  match tget s.ops op with
  | none => .next s
  | some o => if o.region && o.st == .noroom then .next (checkRege o.warp (ackOp op (readOp op s))) else .next s

end Sys2Proof.Machine
end

