-- ==== Sys2Proof/Machine/Atomic.lean ====
section
/-! DEFINITION. Atomics, waiting and notifying at the port (spec 09_atomic R189-R199), PHASE and FENCE (08_phase R181,
R182, R188), the fault mask (R178), the region words (12_region R219, R223, R224, R230-R232), and their engines' steps. -/

namespace Sys2Proof.Machine

/-! ### The operations (R191, R192) -/

/-- The new value and the flags of an atomic: op, old value, operands b and c. -/
def atomNew (op : Nat) (old b c : Word) : Word × Flags :=
  let fl := fun (r : Rounded) => (natWord r.bits, r.flags)
  match op with
  | 0  => (old + b, 0)
  | 1  => (minMod 0 old b, 0)
  | 2  => (minMod 1 old b, 0)
  | 3  => (maxMod 0 old b, 0)
  | 4  => (maxMod 1 old b, 0)
  | 5  => (old &&& b, 0)
  | 6  => (old ||| b, 0)
  | 7  => (old ^^^ b, 0)
  | 8  => (b, 0)
  | 9  => (if old = b then c else old, 0)
  | 10 => fl (fAdd fp32 .rn old.toNat b.toNat)
  | 11 => fl (fMinMax fp32 false true old.toNat b.toNat)
  | 12 => fl (fMinMax fp32 true true old.toNat b.toNat)
  | _  => fl (packed2 (fAdd bf16 .rn) old.toNat b.toNat)

/-! ### Issuing ATOM, RED, WAITV and NOTE (R193, R196, R198) -/

/-- The space of a format A word. -/
def spaceA (o : FmtA) : Space := if o.space == 0 then .shared else if o.space == 1 then .scratch else .main

/-- The sources of a format A word (R190, R196, R198). -/
def srcsA (u : EdgeWord) (o : FmtA) : List Src :=
  let e := o.e
  let a : Src := ⟨o.a.toNat, if o.space == 2 then 2 else 1, e⟩
  let c : List Src := [⟨o.c.toNat, 1, e⟩]
  match u with
  | .note  => [a]
  | .waitv => [a, ⟨o.b.toNat, 1, e⟩] ++ (if 8 ≤ o.op.toNat then c else [])
  | _      => [a, ⟨o.b.toNat, 1, e⟩] ++ (if o.op == 9 then c else [])

/-- Whether a word writes v[d]. -/
def EdgeWord.hasDst (u : EdgeWord) : Bool :=
  match u with
  | .atom  => true
  | .waitv => true
  | _ => false

/-- The destination a format A word marks empty. -/
def dstsA (u : EdgeWord) (o : FmtA) : List Nat := if u.hasDst then [o.d.toNat] else []

/-- A lane's address (R189). -/
def addrA (o : FmtA) (t : Thread) : Nat :=
  if o.space == 2 then (t.pair o.a.toNat).toNat else (t.reg o.a.toNat).val.toNat

/-- Whether a format A word writes its word: WAITV and NOTE read it (R197, R198). -/
def EdgeWord.writes (u : EdgeWord) : Bool :=
  match u with
  | .atom => true
  | .red => true
  | _ => false

/-- The checks of R193 on a lane's address, and those of R236 and R237 on the block's buffers. -/
def deniedA (s : State) (w : Warp) (u : EdgeWord) (o : FmtA) (a : Nat) : Option Denied :=
  if a % 4 != 0 then some (.trap 0x07)
  else if w.block.isNone || limitOf s w (spaceA o) < a + 4 && spaceA o != .main then some .fault
  else if spaceA o == .main then none
  else match s.warpBlock w with
    | none   => some .fault
    | some b => if slotsOk b (spaceA o == .scratch) a 4 u.writes then none else some .fault

/-- What a lane's operation does (R191, R197, R198): a limit counts from the word's execution, which for a word with an edge is the
time at which its lanes are sent, after its publication and the waits for operands (log entry 35). -/
def kindA (u : EdgeWord) (o : FmtA) (t : Thread) (now : Nat) : OpKind :=
  match u with
  | .atom  => .atom o.op.toNat true
  | .red   => .atom o.op.toNat false
  | .waitv => .waitv (if 8 ≤ o.op.toNat then some (now + (t.reg o.c.toNat).val.toNat * unitsPerNs, o.op.toNat - 8) else none)
  | .note  => .note (o.op == 1)

/-- The table entry of a lane (R185): one for each line, and for each lane of a main-memory atomic. -/
def entryA (u : EdgeWord) (o : FmtA) (l a : Nat) : Nat :=
  if spaceA o == .main && (u == .atom || u == .red) then l else a / 64

/-- A lane's operation. -/
def opA (s : State) (b : Bundle) (u : EdgeWord) (o : FmtA) (act : Option Nat) (l : Nat) (t : Thread) : MemOp :=
  { newOp s b l (spaceA o) (kindA u o t (s.die b.warp.die).time) (addrA o t) 4 with
    data := if u == .note then 0 else (t.reg o.b.toNat).val.toNat
    cmp := (t.reg o.c.toNat).val
    dst := if u.hasDst then o.d.toNat else 512
    ndst := if u.hasDst then 1 else 0
    win := u.hasDst && t.inWin o.d.toNat
    entry := some (entryA u o l (addrA o t)), act := act }

/-- How a format A word's lanes went. -/
inductive Sent where
  | blocked         -- a register must fill
  | table           -- entries must free
  | sent (m : Lanes)
deriving DecidableEq, Repr

/-- The table entries a format A word needs: those of the lanes whose operands can be read and whose access is made (R185, R186). -/
def needsA (u : EdgeWord) (o : FmtA) (b : Bundle) (m : Lanes) (s : State) : Nat :=
  (((laneList b.warp.width m).filterMap fun l => (b.warp.thread l).bind fun t =>
    if (srcsA u o).any (fun x => t.anyEmpty x.regs) || (deniedA s b.warp u o (addrA o t)).isSome then none
    else some (entryA u o l (addrA o t))).dedup).length

/-- Traps, checks and sends the lanes `m` of a format A word (R193), after the wait for its entries (R186); `free` says whether so
many may be taken. -/
def sendA (u : EdgeWord) (o : FmtA) (act : Option Nat) (free : State → Nat → Bool) (b : Bundle) (m : Lanes) (s : State) :
    Sent × State :=
  let ss := srcsA u o
  let needs := needsA u o b m s
  if needs != 0 && !free s needs then (.table, s) else
  let tr := laneFilter b.warp.width m fun l => ((b.warp.thread l).map fun t => t.emptyTrap ss).getD false
  let rest := m &&& ~~~ tr
  let s := trapLanes b.w tr b.at_ 0x04 (fun _ => 0) (fun _ => 0) s
  if (laneList b.warp.width rest).any fun l => ((b.warp.thread l).map fun t => t.mustWait ss []).getD false then (.blocked, s)
  else
    let addr := fun l => ((b.warp.thread l).map (addrA o)).getD 0
    let (ok, s) := denyLanes b rest addr (fun l => deniedA s b.warp u o (addr l)) s
    let ls := laneList b.warp.width ok
    if ls.any fun l => ((b.warp.thread l).map fun t => t.anyEmpty (dstsA u o)).getD false then (.blocked, s)
    else if (s.warp? b.w).isNone then (.sent 0, s)
    else
      let ops := ls.filterMap fun l => (b.warp.thread l).map (opA s b u o act l)
      (.sent ok, addOps ops (s.mapLanes b.w ok fun _ t => t.empty (dstsA u o)))

/-- The threads of a bundle wait for an engine action (R138). -/
def startAct (b : Bundle) (m : Lanes) (kind : ActKind) (after : List Nat) (s : State) : State :=
  let id := s.fresh
  finishWord b (waitLanes b m (.act id) { s with acts := tput s.acts id ⟨b.w, m, kind, after⟩, fresh := id + 1 })

/-- The operations of a warp whose acknowledgement a publication waits for (R181): its STB, STD and RED to spaces 0
and 1. -/
def storesOf (s : State) (w : Nat) : List Nat :=
  (s.ops.filter fun o => o.2.warp == w && (o.2.space == .shared || o.2.space == .scratch) &&
    (match o.2.kind with
     | .store => true
     | .atom _ ret => !ret
     | _ => false)).map Prod.fst

/-- Whether every operation of a list has left the table. -/
def doneOps (s : State) (ids : List Nat) : Bool := ids.all fun i => (tget s.ops i).isNone

/-- ATOM, RED, WAITV and NOTE (R193, R194, R226). -/
def fmtAWord (i : Instr) (u : EdgeWord) (o : FmtA) (s : State) : Outcome :=
  runWord i (fun b m s =>
    if m = 0 then finishWord b s
    else if b.warp.regionLive then finishWord b (abortRegion b.w 8 s)
    else if (o.pub || o.ref) && b.warp.block.isNone then
      withOperands (srcsA u o) [] (fun b m s => finishWord b (trapLanes b.w m b.at_ 0x03 (fun _ => 0) (fun _ => 0) s)) b m s
    else if o.pub || o.ref then
      startAct b m (.edge u o b.iss.hdr b.iss.idx b.iss.cls (b.iss.words.length - 1) o.pub false)
        (if o.pub then storesOf s b.w else []) s
    else match sendA u o none (fun s n => tableFree s b n) b m s with
      | (.blocked, s) => blockWord b s
      | (.table, s)   => waitTable b s
      | (.sent _, s)  => finishWord b s) s

/-- ATOM (R193). -/
def execAtom (o : FmtA) (s : State) : Outcome := fmtAWord (.atom o) .atom o s
/-- RED (R193). -/
def execRed (o : FmtA) (s : State) : Outcome := fmtAWord (.red o) .red o s
/-- WAITV (R196). -/
def execWaitv (o : FmtA) (s : State) : Outcome := fmtAWord (.waitv o) .waitv o s
/-- NOTE (R198). -/
def execNote (o : FmtA) (s : State) : Outcome := fmtAWord (.note o) .note o s

/-! ### Engine actions of waiting threads: PHASE and the edges (R181, R194) -/

/-- Ends an engine action: the threads that still wait for it become READY, as one arrival group. -/
def endAct (id : Nat) (s : State) : State :=
  match tget s.acts id with
  | none   => s
  | some a => releaseWhere a.warp (· == .act id) { s with acts := tdel s.acts id }

/-- The lanes that still wait for an action. -/
def actLanes (s : State) (id : Nat) (a : EngineAct) : Lanes :=
  ((s.warp? a.warp).map fun x => x.waitingFor (· == .act id)).getD 0

/-- The block of an action's warp. -/
def actBlock (s : State) (a : EngineAct) : Option Nat := (s.warp? a.warp).bind Warp.block

def setAct (id : Nat) (k : ActKind) (s : State) : State := { s with acts := tmod s.acts id fun a => { a with kind := k } }

/-- The bundle a waiting format A word stands for. -/
def edgeBundle (w : Nat) (x : Warp) (lanes : Lanes) (hdr idx cls count : Nat) : Bundle :=
  ⟨w, .a, x, ⟨lanes, hdr, cls, List.replicate (count + 1) 0, idx, false, .none, none, none, false⟩⟩

/-- Whether the waiting format A word `id` may take `n` entries now (R186). -/
def actFree (id : Nat) (x : Warp) (s : State) (n : Nat) : Bool :=
  let q := waitersOf s (s.core x.die x.core).tableQ 2
  decide (tableUsed s x.die x.core + n ≤ 256) && (q.isEmpty || (q.head?.map Prod.fst) == some id)

/-- The next stage of a waiting format A word (R193, R194): its operations, unless its warp is being saved, and behind the words that wait
for entries only while it waits for entries itself (R186); then its refresh, after every lane's operation, and the
release of its threads, after every result of ATOM and WAITV. -/
def stepEdge (id : Nat) (a : EngineAct) (u : EdgeWord) (o : FmtA) (hdr idx cls count : Nat) (pub sent : Bool) (s : State) :
    State :=
  match s.warp? a.warp with
  | none   => { s with acts := tdel s.acts id }
  | some x =>
    if pub then
      if doneOps s a.after then setAct id (.edge u o hdr idx cls count false sent) (match x.block with
        | some b => publish b s
        | none   => s)
      else s
    else if !sent then
      let m := actLanes s id a
      if m = 0 then { s with acts := tdel s.acts id }
      else if x.stopped then s
      else match sendA u o (some id) (actFree id x) (edgeBundle a.warp x m hdr idx cls count) m s with
        | (.blocked, s) => s.modCore x.die x.core fun c => { c with tableQ := c.tableQ.filter (· != (id, .a)) }
        | (.table, s) => s.modCore x.die x.core fun c =>
            { c with tableQ := if c.tableQ.contains (id, .a) then c.tableQ else waitersOf s c.tableQ 2 ++ [(id, .a)] }
        | (.sent _, s) =>
          setAct id (.edge u o hdr idx cls count false true) (s.modCore x.die x.core fun c =>
            { c with tableQ := c.tableQ.filter (· != (id, .a)) })
    else if (o.ref || u.hasDst) && tany s.ops fun _ p => p.act == some id then s
    else endAct id (match o.ref, x.block with
      | true, some b => refresh b s
      | _, _ => s)

/-- The next stage of PHASE (R181). -/
def stepPhase (id : Nat) (a : EngineAct) (pub ref : Bool) (s : State) : State :=
  match actBlock s a with
  | none   => endAct id s
  | some b =>
    if !doneOps s a.after then s
    else if pub then
      let s := publish b s
      if ref then setAct id (.phase false true) s else endAct id s
    else endAct id (if ref then refresh b s else s)

/-- PHASE (R181). -/
def execPhase (o : FmtR) (s : State) : Outcome :=
  runWord (.phase o) (fun b m s =>
    if m = 0 then finishWord b s
    else if b.warp.regionLive then finishWord b (abortRegion b.w 8 s)
    else if lacksBlock (.phase o) b then trapWord b m 0x03 s
    else startAct b m (.phase (o.mod != 1) (o.mod != 0)) (storesOf s b.w) s) s

/-- Tries a waiting format A word again, whose operations or entries may have come; one of a PARKED block stands still (R318). -/
def tryEdge (id : Nat) (s : State) : State :=
  match tget s.acts id with
  | some a => match a.kind with
    | .edge u o hdr idx cls count pub sent =>
      if ((actBlock s a).map s.parked).getD false then s else stepEdge id a u o hdr idx cls count pub sent s
    | _ => s
  | none => s

/-- TABLE_ENTRY_GRANT (R186): the word of a core that has waited longest gets its table entries, when one is free. -/
def execTableEntryGrant (die core : Nat) (s : State) : Outcome :=
  let q := waitersOf s (s.core die core).tableQ 2
  if tableUsed s die core < 256 then
    match q.head? with
    | some (k, _) => if (tget s.acts k).isSome then .next (tryEdge k s) else .next (grantFirst q s)
    | none => .next s
  else .next s

/-! ### At the port (R189-R199) -/

/-- Where a window or memory word of an operation is, as its port sees it: a space, an owner and an address. A waiter keeps the
location it was enqueued on, also when its page goes to another die or another frame (log entry 36). -/
def spotOf (s : State) (o : MemOp) : Option (Nat × Nat × Nat) :=
  match o.space with
  | .shared  => o.block.map fun b => (0, b, o.addr)
  | .scratch => o.block.bind fun b => (s.block? b).map fun x => (1, x.share, o.addr)
  | _ => match (locate s o.ctx o.port o.addr true true).1 with
    | .here d a _ => some (2, d, a)
    | .accum a _ _ => some (2, o.port, a)
    | _ => none

/-- The waiter store of a spot, and its size (R197): a bank of a core's shared memory, a scratchpad bank, a controller. -/
def storeOf (s : State) (p : Nat × Nat × Nat) : (Nat × Nat × Nat) × Nat :=
  match p.1 with
  | 0 => match s.block? p.2.1 with
    | some x =>
      let half := if x.tiles.length < 2 then 0
        else if p.2.2 < ((s.kernel? x.kern).map fun k => k.launch.shared).getD 0 / 2 then 0 else 1
      ((0, 160 * x.die + x.core + half, p.2.2 / 4 % 32), 256)
    | none => ((0, 0, 0), 256)
  | 1 => ((1, ((s.share? p.2.1).map Share.die).getD 0, p.2.2 / 64 % 64), 256)
  | _ => ((2, p.2.1, 0), 4096)

/-- The sleeping waiters. -/
def sleepers (s : State) : List (Nat × MemOp × Nat) :=
  s.ops.filterMap fun o => match o.2.st with
    | .sleeping n => some (o.1, o.2, n)
    | _ => none

/-- The waiters of a context at a spot, the earliest enqueued first (R198). -/
def waitersAt (s : State) (ctx : Nat) (p : Nat × Nat × Nat) : List (Nat × MemOp × Nat) :=
  ((sleepers s).filter fun w => w.2.1.ctx == ctx && w.2.1.spot == some p).insertionSort fun a b => decide (a.2.2 ≤ b.2.2)

/-- Whether the store of a spot has a free place (R197). -/
def storeRoom (s : State) (p : Nat × Nat × Nat) : Bool :=
  let (k, n) := storeOf s p
  decide (((sleepers s).filter fun w => (w.2.1.spot.map fun q => (storeOf s q).1) == some k).length < n)

/-- The other die an operation was performed at, whose answer comes back over the mesh (R345). -/
def MemOp.away (o : MemOp) : Option Nat :=
  match o.spot with
  | some (2, d, _) => if d = o.port then none else some d
  | _ => none

/-- An operation has been performed and its old value, status or acknowledgement is on its way; a RED or NOTE performed on its own die
is acknowledged at once. -/
def answerOp (id v : Nat) (s : State) : State :=
  match tget s.ops id with
  | none => s
  | some o =>
    if !o.away.isSome && (match o.kind with
        | .atom _ ret => !ret
        | .note _ => true
        | _ => false) then dropOp id s
    else setOp id (fun o => { o with st := .read v, xfer := none }) s

/-- Whether a .tmo waiter's limit has passed (R197). -/
def MemOp.late (s : State) (o : MemOp) : Bool :=
  match o.kind with
  | .waitv (some (limit, _)) => decide (limit ≤ (s.die o.port).time)
  | _ => false

/-- A NOTE wakes the waiters it selects with the word's value (R197, R198). -/
def wakeWaiters (id : Nat) (o : MemOp) (all : Bool) (v : Nat) (s : State) : State :=
  match o.spot with
  | none => s
  | some p =>
    let ws := (waitersAt s o.ctx p).filter fun w => !w.2.1.late s
    let chosen := if all then ws else ws.take 1
    answerOp id 0 (chosen.foldl (fun s w => setOp w.1 (fun q => { q with st := .read (v + 2 ^ 32) }) s) s)

/-- A WAITV's check found b in the word: it is enqueued, or finds its port's store full (R197); one whose limit has passed already
completes with false (R199). -/
def enqueueWaiter (id : Nat) (o : MemOp) (s : State) : State :=
  match o.spot with
  | none => s
  | some p =>
    if o.late s then answerOp id o.data s
    else if storeRoom s p then
      (setOp id (fun q => { q with st := .sleeping s.fresh, entry := none, xfer := none }) s).bump
    else setOp id (fun q => { q with st := .noroom }) s

/-- What an operation does to its word: the new value, if it writes, and its flags. -/
def rmwOf (o : MemOp) (old : Word) : Option Word × Flags :=
  match o.kind with
  | .atom op _ => let r := atomNew op old (natWord o.data) o.cmp; (some r.1, r.2)
  | _ => (none, 0)

/-- The scale of the word of an operation in a PARTIAL page (R334). -/
def scaleOf (s : State) (o : MemOp) : Option Int :=
  if o.space != .main then none
  else match (locate s o.ctx o.port o.addr true true).1 with
    | .accum _ fs _ => some fs
    | _ => none

/-- What follows at the port once the word's old value is known; the operation keeps where its word is. -/
def afterRmw (id : Nat) (o : MemOp) (old : Word) (s : State) : State :=
  let o : MemOp := { o with spot := spotOf s o, sfs := scaleOf s o }
  let s := setOp id (fun q => { q with spot := o.spot, sfs := o.sfs }) s
  match o.kind with
  | .waitv _ => if old.toNat = o.data then enqueueWaiter id o s else answerOp id (old.toNat + 2 ^ 32) s
  | .note all => wakeWaiters id o all old.toNat s
  | _ => answerOp id old.toNat s

/-- An operation at a window word (spaces 0 and 1). -/
def rmwWindow (id : Nat) (o : MemOp) (s : State) : State :=
  match o.block.bind fun b => (s.block? b).map fun x => (b, x) with
  | none => s
  | some (b, x) =>
    let m := if o.space = .shared then x.mem else ((s.share? x.share).map Share.home).getD []
    let old := natWord (mread m o.addr 4)
    match rmwOf o old with
    | (none, _) => afterRmw id o old s
    | (some new, fl) =>
      let s := orFpstat o.ctx fl s
      let s := if o.space = .shared then s.modBlock b fun y => { y with mem := mwrite y.mem o.addr 4 new.toNat }
        else homeWrite x.share (cellsAt o.addr (leBytes 4 new.toNat)) s
      afterRmw id o old s

/-- A space-2 lane's violation (R193): logged, v[d] filled with 0, and a lane fault. The p[K] of a WAITV.tmo becomes false in the same
instant (log entry 37). -/
def rmwFault (id : Nat) (o : MemOp) (kind : Nat) (s : State) : State :=
  let s := logViolation o.ctx o.addr kind 2 o.port (setOp id (fun q => { q with spot := none }) s)
  laneFault o.warp (laneBit o.lane) (landOp id (answerOp id 0 s))

/-- The kernel and issue step of an operation's writes (R393). -/
def opStep (s : State) (o : MemOp) : Option (Nat × Word) :=
  (((o.block.bind s.block?).map Block.kern).or ((s.warp? o.warp).map Warp.kern)).map fun k => (k, o.step)

/-- The value an FP add adds at a PARTIAL page (R334). -/
def fpAddend (o : MemOp) : Option FVal :=
  match o.kind with
  | .atom 10 _ => some (fp32.decode o.data)
  | _ => none

/-- An operation that is refused: a lane fault, or an error on a remote operation (R193, R339). -/
def rmwRefused (id : Nat) (o : MemOp) (r : Ended Word) (s : State) : State :=
  match r with
  | .fail k => rmwFault id o k s
  | .lost => rmwFault id o 1 s
  | .remote d k => remoteEnd o.ctx d o.addr k s
  | _ => s

/-- Whether an operation changes its word, so that a mirror takes the change too (R333). -/
def MemOp.changes (o : MemOp) : Bool :=
  match o.kind with
  | .atom _ _ => true
  | _ => false

/-- An operation at the die whose DRAM holds its location, once it has come there in its turn: it is performed, or refused, and a refusal
goes back over the mesh when it came over it (R189, R339, R345). -/
def rmwHere (id : Nat) (o : MemOp) (last : Nat) (s : State) : State :=
  let h : Holder := .op id
  let tag := accessTag h true o.addr
  let leave := fun (d : Nat) (s : State) => snapLeave o.ctx d o.addr h (freeAccess d o.ctx o.addr h s)
  let free := fun (s : State) => leave o.port (leave last (dropMessage (tag ++ [2]) (dropMessage tag s)))
  match mainRmw s o.ctx o.port o.addr (rmwOf o) (fpAddend o) (opStep s o) with
  | (.done old, t) => afterRmw id o old (free t)
  | (.wait, t) => holdAccess last o.ctx o.addr true h t
  | (.held, t) => setOp id (fun q => { q with st := .held }) (snapHold o.ctx o.port o.addr h (snapHold o.ctx last o.addr h t))
  | (.far m d, t) =>
    if sentFar t o then t
    else
      let (f, t) := sendFrame 1 o.port m d o.ctx 16 t
      setOp id (fun q => { q with xfer := some f }) t
  | (r, t) =>
    if (s.transfer? tag).isNone then rmwRefused id o r (free t)
    else match ride 1 o.ctx last o.port (tag ++ [1]) (answerBytes (fun _ => []) r) (free t) with
      | (.cut, t) => remoteEnd o.ctx last o.addr 0 t
      | (_, t) => t

/-- An operation at main memory: in its turn at the page (R330) and after its mirror in another module (R333), it goes to the die whose
DRAM holds the location (R189, R345). -/
def rmwMain (id : Nat) (o : MemOp) (s : State) : State :=
  let h : Holder := .op id
  let tag := accessTag h true o.addr
  let path := pathOf s o.ctx o.port o.addr true
  let last := path.getLastD o.port
  let turn := fun (d : Nat) (s : State) => heldTurn s d o.ctx o.addr true h && snapTurn s o.ctx d o.addr h
  if 2 ^ 57 ≤ o.addr then rmwFault id o 1 s
  else match s.transfer? (tag ++ [1]) with
  | some (_, t) => if t.at_ = t.dst then rmwRefused id o (answerOf (fun _ => 0) t.data) (dropMessage (tag ++ [1]) s) else s
  | none =>
    if !turn o.port s then holdAccess o.port o.ctx o.addr true h s
    else
      let r := if o.changes then mirrorFirst h o.ctx o.port o.addr 16 s else (true, s)
      if !r.1 then holdAccess o.port o.ctx o.addr true h r.2
      else match reach tag 1 o.ctx o.port path (fun s => countRemote s o.ctx o.port o.addr) r.2 with
        | (.cut, s) => remoteEnd o.ctx last o.addr 0 s
        | (.under, s) => s
        | (.come, s) => if turn last s then rmwHere id o last s else holdAccess last o.ctx o.addr true h s

/-- Whether a WAITV that found its port's store full may try again: a place is free at the port it stood at (R197). Its page may have
changed since: the check made anew finds out. -/
def mayRetry (s : State) (o : MemOp) : Bool := o.st != .noroom || (o.spot.map (storeRoom s)).getD true

/-- An operation is performed at its port, unless an earlier one of its thread must be first (R189, R195). -/
def portOp (id : Nat) (s : State) : State :=
  match tget s.ops id with
  | none => s
  | some o =>
    if o.performed || mustFollow s id o || !mayRetry s o then s
    else match o.kind, regain id o s with
      | .load _, _ | .store, _ | .regq, _ => s
      | _, none => s
      | _, some s => if o.space = .main then rmwMain id o s else rmwWindow id o s

/-- The answer of an operation performed at another die comes back over the mesh, and lands (R345). -/
def returnOp (id : Nat) (o : MemOp) (s : State) : State :=
  match o.st, o.away with
  | .read _, some d =>
    let tag := accessTag (.op id) true o.addr ++ [1]
    match ride 1 o.ctx d o.port tag [] s with
    | (.come, s) => landOp id (dropMessage tag s)
    | (.under, s) => s
    | (.cut, s) => remoteEnd o.ctx d o.addr 0 s
  | _, _ => landOp id s

/-- ATOMIC_RETURN (R193, R197): the result of an ATOM or WAITV lands, or an acknowledgement; a word with an edge may then end
(R194). -/
def execAtomicReturn (op : Nat) (s : State) : Outcome :=
  match tget s.ops op with
  | none => .next s
  | some o => match o.kind with
    | .atom _ _ | .waitv _ | .note _ =>
      let s := returnOp op o s
      match o.act with
      | some id => .next (tryEdge id s)
      | none    => .next s
    | _ => .next s

/-- WAITER_PLACE_FREE (R197): a WAITV that found its port's store full is enqueued, its check made anew. -/
def execWaiterPlaceFree (op : Nat) (s : State) : Outcome :=
  match tget s.ops op with
  | none => .next s
  | some o => if o.st = .noroom && !o.region then .next (portOp op s) else .next s

/-- The word a sleeping waiter sleeps on, as it stands. -/
def waiterWord (s : State) (o : MemOp) : Word :=
  match o.spot, o.sfs with
  | some (0, b, a), _ => ((s.block? b).map fun x => natWord (mread x.mem a 4)).getD 0
  | some (1, h, a), _ => ((s.share? h).map fun x => natWord (mread x.home a 4)).getD 0
  | some (_, d, a), some fs => natWord (accumWord (BitVec.ofNat 64 (mread (s.die d).dram a 8)).toInt fs).bits
  | some (_, d, a), none => natWord (mread (s.die d).dram a 4)
  | none, _ => 0

/-- WAITV_TIMEOUT (R197): a sleeper whose limit has passed leaves the queue with the word's value and false. -/
def execWaitvTimeout (op : Nat) (s : State) : Outcome :=
  match tget s.ops op with
  | none => .next s
  | some o => match o.kind, o.st with
    | .waitv (some _), .sleeping _ => if o.late s then .next (answerOp op (waiterWord s o).toNat s) else .next s
    | _, _ => .next s

/-! ### FENCE and the fault mask (R188, R178) -/

/-- Whether an operation is in a fence's scope (R188). -/
def fenceCovers (scope : Nat) (sp : Space) : Bool :=
  match sp with
  | .shared  => true
  | .stack   => true
  | .scratch => decide (1 ≤ scope)
  | .main    => decide (2 ≤ scope)

/-- Whether an operation's location lies on another module. -/
def farOp (s : State) (o : MemOp) : Bool := o.space == .main && ((placeOf s o).map fun d => decide (64 ≤ d)).getD false

/-- The warp's entries of a fence's scope (R188), with those withdrawn at a save and not yet taken again (R187). -/
def fenceOps (s : State) (w scope : Nat) : List Nat :=
  (s.ops.filter fun o => o.2.warp == w && (o.2.entry.isSome || o.2.waitsEntry) && fenceCovers scope o.2.space && (scope == 3 || !farOp s o.2)).map
    Prod.fst

/-- Whether the entries a word waits for are gone. -/
def entriesGone (s : State) (ids : List Nat) : Bool :=
  ids.all fun i => ((tget s.ops i).map fun o => o.entry.isNone && !o.waitsEntry).getD true

/-- FENCE (R188): the word blocks until the entries of its scope taken before it are gone. -/
def execFence (o : FmtR) (s : State) : Outcome :=
  runWord (.fence o) (fun b m s =>
    let ids := b.iss.after.getD (if m = 0 then [] else fenceOps s b.w o.mod.toNat)
    if m = 0 || entriesGone s ids then finishWord b s
    else blockWord b (s.modIss b.w b.pipe fun i => { i with after := some ids })) s

/-- FENCE_COMPLETE (R188): the entries the fence at a bundle waits for are gone, and it goes on. -/
def execFenceComplete (w : Nat) (pipe : Pipe) (s : State) : Outcome :=
  match ((s.warp? w).bind fun x => x.iss pipe).bind Issue.after with
  | none => .next s
  | some ids => if entriesGone s ids then .next (s.modIss w pipe fun i => { i with blocked := false }) else .next s

/-- Bits [32k+31:32k] of a set of lanes. -/
def lanesWord (m : Lanes) (k : Nat) : Word := m.extractLsb' (32 * k) 32

/-- FLTM (R178): part of the warp's fault mask. -/
def execFltm (o : FmtR) (s : State) : Outcome :=
  laneWord (.fltm o) [] [o.d.toNat] (fun w _ t => (t.put o.d.toNat (lanesWord w.faults o.mod.toNat), 0)) s

/-- FLTM.clr (R178). -/
def execFltmClr (o : FmtR) (s : State) : Outcome :=
  runWord (.fltmClr o) (fun b m s => finishWord b (if m = 0 then s else s.modWarp b.w fun x => { x with faults := 0 })) s

/-! ### The region words (R219, R223, R224, R232) -/

/-- The target of REGB for a bundle's lanes whose lowest is `l` (R219). -/
def regbTarget (b : Bundle) (o : FmtB) (l : Nat) : Nat := branchTarget b o l

/-- REGB (R219): its guard-true threads trap in a kernel without a scratchpad window and in a warp attached to no block. Where bundles
of a warp arrive with different targets, the target of the REGB executed last is the region's (log entry 33). -/
def execRegb (o : FmtB) (s : State) : Outcome :=
  runWord (.regb o) (fun b m s =>
    if m = 0 then finishWord b s
    else if b.warp.regionLive then finishWord b (abortRegion b.w 8 s)
    else withLeader (srcsB o) (fun _ => false) (fun b m l s =>
      let t := regbTarget b o l
      if limitOf s b.warp .scratch = 0 then finishWord b (trapLanes b.w m b.at_ 0x03 (fun _ => 0) (fun _ => 0) s)
      else if t % 8 != 0 then finishWord b (trapLanes b.w m b.at_ 0x07 (fun _ => t) (fun _ => 0) s)
      else
        let s := s.modWarp b.w fun x => { x with region := .opening, rtarget := t }
        checkRegb b.w (finishWord b (waitLanes b m .regb s))) b m s) s

/-- REGE (R223). -/
def execRege (o : FmtR) (s : State) : Outcome :=
  runWord (.rege o) (fun b m s =>
    if m = 0 then finishWord b s
    else if !b.warp.regionLive then trapWord b m 0x03 s
    else checkRege b.w (finishWord b (waitLanes b m .rege s))) s

/-- REGX (R224). -/
def execRegx (o : FmtR) (s : State) : Outcome :=
  runWord (.regx o) (fun b m s =>
    if m = 0 then finishWord b s
    else if !b.warp.regionLive then trapWord b m 0x03 s
    else finishWord b (abortRegion b.w 7 s)) s

/-- REGQ (R232): the status word is read by the tracker and lands as a long-latency result; no table entry. -/
def execRegq (o : FmtR) (s : State) : Outcome :=
  runWord (.regq o) (withOperands [] [o.d.toNat] fun b m s =>
    let ops := (laneList b.warp.width m).map fun l =>
      { newOp s b l .scratch .regq 0 4 with
        dst := o.d.toNat, ndst := 1, entry := none, win := ((b.warp.thread l).map fun t => t.inWin o.d.toNat).getD false }
    finishWord b (addOps ops (s.mapLanes b.w m fun _ t => t.empty [o.d.toNat]))) s

/-! ### The tracker's steps (R219, R223, R229, R231) -/

/-- Whether a region of a die is exclusive. -/
def exclusiveLive (d : Die) : Bool := d.regions.any Region.excl

/-- Whether the begin stamp stays within half the counter's range of the oldest live region (R217). -/
def stampOk (d : Die) : Bool := d.regions.all fun r => decide ((d.stamp - r.stamp).toNat < 2 ^ 31)

/-- REGION_OPEN (R219, R229, R231): the die's first waiting REGB opens, when a slot is free and the progress rule permits. R231's step 1 and
R229's order do not say what becomes of the REGBs that wait ahead of an exclusive request when its last thread arrives: the model's choice
is that those ahead of it open first (log entry 33). -/
def execRegionOpen (w : Nat) (s : State) : Outcome :=
  match s.warp? w with
  | none => .next s
  | some x =>
    let d := s.die x.die
    let excl := decide (8 ≤ x.aborts)
    match lowestFree 64 (d.regions.map Region.slot) with
    | none => .next s
    | some slot =>
      let ws := d.opening.filter fun k => ((s.warp? k).map fun y => y.region == .opening).getD false
      if x.region = .opening && ws.head? == some w && stampOk d && !exclusiveLive d && (!excl || d.regions.isEmpty) then
        let r : Region := ⟨slot, w, x.share, d.stamp, excl, [], [], []⟩
        let s := s.setDie x.die { d with opening := ws.tail, regions := d.regions ++ [r], stamp := d.stamp + 1 }
        .next (releaseWhere w (· == .regb) (s.modWarp w fun y => { y with region := .live slot }))
      else .next s

/-- REGION_COMMIT (R223): a committing region with no predecessor left writes its bytes at one position in the home order,
frees its slot and releases its threads. -/
def execRegionCommit (w : Nat) (s : State) : Outcome :=
  match s.warp? w, warpRegion s w with
  | some x, some (die, r) =>
    if x.region = .committing r.slot && !regionBusy s w && (s.die die).edges.all (fun e => e.to_ != r.slot) then
      let s := s.modDie die fun d =>
        { d with regions := d.regions.filter fun q => q.slot != r.slot
                 edges := d.edges.filter fun e => e.from_ != r.slot
                 chains := d.chains.map fun (g : Nat × Nat × List Nat) => (g.1, g.2.1, g.2.2.filter (· != r.slot)) }
      let s := writeHome r.share r.writes s
      .next (releaseWhere w (· == .rege) (s.modWarp w fun y => { y with region := .none, aborts := 0, reason := 0 }))
    else .next s
  | _, _ => .next s

end Sys2Proof.Machine
end

