-- ==== Sys2Proof/Machine/Buffer.lean ====
section
/-! DEFINITION. Buffers and sidings (spec 13_buffer R233-R238, R250-R254): descriptors, near reads and writes of the
engines, reservations, publications, and the thread words BUFD, PUBL, RPUSH, RPOP, RWAIT and CPYQ. -/

namespace Sys2Proof.Machine

/-! ### Buffers of a block -/

def emptyBuffer : Buffer :=
  { kind := .none, die := false, psd := false, csd := false, slots := 1, base := 0, size := 16, second := 0, pubs := 0, p := 0
    c := 0, pr := 0, cr := 0, aq := 0, rl := 0, prods := [], cons := [], shadow := [] }

/-- Buffer `q` of a block. -/
def Block.buf (b : Block) (q : Nat) : Buffer := b.bufs.getD q emptyBuffer

/-- Buffer `q` of the block named `b`. -/
def State.buf (s : State) (b q : Nat) : Buffer := ((s.block? b).map fun x => x.buf q).getD emptyBuffer

def State.modBuf (s : State) (b q : Nat) (f : Buffer → Buffer) : State :=
  s.modBlock b fun x => { x with bufs := lmod x.bufs q f }

/-- The buffer a word of the bundle names. -/
def wordBuf (s : State) (b : Bundle) (q : BitVec 4) : Buffer := s.buf (b.warp.block.getD 0) q.toNat

/-- The window address of near offset `o`: in the front or shadow of a PLAIN buffer, or from slot `start` of a RING on
(R237, R242). -/
def nearAddr (q : Buffer) (front : Bool) (start : Word) (o : Nat) : Nat :=
  match q.kind with
  | .ring => q.base + (start + BitVec.ofNat 32 (o / q.size)).toNat % q.slots * q.size + o % q.size
  | _ => (if front then q.base else q.second) + o

/-- `n` bytes of a block's window as an engine reads them: shared memory, or home (R183, R236). -/
def nearRead (s : State) (b : Block) (die : Bool) (a n : Nat) : List Byte :=
  if die then mbytes (((s.share? b.share).map Share.home).getD []) a n else mbytes b.mem a n

/-- An engine's write to a buffer: shared memory, the hidden shadow of a scratchpad buffer, or the bytes that a scratchpad
siding publishes when P advances over the reservation of operation `op` (R183, R236, R238). -/
def nearWrite (b q op : Nat) (cells : List Host.Cell) (s : State) : State :=
  let x := s.buf b q
  if !x.die then s.modBlock b fun y => { y with mem := msetAll y.mem cells }
  else if x.kind = .ring then
    s.modBuf b q fun y => { y with prods := y.prods.map fun r => if r.op = op then { r with cells := r.cells ++ cells } else r }
  else s.modBuf b q fun y => { y with shadow := cells.foldl (fun t c => tput t c.1 c.2) y.shadow }

/-! ### Reservations (R238) -/

/-- Whether `k` slots are available to an engine producer, or consumer. -/
def slotsReady (q : Buffer) (prod : Bool) (k : Nat) : Bool :=
  if prod then decide (k ≤ (q.c + BitVec.ofNat 32 q.slots - q.pr).toNat) else decide (k ≤ (q.p - q.cr).toNat)

/-- Reserves `k` slots for an operation. -/
def reserveSlots (b q : Nat) (prod : Bool) (op k : Nat) (s : State) : State :=
  s.modBuf b q fun x =>
    if prod then { x with pr := x.pr + BitVec.ofNat 32 k, prods := x.prods ++ [⟨op, k, false, []⟩] }
    else { x with cr := x.cr + BitVec.ofNat 32 k, cons := x.cons ++ [⟨op, k, false, []⟩] }

/-- The counter's next reservation starts here. -/
def nextSlot (q : Buffer) (prod : Bool) : Word := if prod then q.pr else q.cr

def slotSum (rs : List Reservation) : Word := rs.foldl (fun n r => n + BitVec.ofNat 32 r.cnt) 0

/-- P advances over its completed reservations in one step, which publishes the slots of a scratchpad siding. -/
def advanceP (b q : Nat) (s : State) : State :=
  let x := s.buf b q
  let rs := x.prods.takeWhile Reservation.done
  if rs.isEmpty then s
  else
    let s := s.modBuf b q fun y => { y with p := y.p + slotSum rs, prods := y.prods.dropWhile Reservation.done }
    match x.die, s.block? b with
    | true, some y => homeWrite y.share (rs.flatMap Reservation.cells) s
    | _, _ => s

/-- C advances over its completed reservations. -/
def advanceC (b q : Nat) (s : State) : State :=
  s.modBuf b q fun y =>
    { y with c := y.c + slotSum (y.cons.takeWhile Reservation.done), cons := y.cons.dropWhile Reservation.done }

/-- An operation's reservation is complete. -/
def endSlots (b q : Nat) (prod : Bool) (op : Nat) (s : State) : State :=
  let mark := fun (rs : List Reservation) => rs.map fun r => if r.op = op then { r with done := true } else r
  if prod then advanceP b q (s.modBuf b q fun x => { x with prods := mark x.prods })
  else advanceC b q (s.modBuf b q fun x => { x with cons := mark x.cons })

/-! ### Which operations use a buffer -/

/-- Whether a copy writes its near side. -/
def CopyKind.writesNear : CopyKind → Bool
  | .cpyin => true
  | .cpyg => true
  | .cpyd out => !out
  | .cpyf => true
  | _ => false

/-- Whether a copy reads its near side. -/
def CopyKind.readsNear : CopyKind → Bool
  | .cpyout => true
  | .cpys => true
  | .cpyd out => out
  | _ => false

/-- The buffer a tile operation names (R235). -/
def TileKind.buffer : TileKind → Option Nat
  | .mma _ _ _ _ _ q => some q
  | .mldt _ q _ _ => some q
  | .mdrain _ _ q _ _ => some q
  | .qdual _ _ q _ _ _ => some q
  | .rqnt _ q _ _ _ => some q
  | _ => none

/-- The buffer a tile operation writes (R285). -/
def TileKind.writes : TileKind → Option Nat
  | .mdrain _ _ q _ _ => some q
  | .qdual _ _ q _ _ _ => some q
  | .rqnt _ q _ _ _ => some q
  | _ => none

def TileKind.isMma : TileKind → Bool
  | .mma .. => true
  | _ => false

/-- Whether an engine operation on a siding, on either side of it, accepted before `id`, still waits to fire (R238). -/
def earlierWaits (s : State) (b q : Nat) (id : Nat) : Bool :=
  tany s.copies (fun k c => decide (k < id) && c.block == some b && c.buf == q && c.st == .waiting && (c.kind.writesNear || c.kind.readsNear)) ||
  tany s.tops (fun k t => decide (k < id) && t.block == b && !t.fired && t.kind.buffer == some q)

/-- The operations that write a buffer: what PUBL waits for (R254, R285). -/
def writersOf (s : State) (b q : Nat) : List Nat :=
  (s.copies.filter fun c => c.2.block == some b && c.2.buf == q && c.2.kind.writesNear).map Prod.fst ++
  (s.tops.filter fun t => t.2.block == b && t.2.kind.writes == some q).map Prod.fst

/-- Whether every operation of a list is gone from the engines. -/
def goneAll (s : State) (ids : List Nat) : Bool :=
  ids.all fun i => (tget s.ops i).isNone && (tget s.copies i).isNone && (tget s.tops i).isNone

/-! ### Tokens (R243, R246) -/

/-- Writes a value to a warp's token register, if the warp still holds an index; otherwise it is discarded (R169, R258). -/
def fillToken (w r : Nat) (v : Word) (s : State) : State :=
  match s.warp? w with
  | some x => if x.live = 0 then s else s.setWreg w r ⟨v, true⟩
  | none => s

/-- The token word (R243). -/
def tokenWord (status units : Nat) : Word := natWord (2 ^ 31 + status * 2 ^ 24 + min units 0xFFFFFF)

/-- A copy leaves the engine with its status: the token fills when the last command of its word has ended (R246). -/
def endCopy (id status : Nat) (s : State) : State :=
  match tget s.copies id with
  | none => s
  | some c =>
    let parts := s.parts ++ [⟨c.group, id, status, c.units.length⟩]
    let s := { s with copies := tdel s.copies id, parts := parts }
    if tany s.copies fun _ x => x.group == c.group then s
    else
      let mine := (parts.filter fun p => p.group == c.group).insertionSort fun a b => decide (a.rank ≤ b.rank)
      let st := ((mine.find? fun p => p.status != 0).map CopyPart.status).getD 0
      fillToken c.warp c.token (tokenWord st ((mine.map CopyPart.units).foldl (· + ·) 0))
        { s with parts := parts.filter fun p => p.group != c.group }

/-! ### The frame of the buffer words -/

/-- A w register of the bundle's warp. -/
def Bundle.wr (b : Bundle) (k : Nat) : VReg := b.warp.wregs.getD k zeroReg

/-- Whether one of some w registers is empty. -/
def Bundle.wrEmpty (b : Bundle) (ks : List Nat) : Bool := ks.any fun k => !(b.wr k).full

/-- The words of the CPY class that act once for a bundle: nothing without a guard-true thread; a live region aborts
(R226); the word blocks while a source is empty (`void`: check 7 of R49); ILLEGAL-OPERAND on the guard-true threads when the warp is
attached to no block and must be (R166), or when `bad`. -/
def bufWord (i : Instr) (void : Bundle → Lanes → Bool) (bad : State → Bundle → Bool) (act : Bundle → Lanes → State → State) (s : State) :
    Outcome :=
  runWord i (fun b m s =>
    if m = 0 then finishWord b s
    else if b.warp.regionLive then finishWord b (abortRegion b.w 8 s)
    else if void b m then blockWord b s
    else if lacksBlock i b || bad s b then trapWord b m 0x03 s
    else act b m s) s

/-- A word without a register source. -/
def noSource (_ : Bundle) (_ : Lanes) : Bool := false

/-- Marks a w register empty (R97). -/
def takeToken (b : Bundle) (k : Nat) (s : State) : State := s.setWreg b.w k ⟨(b.wr k).val, false⟩

/-- The warp's earlier STB, STD and RED must be acknowledged first (R239): `act` runs once they are; until then the word
blocks. -/
def afterStores (act : Bundle → Lanes → State → State) (b : Bundle) (m : Lanes) (s : State) : State :=
  let ids := b.iss.after.getD (storesOf s b.w)
  if goneAll s ids then act b m s else blockWord b (s.modIss b.w b.pipe fun i => { i with after := some ids })

/-! ### BUFD (R234, R235) -/

/-- The descriptor in four w registers. -/
def descOf (ws : List Word) : Buffer :=
  let w := fun k => ws.getD k 0
  let f := fun (lo n : Nat) => ((w 0).extractLsb' lo n).toNat
  { emptyBuffer with
    kind := if f 28 4 = 1 then .plain else if f 28 4 = 2 then .ring else .none
    die := (w 0).getLsbD 27, psd := (w 0).getLsbD 26, csd := (w 0).getLsbD 25
    slots := f 16 4 + 1, base := (w 1).toNat, size := (w 2).toNat, second := (w 3).toNat }

/-- The checks of R234. -/
def descOk (ws : List Word) (limit : Bool → Nat) : Bool :=
  let w0 := ws.getD 0 0
  let q := descOf ws
  let k := (w0.extractLsb' 28 4).toNat
  let plainZero := !q.psd && !q.csd && q.slots == 1
  decide (k < 3) && w0.extractLsb' 20 5 == 0 && w0.extractLsb' 0 16 == 0 &&
  (match q.kind with
   | .none => true
   | .plain => plainZero && q.base % 16 == 0 && q.size % 16 == 0 && decide (16 ≤ q.size) && q.second % 16 == 0 &&
       decide (q.base + q.size ≤ limit q.die) && decide (q.second + q.size ≤ limit q.die) &&
       (decide (q.base + q.size ≤ q.second) || decide (q.second + q.size ≤ q.base))
   | .ring => q.base % 16 == 0 && q.size % 16 == 0 && decide (16 ≤ q.size) && q.second == 0 &&
       decide (q.base + q.slots * q.size ≤ limit q.die))

/-- Ends the unfired copies of a block on a buffer with ENDED (R235). -/
def endUnfired (b q : Nat) (s : State) : State :=
  (s.copies.filter fun c => c.2.block == some b && c.2.buf == q && c.2.st == .waiting &&
    (c.2.kind.writesNear || c.2.kind.readsNear)).foldl (fun s c => endCopy c.1 0x06 s) s

/-- The operations BUFD waits for (R235). -/
def usersOf (s : State) (b q : Nat) : List Nat :=
  (s.copies.filter fun c => c.2.block == some b && c.2.buf == q && (c.2.kind.writesNear || c.2.kind.readsNear)).map Prod.fst ++
  (s.tops.filter fun t => t.2.block == b && t.2.kind.buffer == some q).map Prod.fst

/-- BUFD (R235). -/
def execBufd (o : FmtC) (s : State) : Outcome :=
  bufWord (.bufd o) (fun b _ => b.wrEmpty ((List.range 4).map (o.wa.toNat + ·))) (fun _ _ => false) (fun b m s =>
      let ws := (List.range 4).map fun k => (b.wr (o.wa.toNat + k)).val
      if !descOk ws (fun die => limitOf s b.warp (if die then .scratch else .shared)) then trapWord b m 0x03 s
      else
        let blk := b.warp.block.getD 0
        let q := o.buf.toNat
        let s := endUnfired blk q s
        startAct b m (.bufd q ws) (usersOf s blk q) s) s

/-- The descriptor is installed with every counter 0. Bytes engines have written to a scratchpad shadow and no PUBL has published stay
hidden in the second range, and are lost to the home state where it is no second range any more (R183). -/
def installBuf (b q : Nat) (ws : List Word) (s : State) : State :=
  let old := s.buf b q
  let new := descOf ws
  let kept := if new.kind = .plain && new.die && old.die then
      old.shadow.filter fun c => decide (new.second ≤ c.1) && decide (c.1 < new.second + new.size) else []
  s.modBuf b q fun _ => { new with shadow := kept }

/-! ### PUBL (R254) -/

/-- Whether an operation that writes a buffer came after a PUBL that has not yet exchanged it: it waits to write the new shadow
(R254). -/
def publHolds (s : State) (b q id : Nat) : Bool :=
  tany s.acts fun k a => decide (k < id) && !a.after.contains id && (match a.kind with
    | .publ b' q' _ swapped => b' == b && q' == q && !swapped
    | _ => false)

/-- Exchanges front and shadow and counts the publication. -/
def exchangeBuf (b q : Nat) (s : State) : State :=
  match s.block? b with
  | none => s
  | some x =>
    let y := x.buf q
    let front := nearRead s x y.die y.base y.size
    let back := nearRead s x y.die y.second y.size
    let s := s.modBuf b q fun z => { z with pubs := z.pubs + 1 }
    if y.die then
      let new := (List.range y.size).map fun k => (y.base + k, (tget y.shadow (y.second + k)).getD (back.getD k 0))
      homeWrite x.share new (s.modBuf b q fun z => { z with shadow := cellsAt y.second front })
    else s.modBlock b fun z => { z with mem := msetAll (msetAll z.mem (cellsAt y.base back)) (cellsAt y.second front) }

/-- PUBL (R254). -/
def execPubl (o : FmtC) (s : State) : Outcome :=
  bufWord (.publ o) noSource (fun s b => (wordBuf s b o.buf).kind != .plain || (o.mod == 1 && !(wordBuf s b o.buf).die))
    (fun b m s =>
      let blk := b.warp.block.getD 0
      startAct b m (.publ blk o.buf.toNat (o.mod == 1) false) (writersOf s blk o.buf.toNat) s) s

/-! ### RPUSH, RPOP, RWAIT and CPYQ (R250-R253) -/

/-- RPUSH (R250). -/
def execRpush (o : FmtC) (s : State) : Outcome :=
  bufWord (.rpush o) noSource (fun s b =>
      let q := wordBuf s b o.buf
      q.kind != .ring || q.psd || o.imm == 0 || decide (q.slots < o.imm.toNat) ||
      decide ((q.rl + BitVec.ofNat 32 q.slots - q.p).toNat < o.imm.toNat))
    (fun b m s => startAct b m (.rpush o.buf.toNat o.imm.toNat) (storesOf s b.w) s) s

/-- P advances by `k`; the slots' stores of a scratchpad siding leave the publish buffer for home and view (R250). -/
def pushSlots (b q k : Nat) (s : State) : State :=
  match s.block? b with
  | none => s
  | some x =>
    let y := x.buf q
    let addrs := (List.range k).map fun i => nearAddr y true y.p (i * y.size)
    let inSlot := fun a => addrs.any fun lo => decide (lo ≤ a) && decide (a < lo + y.size)
    let out := x.pub.filter fun c => inSlot c.1
    let s := s.modBuf b q fun z => { z with p := z.p + BitVec.ofNat 32 k, pr := z.p + BitVec.ofNat 32 k }
    if y.die then
      homeWrite x.share out (s.modBlock b fun z =>
        { z with pub := z.pub.filter fun c => !inSlot c.1, view := msetAll z.view out })
    else s

/-- RPOP (R251). -/
def execRpop (o : FmtC) (s : State) : Outcome :=
  bufWord (.rpop o) noSource (fun s b =>
      let q := wordBuf s b o.buf
      q.kind != .ring || q.csd || o.imm == 0 || decide ((q.aq - q.c).toNat < o.imm.toNat))
    (fun b _ s => finishWord b (s.modBuf (b.warp.block.getD 0) o.buf.toNat fun q =>
      { q with c := q.c + o.imm.setWidth 32, cr := q.c + o.imm.setWidth 32 })) s

/-- RWAIT.c and RWAIT.p (R252). -/
def rwaitWord (i : Instr) (o : FmtC) (prod : Bool) (s : State) : Outcome :=
  bufWord i noSource (fun s b =>
      let q := wordBuf s b o.buf
      q.kind != .ring || (if prod then q.psd else q.csd) || o.imm == 0 || decide (q.slots < o.imm.toNat))
    (fun b _ s =>
      if !(b.wr o.token.toNat).full then blockWord b s
      else
        let s := takeToken b o.token.toNat s
        finishWord b { s with
          rwaits := tput s.rwaits s.fresh (b.warp.block.getD 0, o.buf.toNat, o.imm.toNat, o.token.toNat, prod)
          rwaitW := tput s.rwaitW s.fresh b.w
          fresh := s.fresh + 1 }) s

/-- RWAIT.c (R252). -/
def execRwaitC (o : FmtC) (s : State) : Outcome := rwaitWord (.rwaitC o) o false s
/-- RWAIT.p (R252). -/
def execRwaitP (o : FmtC) (s : State) : Outcome := rwaitWord (.rwaitP o) o true s

/-- The block acquires the slots from `from_` up to P: its view of a scratchpad siding's bytes is refreshed (R237). -/
def acquireSlots (b q : Nat) (from_ : Word) (s : State) : State :=
  match s.block? b with
  | none => s
  | some x =>
    let y := x.buf q
    if y.die then
      let n := min (y.p - from_).toNat y.slots
      let cells := (List.range n).flatMap fun i =>
        let a := nearAddr y true (from_ + BitVec.ofNat 32 i) 0
        cellsAt a (nearRead s x true a y.size)
      s.modBlock b fun z => { z with view := msetAll z.view cells }
    else s

/-- RWAIT_FILL (R252): a siding wait whose count is reached fills its token and moves the block's mark. The spec does not say what becomes of
one still pending when a BUFD redefines its buffer: the model lets it wait for the counters of the new descriptor (log entry 22). -/
def execRwaitFill (wait : Nat) (s : State) : Outcome :=
  match tget s.rwaits wait with
  | none => .next s
  | some (b, q, k, r, prod) =>
    let x := s.buf b q
    let w := tgetD s.rwaitW wait 0
    let clear := fun (s : State) => { s with rwaits := tdel s.rwaits wait, rwaitW := tdel s.rwaitW wait }
    if x.kind != .ring || s.parked b then .next s
    else if prod then
      if decide (k ≤ (x.c + BitVec.ofNat 32 x.slots - x.p).toNat) then
        .next (clear (fillToken w r x.c (s.modBuf b q fun y => { y with rl := y.c })))
      else .next s
    else if decide (k ≤ (x.p - x.c).toNat) then
      .next (clear (fillToken w r x.p (s.modBuf b q (fun y => { y with aq := y.p }) |> acquireSlots b q x.aq)))
    else .next s

/-- CPYQ (R253): the value is read as the word executes, and lands later (R97). -/
def execCpyq (o : FmtC) (s : State) : Outcome :=
  bufWord (.cpyq o) noSource (fun s b => o.mod != 3 && (wordBuf s b o.buf).kind == .none) (fun b _ s =>
    if !(b.wr o.token.toNat).full then blockWord b s
    else
      let q := wordBuf s b o.buf
      let v := match o.mod.toNat with
        | 0 => if q.kind = .ring then q.p else 0
        | 1 => if q.kind = .ring then q.c else 0
        | 2 => if q.kind = .ring then 0 else q.pubs
        | _ => ((s.block? (b.warp.block.getD 0)).map Block.sigma).getD 0
      let s := takeToken b o.token.toNat s
      finishWord b { s with acts := tput s.acts s.fresh ⟨b.w, 0, .cpyq o.token.toNat v, []⟩, fresh := s.fresh + 1 }) s

/-! ### The stages of waiting buffer words -/

/-- BUFD goes on once nothing uses the buffer: copies that fired and tile operations accepted while it waits are waited for too, and
copies accepted meanwhile end with ENDED like the earlier ones (R235; log entry 38). -/
def stepBufd (id b q : Nat) (ws : List Word) (s : State) : State :=
  let s := endUnfired b q s
  if (usersOf s b q).isEmpty then endAct id (installBuf b q ws s) else s

/-- The next stage of BUFD, PUBL and RPUSH (R235, R250, R254), and the landing of CPYQ's value (R253). -/
def stepBufAct (id : Nat) (a : EngineAct) (s : State) : State :=
  if !goneAll s a.after then s
  else match a.kind, actBlock s a with
    | .bufd q ws, some b => stepBufd id b q ws s
    | .cpyq r v, _ => fillToken a.warp r v { s with acts := tdel s.acts id }
    | .rpush q k, some b => endAct id (pushSlots b q k s)
    | .publ b q ref swapped, _ =>
      if swapped then endAct id (refresh b s)
      else
        let s := exchangeBuf b q s
        if ref then setAct id (.publ b q ref true) s else endAct id s
    | _, _ => s

end Sys2Proof.Machine
end

