-- ==== Sys2Proof/Machine/Copy.lean ====
section
/-! DEFINITION. The copy engine (spec 13_buffer R239-R249, R255-R257): parameter blocks and shapes, the copy words, firing,
the units of a copy, eviction, schedules and the stage counter. -/

namespace Sys2Proof.Machine

/-! ### Parameter blocks (R240-R242) -/

/-- A decoded parameter block; `zero` says that its unused bits are zero. -/
structure CopyPar where
  kind  : Nat
  esz   : Nat
  tr    : Bool
  sk    : Nat
  n0    : Nat
  n1    : Nat
  n2    : Nat
  f1    : Int
  f2    : Int
  e1    : Int
  e2    : Int
  saddr : Nat
  fmt   : Nat
  zero  : Bool
deriving DecidableEq, Repr

def parOf (bs : List Byte) : CopyPar :=
  let f := fun (o n : Nat) => leNat ((bs.drop o).take n)
  let ctl := f 0 4
  { kind := ctl / 2 ^ 28, esz := ctl / 2 ^ 25 % 8, tr := ctl / 2 ^ 24 % 2 == 1, sk := ctl / 2 ^ 20 % 16
    n0 := f 4 4, n1 := f 8 4, n2 := f 12 4, f1 := (BitVec.ofNat 64 (f 16 8)).toInt, f2 := (BitVec.ofNat 64 (f 24 8)).toInt
    e1 := (BitVec.ofNat 32 (f 32 4)).toInt, e2 := (BitVec.ofNat 32 (f 36 4)).toInt, saddr := f 40 8, fmt := f 48 4
    zero := ctl % 2 ^ 20 == 0 && f 52 12 == 0 }

/-- The element size z. -/
def CopyPar.z (p : CopyPar) : Nat := 2 ^ p.esz

/-- Bytes of the elements of one block. -/
def CopyPar.eb (p : CopyPar) : Nat := if p.sk = 0 then 1024 else 512

/-- The kinds of shape a copy accepts (R245). -/
def shapeAllowed (k : CopyKind) (kind : Nat) : Bool :=
  match k with
  | .cpyin    => kind == 0 || kind == 1
  | .cpyd out => kind == 0 || (!out && kind == 1)
  | .cpyg     => kind == 2
  | .cpys     => kind == 2
  | _ => kind == 0

/-- Whether the destination lies on the far side. -/
def CopyKind.destFar : CopyKind → Bool
  | .cpyout   => true
  | .cpys     => true
  | .cpyd out => out
  | .cpyfFar  => true
  | _ => false

def divides (z : Nat) (x : Int) : Bool := x % (z : Int) == 0

/-- The checks of R240-R242 on a copy's parameters, X its far start and N its near start. -/
def parBad (k : CopyKind) (p : CopyPar) (x n : Int) : Bool :=
  !p.zero || !shapeAllowed k p.kind || decide (4 < p.esz) ||
  (match p.kind with
   | 0 => p.tr || p.sk != 0 || p.saddr != 0 || p.fmt != 0 ||
       !([x, n, p.f1, p.f2, p.e1, p.e2].all (divides p.z))
   | 1 => p.esz != 0 || p.n2 != 1 || p.e2 != 0 || decide (1 < p.sk) || p.fmt / 2 ^ 28 != 0 || p.fmt % 2 ^ 12 != 0 ||
       !divides 16 x || p.saddr % 2 != 0 || !divides 16 n || !divides 16 p.e1
   | _ => p.n1 != 0 || p.n2 != 0 || p.f2 != 0 || p.e2 != 0 || p.tr || p.sk != 0 || p.saddr != 0 || p.fmt != 0 ||
       p.n0 % p.z != 0 || p.n0 % 16 != 0)

/-- A contiguous stretch of a copy: far and near start, bytes, and the scale's address of a BLOCK part. -/
structure Span where
  far  : Int
  near : Int
  len  : Nat
  sa   : Option Int
deriving DecidableEq, Repr

/-- The stretches of a copy's shape (R242, R246). -/
def shapeRuns (p : CopyPar) (rows : List (Nat × Nat)) (x n : Int) : List Span :=
  match p.kind with
  | 0 =>
    if p.n0 = 0 then []
    else (List.range p.n2).flatMap fun i2 => (List.range p.n1).map fun i1 =>
      ⟨x + p.f1 * i1 + p.f2 * i2, n + p.e1 * i1 + p.e2 * i2, p.z * p.n0, none⟩
  | 1 => (List.range p.n1).flatMap fun i1 => (List.range p.n0).map fun i0 =>
      ⟨x + (p.eb : Int) * i0 + p.f1 * i1, n + 1040 * (i0 : Int) + p.e1 * i1, 1040, some (p.saddr + 2 * (i0 : Int) + p.f2 * i1)⟩
  | _ => if p.n0 = 0 then [] else rows.map fun r => ⟨x + p.f1 * r.2, n + p.e1 * r.1, p.n0, none⟩

/-- Splits a stretch where either side meets an aligned 16-byte boundary. -/
def splitRun (near : Nat → Nat) (tag : Nat → Nat) : Nat → Nat → Nat → Nat → List Move
  | 0, _, _, _ => []
  | fuel + 1, far, o, len =>
    if len = 0 then []
    else
      let n := min len (min (16 - far % 16) (16 - o % 16))
      ⟨far, near o, n, tag o⟩ :: splitRun near tag fuel (far + n) (o + n) (len - n)

/-- A far address as the machine forms it, modulo 2^64. -/
def farMod (x : Int) : Nat := (x % 2 ^ 64).toNat

/-- The moves of a stretch: for a BLOCK part, one for each of its 65 near units. -/
def movesOf (near : Nat → Nat) (r : Span) : List Move :=
  match r.sa with
  | none => splitRun near (fun _ => 0) r.len (farMod r.far) r.near.toNat r.len
  | some sa => (List.range 65).map fun k => ⟨farMod r.far, near (r.near.toNat + 16 * k), 16, 1 + k + 65 * farMod sa⟩

/-! ### The target of CPYD (R247, R373) -/

/-- The die share a CPYD names. -/
def targetShare (s : State) (c : Copy) : Option (Nat × Share) :=
  match (c.block.bind s.block?).map Block.kern with
  | none => none
  | some k => tfind s.shares fun _ h => h.kern == k && h.index == c.far / 2 ^ 32

/-- Whether the target names no die share of the grid, or one whose blocks are all DONE. -/
def targetGone (s : State) (c : Copy) : Bool :=
  match ((c.block.bind s.block?).map Block.kern).bind s.kernel? with
  | none => true
  | some k => decide (k.launch.dieset.length ≤ c.far / 2 ^ 32) || ((targetShare s c).map fun h => h.2.ended).getD false

/-- Whether a share's window has been granted. -/
def Share.placed (h : Share) : Bool := h.next != 0

/-- The shape of a copy when it fires: its moves, or the status it ends with. For a CPYD of BLOCK shape the spec does not say where `saddr`
lies: the model reads the scales from the target's window, and checks them against its size (log entry 22). -/
def copyMoves (s : State) (c : Copy) : Except Nat (List Move) :=
  match c.par with
  | none => .error 0x05
  | some bs =>
    let p := parOf bs
    let b := (c.block.bind s.block?).map fun x => x.buf c.buf
    let usesNear := c.kind.writesNear || c.kind.readsNear
    let isCpyd := match c.kind with
      | .cpyd _ => true
      | _ => false
    let x : Int := if isCpyd then (c.far % 2 ^ 32 : Nat) else if c.kind = .cpyf then 0 else (c.far : Nat)
    let ring := (b.map fun q => q.kind == .ring).getD false
    let n : Int := if usesNear && !ring then 16 * c.imm else 0
    if c.bad || parBad c.kind p x n then .error 0x05
    else
      let runs := shapeRuns p c.rows x n
      let top := match b with
        | some q => if usesNear then some (if ring then c.imm * q.size else q.size) else none
        | none => none
      let outNear := match top with
        | some t => runs.any fun r => decide (r.near < 0) || decide ((t : Int) < r.near + r.len)
        | none => false
      let outFar := isCpyd && match targetShare s c with
        | some (_, h) => runs.any fun r =>
            decide (r.far < 0) || decide ((h.size : Int) < r.far + (if r.sa.isSome then p.eb else r.len)) ||
            (match r.sa with
             | some a => decide (a < 0) || decide ((h.size : Int) < a + 2)
             | none => false)
        | none => true
      if outNear || (isCpyd && (decide (2 ^ 48 ≤ c.far) || targetGone s c)) || outFar then .error 0x07
      else
        let near := fun o => match b with
          | some q => if usesNear then nearAddr q c.kind.readsNear c.start o else o
          | none => o
        let ms := runs.flatMap (movesOf near)
        .ok (if c.kind = .evict then ((ms.map fun m => m.far / 4096).dedup).map fun g => ⟨4096 * g, 0, 1, 0⟩ else ms)

/-! ### Issuing copies (R239) -/

/-- Places of a core's copy queue in use. -/
def copiesUsed (s : State) (die core : Nat) : Nat := (s.copies.filter fun c =>
  c.2.die == die && c.2.core == core && !((c.2.block.map s.parked).getD false)).length

/-- The words of a core that wait for copy places, oldest first. -/
def copyWaiters (s : State) (die core : Nat) : List (Nat × Pipe) := waitersOf s (s.core die core).copyQ 3

/-- The parameter block at offset O, as a load of the block would return it now (R239); none at a bad offset (R240). -/
def readPar (s : State) (w : Warp) (ps : Bool) (o : Nat) : Option (List Byte) :=
  if o % 64 = 0 && decide (o + 64 ≤ limitOf s w (if ps then .scratch else .shared)) then
    (s.warpBlock w).map fun b => (List.range 64).map fun k => if ps then viewByte b (o + k) else mget b.mem (o + k)
  else none

/-- Splits a list into commands of 32 rows (R246). -/
def rowCommands : Nat → List (Nat × Nat) → List (List (Nat × Nat))
  | 0, _ => []
  | n + 1, l => if l.isEmpty then [] else l.take 32 :: rowCommands n (l.drop 32)

/-- A copy before its rows are given. -/
def newCopy (s : State) (w : Nat) (x : Warp) (token : Nat) (kind : CopyKind) (par : Option (List Byte)) (far buf imm : Nat)
    (pat : Word) : Copy :=
  { ctx := x.ctx, block := x.block, die := x.die, core := x.core, warp := w, token := token, group := s.fresh, kind := kind
    par := par, far := far, buf := buf, imm := imm, rows := [], pat := pat, bad := false, step := issueStep s x.share
    st := .waiting, moves := [], pub := [], got := [], units := [], status := 0, start := 0, frozen := false }

/-- Accepts the commands of a copy word. -/
def acceptCopies (cs : List Copy) (s : State) : State :=
  let s := s.bump
  cs.foldl (fun s c => { s with copies := tput s.copies s.fresh c, fresh := s.fresh + 1 }) s

/-- The w registers a copy word reads (R239). -/
def copyWregs (kind : CopyKind) (o : FmtC) : List Nat :=
  (match kind with
   | .cpyf => []
   | _ => [o.wa.toNat, o.wa.toNat + 1]) ++ [o.wp.toNat]

/-- Whether a buffer suits a copy (R233, R242, R245). -/
def copyBufOk (kind : CopyKind) (q : Buffer) (imm : Nat) : Bool :=
  match q.kind with
  | .none  => false
  | .plain => true
  | .ring  => (if kind.writesNear then q.psd else q.csd) && decide (1 ≤ imm) && decide (imm ≤ q.slots)

/-- The registers that fill before a copy is accepted: each lane's index, or the lowest lane's pattern (R246, R248). -/
def copyLanes (kind : CopyKind) (b : Bundle) (m : Lanes) : List Nat :=
  match kind with
  | .cpyg => laneList b.warp.width m
  | .cpys => laneList b.warp.width m
  | .cpyf => (lowestLane b.warp.width m).toList
  | .cpyfFar => (lowestLane b.warp.width m).toList
  | _ => []

/-- Whether a register source of a copy word is empty (R239). -/
def copySources (kind : CopyKind) (o : FmtC) (b : Bundle) (m : Lanes) : Bool :=
  b.wrEmpty (copyWregs kind o) ||
  (copyLanes kind b m).any fun l => ((b.warp.thread l).map fun t => t.anyEmpty [o.v.toNat]).getD false

/-- The copy words (R239, R245). -/
def copyWord (i : Instr) (kind : CopyKind) (o : FmtC) (s : State) : Outcome :=
  bufWord i (fun b m => copySources kind o b m) (fun s b => (kind.writesNear || kind.readsNear) && !copyBufOk kind (wordBuf s b o.buf) o.imm.toNat)
    (fun b m s =>
      if !(b.wr o.token.toNat).full then blockWord b s
      else afterStores (fun b m s =>
        let ls := copyLanes kind b m
        if copySources kind o b m then blockWord b s
        else
          let val := fun l => laneVal b.warp l o.v false
          let rows := if kind = .cpyg || kind = .cpys then ls.zipIdx.map fun x => (x.2, (val x.1).toNat) else []
          let groups := if kind = .cpyg || kind = .cpys then rowCommands 4 rows else [[]]
          let q := copyWaiters s b.warp.die b.warp.core
          if !(decide (copiesUsed s b.warp.die b.warp.core + groups.length ≤ 128) && myTurn b q) then
            waitGrant b q (fun q c => { c with copyQ := q }) s
          else
            let far := if kind = .cpyf then 0 else (b.wr o.wa.toNat).val.toNat + 2 ^ 32 * (b.wr (o.wa.toNat + 1)).val.toNat
            let pat := (ls.head?.map val).getD 0
            let par := readPar s b.warp (o.mod.getLsbD 4) (b.wr o.wp.toNat).val.toNat
            let c := newCopy s b.w b.warp o.token.toNat kind par far o.buf.toNat o.imm.toNat pat
            finishWord b (acceptCopies (groups.map fun g => { c with rows := g }) (takeToken b o.token.toNat s))) b m s) s

/-- CPYIN (R245). -/
def execCpyin (o : FmtC) (s : State) : Outcome := copyWord (.cpyin o) .cpyin o s
/-- CPYOUT (R245). -/
def execCpyout (o : FmtC) (s : State) : Outcome := copyWord (.cpyout o) .cpyout o s
/-- CPYG (R246). -/
def execCpyg (o : FmtC) (s : State) : Outcome := copyWord (.cpyg o) .cpyg o s
/-- CPYS (R246). -/
def execCpys (o : FmtC) (s : State) : Outcome := copyWord (.cpys o) .cpys o s
/-- CPYD, and CPYD.out (R247). -/
def execCpyd (o : FmtC) (s : State) : Outcome := copyWord (.cpyd o) (.cpyd (o.mod.getLsbD 0)) o s
/-- CPYF (R248). -/
def execCpyf (o : FmtC) (s : State) : Outcome := copyWord (.cpyf o) .cpyf o s
/-- CPYF.far (R248). -/
def execCpyfFar (o : FmtC) (s : State) : Outcome := copyWord (.cpyfFar o) .cpyfFar o s
/-- PFCH (R248). -/
def execPfch (o : FmtC) (s : State) : Outcome := copyWord (.pfch o) .pfch o s
/-- EVICT (R338). -/
def execEvict (o : FmtC) (s : State) : Outcome := copyWord (.evict o) .evict o s

/-! ### Firing (R238, R258, R373) -/

/-- Whether a block's engine operations may fire: it is not being saved nor parked. -/
def blockFires (s : State) (b : Option Nat) : Bool :=
  match b with
  | none => true
  | some k => match s.block? k with
    | some x => !x.saving && x.st != .parked
    | none => false

/-- The side of a siding a copy takes slots on; none when it takes none. -/
def copySide (s : State) (c : Copy) : Option Bool :=
  match c.block with
  | none => none
  | some b =>
    if (s.buf b c.buf).kind = .ring && !c.bad then
      if c.kind.writesNear then some true else if c.kind.readsNear then some false else none
    else none

/-- Whether a CPYD waits for its target to be placed (R373). -/
def waitsTarget (s : State) (c : Copy) : Bool :=
  match c.kind with
  | .cpyd _ => decide (c.far < 2 ^ 48) && !targetGone s c && !((targetShare s c).map fun h => h.2.placed).getD false
  | _ => false

/-- The commands of a copy's word fire together (R246); what is left of a copy that was saved in the middle fires again as it is (R333). -/
def fireGroup (c : Copy) (start : Word) (s : State) : State :=
  { s with copies := tmap s.copies fun _ x =>
      if x.group != c.group || x.st != .waiting then x
      else if !x.moves.isEmpty then { x with st := .fired }
      else
        let x := { x with start := start }
        match copyMoves s x with
        | .error st => { x with st := .fired, status := st, moves := [] }
        | .ok ms => { x with st := .fired, moves := ms } }

/-- COPY_FIRE (R238): an accepted copy fires once its slots are available, behind the earlier ones of its siding, and behind a PUBL
that came before it (R254). A copy word reserves its slots once, whatever its commands (R242, R246). -/
def execCopyFire (copy : Nat) (s : State) : Outcome :=
  match tget s.copies copy with
  | none => .next s
  | some c =>
    if c.st != .waiting || c.frozen || !blockFires s c.block || waitsTarget s c then .next s
    else if !c.moves.isEmpty then .next (fireGroup c c.start s)
    else
      let b := c.block.getD 0
      if c.kind.writesNear && publHolds s b c.buf copy then .next s
      else match copySide s c with
        | none => .next (fireGroup c c.start s)
        | some prod =>
          let first := tfind s.copies fun _ x => x.group == c.group && x.st == .waiting
          if slotsReady (s.buf b c.buf) prod c.imm && !earlierWaits s b c.buf ((first.map Prod.fst).getD copy) then
            .next (fireGroup c (nextSlot (s.buf b c.buf) prod) (reserveSlots b c.buf prod c.group c.imm s))
          else .next s

/-! ### Far and near accesses of a fired copy -/

/-- The kernel and step of a copy's writes (R393). -/
def copyStep (s : State) (c : Copy) : Option (Nat × Word) :=
  match (c.block.bind s.block?).map Block.kern with
  | some k => some (k, c.step)
  | none => ((s.warp? c.warp).map Warp.kern).map fun k => (k, c.step)

/-- The dies a CPYD's access goes over. -/
def sharePath (c : Copy) (h : Share) : List Nat := if h.die = c.die then [] else [h.die]

/-- Reads far bytes of a copy that lie in one unit. -/
def farRead (id : Nat) (c : Copy) (a n : Nat) (s : State) : Ended (List Byte) × State :=
  match c.kind with
  | .cpyd _ =>
    match targetShare s c with
    | none => (.lost, s)
    | some (k, h) => overMesh (fun b => b) (fun b => b) (accessTag (.copy id) false a) 0 c.ctx c.die (sharePath c h) (fun s => s)
        (fun s => (.done (mbytes (((s.share? k).map Share.home).getD []) a n), s)) s
  | _ => readAccess (.copy id) c.ctx c.die a 0 16 (fun s => mainRead s c.ctx c.die a n) s

/-- Writes some bytes of the far unit at `a`, by their offsets, at one instant (R249); those of CPYD.out are published when the copy
completes (R247). -/
def farWrite (id : Nat) (c : Copy) (a : Nat) (cells : List Host.Cell) (s : State) : Ended Unit × State :=
  match c.kind with
  | .cpyd _ =>
    match targetShare s c with
    | none => (.lost, s)
    | some (_, h) => overMesh (fun _ => []) (fun _ => ()) (accessTag (.copy id) true a) 0 c.ctx c.die (sharePath c h) (fun s => s)
        (fun s => (.done (), { s with copies := tmod s.copies id fun y => { y with pub := y.pub ++ cells.map fun x => (a + x.1, x.2) } })) s
  | _ => writeAccess (.copy id) c.ctx c.die a 0 16 (fun s => mainUnit s c.ctx c.die a cells (copyStep s c)) s

/-- The name of a near source unit among those a copy has read. -/
def nearKey (a : Nat) : Nat := 2 ^ 64 + a

/-- A source unit as the copy has read it, or reads it by `read` now: it is read once, and every destination unit it feeds takes it from
there (R244, R249). -/
def sourceUnit (id key : Nat) (read : State → Ended (List Byte) × State) (s : State) : Ended (List Byte) × State :=
  match ((tget s.copies id).map Copy.got).bind fun g => tget g key with
  | some bs => (.done bs, s)
  | none =>
    match read s with
    | (.done bs, s) => (.done bs, { s with copies := tmod s.copies id fun c => { c with got := c.got ++ [(key, bs)] } })
    | r => r

/-- How a copy's read ended, and the address it failed at (R243). -/
abbrev Source (α : Type) := Ended α × Nat

/-- The end of a read that gives no data. -/
def Ended.noData {α : Type} (r : Ended α) : Ended (List Byte) :=
  match r with
  | .fail k => .fail k
  | .lost => .lost
  | .remote d k => .remote d k
  | _ => .wait

/-- Reads the aligned far units that some bytes lie in, each translated on its own (R341), and gives the bytes. -/
def farCells (id : Nat) (c : Copy) : List Nat → List Host.Cell → State → Source (List Host.Cell) × State
  | [], cs, s => ((.done cs, 0), s)
  | a :: rest, cs, s =>
    if (tget cs a).isSome then farCells id c rest cs s
    else
      let u := a / 16 * 16
      match sourceUnit id u (farRead id c u 16) s with
      | (.done bs, s) => farCells id c rest (cs ++ cellsAt u bs) s
      | (.fail k, s) => ((.fail k, a), s)
      | (.lost, s) => ((.lost, a), s)
      | (.remote d k, s) => ((.remote d k, a), s)
      | (_, s) => ((.wait, a), s)

/-- Reads far bytes at any addresses. -/
def farBytes (id : Nat) (c : Copy) (as : List Nat) (s : State) : Source (List Byte) × State :=
  match farCells id c as [] s with
  | ((.done cs, a), s) => ((.done (as.map fun a => (tget cs a).getD 0), a), s)
  | ((r, a), s) => ((r.noData, a), s)

/-- The far byte, and its high half, that each 4-bit element of near byte `j` of an SX4 block takes (R81, R82). -/
def nibbleOf (tr : Bool) (r c : Nat) : Nat × Bool := if tr then (16 * c + r / 2, r % 2 == 1) else (16 * r + c / 2, c % 2 == 1)

/-- One near unit of a BLOCK part (R242): elements, zeros, or the trailer. -/
def blockUnit (id : Nat) (c : Copy) (p : CopyPar) (m : Move) (s : State) : Source (List Byte) × State :=
  let k := (m.tag - 1) % 65
  let sa := (m.tag - 1) / 65
  if k = 64 then
    match farBytes id c [sa, (sa + 1) % 2 ^ 64] s with
    | ((.done bs, a), s) => ((.done (leBytes 4 (p.sk * 2 ^ 28 + p.fmt / 2 ^ 12 % 2 ^ 16 * 2 ^ 12 + leNat bs % 2 ^ 12) ++
        List.replicate 12 0), a), s)
    | r => r
  else if p.eb ≤ 16 * k then ((.done (List.replicate 16 0), m.far), s)
  else
    let js := (List.range 16).map (16 * k + ·)
    let offs := if p.sk = 0 then js.map fun j => if p.tr then 32 * (j % 32) + j / 32 else j
      else js.flatMap fun j => [(nibbleOf p.tr (j / 16) (2 * (j % 16))).1, (nibbleOf p.tr (j / 16) (2 * (j % 16) + 1)).1]
    match farBytes id c (offs.map fun o => (m.far + o) % 2 ^ 64) s with
    | ((.done bs, a), s) =>
      let at_ := fun (o : Nat) => bs.getD (offs.idxOf o) 0
      let nib := fun (x : Nat × Bool) => if x.2 then (at_ x.1).toNat / 16 else (at_ x.1).toNat % 16
      ((.done (if p.sk = 0 then bs
        else js.map fun j => BitVec.ofNat 8 (nib (nibbleOf p.tr (j / 16) (2 * (j % 16))) +
          16 * nib (nibbleOf p.tr (j / 16) (2 * (j % 16) + 1)))), a), s)
    | r => r

/-- The bytes of CPYF at destination address `a` (R248). -/
def patternAt (pat : Word) (z a n : Nat) : List Byte :=
  (List.range n).map fun i => BitVec.ofNat 8 (pat.toNat / 256 ^ ((a + i) % min z 4))

/-- The bytes of a move from the near side: they lie in one aligned unit of the window. -/
def nearBytes (id : Nat) (c : Copy) (m : Move) (s : State) : Source (List Byte) × State :=
  let u := m.near / 16 * 16
  let read := fun (s : State) => match c.block.bind s.block? with
    | some b => (Ended.done (nearRead s b (b.buf c.buf).die u 16), s)
    | none => (Ended.lost, s)
  match sourceUnit id (nearKey u) read s with
  | (.done bs, s) => ((.done ((bs.drop (m.near - u)).take m.len), m.far), s)
  | (r, s) => ((r, m.far), s)

/-- The bytes one move carries. -/
def moveData (id : Nat) (c : Copy) (m : Move) (s : State) : Source (List Byte) × State :=
  let p := parOf (c.par.getD [])
  match c.kind with
  | .cpyf => ((.done (patternAt c.pat p.z m.near m.len), m.near), s)
  | .cpyfFar => ((.done (patternAt c.pat p.z m.far m.len), m.far), s)
  | _ =>
    if c.kind.readsNear then nearBytes id c m s
    else if m.tag = 0 then farBytes id c ((List.range m.len).map (m.far + ·)) s
    else blockUnit id c p m s

/-! ### Eviction (R335, R338) -/

/-- A die's record of a page's reduction, if it has one: a done may have come before the die's own EVICT (R335). -/
def redOf (s : State) (die ctx page : Nat) : Option (Nat × Reduction) :=
  tfind (s.die die).reds fun _ r => r.ctx == ctx && r.page == page

/-- The words of a page that become FP32 when it becomes SHARDED (R335): those of the own and mirrored stripes, each
rounded, with the flags raised. -/
def sharedWords (s : State) (die : Nat) (p : Word64) (g : Group) : List (Nat × Rounded) :=
  ((List.range 1024).filter fun i => g.holds (s.mod.number, die) (4 * i / stripeBytes p % g.n)).map fun i =>
    (i, accumWord ((accumAt s die (4096 * pteFrame p + 8 * i)).getD 0) g.fs)

/-- A page of a reduction becomes SHARDED on a die (R335, R336). -/
def convertPage (die : Nat) (r : Reduction) (p : Word64) (g : Group) (s : State) : State :=
  let ws := sharedWords s die p g
  let s := ws.foldl (fun s w => engineDram r.ctx die (r.page + 4 * w.1) (4096 * pteFrame p + 4 * w.1) (leBytes 4 w.2.bits) s) s
  orFpstat r.ctx (ws.foldl (fun f w => f ||| w.2.flags) 0) (updateLeaf r.ctx die r.page (fun q => pteSet q 1 3 2) s)

/-- A done leaves for a die, whose record of the page it may open (R335): over the mesh, or as a frame to another module. -/
def sendDone (ctx page src from_ : Nat) (to_ : Nat × Nat) (s : State) : State :=
  let die := to_.2
  if to_.1 != s.mod.number then (sendFrame 2 from_ to_.1 die ctx 16 s).2
  else
    let (id, r) : Nat × Reduction := match redOf s die ctx page with
      | some x => x
      | none => (s.fresh, ⟨ctx, page, none, false, false, [], false, [], [], 0⟩)
    let s := (s.modDie die fun d => { d with reds := tput d.reds id { r with coming := r.coming ++ [src] } }).bump
    match ride 2 ctx from_ die [5, id, src] [] s with
    | (.cut, s) => remoteEnd ctx die page 0 s
    | (_, s) => s

/-- Where a member's done goes: to every other member and every mirror. -/
def doneDies (g : Group) (me : Nat × Nat) : List (Nat × Nat) :=
  (g.mem.take g.n ++ g.mir.reduceOption).dedup.filter (· != me)

/-- What a reduction's record calls for (R335): done messages once every send is answered or its receiver has failed; the
page SHARDED once the dones are in; the record given up after both. -/
def settleRed (die id : Nat) (s : State) : State :=
  match tget (s.die die).reds id with
  | none => s
  | some r =>
    match walk s r.ctx die r.page with
    | .error _ => s
    | .ok (p, _, _) =>
      match groupOf s r.ctx die (pteGroup p) with
      | none => s
      | some g =>
        let me := (s.mod.number, die)
        let mine := (List.range g.n).filter fun k => g.mem.getD k (0, 64) == me
        let member := !mine.isEmpty
        let others := (List.range g.n).filter fun k => !mine.contains k
        let send := r.active && !r.sent && r.sends.all fun x => decide (2 ≤ x.state)
        let conv := !r.conv && (if member then r.active && pteState p == 6 else pteState p == 5) && others.all r.dones.contains
        let r : Reduction := { r with sent := r.sent || send, conv := r.conv || conv }
        let s := s.modDie die fun d => { d with
          reds := if r.conv && (r.sent || !member) then tdel d.reds id else tput d.reds id r }
        let s := if conv then convertPage die r p g s else s
        if send then (doneDies g me).foldl (fun s d => mine.foldl (fun s k => sendDone r.ctx r.page k die d s) s) s else s

/-- Starts the reduction of a PARTIAL page (R335): its J values go to each other member and to the members' mirrors. -/
def startReduce (ctx die page : Nat) (p : Word64) (g : Group) (step : Option (Nat × Word)) (s : State) : State :=
  let me := (s.mod.number, die)
  let now := (s.die die).time
  let owner := fun (i : Nat) => 4 * i / stripeBytes p % g.n
  let js := fun (k : Nat) => ((List.range 1024).filter fun i => owner i == k).map fun i =>
    (i, (accumAt s die (4096 * pteFrame p + 8 * i)).getD 0)
  let send := fun (k : Nat) (x : Nat × Nat) (mir : Bool) => (⟨k, x.2, x.1, mir, js k, 0, now, false⟩ : RedSend)
  let sends := (List.range g.n).flatMap fun k =>
    if g.mem.getD k (0, 64) == me || (js k).isEmpty then []
    else send k (g.mem.getD k (0, 0)) false :: (((g.mir.getD k none).filter (· != me)).map fun x => send k x true).toList
  let s := updateLeaf ctx die page (fun q => pteSet q 1 3 6) s
  let (id, old) : Nat × Reduction := match redOf s die ctx page with
    | some x => x
    | none => (s.fresh, ⟨ctx, page, step, true, false, [], false, [], [], now⟩)
  let r : Reduction := { old with step := step, active := true, sends := sends, timer := now }
  let s := (sends.filter fun x => x.module != s.mod.number).foldl (fun s x => (sendFrame 2 die x.module x.die ctx (8 * x.stripes.length) s).2) s
  settleRed die id (s.modDie die fun d => { d with reds := tput d.reds id r }).bump

/-- Whether a die's reduction of a page still has unanswered sends. -/
def sendsOpen (s : State) (ctx die page : Nat) : Bool :=
  tany (s.die die).reds fun _ r => r.ctx == ctx && r.page == page && r.sends.any fun x => decide (x.state < 2)

/-- The step of EVICT on one page, in its turn there (R330, R338): the token waits until every send is acknowledged. -/
def evictPage (id : Nat) (c : Copy) (x : Nat) (s : State) : Ended Unit × State :=
  let h : Holder := .copy id
  let ctx := c.ctx
  let die := c.die
  match leafOf s ctx die x with
  | (.error k, s) => (.fail k, s)
  | (.ok p, s) =>
    let page := x / pageBytes p * pageBytes p
    if isHeld s die ctx x h && sendsOpen s ctx die page then (.wait, s)
    else if !heldTurn s die ctx x true h then (.wait, holdAccess die ctx x true h s)
    else match pteState p with
    | 1 => (.done (), freeAccess die ctx x h (if pteMode p = 1 then modTlb ctx die x (fun e => { e with valid := false }) s else s))
    | 3 => (.wait, holdAccess die ctx x true h s)
    | 4 => (.done (), freeAccess die ctx x h (updateLeaf ctx die x (fun q => pteSet q 1 3 2) s))
    | 5 => match groupOf s ctx die (pteGroup p) with
      | none => (.fail (groupFail s ctx die (pteGroup p)), s)
      | some g =>
        if g.mem.contains (s.mod.number, die) then
          (.wait, holdAccess die ctx x true h (startReduce ctx die page p g (copyStep s c) s))
        else (.done (), freeAccess die ctx x h s)
    | _ => (.done (), freeAccess die ctx x h s)

/-- The translation and page-state actions of PFCH at one unit (R248): those of a CPYIN's read, but it starts a gather, or meets one,
and does not wait for it. -/
def prefetch (id : Nat) (c : Copy) (x n : Nat) (s : State) : Ended Unit × State :=
  match farRead id c x n s with
  | (.done _, s) => (.done (), s)
  | (.fail k, s) => (.fail k, s)
  | (.lost, s) => (.lost, s)
  | (.remote d k, s) => (.remote d k, s)
  | (_, s) => match leafOf s c.ctx c.die x with
    | (.ok p, _) => if pteState p = 3 then (.done (), freeAccess c.die c.ctx x (.copy id) s) else (.wait, s)
    | (.error _, _) => (.wait, s)

/-! ### The units of a copy (R243, R249) -/

def modCopy (id : Nat) (f : Copy → Copy) (s : State) : State := { s with copies := tmod s.copies id f }

/-- The destination unit of a move. -/
def Copy.unitOf (c : Copy) (m : Move) : Nat :=
  match c.kind with
  | .pfch => m.far / 16
  | .evict => m.far / 16
  | _ => if c.kind.destFar then m.far / 16 else m.near / 16

/-- A copy's progress at its end: what it has been answered is forgotten. -/
def forgetCopy (id : Nat) (s : State) : State := dropMessages (.copy id) s

/-- A copy stops at a failing unit with its status (R243); an error on a remote operation ends the context. -/
def stopCopy {α : Type} (id : Nat) (c : Copy) (a : Nat) (r : Ended α) (s : State) : State :=
  let stop := fun (st : Nat) (s : State) => forgetCopy id (modCopy id (fun c => { c with status := st, moves := [] }) s)
  match r with
  | .fail 2 => stop 0x04 (logViolation c.ctx a 2 1 c.die s)
  | .fail _ => stop 0x01 (logViolation c.ctx a 1 1 c.die s)
  | .lost => stop 0x02 (logViolation c.ctx a 1 1 c.die s)
  | .remote d k => remoteEnd c.ctx d a k s
  | _ => s

/-- The destination bytes of some moves, by address. -/
def unitCells (id : Nat) (c : Copy) (addr : Move → Nat) : List Move → State → Source (List Host.Cell) × State
  | [], s => ((.done [], 0), s)
  | m :: ms, s =>
    match moveData id c m s with
    | ((.done bs, _), s) =>
      match unitCells id c addr ms s with
      | ((.done l, a), s) => ((.done (cellsAt (addr m) bs ++ l), a), s)
      | r => r
    | ((.fail k, a), s) => ((.fail k, a), s)
    | ((.lost, a), s) => ((.lost, a), s)
    | ((.remote d k, a), s) => ((.remote d k, a), s)
    | ((_, a), s) => ((.wait, a), s)

/-- One value for each byte: where a copy writes a byte more than once, which value it holds is a free choice for each byte (R242). -/
def chosenCells (seed : Nat) (cs : List Host.Cell) : List Host.Cell :=
  ((cs.map Prod.fst).dedup).zipIdx.map fun a =>
    let vs := (cs.filter fun c => c.1 == a.1).map Prod.snd
    (a.1, vs.getD (Config.choice (seed + a.2) % vs.length) 0)

/-- Writes the bytes of one far unit, or of the two units of a pair, at one instant. -/
def writeFar (id : Nat) (c : Copy) (u : Nat) (pair : Bool) (cs : List Host.Cell) (s : State) : Ended Unit × State :=
  if pair then
    let a := u / 2 * 32
    writeAccess (.copy id) c.ctx c.die a 0 32 (fun s => mainPair s c.ctx c.die a ((List.range 32).map fun i => (tget cs (a + i)).getD 0) (copyStep s c)) s
  else farWrite id c (16 * u) (cs.map fun x => (x.1 - 16 * u, x.2)) s

/-- Whether a copy still has every byte of the aligned 32-byte unit of far unit `u` to write, and the unit in DRAM holds
uncorrectable data: it is then written as one (R406). -/
def pairUnits (c : Copy) (u : Nat) (s : State) : Bool :=
  let a := u / 2 * 32
  c.kind.destFar && (match c.kind with
    | .cpyd _ => false
    | _ => true) && unitBad s c.ctx c.die a &&
  (List.range 32).all fun i => c.moves.any fun m => decide (m.far ≤ a + i) && decide (a + i < m.far + m.len)

/-- Performs one unit of a fired copy: every move of it at once. -/
def copyUnit (id u : Nat) (s : State) : State :=
  match tget s.copies id with
  | none => s
  | some c =>
    let pair := pairUnits c u s
    let mine := fun (m : Move) => if pair then c.unitOf m / 2 == u / 2 else c.unitOf m == u
    let ms := c.moves.filter mine
    match ms with
    | [] => s
    | m0 :: _ =>
      let used := fun (write : Bool) (x : Nat) => !write || x / 16 == u || (pair && x / 32 == u / 2)
      let fin := fun (count : Bool) (s : State) => dropAnswersOf (.copy id) used <| modCopy id (fun c =>
        { c with moves := c.moves.filter fun m => !mine m
                 units := if count then c.units ++ (if pair then [u / 2 * 2, u / 2 * 2 + 1] else [u]) else c.units }) s
      match c.kind with
      | .evict =>
        match evictPage id c m0.far s with
        | (.done (), s) => fin false s
        | (r, s) => stopCopy id c m0.far r s
      | .pfch =>
        match prefetch id c m0.far m0.len s with
        | (.done (), s) => fin false s
        | (r, s) => stopCopy id c m0.far r s
      | _ =>
        match unitCells id c (fun m => if c.kind.destFar then m.far else m.near) ms s with
        | ((.done l, _), s) =>
          let cs := if ms.length < 2 then l else chosenCells s.fresh l
          let s : State := if ms.length < 2 then s else { s with fresh := s.fresh + l.length }
          if c.kind.destFar then
            match writeFar id c u pair cs s with
            | (.done (), s) => fin true s
            | (r, s) => stopCopy id c m0.far r s
          else fin true (nearWrite (c.block.getD 0) c.buf c.group cs s)
        | ((r, a), s) => stopCopy id c a r s

/-- Performs the remaining units in turn, as far as they go. -/
def copyRest (id : Nat) : Nat → State → State
  | 0, s => s
  | n + 1, s =>
    match tget s.copies id with
    | none => s
    | some c =>
      match c.moves with
      | [] => s
      | m :: _ =>
        let t := copyUnit id (c.unitOf m) s
        match tget t.copies id with
        | none => t
        | some c' => if c'.moves.length = c.moves.length then t else copyRest id n t

/-- A copy with no unit left completes (R238, R243, R244, R247): its siding advances, the bytes of CPYD.out are published
at one position, and its token fills. -/
def finishCopy (id : Nat) (s : State) : State :=
  match tget s.copies id with
  | none => s
  | some c =>
    if c.st != .fired || !c.moves.isEmpty then s
    else
      let last := !tany s.copies fun k x => x.group == c.group && k != id
      let s := match copySide s c, last with
        | some prod, true => endSlots (c.block.getD 0) c.buf prod c.group s
        | _, _ => s
      let s := match c.kind, targetShare s c with
        | .cpyd true, some (h, _) => if c.pub.isEmpty then s else homeWrite h c.pub s
        | _, _ => s
      endCopy id c.status s

/-- COPY_COMPLETE (R243, R244): one unit of a fired copy, or (none) the rest and its token. -/
def execCopyComplete (copy : Nat) (unit : Option Nat) (s : State) : Outcome :=
  match tget s.copies copy with
  | none => .next s
  | some c =>
    if c.st != .fired || c.frozen then .next s
    else match unit with
      | some u => .next (copyUnit copy u s)
      | none => .next (finishCopy copy (copyRest copy c.moves.length s))

/-! ### Schedules and the stage counter (R255-R257) -/

/-- STAGE.max and STAGE.add (R257). -/
def stageWord (i : Instr) (o : FmtC) (f : Bundle → Word → Word) (s : State) : Outcome :=
  bufWord i (fun b _ => i == .stageMax o && b.wrEmpty [o.wp.toNat]) (fun _ _ => false) (afterStores fun b _ s =>
    if i == .stageMax o && !(b.wr o.wp.toNat).full then blockWord b s
    else finishWord b (s.modBlock (b.warp.block.getD 0) fun x => { x with sigma := f b x.sigma })) s

/-- STAGE.max (R257). -/
def execStageMax (o : FmtC) (s : State) : Outcome :=
  stageWord (.stageMax o) o (fun b x => if x.ult (b.wr o.wp.toNat).val then (b.wr o.wp.toNat).val else x) s
/-- STAGE.add (R257). -/
def execStageAdd (o : FmtC) (s : State) : Outcome :=
  stageWord (.stageAdd o) o (fun _ x => natWord (min (x.toNat + o.imm.toNat) (2 ^ 32 - 1))) s

/-- The lap an entry fires in next. -/
def Sched.lapOf (d : Sched) (e : Nat) : Nat := (tget d.fired e).getD 0

/-- When an entry's next firing is due; none when it has none left (R256). -/
def Sched.due (d : Sched) (e : Nat) (x : SchedEntry) : Option Nat :=
  if d.lap = 0 then (if d.lapOf e = 0 then some x.stage else none) else some (d.lapOf e * d.lap + x.stage)

/-- The next due firing: entry number and entry (R256). -/
def Sched.next (d : Sched) (sigma : Nat) : Option (Nat × SchedEntry) :=
  let cs := d.entries.zipIdx.filterMap fun x => match d.due x.2 x.1 with
    | some t => if t ≤ sigma && !x.1.skip then some (t, x.2, x.1) else none
    | none => none
  (cs.foldl (fun acc c => match acc with
    | none => some c
    | some a => if c.1 < a.1 then some c else some a) none).map fun c => (c.2.1, c.2.2)

/-- The copy an entry's op names (R255). -/
def schedKind (op : Nat) : Option CopyKind :=
  match op with
  | 0 => some .cpyin
  | 1 => some .cpyout
  | 2 => some (.cpyd false)
  | 3 => some (.cpyd true)
  | 5 => some .pfch
  | _ => none

/-- Fires one schedule entry for the warp `w` that stands for its index, `own` when that warp is attached. An entry whose buffer is of
another kind or side than its op needs, or whose count a RING does not allow, breaks no rule of R255, and R242 and R254 name its outcome only
for words: the model ends the copy with BAD-PARAMETER, and a PUBL entry does nothing (log entry 22). -/
def fireEntry (b : Nat) (x : Block) (d : Sched) (e : Nat) (en : SchedEntry) (w : Nat) (wp : Warp) (own : Bool) (s : State) :
    State :=
  let lap := d.lapOf e
  let s := s.modBlock b fun y => { y with sched := some { d with fired := tput d.fired e (lap + 1) } }
  let broken := en.zero || (d.lap != 0 && decide (d.lap ≤ en.stage))
  match schedKind en.op with
  | none => if broken then (if own then fillToken w en.token (tokenWord 0x05 0) s else s) else startPubl b en.buf w s
  | some kind =>
    let bad := broken || ((kind.writesNear || kind.readsNear) && !copyBufOk kind (x.buf en.buf) en.imm)
    let far := farMod ((en.far : Int) + lap * en.lap)
    let c := newCopy s (if own then w else s.fresh) wp en.token kind (readPar s wp en.ps en.param) far en.buf en.imm 0
    let s := if own then s.setWreg w en.token ⟨(wp.wregs.getD en.token zeroReg).val, false⟩ else s
    acceptCopies [{ c with bad := bad, core := coreOfIndex x en.warp }] s
where
  /-- A PUBL entry acts as R254 describes. -/
  startPubl (b q w : Nat) (s : State) : State :=
    if (s.buf b q).kind = .plain then
      { s with acts := tput s.acts s.fresh ⟨w, 0, .publ b q false false, writersOf s b q⟩, fresh := s.fresh + 1 }
    else s

/-- Changes the order in which a core's words, and blocks under their own names, wait for copy places (R239). -/
def modCopyQ (die core : Nat) (f : List (Nat × Pipe) → List (Nat × Pipe)) (s : State) : State :=
  s.modCore die core fun c => { c with copyQ := f c.copyQ }

/-- A schedule's copy takes a place of its warp's core, behind the words and blocks that wait for one already (R239, R256); it begins to
wait for one when none is free to it. -/
def schedPlace (block die core : Nat) (go : State → State) (s : State) : State :=
  let q := copyWaiters s die core
  if copiesUsed s die core < 128 && (q.isEmpty || q.head? == some (block, .a)) then go (modCopyQ die core (·.filter (· != (block, .a))) s)
  else modCopyQ die core (fun _ => if q.contains (block, .a) then q else q ++ [(block, .a)]) s

/-- SCHEDULE_FIRING (R256): the block's next due entry fires, once its token register is full, a copy once it has its place. -/
def execScheduleFiring (block : Nat) (s : State) : Outcome :=
  match s.block? block with
  | none => .next s
  | some x =>
    match x.sched with
    | none => .next s
    | some d =>
      match d.next x.sigma.toNat, s.blockWarps block with
      | some (e, en), (w0, p0) :: rest =>
        if x.saving || !(x.st == .running || x.st == .shrinking) then .next s
        else
          let core := coreOfIndex x en.warp
          let place := fun (go : State → State) (s : State) => if (schedKind en.op).isNone then go s else schedPlace block x.die core go s
          match ((w0, p0) :: rest).find? fun y => y.2.index == en.warp with
          | some (w, p) =>
            if (p.wregs.getD en.token zeroReg).full then .next (place (fireEntry block x d e en w p true) s)
            else .next (modCopyQ x.die core (·.filter (· != (block, .a))) s)
          | none => .next (place (fireEntry block x d e en w0 p0 false) s)
      | _, _ => .next s

/-- COPY_QUEUE_ACCEPT (R239): the copy word of a core, or the block whose schedule fires one, that has waited longest gets its places, when
one is free. -/
def execCopyQueueAccept (die core : Nat) (s : State) : Outcome :=
  if copiesUsed s die core < 128 then
    let q := copyWaiters s die core
    match q.head? with
    | some (k, _) => if (s.block? k).isSome then execScheduleFiring k s else .next (grantFirst q s)
    | none => .next s
  else .next s

end Sys2Proof.Machine
end

