-- ==== Sys2Proof/Machine/Tile.lean ====
section
/-! DEFINITION. The matrix engine (spec 03_numbers R79-R91, 14_tile R259-R275): residues, tiles, the A operand and signing,
the tile words and their performance. -/

namespace Sys2Proof.Machine

/-! ### Residue triples (R86, R90) -/

def modP : Nat := 65521
def modO : Nat := 65535
def modE : Nat := 65536

/-- M and M/2 of R86. -/
def bigM : Nat := modP * modO * modE
def halfM : Nat := bigM / 2

/-- The triple of three channel values, each reduced. -/
def triple (p o e : Int) : BitVec 48 :=
  BitVec.ofNat 48 ((p % modP).toNat * 2 ^ 32 + (o % modO).toNat * 2 ^ 16 + (e % modE).toNat)

/-- ResidueOf (R7). -/
def residueOf (i : Int) : BitVec 48 := triple i i i

def resP (x : BitVec 48) : Nat := x.toNat / 2 ^ 32
def resO (x : BitVec 48) : Nat := x.toNat / 2 ^ 16 % 2 ^ 16
def resE (x : BitVec 48) : Nat := x.toNat % 2 ^ 16

/-- CRT (R90). -/
def crt (x : BitVec 48) : Int :=
  let k1 : Int := ((resO x : Int) - resE x) % modO
  let y : Int := resE x + 65536 * k1
  let k2 : Int := ((resP x : Int) - resE x - 15 * k1) % modP * 65209 % modP
  let u := y + 4294901760 * k2
  if u < halfM then u else u - bigM

/-- A triple written raw: each channel modulo its modulus (R86). -/
def rawTriple (y : Nat) : BitVec 48 := triple (y / 2 ^ 32 % 2 ^ 16 : Nat) (y / 2 ^ 16 % 2 ^ 16 : Nat) (y % 2 ^ 16 : Nat)

/-- The sum of a triple and an integer. -/
def addResidue (x : BitVec 48) (c : Int) : BitVec 48 := triple (resP x + c) (resO x + c) (resE x + c)

/-! ### Tiles (R87, R259, R260) -/

def clearRow : TileRow := ⟨none, false, 0⟩

/-- A clear tile with headroom H (R271). -/
def clearTile (h : Nat) : Tile :=
  { elems := List.replicate 1024 (residueOf 0), head := h, cls := .unset, base := none, rows := List.replicate 32 clearRow
    range := false, rounded := false, bias := none }

/-- Tile `k` of half `half` of a block. -/
def Block.tile (b : Block) (half k : Nat) : Tile := ((b.tiles[half]?).bind fun ts => ts[k]?).getD (clearTile 8)

def State.modTile (s : State) (b half k : Nat) (f : Tile → Tile) : State :=
  s.modBlock b fun x => { x with tiles := lmod x.tiles half fun ts => lmod ts k f }

/-- The tiles a block holds on each of its cores (R259). -/
def tileCount (s : State) (w : Warp) : Nat := ((s.launch? w).map Launch.tiles).getD 0

def Tile.row (t : Tile) (r : Nat) : TileRow := t.rows.getD r clearRow
def Tile.elem (t : Tile) (r c : Nat) : BitVec 48 := t.elems.getD (32 * r + c) (residueOf 0)

/-- The base a row drains with: the tile's for an SX tile, the row's own otherwise (R87). -/
def Tile.baseOf (t : Tile) (r : Nat) : Option Int := if t.cls = .sx then t.base else (t.row r).base

/-- Adds to a row's witness; the range flag is set when it reaches M/2 (R88, R273). -/
def Tile.witness (t : Tile) (r m : Nat) : Tile :=
  let w := min ((t.row r).wit + m) (2 ^ 64 - 1)
  { t with rows := lmod t.rows r (fun x => { x with wit := w }), range := t.range || decide (halfM ≤ w) }

/-! ### Format words (R83, R84) -/

def fmtKind (w : Word) : Nat := w.toNat / 2 ^ 28
def fmtBias (w : Word) : Int := (w.extractLsb' 12 16).toInt
def fmtScale (w : Word) : Nat := w.toNat % 2 ^ 12

/-- The bias check of R84. -/
def biasOk (b : Int) : Bool := decide (-4096 ≤ b) && decide (b ≤ 4095)

/-- Whether a format word may be read as an operand of one of the kinds (R84). -/
def fmtOk (kinds : List Nat) (w : Word) : Bool := kinds.contains (fmtKind w) && biasOk (fmtBias w)

/-- The format word of its fields. -/
def fmtWord (kind : Nat) (bias : Int) (scale : Nat) : Word :=
  natWord (kind * 2 ^ 28 + (bias % 2 ^ 16).toNat * 2 ^ 12 + scale)

/-! ### The A operand (R262, R263) -/

/-- The lane that supplies byte `c` of row `r`, and which of its bytes. -/
def supplier (w r c : Nat) : Nat × Nat :=
  match w with
  | 16 => (r % 16, 32 * (r / 16) + c)
  | 32 => (r, c)
  | 64 => (r + 32 * (c / 16), c % 16)
  | _  => (r + 32 * (c / 8), c % 8)

/-- The lanes that supply bytes of row `r`, in ascending order. -/
def rowLanes (w r : Nat) : List Nat :=
  match w with
  | 16 => [r % 16]
  | 32 => [r]
  | 64 => [r, r + 32]
  | _  => [r, r + 32, r + 64, r + 96]

/-- The 1,024 bytes of the A operand that the staged signers in `m` supply. -/
def operandA (w : Nat) (staged : Table Staged) (m : Lanes) : List Byte :=
  (List.range 1024).map fun k =>
    let (l, i) := supplier w (k / 32) (k % 32)
    if m.getLsbD l then
      match tget staged l with
      | some g => (g.regs.getD (i / 4) 0).extractLsb' (8 * (i % 4)) 8
      | none => 0
    else 0

/-- The 32 row codes (R263). -/
def rowCodes (w : Nat) (staged : Table Staged) (m : Lanes) (kind scale : Nat) : List Nat :=
  (List.range 32).map fun r =>
    if kind < 2 then scale
    else match (rowLanes w r).find? m.getLsbD with
      | some l => ((tget staged l).map fun g => fmtScale g.fmt).getD 0
      | none => 0

def signed8 (b : Nat) : Int := if b < 128 then b else (b : Int) - 256
def signed4 (b : Nat) : Int := if b < 8 then b else (b : Int) - 16

/-- Element `c` of a row of bytes, 8-bit or 4-bit (R81). -/
def rowElem (four : Bool) (bs : List Byte) (c : Nat) : Int :=
  if four then signed4 ((bs.getD (c / 2) 0).toNat / 16 ^ (c % 2) % 16) else signed8 (bs.getD c 0).toNat

/-- The elements of an A operand, row by row. -/
def elemsA (kind : Nat) (rows : List Byte) : List (List Int) :=
  (List.range 32).map fun r => (List.range 32).map (rowElem (kind % 2 == 1) ((rows.drop (32 * r)).take 32))

/-- The elements of a stored square block, row by row, transposed under .t (R81, R82, R270). -/
def elemsB (kind : Nat) (t : Bool) (bs : List Byte) : List (List Int) :=
  let e := fun (r c : Nat) => if kind = 1 then rowElem true ((bs.drop (16 * r)).take 16) c else rowElem false ((bs.drop (32 * r)).take 32) c
  (List.range 32).map fun k => (List.range 32).map fun j => if t then e j k else e k j

/-! ### The product (R88, R270) -/

def maxAbs (l : List Int) : Nat := (l.map Int.natAbs).foldl max 0

/-- D · 2^e as the integer that enters, and whether it was rounded (R88). -/
def scaled (d e : Int) : Int × Bool :=
  if 0 ≤ e then (d * 2 ^ e.toNat, false) else roundInt .rn (dyInt d e)

/-- ⌈n · 2^e⌉. -/
def ceilScale (n : Nat) (e : Int) : Nat :=
  if 0 ≤ e then n * 2 ^ e.toNat else (n + 2 ^ (-e).toNat - 1) / 2 ^ (-e).toNat

/-- One row's update (R88): `ds` the exact sums D, `cA` and `cB` the codes. -/
def updateRow (t : Tile) (sx : Bool) (r : Nat) (ds : List Int) (cA cB maxA maxB : Nat) : Tile :=
  if cA = 0xFFF || cB = 0xFFF then { t with rows := lmod t.rows r fun x => { x with nan := true } }
  else if cA = 0 || cB = 0 then t
  else
    let s : Int := (cA : Int) - 2047 + (cB - 2047)
    let base := (if sx then t.base else (t.row r).base).getD (s - t.head)
    let t := if sx then { t with base := some base } else { t with rows := lmod t.rows r fun x => { x with base := some base } }
    let e := s - base
    let cs := ds.map fun d => scaled d e
    let t := { t with
      elems := t.elems.mapIdx fun k x => if k / 32 = r then addResidue x (cs.getD (k % 32) (0, false)).1 else x
      rounded := t.rounded || cs.any Prod.snd }
    t.witness r (ceilScale (32 * maxA * maxB) e)

/-- One MMA into a tile: latch A and block B (R270). -/
def mmaTile (t : Tile) (z : Bool) (h : Nat) (a : Latch) (bk : Nat) (tr : Bool) (bs : List Byte) (bw : Word) : Tile :=
  let t := if z then clearTile h else t
  let sx := decide (a.kind < 2)
  let live := a.codes.any (· != 0)
  let t := if t.cls = .unset && live then { t with cls := if sx then .sx else .vx } else t
  let t := if t.bias.isNone && live then { t with bias := some (a.bias + fmtBias bw) } else t
  let as_ := elemsA a.kind a.rows
  let b := elemsB bk tr bs
  let maxA := maxAbs as_.flatten
  let maxB := maxAbs b.flatten
  let row := fun (r : Nat) => as_.getD r []
  let dot := fun (r j : Nat) => ((List.range 32).map fun k => (row r).getD k 0 * (b.getD k []).getD j 0).foldl (· + ·) 0
  (List.range 32).foldl (fun t r =>
    updateRow t sx r ((List.range 32).map (dot r)) (a.codes.getD r 0) (fmtScale bw) (if sx then maxA else maxAbs (row r)) maxB) t

/-! ### The frame of the tile words (R259, R261) -/

/-- The T-format words: the static tile and buffer checks, then `act` for the guard-true lanes. -/
def tileWord (i : Instr) (o : FmtT) (names : Bool) (bad : State → Bundle → Bool) (act : Bundle → Lanes → State → State)
    (s : State) : Outcome :=
  runWord i (fun b m s =>
    if (names && decide (tileCount s b.warp ≤ o.tile.toNat)) || bad s b then trapWord b b.iss.lanes 0x03 s
    else if m = 0 then finishWord b s
    else act b m s) s

/-- The half of its block a warp stands on. -/
def warpHalf (s : State) (w : Warp) : Nat := ((s.warpBlock w).map fun x => halfOf x w.core).getD 0

/-- Queues one tile operation of the bundle, or blocks while the queue is full (R261). -/
def queueTile (b : Bundle) (tile : Nat) (kind : TileKind) (s : State) : State :=
  if tilePlace s b.warp.die b.warp.core then
    finishWord b { s with
      tops := tput s.tops s.fresh
        { ctx := b.warp.ctx, block := b.warp.block.getD 0, warp := b.w, die := b.warp.die, core := b.warp.core
          half := warpHalf s b.warp, tile := tile, kind := kind, fired := false, units := [], start := 0, vals := [], biasV := 0
          frozen := false, step := issueStep s b.warp.share }
      fresh := s.fresh + 1 }
  else blockWord b s

/-! ### Signing (R264-R268) -/

/-- The buffer check of MMA (R270). -/
def mmaBufBad (o : FmtT) (s : State) (b : Bundle) : Bool :=
  let q := s.buf (b.warp.block.getD 0) o.q.toNat
  q.kind != .ring || !q.csd || decide (q.size < 1040)

/-- The registers a signer stages. -/
def stageRegs (w : Nat) (o : FmtT) : List Nat := regRange o.va.toNat (256 / w)

/-- Where an MMA word stands, for a thread that acts anew. -/
def wordPoint (b : Bundle) : CodePt :=
  if b.iss.idx = 0 then atHeader b.iss.hdr else ⟨b.iss.hdr, some ⟨b.iss.cls, b.iss.words.length - 1, b.iss.idx⟩, false⟩

/-- MMA and MMA.keep on a mask (R264). -/
def signAct (o : FmtT) (keep : Bool) (b : Bundle) (m : Lanes) (s : State) : State :=
  trapThen b m (b.inHandler m) 0x02 (fun m s =>
    let k := o.mask.toNat
    let x : Warp := b.warp
    let mask := (x.masks[k]?).getD ⟨0, 0, 0, none⟩
    let mem := m &&& mask.bits
    let busy := match mask.round with
      | some r => r.st != RoundState.opened
      | none => false
    if busy then
      finishWord b (dropLanes b mem (s.mapLanes b.w mem fun _ t => { t with st := .waiting (.resign k), pc := wordPoint b }))
    else
      let same := match mask.round with
        | some r => r.tile == o.tile.toNat && r.q == o.q.toNat && r.mod == o.mod.toNat && r.imm == o.imm.toNat
        | none => true
      if !same then trapWord b mem 0x03 s
      else
        let rs := if keep then [] else o.vf.toNat :: stageRegs x.width o
        if (laneList x.width mem).any fun l => ((x.thread l).map fun t => t.anyEmpty rs).getD false then blockWord b s
        else
          let fmt := fun l => laneVal x l o.vf false
          let bad := if keep then (if x.latch.valid then 0 else mem)
            else laneFilter x.width mem fun l => !fmtOk [0, 1, 2, 3] (fmt l)
          let good := mem &&& ~~~ bad
          let s := trapLanes b.w bad b.at_ 0x03 (fun _ => 0) (fun _ => 0) s
          if good = 0 then finishWord b s
          else
            let stage := fun l => (⟨if keep then [] else (stageRegs x.width o).map fun r => ((x.thread l).map fun t => (t.reg r).val).getD 0,
              if keep then 0 else fmt l, b.iss.hdr, b.iss.idx, b.iss.words.length - 1⟩ : Staged)
            let r0 : SignRound := mask.round.getD ⟨o.tile.toNat, o.q.toNat, o.mod.toNat, o.imm.toNat, 0, [], .opened⟩
            let r := { r0 with signed := r0.signed ||| good
                               staged := (laneList x.width good).foldl (fun t l => tput t l (stage l)) r0.staged }
            let s := s.modWarp b.w fun y => { y with masks := lmod y.masks k fun z => { z with round := some r } }
            checkSign b.w k (finishWord b (waitLanes b good (.sign k) s))) s

/-- MMA (R264). -/
def execMma (o : FmtT) (s : State) : Outcome := tileWord (.mma o) o true (mmaBufBad o) (signAct o false) s
/-- MMA.keep (R268). -/
def execMmaKeep (o : FmtT) (s : State) : Outcome := tileWord (.mmaKeep o) o true (mmaBufBad o) (signAct o true) s

/-! ### The join (R261) -/

/-- Whether an accepted operation's earlier operations on its tile have performed, and the earlier MMAs of its warp have
fired; an operation that names no tile waits for the earlier writers of its buffer (R285). -/
def joined (s : State) (id : Nat) (t : TileOp) : Bool :=
  let noTile := match t.kind with
    | .qdual .. => true
    | .rqnt .. => true
    | _ => false
  !(tany s.tops fun k u => decide (k < id) &&
    ((u.warp == t.warp && u.kind.isMma) ||
     (if noTile then u.block == t.block && u.kind.writes == t.kind.writes
      else u.block == t.block && u.half == t.half && u.tile == t.tile &&
        (match u.kind with
         | .qdual .. => false
         | .rqnt .. => false
         | _ => true))))

/-- Whether the block of a tile operation may fire operations now. -/
def tileFires (s : State) (t : TileOp) : Bool := blockFires s (some t.block)

/-- An operation has performed: its queue place frees. R261 does not say whether a place frees at firing or at performing: the model's
choice is that it is held until the operation has performed, all 256 units of a tile update (log entry 22). -/
def endTile (id : Nat) (s : State) : State :=
  match tget s.tops id with
  | none => s
  | some t => reapWarp t.warp (acceptRounds t.die t.core { s with tops := tdel s.tops id })

/-- FORMAT-DIVERGENCE on every signer, each at its own MMA word (R266). -/
def diverge (w m : Nat) (x : Warp) (r : SignRound) (s : State) : State :=
  let s' := (laneList x.width r.signed).foldl (fun acc l =>
    match tget r.staged l with
    | some g => if (x.thread l).any Thread.live then enterTrap w l ⟨g.hdr, g.idx, 4, g.count⟩ 0x05 0 0 x.trapTarget acc else acc
    | none => acc) s
  closeRound w m s'

/-- The latch an MMA enters with: its own staged A, or the warp's latch under .keep. -/
def enteringLatch (x : Warp) (keep : Bool) (r : SignRound) (m : Lanes) : Latch :=
  if keep then x.latch
  else
    let f := ((lowestLane x.width m).bind fun l => (tget r.staged l).map Staged.fmt).getD 0
    ⟨true, operandA x.width r.staged m, rowCodes x.width r.staged m (fmtKind f) (fmtScale f), fmtKind f, fmtBias f⟩

/-- Whether the format words of the signers in `m` agree (R266). -/
def wordsAgree (x : Warp) (r : SignRound) (m : Lanes) : Bool :=
  let ws := (laneList x.width m).filterMap fun l => (tget r.staged l).map Staged.fmt
  match ws with
  | [] => true
  | w :: _ => ws.all fun v => if fmtKind w < 2 then v == w else v.extractLsb' 12 20 == w.extractLsb' 12 20

/-- MMA_FIRE (R266): an accepted MMA is cancelled, diverges, or issues. -/
def execMmaFire (top : Nat) (s : State) : Outcome :=
  match tget s.tops top with
  | none => .next s
  | some t =>
    match t.kind, s.warp? t.warp, s.block? t.block with
    | .mma m z tr keep h q, some x, some blk =>
      match (x.masks[m]?).bind fun k => k.round.map fun r => (k.bits, r) with
      | none => .next s
      | some (bits, r) =>
        if !joined s top t || !tileFires s t then .next s
        else
          let mem := r.signed &&& bits
          if mem = 0 then .next (closeRound t.warp m (endTile top s))
          else
            let b := s.buf t.block q
            if !slotsReady b false 1 || earlierWaits s t.block q top then .next s
            else
              let bs := nearRead s blk b.die (nearAddr b true b.cr 0) 1028
              let bw := natWord (leNat (bs.drop 1024))
              let a := enteringLatch x keep r mem
              let tile := blk.tile t.half t.tile
              let cls : TileClass := if a.kind < 2 then .sx else .vx
              let ok := decide (fmtKind bw < 2) && biasOk (fmtBias bw) && (keep || wordsAgree x r mem) &&
                a.kind % 2 == fmtKind bw && (z || tile.cls == .unset || tile.cls == cls)
              let s := endSlots t.block q false top (reserveSlots t.block q false top 1 s)
              let s := endTile top s
              if ok then
                let s := s.modTile t.block t.half t.tile fun u => mmaTile u z h a (fmtKind bw) tr bs bw
                .next (closeRound t.warp m (s.modWarp t.warp fun y => { y with latch := a }))
              else .next (diverge t.warp m x r s)
    | _, _, _ => .next s

/-! ### MCLR, MLDT, MMOVR, MMOVW and MQRY (R271-R275) -/

/-- MCLR (R271). -/
def execMclr (o : FmtT) (s : State) : Outcome :=
  tileWord (.mclr o) o true (fun _ _ => false) (fun b _ s => queueTile b o.tile.toNat (.mclr (o.imm.toNat % 16)) s) s

/-- MLDT (R272). -/
def execMldt (o : FmtT) (s : State) : Outcome :=
  tileWord (.mldt o) o true (fun s b =>
      let q := s.buf (b.warp.block.getD 0) o.q.toNat
      q.kind != .plain || decide (q.size < 16 * o.imm.toNat + 8192))
    (withLeader [⟨o.vf.toNat, 1, false⟩] (fun _ => false) fun b m l s =>
      let x := laneVal b.warp l o.vf false
      let c := x.toNat / 2 ^ 18 % 4
      if x.toNat / 2 ^ 20 != 0 || c == 0 || c == 3 then trapWord b m 0x03 s
      else queueTile b o.tile.toNat (.mldt (o.mod == 1) o.q.toNat o.imm.toNat x) s) s

/-- Element or row numbers of a word's lanes: v[vf] + imm12 (R273, R274). -/
def elemIndex (o : FmtT) (b : Bundle) (l : Nat) : Nat := (laneVal b.warp l o.vf false + o.imm.setWidth 32).toNat

/-- The per-lane tile words: lanes whose index is at the limit or above trap; the others' registers `rs` must be full. -/
def laneTile (i : Instr) (o : FmtT) (limit : Nat) (uses : Bool) (rs : List Nat) (kind : Bundle → List Nat → TileKind)
    (dst : List Nat) (s : State) : Outcome :=
  tileWord i o true (fun _ _ => false) (fun b m s =>
    if uses && (laneList b.warp.width m).any fun l => ((b.warp.thread l).map fun t => t.anyEmpty [o.vf.toNat]).getD false then
      blockWord b s
    else
      let bad := if uses then laneFilter b.warp.width m fun l => decide (limit ≤ elemIndex o b l) else 0
      let good := m &&& ~~~ bad
      let s := trapLanes b.w bad b.at_ 0x03 (fun _ => 0) (fun _ => 0) s
      if good = 0 || (s.warp? b.w).isNone then finishWord b s
      else if (laneList b.warp.width good).any fun l => ((b.warp.thread l).map fun t => t.anyEmpty rs).getD false then blockWord b s
      else if !tilePlace s b.warp.die b.warp.core then blockWord b s
      else queueTile b o.tile.toNat (kind b (laneList b.warp.width good)) (s.mapLanes b.w good fun _ t => t.empty dst)) s

/-- Whether a lane's destination lies in the trap window. -/
def laneWin (b : Bundle) (l r : Nat) : Bool := ((b.warp.thread l).map fun t => t.inWin r).getD false

/-- MMOVR (R273). -/
def execMmovr (o : FmtT) (s : State) : Outcome :=
  laneTile (.mmovr o) o 1024 true (regRange o.va.toNat 2)
    (fun b ls => .mmovr (o.mod == 1) o.va.toNat (ls.map fun l => (l, elemIndex o b l, laneWin b l o.va.toNat)))
    (regRange o.va.toNat 2) s

/-- MMOVW (R273). -/
def execMmovw (o : FmtT) (s : State) : Outcome :=
  laneTile (.mmovw o) o 1024 true (regRange o.va.toNat 2)
    (fun b ls => .mmovw (o.mod == 1) (ls.map fun l =>
      (l, elemIndex o b l, ((b.warp.thread l).map fun t => t.pair o.va.toNat).getD 0))) [] s

/-- MQRY (R274). -/
def execMqry (o : FmtT) (s : State) : Outcome :=
  laneTile (.mqry o) o 32 (o.mod == 1) [o.va.toNat]
    (fun b ls => .mqry (o.mod == 1) o.va.toNat (ls.map fun l =>
      (l, if o.mod == 1 then elemIndex o b l else 0, laneWin b l o.va.toNat))) [o.va.toNat] s

/-- The base as it reads in MQRY's words: set bit and 14 bits. -/
def baseWord (b : Option Int) : Nat :=
  match b with
  | none => 0
  | some x => 2 ^ 23 + (x % 2 ^ 14).toNat

/-- The status word of a tile (R274). -/
def tileStatus (t : Tile) : Word :=
  let cls := match t.cls with
    | .unset => 0
    | .sx => 1
    | .vx => 2
  natWord ((if t.range then 2 ^ 31 else 0) + (if t.rounded then 2 ^ 30 else 0) + cls * 2 ^ 28 + t.head * 2 ^ 24 +
    (if t.cls = .vx then 0 else baseWord t.base))

/-- The status word of a row (R274). -/
def rowStatus (t : Tile) (r : Nat) : Word :=
  natWord ((if (t.row r).nan then 2 ^ 31 else 0) + (if halfM ≤ (t.row r).wit then 2 ^ 30 else 0) + baseWord (t.baseOf r))

/-- A tile loaded in binary form (R272): `y` the raw value of each element. -/
def loadTile (raw : Bool) (x : Word) (y : Nat → Nat) : Tile :=
  let vals := (List.range 1024).map y
  let elems := vals.map fun v => if raw then rawTriple v else residueOf (BitVec.ofNat 64 v).toInt
  let mags := vals.map fun v => if raw then (crt (rawTriple v)).natAbs else (BitVec.ofNat 64 v).toInt.natAbs
  let wit := fun (r : Nat) => min (((mags.drop (32 * r)).take 32).foldl max 0) (2 ^ 64 - 1)
  let sx := x.toNat / 2 ^ 18 % 4 == 1
  let base : Int := (x.extractLsb' 0 14).toInt
  { elems := elems, head := x.toNat / 2 ^ 14 % 16, cls := if sx then .sx else .vx, base := if sx then some base else none
    rows := (List.range 32).map fun r => ⟨if sx then none else some base, false, wit r⟩
    range := (List.range 32).any fun r => decide (halfM ≤ wit r), rounded := false, bias := none }

/-- One lane's MMOVW (R273). -/
def writeElem (raw : Bool) (t : Tile) (e : Nat) (v : Word64) : Tile :=
  let x := if raw then rawTriple v.toNat else residueOf v.toInt
  let m := if raw then (crt x).natAbs else v.toInt.natAbs
  { t with elems := t.elems.set e x }.witness (e / 32) m

/-- Lands a tile operation's results: per lane, its registers and window. -/
def landTile (w dst : Nat) (vs : List (Nat × Bool × List Word)) (s : State) : State :=
  s.modWarp w fun x => vs.foldl (fun x v => x.modThread v.1 fun t =>
    v.2.2.zipIdx.foldl (fun t r => t.land v.2.1 (dst + r.2) ⟨r.1, true⟩) t) x

/-- What MMOVR delivers for an element (R273). -/
def readElem (raw : Bool) (t : Tile) (e : Nat) : Word64 :=
  let x := t.elems.getD e 0
  if raw then x.setWidth 64 else BitVec.ofInt 64 (crt x)

/-- Performs MCLR, MLDT, MMOVR, MMOVW or MQRY at its tile. -/
def performTile (t : TileOp) (s : State) : State :=
  match s.block? t.block with
  | none => s
  | some b =>
    let tile := b.tile t.half t.tile
    match t.kind with
    | .mclr h => s.modTile t.block t.half t.tile fun _ => clearTile h
    | .mldt raw q n x =>
      let f := b.buf q
      let bs := nearRead s b f.die (nearAddr f true 0 (16 * n)) 8192
      s.modTile t.block t.half t.tile fun _ => loadTile raw x fun k => leNat ((bs.drop (8 * k)).take 8)
    | .mmovr raw dst ls => landTile t.warp dst (ls.map fun l =>
        let v := readElem raw tile l.2.1
        (l.1, l.2.2, [loOf v, hiOf v])) s
    | .mmovw raw ls => s.modTile t.block t.half t.tile fun u => ls.foldl (fun u l => writeElem raw u l.2.1 l.2.2) u
    | .mqry row dst ls => landTile t.warp dst (ls.map fun l =>
        (l.1, l.2.2, [if row then rowStatus tile l.2.1 else tileStatus tile])) s
    | _ => s

end Sys2Proof.Machine
end

