-- ==== Sys2Proof/Machine/Drain.lean ====
section
/-! DEFINITION. The drain (spec 15_drain R276-R287): MDRAIN in its store and update modes, QDUAL and RQNT, tile updates at
the port, and the performance of tile operations. -/

namespace Sys2Proof.Machine

/-! ### Drained values and blocks (R277, R281) -/

/-- The exact value I · 2^e of an element; none for NaN (R277). -/
def drainVal (t : Tile) (r c : Nat) : Option (Int × Int) :=
  if (t.row r).nan then none
  else match t.baseOf r with
    | none => some (0, 0)
    | some b => some (crt (t.elem r c), b)

/-- The values of a tile, row by row. -/
def drainVals (t : Tile) : List (Option (Int × Int)) := (List.range 1024).map fun k => drainVal t (k / 32) (k % 32)

/-- Round(v · 2^−k, int, mode). -/
def roundAt (mode : Rnd) (v : Int × Int) (k : Int) : Int := (roundInt mode (dyInt v.1 (v.2 - k))).1

/-- The least k of R281 for values that are not all 0. -/
def leastScale (mode : Rnd) (emax : Int) (vs : List (Int × Int)) : Int :=
  let nz := vs.filter fun v => v.1 != 0
  let tops := nz.map fun v => topExp v.1.natAbs v.2
  let top := tops.foldl max (tops.headD 0)
  (((List.range 12).map fun i => top - 9 + (i : Int)).find? fun k => nz.all fun v => decide ((roundAt mode v k).natAbs ≤ emax.natAbs)).getD
    (top + 2)

/-- A block converted to Speax: its code and elements (R281). -/
def toBlock (mode : Rnd) (emax : Int) (vs : List (Option (Int × Int))) : Nat × List Int :=
  if vs.any Option.isNone then (0xFFF, vs.map fun _ => 0)
  else
    let xs := vs.map fun v => v.getD (0, 0)
    if xs.all fun v => v.1 == 0 then (0, vs.map fun _ => 0)
    else
      let code := satInt (leastScale mode emax xs + 2047) 1 4094
      (code.toNat, xs.map fun v => satInt (roundAt mode v (code - 2047)) (-emax) emax)

/-- Bytes of 8-bit elements. -/
def bytes8 (es : List Int) : List Byte := es.map fun e => BitVec.ofInt 8 e

/-- Bytes of 4-bit elements, even columns low (R81). -/
def bytes4 : List Int → List Byte
  | a :: b :: l => BitVec.ofNat 8 ((a % 16).toNat + 16 * (b % 16).toNat) :: bytes4 l
  | [a] => [BitVec.ofNat 8 (a % 16).toNat]
  | [] => []

/-- A value rounded to a floating format (R280). -/
def drainFloat (f : Fmt) (mode : Rnd) (v : Option (Int × Int)) : Nat :=
  match v with
  | none => f.nan
  | some x => (roundFin f mode false (dyInt x.1 x.2)).bits

def rowsOf {α : Type} (l : List α) : List (List α) := (List.range 32).map fun r => (l.drop (32 * r)).take 32

/-- The element bytes and the scale record of a store drain (R279-R282). -/
def drainBytes (t : Tile) (fmt : Nat) (mode : Rnd) : List Byte × List Byte :=
  let vs := drainVals t
  let bias := t.bias.getD 0
  let record := fun (kind scale : Nat) => leBytes 4 (fmtWord kind bias scale).toNat ++ List.replicate 12 0
  match fmt with
  | 0 => (vs.flatMap fun v => leBytes 4 (drainFloat fp32 mode v), record 15 0)
  | 1 => (vs.flatMap fun v => leBytes 2 (drainFloat bf16 mode v), record 14 0)
  | 2 => let b := toBlock mode 127 vs; (bytes8 b.2, record 0 b.1)
  | 3 => let b := toBlock mode 7 vs; (bytes4 b.2, record 1 b.1)
  | _ =>
    let bs := (rowsOf vs).map (toBlock mode 127)
    (bs.flatMap fun b => bytes8 b.2, record 2 0 ++ bs.flatMap fun b => leBytes 2 b.1)

/-! ### MDRAIN to a buffer (R279) -/

/-- Element bytes of a store mode. -/
def drainSize (fmt : Nat) : Nat := if fmt = 0 then 4096 else if fmt = 1 then 2048 else if fmt = 3 then 512 else 1024

/-- The rounding a T-format word names in mod [16:15] (R278). -/
def drainRnd (o : FmtT) : Nat := o.mod.toNat / 8

/-- Whether two ranges overlap. -/
def overlaps (a n b m : Nat) : Bool := decide (a < b + m) && decide (b < a + n)

/-- MDRAIN.f32, .bf16, .sx8, .sx4 and .vx8 (R279-R282). -/
def execMdrain (o : FmtT) (s : State) : Outcome :=
  let q0 := fun (s : State) (b : Bundle) => s.buf (b.warp.block.getD 0) o.q.toNat
  tileWord (.mdrain o) o true (fun s b =>
      let q := q0 s b
      q.kind == .none || (q.kind == .ring && (!q.psd || o.imm != 0)))
    (withLeader [⟨o.va.toNat, 1, false⟩] (fun _ => false) fun b m l s =>
      let q := q0 s b
      let fmt := o.mod.toNat % 8
      let n := if q.kind = .ring then 0 else 16 * o.imm.toNat
      let at_ := (laneVal b.warp l o.va false).toNat
      let rec_ := if fmt = 4 then 80 else 16
      if at_ % 16 != 0 || decide (q.size < n + drainSize fmt) || decide (q.size < at_ + rec_) || overlaps n (drainSize fmt) at_ rec_ then
        trapWord b m 0x03 s
      else queueTile b o.tile.toNat (.mdrain fmt (drainRnd o) o.q.toNat n at_) s) s

/-! ### Tile updates (R283, R284) -/

/-- The values of an update with the product bias taken out (R283). -/
def updateVals (t : Tile) : List (Option (Int × Int)) :=
  (drainVals t).map fun v => v.map fun x => (x.1, x.2 - t.bias.getD 0)

/-- MDRAIN.add and MDRAIN.upd (R283). -/
def updateWord (i : Instr) (o : FmtT) (upd : Bool) (s : State) : Outcome :=
  let mem := o.mod.toNat / 8 == 1
  tileWord i o true (fun _ _ => false)
    (withLeader ([⟨o.va.toNat, if mem then 2 else 1, false⟩] ++ (if upd then [⟨o.vf.toNat, 1, false⟩] else [])) (fun _ => false)
      fun b m l s =>
        let t := b.warp.thread l
        let x := (t.map fun t => if mem then (t.pair o.va.toNat).toNat else (t.reg o.va.toNat).val.toNat).getD 0
        let stride := 16 * o.imm.toNat
        if x % 16 != 0 || decide (o.imm.toNat < 8) ||
            (!mem && decide (limitOf s b.warp .scratch < x + 31 * stride + 128)) then trapWord b m 0x03 s
        else queueTile b o.tile.toNat (.update upd mem x stride (if upd then laneVal b.warp l o.vf false else 0)) s) s

/-- MDRAIN.add (R283). -/
def execMdrainAdd (o : FmtT) (s : State) : Outcome := updateWord (.mdrainAdd o) o false s
/-- MDRAIN.upd (R283). -/
def execMdrainUpd (o : FmtT) (s : State) : Outcome := updateWord (.mdrainUpd o) o true s

/-- V as a value. -/
def updateVal (v : Option (Int × Int)) : FVal :=
  match v with
  | none => .nan false
  | some x => .fin (dyInt x.1 x.2)

/-- The new word of an update and its flags (R283). -/
def updateNew (upd : Bool) (lr : Word) (v : Option (Int × Int)) (old : Word) : Word × Flags :=
  let a := fp32.decode old.toNat
  let y := updateVal v
  let r : Rounded :=
    if upd then
      let l := (fp32.decode lr.toNat).neg
      if l.isNan || y.isNan then quiet fp32 [l, y, a]
      else match l.mul y with
        | none => invalid fp32
        | some p => if a.isNan then quiet fp32 [a] else addVals fp32 .rn a p
    else if a.isNan || y.isNan then quiet fp32 [a, y] else addVals fp32 .rn a y
  (natWord r.bits, r.flags)

/-- The four words of a unit at main memory, in one step. -/
def rmwUnit (ctx die : Nat) (upd : Bool) (lr : Word) (step : Option (Nat × Word)) : List (Nat × Option (Int × Int)) → State →
    Ended Unit × State
  | [], s => (.done (), s)
  | (a, v) :: rest, s =>
    match mainRmw s ctx die a (fun old => let r := updateNew upd lr v old; (some r.1, r.2)) (if upd then none else some (updateVal v)) step with
    | (.done _, s) => rmwUnit ctx die upd lr step rest s
    | (.wait, s) => (.wait, s)
    | (.held, s) => (.held, s)
    | (.far m d, s) => (.far m d, s)
    | (.fail k, s) => (.fail k, s)
    | (.lost, s) => (.lost, s)
    | (.remote d k, s) => (.remote d k, s)

/-- A unit at main memory as one indivisible operation: it is changed whole, or not at all (R283, R284). -/
def rmwWhole (ctx die : Nat) (upd : Bool) (lr : Word) (step : Option (Nat × Word)) (ws : List (Nat × Option (Int × Int)))
    (s : State) : Ended Unit × State :=
  match rmwUnit ctx die upd lr step ws s with
  | (.done (), s') => (.done (), s')
  | (r, _) => (r, s)

/-- Performs unit `u` of a tile update at its port (R283). -/
def updateUnit (id u : Nat) (s : State) : State :=
  match tget s.tops id with
  | none => s
  | some t =>
    match t.kind, s.block? t.block with
    | .update upd mem addr stride lr, some b =>
      if !t.fired || decide (256 ≤ u) || t.units.contains u then s
      else
        let a := addr + u / 8 * stride + 16 * (u % 8)
        let ws := (List.range 4).map fun k => (a + 4 * k, t.vals.getD (32 * (u / 8) + 4 * (u % 8) + k) none)
        let fin := fun (s : State) => dropAnswersOf (.tile id) (fun _ x => x == a)
          { s with tops := tmod s.tops id fun t => { t with units := t.units ++ [u] } }
        if mem then
          match writeAccess (.tile id) t.ctx t.die a 1 16 (rmwWhole t.ctx t.die upd lr (some (b.kern, t.step)) ws) s with
          | (.done (), s) => fin s
          | (.fail k, s) => fin (logViolation t.ctx a k 3 t.die s)
          | (.lost, s) => fin (logViolation t.ctx a 1 3 t.die s)
          | (.remote d k, s) => remoteEnd t.ctx d a k s
          | (_, s) => s
        else
          let home := ((s.share? b.share).map Share.home).getD []
          let rs := ws.map fun w => (w.1, updateNew upd lr w.2 (natWord (mread home w.1 4)))
          let s := orFpstat t.ctx ((rs.map fun r => r.2.2).foldl (· ||| ·) 0) s
          fin (homeWrite b.share (rs.flatMap fun r => cellsAt r.1 (leBytes 4 r.2.1.toNat)) s)
    | _, _ => s

/-- PORT_OPERATION (R189): an atomic, WAITV check or NOTE is performed, or a unit of a tile update. -/
def execPortOperation (op unit : Nat) (s : State) : Outcome :=
  match tget s.ops op with
  | some o => match o.act with
    | some a => .next (tryEdge a (portOp op s))
    | none => .next (portOp op s)
  | none => .next (updateUnit op unit s)

/-- TILE_UPDATE_PERFORM (R284): a tile update all of whose units are done has performed. -/
def execTileUpdatePerform (top : Nat) (s : State) : Outcome :=
  match tget s.tops top with
  | none => .next s
  | some t => if t.fired && decide (256 ≤ t.units.length) then .next (endTile top s) else .next s

/-! ### QDUAL and RQNT (R286, R287) -/

/-- QDUAL (R286). -/
def execQdual (o : FmtT) (s : State) : Outcome :=
  tileWord (.qdual o) o false (fun _ _ => false)
    (withLeader [⟨o.va.toNat, 1, false⟩, ⟨o.vf.toNat, 1, false⟩] (fun _ => false) fun b m l s =>
      let q := s.buf (b.warp.block.getD 0) o.q.toNat
      let bf := o.mod.getLsbD 0
      let at_ := (laneVal b.warp l o.va false).toNat
      let f := laneVal b.warp l o.vf false
      let n := 16 * o.imm.toNat
      if q.kind != .plain || at_ % 16 != 0 || fmtKind f != 0 || fmtScale f != 0 || !biasOk (fmtBias f) ||
          decide (q.size < n + (if bf then 2048 else 4096)) || decide (q.size < at_ + 2192) then trapWord b m 0x03 s
      else queueTile b 0 (.qdual bf (drainRnd o) o.q.toNat n at_ f) s) s

/-- The bytes of a square block record of a kind: elements and trailer. -/
def recordSize (kind : Nat) : Nat := if kind = 4 then 4112 else 1040

/-- RQNT (R287). -/
def execRqnt (o : FmtT) (s : State) : Outcome :=
  tileWord (.rqnt o) o false (fun _ _ => false)
    (withLeader [⟨o.va.toNat, 1, false⟩, ⟨o.vf.toNat, 1, false⟩] (fun _ => false) fun b m l s =>
      let q := s.buf (b.warp.block.getD 0) o.q.toNat
      let at_ := (laneVal b.warp l o.va false).toNat
      let f := laneVal b.warp l o.vf false
      let n := 16 * o.imm.toNat
      if q.kind != .plain || at_ % 16 != 0 || !fmtOk [0, 1, 4] f || fmtScale f == 0xFFF ||
          decide (q.size < n + 1040) || decide (q.size < at_ + recordSize (fmtKind f)) then trapWord b m 0x03 s
      else queueTile b 0 (.rqnt (drainRnd o) o.q.toNat n at_ f) s) s

/-- An input of QDUAL: NaN and infinities make NaN blocks. -/
def dualVal (f : Fmt) (x : Nat) : Option (Int × Int) :=
  match f.decode x with
  | .fin d => some (if d.neg then -(d.m : Int) else d.m, d.e)
  | _ => none

/-- QDUAL's output (R286). -/
def dualBytes (bf : Bool) (mode : Rnd) (w : Word) (bs : List Byte) : List Byte :=
  let z := if bf then 2 else 4
  let vs := (List.range 1024).map fun k => dualVal (if bf then bf16 else fp32) (leNat ((bs.drop (z * k)).take z))
  let rows := (rowsOf vs).map (toBlock mode 127)
  let cols := ((List.range 32).map fun c => (List.range 32).map fun r => vs.getD (32 * r + c) none).map (toBlock mode 127)
  (rows.flatMap fun b => bytes8 b.2) ++ (cols.flatMap fun b => bytes8 b.2) ++ (rows.flatMap fun b => leBytes 2 b.1) ++
  (cols.flatMap fun b => leBytes 2 b.1) ++ leBytes 4 (fmtWord 2 (fmtBias w) 0).toNat ++ List.replicate 12 0

/-- The elements of a square block of a kind. -/
def squareElems (kind : Nat) (bs : List Byte) : List Int :=
  (List.range 1024).map fun k =>
    match kind with
    | 0 => signed8 (bs.getD k 0).toNat
    | 1 => signed4 ((bs.getD (k / 2) 0).toNat / 16 ^ (k % 2) % 16)
    | _ => (BitVec.ofNat 32 (leNat ((bs.drop (4 * k)).take 4))).toInt

/-- The format word of RQNT's source record (R287). Where the bytes fit both a record of 1,024 element bytes and one of
4,096, which one the engine takes is a free choice (log entry 10). -/
def sourceWord (s : State) (bs : List Byte) : Word :=
  let near := natWord (leNat ((bs.drop 1024).take 4))
  let far := natWord (leNat ((bs.drop 4096).take 4))
  let wide := decide (4112 ≤ bs.length) && fmtKind far == 4
  if wide && decide (fmtKind near < 2) then (if Config.bit s.fresh then far else near) else if wide then far
  else if fmtKind near = 4 then fmtWord 15 0 0 else near

/-- RQNT's output, elements and trailer (R287): source word and bytes, target word. -/
def requantBytes (mode : Rnd) (sw tw : Word) (bs : List Byte) : List Byte × List Byte :=
  let ks := fmtKind sw
  let kt := fmtKind tw
  let emax : Int := if kt = 0 then 127 else if kt = 1 then 7 else 2 ^ 31 - 1
  let cs := fmtScale sw
  let bad := !fmtOk [0, 1, 4] sw || cs == 0xFFF
  let zero := cs == 0 || fmtScale tw == 0
  let code := if bad then 0xFFF else if zero then 0 else fmtScale tw
  let k : Int := ((fmtScale tw : Int) - 2047) - ((cs : Int) - 2047 + fmtBias tw - fmtBias sw)
  let es := if bad || zero then List.replicate 1024 0
    else (squareElems ks bs).map fun e => satInt (roundAt mode (e, 0) k) (-emax) emax
  let body := match kt with
    | 0 => bytes8 es
    | 1 => bytes4 es
    | _ => es.flatMap fun e => leBytes 4 (intWord e).toNat
  (body, leBytes 4 (fmtWord kt (fmtBias tw) code).toNat ++ List.replicate 12 0)

/-! ### Performing tile operations (R261, R285) -/

/-- Writes a drain's two regions from near offsets `n` and `o`. -/
def drainWrite (t : TileOp) (id q n o : Nat) (start : Word) (els rec_ : List Byte) (s : State) : State :=
  let b := s.buf t.block q
  nearWrite t.block q id (cellsAt (nearAddr b false start n) els ++ cellsAt (nearAddr b false start o) rec_) s

/-- TILE_OPERATION_PERFORM (R261): an accepted tile operation fires and performs; a tile update fires. -/
def execTileOperationPerform (top : Nat) (s : State) : Outcome :=
  match tget s.tops top with
  | none => .next s
  | some t =>
    let held := match t.kind.writes with
      | some q => publHolds s t.block q top
      | none => false
    if t.fired || !joined s top t || !tileFires s t || held then .next s
    else match s.block? t.block with
      | none => .next s
      | some b =>
        let tile := b.tile t.half t.tile
        match t.kind with
        | .mma _ _ _ _ _ _ => .next s
        | .mdrain fmt rnd q n o =>
          let d := drainBytes tile fmt (rndOf rnd)
          if (b.buf q).kind = .ring then
            if slotsReady (b.buf q) true 1 && !earlierWaits s t.block q top then
              let start := (b.buf q).pr
              .next (endTile top (endSlots t.block q true top (drainWrite t top q n o start d.1 d.2 (reserveSlots t.block q true top 1 s))))
            else .next s
          else .next (endTile top (drainWrite t top q n o 0 d.1 d.2 s))
        | .update _ _ _ _ _ =>
          .next { s with tops := tput s.tops top { t with fired := true, vals := updateVals tile } }
        | .qdual bf rnd q n o w =>
          let f := b.buf q
          let bs := nearRead s b f.die (nearAddr f true 0 n) (if bf then 2048 else 4096)
          .next (endTile top (drainWrite t top q o o 0 (dualBytes bf (rndOf rnd) w bs) [] s))
        | .rqnt rnd q n o w =>
          let f := b.buf q
          let bs := nearRead s b f.die (nearAddr f true 0 n) (min 4112 (f.size - n))
          let r := requantBytes (rndOf rnd) (sourceWord s bs) w bs
          .next (endTile top (drainWrite t top q o (o + if fmtKind w = 4 then 4096 else 1024) 0 r.1 r.2 s.bump))
        | _ => .next (endTile top (performTile t s))

end Sys2Proof.Machine
end

