-- ==== Sys2Proof/Machine/Sync.lean ====
section
/-! DEFINITION. The synchronization words: masks (spec 06_group R148-R152), block, die and tree barriers (10_barrier
R200-R215), ATTACH, DETACH, YIELD and SLEEP (07_block R167-R171), ENQ (17_kernel R297), and the steps of their engines. -/

namespace Sys2Proof.Machine

/-! ### Masks (R150, R151) -/

/-- MJOIN (R150). -/
def execMjoin (o : FmtS) (s : State) : Outcome :=
  runWord (.mjoin o) (fun b m s => finishWord b (if m = 0 then s else writeMask b.w o.idx.toNat (· ||| m) s)) s

/-- MLEAVE (R150). -/
def execMleave (o : FmtS) (s : State) : Outcome :=
  runWord (.mleave o) (fun b m s => finishWord b (if m = 0 then s else writeMask b.w o.idx.toNat (· &&& ~~~ m) s)) s

/-- Threads that wait at `w` record their arrival at mask `k` (R149, R150). -/
def arriveMask (w k : Nat) (m : Lanes) (s : State) : State :=
  let s := s.mapLanes w m fun _ t => { t with st := .waiting (.mask k) }
  checkMask w k (s.modWarp w fun x => { x with masks := lmod x.masks k fun r => { r with arr := r.arr ||| m, wait := r.wait ||| m } })

/-- The bits [32k+31:32k] of a set, replaced, joined or cleared by a word (R151). -/
def sliceMask (mod k : Nat) (w : Nat) (x : Word) (bits : Lanes) : Lanes :=
  let all : Lanes := (BitVec.allOnes 32).setWidth 128 <<< (32 * k)
  let v : Lanes := x.setWidth 128 <<< (32 * k)
  (match mod with
   | 0 => (bits &&& ~~~ all) ||| v
   | 1 => bits ||| v
   | _ => bits &&& ~~~ v) &&& allLanes w

/-- MSET (R151): the lowest guard-true lane's value. -/
def execMset (o : FmtS) (s : State) : Outcome :=
  runWord (.mset o) (withLeader [⟨o.v.toNat, 1, false⟩] (fun _ => false) fun b _ l s =>
    let x := ((b.warp.thread l).map fun t => (t.reg o.v.toNat).val).getD 0
    finishWord b (writeMask b.w o.idx.toNat (sliceMask o.mod.toNat o.imm.toNat b.warp.width x) s)) s

/-- MGET (R151). -/
def execMget (o : FmtS) (s : State) : Outcome :=
  laneWord (.mget o) [] [o.v.toNat] (fun w _ t =>
    let v := match w.masks[o.idx.toNat]? with
      | some r => lanesWord (if o.mod == 0 then r.bits else r.arr) o.imm.toNat
      | none   => 0
    (t.put o.v.toNat v, 0)) s

/-! ### Block barriers (R200-R204) -/

/-- The token of an arrival: the round it is recorded in (R202). -/
def arrivalToken (bar : Barrier) (x : Nat × Nat) : Word :=
  if bar.members.contains x && !bar.arrived.contains x then bar.counter else bar.counter + 1

/-- Records one arrival: in the arrival set, or for the next round (R202). -/
def Barrier.arrive (bar : Barrier) (x : Nat × Nat) : Barrier :=
  if bar.members.contains x && !bar.arrived.contains x then { bar with arrived := bar.arrived ++ [x] }
  else { bar with pending := bar.pending ++ [x] }

/-- Barrier `k` of the block named `blk`. -/
def State.bar (s : State) (blk k : Nat) : Barrier := (((s.block? blk).bind fun x => x.bars[k]?)).getD ⟨0, [], [], []⟩

/-- Records the arrivals of a warp's lanes at a barrier, then checks its round (R201, R202). -/
def arriveBar (blk w k : Nat) (m : Lanes) (s : State) : State :=
  let ls := (List.range 128).filter fun l => m.getLsbD l
  checkBar blk k (s.modBlock blk fun x => { x with bars := lmod x.bars k fun r => ls.foldl (fun r l => r.arrive (w, l)) r })

/-- Whether some lane's arrival must wait for the barrier's round to complete: it is pending already (R202). -/
def barBusy (s : State) (b : Bundle) (k : Nat) (m : Lanes) : Bool :=
  (laneList b.warp.width m).any fun l => (s.bar (b.warp.block.getD 0) k).pending.contains (b.w, l)

/-- Threads that wait record their arrival at a barrier and wait for its round (R212). -/
def arriveBarWait (blk w k : Nat) (m : Lanes) (s : State) : State :=
  let bar := s.bar blk k
  arriveBar blk w k m (s.mapLanes w m fun l t => { t with st := .waiting (.barrier k (arrivalToken bar (w, l))) })

/-- The frame of the barrier words: nothing without a guard-true thread; the token sources `ss` are read (check 7 of R49);
ILLEGAL-INSTRUCTION in a handler; a live region aborts (R226); ILLEGAL-OPERAND when the warp is attached to no block and must
be, or when `bad` (R213). R213 gives no order among its rows nor between them and the abort: the model takes the handler's row first,
so that an unattached warp's barrier word in a handler is DOUBLE behind cause 0x02, then the abort, and the word then has no further
effect (log entry 13). -/
def barWord (i : Instr) (ss : List Src) (bad : State → Bundle → Bool) (act : Bundle → Lanes → State → State) (s : State) : Outcome :=
  runWord i (withOperands ss [] fun b m s =>
    trapThen b m (b.inHandler m) 0x02 (fun m s =>
      if m = 0 then finishWord b s
      else if b.warp.regionLive then finishWord b (abortRegion b.w 8 s)
      else if lacksBlock i b || bad s b then trapWord b m 0x03 s
      else act b m s) s) s

/-- The stores and REDs of some lanes whose acknowledgement their arrival waits for (R150, R202). -/
def storesOfLanes (s : State) (w : Nat) (m : Lanes) : List Nat :=
  (storesOf s w).filter fun i => ((tget s.ops i).map fun o => m.getLsbD o.lane).getD false

/-- Arriving threads wait; `now` records the arrival of those whose own earlier stores are acknowledged, at once; each of the others
arrives by itself when its stores are (R150, R202). -/
def startArrival (b : Bundle) (m : Lanes) (kind : ActKind) (now : Lanes → State → State) (s : State) : State :=
  let late := laneFilter b.warp.width m fun l => !(storesOfLanes s b.w (laneBit l)).isEmpty
  let soon := m &&& ~~~ late
  let s := (laneList b.warp.width late).foldl (fun s l =>
    waitLanes b (laneBit l) (.act s.fresh)
      { s with acts := tput s.acts s.fresh ⟨b.w, laneBit l, kind, storesOfLanes s b.w (laneBit l)⟩, fresh := s.fresh + 1 }) s
  let s := finishWord b (waitLanes b soon (.act s.fresh) s)
  if soon = 0 then s else now soon s

/-- A word waits until the earlier stores of its own threads are acknowledged: `act` runs once they are (R202). -/
def afterOwnStores (act : Bundle → Lanes → State → State) (b : Bundle) (m : Lanes) (s : State) : State :=
  let ids := b.iss.after.getD (storesOfLanes s b.w m)
  if doneOps s ids then act b m s else blockWord b (s.modIss b.w b.pipe fun i => { i with after := some ids })

/-- MWAIT (R150). -/
def execMwait (o : FmtS) (s : State) : Outcome :=
  runWord (.mwait o) (fun b m s =>
    if m = 0 then finishWord b s
    else startArrival b m (.arriveMask o.idx.toNat) (arriveMask b.w o.idx.toNat) s) s

/-- BARB (R212). -/
def execBarb (o : FmtS) (s : State) : Outcome :=
  barWord (.barb o) [] (fun _ _ => false) (fun b m s =>
    if barBusy s b o.idx.toNat m then blockWord b s
    else startArrival b m (.arriveBar o.idx.toNat) (arriveBarWait (b.warp.block.getD 0) b.w o.idx.toNat) s) s

/-- BARA (R212): the tokens are written before the next word. -/
def execBara (o : FmtS) (s : State) : Outcome :=
  barWord (.bara o) [] (fun _ _ => false) (withOperands [] [o.v.toNat] (afterOwnStores fun b m s =>
    if barBusy s b o.idx.toNat m then blockWord b s
    else
      let blk := b.warp.block.getD 0
      let bar := s.bar blk o.idx.toNat
      finishWord b (arriveBar blk b.w o.idx.toNat m
        (s.mapLanes b.w m fun l t => t.put o.v.toNat (arrivalToken bar (b.w, l)))))) s

/-- Threads wait for the rounds their tokens name, but for those whose round has completed (R204). -/
def waitTokens (b : Bundle) (m : Lanes) (r : Nat) (count : Word) (k : Word → Wait) (s : State) : State :=
  let tok := fun (l : Nat) => ((b.warp.thread l).map fun t => (t.reg r).val).getD 0
  let wait := laneFilter b.warp.width m fun l => !passedRound count (tok l)
  let s := s.mapLanes b.w wait fun l t => { t with st := .waiting (k (tok l)), pc := t.after b.next }
  finishWord b (dropLanes b wait s)

/-- BARW (R212). -/
def execBarw (o : FmtS) (s : State) : Outcome :=
  barWord (.barw o) [⟨o.v.toNat, 1, false⟩] (fun _ _ => false) (fun b m s =>
    waitTokens b m o.v.toNat (s.bar (b.warp.block.getD 0) o.idx.toNat).counter (.barrier o.idx.toNat) s) s

/-! ### The die barrier (R205, R212) -/

/-- Records the arrivals of a warp's lanes at the die barrier; under .pub.ref a publication goes before an arrival that
completes the block's, if it is not recorded already, and the block's view is refreshed at the release (R212). -/
def arriveDie (w : Nat) (m : Lanes) (pub : Bool) (s : State) : State :=
  match (s.warp? w).bind fun x => x.block.map fun b => (x, b) with
  | none => s
  | some (x, b) =>
    match s.share? x.share with
    | none => s
    | some h =>
      let s := s.mapLanes w m fun _ t => { t with st := .waiting (.dieBar h.barRound) }
      let h : Share := { h with
        barIn := h.barIn ++ (laneList x.width m).map fun l => (w, l)
        barRef := if pub && !h.barRef.contains b then h.barRef ++ [b] else h.barRef }
      let s := if pub && !h.barArr.contains b && blockArrived s h b then publish b s else s
      checkDieBar x.share (s.modShare x.share fun y => { y with barIn := h.barIn, barRef := h.barRef })

/-- BARD (R212). -/
def execBard (o : FmtS) (s : State) : Outcome :=
  barWord (.bard o) [] (fun s b => !((s.launch? b.warp).map Launch.resident).getD false)
    (fun b m s => startArrival b m (.arriveDie (o.mod == 1)) (fun m => arriveDie b.w m (o.mod == 1)) s) s

/-- The next stage of an arrival that waits for stores (R150, R202). -/
def stepArrival (id : Nat) (a : EngineAct) (s : State) : State :=
  if !doneOps s a.after then s
  else
    let m := actLanes s id a
    let s := { s with acts := tdel s.acts id }
    if m = 0 then s
    else match a.kind with
      | .arriveMask k => arriveMask a.warp k m s
      | .arriveBar k => match actBlock s a with
        | some blk => arriveBarWait blk a.warp k m s
        | none => s
      | .arriveDie pub => arriveDie a.warp m pub s
      | _ => s

/-! ### The AND tree (R206-R211) -/

/-- TREE_CFG[ch] (R207). -/
def Module.tree (m : Module) (ch : Nat) : Word64 := m.treeCfg.getD ch 0

/-- Whether a die lies in the segment of a channel's configuration (R207). -/
def inSegment (v : Word64) (die : Nat) : Bool :=
  let f := fun (lo : Nat) => (v.extractLsb' lo 3).toNat
  decide (f 3 ≤ die / 8) && decide (die / 8 ≤ f 9) && decide (f 0 ≤ die % 8) && decide (die % 8 ≤ f 6)

/-- The fields of TREE_CFG that must hold (R207). -/
def treeCfgOk (v : Word64) : Bool :=
  v.extractLsb' 41 23 == 0 && v.extractLsb' 12 20 == 0 && (v.extractLsb' 3 3).ule (v.extractLsb' 9 3) &&
  (v.extractLsb' 0 3).ule (v.extractLsb' 6 3)

/-- Whether a warp may use a channel (R213). -/
def treeAllowed (s : State) (w : Warp) (ch : Nat) : Bool :=
  let v := s.mod.tree ch
  v.getLsbD 32 && (v.extractLsb' 33 8).toNat == w.ctx && inSegment v w.die

/-- The cores of a segment, as (die, core). -/
def segmentCores (v : Word64) : List (Nat × Nat) :=
  ((List.range 64).filter (inSegment v)).flatMap fun d => (List.range 160).map fun c => (d, c)

/-- Whether a core is excused by a die's words (R206). -/
def excusedBy (ws : List (List Word)) (ch core : Nat) : Bool := ((ws.getD ch []).getD (core / 32) 0).getLsbD (core % 32)

/-- The retirement map of a die: the stored one until software has retired a core (R400, R320). -/
def State.retmap (s : State) (die k : Nat) : Word :=
  match (s.die die).retmap with
  | [] => Config.storedRetmap die k
  | ws => ws.getD k 0

/-- Whether a core is retired (R312). -/
def State.retired (s : State) (die core : Nat) : Bool := (s.retmap die (core / 32)).getLsbD (core % 32)

/-- The root die of a channel's segment, where its signal box stands (R207). -/
def rootDie (v : Word64) : Nat := 8 * (v.extractLsb' 3 3).toNat + (v.extractLsb' 0 3).toNat

/-- The releases of a channel that have come to a die's cores and not yet reached each of them. -/
def oweCores (ch die : Nat) (s : State) : State :=
  (List.range 160).foldl (fun s c => s.modCore die c fun k => { k with owed := lmod k.owed ch (· + 1) }) s

/-- A release leaves the signal box for a die of the segment (R209): over the mesh, when it is another die, on the way of the arrivals in
reverse (R208). A FAILED link on that way ends the channel's context (R348). -/
def sendRelease (ch root die ctx : Nat) (s : State) : State :=
  if die = root then oweCores ch die s
  else match ride 1 ctx root die [11, ch, die, s.fresh] [] s with
    | (.cut, s) => remoteEnd ctx die 0 0 s
    | (_, s) => s

/-- A round of a channel completes: a release goes to every core of the segment, and the next round takes the excuse
words as they are (R209). -/
def completeTree (ch : Nat) (s : State) : State :=
  let v := s.mod.tree ch
  let ds := (List.range 64).filter (inSegment v)
  let s := s.modMod fun m => { m with transfers := m.transfers.filter fun t => t.2.tag.take 2 != [10, ch] }
  let s := ds.foldl (fun s d => sendRelease ch (rootDie v) d (v.extractLsb' 33 8).toNat s) s
  ds.foldl (fun s d => s.modDie d fun x => { x with excuseAt := x.excuseAt.set ch (x.excuse.getD ch []) }) s

/-- Whether a core's arrival of the current round is in, or not needed (R208): a round never waits on a retired core (R211), and an
arrival bit whose release is on its way belongs to the round before. -/
def treeReady (s : State) (ch : Nat) (x : Nat × Nat) : Bool :=
  let c := s.core x.1 x.2
  excusedBy (s.die x.1).excuseAt ch x.2 || s.retired x.1 x.2 ||
    (c.arrived.getD ch false && c.owed.getD ch 0 == 0 && !(s.mod.transfers.any fun t => t.2.tag.take 3 == [11, ch, x.1]))

/-- The last arrival of a die goes to the signal box (R208, R345): whether it has come there. A die none of whose cores is required
sends none. -/
def reportTree (ch root ctx die : Nat) (s : State) : Bool × State :=
  let cs := (List.range 160).filter fun c => !excusedBy (s.die die).excuseAt ch c
  if cs.isEmpty then (true, s)
  else if cs.all fun c => treeReady s ch (die, c) then
    match ride 1 ctx die root [10, ch, die] [] s with
    | (.come, s) => (true, s)
    | (.under, s) => (false, s)
    | (.cut, s) => (false, remoteEnd ctx root 0 0 s)
  else (false, s)

/-- Checks a channel's round (R208). The spec gives no instant for a round in which no core is required: the model completes it only
when a TREEA or a RETIRE calls for this check (log entry 39). -/
def checkTree (ch : Nat) (s : State) : State :=
  let v := s.mod.tree ch
  if v.getLsbD 32 then
    let (all, s) := ((List.range 64).filter (inSegment v)).foldl (fun r d =>
      let (ok, s) := reportTree ch (rootDie v) (v.extractLsb' 33 8).toNat d r.2
      (r.1 && ok, s)) (true, s)
    if all then completeTree ch s else s
  else s

/-- An AND-tree message has come to its die (R208, R209): an arrival to the signal box, or a release. -/
def landTree (id : Nat) (t : Transfer) (s : State) : State :=
  match t.tag with
  | 10 :: ch :: _ => checkTree ch s
  | 11 :: ch :: _ => oweCores ch t.dst (s.modMod fun m => { m with transfers := tdel m.transfers id })
  | _ => s

/-- TREEA (R212). -/
def execTreea (o : FmtS) (s : State) : Outcome :=
  barWord (.treea o) [] (fun s b => !treeAllowed s b.warp o.idx.toNat) (withOperands [] [o.v.toNat] fun b m s =>
    let ch := o.idx.toNat
    let c := s.core b.warp.die b.warp.core
    let s := s.mapLanes b.w m fun _ t => t.put o.v.toNat (c.counts.getD ch 0)
    if m = 0 || c.arrived.getD ch false then finishWord b s
    else finishWord b (checkTree ch (s.modCore b.warp.die b.warp.core fun c => { c with arrived := c.arrived.set ch true }))) s

/-- TREEW (R212). -/
def execTreew (o : FmtS) (s : State) : Outcome :=
  barWord (.treew o) [⟨o.v.toNat, 1, false⟩] (fun s b => !treeAllowed s b.warp o.idx.toNat) (fun b m s =>
    waitTokens b m o.v.toNat ((s.core b.warp.die b.warp.core).counts.getD o.idx.toNat 0) (.tree o.idx.toNat) s) s

/-- TREE_RELEASE (R209): a core receives a release that is on its way to it; a retired core only counts it. -/
def execTreeRelease (ch die core : Nat) (s : State) : Outcome :=
  let c := s.core die core
  if c.owed.getD ch 0 = 0 then .next s
  else
    let n := c.counts.getD ch 0 + 1
    let s := s.setCore die core { c with owed := lmod c.owed ch (· - 1), counts := c.counts.set ch n }
    if s.retired die core then .next s
    else
      let s := s.modCore die core fun c => { c with arrived := c.arrived.set ch false }
      .next ((s.warps.filter fun x => x.2.die == die && x.2.core == core).foldl (fun s x => releaseWhere x.1 (fun q => match q with
        | .tree k r => k == ch && passedRound n r
        | _ => false) s) s)

/-- A write of TREE_CFG[ch] completes the current round and applies from the next (R207). -/
def writeTreeCfg (ch : Nat) (v : Word64) (s : State) : State :=
  let s := completeTree ch s
  let s := s.modMod fun m => { m with treeCfg := m.treeCfg.set ch v }
  ((List.range 64).filter (inSegment v)).foldl (fun s d => s.modDie d fun x =>
    { x with excuseAt := x.excuseAt.set ch (x.excuse.getD ch []) }) s

/-- TREE_CFG_WRITE (R207). -/
def execTreeCfgWrite (ch : Nat) (val : Word64) (s : State) : Outcome :=
  if decide (ch < 8) && treeCfgOk val then .next (writeTreeCfg ch val s) else .next s

/-! ### ATTACH, DETACH, YIELD, SLEEP (R167-R171) -/

/-- ATTACH (R167). -/
def execAttach (o : FmtS) (s : State) : Outcome :=
  runWord (.attach o) (withOperands [] [o.v.toNat] fun b m s =>
    if m = 0 then finishWord b s
    else checkAttach b.w (finishWord b (waitLanes b m (.attach o.v.toNat) s))) s

/-- Whether DETACH marks the warp departing: a request stands and more warps would stay than it asks for (R169). -/
def detachMarks (s : State) (w : Warp) : Bool :=
  match w.block.bind fun b => (s.block? b).bind fun x => x.shrink.map fun k => (b, k.k) with
  | some (b, k) =>
    let ws := s.blockWarps b
    decide (k < ws.length - (ws.filter fun x => x.2.departing).length)
  | none => false

/-- DETACH (R169). -/
def execDetach (o : FmtS) (s : State) : Outcome :=
  runWord (.detach o) (withOperands [] [o.v.toNat] fun b m s =>
    if m = 0 then finishWord b s
    else if b.warp.departing || detachMarks s b.warp then
      finishWord b (leaveLanes b.w m .exited 7 (s.modWarp b.w fun x => { x with departing := true }))
    else finishWord b (s.mapLanes b.w m fun _ t => t.put o.v.toNat 0)) s

/-- YIELD (R170): the warp takes the newest standing when the clause completes. -/
def execYieldStanding (o : FmtS) (s : State) : Outcome :=
  runWord (.yieldStanding o) (fun b m s =>
    finishWord b (if m = 0 then s else s.modIss b.w b.pipe fun i => { i with yld := true })) s

/-- Threads sleep until their times, but for those whose time has come (R171). -/
def sleepLanes (b : Bundle) (m : Lanes) (t : Nat → Nat) (s : State) : State :=
  let now := (s.die b.warp.die).time
  let wait := laneFilter b.warp.width m fun l => decide (now < t l)
  let s := s.mapLanes b.w wait fun l x => { x with st := .waiting (.sleep (t l)), pc := x.after b.next }
  finishWord b (dropLanes b wait s)

/-- SLEEP (R171). -/
def execSleep (o : FmtS) (s : State) : Outcome :=
  runWord (.sleep o) (fun b m s =>
    if m = 0 then finishWord b s
    else if b.warp.regionLive then finishWord b (abortRegion b.w 8 s)
    else sleepLanes b m (fun _ => (s.die b.warp.die).time + o.imm.toNat * unitsPerNs) s) s

/-- SLEEP.until (R171). -/
def execSleepUntil (o : FmtS) (s : State) : Outcome :=
  runWord (.sleepUntil o) (fun b m s =>
    if m = 0 then finishWord b s
    else if b.warp.regionLive then finishWord b (abortRegion b.w 8 s)
    else withOperands [⟨o.v.toNat, 2, false⟩] [] (fun b m s =>
      sleepLanes b m (fun l => ((b.warp.thread l).map fun t => (t.pair o.v.toNat).toNat).getD 0 * unitsPerNs) s) b m s) s

/-- SLEEP_RELEASE (R171). -/
def execSleepRelease (w : Nat) (s : State) : Outcome :=
  match s.warp? w with
  | none => .next s
  | some x =>
    let now := (s.die x.die).time
    .next (releaseWhere w (fun q => match q with
      | .sleep t => decide (t ≤ now)
      | _ => false) s)

/-! ### ENQ (R297) -/

/-- ENQ (R297): the threads wait for the entries of FENCE.module first. -/
def execEnq (o : FmtS) (s : State) : Outcome :=
  runWord (.enq o) (fun b m s =>
    if m = 0 then finishWord b s
    else if b.warp.regionLive then finishWord b (abortRegion b.w 8 s)
    else withOperands [] [o.v.toNat] (fun b m s =>
      let lo := b.wr o.w.toNat
      let hi := b.wr (o.w.toNat + 1)
      if !lo.full || !hi.full then blockWord b s
      else startAct b m (.enq (pairOf lo.val hi.val).toNat o.imm.toNat o.v.toNat) (fenceOps s b.w 2) s) b m s) s

/-- Logs a failed access of the dispatcher of a die (R322, R418). -/
def logDispatch (c addr kind die : Nat) (s : State) : State := logViolation c addr kind 4 die s

/-- Whether a queue's ring lies in host memory (R298). -/
def Queue.hostRing (q : Queue) : Bool := q.ctl.getLsbD 5

/-- The address of the ring entry a counter names (R299). -/
def Queue.entryAt (q : Queue) (k : Word) : Nat := q.base.toNat + 8 * (k.toNat % q.size)

/-- Waiting threads of an action receive a value and become READY (R320, R297). -/
def answerAct (id : Nat) (a : EngineAct) (r : Nat) (v : Word) (s : State) : State :=
  endAct id (s.mapLanes a.warp (actLanes s id a) fun _ t => t.put r v)

/-- The result of ENQ (R297). -/
def enqResult (status slot : Nat) : Word := natWord ((if status = 0 then 2 ^ 31 + slot else 0) + 2 ^ 24 * status)

/-- A request goes to the host for a context. -/
def askHost (ctx run node die : Nat) (s : State) : State :=
  (s.modMod fun m => { m with hostReqs := tput m.hostReqs s.fresh ⟨ctx, run, node, (s.die die).time⟩ }).bump

def dropHostReq (id : Nat) (s : State) : State := s.modMod fun m => { m with hostReqs := tdel m.hostReqs id }

/-- The request to the host that writes an ENQ's entry into a ring in host memory (R354). -/
def ringReq (s : State) (id : Nat) : Option (Nat × HostReq) := tfind s.mod.hostReqs fun _ r => r.run == id && r.node == 0

/-- Whether a host request has had no completion within HOST_TMO (R312, R354). -/
def HostReq.overdue (s : State) (r : HostReq) : Bool := decide (r.at_ + (s.ctx r.ctx).hostTmo.toNat * unitsPerNs ≤ (s.die 0).time)

/-- Whether another ENQ has a write of the queue's ring under way: entries are written one after another, so that no two ENQs receive one
slot (R297). -/
def enqBusy (s : State) (id queue : Nat) : Bool :=
  tany s.acts fun k a => k != id && (match a.kind with
    | .enq _ q _ => q == queue && (holderWaits s 0 (.engine k) || (ringReq s k).isSome)
    | _ => false)

/-- ENQ at die 0 (R297, R418): the checks, the ring entry through die 0's translation, or in host memory by a request (R354), and the doorbell;
it answers the result. R297 names no status for a request without completion: the model gives RING-ERROR (log entry 23). -/
def enqAt (id : Nat) (x : Warp) (addr queue : Nat) (s : State) : Ended Word × State :=
  let q := s.queue queue
  let at_ := q.entryAt q.wp
  let push := fun (s : State) => (Ended.done (enqResult 0 (q.wp.toNat % q.size)),
    settleQueue queue (s.modQueue queue fun y => { y with wp := y.wp + 1 }))
  let lost := fun (s : State) => (Ended.done (enqResult 4 0), disableQueue queue 0x03 { causeDispatch with addr := at_ } (logDispatch x.ctx at_ 3 0 s))
  if addr % 64 != 0 || decide (2 ^ 57 ≤ addr) then (.done (enqResult 1 0), s)
  else if q.ctx != x.ctx || q.st == .disabled then (.done (enqResult 2 0), s)
  else if enqBusy s id queue then (.wait, s)
  else if q.size ≤ q.held then (.done (enqResult 3 0), s)
  else if q.hostRing then match ringReq s id with
    | none => (.wait, askHost x.ctx id 0 0 s)
    | some (k, r) =>
      let s := dropHostReq k s
      if r.overdue s then lost s else push (s.modMod fun m => { m with hostMem := msetAll m.hostMem (cellsAt at_ (leBytes 8 addr)) })
  else match alone (.engine id) (writeAccess (.engine id) x.ctx 0 at_ 0 8 (fun s => mainWrite s x.ctx 0 at_ (leBytes 8 addr) none) s) with
    | (.done _, s) => push s
    | (.fail _, s) => lost s
    | (.lost, s) => lost s
    | (.remote d k, s) => (.remote d k, s)
    | (_, s) => (.wait, s)

/-- The next stage of ENQ (R297): it goes to die 0, and its result comes back (R345). -/
def stepEnq (id : Nat) (a : EngineAct) (addr queue v : Nat) (s : State) : State :=
  match s.warp? a.warp with
  | none => dropMessage [15, id] { s with acts := tdel s.acts id }
  | some x =>
    if !entriesGone s a.after then s
    else
      match overMesh (fun w => leBytes 4 w.toNat) (fun bs => natWord (leNat bs)) [15, id] 1 x.ctx x.die [0] (fun s => s)
        (enqAt id x addr queue) s with
      | (.done r, s) => answerAct id a v r (dropMessage [15, id, 1] s)
      | (.remote d k, s) => remoteEnd x.ctx d ((s.queue queue).entryAt (s.queue queue).wp) k s
      | (_, s) => s

end Sys2Proof.Machine
end

