-- ==== Sys2Proof/Machine/Queue.lean ====
section
/-! DEFINITION. Contexts bound and freed (spec 19_context R310), queues and their choice (18_queue R298-R303, R418), and
launch records read, refused and dispatched (17_kernel R289-R292, R295, R296). -/

namespace Sys2Proof.Machine

/-! ### Contexts (R310) -/

/-- BOUND to PARKED. -/
def Context.bound (c : Context) : Bool :=
  match c.st with
  | .bound | .runnable | .running | .parked => true
  | _ => false

/-- Whether a context is bound on a die (R312). -/
def boundOn (s : State) (c d : Nat) : Bool := (s.ctx c).bound && (s.ctx c).dies.getLsbD d

def KernelState.active : KernelState → Bool
  | .dispatching | .running | .draining => true
  | _ => false

/-- Where a context that is BOUND, RUNNABLE or RUNNING stands, as its kernels and blocks give (R310). -/
def settleCtx (c : Nat) (s : State) : State :=
  match (s.ctx c).st with
  | .bound | .runnable | .running =>
    let st := if !(tany s.kernels fun _ k => k.ctx == c && k.st.active) then CtxState.bound
      else if tany s.blocks fun _ b => b.ctx == c && b.st != .done then .running
      else .runnable
    s.modCtx c fun x => { x with st := st }
  | _ => s

/-- The junction parameters at bind (R377), queue and counters empty (R387). -/
def Junction.atBind : Junction :=
  { gamma := 0x3F800000, lambda := 0x3F800000, join := 50000000, grace := 10000000, stale := 0xFFFFFFFF, learner := 0
    store := 0, steps := 256, usable := 0, queue := [], p := 0, c := 0, counts := List.replicate 8 0 }

/-- The dies of a 64-bit set, ascending. -/
def dieList (v : Word64) : List Nat := (List.range 64).filter fun d => v.getLsbD d

/-- Binds a FREE context whose CTX_DIES is not 0 (R310, R312). -/
def bindContext (c : Nat) (s : State) : State :=
  let x := s.ctx c
  if x.st = .free && x.dies != 0 then
    let s := s.setCtx c { Context.init with st := .bound, dies := x.dies, peerTmo := 200000, migrate := 256, hostTmo := 1000000 }
    (dieList x.dies).foldl (fun s d => s.modDie d fun y => { y with juncs := tput y.juncs c Junction.atBind }) s
  else s

/-- Frees a BOUND or ENDED context (R310): its queues are disabled with reason 1, its roots, groups and log released. -/
def freeContext (c : Nat) (why : Cause) (s : State) : State :=
  let x := s.ctx c
  if x.st = .bound || x.st = .ended then
    let qs := (s.queues.filter fun q => q.2.ctx == c && q.2.st != .disabled).map Prod.fst
    let s := qs.foldl (fun s q => disableQueue q 0x01 why s) s
    { s.setCtx c { Context.init with dies := x.dies } with
      kernels := tkeep s.kernels fun _ k => k.ctx != c
      dies := tmap s.dies fun _ d =>
        { d with episodes := tkeep d.episodes fun _ e => e.ctx != c
                 orphans := tkeep d.orphans fun _ o => o.ctx != c
                 juncs := tdel d.juncs c } }
  else s

/-- CONTEXT_BIND (R310), of one of the 256 contexts (R18). -/
def execContextBind (ctx : Nat) (s : State) : Outcome := .next (if ctx < 256 then bindContext ctx s else s)
/-- CONTEXT_FREE (R310). -/
def execContextFree (ctx : Nat) (s : State) : Outcome := .next (if ctx < 256 then freeContext ctx causeHost s else s)

/-! ### Queue registers (R298-R301) -/

/-- Whether the fields of a QCTL word that must be zero are (R298). -/
def qctlOk (v : Word) : Bool :=
  v.extractLsb' 28 4 == 0 && v.extractLsb' 12 4 == 0 && v.extractLsb' 3 2 == 0 && !v.getLsbD 1

/-- The state of an enabled queue as its control word and pointers give (R301). -/
def resettle (q : Nat) (s : State) : State :=
  let x := s.queue q
  if x.st = .disabled then s
  else if x.ctl.getLsbD 2 then leaveRound q (s.setQueue q { x with st := .suspended, raised := false })
  else
    let x := if x.st = .suspended then { x with st := QueueState.empty } else x
    settleQueue q (s.setQueue q x)

/-- A write of QCTL (R298, R301): to a DISABLED queue, whole; to an enabled one, prio, weight and suspend, and its disabling. -/
def writeQctl (q : Nat) (v : Word) (why : Cause) (s : State) : State :=
  let x := s.queue q
  let ctx := (v.extractLsb' 16 8).toNat
  if !qctlOk v then s
  else if x.st = .disabled then
    if v.getLsbD 0 then
      if boundOn s ctx 0 then
        resettle q (s.setQueue q { x with ctl := v, rp := x.wp, st := .empty, reason := 0, raised := false, last := none
                                          since := (s.die 0).time })
      else s
    else s.setQueue q { x with ctl := v }
  else
    let keep : Word := 0x0FFF0020
    let s := s.setQueue q { x with ctl := (x.ctl &&& keep) ||| (v &&& ~~~ keep) }
    if v.getLsbD 0 then resettle q s else disableQueue q 0x01 why s

/-- A write of QBASE (R298): discarded while the queue is enabled. -/
def writeQbase (q : Nat) (v : Word64) (s : State) : State :=
  if (s.queue q).st = .disabled then s.modQueue q fun x => { x with base := v } else s

/-- A doorbell write (R299). -/
def doorbell (q : Nat) (wp : Word) (why : Cause) (s : State) : State :=
  let x := s.queue q
  if x.st = .disabled || wp = x.wp then s
  else if x.size < (wp - x.rp).toNat || decide ((wp - x.rp).toNat < (x.wp - x.rp).toNat) then disableQueue q 0x02 why s
  else settleQueue q (s.setQueue q { x with wp := wp })

/-- A host's write to the registers of one of the 1,024 queues (R298). -/
def hostQueue (q : Nat) (f : State → State) (s : State) : Outcome := .next (if q < 1024 then f s else s)

/-- QUEUE_DOORBELL (R299). -/
def execQueueDoorbell (q : Nat) (wp : Word) (s : State) : Outcome := hostQueue q (doorbell q wp causeHost) s
/-- QUEUE_ENABLE (R298, R301): QCTL is written with enable set. -/
def execQueueEnable (q : Nat) (ctl : Word) (s : State) : Outcome := hostQueue q (writeQctl q (ctl ||| 1) causeHost) s
/-- QUEUE_DISABLE (R301): enable is cleared. -/
def execQueueDisable (q : Nat) (s : State) : Outcome := hostQueue q (disableQueue q 0x01 causeHost) s
/-- QUEUE_SUSPEND (R301). -/
def execQueueSuspend (q : Nat) (s : State) : Outcome := hostQueue q (writeQctl q ((s.queue q).ctl ||| 4) causeHost) s
/-- QUEUE_RESUME (R301). -/
def execQueueResume (q : Nat) (s : State) : Outcome := hostQueue q (writeQctl q ((s.queue q).ctl &&& ~~~ 4) causeHost) s

/-- prio of a queue (R298). -/
def Queue.prio (q : Queue) : Nat := (q.ctl.extractLsb' 6 2).toNat
/-- The weight of a queue (R298). -/
def Queue.weight (q : Queue) : Nat := (q.ctl.extractLsb' 8 4).toNat + 1
/-- The effective level of a queue (R302). -/
def Queue.level (q : Queue) : Nat := min 3 (q.prio + if q.raised then 1 else 0)

/-- QSTAT (R298). -/
def Queue.stat (q : Queue) : Word :=
  let st := match q.st with
    | .empty => 0
    | .ready => 1
    | .blocked => 2
    | .suspended => 3
    | .disabled => 4
  natWord (st * 2 ^ 29 + q.level * 2 ^ 27 + (if q.st = .disabled then q.reason else 0) * 2 ^ 16)

/-- QUEUE_LEVEL_RAISE (R302): READY for 10 ms without an entry taken. -/
def execQueueLevelRaise (q : Nat) (s : State) : Outcome :=
  let x := s.queue q
  if x.st = .ready && decide (x.since + 10000000 * unitsPerNs ≤ (s.die 0).time) then
    .next (s.setQueue q { x with raised := true })
  else .next s

/-! ### Reads of an engine (R289, R418) -/

/-- Whether an access still waits. -/
def Ended.waits {α : Type} : Ended α → Bool
  | .wait => true
  | .held => true
  | .far _ _ => true
  | _ => false

/-- What a read of several units gives: how it ended, at which unit, and the state. -/
abbrev UnitsRead := Ended (List Byte) × Nat × State

/-- Reads units of `z` bytes, each whole, through a context's translation on a die; the caller forgets the answers. -/
def readUnits (h : Holder) (ctx die z : Nat) : List Nat → State → UnitsRead
  | [], s => (.done [], 0, s)
  | a :: rest, s =>
    match readAccess h ctx die a 0 z (fun s => mainRead s ctx die a z) s with
    | (.done bs, s) =>
      match readUnits h ctx die z rest s with
      | (.done cs, x) => (.done (bs ++ cs), x)
      | r => r
    | (r, s) => (r, a, s)

/-- A read of several units made alone: its answers are forgotten once it has ended. -/
def aloneUnits (h : Holder) (r : UnitsRead) : UnitsRead := if r.1.waits then r else (r.1, r.2.1, dropAnswers h r.2.2)

/-- The kind a failed local access is logged with (R322). -/
def Ended.kind {α : Type} : Ended α → Nat
  | .fail k => k
  | _ => 1

/-- `n` units of 16 bytes from `a` on. -/
def unitsFrom (a n : Nat) : List Nat := (List.range n).map fun k => a + 16 * k

/-- Reads `n` bytes at any address by the aligned 16-byte units they lie in. -/
def readSpan (h : Holder) (ctx die a n : Nat) (s : State) : UnitsRead :=
  match readUnits h ctx die 16 (unitsFrom (a / 16 * 16) ((a % 16 + n + 15) / 16)) s with
  | (.done bs, x) => (.done ((bs.drop (a % 16)).take n), x)
  | r => r

/-! ### Launch records (R289-R291) -/

/-- The little-endian field of `n` bytes at `a` of a record. -/
def fieldAt (bs : List Byte) (a n : Nat) : Nat := leNat ((bs.drop a).take n)

/-- A launch record's fields (R289, R290). -/
def parseLaunch (bs : List Byte) : Launch :=
  let f := fieldAt bs
  let shape : Word := natWord (f 0x20 4)
  let sh := fun (lo n : Nat) => (shape.extractLsb' lo n).toNat
  { entry := f 0x00 8, elastic := f 0x08 8, dieset := dieList (BitVec.ofNat 64 (f 0x10 8)), nbx := f 0x18 4, nby := f 0x1C 2
    nbz := f 0x1E 2, ncode := sh 0 3, wcode := sh 3 2, wmin := sh 5 6, wmax := sh 11 6, tiles := sh 17 6
    paired := shape.getLsbD 23, resident := shape.getLsbD 24, prio := sh 25 2, shared := f 0x24 4, stack := f 0x28 4
    scratch := f 0x2C 4, sched := f 0x30 8, graph := f 0x38 8
    deps := (List.range 4).map fun k => (f (0x40 + 16 * k) 8, natWord (f (0x48 + 16 * k) 4))
    trigger := f 0x80 8, done := f 0x88 8, exits := f 0x90 8, seed := natWord (f 0x98 4)
    args := (List.range 16).map fun k => natWord (f (0xA0 + 4 * k) 4) }

/-- W of a launch (R290). -/
def Launch.width (l : Launch) : Nat := 16 * 2 ^ l.wcode
/-- n of a launch (R290). -/
def Launch.nregs (l : Launch) : Nat := 32 * 2 ^ l.ncode
/-- N of a launch (R292). -/
def Launch.blocks (l : Launch) : Nat := l.nbx * l.nby * l.nbz
/-- Warps a block places on its even core, or only core (R160). -/
def Launch.warpsPerCore (l : Launch) : Nat := if l.paired then (l.wmin + 1) / 2 else l.wmin
/-- Bytes of a block's stack run (R164). -/
def Launch.stackRun (l : Launch) : Nat := (l.stack * l.width * l.wmax + 4095) / 4096 * 4096
/-- Shared bytes a block takes of each of its cores, in units of 1 KiB (R160, R161). -/
def Launch.sharedPerCore (l : Launch) : Nat := (l.shared / (if l.paired then 2 else 1) + 1023) / 1024 * 1024
/-- Blocks of die share `i` (R292). -/
def Launch.shareBlocks (l : Launch) (i : Nat) : Nat := (l.blocks + l.dieset.length - 1 - i) / l.dieset.length

/-- How often a need fits; a need of 0 fits without bound. -/
def fits (have_ need : Nat) (most : Nat) : Nat := if need = 0 then most else have_ / need

/-- How many blocks an idle die holds at once (R291, R162): the cores that are not retired, and the context's stack region. -/
def idleRoom (s : State) (ctx die : Nat) (l : Launch) : Nat :=
  let most := 131072
  let wpc := l.warpsPerCore
  let per := min (min (131072 / (l.width * l.nregs) / wpc) (64 / wpc))
    (min (2048 / (l.width * wpc)) (min (fits 262144 l.sharedPerCore most) (fits 32 l.tiles most)))
  let cores := (List.range 160).filter fun c => if l.paired then c % 2 == 0 && !s.retired die c && !s.retired die (c + 1)
    else !s.retired die c
  min (per * cores.length) (fits (tgetD (s.ctx ctx).stksize die 0).toNat l.stackRun (per * cores.length))

/-- The code of the first condition of R291 a record breaks; none when it is not refused. -/
def refusal (s : State) (ctx : Nat) (bs : List Byte) : Option Nat :=
  let l := parseLaunch bs
  let f := fieldAt bs
  let high := fun (x : Nat) => decide (2 ^ 57 ≤ x)
  let limit := if l.paired then 32 else 16
  let zeros := f 0x20 4 / 2 ^ 27 == 0 && f 0x9C 4 == 0 && f 0xE0 32 == 0 && ((List.range 4).all fun k => f (0x4C + 16 * k) 4 == 0)
  let kib := if l.paired then 2048 else 1024
  let top := if l.paired then 524288 else 262144
  let stk := fun (d : Nat) => (tgetD (s.ctx ctx).stksize d 0).toNat
  if !zeros || decide (4 < l.ncode) || decide (32 < l.tiles) then some 0x01
  else if l.entry == 0 || l.entry % 8 != 0 || high l.entry || l.elastic % 8 != 0 || high l.elastic then some 0x02
  else if l.dieset.isEmpty || l.dieset.any (fun d => !boundOn s ctx d) then some 0x03
  else if l.nbx == 0 || l.nby == 0 || l.nbz == 0 then some 0x04
  else if l.wmin == 0 || l.wmax == 0 || decide (l.wmax < l.wmin) || decide (limit < l.wmax) ||
      decide ((if l.paired then 4096 else 2048) < l.wmax * l.width) then some 0x05
  else if l.shared % kib != 0 || decide (top < l.shared) || l.stack % 16 != 0 || l.scratch % 4096 != 0 ||
      decide (56 * 2 ^ 20 < l.scratch) || (l.stack != 0 && l.dieset.any fun d => decide (stk d < l.stackRun)) then some 0x06
  else if 131072 < l.warpsPerCore * l.width * l.nregs then some 0x07
  else if l.resident && l.dieset.zipIdx.any (fun x => decide (idleRoom s ctx x.1 l < l.shareBlocks x.2)) then some 0x08
  else if l.deps.any (fun d => d.1 != 0 && (high d.1 || d.1 % 4 != 0)) || high l.done || l.done % 4 != 0 || high l.exits ||
      l.exits % 32 != 0 || high l.sched || high l.graph then some 0x09
  else none

/-! ### Taking an entry (R299, R300, R302) -/

/-- Whether a queue has an entry whose record is still being read. -/
def hasPending (s : State) (q : Nat) : Bool := tany s.kernels fun _ k => k.queue == q && k.st == .pending

/-- The holder of a queue's ring reads. -/
def ringHolder (q : Nat) : Holder := .engine (engineBase + 256 + q)

/-- Whether an entry may be taken from a queue: it is READY, of a context that is not PARKED, and no record of it is being read. -/
def mayServe (s : State) (q : Nat) (x : Queue) : Bool :=
  x.st == .ready && (s.ctx x.ctx).bound && (s.ctx x.ctx).st != .parked && !hasPending s q

/-- The host request of a run's node, or of a queue's ring, that has no completion yet (R354). -/
def hostReqOf (s : State) (run node : Nat) : Option Nat :=
  (tfind s.mod.hostReqs fun _ q => q.run == run && q.node == node).map Prod.fst

/-- The name under which the reads of a queue's ring in host memory ask the host. -/
def ringRun (q : Nat) : Nat := engineBase + 256 + q

/-- Whether the ring of a queue is still being read. -/
def ringBusy (s : State) (q : Nat) : Bool := holderWaits s 0 (ringHolder q) || (hostReqOf s (ringRun q) 0).isSome

/-- The queues entries may be taken from, in ascending number: the dispatcher serves others while the ring of one is still being read
(R418). -/
def readyQueues (s : State) : List (Nat × Queue) :=
  (s.queues.filter fun x => mayServe s x.1 x.2 && !ringBusy s x.1).insertionSort fun a b => decide (a.1 ≤ b.1)

/-- The READY queues of a level whose contexts are not PARKED, in ascending number: those that take part in a round (R302). -/
def roundQueues (s : State) (lvl : Nat) : List (Nat × Queue) :=
  (s.queues.filter fun x => x.2.st == .ready && x.2.level == lvl && (s.ctx x.2.ctx).bound && (s.ctx x.2.ctx).st != .parked).insertionSort
    fun a b => decide (a.1 ≤ b.1)

/-- The next queue of a round: the first after the last visited, or the first again. -/
def nextOf (qs : List Nat) (last : Option Nat) : Option Nat :=
  match last.bind fun l => qs.find? fun q => decide (l < q) with
  | some q => some q
  | none   => qs.head?

/-- The round in progress at a level, or, when no READY queue of it has budget left, a new one (R302). -/
def turnAt (s : State) (lvl : Nat) : Turn :=
  let t := s.mod.turns.getD lvl ⟨[], none⟩
  let qs := roundQueues s lvl
  if t.budget.any fun b => b.2 != 0 && qs.any fun c => c.1 == b.1 then t else ⟨qs.map fun c => (c.1, c.2.weight), none⟩

/-- The queue a round serves next, of those an entry can be taken from now: one whose ring or record is still being read keeps its budget
meanwhile (R302, R418). -/
def Turn.serves (t : Turn) (s : State) : Option Nat :=
  let rs := readyQueues s
  nextOf ((t.budget.filter fun b => b.2 != 0 && rs.any fun c => c.1 == b.1).map Prod.fst) t.last

/-- The queue the dispatcher serves now: its level, the highest whose round serves one, and the level's round (R302). -/
def chosenQueue (s : State) : Option (Nat × Turn × Nat) :=
  [3, 2, 1, 0].findSome? fun lvl => ((turnAt s lvl).serves s).map fun q => (lvl, turnAt s lvl, q)

/-- The length of a die's cycle in time units (R356). -/
def Die.cycle (d : Die) : Nat := (50 * (1000000 + d.ppm)).toNat

/-- Whether die 0's dispatcher may take an entry now (R302). -/
def mayTake (s : State) : Bool :=
  let d := s.die 0
  !d.safe && (match d.lastTake with
    | some t => decide (t + 64 * d.cycle ≤ d.time)
    | none   => true) &&
  decide ((s.kernels.filter fun k => k.2.st == .waiting || k.2.st.active).length < 512)

/-- The die shares of a kernel that enters DISPATCHING (R292). -/
def newShares (k : Nat) (x : Kernel) (order now : Nat) : List Share :=
  x.launch.dieset.zipIdx.map fun d =>
    { ctx := x.ctx, kern := k, index := d.2, die := d.1, order := order, nblocks := x.launch.shareBlocks d.2, next := 0
      size := x.launch.scratch, home := [], barRound := 0, barArr := [], barIn := [], barRef := [], step := 0, done := 0
      graphs := [], armed := [], waits := [], tails := [], runsDone := [], waitAt := some now, kept := false, loaded := false, ended := false }

/-- A kernel whose dependences are met and whose time has come enters DISPATCHING (R295, R296, R310). -/
def dispatchKernel (k : Nat) (s : State) : State :=
  match s.kernel? k with
  | none => s
  | some x =>
    if x.st = .waiting && x.met.all id && decide (x.launch.trigger * unitsPerNs ≤ (s.die 0).time) then
      let s := s.setKernel k { x with st := .dispatching }
      let s := (x.launch.dieset.zip (newShares k x s.fresh 0)).foldl (fun s h =>
        { s with shares := tput s.shares s.fresh { h.2 with waitAt := some (s.die h.1).time }, fresh := s.fresh + 1 }) s
      settleQueue x.queue (settleCtx x.ctx s)
    else s

/-- Reads the record of a PENDING kernel and fixes or refuses it (R289, R291, R296, R300). -/
def fixRecord (k : Nat) (s : State) : State :=
  match s.kernel? k with
  | none => s
  | some x =>
    match aloneUnits (.engine k) (readUnits (.engine k) x.ctx 0 16 (unitsFrom x.record 16) s) with
    | (.done bs, _, s) =>
      match refusal s x.ctx bs with
      | some r => settleQueue x.queue (failKernel k r causeDispatch s)
      | none =>
        let l := parseLaunch bs
        settleQueue x.queue (s.setKernel k { x with st := .waiting, launch := l, met := l.deps.map fun d => d.1 == 0 })
    | (.remote d e, a, s) => remoteEnd x.ctx d a e s
    | (r, a, s) =>
      if r.waits then s
      else settleQueue x.queue (failKernel k 0x0C { causeDispatch with addr := a } (logDispatch x.ctx a 3 0 s))

/-- A launch not yet read. -/
def noLaunch : Launch := parseLaunch []

/-- The round of a level stands. -/
def keepTurn (lvl : Nat) (t : Turn) (s : State) : State := s.modMod fun m => { m with turns := m.turns.set lvl t }

/-- An entry is taken: the read pointer advances, then the record is read (R299, R300). -/
def takeEntry (q lvl : Nat) (t : Turn) (entry : Nat) (s : State) : State :=
  let x := s.queue q
  let now := (s.die 0).time
  let t : Turn := ⟨t.budget.map fun b => if b.1 = q then (q, b.2 - 1) else b, some q⟩
  let s := keepTurn lvl t s
  let s := s.modDie 0 fun d => { d with lastTake := some now }
  let x := { x with rp := x.rp + 1, since := now, raised := false, last := none }
  if entry % 64 != 0 || decide (2 ^ 57 ≤ entry) then
    settleQueue q (appendRecord 2 x.ctx 0x0C causeDispatch entry (s.setQueue q x))
  else
    let k : Kernel := { ctx := x.ctx, queue := q, record := entry, st := .pending, reason := 0, launch := noLaunch, met := [], order := s.fresh }
    fixRecord s.fresh (settleQueue q { s.setQueue q { x with last := some s.fresh } with
      kernels := tput s.kernels s.fresh k, fresh := s.fresh + 1 })

/-- The turn in which a queue's entry is taken: that of the queue whose ring is being read, or of the queue the rules choose (R302). -/
def serveTurn (s : State) (q : Nat) : Option (Nat × Turn) :=
  let x := s.queue q
  if ringBusy s q then
    let turn := fun (l : Nat) => s.mod.turns.getD l ⟨[], none⟩
    let lvl := ((List.range 4).find? fun l => (turn l).budget.any fun b => b.1 == q && b.2 != 0).getD x.level
    if mayServe s q x then some (lvl, turn lvl) else none
  else match chosenQueue s with
    | some (lvl, t, c) => if c = q then some (lvl, t) else none
    | none => none

/-- A read of a queue's ring has failed: its address is logged and the queue DISABLED (R300, R418). -/
def ringFails (q a : Nat) (s : State) : State :=
  disableQueue q 0x03 { causeDispatch with addr := a } (logDispatch (s.queue q).ctx a 3 0 s)

/-- QUEUE_ENTRY_TAKE (R302): the dispatcher reads the next entry of the queue its rules choose and the record it names; a
record whose pages made its read wait is read again. A ring in host memory is read by a request to the host (R354). -/
def execQueueEntryTake (q : Nat) (s : State) : Outcome :=
  match tfind s.kernels fun _ k => k.queue == q && k.st == .pending with
  | some (k, _) => .next (fixRecord k s)
  | none =>
    match serveTurn s q with
    | none => .next s
    | some (lvl, t) =>
      if mayTake s then
        let x := s.queue q
        let a := x.entryAt x.rp
        if x.hostRing then match hostReqOf s (ringRun q) 0 with
          | none => .next (askHost x.ctx (ringRun q) 0 0 (keepTurn lvl t s))
          | some r => .next (takeEntry q lvl t (mread s.mod.hostMem a 8) (dropHostReq r s))
        else match alone (ringHolder q) (readAccess (ringHolder q) x.ctx 0 a 0 8 (fun s => mainRead s x.ctx 0 a 8) s) with
          | (.done bs, s) => .next (takeEntry q lvl t (leNat bs) s)
          | (.remote d e, s) => .next (remoteEnd x.ctx d a e s)
          | (r, s) =>
            if r.waits then .next (keepTurn lvl t s) else .next (ringFails q a s)
      else .next s

/-! ### Dependences (R295, R303) -/

/-- Whether a dependence with value `v` is met (R295). -/
def depMet (v threshold : Word) : Bool := decide ((v - threshold).toNat < 2 ^ 31)

/-- Reads the dependences of a WAITING kernel that are not met yet; a read that fails makes the kernel FAILED (R295). -/
def checkDeps (k ctx : Nat) : List (Nat × Nat × Word) → State → State
  | [], s => s
  | (i, a, t) :: rest, s =>
    match readAccess (.engine k) ctx 0 a 0 4 (fun s => mainRead s ctx 0 a 4) s with
    | (.done bs, s) =>
      let s := dropAnswersOf (.engine k) (fun _ y => y == a) s
      checkDeps k ctx rest (if depMet (natWord (leNat bs)) t then s.modKernel k fun x => { x with met := x.met.set i true } else s)
    | (.remote d e, s) => remoteEnd ctx d a e s
    | (r, s) =>
      if r.waits then checkDeps k ctx rest s
      else failKernel k 0x0D { causeDispatch with addr := a } (logDispatch ctx a 3 0 (forgetHolder (.engine k) s))

/-- The dependences of a kernel that are not met yet: their number, counter address and threshold. -/
def Kernel.unmet (x : Kernel) : List (Nat × Nat × Word) :=
  x.launch.deps.zipIdx.filterMap fun d => if x.met.getD d.2 true then none else some (d.2, d.1.1, d.1.2)

/-- Checks one WAITING kernel's dependences and trigger (R295). -/
def checkKernel (k : Nat) (s : State) : State :=
  match s.kernel? k with
  | none => s
  | some x => if x.st = .waiting then settleQueue x.queue (dispatchKernel k (checkDeps k x.ctx x.unmet s)) else s

/-- WAITING kernels that satisfy `p`, in the order their entries were taken (R303). -/
def waitingKernels (s : State) (p : Kernel → Bool) : List Nat :=
  ((s.kernels.filter fun y => y.2.st == .waiting && p y.2).insertionSort fun a b => decide (a.2.order ≤ b.2.order)).map Prod.fst

/-- One check of some kernels, in order. -/
def checkAll (ks : List Nat) (s : State) : State := ks.foldl (fun s k => checkKernel k s) s

/-- DEPENDENCE_CHECK (R295, R303): the check every 1 µs, which takes every WAITING kernel's dependences and trigger; kernels that leave
WAITING at it enter DISPATCHING in the order their entries were taken. -/
def execDependenceCheck (k : Nat) (s : State) : Outcome :=
  match s.kernel? k with
  | none => .next s
  | some x => if x.st = .waiting then .next (checkAll (waitingKernels s fun _ => true) s) else .next s

end Sys2Proof.Machine
end

