-- ==== Sys2Proof/Machine/Place.lean ====
section
/-! DEFINITION. The dispatcher of a die: blocks placed and started (spec 04_register R92-R96, 07_block R160-R168, 18_queue
R304-R306), ended (R172, R184, R293) and kernels completed (17_kernel R294). -/

namespace Sys2Proof.Machine

/-! ### What stands on a core (R94, R160) -/

/-- A warp's place: core, warp slot, first register, registers and threads. -/
structure Place where
  core  : Nat
  slot  : Nat
  base  : Nat
  size  : Nat
  width : Nat
deriving DecidableEq, Repr

/-- The warps that stand on a die: those of PARKED blocks do not. -/
def standing (s : State) (die : Nat) : List (Nat × Warp) :=
  s.warps.filter fun x => x.2.die == die && !((x.2.block.map s.parked).getD false)

/-- The place a warp takes; one that has ended and waits for pending results keeps its registers alone (R136, R169), in no slot. -/
def Warp.place (w : Warp) : Place :=
  if w.live = 0 then ⟨w.core, 64, w.base, w.width * w.nregs, 0⟩ else ⟨w.core, w.slot, w.base, w.width * w.nregs, w.width⟩

/-- The places with a warp slot. -/
def slotted (ps : List Place) : List Place := ps.filter fun p => decide (p.slot < 64)

def placesOn (s : State) (die : Nat) : List Place := (standing s die).map fun x => x.2.place

/-- The launch record of a block's kernel. -/
def State.launchOf (s : State) (b : Block) : Launch := ((s.kernel? b.kern).map Kernel.launch).getD noLaunch

/-- Whether a block holds resources of a core (R160, R172). -/
def Block.on (b : Block) (die core : Nat) : Bool :=
  b.die == die && (b.core == core || (decide (2 ≤ b.tiles.length) && b.core + 1 == core)) && b.st != .parked && b.st != .done

/-- The blocks that stand on a core. -/
def blocksOn (s : State) (die core : Nat) : List (Nat × Block) := s.blocks.filter fun x => x.2.on die core

/-- The core warp index `i` stands on (R160). -/
def coreFor (l : Launch) (core i : Nat) : Nat := if l.paired then core + i % 2 else core

/-- The cores of a block. -/
def coresOf (l : Launch) (core : Nat) : List Nat := if l.paired then [core, core + 1] else [core]

/-- Whether a core, or pair, has room for a block with the warp indices `is`, its registers in any arrangement (R94, R95,
R160, R259). -/
def coreFits (s : State) (die core : Nat) (l : Launch) (is : List Nat) : Bool :=
  let ps := placesOn s die
  (if l.paired then core % 2 == 0 && decide (core + 1 < 160) else decide (core < 160)) &&
  (coresOf l core).all fun c =>
    let mine := ps.filter fun p => p.core == c
    let n := (is.filter fun i => coreFor l core i == c).length
    let bs := (blocksOn s die c).map fun b => s.launchOf b.2
    !s.retired die c && decide ((slotted mine).length + n ≤ 64) &&
    decide ((mine.map Place.size).sum + n * (l.width * l.nregs) ≤ 131072) &&
    decide ((mine.map Place.width).sum + n * l.width ≤ 2048) &&
    decide ((bs.map Launch.sharedPerCore).sum + l.sharedPerCore ≤ 262144) &&
    decide ((bs.map Launch.tiles).sum + l.tiles ≤ 32)

/-- The lowest aligned free run of `size` registers among some places (R94). -/
def freeBase (size : Nat) (ps : List Place) : Option Nat :=
  ((List.range (131072 / size)).map (· * size)).find? fun b =>
    ps.all fun p => decide (p.base + p.size ≤ b) || decide (b + size ≤ p.base)

/-- Grants slots and registers to warp indices one after another (R94, R160): at the places they stand at now, or, unless `exact`,
wherever the compactor could make room for them (R95). -/
def grantPlaces (exact : Bool) (l : Launch) (core : Nat) : List Nat → List Place → Option (List (Nat × Place))
  | [], _ => some []
  | i :: rest, ps =>
    let c := coreFor l core i
    let mine := ps.filter fun p => p.core == c
    match lowestFree 64 (mine.map Place.slot), if exact then freeBase (l.width * l.nregs) mine else some 0 with
    | some sl, some b =>
      let p : Place := ⟨c, sl, b, l.width * l.nregs, l.width⟩
      (grantPlaces exact l core rest (ps ++ [p])).map ((i, p) :: ·)
    | _, _ => none

/-! ### The resources of a die (R164, R173, R310) -/

/-- 4 KiB units of scratchpad that placed die shares hold. -/
def unitsUsed (s : State) (die : Nat) : Nat :=
  ((s.shares.filter fun h => h.2.die == die && h.2.placed && !h.2.ended).map fun h => h.2.size / 4096).sum

/-- Whether a die share's window is granted, or can be (R173). -/
def windowFits (s : State) (h : Share) : Bool := h.placed || decide (unitsUsed s h.die + h.size / 4096 ≤ 14336)

/-- The stack runs of a context on a die, as (address, bytes) (R164). -/
def stackRuns (s : State) (ctx die : Nat) : List (Nat × Nat) :=
  (s.blocks.filter fun b => b.2.ctx == ctx && b.2.die == die && b.2.st != .done).filterMap fun b =>
    b.2.stkAt.map fun a => (a, (s.launchOf b.2).stackRun)

/-- The lowest free run of the context's stack region; 0 bytes need none (R164). -/
def findRun (s : State) (ctx die n : Nat) : Option (Option Nat) :=
  if n = 0 then some none
  else
    let a := (tgetD (s.ctx ctx).stkarea die 0).toNat
    let z := (tgetD (s.ctx ctx).stksize die 0).toNat
    let runs := stackRuns s ctx die
    let free := fun (x : Nat) => decide (x + n ≤ a + z) && runs.all fun r => decide (r.1 + r.2 ≤ x) || decide (x + n ≤ r.1)
    ((a :: runs.map (fun r => r.1 + r.2)).insertionSort (· ≤ ·) |>.find? fun x => decide (a ≤ x) && free x).map some

/-- Whether the context is resident on the die, or may become so (R310). -/
def mayReside (s : State) (ctx die : Nat) : Bool :=
  let cs := ((s.blocks.filter fun b => b.2.die == die && b.2.st != .done).map fun b => b.2.ctx).dedup
  cs.contains ctx || decide (cs.length < 16)

/-! ### Copy schedules (R255) -/

/-- One schedule entry from its 32 bytes. -/
def parseEntry (bs : List Byte) (skip : Bool) : SchedEntry :=
  let w : Word64 := BitVec.ofNat 64 (fieldAt bs 0 8)
  let f := fun (lo n : Nat) => (w.extractLsb' lo n).toNat
  { far := fieldAt bs 24 8, lap := (BitVec.ofNat 64 (fieldAt bs 16 8)).toInt, stage := fieldAt bs 12 4, param := fieldAt bs 8 4
    op := f 51 5, ps := w.getLsbD 50, warp := f 45 5, token := f 39 6, buf := f 35 4, imm := f 23 12
    zero := f 56 8 != 0 || f 0 23 != 0, skip := skip || decide (6 ≤ f 51 5) }

/-- What a schedule's read gives: entries or the schedule, and the addresses to log. -/
abbrev SchedRead (α : Type) := Ended (α × List Nat) × State

/-- Reads the entries of a schedule, oldest address first; an entry that cannot be read, or names no operation, is skipped, its address
to be logged. An error on a remote operation ends the read. -/
def readEntries (h : Holder) (ctx die : Nat) : List Nat → State → SchedRead (List SchedEntry)
  | [], s => (.done ([], []), s)
  | a :: rest, s =>
    let next := fun (e : SchedEntry) (s : State) => match readEntries h ctx die rest s with
      | (.done (es, bad), s) => (Ended.done (e :: es, if e.skip then a :: bad else bad), s)
      | r => r
    match readSpan h ctx die a 32 s with
    | (.done bs, _, s) => next (parseEntry bs false) s
    | (.remote d k, _, s) => (.remote d k, s)
    | (r, _, s) => if r.waits then (.wait, s) else next (parseEntry [] true) s

/-- Reads a schedule on a die (R255): the schedule, if there is one that can be read, and the addresses to log. -/
def readSched (h : Holder) (ctx die addr : Nat) (s : State) : SchedRead (Option Sched) :=
  if addr = 0 then (.done (none, []), s)
  else match readSpan h ctx die addr 32 s with
    | (.done bs, _, s) =>
      match readEntries h ctx die ((List.range (fieldAt bs 0 1)).map fun i => addr + 32 + 32 * i) s with
      | (.done (es, bad), s) => (.done (some ⟨fieldAt bs 4 4, es, []⟩, bad), s)
      | (.remote d k, s) => (.remote d k, s)
      | (_, s) => (.wait, s)
    | (.remote d k, _, s) => (.remote d k, s)
    | (r, a, s) => if r.waits then (.wait, s) else (.done (none, [a]), s)

/-- Reads the schedule of each of `n` blocks of a die share from block `i` on, once for each block (R292): none while a read waits. An
error on a remote operation ends the context (R339). -/
def readScheds (share ctx die addr : Nat) : Nat → Nat → State → Option (List (Option Sched)) × State
  | _, 0, s => (some [], s)
  | i, n + 1, s =>
    match readSched (.sched share i) ctx die addr s with
    | (.done (sd, bad), s1) =>
      match readScheds share ctx die addr (i + 1) n s1 with
      | (some l, s) => (some (sd :: l), bad.foldl (fun s a => logDispatch ctx a 4 die s) s)
      | (none, s) => (none, s)
    | (.remote d k, s) => (none, remoteEnd ctx d addr k s)
    | (_, s) => (none, s)

/-- Whether the read of a die share's copy schedule waits (R418). -/
def schedWaits (s : State) (share die : Nat) : Bool :=
  ((s.die die).held.any fun e => match e.who with
    | .sched h _ => h == share
    | _ => false) || s.mod.transfers.any fun t => t.2.tag.take 3 == [0, 6, share]

/-- A die share's schedules have been read: their answers are forgotten. -/
def dropScheds (share : Nat) (s : State) : State :=
  s.modMod fun m => { m with transfers := m.transfers.filter fun t => t.2.tag.take 3 != [0, 6, share] }

/-! ### Placing a block (R92, R148, R200, R292, R304) -/

/-- A thread at warp start (R92, R137). -/
def newThread (n entry group now : Nat) : Thread :=
  { regs := List.replicate n zeroReg, preds := 0x80, gen := 0, pc := atHeader entry, rstack := [], pipe := .a, st := .ready
    count := 0, group := group, since := now, trap := none, redirect := none }

def emptyLatch : Latch := ⟨false, List.replicate 1024 0, List.replicate 32 0, 0, 0⟩

/-- A warp at its start (R92, R148). -/
def newWarp (ctx kern share die index entry group now : Nat) (block : Option Nat) (l : Launch) (p : Place) : Warp :=
  { ctx := ctx, kern := kern, share := share, die := die, core := p.core, slot := p.slot, width := l.width, nregs := l.nregs
    base := p.base, block := block, index := index
    threads := List.replicate l.width (newThread l.nregs entry group now)
    wregs := (l.args.map fun a => ⟨a, true⟩) ++ List.replicate 48 zeroReg
    masks := ⟨allLanes l.width, 0, 0, none⟩ :: List.replicate 11 ⟨0, 0, 0, none⟩
    fpflags := 0, faults := 0, faulted := 0, ctxsel := ctx, latch := emptyLatch, region := .none, rtarget := 0, aborts := 0
    reason := 0, departing := false, stk := [], yielded := none, passed := 0, fetched := [], issA := none, issB := none, stopped := false }

/-- A block at its placement (R179, R200, R233, R256, R259, R292). -/
def newBlock (h : Share) (share core seq : Nat) (l : Launch) (home : Mem) (ws : List Nat) (sched : Option Sched) (stk : Option Nat) :
    Block :=
  { ctx := h.ctx, kern := h.kern, share := share, die := h.die, core := core
    linear := h.next * l.dieset.length + h.index, idx := h.next, seq := seq, st := .placed, before := .placed, mem := []
    view := home, pub := [], phase := 0
    bars := List.replicate 16 ⟨0, ws.flatMap fun w => (List.range l.width).map fun k => (w, k), [], []⟩
    bufs := List.replicate 16 emptyBuffer
    tiles := List.replicate (if l.paired then 2 else 1) (List.replicate l.tiles (clearTile 8))
    sigma := 0, sched := sched, shrink := none, stkAt := stk, stkOld := [], exits := [], written := 0, saving := false, saved := none }

/-- Places the next block of a die share on a core, or pair (R160, R292, R304): none when a grant fails; unless `exact`, as if the
compactor had made room. -/
def placeBlock (exact : Bool) (share core : Nat) (sched : Option Sched) (s : State) : Option State :=
  match s.share? share with
  | none => none
  | some h =>
    match s.kernel? h.kern with
    | none => none
    | some k =>
      let l := k.launch
      let is := List.range l.wmin
      match grantPlaces exact l core is (placesOn s h.die), findRun s h.ctx h.die l.stackRun with
      | some ps, some stk =>
        if coreFits s h.die core l is && windowFits s h && mayReside s h.ctx h.die then
          let now := (s.die h.die).time
          let b := s.fresh
          let names := ps.zipIdx.map fun p => (b + 1 + p.2, p.1)
          let s := { s with fresh := b + 1 + ps.length }
          let s := s.setBlock b (newBlock h share core b l h.home (names.map Prod.fst) sched stk)
          let s := names.foldl (fun s x =>
            seedWarp x.1 (s.setWarp x.1 (newWarp h.ctx h.kern share h.die x.2.1 l.entry s.instant now (some b) l x.2.2))) s
          let s := s.setShare share { h with next := h.next + 1, kept := false
                                             waitAt := if h.next + 1 < h.nblocks then some now else none }
          let s := if k.st = .dispatching then s.setKernel h.kern { k with st := .running } else s
          some (settleCtx h.ctx s)
        else none
      | _, _ => none

/-- Whether an XSAVE of a context is under way (R320). -/
def savingCtx (s : State) (c : Nat) : Bool := tany s.acts fun _ a => match a.kind with
  | .xsave k _ => k == c
  | _ => false

/-- Whether the dispatcher may place warps of a context: it is BOUND, RUNNABLE or RUNNING and no XSAVE saves it. -/
def ctxPlaces (s : State) (c : Nat) : Bool := (s.ctx c).bound && (s.ctx c).st != .parked && !savingCtx s c

/-- Whether a die share has a block still to place. -/
def shareWaits (s : State) (h : Share) : Bool :=
  decide (h.next < h.nblocks) && (match s.kernel? h.kern with
    | some k => k.st == .dispatching || k.st == .running
    | none => false) && ctxPlaces s h.ctx

def prioOf (s : State) (kern : Nat) : Nat := ((s.kernel? kern).map fun k => k.launch.prio).getD 0

/-- The die shares with a block to place on a die, in the order the dispatcher serves them (R304). -/
def waitingShares (s : State) (die : Nat) : List (Nat × Share) :=
  (s.shares.filter fun x => x.2.die == die && shareWaits s x.2).insertionSort fun a b =>
    decide (prioOf s b.2.kern < prioOf s a.2.kern) || (prioOf s a.2.kern == prioOf s b.2.kern && decide (a.2.order ≤ b.2.order))

/-- Blocks of a kernel that stand on a core. -/
def sameGrid (s : State) (die core kern : Nat) : Nat := ((blocksOn s die core).filter fun b => b.2.kern == kern).length

/-- The core a block of a launch goes to: of those with room, using the compactor where needed, the one with the fewest
blocks of the grid, and then the lowest (R304). -/
def bestCore (s : State) (die kern : Nat) (l : Launch) (is : List Nat) : Option Nat :=
  let cs := (List.range 160).filter fun c => coreFits s die c l is
  (cs.foldl (fun acc c =>
    let n := sameGrid s die c kern
    match acc with
    | none => some (n, c)
    | some a => if n < a.1 then some (n, c) else some a) (none : Option (Nat × Nat))).map Prod.snd

/-- The core for a die share's next block, if one can be placed now. -/
def shareCore (s : State) (h : Share) : Option Nat :=
  match s.kernel? h.kern with
  | none => none
  | some k =>
    if windowFits s h && mayReside s h.ctx h.die && (findRun s h.ctx h.die k.launch.stackRun).isSome then
      bestCore s h.die h.kern k.launch (List.range k.launch.wmin)
    else none

/-- Places the remaining blocks of a die-resident die share, each where the rules send it and with its own schedule; none when one has
no place. -/
def placeAll (exact : Bool) (share : Nat) : List (Option Sched) → State → Option State
  | [], s => some s
  | sched :: rest, s =>
    match s.share? share with
    | none => none
    | some h =>
      match shareCore s h with
      | none => none
      | some c => (placeBlock exact share c sched s).bind (placeAll exact share rest)

/-- Whether a die share's next block, or all of a die-resident one's, can be placed now, with the compactor's help where needed. -/
def canPlace (s : State) (x : Nat × Share) : Bool :=
  if ((s.kernel? x.2.kern).map fun k => k.launch.resident).getD false then
    (placeAll false x.1 (List.replicate (x.2.nblocks - x.2.next) none) s).isSome
  else (shareCore s x.2).isSome

/-- The warp indices a parked block holds. -/
def heldBy (s : State) (b : Nat) : List Nat := (s.blockWarps b).map fun x => x.2.index

/-- The core a PARKED block would be restored on now (R307, R320): its own, or another when that is retired. -/
def restoreCore (s : State) (x : Nat × Block) : Option Nat :=
  let l := s.launchOf x.2
  if (coresOf l x.2.core).any (s.retired x.2.die) then bestCore s x.2.die x.2.kern l (heldBy s x.1)
  else if coreFits s x.2.die x.2.core l (heldBy s x.1) then some x.2.core else none

/-- The PARKED blocks of a die whose contexts are not PARKED. -/
def parkedBlocks (s : State) (die : Nat) : List (Nat × Block) :=
  s.blocks.filter fun x => x.2.die == die && x.2.st == .parked && ctxPlaces s x.2.ctx

/-- Whether a die share is served before another (R304). -/
def servedBefore (s : State) (g h : Share) : Bool :=
  decide (prioOf s h.kern < prioOf s g.kern) || (prioOf s g.kern == prioOf s h.kern && decide (g.order < h.order))

/-- Whether the freed resources of a die are kept for one die share rather than for another (R305): of several that have waited 1 ms,
for the one that has waited longest (log entry 40). -/
def keptBefore (s : State) (g h : Share) : Bool :=
  g.kept && !(h.kept && (decide (h.waitAt.getD 0 < g.waitAt.getD 0) || (h.waitAt.getD 0 == g.waitAt.getD 0 && servedBefore s h g)))

/-- Whether the dispatcher may place a block of a die share now (R304, R305, R307): one served before it comes first if it can be placed,
unless its copy schedule is still being read (R418). -/
def mayPlace (s : State) (x : Nat × Share) : Bool :=
  shareWaits s x.2 && !(s.die x.2.die).safe &&
  (waitingShares s x.2.die).all (fun g => g.1 == x.1 ||
    (!keptBefore s g.2 x.2 && (x.2.kept || !(servedBefore s g.2 x.2 && !schedWaits s g.1 g.2.die && canPlace s g)))) &&
  (parkedBlocks s x.2.die).all fun b => decide (prioOf s b.2.kern < prioOf s x.2.kern) || (restoreCore s b).isNone

/-- BLOCK_PLACEMENT (R304): the next block of a die share, or every block of a die-resident one, is placed. -/
def execBlockPlacement (share core : Nat) (s : State) : Outcome :=
  match s.share? share with
  | none => .next s
  | some h =>
    match s.kernel? h.kern with
    | none => .next s
    | some k =>
      if mayPlace s (share, h) && shareCore s h == some core then
        match readScheds share h.ctx h.die k.launch.sched h.next (if k.launch.resident then h.nblocks - h.next else 1) s with
        | (none, s) => .next s
        | (some scheds, t) =>
          .next (((if k.launch.resident then placeAll true share scheds t else placeBlock true share core (scheds.headD none) t).map
            (dropScheds share)).getD s)
      else .next s

/-- PLACEMENT_WAIT_EXPIRY (R305): a block that has waited 1 ms has the freed resources of the die kept for it. -/
def execPlacementWaitExpiry (share : Nat) (s : State) : Outcome :=
  match s.share? share with
  | none => .next s
  | some h =>
    match h.waitAt with
    | some t =>
      if shareWaits s h && decide (t + 1000000 * unitsPerNs ≤ (s.die h.die).time) && !canPlace s (share, h) then
        .next (s.setShare share { h with kept := true })
      else .next s
    | none => .next s

/-! ### Spare warps and the compactor (R96, R166) -/

/-- The free indices a warp on a core could take by ATTACH (R166, R167). -/
def freeIndices (s : State) (kern die core : Nat) (k : Kernel) : Nat :=
  ((s.blocks.filter fun b => b.2.kern == kern && b.2.die == die && b.2.st == .running && b.2.shrink.isNone &&
      (joinIndex s k core b.1 b.2).isSome).map fun b =>
    ((List.range k.launch.wmax).filter fun i => !(heldIndices s b.1).contains i && coreOfIndex b.2 i == core).length).sum

/-- SPARE_WARP_START (R166, R305). -/
def execSpareWarpStart (share core slot : Nat) (s : State) : Outcome :=
  match s.share? share with
  | none => .next s
  | some h =>
    match s.kernel? h.kern with
    | none => .next s
    | some k =>
      let l := k.launch
      let mine := (placesOn s h.die).filter fun p => p.core == core
      let spare := (s.warps.filter fun w => w.2.kern == h.kern && w.2.die == h.die && w.2.core == core && w.2.block.isNone &&
        w.2.live != 0).length
      match freeBase (l.width * l.nregs) mine with
      | none => .next s
      | some base =>
        if l.elastic != 0 && decide (l.wmin < l.wmax) && k.st.active && !(s.die h.die).safe && ctxPlaces s h.ctx &&
            !s.retired h.die core &&
            ((blocksOn s h.die core).any fun b => b.2.kern == h.kern) && decide (slot < 64) &&
            !(mine.any fun p => p.slot == slot) && decide ((mine.map Place.width).sum + l.width ≤ 2048) &&
            decide (spare < freeIndices s h.kern h.die core k) && (waitingShares s h.die).isEmpty then
          let w := s.fresh
          let x := newWarp h.ctx h.kern share h.die 0 l.elastic s.instant (s.die h.die).time none l ⟨core, slot, base, l.width * l.nregs, l.width⟩
          .next (seedWarp w (s.bump.setWarp w x))
        else .next s

/-- COMPACTOR_MOVE (R96): an allocation whose registers are all full, of a warp that executes no clause, moves to an aligned
free run of its core's pool. -/
def execCompactorMove (w base : Nat) (s : State) : Outcome :=
  match s.warp? w with
  | none => .next s
  | some x =>
    let others := (standing s x.die).filterMap fun y => if y.1 != w && y.2.core == x.core then some y.2.place else none
    let size := x.width * x.nregs
    let full := x.threads.all fun t => t.regs.all VReg.full
    if full && x.issA.isNone && x.issB.isNone && !x.stopped && !((x.block.map s.parked).getD false) && base % size == 0 &&
        decide (base + size ≤ 131072) && others.all (fun p => decide (p.base + p.size ≤ base) || decide (base + size ≤ p.base)) then
      .next (s.setWarp w { x with base := base })
    else .next s

/-! ### Shrink requests (R168, R306) -/

/-- The state without the warps of a block above the `k` of lowest index: what a shrink to `k` would free. -/
def shrunk (s : State) (b k : Nat) : State :=
  let keep := ((s.blockWarps b).insertionSort fun x y => decide (x.2.index ≤ y.2.index)).take k
  { s with warps := s.warps.filter fun x => x.2.block != some b || keep.any fun y => y.1 == x.1 }

/-- The largest target of a shrink of a block that makes room for a waiting die share (R306). -/
def shrinkTarget (s : State) (h : Nat × Share) (b : Nat) (wmin : Nat) : Option Nat :=
  ((List.range (s.nwarp b)).reverse).find? fun k => decide (wmin ≤ k) && canPlace (shrunk s b k) h

/-- The blocks a waiting die share could be given room by, the one to choose first (R306, R307). -/
def shrinkOrder (s : State) (h : Nat × Share) : List (Nat × Block) :=
  (s.blocks.filter fun b => b.2.die == h.2.die && b.2.st == .running && !b.2.saving &&
      decide (prioOf s b.2.kern ≤ prioOf s h.2.kern) && (shrinkTarget s h b.1 (s.launchOf b.2).wmin).isSome).insertionSort fun a b =>
    decide (prioOf s a.2.kern < prioOf s b.2.kern) || (prioOf s a.2.kern == prioOf s b.2.kern &&
      (decide (b.2.seq < a.2.seq) || (a.2.seq == b.2.seq && decide (a.2.core ≤ b.2.core))))

/-- The die shares whose next blocks wait to be placed, in service order. -/
def blockedShares (s : State) (die : Nat) : List (Nat × Share) := (waitingShares s die).filter fun h => !canPlace s h

/-- SHRINK_REQUEST (R168, R306): one request on a die, for the first waiting block that one helps, on the block the rules choose. -/
def execShrinkRequest (block k : Nat) (s : State) : Outcome :=
  match s.block? block with
  | none => .next s
  | some b =>
    match (blockedShares s b.die).find? fun h => !(shrinkOrder s h).isEmpty with
    | none => .next s
    | some h =>
      if !(s.blocks.any fun x => x.2.die == b.die && x.2.shrink.isSome) && ((shrinkOrder s h).head?.map Prod.fst) == some block &&
          shrinkTarget s h block (s.launchOf b).wmin == some k then
        .next (s.setBlock block { b with st := .shrinking, shrink := some ⟨k, (s.die b.die).time, h.1, h.2.next⟩ })
      else .next s

/-! ### The end of a block and of a kernel (R172, R184, R293, R294) -/

/-- The exit record of a warp index (R293). -/
def exitRecord (e : Option ExitRec) : List Byte :=
  match e with
  | none => List.replicate 32 0
  | some e => leBytes 16 e.faults.toNat ++ leBytes 4 e.fpflags.toNat ++ leBytes 4 (1 + if e.faults = 0 then 0 else 2) ++
      List.replicate 8 0

/-- The units of the exit records of a block (R293). -/
def exitUnits (s : State) (b : Block) : List (Nat × List Byte) :=
  let l := s.launchOf b
  if l.exits = 0 then []
  else (List.range l.wmax).flatMap fun i =>
    let a := l.exits + 32 * (b.linear * l.wmax + i)
    let r := exitRecord (tget b.exits i)
    [(a, r.take 16), (a + 16, r.drop 16)]

/-- Writes the exit records of a block, unit by unit (R293), as a copy writes (R243): after an error it starts no further unit, and an
error on a remote operation ends the context. Whether it has done. -/
def writeExits (block : Nat) : Nat → State → Bool × State
  | 0, s => (true, s)
  | n + 1, s =>
    match s.block? block with
    | none => (true, s)
    | some b =>
      match (exitUnits s b)[b.written]? with
      | none => (true, s)
      | some (a, bs) =>
        match alone (.engine block) (writeAccess (.engine block) b.ctx b.die a 0 16 (fun s => mainWrite s b.ctx b.die a bs none) s) with
        | (.done _, s) => writeExits block n (s.modBlock block fun x => { x with written := x.written + 1 })
        | (.remote d k, s) => (true, remoteEnd b.ctx d a k s)
        | (r, s) => if r.waits then (false, s) else (true, logDispatch b.ctx a 5 b.die s)

/-- Whether operations of a block are still in the engines (R172). -/
def blockBusy (s : State) (b : Nat) : Bool :=
  tany s.ops (fun _ o => o.block == some b) || tany s.sfu (fun _ o => o.block == some b) ||
  tany s.copies (fun _ c => c.block == some b) || tany s.tops (fun _ t => t.block == b)

/-- A die share whose last block is DONE gives its window back (R173), and an armed snapshot it decides cuts at that instant (R392). -/
def endShare (share : Nat) (s : State) : State :=
  match s.share? share with
  | none => s
  | some h =>
    if (s.blocks.filter fun b => b.2.share == share && b.2.st == .done).length = h.nblocks then
      cutShare h.die share (s.setShare share { h with ended := true })
    else s

/-- BLOCK_END (R172, R184, R293): the pending work of an ENDING block has landed; its buffered stores are published, its
exit records written, and it is DONE. -/
def execBlockEnd (block : Nat) (s : State) : Outcome :=
  match s.block? block with
  | none => .next s
  | some b =>
    if b.st != .ending || blockBusy s block then .next s
    else
      let s := if b.pub.isEmpty then s else publish block s
      match writeExits block ((exitUnits s b).length + 1) s with
      | (false, s) => .next s
      | (true, s) => .next (settleCtx b.ctx (endShare b.share (s.modBlock block fun x => { x with st := .done, stkAt := none })))

/-- The dispatcher adds 1 at a completion counter (R294, R418); a failed access is logged and lost, and an error on a remote operation
ends the context (R339). Whether the kernel is done with it. -/
def addDone (k ctx addr : Nat) (s : State) : Bool × State :=
  if addr = 0 then (true, s)
  else match alone (.engine k)
      (wordAccess (.engine k) ctx 0 addr 0 4 (fun s => mainRmw s ctx 0 addr (fun v => (some (v + 1), 0)) none none) s) with
    | (.done _, s) => (true, s)
    | (.remote d e, s) => (false, remoteEnd ctx d addr e s)
    | (r, s) => if r.waits then (false, s) else (true, logDispatch ctx addr 3 0 s)

/-- Whether main-memory work of a kernel is still to be performed (R294). -/
def kernelBusy (s : State) (k : Nat) : Bool :=
  let ctx := ((s.kernel? k).map Kernel.ctx).getD 0
  (s.blocks.any fun b => b.2.kern == k && (b.2.st != .done || blockBusy s b.1)) ||
  tany s.ops (fun _ o => ((s.warp? o.warp).map fun w => w.kern == k).getD false) ||
  tany s.copies (fun _ c => match c.block, s.warp? c.warp with
    | some _, _ => false
    | none, some w => w.kern == k
    | none, none => c.ctx == ctx)

/-- The kernels that wait for a counter of a context, in the order their entries were taken (R303). -/
def waitersOn (s : State) (ctx addr : Nat) : List Nat :=
  waitingKernels s fun k => k.ctx == ctx && k.launch.deps.any fun d => d.1 == addr

/-- KERNEL_DONE (R294, R303): every effect of the grid is performed; the completion counter gains 1, and kernels that wait
for it are checked at once. -/
def execKernelDone (k : Nat) (s : State) : Outcome :=
  match s.kernel? k with
  | none => .next s
  | some x =>
    if x.st != .draining || kernelBusy s k then .next s
    else match addDone k x.ctx x.launch.done s with
      | (false, s) => .next s
      | (true, s) =>
        let s := { s.setKernel k { x with st := .done } with blocks := tkeep s.blocks fun _ b => b.kern != k }
        let s := settleCtx x.ctx s
        let ws := if x.launch.done = 0 then [] else waitersOn s x.ctx x.launch.done
        .next (checkAll ws s)

end Sys2Proof.Machine
end

