-- ==== Sys2Proof/Machine/Save.lean ====
section
/-! DEFINITION. Pre-emption, saving and restoring blocks (spec 18_queue R307, R308, 19_context R318, 08_phase R184, R187,
09_atomic R199, 13_buffer R258, 20_page R333). -/

namespace Sys2Proof.Machine

/-! ### Pre-emption (R307) -/

/-- The state with some blocks, and those being saved, off their cores. -/
def without (s : State) (bs : List Nat) : State :=
  { s with blocks := tmap s.blocks fun k b => if b.saving || bs.contains k then { b with st := .parked } else b }

/-- Whether a waiting die share's block would have room on a core. -/
def fitsAt (s : State) (h : Nat × Share) (core : Nat) : Bool :=
  match s.kernel? h.2.kern with
  | none => false
  | some k => if k.launch.resident then canPlace s h
    else coreFits s h.2.die core k.launch (List.range k.launch.wmin) && windowFits s h.2 && mayReside s h.2.ctx h.2.die &&
      (findRun s h.2.ctx h.2.die k.launch.stackRun).isSome

/-- The blocks of lower priority on a core, or pair, the first to save first. -/
def saveOrder (s : State) (h : Share) (core : Nat) : List Nat :=
  let paired := ((s.kernel? h.kern).map fun k => k.launch.paired).getD false
  let bs := (blocksOn s h.die core ++ if paired then blocksOn s h.die (core + 1) else []).dedup
  ((bs.filter fun b => !b.2.saving && decide (prioOf s b.2.kern < prioOf s h.kern)).insertionSort fun a b =>
    decide (prioOf s a.2.kern < prioOf s b.2.kern) || (prioOf s a.2.kern == prioOf s b.2.kern && decide (b.2.seq ≤ a.2.seq))).map
    Prod.fst

/-- The fewest blocks to save on a core to make room; none when saving all of lower priority makes none. -/
def victimsOn (s : State) (h : Nat × Share) (core : Nat) : Option (List Nat) :=
  let bs := saveOrder s h.2 core
  ((List.range (bs.length + 1)).find? fun n => fitsAt (without s (bs.take n)) h core).map fun n => bs.take n

/-- The blocks R307 chooses: on the core where the fewest must be saved, the lowest on a tie. -/
def victims (s : State) (h : Nat × Share) : List Nat :=
  let paired := ((s.kernel? h.2.kern).map fun k => k.launch.paired).getD false
  let cs := (List.range 160).filter fun c => !paired || c % 2 == 0
  ((cs.foldl (fun acc c => match victimsOn s h c, acc with
    | some v, none => some v
    | some v, some a => if v.length < a.length then some v else some a
    | none, _ => acc) (none : Option (List Nat)))).getD []

/-- Whether a fired copy is held at the page engine (R333). -/
def heldCopy (s : State) (id : Nat) (c : Copy) : Bool := (s.die c.die).held.any fun h => h.who == .copy id

/-- The fired copies of a block that are held at the page engine become unfired remainders: what they have asked for is forgotten, and the
moves still to do are kept (R333, R343). -/
def freezeHeld (b : Nat) (s : State) : State :=
  let ks := (s.copies.filter fun c => c.2.block == some b && c.2.st == .fired && heldCopy s c.1 c.2).map Prod.fst
  ks.foldl (fun s k => forgetHolder (.copy k) { s with copies := tmod s.copies k fun c => { c with st := .waiting, frozen := true } }) s

/-- A block starts being saved (R308): its warps issue no further clause, and a copy of it held at a page engine becomes an unfired
remainder (R333, R343). A shrink request on it stands (R168, R172). -/
def startSave (b : Nat) (s : State) : State :=
  let s := s.modBlock b fun x => { x with saving := true, written := 0 }
  freezeHeld b { s with warps := tmap s.warps fun _ w => if w.block = some b then { w with stopped := true } else w }

/-- Whether a block can be saved (R172). -/
def Block.savable (b : Block) : Bool := (b.st == .placed || b.st == .running || b.st == .shrinking) && !b.saving

/-- Whether a die share's next block has waited 1 ms (R307). -/
def Share.waitedLong (s : State) (h : Share) : Bool :=
  (h.waitAt.map fun t => decide (t + 1000000 * unitsPerNs ≤ (s.die h.die).time)).getD false

/-- Whether R307 lets the dispatcher pre-empt a block now: for the first waiting block in service order that has waited 1 ms and that
saving blocks of lower priority makes room for. -/
def mayPreempt (s : State) (k : Nat) (b : Block) : Bool :=
  match (blockedShares s b.die).find? fun h => h.2.waitedLong s && !(victims s h).isEmpty with
  | none => false
  | some h => b.savable && decide (prioOf s b.kern < prioOf s h.2.kern) && (victims s h).contains k

/-- The block stands without a shrink request again (R168, R172). -/
def Block.unshrink (b : Block) : Block :=
  { b with shrink := none, st := if b.st = .shrinking then .running else b.st
           before := if b.before = .shrinking then .running else b.before }

/-- A shrink request has stood for 1 ms (R306): it is cancelled, and the block is pre-empted instead if the kernel that waits has
strictly higher priority. -/
def expireShrink (block : Nat) (b : Block) (h : Nat × Share) (s : State) : State :=
  let s := s.setBlock block b.unshrink
  if b.unshrink.savable && decide (prioOf s b.kern < prioOf s h.2.kern) && !canPlace s h then startSave block s else s

/-- SHRINK_CANCEL (R168, R306): the waiting block has been placed elsewhere, or waits no more, or 1 ms has passed. -/
def execShrinkCancel (block : Nat) (s : State) : Outcome :=
  match s.block? block with
  | none => .next s
  | some b =>
    match b.shrink with
    | none => .next s
    | some r =>
      match (s.share? r.share).filter fun h => shareWaits s h && h.next == r.next with
      | none => .next (s.setBlock block b.unshrink)
      | some h =>
        if r.at_ + 1000000 * unitsPerNs ≤ (s.die b.die).time then .next (expireShrink block b (r.share, h) s) else .next s

/-- PREEMPTION (R307). -/
def execPreemption (block : Nat) (s : State) : Outcome :=
  match s.block? block with
  | none => .next s
  | some b => if mayPreempt s block b then .next (startSave block s) else .next s

/-! ### Clause boundaries (R25, R308) -/

/-- A waiting word of a core keeps its place among those that wait under another name (R186, R239, R133). -/
def renameWait (die core : Nat) (a b : Nat × Pipe) (s : State) : State :=
  let f := fun (q : List (Nat × Pipe)) => q.map fun x => if x == a then b else x
  s.modCore die core fun c => { c with tableQ := f c.tableQ, copyQ := f c.copyQ, sfuQ := f c.sfuQ }

/-- A blocked bundle parks and its pipe is free (R25): its threads are BLOCKED until what its word waits for comes (R138). -/
def parkBundle (w : Nat) (p : Pipe) (s : State) : State :=
  match s.warp? w with
  | none => s
  | some x =>
    match x.iss p with
    | none => s
    | some i =>
      if i.blocked then
        renameWait x.die x.core (w, p) (s.fresh, .a) { s.setWarp w (x.setIss p none) with
          parks := tput s.parks s.fresh ⟨w, { i with since := none }, false⟩, fresh := s.fresh + 1 }
      else s

/-- The parked bundles of a warp that is saved stand READY at their continuation clauses: their words execute again after the restore
(R308). -/
def readyParks (w : Nat) (s : State) : State :=
  let ps := (s.parks.filter fun p => p.2.warp == w).map Prod.fst
  let s := ps.foldl (fun s p => fillParked p s) s
  { s with parks := tmap s.parks fun _ p => if p.warp = w then { p with iss := { p.iss with grant := .none } } else p }

/-- Threads whose region has aborted stand READY at its target (R230). -/
def standAtTargets (w : Nat) (s : State) : State :=
  match s.warp? w with
  | none => s
  | some x =>
    let m := readyWith x fun t => t.redirect.isSome
    { s.mapLanes w m fun _ t => t.ready (atHeader (t.redirect.getD 0)) s.instant (s.die x.die).time with
      parks := s.parks.filterMap fun p => if p.2.warp = w then (p.2.iss.drop m).map fun i => (p.1, { p.2 with iss := i }) else some p }

/-- A warp to be saved (R230, R308): its blocked bundles park; once it stands at a clause boundary its live region aborts, and a region
it waits to open waits no more. -/
def settleWarp (w : Nat) (s : State) : State :=
  let s := readyParks w (parkBundle w .b (parkBundle w .a s))
  match s.warp? w with
  | some x =>
    if x.issA.isNone && x.issB.isNone then
      (standAtTargets w (abortRegion w 4 s)).modDie x.die fun d => { d with opening := d.opening.filter (· != w) }
    else s
  | none => s

/-! ### Withdrawn operations (R187, R199) -/

/-- A WAITV that waits for room, or a write held until a cut. -/
def MemOp.withdrawable (o : MemOp) : Bool :=
  match o.kind, o.st with
  | .waitv _, .noroom => true
  | _, .held => true
  | _, _ => false

def MemOp.sleeps (o : MemOp) : Bool :=
  match o.st with
  | .sleeping _ => true
  | _ => false

/-- Whether R195 orders operation `y` after `x`. -/
def orderedAfter (s : State) (x y : Nat × MemOp) : Bool :=
  decide (x.1 < y.1) && x.2.warp == y.2.warp && x.2.lane == y.2.lane && (orderClass y.2).isSome && orderClass x.2 == orderClass y.2 &&
  (x.2.space != .main || placeOf s x.2 == placeOf s y.2)

/-- The operations withdrawn with a set: those ordered after one and not performed, and the higher lanes of its word that reach the same
word, which wait behind it at the port (R193). -/
def withdrawSet (s : State) (ops : Table MemOp) : Nat → List Nat → List Nat
  | 0, ids => ids
  | n + 1, ids =>
    let more := (ops.filter fun y => !ids.contains y.1 && !y.2.performed &&
      ops.any fun x => ids.contains x.1 && (orderedAfter s x y || sameWord s x.2 y.2)).map Prod.fst
    if more.isEmpty then ids else withdrawSet s ops n (ids ++ more)

/-- An operation that leaves its port and its table entry, to be issued again at the restore. -/
def MemOp.withdraw (o : MemOp) : MemOp := { o with st := .sent, entry := none, xfer := none, spot := none, sfs := none }

/-! ### The image (R318) -/

/-- The bytes of save area a block takes (R318). -/
def imageBytes (s : State) (b : Block) : Nat :=
  let l := s.launchOf b
  let wn := l.width * l.nregs
  let n := 288 * 1024 + l.shared + 8192 * l.tiles * (if l.paired then 2 else 1) + l.wmax * (33 * wn / 8 + 320 * l.width + 4096)
  (n + 4095) / 4096 * 4096

/-- The pages of a context's save area in use. -/
def savedPages (s : State) (ctx : Nat) : List Nat :=
  (s.blocks.filter fun b => b.2.ctx == ctx).flatMap fun b => (b.2.saved.map Saved.pages).getD []

/-- Free pages of the save area for `n` bytes; none when the images would exceed XSIZE. -/
def freePages (s : State) (ctx n : Nat) : Option (List Nat) :=
  let used := savedPages s ctx
  let k := n / 4096
  if 4096 * (used.length + k) ≤ (s.ctx ctx).xsize.toNat then
    some ((((List.range (used.length + k)).map fun i => (s.ctx ctx).xarea.toNat + 4096 * i).filter fun a => !used.contains a).take k)
  else none

/-- The units of an image: its layout is the device's own (log entry 9). -/
def imageUnits (seed : Nat) (pages : List Nat) : List (Nat × List Byte) :=
  pages.zipIdx.flatMap fun p => (List.range 256).map fun u =>
    (p.1 + 16 * u, (List.range 16).map fun k => Config.byte seed (4096 * p.2 + 16 * u + k))

/-- Reserves the pages of a block's image (R318); none when the images would exceed XSIZE. -/
def startImage (b : Nat) (x : Block) (s : State) : Option State :=
  if x.saved.isSome then some s
  else (freePages s x.ctx (imageBytes s x)).map fun pages =>
    let digest := hash64 ((imageUnits s.fresh pages).flatMap Prod.snd)
    (s.setBlock b { x with saved := some ⟨pages, digest, s.fresh⟩, written := 0 }).bump

/-- The next unit of a block's image to write. -/
def nextUnit (x : Block) : Option (Nat × List Byte) := x.saved.bind fun v => (imageUnits v.seed v.pages)[x.written]?

/-- Writes the units of a block's image one after another: a unit that cannot be written is logged and left out (R322), and an error on
a remote operation ends the context. Whether all are written. -/
def putImage (b : Nat) : Nat → State → Bool × State
  | 0, s => (true, s)
  | n + 1, s =>
    match s.block? b with
    | none => (false, s)
    | some x =>
      match nextUnit x with
      | none => (true, s)
      | some (a, bs) =>
        let on := fun (s : State) => s.modBlock b fun y => { y with written := y.written + 1 }
        match alone (.engine b) (writeAccess (.engine b) x.ctx x.die a 0 16 (fun s => mainWrite s x.ctx x.die a bs none) s) with
        | (.done _, s) => putImage b n (on s)
        | (.remote d k, s) => (false, remoteEnd x.ctx d a k s)
        | (r, s) => if r.waits then (false, s) else putImage b n (on (logDispatch x.ctx a r.kind x.die s))

/-- Writes the dirty lines of a block's stacks back to its run and drops its lines from the caches (R164): false while one waits, or
when the context has ended. -/
def flushLines (die core b : Nat) : List StackLine → State → Bool × State
  | [], s => (true, s)
  | l :: rest, s =>
    match evictLine die core l s with
    | (true, s) => flushLines die core b rest s
    | r => r

/-- The stack lines of a block's cores leave their caches (R164, R318). -/
def flushBlock (b : Nat) (x : Block) (s : State) : Bool × State :=
  ((List.range x.tiles.length).map (x.core + ·)).foldl (fun r c =>
    if r.1 then flushLines x.die c b ((r.2.core x.die c).lines.filter fun l => l.block == b) r.2 else r) (true, s)

/-! ### Saving (R308, R318) -/

/-- The operations of a block's warps. -/
def opsOfBlock (s : State) (b : Nat) : Table MemOp :=
  s.ops.filter fun o => o.2.block == some b || ((s.warp? o.2.warp).map fun w => w.block == some b).getD false

/-- Whether everything R308 waits for has come about. -/
def saveReady (s : State) (b : Nat) (x : Block) (gone : List Nat) : Bool :=
  (s.blockWarps b).all (fun w => w.2.issA.isNone && w.2.issB.isNone) &&
  !(tany s.sfu fun _ o => o.block == some b || ((s.warp? o.warp).map fun w => w.block == some b).getD false) &&
  ((opsOfBlock s b).all fun o => o.2.sleeps || gone.contains o.1) &&
  !(tany s.tops fun _ t => t.block == b && t.fired) &&
  !(tany s.copies fun k c => c.block == some b && c.st == .fired && (c.kind.writesNear || c.kind.readsNear) && !(x.buf c.buf).die &&
      !heldCopy s k c)

/-- The block, written to the save area, is PARKED: its waiting operations are withdrawn (R187, R199), its unfired copies, and those held at
the page engine by now, stand still, and the queue places its tile operations held go to waiting rounds (R267). -/
def parkBlock (b : Nat) (gone : List Nat) (s : State) : State :=
  let mine := ((opsOfBlock s b).filter fun o => gone.contains o.1 || o.2.sleeps).map Prod.fst
  match s.block? b with
  | none => s
  | some x =>
    let s := freezeHeld b s
    let s := { s.setBlock b { x with st := .parked, before := x.st, saving := false, written := 0 } with
      ops := tmap s.ops fun k o => if mine.contains k then o.withdraw else o
      copies := tmap s.copies fun _ c => if c.block = some b && c.st = .waiting then { c with frozen := true } else c }
    let s := mine.foldl (fun s k => dropMessages (.op k) s) s
    ((List.range x.tiles.length).map (x.core + ·)).foldl (fun s c => acceptRounds x.die c s) s

/-- BLOCK_SAVE (R308, R318): a block being saved whose warps stand at clause boundaries and whose pending work has landed is
saved. -/
def execBlockSave (block : Nat) (s : State) : Outcome :=
  match s.block? block with
  | none => .next s
  | some x0 =>
    if !x0.saving then .next s
    else
      let s := (s.blockWarps block).foldl (fun s w => settleWarp w.1 s) s
      match s.block? block with
      | none => .next s
      | some x =>
        let ops := opsOfBlock s block
        let gone := withdrawSet s ops ops.length ((ops.filter fun o => o.2.withdrawable).map Prod.fst)
        if !saveReady s block x gone then .next s
        else match flushBlock block x s with
          | (false, s) => .next s
          | (true, s) =>
            match startImage block x s with
            | none => .next (endContext x.ctx 0x09 (causeEngine x.die 0 0) s)
            | some s =>
              match putImage block (imageBytes s x / 16 + 1) s with
              | (false, s) => .next s
              | (true, s) => .next (parkBlock block gone s)

/-! ### Restoring (R184, R307, R318) -/

/-- A warp stands on a core again; it was not ready at the selections of its slice meanwhile (R309). -/
def standAgain (places : List (Nat × Place)) (w : Warp) : Warp :=
  match (places.find? fun p => p.1 == w.index).map Prod.snd with
  | some p => { w with core := p.core, slot := p.slot, base := p.base, stopped := false, passed := 0 }
  | none => { w with stopped := false, passed := 0 }

/-- What a restored warp's threads find has happened meanwhile: channel rounds completed (R214), a region to open. On another core than
before, a TREEW token is compared with that core's release count, which the spec leaves open (log entry 25). -/
def wakeWarp (w : Nat) (s : State) : State :=
  match s.warp? w with
  | none => s
  | some x =>
    let c := s.core x.die x.core
    checkRegb w (releaseWhere w (fun q => match q with
      | .tree ch r => passedRound (c.counts.getD ch 0) r
      | .sleep t => decide (t ≤ (s.die x.die).time)
      | _ => false) s)

/-- The withdrawn operations of a block wait for table entries again, in program order, before any word of its warps (R187, R199). -/
def requeueOps (b : Nat) (s : State) : State :=
  (opsOfBlock s b).foldl (fun s o => match s.warp? o.2.warp with
    | some w => if o.2.waitsEntry then s.modCore w.die w.core fun c => { c with tableQ := waitersOf s c.tableQ 2 ++ [(o.1, .a)] } else s
    | none => s) s

/-- The block runs on again: its view refreshed, its copies and operations queued again. -/
def unpark (b core : Nat) (places : List (Nat × Place)) (s : State) : State :=
  match s.block? b with
  | none => s
  | some x =>
    let half := (List.range x.tiles.length).map (core + ·)
    let s := { s.setBlock b { x with st := x.before, core := core, saved := none } with
      warps := tmap s.warps fun _ w => if w.block = some b then standAgain places w else w
      copies := tmap s.copies fun _ c => if c.block = some b then { c with frozen := false, core := core + (c.core - x.core) } else c
      tops := tmap s.tops fun _ t => if t.block = b then { t with core := core + t.half } else t }
    let s := requeueOps b (refresh b s)
    let s := (s.blockWarps b).foldl (fun s w => wakeWarp w.1 s) s
    half.foldl (fun s c => acceptRounds x.die c s) s

/-- BLOCK_RESTORE (R307, R318): a PARKED block is restored, ahead of new blocks of equal or lower priority; an image that
fails its digest check ends the context. -/
def execBlockRestore (block core : Nat) (s : State) : Outcome :=
  match s.block? block with
  | none => .next s
  | some x =>
    let l := s.launchOf x
    let may := ((parkedBlocks s x.die).any fun b => b.1 == block) && !(s.die x.die).safe && restoreCore s (block, x) == some core &&
      (waitingShares s x.die).all fun h => decide (prioOf s h.2.kern ≤ prioOf s x.kern)
    match x.saved, grantPlaces true l core (heldBy s block) (placesOn s x.die) with
    | some sv, some places =>
      if may then
        match aloneUnits (.engine block) (readUnits (.engine block) x.ctx x.die 16 (sv.pages.flatMap fun a => unitsFrom a 256) s) with
        | (.done bs, _, s) =>
          if hash64 bs = sv.digest then .next (unpark block core places s)
          else .next (endContext x.ctx 0x0A (causeEngine x.die 0 0) s)
        | (.remote d k, a, s) => .next (remoteEnd x.ctx d a k s)
        | (r, a, s) =>
          if r.waits then .next s
          else .next (endContext x.ctx 0x0A (causeEngine x.die a 0) (logDispatch x.ctx a r.kind x.die s))
      else .next s
    | _, _ => .next s

end Sys2Proof.Machine
end

