-- ==== Sys2Proof/Machine/Sys.lean ====
section
/-! DEFINITION. The supervisor words (spec 19_context R312-R322, 20_page R337, 27_snapshot R390, R391) and the steps of the
context engines: the end of a context, the host error ring, register writes of the host, and the snapshot's cut and drain
(27_snapshot R392-R396). -/

namespace Sys2Proof.Machine

/-! ### Control and status registers (R312, R313) -/

/-- The number of a context state (R312). -/
def CtxState.code : CtxState → Nat
  | .free => 0
  | .bound => 1
  | .runnable => 2
  | .running => 3
  | .parked => 4
  | .draining => 5
  | .ended => 6

/-- A context register as die `die` reads it (R312); a FREE context's read 0 but for CTX_STATE and CTX_DIES. -/
def ctxRegRead (s : State) (die c k : Nat) : Word64 :=
  let x := s.ctx c
  let word := fun (v : Word) => v.setWidth 64
  if k = 0x10 then BitVec.ofNat 64 x.st.code
  else if k = 0x15 then x.dies
  else if x.st = .free then 0
  else match k with
    | 0x11 => x.fpstat.setWidth 64
    | 0x12 => x.tvec
    | 0x13 => x.xarea
    | 0x14 => x.xsize
    | 0x16 => tgetD x.pgroot die 0
    | 0x17 => tgetD x.peertab die 0
    | 0x18 => word x.peerTmo
    | 0x19 => word x.migrate
    | 0x1A => word x.hostTmo
    | 0x1B => tgetD x.stkarea die 0
    | 0x1C => tgetD x.stksize die 0
    | _ => x.brk.getD (k - 0x20) 0

/-- A queue register (R298). -/
def queueRegRead (q : Queue) (f : Nat) : Word64 :=
  match f with
  | 0 => q.base
  | 1 => q.ctl.setWidth 64
  | 2 => q.wp.setWidth 64
  | 3 => q.rp.setWidth 64
  | _ => q.stat.setWidth 64

/-- A register that is neither a thread's nor a warp's, as die `die` reads it with CTXSEL `c` (R312). -/
def regRead (s : State) (die c k : Nat) : Word64 :=
  let word := fun (v : Word) => v.setWidth 64
  if k < 0x100 then ctxRegRead s die c k
  else if k < 0x140 then
    if k % 8 = 0 then s.mod.tree ((k - 0x100) / 8)
    else word (((s.die die).excuse.getD ((k - 0x100) / 8) []).getD (k % 8 - 1) 0)
  else if k < 0x300 then word (s.retmap die (k - 0x200))
  else if k < 0x800 then
    match k with
    | 0x300 => s.mod.errBase
    | 0x301 => word s.mod.errSize
    | 0x302 => word s.mod.errWp
    | _ => word s.mod.errDrop
  else queueRegRead (s.queue ((k - 0x10000) / 8)) (k % 8)

/-- The registers only a handler reaches (R312). -/
def csrHandler (k : Nat) : Bool := decide (k < 2) || (decide (0x800 ≤ k) && decide (k < 0x820))

/-- The interrupted thread's registers TREG0-TREG31 (R312). -/
def csrTreg (k : Nat) : Bool := decide (0x800 ≤ k) && decide (k < 0x820)

/-- The read-only registers (R312). -/
def csrReadOnly (k : Nat) : Bool :=
  k == 0 || (decide (0x200 ≤ k) && decide (k < 0x205)) || k == 0x302 || (decide (0x10000 ≤ k) && decide (3 ≤ k % 8))

/-- A register as a thread reads it (R312, R316). -/
def csrRead (s : State) (w : Warp) (t : Thread) (k : Nat) : Word64 :=
  match k with
  | 0 => ((t.trap.map TrapFrame.code).getD 0).setWidth 64
  | 1 => ((t.trap.map TrapFrame.pred).getD 0).setWidth 64
  | 2 => BitVec.ofNat 64 w.ctxsel
  | _ => if csrTreg k then (t.regs.getD (k - 0x800) zeroReg).val.setWidth 64 else regRead s w.die w.ctxsel k

/-- Whether a TREG access of a thread meets an empty interrupted register (R313). -/
def tregEmpty (k : Nat) (t : Thread) : Bool := csrTreg k && !(t.regs.getD (k - 0x800) zeroReg).full

/-- CSRR (R313): a handler's register is ILLEGAL-OPERAND for the lanes outside a handler. -/
def execCsrr (o : FmtI) (s : State) : Outcome :=
  let k := o.imm.toNat
  runWord (.csrr o) (fun b m s =>
    let out := if csrHandler k then m &&& ~~~ b.inHandler m else 0
    trapThen b m out 0x03 (fun m s => withOperands [] (regRange o.d.toNat (if csr64 k then 2 else 1)) (fun b m s =>
      if (laneList b.warp.width m).any fun l => ((b.warp.thread l).map (tregEmpty k)).getD false then blockWord b s
      else finishWord b (s.mapLanes b.w m fun _ t =>
        let v := csrRead s b.warp t k
        if csr64 k then t.putPair o.d.toNat v else t.put o.d.toNat (loOf v))) b m s) s) s

/-- Whether a value may be written to a register; the zero bits of a 32-bit register are ignored (R207, R298, R312). -/
def csrValueOk (k : Nat) (v : Word64) : Bool :=
  if 0x20 ≤ k && k < 0x24 then v.extractLsb' 57 7 == 0 && v.extractLsb' 1 2 == 0
  else if 0x100 ≤ k && k < 0x140 && k % 8 == 0 then treeCfgOk v
  else if k = 0x300 then v == 0 || (v.extractLsb' 0 6 == 0 && v.extractLsb' 57 7 == 0)
  else if k = 0x301 then v.toNat == 0 || ((List.range 13).any fun i => v.toNat == 2 ^ (i + 4))
  else if 0x10000 ≤ k && k % 8 == 0 then v.extractLsb' 0 6 == 0 && v.extractLsb' 57 7 == 0
  else true

/-- Writes a context register of a context that is not FREE (R312). -/
def Context.write (x : Context) (die k : Nat) (v : Word64) : Context :=
  match k with
  | 0x11 => { x with fpstat := v.setWidth 5 }
  | 0x12 => { x with tvec := v }
  | 0x13 => { x with xarea := v }
  | 0x14 => { x with xsize := v }
  | 0x16 => { x with pgroot := tput x.pgroot die v }
  | 0x17 => { x with peertab := tput x.peertab die v }
  | 0x18 => { x with peerTmo := loOf v }
  | 0x19 => { x with migrate := loOf v }
  | 0x1A => { x with hostTmo := loOf v }
  | 0x1B => { x with stkarea := tput x.stkarea die v }
  | 0x1C => { x with stksize := tput x.stksize die v }
  | _ => if 0x20 ≤ k && k < 0x24 then { x with brk := x.brk.set (k - 0x20) v } else x

/-- Writes CTX_DIES: only of a FREE context, and naming no die in safe mode (R312, R402). -/
def writeDies (c : Nat) (v : Word64) (s : State) : State :=
  if (s.ctx c).st = .free && !((dieList v).any fun d => (s.die d).safe) then s.modCtx c fun x => { x with dies := v } else s

/-- Writes CTX_STATE (R310). -/
def writeCtxState (c : Nat) (v : Word) (why : Cause) (s : State) : State :=
  if v = 1 then bindContext c s else if v = 0 then freeContext c why s else s

/-- Writes a queue register of a queue that `c` may write (R298, R299, R301). -/
def queueRegWrite (q f : Nat) (v : Word64) (why : Cause) (s : State) : State :=
  match f with
  | 0 => writeQbase q v s
  | 1 => writeQctl q (loOf v) why s
  | _ => doorbell q (loOf v) why s

/-- Writes a register that is neither a thread's nor a warp's, on a die, with CTXSEL `c`; `any` lets a queue of every
context be written (R312); `why` names the writer in the records of kernels the write makes FAILED (R321). -/
def regWrite (die c k : Nat) (any : Bool) (v : Word64) (why : Cause) (s : State) : State :=
  if k = 0x10 then writeCtxState c (loOf v) why s
  else if k = 0x15 then writeDies c v s
  else if k < 0x100 then if (s.ctx c).st = .free then s else s.modCtx c fun x => x.write die k v
  else if k < 0x140 then
    let ch := (k - 0x100) / 8
    if k % 8 = 0 then writeTreeCfg ch v s
    else s.modDie die fun d => { d with excuse := lmod d.excuse ch fun ws => ws.set (k % 8 - 1) (loOf v) }
  else if k = 0x300 then s.modMod fun m => { m with errBase := v }
  else if k = 0x301 then s.modMod fun m => { m with errSize := loOf v }
  else if k = 0x303 then s.modMod fun m => { m with errDrop := 0 }
  else if k < 0x10000 then s
  else
    let q := (k - 0x10000) / 8
    if any || (s.queue q).ctx = c then queueRegWrite q (k % 8) v why s else s

/-- One lane's CSRW (R312, R313). -/
def csrWrite (b : Bundle) (l k : Nat) (v : Word64) (s : State) : State :=
  if k = 1 then s.modThread b.w l fun t => { t with trap := t.trap.map fun f => { f with pred := loOf v &&& 0x7F } }
  else if k = 2 then s.modWarp b.w fun x => { x with ctxsel := v.toNat % 256 }
  else if csrTreg k then s.modThread b.w l fun t => { t with regs := t.regs.set (k - 0x800) ⟨loOf v, true⟩ }
  else regWrite b.warp.die (((s.warp? b.w).map Warp.ctxsel).getD 0) k (b.warp.ctx == 0) v (causeThread s b.w l 0 b.iss.hdr) s

/-- CSRW (R313): each lane writes, in ascending order; a lane that may not write the register, or whose value is not allowed, traps
instead. -/
def execCsrw (o : FmtI) (s : State) : Outcome :=
  let k := o.imm.toNat
  let n := if csr64 k then 2 else 1
  runWord (.csrw o) (fun b m s =>
    if m = 0 then finishWord b s
    else if b.warp.regionLive then finishWord b (abortRegion b.w 8 s)
    else
      withOperands (src o.a n o.ea o.za) [] (fun b m s =>
      let out := if csrReadOnly k then m else if csrHandler k then m &&& ~~~ b.inHandler m else 0
      trapThen b m out 0x03 (fun m s =>
      if (laneList b.warp.width m).any fun l => ((b.warp.thread l).map (tregEmpty k)).getD false then blockWord b s
      else
        let val := fun (l : Nat) => match b.warp.thread l with
          | some t => if o.za then 0 else if csr64 k then t.pair o.a.toNat else (t.reg o.a.toNat).val.setWidth 64
          | none => 0
        let bad := laneFilter b.warp.width m fun l => !csrValueOk k (val l)
        let s := (laneList b.warp.width (m &&& ~~~ bad)).foldl (fun s l => csrWrite b l k (val l) s) s
        finishWord b (trapLanes b.w bad b.at_ 0x03 (fun _ => 0) (fun _ => 0) s)) s) b m s) s

/-! ### TRET (R317) -/

/-- TRET (R317): for lanes outside a handler ILLEGAL-INSTRUCTION; TRET.next at a header trap ILLEGAL-OPERAND. -/
def execTret (o : FmtR) (s : State) : Outcome :=
  let mode := o.mod.toNat
  runWord (.tret o) (fun b m s =>
    if m = 0 then finishWord b s
    else if b.warp.regionLive then finishWord b (abortRegion b.w 8 s)
    else
      withOperands (if mode = 2 then src o.a 2 o.ea o.za else []) [] (fun b m s =>
      trapThen b m (m &&& ~~~ b.inHandler m) 0x02 (fun m s =>
      let point := fun (t : Thread) =>
        t.trap.bind fun f => resumePoint f mode ((if o.za then 0 else t.pair o.a.toNat).toNat % 2 ^ 57)
      let bad := laneFilter b.warp.width m fun l => ((b.warp.thread l).map fun t => (point t).isNone).getD false
      let good := m &&& ~~~ bad
      let s := trapLanes b.w bad b.at_ 0x03 (fun _ => 0) (fun _ => 0) s
      let now := (s.die b.warp.die).time
      let s := dropWindow b.w good s
      let s := s.mapLanes b.w good fun _ t => leaveTrap ((point t).getD t.pc) s.instant now t
      finishWord b (dropLanes b good s)) s) b m s) s

/-! ### The frame of the words of R320 -/

/-- The value of a pair operand, 0 under a zero literal. -/
def Thread.pairVal (t : Thread) (r : BitVec 9) (z : Bool) : Word64 := if z then 0 else t.pair r.toNat

/-- A SYS word that reads its operands from its lowest guard-true lane and writes registers `ds` of every guard-true lane
(R320); a live region aborts (R226). -/
def sysWord (i : Instr) (ss : List Src) (ds : List Nat) (act : Bundle → Lanes → Thread → State → State) (s : State) : Outcome :=
  runWord i (fun b m s =>
    if m = 0 then finishWord b s
    else if b.warp.regionLive then finishWord b (abortRegion b.w 8 s)
    else
      let wait := fun (s : State) => match s.bundle? with
        | some c => (laneList b.warp.width (m &&& c.iss.lanes)).any fun l =>
            ((c.warp.thread l).map fun t => t.anyEmpty ds).getD false
        | none => false
      withLeader ss wait (fun b m l s => match s.thread? b.w l with
        | some t => act b m t s
        | none => finishWord b s) b m s) s

/-- Every guard-true lane receives a status, and the clause ends (R320). -/
def answerWord (b : Bundle) (m : Lanes) (o : FmtR) (status : Nat) (s : State) : State :=
  finishWord b (s.mapLanes b.w m fun _ t => t.put o.d.toNat (natWord status))

/-- The sources of a word of R320 that names a context, and `nb` and `nc` further registers. -/
def srcsSys (o : FmtR) (nb nc : Nat) : List Src :=
  src o.a 1 o.ea o.za ++ (if nb = 0 then [] else src o.b nb o.eb o.zb) ++ (if nc = 0 then [] else src o.c nc o.ec o.zc)

/-- A word of R320 on a context: BAD-VALUE when bits [31:8] of its operand are not zero. -/
def ctxWord (i : Instr) (o : FmtR) (nb nc : Nat) (act : Bundle → Lanes → Thread → Nat → State → State) (s : State) : Outcome :=
  sysWord i (srcsSys o nb nc) [o.d.toNat] (fun b m t s =>
    let c := (t.val o.a o.za).toNat
    if 256 ≤ c then answerWord b m o 3 s else act b m t c s) s

/-! ### XSAVE, XLOAD, TLBI, CTXEND, HALT, RETIRE (R320) -/

/-- The warps of a context that are attached to no block stop, or go on. -/
def stopUnattached (c : Nat) (stop : Bool) (s : State) : State :=
  { s with warps := tmap s.warps fun _ w => if (w.ctx == c && w.block.isNone) then { w with stopped := stop } else w }

/-- Every block of a list that can be saved starts being saved. -/
def saveBlocks (p : Block → Bool) (s : State) : State :=
  (s.blocks.filter fun b => p b.2 && b.2.savable).foldl (fun s b => startSave b.1 s) s

/-- Whether the context can be saved (R320). -/
def Context.saves (c : Context) : Bool := c.st == .running || c.st == .runnable

/-- The warps of a context that are attached to no block. -/
def unattached (s : State) (c : Nat) : List (Nat × Warp) := s.warps.filter fun w => w.2.ctx == c && w.2.block.isNone

/-- Whether the unattached warps of a context stand at clause boundaries with no result pending that a save waits for (R136, R308). -/
def unattachedStand (s : State) (c : Nat) : Bool :=
  (unattached s c).all fun w => w.2.issA.isNone && w.2.issB.isNone && !(tany s.sfu fun _ o => o.warp == w.1) &&
    !(tany s.ops fun _ o => o.warp == w.1 && !o.sleeps && !o.withdrawable)

/-- The next stage of XSAVE (R320): PARKED once every block is and the warps of no block stand; BAD-STATE when the context has left its
states. -/
def stepXsave (id : Nat) (a : EngineAct) (c v : Nat) (s : State) : State :=
  if !(s.ctx c).saves then answerAct id a v 1 s
  else
    let s := saveBlocks (fun b => b.ctx == c) s
    let s := (unattached s c).foldl (fun s w => settleWarp w.1 s) s
    if unattachedStand s c && (s.blocks.filter fun b => b.2.ctx == c).all fun b => b.2.st == .parked || b.2.st == .done then
      answerAct id a v 0 (s.modCtx c fun x => { x with st := .parked })
    else s

/-- XSAVE (R320). -/
def execXsave (o : FmtR) (s : State) : Outcome :=
  ctxWord (.xsave o) o 0 0 (fun b m _ c s =>
    if c = b.warp.ctx then answerWord b m o 2 s
    else if !(s.ctx c).saves then answerWord b m o 1 s
    else startAct b m (.xsave c o.d.toNat) [] (stopUnattached c true (saveBlocks (fun x => x.ctx == c) s))) s

/-- XLOAD (R320): the context is RUNNING or RUNNABLE again, and its blocks are restored as R307 allows. -/
def execXload (o : FmtR) (s : State) : Outcome :=
  ctxWord (.xload o) o 0 0 (fun b m _ c s =>
    if c = b.warp.ctx then answerWord b m o 2 s
    else if (s.ctx c).st != .parked then answerWord b m o 1 s
    else answerWord b m o 0 (stopUnattached c false (settleCtx c (s.modCtx c fun x => { x with st := .runnable })))) s

/-- Drops cached translations of a context on every die: those that cover `page`, or all (R320). -/
def dropCached (c : Nat) (page : Option Nat) (s : State) : State :=
  { s with dies := tmap s.dies fun _ d => { d with tlb := d.tlb.filter fun e =>
      !(e.ctx == c && match page with
        | some x => decide (e.page ≤ x) && decide (x < e.page + e.bytes)
        | none => true) } }

/-- TLBI (R320). -/
def execTlbi (o : FmtR) (s : State) : Outcome :=
  ctxWord (.tlbi o) o 0 0 (fun b m _ c s =>
    if !(s.ctx c).bound then answerWord b m o 1 s else answerWord b m o 0 (dropCached c none s)) s

/-- TLBI.page (R320). -/
def execTlbiPage (o : FmtR) (s : State) : Outcome :=
  ctxWord (.tlbiPage o) o 2 0 (fun b m t c s =>
    let x := (t.pairVal o.b o.zb).toNat
    if !(s.ctx c).bound then answerWord b m o 1 s
    else if x % 4096 != 0 || decide (2 ^ 57 ≤ x) then answerWord b m o 3 s
    else answerWord b m o 0 (dropCached c (some x) s)) s

/-- The cause fields of a SYS word (R321): its lowest guard-true lane. -/
def causeWord (s : State) (b : Bundle) (m : Lanes) : Cause :=
  causeThread s b.w ((lowestLane b.warp.width m).getD 0) 0 b.iss.hdr

/-- CTXEND (R320): the end of the executing context leaves no status to write. -/
def execCtxend (o : FmtR) (s : State) : Outcome :=
  ctxWord (.ctxend o) o 0 0 (fun b m _ c s =>
    if !(s.ctx c).bound then answerWord b m o 1 s
    else answerWord b m o 0 (endContext c 0x04 (causeWord s b m) s)) s

/-- The contexts resident on a die (R310). -/
def residents (s : State) (die : Nat) : List Nat :=
  ((s.blocks.filter fun b => b.2.die == die && b.2.st != .done).map fun b => b.2.ctx).dedup

/-- HALT (R320, R402): every context resident on the die ends, and the die enters safe mode. -/
def execHalt (o : FmtR) (s : State) : Outcome :=
  sysWord (.halt o) [] [] (fun b m _ s =>
    let die := b.warp.die
    let why := causeWord s b m
    let s := (residents s die).foldl (fun s c => endContext c 0x05 why s) s
    finishWord b (s.modDie die fun d => { d with safe := true })) s

/-- The retirement of a core (R211, R320): its excuse bits, its arrival of the current rounds, its RETMAP bit; its blocks
start being saved. -/
def retireCore (die core : Nat) (s : State) : State :=
  let bit : Word := BitVec.ofNat 32 (2 ^ (core % 32))
  let words := (List.range 5).map fun k => s.retmap die k
  let s := s.modDie die fun d =>
    { d with retmap := lmod words (core / 32) (· ||| bit)
             excuse := d.excuse.map fun ws => lmod ws (core / 32) (· ||| bit) }
  let s := s.modCore die core fun c => { c with arrived := c.arrived.map fun _ => true }
  let s := (List.range 8).foldl (fun s ch => if inSegment (s.mod.tree ch) die then checkTree ch s else s) s
  saveBlocks (fun b => b.on die core) s

/-- The next stage of RETIRE: done once no block stands on the core (R320). -/
def stepRetire (id : Nat) (a : EngineAct) (v core : Nat) (s : State) : State :=
  match s.warp? a.warp with
  | none => { s with acts := tdel s.acts id }
  | some x =>
    let s := saveBlocks (fun b => b.on x.die core) s
    if (blocksOn s x.die core).isEmpty then answerAct id a v 0 s else s

/-- RETIRE (R320). -/
def execRetire (o : FmtR) (s : State) : Outcome :=
  sysWord (.retire o) (srcsSys o 0 0) [o.d.toNat] (fun b m t s =>
    let k := (t.val o.a o.za).toNat
    if 160 ≤ k || k == b.warp.core then answerWord b m o 3 s
    else startAct b m (.retire o.d.toNat k) [] (retireCore b.warp.die k s)) s

/-! ### PGSET (R336, R337) -/

/-- The entry a leaf is written to, and the entry's old value: for a leaf of the new PTE's size, or where the old leaf
stands when the new V is 0; none when a table is missing or a table or 2 MiB leaf stands in the way. -/
def leafSlot (s : State) (die x : Nat) (big : Option Bool) : List Nat → Nat → Option (Nat × Word64 × Nat)
  | [], _ => none
  | sh :: rest, table =>
    let ea := table + 8 * (x / 2 ^ sh % 512)
    match dramRead s die ea 8 with
    | none => none
    | some bs =>
      let e : Word64 := BitVec.ofNat 64 (leNat bs)
      let leaf1 := sh == 21 && e.getLsbD 0 && pteSize e == 2
      if sh = 12 then some (ea, e, 4096)
      else if sh == 21 && (big == some true || (big == none && leaf1)) then
        if e.getLsbD 0 && !leaf1 then none else some (ea, e, 2 ^ 21)
      else if ptrOk e then leafSlot s die x big rest (4096 * pteFrame e)
      else none

/-- Whether R337 allows the change of a leaf. -/
def pgsetAllowed (old new : Word64) : Bool :=
  let st := pteState old
  let ns := pteState new
  let same := pteGroup old == pteGroup new && pteStripe old == pteStripe new
  if !old.getLsbD 0 then new.getLsbD 0 && decide (ns ≤ 2)
  else if !new.getLsbD 0 then st != 3 && st != 6
  else match st with
    | 0 | 1 => decide (ns ≤ 1)
    | 2 => (ns == 2 && (old ^^^ new) &&& 0xFFFFFFFFFFFFFC3F#64 == 0) ||
        (ns == 5 && same && pteSize old == pteSize new && pteFrame old / 2 != pteFrame new / 2)
    | 7 => ns == 2 && same
    | _ => false

/-- Whether a new valid PTE's fields are legal for PGSET (R324, R325, R337). -/
def pgsetFieldsOk (new : Word64) : Bool :=
  let ns := pteState new
  leafOk new (if pteSize new = 2 then 1 else 0) && (ns == 0 || ns == 1 || ns == 2 || ns == 5) && !((ns == 1 || ns == 5) && pteCow new)

/-- The integers of a page that becomes PARTIAL (R336): the own stripes' values, the others 0; a NaN's is a free value. -/
def partialWords (s : State) (ctx die : Nat) (old : Word64) : List Int :=
  match groupOf s ctx die (pteGroup old) with
  | none => List.replicate 1024 0
  | some g => (List.range 1024).map fun i =>
      let k := 4 * i / stripeBytes old % g.n
      if g.mem.getD k (0, 64) == (s.mod.number, die) then
        let v := fp32.decode (mread (s.die die).dram (4096 * pteFrame old + 4 * i) 4)
        match (accumAdd v g.fs).1 with
        | some j => j
        | none => (BitVec.ofNat 64 (leNat ((List.range 8).map fun k => Config.byte s.fresh (8 * i + k)))).toInt
      else 0

/-- PGSET on a die (R337): the status, and the state after it. -/
def pgset (ctx die x : Nat) (new : Word64) (s : State) : Nat × State :=
  let big := if new.getLsbD 0 then some (pteSize new == 2) else none
  if 2 ^ 57 ≤ x then (3, s)
  else match leafSlot s die x big [48, 39, 30, 21, 12] (s.pgroot ctx die) with
    | none => (3, s)
    | some (ea, old, size) =>
      if x % size != 0 || (new.getLsbD 0 && !pgsetFieldsOk new) then (3, s)
      else if !pgsetAllowed old new then (4, s)
      else
        let kept := if old.getLsbD 0 then pteF old 8 2 else 0
        let s := if new.getLsbD 0 && pteState new == 5 then
            let js := partialWords s ctx die old
            (engineDram ctx die x (4096 * pteFrame new) (js.flatMap fun j => leBytes 8 (j % 2 ^ 64).toNat) s).bump
          else s
        let s := engineDram ctx die x ea (leBytes 8 (pteSet new 8 2 kept).toNat) s
        (0, s.modDie die fun d => { d with tlb := d.tlb.filter fun e =>
          !(e.ctx == ctx && decide (e.page < x + size) && decide (x < e.page + e.bytes)) })

/-- PGSET (R337). -/
def execPgset (o : FmtR) (s : State) : Outcome :=
  ctxWord (.pgset o) o 2 2 (fun b m t c s =>
    if !(s.ctx c).bound then answerWord b m o 1 s
    else
      let r := pgset c b.warp.die (t.pairVal o.b o.zb).toNat (t.pairVal o.c o.zc) s
      answerWord b m o r.1 r.2) s

/-! ### LOGR (R320, R322) -/

/-- An entry of the violation log of CTXSEL's context; one not written since the last clear reads 0. -/
def logEntry (s : State) (w : Warp) (k : Nat) : LogEntry := tgetD (s.ctx w.ctxsel).log k ⟨0, 0⟩

/-- LOGR.addr and LOGR.info: bits [31:8] of the index, and an odd d under .addr, raise ILLEGAL-OPERAND on the guard-true
threads. -/
def logrWord (i : Instr) (o : FmtR) (n : Nat) (put : LogEntry → Thread → Thread) (s : State) : Outcome :=
  sysWord i (srcsSys o 0 0) (regRange o.d.toNat n) (fun b m t s =>
    let k := (t.val o.a o.za).toNat
    if decide (256 ≤ k) || o.d.toNat % n != 0 then trapWord b m 0x03 s
    else finishWord b (s.mapLanes b.w m fun _ t => put (logEntry s b.warp k) t)) s

/-- LOGR.addr (R320). -/
def execLogrAddr (o : FmtR) (s : State) : Outcome := logrWord (.logrAddr o) o 2 (fun e t => t.putPair o.d.toNat e.addr) s
/-- LOGR.info (R320). -/
def execLogrInfo (o : FmtR) (s : State) : Outcome := logrWord (.logrInfo o) o 1 (fun e t => t.put o.d.toNat e.info) s
/-- LOGR.count (R322). -/
def execLogrCount (o : FmtR) (s : State) : Outcome :=
  sysWord (.logrCount o) [] [o.d.toNat] (fun b m _ s =>
    finishWord b (s.mapLanes b.w m fun _ t => t.put o.d.toNat (natWord (s.ctx b.warp.ctxsel).logged))) s
/-- LOGR.clr (R322): the sequence numbers go on. -/
def execLogrClr (o : FmtR) (s : State) : Outcome :=
  sysWord (.logrClr o) [] [] (fun b _ _ s =>
    finishWord b (s.modCtx b.warp.ctxsel fun x => { x with log := [], logged := 0 })) s

/-! ### SNAPM (R390, R391) -/

/-- A descriptor's fields (R390). -/
structure SnapDesc where
  ranges : Nat
  nrange : Nat
  smod   : Nat
  sdie   : Nat
  resv   : Nat
  sbase  : Nat
  done   : Nat
  result : Nat
  grid   : Nat
  zero   : Nat
deriving DecidableEq, Repr

def parseSnap (bs : List Byte) : SnapDesc :=
  let f := fieldAt bs
  { ranges := f 0 8, nrange := f 8 4, smod := f 12 2, sdie := f 14 1, resv := f 15 1, sbase := f 16 8, done := f 24 8
    result := f 32 8, grid := f 40 8, zero := f 48 16 }

/-- The fields of a descriptor are legal (R390). -/
def SnapDesc.ok (d : SnapDesc) : Bool :=
  decide (1 ≤ d.nrange) && decide (d.nrange ≤ 4096) && decide (d.sdie < 64) && decide (d.resv ≤ 50) && d.sbase % 4096 == 0 &&
  d.done % 4 == 0 && d.zero == 0 && decide (d.ranges < 2 ^ 57) && decide (d.done < 2 ^ 57) && decide (d.result < 2 ^ 57)

/-- The ranges of a range list as (start, pages). -/
def rangesOf (n : Nat) (bs : List Byte) : List (Nat × Nat) :=
  (List.range n).map fun i => (fieldAt bs (16 * i) 8, fieldAt bs (16 * i + 8) 8)

/-- A range is page-aligned and lies in the address space (R390). -/
def rangeOk (r : Nat × Nat) : Bool := r.1 % 4096 == 0 && decide (r.1 + 4096 * r.2 ≤ 2 ^ 57)

/-- The governing grid (R391): the running kernel of the context with the record address `grid`, or the executing one. -/
def governing (s : State) (c kern grid : Nat) : Option (Nat × Kernel) :=
  if grid = 0 then ((s.kernel? kern).filter fun k => k.ctx == c && k.st == .running).map fun k => (kern, k)
  else s.kernels.find? fun k => k.2.ctx == c && k.2.st == .running && k.2.record == grid

/-- The die share of a kernel on a die. -/
def shareOn (s : State) (kern die : Nat) : Option (Nat × Share) := tfind s.shares fun _ h => h.kern == kern && h.die == die

/-- Whether a snapshot of the context is in progress on a die (R391). -/
def snapBusy (s : State) (c die : Nat) : Bool :=
  match (tget (s.die die).snaps c).map Snapshot.st with
  | some .armed | some .cut | some .draining => true
  | _ => false

/-- An armed snapshot of a die (R391). -/
def newSnap (s : State) (step : Word) (k : Nat × Kernel) (d : SnapDesc) (pages : List Nat) (die : Nat) : Snapshot :=
  { st := .armed, step := step, share := (shareOn s k.1 die).map Prod.fst, kern := k.1, pages := pages, sbase := d.sbase
    smod := d.smod, sdie := d.sdie, done := d.done, result := d.result, todo := [], leaves := [], copies := [], wrote := 0, skipped := 0
    queue := [], flight := none }

/-- Arms the dies of the governing grid (R391, R396). -/
def armSnap (c : Nat) (step : Word) (k : Nat × Kernel) (d : SnapDesc) (pages : List Nat) (s : State) : State :=
  k.2.launch.dieset.foldl (fun s die => s.modDie die fun x =>
    { x with snaps := tput x.snaps c (newSnap s step k d pages die) }) s

/-- The page set of a snapshot, the union of its ranges, each page counted once, where it first comes in list order (R390). -/
def snapPages (ranges : List (Nat × Nat)) : List Nat :=
  (ranges.flatMap fun r => (List.range r.2).map fun i => r.1 + 4096 * i).reverse.dedup.reverse

/-- The next stage of SNAPM (R391): the descriptor and its ranges are read, checked, and the dies armed; it waits for a die whose engines
accept no work (R402). -/
def stepSnapm (id : Nat) (a : EngineAct) (c v : Nat) (step : Word) (addr : Nat) (s : State) : State :=
  match s.warp? a.warp with
  | none => { s with acts := tdel s.acts id }
  | some x =>
    let h : Holder := .engine id
    let bad := fun (r : UnitsRead) => match r with
      | (.remote d k, at_, s) => remoteEnd c d at_ k s
      | (r, at_, s) => if r.waits then s else answerAct id a v 3 (logViolation c at_ r.kind 5 x.die (dropAnswers h s))
    if !(s.ctx c).bound then answerAct id a v 1 s
    else if addr % 64 != 0 || decide (2 ^ 57 ≤ addr) then answerAct id a v 3 s
    else match readUnits h c x.die 16 (unitsFrom addr 4) s with
      | (.done bs, _, s) =>
        let d := parseSnap bs
        if !d.ok then answerAct id a v 3 (dropAnswers h s)
        else match readSpan h c x.die d.ranges (16 * d.nrange) s with
          | (.done rs, _, s) =>
            let s := dropAnswers h s
            let ranges := rangesOf d.nrange rs
            match governing s c x.kern d.grid with
            | none => answerAct id a v 3 s
            | some k =>
              let done := (((tfind s.shares fun _ h => h.kern == k.1 && h.index == 0).map fun h => h.2.done).getD 0)
              let ahead := (step - done).toNat
              if !ranges.all rangeOk || ahead == 0 || decide (2 ^ 31 ≤ ahead) then answerAct id a v 3 s
              else if k.2.launch.dieset.any (snapBusy s c) then answerAct id a v 5 s
              else if k.2.launch.dieset.any s.shut then s
              else answerAct id a v 0 (armSnap c step k d (snapPages ranges) s)
          | r => bad r
      | r => bad r

/-- SNAPM (R391). -/
def execSnapm (o : FmtR) (s : State) : Outcome :=
  sysWord (.snapm o) (srcsSys o 2 0) [o.d.toNat] (fun b m t s =>
    let id := s.fresh
    let kind : ActKind := .snapm (((s.warp? b.w).map Warp.ctxsel).getD 0) o.d.toNat (t.val o.a o.za) (t.pairVal o.b o.zb).toNat
    let s := startAct b m kind [] s
    match tget s.acts id with
    | some a => match a.kind with
      | .snapm c v step addr => stepSnapm id a c v step addr s
      | _ => s
    | none => s) s

/-- The next stage of a SYS word whose threads wait (R320). -/
def stepSys (id : Nat) (a : EngineAct) (s : State) : State :=
  match a.kind with
  | .xsave c v => stepXsave id a c v s
  | .retire v core => stepRetire id a v core s
  | .snapm c v step addr => stepSnapm id a c v step addr s
  | _ => s

/-! ### Registers the host writes, and a context's end (R298, R310, R312, R319) -/

/-- REGISTER_WRITE (R312): the host writes a context, module or queue register over CXL.io. -/
def execRegisterWrite (die ctx idx : Nat) (val : Word64) (s : State) : Outcome :=
  let v := if csr64 idx then val else (loOf val).setWidth 64
  if decide (ctx < 256) && decide (die < 64) && decide (0x10 ≤ idx) && csrKnown idx && !csrHandler idx && !csrReadOnly idx && csrValueOk idx v then
    .next (regWrite die ctx idx true v causeHost s)
  else .next s

/-- ERRQ_DROP_CLEAR (R312). -/
def execErrqDropClear (s : State) : Outcome := .next (s.modMod fun m => { m with errDrop := 0 })

/-- HOST_CONTEXT_END (R319): a request over CXL.io. -/
def execHostContextEnd (ctx : Nat) (s : State) : Outcome := .next (endContext ctx 0x08 causeHost s)

/-- Whether an engine still holds an operation of a context (R310, R319). -/
def ctxBusy (s : State) (c : Nat) : Bool :=
  s.dies.any fun d =>
    tany d.2.gathers (fun _ g => g.ctx == c) || tany d.2.reds (fun _ r => r.ctx == c) || tany d.2.migs (fun _ m => m.ctx == c) ||
    tany d.2.fills (fun _ f => f.1 == c)

/-- CONTEXT_ENDED (R310, R319, R321): a DRAINING context no engine acts for is ENDED; its record, and one for every kernel
the end has made FAILED, go to the host. -/
def execContextEnded (ctx : Nat) (s : State) : Outcome :=
  let x := s.ctx ctx
  if x.st = .draining && !ctxBusy s ctx then
    let why := x.cause.getD causeDispatch
    let s := appendRecord 1 ctx x.reason why 0 (s.modCtx ctx fun c => { c with st := .ended })
    let ks := s.kernels.filter fun k => k.2.ctx == ctx && k.2.st == .failed && k.2.reason == 0x0A
    let s := ks.foldl (fun s k => appendRecord 2 ctx 0x0A { why with cause := 0 } k.2.record s) s
    .next { s with kernels := tkeep s.kernels fun _ k => !(k.ctx == ctx && k.st == .failed && k.reason == 0x0A) }
  else .next s

/-! ### The host error ring (R321) -/

/-- Writes the waiting records, oldest first. -/
def drainRing (now : Nat) : List (List Byte) → Module → Module
  | [], m => m
  | r :: rest, m => drainRing now rest (m.writeRecord now r)

/-- ERROR_RING_RETRY (R321): every 1 ms while records wait or a write has failed. -/
def execErrorRingRetry (s : State) : Outcome :=
  let m := s.mod
  let now := (s.die 0).time
  let due := match m.errBad with
    | some t => decide (t + 1000000 * unitsPerNs ≤ now)
    | none => true
  if m.errBase != 0 && m.errSize != 0 && due then
    .next (s.modMod fun m => drainRing now m.errWait { m with errWait := [], errBad := none })
  else .next s

/-- The record a ring position holds. -/
def ringRecord (m : Module) (wp : Word) : List Byte := mbytes m.hostMem (m.errBase.toNat + 64 * (wp.toNat % m.errSize.toNat)) 64

/-- ERROR_RING_WRITE_FAILURE (R321): the last record's write is reported failed, within 1 ms; the record waits again and the
ring is unreachable. -/
def execErrorRingWriteFailure (s : State) : Outcome :=
  let m := s.mod
  let now := (s.die 0).time
  match m.errLast with
  | some t =>
    if decide (now ≤ t + 1000000 * unitsPerNs) && m.errBase != 0 && m.errSize != 0 then
      let r := ringRecord m (m.errWp - 1)
      .next (s.modMod fun m => { m with errWp := m.errWp - 1, errLast := none, errBad := some now, errWait := r :: m.errWait })
    else .next s
  | none => .next s

/-! ### The cut and the drain of a snapshot (R392-R396) -/

/-- Whether a die may cut: its die share's completed step has reached S, or the share has ended (R392). -/
def cutDue (s : State) (sn : Snapshot) : Bool :=
  match sn.share.bind s.share? with
  | some h => decide ((h.done - sn.step).toNat < 2 ^ 31) || h.ended
  | none => true

/-- One of the writes a die makes at the end of a snapshot: `mark` notes that it is done. A write that fails is logged; an error on a
remote operation ends the context (R339). Whether the die goes on. -/
def snapStage {α : Type} (die c a : Nat) (mark : Snapshot → Snapshot) (r : Ended α × State) : Bool × State :=
  let on := fun (s : State) => s.modDie die fun d => { d with snaps := tmod d.snaps c mark }
  match r with
  | (.done _, s) => (true, on s)
  | (.remote d k, s) => (false, remoteEnd c d a k s)
  | (r, s) => if r.waits then (false, s) else (true, on (logViolation c a r.kind 5 die s))

/-- The result record, then the completion counter, written through the context's translation (R395), each once: its address becomes 0
when it is done. Whether both are. -/
def snapResult (die c final : Nat) (s : State) : Bool × State :=
  let h : Holder := .engine (engineBase + c)
  let snap := fun (s : State) => tget (s.die die).snaps c
  let (ok, s) : Bool × State := match (snap s).filter fun sn => sn.result != 0 with
    | none => (true, s)
    | some sn =>
      let a := sn.result + 16 * die
      let rec_ := leBytes 8 sn.wrote ++ leBytes 4 sn.skipped ++ leBytes 4 final
      snapStage die c a (fun x => { x with result := 0 })
        (alone h (writeAccess h c die a 0 16 (fun s => mainWrite s c die a rec_ none) s))
  if !ok then (false, s)
  else match (snap s).filter fun sn => sn.done != 0 with
    | none => (true, s)
    | some sn =>
      snapStage die c sn.done (fun x => { x with done := 0 })
        (alone h (wordAccess h c die sn.done 0 4 (fun s => mainRmw s c die sn.done (fun v => (some (v + 1), 0)) none none) s))

/-- A die whose pages are all acknowledged is DONE; the final state its record gives is a free value (R395). -/
def snapDone (die c : Nat) (s : State) : State :=
  match tget (s.die die).snaps c with
  | none => s
  | some sn =>
    if sn.todo.isEmpty && (sn.st == .cut || sn.st == .draining) then
      match snapResult die c (Config.choice s.fresh % 2 ^ 32) s with
      | (false, s) => s
      | (true, s) => (s.modDie die fun d => { d with snaps := tmod d.snaps c fun x => { x with st := .done } }).bump
    else s

/-- CUT (R392, R396): an armed die whose step is reached, or whose die share has ended, cuts. A set with no page to write is
done at once. -/
def execCut (die ctx : Nat) (s : State) : Outcome :=
  match tget (s.die die).snaps ctx with
  | none => .next s
  | some sn =>
    if s.shut die then .next s
    else if sn.st = .armed && cutDue s sn then .next (snapDone die ctx (cutDie die ctx s))
    else if sn.st = .cut then .next (snapDone die ctx s) else .next s

/-- A snapshot whose storage flow has failed (R396): its result names the failure, and the context ends. A record whose page makes its
write wait is not written (log entry 43). -/
def failStorage (die c : Nat) (s : State) : State :=
  let s := s.modDie die fun d => { d with snaps := tmod d.snaps c fun x => { x with done := 0 } }
  let s := (snapResult die c (2 ^ 32 - 1) s).2
  s.modDie die fun d => { d with snaps := tdel d.snaps c }

/-- Bytes of a page as its drain reads them from the frame at `a` (R394): those of an uncorrectable unit are free values (R406, log
entry 51). -/
def sentBytes (s : State) (die a n : Nat) : List Byte :=
  (List.range n).map fun i => if tableBad s die (a + i) 1 then Config.byte s.fresh i else mget (s.die die).dram (a + i)

/-- A die sends the parts of a marked page to storage, at their image offsets (R395): from the spare frame it was copied into, or its own
(R394). A storage flow that has FAILED ends the context (R396); uncorrectable bytes are logged (R406). -/
def sendPage (die ctx p page : Nat) (sn : Snapshot) (s : State) : State :=
  let fl := (outFlow 3 die sn.smod sn.sdie s).2.1
  if fl.failed then remoteEnd ctx sn.sdie 0 0 (failStorage die ctx s)
  else
    let leaf := tgetD sn.leaves page 0
    let a := ((tget sn.copies page).map fun f => 4096 * f).getD (frameAddr leaf page / 4096 * 4096)
    let parts := drainParts s ctx die page leaf
    let ps := parts.map fun x => sentBytes s die (a + x.1) x.2
    let bad := parts.any fun x => tableBad s die (a + x.1) x.2
    let s := if bad then (logViolation ctx page 2 5 die s).bump else s
    let s := s.modDie die fun d => { d with snaps := tput d.snaps ctx { sn with st := .draining, flight := some page } }
    let s := s.modMod fun m => { m with storage := m.storage ++ (parts.zip ps).map fun x => (die, sn.sbase + 4096 * p + x.1.1, x.2) }
    (sendData 3 die sn.smod sn.sdie ctx ps s).2.2

/-- Whether frames of a snapshot's page are still unacknowledged, or on their way to the terminus. -/
def drainOut (s : State) (die ctx : Nat) (sn : Snapshot) : Bool :=
  let f := (outFlow 3 die sn.smod sn.sdie s).2.1
  f.unacked.any (·.ctx == ctx) || f.waiting.any (·.ctx == ctx) ||
  s.mod.transfers.any fun t => t.2.cls == 3 && t.2.src == die && t.2.ctx == ctx && t.2.tag.head? == some 12

/-- PAGE_DRAIN_ACK (R394-R396): the first marked page is sent; storage acknowledges it once its frames have come: its mark is cleared and
its spare frame returned. -/
def execPageDrainAck (die ctx page : Nat) (s : State) : Outcome :=
  match tget (s.die die).snaps ctx with
  | none => .next s
  | some sn =>
    if !(sn.st == .cut || sn.st == .draining) || s.shut die then .next s
    else match sn.todo.head? with
      | none => .next (snapDone die ctx s)
      | some (p, x) =>
        if x != page then .next s
        else if sn.flight.isNone then .next (sendPage die ctx p page sn s)
        else if drainOut s die ctx sn then .next s
        else
          let s := s.modDie die fun d =>
            { d with
              spare := match tget sn.copies page with
                | some f => tdel d.spare f
                | none => d.spare
              snaps := tput d.snaps ctx { sn with
                st := .draining, todo := sn.todo.tail, copies := tdel sn.copies page, wrote := sn.wrote + 1, flight := none } }
          .next (snapDone die ctx s)

end Sys2Proof.Machine
end

