-- ==== Sys2Proof/Machine/Engine.lean ====
section
/-! DEFINITION. The page engines (spec 20_page R331-R336, R340): gathers served, answered and given up, reductions, migrations
and the fills of mode-1 copies. -/

namespace Sys2Proof.Machine

/-- The peer time-out of a context in time units (R312). -/
def State.peerTmo (s : State) (c : Nat) : Nat := (s.ctx c).peerTmo.toNat * unitsPerNs

/-- Whether a die answers requests of a context (R332): the context is bound there and not ending, and the die is neither in
safe mode nor starting. -/
def serves (s : State) (c die : Nat) : Bool := boundOn s c die && !(s.die die).safe && (s.die die).start.isNone

/-- The leaf of a page and its group on a die, for the engine's own use. -/
def leafGroup (s : State) (c die page : Nat) : Option (Word64 × Group) :=
  match walk s c die page with
  | .ok (p, _, _) => (groupOf s c die (pteGroup p)).map fun g => (p, g)
  | .error _ => none

/-- Where request `k` of a gather goes: the member, or its mirror. -/
def askedDie (g : Group) (k : Nat) (mirror : Bool) : Option (Nat × Nat) :=
  if mirror then g.mir.getD k none else g.mem[k]?

/-! ### Gathers (R331, R332) -/

def setReq (die gather k : Nat) (r : ReqState) (s : State) : State :=
  s.modDie die fun d => { d with gathers := tmod d.gathers gather fun g => { g with reqs := tput g.reqs k r } }

/-- A member's stripes of a page, as offsets. -/
def stripesOf (p : Word64) (n k : Nat) : List Nat :=
  (List.range (pageBytes p)).filter fun o => o / stripeBytes p % n == k

/-- What a serving die answers to a request for member `k`'s stripes (R332): its bytes, or the status of its refusal. Its walk fails at
a group that is not defined there (R328). -/
def serveStripes (s : State) (c page server k n : Nat) (p : Word64) (mirror : Bool) : Except Nat (List Host.Cell) :=
  match walk s c server page with
  | .error e => .error (if e = 2 then 4 else 1)
  | .ok (q, _, _) =>
    let st := pteState q
    if (st == 2 || st == 3 || st == 4) && pteGroup q == pteGroup p && (mirror || pteStripe q == pteStripe p) then
      let a := frameAddr q page
      let os := stripesOf p n k
      if os.any fun o => !(badIn (s.die server) (a + o) 1).isEmpty then .error 4
      else .ok (os.map fun o => (o, mget (s.die server).dram (a + o)))
    else .error 1

/-- A request's message, and its answer's (R328, R345). -/
def askTag (gather member : Nat) (mirror : Bool) : List Nat := [1, gather, member, if mirror then 1 else 0]
def replyTag (gather member : Nat) (mirror : Bool) : List Nat := [2, gather, member, if mirror then 1 else 0]

/-- Forgets the messages of a gather's request, or of all of them. -/
def dropAsks (pre : List Nat) (s : State) : State :=
  s.modMod fun m => { m with transfers := m.transfers.filter fun t =>
    !((t.2.tag.head? == some 1 || t.2.tag.head? == some 2) && t.2.tag.tail.take pre.length == pre) }

/-- A serving die's answer leaves for the die that gathers. -/
def sendReply (c server die gather member : Nat) (mirror : Bool) (r : ReqState) (s : State) : State :=
  let s := setReq die gather member r (dropMessage (askTag gather member mirror) s)
  match ride 2 c server die (replyTag gather member mirror) [] s with
  | (.cut, s) => remoteEnd c die ((((tget (s.die die).gathers gather).map Gather.page).getD 0)) 0 s
  | (_, s) => s

/-- STRIPE_REQUEST (R332): a request goes to the engine of the member, or of its mirror, over the mesh, which serves or refuses; serving
sets accessed in the server's leaf (R343). A die that may not answer, and one of another module, sends no reply. -/
def execStripeRequest (die gather member : Nat) (s : State) : Outcome :=
  match (tget (s.die die).gathers gather).bind fun g => (tget g.reqs member).map fun r => (g, r) with
  | some (g, .asked t mirror) =>
    match leafGroup s g.ctx die g.page with
    | none => .next s
    | some (p, gr) =>
      match askedDie gr member mirror with
      | none => .next s
      | some (m, d) =>
        if m != s.mod.number then .next s
        else match ride 2 g.ctx die d (askTag gather member mirror) [] s with
          | (.cut, s) => .next (remoteEnd g.ctx d g.page 0 s)
          | (.under, s) => .next s
          | (.come, s) =>
            if !serves s g.ctx d then .next s
            else match serveStripes s g.ctx g.page d member gr.n p mirror with
              | .ok cells =>
                .next (sendReply g.ctx d die gather member mirror (.stripes t mirror cells) (touch g.ctx d g.page false s))
              | .error st => .next (sendReply g.ctx d die gather member mirror (.refusal t mirror st) s)
  | _ => .next s

/-- Writes gathered bytes into the local frame, 16 at a time; a unit that cannot be written is logged (R406). -/
def putStripes (c die page a : Nat) (cells : List Host.Cell) : Nat → State → State
  | 0, s => s
  | n + 1, s =>
    if cells.isEmpty then s
    else
      let us := cells.take 16
      let o := (us.head?.map Prod.fst).getD 0
      putStripes c die page a (cells.drop 16) n (engineDram c die (page + o) (a + o) (us.map Prod.snd) s)

/-- The die a request of a gather was sent to. -/
def serverOf (s : State) (c die page k : Nat) (mirror : Bool) : Nat :=
  (((leafGroup s c die page).bind fun x => askedDie x.2 k mirror).map Prod.snd).getD die

/-- The stripes that have come are written to the frame, which leaves dirty clear (R343); the page is GATHERED after the last. -/
def putGather (die gather member : Nat) (g : Gather) (cells : List Host.Cell) (s : State) : State :=
  match walk s g.ctx die g.page with
  | .error _ => s
  | .ok (p, _, _) =>
    let s := setReq die gather member .arrived (putStripes g.ctx die g.page (frameAddr p g.page) cells cells.length s)
    let all : Bool := match tget (s.die die).gathers gather with
      | some g => g.reqs.all fun r => r.2 == .arrived
      | none => false
    if all then updateLeaf g.ctx die g.page (fun q => pteSet q 1 3 4) (s.modDie die fun d => { d with gathers := tdel d.gathers gather })
    else s

/-- The 4 KiB pages that stripes of a page lie in. -/
def stripePages (page : Nat) (cells : List Host.Cell) : List Nat := (cells.map fun c => (page + c.1) / 4096 * 4096).dedup

/-- The snapshot marks of pages are honoured before they are written (R394); none while the pool is empty. -/
def breakMarks (c die : Nat) : List Nat → State → Option State
  | [], s => some s
  | x :: rest, s =>
    match walk s c die x with
    | .ok (p, _, _) => (breakMark c die x (frameAddr p x) s).bind (breakMarks c die rest)
    | .error _ => breakMarks c die rest s

/-- Stripes that have come to a die are written with the step of the access that asked for them: a snapshot may hold them (R393), and a
marked page they go to is copied first (R394). Until then the reply waits at the die. -/
def landStripes (die gather member : Nat) (mirror : Bool) (g : Gather) (cells : List Host.Cell) (s : State) : State :=
  let h : Holder := .page 2 gather member
  let ps := stripePages g.page cells
  if ps.any fun x => snapHolds s g.ctx die x g.step then ps.foldl (fun s x => snapHold g.ctx die x h s) s
  else if ps.any fun x => !snapTurn s g.ctx die x h then s
  else match breakMarks g.ctx die ps s with
    | none => s
    | some s => ps.foldl (fun s x => snapLeave g.ctx die x h s)
        (putGather die gather member g cells (dropMessage (replyTag gather member mirror) s))

/-- GATHER_REPLY (R331, R332): an answer has come back: the stripes are written; a reply that names a reason ends the context. -/
def execGatherReply (die gather member : Nat) (s : State) : Outcome :=
  match (tget (s.die die).gathers gather).bind fun g => (tget g.reqs member).map fun r => (g, r) with
  | some (g, .stripes _ mirror cells) =>
    match ride 2 g.ctx (serverOf s g.ctx die g.page member mirror) die (replyTag gather member mirror) [] s with
    | (.come, s) => .next (landStripes die gather member mirror g cells s)
    | _ => .next s
  | some (g, .refusal _ mirror st) =>
    match ride 2 g.ctx (serverOf s g.ctx die g.page member mirror) die (replyTag gather member mirror) [] s with
    | (.come, s) => .next (remoteEnd g.ctx (serverOf s g.ctx die g.page member mirror) g.page st s)
    | _ => .next s
  | _ => .next s

/-- The time a request not yet answered was sent, and whether to the mirror. -/
def ReqState.open_ : ReqState → Option (Nat × Bool)
  | .asked t m => some (t, m)
  | .stripes t m _ => some (t, m)
  | .refusal t m _ => some (t, m)
  | .arrived => none

/-- A page becomes LOST on a die (R332, R336). -/
def losePage (c die page : Nat) (s : State) : State := updateLeaf c die page (fun q => pteSet q 1 3 7) s

/-- GATHER_TIMEOUT (R332): the request is sent once more, to the member's mirror, or the page becomes LOST. -/
def execGatherTimeout (die gather member : Nat) (s : State) : Outcome :=
  match (tget (s.die die).gathers gather).bind fun g => ((tget g.reqs member).bind ReqState.open_).map fun r => (g, r) with
  | some (g, t, mirror) =>
    let now := (s.die die).time
    if now < t + s.peerTmo g.ctx then .next s
    else match mirror, (leafGroup s g.ctx die g.page).bind fun x => askedDie x.2 member true with
      | false, some (m, d) =>
        let s := setReq die gather member (.asked now true) (dropAsks [gather, member] s)
        .next (if m = s.mod.number then s else (sendFrame 2 die m d g.ctx 16 s).2)
      | _, _ =>
        .next (losePage g.ctx die g.page ((dropAsks [gather] s).modDie die fun d => { d with gathers := tdel d.gathers gather }))
  | none => .next s

/-! ### Reductions (R335) -/

def setSend (die red k : Nat) (f : RedSend → RedSend) (s : State) : State :=
  s.modDie die fun d => { d with reds := tmod d.reds red fun r => { r with sends := lmod r.sends k f } }

/-- Adds the J values of a send at their receiver, with the saturations flagged. -/
def addSend (c d frame : Nat) (s : State) (x : Nat × Int) : State :=
  let a := 4096 * frame + 8 * x.1
  let clamps : Bool := match accumAt s d a with
    | some j => addJ j x.2 != j + x.2
    | none => false
  orFpstat c (flagIf clamps flagOf) ((addAt d a x.2 s).getD s)

/-- A receiver adds a send's J values to its page, which is then accessed and dirty (R325), and its acknowledgement leaves. None while a
marked page waits for a spare frame (R394). -/
def takeSend (die red send : Nat) (r : Reduction) (x : RedSend) (frame : Nat) (s : State) : State :=
  let d := x.die
  match breakMark r.ctx d r.page (4096 * frame) s with
  | none => s
  | some s =>
    let s := x.stripes.foldl (addSend r.ctx d frame) (touch r.ctx d r.page true (dropMessage [3, red, send] s))
    let s := snapLeave r.ctx d r.page (.page 3 red send) s
    match ride 2 r.ctx d die [4, red, send] [] (setSend die red send (fun y => { y with state := 1 }) s) with
    | (.cut, s) => remoteEnd r.ctx die r.page 0 s
    | (_, s) => s

/-- REDUCE_CONTRIBUTION (R335): the J values of one send go over the mesh to their receiver, which adds them; a page that is neither
PARTIAL nor REDUCING there ends the evicting context; a snapshot may hold the addition (R393). -/
def execReduceContribution (die red send : Nat) (s : State) : Outcome :=
  match (tget (s.die die).reds red).bind fun r => (r.sends[send]?).map fun x => (r, x) with
  | none => .next s
  | some (r, x) =>
    let d := x.die
    if x.state != 0 || x.module != s.mod.number then .next s
    else match ride 2 r.ctx die d [3, red, send] [] s with
      | (.cut, s) => .next (remoteEnd r.ctx d r.page 0 s)
      | (.under, s) => .next s
      | (.come, s) =>
        if !serves s r.ctx d then .next s
        else if snapHolds s r.ctx d r.page r.step then .next (snapHold r.ctx d r.page (.page 3 red send) s)
        else if !snapTurn s r.ctx d r.page (.page 3 red send) then .next s
        else match walk s r.ctx d r.page with
          | .error e => .next (remoteEnd r.ctx d r.page (if e = 2 then 4 else 1) s)
          | .ok (p, _, _) =>
            if !(pteState p == 5 || pteState p == 6) then .next (remoteEnd r.ctx d r.page 1 s)
            else if x.stripes.any fun w => !(badIn (s.die d) (4096 * pteFrame p + 8 * w.1) 8).isEmpty then
              .next (remoteEnd r.ctx d r.page 4 s)
            else .next (takeSend die red send r x (pteFrame p) s)

/-- REDUCE_SEND_ACKNOWLEDGEMENT (R335): an acknowledgement has come back: the evicting die's timer restarts; after the last answer it
sends done. -/
def execReduceSendAcknowledgement (die red send : Nat) (s : State) : Outcome :=
  match (tget (s.die die).reds red).bind fun r => (r.sends[send]?).map fun x => (r, x) with
  | some (r, x) =>
    if x.state != 1 then .next s
    else match ride 2 r.ctx x.die die [4, red, send] [] s with
      | (.come, s) =>
        let s := setSend die red send (fun y => { y with state := 2 }) (dropMessage [4, red, send] s)
        let s := s.modDie die fun d => { d with reds := tmod d.reds red fun r => { r with timer := d.time } }
        .next (settleRed die red s)
      | _ => .next s
  | none => .next s

/-- REDUCE_SEND_TIMEOUT (R335): a send without answer goes once more, to the member's mirror, or its member has failed. -/
def execReduceSendTimeout (die red send : Nat) (s : State) : Outcome :=
  match (tget (s.die die).reds red).bind fun r => (r.sends[send]?).map fun x => (r, x) with
  | none => .next s
  | some (r, x) =>
    let now := (s.die die).time
    if 2 ≤ x.state || now < x.at_ + s.peerTmo r.ctx then .next s
    else
      let s := dropMessage [4, red, send] (dropMessage [3, red, send] s)
      match x.again, (leafGroup s r.ctx die r.page).bind fun g => askedDie g.2 x.member true with
      | false, some (m, d) =>
        let s := setSend die red send (fun y => { y with module := m, die := d, state := 0, at_ := now, again := true }) s
        .next (if m = s.mod.number then s else (sendFrame 2 die m d r.ctx (8 * x.stripes.length) s).2)
      | _, _ => .next (settleRed die red (setSend die red send (fun y => { y with state := 3 }) s))

/-- REDUCE_DONE (R335): a done arrives and restarts the progress timer; the last one makes the page SHARDED. -/
def execReduceDone (die red src : Nat) (s : State) : Outcome :=
  match tget (s.die die).reds red with
  | some r =>
    if r.coming.contains src && ((s.transfer? [5, red, src]).map fun t => t.2.at_ == t.2.dst).getD false then
      let s := dropMessage [5, red, src] s
      let r : Reduction := { r with coming := r.coming.erase src, timer := (s.die die).time
                                    dones := if r.dones.contains src then r.dones else r.dones ++ [src] }
      .next (settleRed die red (s.modDie die fun d => { d with reds := tput d.reds red r }))
    else .next s
  | none => .next s

/-- REDUCING_TIMEOUT (R335): the progress timer of a REDUCING page, or of a mirror's from its first done, has run out with a
done missing: the page is LOST there. Its own sends go on. -/
def execReducingTimeout (die red : Nat) (s : State) : Outcome :=
  match tget (s.die die).reds red with
  | none => .next s
  | some r =>
    let member := match leafGroup s r.ctx die r.page with
      | some x => x.2.mem.contains (s.mod.number, die)
      | none => true
    if !r.conv && (r.active || (!member && !r.dones.isEmpty)) && decide (r.timer + s.peerTmo r.ctx ≤ (s.die die).time) then
      .next (losePage r.ctx die r.page (s.modDie die fun d => { d with
        reds := if r.sent || !member then tdel d.reds red else tput d.reds red { r with conv := true } }))
    else .next s

/-! ### Migrations and fills (R340) -/

/-- The index a die has in another's peer table. -/
def peerIndex (s : State) (c die : Nat) (who : Nat × Nat) : Option Nat :=
  (List.range 4096).find? fun k => peerOf s c die k == some who

/-- Copies a page's bytes between dies, with its uncorrectable units. -/
def movePage (src a dst b n : Nat) (s : State) : State :=
  let bytes := mbytes (s.die src).dram a n
  let bad := (s.die src).bad.filter fun u => decide (a / 32 ≤ u) && decide (u < (a + n) / 32)
  s.modDie dst fun d =>
    { d with dram := msetAll d.dram (cellsAt b bytes)
             bad := (d.bad.filter fun u => !(decide (b / 32 ≤ u) && decide (u < (b + n) / 32))) ++ bad.map fun u => u - a / 32 + b / 32 }

/-- The owner's answer to a request for a mode-2 page leaves for the die that asked: the page's cow and writable bits, or a refusal. -/
def answerMig (die mig : Nat) (m : Migration) (r : Option Nat) (s : State) : State :=
  let s := (dropMessage [7, mig] s).modDie die fun d => { d with migs := tput d.migs mig { m with reply := some r } }
  match ride 2 m.ctx m.owner die [8, mig] [] s with
  | (.cut, s) => remoteEnd m.ctx die m.page 0 s
  | (_, s) => s

/-- MIGRATION_HANDOVER (R340): the request goes to the owner of a mode-2 page, which copies the page to the landing frame and names the
requester, or refuses. The spec gives no time-out for a die that does not answer: the model takes it as a refusal after PEER_TMO (log
entry 41). -/
def execMigrationHandover (die mig : Nat) (s : State) : Outcome :=
  match tget (s.die die).migs mig with
  | none => .next s
  | some m =>
    if m.reply.isSome then .next s
    else match ride 2 m.ctx die m.owner [7, mig] [] s with
      | (.cut, s) => .next (remoteEnd m.ctx m.owner m.page 0 s)
      | (.under, s) => .next s
      | (.come, s) =>
        if !serves s m.ctx m.owner then
          if m.at_ + s.peerTmo m.ctx ≤ (s.die die).time then .next (answerMig die mig m none s) else .next s
        else match walk s m.ctx m.owner m.page, walk s m.ctx die m.page, peerIndex s m.ctx m.owner (s.mod.number, die) with
          | .ok (q, _, n), .ok (p, _, _), some k =>
            if pteState q = 0 && n = m.bytes && pteFrame p != 0 then
              let s := movePage m.owner (frameAddr q m.page) die (frameAddr p m.page) m.bytes s
              .next (answerMig die mig m (some (pteF q 6 2)) (updateLeaf m.ctx m.owner m.page (fun q =>
                pteSet (pteSet (pteSet (pteSet q 1 3 1) 4 2 0) 24 25 0) 49 12 k) s))
            else .next (answerMig die mig m none s)
          | _, _, _ => .next (answerMig die mig m none s)

/-- MIGRATION_HANDOVER_REPLY (R340): the answer has come: the requester's leaf becomes LOCAL with the owner's writable and cow bits, or
its count restarts from 0. -/
def execMigrationHandoverReply (die mig : Nat) (s : State) : Outcome :=
  match (tget (s.die die).migs mig).bind fun m => m.reply.map fun r => (m, r) with
  | none => .next s
  | some (m, r) =>
    match ride 2 m.ctx m.owner die [8, mig] [] s with
    | (.come, s) =>
      let gone := (dropMessage [8, mig] s).modDie die fun d => { d with migs := tdel d.migs mig }
      match r with
      | some bits => .next (updateLeaf m.ctx die m.page (fun q => pteSet (pteSet (pteSet (pteSet q 1 3 0) 4 2 0) 6 2 bits) 49 12 0) gone)
      | none => .next (modTlb m.ctx die m.page (fun e => { e with count := 0 }) gone)
    | _ => .next s

/-- The 4 KiB parts of a page read at its owner under R339: their places, or how the read ends. -/
def fillParts (c die d : Nat) : List Nat → State → Ended (List (Nat × Nat × Nat)) × State
  | [], s => (.done [], s)
  | x :: rest, s =>
    match remoteAt s c x false 2 d with
    | (.here e a _, s) =>
      if !(badIn (s.die e) a 4096).isEmpty then (.remote e 4, s)
      else match fillParts c die d rest s with
        | (.done l, s) => (.done ((x, e, a) :: l), s)
        | r => r
    | (.remote e k, s) => (.remote e k, s)
    | (.far m e, s) => (.far m e, s)
    | (_, s) => (.wait, s)

/-- A fill is no more, with what it was answered. -/
def endFill (die fill : Nat) (s : State) : State :=
  (dropMessage [6, fill] (dropMessage [6, fill, 1] s)).modDie die fun d => { d with fills := tdel d.fills fill }

/-- MODE1_FILL (R340): the whole page is fetched at its owner, over the mesh, into the local copy, which becomes valid. -/
def execMode1Fill (die fill : Nat) (s : State) : Outcome :=
  match tget (s.die die).fills fill with
  | none => .next s
  | some (c, page) =>
    match leafOf s c die page with
    | (.error _, s) => .next (endFill die fill s)
    | (.ok p, s) =>
      match pteState p == 1 && pteMode p == 1, peerOf s c die (ptePeer p) with
      | true, some (m, d) =>
        if m != s.mod.number then .next s
        else
          let parts := (List.range (pageBytes p / 4096)).map fun i => page + 4096 * i
          let fetch := fun (s : State) => match fillParts c die d parts s with
            | (.done l, s) => (Ended.done (), l.foldl (fun s x => movePage x.2.1 x.2.2 die (frameAddr p x.1) 4096 s) s)
            | (.remote e k, s) => (.remote e k, s)
            | (_, s) => (.wait, s)
          match overMesh (fun _ => []) (fun _ => ()) [6, fill] 2 c die (if d = die then [] else ownerPath s c page d) id fetch s with
          | (.done _, s) => .next (modTlb c die page (fun e => { e with valid := true }) (endFill die fill s))
          | (.remote e k, s) => .next (remoteEnd c e page k s)
          | (_, s) => .next s
      | _, _ => .next (endFill die fill s)

end Sys2Proof.Machine
end

