-- ==== Sys2Proof/Machine/Link.lean ====
section
/-! DEFINITION. The links (spec 22_link R345-R356): mesh flits, flows and frames of other modules, ports, the host's window and
the time base; and the keeper's log of what a die accepts (27_snapshot R397). -/

namespace Sys2Proof.Machine

/-! ### The keeper (R397) -/

/-- A die accepts a message, a copy of which goes to its keeper first (R397). -/
def logMessage (die cls src : Nat) (tag : List Nat) (data : List Byte) (s : State) : State :=
  logKeeper die (16 + data.length) (.taken cls src tag data) s

/-- Whether a die's keeper acknowledges what the die forwards to it: the link between them stands and the keeper does not start. A die
accepts no message before (R397). -/
def keeperAnswers (s : State) (die : Nat) : Bool :=
  let k := keeperOf die
  !(s.mod.link (4 * die + nextDir die k)).failed && !(s.mod.link (4 * k + nextDir k die)).failed && (s.die k).start.isNone

/-! ### The mesh (R345-R348) -/

/-- The link over which a transfer came to the die it stands at, as 4·die + direction; none at its source, nor at its end, where it has
left the link's buffer (R345). -/
def cameBy (t : Transfer) : Option Nat :=
  if t.at_ = t.src || t.at_ = t.dst then none
  else
    let along := if t.src % 8 < t.at_ % 8 then t.at_ - 1 else t.at_ + 1
    let down := if t.src / 8 < t.at_ / 8 then t.at_ - 8 else t.at_ + 8
    let prev := if releaseTag t.tag then (if t.at_ % 8 = t.src % 8 then down else along) else (if t.at_ / 8 = t.src / 8 then along else down)
    some (4 * prev + routeDir t.tag prev t.dst)

/-- Transfers of a class in a link's channel buffer at its receiver. -/
def channelUse (m : Module) (link cls : Nat) : Nat := (m.transfers.filter fun t => t.2.cls == cls && cameBy t.2 == some link).length

/-- Whether a class is signalled off on a link after its buffer has changed (R346). -/
def signal (m : Module) (link cls : Nat) : Module :=
  let n := channelUse m link cls
  let l := m.link link
  let off := if 3 * Config.meshDepth < 4 * n then (if l.off.contains cls then l.off else l.off ++ [cls])
    else if n = 0 || 4 * n < Config.meshDepth then l.off.filter (· != cls)
    else l.off
  { m with links := tput m.links link { l with off := off } }

/-- The number of the link in the other direction. -/
def backLink (link : Nat) : Nat := 4 * hop (link / 4) (link % 4) + (link % 4 + 2) % 4

/-- Changes a mesh link in both directions. -/
def modLink (link : Nat) (f : MeshLink → MeshLink) (s : State) : State :=
  let one := fun (k : Nat) (m : Module) => { m with links := tput m.links k (f (m.link k)) }
  s.modMod fun m => one (backLink link) (one link m)

/-- A transfer whose route has been cut is no more, and ends its context (R348); of a message of the AND tree, the context its channel
names. -/
def cutTransfer (s : State) (t : Nat × Transfer) : State :=
  let s := s.modMod fun m => { m with transfers := tdel m.transfers t.1 }
  remoteEnd t.2.ctx t.2.dst 0 0 s

/-- A mesh link enters FAILED in both directions (R348): the transfers whose route crosses it end their contexts. -/
def failLink (link : Nat) (s : State) : State :=
  let s := modLink link (fun l => { l with st := .failed }) s
  (s.mod.transfers.filter fun t => !routeOk s.mod t.2.tag 14 t.2.at_ t.2.dst).foldl cutTransfer s

/-- Whether a mesh link carries flits (R353). -/
def MeshLink.carries (l : MeshLink) : Bool := l.st == .up || l.st == .degraded

/-- The number a transfer has that belongs to no context. -/
def noCtx : Nat := 256

/-! ### Messages that act as they land -/

/-- A frame as bytes: its header and payload (R350). -/
def frameBytes (f : Frame) : List Byte := leBytes 16 (frameHead f) ++ f.data

/-- The frame some bytes hold (R350). -/
def parseFrame (bs : List Byte) : Frame :=
  let h := leNat (bs.take 16)
  let f := fun (lo n : Nat) => h / 2 ^ lo % 2 ^ n
  ⟨f 112 16, f 106 6, f 90 16, f 84 6, f 82 2, f 80 2, f 71 9, f 64 7, BitVec.ofNat 32 (f 32 32), BitVec.ofNat 32 (f 0 32), bs.drop 16⟩

/-- A message for a die's junction has come, and waits for its turn there (R383). -/
def queueReward (die : Nat) (msg : List Byte) (s : State) : State :=
  { s with mod := { s.mod with transfers := tput s.mod.transfers s.fresh ⟨1, die, die, die, (msg.getD 7 0).toNat, [14, s.fresh], msg⟩ }
           fresh := s.fresh + 1 }

/-- A frame reaches its destination die (R352): one ordered beat is a reward message (R383, log entry 42); the meaning of other payloads
is the sending module's own (NOTES, Scope). -/
def takeFrame (die cls : Nat) (data : List Byte) (s : State) : State :=
  if cls = 1 && data.length = 16 then queueReward die data s else s

/-- The home terminus gives a frame up to its die, over the mesh (R352). -/
def deliver (home : Nat) (f : Frame) (s : State) : State :=
  if home = f.ddie then takeFrame f.ddie f.cls f.data (logMessage f.ddie f.cls f.sdie [13, f.cls] f.data s)
  else (ride f.cls noCtx home f.ddie [13, f.cls, s.fresh] f.data s).2.bump

/-- The incoming flow of a frame. -/
def inFlow (s : State) (f : Frame) : Nat × Flow × State :=
  match tfind s.mod.flows fun _ x => !x.out && x.cls == f.cls && x.src == f.sdie && x.dst == f.ddie && x.module == f.smod with
  | some (k, x) => (k, x, s)
  | none => (s.fresh, newFlow f.cls f.sdie f.ddie f.smod false (s.mod.egress f.smod), s.bump)

/-- Moves `next` past the frames that have arrived, and gives up those of class 1 held for it, in order. -/
def advanceFlow : Nat → Flow → Flow × List Frame
  | 0, f => (f, [])
  | n + 1, f =>
    if f.beyond.contains f.next then
      let mine := f.heldF.filter fun x => x.seq == f.next
      let r := advanceFlow n { f with next := f.next + 1, beyond := f.beyond.filter (· != f.next), heldF := f.heldF.filter fun x => x.seq != f.next }
      (r.1, mine ++ r.2)
    else (f, [])

/-- The bits of an acknowledgement's payload: which of the 256 numbers after `next` have arrived (R351). -/
def ackBits (f : Flow) : List Byte :=
  (List.range 32).map fun i => BitVec.ofNat 8 (((List.range 8).map fun k =>
    if f.beyond.contains (f.next + BitVec.ofNat 32 (8 * i + k + 1)) then 2 ^ k else 0).sum)

/-- The acknowledgement a receiver returns (R351): the number below which every frame has arrived, and the bitmap. -/
def ackFrame (number : Nat) (f : Flow) : Frame :=
  let x : Frame := ⟨f.module, f.src, number, f.dst, f.cls, 1, 2, 0, f.next, 0, ackBits f⟩
  { x with check := frameCrc x }

/-- A frame has come to its home terminus (R351, R352): it is delivered once, of class 1 in sequence order, one that comes early held for it
while fewer than 4,096 are, of the others as it comes; and the flow is acknowledged. -/
def atHome (f : Frame) (s : State) : State :=
  let (id, x, s) := inFlow s f
  let ahead := (f.seq - x.next).toNat
  let put := fun (y : Flow) (s : State) => s.modMod fun m => { m with flows := tput m.flows id { y with ack := some (ackFrame m.number y) } }
  if 2 ^ 31 ≤ ahead || x.beyond.contains f.seq || (f.cls == 1 && ahead != 0 && decide (4096 ≤ x.heldF.length)) then put x s
  else
    let (y, out) := advanceFlow (x.beyond.length + 1)
      { x with beyond := x.beyond ++ [f.seq], heldF := if f.cls = 1 then x.heldF ++ [f] else x.heldF }
    let s := put y s
    if f.cls = 1 then out.foldl (fun s g => deliver (portDie y.port) g s) s else deliver (portDie y.port) f s

/-! ### Flows that fail, and acknowledgements (R351, R352) -/

def modFlow (id : Nat) (f : Flow → Flow) (s : State) : State := s.modMod fun m => { m with flows := tmod m.flows id f }

/-- Whether a REMOTE page of a context on a die is another module's die's. -/
def ownedBy (s : State) (c die x : Nat) (who : Nat × Nat) : Bool :=
  match leafOf s c die x with
  | (.ok p, _) => pteState p == 1 && peerOf s c die (ptePeer p) == some who
  | (.error _, _) => false

/-- The main-memory source of a SEND that a run of a context has fired for a die of another module. -/
def sendAddr (s : State) (c : Nat) (f : Flow) : Option Nat :=
  s.runs.findSome? fun r => (s.share? r.2.share).bind fun h =>
    if h.ctx = c && h.die = f.src then
      (r.2.fired.filter fun k => !r.2.done.contains k).findSome? fun k => (r.2.graph.nodes[k]?).bind fun n =>
        let b := r.2.bases.getD n.sbase 0
        if n.op = 0 && peerOf s c h.die n.peer = some (f.module, f.dst) && !b.getLsbD 63 then some (b.toNat + n.soff) else none
    else none

/-- The page of a gather's open request, or of a reduction's open send, of a context to the die a flow goes to (R331, R335). -/
def pageAddr (s : State) (c : Nat) (f : Flow) : Option Nat :=
  let d := s.die f.src
  let who := (f.module, f.dst)
  let gathers := d.gathers.findSome? fun g =>
    if g.2.ctx = c && (g.2.reqs.any fun r => match r.2 with
      | .asked _ mirror => match walk s c f.src g.2.page with
        | .ok (p, _, _) => ((groupOf s c f.src (pteGroup p)).bind fun x => if mirror then x.mir.getD r.1 none else x.mem[r.1]?) == some who
        | .error _ => false
      | _ => false) then some g.2.page else none
  let reds := d.reds.findSome? fun r =>
    if r.2.ctx = c && (r.2.sends.any fun x => decide (x.state < 2) && (x.module, x.die) == who) then some r.2.page else none
  let fills := d.fills.findSome? fun x => if x.2.1 = c && ownedBy s c f.src x.2.2 who then some x.2.2 else none
  gathers.or (reds.or fills)

/-- The address of a write that waits for its frame on a flow to be acknowledged: its mirror's (R333). -/
def mirrorAddr (s : State) (c id : Nat) : Option Nat :=
  s.mod.transfers.findSome? fun t =>
    if t.2.ctx = c && t.2.tag.length == 7 && t.2.tag.getLast? == some 2 && leNat (t.2.data.take 8) == id then t.2.tag[5]? else none

/-- An access of a context that is held for the answer of another module's die: its address, as near as the holder tells. -/
def heldAddr (s : State) (c : Nat) (f : Flow) : Option Nat :=
  ((s.die f.src).held.find? fun e => e.ctx == c && ownedBy s c f.src e.page (f.module, f.dst)).map fun e => match e.who with
    | .copy i => (((tget s.copies i).bind fun x => x.moves.head?).map Move.far).getD e.page
    | _ => e.page

/-- The address of an operation that a context has on a flow, for the error record (R321, R352): of an atomic, an access held for the
answer, a chunk, a gather, reduction or fill, or a write that goes to a mirror. -/
def flowAddr (s : State) (c id : Nat) (f : Flow) : Option Nat :=
  (((s.ops.find? fun o => o.2.ctx == c && o.2.xfer == some id).map fun o => o.2.addr).or (mirrorAddr s c id)).or
    ((heldAddr s c f).or ((if f.cls = 2 then pageAddr s c f else none).or (if f.cls = 0 then sendAddr s c f else none)))

/-- Whether a frame of a context on a flow is not yet acknowledged. -/
def frameOpen (s : State) (c id : Nat) (f : Flow) : Bool :=
  f.unacked.any (·.ctx == c) || f.waiting.any (·.ctx == c) || s.mod.transfers.any fun t => t.2.ctx == c && t.2.tag.take 2 == [12, id]

/-- The contexts whose snapshot on a flow's source drains to the flow's die (R396). -/
def drainsTo (s : State) (f : Flow) : List Nat :=
  if f.cls = 3 then ((s.die f.src).snaps.filter fun x =>
    (x.2.st == .cut || x.2.st == .draining) && x.2.smod == f.module && x.2.sdie == f.dst).map Prod.fst else []

/-- A flow enters FAILED (R351, R352): every context with an operation on it ends, and, of a storage flow, every context that drains a
snapshot to it, its record naming the failure (R396). -/
def failFlow (id : Nat) (s : State) : State :=
  match tget s.mod.flows id with
  | none => s
  | some f =>
    let s := modFlow id (fun f => { f with failed := true }) s
    let cs := f.ctxs.filter fun c => (flowAddr s c id f).isSome || frameOpen s c id f
    let s := (drainsTo s f).foldl (fun s c => remoteEnd c f.dst 0 0 (failStorage f.src c s)) s
    cs.foldl (fun s c => remoteEnd c f.dst ((flowAddr s c id f).getD 0) 0 s) s

/-- Sends some unacknowledged frames of a flow again; one sent 16 times already fails the flow (R351). -/
def resend (id : Nat) (which : Unacked → Bool) (s : State) : State :=
  match tget s.mod.flows id with
  | none => s
  | some f =>
    let now := (s.die 0).time
    if f.failed then s
    else if f.unacked.any fun u => which u && decide (16 ≤ u.sends) then failFlow id s
    else modFlow id (fun f => { f with unacked := f.unacked.map fun u => if which u then { u with sends := u.sends + 1, at_ := now } else u }) s

/-- Whether an acknowledgement's bitmap reports a number arrived (R351). -/
def ackBit (f : Frame) (n : Word) : Bool :=
  let k := (n - f.seq).toNat
  decide (1 ≤ k) && decide (k ≤ 256) && ((f.data.getD ((k - 1) / 8) 0).getLsbD ((k - 1) % 8))

/-- Whether an acknowledgement reports a number missing: a later one has arrived. -/
def ackMissing (f : Frame) (n : Word) : Bool :=
  let k := (n - f.seq).toNat
  decide (k ≤ 256) && !ackBit f n && (List.range 256).any fun j => decide (k < j + 1) && ackBit f (f.seq + BitVec.ofNat 32 (j + 1))

/-- The outgoing flow an acknowledgement is of. -/
def outgoing (s : State) (f : Frame) : Option (Nat × Flow) :=
  tfind s.mod.flows fun _ x => x.out && x.cls == f.cls && x.src == f.ddie && x.dst == f.sdie && x.module == f.smod

/-- An acknowledgement has come to the terminus of its flow (R351): acknowledged frames are freed, missing ones sent again, and waiting
ones numbered. -/
def ackHome (f : Frame) (s : State) : State :=
  match outgoing s f with
  | none => s
  | some (id, x) =>
    if x.failed then s
    else
      let now := (s.die 0).time
      let gone := fun (u : Unacked) => decide ((f.seq - u.seq).toNat - 1 < 2 ^ 31) && f.seq != u.seq || ackBit f u.seq
      let s := modFlow id (fun x => { x with unacked := x.unacked.filter fun u => !gone u }) s
      let s := resend id (fun u => ackMissing f u.seq) s
      modFlow id (fun x => if x.failed then x else Flow.number now x.waiting.length x) s

/-- What a transfer does as it comes to its die: AND-tree messages, frames at the terminus they leave or enter by, and frames for the
die act at once; every other message waits for the step that acts on it. -/
def land (id : Nat) (t : Transfer) (s : State) : State :=
  let gone := s.modMod fun m => { m with transfers := tdel m.transfers id }
  match t.tag with
  | 10 :: _ => landTree id t s
  | 11 :: _ => landTree id t s
  | [12, flow, name] => numberFrame flow name t.ctx t.data gone
  | [13, cls, _] => takeFrame t.dst cls t.data gone
  | [16, _] => atHome (parseFrame t.data) gone
  | [20, _] => ackHome (parseFrame t.data) gone
  | _ => s

/-- MESH_FLIT_RECEIVE (R345-R348): the oldest transfer of a class at a link crosses it; a flit that fails its check is sent
again, and 64 replays that fail in succession fail the link. A die that starts takes no traffic (R398), and one whose keeper does not
acknowledge accepts none (R397). -/
def execMeshFlitReceive (link cls : Nat) (ok : Bool) (s : State) : Outcome :=
  let s := s.modMod fun m => signal m link cls
  let l := s.mod.link link
  let from_ := link / 4
  let to_ := hop from_ (link % 4)
  match s.mod.transfers.find? fun t => t.2.cls == cls && t.2.at_ == from_ && t.2.dst != from_ && routeDir t.2.tag from_ t.2.dst == link % 4 with
  | none => .next s
  | some (id, t) =>
    if !l.carries || l.off.contains cls || (s.die to_).start.isSome || (t.dst == to_ && !keeperAnswers s to_) then .next s
    else if !ok then
      let s := s.modMod fun m => { m with links := tput m.links link { l with replays := l.replays + 1 } }
      .next (if 65 ≤ l.replays + 1 then failLink link s else s)
    else
      let t' : Transfer := { t with at_ := to_ }
      let s := s.modMod fun m =>
        let m := { m with links := tput m.links link { l with replays := 0 }, transfers := tput m.transfers id t' }
        let m := signal m link cls
        match cameBy t with
        | some k => signal m k cls
        | none => m
      .next (if t'.dst = to_ then land id t' (logMessage to_ t.cls t.src t.tag t.data s) else s)

/-! ### Flows (R349-R352) -/

/-- The home terminus of every incoming flow is that of the port the table gives now; its sequence state moves with it (R349). -/
def homeFlows (s : State) : State :=
  s.modMod fun m => { m with flows := tmap m.flows fun _ f => if f.out then f else { f with port := m.egress f.module } }

/-- The flows of a port that has left service move, and send their frames again (R349). -/
def moveFlows (port : Nat) (s : State) : State :=
  (s.mod.flows.filter fun f => f.2.out && !f.2.failed && f.2.port == port && f.2.port != s.mod.egress f.2.module).foldl (fun s f =>
    resend f.1 (fun _ => true) (modFlow f.1 (fun g => { g with port := s.mod.egress g.module }) s)) (homeFlows s)

/-- The flows to a remote module whose table entry has changed leave through the port it gives now, and send their unacknowledged frames
again there (R349). -/
def routeFlows (module : Nat) (s : State) : State :=
  (s.mod.flows.filter fun f => f.2.out && !f.2.failed && f.2.module == module && f.2.port != s.mod.egress module).foldl (fun s f =>
    resend f.1 (fun _ => true) (modFlow f.1 (fun g => { g with port := s.mod.egress g.module }) s)) (homeFlows s)

/-- Whether a port carries frames. -/
def Module.portUp (m : Module) (p : Nat) : Bool :=
  match (m.ports[p]?).map Port.st with
  | some .up => true
  | some .degraded => true
  | _ => false

/-- The checks a terminus makes on a frame (R350). -/
def frameOk (m : Module) (f : Frame) : Bool :=
  f.check == frameCrc f && decide (f.beats ≤ 256) && f.zero == 0 && f.kind != 3 && f.dmod == m.number && f.data.length == 16 * f.beats

/-- FRAME_RECEIVE (R349-R352): a data frame is checked where it arrives, and carried over the mesh to its home terminus when that is on
another die. -/
def execFrameReceive (port : Nat) (f : Frame) (s : State) : Outcome :=
  if s.mod.portUp port && frameOk s.mod f && f.kind == 0 then
    let (id, x, s) := inFlow s f
    let s := s.modMod fun m => { m with flows := tput m.flows id x }
    if portDie x.port = portDie port then .next (atHome f s)
    else .next (ride f.cls noCtx (portDie port) (portDie x.port) [16, s.fresh] (frameBytes f) s).2.bump
  else .next s

/-- ACK_RECEIVE (R349, R351): an acknowledgement is checked where it arrives, and carried over the mesh to the terminus of its flow when that
is on another die. -/
def execAckReceive (port : Nat) (f : Frame) (s : State) : Outcome :=
  if s.mod.portUp port && frameOk s.mod f && f.kind == 1 && f.data.length == 32 then
    match outgoing s f with
    | none => .next s
    | some (_, x) =>
      if portDie x.port = portDie port then .next (ackHome f s)
      else .next (ride f.cls noCtx (portDie port) (portDie x.port) [20, s.fresh] (frameBytes f) s).2.bump
  else .next s

/-- RETRANSMIT_TIMEOUT (R351): a frame unacknowledged 20 µs after it was sent goes again. -/
def execRetransmitTimeout (flow : Nat) (seq : Word) (s : State) : Outcome :=
  let now := (s.die 0).time
  .next (resend flow (fun u => u.seq == seq && decide (u.at_ + 20000 * unitsPerNs ≤ now)) s)

/-! ### Ports and mesh links (R353) -/

/-- A port changes; the home termini follow (R349). -/
def setPort (p : Nat) (x : Port) (s : State) : State := homeFlows (s.modMod fun m => { m with ports := m.ports.set p x })

/-- Whether a mesh link of this number exists: the mesh is 8 dies by 8 (R9). -/
def linkExists (k : Nat) : Bool :=
  decide (k < 256) && (match k % 4 with
    | 0 => decide (8 ≤ k / 4)
    | 1 => decide (k / 4 % 8 < 7)
    | 2 => decide (k / 4 < 56)
    | _ => decide (0 < k / 4 % 8))

/-- The mesh link a number names in the events of R353: mesh link `k` is 32 + k, after the 32 fabric ports (log entry 18). -/
def linkOf (port : Nat) : Option Nat := if 32 ≤ port && linkExists (port - 32) then some (port - 32) else none

/-- The end of a link's training (R353): the state it reaches and the attempts made; FAILED after the third. -/
def trained (lanes attempts : Nat) : LinkState × Nat :=
  if lanes = 8 then (.up, 0) else if 4 ≤ lanes then (.degraded, 0) else if attempts + 1 < 3 then (.training, attempts + 1) else (.failed, 0)

/-- Whether a link trains. -/
def LinkState.trains (l : LinkState) : Bool := l == .training || l == .retraining

/-- A mesh link's training ends; between trainings `replays` counts its attempts. -/
def trainLink (k lanes : Nat) (s : State) : State :=
  let l := s.mod.link k
  if !l.st.trains then s
  else
    let (st, n) := trained lanes l.replays
    if st = .failed then failLink k s
    else modLink k (fun l => { l with st := if st = .training then l.st else st, replays := n }) s

/-- PORT_TRAINING_END (R353), of a fabric port or a mesh link. -/
def execPortTrainingEnd (port lanes : Nat) (s : State) : Outcome :=
  if 8 < lanes then .next s
  else match s.mod.ports[port]?, linkOf port with
    | none, none => .next s
    | none, some k => .next (trainLink k lanes s)
    | some x, _ =>
      if !x.st.trains then .next s
      else
        let (st, n) := trained lanes x.attempts
        let s := setPort port ⟨if st = .training then x.st else st, n⟩ s
        .next (if st = .failed then moveFlows port s else s)

/-- LANE_LOST (R353): a lane is lost, or errors burst. -/
def execLaneLost (port : Nat) (s : State) : Outcome :=
  match linkOf port with
  | some k => if (s.mod.link k).carries then .next (modLink k (fun l => { l with st := .retraining, replays := 0 }) s) else .next s
  | none => if s.mod.portUp port then .next (setPort port ⟨.retraining, 0⟩ s) else .next s

/-- PORT_ENABLE (R353). -/
def execPortEnable (port : Nat) (s : State) : Outcome :=
  match s.mod.ports[port]?, linkOf port with
  | some x, _ => if x.st = .down then .next (setPort port ⟨.training, 0⟩ s) else .next s
  | none, some k => if (s.mod.link k).st = .down then .next (modLink k (fun l => { l with st := .training, replays := 0 }) s) else .next s
  | none, none => .next s

/-- PORT_DISABLE (R353); a FAILED mesh link stays FAILED until a start (R348). -/
def execPortDisable (port : Nat) (s : State) : Outcome :=
  match linkOf port with
  | some k => if (s.mod.link k).failed then .next s else .next (modLink k (fun l => { l with st := .down, replays := 0 }) s)
  | none => if port < s.mod.ports.length then .next (moveFlows port (setPort port ⟨.down, 0⟩ s)) else .next s

/-! ### The management controller (R349, R355, R356) -/

/-- Bytes of a die's DRAM: 96 GiB (R16). -/
def dramBytes : Nat := 96 * 2 ^ 30

/-- The management controller sets a table: a slice of the host's window, of a die and a 1 GiB-aligned offset in its DRAM (R16, R355), the
ports of a remote module (R349), the source that disciplines die 0's time (R356); or DRAM meets an error: one it corrects is counted for its
layer, one it cannot correct stands in its unit (R406). -/
def control (c : Control) (s : State) : State :=
  match c with
  | .slice k place =>
    if 256 ≤ k then s
    else match place with
      | none => s.modMod fun m => { m with slices := tdel m.slices k }
      | some (die, off) =>
        if die < 64 && off % 2 ^ 30 = 0 && off + 2 ^ 30 ≤ dramBytes then s.modMod fun m => { m with slices := tput m.slices k (die, off) } else s
  | .route module p q =>
    if p < 32 && q < 32 then routeFlows module (s.modMod fun m => { m with portTab := tput m.portTab module (p, q) }) else s
  | .timeSource host => s.modMod fun m => { m with timeHost := host }
  | .corrected die layer =>
    if die < 64 then s.modDie die fun d => { d with corrected := lmod d.corrected layer (· + 1) } else s
  | .uncorrectable die u =>
    if die < 64 && 32 * u < dramBytes && !(s.die die).bad.contains u then s.modDie die fun d => { d with bad := d.bad ++ [u] } else s

/-! ### The host's window (R355) -/

/-- The marked page a DRAM address lies in, of a context's snapshot on a die (R394). -/
def markedAt (s : State) (die c a : Nat) (sn : Snapshot) : Option Nat :=
  (sn.todo.find? fun t => match walk s c die t.2 with
    | .ok (p, _, _) => frameAddr p t.2 / 4096 == a / 4096
    | .error _ => false).map Prod.snd

/-- The snapshot marks of a page are honoured before a host write to it (R394); none while the pool is empty. -/
def hostMarks (die a : Nat) : List (Nat × Snapshot) → State → Option State
  | [], s => some s
  | (c, sn) :: rest, s =>
    match markedAt s die c a sn with
    | some page => (breakMark c die page a s).bind (hostMarks die a rest)
    | none => hostMarks die a rest s

/-- `n` bytes from `a` in pieces that lie in one aligned 16-byte unit each. -/
def piecesOf : Nat → Nat → Nat → List (Nat × Nat)
  | 0, _, _ => []
  | f + 1, a, n =>
    if n = 0 then []
    else let k := min n (16 - a % 16); (a, k) :: piecesOf f (a + k) (n - k)

/-- A piece of a host access at a die's controller (R355): its bytes. A write of part of an uncorrectable unit, and a read of one, fail
(R406); a write waits for the spare frame a marked page needs (R394). -/
def hostUnit (die d n : Nat) (wr : Option (List Byte)) (s : State) : Ended (List Byte) × State :=
  match wr with
  | some bs => match hostMarks die d (s.die die).snaps s with
    | none => (.wait, s)
    | some s => match dramWrite s die d bs with
      | some s => (.done [], s)
      | none => (.fail 2, s)
  | none => match dramRead s die d n with
    | some bs => (.done bs, s)
    | none => (.fail 2, s)

/-- The messages of a host access's piece, between die 0, which carries the host port, and the die it is performed at (R345, R354). -/
def pieceTag (id a : Nat) : List Nat := [17, id, a]

/-- A piece of a host access goes to the slice's die over the mesh, and its answer comes back; where no slice is mapped it reads as zeros
and writes nothing (R355). -/
def hostPiece (id a n : Nat) (wr : Option (List Byte)) (s : State) : Ended (List Byte) × State :=
  match tget s.mod.slices (a / 2 ^ 30) with
  | none => (.done (List.replicate n 0), s)
  | some (die, off) =>
    overMesh (fun b => b) (fun b => b) (pieceTag id a) 0 noCtx 0 (if die = 0 then [] else [die]) (fun s => s)
      (hostUnit die (off + a % 2 ^ 30) n wr) s

def modAccess (id : Nat) (f : HostAccess → HostAccess) (s : State) : State := s.modMod fun m => { m with accesses := tmod m.accesses id f }

/-- A piece of a host access is over: its answer is forgotten. -/
def endPiece (id a : Nat) (f : HostAccess → HostAccess) (s : State) : State :=
  modAccess id (fun x => { f x with pieces := x.pieces.tail }) (dropMessage (pieceTag id a ++ [1]) s)

/-- The completion the host receives: the bytes of a read, none where a piece has failed (R406). -/
def HostAccess.answer (x : HostAccess) : Option (List Byte) :=
  if x.failed then none
  else some (if x.write.isSome then [] else (List.range x.len).map fun i => (tget x.got (x.addr + i)).getD 0)

/-- Performs the pieces of a host access in turn, as far as they go; the last completes it. -/
def stepHost (id : Nat) : Nat → State → State
  | 0, s => s
  | fuel + 1, s =>
    match tget s.mod.accesses id with
    | none => s
    | some x =>
      match x.pieces with
      | [] => s.modMod fun m => { m with accesses := tdel m.accesses id, answers := m.answers ++ [x.answer] }
      | (a, n) :: _ =>
        match hostPiece id a n (x.write.map fun bs => (bs.drop (a - x.addr)).take n) s with
        | (.done bs, s) => stepHost id fuel (endPiece id a (fun x => { x with got := x.got ++ cellsAt a bs }) s)
        | (.wait, s) => s
        | (.held, s) => s
        | (_, s) => stepHost id fuel (endPiece id a (fun x => { x with failed := true }) s)

/-- A host access goes on. -/
def resumeHost (id : Nat) (s : State) : State :=
  stepHost id (((tget s.mod.accesses id).map fun x => x.pieces.length).getD 0 + 1) s

/-- CXL_MEM_ACCESS (R355): the host writes or reads bytes of its window, in pieces of one aligned 16-byte unit. -/
def execCxlMemAccess (addr : Nat) (len : Nat) (wr : Option (List Byte)) (s : State) : Outcome :=
  if addr + len ≤ 2 ^ 38 && wr.all fun bs => bs.length == len then
    let x : HostAccess := ⟨addr, len, piecesOf len addr len, wr, [], false⟩
    .next (resumeHost s.fresh (s.modMod fun m => { m with accesses := tput m.accesses s.fresh x }).bump)
  else .next s

/-! ### Time (R356) -/

/-- A time reference reaches die 0 (R356): its rate is slewed toward the reference by at most 500 ppm, or it is stepped forward when more
than 1 ms behind; the copies of the other dies follow. -/
def syncTime (ref : Nat) (s : State) : State :=
  let now := s.ns 0
  let far := decide (now + 1000000 < ref)
  let rate : Int := Config.choice s.fresh % 500 + 1
  let ppm : Int := if ref = now || far then 0 else if now < ref then rate else -rate
  let set := fun (d : Die) => { d with ppm := ppm, time := if far then max d.time (ref * unitsPerNs) else d.time }
  ((List.range 64).foldl (fun s k => s.modDie k set) s).bump

/-- A die's copy of module time follows die 0's (R3, R356): an offset of up to 1 ms, and a larger one ahead, is slewed away, a larger one
behind is made up by one step forward. R356 gives no mechanism for the copies of the other dies: that they take die 0's rules against die
0's own copy, at a rate within 500 ppm, is the model's choice (log entry 49). -/
def followTime (die : Nat) (s : State) : State :=
  let z := s.die 0
  let by_ : Int := Config.choice s.fresh % 500 + 1
  (s.modDie die fun d =>
    if d.time + 1000000 * unitsPerNs < z.time then { d with ppm := z.ppm, time := z.time }
    else { d with ppm := if d.time < z.time then min 500 (z.ppm + by_) else if z.time < d.time then max (-500) (z.ppm - by_) else z.ppm }).bump

/-- The number a reference for die 0 comes under: 0 from IEEE 1588, 64 from the host (log entry 18). -/
def timeSource (host : Bool) : Nat := if host then 64 else 0

/-- TIME_SYNC (R356): a reference for die 0 counts when it is the chosen source's. Module time never decreases. -/
def execTimeSync (die : Nat) (ref : Nat) (s : State) : Outcome :=
  if die = timeSource s.mod.timeHost then .next (syncTime ref s)
  else if die = 0 || die = 64 then .next s
  else .next (followTime die s)

end Sys2Proof.Machine
end

