-- ==== Sys2Proof/Machine/Collective.lean ====
section
/-! DEFINITION. The collective engine (spec 23_collective R357-R371): graph images, the words CLOAD, CRUN, CARM and CSTEP, and
the steps that fire and complete the nodes of a run, match its chunks and complete it. -/

namespace Sys2Proof.Machine

/-! ### Accesses of the engine -/

/-- How an access ended, without its data. -/
def Ended.void {α : Type} : Ended α → Ended Unit
  | .done _ => .done ()
  | .wait => .wait
  | .held => .held
  | .far m d => .far m d
  | .fail k => .fail k
  | .lost => .lost
  | .remote d k => .remote d k

/-- Data, or the address and the end of the access that gave none. -/
abbrev Fetch (α : Type) := Except (Nat × Ended Unit) α

/-- Reads `n` bytes from `a` by the aligned units they lie in; the caller forgets the answers. -/
def readBytes (h : Holder) (ctx die a n : Nat) (s : State) : Fetch (List Byte) × State :=
  match readSpan h ctx die a n s with
  | (.done bs, _, s) => (.ok bs, s)
  | (r, x, s) => (.error (x, r.void), s)

/-- Writes bytes from `a` on in turn, as far as they go. -/
def writeSpan (h : Holder) (ctx die : Nat) (step : Option (Nat × Word)) : List (Nat × Nat) → List Byte → State → Fetch Unit × State
  | [], _, s => (.ok (), s)
  | (a, n) :: rest, bs, s =>
    match writeAccess h ctx die a 0 n (fun s => mainWrite s ctx die a (bs.take n) step) s with
    | (.done _, s1) =>
      match writeSpan h ctx die step rest (bs.drop n) s1 with
      | (.error (b, r), s2) =>
        -- nothing is written while a later piece waits
        if r.waits then
          match writeSpan h ctx die step rest (bs.drop n) s with
          | (.error _, s3) => (.error (b, .wait), s3)
          | (.ok _, _) => (.error (b, .wait), s)
        else (.error (b, r), s2)
      | r => r
    | (r, s) => (.error (a, r.void), s)

/-- A failed access of the engine: the status it gives, and its log entry (R243, R322, R363), of source 1 for nodes and 4 for graph
directories and images (R418); an error on a remote die ends the context (R370). -/
def spanFail (c die source a : Nat) (r : Ended Unit) (s : State) : Nat × State :=
  match r with
  | .fail 2 => (0x04, logViolation c a 2 source die s)
  | .lost => (0x02, logViolation c a 1 source die s)
  | .remote d k => (0x01, remoteEnd c d a k s)
  | _ => (0x01, logViolation c a 1 source die s)

/-! ### Graph images (R358-R360) -/

/-- The header of an image: its node count and the graph without nodes. -/
def parseGraph (bs : List Byte) : Nat × Graph :=
  let f := fieldAt bs
  (f 0 2, ⟨[], f 2 2, f 4 4, f 8 8, f 16 8, f 24 8⟩)

/-- The header's fields satisfy R358. -/
def graphHeadOk (bs : List Byte) : Bool :=
  let (n, g) := parseGraph bs
  decide (n ≤ 1023) && decide (g.nslot ≤ 256) && g.slotb % 16 == 0 && decide (16 ≤ g.slotb) && decide (g.slotb ≤ 65536) &&
  g.trig % 4 == 0 && g.pool % 64 == 0 && g.poolb % 64 == 0 && fieldAt bs 32 32 == 0

/-- A field of a node record (R359). -/
def nodeField (bs : List Byte) (lo n : Nat) : Nat := leNat bs / 2 ^ lo % 2 ^ n

def parseNode (bs : List Byte) : Node :=
  let f := nodeField bs
  { op := f 252 4, npred := f 240 8, tag := f 232 8, peer := f 220 12, sbase := f 214 6, dbase := f 208 6, len := f 192 16
    soff := f 160 32, doff := f 128 32, succ := [f 118 10, f 108 10, f 98 10, f 88 10].filter (· != 0x3FF)
    mode := f 84 4, h := f 64 4 }

/-- A node record's fields satisfy R359. -/
def nodeOk (bs : List Byte) : Bool :=
  let f := nodeField bs
  let n := parseNode bs
  decide (n.op < 8) && f 248 4 == 0 && f 68 16 == 0 && f 0 64 == 0 && (decide (n.op < 2) || n.peer == 0) &&
  n.soff % 16 == 0 && n.doff % 16 == 0 && (if n.op = 2 then decide (n.mode < 2) else n.mode == 0) && (n.op == 5 || n.h == 0)

/-- The nodes a run of a graph completes: in each round those all of whose predecessors have completed. -/
def completable (ns : List Node) : Nat → List Nat → List Nat
  | 0, dn => dn
  | fuel + 1, dn =>
    let preds := fun (i : Nat) => (List.range ns.length).filter fun j => ((ns[j]?).map fun n => n.succ.contains i).getD false
    let more := (List.range ns.length).filter fun i => !dn.contains i && (preds i).all dn.contains
    if more.isEmpty then dn else completable ns fuel (dn ++ more)

/-- Successors and predecessor counts agree, and there is no cycle (R360). -/
def nodesOk (ns : List Node) : Bool :=
  let named := fun (i : Nat) => (ns.map fun n => (n.succ.filter (· == i)).length).sum
  ns.zipIdx.all (fun x => x.1.succ.all (fun y => decide (y < ns.length) && y != x.2) && named x.2 == x.1.npred) &&
  (completable ns ns.length []).length == ns.length

/-- Bytes of receive slots. -/
def Graph.slotBytes (g : Graph) : Nat := g.nslot * g.slotb

/-- Whether a run of a slot is in flight. -/
def slotActive (s : State) (share slot : Nat) : Bool :=
  tany s.runs fun _ r => r.share == share && r.slot == slot && !r.pending

/-- Slot bytes the loaded graphs of a die hold, without those of one slot (R358); a die share that has ended holds slots only
while it has runs. -/
def slotsHeld (s : State) (die share slot : Nat) : Nat :=
  ((s.shares.filter fun h => h.2.die == die && (!h.2.ended || tany s.runs fun _ r => r.share == h.1)).flatMap fun h =>
    (h.2.graphs.filter fun g => !(h.1 == share && g.1 == slot)).map fun g => g.2.slotBytes).sum

/-- A failed read of a graph image: none while it waits, else its status (R367, R418). -/
def imageFail (h : Share) (x : Nat × Ended Unit) (s : State) : Option (Except Nat Graph) × State :=
  if x.2.waits then (none, s) else let y := spanFail h.ctx h.die 4 x.1 x.2 s; (some (.error y.1), y.2)

/-- Reads and checks a graph image (R360, R367): none while a read waits; else a status and the graph. -/
def readImage (share slot : Nat) (h : Share) (addr : Nat) (s : State) : Option (Except Nat Graph) × State :=
  let own : Holder := .engine share
  if addr % 64 != 0 then (some (.error 0x05), s)
  else match readBytes own h.ctx h.die addr 64 s with
    | (.error x, s) => imageFail h x s
    | (.ok hd, s) =>
      if !graphHeadOk hd then (some (.error 0x05), s)
      else
        let (n, g) := parseGraph hd
        match readBytes own h.ctx h.die (addr + 64) (32 * n) s with
        | (.error x, s) => imageFail h x s
        | (.ok bs, s) =>
          let recs := (List.range n).map fun i => (bs.drop (32 * i)).take 32
          let g : Graph := { g with nodes := recs.map parseNode }
          if recs.all nodeOk && nodesOk g.nodes && decide (slotsHeld s h.die share slot + g.slotBytes ≤ 4 * 2 ^ 20) then
            (some (.ok g), s)
          else (some (.error 0x05), s)

/-- The reads of an image have ended: their answers are forgotten. -/
def loadImage (share slot : Nat) (h : Share) (addr : Nat) (s : State) : Option (Except Nat Graph) × State :=
  match readImage share slot h addr s with
  | (some r, s) => (some r, dropAnswers (.engine share) s)
  | r => r

/-- Puts a graph into a slot, or leaves it empty. -/
def setGraph (share slot : Nat) (g : Option Graph) (s : State) : State :=
  s.modShare share fun h => { h with graphs := match g with
    | some g => tput h.graphs slot g
    | none => tdel h.graphs slot }

def fillTok (t : Token) (v : Word) (s : State) : State :=
  match t with
  | some (w, r) => fillToken w r v s
  | none => s

/-! ### Runs (R362, R367, R368) -/

def modRun (id : Nat) (f : Run → Run) (s : State) : State := { s with runs := tmod s.runs id f }

def noGraph : Graph := ⟨[], 0, 0, 0, 0, 0⟩

/-- A start begins its run (R362, R368): the step counter, the node counters, and the nodes that fire. -/
def beginRun (id : Nat) (s : State) : State :=
  match tget s.runs id with
  | none => s
  | some r =>
    match s.share? r.share with
    | none => { s with runs := tdel s.runs id }
    | some h =>
      let g := tget h.graphs r.slot
      let ns := (g.getD noGraph).nodes
      let st := if r.status != 0 then r.status else if g.isNone then 0x05 else 0
      let fired := if st = 0 then (List.range ns.length).filter fun i => ((ns[i]?).map Node.npred).getD 0 == 0 else []
      { s.setShare r.share { h with step := h.step + 1 } with
        runs := tput s.runs id { r with step := h.step + 1, graph := g.getD noGraph, counts := ns.map Node.npred, fired := fired
                                        status := st, pending := false } }

/-- The waiting load of a slot that was accepted first. -/
def firstLoad (h : Share) (slot : Nat) : Option (Nat × Nat × Token) :=
  h.waits.findSome? fun w => match w with
    | .load o k a t => if k = slot then some (o, a, t) else none
    | .step _ _ => none

/-- The waiting start of a slot that was accepted first. -/
def firstStart (s : State) (share slot : Nat) : Option Nat :=
  (s.runs.find? fun r => r.2.share == share && r.2.slot == slot && r.2.pending).map Prod.fst

/-- A load ends (R367): the slot, the token and its wait. -/
def finishLoad (share slot ord : Nat) (t : Token) (r : Except Nat Graph) (s : State) : State :=
  let s := s.modShare share fun h => { h with waits := h.waits.filter fun w => match w with
    | .load o _ _ _ => o != ord
    | .step _ _ => true }
  match r with
  | .ok g => fillTok t (tokenWord 0 (4 + 2 * g.nodes.length)) (setGraph share slot (some g) s)
  | .error st => fillTok t (tokenWord st 0) (setGraph share slot none s)

/-- Loads and starts of a slot go on in the order they were accepted, while no run of it is in flight. -/
def serveSlot (share slot : Nat) : Nat → State → State
  | 0, s => s
  | fuel + 1, s =>
    match s.share? share with
    | none => s
    | some h =>
      if slotActive s share slot then s
      else match firstLoad h slot, firstStart s share slot with
        | none, none => s
        | none, some id => beginRun id s
        | some (o, a, t), r =>
          match r with
          | some id =>
            if id < o then beginRun id s
            else match loadImage share slot h a s with
              | (none, s) => s
              | (some r, s) => serveSlot share slot fuel (finishLoad share slot o t r s)
          | none =>
            match loadImage share slot h a s with
            | (none, s) => s
            | (some r, s) => serveSlot share slot fuel (finishLoad share slot o t r s)

/-- Everything that waits for a slot. -/
def serveAll (share slot : Nat) (s : State) : State :=
  serveSlot share slot (((s.share? share).map fun h => h.waits.length).getD 0 + 1) s

/-- A start is accepted (R368); `bad` is the status of a bad base table. -/
def startRun (share slot : Nat) (bases : List Word64) (bad : Nat) (t : Token) (s : State) : State :=
  let r : Run := { share := share, slot := slot, step := 0, graph := noGraph, bases := bases, counts := [], fired := [], done := []
                   status := bad, units := 0, token := t, wrote := [], pending := true, progress := [], closing := false }
  serveAll share slot { s with runs := tput s.runs s.fresh r, fresh := s.fresh + 1 }

/-- An armed start of a slot ends with ENDED (R367, R368). -/
def endArmed (share slot : Nat) (s : State) : State :=
  match (s.share? share).bind fun h => tget h.armed slot with
  | some a => fillTok a.token (tokenWord 0x06 0) (s.modShare share fun h => { h with armed := tdel h.armed slot })
  | none => s

/-! ### The words (R366-R369) -/

/-- The frame of the collective words (R366): the token register full, earlier stores acknowledged. -/
def collWord (i : Instr) (o : FmtC) (act : Bundle → Lanes → State → State) (s : State) : Outcome :=
  bufWord i noSource (fun _ _ => false) (fun b m s =>
    if !(b.wr o.token.toNat).full then blockWord b s else afterStores act b m s) s

/-- The address in pair w[wa], once it is full. -/
def pairWa (b : Bundle) (o : FmtC) : Option Nat :=
  let lo := b.wr o.wa.toNat
  let hi := b.wr (o.wa.toNat + 1)
  if lo.full && hi.full then some (pairOf lo.val hi.val).toNat else none

/-- CLOAD (R367). -/
def execCload (o : FmtC) (s : State) : Outcome :=
  collWord (.cload o) o (fun b _ s =>
    match pairWa b o with
    | none => blockWord b s
    | some a =>
      let share := b.warp.share
      let slot := o.imm.toNat
      let s := endArmed share slot (takeToken b o.token.toNat s)
      let s := (s.modShare share fun h =>
        { h with waits := h.waits ++ [.load s.fresh slot a (some (b.w, o.token.toNat))] }).bump
      serveAll share slot (finishWord b s)) s

/-- A base-table entry satisfies R363. -/
def baseOk (e : Word64) : Bool := if e.getLsbD 63 then e.extractLsb' 32 31 == 0 else e.extractLsb' 57 6 == 0

/-- Reads a base table (R363): none while a read waits; else the entries and the status of a bad table. -/
def readBases (share : Nat) (h : Share) (a : Nat) (s : State) : Option (List Word64 × Nat) × State :=
  match readBytes (.engine share) h.ctx h.die a 512 s with
  | (.ok bs, s) =>
    let s := dropAnswers (.engine share) s
    let es := (List.range 64).map fun i => (BitVec.ofNat 64 (fieldAt bs (8 * i) 8) : Word64)
    (some (es, if es.all baseOk then 0 else 0x05), s)
  | (.error (x, r), s) => if r.waits then (none, s) else let y := spanFail h.ctx h.die 1 x r (dropAnswers (.engine share) s); (some ([], y.1), y.2)

/-- CRUN and CARM read their base table when they are accepted (R368); the word blocks while the read waits. -/
def withBases (o : FmtC) (act : Bundle → Lanes → List Word64 → Nat → State → State) (b : Bundle) (m : Lanes) (s : State) : State :=
  match pairWa b o, s.share? b.warp.share with
  | some a, some h =>
    match readBases b.warp.share h a s with
    | (none, s) => blockWord b s
    | (some (es, bad), s) => act b m es bad s
  | none, _ => blockWord b s
  | some _, none => finishWord b s

/-- CRUN (R368). -/
def execCrun (o : FmtC) (s : State) : Outcome :=
  collWord (.crun o) o (withBases o fun b _ es bad s =>
    startRun b.warp.share o.imm.toNat es bad (some (b.w, o.token.toNat)) (finishWord b (takeToken b o.token.toNat s))) s

/-- The lowest guard-true lane's registers from `r` on are full. -/
def leaderFull (b : Bundle) (m : Lanes) (r n : Nat) : Bool :=
  match (lowestLane b.warp.width m).bind b.warp.thread with
  | some t => !t.anyEmpty (regRange r n)
  | none => true

/-- CARM (R368). -/
def execCarm (o : FmtC) (s : State) : Outcome :=
  collWord (.carm o) o (fun b m s =>
    if !leaderFull b m o.v.toNat 2 then blockWord b s
    else withBases o (fun b m es bad s =>
      let at_ := match (lowestLane b.warp.width m).bind b.warp.thread with
        | some t => (t.pair o.v.toNat).toNat
        | none => 0
      let slot := o.imm.toNat
      let s := endArmed b.warp.share slot (takeToken b o.token.toNat s)
      finishWord b (s.modShare b.warp.share fun h =>
        { h with armed := tput h.armed slot ⟨at_, es, bad, some (b.w, o.token.toNat)⟩ })) b m s) s

/-- The completed step of the bundle's die share. -/
def doneStep (s : State) (b : Bundle) : Word := ((s.share? b.warp.share).map Share.done).getD 0

/-- CSTEP.q (R369). -/
def execCstepQ (o : FmtC) (s : State) : Outcome :=
  collWord (.cstepQ o) o (fun b _ s => finishWord b (s.setWreg b.w o.token.toNat ⟨doneStep s b, true⟩)) s

/-- Whether a completed step has reached `n` (R369). -/
def stepReached (c n : Word) : Bool := decide ((c - n).toNat < 2 ^ 31)

/-- CSTEP.wait tokens whose step is reached fill with the completed step (R369). -/
def fillSteps (share : Nat) (s : State) : State :=
  match s.share? share with
  | none => s
  | some h =>
    let due := fun (w : ShareWait) => match w with
      | .step n _ => stepReached h.done n
      | .load _ _ _ _ => false
    (h.waits.filter due).foldl (fun s w => match w with
      | .step _ t => fillTok t h.done s
      | .load _ _ _ _ => s) (s.setShare share { h with waits := h.waits.filter fun w => !due w })

/-- CSTEP.wait (R369). -/
def execCstepWait (o : FmtC) (s : State) : Outcome :=
  collWord (.cstepWait o) o (fun b m s =>
    if !leaderFull b m o.v.toNat 1 then blockWord b s
    else
      let n := match (lowestLane b.warp.width m).bind b.warp.thread with
        | some t => (t.reg o.v.toNat).val
        | none => 0
      let s := takeToken b o.token.toNat s
      fillSteps b.warp.share (finishWord b (s.modShare b.warp.share fun h =>
        { h with waits := h.waits ++ [.step n (some (b.w, o.token.toNat))] }))) s

/-! ### Loading at placement, and armed starts (R357, R368) -/

/-- GRAPH_LOAD_AT_PLACEMENT (R357): the image a die share's directory entry names goes into g0 before its first warp issues;
afterwards, loads that wait for their images go on. -/
def execGraphLoadAtPlacement (share : Nat) (s : State) : Outcome :=
  match s.share? share with
  | none => .next s
  | some h =>
    let dir := ((s.kernel? h.kern).map fun k => k.launch.graph).getD 0
    let mark := fun (s : State) => s.modShare share fun h => { h with loaded := true }
    if h.loaded then .next ((List.range 8).foldl (fun s k => serveAll share k s) s)
    else if !h.placed then .next s
    else if dir = 0 then .next (mark s)
    else match readBytes (.engine share) h.ctx h.die (dir + 8 * h.index) 8 s with
      | (.error (a, r), s) => if r.waits then .next s else .next (mark (spanFail h.ctx h.die 4 a r (dropAnswers (.engine share) s)).2)
      | (.ok bs, s) =>
        let addr := leNat bs
        if addr = 0 then .next (mark (dropAnswers (.engine share) s))
        else match loadImage share 0 h addr s with
          | (none, s) => .next s
          | (some (.ok g), s) => .next (mark (setGraph share 0 (some g) s))
          -- a refused image is logged under a kind the spec does not state
          | (some (.error st), s) =>
            .next (mark (if st = 0x05 then (logViolation h.ctx addr (Config.choice s.fresh % 16) 4 h.die s).bump else s))

/-- CARM_START (R368): an armed slot starts its run at the first cycle at or after its time. -/
def execCarmStart (share slot : Nat) (s : State) : Outcome :=
  match (s.share? share).bind fun h => (tget h.armed slot).map fun a => (h, a) with
  | some (h, a) =>
    if a.at_ * unitsPerNs ≤ (s.die h.die).time then
      .next (startRun share slot a.bases a.bad a.token (s.modShare share fun h => { h with armed := tdel h.armed slot }))
    else .next s
  | none => .next s

/-! ### Nodes (R361, R363) -/

/-- Whether an operation reads S, or D, or writes D. -/
def Node.usesS (n : Node) : Bool := n.op == 0 || (decide (2 ≤ n.op) && decide (n.op < 7))
def Node.usesD (n : Node) : Bool := n.op == 1 || n.op == 7 || (decide (2 ≤ n.op) && decide (n.op < 6))
def Node.readsD (n : Node) : Bool := n.op == 2 || n.op == 3 || n.op == 5

/-- Where a chunk lies: in the window or not, and its address (R363). -/
def Run.chunkAt (r : Run) (base off : Nat) : Bool × Nat :=
  let e := r.bases.getD base 0
  if e.getLsbD 63 then (true, e.toNat % 2 ^ 32 + off) else (false, e.toNat + off)

def Run.src (r : Run) (n : Node) : Bool × Nat := r.chunkAt n.sbase n.soff
def Run.dst (r : Run) (n : Node) : Bool × Nat := r.chunkAt n.dbase n.doff

/-- The status a node ends with before it touches a byte (R361, R363). -/
def nodeStatus (r : Run) (h : Share) (n : Node) : Option Nat :=
  let beyond := fun (x : Bool × Nat) => x.1 && decide (h.size < x.2 + 16 * n.len)
  if n.op == 2 && n.mode == 1 && n.len % 257 != 0 then some 0x05
  else if (n.usesS && beyond (r.src n)) || (n.usesD && beyond (r.dst n)) then some 0x07
  else none

/-- A window byte as the nodes of a run see it: the run's own writes are not published yet (R365). -/
def Run.winByte (r : Run) (h : Share) (a : Nat) : Byte := (tget r.wrote a).getD (mget h.home a)

/-- Reads unit `k` of a chunk. -/
def readUnit (id : Nat) (r : Run) (h : Share) (x : Bool × Nat) (k : Nat) (s : State) : Fetch (List Byte) × State :=
  let a := x.2 + 16 * k
  if x.1 then (.ok ((List.range 16).map fun i => r.winByte h (a + i)), s) else readBytes (.engine id) h.ctx h.die a 16 s

/-- The kernel and issue step of a node's writes (R393). -/
def Share.issue (h : Share) : Option (Nat × Word) := some (h.kern, h.done + 1)

/-- Writes units of a chunk from unit `k` on; both halves of a 32-byte unit that holds uncorrectable data go as one (R406). -/
def writeChunk (id : Nat) (h : Share) (x : Bool × Nat) (k : Nat) (bs : List Byte) (s : State) : Fetch Unit × State :=
  let a := x.2 + 16 * k
  if x.1 then (.ok (), modRun id (fun r => { r with wrote := (cellsAt a bs).foldl (fun t c => tput t c.1 c.2) r.wrote }) s)
  else if bs.length = 32 then
    match writeAccess (.engine id) h.ctx h.die a 0 32 (fun s => mainPair s h.ctx h.die a bs h.issue) s with
    | (.done _, s) => (.ok (), s)
    | (r, s) => (.error (a, r), s)
  else writeSpan (.engine id) h.ctx h.die h.issue (piecesOf bs.length a bs.length) bs s

/-- The 32-bit words of bytes, combined. -/
def mapWords (f : Nat → Nat → Nat) (d x : List Byte) : List Byte :=
  (List.range 4).flatMap fun i => leBytes 4 (f (fieldAt d (4 * i) 4) (fieldAt x (4 * i) 4))

/-- The new bytes of unit `k` of D from its old bytes and those of S, and the flags raised (R361). -/
def combineUnit (n : Node) (k : Nat) (d x : List Byte) : List Byte × Flags :=
  match n.op with
  | 2 =>
    if n.mode = 1 && k % 257 = 256 then
      if fieldAt d 0 4 = fieldAt x 0 4 then (d, 0)
      else (leBytes 4 (fieldAt d 0 4 / 4096 * 4096 + 0xFFF) ++ d.drop 4, 0)
    else (mapWords (fun a b => (a + b) % 2 ^ 32) d x, 0)
  | 3 => (mapWords (fun a b => (fAdd fp32 .rn a b).bits) d x,
      (List.range 4).foldl (fun f i => f ||| (fAdd fp32 .rn (fieldAt d (4 * i) 4) (fieldAt x (4 * i) 4)).flags) 0)
  | 5 => ((List.range 8).flatMap fun i => leBytes 2 (max (fieldAt d (2 * i) 2 % 4096) (fieldAt x (2 * i) 2 % 4096)), 0)
  | _ => (x, 0)

/-- A node ends with a status (R362, R368): its successors count down and fire, or, after a failure, none fires any more. -/
def endNode (run node st : Nat) (s : State) : State :=
  modRun run (fun r =>
    let r : Run := { r with done := r.done ++ [node], progress := tdel r.progress node, status := if r.status = 0 then st else r.status }
    if r.status != 0 then r
    else
      let succ := ((r.graph.nodes[node]?).map Node.succ).getD []
      let counts := succ.foldl (fun c x => lmod c x (· - 1)) r.counts
      { r with counts := counts, fired := r.fired ++ (succ.dedup.filter fun x => counts.getD x 1 == 0) }) s

/-- A node ends with a failed access (R363, R370). -/
def failNode (run node : Nat) (h : Share) (a : Nat) (r : Ended Unit) (s : State) : State :=
  let x := spanFail h.ctx h.die 1 a r s
  endNode run node x.1 x.2

/-- A run has done with the accesses of some units: it forgets their answers. -/
def dropUnits (run : Nat) (x : Bool × Nat) (k n : Nat) (s : State) : State :=
  if x.1 then s
  else dropAnswersOf (.engine run) (fun _ y => decide (x.2 + 16 * k < y + 16) && decide (y < x.2 + 16 * (k + n))) s

/-- Performs the units of a node from the one it has reached, as far as they go; `data` gives a unit of S. True when all are
done. -/
def nodeUnits (run node : Nat) (h : Share) (n : Node) (data : Run → Nat → State → Fetch (List Byte) × State) :
    Nat → State → Bool × State
  | 0, s => (false, s)
  | fuel + 1, s =>
    match tget s.runs run with
    | none => (false, s)
    | some r =>
      let k := (tget r.progress node).getD 0
      let x := r.dst n
      if n.len ≤ k then (true, s)
      else
        let two := !x.1 && !n.readsD && (x.2 + 16 * k) % 32 == 0 && decide (k + 1 < n.len) && unitBad s h.ctx h.die (x.2 + 16 * k)
        let src : Fetch (List Byte) × State := match data r k s with
          | (.ok a, s) =>
            if two then
              match data r (k + 1) s with
              | (.ok b, s) => (.ok (a ++ b), s)
              | e => e
            else (.ok a, s)
          | e => e
        match src with
        | (.error (a, e), s) => (false, if e.waits then s else failNode run node h a e s)
        | (.ok sb, s) =>
          let old : Fetch (List Byte) × State := if n.readsD then readUnit run r h x k s else (.ok [], s)
          match old with
          | (.error (a, e), s) => (false, if e.waits then s else failNode run node h a e s)
          | (.ok db, s) =>
            let c := if n.readsD then combineUnit n k db sb else (sb, 0)
            match writeChunk run h x k c.1 s with
            | (.error (a, e), s) => (false, if e.waits then s else failNode run node h a e s)
            | (.ok (), s) =>
              let u := if two then 2 else 1
              let s := dropUnits run x k u (dropUnits run (r.src n) k u s)
              let s := modRun run (fun r => { r with progress := tput r.progress node (k + u), units := r.units + u }) s
              nodeUnits run node h n data fuel (orFpstat h.ctx c.2 s)

/-- A node whose every unit is done has completed. -/
def endUnits (run node : Nat) (x : Bool × State) : State := if x.1 then endNode run node 0 x.2 else x.2

/-! ### Chunks (R364) -/

/-- The die share of a kernel that a peer-table index of a die names (R328, R361). -/
def peerShare (s : State) (h : Share) (k : Nat) : Option (Nat × Share) :=
  match peerOf s h.ctx h.die k with
  | some (m, d) => if m = s.mod.number then shareOn s h.kern d else none
  | none => none

/-- Whether a chunk is for a RECV of a run (R364). -/
def chunkFor (s : State) (r : Run) (h : Share) (n : Node) (c : Chunk) : Bool :=
  n.op == 1 && c.dst == r.share && c.slot == r.slot && c.step == r.step && c.tag == n.tag &&
  ((peerShare s h n.peer).map Prod.fst) == some c.src

/-- Reads every unit of a node's S. -/
def readChunk (run : Nat) (r : Run) (h : Share) (x : Bool × Nat) : List Nat → State → Fetch (List Byte) × State
  | [], s => (.ok [], s)
  | k :: ks, s =>
    match readUnit run r h x k s with
    | (.ok bs, s) =>
      match readChunk run r h x ks s with
      | (.ok cs, s) => (.ok (bs ++ cs), s)
      | e => e
    | e => e

/-- Whether a chunk's data is where it was accepted: no message of it is under way. -/
def chunkHere (s : State) (id : Nat) : Bool := !(s.mod.transfers.any fun t => t.2.tag.take 2 == [9, id])

/-- A SEND (R361, R364): it asks the receiver for space for its chunk, and completes once the receiver has accepted it and the answer has
come back. One to another module asks by a frame and is never answered here (NOTES, Scope). -/
def sendNode (run node : Nat) (r : Run) (h : Share) (n : Node) (s : State) : State :=
  match tget r.progress node with
  | some 1 =>
    if s.chunks.any fun c => c.2.run == run && c.2.node == node &&
        (c.2.place == .sender || s.mod.transfers.any fun t => t.2.tag == [9, c.1, 1]) then s
    else endNode run node 0 s
  | some _ => s
  | none =>
    match peerOf s h.ctx h.die n.peer with
    | none => endNode run node 0x05 s
    | some (m, d) =>
      match readChunk run r h (r.src n) (List.range n.len) s with
      | (.error (a, e), s) => if e.waits then s else failNode run node h a e s
      | (.ok bs, s) =>
        let s := dropUnits run (r.src n) 0 n.len s
        let sent := fun (k : Nat) => modRun run fun r => { r with progress := tput r.progress node k }
        if m != s.mod.number then sent 2 (sendFrame 0 h.die m d h.ctx 16 s).2
        else match shareOn s h.kern d with
          | none => sent 2 s
          | some (dst, _) =>
            let c : Chunk := { src := r.share, dst := dst, slot := r.slot, step := r.step, tag := n.tag, run := run, node := node
                               data := bs, pos := 0, place := .sender, seq := 0, taker := none }
            sent 1 { s with chunks := tput s.chunks s.fresh c, fresh := s.fresh + 1 }

/-- The accepted chunk a RECV takes: its own, or the first accepted one that matches. -/
def takenChunk (s : State) (run node : Nat) (r : Run) (h : Share) (n : Node) : Option (Nat × Chunk) :=
  match tfind s.chunks fun _ c => c.taker == some (run, node) with
  | some x => some x
  | none => (s.chunks.filter fun c => c.2.place != .sender && c.2.taker.isNone && chunkFor s r h n c.2).foldl
      (fun acc c => match acc with
        | none => some c
        | some a => if c.2.seq < a.2.seq then some c else some a) none

/-- The bytes of a spilled chunk, which lie in the pool. -/
def poolBytes (s : State) (g : Graph) (c : Chunk) : List Byte :=
  (List.range c.data.length).map fun i => mget s.mod.hostMem (g.pool + (c.pos + i) % g.poolb)

/-- The host request of a node. -/
def newHostReq (run node : Nat) (h : Share) (s : State) : State := askHost h.ctx run node h.die s

/-- The messages of a die's host request, which go over the mesh to die 0, at whose edge the host port stands, and back (R345, R354). -/
def hostTag (run node : Nat) : List Nat := [18, run, node]

/-- A host request of a die and its completion: `f` acts at the host. -/
def atHost {α : Type} (enc : α → List Byte) (dec : List Byte → α) (run node ctx die : Nat) (f : State → α × State) (s : State) : Ended α × State :=
  overMesh enc dec (hostTag run node) 0 ctx die (if die = 0 then [] else [0]) id (fun s => let r := f s; (.done r.1, r.2)) s

/-- A host request is over: it waits for no completion, and its messages are no more. -/
def endHostReq (run node : Nat) (s : State) : State :=
  let s := dropMessage (hostTag run node ++ [1]) (dropMessage (hostTag run node) s)
  match hostReqOf s run node with
  | some q => dropHostReq q s
  | none => s

/-- What a die's host request comes to that a FAILED link cuts off: the context ends (R348). -/
def hostCut {α : Type} (ctx : Nat) (r : Ended α) (s : State) : State :=
  match r with
  | .remote d k => remoteEnd ctx d 0 k s
  | _ => s

/-- A RECV writes the chunk it has taken, of bytes `bs`, to D, and frees the chunk's space (R364). A chunk of another length than D's leaves
the rest of D with bytes the spec does not state. -/
def writeRecv (run node id : Nat) (c : Chunk) (bs : List Byte) (h : Share) (n : Node) (s : State) : State :=
  let data := fun (_ : Run) (k : Nat) (s : State) =>
    ((.ok ((List.range 16).map fun i => (bs[16 * k + i]?).getD (Config.byte c.seq (16 * k + i)))), s)
  let s := endUnits run node (nodeUnits run node h n data (n.len + 1) s)
  if ((tget s.runs run).map fun r => r.done.contains node).getD true then
    endHostReq run node { s with chunks := tdel s.chunks id }
  else s

/-- A RECV (R361, R364): it takes its chunk and, once the chunk's data is there, writes it to D; a pooled chunk is read from the host by
a request (R354). -/
def recvNode (run node : Nat) (r : Run) (h : Share) (n : Node) (s : State) : State :=
  match peerOf s h.ctx h.die n.peer with
  | none => endNode run node 0x05 s
  | some _ =>
    match takenChunk s run node r h n with
    | none => s
    | some (id, c) =>
      let s := { s with chunks := tput s.chunks id { c with taker := some (run, node) } }
      if !chunkHere s id then s
      else if c.place != .pool then writeRecv run node id c c.data h n s
      else if (hostReqOf s run node).isNone then newHostReq run node h s
      else match atHost (fun b => b) (fun b => b) run node h.ctx h.die (fun s => (poolBytes s r.graph c, s)) s with
        | (.done bs, s) => writeRecv run node id c bs h n s
        | (e, s) => hostCut h.ctx e s

/-- A SPILL (R361): S is read, and the request takes it to the host, which writes it into the pool; the node ends with its completion. -/
def spillNode (run node : Nat) (r : Run) (h : Share) (n : Node) (s : State) : State :=
  if (hostReqOf s run node).isNone then newHostReq run node h s
  else
    match readChunk run r h (r.src n) (List.range n.len) s with
    | (.error (a, e), s) => if e.waits then s else endHostReq run node (failNode run node h a e s)
    | (.ok bs, s) =>
      let put := fun (s : State) => ((), s.modMod fun m => { m with hostMem := msetAll m.hostMem (cellsAt (r.graph.pool + n.doff) bs) })
      match atHost (fun _ => []) (fun _ => ()) run node h.ctx h.die put s with
      | (.done (), s) =>
        let s := dropUnits run (r.src n) 0 n.len s
        endHostReq run node (endNode run node 0 (modRun run (fun r => { r with units := r.units + n.len }) s))
      | (e, s) => hostCut h.ctx e s

/-- A REFETCH (R361): the request goes to the host; its completion brings the pool's bytes, which are written to D. -/
def refetchNode (run node : Nat) (r : Run) (h : Share) (n : Node) (s : State) : State :=
  if (hostReqOf s run node).isNone then newHostReq run node h s
  else match atHost (fun b => b) (fun b => b) run node h.ctx h.die (fun s => (mbytes s.mod.hostMem (r.graph.pool + n.soff) (16 * n.len), s)) s with
    | (.done bs, s) =>
      let data := fun (_ : Run) (k : Nat) (s : State) => ((.ok ((bs.drop (16 * k)).take 16)), s)
      let s := endUnits run node (nodeUnits run node h n data (n.len + 1) s)
      if ((tget s.runs run).map fun r => r.done.contains node).getD true then endHostReq run node s else s
    | (e, s) => hostCut h.ctx e s

/-- NODE_COMPLETE (R361, R362): a fired node acts and, when all it does is done, completes; the engine of a die that accepts no work stands
still (R402). -/
def execNodeComplete (run node : Nat) (s : State) : Outcome :=
  match (tget s.runs run).bind fun r => ((s.share? r.share).bind fun h => (r.graph.nodes[node]?).map fun n => (r, h, n)) with
  | none => .next s
  | some (r, h, n) =>
    if r.pending || r.closing || !r.fired.contains node || r.done.contains node || s.shut h.die then .next s
    else if n.len = 0 then .next (endNode run node 0 s)
    else match nodeStatus r h n with
      | some st => .next (endNode run node st s)
      | none =>
        .next (match n.op with
          | 0 => sendNode run node r h n s
          | 1 => recvNode run node r h n s
          | 6 => spillNode run node r h n s
          | 7 => refetchNode run node r h n s
          | _ => endUnits run node (nodeUnits run node h n (fun r k s => readUnit run r h (r.src n) k s) (n.len + 1) s))

/-- The ENQ an engine action is, if it is one: the record's address, the queue and the word's value. -/
def EngineAct.enq? (a : EngineAct) : Option (Nat × Nat × Nat) :=
  match a.kind with
  | .enq addr queue v => some (addr, queue, v)
  | _ => none

/-- The ENQ that made a host request, if one did. -/
def enqOf (s : State) (q : HostReq) : Option (EngineAct × Nat × Nat × Nat) :=
  (tget s.acts q.run).bind fun a => a.enq?.map fun e => (a, e)

/-- HOST_TIMEOUT (R354): a host request without completion within HOST_TMO ends its node with TIMEOUT: for a write into the spill pool
of the receiver, the SEND whose chunk it is (log entry 44). The chunk is no more. An ENQ finds its ring's request overdue. -/
def execHostTimeout (req : Nat) (s : State) : Outcome :=
  match tget s.mod.hostReqs req with
  | none => .next s
  | some q =>
    let die := (((tget s.runs q.run).bind fun r => s.share? r.share).map Share.die).getD 0
    if q.at_ + (s.ctx q.ctx).hostTmo.toNat * unitsPerNs ≤ (s.die die).time then
      match enqOf s q with
      | some (a, addr, queue, v) => .next (stepEnq q.run a addr queue v s)
      | none =>
      let s := { s with chunks := tkeep s.chunks fun _ c =>
        !(c.taker == some (q.run, q.node) || (c.run == q.run && c.node == q.node && c.place == .sender)) }
      let s := dropHostReq req (endHostReq q.run q.node s)
      if engineBase ≤ q.run then
        let i := q.run - ringRun 0
        .next (ringFails i ((s.queue i).entryAt (s.queue i).rp) s)
      else .next (endNode q.run q.node 0x03 s)
    else .next s

/-! ### Accepting chunks (R364) -/

/-- A fired RECV that has no chunk yet and matches a chunk. -/
def readyRecv (s : State) (c : Chunk) : Option (Nat × Nat) :=
  s.runs.findSome? fun x =>
    match s.share? x.2.share with
    | none => none
    | some h =>
      (x.2.fired.find? fun k => !x.2.done.contains k && !(tany s.chunks fun _ y => y.taker == some (x.1, k)) &&
        ((x.2.graph.nodes[k]?).map fun n => chunkFor s x.2 h n c).getD false).map fun k => (x.1, k)

/-- Whether an accepted chunk with the same match waits already. -/
def earlierChunk (s : State) (c : Chunk) : Bool :=
  tany s.chunks fun _ y => y.place != .sender && y.taker.isNone && y.src == c.src && y.dst == c.dst && y.slot == c.slot &&
    y.step == c.step && y.tag == c.tag

/-- The distance of a pooled chunk behind the pool's tail. -/
def poolBehind (g : Graph) (tail : Nat) (c : Chunk) : Nat :=
  let d := (tail + g.poolb - c.pos) % g.poolb
  if d = 0 then g.poolb else d

/-- Bytes of a slot's pool in use: from its oldest chunk to the tail. -/
def poolUsed (s : State) (dst slot : Nat) (g : Graph) (tail : Nat) : Nat :=
  (s.chunks.filter fun c => c.2.dst == dst && c.2.slot == slot && c.2.place == .pool).foldl (fun n c => max n (poolBehind g tail c.2)) 0

/-- Whether another chunk of a slot is being written into its pool: they go there one after another, in order of acceptance. -/
def poolBusy (s : State) (id : Nat) (c : Chunk) : Bool :=
  tany s.chunks fun k y => k != id && y.place == .sender && y.dst == c.dst && y.slot == c.slot && (hostReqOf s y.run y.node).isSome

/-- A receiver accepts a chunk: the answer goes back to its sender, over the mesh when that is another die. -/
def acceptChunk (id : Nat) (c : Chunk) (src : Nat) (h : Share) (s : State) : State :=
  let s := dropMessage [9, id] { s with chunks := tput s.chunks id { c with seq := s.fresh }, fresh := s.fresh + 1 }
  let s := endHostReq c.run c.node s
  match ride 0 h.ctx h.die src [9, id, 1] [] s with
  | (.cut, s) => remoteEnd h.ctx src 0 0 s
  | (_, s) => s

/-- Where a receiver takes a chunk whose request has come: into D of a fired RECV, a free slot, or the pool, whose write is a host
request (R354); with none of these it waits at its sender (R364). -/
def placeChunk (id : Nat) (c : Chunk) (src : Nat) (h : Share) (s : State) : State :=
  match readyRecv s c, earlierChunk s c with
  | some who, false => acceptChunk id { c with place := .landed, taker := some who } src h s
  | _, _ =>
    match tget h.graphs c.slot with
    | none => s
    | some g =>
      let used := (s.chunks.filter fun y => y.2.dst == c.dst && y.2.slot == c.slot && y.2.place == .slot).length
      let tail := tgetD h.tails c.slot 0
      let n := c.data.length
      if used < g.nslot && n ≤ g.slotb then acceptChunk id { c with place := .slot } src h s
      else if g.pool != 0 && g.poolb != 0 && poolUsed s c.dst c.slot g tail + n ≤ g.poolb then
        if (hostReqOf s c.run c.node).isNone then (if poolBusy s id c then s else newHostReq c.run c.node h s)
        else
          let cells : List Host.Cell := c.data.zipIdx.map fun b => (g.pool + (tail + b.2) % g.poolb, b.1)
          let put := fun (s : State) => ((), s.modMod fun m => { m with hostMem := msetAll m.hostMem cells })
          match atHost (fun _ => []) (fun _ => ()) c.run c.node h.ctx h.die put s with
          | (.done (), s) => acceptChunk id { c with place := .pool, pos := tail } src h
              (s.setShare c.dst { h with tails := tput h.tails c.slot ((tail + n) % g.poolb) })
          | (e, s) => hostCut h.ctx e s
      else s

/-- The data of an accepted chunk follows the answer that lets it go, and has come. -/
def moveChunk (id : Nat) (c : Chunk) (src dst ctx : Nat) (s : State) : State :=
  match s.transfer? [9, id, 1] with
  | some (_, t) =>
    if t.at_ != t.dst then s
    else match ride 0 ctx src dst [9, id, 2] c.data (dropMessage [9, id, 1] s) with
      | (.cut, s) => remoteEnd ctx dst 0 0 s
      | (_, s) => s
  | none =>
    match s.transfer? [9, id, 2] with
    | some (_, t) => if t.at_ = t.dst then dropMessage [9, id, 2] s else s
    | none => s

/-- CHUNK_OFFER (R364): the request for space for a chunk goes to its receiver, which takes it or leaves it at its sender; the data of
one it takes follows. -/
def execChunkOffer (chunk : Nat) (s : State) : Outcome :=
  match tget s.chunks chunk with
  | none => .next s
  | some c =>
    match s.share? c.src, s.share? c.dst with
    | some g, some h =>
      if c.place != .sender then .next (moveChunk chunk c g.die h.die h.ctx s)
      else match ride 0 h.ctx g.die h.die [9, chunk] [] s with
        | (.cut, s) => .next (remoteEnd h.ctx h.die 0 0 s)
        | (.under, s) => .next s
        | (.come, s) =>
          if (s.die h.die).safe || (s.die h.die).start.isSome then .next s else .next (placeChunk chunk c g.die h s)
    | _, _ => .next { s with chunks := tdel s.chunks chunk }

/-! ### The end of a run (R365) -/

/-- The completed step after more runs have completed (R365), and the steps completed ahead of it. -/
def advanceStep : Nat → Word → List Word → Word × List Word
  | 0, d, l => (d, l)
  | n + 1, d, l => if l.contains (d + 1) then advanceStep n (d + 1) (l.erase (d + 1)) else (d, l)

/-- Whether a run's nodes have completed, or, after a failure, those that fired (R362, R368). -/
def Run.over (r : Run) : Bool :=
  if r.status = 0 then r.done.length == r.graph.nodes.length else r.fired.all r.done.contains

/-- Steps 1 and 2 of R365: the window writes are published at one position, and the completed step advances; the snapshots it
reaches cut (R392), and the tokens that wait for it fill. -/
def closeRun (id : Nat) (r : Run) (h : Share) (s : State) : State :=
  let s := if r.wrote.isEmpty then s else homeWrite r.share r.wrote s
  let l := h.runsDone ++ [r.step]
  let (d, l) := advanceStep l.length h.done l
  let s := s.modShare r.share fun h => { h with done := d, runsDone := l }
  let s := ((s.die h.die).snaps.filter fun x => x.2.share == some r.share && x.2.st == .armed && stepReached d x.2.step).foldl
    (fun s x => snapDone h.die x.1 (cutDie h.die x.1 s)) s
  refreshKeeper h.die (fillSteps r.share (modRun id (fun r => { r with closing := true }) s))

/-- RUN_COMPLETE (R365): the writes are published and the completed step advances; then the trigger counter gains 1, and the
token fills; the next start or load of the slot goes on. -/
def execRunComplete (run : Nat) (s : State) : Outcome :=
  match (tget s.runs run).bind fun r => (s.share? r.share).map fun h => (r, h) with
  | none => .next s
  | some (r, h) =>
    if r.pending || !r.over then .next s
    else
      let s := if r.closing then s else closeRun run r h s
      let fin := fun (s : State) =>
        serveAll r.share r.slot (fillTok r.token (tokenWord r.status r.units) { s with runs := tdel s.runs run })
      let step := ((s.share? r.share).map Share.issue).getD none
      if r.graph.trig = 0 then .next (fin s)
      else match alone (.engine run) (wordAccess (.engine run) h.ctx h.die r.graph.trig 0 4
          (fun s => mainRmw s h.ctx h.die r.graph.trig (fun v => (some (v + 1), 0)) none step) s) with
        | (.done _, s) => .next (fin s)
        | (e, s) => if e.waits then .next s else .next (fin (spanFail h.ctx h.die 1 r.graph.trig e.void s).2)

end Sys2Proof.Machine
end

