-- ==== Sys2Proof/Machine/Traj.lean ====
section
/-! DEFINITION. The trajectory engine (spec 25_trajectory R376-R388): the junction's words, rewards and deadlines, the
turntable, release and the learner queue. The order in which steps perform its operations is the junction order (R376). -/

namespace Sys2Proof.Machine

/-! ### A context's junction on a die (R376, R377) -/

/-- A context's parameters, queue and counters on a die; those at bind where none are held (R377). -/
def State.junc (s : State) (die c : Nat) : Junction := tgetD (s.die die).juncs c Junction.atBind

def modJunc (die c : Nat) (f : Junction → Junction) (s : State) : State :=
  s.modDie die fun d => { d with juncs := tput d.juncs c (f (tgetD d.juncs c Junction.atBind)) }

/-- A saturating counter gains 1 (R387). -/
def countJunc (die c k : Nat) (s : State) : State :=
  modJunc die c (fun j => { j with counts := lmod j.counts k fun v => if v = BitVec.allOnes 32 then v else v + 1 }) s

/-- The entry of a context with an ID: its name and itself (R376). -/
def findEpisode (s : State) (die c : Nat) (id : Word) : Option (Nat × Episode) :=
  tfind (s.die die).episodes fun _ e => e.ctx == c && e.id == id

def modEpisode (die n : Nat) (f : Episode → Episode) (s : State) : State :=
  s.modDie die fun d => { d with episodes := tmod d.episodes n f }

/-- States whose store access may fail (R388). -/
def EpState.live : EpState → Bool
  | .open_ | .closed | .joined | .scanned => true
  | _ => false

def EpState.over : EpState → Bool
  | .released | .expired | .dropped => true
  | _ => false

/-! ### Step records in the store (R378) -/

/-- The address of step `t` of an entry. -/
def recordAt (j : Junction) (e : Episode) (t : Nat) : Nat := j.store.toNat + 16 * (j.steps * e.idx + t)

/-- An episode whose store access fails becomes DROPPED, and the address is logged with source 5 (R378, R406); an error on a
remote die ends the context. -/
def dropStore (die n a : Nat) (e : Episode) (r : Ended Unit) (s : State) : State :=
  let drop := fun (kind : Nat) => modEpisode die n (fun x => if x.st.live then { x with st := .dropped } else x)
    (logViolation e.ctx a kind 5 die s)
  match r with
  | .remote d k => remoteEnd e.ctx d a k s
  | .fail 2 => drop 2
  | _ => drop 1

/-- What junction work comes to: done, a failed access that dropped the episode, or a wait at the page engine. -/
inductive JWork (α : Type) where
  | ok (a : α)
  | dropped
  | wait
deriving DecidableEq, Repr

/-- What an access of a record comes to. -/
def recordWork {α : Type} (die n a : Nat) (e : Episode) (r : Ended α × State) : JWork α × State :=
  match r with
  | (.done x, s) => (.ok x, s)
  | (r, s) => if r.waits then (.wait, s) else (.dropped, dropStore die n a e r.void s)

/-- Reads a record's 16 bytes, for the operation `h`. -/
def readRecord (h : Holder) (die n : Nat) (e : Episode) (t : Nat) (s : State) : JWork (List Byte) × State :=
  let a := recordAt (s.junc die e.ctx) e t
  recordWork die n a e (onceAccess id id false h e.ctx die a 0 16 (fun s => mainRead s e.ctx die a 16) s)

/-- Writes bytes of a record from offset `o` on. -/
def writeRecord (h : Holder) (die n : Nat) (e : Episode) (t o : Nat) (bs : List Byte) (s : State) : JWork Unit × State :=
  let a := recordAt (s.junc die e.ctx) e t + o
  recordWork die n a e (onceAccess (fun _ => []) (fun _ => ()) true h e.ctx die a 0 16 (fun s => mainWrite s e.ctx die a bs none) s)

/-- Reads records in turn. -/
def readRecords (h : Holder) (die n : Nat) (e : Episode) : List Nat → State → JWork (List (List Byte)) × State
  | [], s => (.ok [], s)
  | t :: ts, s =>
    match readRecord h die n e t s with
    | (.ok bs, s) =>
      match readRecords h die n e ts s with
      | (.ok l, s) => (.ok (bs :: l), s)
      | r => r
    | (.dropped, s) => (.dropped, s)
    | (.wait, s) => (.wait, s)

/-- Writes parts of records in turn: step, offset, bytes. -/
def writeRecords (h : Holder) (die n : Nat) (e : Episode) : List (Nat × Nat × List Byte) → State → JWork Unit × State
  | [], s => (.ok (), s)
  | (t, o, bs) :: rest, s =>
    match writeRecord h die n e t o bs s with
    | (.ok (), s) => writeRecords h die n e rest s
    | r => r

/-- A record's flags (R378). -/
def flagsOf (bs : List Byte) : Nat := fieldAt bs 12 4
def isRecorded (bs : List Byte) : Bool := flagsOf bs % 2 == 1
def hasReward (bs : List Byte) : Bool := flagsOf bs / 2 % 2 == 1
def isTerminal (bs : List Byte) : Bool := flagsOf bs / 4 % 2 == 1

/-! ### Junction operations (R376) -/

/-- A junction operation: whether it has been performed, and the state after it. One that waits at the page engine has changed nothing
but what the engine has done for it. -/
abbrev JStep := State → Bool × State

/-- The state after junction work that a failed access may cut short. -/
def thenWork {α : Type} (r : JWork α × State) (k : α → JStep) : Bool × State :=
  match r with
  | (.ok a, s) => k a s
  | (.dropped, s) => (true, s)
  | (.wait, s) => (false, s)

/-- An operation whose block is saved while it waits begins anew when the block is restored, and what it has asked for is forgotten: the
junction's work goes on without it (R376). -/
def yieldEntry (e : Episode) (h : Holder) (s : State) : State :=
  match e.busy with
  | some o => if o = h then s else forgetHolder o s
  | none   => s

/-- An operation `h` on an entry takes one position among those on it (R376): while one waits at the page engine no other begins. -/
def onEntry (h : Holder) (die n : Nat) (f : Episode → JStep) : JStep := fun s =>
  match tget (s.die die).episodes n with
  | none => (true, s)
  | some e =>
    if e.busy.any fun o => o != h && holderLive s o then (false, s)
    else match f e (yieldEntry e h s) with
      | (true, s) => (true, dropAnswers h (if e.busy.isSome then modEpisode die n (fun e => { e with busy := none }) s else s))
      | (false, s) => (false, modEpisode die n (fun e => { e with busy := some h }) s)

/-! ### Joining (R382-R384) -/

/-- An entry becomes JOINED, behind those joined before. -/
def joinEpisode (die n : Nat) (f : Episode → Episode) (s : State) : State :=
  s.modDie die fun d => { d with
    joins := d.joins + 1
    episodes := tmod d.episodes n fun e => { f e with st := .joined, order := d.joins + 1, joined := d.cycles } }

/-- Whether an entry has joined before another (R384): in an earlier cycle, or in the same with the lower ID; entries of two contexts
with one ID stand in the order of their junction positions (log entry 45). -/
def Episode.joinedBefore (x e : Episode) : Bool :=
  x.order != 0 && (decide (x.joined < e.joined) || (x.joined == e.joined &&
    (x.id.ult e.id || (x.id == e.id && decide (x.order < e.order)))))

/-- A reward for an entry (R383): the first one for a step is kept, and a CLOSED entry with its last reward is JOINED. -/
def rewardWork (h : Holder) (die n step : Nat) (term : Bool) (reward : Word) : JStep := fun s =>
  match tget (s.die die).episodes n with
  | none => (true, s)
  | some e =>
    let closed := e.st == .closed && decide (step < e.length) && !(e.late && e.busy != some h)
    if step < (s.junc die e.ctx).steps && (e.st == .open_ || closed) then
      thenWork (readRecord h die n e step s) fun bs s =>
        if hasReward bs then (true, countJunc die e.ctx 1 s)
        else
          let rest := if closed then (List.range e.length).filter (· != step) else []
          thenWork (readRecords h die n e rest s) fun rs s =>
            let fl := (BitVec.ofNat 32 (flagsOf bs) ||| 2 ||| (if term then 4 else 0) : Word)
            thenWork (writeRecord h die n e step 8 (leBytes 4 reward.toNat ++ leBytes 4 fl.toNat) s) fun _ s =>
              (true, if closed && rs.all hasReward then joinEpisode die n id s else s)
    else (true, countJunc die e.ctx 1 s)

/-- Handles a reward message (R383), for the operation `h`; `bad` says that a zero field is not zero. -/
def handleReward (h : Holder) (die c : Nat) (id : Word) (step : Nat) (term : Bool) (reward : Word) (bad : Bool) : JStep := fun s =>
  if !boundOn s c die then (true, s)
  else
    let j := s.junc die c
    if bad || j.steps ≤ step then (true, countJunc die c 1 s)
    else match findEpisode s die c id with
      | some (n, _) => onEntry h die n (fun _ => rewardWork h die n step term reward) s
      | none =>
        if 4096 ≤ (s.die die).orphans.length then (true, countJunc die c 0 s)
        else
          let o : Orphan := ⟨c, id, step, term, reward, (s.die die).time + j.grace.toNat * unitsPerNs⟩
          (true, (s.modDie die fun d => { d with orphans := tput d.orphans s.fresh o }).bump)

/-- The reward messages that have come to a die and wait for their positions, oldest first: their numbers, contexts and bytes. -/
def pendingRewards (s : State) (die : Nat) : List (Nat × Nat × List Byte) :=
  s.mod.transfers.filterMap fun t => match t.2.tag with
    | [14, n] => if t.2.dst = die then some (n, t.2.ctx, t.2.data) else none
    | _ => none

/-- A pending reward message is handled; it stays while a store access waits. -/
def takeReward (die n : Nat) (msg : List Byte) (s : State) : State :=
  let f := fieldAt msg
  match handleReward (.engine n) die (f 7 1) (natWord (f 0 4)) (f 4 2) (f 6 1 % 2 == 1) (natWord (f 8 4)) (f 6 1 / 2 != 0 || f 12 4 != 0) s with
  | (true, s) => dropMessage [14, n] s
  | (false, s) => s

/-- A pending reward message is tried, behind the older ones for its entry. -/
def execRewardTurn (die n : Nat) (s : State) : Outcome :=
  let all := pendingRewards s die
  match all.find? fun m => m.1 == n with
  | none => .next s
  | some m =>
    let same := fun (x : Nat × Nat × List Byte) => x.2.1 == m.2.1 && x.2.2.take 4 == m.2.2.take 4
    if (all.takeWhile fun x => x.1 != n).any same then .next s else .next (takeReward die n m.2.2 s)

/-- REWARD_MESSAGE (R383): 16 bytes from the fabric or the host. -/
def execRewardMessage (die : Nat) (msg : List Byte) (s : State) : Outcome :=
  if msg.length != 16 || (s.die die).safe || (s.die die).start.isSome then .next s
  else execRewardTurn die s.fresh (queueReward die msg s)

/-! ### The recording words (R379-R382) -/

/-- The note that a lane's operation of a word has been performed, while a later lane's waits. -/
def laneNote (h : Holder) : List Nat := accessTag h true (2 ^ 57 + 1) ++ [1]

/-- The lanes' junction operations in ascending order, each performed once: none goes on past one that waits. -/
def laneOps (die c w : Nat) (act : Holder → Nat → JStep) : List Nat → JStep
  | [], s => (true, s)
  | l :: ls, s =>
    let h : Holder := .lane w l
    if (s.transfer? (laneNote h)).isSome then
      match laneOps die c w act ls s with
      | (true, s) => (true, dropMessage (laneNote h) s)
      | r => r
    else if (s.warp? w).isNone then (true, s)
    else match act h l s with
      | (true, s) =>
        match laneOps die c w act ls s with
        | (true, s) => (true, s)
        | (false, s) => (false, { s with
            mod := { s.mod with transfers := tput s.mod.transfers s.fresh ⟨0, die, die, die, c, laneNote h, []⟩ }, fresh := s.fresh + 1 })
      | (false, s) => (false, s)

/-- The frame of a TRJ word (R226, R379): operands, then each lane's junction operation in ascending order; the word blocks while
one waits. -/
def trajWord (i : Instr) (ss : List Src) (act : Nat → Nat → Holder → Thread → JStep) (s : State) : Outcome :=
  runWord i (fun b m s =>
    if m = 0 then finishWord b s
    else if b.warp.regionLive then finishWord b (abortRegion b.w 8 s)
    else withOperands ss [] (fun b m s =>
      let die := b.warp.die
      let c := b.warp.ctx
      match laneOps die c b.w (fun h l => match b.warp.thread l with
          | some t => act die c h t
          | none => fun s => (true, s)) (laneList b.warp.width m) s with
      | (true, s) => finishWord b s
      | (false, s) => blockWord b s) b m s) s

/-- A refused operation of an ID that names no entry, or the operation on its entry (R381). -/
def onId (h : Holder) (die c : Nat) (id : Word) (f : Nat → Episode → JStep) : JStep := fun s =>
  match findEpisode s die c id with
  | some (n, _) => onEntry h die n (f n) s
  | none => (true, countJunc die c 1 s)

/-- TJSTEP (R381, R382). -/
def execTjstep (o : FmtR) (s : State) : Outcome :=
  trajWord (.tjstep o) (src o.a 1 o.ea o.za ++ src o.b 1 o.eb o.zb ++ src o.c 2 o.ec o.zc) (fun die c h t =>
    let step := (t.val o.b o.zb).toNat
    onId h die c (t.val o.a o.za) fun n e s =>
      if e.st == .open_ && decide (step < (s.junc die c).steps) then
        thenWork (readRecord h die n e step s) fun bs s =>
          let v := if o.zc then 0 else t.pair o.c.toNat
          let fl := (BitVec.ofNat 32 (flagsOf bs) ||| 1 : Word)
          thenWork (writeRecords h die n e [(step, 0, leBytes 8 v.toNat), (step, 12, leBytes 4 fl.toNat)] s) fun _ s => (true, s)
      else (true, countJunc die c 1 s)) s

/-- TJEND (R381, R382). -/
def execTjend (o : FmtR) (s : State) : Outcome :=
  trajWord (.tjend o) (src o.a 1 o.ea o.za ++ src o.b 1 o.eb o.zb ++ src o.c 1 o.ec o.zc) (fun die c h t =>
    let len := (t.val o.b o.zb).toNat
    onId h die c (t.val o.a o.za) fun n e s =>
      let j := s.junc die c
      if e.st == .open_ && decide (1 ≤ len) && decide (len ≤ j.steps) then
        thenWork (readRecords h die n e (List.range len) s) fun rs s =>
          if !rs.all isRecorded then (true, countJunc die c 4 (modEpisode die n (fun e => { e with st := .dropped }) s))
          else
            let close := fun (e : Episode) =>
              { e with st := .closed, length := len, vb := t.val o.c o.zc
                       due := (s.die die).time + j.join.toNat * unitsPerNs }
            (true, if rs.all hasReward then joinEpisode die n close s else modEpisode die n close s)
      else (true, countJunc die c 1 s)) s

/-- TJEND.free (R381, R382). -/
def execTjendFree (o : FmtR) (s : State) : Outcome :=
  trajWord (.tjendFree o) (src o.a 1 o.ea o.za) (fun die c h t =>
    onId h die c (t.val o.a o.za) fun n e s =>
      (true, if e.st.over then s.modDie die fun d => { d with episodes := tdel d.episodes n } else countJunc die c 1 s)) s

/-- TJREW (R382, R383). -/
def execTjrew (o : FmtR) (s : State) : Outcome :=
  trajWord (.tjrew o) (src o.a 1 o.ea o.za ++ src o.b 1 o.eb o.zb ++ src o.c 1 o.ec o.zc) (fun die c h t =>
    let word := (t.val o.b o.zb).toNat
    handleReward h die c (t.val o.a o.za) (word % 2 ^ 16) (word / 2 ^ 16 % 2 == 1) (t.val o.c o.zc) (word / 2 ^ 17 != 0)) s

/-! ### TJOPEN (R379, R380) -/

/-- The status of a TJOPEN and the index it takes (R380). -/
def openStatus (s : State) (die c : Nat) (id : Word) : Except Nat Nat :=
  let j := s.junc die c
  let mine := (s.die die).episodes.filter fun e => e.2.ctx == c
  if j.store = 0 || j.usable = 0 then .error 1
  else if mine.any fun e => e.2.id == id then .error 3
  else match lowestFree j.usable (mine.map fun e => e.2.idx) with
    | some i => if (s.die die).episodes.length < 65536 then .ok i else .error 2
    | none => .error 2

/-- A new entry (R380). -/
def newEpisode (c idx : Nat) (id version : Word) : Episode :=
  { ctx := c, idx := idx, id := id, version := version, st := .open_, length := 0, vb := 0, trunc := false, due := 0, order := 0
    joined := 0, term := false, late := false, busy := none, scan := none }

/-- The orphans of a context and ID on a die, in the order they arrived. -/
def orphansOf (s : State) (die c : Nat) (id : Word) : List (Nat × Orphan) :=
  (s.die die).orphans.filter fun o => o.2.ctx == c && o.2.id == id

/-- Gives orphans to an entry in turn, each as a reward of its own. -/
def giveOrphans (die n : Nat) : List (Nat × Orphan) → JStep
  | [], s => (true, s)
  | o :: rest, s =>
    match rewardWork (.engine o.1) die n o.2.step o.2.term o.2.reward s with
    | (true, s) =>
      giveOrphans die n rest (dropAnswers (.engine o.1) (s.modDie die fun d => { d with orphans := tdel d.orphans o.1 }))
    | (false, s) => (false, s)

/-- One lane's TJOPEN takes its entry: the word it answers, and the state after it. -/
def openEpisode (die c : Nat) (id version : Word) (s : State) : Word × State :=
  match openStatus s die c id with
  | .error st => (natWord (2 ^ 24 * st), s)
  | .ok i => (natWord (2 ^ 31 + i), (s.modDie die fun d => { d with episodes := tput d.episodes s.fresh (newEpisode c i id version) }).bump)

/-- The new entry's flags are cleared, and its orphans move in, into an entry that the clearing has dropped as rewards that are refused
(R378, R380, R383). -/
def fillEpisode (h : Holder) (die c : Nat) (id : Word) : JStep := fun s =>
  match findEpisode s die c id with
  | none => (true, s)
  | some (n, _) => onEntry h die n (fun e s =>
      match writeRecords h die n e ((List.range (s.junc die c).steps).map fun t => (t, 12, [0, 0, 0, 0])) s with
      | (.wait, s) => (false, s)
      | (_, s) => giveOrphans die n (orphansOf s die c id) s) s

/-- The lanes of a TJOPEN act in turn, also while their block is saved, since the junction works on (R376); the threads go on once all have
and the block stands (R379). -/
def stepTjopen (id : Nat) (a : EngineAct) (v : Nat) : List (Nat × Word × Word) → List (Nat × Word) → State → State
  | [], res, s =>
    if (((s.warp? a.warp).bind Warp.block).map s.parked).getD false then setAct id (.tjopen v [] res) s
    else endAct id (s.mapLanes a.warp (actLanes s id a) fun l t => match tget res l with
      | some r => t.put v r
      | none => t)
  | (l, i, ver) :: rest, res, s =>
    match s.warp? a.warp with
    | none => { s with acts := tdel s.acts id }
    | some x =>
      let (r, s) := match tget res l with
        | some r => (r, s)
        | none => openEpisode x.die x.ctx i ver s
      match if r.getLsbD 31 then fillEpisode (.engine id) x.die x.ctx i s else (true, s) with
      | (true, s) => stepTjopen id a v rest (tput res l r) s
      | (false, s) => setAct id (.tjopen v ((l, i, ver) :: rest) (tput res l r)) s

/-- TJOPEN (R379, R380). -/
def execTjopen (o : FmtR) (s : State) : Outcome :=
  runWord (.tjopen o) (fun b m s =>
    if m = 0 then finishWord b s
    else if b.warp.regionLive then finishWord b (abortRegion b.w 8 s)
    else withOperands (src o.a 1 o.ea o.za ++ src o.b 1 o.eb o.zb) [o.d.toNat] (fun b m s =>
      if m = 0 then finishWord b s
      else
        let args := (laneList b.warp.width m).filterMap fun l =>
          (b.warp.thread l).map fun t => (l, t.val o.a o.za, t.val o.b o.zb)
        let id := s.fresh
        let s := startAct b m (.tjopen o.d.toNat args []) [] s
        match tget s.acts id with
        | some a => stepTjopen id a o.d.toNat args [] s
        | none => s) b m s) s

/-! ### Deadlines, orphans and the turntable (R383-R385) -/

/-- A CLOSED entry whose deadline has come joins, truncated at its first step without a reward, or expires (R384). Its position is
taken: a reward that comes while it waits is refused. -/
def joinDue (die n : Nat) (s : State) : State :=
  let h : Holder := .engine n
  match onEntry h die n (fun e s =>
    if e.st != .closed then (true, s)
    else thenWork (readRecords h die n e (List.range e.length) s) fun rs s =>
      (true, match rs.findIdx? fun bs => !hasReward bs with
        | none => joinEpisode die n id s
        | some 0 => countJunc die e.ctx 5 (modEpisode die n (fun e => { e with st := .expired }) s)
        | some t => countJunc die e.ctx 2 (joinEpisode die n (fun e =>
            { e with length := t, trunc := true, vb := natWord (fieldAt (rs.getD t []) 0 4) }) s))) s with
  | (true, s) => s
  | (false, s) => modEpisode die n (fun e => { e with late := true }) s

/-- JOIN_DEADLINE (R384). -/
def execJoinDeadline (die entry : Nat) (s : State) : Outcome :=
  match tget (s.die die).episodes entry with
  | none => .next s
  | some e => if e.st != .closed || decide ((s.die die).time < e.due) then .next s else .next (joinDue die entry s)

/-- ORPHAN_EXPIRY (R383): an orphan that moves into an entry expires no more. -/
def execOrphanExpiry (die orphan : Nat) (s : State) : Outcome :=
  match tget (s.die die).orphans orphan with
  | some o =>
    if o.at_ ≤ (s.die die).time && (findEpisode s die o.ctx o.id).isNone then
      .next (countJunc die o.ctx 0 (s.modDie die fun d => { d with orphans := tdel d.orphans orphan }))
    else .next s
  | none => .next s

/-- One step of the scan (R385): from V of the step after and its advantage, the return, the advantage, and V. -/
def scanStep (gamma gl : Nat) (vn an : Nat) (bs : List Byte) : Nat × Nat :=
  let v := fieldAt bs 0 4
  let r := fieldAt bs 8 4
  let gv := if isTerminal bs then 0 else (fMul fp32 .rn gamma vn).bits
  let an := if isTerminal bs then 0 else an
  let delta := (fSub fp32 .rn (fAdd fp32 .rn r gv).bits v).bits
  let a := (fFma fp32 .rn gl an delta).bits
  ((fAdd fp32 .rn a v).bits, a)

/-- The scan of the records of an episode, the last step first: step, G, A and the old flags (R385). -/
def scanAll (gamma gl : Nat) : List (Nat × List Byte) → Nat → Nat → List (Nat × Nat × Nat × Nat)
  | [], _, _ => []
  | (t, bs) :: rest, vn, an =>
    let (g, a) := scanStep gamma gl vn an bs
    (t, g, a, flagsOf bs) :: scanAll gamma gl rest (fieldAt bs 0 4) a

/-- Whether the turntable takes an entry now (R385): the first JOINED one of a context without a SCANNED one, once the cycle it joined
in is over (log entry 45). -/
def takesNext (d : Die) (e : Episode) : Bool :=
  let held := fun (c : Nat) => tany d.episodes fun _ x => x.ctx == c && x.st == .scanned
  e.st == .joined && decide (e.joined < d.cycles) && !held e.ctx &&
    !(tany d.episodes fun _ x => x.st == .joined && x.joinedBefore e && !held x.ctx)

/-- Whether an episode is stale (R385). -/
def stale (j : Junction) (e : Episode) : Bool :=
  let d := j.learner - e.version
  j.stale.ult d && decide (d.toNat < 2 ^ 31)

/-- TURNTABLE_SCAN (R385): the entry is dropped as stale, or its records are rewritten in one backward scan. -/
def execTurntableScan (die entry : Nat) (s : State) : Outcome :=
  match tget (s.die die).episodes entry with
  | none => .next s
  | some e =>
    let j := s.junc die e.ctx
    if !takesNext (s.die die) e then .next s
    else if e.scan.isNone && stale j e then .next (countJunc die e.ctx 3 (modEpisode die entry (fun e => { e with st := .dropped }) s))
    else
      let h : Holder := .engine entry
      let p := e.scan.getD (j.gamma, j.lambda)
      match onEntry h die entry (fun e s =>
        thenWork (readRecords h die entry e (List.range e.length) s) fun rs s =>
          let gl := (fMul fp32 .rn p.1.toNat p.2.toNat).bits
          let out := scanAll p.1.toNat gl (rs.zipIdx.map fun x => (x.2, x.1)).reverse e.vb.toNat 0
          let ws := out.flatMap fun x => [(x.1, 0, leBytes 4 x.2.1),
            (x.1, 8, leBytes 4 x.2.2.1 ++ leBytes 4 (BitVec.ofNat 32 x.2.2.2 ||| 8 : Word).toNat)]
          thenWork (writeRecords h die entry e ws s) fun _ s =>
            (true, modEpisode die entry (fun e => { e with st := .scanned, term := rs.any isTerminal }) s)) s with
      | (true, s) => .next s
      | (false, s) => .next (modEpisode die entry (fun e => { e with scan := some p }) s)

/-! ### Release and the learner queue (R386, R387) -/

/-- The queue entry of an episode (R386). -/
def queueEntry (e : Episode) : List Byte :=
  leBytes 4 e.id.toNat ++ leBytes 2 e.length ++ leBytes 1 (0x80 + (if e.trunc then 1 else 0) + if e.term then 2 else 0) ++ [0] ++
  leBytes 4 e.version.toNat ++ leBytes 4 e.idx

/-- A waiting TJTAKE lane of a warp that is not saved, the first that waits (R387). -/
def firstTake (s : State) (die c : Nat) : Option (Nat × TakeWait) :=
  tfind (s.die die).takes fun _ t => t.ctx == c && !(((s.warp? t.warp).bind Warp.block).map s.parked).getD false

/-- Writes a quad of 16 bytes to a thread's registers. -/
def landQuad (win : Bool) (r : Nat) (bs : List Byte) (t : Thread) : Thread :=
  (List.range 4).foldl (fun t k => t.land win (r + k) ⟨natWord (fieldAt bs (4 * k) 4), true⟩) t

/-- A waiting lane's registers fill (R387). -/
def endTake (die k : Nat) (t : TakeWait) (bs : List Byte) (s : State) : State :=
  let s := s.modDie die fun d => { d with takes := tdel d.takes k }
  reapWarp t.warp (if 512 ≤ t.dst then s else s.modThread t.warp t.lane (landQuad t.win t.dst bs))

/-- The quad of an empty queue. -/
def noEntry : List Byte := List.replicate 16 0

/-- The first waiting lane pops, when the queue holds an entry: C advances as its registers fill; under .try it takes zeros from an empty
queue (R387). -/
def popTake (die c : Nat) (s : State) : Option State :=
  match firstTake s die c, (s.junc die c).queue with
  | some (k, t), bs :: rest => some (endTake die k t bs (modJunc die c (fun j => { j with queue := rest, c := j.c + 1 }) s))
  | some (k, t), [] => if t.try_ then some (endTake die k t noEntry s) else none
  | none, _ => none

/-- Waiting lanes pop in turn while the queue holds entries. -/
def serveTakes (die c : Nat) : Nat → State → State
  | 0, s => s
  | n + 1, s =>
    match popTake die c s with
    | some s => serveTakes die c n s
    | none => s

/-- TJTAKE_POP (R387): the lane that has waited longest pops; a lane of a .try behind others takes zeros from an empty queue, unless its
warp is saved. -/
def execTjtakePop (wait : Nat) (s : State) : Outcome :=
  match s.dies.findSome? fun d => (tget d.2.takes wait).map fun t => (d.1, t) with
  | some (die, t) =>
    if ((firstTake s die t.ctx).map Prod.fst) == some wait then .next ((popTake die t.ctx s).getD s)
    else if t.try_ && (s.junc die t.ctx).queue.isEmpty && !(((s.warp? t.warp).bind Warp.block).map s.parked).getD false then
      .next (endTake die wait t noEntry s)
    else .next s
  | none => .next s

/-- EPISODE_RELEASE (R386): a SCANNED episode behind none that is still open to release enters the learner queue. -/
def execEpisodeRelease (die entry : Nat) (s : State) : Outcome :=
  match tget (s.die die).episodes entry with
  | none => .next s
  | some e =>
    let j := s.junc die e.ctx
    let first := !(tany (s.die die).episodes fun _ x => x.ctx == e.ctx && x.joinedBefore e && !x.st.over)
    if e.st == .scanned && first && decide ((j.p - j.c).toNat < 256) then
      let s := modJunc die e.ctx (fun j => { j with queue := j.queue ++ [queueEntry e], p := j.p + 1 }) s
      .next (countJunc die e.ctx 6 (modEpisode die entry (fun e => { e with st := .released }) s))
    else .next s

/-- The frame of TJTAKE: lanes whose destinations are full act in ascending order. -/
def takeWord (i : Instr) (ss : List Src) (rs : List Nat) (act : Bundle → Lanes → State → State) (s : State) : Outcome :=
  runWord i (fun b m s =>
    if m = 0 then finishWord b s
    else if b.warp.regionLive then finishWord b (abortRegion b.w 8 s)
    else withOperands ss rs (fun b m s => finishWord b (act b m s)) b m s) s

/-- The lanes wait for entries, under .try for an entry or zeros. -/
def waitTakes (b : Bundle) (m : Lanes) (d : Nat) (try_ : Bool) (s : State) : State :=
  (laneList b.warp.width m).foldl (fun s l =>
    let win := ((b.warp.thread l).map fun t => t.inWin d).getD false
    (s.modDie b.warp.die fun x => { x with takes := tput x.takes s.fresh ⟨b.warp.ctx, b.w, l, d, win, try_⟩ }).bump)
    (s.mapLanes b.w m fun _ t => t.empty (regRange d 4))

/-- Entries the takes of a die can be served with at most. -/
def takesOn (s : State) (die : Nat) : Nat := (s.die die).takes.length

/-- TJTAKE (R387). -/
def execTjtake (o : FmtR) (s : State) : Outcome :=
  takeWord (.tjtake o) [] (regRange o.d.toNat 4) (fun b m s =>
    let s := waitTakes b m o.d.toNat false s
    serveTakes b.warp.die b.warp.ctx (takesOn s b.warp.die) s) s

/-- The lanes' answers are on their way to `n` registers from `d` on, which are empty until they land (R97). -/
def answerLanes (b : Bundle) (d n : Nat) (vs : List (Nat × Nat)) (s : State) : State :=
  addOps (vs.map fun x =>
    { newOp s b x.1 .scratch .regq 0 4 with
      dst := d, ndst := n, st := .read x.2, entry := none, win := ((b.warp.thread x.1).map fun t => t.inWin d).getD false })
    (s.mapLanes b.w (lanesOf (vs.map Prod.fst)) fun _ t => t.empty (regRange d n))

/-- TJTAKE.try (R387): each lane pops, or takes zeros, at the instant its registers fill. -/
def execTjtakeTry (o : FmtR) (s : State) : Outcome :=
  takeWord (.tjtakeTry o) [] (regRange o.d.toNat 4) (fun b m s => waitTakes b m o.d.toNat true s) s

/-- TJTAKE.depth (R387). -/
def execTjtakeDepth (o : FmtR) (s : State) : Outcome :=
  takeWord (.tjtakeDepth o) [] [o.d.toNat] (fun b m s =>
    let j := s.junc b.warp.die b.warp.ctx
    answerLanes b o.d.toNat 1 ((laneList b.warp.width m).map fun l => (l, (j.p - j.c).toNat)) s) s

/-- TJTAKE.stat (R387): bits [31:3] of the counter's number raise ILLEGAL-OPERAND. -/
def execTjtakeStat (o : FmtR) (s : State) : Outcome :=
  takeWord (.tjtakeStat o) (src o.b 1 o.eb o.zb) [o.d.toNat] (fun b m s =>
    let k := fun (l : Nat) => ((b.warp.thread l).map fun t => (t.val o.b o.zb).toNat).getD 0
    let bad := laneFilter b.warp.width m fun l => decide (8 ≤ k l)
    let j := s.junc b.warp.die b.warp.ctx
    let s := trapLanes b.w bad b.at_ 0x03 (fun _ => 0) (fun _ => 0) s
    if (s.warp? b.w).isNone then s
    else answerLanes b o.d.toNat 1 ((laneList b.warp.width (m &&& ~~~ bad)).map fun l => (l, (j.counts.getD (k l) 0).toNat)) s) s

/-! ### TJSET (R377) -/

/-- Whether a value is legal for a parameter, of which there are nine (R377). -/
def tjsetOk (k : Nat) (v : Word64) : Bool :=
  match k with
  | 0 | 1 => (v.extractLsb' 23 8) != 255
  | 6 => v.extractLsb' 0 12 == 0 && v.extractLsb' 57 7 == 0
  | 7 => decide (1 ≤ v.toNat) && decide (v.toNat ≤ 4096)
  | 8 => decide (v.toNat ≤ 65536)
  | _ => decide (k < 6)

def Junction.write (j : Junction) (k : Nat) (v : Word64) : Junction :=
  match k with
  | 0 => { j with gamma := loOf v }
  | 1 => { j with lambda := loOf v }
  | 2 => { j with join := loOf v }
  | 3 => { j with grace := loOf v }
  | 4 => { j with stale := loOf v }
  | 5 => { j with learner := loOf v }
  | 6 => { j with store := v }
  | 7 => { j with steps := v.toNat }
  | _ => { j with usable := v.toNat }

/-- TJSET (R377). -/
def execTjset (o : FmtI) (s : State) : Outcome :=
  let k := o.imm.toNat
  runWord (.tjset o) (fun b m s =>
    if m = 0 then finishWord b s
    else if b.warp.regionLive then finishWord b (abortRegion b.w 8 s)
    else withLeader (src o.a (if k = 6 then 2 else 1) o.ea o.za) (fun _ => false) (fun b m l s =>
      let v : Word64 := match b.warp.thread l with
        | some t => if o.za then 0 else if k = 6 then t.pair o.a.toNat else (t.reg o.a.toNat).val.setWidth 64
        | none => 0
      let busy := tany (s.die b.warp.die).episodes fun _ e => e.ctx == b.warp.ctx
      if !tjsetOk k v || (decide (6 ≤ k) && busy) then trapWord b m 0x03 s
      else finishWord b (modJunc b.warp.die b.warp.ctx (fun j => j.write k v) s)) b m s) s

end Sys2Proof.Machine
end

