-- ==== Sys2Proof/Machine/Start.lean ====
section
/-! DEFINITION. The die (spec 28_die R400-R406, 01_panel R19) and its warm reset (27_snapshot R398, R399): the steps of a
start, measurement and attestation, wear, and power. -/

namespace Sys2Proof.Machine

/-! ### Measurement (R403, R404) -/

/-- A measurement register after an extension by `m`: 64 bytes of SHAKE256. -/
def extendMr (r m : List Byte) : List Byte := shake256 64 (r ++ m)

/-- The bits of a list of cores in word `k` of a retirement map. -/
def mapWord (cores : List Nat) (k : Nat) : Word :=
  cores.foldl (fun v c => if c / 32 = k then v ||| BitVec.ofNat 32 (2 ^ (c % 32)) else v) 0

/-- The stored retirement map of a die with the cores that health refreshes have added to it (R400, R405). -/
def storedMap (die : Nat) (added : List Nat) : List Word :=
  (List.range 5).map fun k => Config.storedRetmap die k ||| mapWord added k

/-- The bytes of a retirement map. -/
def mapBytes (ws : List Word) : List Byte := ws.flatMap fun w => leBytes 4 w.toNat

/-- 64 bytes of zero: a measurement register a start has cleared. -/
def zeroMr : List Byte := List.replicate 64 0

/-- What a die measures into MRk, k = 0-4 (R403); MR4 takes the map the last cold start loaded. -/
def measured (die k : Nat) (d : Die) : List Byte :=
  if k = 4 then mapBytes (storedMap die d.coldAdded) else if k = 3 then Config.digest die 3 d.trained
  else if k = 0 then Config.digest die 0 0 else Config.digest die k d.firmware

/-- The measurement registers of a die; those of a finished cold start where the state lists none. -/
def State.mrs (s : State) (die : Nat) : List (List Byte) :=
  match (s.die die).mrs with
  | [] => (List.range 8).map fun k => if k < 5 then extendMr zeroMr (measured die k Die.init) else zeroMr
  | ms => ms

/-- Extends MRk of a die by `m`. -/
def extendAt (die k : Nat) (m : List Byte) (s : State) : State :=
  let ms := s.mrs die
  s.modDie die fun d => { d with mrs := lmod ms k fun r => extendMr r m }

/-- A die measures into MRk. -/
def measureInto (die k : Nat) (s : State) : State := extendAt die k (measured die k (s.die die)) s

/-- MEASUREMENT_REGISTER_EXTENSION (R403): the host extends MR5 to MR7. -/
def execMeasurementRegisterExtension (die k : Nat) (digest : List Byte) (s : State) : Outcome :=
  if die < 64 && 5 ≤ k && k < 8 then .next (extendAt die k digest s) else .next s

/-- The first `n` bytes of a list, filled up with zeros. -/
def bytesTo (n : Nat) (l : List Byte) : List Byte := (l ++ List.replicate n 0).take n

/-- The bits of the dies in safe mode (R404). -/
def safeBits (s : State) : Nat := (List.range 64).foldl (fun v d => if (s.die d).safe then v + 2 ^ d else v) 0

/-- The signed bytes 0-1,903 of a report that names a die (R404). -/
def reportBody (s : State) (die : Nat) (nonce : List Byte) : List Byte :=
  nonce ++ bytesTo 32 Config.identity ++ (s.mrs die).flatMap (bytesTo 64) ++
  (List.range 64).flatMap (fun d => (List.range 5).flatMap fun k => leBytes 4 (s.retmap d k).toNat) ++
  leBytes 8 (safeBits s) ++ leBytes 8 (s.ns 0)

/-- A signed report (R404). -/
def report (s : State) (die : Nat) (nonce : List Byte) : List Byte :=
  reportBody s die nonce ++ bytesTo 114 (Config.signature (reportBody s die nonce))

/-- ATTESTATION_REQUEST (R404). -/
def execAttestationRequest (die : Nat) (nonce : List Byte) (s : State) : Outcome :=
  if die < 64 && nonce.length == 64 then .next (s.modMod fun m => { m with reports := m.reports ++ [report s die nonce] })
  else .next s

/-! ### Starting (R400-R402) -/

/-- A context in its initial state: all its work is gone and it is FREE (R400). -/
def purgeContext (c : Nat) (s : State) : State :=
  let s := endContext c 0 causeDispatch s
  let s := freeContext c causeDispatch (s.modCtx c fun x => { x with st := .ended })
  s.setCtx c Context.init

/-- A die's engines and cores in their initial states; what a start keeps or sets by its steps stays (R400). Its own flows begin anew,
those it sends and those that come to it (R351, log entry 46), and what was on the mesh from it or to it is no more. -/
def purgeDie (die : Nat) (s : State) : State :=
  let cs := (List.range 256).filter fun c => (s.ctx c).st != .free && (s.ctx c).dies.getLsbD die
  let s := cs.foldl (fun s c => purgeContext c s) s
  let s := s.modDie die fun d =>
    { Die.init with
      time := d.time, cycles := d.cycles, ppm := d.ppm, dram := d.dram, bad := d.bad, corrected := d.corrected, retmap := d.retmap, added := d.added
      coldAdded := d.coldAdded, keeper := d.keeper, safe := d.safe, start := d.start, stored := d.stored, firmware := d.firmware
      trained := d.trained, mrs := d.mrs
      health := d.health, rate := d.rate }
  let s := setKeeper die ⟨false, 0, none, []⟩ s
  let mine := fun (f : Flow) => if f.out then f.src == die else f.dst == die
  let s := { s with
    cores := s.cores.filter fun c => c.1 / 160 != die
    mod := { s.mod with flows := tkeep s.mod.flows fun _ f => !mine f
                        transfers := tkeep s.mod.transfers fun _ t => t.src != die && t.dst != die } }
  if die = 0 then
    { s with
      queues := []
      mod := { s.mod with treeCfg := Module.init.treeCfg, errBase := 0, errSize := 0, errWp := 0, errDrop := 0, errWait := []
                          errBad := none, errLast := none, hostReqs := [], turns := Module.init.turns } }
  else s

/-- The ports a die carries (R10). -/
def portsOn (die : Nat) : List Nat :=
  (if die / 8 = 0 then [die % 8] else []) ++ (if die % 8 = 7 then [8 + die / 8] else []) ++
  (if die / 8 = 7 then [16 + die % 8] else []) ++ (if die % 8 = 0 then [24 + die / 8] else [])

/-- A die's ports start to train: fully, or fast from the stored equalisation (R353, R400). Flows move where a port leaves service
(R349). -/
def trainPorts (die : Nat) (warm : Bool) (s : State) : State :=
  let mine := portsOn die
  let one := fun (p : Port) => (⟨if warm && (p.st == .up || p.st == .degraded) then .retraining else .training, 0⟩ : Port)
  let s := s.modMod fun m => { m with ports := m.ports.mapIdx fun k p => if mine.contains k then one p else p }
  mine.foldl (fun s p => moveFlows p s) s

/-- The mesh links of a die, both ways (R348, R353, R400): a cold start trains them; a warm one takes them up with the stored
parameters. -/
def trainLinks (die : Nat) (warm : Bool) (s : State) : State :=
  ((List.range 4).map fun d => 4 * die + d).foldl (fun s k =>
    if linkExists k then modLink k (fun l => { l with st := if warm then .up else .training, replays := 0 }) s else s) s

/-- Start step 3 (R400): where it finds other images than those of the last verified start, a warm start goes on cold. Which images it
finds, the spec leaves open (log entry 14). -/
def firmwareStep (die : Nat) (s : State) : State :=
  if Config.bit s.fresh then s
  else (s.modDie die fun d => { d with firmware := s.fresh, start := d.start.map fun x => { x with warm := false } }).bump

/-- What a start step does (R400, R403). -/
def startStep (die : Nat) (warm : Bool) (k : Nat) (s : State) : State :=
  if k = 2 then measureInto die 0 s
  else if k = 3 then measureInto die 2 (measureInto die 1 (firmwareStep die s))
  else if k = 5 then (if warm then s else s.modDie die fun d => { d with dram := [], bad := [], keeper := Die.init.keeper })
  else if k = 6 then trainLinks die warm s
  else if k = 7 then
    let s := if warm then s else (s.modDie die fun d => { d with stored := true, trained := s.fresh }).bump
    measureInto die 3 (trainPorts die warm s)
  else if k = 9 then
    let s := if warm then s else s.modDie die fun d => { d with retmap := storedMap die d.added, coldAdded := d.added }
    measureInto die 4 s
  else if k = 10 then
    let s := s.modDie die fun d => { d with time := max d.time (s.die 0).time }
    (purgeDie die s).modDie die fun d => { d with start := none, safe := false }
  else s

/-- Whether a start may be warm (R400): the die holds stored parameters, and their digest matches. Whether the digest still does, the
spec leaves open (log entry 14). -/
def warmStart (die : Nat) (s : State) : Bool := (s.die die).stored && Config.bit s.fresh

/-- DIE_START (R400, R401): a start begins, at its first step; each later event takes the next step. -/
def execDieStart (die : Nat) (warm : Bool) (s : State) : Outcome :=
  if 64 ≤ die then .next s
  else
    match (s.die die).start with
    | none =>
      let s := purgeDie die s
      .next (s.modDie die fun d => { d with start := some ⟨warm && warmStart die s, 1, 0⟩, mrs := List.replicate 8 zeroMr }).bump
    | some x =>
      let s := s.modDie die fun d => { d with start := some { x with step := x.step + 1, fails := 0 } }
      .next (startStep die x.warm x.step s)

/-- START_STEP_FAILURE (R401): the step a die is at fails; after four failures the die is in safe mode. -/
def execStartStepFailure (die : Nat) (s : State) : Outcome :=
  match (s.die die).start with
  | none => .next s
  | some x =>
    if x.fails + 1 < 4 then .next (s.modDie die fun d => { d with start := some { x with fails := x.fails + 1 } })
    else .next (s.modDie die fun d => { d with start := none, safe := true })

/-! ### The warm die reset (R398, R399, R406) -/

/-- Ends some contexts with one reason. -/
def endContexts (cs : List Nat) (reason : Nat) (why : Cause) (s : State) : State :=
  cs.foldl (fun s c => endContext c reason why s) s

/-- The contexts with a warp placed on a die and not saved (R398). -/
def placedOn (s : State) (die : Nat) : List Nat :=
  ((s.warps.filter fun w => w.2.die == die && !((w.2.block.map s.parked).getD false)).map fun w => w.2.ctx).dedup

/-- A core's arrival bits and release counts are no part of a checkpoint: they hold free values after a reset (R397). -/
def resetCore (seed k : Nat) (c : Core) : Core :=
  { c with
    arrived := (List.range 8).map fun ch => (Config.byte seed (64 * k + ch)).getLsbD 0
    counts := (List.range 8).map fun ch => natWord (leNat ((List.range 4).map fun i => Config.byte seed (64 * k + 8 + 4 * ch + i)))
    tableQ := [], copyQ := [], sfuQ := [], lines := [] }

/-- A snapshot after a warm reset resumes at its first unacknowledged page (R399): what was on its way is sent again. -/
def resumeSnap (x : Nat × Snapshot) : Nat × Snapshot := (x.1, { x.2 with flight := none })

/-- The logic of a die is reset: caches and tracker are empty. The checkpoint and the log rebuild the engines' state as it was (R397,
R398): the log holds all they have taken since, the outgoing messages their flows have delivered are discarded, and the others stand for
retransmission (log entry 14). -/
def resetLogic (die : Nat) (s : State) : State :=
  let s := s.modDie die fun d => { d with tlb := [], regions := [], edges := [], chains := [], opening := [], snaps := d.snaps.map resumeSnap }
  ((List.range 160).foldl (fun s' k => s'.modCore die k (resetCore s.fresh k)) s).bump

/-- The number a flow had at the checkpoint (R397); 0 for a flow that is newer. -/
def Keeper.startOf (k : Keeper) (flow : Nat) : Word :=
  (k.image.bind fun c => (c.flows.find? fun f => f.1 == flow).map Prod.snd).getD 0

/-- The log's outgoing messages, with how many of the same flow go before each since the checkpoint (R397). -/
def sentLog : List Logged → List Nat → List (Nat × Nat × Word × Word64)
  | [], _ => []
  | .sent flow seq h :: l, before => (flow, before.count flow, seq, h) :: sentLog l (flow :: before)
  | .taken .. :: l, before => sentLog l before

/-- Whether a replay's running hash at some logged number differs from the logged one (R399). What a replay sends again in place of the
payloads is a free value: the spec does not say when a replay errs. -/
def diverges (die : Nat) (s : State) : Bool :=
  let k := s.keeper die
  (sentLog k.log []).any fun (flow, n, seq, h) =>
    let bs := ((tgetD (s.die die).payloads flow []).take (n + 1)).flatten
    seq != k.startOf flow + BitVec.ofNat 32 n || hash64 (Config.replayed s.fresh bs) != h

/-- Replay divergence (R399). -/
def replayDivergence (die : Nat) (s : State) : State :=
  if diverges die s then
    let cs := (List.range 256).filter fun c => boundOn s c die
    (endContexts cs 0x07 (causeEngine die 0 0) (s.modDie die fun d => { d with safe := true })).bump
  else s.bump

/-- A warm reset of a die (R398). -/
def warmResetDie (die : Nat) (s : State) : State :=
  if 64 ≤ die || (s.die die).start.isSome then s
  else replayDivergence die (resetLogic die (endContexts (placedOn s die) 0x07 (causeEngine die 0 0) s))

/-- WARM_RESET (R398). -/
def execWarmReset (die : Nat) (s : State) : Outcome := .next (warmResetDie die s)

/-- SRAM_SOFT_ERROR (R406): an uncorrectable error in an SRAM that holds context state starts a warm reset. -/
def execSramSoftError (die : Nat) (s : State) : Outcome := .next (warmResetDie die s)

/-! ### Health and power (R405, R19) -/

/-- The limit of an indicator in ten-thousandths of its unit: 0-159 ring oscillators, 160-163 DRAM layers, 164
electromigration, then the fabric lanes of the die's ports (R405; log entry 11). -/
def wearLimit (die ind : Nat) (x0 : Int) : Int :=
  if ind < 160 then 108 * x0 else if ind < 164 then 0 else if ind = 164 then 100 * Config.fusedLimit die else 150000

/-- The wear index of a reading (R405); a limit that equals the value at manufacture gives no stated index. -/
def wearIndex (x x0 lim : Int) (free : Nat) : Nat :=
  let den := lim - 100 * x0
  if den = 0 then free % 1001
  else (max 0 (min 1000 (Int.fdiv (1000 * (100 * (x - x0))) den))).toNat

/-- The predicted end of life in days (R405). -/
def wearLife (w age : Nat) : Nat := if w = 0 then 65535 else min 65535 (age * (1000 - w) / w)

/-- The number of indicators of a die. -/
def indicators (die : Nat) : Nat := 165 + 8 * (portsOn die).length

/-- HEALTH_REFRESH (R405). -/
def execHealthRefresh (die ind : Nat) (reading : Int) (age : Nat) (s : State) : Outcome :=
  if die < 64 && ind < indicators die then
    let x0 := Config.manufacture die ind
    let lim := wearLimit die ind x0
    let w := wearIndex reading x0 lim (Config.choice s.fresh)
    .next ((s.modDie die fun d =>
      { d with health := tput d.health ind ⟨x0, lim, reading, age, w, wearLife w age⟩
               added := if ind < 160 && w == 1000 && !d.added.contains ind then d.added ++ [ind] else d.added }).bump)
  else .next s

/-- POWER_LIMIT (R19): the controller sets a die's matrix issue rate, in percent; no clock changes. -/
def execPowerLimit (die rate : Nat) (s : State) : Outcome :=
  if die < 64 then .next (s.modDie die fun d => { d with rate := min rate 100 }) else .next s

end Sys2Proof.Machine
end

