-- ==== Sys2Proof/Machine/Slice.lean ====
section
/-! DEFINITION. The slice (spec 02_clause R20-R28, 06_group R138-R141, 18_queue R309): clauses are fetched, bundles form, the
progress promise and the choice among warps decide what issues, a blocked bundle parks, and waiting actions go on. -/

namespace Sys2Proof.Machine

/-! ### Where a thread stands -/

/-- The fetched clause at a thread's program counter; a continuation keeps its clause's count (R25). -/
def fetchedFor (x : Warp) (pc : CodePt) : Option Fetched :=
  x.fetched.find? fun f => f.hdr == pc.hdr && (match pc.cont with
    | some c => f.words.length == c.count + 1
    | none => f.words.isEmpty || f.words.length == (decodeHeader f.header).count.toNat + 1)

/-- The checks 1 to 4 of R22, and that a header's address is a multiple of 8 (R20). -/
def headerBad (hdr : Nat) (h : Header) : Bool :=
  hdr % 8 != 0 || h.tag != 0b1100#4 || decide (8 ≤ h.cls.toNat) || h.zero != 0 ||
  decide (4096 < hdr % 4096 + 8 * (h.count.toNat + 2))

/-- The index of an enabled breakpoint that matches a header address (R315). -/
def breakAt (c : Context) (hdr : Nat) : Option Nat :=
  (List.range 4).find? fun k => let v := c.brk.getD k 0; v.getLsbD 0 && (v &&& ~~~(1 : Word64)).toNat == hdr

/-- The trap of R22 at a header, if any. -/
def headerTrap (x : Warp) (t : Thread) (hdr : Nat) (header : Word64) : Option Nat :=
  let h := decodeHeader header
  if headerBad hdr h then some 0x01
  else if h.cls == 6 && !superThread x t then some 0x08
  else none

/-- Whether a header's wait conditions hold (R23). -/
def waitsHold (s : State) (w : Nat) (x : Warp) (h : Header) : Bool :=
  (List.range 8).all (fun k => !h.wait.getLsbD k || (x.wregs.getD (56 + k) zeroReg).full) &&
  (!h.wsfu || !tany s.sfu fun _ o => o.warp == w) && (!h.wmem || (storesOf s w).isEmpty)

/-- Threads stand together: one address, or continuation point, and one mode (R139, R311). -/
def together (x : Warp) (a b : Thread) : Bool :=
  a.pc.hdr == b.pc.hdr && a.pc.cont == b.pc.cont && superThread x a == superThread x b

/-- A due thread (R141). -/
def Thread.due (t : Thread) : Bool := decide (32 ≤ t.count)

/-- The bundle that parked with a lane in it and may go on at its continuation clause (R138). -/
def parkOf (s : State) (w l : Nat) : Option (Nat × Parked) :=
  tfind s.parks fun _ p => p.warp == w && p.ready && p.iss.lanes.getLsbD l

/-- The lanes of a warp's parked bundles. -/
def parkedLanes (s : State) (w : Nat) : Lanes :=
  (s.parks.filter fun p => p.2.warp == w).foldl (fun m p => m ||| p.2.iss.lanes) 0

/-- Whether threads at a thread's header keep the bundle they arrived in (R24). -/
def holdsAt (x : Warp) (t : Thread) : Bool :=
  match fetchedFor x t.pc with
  | some f => bit 41 f.header
  | none => false

/-- The bundle of a READY thread (R139, R141): the bundle that parked with it, those that arrived with it at a continuation clause or at
a header with hold set, or every thread that stands with it. -/
def bundleOf (s : State) (w : Nat) (x : Warp) (l : Nat) (t : Thread) : Lanes :=
  match parkOf s w l with
  | some (_, p) => readyWith x (fun _ => true) &&& p.iss.lanes
  | none =>
    let free := ~~~ parkedLanes s w
    let mine := readyWith x (fun u => together x t u && u.group == t.group) &&& free
    let whole := readyWith x (together x t) &&& free
    if t.pc.cont.isSome then mine
    else if holdsAt x t && (readyWith x fun u => together x t u && u.due) &&& free == 0 then mine
    else whole

/-- Whether a READY thread's bundle may issue: its words are there and its waits hold, or its header traps (R22, R23, R28,
R315). -/
def issuable (s : State) (w : Nat) (x : Warp) (l : Nat) (t : Thread) : Bool :=
  if (parkOf s w l).isSome then true
  else if t.pc.cont.isSome then (fetchedFor x t.pc).isSome
  else if t.pc.hdr % 8 != 0 || (!t.pc.skipBrk && (breakAt (s.ctx x.ctx) t.pc.hdr).isSome) then true
  else match fetchedFor x t.pc with
    | none => false
    | some f => (headerTrap x t t.pc.hdr f.header).isSome || (!f.words.isEmpty && waitsHold s w x (decodeHeader f.header))

/-- Whether a warp may issue now (R166, R308, R319, R402). -/
def warpRuns (s : State) (x : Warp) : Bool :=
  let d := s.die x.die
  !x.stopped && !d.safe && d.start.isNone && ((s.share? x.share).map Share.loaded).getD false &&
  (match x.block.bind s.block? with
   | some b => b.st == .placed || b.st == .running || b.st == .shrinking
   | none => x.block.isNone)

/-! ### The choice of bundles (R140, R141) -/

/-- A bundle that may issue: its lanes, the highest count among them, and its header. -/
structure Choice where
  lanes : Lanes
  top   : Nat
  size  : Nat
  hdr   : Nat
deriving DecidableEq, Repr

def choiceOf (x : Warp) (m : Lanes) : Choice :=
  let ls := laneList x.width m
  let ts := ls.filterMap x.thread
  ⟨m, (ts.map Thread.count).foldl max 0, ls.length, ((ts.head?).map fun t => t.pc.hdr).getD 0⟩

/-- R141 for bundles that hold a due thread, R140 for the rest; two bundles at one header address that tie stand in the order of their
lowest lanes, which neither rule gives (log entry 47). -/
def Choice.before (a b : Choice) : Bool :=
  let da := decide (32 ≤ a.top)
  let db := decide (32 ≤ b.top)
  if da && db then decide (b.top < a.top) || (a.top == b.top && decide (a.hdr ≤ b.hdr))
  else if da != db then da
  else decide (b.size < a.size) || (a.size == b.size && decide (a.hdr ≤ b.hdr))

/-- The bundles of a warp that may issue, the one to issue first in front. -/
def choices (s : State) (w : Nat) (x : Warp) : List Choice :=
  if !warpRuns s x then []
  else
    let ms := (List.range x.width).filterMap fun l => match x.thread l with
      | some t => if t.st == .ready && issuable s w x l t then some (bundleOf s w x l t) else none
      | none => none
    (ms.dedup.map (choiceOf x)).insertionSort fun a b => a.before b

/-! ### The choice of a warp (R309) -/

/-- A warp's standing: when one of its ready bundles became READY, or its last yield. -/
def standingOf (x : Warp) (cs : List Choice) : Nat :=
  let ts := cs.flatMap fun c => (laneList x.width c.lanes).filterMap x.thread
  let first := match ts.map Thread.since with
    | [] => 0
    | a :: l => l.foldl min a
  max first (x.yielded.getD 0)

/-- A ready warp of a slice and its bundles. -/
structure Cand where
  w    : Nat
  warp : Warp
  cs   : List Choice
deriving DecidableEq, Repr

/-- The warps of a slice. -/
def sliceWarps (s : State) (die core slice : Nat) : List (Nat × Warp) :=
  (standing s die).filter fun y => y.2.core == core && y.2.slice == slice

def candidates (s : State) (die core slice : Nat) : List Cand :=
  ((sliceWarps s die core slice).map fun y => (⟨y.1, y.2, choices s y.1 y.2⟩ : Cand)).filter fun c => !c.cs.isEmpty

/-- Whether R309 prefers `a` to `b`. -/
def preferred (s : State) (a b : Cand) : Bool :=
  let oa := decide (32 ≤ a.warp.passed)
  let ob := decide (32 ≤ b.warp.passed)
  if oa && ob then decide (b.warp.passed < a.warp.passed) || (a.warp.passed == b.warp.passed && decide (a.warp.slot ≤ b.warp.slot))
  else if oa != ob then oa
  else
    let pa := prioOf s a.warp.kern
    let pb := prioOf s b.warp.kern
    let sa := standingOf a.warp a.cs
    let sb := standingOf b.warp b.cs
    decide (pb < pa) || (pa == pb && (decide (sa < sb) || (sa == sb && decide (a.warp.slot ≤ b.warp.slot))))

/-- The warp a slice selects. -/
def selected (s : State) (cs : List Cand) : Option Cand :=
  cs.foldl (fun acc c => match acc with
    | none => some c
    | some a => if preferred s a c then some a else some c) none

/-- Whether a slice's pipe is free (R140). -/
def pipeFree (s : State) (die core slice : Nat) (p : Pipe) : Bool :=
  (sliceWarps s die core slice).all fun y => (y.2.iss p).isNone

/-! ### Issue -/

/-- What a bundle runs once issued: its class, words and first word, whether it yields at its end. -/
def issueOf (t : Thread) (m : Lanes) (f : Fetched) : Issue :=
  let h := decodeHeader f.header
  let (cls, idx) : Nat × Nat := match t.pc.cont with
    | some c => (c.cls, c.idx)
    | none => (h.cls.toNat, 0)
  { lanes := m, hdr := f.hdr, cls := cls, words := f.words, idx := idx, blocked := false, grant := .none, after := none
    since := none, yld := h.yld }

/-- Threads of a bundle that a breakpoint takes (R315). -/
def breakLanes (x : Warp) (m : Lanes) : Lanes :=
  laneFilter x.width m fun l => ((x.thread l).map fun t => !t.pc.skipBrk && t.pc.cont.isNone).getD false

/-- A thread when a bundle of its warp issues on a pipe: one of the bundle becomes ISSUED, another that is READY counts the issue (R138,
R141). -/
def Thread.atIssue (p : Pipe) (mine : Bool) (t : Thread) : Thread :=
  if mine then { t with st := .issued, pipe := p, count := 0, pc := { t.pc with skipBrk := false } }
  else if t.st == .ready then { t with count := t.count + 1 } else t

/-- A bundle takes a pipe: its threads become ISSUED, and the warp's other READY threads count the issue (R138, R141). -/
def takePipe (w : Nat) (x : Warp) (m : Lanes) (i : Issue) (p : Pipe) (s : State) : State :=
  let s := s.modWarp w fun y => { y.setIss p (some i) with threads := y.threads.mapIdx fun l u => u.atIssue p (m.getLsbD l) }
  match x.block with
  | some b => s.modBlock b fun y => { y with st := if y.st = .placed then .running else y.st }
  | none => s

/-- One bundle issues on a pipe: a parked one goes on at its word; the threads of another trap at the header, or become ISSUED (R22,
R25, R138, R315). -/
def issueBundle (w : Nat) (c : Choice) (p : Pipe) (s : State) : State :=
  match s.warp? w with
  | none => s
  | some x =>
    match (lowestLane x.width c.lanes).bind fun l => (x.thread l).map fun t => (l, t) with
    | none => s
    | some (l, t) =>
      match parkOf s w l with
      | some (k, q) =>
        renameWait x.die x.core (k, .a) (w, p) (takePipe w x c.lanes { q.iss with lanes := c.lanes, blocked := false, since := some (s.die x.die).time } p
          { s with parks := tdel s.parks k })
      | none =>
        let at_ : WordAt := ⟨t.pc.hdr, 16, 0, 0⟩
        let brk := if t.pc.cont.isNone then breakAt (s.ctx x.ctx) t.pc.hdr else none
        match brk, breakLanes x c.lanes != 0 with
        | some k, true => trapLanes w (breakLanes x c.lanes) at_ 0x09 (fun _ => 0) (fun _ => natWord k) s
        | _, _ =>
          let f := fetchedFor x t.pc
          let bad := if t.pc.cont.isSome then none
            else if t.pc.hdr % 8 != 0 then some 0x01
            else f.bind fun f => headerTrap x t t.pc.hdr f.header
          match bad, f with
          | some cause, _ => trapLanes w c.lanes at_ cause (fun _ => 0) (fun _ => 0) s
          | none, none => s
          | none, some f => takePipe w x c.lanes (issueOf t c.lanes f) p s

/-- A fetched clause goes once no READY thread stands at its header. -/
def pruneFetched (w : Nat) (s : State) : State :=
  s.modWarp w fun x => { x with fetched := x.fetched.filter fun f => x.threads.any fun t => t.st == .ready && t.pc.hdr == f.hdr }

/-- The ready warps of a slice that were not chosen have been passed over once more; warps not ready begin anew (R309). -/
def notePassed (chosen : Nat) (cs : List Cand) (ws : List (Nat × Warp)) (s : State) : State :=
  ws.foldl (fun s y => s.modWarp y.1 fun x =>
    { x with passed := if y.1 != chosen && cs.any (fun c => c.w == y.1) then x.passed + 1 else 0 }) s

/-- CLAUSE_ISSUE (R23, R140, R141, R309): the slice of warp `w` fills its free pipes; `lane` lies in the bundle that issues
on `pipe`. With both pipes free the event names pipe A, and the warp's second bundle goes to pipe B at once. -/
def execClauseIssue (w lane : Nat) (pipe : Pipe) (s : State) : Outcome :=
  match s.warp? w with
  | none => .next s
  | some x =>
    let free := fun (p : Pipe) => pipeFree s x.die x.core x.slice p
    let both := free .a && free .b
    let cs := candidates s x.die x.core x.slice
    match selected s cs with
    | none => .next s
    | some c =>
      if c.w != w || !free pipe || (both && pipe == .b) then .next s
      else match c.cs with
        | [] => .next s
        | first :: rest =>
          if !first.lanes.getLsbD lane then .next s
          else
            let s := notePassed w cs (sliceWarps s x.die x.core x.slice) s
            let s := issueBundle w first pipe s
            .next (pruneFetched w (match both, rest with
              | true, second :: _ => issueBundle w second .b s
              | _, _ => s))

/-! ### Code fetch (R28) -/

/-- A failed code fetch, here or at a page's owner: logged with source 6, and the context ends with reason FETCH; a route that a FAILED
mesh link cuts is an error on a remote operation (R348). -/
def failFetch (w lane : Nat) (x : Warp) (a : Nat) (r : Ended Unit) (s : State) : State :=
  let end_ := fun (kind : Nat) => endContext x.ctx 0x06
    { causeThread s w lane 0 a with addr := a } (logViolation x.ctx a kind 6 x.die s)
  match r with
  | .fail 2 => end_ 2
  | .remote d 0 => remoteEnd x.ctx d a 0 s
  | .remote _ 4 => end_ 2
  | _ => end_ 1

/-- Stores a fetched clause. -/
def addFetched (w : Nat) (f : Fetched) (s : State) : State :=
  s.modWarp w fun x => { x with fetched := (x.fetched.filter fun g => g.hdr != f.hdr) ++ [f] }

/-- Reads `n` bytes of code, or none. -/
def readCode (h : Holder) (x : Warp) (a n : Nat) (s : State) : Fetch (List Byte) × State :=
  if n = 0 then (.ok [], s) else readBytes h x.ctx x.die a n s

/-- CODE_FETCH (R28): the header at a READY thread's program counter, and the words of its clause, are read; a read that must
wait leaves the bundle READY. -/
def execCodeFetch (w lane : Nat) (s : State) : Outcome :=
  match s.warp? w with
  | none => .next s
  | some x =>
    match x.thread lane with
    | none => .next s
    | some t =>
      let h : Holder := .fetch w lane
      let fail := fun (a : Nat) (r : Ended Unit) (s : State) => if r.waits then s else failFetch w lane x a r (dropAnswers h s)
      if !(t.st == .ready) || !warpRuns s x || t.pc.hdr % 8 != 0 || (fetchedFor x t.pc).isSome || (parkOf s w lane).isSome then .next s
      else match readCode h x t.pc.hdr 8 s with
        | (.error (a, r), s) => .next (fail a r s)
        | (.ok bs, s) =>
          let header : Word64 := BitVec.ofNat 64 (leNat bs)
          let n := match t.pc.cont with
            | some c => c.count + 1
            | none => if headerBad t.pc.hdr (decodeHeader header) then 0 else (decodeHeader header).count.toNat + 1
          match readCode h x (t.pc.hdr + 8) (8 * n) s with
          | (.error (a, r), s) => .next (fail a r s)
          | (.ok ws, s) =>
            let words := (List.range n).map fun k => BitVec.ofNat 64 (leNat ((ws.drop (8 * k)).take 8))
            .next (addFetched w ⟨t.pc.hdr, header, words⟩ (dropAnswers h s))

/-! ### Blocked bundles (R25, R138) -/

/-- BUNDLE_PARK (R25): a word that has held its pipe for 256 cycles parks its bundle. -/
def execBundlePark (w : Nat) (pipe : Pipe) (s : State) : Outcome :=
  match s.warp? w with
  | none => .next s
  | some x =>
    match x.iss pipe with
    | none => .next s
    | some i =>
      match i.blocked, i.since with
      | true, some t => if t + 256 * (s.die x.die).cycle ≤ (s.die x.die).time then .next (parkBundle w pipe s) else .next s
      | _, _ => .next s

/-- The pipe of the blocked bundle that a lane is in, when its word waits for registers. -/
def blockedPipe (x : Warp) (lane : Nat) : Option Pipe :=
  [Pipe.a, Pipe.b].find? fun p => match x.iss p with
    | some i => i.blocked && i.lanes.getLsbD lane && i.grant == .none && i.after.isNone
    | none => false

/-- The parked bundle a lane is in, when its word waits for no resource. -/
def blockedPark (s : State) (w lane : Nat) : Option Nat :=
  (tfind s.parks fun _ p => p.warp == w && !p.ready && p.iss.lanes.getLsbD lane && p.iss.grant == .none).map Prod.fst

/-- BLOCKED_REGISTER_FILL (R138): the word of a blocked bundle is tried again; it blocks anew while a register is empty. A bundle that has
parked is READY once its word would block no more (`retryParked`). -/
def execBlockedRegisterFill (w lane : Nat) (s : State) : Outcome :=
  match s.warp? w with
  | none => .next s
  | some x =>
    match blockedPipe x lane, blockedPark s w lane with
    | some p, _ => .next (s.modIss w p fun i => { i with blocked := false })
    | none, some k => .next { s with agenda := .retry k :: s.agenda }
    | none, none => .next s

/-! ### Waiting actions -/

/-- Whether an action is the junction's own work, which goes on while its block is saved (R376). -/
def ActKind.isJunction : ActKind → Bool
  | .tjopen _ _ _ => true
  | _ => false

/-- Tries a waiting engine action again; those of a PARKED block stand still (R318), but for the junction's (R376), and a publication of a block's buffer is made even
when the warp that asked for it has ended (R256). -/
def resumeAct (id : Nat) (s : State) : State :=
  match tget s.acts id with
  | none => s
  | some a =>
    match s.warp? a.warp, a.kind.publBlock with
    | none, none => { s with acts := tdel s.acts id }
    | none, some b => if (s.block? b).isNone then { s with acts := tdel s.acts id } else if s.parked b then s else stepBufAct id a s
    | some x, _ =>
      if (x.block.map s.parked).getD false && !a.kind.isJunction then s
      else match a.kind with
        | .phase pub ref => stepPhase id a pub ref s
        | .edge u o hdr idx cls count pub sent => stepEdge id a u o hdr idx cls count pub sent s
        | .arriveMask _ => stepArrival id a s
        | .arriveBar _ => stepArrival id a s
        | .arriveDie _ => stepArrival id a s
        | .bufd _ _ => stepBufAct id a s
        | .publ _ _ _ _ => stepBufAct id a s
        | .rpush _ _ => stepBufAct id a s
        | .cpyq _ _ => stepBufAct id a s
        | .enq addr queue v => stepEnq id a addr queue v s
        | .xsave _ _ => stepSys id a s
        | .snapm _ _ _ _ => stepSys id a s
        | .retire _ _ => stepSys id a s
        | .tjopen v args res => stepTjopen id a v args res s

/-- Whether the next stage of an action is a publication (R181, R194, R212, R236, R254). -/
def ActKind.publishes : ActKind → Bool
  | .phase pub _ => pub
  | .edge _ _ _ _ _ _ pub _ => pub
  | .arriveDie pub => pub
  | .publ _ _ _ swapped => !swapped
  | .rpush _ _ => true
  | _ => false

/-- PUBLICATION (R181): the publication a waiting word asked for is made, once the stores it waits for are acknowledged. -/
def execPublication (act : Nat) (s : State) : Outcome :=
  match tget s.acts act with
  | some a => if a.kind.publishes then .next (resumeAct act s) else .next s
  | none => .next s

/-! ### Words the map does not assign (R49, R59) -/

/-- Whether a word fails check 1 or 2 of R49 in a clause of class `cls`. -/
def unassignedIn (cls : Nat) (v : Word64) : Bool :=
  match decode v with
  | .error .unassigned => true
  | .error .header => true
  | _ => decide ((bits 60 4 v).toNat ≠ cls)

/-- UNASSIGNED_OPCODE (R49, R59): every thread of the bundle whose word has no assigned opcode, or another class than its
header, takes ILLEGAL-INSTRUCTION. -/
def execUnassignedOpcode (word : Word64) (s : State) : Outcome :=
  match s.bundle? with
  | none => .next s
  | some b =>
    if b.iss.words[b.iss.idx]? == some word && unassignedIn b.iss.cls word && !b.iss.blocked then
      .next (trapWord b b.iss.lanes 0x02 s)
    else .next s

end Sys2Proof.Machine
end

