-- ==== Sys2Proof/Machine/Dispatch.lean ====
section
/-! DEFINITION. The dispatch: one meaning for each constructor of Instr. -/

namespace Sys2Proof.Machine

def exec (i : Instr) (s : State) : Host.Outcome State Fault Refusal :=
  match i with
  | .nop o => Sys2Proof.Machine.execNop o s
  | .mov o => Sys2Proof.Machine.execMov o s
  | .movi o => Sys2Proof.Machine.execMovi o s
  | .movw o => Sys2Proof.Machine.execMovw o s
  | .wset o => Sys2Proof.Machine.execWset o s
  | .sread o => Sys2Proof.Machine.execSread o s
  | .pmovRp o => Sys2Proof.Machine.execPmovRp o s
  | .pmovPr o => Sys2Proof.Machine.execPmovPr o s
  | .pmovSave o => Sys2Proof.Machine.execPmovSave o s
  | .pmovLoad o => Sys2Proof.Machine.execPmovLoad o s
  | .pgate o => Sys2Proof.Machine.execPgate o s
  | .iadd o => Sys2Proof.Machine.execIadd o s
  | .iaddImm o => Sys2Proof.Machine.execIaddImm o s
  | .isub o => Sys2Proof.Machine.execIsub o s
  | .isubImm o => Sys2Proof.Machine.execIsubImm o s
  | .imul o => Sys2Proof.Machine.execImul o s
  | .imulImm o => Sys2Proof.Machine.execImulImm o s
  | .imulh o => Sys2Proof.Machine.execImulh o s
  | .imulhImm o => Sys2Proof.Machine.execImulhImm o s
  | .imin o => Sys2Proof.Machine.execImin o s
  | .iminImm o => Sys2Proof.Machine.execIminImm o s
  | .imax o => Sys2Proof.Machine.execImax o s
  | .imaxImm o => Sys2Proof.Machine.execImaxImm o s
  | .icmp o => Sys2Proof.Machine.execIcmp o s
  | .icmpImm o => Sys2Proof.Machine.execIcmpImm o s
  | .shl o => Sys2Proof.Machine.execShl o s
  | .shlImm o => Sys2Proof.Machine.execShlImm o s
  | .shr o => Sys2Proof.Machine.execShr o s
  | .shrImm o => Sys2Proof.Machine.execShrImm o s
  | .sar o => Sys2Proof.Machine.execSar o s
  | .sarImm o => Sys2Proof.Machine.execSarImm o s
  | .lgate o => Sys2Proof.Machine.execLgate o s
  | .imad o => Sys2Proof.Machine.execImad o s
  | .imadw o => Sys2Proof.Machine.execImadw o s
  | .iaddc o => Sys2Proof.Machine.execIaddc o s
  | .isel o => Sys2Proof.Machine.execIsel o s
  | .iabs o => Sys2Proof.Machine.execIabs o s
  | .ineg o => Sys2Proof.Machine.execIneg o s
  | .fshl o => Sys2Proof.Machine.execFshl o s
  | .fshr o => Sys2Proof.Machine.execFshr o s
  | .popc o => Sys2Proof.Machine.execPopc o s
  | .clz o => Sys2Proof.Machine.execClz o s
  | .brev o => Sys2Proof.Machine.execBrev o s
  | .bfx o => Sys2Proof.Machine.execBfx o s
  | .bfi o => Sys2Proof.Machine.execBfi o s
  | .lea o => Sys2Proof.Machine.execLea o s
  | .fadd o => Sys2Proof.Machine.execFadd o s
  | .faddImm o => Sys2Proof.Machine.execFaddImm o s
  | .fsub o => Sys2Proof.Machine.execFsub o s
  | .fsubImm o => Sys2Proof.Machine.execFsubImm o s
  | .fmul o => Sys2Proof.Machine.execFmul o s
  | .fmulImm o => Sys2Proof.Machine.execFmulImm o s
  | .fmin o => Sys2Proof.Machine.execFmin o s
  | .fminImm o => Sys2Proof.Machine.execFminImm o s
  | .fmax o => Sys2Proof.Machine.execFmax o s
  | .fmaxImm o => Sys2Proof.Machine.execFmaxImm o s
  | .fcmp o => Sys2Proof.Machine.execFcmp o s
  | .fcmpImm o => Sys2Proof.Machine.execFcmpImm o s
  | .ffma o => Sys2Proof.Machine.execFfma o s
  | .fabs o => Sys2Proof.Machine.execFabs o s
  | .fneg o => Sys2Proof.Machine.execFneg o s
  | .fclass o => Sys2Proof.Machine.execFclass o s
  | .frnd o => Sys2Proof.Machine.execFrnd o s
  | .fmaxa o => Sys2Proof.Machine.execFmaxa o s
  | .hadd2 o => Sys2Proof.Machine.execHadd2 o s
  | .hmul2 o => Sys2Proof.Machine.execHmul2 o s
  | .hfma2 o => Sys2Proof.Machine.execHfma2 o s
  | .hmax2 o => Sys2Proof.Machine.execHmax2 o s
  | .cvt o => Sys2Proof.Machine.execCvt o s
  | .f8cv o => Sys2Proof.Machine.execF8cv o s
  | .f8up o => Sys2Proof.Machine.execF8up o s
  | .lshuf o => Sys2Proof.Machine.execLshuf o s
  | .lxor o => Sys2Proof.Machine.execLxor o s
  | .lrotw o => Sys2Proof.Machine.execLrotw o s
  | .lred o => Sys2Proof.Machine.execLred o s
  | .lscan o => Sys2Proof.Machine.execLscan o s
  | .ballot o => Sys2Proof.Machine.execBallot o s
  | .matchKey o => Sys2Proof.Machine.execMatchKey o s
  | .matchn o => Sys2Proof.Machine.execMatchn o s
  | .tbl o => Sys2Proof.Machine.execTbl o s
  | .elect o => Sys2Proof.Machine.execElect o s
  | .bra o => Sys2Proof.Machine.execBra o s
  | .jmp o => Sys2Proof.Machine.execJmp o s
  | .call o => Sys2Proof.Machine.execCall o s
  | .ret o => Sys2Proof.Machine.execRet o s
  | .exit o => Sys2Proof.Machine.execExit o s
  | .trap o => Sys2Proof.Machine.execTrap o s
  | .rcp o => Sys2Proof.Machine.execRcp o s
  | .rsq o => Sys2Proof.Machine.execRsq o s
  | .sqrt o => Sys2Proof.Machine.execSqrt o s
  | .div o => Sys2Proof.Machine.execDiv o s
  | .exp2 o => Sys2Proof.Machine.execExp2 o s
  | .log2 o => Sys2Proof.Machine.execLog2 o s
  | .sinp o => Sys2Proof.Machine.execSinp o s
  | .cosp o => Sys2Proof.Machine.execCosp o s
  | .tanh o => Sys2Proof.Machine.execTanh o s
  | .sigm o => Sys2Proof.Machine.execSigm o s
  | .idiv o => Sys2Proof.Machine.execIdiv o s
  | .irem o => Sys2Proof.Machine.execIrem o s
  | .ldb o => Sys2Proof.Machine.execLdb o s
  | .stb o => Sys2Proof.Machine.execStb o s
  | .ldd o => Sys2Proof.Machine.execLdd o s
  | .std o => Sys2Proof.Machine.execStd o s
  | .ldk o => Sys2Proof.Machine.execLdk o s
  | .stk o => Sys2Proof.Machine.execStk o s
  | .atom o => Sys2Proof.Machine.execAtom o s
  | .red o => Sys2Proof.Machine.execRed o s
  | .waitv o => Sys2Proof.Machine.execWaitv o s
  | .note o => Sys2Proof.Machine.execNote o s
  | .phase o => Sys2Proof.Machine.execPhase o s
  | .fence o => Sys2Proof.Machine.execFence o s
  | .regb o => Sys2Proof.Machine.execRegb o s
  | .rege o => Sys2Proof.Machine.execRege o s
  | .regx o => Sys2Proof.Machine.execRegx o s
  | .regq o => Sys2Proof.Machine.execRegq o s
  | .fltm o => Sys2Proof.Machine.execFltm o s
  | .fltmClr o => Sys2Proof.Machine.execFltmClr o s
  | .cpyin o => Sys2Proof.Machine.execCpyin o s
  | .cpyout o => Sys2Proof.Machine.execCpyout o s
  | .cpyg o => Sys2Proof.Machine.execCpyg o s
  | .cpys o => Sys2Proof.Machine.execCpys o s
  | .cpyd o => Sys2Proof.Machine.execCpyd o s
  | .cpyf o => Sys2Proof.Machine.execCpyf o s
  | .cpyfFar o => Sys2Proof.Machine.execCpyfFar o s
  | .stageMax o => Sys2Proof.Machine.execStageMax o s
  | .stageAdd o => Sys2Proof.Machine.execStageAdd o s
  | .publ o => Sys2Proof.Machine.execPubl o s
  | .rpush o => Sys2Proof.Machine.execRpush o s
  | .rpop o => Sys2Proof.Machine.execRpop o s
  | .rwaitC o => Sys2Proof.Machine.execRwaitC o s
  | .rwaitP o => Sys2Proof.Machine.execRwaitP o s
  | .cpyq o => Sys2Proof.Machine.execCpyq o s
  | .pfch o => Sys2Proof.Machine.execPfch o s
  | .evict o => Sys2Proof.Machine.execEvict o s
  | .bufd o => Sys2Proof.Machine.execBufd o s
  | .cload o => Sys2Proof.Machine.execCload o s
  | .crun o => Sys2Proof.Machine.execCrun o s
  | .carm o => Sys2Proof.Machine.execCarm o s
  | .cstepQ o => Sys2Proof.Machine.execCstepQ o s
  | .cstepWait o => Sys2Proof.Machine.execCstepWait o s
  | .mma o => Sys2Proof.Machine.execMma o s
  | .mmaKeep o => Sys2Proof.Machine.execMmaKeep o s
  | .mclr o => Sys2Proof.Machine.execMclr o s
  | .mldt o => Sys2Proof.Machine.execMldt o s
  | .mmovr o => Sys2Proof.Machine.execMmovr o s
  | .mmovw o => Sys2Proof.Machine.execMmovw o s
  | .mqry o => Sys2Proof.Machine.execMqry o s
  | .mdrain o => Sys2Proof.Machine.execMdrain o s
  | .mdrainAdd o => Sys2Proof.Machine.execMdrainAdd o s
  | .mdrainUpd o => Sys2Proof.Machine.execMdrainUpd o s
  | .qdual o => Sys2Proof.Machine.execQdual o s
  | .rqnt o => Sys2Proof.Machine.execRqnt o s
  | .mjoin o => Sys2Proof.Machine.execMjoin o s
  | .mleave o => Sys2Proof.Machine.execMleave o s
  | .mwait o => Sys2Proof.Machine.execMwait o s
  | .mset o => Sys2Proof.Machine.execMset o s
  | .mget o => Sys2Proof.Machine.execMget o s
  | .barb o => Sys2Proof.Machine.execBarb o s
  | .bara o => Sys2Proof.Machine.execBara o s
  | .barw o => Sys2Proof.Machine.execBarw o s
  | .bard o => Sys2Proof.Machine.execBard o s
  | .treea o => Sys2Proof.Machine.execTreea o s
  | .treew o => Sys2Proof.Machine.execTreew o s
  | .attach o => Sys2Proof.Machine.execAttach o s
  | .detach o => Sys2Proof.Machine.execDetach o s
  | .yieldStanding o => Sys2Proof.Machine.execYieldStanding o s
  | .sleep o => Sys2Proof.Machine.execSleep o s
  | .sleepUntil o => Sys2Proof.Machine.execSleepUntil o s
  | .enq o => Sys2Proof.Machine.execEnq o s
  | .csrr o => Sys2Proof.Machine.execCsrr o s
  | .csrw o => Sys2Proof.Machine.execCsrw o s
  | .tret o => Sys2Proof.Machine.execTret o s
  | .xsave o => Sys2Proof.Machine.execXsave o s
  | .xload o => Sys2Proof.Machine.execXload o s
  | .tlbi o => Sys2Proof.Machine.execTlbi o s
  | .tlbiPage o => Sys2Proof.Machine.execTlbiPage o s
  | .pgset o => Sys2Proof.Machine.execPgset o s
  | .ctxend o => Sys2Proof.Machine.execCtxend o s
  | .halt o => Sys2Proof.Machine.execHalt o s
  | .retire o => Sys2Proof.Machine.execRetire o s
  | .snapm o => Sys2Proof.Machine.execSnapm o s
  | .logrAddr o => Sys2Proof.Machine.execLogrAddr o s
  | .logrInfo o => Sys2Proof.Machine.execLogrInfo o s
  | .logrCount o => Sys2Proof.Machine.execLogrCount o s
  | .logrClr o => Sys2Proof.Machine.execLogrClr o s
  | .tjopen o => Sys2Proof.Machine.execTjopen o s
  | .tjstep o => Sys2Proof.Machine.execTjstep o s
  | .tjend o => Sys2Proof.Machine.execTjend o s
  | .tjendFree o => Sys2Proof.Machine.execTjendFree o s
  | .tjrew o => Sys2Proof.Machine.execTjrew o s
  | .tjtake o => Sys2Proof.Machine.execTjtake o s
  | .tjtakeTry o => Sys2Proof.Machine.execTjtakeTry o s
  | .tjtakeDepth o => Sys2Proof.Machine.execTjtakeDepth o s
  | .tjtakeStat o => Sys2Proof.Machine.execTjtakeStat o s
  | .tjset o => Sys2Proof.Machine.execTjset o s
  | .clauseIssue w lane pipe => Sys2Proof.Machine.execClauseIssue w lane pipe s
  | .bundlePark w pipe => Sys2Proof.Machine.execBundlePark w pipe s
  | .blockedRegisterFill w lane => Sys2Proof.Machine.execBlockedRegisterFill w lane s
  | .codeFetch w lane => Sys2Proof.Machine.execCodeFetch w lane s
  | .compactorMove w base => Sys2Proof.Machine.execCompactorMove w base s
  | .sfuQueueGrant die core slice => Sys2Proof.Machine.execSfuQueueGrant die core slice s
  | .sfuResult op => Sys2Proof.Machine.execSfuResult op s
  | .tableEntryGrant die core => Sys2Proof.Machine.execTableEntryGrant die core s
  | .loadReturn op land => Sys2Proof.Machine.execLoadReturn op land s
  | .storeAck op => Sys2Proof.Machine.execStoreAck op s
  | .portOperation op unit => Sys2Proof.Machine.execPortOperation op unit s
  | .atomicReturn op => Sys2Proof.Machine.execAtomicReturn op s
  | .waiterPlaceFree op => Sys2Proof.Machine.execWaiterPlaceFree op s
  | .waitvTimeout op => Sys2Proof.Machine.execWaitvTimeout op s
  | .sleepRelease w => Sys2Proof.Machine.execSleepRelease w s
  | .fenceComplete w pipe => Sys2Proof.Machine.execFenceComplete w pipe s
  | .publication act => Sys2Proof.Machine.execPublication act s
  | .treeRelease ch die core => Sys2Proof.Machine.execTreeRelease ch die core s
  | .treeCfgWrite ch val => Sys2Proof.Machine.execTreeCfgWrite ch val s
  | .regionOpen w => Sys2Proof.Machine.execRegionOpen w s
  | .regionAccessRetry op => Sys2Proof.Machine.execRegionAccessRetry op s
  | .regionCommit w => Sys2Proof.Machine.execRegionCommit w s
  | .mmaFire top => Sys2Proof.Machine.execMmaFire top s
  | .tileOperationPerform top => Sys2Proof.Machine.execTileOperationPerform top s
  | .tileUpdatePerform top => Sys2Proof.Machine.execTileUpdatePerform top s
  | .copyQueueAccept die core => Sys2Proof.Machine.execCopyQueueAccept die core s
  | .copyFire copy => Sys2Proof.Machine.execCopyFire copy s
  | .copyComplete copy unit => Sys2Proof.Machine.execCopyComplete copy unit s
  | .rwaitFill wait => Sys2Proof.Machine.execRwaitFill wait s
  | .scheduleFiring block => Sys2Proof.Machine.execScheduleFiring block s
  | .blockPlacement share core => Sys2Proof.Machine.execBlockPlacement share core s
  | .placementWaitExpiry share => Sys2Proof.Machine.execPlacementWaitExpiry share s
  | .spareWarpStart share core slot => Sys2Proof.Machine.execSpareWarpStart share core slot s
  | .shrinkRequest block k => Sys2Proof.Machine.execShrinkRequest block k s
  | .shrinkCancel block => Sys2Proof.Machine.execShrinkCancel block s
  | .preemption block => Sys2Proof.Machine.execPreemption block s
  | .blockSave block => Sys2Proof.Machine.execBlockSave block s
  | .blockRestore block core => Sys2Proof.Machine.execBlockRestore block core s
  | .blockEnd block => Sys2Proof.Machine.execBlockEnd block s
  | .kernelDone k => Sys2Proof.Machine.execKernelDone k s
  | .queueEntryTake q => Sys2Proof.Machine.execQueueEntryTake q s
  | .dependenceCheck k => Sys2Proof.Machine.execDependenceCheck k s
  | .queueLevelRaise q => Sys2Proof.Machine.execQueueLevelRaise q s
  | .queueDoorbell q wp => Sys2Proof.Machine.execQueueDoorbell q wp s
  | .queueEnable q ctl => Sys2Proof.Machine.execQueueEnable q ctl s
  | .queueDisable q => Sys2Proof.Machine.execQueueDisable q s
  | .queueSuspend q => Sys2Proof.Machine.execQueueSuspend q s
  | .queueResume q => Sys2Proof.Machine.execQueueResume q s
  | .registerWrite die ctx idx val => Sys2Proof.Machine.execRegisterWrite die ctx idx val s
  | .contextBind ctx => Sys2Proof.Machine.execContextBind ctx s
  | .contextFree ctx => Sys2Proof.Machine.execContextFree ctx s
  | .errqDropClear => Sys2Proof.Machine.execErrqDropClear s
  | .hostContextEnd ctx => Sys2Proof.Machine.execHostContextEnd ctx s
  | .contextEnded ctx => Sys2Proof.Machine.execContextEnded ctx s
  | .errorRingRetry => Sys2Proof.Machine.execErrorRingRetry s
  | .stripeRequest die gather member => Sys2Proof.Machine.execStripeRequest die gather member s
  | .gatherReply die gather member => Sys2Proof.Machine.execGatherReply die gather member s
  | .gatherTimeout die gather member => Sys2Proof.Machine.execGatherTimeout die gather member s
  | .reduceContribution die red send => Sys2Proof.Machine.execReduceContribution die red send s
  | .reduceDone die red src => Sys2Proof.Machine.execReduceDone die red src s
  | .reduceSendTimeout die red send => Sys2Proof.Machine.execReduceSendTimeout die red send s
  | .reducingTimeout die red => Sys2Proof.Machine.execReducingTimeout die red s
  | .migrationHandover die mig => Sys2Proof.Machine.execMigrationHandover die mig s
  | .mode1Fill die fill => Sys2Proof.Machine.execMode1Fill die fill s
  | .meshFlitReceive link cls ok => Sys2Proof.Machine.execMeshFlitReceive link cls ok s
  | .frameReceive port f => Sys2Proof.Machine.execFrameReceive port f s
  | .ackReceive port f => Sys2Proof.Machine.execAckReceive port f s
  | .retransmitTimeout flow seq => Sys2Proof.Machine.execRetransmitTimeout flow seq s
  | .portTrainingEnd port lanes => Sys2Proof.Machine.execPortTrainingEnd port lanes s
  | .laneLost port => Sys2Proof.Machine.execLaneLost port s
  | .portEnable port => Sys2Proof.Machine.execPortEnable port s
  | .portDisable port => Sys2Proof.Machine.execPortDisable port s
  | .cxlMemAccess addr len wr => Sys2Proof.Machine.execCxlMemAccess addr len wr s
  | .hostTimeout req => Sys2Proof.Machine.execHostTimeout req s
  | .timeSync die ref => Sys2Proof.Machine.execTimeSync die ref s
  | .graphLoadAtPlacement share => Sys2Proof.Machine.execGraphLoadAtPlacement share s
  | .carmStart share slot => Sys2Proof.Machine.execCarmStart share slot s
  | .chunkOffer chunk => Sys2Proof.Machine.execChunkOffer chunk s
  | .nodeComplete run node => Sys2Proof.Machine.execNodeComplete run node s
  | .runComplete run => Sys2Proof.Machine.execRunComplete run s
  | .rewardMessage die msg => Sys2Proof.Machine.execRewardMessage die msg s
  | .joinDeadline die entry => Sys2Proof.Machine.execJoinDeadline die entry s
  | .orphanExpiry die orphan => Sys2Proof.Machine.execOrphanExpiry die orphan s
  | .turntableScan die entry => Sys2Proof.Machine.execTurntableScan die entry s
  | .episodeRelease die entry => Sys2Proof.Machine.execEpisodeRelease die entry s
  | .tjtakePop wait => Sys2Proof.Machine.execTjtakePop wait s
  | .cut die ctx => Sys2Proof.Machine.execCut die ctx s
  | .pageDrainAck die ctx page => Sys2Proof.Machine.execPageDrainAck die ctx page s
  | .warmReset die => Sys2Proof.Machine.execWarmReset die s
  | .dieStart die warm => Sys2Proof.Machine.execDieStart die warm s
  | .startStepFailure die => Sys2Proof.Machine.execStartStepFailure die s
  | .attestationRequest die nonce => Sys2Proof.Machine.execAttestationRequest die nonce s
  | .healthRefresh die ind reading age => Sys2Proof.Machine.execHealthRefresh die ind reading age s
  | .sramSoftError die => Sys2Proof.Machine.execSramSoftError die s
  | .powerLimit die rate => Sys2Proof.Machine.execPowerLimit die rate s
  | .unassignedOpcode word => Sys2Proof.Machine.execUnassignedOpcode word s
  | .reduceSendAcknowledgement die red send => Sys2Proof.Machine.execReduceSendAcknowledgement die red send s
  | .migrationHandoverReply die mig => Sys2Proof.Machine.execMigrationHandoverReply die mig s
  | .errorRingWriteFailure => Sys2Proof.Machine.execErrorRingWriteFailure s
  | .measurementRegisterExtension die k digest => Sys2Proof.Machine.execMeasurementRegisterExtension die k digest s

end Sys2Proof.Machine
end

