-- ==== Sys2Proof/Machine/Fetch.lean ====
section
/-! DEFINITION. What a step does (log entry 5): the next word of an issued bundle (spec 02_clause R25, R49), the next
happening of the agenda, or, where the state fixes no order, one of the happenings the state names; and time, whose limits
expire as cycles pass (00_scope R3). -/

namespace Sys2Proof.Machine

/-! ### The next word of a bundle -/

/-- Whether a bundle may execute its next word: it is not blocked, and its die runs (R25, R402). -/
def Bundle.runs (s : State) (b : Bundle) : Bool :=
  !b.iss.blocked && b.iss.lanes != 0 && !(s.die b.warp.die).safe && (s.die b.warp.die).start.isNone

/-- The current bundle executes its next word (R25, R49): a bundle with a lane whose region access the level limit stalls
blocks (R221). -/
def nextWord (b : Bundle) (s : State) : Outcome :=
  if (b.iss.lanes &&& stalledLanes s b.w) != 0 then .next (blockWord b s)
  else match b.iss.words[b.iss.idx]? with
    | none => .next (finishWord b s)
    | some v =>
      if unassignedIn b.iss.cls v then execUnassignedOpcode v s
      else match decode v with
        | .ok i => exec i s
        | .error _ => .next (trapWord b b.iss.lanes 0x02 s)

/-- A bundle that may run, if the pipe holds one. -/
def bundleAt (s : State) (w : Nat) (p : Pipe) : Option Bundle :=
  (({ s with cur := some (w, p) } : State).bundle?).filter (Bundle.runs s)

/-- Lanes of a bundle that an abort has sent to another place (R225). -/
def redirected (b : Bundle) : Lanes :=
  laneFilter b.warp.width b.iss.lanes fun l => ((b.warp.thread l).map fun t => t.redirect.isSome).getD false

/-- Redirected threads leave their bundle between two of its words (R225); a pipe no thread is left on is free. -/
def leaveBundle (w : Nat) (p : Pipe) (s : State) : State :=
  (takeRedirects w p s).modWarp w fun x => x.setIss p ((x.iss p).filter fun i => i.lanes != 0)

/-- The bundle on a pipe executes its next word; nothing happens when it may not. -/
def runPipe (w : Nat) (p : Pipe) (s : State) : Outcome :=
  match bundleAt s w p with
  | some b => if b.iss.since.isNone && redirected b != 0 then .next (leaveBundle w p s) else nextWord b { s with cur := some (w, p) }
  | none => .next s

/-- The word of a parked bundle is tried, as if its bundle stood on a pipe (R138): while it would block, the bundle stays parked, and
what the word has asked an engine for goes on; else its threads are READY at the continuation clause. -/
def retryParked (id : Nat) (s : State) : Outcome :=
  match tget s.parks id with
  | none => .next s
  | some p =>
    match s.warp? p.warp with
    | none => .next s
    | some x =>
      if p.ready || p.iss.grant != .none || !warpRuns s x then .next s
      else
        let t := { s.setWarp p.warp (x.setIss .a (some { p.iss with blocked := false })) with cur := some (p.warp, .a) }
        match bundleAt t p.warp .a with
        | none => .next s
        | some b => match nextWord b t with
          | .next t => match (t.warp? p.warp).bind fun y => y.iss .a with
            | some i =>
              if i.blocked && i.grant == .none && i.idx == p.iss.idx && i.lanes == p.iss.lanes then
                .next { t.modWarp p.warp fun y => y.setIss .a x.issA with
                        cur := s.cur, parks := tput t.parks id { p with iss := { i with since := none } } }
              else .next (fillParked id s)
            | none => .next (fillParked id s)
          | _ => .next (fillParked id s)

/-! ### Time (R3, R356) -/

/-- Every die's clock advances one of its cycles. -/
def tick (s : State) : State :=
  { s with dies := (List.range 64).foldl (fun ds d =>
      let x := tgetD ds d Die.init
      tput ds d { x with time := x.time + x.cycle, cycles := x.cycles + 1 }) s.dies }

/-- The expiries of a die's engines. -/
def dieExpiries (s : State) (d : Nat) (x : Die) : List (State → Outcome) :=
  (x.gathers.flatMap fun g => g.2.reqs.map fun r => (execGatherTimeout d g.1 r.1)) ++
  (x.reds.flatMap fun r => (execReducingTimeout d r.1) :: (List.range r.2.sends.length).map fun k => (execReduceSendTimeout d r.1 k)) ++
  ((x.migs.filter fun m => decide (m.2.at_ + s.peerTmo m.2.ctx ≤ x.time)).map fun m => (execMigrationHandover d m.1)) ++
  (x.episodes.map fun e => (execJoinDeadline d e.1)) ++
  (x.orphans.map fun o => (execOrphanExpiry d o.1))

/-- Whether a µs of module time begins in this cycle: WAITING kernels are checked every 1 µs (R303), and at any instant between. -/
def checkDue (s : State) : Bool := decide ((s.die 0).time % (1000 * unitsPerNs) < (s.die 0).cycle)

/-- Every time limit a state holds, to be taken where it has passed: each expires in the first cycle whose start lies at or after it
(R3). -/
def expiries (s : State) : List (State → Outcome) :=
  (s.ops.map fun o => (execWaitvTimeout o.1)) ++
  (s.warps.flatMap fun x => [(execSleepRelease x.1), (execBundlePark x.1 .a), (execBundlePark x.1 .b)]) ++
  (s.dies.flatMap fun d => dieExpiries s d.1 d.2) ++
  (s.mod.hostReqs.map fun r => (execHostTimeout r.1)) ++
  (s.mod.flows.flatMap fun f => f.2.unacked.map fun u => (execRetransmitTimeout f.1 u.seq)) ++
  (s.queues.map fun q => (execQueueLevelRaise q.1)) ++
  (s.shares.map fun h => (execPlacementWaitExpiry h.1)) ++
  (s.blocks.map fun b => (execShrinkCancel b.1)) ++
  (s.shares.flatMap fun h => h.2.armed.map fun a => (execCarmStart h.1 a.1)) ++
  (if checkDue s then ((waitingKernels s fun _ => true).take 1).map fun k => (execDependenceCheck k) else []) ++ [execErrorRingRetry]

/-- The state a happening leaves. -/
def settled (f : State → Outcome) (s : State) : State :=
  match f s with
  | .next t => t
  | _ => s

/-- One cycle passes: what expires in it has done so before it is over, and the next cycle is another instant. -/
def cycleOver (s : State) : State :=
  let t := tick ((expiries s).foldl (fun s f => settled f s) s)
  { t with instant := t.instant + 1 }

/-- `n` cycles pass. -/
def advance : Nat → State → State
  | 0, s => s
  | n + 1, s => advance n (cycleOver s)

/-! ### The agenda -/

/-- What waited for an access of its own goes on: a host access (R355), or an engine action. -/
def resumeAny (id : Nat) (s : State) : State :=
  if (tget s.mod.accesses id).isSome then resumeHost id s else resumeAct id s

/-- One happening of the agenda. A word of a bundle runs only where a bundle has issued it. -/
def runItem (a : Act) (s : State) : Outcome :=
  match a with
  | .word w p => runPipe w p s
  | .resume id => .next (resumeAny id s)
  | .retry park => retryParked park s
  | .event i => if (i.info 1).isNone then exec i s else .next s
  | .control c => .next (control c s)
  | .tick n => .next (advance n s)

/-! ### The happenings a state names -/

/-- Happenings of the warps: fetch, issue, parking, waits and regions. -/
def warpActs (s : State) : List (State → Outcome) :=
  s.warps.flatMap fun x =>
    ((List.range x.2.width).flatMap fun l =>
      [(execCodeFetch x.1 l), (execClauseIssue x.1 l .a), (execClauseIssue x.1 l .b),
       (execBlockedRegisterFill x.1 l)]) ++
    [(execBundlePark x.1 .a), (execBundlePark x.1 .b), (execFenceComplete x.1 .a), (execFenceComplete x.1 .b),
     (execSleepRelease x.1), (execRegionOpen x.1), (execRegionCommit x.1),
     (execSfuQueueGrant x.2.die x.2.core x.2.slice), (execTableEntryGrant x.2.die x.2.core),
     (execCopyQueueAccept x.2.die x.2.core), (execCompactorMove x.1 (8 * (Config.choice (s.fresh + 1) % 16384)))]

/-- Happenings of operations in flight. -/
def opActs (s : State) : List (State → Outcome) :=
  (s.ops.flatMap fun o =>
    [(execLoadReturn o.1 false), (execLoadReturn o.1 true), (execStoreAck o.1), (execPortOperation o.1 0),
     (execAtomicReturn o.1), (execWaiterPlaceFree o.1), (execWaitvTimeout o.1), (execRegionAccessRetry o.1)]) ++
  (s.sfu.map fun o => (execSfuResult o.1)) ++
  (s.acts.flatMap fun a => [(fun s => .next (resumeAct a.1 s)), (execPublication a.1)]) ++
  (s.tops.flatMap fun t =>
    [(execMmaFire t.1), (execTileOperationPerform t.1), (execTileUpdatePerform t.1),
     (execPortOperation t.1 (Config.choice (s.fresh + 1) % 1024))]) ++
  (s.copies.flatMap fun c => [(execCopyFire c.1), (execCopyComplete c.1 none),
     (execCopyComplete c.1 (some (Config.choice (s.fresh + 1) % (c.2.moves.length + 1))))]) ++
  (s.rwaits.map fun r => (execRwaitFill r.1)) ++ s.parks.map fun p => (retryParked p.1)

/-- Happenings of the dispatchers: blocks, die shares, kernels, queues and contexts. -/
def dispatchActs (s : State) : List (State → Outcome) :=
  let n := Config.choice (s.fresh + 1)
  let m := Config.choice (s.fresh + 2)
  (s.blocks.flatMap fun b =>
    [(execScheduleFiring b.1), (execShrinkRequest b.1 (n % 33)), (execShrinkCancel b.1), (execPreemption b.1),
     (execBlockSave b.1), (execBlockRestore b.1 (n % 160)), (execBlockEnd b.1)]) ++
  (s.shares.flatMap fun h =>
    [(execBlockPlacement h.1 (n % 160)), (execPlacementWaitExpiry h.1), (execSpareWarpStart h.1 (n % 160) (m % 64)),
     (execGraphLoadAtPlacement h.1), (execCarmStart h.1 (n % 8))]) ++
  (s.kernels.flatMap fun k => [(execKernelDone k.1), (execDependenceCheck k.1)]) ++
  (s.queues.flatMap fun q => [(execQueueEntryTake q.1), (execQueueLevelRaise q.1)]) ++
  (s.ctxs.map fun c => (execContextEnded c.1)) ++ [execErrorRingRetry]

/-- Happenings of a die's engines. -/
def dieActs (s : State) : List (State → Outcome) :=
  s.dies.flatMap fun d =>
    (d.2.gathers.flatMap fun g => g.2.reqs.flatMap fun r =>
      [(execStripeRequest d.1 g.1 r.1), (execGatherReply d.1 g.1 r.1), (execGatherTimeout d.1 g.1 r.1)]) ++
    (d.2.reds.flatMap fun r => (execReducingTimeout d.1 r.1) ::
      ((r.2.sends.zipIdx.flatMap fun x =>
        [(execReduceContribution d.1 r.1 x.2), (execReduceSendAcknowledgement d.1 r.1 x.2),
         (execReduceSendTimeout d.1 r.1 x.2)]) ++ r.2.coming.map fun k => (execReduceDone d.1 r.1 k))) ++
    (d.2.migs.flatMap fun m => [(execMigrationHandover d.1 m.1), (execMigrationHandoverReply d.1 m.1)]) ++
    (d.2.fills.map fun f => (execMode1Fill d.1 f.1)) ++
    (d.2.episodes.flatMap fun e =>
      [(execJoinDeadline d.1 e.1), (execTurntableScan d.1 e.1), (execEpisodeRelease d.1 e.1)]) ++
    (d.2.orphans.map fun o => (execOrphanExpiry d.1 o.1)) ++
    (d.2.takes.map fun t => (execTjtakePop t.1)) ++
    ((pendingRewards s d.1).map fun m => (execRewardTurn d.1 m.1)) ++
    d.2.snaps.flatMap fun c => (execCut d.1 c.1) :: c.2.todo.map fun p => (execPageDrainAck d.1 c.1 p.2)

/-- Happenings of links, collectives and the AND tree. -/
def linkActs (s : State) : List (State → Outcome) :=
  (s.mod.transfers.flatMap fun t => (List.range 4).map fun k => (execMeshFlitReceive (4 * t.2.at_ + k) t.2.cls true)) ++
  (s.mod.flows.flatMap fun f => f.2.unacked.map fun u => (execRetransmitTimeout f.1 u.seq)) ++
  (s.mod.hostReqs.map fun r => (execHostTimeout r.1)) ++
  (s.mod.accesses.map fun x => (fun s => .next (resumeHost x.1 s))) ++
  (s.runs.flatMap fun r => (execRunComplete r.1) ::
    (List.range r.2.graph.nodes.length).map fun k => (execNodeComplete r.1 k)) ++
  (s.chunks.map fun c => (execChunkOffer c.1)) ++
  s.cores.flatMap fun c => (List.range 8).map fun ch => (execTreeRelease ch (c.1 / 160) (c.1 % 160))

/-- Every happening a state names, and the passing of a cycle. -/
def idleActs (s : State) : List (State → Outcome) := (fun s => .next (advance 1 s)) :: (warpActs s ++ opActs s ++ dispatchActs s ++ dieActs s ++ linkActs s)

/-- One of them, as a free choice; the names drawn for it are used up. -/
def idleStep (s : State) : Outcome :=
  (idleActs s).getD (Config.choice s.fresh % (idleActs s).length) (fun s => .next s) { s with fresh := s.fresh + 3 }

/-- A bundle that may run: the current one, or the first on any warp's pipes. -/
def readyBundle (s : State) : Option (Nat × Pipe) :=
  match s.cur.filter fun c => (bundleAt s c.1 c.2).isSome with
  | some c => some c
  | none => (s.warps.flatMap fun x => [(x.1, Pipe.a), (x.1, Pipe.b)]).find? fun c => (bundleAt s c.1 c.2).isSome

/-- A step is an instant of its own (R139): it takes a new name when threads stand in the arrival group of the last one. -/
def State.newInstant (s : State) : State :=
  if s.warps.any fun x => x.2.threads.any fun t => t.group == s.instant then { s with instant := s.instant + 1 } else s

/-- What a step does: the agenda's next happening; without one, the next word of a bundle; without one, a free choice. -/
def runNext (s : State) : Outcome :=
  let s := s.newInstant
  match s.agenda with
  | a :: rest => runItem a { s with agenda := rest }
  | [] => match readyBundle s with
    | some c => runPipe c.1 c.2 s
    | none => idleStep s

/-! ### Placing one instruction (log entry 5) -/

/-- A launch record for one warp of 16 threads with 512 registers each, and 64 KiB of each window. -/
def probeLaunch : Launch :=
  { noLaunch with
    dieset := [0], nbx := 1, nby := 1, nbz := 1, ncode := 4, wcode := 0, wmin := 1, wmax := 1, tiles := 32, paired := false
    resident := true, shared := 65536, scratch := 65536, stack := 64, args := List.replicate 16 0 }

/-- A clause of the word's class with that word in front, issued on pipe A of a warp of context 0 on die 0. -/
def placeWord (w : Nat) (s : State) : State :=
  let v : Word64 := BitVec.ofNat 64 w
  let k := s.fresh
  let l := probeLaunch
  let x : Kernel := { ctx := 0, queue := 0, record := 0, st := .running, reason := 0, launch := l, met := [], order := k }
  let h : Share :=
    { ctx := 0, kern := k, index := 0, die := 0, order := k, nblocks := 1, next := 1, size := 65536, home := [], barRound := 0
      barArr := [], barIn := [], barRef := [], step := 0, done := 0, graphs := [], armed := [], waits := [], tails := []
      runsDone := [], waitAt := none, kept := false, loaded := true, ended := false }
  let b : Block := { newBlock { h with next := 0 } (k + 1) 0 (k + 2) l [] [k + 3] none none with st := .running }
  let y := newWarp 0 k (k + 1) 0 0 0 s.instant 0 (some (k + 2)) l ⟨0, 0, 0, 8192, 16⟩
  let i : Issue :=
    { lanes := allLanes 16, hdr := 0, cls := (bits 60 4 v).toNat, words := [v], idx := 0, blocked := false, grant := .none
      after := none, since := none, yld := false }
  let y := { y.mapLanes (allLanes 16) fun n t => { t with st := .issued, preds := 0xFF, gen := seedGen l.seed b.linear 16 0 n } with issA := some i }
  let s := s.modDie 0 fun d => { d with safe := false, start := none }
  let s := s.setCtx 0 { s.ctx 0 with st := .running, dies := 1 }
  { (((s.setKernel k x).setShare (k + 1) h).setBlock (k + 2) b).setWarp (k + 3) y with
    fresh := k + 4, instant := s.instant + 1, agenda := [], cur := some (k + 3, .a) }

end Sys2Proof.Machine
end

