-- ==== Sys2Proof/Machine/Step.lean ====
section
/-! DEFINITION. One step of the machine, and one instruction placed where the next step runs it. -/

namespace Sys2Proof.Machine

/-- One step: `runNext`. -/
def step (s : State) : Host.Outcome State Fault Refusal := runNext s

/-- The state with one instruction, whose bits are `w`, as the next word of the bundle the next step runs. A program comes
to run from reset otherwise (log entry 5): the host binds a context, writes its trees and code, enables a queue and rings its
doorbell; the dispatcher takes the entry, places blocks, and slices fetch and issue their clauses. -/
def State.withFetchWord (s : State) (nbits w : Nat) : State := placeWord (w % 2 ^ nbits) s

end Sys2Proof.Machine
end

