-- ==== Sys2Proof/Safety.lean ====
section
/-! DEFINITION. The terms claims are stated in: when a word runs, what a word leaves unchanged, when memory is in canonical
form, and what a safe run keeps. -/

namespace Sys2Proof.Machine

/-! ### A word that runs -/

/-- The current bundle `b` executes the word `i`, which passes its static checks (checks 1 to 5 of R49); a word that needs a
block stands in an attached warp (R166, R233). -/
def Runs (i : Instr) (s : State) (b : Bundle) : Prop :=
  s.bundle? = some b ∧ staticTrap i b = none ∧ (needsBlock i = true → b.warp.block.isSome = true)

/-- The guard-true lanes of a word (R30). -/
def acting (i : Instr) (b : Bundle) : Lanes := guardLanes b (wordGuard i)

/-- Every register a word names is full in every guard-true thread, so that no operand waits or traps (R36, R98). -/
def NamedFull (i : Instr) (b : Bundle) : Prop :=
  ∀ l t k, (acting i b).getLsbD l = true → b.warp.thread l = some t → i.info b.warp.width = some k →
    ∀ r ∈ k.regs, ∀ j, j < r.2 → (t.reg (r.1 + j)).full = true

/-- Every lane of a set runs a handler; and no lane of it does (R315). -/
def Inside (b : Bundle) (m : Lanes) : Prop := m &&& ~~~ b.inHandler m = 0
def Outside (b : Bundle) (m : Lanes) : Prop := b.inHandler m = 0

/-! ### What stays -/

/-- Two threads hold the same data: registers, predicates, generator, return stack and trap frame. What may differ is where
the thread stands. -/
def Thread.sameData (u v : Thread) : Prop :=
  v.regs = u.regs ∧ v.preds = u.preds ∧ v.gen = u.gen ∧ v.rstack = u.rstack ∧ v.trap = u.trap

/-- Two warps differ at most in where their threads stand, in the clause on pipe `p` and in a yield's standing. -/
def Warp.moved (p : Pipe) (x y : Warp) : Prop :=
  y = ({ x with threads := y.threads, yielded := y.yielded }).setIss p (y.iss p) ∧
    y.threads.length = x.threads.length ∧
    ∀ l u, x.thread l = some u → ∃ v, y.thread l = some v ∧ u.sameData v

/-- Nothing but warp `w`, and the counter of names, differs between two states: every other warp, every byte of every
memory, every register of a context, die or module, and every operation in flight is unchanged. -/
def OnlyWarp (w : Nat) (s t : State) : Prop :=
  t = { s with warps := t.warps, fresh := t.fresh } ∧ ∀ k, k ≠ w → t.warp? k = s.warp? k

/-- Only the bundle's warp differs, and it is `x` but for where its threads stand: with the warp at `x` the word has ended, and the
clause has gone on as at every word's end (R25, R26; the statement `WordEnds` says how). -/
def WarpBecomes (b : Bundle) (x : Warp) (s t : State) : Prop :=
  OnlyWarp b.w s t ∧ (∃ y, t.warp? b.w = some y ∧ Warp.moved b.pipe x y) ∧
    ∃ u, OnlyWarp b.w s u ∧ u.warp? b.w = some x ∧ t = finishWord b u

/-- The effect of a word that changes only its own threads: `g` gives a guard-true thread's new data, every other thread of
the warp keeps its own, and the warp's sticky flags gain `fl`. -/
def Effect (i : Instr) (b : Bundle) (g : Nat → Thread → Thread) (fl : Flags) (s t : State) : Prop :=
  WarpBecomes b { b.warp.mapLanes (acting i b) g with fpflags := b.warp.fpflags ||| fl } s t

/-- A word that, whenever it runs with the registers it names full, answers a next state with that effect. -/
def Completes (i : Instr) (g : Bundle → Nat → Thread → Thread) (fl : Bundle → Flags) : Prop :=
  ∀ s b, Runs i s b → NamedFull i b → ∃ t, exec i s = .next t ∧ Effect i b (g b) (fl b) s t

/-- The flags a set of lanes raises together. -/
def laneFlags (w : Warp) (m : Lanes) (f : Nat → Thread → Flags) : Flags :=
  (laneList w.width m).foldl (fun fl l => match w.thread l with
    | some t => fl ||| f l t
    | none   => fl) 0

/-- v[d] ← f a in every guard-true thread. -/
def OnOne (i : Instr) (o : FmtR) (f : Word → Word) : Prop :=
  Completes i (fun _ _ u => u.put o.d.toNat (f (u.val o.a o.za))) fun _ => 0

/-- v[d] ← f a b in every guard-true thread. -/
def OnRegs (i : Instr) (o : FmtR) (f : Word → Word → Word) : Prop :=
  Completes i (fun _ _ u => u.put o.d.toNat (f (u.val o.a o.za) (u.val o.b o.zb))) fun _ => 0

/-- v[d] ← f a imm in every guard-true thread, imm the sign-extended immediate (R101). -/
def OnImm (i : Instr) (o : FmtI) (f : Word → Word → Word) : Prop :=
  Completes i (fun _ _ u => u.put o.d.toNat (f (u.val o.a o.za) (o.imm.signExtend 32))) fun _ => 0

/-- v[d] ← f a b c in every guard-true thread. -/
def OnThree (i : Instr) (o : FmtR) (f : Word → Word → Word → Word) : Prop :=
  Completes i (fun _ _ u => u.put o.d.toNat (f (u.val o.a o.za) (u.val o.b o.zb) (u.val o.c o.zc))) fun _ => 0

/-- v[d] and the sticky flags of a floating word of one source (R118). -/
def FloatOne (i : Instr) (o : FmtR) (f : Nat → Rounded) : Prop :=
  Completes i (fun _ _ u => u.put o.d.toNat (natWord (f (u.val o.a o.za).toNat).bits))
    fun b => laneFlags b.warp (acting i b) fun _ u => (f (u.val o.a o.za).toNat).flags

/-- v[d] and the sticky flags of a floating word of two register sources. -/
def FloatRegs (i : Instr) (o : FmtR) (f : Nat → Nat → Rounded) : Prop :=
  Completes i (fun _ _ u => u.put o.d.toNat (natWord (f (u.val o.a o.za).toNat (u.val o.b o.zb).toNat).bits))
    fun b => laneFlags b.warp (acting i b) fun _ u => (f (u.val o.a o.za).toNat (u.val o.b o.zb).toNat).flags

/-- The same with the immediate's FP32 image as second source: imm · 2^8 (R117). -/
def FloatImm (i : Instr) (o : FmtI) (f : Nat → Nat → Rounded) : Prop :=
  Completes i (fun _ _ u => u.put o.d.toNat (natWord (f (u.val o.a o.za).toNat (256 * o.imm.toNat)).bits))
    fun b => laneFlags b.warp (acting i b) fun _ u => (f (u.val o.a o.za).toNat (256 * o.imm.toNat)).flags

/-- v[d] and the sticky flags of a floating word of three sources. -/
def FloatThree (i : Instr) (o : FmtR) (f : Nat → Nat → Nat → Rounded) : Prop :=
  Completes i
    (fun _ _ u => u.put o.d.toNat (natWord (f (u.val o.a o.za).toNat (u.val o.b o.zb).toNat (u.val o.c o.zc).toNat).bits))
    fun b => laneFlags b.warp (acting i b) fun _ u =>
      (f (u.val o.a o.za).toNat (u.val o.b o.zb).toNat (u.val o.c o.zc).toNat).flags

/-! ### Words with an effect beyond their threads -/

/-- A word runs with the registers it names full, for some guard-true lane. -/
def Acts (i : Instr) (s : State) (b : Bundle) : Prop := Runs i s b ∧ NamedFull i b ∧ acting i b ≠ 0

/-- The same, in a warp without a live region (R226). -/
def ActsFree (i : Instr) (s : State) (b : Bundle) : Prop := Acts i s b ∧ b.warp.regionLive = false

/-- The lowest guard-true lane. -/
def leader (i : Instr) (b : Bundle) : Nat := (lowestLane b.warp.width (acting i b)).getD 0

/-- A word that reads its operands once for the bundle runs, with the registers it names full in its lowest guard-true
thread (R102, R320). -/
def Leads (i : Instr) (s : State) (b : Bundle) : Prop :=
  Runs i s b ∧ acting i b ≠ 0 ∧ ∀ t k, b.warp.thread (leader i b) = some t → i.info b.warp.width = some k →
    ∀ r ∈ k.regs, ∀ j, j < r.2 → (t.reg (r.1 + j)).full = true

/-- The same, in a warp without a live region (R226). -/
def LeadsFree (i : Instr) (s : State) (b : Bundle) : Prop := Leads i s b ∧ b.warp.regionLive = false

/-- The guard-true lanes in ascending order. -/
def actors (i : Instr) (b : Bundle) : List Nat := laneList b.warp.width (acting i b)

/-- The value of a register of the lowest guard-true lane. -/
def leadVal (i : Instr) (b : Bundle) (r : BitVec 9) (z : Bool) : Word :=
  laneVal b.warp (leader i b) r z

/-- The value of the pair at a register of the lowest guard-true lane. -/
def leadPair (i : Instr) (b : Bundle) (r : BitVec 9) (z : Bool) : Word64 :=
  ((b.warp.thread (leader i b)).map fun t => t.pairVal r z).getD 0

/-- A word runs, for some guard-true lane, in a warp without a live region; what its registers hold does not matter. -/
def StandsFree (i : Instr) (s : State) (b : Bundle) : Prop := Runs i s b ∧ acting i b ≠ 0 ∧ b.warp.regionLive = false

/-- The words that abort their warp's live region with NESTED as soon as a guard-true thread executes them (R226). -/
def nests : Instr → Bool
  | .atom _ | .red _ | .waitv _ | .note _ | .phase _ | .regb _ => true
  | .cpyin _ | .cpyout _ | .cpyg _ | .cpys _ | .cpyd _ | .cpyf _ | .cpyfFar _ | .stageMax _ | .stageAdd _ | .publ _ | .rpush _ | .rpop _ => true
  | .rwaitC _ | .rwaitP _ | .cpyq _ | .pfch _ | .evict _ | .bufd _ | .cload _ | .crun _ | .carm _ | .cstepQ _ | .cstepWait _ => true
  | .sleep _ | .sleepUntil _ | .enq _ => true
  | .csrw _ | .tret _ | .xsave _ | .xload _ | .tlbi _ | .tlbiPage _ | .pgset _ | .ctxend _ | .halt _ | .retire _ | .snapm _ => true
  | .logrAddr _ | .logrInfo _ | .logrCount _ | .logrClr _ => true
  | .tjopen _ | .tjstep _ | .tjend _ | .tjendFree _ | .tjrew _ | .tjtake _ | .tjtakeTry _ | .tjtakeDepth _ | .tjtakeStat _ | .tjset _ => true
  | _ => false

/-- The barrier words that do so once their operands are read and no thread of theirs runs a handler (R213, R226). -/
def nestsBar : Instr → Bool
  | .barb _ | .bara _ | .barw _ | .bard _ | .treea _ | .treew _ => true
  | _ => false

/-- A word that only gives its guard-true threads new registers. -/
def Answers (i : Instr) (b : Bundle) (g : Thread → Thread) (s t : State) : Prop := Effect i b (fun _ u => g u) 0 s t

/-- A clause ends with a branch: each of its threads that no region abort redirects is READY at `dest`, as `f` leaves the
guard-true ones, and the pipe is free; nothing else changes (R143). -/
def Goes (i : Instr) (b : Bundle) (dest : Nat → Nat) (f : Thread → Thread) (s t : State) : Prop :=
  OnlyWarp b.w s t ∧ ∃ y, t.warp? b.w = some y ∧ Warp.moved b.pipe (b.warp.mapLanes (acting i b) fun _ u => f u) y ∧
    y.iss b.pipe = none ∧ ∀ l u, b.iss.lanes.getLsbD l = true → b.warp.thread l = some u → u.redirect = none →
      ∃ v, y.thread l = some v ∧ v.st = .ready ∧ v.pc = atHeader (dest l)

/-- The thread `v` is the thread `u` of the bundle after a synchronous trap on the bundle's word (R314-R316): READY at TVEC with the trap's
frame, its registers, predicates, return stack and generator as they were. -/
def Entered (s : State) (b : Bundle) (cause addr : Nat) (code : Word) (u v : Thread) : Prop :=
  v.st = .ready ∧ v.pc = atHeader (s.ctx b.warp.ctx).tvec.toNat ∧ v.regs = u.regs ∧ v.preds = u.preds ∧ v.rstack = u.rstack ∧ v.gen = u.gen ∧
    v.trap = some { cause := cause, code := code, pred := (u.preds &&& 0x7F).setWidth 32, cpc := b.iss.hdr, cidx := b.iss.idx
                    faddr := BitVec.ofNat 64 addr, cls := b.iss.cls, count := b.iss.words.length - 1
                    window := List.replicate 32 ⟨0, true⟩, target := u.redirect }

/-- Where a synchronous trap enters the handler and aborts no region (R314, R230): TVEC is not 0, the warp has no live region, and the
guard-true threads run no handler. -/
def MayTrap (i : Instr) (s : State) (b : Bundle) : Prop :=
  b.warp.regionLive = false ∧ (s.ctx b.warp.ctx).tvec ≠ 0 ∧ ∀ l ∈ actors i b, ∀ u, b.warp.thread l = some u → u.trap = none

/-- The word answers a next state in which each guard-true thread that `who` picks has taken a trap. -/
def Raises (i : Instr) (s : State) (b : Bundle) (cause : Nat) (who : Nat → Thread → Prop) (addr : Nat → Nat) : Prop :=
  ∃ t, exec i s = .next t ∧ ∃ y, t.warp? b.w = some y ∧ ∀ l ∈ actors i b, ∀ u, b.warp.thread l = some u → who l u →
    ∃ v, y.thread l = some v ∧ Entered s b cause (addr l) 0 u v

/-- A register field of a word names an empty register of a thread. -/
def Lacks (u : Thread) (r : BitVec 9) (z : Bool) : Prop := z = false ∧ (u.reg r.toNat).full = false

/-- A branch target in a thread (R43): relative to the header, modulo 2^57, or bits [56:32] of the header with the sum of a
register and the offset. -/
def targetOf (o : FmtB) (hdr : Nat) (v : Word) : Nat :=
  if o.ind then hdr % 2 ^ 57 / 2 ^ 32 * 2 ^ 32 + (v + o.off).toNat else (((hdr : Int) + o.off.toInt) % 2 ^ 57).toNat

/-- A new tile operation of the bundle (R261). -/
def tileOpOf (s : State) (b : Bundle) (tile : Nat) (kind : TileKind) : TileOp :=
  { ctx := b.warp.ctx, block := b.warp.block.getD 0, warp := b.w, die := b.warp.die, core := b.warp.core
    half := warpHalf s b.warp, tile := tile, kind := kind, fired := false, units := [], start := 0, vals := [], biasV := 0
    frozen := false, step := issueStep s b.warp.share }

/-- A tile word answers with one operation queued on `s'`, and nothing else changed (R261). -/
def Queues (i : Instr) (b : Bundle) (tile : Nat) (kind : TileKind) (s s' : State) : Prop :=
  exec i s = .next (finishWord b { s' with
    tops := tput s'.tops s'.fresh (tileOpOf s' b tile kind), fresh := s'.fresh + 1 })

/-- A tile word may queue an operation (R259, R261): its tile exists, when it names one, and the queue has a place. -/
def TileRoom (s : State) (b : Bundle) (tile : Nat) : Prop :=
  tile < tileCount s b.warp ∧ tilePlace s b.warp.die b.warp.core = true

/-- The buffer a word of the bundle names. -/
def bufOf (s : State) (b : Bundle) (q : BitVec 4) : Buffer := s.buf (b.warp.block.getD 0) q.toNat

/-- No store of the warp is unacknowledged, and the word has not waited for one (R239). -/
def StoresDone (s : State) (b : Bundle) : Prop := storesOf s b.w = [] ∧ b.iss.after = none

/-! ### Memory -/

/-- Every memory of the machine is in canonical form: the DRAM of each die, the host's memory, every shared window, every
view and every scratchpad window. -/
def MemoryOk (s : State) : Prop :=
  (∀ x ∈ s.dies, Memory.wf x.2.dram = true) ∧ Memory.wf s.mod.hostMem = true ∧
    (∀ x ∈ s.blocks, Memory.wf x.2.mem = true ∧ Memory.wf x.2.view = true) ∧ ∀ x ∈ s.shares, Memory.wf x.2.home = true

end Sys2Proof.Machine
end

