-- ==== Sys2Proof/Certificates/Slice0/Obligations.lean ====
section
/-! DEFINITION. The statements about the machine, one definition each (OBLIGATIONS.json). -/

open Sys2Proof Sys2Proof.Machine

/-! ### Words that compute: moves and integers (04_register) -/

/-- NOP, MOV, MOVI, the four PMOV forms, PGATE and ISEL complete with their rules' values (R60, R102, R107, R108, R111):
MOV copies one, two or four registers, all read before any is written; a write to p7 is discarded. -/
def Obligations.MoveWords : Prop :=
  (∀ o, Completes (.nop o) (fun _ _ u => u) fun _ => 0) ∧
  (∀ o, Completes (.mov o) (fun _ _ u =>
    let d := o.d.toNat
    let a := fun k => if o.za then 0 else (u.reg (o.a.toNat + k)).val
    if o.mod = 0 then u.put d (a 0)
    else if o.mod = 1 then (u.put d (a 0)).put (d + 1) (a 1)
    else (((u.put d (a 0)).put (d + 1) (a 1)).put (d + 2) (a 2)).put (d + 3) (a 3)) fun _ => 0) ∧
  (∀ o, Completes (.movi o) (fun _ _ u => u.put o.d.toNat o.imm) fun _ => 0) ∧
  (∀ o, Completes (.pmovRp o) (fun _ _ u =>
    u.setPred o.d.toNat ((u.val o.a o.za).getLsbD ((u.val o.b o.zb).toNat % 32))) fun _ => 0) ∧
  (∀ o, Completes (.pmovPr o) (fun _ _ u =>
    let bit := BitVec.ofNat 32 (2 ^ ((u.val o.b o.zb).toNat % 32))
    u.put o.d.toNat (if u.pred o.c.toNat then u.val o.a o.za ||| bit else u.val o.a o.za &&& ~~~ bit)) fun _ => 0) ∧
  (∀ o, Completes (.pmovSave o) (fun _ _ u => u.put o.d.toNat ((u.preds &&& 0x7F ||| 0x80).setWidth 32)) fun _ => 0) ∧
  (∀ o, Completes (.pmovLoad o) (fun _ _ u =>
    { u with preds := (u.val o.a o.za).setWidth 8 &&& 0x7F ||| 0x80 }) fun _ => 0) ∧
  (∀ o, Completes (.pgate o) (fun _ _ u =>
    let p := fun (r : BitVec 9) => if u.pred r.toNat then 1 else 0
    u.setPred o.d.toNat (o.table.getLsbD (p o.a + 2 * p o.b + 4 * p o.c))) fun _ => 0) ∧
  (∀ o, Completes (.isel o) (fun _ _ u =>
    u.put o.d.toNat (if u.pred o.c.toNat then u.val o.a o.za else u.val o.b o.zb)) fun _ => 0)

/-- IADD, ISUB, IMUL, IMULH, IMIN, IMAX and ICMP, register and immediate forms (R109, R110): wrapping, signed saturating
(mod 1) and unsigned saturating (mod 2) sums and differences, low and high products, minima and maxima, comparisons. -/
def Obligations.IntegerWords : Prop :=
  let clampS := fun (x : Int) => BitVec.ofInt 32 (max (-2 ^ 31) (min x (2 ^ 31 - 1)))
  let clampU := fun (x : Int) => BitVec.ofInt 32 (max 0 (min x (2 ^ 32 - 1)))
  let add := fun (m : BitVec 3) (a b : Word) =>
    if m = 1 then clampS (a.toInt + b.toInt) else if m = 2 then clampU ((a.toNat : Int) + b.toNat) else a + b
  let sub := fun (m : BitVec 3) (a b : Word) =>
    if m = 1 then clampS (a.toInt - b.toInt) else if m = 2 then clampU ((a.toNat : Int) - b.toNat) else a - b
  let high := fun (m : BitVec 3) (a b : Word) =>
    let p : Int := if m = 0 then a.toInt * b.toInt else if m = 1 then (a.toNat : Int) * b.toNat else a.toInt * b.toNat
    (BitVec.ofInt 64 p).extractLsb' 32 32
  let less := fun (m : BitVec 3) (a b : Word) => if m = 1 then decide (a.toNat < b.toNat) else decide (a.toInt < b.toInt)
  let cmp := fun (m : BitVec 3) (a b : Word) =>
    match m.toNat with
    | 0 => decide (a = b)
    | 1 => decide (a ≠ b)
    | 2 => decide (a.toInt < b.toInt)
    | 3 => decide (b.toInt ≤ a.toInt)
    | 4 => decide (a.toNat < b.toNat)
    | 5 => decide (b.toNat ≤ a.toNat)
    | 6 => decide (b.toInt < a.toInt)
    | _ => decide (a.toInt ≤ b.toInt)
  (∀ o, OnRegs (.iadd o) o (add o.mod)) ∧ (∀ o, OnImm (.iaddImm o) o (add o.mod)) ∧
  (∀ o, OnRegs (.isub o) o (sub o.mod)) ∧ (∀ o, OnImm (.isubImm o) o (sub o.mod)) ∧
  (∀ o, OnRegs (.imul o) o fun a b => a * b) ∧ (∀ o, OnImm (.imulImm o) o fun a b => a * b) ∧
  (∀ o, OnRegs (.imulh o) o (high o.mod)) ∧ (∀ o, OnImm (.imulhImm o) o (high o.mod)) ∧
  (∀ o, OnRegs (.imin o) o fun a b => if less o.mod a b then a else b) ∧
  (∀ o, OnImm (.iminImm o) o fun a b => if less o.mod a b then a else b) ∧
  (∀ o, OnRegs (.imax o) o fun a b => if less o.mod a b then b else a) ∧
  (∀ o, OnImm (.imaxImm o) o fun a b => if less o.mod a b then b else a) ∧
  (∀ o, Completes (.icmp o) (fun _ _ u => u.setPred o.d.toNat (cmp o.mod (u.val o.a o.za) (u.val o.b o.zb))) fun _ => 0) ∧
  (∀ o, Completes (.icmpImm o) (fun _ _ u =>
    u.setPred o.d.toNat (cmp o.mod (u.val o.a o.za) (o.imm.signExtend 32))) fun _ => 0)

/-- SHL, SHR, SAR, register and immediate forms, and the funnel shifts (R109, R113): the count is the whole unsigned value,
and a count of 32 or more shifts every bit out. -/
def Obligations.ShiftWords : Prop :=
  let shl := fun (a b : Word) => BitVec.ofNat 32 (a.toNat * 2 ^ b.toNat)
  let shr := fun (a b : Word) => BitVec.ofNat 32 (a.toNat / 2 ^ b.toNat)
  let sar := fun (a b : Word) => BitVec.ofInt 32 (a.toInt / 2 ^ b.toNat)
  let count := fun (m : BitVec 3) (c : Word) => if m = 1 then min c.toNat 32 else c.toNat % 32
  (∀ o, OnRegs (.shl o) o shl) ∧ (∀ o, OnImm (.shlImm o) o shl) ∧
  (∀ o, OnRegs (.shr o) o shr) ∧ (∀ o, OnImm (.shrImm o) o shr) ∧
  (∀ o, OnRegs (.sar o) o sar) ∧ (∀ o, OnImm (.sarImm o) o sar) ∧
  (∀ o, OnThree (.fshl o) o fun a b c => ((a ++ b : BitVec 64) <<< count o.mod c).extractLsb' 32 32) ∧
  (∀ o, OnThree (.fshr o) o fun a b c => ((a ++ b : BitVec 64) >>> count o.mod c).extractLsb' 0 32)

/-- LGATE, POPC, CLZ, BREV, BFX, BFI, LEA, IMAD, IMADW, IADDC, IABS and INEG (R111, R112, R114-R116). -/
def Obligations.BitWords : Prop :=
  let clampS := fun (x : Int) => BitVec.ofInt 32 (max (-2 ^ 31) (min x (2 ^ 31 - 1)))
  (∀ o, Completes (.lgate o) (fun _ _ u =>
    let bit := fun (r : BitVec 9) (k : Nat) => if (u.reg r.toNat).val.getLsbD k then 1 else 0
    u.put o.d.toNat (BitVec.ofFnLE fun k : Fin 32 => o.table.getLsbD (bit o.a k + 2 * bit o.b k + 4 * bit o.c k)))
    fun _ => 0) ∧
  (∀ o, OnOne (.popc o) o fun a => BitVec.ofNat 32 ((List.range 32).filter fun k => a.getLsbD k).length) ∧
  (∀ o, OnOne (.clz o) o fun a =>
    BitVec.ofNat 32 (((List.range 32).find? fun k => a.getLsbD (31 - k)).getD 32)) ∧
  (∀ o, OnOne (.brev o) o fun a => a.reverse) ∧
  (∀ o, OnRegs (.bfx o) o (bfxW o.mod)) ∧
  (∀ o, OnThree (.bfi o) o bfiW) ∧
  (∀ o, OnThree (.lea o) o fun a b c => a + b * BitVec.ofNat 32 (2 ^ o.mod.toNat) + c) ∧
  (∀ o, OnThree (.imad o) o fun a b c => if o.mod = 1 then clampS (a.toInt * b.toInt + c.toInt) else a * b + c) ∧
  (∀ o, Completes (.imadw o) (fun _ _ u =>
    let a := u.val o.a o.za
    let b := u.val o.b o.zb
    let c : Word64 := if o.zc then 0 else u.pair o.c.toNat
    u.putPair o.d.toNat (if o.mod = 1 then BitVec.ofNat 64 (a.toNat * b.toNat) + c else BitVec.ofInt 64 (a.toInt * b.toInt) + c))
    fun _ => 0) ∧
  (∀ o, Completes (.iaddc o) (fun _ _ u =>
    let b := if o.mod = 1 then ~~~ (u.val o.b o.zb) else u.val o.b o.zb
    let x := (u.val o.a o.za).toNat + b.toNat + if u.pred o.c.toNat then 1 else 0
    (u.put o.d.toNat (BitVec.ofNat 32 x)).setPred o.c.toNat (decide (2 ^ 32 ≤ x))) fun _ => 0) ∧
  (∀ o, OnOne (.iabs o) o fun a => if o.mod = 1 then clampS |a.toInt| else BitVec.ofInt 32 |a.toInt|) ∧
  (∀ o, OnOne (.ineg o) o fun a => if o.mod = 1 then clampS (-a.toInt) else -a)

/-! ### Floating point and conversion (05_float) -/

/-- The FP32 words complete with the exact value of their operands rounded in the mode of mod [1:0] and the flags of that
rounding; FABS and FNEG change the sign bit alone and raise none (R117-R123). -/
def Obligations.FloatWords : Prop :=
  let mode := fun (m : BitVec 3) => rndOf (m.toNat % 4)
  (∀ o, FloatRegs (.fadd o) o (fAdd fp32 (mode o.mod))) ∧ (∀ o, FloatImm (.faddImm o) o (fAdd fp32 (mode o.mod))) ∧
  (∀ o, FloatRegs (.fsub o) o (fSub fp32 (mode o.mod))) ∧ (∀ o, FloatImm (.fsubImm o) o (fSub fp32 (mode o.mod))) ∧
  (∀ o, FloatRegs (.fmul o) o (fMul fp32 (mode o.mod))) ∧ (∀ o, FloatImm (.fmulImm o) o (fMul fp32 (mode o.mod))) ∧
  (∀ o, FloatRegs (.fmin o) o (fMinMax fp32 false (o.mod == 1))) ∧ (∀ o, FloatImm (.fminImm o) o (fMinMax fp32 false (o.mod == 1))) ∧
  (∀ o, FloatRegs (.fmax o) o (fMinMax fp32 true (o.mod == 1))) ∧ (∀ o, FloatImm (.fmaxImm o) o (fMinMax fp32 true (o.mod == 1))) ∧
  (∀ o, Completes (.fcmp o) (fun _ _ u => u.setPred o.d.toNat (fCmp o.mod.toNat (u.val o.a o.za).toNat (u.val o.b o.zb).toNat).1)
    fun b => laneFlags b.warp (acting (.fcmp o) b) fun _ u => (fCmp o.mod.toNat (u.val o.a o.za).toNat (u.val o.b o.zb).toNat).2) ∧
  (∀ o, Completes (.fcmpImm o) (fun _ _ u => u.setPred o.d.toNat (fCmp o.mod.toNat (u.val o.a o.za).toNat (256 * o.imm.toNat)).1)
    fun b => laneFlags b.warp (acting (.fcmpImm o) b) fun _ u => (fCmp o.mod.toNat (u.val o.a o.za).toNat (256 * o.imm.toNat)).2) ∧
  (∀ o, FloatThree (.ffma o) o (fFma fp32 (mode o.mod))) ∧
  (∀ o, OnOne (.fabs o) o fun a => a &&& 0x7FFFFFFF) ∧ (∀ o, OnOne (.fneg o) o fun a => a ^^^ 0x80000000) ∧
  (∀ o, OnOne (.fclass o) o fun a => BitVec.ofNat 32 (fClass a.toNat)) ∧
  (∀ o, FloatOne (.frnd o) o (fRnd (mode o.mod))) ∧ (∀ o, FloatRegs (.fmaxa o) o (fMaxA fp32))

/-- The packed words work on the two 16-bit elements of their operands, and CVT, F8CV and F8UP convert; under stochastic
rounding (mod 4) a thread's generator steps once and its new value rounds (R75, R76, R124-R128). -/
def Obligations.PackedWords : Prop :=
  let mode := fun (m : BitVec 3) => rndOf (m.toNat % 4)
  let fmt := fun (m : BitVec 3) => halfFmt (m.getLsbD 2)
  let gen := fun (m : BitVec 3) (u : Thread) => if m = 4 then { u with gen := xorShift u.gen } else u
  let rnd := fun (m : BitVec 3) (u : Thread) => if m = 4 then Rnd.rs (xorShift u.gen).toNat else mode m
  let cvt := fun (o : FmtV) (u : Thread) =>
    convert (o.conv.toNat % 16) (o.conv.toNat / 16 % 16) (o.conv.getLsbD 8) (rnd o.mod u) (u.val o.a o.za).toNat
  let f8 := fun (o : FmtR) (u : Thread) =>
    f8cvByte (if o.c.getLsbD 2 then e5m2 else e4m3) (rnd o.mod u) (o.c.getLsbD 3) (u.val o.a o.za).toNat (u.val o.b o.zb).toNat
  (∀ o, FloatRegs (.hadd2 o) o (packed2 (fAdd (fmt o.mod) (mode o.mod)))) ∧
  (∀ o, FloatRegs (.hmul2 o) o (packed2 (fMul (fmt o.mod) (mode o.mod)))) ∧
  (∀ o, FloatThree (.hfma2 o) o (packed3 (fFma (fmt o.mod) (mode o.mod)))) ∧
  (∀ o, FloatRegs (.hmax2 o) o (packed2 (fMinMax (fmt o.mod) true (o.mod.getLsbD 0)))) ∧
  (∀ o, Completes (.cvt o) (fun _ _ u => (gen o.mod u).put o.d.toNat (BitVec.ofNat 32 (cvt o u).bits))
    fun b => laneFlags b.warp (acting (.cvt o) b) fun _ u => (cvt o u).flags) ∧
  (∀ o, Completes (.f8cv o) (fun _ _ u =>
      (gen o.mod u).put o.d.toNat (putByte (u.reg o.d.toNat).val (o.c.toNat % 4) (f8 o u).bits))
    fun b => laneFlags b.warp (acting (.f8cv o) b) fun _ u => (f8 o u).flags) ∧
  (∀ o, FloatRegs (.f8up o) o fun a b =>
    f8upWord (if o.c.getLsbD 2 then e5m2 else e4m3) (mode o.mod) (a / 2 ^ (8 * (o.c.toNat % 4)) % 256) b)

/-! ### The group (06_group) -/

/-- LSHUF, LXOR, LROTW, MATCH, MATCHN, TBL and ELECT complete: each participating lane gets what the rule takes from the
participating lanes as they were before the word (R153, R154, R157-R159). -/
def Obligations.CrossLaneWords : Prop :=
  let pick := fun (i : Instr) (o : FmtR) (b : Bundle) (k l : Nat) (u : Thread) =>
    u.put o.d.toNat (((b.warp.thread (if (acting i b).getLsbD k then k else l)).map fun v => v.val o.a o.za).getD 0)
  (∀ o, Completes (.lshuf o) (fun b l u => pick (.lshuf o) o b ((u.val o.b o.zb).toNat % b.warp.width) l u) fun _ => 0) ∧
  (∀ o, Completes (.lxor o) (fun b l u => pick (.lxor o) o b (l ^^^ ((u.val o.b o.zb).toNat % b.warp.width)) l u) fun _ => 0) ∧
  (∀ o, Completes (.lrotw o) (fun b l u =>
    let k := o.c.toNat % 16 * b.warp.width / 16
    pick (.lrotw o) o b (if o.mod = 1 then (l + b.warp.width - k % b.warp.width) % b.warp.width else (l + k) % b.warp.width) l u)
    fun _ => 0) ∧
  (∀ o, Completes (.matchKey o) (fun b l u =>
    let k := (matching b.warp (acting (.matchKey o) b) o l).headD l
    (u.put o.d.toNat (BitVec.ofNat 32 k)).setPred o.c.toNat (k == l)) fun _ => 0) ∧
  (∀ o, Completes (.matchn o) (fun b l u =>
    u.put o.d.toNat (BitVec.ofNat 32 (matching b.warp (acting (.matchn o) b) o l).length)) fun _ => 0) ∧
  (∀ o, Completes (.tbl o) (fun _ _ u => u.put o.d.toNat (tblWord o u)) fun _ => 0) ∧
  (∀ o, Completes (.elect o) (fun b l u =>
    u.setPred o.d.toNat (decide ((laneList b.warp.width (acting (.elect o) b)).head? = some l))) fun _ => 0)

/-- LRED and LSCAN combine the contributing lanes, those of the mask register the word names: LRED in a fixed tree, LSCAN in
ascending lane order; no contributing lane gives the operation's empty result (R155). -/
def Obligations.ReductionWords : Prop :=
  (∀ o, Completes (.lred o) (fun b _ u => u.put o.d.toNat
      ((lredResult b.warp (acting (.lred o) b) o).1.getD (emptyResult (o.c.toNat / 16))))
    fun b => (lredResult b.warp (acting (.lred o) b) o).2) ∧
  (∀ o, Completes (.lscan o) (fun b l u => u.put o.d.toNat
      ((scanAt b.warp (acting (.lscan o) b) o l).1.getD (emptyResult (o.c.toNat / 16))))
    fun b => laneFlags b.warp (acting (.lscan o) b) fun l _ => (scanAt b.warp (acting (.lscan o) b) o l).2)

/-- MOVW, WSET, SREAD, BALLOT, FLTM, FLTM.clr, MGET and YIELD complete (R102, R104-R106, R151, R156, R170, R178): MOVW reads a
full w register into every guard-true thread, WSET writes one from the lowest guard-true thread, SREAD reads a special
register and .clr clears the flags it returned, BALLOT writes a mask, FLTM.clr the fault mask, and YIELD marks the clause. On an empty w
register MOVW blocks, or raises EMPTY-READ under its trap-on-empty bit, and WSET blocks (R36, R98, R99). -/
def Obligations.WarpWords : Prop :=
  (∀ o s b, Runs (.movw o) s b → acting (.movw o) b ≠ 0 → (b.wr o.imm.toNat).full = false →
    (o.ea = false → exec (.movw o) s = .next (blockWord b s)) ∧
    (o.ea = true → exec (.movw o) s = .next (trapWord b (acting (.movw o) b) 0x04 s))) ∧
  (∀ o s b, Leads (.wset o) s b → (b.wr o.imm.toNat).full = false → exec (.wset o) s = .next (blockWord b s)) ∧
  (∀ o s b, Runs (.movw o) s b → NamedFull (.movw o) b → (b.wr o.imm.toNat).full = true →
    ∃ t, exec (.movw o) s = .next t ∧ Effect (.movw o) b (fun _ u => u.put o.d.toNat (b.wr o.imm.toNat).val) 0 s t) ∧
  (∀ o s b, Leads (.wset o) s b → (b.wr o.imm.toNat).full = true →
    ∃ t, exec (.wset o) s = .next t ∧ WarpBecomes b
      { b.warp with wregs := b.warp.wregs.set o.imm.toNat ⟨leadVal (.wset o) b o.a o.za, true⟩ } s t) ∧
  (∀ o s b, Runs (.sread o) s b → NamedFull (.sread o) b → (o.imm.toNat < 0x100 ∨ Inside b b.iss.lanes) →
    ∃ t, exec (.sread o) s = .next t ∧ WarpBecomes b
      { b.warp.mapLanes (acting (.sread o) b) fun l u => u.putSreg o.d.toNat o.imm.toNat (sregValue s b.warp l u o.imm.toNat) with
        fpflags := if o.mod = 1 ∧ acting (.sread o) b ≠ 0 then 0 else b.warp.fpflags } s t) ∧
  (∀ o s b, Runs (.ballot o) s b → acting (.ballot o) b ≠ 0 →
    let m := acting (.ballot o) b
    let v := laneFilter b.warp.width m fun l => ((b.warp.thread l).map fun t => t.pred o.a.toNat).getD false
    exec (.ballot o) s = .next (finishWord b (checkMask b.w (o.d.toNat % 16) (s.modWarp b.w fun x =>
      { x with masks := lmod x.masks (o.d.toNat % 16) fun r =>
          { r with bits := if o.mod = 0 then v else if o.mod = 1 then r.bits ||| v else r.bits &&& ~~~ m ||| v } })))) ∧
  (∀ o, Completes (.fltm o) (fun b _ u => u.put o.d.toNat (b.warp.faults.extractLsb' (32 * o.mod.toNat) 32)) fun _ => 0) ∧
  (∀ o s b, Runs (.fltmClr o) s b → acting (.fltmClr o) b ≠ 0 → ∃ t, exec (.fltmClr o) s = .next t ∧ WarpBecomes b { b.warp with faults := 0 } s t) ∧
  (∀ o, Completes (.mget o) (fun b _ u => u.put o.v.toNat (((b.warp.masks[o.idx.toNat]?).map fun r =>
    (if o.mod = 0 then r.bits else r.arr).extractLsb' (32 * o.imm.toNat) 32).getD 0)) fun _ => 0) ∧
  (∀ o s b, Runs (.yieldStanding o) s b → acting (.yieldStanding o) b ≠ 0 → exec (.yieldStanding o) s =
    .next (finishWord b (s.modIss b.w b.pipe fun i => { i with yld := true })))

/-- BRA, JMP, CALL and RET complete when every target is a multiple of 8 (R43, R143, R144): a guard-true thread goes to its
target, the others to the next header; CALL pushes the next header on a stack of fewer than 16, RET pops its top. A target that is no
multiple of 8 raises MISALIGNED there, with the target as the fault address; a CALL at depth 16 whose target passes raises STACK-OVERFLOW
with the return address, a RET at depth 0 with 0; in neither case does the stack change. -/
def Obligations.BranchWords : Prop :=
  (∀ o s b, Runs (.bra o) s b → NamedFull (.bra o) b → MayTrap (.bra o) s b →
    let goal := fun l => targetOf o b.iss.hdr (laneVal b.warp l o.a false)
    Raises (.bra o) s b 0x07 (fun l _ => goal l % 8 ≠ 0) goal) ∧
  (∀ o s b, Leads (.jmp o) s b → MayTrap (.jmp o) s b →
    let goal := targetOf o b.iss.hdr (leadVal (.jmp o) b o.a false)
    goal % 8 ≠ 0 → Raises (.jmp o) s b 0x07 (fun _ _ => True) fun _ => goal) ∧
  (∀ o s b, Runs (.call o) s b → NamedFull (.call o) b → MayTrap (.call o) s b →
    let goal := fun l => targetOf o b.iss.hdr (laneVal b.warp l o.a false)
    Raises (.call o) s b 0x07 (fun l _ => goal l % 8 ≠ 0) goal ∧
    Raises (.call o) s b 0x0B (fun l u => goal l % 8 = 0 ∧ 16 ≤ u.rstack.length) fun _ => b.next) ∧
  (∀ o s b, Runs (.ret o) s b → MayTrap (.ret o) s b → Raises (.ret o) s b 0x0B (fun _ u => u.rstack = []) fun _ => 0) ∧
  (∀ o s b, Runs (.bra o) s b → NamedFull (.bra o) b →
    let goal := fun l => targetOf o b.iss.hdr (laneVal b.warp l o.a false)
    (∀ l ∈ actors (.bra o) b, goal l % 8 = 0) → ∃ t, exec (.bra o) s = .next t ∧
      Goes (.bra o) b (fun l => if (acting (.bra o) b).getLsbD l then goal l else b.next) id s t) ∧
  (∀ o s b, Leads (.jmp o) s b →
    let goal := targetOf o b.iss.hdr (leadVal (.jmp o) b o.a false)
    goal % 8 = 0 → ∃ t, exec (.jmp o) s = .next t ∧
      Goes (.jmp o) b (fun l => if (acting (.jmp o) b).getLsbD l then goal else b.next) id s t) ∧
  (∀ o s b, Runs (.call o) s b → NamedFull (.call o) b →
    let goal := fun l => targetOf o b.iss.hdr (laneVal b.warp l o.a false)
    (∀ l ∈ actors (.call o) b, goal l % 8 = 0 ∧ ∀ u, b.warp.thread l = some u → u.rstack.length < 16) →
    ∃ t, exec (.call o) s = .next t ∧
      Goes (.call o) b (fun l => if (acting (.call o) b).getLsbD l then goal l else b.next)
        (fun u => { u with rstack := b.next :: u.rstack }) s t) ∧
  (∀ o s b, Runs (.ret o) s b →
    let top := fun l => ((b.warp.thread l).bind fun u => u.rstack.head?).getD 0
    (∀ l ∈ actors (.ret o) b, top l % 8 = 0 ∧ ∀ u, b.warp.thread l = some u → u.rstack ≠ []) →
    ∃ t, exec (.ret o) s = .next t ∧
      Goes (.ret o) b (fun l => if (acting (.ret o) b).getLsbD l then top l else b.next)
        (fun u => { u with rstack := u.rstack.tail }) s t)

/-- EXIT and DETACH complete (R146, R169): the guard-true threads of an EXIT, or of a DETACH in a warp that is or becomes
departing, leave their warp as EXITED; otherwise DETACH writes 0. Threads that leave, a lane fault's among them, are out of every mask
of their warp and of every round of their block's barriers, and their region is no longer live; a lane fault sets the fault mask (R7). -/
def Obligations.LeavingWords : Prop :=
  (∀ w m st reason s x y, (st = .exited ∨ st = .off) → s.warp? w = some x → (leaveLanes w m st reason s).warp? w = some y →
    let gone := m &&& x.live
    gone ≠ 0 →
    (∀ l u, x.thread l = some u → gone.getLsbD l = true → ∃ v, y.thread l = some v ∧ v.st = st ∧ v.regs = u.regs) ∧
    (∀ k ∈ y.masks, k.bits &&& gone = 0 ∧ k.wait &&& gone = 0) ∧
    ((∀ n, (x.region = .live n ∨ x.region = .committing n) → ∃ r ∈ (s.die x.die).regions, r.slot = n ∧ r.warp = w) → y.regionLive = false)) ∧
  (∀ w m st reason s x k blk l, (st = .exited ∨ st = .off) → s.warp? w = some x → x.block = some k →
    (leaveLanes w m st reason s).block? k = some blk → (m &&& x.live).getLsbD l = true →
    ∀ r ∈ blk.bars, (w, l) ∉ r.members ∧ (w, l) ∉ r.arrived ∧ (w, l) ∉ r.pending) ∧
  (∀ w m s x y, s.warp? w = some x → (laneFault w m s).warp? w = some y → y.faults = x.faults ||| m) ∧
  (∀ w m s x, m ≠ 0 → s.warp? w = some x → laneFault w m s =
    leaveLanes w m .off 5 (s.setWarp w { x with faults := x.faults ||| m, faulted := x.faulted ||| m })) ∧
  (∀ o s b, Runs (.exit o) s b → exec (.exit o) s =
    .next (finishWord b (leaveLanes b.w (acting (.exit o) b) .exited 7 s))) ∧
  (∀ o s b, Acts (.detach o) s b → (b.warp.departing = true ∨ detachMarks s b.warp = true) → exec (.detach o) s =
    .next (finishWord b (leaveLanes b.w (acting (.detach o) b) .exited 7 (s.modWarp b.w fun x => { x with departing := true })))) ∧
  (∀ o s b, Acts (.detach o) s b → b.warp.departing = false → detachMarks s b.warp = false →
    ∃ t, exec (.detach o) s = .next t ∧ Answers (.detach o) b (fun u => u.put o.v.toNat 0) s t)

/-! ### The special-function unit (05_float) -/

/-- An SFU word takes an entry of its slice's queue when fewer than 16 are taken and no earlier word waits: the destination is
marked empty in every guard-true thread and the results are on their way (R129-R133), behind the warp's earlier SFU words: in one cycle a
word on pipe A counts as issued before one on pipe B (R134). IDIV and IREM by 0 give all ones and the dividend. -/
def Obligations.SfuWords : Prop :=
  let takes := fun (i : Instr) (o : FmtR) (f : Thread → Rounded) => ∀ s b, Acts i s b →
    sfuUsed s b.warp.die b.warp.core b.warp.slice < 16 → sfuWaiters s b.warp.die b.warp.core b.warp.slice = [] →
    exec i s = .next (finishWord b { s.mapLanes b.w (acting i b) (fun _ u => u.empty [o.d.toNat]) with
      sfu := putSfu s.fresh ⟨b.w, b.warp.block, o.d.toNat,
        (actors i b).filterMap fun l => (b.warp.thread l).map fun u => (l, natWord (f u).bits, u.inWin o.d.toNat),
        laneFlags b.warp (acting i b) fun _ u => (f u).flags, b.pipe, (s.die b.warp.die).cycles⟩ s.sfu
      fresh := s.fresh + 1 })
  let one := fun (o : FmtR) (f : Nat → Rounded) (u : Thread) => f (u.val o.a o.za).toNat
  let mode := fun (m : BitVec 3) => rndOf (m.toNat % 4)
  let quot := fun (m : BitVec 3) (a b : Word) =>
    if b = 0 then 0xFFFFFFFF else if m = 1 then BitVec.ofNat 32 (a.toNat / b.toNat) else BitVec.ofInt 32 (a.toInt.tdiv b.toInt)
  let rem := fun (m : BitVec 3) (a b : Word) =>
    if b = 0 then a else if m = 1 then BitVec.ofNat 32 (a.toNat % b.toNat) else BitVec.ofInt 32 (a.toInt.tmod b.toInt)
  (∀ id q t, (∀ x ∈ t, ¬ (x.2.warp = q.warp ∧ x.2.pipe = .b ∧ q.pipe = .a ∧ x.2.time = q.time)) → putSfu id q t = t ++ [(id, q)]) ∧
  (∀ id q k p t, p.warp = q.warp → p.pipe = .b → q.pipe = .a → p.time = q.time → putSfu id q ((k, p) :: t) = (id, q) :: (k, p) :: t) ∧
  (∀ o, takes (.rcp o) o (one o (fRcp (mode o.mod)))) ∧ (∀ o, takes (.rsq o) o (one o fRsq)) ∧
  (∀ o, takes (.sqrt o) o (one o (fSqrt (mode o.mod)))) ∧
  (∀ o, takes (.div o) o fun u => fDiv (mode o.mod) (u.val o.a o.za).toNat (u.val o.b o.zb).toNat) ∧
  (∀ o, takes (.exp2 o) o (one o fExp2)) ∧ (∀ o, takes (.log2 o) o (one o fLog2)) ∧
  (∀ o, takes (.sinp o) o (one o fSinp)) ∧ (∀ o, takes (.cosp o) o (one o fCosp)) ∧
  (∀ o, takes (.tanh o) o (one o fTanh)) ∧ (∀ o, takes (.sigm o) o (one o fSigm)) ∧
  (∀ o, takes (.idiv o) o fun u => ⟨(quot o.mod (u.val o.a o.za) (u.val o.b o.zb)).toNat, 0⟩) ∧
  (∀ o, takes (.irem o) o fun u => ⟨(rem o.mod (u.val o.a o.za) (u.val o.b o.zb)).toNat, 0⟩)

/-! ### Memory, atomics and order (07_block, 08_phase, 09_atomic) -/

/-- LDB, STB, LDD, STD, LDK and STK complete when the table has an entry for each line (R163, R175, R185, R220): the operation of every
guard-true lane whose access is not denied enters the table, at the sum of its register and the signed offset, a
store with the data of its registers, a load marking them empty. Of the denied lanes a misaligned address traps MISALIGNED, one beyond the
stack STACK-OVERFLOW, both with the address (R143, R163); one beyond the window, in an unattached warp, in a slot or range the block does
not hold, or in a line the full publish buffer lacks takes a lane fault (R177, R236, R237). -/
def Obligations.MemoryWords : Prop :=
  (∀ s w sp a n write region ls,
    let d := accessDenied s w sp a n write region ls
    (a % n ≠ 0 → d = some (.trap 0x07)) ∧
    (a % n = 0 → limitOf s w sp < a + n → d = some (if sp = .stack then .trap 0x0B else .fault)) ∧
    (a % n = 0 → (sp = .shared ∨ sp = .scratch) → s.warpBlock w = none → d = some .fault) ∧
    (∀ x, a % n = 0 → a + n ≤ limitOf s w sp → (sp = .shared ∨ sp = .scratch) → s.warpBlock w = some x →
      (d = none ↔ slotsOk x (sp == .scratch) a n write = true ∧
        ¬ (sp = .scratch ∧ write = true ∧ region = false ∧ 4096 ≤ ls.length ∧ a / 64 ∉ ls)) ∧ (d ≠ none → d = some .fault)) ∧
    (a % n = 0 → a + n ≤ limitOf s w .stack → accessDenied s w .stack a n write region ls = none)) ∧
  (∀ s b m addr deny, s.bundle? = some b →
    let r := denyLanes b m addr deny s
    (∀ l, r.1.getLsbD l = true → m.getLsbD l = true ∧ (l < b.warp.width → deny l ≠ some .fault)) ∧
    (b.warp.regionLive = false → (s.ctx b.warp.ctx).tvec ≠ 0 → (∀ l, deny l ≠ some .fault) →
      (∀ l ∈ laneList b.warp.width m, ∀ u, b.warp.thread l = some u → u.trap = none) → OnlyWarp b.w s r.2 ∧ ∃ y, r.2.warp? b.w = some y ∧
        ∀ l ∈ laneList b.warp.width m, ∀ u c, b.warp.thread l = some u → deny l = some (.trap c) → (c = 0x07 ∨ c = 0x0B) →
          r.1.getLsbD l = false ∧ ∃ v, y.thread l = some v ∧ Entered s b c (addr l) 0 u v) ∧
    ((∀ l c, deny l ≠ some (.trap c)) → r.2 = laneFault b.w (laneFilter b.warp.width m fun l => deny l == some .fault) s)) ∧
  let sends := fun (i : Instr) (o : FmtM) (sp : Space) (store : Bool) => ∀ s b, Acts i s b →
    let n := sizeBytes o.size
    let rs := regRange o.d.toNat (sizeRegs o.size)
    let region := sp == .scratch && b.warp.regionLive
    let addr := fun l => ((b.warp.thread l).map fun u => (u.val o.a o.za + o.off.signExtend 32).toNat).getD 0
    let line := fun l => if sp = .stack then stackOffset s b.warp l (addr l) / 64 else addr l / 64
    let denied := deniedLanes s b.warp sp n store region ((actors i b).map fun l => (l, addr l)) (pubLines s b.warp)
    let lines := (((actors i b).filter fun l => (tget denied l).isNone).map line).dedup
    let r := denyLanes b (acting i b) addr (tget denied) s
    let t := r.2
    (lines = [] ∨ tableFree s b lines.length = true) → (∃ y, t.warp? b.w = some y ∧ (region = true → y.regionLive = true)) →
    exec i s = .next (finishWord b (addOps
      ((laneList b.warp.width r.1).map fun l =>
        ({ ctx := b.warp.ctx, warp := b.w, block := b.warp.block, lane := l, word := t.fresh, space := sp
           kind := if store then .store else .load (o.size == 5 || o.size == 6), addr := addr l, size := n
           data := if store then ((b.warp.thread l).map fun u => u.multi o.d.toNat (sizeRegs o.size)).getD 0 else 0
           cmp := 0, dst := o.d.toNat, ndst := if store then 0 else sizeRegs o.size
           win := ((b.warp.thread l).map fun u => u.inWin o.d.toNat).getD false, region := region, st := .sent
           entry := some (line l), xfer := none, port := b.warp.die, step := issueStep t b.warp.share
           time := (t.die b.warp.die).time, act := none, spot := none, sfs := none } : MemOp))
      (if store then t else t.mapLanes b.w r.1 fun _ u => u.empty rs)))
  (∀ o, sends (.ldb o) o .shared false) ∧ (∀ o, sends (.stb o) o .shared true) ∧
  (∀ o, sends (.ldd o) o .scratch false) ∧ (∀ o, sends (.std o) o .scratch true) ∧
  (∀ o, sends (.ldk o) o .stack false) ∧ (∀ o, sends (.stk o) o .stack true)

/-- ATOM, RED, WAITV and NOTE complete outside a region (R190, R193, R194, R196, R198): without an edge each guard-true lane's
operation that is not denied is sent to its port; with one the threads wait for an engine action that publishes first, after the warp's earlier
stores, sends, and refreshes once the operations are performed; an edge in a warp without a block is ILLEGAL-OPERAND. A misaligned address
is denied as MISALIGNED, one beyond the window or of an unattached warp by a lane fault (R177, R193). PHASE's action is made in its two
stages, publication and refresh (R181). -/
def Obligations.AtomicWords : Prop :=
  (∀ s w u o a,
    let d := deniedA s w u o a
    (a % 4 ≠ 0 → d = some (.trap 0x07)) ∧
    (a % 4 = 0 → (w.block = none ∨ (spaceA o ≠ .main ∧ limitOf s w (spaceA o) < a + 4)) → d = some .fault) ∧
    (a % 4 = 0 → w.block ≠ none → spaceA o = .main → d = none) ∧
    (∀ x, a % 4 = 0 → s.warpBlock w = some x → w.block ≠ none → spaceA o ≠ .main → a + 4 ≤ limitOf s w (spaceA o) →
      d = if slotsOk x (spaceA o == .scratch) a 4 (u == .atom || u == .red) then none else some .fault)) ∧
  (∀ id s a x b pub ref, tget s.acts id = some a → s.warp? a.warp = some x → x.block = some b → s.parked b = false →
    (a.kind = .phase pub ref → doneOps s a.after = true → resumeAct id s =
      if pub then (if ref then setAct id (.phase false true) (publish b s) else endAct id (publish b s))
      else endAct id (if ref then refresh b s else s)) ∧
    (∀ u o hdr idx cls n sent, a.kind = .edge u o hdr idx cls n true sent → doneOps s a.after = true →
      resumeAct id s = setAct id (.edge u o hdr idx cls n false sent) (publish b s)) ∧
    (∀ u o hdr idx cls n, a.kind = .edge u o hdr idx cls n false true → (∀ y ∈ s.ops, y.2.act ≠ some id) →
      resumeAct id s = endAct id (if o.ref then refresh b s else s))) ∧
  let sends := fun (i : Instr) (u : EdgeWord) (o : FmtA) => ∀ s b, ActsFree i s b → o.pub = false → o.ref = false →
    let addr := fun l => ((b.warp.thread l).map (addrA o)).getD 0
    let entries := (((actors i b).filter fun l => (b.warp.thread l).isSome && (deniedA s b.warp u o (addr l)).isNone).map
      fun l => entryA u o l (addr l)).dedup
    let r := denyLanes b (acting i b) addr (fun l => deniedA s b.warp u o (addr l)) s
    (entries = [] ∨ tableFree s b entries.length = true) → (r.2.warp? b.w).isSome = true →
    exec i s = .next (finishWord b (addOps
      ((laneList b.warp.width r.1).filterMap fun l => (b.warp.thread l).map (opA r.2 b u o none l))
      (r.2.mapLanes b.w r.1 fun _ t => t.empty (dstsA u o))))
  let edge := fun (i : Instr) (u : EdgeWord) (o : FmtA) => ∀ s b, ActsFree i s b → (o.pub = true ∨ o.ref = true) →
    (b.warp.block.isSome = true → exec i s = .next (finishWord b (waitLanes b (acting i b) (.act s.fresh) { s with
      acts := tput s.acts s.fresh ⟨b.w, acting i b,
        .edge u o b.iss.hdr b.iss.idx b.iss.cls (b.iss.words.length - 1) o.pub false, if o.pub then storesOf s b.w else []⟩
      fresh := s.fresh + 1 }))) ∧
    (b.warp.block = none → exec i s = .next (trapWord b (acting i b) 0x03 s))
  (∀ o, sends (.atom o) .atom o ∧ edge (.atom o) .atom o) ∧ (∀ o, sends (.red o) .red o ∧ edge (.red o) .red o) ∧
  (∀ o, sends (.waitv o) .waitv o ∧ edge (.waitv o) .waitv o) ∧ (∀ o, sends (.note o) .note o ∧ edge (.note o) .note o)

/-- PHASE and FENCE complete (R181, R188): PHASE's threads wait for the publication and refresh its mod names, after the warp's
earlier stores; a FENCE with no entry in its scope falls through, one with entries blocks until they are gone: executed again, it blocks
while one of the entries it found is left, and falls through when none is. -/
def Obligations.OrderWords : Prop :=
  (∀ o s b, StandsFree (.phase o) s b → exec (.phase o) s =
    .next (finishWord b (waitLanes b (acting (.phase o) b) (.act s.fresh) { s with
      acts := tput s.acts s.fresh ⟨b.w, acting (.phase o) b, .phase (o.mod != 1) (o.mod != 0), storesOf s b.w⟩
      fresh := s.fresh + 1 }))) ∧
  (∀ o s b, Runs (.fence o) s b → b.iss.after = none → fenceOps s b.w o.mod.toNat = [] →
    exec (.fence o) s = .next (finishWord b s)) ∧
  (∀ o s b, Runs (.fence o) s b → acting (.fence o) b ≠ 0 → b.iss.after = none → entriesGone s (fenceOps s b.w o.mod.toNat) = false →
    exec (.fence o) s = .next (blockWord b (s.modIss b.w b.pipe fun i => { i with after := some (fenceOps s b.w o.mod.toNat) }))) ∧
  (∀ o s b ids, Runs (.fence o) s b → acting (.fence o) b ≠ 0 → b.iss.after = some ids →
    (entriesGone s ids = true → exec (.fence o) s = .next (finishWord b s)) ∧
    (entriesGone s ids = false → ∃ t, exec (.fence o) s = .next t ∧ OnlyWarp b.w s t ∧ ∃ y j, t.warp? b.w = some y ∧ y.iss b.pipe = some j ∧
      j.blocked = true ∧ j.after = some ids ∧ j.idx = b.iss.idx ∧ j.lanes = b.iss.lanes))

/-- REGB, REGE, REGX and REGQ complete (R219, R223, R224, R232): REGB's threads wait to open a region whose abort target is the
word's (that each bundle's REGB overwrites the warp's target, so that the last executed wins, is log entry 33, the model's choice);
REGE's wait to commit; REGX aborts with reason 7; REGQ asks the tracker for the status word. Every word that R226 names aborts a live
region with reason 8 and does nothing else. -/
def Obligations.RegionWords : Prop :=
  (∀ o s b, LeadsFree (.regb o) s b → limitOf s b.warp .scratch ≠ 0 →
    let goal := targetOf o b.iss.hdr (leadVal (.regb o) b o.a false)
    goal % 8 = 0 → exec (.regb o) s = .next (checkRegb b.w (finishWord b (waitLanes b (acting (.regb o) b) .regb
      (s.modWarp b.w fun x => { x with region := .opening, rtarget := goal }))))) ∧
  (∀ i s b, nests i = true → Runs i s b → acting i b ≠ 0 → b.warp.regionLive = true →
    exec i s = .next (finishWord b (abortRegion b.w 8 s))) ∧
  (∀ i s b, nestsBar i = true → Acts i s b → Outside b (acting i b) → b.warp.regionLive = true →
    exec i s = .next (finishWord b (abortRegion b.w 8 s))) ∧
  (∀ o s b, Runs (.rege o) s b → acting (.rege o) b ≠ 0 → b.warp.regionLive = true →
    exec (.rege o) s = .next (checkRege b.w (finishWord b (waitLanes b (acting (.rege o) b) .rege s)))) ∧
  (∀ o s b, Runs (.regx o) s b → acting (.regx o) b ≠ 0 → b.warp.regionLive = true →
    exec (.regx o) s = .next (finishWord b (abortRegion b.w 7 s))) ∧
  (∀ o s b, Runs (.regq o) s b → NamedFull (.regq o) b → exec (.regq o) s = .next (finishWord b (addOps
    ((actors (.regq o) b).map fun l => { newOp s b l .scratch .regq 0 4 with
      dst := o.d.toNat, ndst := 1, entry := none, win := ((b.warp.thread l).map fun u => u.inWin o.d.toNat).getD false })
    (s.mapLanes b.w (acting (.regq o) b) fun _ u => u.empty [o.d.toNat]))))

/-! ### The copy engine and buffers (13_buffer) -/

/-- The nine copy words complete outside a region, when the token register and the operands are full, the warp's earlier
stores acknowledged and the queue of 128 has room (R239, R245-R248, R338): they take the token and are accepted, CPYG and CPYS
in commands of at most 32 rows. -/
def Obligations.CopyWords : Prop :=
  let accepts := fun (i : Instr) (kind : CopyKind) (o : FmtC) => ∀ s b, StandsFree i s b →
    let ls := copyLanes kind b (acting i b)
    let val := fun l => laneVal b.warp l o.v false
    let rows := if kind = .cpyg ∨ kind = .cpys then ls.zipIdx.map fun x => (x.2, (val x.1).toNat) else []
    let groups := if kind = .cpyg ∨ kind = .cpys then rowCommands 4 rows else [[]]
    let far := if kind = .cpyf then 0 else (b.wr o.wa.toNat).val.toNat + 2 ^ 32 * (b.wr (o.wa.toNat + 1)).val.toNat
    let par := readPar s b.warp (o.mod.getLsbD 4) (b.wr o.wp.toNat).val.toNat
    StoresDone s b → (∀ r ∈ o.token.toNat :: copyWregs kind o, (b.wr r).full = true) →
    (∀ l ∈ ls, ∀ u, b.warp.thread l = some u → (u.reg o.v.toNat).full = true) →
    ((kind.writesNear || kind.readsNear) = true → copyBufOk kind (bufOf s b o.buf) o.imm.toNat = true) →
    copiesUsed s b.warp.die b.warp.core + groups.length ≤ 128 → copyWaiters s b.warp.die b.warp.core = [] →
    exec i s = .next (finishWord b (acceptCopies (groups.map fun g =>
      { newCopy s b.w b.warp o.token.toNat kind par far o.buf.toNat o.imm.toNat ((ls.head?.map val).getD 0) with rows := g })
      (s.setWreg b.w o.token.toNat ⟨(b.wr o.token.toNat).val, false⟩)))
  (∀ o, accepts (.cpyin o) .cpyin o) ∧ (∀ o, accepts (.cpyout o) .cpyout o) ∧ (∀ o, accepts (.cpyg o) .cpyg o) ∧
  (∀ o, accepts (.cpys o) .cpys o) ∧ (∀ o, accepts (.cpyd o) (.cpyd (o.mod.getLsbD 0)) o) ∧ (∀ o, accepts (.cpyf o) .cpyf o) ∧
  (∀ o, accepts (.cpyfFar o) .cpyfFar o) ∧ (∀ o, accepts (.pfch o) .pfch o) ∧ (∀ o, accepts (.evict o) .evict o)

/-- BUFD, PUBL, RPUSH, RPOP, RWAIT.c, RWAIT.p, CPYQ, STAGE.max and STAGE.add complete outside a region (R97, R235, R250-R254,
R257): BUFD, PUBL and RPUSH start an engine action their threads wait for, which, once what it waits for is done, installs the
descriptor with every counter 0, exchanges front and shadow, or advances P; RPOP advances C; RWAIT waits with its token empty; CPYQ
reads a counter and marks its register empty until the value lands; STAGE raises the stage counter. -/
def Obligations.BufferWords : Prop :=
  let starts := fun (i : Instr) (b : Bundle) (k : ActKind) (after : List Nat) (s : State) => exec i s =
    .next (finishWord b (waitLanes b (acting i b) (.act s.fresh) { s with
      acts := tput s.acts s.fresh ⟨b.w, acting i b, k, after⟩, fresh := s.fresh + 1 }))
  let waits := fun (i : Instr) (o : FmtC) (prod : Bool) => ∀ s b, StandsFree i s b →
    let q := bufOf s b o.buf
    q.kind = .ring → (if prod then q.psd else q.csd) = false → o.imm ≠ 0 → o.imm.toNat ≤ q.slots →
    (b.wr o.token.toNat).full = true →
    exec i s = .next (finishWord b { s.setWreg b.w o.token.toNat ⟨(b.wr o.token.toNat).val, false⟩ with
      rwaits := tput s.rwaits s.fresh (b.warp.block.getD 0, o.buf.toNat, o.imm.toNat, o.token.toNat, prod)
      rwaitW := tput s.rwaitW s.fresh b.w, fresh := s.fresh + 1 })
  (∀ o s b, StandsFree (.bufd o) s b →
    let rs := (List.range 4).map fun k => b.wr (o.wa.toNat + k)
    let blk := b.warp.block.getD 0
    (∀ r ∈ rs, r.full = true) →
    descOk (rs.map VReg.val) (fun die => limitOf s b.warp (if die then .scratch else .shared)) = true →
    (s.copies.filter fun c => c.2.block == some blk && c.2.buf == o.buf.toNat && c.2.st == .waiting &&
      (c.2.kind.writesNear || c.2.kind.readsNear)) = [] →
    starts (.bufd o) b (.bufd o.buf.toNat (rs.map VReg.val)) (usersOf s blk o.buf.toNat) s) ∧
  (∀ o s b, StandsFree (.publ o) s b → (bufOf s b o.buf).kind = .plain → (o.mod = 1 → (bufOf s b o.buf).die = true) →
    let blk := b.warp.block.getD 0
    starts (.publ o) b (.publ blk o.buf.toNat (o.mod == 1) false) (writersOf s blk o.buf.toNat) s) ∧
  (∀ o s b, StandsFree (.rpush o) s b →
    let q := bufOf s b o.buf
    q.kind = .ring → q.psd = false → o.imm ≠ 0 → o.imm.toNat ≤ q.slots →
    o.imm.toNat ≤ (q.rl + BitVec.ofNat 32 q.slots - q.p).toNat →
    starts (.rpush o) b (.rpush o.buf.toNat o.imm.toNat) (storesOf s b.w) s) ∧
  (∀ o s b, StandsFree (.rpop o) s b →
    let q := bufOf s b o.buf
    q.kind = .ring → q.csd = false → o.imm ≠ 0 → o.imm.toNat ≤ (q.aq - q.c).toNat →
    exec (.rpop o) s = .next (finishWord b (s.modBuf (b.warp.block.getD 0) o.buf.toNat fun q =>
      { q with c := q.c + o.imm.setWidth 32, cr := q.c + o.imm.setWidth 32 }))) ∧
  (∀ o, waits (.rwaitC o) o false) ∧ (∀ o, waits (.rwaitP o) o true) ∧
  (∀ o s b, StandsFree (.cpyq o) s b → (o.mod = 3 ∨ (bufOf s b o.buf).kind ≠ .none) → (b.wr o.token.toNat).full = true →
    let q := bufOf s b o.buf
    let v : Word := match o.mod.toNat with
      | 0 => if q.kind = .ring then q.p else 0
      | 1 => if q.kind = .ring then q.c else 0
      | 2 => if q.kind = .ring then 0 else q.pubs
      | _ => ((s.block? (b.warp.block.getD 0)).map Block.sigma).getD 0
    exec (.cpyq o) s = .next (finishWord b { s.setWreg b.w o.token.toNat ⟨(b.wr o.token.toNat).val, false⟩ with
      acts := tput s.acts s.fresh ⟨b.w, 0, .cpyq o.token.toNat v, []⟩, fresh := s.fresh + 1 })) ∧
  (∀ id s a r v x, tget s.acts id = some a → a.kind = .cpyq r v → a.after = [] → s.warp? a.warp = some x →
    (x.block.map s.parked).getD false = false →
    resumeAct id s = fillToken a.warp r v { s with acts := tdel s.acts id }) ∧
  (∀ o s b, StandsFree (.stageMax o) s b → StoresDone s b → (b.wr o.wp.toNat).full = true →
    exec (.stageMax o) s = .next (finishWord b (s.modBlock (b.warp.block.getD 0) fun x =>
      { x with sigma := if x.sigma.toNat < (b.wr o.wp.toNat).val.toNat then (b.wr o.wp.toNat).val else x.sigma }))) ∧
  (∀ o s b, StandsFree (.stageAdd o) s b → StoresDone s b →
    exec (.stageAdd o) s = .next (finishWord b (s.modBlock (b.warp.block.getD 0) fun x =>
      { x with sigma := BitVec.ofNat 32 (min (x.sigma.toNat + o.imm.toNat) (2 ^ 32 - 1)) }))) ∧
  (∀ id s a x b, tget s.acts id = some a → s.warp? a.warp = some x → x.block = some b → s.parked b = false → goneAll s a.after = true →
    (∀ q ws, a.kind = .bufd q ws →
      let t := endUnfired b q s
      let new := descOf ws
      let old := t.buf b q
      usersOf t b q = [] → resumeAct id s = endAct id (t.modBuf b q fun _ => { new with
        shadow := if new.kind = .plain && new.die && old.die then
            old.shadow.filter fun c => decide (new.second ≤ c.1) && decide (c.1 < new.second + new.size) else [] })) ∧
    (∀ c q ref, a.kind = .publ c q ref false →
      resumeAct id s = (if ref then setAct id (.publ c q ref true) (exchangeBuf c q s) else endAct id (exchangeBuf c q s)) ∧
      exec (.publication id) s = .next (resumeAct id s)) ∧
    (∀ c q ref, a.kind = .publ c q ref true → resumeAct id s = endAct id (refresh c s)) ∧
    (∀ q k, a.kind = .rpush q k → exec (.publication id) s = .next (endAct id (pushSlots b q k s)))) ∧
  (∀ b q s x, s.block? b = some x →
    let y := x.buf q
    let front := nearRead s x y.die y.base y.size
    let back := nearRead s x y.die y.second y.size
    let t := s.modBuf b q fun z => { z with pubs := z.pubs + 1 }
    (y.die = false → exchangeBuf b q s = t.modBlock b fun z =>
      { z with mem := msetAll (msetAll z.mem (cellsAt y.base back)) (cellsAt y.second front) }) ∧
    (y.die = true → exchangeBuf b q s = homeWrite x.share
      ((List.range y.size).map fun k => (y.base + k, (tget y.shadow (y.second + k)).getD (back.getD k 0)))
      (t.modBuf b q fun z => { z with shadow := cellsAt y.second front }))) ∧
  (∀ b q k s x, s.block? b = some x →
    let y := x.buf q
    let inSlot := fun (a : Nat) => ((List.range k).map fun i => nearAddr y true y.p (i * y.size)).any fun lo =>
      decide (lo ≤ a) && decide (a < lo + y.size)
    let out := x.pub.filter fun c => inSlot c.1
    let t := s.modBuf b q fun z => { z with p := z.p + BitVec.ofNat 32 k, pr := z.p + BitVec.ofNat 32 k }
    pushSlots b q k s = if y.die then homeWrite x.share out (t.modBlock b fun z =>
      { z with pub := z.pub.filter fun c => !inSlot c.1, view := msetAll z.view out }) else t)

/-- CLOAD, CRUN, CARM, CSTEP.q and CSTEP.wait complete outside a region, when the token register is full and the warp's earlier
stores acknowledged (R366-R369): a load and a start join their slot in order, CARM arms it, CSTEP.q answers the completed step
and CSTEP.wait waits for one. CRUN and CARM need their base table to be readable. -/
def Obligations.CollectiveWords : Prop :=
  let ready := fun (i : Instr) (o : FmtC) (s : State) (b : Bundle) => LeadsFree i s b ∧ StoresDone s b ∧ (b.wr o.token.toNat).full = true
  let taken := fun (b : Bundle) (o : FmtC) (s : State) => s.setWreg b.w o.token.toNat ⟨(b.wr o.token.toNat).val, false⟩
  (∀ o s b a, ready (.cload o) o s b → pairWa b o = some a →
    exec (.cload o) s =
      let s := endArmed b.warp.share o.imm.toNat (taken b o s)
      .next (serveAll b.warp.share o.imm.toNat (finishWord b (s.modShare b.warp.share fun h =>
        { h with waits := h.waits ++ [.load s.fresh o.imm.toNat a (some (b.w, o.token.toNat))] }).bump))) ∧
  (∀ o s b a h es bad t, ready (.crun o) o s b → pairWa b o = some a → s.share? b.warp.share = some h →
    readBases b.warp.share h a s = (some (es, bad), t) →
    exec (.crun o) s = .next (startRun b.warp.share o.imm.toNat es bad (some (b.w, o.token.toNat)) (finishWord b (taken b o t)))) ∧
  (∀ o s b a h es bad t, ready (.carm o) o s b → pairWa b o = some a → s.share? b.warp.share = some h →
    readBases b.warp.share h a s = (some (es, bad), t) →
    exec (.carm o) s = .next (finishWord b ((endArmed b.warp.share o.imm.toNat (taken b o t)).modShare b.warp.share fun h =>
      { h with armed := tput h.armed o.imm.toNat ⟨(leadPair (.carm o) b o.v false).toNat, es, bad, some (b.w, o.token.toNat)⟩ }))) ∧
  (∀ o s b, ready (.cstepQ o) o s b → ∃ t, exec (.cstepQ o) s = .next t ∧ WarpBecomes b { b.warp with
    wregs := b.warp.wregs.set o.token.toNat ⟨((s.share? b.warp.share).map Share.done).getD 0, true⟩ } s t) ∧
  (∀ o s b, ready (.cstepWait o) o s b → exec (.cstepWait o) s =
    .next (fillSteps b.warp.share (finishWord b ((taken b o s).modShare b.warp.share fun h =>
      { h with waits := h.waits ++ [.step (leadVal (.cstepWait o) b o.v false) (some (b.w, o.token.toNat))] }))))

/-! ### The matrix engine (14_tile, 15_drain) -/

/-- MCLR, MLDT, MMOVR, MMOVW and MQRY complete when their tile exists, their indices are in range and the queue of 16 has a place
(R261, R271-R274): one operation is queued, and the results' registers are marked empty. -/
def Obligations.TileWords : Prop :=
  let index := fun (o : FmtT) (b : Bundle) (l : Nat) => (laneVal b.warp l o.vf false + o.imm.setWidth 32).toNat
  let win := fun (b : Bundle) (l r : Nat) => ((b.warp.thread l).map fun u => u.inWin r).getD false
  let empties := fun (i : Instr) (b : Bundle) (rs : List Nat) (s : State) => s.mapLanes b.w (acting i b) fun _ u => u.empty rs
  (∀ o s b, Runs (.mclr o) s b → acting (.mclr o) b ≠ 0 → TileRoom s b o.tile.toNat →
    Queues (.mclr o) b o.tile.toNat (.mclr (o.imm.toNat % 16)) s s) ∧
  (∀ o s b, Leads (.mldt o) s b → TileRoom s b o.tile.toNat →
    let q := bufOf s b o.q
    let x := leadVal (.mldt o) b o.vf false
    q.kind = .plain → 16 * o.imm.toNat + 8192 ≤ q.size → x.toNat < 2 ^ 20 → (x.toNat / 2 ^ 18 = 1 ∨ x.toNat / 2 ^ 18 = 2) →
    Queues (.mldt o) b o.tile.toNat (.mldt (o.mod == 1) o.q.toNat o.imm.toNat x) s s) ∧
  (∀ o s b, Acts (.mmovr o) s b → TileRoom s b o.tile.toNat → (∀ l ∈ actors (.mmovr o) b, index o b l < 1024) →
    Queues (.mmovr o) b o.tile.toNat (.mmovr (o.mod == 1) o.va.toNat
      ((actors (.mmovr o) b).map fun l => (l, index o b l, win b l o.va.toNat))) s (empties (.mmovr o) b (regRange o.va.toNat 2) s)) ∧
  (∀ o s b, Acts (.mmovw o) s b → TileRoom s b o.tile.toNat → (∀ l ∈ actors (.mmovw o) b, index o b l < 1024) →
    Queues (.mmovw o) b o.tile.toNat (.mmovw (o.mod == 1)
      ((actors (.mmovw o) b).map fun l => (l, index o b l, ((b.warp.thread l).map fun u => u.pair o.va.toNat).getD 0))) s
      (empties (.mmovw o) b [] s)) ∧
  (∀ o s b, Acts (.mqry o) s b → TileRoom s b o.tile.toNat → (o.mod = 1 → ∀ l ∈ actors (.mqry o) b, index o b l < 32) →
    Queues (.mqry o) b o.tile.toNat (.mqry (o.mod == 1) o.va.toNat
      ((actors (.mqry o) b).map fun l => (l, if o.mod = 1 then index o b l else 0, win b l o.va.toNat))) s
      (empties (.mqry o) b [o.va.toNat] s))

/-- MDRAIN in its store and update modes, QDUAL and RQNT complete when their parameters are legal and the queue has a place
(R261, R279, R283, R286, R287): one operation is queued. -/
def Obligations.DrainWords : Prop :=
  let rnd := fun (o : FmtT) => o.mod.toNat / 8
  (∀ o s b, Leads (.mdrain o) s b → TileRoom s b o.tile.toNat →
    let q := bufOf s b o.q
    let fmt := o.mod.toNat % 8
    let n := if q.kind = .ring then 0 else 16 * o.imm.toNat
    let at_ := (leadVal (.mdrain o) b o.va false).toNat
    let bytes := if fmt = 0 then 4096 else if fmt = 1 then 2048 else if fmt = 3 then 512 else 1024
    let rec_ := if fmt = 4 then 80 else 16
    q.kind ≠ .none → (q.kind = .ring → q.psd = true ∧ o.imm = 0) → at_ % 16 = 0 → n + bytes ≤ q.size → at_ + rec_ ≤ q.size →
    (n + bytes ≤ at_ ∨ at_ + rec_ ≤ n) →
    Queues (.mdrain o) b o.tile.toNat (.mdrain fmt (rnd o) o.q.toNat n at_) s s) ∧
  (∀ o s b, Leads (.mdrainAdd o) s b → TileRoom s b o.tile.toNat →
    let mem := o.mod.toNat / 8 == 1
    let x := if mem then (leadPair (.mdrainAdd o) b o.va false).toNat else (leadVal (.mdrainAdd o) b o.va false).toNat
    x % 16 = 0 → 8 ≤ o.imm.toNat → (mem = false → x + 31 * (16 * o.imm.toNat) + 128 ≤ limitOf s b.warp .scratch) →
    Queues (.mdrainAdd o) b o.tile.toNat (.update false mem x (16 * o.imm.toNat) 0) s s) ∧
  (∀ o s b, Leads (.mdrainUpd o) s b → TileRoom s b o.tile.toNat →
    let mem := o.mod.toNat / 8 == 1
    let x := if mem then (leadPair (.mdrainUpd o) b o.va false).toNat else (leadVal (.mdrainUpd o) b o.va false).toNat
    x % 16 = 0 → 8 ≤ o.imm.toNat → (mem = false → x + 31 * (16 * o.imm.toNat) + 128 ≤ limitOf s b.warp .scratch) →
    Queues (.mdrainUpd o) b o.tile.toNat
      (.update true mem x (16 * o.imm.toNat) (leadVal (.mdrainUpd o) b o.vf false)) s s) ∧
  (∀ o s b, Leads (.qdual o) s b → tilePlace s b.warp.die b.warp.core = true →
    let q := bufOf s b o.q
    let at_ := (leadVal (.qdual o) b o.va false).toNat
    let f := leadVal (.qdual o) b o.vf false
    q.kind = .plain → at_ % 16 = 0 → fmtKind f = 0 → fmtScale f = 0 → biasOk (fmtBias f) = true →
    16 * o.imm.toNat + (if o.mod.getLsbD 0 then 2048 else 4096) ≤ q.size → at_ + 2192 ≤ q.size →
    Queues (.qdual o) b 0 (.qdual (o.mod.getLsbD 0) (rnd o) o.q.toNat (16 * o.imm.toNat) at_ f) s s) ∧
  (∀ o s b, Leads (.rqnt o) s b → tilePlace s b.warp.die b.warp.core = true →
    let q := bufOf s b o.q
    let at_ := (leadVal (.rqnt o) b o.va false).toNat
    let f := leadVal (.rqnt o) b o.vf false
    q.kind = .plain → at_ % 16 = 0 → (fmtKind f = 0 ∨ fmtKind f = 1 ∨ fmtKind f = 4) → biasOk (fmtBias f) = true →
    fmtScale f ≠ 0xFFF → 16 * o.imm.toNat + 1040 ≤ q.size → at_ + (if fmtKind f = 4 then 4112 else 1040) ≤ q.size →
    Queues (.rqnt o) b 0 (.rqnt (rnd o) o.q.toNat (16 * o.imm.toNat) at_ f) s s)

/-- MMA and MMA.keep sign their mask's round outside a handler (R264, R268): the guard-true members stage their registers and
format words, or none under .keep, wait, and the round is checked. The round must be new, or open with the same tile, buffer,
mod and immediate. -/
def Obligations.SigningWords : Prop :=
  let signs := fun (i : Instr) (o : FmtT) (keep : Bool) => ∀ s b, Runs i s b → acting i b ≠ 0 →
    let q := bufOf s b o.q
    let k := o.mask.toNat
    let mask := (b.warp.masks[k]?).getD ⟨0, 0, 0, none⟩
    let mem := acting i b &&& mask.bits
    let ls := laneList b.warp.width mem
    let rs := regRange o.va.toNat (256 / b.warp.width)
    let stage := fun l => if keep then (⟨[], 0, b.iss.hdr, b.iss.idx, b.iss.words.length - 1⟩ : Staged)
      else ⟨rs.map fun r => ((b.warp.thread l).map fun u => (u.reg r).val).getD 0, laneVal b.warp l o.vf false,
        b.iss.hdr, b.iss.idx, b.iss.words.length - 1⟩
    let r0 : SignRound := mask.round.getD ⟨o.tile.toNat, o.q.toNat, o.mod.toNat, o.imm.toNat, 0, [], .opened⟩
    Outside b (acting i b) → o.tile.toNat < tileCount s b.warp → q.kind = .ring → q.csd = true → 1040 ≤ q.size →
    r0.st = .opened → r0.tile = o.tile.toNat → r0.q = o.q.toNat → r0.mod = o.mod.toNat → r0.imm = o.imm.toNat → ls ≠ [] →
    (if keep then b.warp.latch.valid = true else
      (∀ l ∈ ls, ∀ u, b.warp.thread l = some u → ∀ r ∈ o.vf.toNat :: rs, (u.reg r).full = true) ∧
      ∀ l ∈ ls, fmtKind (laneVal b.warp l o.vf false) < 4 ∧ biasOk (fmtBias (laneVal b.warp l o.vf false)) = true) →
    exec i s = .next (checkSign b.w k (finishWord b (waitLanes b mem (.sign k) (s.modWarp b.w fun y =>
      { y with masks := lmod y.masks k fun z => { z with round := some { r0 with
          signed := r0.signed ||| mem, staged := ls.foldl (fun t l => tput t l (stage l)) r0.staged } } }))))
  (∀ o, signs (.mma o) o false) ∧ (∀ o, signs (.mmaKeep o) o true)

/-! ### Masks, barriers and the life of a warp (06_group, 07_block, 10_barrier, 17_kernel) -/

/-- MJOIN, MLEAVE, MSET and MWAIT complete (R149-R151): a mask's bits change and its rounds are checked; MWAIT's threads arrive and
wait. Threads that arrive, at a mask or a barrier, do so at once when no store of their warp is unacknowledged; a thread whose own
stores are not waits for them first. -/
def Obligations.MaskWords : Prop :=
  let writes := fun (b : Bundle) (k : Nat) (f : Lanes → Lanes) (s : State) => finishWord b (checkMask b.w k (s.modWarp b.w fun x =>
    { x with masks := lmod x.masks k fun r => { r with bits := f r.bits } }))
  (∀ o s b, Runs (.mjoin o) s b → acting (.mjoin o) b ≠ 0 →
    exec (.mjoin o) s = .next (writes b o.idx.toNat (fun k => k ||| acting (.mjoin o) b) s)) ∧
  (∀ o s b, Runs (.mleave o) s b → acting (.mleave o) b ≠ 0 →
    exec (.mleave o) s = .next (writes b o.idx.toNat (fun k => k &&& ~~~ acting (.mleave o) b) s)) ∧
  (∀ o s b, Leads (.mset o) s b →
    let all : Lanes := 0xFFFFFFFF#128 <<< (32 * o.imm.toNat)
    let v : Lanes := (leadVal (.mset o) b o.v false).setWidth 128 <<< (32 * o.imm.toNat)
    exec (.mset o) s = .next (writes b o.idx.toNat (fun k =>
      (if o.mod = 0 then k &&& ~~~ all ||| v else if o.mod = 1 then k ||| v else k &&& ~~~ v) &&& allLanes b.warp.width) s)) ∧
  (∀ o s b, Runs (.mwait o) s b → acting (.mwait o) b ≠ 0 → exec (.mwait o) s =
    .next (startArrival b (acting (.mwait o) b) (.arriveMask o.idx.toNat) (arriveMask b.w o.idx.toNat) s)) ∧
  (∀ b m k now s, m ≠ 0 → storesOf s b.w = [] →
    startArrival b m k now s = now m (finishWord b (waitLanes b m (.act s.fresh) s))) ∧
  (∀ b l k now s, l < 128 → l < b.warp.width → storesOfLanes s b.w (laneBit l) ≠ [] →
    let t := waitLanes b (laneBit l) (.act s.fresh) { s with
      acts := tput s.acts s.fresh ⟨b.w, laneBit l, k, storesOfLanes s b.w (laneBit l)⟩, fresh := s.fresh + 1 }
    startArrival b (laneBit l) k now s = finishWord b (waitLanes b 0 (.act t.fresh) t))

/-- BARB, BARA, BARW, BARD, TREEA and TREEW complete outside a handler and a region (R200-R213): arrivals are recorded and the
round checked, BARA and TREEA write their tokens first, and BARW and TREEW wait in the threads whose round has not completed. BARD in a
kernel that is not resident, and TREEA and TREEW on a channel the warp may not use, are ILLEGAL-OPERAND (R213). -/
def Obligations.BarrierWords : Prop :=
  let blk := fun (b : Bundle) => b.warp.block.getD 0
  let waits := fun (i : Instr) (b : Bundle) (r : Nat) (count : Word) (k : Word → Wait) (s : State) =>
    let tok := fun l => ((b.warp.thread l).map fun u => (u.reg r).val).getD 0
    let wait := laneFilter b.warp.width (acting i b) fun l => !(decide (1 ≤ (count - tok l).toNat) && decide ((count - tok l).toNat ≤ 2 ^ 31))
    exec i s = .next (finishWord b (dropLanes b wait (s.mapLanes b.w wait fun l u =>
      { u with st := .waiting (k (tok l)), pc := atHeader (u.redirect.getD b.next) })))
  (∀ o s b, StandsFree (.bard o) s b → Outside b (acting (.bard o) b) → ((s.launch? b.warp).map Launch.resident).getD false = false →
    exec (.bard o) s = .next (trapWord b (acting (.bard o) b) 0x03 s)) ∧
  (∀ o s b, treeAllowed s b.warp o.idx.toNat = false →
    (StandsFree (.treea o) s b → Outside b (acting (.treea o) b) → exec (.treea o) s = .next (trapWord b (acting (.treea o) b) 0x03 s)) ∧
    (ActsFree (.treew o) s b → Outside b (acting (.treew o) b) → exec (.treew o) s = .next (trapWord b (acting (.treew o) b) 0x03 s))) ∧
  (∀ (x : Warp) ch s, treeAllowed s x ch = true ↔ (s.mod.tree ch).getLsbD 32 = true ∧
    ((s.mod.tree ch).extractLsb' 33 8).toNat = x.ctx ∧ inSegment (s.mod.tree ch) x.die = true) ∧
  (∀ o s b, StandsFree (.barb o) s b → Outside b (acting (.barb o) b) → barBusy s b o.idx.toNat (acting (.barb o) b) = false →
    exec (.barb o) s = .next (startArrival b (acting (.barb o) b) (.arriveBar o.idx.toNat)
      (arriveBarWait (blk b) b.w o.idx.toNat) s)) ∧
  (∀ o s b, ActsFree (.bara o) s b → Outside b (acting (.bara o) b) → storesOfLanes s b.w (acting (.bara o) b) = [] →
    b.iss.after = none → barBusy s b o.idx.toNat (acting (.bara o) b) = false →
    exec (.bara o) s = .next (finishWord b (arriveBar (blk b) b.w o.idx.toNat (acting (.bara o) b)
      (s.mapLanes b.w (acting (.bara o) b) fun l u => u.put o.v.toNat (arrivalToken (s.bar (blk b) o.idx.toNat) (b.w, l)))))) ∧
  (∀ o s b, ActsFree (.barw o) s b → Outside b (acting (.barw o) b) →
    waits (.barw o) b o.v.toNat (s.bar (blk b) o.idx.toNat).counter (.barrier o.idx.toNat) s) ∧
  (∀ o s b, StandsFree (.bard o) s b → Outside b (acting (.bard o) b) → ((s.launch? b.warp).map Launch.resident).getD false = true →
    exec (.bard o) s = .next (startArrival b (acting (.bard o) b) (.arriveDie (o.mod == 1))
      (fun m => arriveDie b.w m (o.mod == 1)) s)) ∧
  (∀ o s b, ActsFree (.treea o) s b → Outside b (acting (.treea o) b) → treeAllowed s b.warp o.idx.toNat = true →
    let c := s.core b.warp.die b.warp.core
    let t := s.mapLanes b.w (acting (.treea o) b) fun _ u => u.put o.v.toNat (c.counts.getD o.idx.toNat 0)
    exec (.treea o) s = .next (finishWord b (if c.arrived.getD o.idx.toNat false then t
      else checkTree o.idx.toNat (t.modCore b.warp.die b.warp.core fun c => { c with arrived := c.arrived.set o.idx.toNat true })))) ∧
  (∀ o s b, ActsFree (.treew o) s b → Outside b (acting (.treew o) b) → treeAllowed s b.warp o.idx.toNat = true →
    waits (.treew o) b o.v.toNat ((s.core b.warp.die b.warp.core).counts.getD o.idx.toNat 0) (.tree o.idx.toNat) s)

/-- ATTACH, SLEEP, SLEEP.until and ENQ complete (R167, R171, R297): ATTACH's threads wait for the warp's last, which decides; sleepers
wait until their module time, 47,000,000 units to the ns (log entry 2); ENQ's threads wait for the entries of FENCE.module. Then ENQ goes
to die 0, which answers BAD-ADDRESS, BAD-QUEUE or FULL, or writes the record's address in the ring entry QWP names, adds 1 to QWP and
answers the slot; a ring that may not be written answers RING-ERROR and disables the queue. A ring in host memory is written by a host
request, whose time-out answers RING-ERROR too (log entry 23, the model's choice). -/
def Obligations.WarpLifeWords : Prop :=
  let sleeps := fun (i : Instr) (b : Bundle) (to_ : Nat → Nat) (s : State) =>
    let wait := laneFilter b.warp.width (acting i b) fun l => decide ((s.die b.warp.die).time < to_ l)
    exec i s = .next (finishWord b (dropLanes b wait (s.mapLanes b.w wait fun l u =>
      { u with st := .waiting (.sleep (to_ l)), pc := atHeader (u.redirect.getD b.next) })))
  (∀ o s b, Acts (.attach o) s b → exec (.attach o) s =
    .next (checkAttach b.w (finishWord b (waitLanes b (acting (.attach o) b) (.attach o.v.toNat) s)))) ∧
  (∀ o s b, StandsFree (.sleep o) s b →
    sleeps (.sleep o) b (fun _ => (s.die b.warp.die).time + o.imm.toNat * 47000000) s) ∧
  (∀ o s b, ActsFree (.sleepUntil o) s b →
    sleeps (.sleepUntil o) b (fun l => ((b.warp.thread l).map fun u => (u.pair o.v.toNat).toNat).getD 0 * 47000000) s) ∧
  (∀ o s b, ActsFree (.enq o) s b → (b.wr o.w.toNat).full = true → (b.wr (o.w.toNat + 1)).full = true →
    exec (.enq o) s = .next (finishWord b (waitLanes b (acting (.enq o) b) (.act s.fresh) { s with
      acts := tput s.acts s.fresh ⟨b.w, acting (.enq o) b,
        .enq (pairOf (b.wr o.w.toNat).val (b.wr (o.w.toNat + 1)).val).toNat o.imm.toNat o.v.toNat, fenceOps s b.w 2⟩
      fresh := s.fresh + 1 }))) ∧
  (∀ id s a x addr queue v r t, tget s.acts id = some a → a.kind = .enq addr queue v → s.warp? a.warp = some x →
    (x.block.map s.parked).getD false = false → entriesGone s a.after = true → x.die = 0 → s.transfer? [15, id] = none →
    s.transfer? [15, id, 1] = none → enqAt id x addr queue s = (.done r, t) →
    resumeAct id s = endAct id ((dropMessage [15, id, 1] t).mapLanes a.warp (actLanes (dropMessage [15, id, 1] t) id a) fun _ u => u.put v r)) ∧
  (∀ id s x addr queue,
    let q := s.queue queue
    let at_ := q.base.toNat + 8 * (q.wp.toNat % q.size)
    let status := fun (n : Nat) => enqAt id x addr queue s = (.done (BitVec.ofNat 32 (2 ^ 24 * n)), s)
    let owned := addr % 64 = 0 ∧ addr < 2 ^ 57 ∧ q.ctx = x.ctx ∧ q.st ≠ .disabled ∧ enqBusy s id queue = false
    let push := fun (u : State) => (Ended.done (BitVec.ofNat 32 (2 ^ 31 + q.wp.toNat % q.size)),
      settleQueue queue (u.modQueue queue fun y => { y with wp := y.wp + 1 }))
    let lost := fun (u : State) => (Ended.done (BitVec.ofNat 32 (2 ^ 24 * 4)),
      disableQueue queue 0x03 { causeDispatch with addr := at_ } (logViolation x.ctx at_ 3 4 0 u))
    let write := alone (.engine id) (writeAccess (.engine id) x.ctx 0 at_ 0 8 (fun s => mainWrite s x.ctx 0 at_ (leBytes 8 addr) none) s)
    (addr % 64 ≠ 0 ∨ 2 ^ 57 ≤ addr → status 1) ∧
    (addr % 64 = 0 → addr < 2 ^ 57 → (q.ctx ≠ x.ctx ∨ q.st = .disabled) → status 2) ∧
    (owned → q.size ≤ q.held → status 3) ∧
    (∀ u, owned → q.held < q.size → q.hostRing = false → write = (.done (), u) → enqAt id x addr queue s = push u) ∧
    (∀ k u, owned → q.held < q.size → q.hostRing = false → write = (.fail k, u) → enqAt id x addr queue s = lost u) ∧
    (owned → q.held < q.size → q.hostRing = true → ringReq s id = none → enqAt id x addr queue s = (.wait, askHost x.ctx id 0 0 s)) ∧
    (∀ k r, owned → q.held < q.size → q.hostRing = true → ringReq s id = some (k, r) →
      (r.overdue s = true → enqAt id x addr queue s = lost (dropHostReq k s)) ∧
      (r.overdue s = false → enqAt id x addr queue s =
        push ((dropHostReq k s).modMod fun m => { m with hostMem := msetAll m.hostMem (cellsAt at_ (leBytes 8 addr)) }))))

/-! ### The supervisor's words (19_context, 20_page, 27_snapshot) -/

/-- CSRR and CSRW complete on a register that may be reached (R312, R313): CSRR reads its value into every guard-true thread; CSRW
writes each guard-true thread's value in ascending lane order. TVEC, CTXSEL, TPRED and TREG hold what is written: CTXSEL the low 8 bits
and TPRED the low 7, zero bits of a 32-bit register that R312 neither refuses nor drops (log entry 16, the model's choice). -/
def Obligations.RegisterWords : Prop :=
  (∀ o s b, Runs (.csrr o) s b → NamedFull (.csrr o) b → (csrHandler o.imm.toNat = true → Inside b (acting (.csrr o) b)) →
    (∀ l ∈ actors (.csrr o) b, ∀ u, b.warp.thread l = some u → tregEmpty o.imm.toNat u = false) →
    ∃ t, exec (.csrr o) s = .next t ∧ Answers (.csrr o) b (fun u =>
      let v := csrRead s b.warp u o.imm.toNat
      if csr64 o.imm.toNat then u.putPair o.d.toNat v else u.put o.d.toNat (loOf v)) s t) ∧
  (∀ o s b, ActsFree (.csrw o) s b → csrReadOnly o.imm.toNat = false → (csrHandler o.imm.toNat = true → Inside b (acting (.csrw o) b)) →
    let val := fun l => ((b.warp.thread l).map fun u => if o.za then 0
      else if csr64 o.imm.toNat then u.pair o.a.toNat else (u.reg o.a.toNat).val.setWidth 64).getD 0
    (∀ l ∈ actors (.csrw o) b, ∀ u, b.warp.thread l = some u → tregEmpty o.imm.toNat u = false) →
    (∀ l ∈ actors (.csrw o) b, csrValueOk o.imm.toNat (val l) = true) →
    exec (.csrw o) s = .next (finishWord b ((actors (.csrw o) b).foldl (fun s l => csrWrite b l o.imm.toNat (val l) s) s))) ∧
  (∀ b l v s x, s.warp? b.w = some x → (s.ctx x.ctxsel).st ≠ .free →
    csrWrite b l 0x12 v s = s.modCtx x.ctxsel fun c => { c with tvec := v }) ∧
  (∀ b l v s, csrWrite b l 2 v s = s.modWarp b.w fun x => { x with ctxsel := v.toNat % 256 }) ∧
  (∀ b l v s, csrWrite b l 1 v s = s.modThread b.w l fun u =>
    { u with trap := u.trap.map fun f => { f with pred := loOf v &&& 0x7F } }) ∧
  (∀ b l v s k, k < 32 → csrWrite b l (0x800 + k) v s = s.modThread b.w l fun u => { u with regs := u.regs.set k ⟨loOf v, true⟩ })

/-- XSAVE, XLOAD, TLBI, TLBI.page, PGSET, CTXEND, HALT, RETIRE and SNAPM complete (R319, R320, R337, R391, R402): each has its effect
and answers status 0, or starts an action its threads wait for. XSAVE's ends with status 0 once every block is saved and the warps of
no block stand, or with BAD-STATE when the context has left its states; RETIRE's once no block stands on the core; SNAPM's once its
descriptor and ranges are read, with the status R391 gives. That XSAVE stops the warps of no block and XLOAD restarts them is log
entry 16, the model's choice. -/
def Obligations.SystemWords : Prop :=
  let on := fun (i : Instr) (o : FmtR) (s : State) (b : Bundle) (c : Nat) => ActsFree i s b ∧ c = (leadVal i b o.a o.za).toNat ∧ c < 256
  (∀ o s b c, on (.xsave o) o s b c → c ≠ b.warp.ctx → ((s.ctx c).st = .running ∨ (s.ctx c).st = .runnable) →
    exec (.xsave o) s = .next (startAct b (acting (.xsave o) b) (.xsave c o.d.toNat) []
      (stopUnattached c true (saveBlocks (fun x => x.ctx == c) s)))) ∧
  (∀ o s b c, on (.xload o) o s b c → c ≠ b.warp.ctx → (s.ctx c).st = .parked →
    exec (.xload o) s = .next (answerWord b (acting (.xload o) b) o 0
      (stopUnattached c false (settleCtx c (s.modCtx c fun x => { x with st := .runnable }))))) ∧
  (∀ o s b c, on (.tlbi o) o s b c → (s.ctx c).bound = true →
    exec (.tlbi o) s = .next (answerWord b (acting (.tlbi o) b) o 0 { s with
      dies := tmap s.dies fun _ d => { d with tlb := d.tlb.filter fun e => !(e.ctx == c) } })) ∧
  (∀ o s b c, on (.tlbiPage o) o s b c → (s.ctx c).bound = true →
    let x := (leadPair (.tlbiPage o) b o.b o.zb).toNat
    x % 4096 = 0 → x < 2 ^ 57 → exec (.tlbiPage o) s = .next (answerWord b (acting (.tlbiPage o) b) o 0 { s with
      dies := tmap s.dies fun _ d => { d with tlb := d.tlb.filter fun e =>
        !(e.ctx == c && (decide (e.page ≤ x) && decide (x < e.page + e.bytes))) } })) ∧
  (∀ o s b c t, on (.pgset o) o s b c → (s.ctx c).bound = true →
    pgset c b.warp.die (leadPair (.pgset o) b o.b o.zb).toNat (leadPair (.pgset o) b o.c o.zc) s = (0, t) →
    exec (.pgset o) s = .next (answerWord b (acting (.pgset o) b) o 0 t)) ∧
  (∀ o s b c, on (.ctxend o) o s b c → (s.ctx c).bound = true →
    exec (.ctxend o) s = .next (answerWord b (acting (.ctxend o) b) o 0
      (endContext c 0x04 (causeThread s b.w (leader (.ctxend o) b) 0 b.iss.hdr) s))) ∧
  (∀ o s b, StandsFree (.halt o) s b →
    exec (.halt o) s = .next (finishWord b (((residents s b.warp.die).foldl (fun s' c =>
      endContext c 0x05 (causeThread s b.w (leader (.halt o) b) 0 b.iss.hdr) s') s).modDie b.warp.die fun d => { d with safe := true }))) ∧
  (∀ o s b, ActsFree (.retire o) s b →
    let k := (leadVal (.retire o) b o.a o.za).toNat
    k < 160 → k ≠ b.warp.core → exec (.retire o) s =
      .next (startAct b (acting (.retire o) b) (.retire o.d.toNat k) [] (retireCore b.warp.die k s))) ∧
  (∀ o s b, ActsFree (.snapm o) s b →
    let k := ActKind.snapm b.warp.ctxsel o.d.toNat (leadVal (.snapm o) b o.a o.za) (leadPair (.snapm o) b o.b o.zb).toNat
    exec (.snapm o) s = .next (stepSnapm s.fresh ⟨b.w, acting (.snapm o) b, k, []⟩ b.warp.ctxsel o.d.toNat
      (leadVal (.snapm o) b o.a o.za) (leadPair (.snapm o) b o.b o.zb).toNat (startAct b (acting (.snapm o) b) k [] s))) ∧
  (∀ id s a x, tget s.acts id = some a → s.warp? a.warp = some x → (x.block.map s.parked).getD false = false →
    let answer := fun (v status : Nat) (t : State) =>
      endAct id (t.mapLanes a.warp (actLanes t id a) fun _ u => u.put v (BitVec.ofNat 32 status))
    (∀ c v, a.kind = .xsave c v →
      let begun := saveBlocks (fun b => b.ctx == c) s
      let t := (unattached begun c).foldl (fun s w => settleWarp w.1 s) begun
      let stands := unattachedStand t c && (t.blocks.filter fun b => b.2.ctx == c).all fun b => b.2.st == .parked || b.2.st == .done
      ((s.ctx c).saves = false → resumeAct id s = answer v 1 s) ∧
      ((s.ctx c).saves = true → resumeAct id s = if stands then answer v 0 (t.modCtx c fun x => { x with st := .parked }) else t)) ∧
    (∀ v core, a.kind = .retire v core →
      let t := saveBlocks (fun b => b.on x.die core) s
      resumeAct id s = if (blocksOn t x.die core).isEmpty then answer v 0 t else t) ∧
    (∀ c v step addr, a.kind = .snapm c v step addr →
      ((s.ctx c).bound = false → resumeAct id s = answer v 1 s) ∧
      ((s.ctx c).bound = true → addr % 64 ≠ 0 → resumeAct id s = answer v 3 s) ∧
      (∀ bs n t rs m u, (s.ctx c).bound = true → addr % 64 = 0 → addr < 2 ^ 57 →
        readUnits (.engine id) c x.die 16 (unitsFrom addr 4) s = (.done bs, n, t) →
        let d := parseSnap bs
        (d.ok = false → resumeAct id s = answer v 3 (dropAnswers (.engine id) t)) ∧
        (d.ok = true → readSpan (.engine id) c x.die d.ranges (16 * d.nrange) t = (.done rs, m, u) →
          let w := dropAnswers (.engine id) u
          (governing w c x.kern d.grid = none → resumeAct id s = answer v 3 w) ∧
          (∀ k, governing w c x.kern d.grid = some k →
            let ahead := (step - ((tfind w.shares fun _ h => h.kern == k.1 && h.index == 0).map fun h => h.2.done).getD 0).toNat
            let legal := (rangesOf d.nrange rs).all rangeOk = true ∧ ahead ≠ 0 ∧ ahead < 2 ^ 31
            (¬ legal → resumeAct id s = answer v 3 w) ∧
            (legal → k.2.launch.dieset.any (snapBusy w c) = true → resumeAct id s = answer v 5 w) ∧
            (legal → k.2.launch.dieset.any (snapBusy w c) = false → k.2.launch.dieset.any w.shut = false →
              resumeAct id s = answer v 0 (armSnap c step k d (snapPages (rangesOf d.nrange rs)) w)))))))

/-- LOGR.addr, LOGR.info, LOGR.count and LOGR.clr complete (R320, R322) on the violation log of CTXSEL's context; an index above 255,
or an odd d of LOGR.addr, is ILLEGAL-OPERAND on the guard-true threads. That LOGR.clr leaves the sequence number, which goes on, is log
entry 16, the model's choice. -/
def Obligations.LogWords : Prop :=
  let entry := fun (s : State) (b : Bundle) (k : Nat) => tgetD (s.ctx b.warp.ctxsel).log k ⟨0, 0⟩
  let pairFull := fun (o : FmtR) (b : Bundle) => ∀ l ∈ actors (.logrAddr o) b, ∀ u, b.warp.thread l = some u →
    (u.reg (o.d.toNat + 1)).full = true
  (∀ o s b, ActsFree (.logrAddr o) s b → pairFull o b → (leadVal (.logrAddr o) b o.a o.za).toNat < 256 → o.d.toNat % 2 = 0 →
    ∃ t, exec (.logrAddr o) s = .next t ∧
    Answers (.logrAddr o) b (fun u => u.putPair o.d.toNat (entry s b (leadVal (.logrAddr o) b o.a o.za).toNat).addr) s t) ∧
  (∀ o s b, ActsFree (.logrAddr o) s b → pairFull o b →
    (256 ≤ (leadVal (.logrAddr o) b o.a o.za).toNat ∨ o.d.toNat % 2 = 1) →
    exec (.logrAddr o) s = .next (trapWord b (acting (.logrAddr o) b) 0x03 s)) ∧
  (∀ o s b, ActsFree (.logrInfo o) s b → 256 ≤ (leadVal (.logrInfo o) b o.a o.za).toNat →
    exec (.logrInfo o) s = .next (trapWord b (acting (.logrInfo o) b) 0x03 s)) ∧
  (∀ o s b, ActsFree (.logrInfo o) s b → (leadVal (.logrInfo o) b o.a o.za).toNat < 256 → ∃ t, exec (.logrInfo o) s = .next t ∧
    Answers (.logrInfo o) b (fun u => u.put o.d.toNat (entry s b (leadVal (.logrInfo o) b o.a o.za).toNat).info) s t) ∧
  (∀ o s b, ActsFree (.logrCount o) s b → ∃ t, exec (.logrCount o) s = .next t ∧
    Answers (.logrCount o) b (fun u => u.put o.d.toNat (BitVec.ofNat 32 (s.ctx b.warp.ctxsel).logged)) s t) ∧
  (∀ o s b, StandsFree (.logrClr o) s b → exec (.logrClr o) s =
    .next (finishWord b (s.modCtx b.warp.ctxsel fun x => { x with log := [], logged := 0 })))

/-! ### Exceptions (R49, R147, R314-R317) -/

/-- TRET completes in a handler (R317): each guard-true thread leaves the bundle READY at its resume point, with the predicates
of TPRED, its interrupted registers and no trap frame. -/
def Obligations.TrapReturn : Prop :=
  (∀ o s b, ActsFree (.tret o) s b → Inside b (acting (.tret o) b) →
    let to_ := fun (u : Thread) => u.trap.bind fun f =>
      resumePoint f o.mod.toNat ((if o.za then 0 else u.pair o.a.toNat).toNat % 2 ^ 57)
    (∀ l ∈ actors (.tret o) b, ∀ u, b.warp.thread l = some u → (to_ u).isSome = true) →
    exec (.tret o) s =
      let s := dropWindow b.w (acting (.tret o) b) s
      .next (finishWord b (dropLanes b (acting (.tret o) b) (s.mapLanes b.w (acting (.tret o) b) fun _ u =>
        leaveTrap ((to_ u).getD u.pc) s.instant (s.die b.warp.die).time u)))) ∧
  (∀ u f pc g n, u.trap = some f → f.target = none → leaveTrap pc g n u = { u with
    st := .ready, pc := pc, group := g, since := n, count := 0, redirect := none
    preds := f.pred.setWidth 8 &&& 0x7F ||| 0x80, trap := none }) ∧
  (∀ u f pc g n a, u.trap = some f → f.target = some a → (leaveTrap pc g n u).pc = atHeader a) ∧
  (∀ f, f.cidx ≠ 0 → f.cidx ≠ 16 → f.cidx ≠ f.count →
    resumePoint f 0 0 = some ⟨f.cpc, some ⟨f.cls, f.count, f.cidx⟩, false⟩ ∧
    resumePoint f 1 0 = some ⟨f.cpc, some ⟨f.cls, f.count, f.cidx + 1⟩, false⟩) ∧
  (∀ f a, resumePoint f 2 a = some (atHeader a))

/-- The words that ask whether their threads run a handler (R105, R213, R313, R317): a barrier word inside one, and TRET outside one,
raise ILLEGAL-INSTRUCTION on their guard-true threads; CSRR and CSRW of a handler's register outside one and CSRW of a read-only
register raise ILLEGAL-OPERAND on them, and so does a barrier word but TREEA and TREEW in a warp without a block; SREAD from 0x100 on
outside one raises ILLEGAL-OPERAND on the whole bundle. Each once its sources are full (R49), and outside a live region but for the first. -/
def Obligations.HandlerWords : Prop :=
  let traps := fun (i : Instr) (s : State) (b : Bundle) (m : Lanes) (c : Nat) => exec i s = .next (trapWord b m c s)
  (∀ o s b, ∀ i ∈ [Instr.barb o, .bara o, .bard o, .treea o],
    s.bundle? = some b → staticTrap i b = none → acting i b ≠ 0 → Inside b (acting i b) → traps i s b (acting i b) 0x02) ∧
  (∀ o s b, ∀ i ∈ [Instr.barw o, .treew o],
    s.bundle? = some b → staticTrap i b = none → NamedFull i b → acting i b ≠ 0 → Inside b (acting i b) → traps i s b (acting i b) 0x02) ∧
  (∀ o s b, ∀ i ∈ [Instr.barb o, .bara o, .bard o], s.bundle? = some b → staticTrap i b = none → b.warp.block = none →
    b.warp.regionLive = false → Outside b (acting i b) → traps i s b (acting i b) 0x03) ∧
  (∀ o s b, s.bundle? = some b → staticTrap (.barw o) b = none → b.warp.block = none → NamedFull (.barw o) b →
    b.warp.regionLive = false → Outside b (acting (.barw o) b) → traps (.barw o) s b (acting (.barw o) b) 0x03) ∧
  (∀ o s b, ActsFree (.tret o) s b → Outside b (acting (.tret o) b) → traps (.tret o) s b (acting (.tret o) b) 0x02) ∧
  (∀ o s b, Runs (.csrr o) s b → acting (.csrr o) b ≠ 0 → csrHandler o.imm.toNat = true → Outside b (acting (.csrr o) b) →
    traps (.csrr o) s b (acting (.csrr o) b) 0x03) ∧
  (∀ o s b, ActsFree (.csrw o) s b →
    (csrReadOnly o.imm.toNat = true ∨ (csrHandler o.imm.toNat = true ∧ Outside b (acting (.csrw o) b))) →
    traps (.csrw o) s b (acting (.csrw o) b) 0x03) ∧
  (∀ o s b, Runs (.sread o) s b → 0x100 ≤ o.imm.toNat → b.iss.lanes ≠ 0 → Outside b b.iss.lanes →
    traps (.sread o) s b b.iss.lanes 0x03)

/-- TRAP takes SOFTWARE on every guard-true thread outside a handler, in a context whose TVEC is not 0 and a warp without a live
region (R147, R314-R316): the thread stands READY at TVEC with the trap frame's cause 6, the word's code, its predicates, header
and index, and a window of 32 full zeros; its registers are kept. -/
def Obligations.TrapWord : Prop :=
  ∀ o s b, Runs (.trap o) s b → b.warp.regionLive = false → (s.ctx b.warp.ctx).tvec ≠ 0 →
    (∀ l ∈ actors (.trap o) b, ∀ u, b.warp.thread l = some u → u.trap = none) →
    ∃ t, exec (.trap o) s = .next t ∧ OnlyWarp b.w s t ∧ ∃ y, t.warp? b.w = some y ∧
      ∀ l u, b.warp.thread l = some u → if l ∈ actors (.trap o) b then
        ∃ v, y.thread l = some v ∧ v.st = .ready ∧ v.pc = atHeader (s.ctx b.warp.ctx).tvec.toNat ∧
          v.regs = u.regs ∧ v.preds = u.preds ∧ v.rstack = u.rstack ∧ v.gen = u.gen ∧
          v.trap = some { cause := 6, code := o.off, pred := (u.preds &&& 0x7F).setWidth 32, cpc := b.iss.hdr, cidx := b.iss.idx
                          faddr := 0, cls := b.iss.cls, count := b.iss.words.length - 1
                          window := List.replicate 32 ⟨0, true⟩, target := u.redirect }
      else ∃ v, y.thread l = some v ∧ u.sameData v

/-- A word whose static checks fail raises their trap on every thread of the bundle (R49): for a class that is not the clause's,
ILLEGAL-INSTRUCTION. A second exception in a handler ends the context with reason 2, and one with TVEC 0 with reason 3 (R314). An
empty register (check 7 of R49; R36, R98, R99): a word that reads one, or whose destination is one, blocks where no lane has an empty
source with the trap-on-empty bit; a lane that has one raises EMPTY-READ; a cross-lane word raises it on all its lanes (R153). Stated for
the two-register and immediate words of classes 0 and 4, the permutes and the memory words. -/
def Obligations.StaticTraps : Prop :=
  let empties := fun (i : Instr) (s : State) (b : Bundle) (traps waits : Thread → Prop) =>
    ((∀ l ∈ actors i b, ∀ u, b.warp.thread l = some u → ¬ traps u) →
      (∃ l ∈ actors i b, ∃ u, b.warp.thread l = some u ∧ waits u) → exec i s = .next (blockWord b s)) ∧
    (MayTrap i s b → Raises i s b 0x04 (fun _ u => traps u) fun _ => 0)
  let bit := fun (e : Bool) (u : Thread) (r : BitVec 9) (z : Bool) => e = true ∧ Lacks u r z
  (∀ (o : FmtR) s b, ∀ i ∈ [Instr.iadd o, .isub o, .imul o, .imulh o, .imin o, .imax o, .shl o, .shr o, .sar o, .bfx o, .fadd o, .fsub o,
      .fmul o, .fmin o, .fmax o, .fmaxa o, .hadd2 o, .hmul2 o, .hmax2 o], Runs i s b →
    empties i s b (fun u => bit o.ea u o.a o.za ∨ bit o.eb u o.b o.zb)
      (fun u => Lacks u o.a o.za ∨ Lacks u o.b o.zb ∨ Lacks u o.d false)) ∧
  (∀ (o : FmtI) s b, ∀ i ∈ [Instr.iaddImm o, .isubImm o, .imulImm o, .imulhImm o, .iminImm o, .imaxImm o, .shlImm o, .shrImm o, .sarImm o,
      .faddImm o, .fsubImm o, .fmulImm o, .fminImm o, .fmaxImm o], Runs i s b →
    empties i s b (fun u => bit o.ea u o.a o.za) (fun u => Lacks u o.a o.za ∨ Lacks u o.d false)) ∧
  (∀ (o : FmtR) s b, ∀ i ∈ [Instr.lshuf o, .lxor o], Runs i s b →
    let any := fun (p : Thread → Prop) => ∃ l ∈ actors i b, ∃ u, b.warp.thread l = some u ∧ p u
    let traps := fun (u : Thread) => bit o.ea u o.a o.za ∨ bit o.eb u o.b o.zb
    (any traps → exec i s = .next (trapWord b (acting i b) 0x04 s)) ∧
    (¬ any traps → any (fun u => Lacks u o.a o.za ∨ Lacks u o.b o.zb ∨ Lacks u o.d false) → exec i s = .next (blockWord b s))) ∧
  (∀ (o : FmtM) s b, ∀ i ∈ [Instr.ldb o, .stb o, .ldd o, .std o, .ldk o, .stk o], Runs i s b → acting i b ≠ 0 → o.ea = false →
    (∀ l ∈ actors i b, ∀ u, b.warp.thread l = some u → Lacks u o.a o.za) → exec i s = .next (blockWord b s)) ∧
  (∀ s b, s.bundle? = some b → blockWord b s = s.setWarp b.w (b.warp.setIss b.pipe (some { b.iss with
    blocked := true, grant := .none, since := some (b.iss.since.getD (s.die b.warp.die).time) }))) ∧
  (∀ i s b c, s.bundle? = some b → staticTrap i b = some c → exec i s =
    .next (finishWord b (trapLanes b.w b.iss.lanes b.at_ c (fun _ => 0) (fun _ => 0) s))) ∧
  (∀ i b k, i.info b.warp.width = some k → k.cls ≠ b.iss.cls → staticTrap i b = some 2) ∧
  (∀ w l at_ c a x g s y u, s.warp? w = some y → y.thread l = some u → u.trap ≠ none →
    enterTrap w l at_ c a x g s = endContext y.ctx 0x02 { causeThread s w l c at_.hdr with addr := a } s) ∧
  (∀ w l at_ c a x g s y u, s.warp? w = some y → y.thread l = some u → u.trap = none → (s.ctx y.ctx).tvec = 0 →
    enterTrap w l at_ c a x g s = endContext y.ctx 0x03 { causeThread s w l c at_.hdr with addr := a } s)

/-! ### Trajectories (25_trajectory) -/

/-- TJOPEN, TJSTEP, TJEND, TJEND.free, TJREW and TJSET complete outside a region (R377-R383), shown for a bundle of one guard-true
lane whose junction operation neither the page engine nor another operation on its entry holds: an entry opens and takes in its
orphans, a step is recorded, an episode closes, an entry is given up, a reward is kept, a parameter is set. An operation the junction
refuses adds 1 to counter 1 and changes nothing else (R381), a TJEND with a step not recorded drops its entry, and a TJSET of a parameter or
value that is not legal, or of the store while an entry stands, is ILLEGAL-OPERAND. -/
def Obligations.TrajectoryWords : Prop :=
  let free := fun (b : Bundle) (l : Nat) (id : Word) (n : Nat) (e : Episode) (s : State) =>
    s.transfer? (laneNote (.lane b.w l)) = none ∧ findEpisode s b.warp.die b.warp.ctx id = some (n, e) ∧
      tget (s.die b.warp.die).episodes n = some e ∧ e.busy = none
  let done := fun (b : Bundle) (l : Nat) (s : State) => finishWord b (dropAnswers (.lane b.w l) s)
  (∀ o s b l u t, ActsFree (.tjopen o) s b → actors (.tjopen o) b = [l] → b.warp.thread l = some u →
    let id := u.val o.a o.za
    let a : EngineAct := ⟨b.w, acting (.tjopen o) b, .tjopen o.d.toNat [(l, id, u.val o.b o.zb)] [], []⟩
    let p := openEpisode b.warp.die b.warp.ctx id (u.val o.b o.zb) (startAct b (acting (.tjopen o) b) a.kind [] s)
    (if p.1.getLsbD 31 then fillEpisode (.engine s.fresh) b.warp.die b.warp.ctx id p.2 else (true, p.2)) = (true, t) →
    (((t.warp? b.w).bind Warp.block).map t.parked).getD false = false → exec (.tjopen o) s = .next (endAct s.fresh
      (t.mapLanes b.w (actLanes t s.fresh a) fun k v => if k = l then v.put o.d.toNat p.1 else v))) ∧
  (∀ o s b l u n e bs s1 s2, ActsFree (.tjstep o) s b → actors (.tjstep o) b = [l] → b.warp.thread l = some u →
    let die := b.warp.die
    let h : Holder := .lane b.w l
    let step := (u.val o.b o.zb).toNat
    free b l (u.val o.a o.za) n e s → e.st = .open_ → step < (s.junc die b.warp.ctx).steps →
    readRecord h die n e step s = (.ok bs, s1) →
    writeRecords h die n e [(step, 0, leBytes 8 (if o.zc then 0 else u.pair o.c.toNat).toNat),
      (step, 12, leBytes 4 (BitVec.ofNat 32 (flagsOf bs) ||| 1 : Word).toNat)] s1 = (.ok (), s2) →
    exec (.tjstep o) s = .next (done b l s2)) ∧
  (∀ o s b l u n e rs s1, ActsFree (.tjend o) s b → actors (.tjend o) b = [l] → b.warp.thread l = some u →
    let die := b.warp.die
    let len := (u.val o.b o.zb).toNat
    let j := s.junc die b.warp.ctx
    let close := fun (e : Episode) => { e with
      st := .closed, length := len, vb := u.val o.c o.zc, due := (s1.die die).time + j.join.toNat * 47000000 }
    free b l (u.val o.a o.za) n e s → e.st = .open_ → 1 ≤ len → len ≤ j.steps →
    readRecords (.lane b.w l) die n e (List.range len) s = (.ok rs, s1) → rs.all isRecorded = true →
    exec (.tjend o) s = .next (done b l (if rs.all hasReward then joinEpisode die n close s1 else modEpisode die n close s1))) ∧
  (∀ o s b l u n e, ActsFree (.tjendFree o) s b → actors (.tjendFree o) b = [l] → b.warp.thread l = some u →
    free b l (u.val o.a o.za) n e s → (e.st = .released ∨ e.st = .expired ∨ e.st = .dropped) →
    exec (.tjendFree o) s = .next (done b l (s.modDie b.warp.die fun d => { d with episodes := tdel d.episodes n }))) ∧
  (∀ o s b l u n e bs s1 s2, ActsFree (.tjrew o) s b → actors (.tjrew o) b = [l] → b.warp.thread l = some u →
    let die := b.warp.die
    let h : Holder := .lane b.w l
    let w := (u.val o.b o.zb).toNat
    let term := w / 2 ^ 16 % 2 == 1
    w < 2 ^ 17 → boundOn s b.warp.ctx die = true → w % 2 ^ 16 < (s.junc die b.warp.ctx).steps →
    free b l (u.val o.a o.za) n e s → e.st = .open_ →
    readRecord h die n e (w % 2 ^ 16) s = (.ok bs, s1) → hasReward bs = false →
    writeRecord h die n e (w % 2 ^ 16) 8 (leBytes 4 (u.val o.c o.zc).toNat ++
      leBytes 4 (BitVec.ofNat 32 (flagsOf bs) ||| 2 ||| (if term then 4 else 0) : Word).toNat) s1 = (.ok (), s2) →
    exec (.tjrew o) s = .next (done b l s2)) ∧
  (∀ o s b, LeadsFree (.tjset o) s b →
    let k := o.imm.toNat
    let v : Word64 := if k = 6 then leadPair (.tjset o) b o.a o.za else (leadVal (.tjset o) b o.a o.za).setWidth 64
    tjsetOk k v = true → (6 ≤ k → ∀ x ∈ (s.die b.warp.die).episodes, x.2.ctx ≠ b.warp.ctx) →
    exec (.tjset o) s = .next (finishWord b (modJunc b.warp.die b.warp.ctx (fun j => j.write k v) s))) ∧
  (∀ o s b, LeadsFree (.tjset o) s b →
    let k := o.imm.toNat
    let v : Word64 := if k = 6 then leadPair (.tjset o) b o.a o.za else (leadVal (.tjset o) b o.a o.za).setWidth 64
    (tjsetOk k v = false ∨ (6 ≤ k ∧ ∃ x ∈ (s.die b.warp.die).episodes, x.2.ctx = b.warp.ctx)) →
    exec (.tjset o) s = .next (trapWord b (acting (.tjset o) b) 0x03 s)) ∧
  (∀ (o : FmtR) s b l u, ∀ i ∈ [Instr.tjstep o, .tjend o, .tjendFree o], ActsFree i s b → actors i b = [l] → b.warp.thread l = some u →
    s.transfer? (laneNote (.lane b.w l)) = none → findEpisode s b.warp.die b.warp.ctx (u.val o.a o.za) = none →
    exec i s = .next (finishWord b (countJunc b.warp.die b.warp.ctx 1 s))) ∧
  (∀ o s b l u n e, ActsFree (.tjstep o) s b → actors (.tjstep o) b = [l] → b.warp.thread l = some u → free b l (u.val o.a o.za) n e s →
    (e.st ≠ .open_ ∨ (s.junc b.warp.die b.warp.ctx).steps ≤ (u.val o.b o.zb).toNat) →
    exec (.tjstep o) s = .next (done b l (countJunc b.warp.die b.warp.ctx 1 s))) ∧
  (∀ o s b l u n e, ActsFree (.tjend o) s b → actors (.tjend o) b = [l] → b.warp.thread l = some u → free b l (u.val o.a o.za) n e s →
    (e.st ≠ .open_ ∨ (u.val o.b o.zb).toNat = 0 ∨ (s.junc b.warp.die b.warp.ctx).steps < (u.val o.b o.zb).toNat) →
    exec (.tjend o) s = .next (done b l (countJunc b.warp.die b.warp.ctx 1 s))) ∧
  (∀ o s b l u n e rs s1, ActsFree (.tjend o) s b → actors (.tjend o) b = [l] → b.warp.thread l = some u →
    let len := (u.val o.b o.zb).toNat
    free b l (u.val o.a o.za) n e s → e.st = .open_ → 1 ≤ len → len ≤ (s.junc b.warp.die b.warp.ctx).steps →
    readRecords (.lane b.w l) b.warp.die n e (List.range len) s = (.ok rs, s1) → rs.all isRecorded = false →
    exec (.tjend o) s = .next (done b l (countJunc b.warp.die b.warp.ctx 4
      (modEpisode b.warp.die n (fun e => { e with st := .dropped }) s1)))) ∧
  (∀ o s b l u n e, ActsFree (.tjendFree o) s b → actors (.tjendFree o) b = [l] → b.warp.thread l = some u →
    free b l (u.val o.a o.za) n e s → e.st ≠ .released → e.st ≠ .expired → e.st ≠ .dropped →
    exec (.tjendFree o) s = .next (done b l (countJunc b.warp.die b.warp.ctx 1 s))) ∧
  (∀ o s b l u, ActsFree (.tjrew o) s b → actors (.tjrew o) b = [l] → b.warp.thread l = some u →
    s.transfer? (laneNote (.lane b.w l)) = none → boundOn s b.warp.ctx b.warp.die = true →
    let w := (u.val o.b o.zb).toNat
    (2 ^ 17 ≤ w ∨ (s.junc b.warp.die b.warp.ctx).steps ≤ w % 2 ^ 16) →
    exec (.tjrew o) s = .next (finishWord b (countJunc b.warp.die b.warp.ctx 1 s)))

/-- TJTAKE, TJTAKE.try, TJTAKE.depth and TJTAKE.stat complete outside a region (R387): TJTAKE's lanes wait in order and pop what the
queue holds; .try's lanes take their turn in the same order, for an entry or for zeros, and their registers are empty until then
(`TrajectorySteps` pops); .depth answers P − C and .stat a counter, whose registers are empty until they land. That .depth and .stat read as
the word executes while the value lands later is the model's choice (log entry 20). -/
def Obligations.TakeWords : Prop :=
  (∀ o s b, ActsFree (.tjtake o) s b → exec (.tjtake o) s =
    let t := waitTakes b (acting (.tjtake o) b) o.d.toNat false s
    .next (finishWord b (serveTakes b.warp.die b.warp.ctx (takesOn t b.warp.die) t))) ∧
  (∀ o s b, ActsFree (.tjtakeTry o) s b →
    exec (.tjtakeTry o) s = .next (finishWord b (waitTakes b (acting (.tjtakeTry o) b) o.d.toNat true s))) ∧
  (∀ b m d k s, (waitTakes b m d k s).warps = (s.mapLanes b.w m fun _ t => t.empty (regRange d 4)).warps) ∧
  (∀ b m d k s l, laneList b.warp.width m = [l] → ((waitTakes b m d k s).die b.warp.die).takes = tput (s.die b.warp.die).takes s.fresh
    ⟨b.warp.ctx, b.w, l, d, ((b.warp.thread l).map fun t => t.inWin d).getD false, k⟩) ∧
  (∀ o s b, ActsFree (.tjtakeDepth o) s b →
    let j := s.junc b.warp.die b.warp.ctx
    exec (.tjtakeDepth o) s = .next (finishWord b (answerLanes b o.d.toNat 1
      ((actors (.tjtakeDepth o) b).map fun l => (l, (j.p - j.c).toNat)) s))) ∧
  (∀ o s b, ActsFree (.tjtakeStat o) s b → (∀ l ∈ actors (.tjtakeStat o) b, (laneVal b.warp l o.b o.zb).toNat < 8) →
    let j := s.junc b.warp.die b.warp.ctx
    exec (.tjtakeStat o) s = .next (finishWord b (answerLanes b o.d.toNat 1
      ((actors (.tjtakeStat o) b).map fun l => (l, (j.counts.getD (laneVal b.warp l o.b o.zb).toNat 0).toNat)) s))) ∧
  (∀ b d n vs s, answerLanes b d n vs s = addOps
    (vs.map fun x => { newOp s b x.1 .scratch .regq 0 4 with
      dst := d, ndst := n, st := .read x.2, entry := none, win := ((b.warp.thread x.1).map fun t => t.inWin d).getD false })
    (s.mapLanes b.w (lanesOf (vs.map Prod.fst)) fun _ t => t.empty (regRange d n)))

/-! ### The steps of the slices and the core's engines (02_machine, 04_register-09_atomic, 13_buffer) -/

/-- CLAUSE_ISSUE, BUNDLE_PARK, BLOCKED_REGISTER_FILL and CODE_FETCH have their effects (R23, R25, R28, R138, R140, R141, R309): the
warp R309 selects issues its first bundle on the free pipe, and a second on pipe B when both are free; a word that has waited 256
cycles leaves its pipe and parks with its bundle; a blocked or parked word is tried again; a header's clause is read. That a parked word
keeps its place in the waiting orders (log entry 15), and that it is tried again by an item of the agenda (log entry 5), are the model's
choices. -/
def Obligations.IssueSteps : Prop :=
  (∀ w lane pipe s x c first rest, s.warp? w = some x → selected s (candidates s x.die x.core x.slice) = some c → c.w = w →
    c.cs = first :: rest → first.lanes.getLsbD lane = true → pipeFree s x.die x.core x.slice pipe = true →
    let t := issueBundle w first pipe (notePassed w (candidates s x.die x.core x.slice) (sliceWarps s x.die x.core x.slice) s)
    ((∃ p, p ≠ pipe ∧ pipeFree s x.die x.core x.slice p = false) → exec (.clauseIssue w lane pipe) s = .next (pruneFetched w t)) ∧
    (pipe = .a → pipeFree s x.die x.core x.slice .b = true → rest = [] →
      exec (.clauseIssue w lane pipe) s = .next (pruneFetched w t)) ∧
    (∀ second more, pipe = .a → pipeFree s x.die x.core x.slice .b = true → rest = second :: more →
      exec (.clauseIssue w lane pipe) s = .next (pruneFetched w (issueBundle w second .b t)))) ∧
  (∀ w pipe s x i t, s.warp? w = some x → x.iss pipe = some i → i.blocked = true → i.since = some t →
    t + 256 * (s.die x.die).cycle ≤ (s.die x.die).time →
    exec (.bundlePark w pipe) s = .next (renameWait x.die x.core (w, pipe) (s.fresh, .a) { s.setWarp w (x.setIss pipe none) with
      parks := tput s.parks s.fresh ⟨w, { i with since := none }, false⟩, fresh := s.fresh + 1 })) ∧
  (∀ w lane s x, s.warp? w = some x →
    (∀ p, blockedPipe x lane = some p →
      exec (.blockedRegisterFill w lane) s = .next (s.modIss w p fun i => { i with blocked := false })) ∧
    (∀ k, blockedPipe x lane = none → blockedPark s w lane = some k →
      exec (.blockedRegisterFill w lane) s = .next { s with agenda := .retry k :: s.agenda })) ∧
  (∀ w lane s x t bs ws s1 s2, s.warp? w = some x → x.thread lane = some t → t.st = .ready → warpRuns s x = true →
    t.pc.hdr % 8 = 0 → t.pc.cont = none → fetchedFor x t.pc = none → parkOf s w lane = none →
    readCode (.fetch w lane) x t.pc.hdr 8 s = (.ok bs, s1) →
    let header : Word64 := BitVec.ofNat 64 (leNat bs)
    let n := if headerBad t.pc.hdr (decodeHeader header) then 0 else (decodeHeader header).count.toNat + 1
    readCode (.fetch w lane) x (t.pc.hdr + 8) (8 * n) s1 = (.ok ws, s2) →
    exec (.codeFetch w lane) s = .next (addFetched w ⟨t.pc.hdr, header,
      (List.range n).map fun k => BitVec.ofNat 64 (leNat ((ws.drop (8 * k)).take 8))⟩ (dropAnswers (.fetch w lane) s2)))

/-- COMPACTOR_MOVE, the three grants, SFU_RESULT, FENCE_COMPLETE, SLEEP_RELEASE and PUBLICATION have their effects (R96, R133,
R134, R171, R181, R186, R188, R239): an allocation of full registers moves, the word that has waited longest executes again, or is READY again when it has
parked, the results of a warp's oldest SFU word land, a fence whose entries are gone goes on, sleepers whose time has come are READY, and the
publication a PHASE waits for is made. -/
def Obligations.GrantSteps : Prop :=
  let runs := fun (w : Nat) (p : Pipe) (s : State) =>
    if (tget s.parks w).isSome then
      fillParked w { s with parks := tmod s.parks w fun x => { x with iss := { x.iss with grant := .granted } } }
    else s.modIss w p fun i => { i with blocked := false, grant := .granted }
  (∀ w base s x, s.warp? w = some x → x.threads.all (fun t => t.regs.all VReg.full) = true → x.issA = none → x.issB = none →
    x.stopped = false → (x.block.map s.parked).getD false = false → base % (x.width * x.nregs) = 0 →
    base + x.width * x.nregs ≤ 131072 →
    (∀ y ∈ standing s x.die, y.1 ≠ w → y.2.core = x.core →
      y.2.place.base + y.2.place.size ≤ base ∨ base + x.width * x.nregs ≤ y.2.place.base) →
    exec (.compactorMove w base) s = .next (s.setWarp w { x with base := base })) ∧
  (∀ die core slice s w p rest, sfuWaiters s die core slice = (w, p) :: rest → sfuUsed s die core slice < 16 →
    exec (.sfuQueueGrant die core slice) s = .next (runs w p s)) ∧
  (∀ op s r, tget s.sfu op = some r → (tfind s.sfu fun _ q => q.warp == r.warp).map Prod.fst = some op → r.early s = false →
    exec (.sfuResult op) s = .next (reapWarp r.warp { s.modWarp r.warp (landSfu r) with sfu := tdel s.sfu op })) ∧
  (∀ die core s w p rest, waitersOf s (s.core die core).tableQ 2 = (w, p) :: rest → tget s.acts w = none →
    tableUsed s die core < 256 → exec (.tableEntryGrant die core) s = .next (runs w p s)) ∧
  (∀ die core s w p rest, copyWaiters s die core = (w, p) :: rest → copiesUsed s die core < 128 → s.block? w = none →
    exec (.copyQueueAccept die core) s = .next (runs w p s)) ∧
  (∀ w pipe s x i ids, s.warp? w = some x → x.iss pipe = some i → i.after = some ids → entriesGone s ids = true →
    exec (.fenceComplete w pipe) s = .next (s.modIss w pipe fun i => { i with blocked := false })) ∧
  (∀ w s x, s.warp? w = some x → exec (.sleepRelease w) s = .next (releaseWhere w (fun q => match q with
    | .sleep t => decide (t ≤ (s.die x.die).time)
    | _ => false) s)) ∧
  (∀ act s a x b ref, tget s.acts act = some a → a.kind = .phase true ref → s.warp? a.warp = some x → x.block = some b →
    s.parked b = false → doneOps s a.after = true →
    exec (.publication act) s = .next (if ref then setAct act (.phase false true) (publish b s) else endAct act (publish b s)))

/-- LOAD_RETURN and STORE_ACK perform an operation, once no earlier one of its thread must be first (R23, R165, R175-R177): a load
reads its bytes, little-endian, and with `land` writes them to its registers. A shared store writes the block's memory, and a
scratchpad store outside a region its publish buffer. A load or store of the stack brings its line into its core's cache first, which
a miss fills from the run after the eviction of some line of a full cache, and a store makes dirty; a line that may not be read ends the
context (R164). A region access goes to the tracker: performed, it reads the region's own bytes, else those forwarded, else home, and is
recorded; at the level limit it stalls, at a full set or a cycle it aborts a region (R220-R222, R229; that the limits of the sets come
before cycles and levels is log entry 33, the model's choice). A stalled access is tried again (R221), an answer on its way lands (R97), and a REGE all of whose accesses are performed
may commit (R223). -/
def Obligations.LoadStoreSteps : Prop :=
  let goes := fun (s : State) (op : Nat) (o : MemOp) (b : Nat) (x : Block) => tget s.ops op = some o ∧ o.block = some b ∧
    s.block? b = some x ∧ x.st ≠ .parked ∧ o.st = .sent ∧ o.entry.isSome = true ∧ o.region = false ∧ mustFollow s op o = false
  let reads := fun (s : State) (op w v : Nat) => checkRege w { s with ops := tmod s.ops op fun o => { o with st := .read v } }
  (∀ op s o b x sg, goes s op o b x → o.kind = .load sg → o.space = .shared →
    exec (.loadReturn op false) s = .next (reads s op o.warp (mread x.mem o.addr o.size)) ∧
    exec (.loadReturn op true) s = .next (landOp op (reads s op o.warp (mread x.mem o.addr o.size)))) ∧
  (∀ op s o b x sg, goes s op o b x → o.kind = .load sg → o.space = .scratch →
    exec (.loadReturn op false) s =
      .next (reads s op o.warp (leNat ((List.range o.size).map fun k => (tget x.pub (o.addr + k)).getD (mget x.view (o.addr + k)))))) ∧
  (∀ op s o b x, goes s op o b x → o.kind = .store → o.space = .shared →
    exec (.storeAck op) s =
      .next (checkRege o.warp (dropOp op (s.setBlock b { x with mem := msetAll x.mem (cellsAt o.addr (leBytes o.size o.data)) })))) ∧
  (∀ op s o b x, goes s op o b x → o.kind = .store → o.space = .scratch →
    exec (.storeAck op) s = .next (checkRege o.warp (dropOp op (s.setBlock b { x with
      pub := (cellsAt o.addr (leBytes o.size o.data)).foldl (fun p c => tput p c.1 c.2) x.pub })))) ∧
  (∀ op s o b at_ off x t y, tget s.ops op = some o → o.space = .stack → o.st = .sent → o.entry.isSome = true → o.region = false →
    mustFollow s op o = false → (o.block.map s.parked).getD false = false → s.warp? o.warp = some x →
    stackPlace s o = some (b, at_, off) →
    (∀ sg, o.kind = .load sg → touchLine o.ctx x.die x.core b at_ off false s = (true, t) → t.warp? o.warp = some y →
      exec (.loadReturn op false) s = .next (reads { t with fresh := t.fresh + o.size } op o.warp
        (leNat ((List.range o.size).map fun i => stackByte t y o (t.fresh + i) i)))) ∧
    (∀ i a k, tget y.stk (warpOffset t y o.lane (o.addr + i)) = some a → stackByte t y o k i = a) ∧
    (∀ sg, o.kind = .load sg → touchLine o.ctx x.die x.core b at_ off false s = (false, t) →
      exec (.loadReturn op false) s = .next (checkRege o.warp (stallOp op t))) ∧
    (o.kind = .store → touchLine o.ctx x.die x.core b at_ off true s = (false, t) →
      exec (.storeAck op) s = .next (checkRege o.warp (stallOp op t))) ∧
    (o.kind = .store → touchLine o.ctx x.die x.core b at_ off true s = (true, t) → t.warp? o.warp = some y → y.block = some b →
      stackPlace t o = some (b, at_, off) → exec (.storeAck op) s = .next (checkRege o.warp (dropOp op (t.setWarp o.warp { y with
        stk := (cellsAt (warpOffset t y o.lane o.addr) (leBytes o.size o.data)).foldl (fun m c => tput m c.1 c.2) y.stk }))))) ∧
  (∀ ctx die core b at_ off store s,
    let c := s.core die core
    let same := fun (l : StackLine) => l.block == b && l.line == off / 64
    (c.lines.any same = true → touchLine ctx die core b at_ off store s =
      (true, s.modCore die core fun c => { c with lines := c.lines.map fun l => if same l then { l with dirty := l.dirty || store } else l })) ∧
    (∀ k, c.lines.any same = false → stackFault s ctx die (at_ + off / 64 * 64) 64 = some k →
      touchLine ctx die core b at_ off store s = (false, endContext ctx 0x0B (causeEngine die (at_ + off / 64 * 64) 0)
        (logViolation ctx (at_ + off / 64 * 64) k 7 die s))) ∧
    (c.lines.any same = false → stackFault s ctx die (at_ + off / 64 * 64) 64 = none → c.lines.length < 512 →
      touchLine ctx die core b at_ off store s =
        (true, s.modCore die core fun c => { c with lines := c.lines ++ [⟨b, off / 64, store⟩] })) ∧
    (∀ l t, c.lines.any same = false → stackFault s ctx die (at_ + off / 64 * 64) 64 = none → 512 ≤ c.lines.length →
      c.lines[Config.choice s.fresh % c.lines.length]? = some l → evictLine die core l s.bump = (true, t) →
      (t.core die core).lines.length < 512 → touchLine ctx die core b at_ off store s =
        (true, t.modCore die core fun c => { c with lines := c.lines ++ [⟨b, off / 64, store⟩] }))) ∧
  (∀ op s o b t, tget s.ops op = some o → o.region = true → o.space = .scratch → o.block = some b → s.parked b = false → o.st = .sent →
    o.entry.isSome = true → mustFollow s op o = false →
    (∀ sg v, o.kind = .load sg → regionAccess o.warp o 65 s = (some v, t) →
      exec (.loadReturn op false) s = .next (reads t op o.warp v)) ∧
    (∀ v, o.kind = .store → regionAccess o.warp o 65 s = (some v, t) →
      exec (.storeAck op) s = .next (checkRege o.warp (dropOp op t))) ∧
    (∀ sg, o.kind = .load sg → regionAccess o.warp o 65 s = (none, t) →
      exec (.loadReturn op false) s = .next (checkRege o.warp (stallOp op t))) ∧
    (o.kind = .store → regionAccess o.warp o 65 s = (none, t) →
      exec (.storeAck op) s = .next (checkRege o.warp (stallOp op t)))) ∧
  (∀ op s, stallOp op s = { s with ops := tmod s.ops op fun o => if o.region && o.st == .sent then { o with st := .noroom } else o }) ∧
  (∀ w o n s die r, warpRegion s w = some (die, r) →
    let d := s.die die
    let go := fun c => trackAccess d r o.addr o.size (o.kind == .store) = c
    (go .capacity → regionAccess w o (n + 1) s = (none, abortSlots die 3 [r.slot] s)) ∧
    (go .stall → regionAccess w o (n + 1) s = (none, s)) ∧
    (∀ k, go (.cycle k) → regionAccess w o (n + 1) s = regionAccess w o n (abortSlots die 1 [k] s)) ∧
    (∀ h, go .go → s.share? r.share = some h → regionAccess w o (n + 1) s =
      (some (leNat ((List.range o.size).map fun k => regionByte d h r (o.addr + k))),
        s.setDie die (recordAccess d r o.addr o.size (cellsAt o.addr (leBytes o.size o.data)) (o.kind == .store))))) ∧
  (∀ d r a n,
    (1024 ≤ r.reads.length → r.reads.contains (a / 32) = false → trackAccess d r a n false = .capacity) ∧
    (256 ≤ r.writeG.length → r.writeG.contains (a / 32) = false → trackAccess d r a n true = .capacity)) ∧
  (∀ d h r a, (∀ v, tget r.writes a = some v → regionByte d h r a = v) ∧
    (tget r.writes a = none → chainOf d r.share (a / 32) = [] → regionByte d h r a = mget h.home a)) ∧
  (∀ op s o, tget s.ops op = some o → o.region = true → o.st = .noroom →
    exec (.regionAccessRetry op) s = .next (checkRege o.warp (ackOp op (readOp op s)))) ∧
  (∀ op s o v, tget s.ops op = some o → o.kind = .regq → o.st = .read v →
    exec (.loadReturn op true) s = .next (landOp op (checkRege o.warp s))) ∧
  (∀ op s o v, tget s.ops op = some o → o.st = .read v → o.dst < 512 →
    landOp op s = dropOp op (s.modThread o.warp o.lane (landThread o v)))

/-- PORT_OPERATION, ATOMIC_RETURN, WAITER_PLACE_FREE and WAITV_TIMEOUT (R189-R199) on a word of shared memory, of the scratchpad's home
state and of main memory: an atomic writes the new value and answers the old; a WAITV whose word holds b sleeps when the store has room
and its limit has not passed, and answers false when it has; a word that differs answers true; a NOTE wakes the earliest waiter or all,
but none that is late; results land, those of another die once they have come over the mesh; a sleeper whose limit has passed answers
false. Home changes abort the regions that have read the granule (R228). An operation that must follow an earlier one waits; a main-memory
address without a translation, or one that a bad unit holds, is logged, fills v[d] with 0 and faults its lane (R193). -/
def Obligations.PortSteps : Prop :=
  let goes := fun (s : State) (op : Nat) (o : MemOp) (b : Nat) (x : Block) => tget s.ops op = some o ∧ o.block = some b ∧
    s.block? b = some x ∧ x.st ≠ .parked ∧ o.st = .sent ∧ o.entry.isSome = true ∧ o.space = .shared ∧ o.act = none ∧
    mustFollow s op o = false
  let word := fun (x : Block) (o : MemOp) => BitVec.ofNat 32 (mread x.mem o.addr 4)
  let spot := fun (op b : Nat) (o : MemOp) (s : State) => setOp op (fun q => { q with spot := some (0, b, o.addr), sfs := none }) s
  (∀ op u s o b x k ret, goes s op o b x → o.kind = .atom k ret →
    let r := atomNew k (word x o) (BitVec.ofNat 32 o.data) o.cmp
    exec (.portOperation op u) s = .next (answerOp op (word x o).toNat (spot op b o
      ((orFpstat o.ctx r.2 s).modBlock b fun y => { y with mem := mwrite y.mem o.addr 4 r.1.toNat })))) ∧
  (∀ op u s o b x lim, goes s op o b x → o.kind = .waitv lim → (word x o).toNat ≠ o.data →
    exec (.portOperation op u) s = .next (answerOp op ((word x o).toNat + 2 ^ 32) (spot op b o s))) ∧
  (∀ op u s o b x lim, goes s op o b x → o.kind = .waitv lim → (word x o).toNat = o.data →
    let t := spot op b o s
    (o.late s = true → exec (.portOperation op u) s = .next (answerOp op o.data t)) ∧
    (o.late s = false → storeRoom t (0, b, o.addr) = true → exec (.portOperation op u) s =
      .next ({ t with ops := tmod t.ops op fun q => { q with st := .sleeping t.fresh, entry := none, xfer := none } } : State).bump)) ∧
  (∀ op u s o b x all, goes s op o b x → o.kind = .note all →
    let t := spot op b o s
    let ws := (waitersAt t o.ctx (0, b, o.addr)).filter fun w => !w.2.1.late t
    exec (.portOperation op u) s = .next (answerOp op 0 ((if all then ws else ws.take 1).foldl (fun s w =>
      { s with ops := tmod s.ops w.1 fun q => { q with st := .read ((word x o).toNat + 2 ^ 32) } }) t))) ∧
  (∀ op u s o b x h k ret, tget s.ops op = some o → o.block = some b → s.block? b = some x → s.share? x.share = some h →
    x.st ≠ .parked → o.st = .sent → o.entry.isSome = true → o.space = .scratch → o.kind = .atom k ret → mustFollow s op o = false →
    let old := BitVec.ofNat 32 (mread h.home o.addr 4)
    let r := atomNew k old (BitVec.ofNat 32 o.data) o.cmp
    exec (.portOperation op u) s =
      .next (afterRmw op o old (homeWrite x.share (cellsAt o.addr (leBytes 4 r.1.toNat)) (orFpstat o.ctx r.2 s)))) ∧
  (∀ op u s o b x h, tget s.ops op = some o → o.block = some b → s.block? b = some x → s.share? x.share = some h →
    x.st ≠ .parked → o.st = .sent → o.entry.isSome = true → o.space = .scratch →
    ((∃ lim, o.kind = .waitv lim) ∨ ∃ all, o.kind = .note all) → mustFollow s op o = false →
    exec (.portOperation op u) s = .next (afterRmw op o (BitVec.ofNat 32 (mread h.home o.addr 4)) s)) ∧
  (∀ op u s o, tget s.ops op = some o → o.st = .sent → o.entry.isSome = true → o.space = .main →
    ((∃ k ret, o.kind = .atom k ret) ∨ (∃ lim, o.kind = .waitv lim) ∨ ∃ all, o.kind = .note all) →
    (o.block.map s.parked).getD false = false → mustFollow s op o = false →
    let h := Holder.op op
    let tag := accessTag h true o.addr
    let leave := fun (s : State) => snapLeave o.ctx o.port o.addr h (freeAccess o.port o.ctx o.addr h s)
    let free := fun (s : State) => leave (leave (dropMessage (tag ++ [2]) (dropMessage tag s)))
    (2 ^ 57 ≤ o.addr → exec (.portOperation op u) s = .next (rmwFault op o 1 s)) ∧
    (o.addr < 2 ^ 57 → s.transfer? tag = none → s.transfer? (tag ++ [1]) = none → heldTurn s o.port o.ctx o.addr true h = true →
      snapTurn s o.ctx o.port o.addr h = true → awayMirror s h o.ctx o.port o.addr = none → pathOf s o.ctx o.port o.addr true = [] →
      ∀ t, let made := fun (r : Ended Word) => mainRmw s o.ctx o.port o.addr (rmwOf o) (fpAddend o) (opStep s o) = (r, t)
      (∀ old, made (.done old) → exec (.portOperation op u) s = .next (afterRmw op o old (free t))) ∧
      (∀ k, made (.fail k) → exec (.portOperation op u) s = .next (rmwFault op o k (free t))) ∧
      (made .wait → exec (.portOperation op u) s = .next (holdAccess o.port o.ctx o.addr true h t)))) ∧
  (∀ ctx die x f v step s d a also t u bs new fl, locate s ctx die x true v.isSome = (.here d a also, t) → dramRead t d a 4 = some bs →
    f (BitVec.ofNat 32 (leNat bs)) = (some new, fl) →
    writeAll ctx (x / 4096 * 4096) step (leBytes 4 new.toNat) ((d, a) :: also) t = .ok u →
    mainRmw s ctx die x f v step = (.done (BitVec.ofNat 32 (leNat bs)), orFpstat ctx fl u)) ∧
  (∀ op o k s, rmwFault op o k s = laneFault o.warp (laneBit o.lane) (landOp op (answerOp op 0
    (logViolation o.ctx o.addr k 2 o.port (setOp op (fun q => { q with spot := none }) s))))) ∧
  (∀ op o old s p, spotOf s o = some p →
    let t := setOp op (fun q => { q with spot := some p, sfs := scaleOf s o }) s
    (∀ k ret, o.kind = .atom k ret → afterRmw op o old s = answerOp op old.toNat t) ∧
    (∀ lim, o.kind = .waitv lim → old.toNat ≠ o.data → afterRmw op o old s = answerOp op (old.toNat + 2 ^ 32) t) ∧
    (∀ lim, o.kind = .waitv lim → old.toNat = o.data → o.late t = true → afterRmw op o old s = answerOp op o.data t) ∧
    (∀ lim, o.kind = .waitv lim → old.toNat = o.data → o.late t = false → storeRoom t p = true → afterRmw op o old s =
      (setOp op (fun q => { q with st := .sleeping t.fresh, entry := none, xfer := none }) t).bump) ∧
    (∀ lim, o.kind = .waitv lim → old.toNat = o.data → o.late t = false → storeRoom t p = false →
      afterRmw op o old s = setOp op (fun q => { q with st := .noroom }) t) ∧
    (∀ all, o.kind = .note all →
      let ws := (waitersAt t o.ctx p).filter fun w => !w.2.1.late t
      afterRmw op o old s = answerOp op 0 ((if all then ws else ws.take 1).foldl (fun s w =>
        setOp w.1 (fun q => { q with st := .read (old.toNat + 2 ^ 32) }) s) t))) ∧
  (∀ op u s o, tget s.ops op = some o → mustFollow s op o = true → exec (.portOperation op u) s = .next s) ∧
  (∀ op s o v d t, tget s.ops op = some o → ((∃ k ret, o.kind = .atom k ret) ∨ (∃ lim, o.kind = .waitv lim) ∨ ∃ all, o.kind = .note all) →
    o.st = .read v → o.act = none → o.away = some d →
    ride 1 o.ctx d o.port (accessTag (.op op) true o.addr ++ [1]) [] s = (.come, t) →
    exec (.atomicReturn op) s = .next (landOp op (dropMessage (accessTag (.op op) true o.addr ++ [1]) t))) ∧
  (∀ op s o v k ret, tget s.ops op = some o → o.kind = .atom k ret → o.st = .read v → o.act = none → o.away = none → o.dst < 512 →
    exec (.atomicReturn op) s = .next (dropOp op (s.modThread o.warp o.lane (landThread o v)))) ∧
  (∀ op s o, tget s.ops op = some o → o.st = .noroom → o.region = false →
    exec (.waiterPlaceFree op) s = .next (portOp op s)) ∧
  (∀ op s o b x lim p n, tget s.ops op = some o → o.kind = .waitv (some (lim, p)) → o.st = .sleeping n → o.space = .shared →
    o.spot = some (0, b, o.addr) → s.block? b = some x → lim ≤ (s.die o.port).time →
    exec (.waitvTimeout op) s = .next (answerOp op (word x o).toNat s)) ∧
  (∀ op s o lim p n, tget s.ops op = some o → o.kind = .waitv (some (lim, p)) → o.st = .sleeping n → lim ≤ (s.die o.port).time →
    (∀ h x a, o.spot = some (1, h, a) → s.share? h = some x →
      exec (.waitvTimeout op) s = .next (answerOp op (BitVec.ofNat 32 (mread x.home a 4)).toNat s)) ∧
    (∀ d a, o.spot = some (2, d, a) → o.sfs = none →
      exec (.waitvTimeout op) s = .next (answerOp op (BitVec.ofNat 32 (mread (s.die d).dram a 4)).toNat s)))

/-- TREE_RELEASE and TREE_CFG_WRITE have their effects (R207, R209): a core counts a release that is owed, clears its arrival unless
it is retired, and wakes the threads whose rounds have passed; a legal configuration completes the round and holds from the next. -/
def Obligations.TreeSteps : Prop :=
  (∀ ch die core s, (s.core die core).owed.getD ch 0 ≠ 0 →
    let c := s.core die core
    let n := c.counts.getD ch 0 + 1
    let t := s.setCore die core { c with owed := lmod c.owed ch (· - 1), counts := c.counts.set ch n }
    exec (.treeRelease ch die core) s = .next (if t.retired die core then t else
      let u := t.modCore die core fun c => { c with arrived := c.arrived.set ch false }
      (u.warps.filter fun x => x.2.die == die && x.2.core == core).foldl (fun s x => releaseWhere x.1 (fun q => match q with
        | .tree k r => k == ch && passedRound n r
        | _ => false) s) u)) ∧
  (∀ ch v s, ch < 8 → treeCfgOk v = true →
    exec (.treeCfgWrite ch v) s = .next (((List.range 64).filter (inSegment v)).foldl (fun s d => s.modDie d fun x =>
      { x with excuseAt := x.excuseAt.set ch (x.excuse.getD ch []) })
      ((completeTree ch s).modMod fun m => { m with treeCfg := m.treeCfg.set ch v })))

/-- REGION_OPEN and REGION_COMMIT have their effects (R219, R223, R229, R231): the die's first waiting warp gets the lowest free slot
and the next stamp, exclusively after eight aborts (that the REGBs ahead of an exclusive request open first is log entry 33, the model's
choice); a committing region with no predecessor, all of whose accesses are performed, writes its bytes at one
position of the home order, frees its slot and clears the warp's count and reason. An abort frees the slots, edges and chain places of the
regions it takes with it, CASCADE for those that hold a forward edge from one (R227), counts it, records its reason, redirects the
warp's threads and writes no byte of home (R225). A trap and a lane fault abort with TRAP, a write from outside every region whose read
set it meets with EXTERNAL before the write, a save with PREEMPT (R228, R230). -/
def Obligations.RegionSteps : Prop :=
  (∀ w s x slot rest, s.warp? w = some x → x.region = .opening →
    lowestFree 64 ((s.die x.die).regions.map Region.slot) = some slot →
    ((s.die x.die).opening.filter fun k => ((s.warp? k).map fun y => y.region == .opening).getD false) = w :: rest →
    stampOk (s.die x.die) = true → exclusiveLive (s.die x.die) = false → (8 ≤ x.aborts → (s.die x.die).regions = []) →
    exec (.regionOpen w) s = .next (releaseWhere w (· == .regb)
      ((s.setDie x.die { s.die x.die with
          opening := rest, stamp := (s.die x.die).stamp + 1
          regions := (s.die x.die).regions ++ [⟨slot, w, x.share, (s.die x.die).stamp, decide (8 ≤ x.aborts), [], [], []⟩] }).modWarp w
        fun y => { y with region := .live slot }))) ∧
  (∀ w s x die r, s.warp? w = some x → warpRegion s w = some (die, r) → x.region = .committing r.slot →
    regionBusy s w = false → (∀ e ∈ (s.die die).edges, e.to_ ≠ r.slot) →
    exec (.regionCommit w) s = .next (releaseWhere w (· == .rege)
      ((((s.modDie die fun d => { d with
          regions := d.regions.filter fun q => q.slot != r.slot
          edges := d.edges.filter fun e => e.from_ != r.slot
          chains := d.chains.map fun g => (g.1, g.2.1, g.2.2.filter (· != r.slot)) }).modShare r.share fun h =>
        { h with home := msetAll h.home r.writes })).modWarp w fun y => { y with region := .none, aborts := 0, reason := 0 }))) ∧
  (∀ w reason s x slot, s.warp? w = some x → (x.region = .live slot ∨ x.region = .committing slot) →
    abortRegion w reason s = abortSlots x.die reason [slot] s) ∧
  (∀ die reason slots s,
    let d := s.die die
    let gone := cascade d 64 slots
    abortSlots die reason slots s = (d.regions.filter fun r => gone.contains r.slot).foldl
      (fun s r => abortWarp r.warp (if slots.contains r.slot then reason else 2) s)
      (s.setDie die { d with
        regions := d.regions.filter fun r => !gone.contains r.slot
        edges := d.edges.filter fun e => !gone.contains e.from_ && !gone.contains e.to_
        chains := d.chains.map fun g => (g.1, g.2.1, g.2.2.filter fun x => !gone.contains x) })) ∧
  (∀ d n slots, (∀ k ∈ slots, k ∈ cascade d n slots) ∧
    (∀ e ∈ d.edges, e.fwd = true → e.from_ ∈ slots → e.to_ ∈ cascade d (n + 1) slots) ∧
    ((∀ e ∈ d.edges, e.fwd = true → e.from_ ∈ slots → e.to_ ∈ slots) → cascade d n slots = slots)) ∧
  (∀ w reason s x, s.warp? w = some x →
    let t := abortWarp w reason s
    let stays := fun (i : Issue) => !(i.inAccess || (i.lanes &&& stalledLanes s w) != 0)
    let busy := fun (l : Nat) =>
      ([x.issA, x.issB].reduceOption ++ ((s.parks.filter fun p => p.2.warp == w && !(p.2.ready || !stays p.2.iss)).map fun p => p.2.iss)).any
        fun i => i.lanes.getLsbD l && stays i
    t.shares = s.shares ∧ ∃ y, t.warp? w = some y ∧ y.region = .none ∧ y.aborts = x.aborts + 1 ∧ y.reason = reason ∧
      y.threads.length = x.threads.length ∧ ∀ l u, x.thread l = some u →
        y.thread l = some (redirectThread x.rtarget s.instant (s.die x.die).time (busy l) (reason == 4) u)) ∧
  (∀ target group now executing saved t,
    let goes := redirectThread target group now executing saved t
    let at_ := t.ready (atHeader target) group now
    (t.st = .waiting .regb ∨ t.st = .waiting .rege → goes = at_) ∧
    (t.st = .ready → goes = { at_ with count := if saved then t.count else 0 }) ∧
    (t.st = .issued → goes = if executing then { t with redirect := some target } else at_) ∧
    (∀ q, t.st = .waiting q → q ≠ .regb → q ≠ .rege → goes = if saved then at_ else { t with pc := atHeader target, redirect := some target }) ∧
    (t.live = false → goes = t)) ∧
  (∀ w l at_ cause faddr code target s x t, s.warp? w = some x → x.thread l = some t → t.trap = none → (s.ctx x.ctx).tvec ≠ 0 →
    let u := abortRegion w 5 s
    let frame : TrapFrame :=
      { cause := cause, code := code, pred := (t.preds &&& 0x7F).setWidth 32, cpc := at_.hdr, cidx := at_.idx
        faddr := BitVec.ofNat 64 faddr, cls := at_.cls, count := at_.count
        window := List.replicate 32 ⟨0, true⟩, target := t.redirect.or target }
    enterTrap w l at_ cause faddr code target s = u.modWarp w fun y =>
      { y.modThread l (fun v => { v.ready (atHeader (u.ctx x.ctx).tvec.toNat) u.instant (u.die x.die).time with trap := some frame }) with
        ctxsel := x.ctx }) ∧
  (∀ w m s, m ≠ 0 → laneFault w m s =
    leaveLanes w m .off 5 (s.modWarp w fun x => { x with faults := x.faults ||| m, faulted := x.faulted ||| m })) ∧
  (∀ h cells s x, s.share? h = some x →
    let hit := ((s.die x.die).regions.filter fun r => r.share == h && r.reads.any (granules (cells.map Prod.fst)).contains).map Region.slot
    let writes := fun (t : State) => t.modShare h fun y => { y with home := msetAll y.home cells }
    (hit = [] → homeWrite h cells s = writes s) ∧ (hit ≠ [] → homeWrite h cells s = writes (abortSlots x.die 6 hit s))) ∧
  (∀ w s x, let t := readyParks w (parkBundle w .b (parkBundle w .a s))
    t.warp? w = some x → x.issA = none → x.issB = none →
      settleWarp w s = (standAtTargets w (abortRegion w 4 t)).modDie x.die fun d => { d with opening := d.opening.filter (· != w) })

/-- MMA_FIRE, TILE_OPERATION_PERFORM, PORT_OPERATION on a unit of a tile update, and TILE_UPDATE_PERFORM have their effects (R261,
R266, R270-R274, R279, R283-R287): an accepted MMA whose signers agree reads a block of its siding and updates its tile; words that
disagree trap every signer with FORMAT-DIVERGENCE at its own word; one whose signers have all left is given up. MCLR clears its tile, MLDT
loads it, MMOVR and MQRY deliver to each lane, MMOVW writes elements in lane order; MDRAIN, QDUAL and RQNT write their blocks and scale
records, a drain to a siding in one slot of it. An update fires with its values, changes four words a unit, at the scratchpad's home or
at main memory, and has performed once its 256 units are done. A performed operation leaves the queue (that its place frees then and not at
firing is log entry 22, the model's choice), and the accepted rounds go on. -/
def Obligations.TileSteps : Prop :=
  (∀ top s t m z tr keep h q x blk k r, tget s.tops top = some t → t.kind = .mma m z tr keep h q → s.warp? t.warp = some x →
    s.block? t.block = some blk → x.masks[m]? = some k → k.round = some r → joined s top t = true → tileFires s t = true →
    let mem := r.signed &&& k.bits
    let b := s.buf t.block q
    let bs := nearRead s blk b.die (nearAddr b true b.cr 0) 1028
    let bw : Word := BitVec.ofNat 32 (leNat (bs.drop 1024))
    let a := enteringLatch x keep r mem
    let tile := blk.tile t.half t.tile
    (mem = 0 → exec (.mmaFire top) s = .next (closeRound t.warp m (endTile top s))) ∧
    (mem ≠ 0 → slotsReady b false 1 = true → earlierWaits s t.block q top = false → fmtKind bw < 2 → biasOk (fmtBias bw) = true →
      (keep = false → wordsAgree x r mem = true) → a.kind % 2 = fmtKind bw →
      (z = true ∨ tile.cls = .unset ∨ tile.cls = (if a.kind < 2 then .sx else .vx)) →
      exec (.mmaFire top) s = .next (closeRound t.warp m
        (((endTile top (endSlots t.block q false top (reserveSlots t.block q false top 1 s))).modTile t.block t.half t.tile fun u =>
          mmaTile u z h a (fmtKind bw) tr bs bw).modWarp t.warp fun y => { y with latch := a }))) ∧
    (mem ≠ 0 → slotsReady b false 1 = true → earlierWaits s t.block q top = false →
      ¬ (fmtKind bw < 2 ∧ biasOk (fmtBias bw) = true ∧ (keep = false → wordsAgree x r mem = true) ∧ a.kind % 2 = fmtKind bw ∧
        (z = true ∨ tile.cls = .unset ∨ tile.cls = (if a.kind < 2 then .sx else .vx))) →
      exec (.mmaFire top) s = .next (closeRound t.warp m ((laneList x.width r.signed).foldl (fun acc l =>
        match tget r.staged l with
        | some g => if (x.thread l).any Thread.live then enterTrap t.warp l ⟨g.hdr, g.idx, 4, g.count⟩ 0x05 0 0 x.trapTarget acc else acc
        | none => acc) (endTile top (endSlots t.block q false top (reserveSlots t.block q false top 1 s))))))) ∧
  (∀ top s t, tget s.tops top = some t →
    endTile top s = reapWarp t.warp (acceptRounds t.die t.core { s with tops := tdel s.tops top })) ∧
  (∀ top s t b, tget s.tops top = some t → s.block? t.block = some b → t.fired = false → joined s top t = true → tileFires s t = true →
    (∀ q, t.kind.writes = some q → publHolds s t.block q top = false) →
    let tile := b.tile t.half t.tile
    let ends := fun (u : State) => exec (.tileOperationPerform top) s = .next (endTile top u)
    let writes := fun (q n o : Nat) (start : Word) (els rec_ : List Byte) (u : State) =>
      nearWrite t.block q top (cellsAt (nearAddr (u.buf t.block q) false start n) els ++
        cellsAt (nearAddr (u.buf t.block q) false start o) rec_) u
    (∀ raw q n x, t.kind = .mldt raw q n x →
      let bs := nearRead s b (b.buf q).die (nearAddr (b.buf q) true 0 (16 * n)) 8192
      ends (s.modTile t.block t.half t.tile fun _ => loadTile raw x fun k => leNat ((bs.drop (8 * k)).take 8))) ∧
    (∀ raw dst ls, t.kind = .mmovr raw dst ls → ends (landTile t.warp dst (ls.map fun l =>
      let v := if raw then (tile.elems.getD l.2.1 0).setWidth 64 else BitVec.ofInt 64 (crt (tile.elems.getD l.2.1 0))
      (l.1, l.2.2, [v.extractLsb' 0 32, v.extractLsb' 32 32])) s)) ∧
    (∀ raw ls, t.kind = .mmovw raw ls →
      ends (s.modTile t.block t.half t.tile fun u => ls.foldl (fun u l => writeElem raw u l.2.1 l.2.2) u)) ∧
    (∀ row dst ls, t.kind = .mqry row dst ls → ends (landTile t.warp dst (ls.map fun l =>
      (l.1, l.2.2, [if row then rowStatus tile l.2.1 else tileStatus tile])) s)) ∧
    (∀ fmt rnd q n o, t.kind = .mdrain fmt rnd q n o →
      let d := drainBytes tile fmt (rndOf rnd)
      ((b.buf q).kind ≠ .ring → ends (writes q n o 0 d.1 d.2 s)) ∧
      ((b.buf q).kind = .ring → slotsReady (b.buf q) true 1 = true → earlierWaits s t.block q top = false →
        ends (endSlots t.block q true top (writes q n o (b.buf q).pr d.1 d.2 (reserveSlots t.block q true top 1 s))))) ∧
    (∀ bf rnd q n o w, t.kind = .qdual bf rnd q n o w →
      let bs := nearRead s b (b.buf q).die (nearAddr (b.buf q) true 0 n) (if bf then 2048 else 4096)
      ends (writes q o o 0 (dualBytes bf (rndOf rnd) w bs) [] s)) ∧
    (∀ rnd q n o w, t.kind = .rqnt rnd q n o w →
      let bs := nearRead s b (b.buf q).die (nearAddr (b.buf q) true 0 n) (min 4112 ((b.buf q).size - n))
      let r := requantBytes (rndOf rnd) (sourceWord s bs) w bs
      ends (writes q o (o + if fmtKind w = 4 then 4096 else 1024) 0 r.1 r.2 s.bump))) ∧
  (∀ top unit s t upd mem a st lr b, tget s.ops top = none → tget s.tops top = some t → t.kind = .update upd mem a st lr →
    s.block? t.block = some b → t.fired = true → unit < 256 → t.units.contains unit = false →
    let at_ := a + unit / 8 * st + 16 * (unit % 8)
    let vals := (List.range 4).map fun k => (at_ + 4 * k, t.vals.getD (32 * (unit / 8) + 4 * (unit % 8) + k) none)
    let fin := fun (u : State) => dropAnswersOf (.tile top) (fun _ x => x == at_)
      { u with tops := tmod u.tops top fun t => { t with units := t.units ++ [unit] } }
    (∀ h, mem = false → s.share? b.share = some h →
      let rs := vals.map fun v => (v.1, updateNew upd lr v.2 (BitVec.ofNat 32 (mread h.home v.1 4)))
      exec (.portOperation top unit) s = .next (fin (homeWrite b.share (rs.flatMap fun r => cellsAt r.1 (leBytes 4 r.2.1.toNat))
        (orFpstat t.ctx ((rs.map fun r => r.2.2).foldl (· ||| ·) 0) s)))) ∧
    (∀ r u, mem = true →
      writeAccess (.tile top) t.ctx t.die at_ 1 16 (rmwWhole t.ctx t.die upd lr (some (b.kern, t.step)) vals) s = (r, u) →
      (r = .done () → exec (.portOperation top unit) s = .next (fin u)) ∧
      (∀ k, r = .fail k → exec (.portOperation top unit) s = .next (fin (logViolation t.ctx at_ k 3 t.die u))) ∧
      (∀ d k, r = .remote d k → exec (.portOperation top unit) s = .next (remoteEnd t.ctx d at_ k u)) ∧
      (r = .wait → exec (.portOperation top unit) s = .next u))) ∧
  (∀ lr x old, (fp32.decode (BitVec.toNat old)).isNan = false →
    let r := addVals fp32 .rn (fp32.decode old.toNat) (.fin (dyInt x.1 x.2))
    updateNew false lr (some x) old = (BitVec.ofNat 32 r.bits, r.flags)) ∧
  (∀ top s t b h, tget s.tops top = some t → t.kind = .mclr h → s.block? t.block = some b → t.fired = false → joined s top t = true →
    tileFires s t = true → exec (.tileOperationPerform top) s =
      .next (endTile top (s.modTile t.block t.half t.tile fun _ => clearTile h))) ∧
  (∀ top s t b u mem a st lr, tget s.tops top = some t → t.kind = .update u mem a st lr → s.block? t.block = some b → t.fired = false →
    joined s top t = true → tileFires s t = true → exec (.tileOperationPerform top) s =
      .next { s with tops := tput s.tops top { t with fired := true, vals := updateVals (b.tile t.half t.tile) } }) ∧
  (∀ top s t, tget s.tops top = some t → t.fired = true → 256 ≤ t.units.length →
    exec (.tileUpdatePerform top) s = .next (endTile top s))

/-- COPY_FIRE, COPY_COMPLETE, RWAIT_FILL and SCHEDULE_FIRING have their effects (R238, R242, R243, R246, R252, R254, R256): the commands
of a copy's word fire together, with their moves or their status, once no earlier PUBL holds them and the slots the word takes are
available, which it reserves once (that they fire together and reserve once is log entry 22, the model's choice); a fired copy performs
one unit, or the rest and its token; a siding wait whose count is reached fills its token and moves the block's mark; the block's next
due entry fires. -/
def Obligations.CopySteps : Prop :=
  (∀ copy s c, tget s.copies copy = some c → c.st = .waiting → c.frozen = false → blockFires s c.block = true → waitsTarget s c = false →
    (c.moves ≠ [] → exec (.copyFire copy) s = .next (fireGroup c c.start s)) ∧
    (c.moves = [] → (c.kind.writesNear = true → publHolds s (c.block.getD 0) c.buf copy = false) →
    (copySide s c = none → exec (.copyFire copy) s = .next (fireGroup c c.start s)) ∧
    (∀ prod first, copySide s c = some prod →
      tfind s.copies (fun _ x => x.group == c.group && x.st == .waiting) = some first →
      let q := s.buf (c.block.getD 0) c.buf
      slotsReady q prod c.imm = true → earlierWaits s (c.block.getD 0) c.buf first.1 = false → exec (.copyFire copy) s =
        .next (fireGroup c (nextSlot q prod) (reserveSlots (c.block.getD 0) c.buf prod c.group c.imm s))))) ∧
  (∀ c start s k x, tget s.copies k = some x → x.group = c.group → x.st = .waiting → x.moves ≠ [] →
    tget (fireGroup c start s).copies k = some { x with st := .fired }) ∧
  (∀ c start s k x, tget s.copies k = some x → x.group = c.group → x.st = .waiting → x.moves = [] →
    let y := { x with start := start }
    (∀ st, copyMoves s y = .error st →
      tget (fireGroup c start s).copies k = some { y with st := .fired, status := st, moves := [] }) ∧
    (∀ ms, copyMoves s y = .ok ms → tget (fireGroup c start s).copies k = some { y with st := .fired, moves := ms })) ∧
  (∀ copy s c, tget s.copies copy = some c → c.st = .fired → c.frozen = false →
    (∀ u, exec (.copyComplete copy (some u)) s = .next (copyUnit copy u s)) ∧
    exec (.copyComplete copy none) s = .next (finishCopy copy (copyRest copy c.moves.length s))) ∧
  (∀ wait s b q k r, tget s.rwaits wait = some (b, q, k, r, true) → (s.buf b q).kind = .ring → s.parked b = false →
    k ≤ ((s.buf b q).c + BitVec.ofNat 32 (s.buf b q).slots - (s.buf b q).p).toNat →
    exec (.rwaitFill wait) s =
      let t := fillToken (tgetD s.rwaitW wait 0) r (s.buf b q).c (s.modBuf b q fun y => { y with rl := y.c })
      .next { t with rwaits := tdel t.rwaits wait, rwaitW := tdel t.rwaitW wait }) ∧
  (∀ wait s b q k r, tget s.rwaits wait = some (b, q, k, r, false) → (s.buf b q).kind = .ring → s.parked b = false →
    k ≤ ((s.buf b q).p - (s.buf b q).c).toNat →
    exec (.rwaitFill wait) s =
      let t := fillToken (tgetD s.rwaitW wait 0) r (s.buf b q).p
        (acquireSlots b q (s.buf b q).aq (s.modBuf b q fun y => { y with aq := y.p }))
      .next { t with rwaits := tdel t.rwaits wait, rwaitW := tdel t.rwaitW wait }) ∧
  (∀ block s x d e en w0 p0 rest w p, s.block? block = some x → x.sched = some d → d.next x.sigma.toNat = some (e, en) →
    s.blockWarps block = (w0, p0) :: rest → x.saving = false → (x.st = .running ∨ x.st = .shrinking) →
    ((w0, p0) :: rest).find? (fun y => y.2.index == en.warp) = some (w, p) → (p.wregs.getD en.token ⟨0, true⟩).full = true →
    let core := coreOfIndex x en.warp
    (schedKind en.op = none → exec (.scheduleFiring block) s = .next (fireEntry block x d e en w p true s)) ∧
    (schedKind en.op ≠ none → copiesUsed s x.die core < 128 → copyWaiters s x.die core = [] →
      exec (.scheduleFiring block) s = .next (fireEntry block x d e en w p true
        (s.modCore x.die core fun c => { c with copyQ := c.copyQ.filter (· != (block, .a)) }))) ∧
    (schedKind en.op ≠ none → 128 ≤ copiesUsed s x.die core → (block, .a) ∉ copyWaiters s x.die core →
      exec (.scheduleFiring block) s = .next (s.modCore x.die core fun c => { c with
        copyQ := copyWaiters s x.die core ++ [(block, .a)] })))

/-! ### The dispatcher (07_block, 17_kernel, 18_queue) -/

/-- The block steps have their effects (R96, R166, R168, R172, R304-R308, R318): a block is placed on the core the rules choose; a
share that has waited 1 ms has resources kept; a spare warp starts with no block; one shrink request stands on a die and is taken
back; a block starts to be saved, is saved, is restored, and an ENDING block whose work has landed is DONE. -/
def Obligations.BlockSteps : Prop :=
  (∀ share core s h k scheds s1 t, s.share? share = some h → s.kernel? h.kern = some k →
    mayPlace s (share, h) = true → shareCore s h = some core →
    readScheds share h.ctx h.die k.launch.sched h.next (if k.launch.resident then h.nblocks - h.next else 1) s = (some scheds, s1) →
    (k.launch.resident = false → placeBlock true share core (scheds.headD none) s1 = some t →
      exec (.blockPlacement share core) s = .next (dropScheds share t)) ∧
    (k.launch.resident = true → placeAll true share scheds s1 = some t →
      exec (.blockPlacement share core) s = .next (dropScheds share t))) ∧
  (∀ share s h t, s.share? share = some h → h.waitAt = some t → shareWaits s h = true →
    t + 1000000 * 47000000 ≤ (s.die h.die).time → canPlace s (share, h) = false →
    exec (.placementWaitExpiry share) s = .next (s.setShare share { h with kept := true })) ∧
  (∀ share core slot s h k base, s.share? share = some h → s.kernel? h.kern = some k →
    let l := k.launch
    let mine := (placesOn s h.die).filter fun p => p.core == core
    freeBase (l.width * l.nregs) mine = some base → l.elastic ≠ 0 → l.wmin < l.wmax → k.st.active = true →
    (s.die h.die).safe = false → ctxPlaces s h.ctx = true → s.retired h.die core = false →
    ((blocksOn s h.die core).any fun b => b.2.kern == h.kern) = true → slot < 64 → (∀ p ∈ mine, p.slot ≠ slot) →
    (mine.map Place.width).sum + l.width ≤ 2048 →
    (s.warps.filter fun w => w.2.kern == h.kern && w.2.die == h.die && w.2.core == core && w.2.block.isNone && w.2.live != 0).length
      < freeIndices s h.kern h.die core k →
    waitingShares s h.die = [] →
    exec (.spareWarpStart share core slot) s = .next (seedWarp s.fresh (s.bump.setWarp s.fresh
      (newWarp h.ctx h.kern share h.die 0 l.elastic s.instant (s.die h.die).time none l ⟨core, slot, base, l.width * l.nregs, l.width⟩)))) ∧
  (∀ block k s b h, s.block? block = some b → (blockedShares s b.die).find? (fun h => !(shrinkOrder s h).isEmpty) = some h →
    (∀ x ∈ s.blocks, x.2.die = b.die → x.2.shrink = none) → (shrinkOrder s h).head?.map Prod.fst = some block →
    shrinkTarget s h block (s.launchOf b).wmin = some k →
    exec (.shrinkRequest block k) s = .next (s.setBlock block { b with
      st := .shrinking, shrink := some ⟨k, (s.die b.die).time, h.1, h.2.next⟩ })) ∧
  (∀ block s b r, s.block? block = some b → b.shrink = some r →
    let free : Block := { b with
      shrink := none, st := if b.st = .shrinking then .running else b.st, before := if b.before = .shrinking then .running else b.before }
    ((∀ h, s.share? r.share = some h → shareWaits s h = true → h.next ≠ r.next) →
      exec (.shrinkCancel block) s = .next (s.setBlock block free)) ∧
    (∀ h, s.share? r.share = some h → shareWaits s h = true → h.next = r.next →
      r.at_ + 1000000 * 47000000 ≤ (s.die b.die).time → exec (.shrinkCancel block) s =
        let t := s.setBlock block free
        .next (if free.savable = true ∧ prioOf t b.kern < prioOf t h.kern ∧ canPlace t (r.share, h) = false then startSave block t
          else t))) ∧
  (∀ block s x, s.block? block = some x → mayPreempt s block x = true → exec (.preemption block) s = .next (startSave block s)) ∧
  (∀ block s x0 x s2 s3 s4, s.block? block = some x0 → x0.saving = true →
    let s1 := (s.blockWarps block).foldl (fun s w => settleWarp w.1 s) s
    let gone := withdrawSet s1 (opsOfBlock s1 block) (opsOfBlock s1 block).length
      (((opsOfBlock s1 block).filter fun o => o.2.withdrawable).map Prod.fst)
    s1.block? block = some x → saveReady s1 block x gone = true → flushBlock block x s1 = (true, s2) →
    (startImage block x s2 = none → exec (.blockSave block) s = .next (endContext x.ctx 0x09 (causeEngine x.die 0 0) s2)) ∧
    (startImage block x s2 = some s3 → putImage block (imageBytes s3 x / 16 + 1) s3 = (true, s4) →
      exec (.blockSave block) s = .next (parkBlock block gone s4))) ∧
  (∀ block core s x sv places bs a s1, s.block? block = some x → x.saved = some sv →
    grantPlaces true (s.launchOf x) core (heldBy s block) (placesOn s x.die) = some places →
    ((parkedBlocks s x.die).any fun b => b.1 == block) = true → (s.die x.die).safe = false → restoreCore s (block, x) = some core →
    (∀ h ∈ waitingShares s x.die, prioOf s h.2.kern ≤ prioOf s x.kern) →
    aloneUnits (.engine block) (readUnits (.engine block) x.ctx x.die 16 (sv.pages.flatMap fun a => unitsFrom a 256) s) =
      (.done bs, a, s1) →
    (hash64 bs = sv.digest → exec (.blockRestore block core) s = .next (unpark block core places s1)) ∧
    (hash64 bs ≠ sv.digest → exec (.blockRestore block core) s =
      .next (endContext x.ctx 0x0A (causeEngine x.die 0 0) s1))) ∧
  (∀ block s b t, s.block? block = some b → b.st = .ending → blockBusy s block = false →
    let s1 := if b.pub = [] then s else publish block s
    writeExits block ((exitUnits s1 b).length + 1) s1 = (true, t) →
    exec (.blockEnd block) s = .next (settleCtx b.ctx (endShare b.share (t.modBlock block fun x => { x with st := .done, stkAt := none }))))

/-- The kernel and queue steps have their effects (R294-R303): a drained kernel adds 1 to its completion counter, is DONE, and
has the kernels that wait for the counter checked; the queue the rounds choose gives its next entry, and its record is read and fixed; a
dependences of every waiting kernel are checked together, in entry order; a READY queue is raised after 10 ms; the host's doorbell and
its writes of the control word act as R298, R299 and R301 give: one that moves backwards disables the queue. A ring in host memory is read by
a request to the host. That one check takes all WAITING kernels at once is the model's reading of R303 (log entry 23). -/
def Obligations.QueueSteps : Prop :=
  (∀ k s x t, s.kernel? k = some x → x.st = .draining → kernelBusy s k = false → addDone k x.ctx x.launch.done s = (true, t) →
    let u := settleCtx x.ctx { t.setKernel k { x with st := .done } with blocks := tkeep t.blocks fun _ b => b.kern != k }
    (x.launch.done = 0 → exec (.kernelDone k) s = .next u) ∧
    (x.launch.done ≠ 0 → exec (.kernelDone k) s = .next ((waitersOn u x.ctx x.launch.done).foldl (fun v w => checkKernel w v) u))) ∧
  (∀ q s lvl t, (∀ k x, (k, x) ∈ s.kernels → x.queue = q → x.st ≠ .pending) → serveTurn s q = some (lvl, t) → mayTake s = true →
    let a := (s.queue q).entryAt (s.queue q).rp
    let h := ringHolder q
    ((s.queue q).hostRing = true → hostReqOf s (ringRun q) 0 = none → exec (.queueEntryTake q) s =
      .next (askHost (s.queue q).ctx (ringRun q) 0 0 (s.modMod fun m => { m with turns := m.turns.set lvl t }))) ∧
    (∀ r, (s.queue q).hostRing = true → hostReqOf s (ringRun q) 0 = some r →
      exec (.queueEntryTake q) s = .next (takeEntry q lvl t (mread s.mod.hostMem a 8) (dropHostReq r s))) ∧
    (∀ bs u, (s.queue q).hostRing = false →
      alone h (readAccess h (s.queue q).ctx 0 a 0 8 (fun s => mainRead s (s.queue q).ctx 0 a 8) s) = (.done bs, u) →
      exec (.queueEntryTake q) s = .next (takeEntry q lvl t (leNat bs) u))) ∧
  (∀ q s k x, tfind s.kernels (fun _ k => k.queue == q && k.st == .pending) = some (k, x) →
    exec (.queueEntryTake q) s = .next (fixRecord k s)) ∧
  (∀ k s x, s.kernel? k = some x → x.st = .waiting →
    exec (.dependenceCheck k) s = .next ((waitingKernels s fun _ => true).foldl (fun s y => checkKernel y s) s) ∧
    checkKernel k s = settleQueue x.queue (dispatchKernel k (checkDeps k x.ctx x.unmet s))) ∧
  (∀ q s, (s.queue q).st = .ready → (s.queue q).since + 10000000 * 47000000 ≤ (s.die 0).time →
    exec (.queueLevelRaise q) s = .next (s.setQueue q { s.queue q with raised := true })) ∧
  (∀ q wp s, q < 1024 → (s.queue q).st ≠ .disabled → wp ≠ (s.queue q).wp →
    let ahead := (wp - (s.queue q).rp).toNat
    (ahead ≤ (s.queue q).size → (s.queue q).held ≤ ahead →
      exec (.queueDoorbell q wp) s = .next (settleQueue q (s.setQueue q { s.queue q with wp := wp }))) ∧
    ((s.queue q).size < ahead ∨ ahead < (s.queue q).held → exec (.queueDoorbell q wp) s = .next (disableQueue q 0x02 causeHost s))) ∧
  (∀ q ctl s, q < 1024 → (s.queue q).st = .disabled → qctlOk (ctl ||| 1) = true → boundOn s ((ctl.extractLsb' 16 8).toNat) 0 = true →
    exec (.queueEnable q ctl) s = .next (resettle q (s.setQueue q { s.queue q with
      ctl := ctl ||| 1, rp := (s.queue q).wp, st := .empty, reason := 0, raised := false, last := none, since := (s.die 0).time }))) ∧
  (∀ q s, q < 1024 → exec (.queueDisable q) s = .next (disableQueue q 0x01 causeHost s)) ∧
  (∀ q s, q < 1024 → (s.queue q).st ≠ .disabled → (s.queue q).st ≠ .suspended → (s.queue q).ctl.getLsbD 0 = true → qctlOk (s.queue q).ctl = true →
    exec (.queueSuspend q) s = .next (leaveRound q (s.setQueue q { s.queue q with
      ctl := (s.queue q).ctl ||| 4, st := .suspended, raised := false }))) ∧
  (∀ q s, q < 1024 → (s.queue q).st = .suspended → (s.queue q).ctl.getLsbD 0 = true → qctlOk (s.queue q).ctl = true →
    exec (.queueResume q) s = .next (settleQueue q (s.setQueue q { s.queue q with
      ctl := (s.queue q).ctl &&& ~~~4, st := .empty })))

/-- The context and host steps have their effects (R310, R312, R319, R321): a FREE context with dies is bound, a BOUND or ENDED one
freed, a host request ends one, a DRAINING one no engine acts for is ENDED with its record; a host register write acts; the error
ring is tried again and a failed write is taken back. That FREE keeps CTX_DIES while every other register goes to its initial value is
log entry 16, the model's choice. -/
def Obligations.HostSteps : Prop :=
  (∀ die ctx idx val s, ctx < 256 → die < 64 → 0x10 ≤ idx → csrKnown idx = true → csrHandler idx = false → csrReadOnly idx = false →
    let v := if csr64 idx then val else (loOf val).setWidth 64
    csrValueOk idx v = true → exec (.registerWrite die ctx idx val) s = .next (regWrite die ctx idx true v causeHost s)) ∧
  (∀ c s, c < 256 → (s.ctx c).st = .free → (s.ctx c).dies ≠ 0 → exec (.contextBind c) s =
    .next ((dieList (s.ctx c).dies).foldl (fun s d => s.modDie d fun y => { y with juncs := tput y.juncs c Junction.atBind })
      (s.setCtx c { Context.init with st := .bound, dies := (s.ctx c).dies, peerTmo := 200000, migrate := 256, hostTmo := 1000000 }))) ∧
  (∀ c s, c < 256 → ((s.ctx c).st = .bound ∨ (s.ctx c).st = .ended) → ∃ t, exec (.contextFree c) s = .next t ∧
    t.ctx c = { Context.init with dies := (s.ctx c).dies } ∧ ∀ k x, (k, x) ∈ t.kernels → x.ctx ≠ c) ∧
  (∀ s, exec .errqDropClear s = .next (s.modMod fun m => { m with errDrop := 0 })) ∧
  (∀ c s, exec (.hostContextEnd c) s = .next (endContext c 0x08 causeHost s)) ∧
  (∀ c s, (s.ctx c).st = .draining → ctxBusy s c = false →
    (∀ k x, (k, x) ∈ s.kernels → x.ctx = c → x.st = .failed → x.reason ≠ 0x0A) →
    exec (.contextEnded c) s = .next (appendRecord 1 c (s.ctx c).reason ((s.ctx c).cause.getD causeDispatch) 0
      (s.modCtx c fun x => { x with st := .ended }))) ∧
  (∀ s, s.mod.errBase ≠ 0 → s.mod.errSize ≠ 0 → s.mod.errBad = none →
    exec .errorRingRetry s = .next (s.modMod fun m => drainRing (s.die 0).time m.errWait { m with errWait := [], errBad := none })) ∧
  (∀ s t, s.mod.errLast = some t → (s.die 0).time ≤ t + 1000000 * 47000000 → s.mod.errBase ≠ 0 → s.mod.errSize ≠ 0 →
    exec .errorRingWriteFailure s = .next (s.modMod fun m => { m with
      errWp := m.errWp - 1, errLast := none, errBad := some (s.die 0).time, errWait := ringRecord s.mod (s.mod.errWp - 1) :: m.errWait }))

/-! ### Pages (20_page) -/

/-- The gather and migration steps have their effects (R331, R332, R340), each once its message has come over the mesh: a member or
mirror that serves the context answers with its stripes or names its refusal, and one that does not is silent; stripes are held while a
snapshot of their die holds their step, and else written, and the page is GATHERED after the last; a request unanswered for PEER_TMO goes to the mirror, or the page is LOST; an owner hands a LOCAL
mode-2 page over with its writable and cow bits and the requester's leaf becomes LOCAL; a local copy is filled and becomes valid. That the
migrated leaf has mode 0 is the model's choice (log entry 17). -/
def Obligations.PageSteps : Prop :=
  let asks := fun (s : State) (die gather member : Nat) (g : Gather) (r : ReqState) =>
    tget (s.die die).gathers gather = some g ∧ tget g.reqs member = some r
  let come := fun (s : State) (c a b : Nat) (tag : List Nat) => ride 2 c a b tag [] s = (.come, s)
  (∀ die gather member s g t mirror p gr d, asks s die gather member g (.asked t mirror) →
    leafGroup s g.ctx die g.page = some (p, gr) → askedDie gr member mirror = some (s.mod.number, d) →
    come s g.ctx die d (askTag gather member mirror) →
    (serves s g.ctx d = false → exec (.stripeRequest die gather member) s = .next s) ∧
    (∀ cells, serves s g.ctx d = true → serveStripes s g.ctx g.page d member gr.n p mirror = .ok cells →
      exec (.stripeRequest die gather member) s =
        .next (sendReply g.ctx d die gather member mirror (.stripes t mirror cells) (touch g.ctx d g.page false s))) ∧
    (∀ st, serves s g.ctx d = true → serveStripes s g.ctx g.page d member gr.n p mirror = .error st →
      exec (.stripeRequest die gather member) s = .next (sendReply g.ctx d die gather member mirror (.refusal t mirror st) s))) ∧
  (∀ die gather member s g t mirror, come s g.ctx (serverOf s g.ctx die g.page member mirror) die (replyTag gather member mirror) →
    (∀ cells, asks s die gather member g (.stripes t mirror cells) → exec (.gatherReply die gather member) s =
      .next (landStripes die gather member mirror g cells s)) ∧
    (∀ st, asks s die gather member g (.refusal t mirror st) → exec (.gatherReply die gather member) s =
      .next (endContext g.ctx 0x01 (causeEngine (serverOf s g.ctx die g.page member mirror) g.page st) s))) ∧
  (∀ die gather member mirror g cells s,
    let ps := stripePages g.page cells
    ((∃ x ∈ ps, snapHolds s g.ctx die x g.step = true) → landStripes die gather member mirror g cells s =
      ps.foldl (fun s x => snapHold g.ctx die x (.page 2 gather member) s) s) ∧
    (∀ u, (∀ x ∈ ps, snapHolds s g.ctx die x g.step = false ∧ snapTurn s g.ctx die x (.page 2 gather member) = true) →
      breakMarks g.ctx die ps s = some u → landStripes die gather member mirror g cells s =
        ps.foldl (fun s x => snapLeave g.ctx die x (.page 2 gather member) s)
          (putGather die gather member g cells (dropMessage (replyTag gather member mirror) u)))) ∧
  (∀ die gather member g cells s p a n, walk s g.ctx die g.page = .ok (p, a, n) →
    let u := setReq die gather member .arrived (putStripes g.ctx die g.page (frameAddr p g.page) cells cells.length s)
    (∀ h, tget (u.die die).gathers gather = some h → (∀ r ∈ h.reqs, r.2 = .arrived) → putGather die gather member g cells s =
      updateLeaf g.ctx die g.page (fun q => pteSet q 1 3 4) (u.modDie die fun d => { d with gathers := tdel d.gathers gather })) ∧
    (∀ h r, tget (u.die die).gathers gather = some h → r ∈ h.reqs → r.2 ≠ .arrived → putGather die gather member g cells s = u)) ∧
  (∀ die gather member s g r t, asks s die gather member g r → t + (s.ctx g.ctx).peerTmo.toNat * 47000000 ≤ (s.die die).time →
    let lost := updateLeaf g.ctx die g.page (fun q => pteSet q 1 3 7)
      ((dropAsks [gather] s).modDie die fun d => { d with gathers := tdel d.gathers gather })
    (∀ p gr m d, r.open_ = some (t, false) → leafGroup s g.ctx die g.page = some (p, gr) → gr.mir[member]? = some (some (m, d)) →
      let u := setReq die gather member (.asked (s.die die).time true) (dropAsks [gather, member] s)
      exec (.gatherTimeout die gather member) s = .next (if m = s.mod.number then u else (sendFrame 2 die m d g.ctx 16 u).2)) ∧
    (∀ p gr, r.open_ = some (t, false) → leafGroup s g.ctx die g.page = some (p, gr) → gr.mir[member]? = some none →
      exec (.gatherTimeout die gather member) s = .next lost) ∧
    (r.open_ = some (t, true) → exec (.gatherTimeout die gather member) s = .next lost)) ∧
  (∀ die mig s m, tget (s.die die).migs mig = some m → m.reply = none → come s m.ctx die m.owner [7, mig] →
    (∀ q p a b n k, serves s m.ctx m.owner = true → walk s m.ctx m.owner m.page = .ok (q, a, m.bytes) →
      walk s m.ctx die m.page = .ok (p, b, n) → peerIndex s m.ctx m.owner (s.mod.number, die) = some k → pteState q = 0 →
      pteFrame p ≠ 0 → exec (.migrationHandover die mig) s = .next (answerMig die mig m (some (pteF q 6 2))
        (updateLeaf m.ctx m.owner m.page (fun q => pteSet (pteSet (pteSet (pteSet q 1 3 1) 4 2 0) 24 25 0) 49 12 k)
          (movePage m.owner (frameAddr q m.page) die (frameAddr p m.page) m.bytes s)))) ∧
    (∀ q p a b n l k, serves s m.ctx m.owner = true → walk s m.ctx m.owner m.page = .ok (q, a, l) →
      walk s m.ctx die m.page = .ok (p, b, n) → peerIndex s m.ctx m.owner (s.mod.number, die) = some k → pteState q ≠ 0 →
      exec (.migrationHandover die mig) s = .next (answerMig die mig m none s))) ∧
  (∀ die mig s m, tget (s.die die).migs mig = some m → come s m.ctx m.owner die [8, mig] →
    let gone := (dropMessage [8, mig] s).modDie die fun d => { d with migs := tdel d.migs mig }
    (∀ bits, m.reply = some (some bits) → exec (.migrationHandoverReply die mig) s =
      .next (updateLeaf m.ctx die m.page (fun q => pteSet (pteSet (pteSet (pteSet q 1 3 0) 4 2 0) 6 2 bits) 49 12 0) gone)) ∧
    (m.reply = some none → exec (.migrationHandoverReply die mig) s =
      .next (modTlb m.ctx die m.page (fun e => { e with count := 0 }) gone))) ∧
  (∀ die fill s c page p s1 d s2, tget (s.die die).fills fill = some (c, page) → leafOf s c die page = (.ok p, s1) →
    pteState p = 1 → pteMode p = 1 → peerOf s1 c die (ptePeer p) = some (s1.mod.number, d) →
    let fetch := fun (s : State) => match fillParts c die d ((List.range (pageBytes p / 4096)).map fun i => page + 4096 * i) s with
      | (.done l, s) => (Ended.done (), l.foldl (fun s x => movePage x.2.1 x.2.2 die (frameAddr p x.1) 4096 s) s)
      | (.remote e k, s) => (.remote e k, s)
      | (_, s) => (.wait, s)
    let trip := overMesh (fun _ => []) (fun _ => ()) [6, fill] 2 c die (if d = die then [] else ownerPath s1 c page d) id fetch s1
    (trip = (.done (), s2) →
      exec (.mode1Fill die fill) s = .next (modTlb c die page (fun e => { e with valid := true }) (endFill die fill s2))) ∧
    (∀ e k, trip = (.remote e k, s2) → exec (.mode1Fill die fill) s = .next (endContext c 0x01 (causeEngine e page k) s2)))

/-- The reduction steps have their effects (R335), each once its message has come over the mesh: a PARTIAL or REDUCING receiver adds
the sent values and acknowledges; an acknowledgement and a done restart the evicting die's timer; a send unanswered for PEER_TMO goes to
the mirror, or its member has failed; a REDUCING page without progress for PEER_TMO is LOST. -/
def Obligations.ReduceSteps : Prop :=
  let come := fun (s : State) (c a b : Nat) (tag : List Nat) => ride 2 c a b tag [] s = (.come, s)
  (∀ die red send s r x p a n, tget (s.die die).reds red = some r → r.sends[send]? = some x → x.state = 0 →
    x.module = s.mod.number → come s r.ctx die x.die [3, red, send] → serves s r.ctx x.die = true →
    snapHolds s r.ctx x.die r.page r.step = false → snapTurn s r.ctx x.die r.page (.page 3 red send) = true →
    walk s r.ctx x.die r.page = .ok (p, a, n) →
    (pteState p = 5 ∨ pteState p = 6) → (s.die x.die).bad = [] →
    exec (.reduceContribution die red send) s = .next (takeSend die red send r x (pteFrame p) s)) ∧
  (∀ die red send r x frame s u k v, breakMark r.ctx x.die r.page (4096 * frame) s = some u →
    ride 2 r.ctx x.die die [4, red, send] [] (setSend die red send (fun y => { y with state := 1 })
      (snapLeave r.ctx x.die r.page (.page 3 red send)
        (x.stripes.foldl (addSend r.ctx x.die frame) (touch r.ctx x.die r.page true (dropMessage [3, red, send] u))))) = (k, v) →
    k ≠ .cut → takeSend die red send r x frame s = v) ∧
  (∀ die red send s r x, tget (s.die die).reds red = some r → r.sends[send]? = some x → x.state = 1 →
    come s r.ctx x.die die [4, red, send] → exec (.reduceSendAcknowledgement die red send) s = .next (settleRed die red
      ((setSend die red send (fun y => { y with state := 2 }) (dropMessage [4, red, send] s)).modDie die fun d =>
        { d with reds := tmod d.reds red fun r => { r with timer := d.time } }))) ∧
  (∀ die red send s r x, tget (s.die die).reds red = some r → r.sends[send]? = some x → x.state < 2 →
    x.at_ + (s.ctx r.ctx).peerTmo.toNat * 47000000 ≤ (s.die die).time →
    let t := dropMessage [4, red, send] (dropMessage [3, red, send] s)
    (∀ p gr m d, x.again = false → leafGroup t r.ctx die r.page = some (p, gr) → gr.mir[x.member]? = some (some (m, d)) →
      let u := setSend die red send (fun y =>
        { y with module := m, die := d, state := 0, at_ := (s.die die).time, again := true }) t
      exec (.reduceSendTimeout die red send) s =
        .next (if m = s.mod.number then u else (sendFrame 2 die m d r.ctx (8 * x.stripes.length) u).2)) ∧
    (x.again = true → exec (.reduceSendTimeout die red send) s =
      .next (settleRed die red (setSend die red send (fun y => { y with state := 3 }) t)))) ∧
  (∀ die red src s r k t, tget (s.die die).reds red = some r → src ∈ r.coming →
    s.transfer? [5, red, src] = some (k, t) → t.at_ = t.dst →
    exec (.reduceDone die red src) s = .next (settleRed die red ((dropMessage [5, red, src] s).modDie die fun d =>
      { d with reds := tput d.reds red { r with
        coming := r.coming.erase src, timer := (s.die die).time
        dones := if src ∈ r.dones then r.dones else r.dones ++ [src] } }))) ∧
  (∀ die red s r, tget (s.die die).reds red = some r → r.conv = false → r.active = true →
    r.timer + (s.ctx r.ctx).peerTmo.toNat * 47000000 ≤ (s.die die).time →
    let lost := fun (reds : Table Reduction → Table Reduction) => updateLeaf r.ctx die r.page (fun q => pteSet q 1 3 7)
      (s.modDie die fun d => { d with reds := reds d.reds })
    (r.sent = true → exec (.reducingTimeout die red) s = .next (lost fun t => tdel t red)) ∧
    (∀ p g, r.sent = false → leafGroup s r.ctx die r.page = some (p, g) → (s.mod.number, die) ∈ g.mem →
      exec (.reducingTimeout die red) s = .next (lost fun t => tput t red { r with conv := true })))

/-! ### Links and time (22_link) -/

/-- The link steps have their effects (R345-R356): a good flit crosses its link and a failed one is counted, the 64th failed replay in
succession failing the link; a data frame goes on to its flow's home terminus, where one of a new number is delivered once, class 1 in
order, one that comes early held while fewer than 4,096 are, and the flow acknowledged; an acknowledgement frees, resends and numbers
frames; a frame unacknowledged for 20 µs goes again; ports and mesh links train, lose lanes, and are enabled and disabled; a host access goes
through its pieces in turn; a host request without completion ends its node with TIMEOUT, disables its queue, or lets its ENQ answer; die 0's
time is slewed or stepped toward a reference of the chosen source, and the copies follow. The model's choices: the number 32 + k of a mesh
link in the events of R353, 0 and 64 for the two sources of a reference, and the bit order of an acknowledgement's bitmap (log entry 18); that
a 16-byte frame of class 1 is a reward (log entry 42); that the chunk of a request timed out is removed (log entry 44); how a copy of module
time follows die 0's (log entry 49). -/
def Obligations.LinkSteps : Prop :=
  (∀ link cls s id t, (s.mod.transfers.find? fun t => t.2.cls == cls && t.2.at_ == link / 4 && t.2.dst != link / 4 &&
      routeDir t.2.tag (link / 4) t.2.dst == link % 4) = some (id, t) →
    let u := s.modMod fun m => signal m link cls
    let l := u.mod.link link
    let goal := hop (link / 4) (link % 4)
    l.carries = true → cls ∉ l.off → (s.die goal).start = none → (t.dst = goal → keeperAnswers u goal = true) →
    (∃ m, (exec (.meshFlitReceive link cls true) s = .next (if t.dst = goal
        then land id { t with at_ := goal } (logMessage goal t.cls t.src t.tag t.data { s with mod := m }) else { s with mod := m })) ∧
      tget m.transfers id = some { t with at_ := goal } ∧ (m.link link).replays = 0 ∧ m.hostMem = s.mod.hostMem ∧
      m.ports = s.mod.ports ∧ m.flows = s.mod.flows) ∧
    (let v := u.modMod fun m => { m with links := tput m.links link { l with replays := l.replays + 1 } }
     exec (.meshFlitReceive link cls false) s = .next (if l.replays < 64 then v else failLink link v))) ∧
  (∀ port f s id x s1, s.mod.portUp port = true → frameOk s.mod f = true → f.kind = 0 → inFlow s f = (id, x, s1) →
    let u := s1.modMod fun m => { m with flows := tput m.flows id x }
    (portDie x.port = portDie port → exec (.frameReceive port f) s = .next (atHome f u)) ∧
    (portDie x.port ≠ portDie port → exec (.frameReceive port f) s =
      .next (ride f.cls noCtx (portDie port) (portDie x.port) [16, u.fresh] (frameBytes f) u).2.bump)) ∧
  (∀ f s id x s1, inFlow s f = (id, x, s1) →
    let put := fun (y : Flow) => s1.modMod fun m =>
      { m with flows := tput m.flows id { y with ack := some (ackFrame m.number y) } }
    ((2 ^ 31 ≤ (f.seq - x.next).toNat ∨ f.seq ∈ x.beyond ∨ (f.cls = 1 ∧ f.seq ≠ x.next ∧ 4096 ≤ x.heldF.length)) → atHome f s = put x) ∧
    ((f.seq - x.next).toNat < 2 ^ 31 → f.seq ∉ x.beyond → (f.cls = 1 → f.seq = x.next ∨ x.heldF.length < 4096) →
      let r := advanceFlow (x.beyond.length + 1)
        { x with beyond := x.beyond ++ [f.seq], heldF := if f.cls = 1 then x.heldF ++ [f] else x.heldF }
      let home := portDie r.1.port
      atHome f s = if f.cls = 1 then r.2.foldl (fun s g => deliver home g s) (put r.1) else deliver home f (put r.1))) ∧
  (∀ f s, let t := logMessage f.ddie f.cls f.sdie [13, f.cls] f.data s
    deliver f.ddie f s = if f.cls = 1 ∧ f.data.length = 16 then queueReward f.ddie f.data t else t) ∧
  (∀ port f s id x, s.mod.portUp port = true → frameOk s.mod f = true → f.kind = 1 → f.data.length = 32 →
    (tfind s.mod.flows fun _ x => x.out && x.cls == f.cls && x.src == f.ddie && x.dst == f.sdie && x.module == f.smod) = some (id, x) →
    (portDie x.port = portDie port → exec (.ackReceive port f) s = .next (ackHome f s)) ∧
    (portDie x.port ≠ portDie port → exec (.ackReceive port f) s =
      .next (ride f.cls noCtx (portDie port) (portDie x.port) [20, s.fresh] (frameBytes f) s).2.bump)) ∧
  (∀ f s id x,
    (tfind s.mod.flows fun _ x => x.out && x.cls == f.cls && x.src == f.ddie && x.dst == f.sdie && x.module == f.smod) = some (id, x) →
    x.failed = false →
    let gone := fun (u : Unacked) => decide ((f.seq - u.seq).toNat - 1 < 2 ^ 31) && f.seq != u.seq || ackBit f u.seq
    ackHome f s = modFlow id (fun x => if x.failed then x else Flow.number (s.die 0).time x.waiting.length x)
      (resend id (fun u => ackMissing f u.seq) (modFlow id (fun x => { x with unacked := x.unacked.filter fun u => !gone u }) s))) ∧
  (∀ flow seq s f, tget s.mod.flows flow = some f → f.failed = false →
    let due := fun (u : Unacked) => u.seq == seq && decide (u.at_ + 20000 * 47000000 ≤ (s.die 0).time)
    ((∃ u ∈ f.unacked, due u = true ∧ 16 ≤ u.sends) → exec (.retransmitTimeout flow seq) s = .next (failFlow flow s)) ∧
    ((∀ u ∈ f.unacked, due u = true → u.sends < 16) → exec (.retransmitTimeout flow seq) s = .next (modFlow flow (fun g => { g with
      unacked := g.unacked.map fun u => if due u then { u with sends := u.sends + 1, at_ := (s.die 0).time } else u }) s))) ∧
  (∀ port lanes s x, s.mod.ports[port]? = some x → (x.st = .training ∨ x.st = .retraining) →
    (lanes = 8 → exec (.portTrainingEnd port lanes) s = .next (setPort port ⟨.up, 0⟩ s)) ∧
    (4 ≤ lanes → lanes < 8 → exec (.portTrainingEnd port lanes) s = .next (setPort port ⟨.degraded, 0⟩ s)) ∧
    (lanes < 4 → x.attempts < 2 → exec (.portTrainingEnd port lanes) s =
      .next (setPort port { x with attempts := x.attempts + 1 } s)) ∧
    (lanes < 4 → 2 ≤ x.attempts → exec (.portTrainingEnd port lanes) s = .next (moveFlows port (setPort port ⟨.failed, 0⟩ s)))) ∧
  (∀ port s, port < 32 → s.mod.portUp port = true → exec (.laneLost port) s = .next (setPort port ⟨.retraining, 0⟩ s)) ∧
  (∀ port s x, s.mod.ports[port]? = some x → x.st = .down → exec (.portEnable port) s = .next (setPort port ⟨.training, 0⟩ s)) ∧
  (∀ port s, port < 32 → port < s.mod.ports.length → exec (.portDisable port) s =
    .next (moveFlows port (setPort port ⟨.down, 0⟩ s))) ∧
  (∀ k s, linkExists k = true → s.mod.ports[32 + k]? = none →
    let l := s.mod.link k
    let become := fun (st : LinkState) => modLink k (fun l => { l with st := st, replays := 0 }) s
    ((l.st = .training ∨ l.st = .retraining) →
      exec (.portTrainingEnd (32 + k) 8) s = .next (become .up) ∧
      (∀ n, 4 ≤ n → n < 8 → exec (.portTrainingEnd (32 + k) n) s = .next (become .degraded)) ∧
      (∀ n, n < 4 → l.replays < 2 → exec (.portTrainingEnd (32 + k) n) s =
        .next (modLink k (fun x => { x with replays := l.replays + 1 }) s)) ∧
      (∀ n, n < 4 → 2 ≤ l.replays → exec (.portTrainingEnd (32 + k) n) s = .next (failLink k s))) ∧
    (l.carries = true → exec (.laneLost (32 + k)) s = .next (become .retraining)) ∧
    (l.st = .down → exec (.portEnable (32 + k)) s = .next (become .training)) ∧
    (exec (.portDisable (32 + k)) s = .next (if l.st = .failed then s else become .down))) ∧
  (∀ addr len wr s, addr + len ≤ 2 ^ 38 → (∀ bs, wr = some bs → bs.length = len) → exec (.cxlMemAccess addr len wr) s = .next
    (resumeHost s.fresh (s.modMod fun m => { m with
      accesses := tput m.accesses s.fresh ⟨addr, len, piecesOf len addr len, wr, [], false⟩ }).bump)) ∧
  (∀ id n s x, tget s.mod.accesses id = some x →
    (x.pieces = [] → stepHost id (n + 1) s = s.modMod fun m => { m with
      accesses := tdel m.accesses id, answers := m.answers ++ [x.answer] }) ∧
    (∀ a k rest, x.pieces = (a, k) :: rest →
      let r := hostPiece id a k (x.write.map fun bs => (bs.drop (a - x.addr)).take k) s
      (∀ bs t, r = (.done bs, t) → stepHost id (n + 1) s =
        stepHost id n (endPiece id a (fun x => { x with got := x.got ++ cellsAt a bs }) t)) ∧
      (∀ c t, r = (.fail c, t) → stepHost id (n + 1) s = stepHost id n (endPiece id a (fun x => { x with failed := true }) t)) ∧
      (∀ t, r = (.wait, t) → stepHost id (n + 1) s = t))) ∧
  (∀ id a n wr s,
    (tget s.mod.slices (a / 2 ^ 30) = none → hostPiece id a n wr s = (.done (List.replicate n 0), s)) ∧
    (∀ off, tget s.mod.slices (a / 2 ^ 30) = some (0, off) → s.transfer? (pieceTag id a) = none →
      s.transfer? (pieceTag id a ++ [1]) = none → hostPiece id a n wr s = hostUnit 0 (off + a % 2 ^ 30) n wr s)) ∧
  (∀ die d n s,
    (∀ bs, dramRead s die d n = some bs → hostUnit die d n none s = (.done bs, s)) ∧
    (dramRead s die d n = none → hostUnit die d n none s = (.fail 2, s)) ∧
    (∀ bs t, (s.die die).snaps = [] → dramWrite s die d bs = some t → hostUnit die d n (some bs) s = (.done [], t)) ∧
    (∀ bs, (s.die die).snaps = [] → dramWrite s die d bs = none → hostUnit die d n (some bs) s = (.fail 2, s))) ∧
  (∀ req s q r h, tget s.mod.hostReqs req = some q → tget s.runs q.run = some r → s.share? r.share = some h →
    q.at_ + (s.ctx q.ctx).hostTmo.toNat * 47000000 ≤ (s.die h.die).time → enqOf s q = none → q.run < engineBase →
    exec (.hostTimeout req) s = .next (endNode q.run q.node 0x03 (dropHostReq req (endHostReq q.run q.node { s with
      chunks := tkeep s.chunks fun _ c =>
        !(c.taker == some (q.run, q.node) || (c.run == q.run && c.node == q.node && c.place == .sender)) })))) ∧
  (∀ req s q, tget s.mod.hostReqs req = some q → tget s.runs q.run = none →
    q.at_ + (s.ctx q.ctx).hostTmo.toNat * 47000000 ≤ (s.die 0).time →
    (∀ a addr queue v, enqOf s q = some (a, addr, queue, v) → exec (.hostTimeout req) s = .next (stepEnq q.run a addr queue v s)) ∧
    (∀ i, enqOf s q = none → q.run = ringRun i → s.chunks = [] → exec (.hostTimeout req) s =
      let t := dropHostReq req (endHostReq q.run q.node s)
      .next (ringFails i ((t.queue i).entryAt (t.queue i).rp) t))) ∧
  (∀ host ref s, host ≠ s.mod.timeHost → exec (.timeSync (timeSource host) ref) s = .next s) ∧
  (∀ ref s, (s.die 0).time / 47000000 + 1000000 < ref → ∃ t, exec (.timeSync (timeSource s.mod.timeHost) ref) s = .next t ∧
    t.mod = s.mod ∧ t.warps = s.warps ∧ ∀ d, d < 64 → (t.die d).time = max (s.die d).time (ref * 47000000) ∧ (t.die d).ppm = 0 ∧
      (t.die d).dram = (s.die d).dram) ∧
  (∀ ref s, ref ≠ (s.die 0).time / 47000000 → ref ≤ (s.die 0).time / 47000000 + 1000000 →
    ∃ t, exec (.timeSync (timeSource s.mod.timeHost) ref) s = .next t ∧ t.mod = s.mod ∧ t.warps = s.warps ∧
      ∀ d, d < 64 → (t.die d).time = (s.die d).time ∧ (t.die d).ppm.natAbs ≤ 500 ∧
        (ref < (s.die 0).time / 47000000 ↔ (t.die d).ppm < 0)) ∧
  (∀ die ref s, die ≠ 0 → die ≠ 64 →
    let z := s.die 0
    let d := s.die die
    ∃ t r, exec (.timeSync die ref) s = .next t ∧ (1 ≤ r ∧ r ≤ 500) ∧ t.mod = s.mod ∧ t.warps = s.warps ∧
      (∀ k, k ≠ die → t.die k = s.die k) ∧ t.die die = if d.time + 1000000 * 47000000 < z.time then { d with ppm := z.ppm, time := z.time }
        else { d with ppm := if d.time < z.time then min 500 (z.ppm + r) else if z.time < d.time then max (-500) (z.ppm - r) else z.ppm })

/-! ### The collective (23_collective) -/

/-- The collective's steps have their effects (R357, R361-R368): a share's image is loaded at placement; an armed slot starts at its
time; a chunk whose request has come goes to a waiting RECV, a free slot, or the pool, by a host request, and else waits; a fired node
of length 0, of bad parameters, or of an operation acts and completes; a complete run publishes and advances the completed step, adds 1
to its trigger, and fills its token. -/
def Obligations.CollectiveSteps : Prop :=
  (∀ share s h bs s1 g s2, s.share? share = some h → h.loaded = false → h.placed = true →
    let dir := ((s.kernel? h.kern).map fun k => k.launch.graph).getD 0
    dir ≠ 0 → readBytes (.engine share) h.ctx h.die (dir + 8 * h.index) 8 s = (.ok bs, s1) → leNat bs ≠ 0 →
    loadImage share 0 h (leNat bs) s1 = (some (.ok g), s2) →
    exec (.graphLoadAtPlacement share) s = .next ((setGraph share 0 (some g) s2).modShare share fun h => { h with loaded := true })) ∧
  (∀ share slot s h a, s.share? share = some h → tget h.armed slot = some a → a.at_ * 47000000 ≤ (s.die h.die).time →
    exec (.carmStart share slot) s = .next (startRun share slot a.bases a.bad a.token
      (s.modShare share fun h => { h with armed := tdel h.armed slot }))) ∧
  (∀ chunk s c g h, tget s.chunks chunk = some c → s.share? c.src = some g → s.share? c.dst = some h →
    (c.place ≠ .sender → exec (.chunkOffer chunk) s = .next (moveChunk chunk c g.die h.die h.ctx s)) ∧
    (c.place = .sender → ride 0 h.ctx g.die h.die [9, chunk] [] s = (.come, s) → (s.die h.die).safe = false →
      (s.die h.die).start = none → exec (.chunkOffer chunk) s = .next (placeChunk chunk c g.die h s)) ∧
    (∀ t, c.place = .sender → ride 0 h.ctx g.die h.die [9, chunk] [] s = (.cut, t) →
      exec (.chunkOffer chunk) s = .next (remoteEnd h.ctx h.die 0 0 t)) ∧
    (∀ t, c.place = .sender → ride 0 h.ctx g.die h.die [9, chunk] [] s = (.under, t) → exec (.chunkOffer chunk) s = .next t)) ∧
  (∀ id c src h s,
    let used := (s.chunks.filter fun y => y.2.dst == c.dst && y.2.slot == c.slot && y.2.place == .slot).length
    let tail := tgetD h.tails c.slot 0
    (∀ who, readyRecv s c = some who → earlierChunk s c = false →
      placeChunk id c src h s = acceptChunk id { c with place := .landed, taker := some who } src h s) ∧
    (∀ g, readyRecv s c = none → tget h.graphs c.slot = some g → used < g.nslot → c.data.length ≤ g.slotb →
      placeChunk id c src h s = acceptChunk id { c with place := .slot } src h s) ∧
    (∀ g, readyRecv s c = none → tget h.graphs c.slot = some g → g.nslot ≤ used → g.pool ≠ 0 → g.poolb ≠ 0 →
      poolUsed s c.dst c.slot g tail + c.data.length ≤ g.poolb →
      let put := fun (s : State) => ((), s.modMod fun m => { m with
        hostMem := msetAll m.hostMem (c.data.zipIdx.map fun b => (g.pool + (tail + b.2) % g.poolb, b.1)) })
      (hostReqOf s c.run c.node = none → poolBusy s id c = false → placeChunk id c src h s = newHostReq c.run c.node h s) ∧
      (hostReqOf s c.run c.node = none → poolBusy s id c = true → placeChunk id c src h s = s) ∧
      (∀ q t, hostReqOf s c.run c.node = some q → atHost (fun _ => []) (fun _ => ()) c.run c.node h.ctx h.die put s = (.done (), t) →
        placeChunk id c src h s = acceptChunk id { c with place := .pool, pos := tail } src h
          (t.setShare c.dst { h with tails := tput h.tails c.slot ((tail + c.data.length) % g.poolb) })) ∧
      (h.die = 0 → s.transfer? (hostTag c.run c.node) = none → s.transfer? (hostTag c.run c.node ++ [1]) = none →
        atHost (fun _ => []) (fun _ => ()) c.run c.node h.ctx h.die put s = (.done (), (put s).2))) ∧
    (∀ g, readyRecv s c = none → tget h.graphs c.slot = some g → g.nslot ≤ used →
      (g.pool = 0 ∨ g.poolb = 0 ∨ g.poolb < poolUsed s c.dst c.slot g tail + c.data.length) → placeChunk id c src h s = s)) ∧
  (∀ id c h s, acceptChunk id c h.die h s = endHostReq c.run c.node
    (dropMessage [9, id] { s with chunks := tput s.chunks id { c with seq := s.fresh }, fresh := s.fresh + 1 })) ∧
  (∀ run node s r h n, tget s.runs run = some r → s.share? r.share = some h → r.graph.nodes[node]? = some n → r.pending = false →
    r.closing = false → node ∈ r.fired → node ∉ r.done → s.shut h.die = false →
    (n.len = 0 → exec (.nodeComplete run node) s = .next (endNode run node 0 s)) ∧
    (∀ st, n.len ≠ 0 → nodeStatus r h n = some st → exec (.nodeComplete run node) s = .next (endNode run node st s)) ∧
    (n.len ≠ 0 → nodeStatus r h n = none →
      (n.op = 0 → exec (.nodeComplete run node) s = .next (sendNode run node r h n s)) ∧
      (n.op = 1 → exec (.nodeComplete run node) s = .next (recvNode run node r h n s)) ∧
      (n.op = 6 → exec (.nodeComplete run node) s = .next (spillNode run node r h n s)) ∧
      (n.op = 7 → exec (.nodeComplete run node) s = .next (refetchNode run node r h n s)) ∧
      (2 ≤ n.op → n.op ≤ 5 → ∀ k t, nodeUnits run node h n (fun r k s => readUnit run r h (r.src n) k s) (n.len + 1) s = (k, t) →
        exec (.nodeComplete run node) s = .next (if k then endNode run node 0 t else t)))) ∧
  (∀ run s r h, tget s.runs run = some r → s.share? r.share = some h → r.pending = false → r.over = true →
    let t := if r.closing then s else closeRun run r h s
    let done := fun (u : State) => serveAll r.share r.slot (fillTok r.token (tokenWord r.status r.units) { u with runs := tdel u.runs run })
    (r.graph.trig = 0 → exec (.runComplete run) s = .next (done t)) ∧
    (∀ w u, r.graph.trig ≠ 0 → alone (.engine run) (wordAccess (.engine run) h.ctx h.die r.graph.trig 0 4
        (fun s => mainRmw s h.ctx h.die r.graph.trig (fun v => (some (v + 1), 0)) none (((t.share? r.share).map Share.issue).getD none)) t) =
          (.done w, u) →
      exec (.runComplete run) s = .next (done u))) ∧
  (∀ run r h s, let u := if r.wrote = [] then s else homeWrite r.share r.wrote s
    let d := advanceStep (h.runsDone.length + 1) h.done (h.runsDone ++ [r.step])
    let v := u.modShare r.share fun h => { h with done := d.1, runsDone := d.2 }
    (∀ x ∈ (v.die h.die).snaps, x.2.st ≠ .armed) →
    closeRun run r h s = refreshKeeper h.die (fillSteps r.share (modRun run (fun r => { r with closing := true }) v)))

/-! ### The trajectory (25_trajectory) -/

/-- The junction's steps have their effects (R383-R387): a reward message takes its turn and is handled: for an unknown context nothing,
for a bad step or field counter 1, for a known episode the reward, for an unknown one an orphan; the first reward of a step is kept; a
deadline joins, truncates or expires an entry; an orphan expires; the turntable drops a stale entry or rewrites its records; a scanned
episode is released into the learner queue; the lane that has waited longest takes from it, and a lane of .try takes zeros from an empty
one. The model's choices, log entry 20: an entry with every reward at its deadline joins whole, a deadline that waits for its records refuses
the rewards that come meanwhile (`late`), and the terminal flag of an episode is that of its scanned records. -/
def Obligations.TrajectorySteps : Prop :=
  (∀ die msg s, msg.length = 16 → (s.die die).safe = false → (s.die die).start = none →
    (∀ m ∈ pendingRewards s die, m.1 ≠ s.fresh ∧ ¬ (m.2.1 = (msg.getD 7 0).toNat ∧ m.2.2.take 4 = msg.take 4)) →
    exec (.rewardMessage die msg) s = .next (takeReward die s.fresh msg (queueReward die msg s))) ∧
  (∀ die n msg s k t, handleReward (.engine n) die (fieldAt msg 7 1) (natWord (fieldAt msg 0 4)) (fieldAt msg 4 2)
      (fieldAt msg 6 1 % 2 == 1) (natWord (fieldAt msg 8 4)) (fieldAt msg 6 1 / 2 != 0 || fieldAt msg 12 4 != 0) s = (k, t) →
    takeReward die n msg s = if k then dropMessage [14, n] t else t) ∧
  (∀ h die c id step term reward bad s,
    let o : Orphan := ⟨c, id, step, term, reward, (s.die die).time + (s.junc die c).grace.toNat * 47000000⟩
    let ends := fun (r : Bool × State) => handleReward h die c id step term reward bad s = r
    (boundOn s c die = false → ends (true, s)) ∧
    (boundOn s c die = true → (bad = true ∨ (s.junc die c).steps ≤ step) → ends (true, countJunc die c 1 s)) ∧
    (boundOn s c die = true → bad = false → step < (s.junc die c).steps →
      (∀ n e, findEpisode s die c id = some (n, e) → ends (onEntry h die n (fun _ => rewardWork h die n step term reward) s)) ∧
      (findEpisode s die c id = none → (s.die die).orphans.length < 4096 →
        ends (true, { s.modDie die (fun d => { d with orphans := tput d.orphans s.fresh o }) with fresh := s.fresh + 1 })) ∧
      (findEpisode s die c id = none → 4096 ≤ (s.die die).orphans.length → ends (true, countJunc die c 0 s)))) ∧
  (∀ h die n step term reward s e bs s1, tget (s.die die).episodes n = some e → e.st = .open_ → step < (s.junc die e.ctx).steps →
    readRecord h die n e step s = (.ok bs, s1) →
    (hasReward bs = true → rewardWork h die n step term reward s = (true, countJunc die e.ctx 1 s1)) ∧
    (∀ s2, hasReward bs = false → writeRecord h die n e step 8 (leBytes 4 reward.toNat ++
        leBytes 4 (BitVec.ofNat 32 (flagsOf bs) ||| 2 ||| (if term then 4 else 0) : Word).toNat) s1 = (.ok (), s2) →
      rewardWork h die n step term reward s = (true, s2))) ∧
  (∀ die entry s e, tget (s.die die).episodes entry = some e → e.st = .closed → e.due ≤ (s.die die).time → e.busy = none →
    let done := dropAnswers (.engine entry)
    (∀ rs s1, readRecords (.engine entry) die entry e (List.range e.length) s = (.ok rs, s1) →
      ((∀ r ∈ rs, hasReward r = true) → exec (.joinDeadline die entry) s = .next (done (joinEpisode die entry id s1))) ∧
      (∀ r rest, rs = r :: rest → hasReward r = false → exec (.joinDeadline die entry) s =
        .next (done (countJunc die e.ctx 5 (modEpisode die entry (fun e => { e with st := .expired }) s1)))) ∧
      (∀ pre r post, rs = pre ++ r :: post → pre ≠ [] → (∀ q ∈ pre, hasReward q = true) → hasReward r = false →
        exec (.joinDeadline die entry) s = .next (done (countJunc die e.ctx 2 (joinEpisode die entry (fun e =>
          { e with length := pre.length, trunc := true, vb := natWord (fieldAt r 0 4) }) s1))))) ∧
    (∀ s1, readRecords (.engine entry) die entry e (List.range e.length) s = (.dropped, s1) →
      exec (.joinDeadline die entry) s = .next (done s1)) ∧
    (∀ s1, readRecords (.engine entry) die entry e (List.range e.length) s = (.wait, s1) →
      exec (.joinDeadline die entry) s = .next (modEpisode die entry (fun e => { e with late := true })
        (modEpisode die entry (fun e => { e with busy := some (.engine entry) }) s1)))) ∧
  (∀ die orphan s o, tget (s.die die).orphans orphan = some o → o.at_ ≤ (s.die die).time → findEpisode s die o.ctx o.id = none →
    exec (.orphanExpiry die orphan) s =
      .next (countJunc die o.ctx 0 (s.modDie die fun d => { d with orphans := tdel d.orphans orphan }))) ∧
  (∀ die entry s e, tget (s.die die).episodes entry = some e → takesNext (s.die die) e = true →
    let j := s.junc die e.ctx
    (e.scan = none → stale j e = true → exec (.turntableScan die entry) s =
      .next (countJunc die e.ctx 3 (modEpisode die entry (fun e => { e with st := .dropped }) s))) ∧
    (∀ rs s1 s2, (e.scan ≠ none ∨ stale j e = false) → e.busy = none →
      readRecords (.engine entry) die entry e (List.range e.length) s = (.ok rs, s1) →
      let p := e.scan.getD (j.gamma, j.lambda)
      let out := scanAll p.1.toNat (fMul fp32 .rn p.1.toNat p.2.toNat).bits
        (rs.zipIdx.map fun x => (x.2, x.1)).reverse e.vb.toNat 0
      writeRecords (.engine entry) die entry e (out.flatMap fun x => [(x.1, 0, leBytes 4 x.2.1),
        (x.1, 8, leBytes 4 x.2.2.1 ++ leBytes 4 (BitVec.ofNat 32 x.2.2.2 ||| 8 : Word).toNat)]) s1 = (.ok (), s2) →
      exec (.turntableScan die entry) s = .next (dropAnswers (.engine entry)
        (modEpisode die entry (fun e => { e with st := .scanned, term := rs.any isTerminal }) s2)))) ∧
  (∀ die entry s e, tget (s.die die).episodes entry = some e → e.st = .scanned →
    let j := s.junc die e.ctx
    (∀ k x, (k, x) ∈ (s.die die).episodes → x.ctx = e.ctx → x.joinedBefore e = true → x.st.over = true) →
    (j.p - j.c).toNat < 256 → exec (.episodeRelease die entry) s =
      .next (countJunc die e.ctx 6 (modEpisode die entry (fun e => { e with st := .released })
        (modJunc die e.ctx (fun j => { j with queue := j.queue ++ [queueEntry e], p := j.p + 1 }) s)))) ∧
  (∀ wait s die c t bs rest, (s.dies.findSome? fun d => (tget d.2.takes wait).map fun t => (d.1, t.ctx)) = some (die, c) →
    firstTake s die c = some (wait, t) → (s.junc die c).queue = bs :: rest → t.dst < 512 →
    exec (.tjtakePop wait) s = .next (reapWarp t.warp (((modJunc die c (fun j => { j with queue := rest, c := j.c + 1 }) s).modDie die
      fun d => { d with takes := tdel d.takes wait }).modThread t.warp t.lane (landQuad t.win t.dst bs)))) ∧
  (∀ wait s die t, (s.dies.findSome? fun d => (tget d.2.takes wait).map fun t => (d.1, t)) = some (die, t) → t.try_ = true →
    (s.junc die t.ctx).queue = [] → (((s.warp? t.warp).bind Warp.block).map s.parked).getD false = false → t.dst < 512 →
    ((firstTake s die t.ctx).map Prod.fst = some wait → firstTake s die t.ctx = some (wait, t)) →
    exec (.tjtakePop wait) s = .next (reapWarp t.warp ((s.modDie die
      fun d => { d with takes := tdel d.takes wait }).modThread t.warp t.lane (landQuad t.win t.dst (List.replicate 16 0)))))

/-! ### Snapshots and dies (27_snapshot, 28_die, 01_panel) -/

/-- CUT and PAGE_DRAIN_ACK have their effects (R392-R396): an armed die whose step is reached marks its pages and lets held writes go;
the first marked page's parts are sent to storage, of a LOCAL page the whole and of a SHARDED or GATHERED one its own stripes, from the
spare frame it was copied into or from its own; once its frames are acknowledged it is no longer marked and its spare frame is free. -/
def Obligations.SnapshotSteps : Prop :=
  (∀ die ctx s sn, tget (s.die die).snaps ctx = some sn → s.shut die = false → sn.st = .armed →
    (sn.share = none ∨ ∃ k h, sn.share = some k ∧ s.share? k = some h ∧ ((h.done - sn.step).toNat < 2 ^ 31 ∨ h.ended = true)) →
    let rs := sn.pages.zipIdx.map fun x => cutPage s ctx die (x.2, x.1)
    let t := s.modDie die fun d => { d with snaps := tput d.snaps ctx { sn with
      st := .cut, todo := rs.filterMap fun r => r.1.map fun y => (y.1, y.2.1)
      leaves := rs.filterMap fun r => r.1.map Prod.snd, skipped := (rs.map Prod.snd).sum } }
    exec (.cut die ctx) s = .next (snapDone die ctx { t with
      ops := tmap t.ops fun _ o => if o.ctx = ctx ∧ o.st = .held then { o with st := .sent } else o })) ∧
  (∀ die ctx s sn k h, tget (s.die die).snaps ctx = some sn → sn.st = .armed → sn.share = some k → s.share? k = some h →
    2 ^ 31 ≤ (h.done - sn.step).toNat → h.ended = false → exec (.cut die ctx) s = .next s) ∧
  (∀ die ctx s sn, tget (s.die die).snaps ctx = some sn → s.shut die = false → sn.st = .cut →
    exec (.cut die ctx) s = .next (snapDone die ctx s)) ∧
  (∀ die ctx page s sn p rest, tget (s.die die).snaps ctx = some sn → s.shut die = false → (sn.st = .cut ∨ sn.st = .draining) →
    sn.todo = (p, page) :: rest →
    (sn.flight = none → exec (.pageDrainAck die ctx page) s = .next (sendPage die ctx p page sn s)) ∧
    (sn.flight ≠ none → drainOut s die ctx sn = true → exec (.pageDrainAck die ctx page) s = .next s) ∧
    (sn.flight ≠ none → drainOut s die ctx sn = false → exec (.pageDrainAck die ctx page) s =
      .next (snapDone die ctx (s.modDie die fun d => { d with
        spare := match tget sn.copies page with
          | some f => tdel d.spare f
          | none => d.spare
        snaps := tput d.snaps ctx { sn with
          st := .draining, todo := rest, copies := tdel sn.copies page, wrote := sn.wrote + 1, flight := none } })))) ∧
  (∀ die ctx p page sn s,
    let leaf := tgetD sn.leaves page 0
    let a := ((tget sn.copies page).map fun f => 4096 * f).getD (frameAddr leaf page / 4096 * 4096)
    let parts := drainParts s ctx die page leaf
    let ps := parts.map fun x => mbytes (s.die die).dram (a + x.1) x.2
    (outFlow 3 die sn.smod sn.sdie s).2.1.failed = false → (s.die die).bad = [] → sendPage die ctx p page sn s =
      (sendData 3 die sn.smod sn.sdie ctx ps
        ((s.modDie die fun d => { d with snaps := tput d.snaps ctx { sn with st := .draining, flight := some page } }).modMod fun m =>
          { m with storage := m.storage ++ (parts.zip ps).map fun x => (die, sn.sbase + 4096 * p + x.1.1, x.2) })).2.2) ∧
  (∀ s c die x p,
    (pteState p = 0 → drainParts s c die x p = [(0, 4096)]) ∧
    (∀ g, (pteState p = 2 ∨ pteState p = 4) → groupOf s c die (pteGroup p) = some g → ∀ o n, (o, n) ∈ drainParts s c die x p ↔
      n = stripeBytes p ∧ o < 4096 / n * n ∧ o % n = 0 ∧ g.own (s.mod.number, die) ((x % pageBytes p / n + o / n) % g.n) = true) ∧
    (pteState p ≠ 0 → pteState p ≠ 2 → pteState p ≠ 4 → drainParts s c die x p = []))

/-- The die's steps have their effects (R19, R398-R406): a start purges the die and clears its measurement registers, and takes one
step at a time; a step's fourth failure leaves the die in safe mode; a warm reset ends the contexts placed on the die and resets its
logic; the host extends MR5-MR7; a request gets a report; a health refresh stores its indicator; a power limit sets the rate. What a start
purges (log entry 14) and that the indicators below 160 are those of cores (log entry 11) are the model's choices. -/
def Obligations.DieSteps : Prop :=
  (∀ die warm s, die < 64 → (s.die die).start = none →
    let t := purgeDie die s
    exec (.dieStart die warm) s = .next (t.modDie die fun d =>
      { d with start := some ⟨warm && warmStart die t, 1, 0⟩, mrs := List.replicate 8 (List.replicate 64 0) }).bump) ∧
  (∀ die s, (s.die die).stored = false → warmStart die s = false) ∧
  (∀ die warm s x, die < 64 → (s.die die).start = some x → exec (.dieStart die warm) s = .next (startStep die x.warm x.step
    (s.modDie die fun d => { d with start := some { x with step := x.step + 1, fails := 0 } }))) ∧
  (∀ die s x, (s.die die).start = some x →
    (x.fails < 3 → exec (.startStepFailure die) s =
      .next (s.modDie die fun d => { d with start := some { x with fails := x.fails + 1 } })) ∧
    (3 ≤ x.fails → exec (.startStepFailure die) s = .next (s.modDie die fun d => { d with start := none, safe := true }))) ∧
  (∀ die s, die < 64 → (s.die die).start = none →
    let t := replayDivergence die (resetLogic die ((placedOn s die).foldl (fun s c => endContext c 0x07 (causeEngine die 0 0) s) s))
    exec (.warmReset die) s = .next t ∧ exec (.sramSoftError die) s = .next t) ∧
  (∀ die s,
    (diverges die s = false → replayDivergence die s = s.bump) ∧
    (diverges die s = true → replayDivergence die s =
      (((List.range 256).filter fun c => boundOn s c die).foldl (fun s c => endContext c 0x07 (causeEngine die 0 0) s)
        (s.modDie die fun d => { d with safe := true })).bump)) ∧
  (∀ die k digest s, die < 64 → 5 ≤ k → k < 8 → exec (.measurementRegisterExtension die k digest) s =
    .next (s.modDie die fun d => { d with mrs := lmod (s.mrs die) k fun r => shake256 64 (r ++ digest) })) ∧
  (∀ die nonce s, die < 64 → nonce.length = 64 → exec (.attestationRequest die nonce) s =
    .next (s.modMod fun m => { m with reports := m.reports ++ [report s die nonce] }) ∧
    (report s die nonce).take 64 = nonce ∧ ((report s die nonce).drop 64).take 32 = bytesTo 32 Config.identity) ∧
  (∀ die ind reading age s, die < 64 → ind < indicators die → ∃ t x, exec (.healthRefresh die ind reading age) s = .next t ∧
    tget (t.die die).health ind = some x ∧ x.x0 = Config.manufacture die ind ∧ x.x = reading ∧ x.age = age ∧ x.index ≤ 1000 ∧
    x.life ≤ 65535 ∧ (x.index = 0 → x.life = 65535) ∧ (t.die die).dram = (s.die die).dram ∧ t.mod = s.mod ∧
    ((ind < 160 → x.index < 1000) → (t.die die).added = (s.die die).added)) ∧
  (∀ die rate s, die < 64 → exec (.powerLimit die rate) s = .next (s.modDie die fun d => { d with rate := min rate 100 }))

/-! ### The machine as a whole -/

/-- The opcodes R59 lists, of each class, are not assigned; and a word whose opcode is not assigned, or whose class is not its
header's, traps every thread of its bundle with ILLEGAL-INSTRUCTION (R49, R59). -/
def Obligations.UnassignedOpcode : Prop :=
  let among := fun (n : Nat) (l : List (Nat × Nat)) => ∃ r ∈ l, r.1 ≤ n ∧ n ≤ r.2
  let listed := fun (v : Word64) =>
    let c := (v.extractLsb' 60 4).toNat
    let n := (v.extractLsb' 52 8).toNat
    (c = 0 ∧ among n [(0x08, 0x0F), (0x25, 0x25), (0x34, 0x3F), (0x56, 0x57), (0x5B, 0x5F), (0x6A, 0x6F), (0x76, 0xFF)]) ∨
    (c = 1 ∧ among n [(0x0C, 0xFF)]) ∨ (c = 2 ∧ among n [(0x11, 0xFF)]) ∨ (c = 3 ∧ among n [(0x13, 0xFF)]) ∨
    (c = 4 ∧ among n [(0x09, 0xFF)]) ∨ (c = 5 ∧ among n [(0x10, 0xFF)]) ∨ (c = 6 ∧ among n [(0x0C, 0xFF)]) ∨
    (c = 7 ∧ among n [(0x06, 0xFF)])
  (∀ v, listed v → decode v = .error .unassigned) ∧
  ∀ v s b, s.bundle? = some b → b.iss.words[b.iss.idx]? = some v → b.iss.blocked = false →
    (decode v = .error .unassigned ∨ decode v = .error .header ∨ (v.extractLsb' 60 4).toNat ≠ b.iss.cls) →
    exec (.unassignedOpcode v) s = .next (trapWord b b.iss.lanes 0x02 s)

/-- Every well-formed instruction word decodes to the instruction it was encoded from, every operand at every value its encoding
admits, and every word instruction has a word (R20, R29, R38-R58). -/
def Obligations.InstructionRoundTrip : Prop :=
  ∀ i : Instr, (i.wf = true → ∀ w, encode i = some w → decode w = .ok i) ∧ ((i.info 1).isSome = true → (encode i).isSome = true)

/-- Words written out from the spec's formats decode to the instructions they stand for (R20, R29, R38-R58). -/
def Obligations.DecodedWords : Prop :=
  -- IADD v5, v6, v7 (class 0, opcode 0x10, format R, guard p7)
  decode (0x0#4 ++ 0x10#8 ++ 0#1 ++ 7#3 ++ 0#3 ++ 5#9 ++ 6#9 ++ 7#9 ++ 0#9 ++ 0#2 ++ 0#7) =
    .ok (.iadd ⟨⟨false, 7⟩, 0, 5, 6, 7, 0, 0, false, false, false, false, false, false⟩) ∧
  -- MOVI v300, 0x3F800000 under not p2 (class 0, opcode 0x02, format K)
  decode (0x0#4 ++ 0x02#8 ++ 1#1 ++ 2#3 ++ 0#7 ++ 300#9 ++ 0x3F800000#32) = .ok (.movi ⟨⟨true, 2⟩, 0, 300, 0x3F800000⟩) ∧
  -- RCP v1, v2 (class 1, opcode 0x00, format R)
  decode (0x1#4 ++ 0x00#8 ++ 0#1 ++ 7#3 ++ 0#3 ++ 1#9 ++ 2#9 ++ 0#9 ++ 0#9 ++ 0#2 ++ 0#7) =
    .ok (.rcp ⟨⟨false, 7⟩, 0, 1, 2, 0, 0, 0, false, false, false, false, false, false⟩) ∧
  -- HALT (class 6, opcode 0x08, format R)
  decode (0x6#4 ++ 0x08#8 ++ 0#1 ++ 7#3 ++ 0#3 ++ 0#9 ++ 0#9 ++ 0#9 ++ 0#9 ++ 0#2 ++ 0#7) =
    .ok (.halt ⟨⟨false, 7⟩, 0, 0, 0, 0, 0, 0, false, false, false, false, false, false⟩)

/-- A step runs the decoded word of the bundle the agenda names, or, with an empty agenda, of the current bundle; a word that does
not decode traps its bundle; a happening of the agenda acts; and a placed word runs at once from reset (R25, R49; log entry 5). A step
is an instant of its own (R139). -/
def Obligations.StepRunsDecodedWord : Prop :=
  let stands := fun (s : State) (w : Nat) (p : Pipe) (b : Bundle) (v : Word64) =>
    ({ s with cur := some (w, p) } : State).bundle? = some b ∧ b.iss.blocked = false ∧ b.iss.lanes ≠ 0 ∧
    (s.die b.warp.die).safe = false ∧ (s.die b.warp.die).start = none ∧ (b.iss.since = none → redirected b = 0) ∧
    b.iss.lanes &&& stalledLanes { s with cur := some (w, p) } b.w = 0 ∧ b.iss.words[b.iss.idx]? = some v
  (∀ s w p rest b v i, s.agenda = .word w p :: rest →
    let t := { s.newInstant with agenda := rest }
    stands t w p b v → unassignedIn b.iss.cls v = false → decode v = .ok i → step s = exec i { t with cur := some (w, p) }) ∧
  (∀ s w p b v i, s.agenda = [] → s.cur = some (w, p) → stands s.newInstant w p b v → unassignedIn b.iss.cls v = false →
    decode v = .ok i → step s = exec i s.newInstant) ∧
  (∀ s w p b v e, s.agenda = [] → s.cur = some (w, p) → stands s.newInstant w p b v → decode v = .error e →
    step s = .next (trapWord b b.iss.lanes 0x02 s.newInstant)) ∧
  (∀ s i rest, s.agenda = .event i :: rest → i.info 1 = none → step s = exec i { s.newInstant with agenda := rest }) ∧
  (∀ s c rest, s.agenda = .control c :: rest → step s = .next (control c { s.newInstant with agenda := rest })) ∧
  (∀ s n rest, s.agenda = .tick n :: rest → step s = .next (advance n { s.newInstant with agenda := rest })) ∧
  (∀ w i, w < 2 ^ 64 → decode (BitVec.ofNat 64 w) = .ok i →
    step (State.reset.withFetchWord 64 w) = exec i (State.reset.withFetchWord 64 w))

/-- After a word the clause goes on with its next word; after its last word each thread of the bundle is READY at the next header,
header address + 8 · (count + 2); while no region abort redirects a thread of it (R25, R26). -/
def Obligations.WordEnds : Prop :=
  ∀ s b, s.bundle? = some b → b.iss.lanes ≠ 0 → (∀ l u, b.warp.thread l = some u → u.redirect = none) →
    (b.iss.idx + 1 < b.iss.words.length → finishWord b s = s.setWarp b.w (b.warp.setIss b.pipe (some { b.iss with
      idx := b.iss.idx + 1, blocked := false, grant := .none, after := none, since := none }))) ∧
    (b.iss.idx + 1 = b.iss.words.length → ∃ y, (finishWord b s).warp? b.w = some y ∧ y.iss b.pipe = none ∧
      (∀ k, k ≠ b.w → (finishWord b s).warp? k = s.warp? k) ∧
      ∀ l u, b.warp.thread l = some u → ∃ v, y.thread l = some v ∧ v.regs = u.regs ∧ v.preds = u.preds ∧
        (b.iss.lanes.getLsbD l = true → v.st = .ready ∧ v.pc.hdr = b.iss.hdr + 8 * (b.iss.words.length + 1)) ∧
        (b.iss.lanes.getLsbD l = false → v = u))

/-- The machine right after reset (R297, R312, R400, R402): every context FREE and every queue DISABLED, no kernel, warp or operation,
DRAM all zero and its memory canonical, every die running, every port UP. -/
def Obligations.ResetState : Prop :=
  let s := State.reset
  (∀ c, (s.ctx c).st = .free) ∧ (∀ q, (s.queue q).st = .disabled) ∧ (∀ w, s.warp? w = none) ∧ (∀ k, s.kernel? k = none) ∧
  s.blocks = [] ∧ s.shares = [] ∧ s.ops = [] ∧ s.copies = [] ∧ s.tops = [] ∧
  (∀ d a, mget (s.die d).dram a = 0) ∧ (∀ d, (s.die d).safe = false ∧ (s.die d).start = none ∧ (s.die d).time = 0) ∧
  (∀ p, p < 32 → (s.mod.ports[p]?).map Port.st = some .up) ∧ MemoryOk s

/-- A write of main memory stores its bytes at its addresses, leaves every other byte and every other die as they were, makes the
units it covers whole correctable, and keeps memory in canonical form (R2, R406). -/
def Obligations.MemoryReadWrite : Prop :=
  ∀ s die a bs t, MemoryOk s → dramWrite s die a bs = some t →
    (∀ k, k < bs.length → some (mget (t.die die).dram (a + k)) = bs[k]?) ∧
    (∀ x, (x < a ∨ a + bs.length ≤ x) → mget (t.die die).dram x = mget (s.die die).dram x) ∧
    (∀ d, d ≠ die → t.die d = s.die d) ∧ dramRead t die a bs.length = some bs ∧ MemoryOk t ∧
    t = { s with dies := t.dies }

/-- The memories stay in canonical form: from every state in which they are, a step answers one in which they are. -/
def Obligations.MemoryOkStep : Prop :=
  ∀ s t, MemoryOk s → step s = .next t → MemoryOk t
end

