-- ==== Sys2Proof/Laws/Bits.lean ====
section
/-! SUPPORT. Fields of concatenated words: what the decoder's field readers find in an encoder's word, for every format. -/

namespace Sys2Proof.Laws

/-! ### Fields of a concatenation -/

theorem bits_append_lt {m n lo k : Nat} (a : BitVec m) (b : BitVec n) (h : lo + k ≤ n) :
    (a ++ b).extractLsb' lo k = b.extractLsb' lo k := by
  apply BitVec.eq_of_getLsbD_eq
  intro i hi
  have : lo + i < n := by omega
  simp [BitVec.getLsbD_append, this, hi]

theorem bits_append_ge {m n lo k : Nat} (a : BitVec m) (b : BitVec n) (h : n ≤ lo) :
    (a ++ b).extractLsb' lo k = a.extractLsb' (lo - n) k := by
  apply BitVec.eq_of_getLsbD_eq
  intro i hi
  have h1 : ¬ lo + i < n := by omega
  have h2 : lo + i - n = lo - n + i := by omega
  simp [BitVec.getLsbD_append, h1, hi, h2]

theorem bit_append_lt {m n k : Nat} (a : BitVec m) (b : BitVec n) (h : k < n) : (a ++ b).getLsbD k = b.getLsbD k := by
  simp [BitVec.getLsbD_append, h]

theorem bit_append_ge {m n k : Nat} (a : BitVec m) (b : BitVec n) (h : n ≤ k) :
    (a ++ b).getLsbD k = a.getLsbD (k - n) := by
  have : ¬ k < n := by omega
  simp [BitVec.getLsbD_append, this]

/-! ### Each format's reader undoes its encoder -/

theorem fmtR_encR (cls opc : Nat) (o : FmtR) : fmtR (encR cls opc o) = o := by
  obtain ⟨⟨gi, gp⟩, mod, d, a, b, c, keep, ea, eb, ec, za, zb, zc⟩ := o
  simp (disch := omega) only [fmtR, guardOf, encR, encHead, bits, bit, bits_append_lt, bits_append_ge, bit_append_lt, bit_append_ge]
  simp

theorem fmtI_encI (cls opc : Nat) (o : FmtI) : fmtI (encI cls opc o) = o := by
  obtain ⟨⟨gi, gp⟩, mod, d, a, ea, ka, za, imm⟩ := o
  simp (disch := omega) only [fmtI, guardOf, encI, encHead, bits, bit, bits_append_lt, bits_append_ge, bit_append_lt, bit_append_ge]
  simp

theorem fmtK_encK (cls opc : Nat) (o : FmtK) : fmtK (encK cls opc o) = o := by
  obtain ⟨⟨gi, gp⟩, mod, d, imm⟩ := o
  simp (disch := omega) only [fmtK, guardOf, encK, encHead, bits, bit, bits_append_lt, bits_append_ge, bit_append_lt, bit_append_ge]
  simp

theorem fmtL_encL (cls opc : Nat) (o : FmtL) : fmtL (encL cls opc o) = o := by
  obtain ⟨⟨gi, gp⟩, d, a, b, c, table⟩ := o
  simp (disch := omega) only [fmtL, guardOf, encL, encHead, bits, bit, bits_append_lt, bits_append_ge, bit_append_lt, bit_append_ge]
  simp

theorem fmtV_encV (cls opc : Nat) (o : FmtV) : fmtV (encV cls opc o) = o := by
  obtain ⟨⟨gi, gp⟩, mod, d, a, conv, keep, ea, za⟩ := o
  simp (disch := omega) only [fmtV, guardOf, encV, encHead, bits, bit, bits_append_lt, bits_append_ge, bit_append_lt, bit_append_ge]
  simp

theorem fmtB_encB (cls opc : Nat) (o : FmtB) : fmtB (encB cls opc o) = o := by
  obtain ⟨⟨gi, gp⟩, ind, a, off⟩ := o
  simp (disch := omega) only [fmtB, guardOf, encB, encHead, bits, bit, bits_append_lt, bits_append_ge, bit_append_lt, bit_append_ge]
  simp

theorem fmtM_encM (cls opc : Nat) (o : FmtM) : fmtM (encM cls opc o) = o := by
  obtain ⟨⟨gi, gp⟩, size, d, a, ea, ka, za, off⟩ := o
  simp (disch := omega) only [fmtM, guardOf, encM, encHead, bits, bit, bits_append_lt, bits_append_ge, bit_append_lt, bit_append_ge]
  simp

theorem fmtA_encA (cls opc : Nat) (o : FmtA) : fmtA (encA cls opc o) = o := by
  obtain ⟨⟨gi, gp⟩, op, space, ref, pub, d, a, b, c, e⟩ := o
  simp (disch := omega) only [fmtA, guardOf, encA, encHead, bits, bit, bits_append_lt, bits_append_ge, bit_append_lt, bit_append_ge]
  simp

theorem fmtC_encC (cls opc : Nat) (o : FmtC) : fmtC (encC cls opc o) = o := by
  obtain ⟨⟨gi, gp⟩, token, buf, wa, wp, v, mod, imm⟩ := o
  simp (disch := omega) only [fmtC, guardOf, encC, encHead, bits, bit, bits_append_lt, bits_append_ge, bit_append_lt, bit_append_ge]
  simp

theorem fmtT_encT (cls opc : Nat) (o : FmtT) : fmtT (encT cls opc o) = o := by
  obtain ⟨⟨gi, gp⟩, tile, mask, va, vf, q, mod, imm⟩ := o
  simp (disch := omega) only [fmtT, guardOf, encT, encHead, bits, bit, bits_append_lt, bits_append_ge, bit_append_lt, bit_append_ge]
  simp

theorem fmtS_encS (cls opc : Nat) (o : FmtS) : fmtS (encS cls opc o) = o := by
  obtain ⟨⟨gi, gp⟩, idx, w, v, mod, imm⟩ := o
  simp (disch := omega) only [fmtS, guardOf, encS, encHead, bits, bit, bits_append_lt, bits_append_ge, bit_append_lt, bit_append_ge]
  simp

/-! ### The head of a word: bit 63, class and opcode -/

theorem top_class (cls : Nat) (h : cls < 8) : (BitVec.ofNat 4 cls).getLsbD 3 = false := by
  have : ∀ c : Fin 8, (BitVec.ofNat 4 c.val).getLsbD 3 = false := by decide
  exact this ⟨cls, h⟩

theorem head_encR (cls opc : Nat) (o : FmtR) (hc : cls < 8) (ho : opc < 256) :
    bit 63 (encR cls opc o) = false ∧ (bits 60 4 (encR cls opc o)).toNat = cls ∧
      (bits 52 8 (encR cls opc o)).toNat = opc := by
  simp (disch := omega) only [encR, encHead, bits, bit, bits_append_lt, bits_append_ge, bit_append_ge]
  exact ⟨top_class cls hc, by simp; omega, by simp; omega⟩

theorem head_encI (cls opc : Nat) (o : FmtI) (hc : cls < 8) (ho : opc < 256) :
    bit 63 (encI cls opc o) = false ∧ (bits 60 4 (encI cls opc o)).toNat = cls ∧
      (bits 52 8 (encI cls opc o)).toNat = opc := by
  simp (disch := omega) only [encI, encHead, bits, bit, bits_append_lt, bits_append_ge, bit_append_ge]
  exact ⟨top_class cls hc, by simp; omega, by simp; omega⟩

theorem head_encK (cls opc : Nat) (o : FmtK) (hc : cls < 8) (ho : opc < 256) :
    bit 63 (encK cls opc o) = false ∧ (bits 60 4 (encK cls opc o)).toNat = cls ∧
      (bits 52 8 (encK cls opc o)).toNat = opc := by
  simp (disch := omega) only [encK, encHead, bits, bit, bits_append_lt, bits_append_ge, bit_append_ge]
  exact ⟨top_class cls hc, by simp; omega, by simp; omega⟩

theorem head_encL (cls opc : Nat) (o : FmtL) (hc : cls < 8) (ho : opc < 256) :
    bit 63 (encL cls opc o) = false ∧ (bits 60 4 (encL cls opc o)).toNat = cls ∧
      (bits 52 8 (encL cls opc o)).toNat = opc := by
  simp (disch := omega) only [encL, encHead, bits, bit, bits_append_lt, bits_append_ge, bit_append_ge]
  exact ⟨top_class cls hc, by simp; omega, by simp; omega⟩

theorem head_encV (cls opc : Nat) (o : FmtV) (hc : cls < 8) (ho : opc < 256) :
    bit 63 (encV cls opc o) = false ∧ (bits 60 4 (encV cls opc o)).toNat = cls ∧
      (bits 52 8 (encV cls opc o)).toNat = opc := by
  simp (disch := omega) only [encV, encHead, bits, bit, bits_append_lt, bits_append_ge, bit_append_ge]
  exact ⟨top_class cls hc, by simp; omega, by simp; omega⟩

theorem head_encB (cls opc : Nat) (o : FmtB) (hc : cls < 8) (ho : opc < 256) :
    bit 63 (encB cls opc o) = false ∧ (bits 60 4 (encB cls opc o)).toNat = cls ∧
      (bits 52 8 (encB cls opc o)).toNat = opc := by
  simp (disch := omega) only [encB, encHead, bits, bit, bits_append_lt, bits_append_ge, bit_append_ge]
  exact ⟨top_class cls hc, by simp; omega, by simp; omega⟩

theorem head_encM (cls opc : Nat) (o : FmtM) (hc : cls < 8) (ho : opc < 256) :
    bit 63 (encM cls opc o) = false ∧ (bits 60 4 (encM cls opc o)).toNat = cls ∧
      (bits 52 8 (encM cls opc o)).toNat = opc := by
  simp (disch := omega) only [encM, encHead, bits, bit, bits_append_lt, bits_append_ge, bit_append_ge]
  exact ⟨top_class cls hc, by simp; omega, by simp; omega⟩

theorem head_encA (cls opc : Nat) (o : FmtA) (hc : cls < 8) (ho : opc < 256) :
    bit 63 (encA cls opc o) = false ∧ (bits 60 4 (encA cls opc o)).toNat = cls ∧
      (bits 52 8 (encA cls opc o)).toNat = opc := by
  simp (disch := omega) only [encA, encHead, bits, bit, bits_append_lt, bits_append_ge, bit_append_ge]
  exact ⟨top_class cls hc, by simp; omega, by simp; omega⟩

theorem head_encC (cls opc : Nat) (o : FmtC) (hc : cls < 8) (ho : opc < 256) :
    bit 63 (encC cls opc o) = false ∧ (bits 60 4 (encC cls opc o)).toNat = cls ∧
      (bits 52 8 (encC cls opc o)).toNat = opc := by
  simp (disch := omega) only [encC, encHead, bits, bit, bits_append_lt, bits_append_ge, bit_append_ge]
  exact ⟨top_class cls hc, by simp; omega, by simp; omega⟩

theorem head_encT (cls opc : Nat) (o : FmtT) (hc : cls < 8) (ho : opc < 256) :
    bit 63 (encT cls opc o) = false ∧ (bits 60 4 (encT cls opc o)).toNat = cls ∧
      (bits 52 8 (encT cls opc o)).toNat = opc := by
  simp (disch := omega) only [encT, encHead, bits, bit, bits_append_lt, bits_append_ge, bit_append_ge]
  exact ⟨top_class cls hc, by simp; omega, by simp; omega⟩

theorem head_encS (cls opc : Nat) (o : FmtS) (hc : cls < 8) (ho : opc < 256) :
    bit 63 (encS cls opc o) = false ∧ (bits 60 4 (encS cls opc o)).toNat = cls ∧
      (bits 52 8 (encS cls opc o)).toNat = opc := by
  simp (disch := omega) only [encS, encHead, bits, bit, bits_append_lt, bits_append_ge, bit_append_ge]
  exact ⟨top_class cls hc, by simp; omega, by simp; omega⟩

/-! ### The bits an encoder leaves zero -/

theorem zero_encR (cls opc : Nat) (o : FmtR) : bit 0 (encR cls opc o) = false := by
  simp (disch := omega) only [encR, bit, bit_append_lt]
  simp

theorem zero_encL (cls opc : Nat) (o : FmtL) : bits 45 3 (encL cls opc o) = 0 ∧ bit 0 (encL cls opc o) = false := by
  simp (disch := omega) only [encL, bits, bit, bits_append_lt, bits_append_ge, bit_append_lt]
  simp

theorem zero_encV (cls opc : Nat) (o : FmtV) :
    bits 9 9 (encV cls opc o) = 0 ∧ bit 8 (encV cls opc o) = false ∧ bits 4 2 (encV cls opc o) = 0 ∧
      bits 0 3 (encV cls opc o) = 0 := by
  simp (disch := omega) only [encV, bits, bit, bits_append_lt, bits_append_ge, bit_append_lt, bit_append_ge]
  simp

theorem zero_encB (cls opc : Nat) (o : FmtB) : bits 45 3 (encB cls opc o) = 0 ∧ bits 41 3 (encB cls opc o) = 0 := by
  simp (disch := omega) only [encB, bits, bits_append_lt, bits_append_ge]
  simp

theorem zero_encA (cls opc : Nat) (o : FmtA) : bits 0 3 (encA cls opc o) = 0 := by
  simp (disch := omega) only [encA, bits, bits_append_lt]
  simp

end Sys2Proof.Laws
end

