-- ==== Sys2Proof/Laws/PerInstr.lean ====
section
/-! SUPPORT. What is stated of every instruction, constructor by constructor (LAWS.json): its word decodes to it. -/

namespace Sys2Proof.Laws

set_option Elab.async false

/-- A word whose class and opcode select `i`, with a legal guard and the format's zero bits, decodes to it. -/
theorem decode_word {w : Word64} {cls opc : Nat} {i : Instr}
    (h : bit 63 w = false ∧ (bits 60 4 w).toNat = cls ∧ (bits 52 8 w).toNat = opc)
    (hd : decodeClass cls opc w = some i) (hg : (guardOf w).ok = true) (hw : i.wf = true) (hz : zeroBits i w = true) :
    decode w = .ok i := by
  obtain ⟨h63, rfl, rfl⟩ := h
  simp [decode, h63, hd, hg, hw, hz]

theorem guard_encR (cls opc : Nat) (o : FmtR) : guardOf (encR cls opc o) = o.g :=
  congrArg FmtR.g (fmtR_encR cls opc o)

theorem guard_encI (cls opc : Nat) (o : FmtI) : guardOf (encI cls opc o) = o.g :=
  congrArg FmtI.g (fmtI_encI cls opc o)

theorem guard_encK (cls opc : Nat) (o : FmtK) : guardOf (encK cls opc o) = o.g :=
  congrArg FmtK.g (fmtK_encK cls opc o)

theorem guard_encL (cls opc : Nat) (o : FmtL) : guardOf (encL cls opc o) = o.g :=
  congrArg FmtL.g (fmtL_encL cls opc o)

theorem guard_encV (cls opc : Nat) (o : FmtV) : guardOf (encV cls opc o) = o.g :=
  congrArg FmtV.g (fmtV_encV cls opc o)

theorem guard_encB (cls opc : Nat) (o : FmtB) : guardOf (encB cls opc o) = o.g :=
  congrArg FmtB.g (fmtB_encB cls opc o)

theorem guard_encM (cls opc : Nat) (o : FmtM) : guardOf (encM cls opc o) = o.g :=
  congrArg FmtM.g (fmtM_encM cls opc o)

theorem guard_encA (cls opc : Nat) (o : FmtA) : guardOf (encA cls opc o) = o.g :=
  congrArg FmtA.g (fmtA_encA cls opc o)

theorem guard_encC (cls opc : Nat) (o : FmtC) : guardOf (encC cls opc o) = o.g :=
  congrArg FmtC.g (fmtC_encC cls opc o)

theorem guard_encT (cls opc : Nat) (o : FmtT) : guardOf (encT cls opc o) = o.g :=
  congrArg FmtT.g (fmtT_encT cls opc o)

theorem guard_encS (cls opc : Nat) (o : FmtS) : guardOf (encS cls opc o) = o.g :=
  congrArg FmtS.g (fmtS_encS cls opc o)

/-- Decoding the word of a well-formed instruction gives it back. -/
def RoundTrip.Statement (i : Instr) : Prop := ∀ w, i.wf = true → encode i = some w → decode w = .ok i

theorem RoundTrip.nop (o : FmtR) : RoundTrip.Statement (.nop o) := by
  intro w hw he
  cases he
  have hd : decodeClass 0 0 (encR 0 0 o) = some (.nop o) := congrArg (some ∘ Instr.nop) (fmtR_encR 0 0 o)
  exact decode_word (head_encR 0 0 o (by decide) (by decide)) hd
    (by rw [guard_encR]; simp [Instr.wf, Instr.info, FmtR.info] at hw; simp [hw]) hw
    (by simp [zeroBits, Instr.info, FmtR.info, zero_encR])

theorem RoundTrip.mov (o : FmtR) : RoundTrip.Statement (.mov o) := by
  intro w hw he
  cases he
  have hd : decodeClass 0 1 (encR 0 1 o) = some (.mov o) := congrArg (some ∘ Instr.mov) (fmtR_encR 0 1 o)
  exact decode_word (head_encR 0 1 o (by decide) (by decide)) hd
    (by rw [guard_encR]; simp [Instr.wf, Instr.info, FmtR.info] at hw; simp [hw]) hw
    (by simp [zeroBits, Instr.info, FmtR.info, zero_encR])

theorem RoundTrip.movi (o : FmtK) : RoundTrip.Statement (.movi o) := by
  intro w hw he
  cases he
  have hd : decodeClass 0 2 (encK 0 2 o) = some (.movi o) := congrArg (some ∘ Instr.movi) (fmtK_encK 0 2 o)
  exact decode_word (head_encK 0 2 o (by decide) (by decide)) hd
    (by rw [guard_encK]; simp [Instr.wf, Instr.info, FmtK.info] at hw; simp [hw]) hw
    (by simp [zeroBits])

theorem RoundTrip.movw (o : FmtI) : RoundTrip.Statement (.movw o) := by
  intro w hw he
  cases he
  have hd : decodeClass 0 3 (encI 0 3 o) = some (.movw o) := congrArg (some ∘ Instr.movw) (fmtI_encI 0 3 o)
  exact decode_word (head_encI 0 3 o (by decide) (by decide)) hd
    (by rw [guard_encI]; simp [Instr.wf, Instr.info, FmtI.info] at hw; simp [hw]) hw
    (by simp [zeroBits])

theorem RoundTrip.wset (o : FmtI) : RoundTrip.Statement (.wset o) := by
  intro w hw he
  cases he
  have hd : decodeClass 0 4 (encI 0 4 o) = some (.wset o) := congrArg (some ∘ Instr.wset) (fmtI_encI 0 4 o)
  exact decode_word (head_encI 0 4 o (by decide) (by decide)) hd
    (by rw [guard_encI]; simp [Instr.wf, Instr.info, FmtI.info] at hw; simp [hw]) hw
    (by simp [zeroBits])

theorem RoundTrip.sread (o : FmtI) : RoundTrip.Statement (.sread o) := by
  intro w hw he
  cases he
  have hd : decodeClass 0 5 (encI 0 5 o) = some (.sread o) := congrArg (some ∘ Instr.sread) (fmtI_encI 0 5 o)
  exact decode_word (head_encI 0 5 o (by decide) (by decide)) hd
    (by rw [guard_encI]; simp [Instr.wf, Instr.info, FmtI.info] at hw; simp [hw]) hw
    (by simp [zeroBits])

theorem RoundTrip.pmovRp (o : FmtR) : RoundTrip.Statement (.pmovRp o) := by
  intro w hw he
  cases he
  have hd : decodeClass 0 6 (encR 0 6 o) = some (.pmovRp o) := by
    simp [Instr.wf, Instr.info, FmtR.info] at hw
    simp [decodeClass, decodeGen, byMod, fmtR_encR]
    simp_all
  exact decode_word (head_encR 0 6 o (by decide) (by decide)) hd
    (by rw [guard_encR]; simp [Instr.wf, Instr.info, FmtR.info] at hw; simp [hw]) hw
    (by simp [zeroBits, Instr.info, FmtR.info, zero_encR])

theorem RoundTrip.pmovPr (o : FmtR) : RoundTrip.Statement (.pmovPr o) := by
  intro w hw he
  cases he
  have hd : decodeClass 0 6 (encR 0 6 o) = some (.pmovPr o) := by
    simp [Instr.wf, Instr.info, FmtR.info] at hw
    simp [decodeClass, decodeGen, byMod, fmtR_encR]
    simp_all
  exact decode_word (head_encR 0 6 o (by decide) (by decide)) hd
    (by rw [guard_encR]; simp [Instr.wf, Instr.info, FmtR.info] at hw; simp [hw]) hw
    (by simp [zeroBits, Instr.info, FmtR.info, zero_encR])

theorem RoundTrip.pmovSave (o : FmtR) : RoundTrip.Statement (.pmovSave o) := by
  intro w hw he
  cases he
  have hd : decodeClass 0 6 (encR 0 6 o) = some (.pmovSave o) := by
    simp [Instr.wf, Instr.info, FmtR.info] at hw
    simp [decodeClass, decodeGen, byMod, fmtR_encR]
    simp_all
  exact decode_word (head_encR 0 6 o (by decide) (by decide)) hd
    (by rw [guard_encR]; simp [Instr.wf, Instr.info, FmtR.info] at hw; simp [hw]) hw
    (by simp [zeroBits, Instr.info, FmtR.info, zero_encR])

theorem RoundTrip.pmovLoad (o : FmtR) : RoundTrip.Statement (.pmovLoad o) := by
  intro w hw he
  cases he
  have hd : decodeClass 0 6 (encR 0 6 o) = some (.pmovLoad o) := by
    simp [Instr.wf, Instr.info, FmtR.info] at hw
    simp [decodeClass, decodeGen, byMod, fmtR_encR]
    simp_all
  exact decode_word (head_encR 0 6 o (by decide) (by decide)) hd
    (by rw [guard_encR]; simp [Instr.wf, Instr.info, FmtR.info] at hw; simp [hw]) hw
    (by simp [zeroBits, Instr.info, FmtR.info, zero_encR])

theorem RoundTrip.pgate (o : FmtL) : RoundTrip.Statement (.pgate o) := by
  intro w hw he
  cases he
  have hd : decodeClass 0 7 (encL 0 7 o) = some (.pgate o) := congrArg (some ∘ Instr.pgate) (fmtL_encL 0 7 o)
  exact decode_word (head_encL 0 7 o (by decide) (by decide)) hd
    (by rw [guard_encL]; simp [Instr.wf, Instr.info, FmtL.info] at hw; simp [hw]) hw
    (by simp [zeroBits, zero_encL])

theorem RoundTrip.iadd (o : FmtR) : RoundTrip.Statement (.iadd o) := by
  intro w hw he
  cases he
  have hd : decodeClass 0 16 (encR 0 16 o) = some (.iadd o) := congrArg (some ∘ Instr.iadd) (fmtR_encR 0 16 o)
  exact decode_word (head_encR 0 16 o (by decide) (by decide)) hd
    (by rw [guard_encR]; simp [Instr.wf, Instr.info, FmtR.info] at hw; simp [hw]) hw
    (by simp [zeroBits, Instr.info, FmtR.info, zero_encR])

theorem RoundTrip.iaddImm (o : FmtI) : RoundTrip.Statement (.iaddImm o) := by
  intro w hw he
  cases he
  have hd : decodeClass 0 17 (encI 0 17 o) = some (.iaddImm o) := congrArg (some ∘ Instr.iaddImm) (fmtI_encI 0 17 o)
  exact decode_word (head_encI 0 17 o (by decide) (by decide)) hd
    (by rw [guard_encI]; simp [Instr.wf, Instr.info, FmtI.info] at hw; simp [hw]) hw
    (by simp [zeroBits])

theorem RoundTrip.isub (o : FmtR) : RoundTrip.Statement (.isub o) := by
  intro w hw he
  cases he
  have hd : decodeClass 0 18 (encR 0 18 o) = some (.isub o) := congrArg (some ∘ Instr.isub) (fmtR_encR 0 18 o)
  exact decode_word (head_encR 0 18 o (by decide) (by decide)) hd
    (by rw [guard_encR]; simp [Instr.wf, Instr.info, FmtR.info] at hw; simp [hw]) hw
    (by simp [zeroBits, Instr.info, FmtR.info, zero_encR])

theorem RoundTrip.isubImm (o : FmtI) : RoundTrip.Statement (.isubImm o) := by
  intro w hw he
  cases he
  have hd : decodeClass 0 19 (encI 0 19 o) = some (.isubImm o) := congrArg (some ∘ Instr.isubImm) (fmtI_encI 0 19 o)
  exact decode_word (head_encI 0 19 o (by decide) (by decide)) hd
    (by rw [guard_encI]; simp [Instr.wf, Instr.info, FmtI.info] at hw; simp [hw]) hw
    (by simp [zeroBits])

theorem RoundTrip.imul (o : FmtR) : RoundTrip.Statement (.imul o) := by
  intro w hw he
  cases he
  have hd : decodeClass 0 20 (encR 0 20 o) = some (.imul o) := congrArg (some ∘ Instr.imul) (fmtR_encR 0 20 o)
  exact decode_word (head_encR 0 20 o (by decide) (by decide)) hd
    (by rw [guard_encR]; simp [Instr.wf, Instr.info, FmtR.info] at hw; simp [hw]) hw
    (by simp [zeroBits, Instr.info, FmtR.info, zero_encR])

theorem RoundTrip.imulImm (o : FmtI) : RoundTrip.Statement (.imulImm o) := by
  intro w hw he
  cases he
  have hd : decodeClass 0 21 (encI 0 21 o) = some (.imulImm o) := congrArg (some ∘ Instr.imulImm) (fmtI_encI 0 21 o)
  exact decode_word (head_encI 0 21 o (by decide) (by decide)) hd
    (by rw [guard_encI]; simp [Instr.wf, Instr.info, FmtI.info] at hw; simp [hw]) hw
    (by simp [zeroBits])

theorem RoundTrip.imulh (o : FmtR) : RoundTrip.Statement (.imulh o) := by
  intro w hw he
  cases he
  have hd : decodeClass 0 22 (encR 0 22 o) = some (.imulh o) := congrArg (some ∘ Instr.imulh) (fmtR_encR 0 22 o)
  exact decode_word (head_encR 0 22 o (by decide) (by decide)) hd
    (by rw [guard_encR]; simp [Instr.wf, Instr.info, FmtR.info] at hw; simp [hw]) hw
    (by simp [zeroBits, Instr.info, FmtR.info, zero_encR])

theorem RoundTrip.imulhImm (o : FmtI) : RoundTrip.Statement (.imulhImm o) := by
  intro w hw he
  cases he
  have hd : decodeClass 0 23 (encI 0 23 o) = some (.imulhImm o) := congrArg (some ∘ Instr.imulhImm) (fmtI_encI 0 23 o)
  exact decode_word (head_encI 0 23 o (by decide) (by decide)) hd
    (by rw [guard_encI]; simp [Instr.wf, Instr.info, FmtI.info] at hw; simp [hw]) hw
    (by simp [zeroBits])

theorem RoundTrip.imin (o : FmtR) : RoundTrip.Statement (.imin o) := by
  intro w hw he
  cases he
  have hd : decodeClass 0 24 (encR 0 24 o) = some (.imin o) := congrArg (some ∘ Instr.imin) (fmtR_encR 0 24 o)
  exact decode_word (head_encR 0 24 o (by decide) (by decide)) hd
    (by rw [guard_encR]; simp [Instr.wf, Instr.info, FmtR.info] at hw; simp [hw]) hw
    (by simp [zeroBits, Instr.info, FmtR.info, zero_encR])

theorem RoundTrip.iminImm (o : FmtI) : RoundTrip.Statement (.iminImm o) := by
  intro w hw he
  cases he
  have hd : decodeClass 0 25 (encI 0 25 o) = some (.iminImm o) := congrArg (some ∘ Instr.iminImm) (fmtI_encI 0 25 o)
  exact decode_word (head_encI 0 25 o (by decide) (by decide)) hd
    (by rw [guard_encI]; simp [Instr.wf, Instr.info, FmtI.info] at hw; simp [hw]) hw
    (by simp [zeroBits])

theorem RoundTrip.imax (o : FmtR) : RoundTrip.Statement (.imax o) := by
  intro w hw he
  cases he
  have hd : decodeClass 0 26 (encR 0 26 o) = some (.imax o) := congrArg (some ∘ Instr.imax) (fmtR_encR 0 26 o)
  exact decode_word (head_encR 0 26 o (by decide) (by decide)) hd
    (by rw [guard_encR]; simp [Instr.wf, Instr.info, FmtR.info] at hw; simp [hw]) hw
    (by simp [zeroBits, Instr.info, FmtR.info, zero_encR])

theorem RoundTrip.imaxImm (o : FmtI) : RoundTrip.Statement (.imaxImm o) := by
  intro w hw he
  cases he
  have hd : decodeClass 0 27 (encI 0 27 o) = some (.imaxImm o) := congrArg (some ∘ Instr.imaxImm) (fmtI_encI 0 27 o)
  exact decode_word (head_encI 0 27 o (by decide) (by decide)) hd
    (by rw [guard_encI]; simp [Instr.wf, Instr.info, FmtI.info] at hw; simp [hw]) hw
    (by simp [zeroBits])

theorem RoundTrip.icmp (o : FmtR) : RoundTrip.Statement (.icmp o) := by
  intro w hw he
  cases he
  have hd : decodeClass 0 28 (encR 0 28 o) = some (.icmp o) := congrArg (some ∘ Instr.icmp) (fmtR_encR 0 28 o)
  exact decode_word (head_encR 0 28 o (by decide) (by decide)) hd
    (by rw [guard_encR]; simp [Instr.wf, Instr.info, FmtR.info] at hw; simp [hw]) hw
    (by simp [zeroBits, Instr.info, FmtR.info, zero_encR])

theorem RoundTrip.icmpImm (o : FmtI) : RoundTrip.Statement (.icmpImm o) := by
  intro w hw he
  cases he
  have hd : decodeClass 0 29 (encI 0 29 o) = some (.icmpImm o) := congrArg (some ∘ Instr.icmpImm) (fmtI_encI 0 29 o)
  exact decode_word (head_encI 0 29 o (by decide) (by decide)) hd
    (by rw [guard_encI]; simp [Instr.wf, Instr.info, FmtI.info] at hw; simp [hw]) hw
    (by simp [zeroBits])

theorem RoundTrip.shl (o : FmtR) : RoundTrip.Statement (.shl o) := by
  intro w hw he
  cases he
  have hd : decodeClass 0 30 (encR 0 30 o) = some (.shl o) := congrArg (some ∘ Instr.shl) (fmtR_encR 0 30 o)
  exact decode_word (head_encR 0 30 o (by decide) (by decide)) hd
    (by rw [guard_encR]; simp [Instr.wf, Instr.info, FmtR.info] at hw; simp [hw]) hw
    (by simp [zeroBits, Instr.info, FmtR.info, zero_encR])

theorem RoundTrip.shlImm (o : FmtI) : RoundTrip.Statement (.shlImm o) := by
  intro w hw he
  cases he
  have hd : decodeClass 0 31 (encI 0 31 o) = some (.shlImm o) := congrArg (some ∘ Instr.shlImm) (fmtI_encI 0 31 o)
  exact decode_word (head_encI 0 31 o (by decide) (by decide)) hd
    (by rw [guard_encI]; simp [Instr.wf, Instr.info, FmtI.info] at hw; simp [hw]) hw
    (by simp [zeroBits])

theorem RoundTrip.shr (o : FmtR) : RoundTrip.Statement (.shr o) := by
  intro w hw he
  cases he
  have hd : decodeClass 0 32 (encR 0 32 o) = some (.shr o) := congrArg (some ∘ Instr.shr) (fmtR_encR 0 32 o)
  exact decode_word (head_encR 0 32 o (by decide) (by decide)) hd
    (by rw [guard_encR]; simp [Instr.wf, Instr.info, FmtR.info] at hw; simp [hw]) hw
    (by simp [zeroBits, Instr.info, FmtR.info, zero_encR])

theorem RoundTrip.shrImm (o : FmtI) : RoundTrip.Statement (.shrImm o) := by
  intro w hw he
  cases he
  have hd : decodeClass 0 33 (encI 0 33 o) = some (.shrImm o) := congrArg (some ∘ Instr.shrImm) (fmtI_encI 0 33 o)
  exact decode_word (head_encI 0 33 o (by decide) (by decide)) hd
    (by rw [guard_encI]; simp [Instr.wf, Instr.info, FmtI.info] at hw; simp [hw]) hw
    (by simp [zeroBits])

theorem RoundTrip.sar (o : FmtR) : RoundTrip.Statement (.sar o) := by
  intro w hw he
  cases he
  have hd : decodeClass 0 34 (encR 0 34 o) = some (.sar o) := congrArg (some ∘ Instr.sar) (fmtR_encR 0 34 o)
  exact decode_word (head_encR 0 34 o (by decide) (by decide)) hd
    (by rw [guard_encR]; simp [Instr.wf, Instr.info, FmtR.info] at hw; simp [hw]) hw
    (by simp [zeroBits, Instr.info, FmtR.info, zero_encR])

theorem RoundTrip.sarImm (o : FmtI) : RoundTrip.Statement (.sarImm o) := by
  intro w hw he
  cases he
  have hd : decodeClass 0 35 (encI 0 35 o) = some (.sarImm o) := congrArg (some ∘ Instr.sarImm) (fmtI_encI 0 35 o)
  exact decode_word (head_encI 0 35 o (by decide) (by decide)) hd
    (by rw [guard_encI]; simp [Instr.wf, Instr.info, FmtI.info] at hw; simp [hw]) hw
    (by simp [zeroBits])

theorem RoundTrip.lgate (o : FmtL) : RoundTrip.Statement (.lgate o) := by
  intro w hw he
  cases he
  have hd : decodeClass 0 36 (encL 0 36 o) = some (.lgate o) := congrArg (some ∘ Instr.lgate) (fmtL_encL 0 36 o)
  exact decode_word (head_encL 0 36 o (by decide) (by decide)) hd
    (by rw [guard_encL]; simp [Instr.wf, Instr.info, FmtL.info] at hw; simp [hw]) hw
    (by simp [zeroBits, zero_encL])

theorem RoundTrip.imad (o : FmtR) : RoundTrip.Statement (.imad o) := by
  intro w hw he
  cases he
  have hd : decodeClass 0 38 (encR 0 38 o) = some (.imad o) := congrArg (some ∘ Instr.imad) (fmtR_encR 0 38 o)
  exact decode_word (head_encR 0 38 o (by decide) (by decide)) hd
    (by rw [guard_encR]; simp [Instr.wf, Instr.info, FmtR.info] at hw; simp [hw]) hw
    (by simp [zeroBits, Instr.info, FmtR.info, zero_encR])

theorem RoundTrip.imadw (o : FmtR) : RoundTrip.Statement (.imadw o) := by
  intro w hw he
  cases he
  have hd : decodeClass 0 39 (encR 0 39 o) = some (.imadw o) := congrArg (some ∘ Instr.imadw) (fmtR_encR 0 39 o)
  exact decode_word (head_encR 0 39 o (by decide) (by decide)) hd
    (by rw [guard_encR]; simp [Instr.wf, Instr.info, FmtR.info] at hw; simp [hw]) hw
    (by simp [zeroBits, Instr.info, FmtR.info, zero_encR])

theorem RoundTrip.iaddc (o : FmtR) : RoundTrip.Statement (.iaddc o) := by
  intro w hw he
  cases he
  have hd : decodeClass 0 40 (encR 0 40 o) = some (.iaddc o) := congrArg (some ∘ Instr.iaddc) (fmtR_encR 0 40 o)
  exact decode_word (head_encR 0 40 o (by decide) (by decide)) hd
    (by rw [guard_encR]; simp [Instr.wf, Instr.info, FmtR.info] at hw; simp [hw]) hw
    (by simp [zeroBits, Instr.info, FmtR.info, zero_encR])

theorem RoundTrip.isel (o : FmtR) : RoundTrip.Statement (.isel o) := by
  intro w hw he
  cases he
  have hd : decodeClass 0 41 (encR 0 41 o) = some (.isel o) := congrArg (some ∘ Instr.isel) (fmtR_encR 0 41 o)
  exact decode_word (head_encR 0 41 o (by decide) (by decide)) hd
    (by rw [guard_encR]; simp [Instr.wf, Instr.info, FmtR.info] at hw; simp [hw]) hw
    (by simp [zeroBits, Instr.info, FmtR.info, zero_encR])

theorem RoundTrip.iabs (o : FmtR) : RoundTrip.Statement (.iabs o) := by
  intro w hw he
  cases he
  have hd : decodeClass 0 42 (encR 0 42 o) = some (.iabs o) := congrArg (some ∘ Instr.iabs) (fmtR_encR 0 42 o)
  exact decode_word (head_encR 0 42 o (by decide) (by decide)) hd
    (by rw [guard_encR]; simp [Instr.wf, Instr.info, FmtR.info] at hw; simp [hw]) hw
    (by simp [zeroBits, Instr.info, FmtR.info, zero_encR])

theorem RoundTrip.ineg (o : FmtR) : RoundTrip.Statement (.ineg o) := by
  intro w hw he
  cases he
  have hd : decodeClass 0 43 (encR 0 43 o) = some (.ineg o) := congrArg (some ∘ Instr.ineg) (fmtR_encR 0 43 o)
  exact decode_word (head_encR 0 43 o (by decide) (by decide)) hd
    (by rw [guard_encR]; simp [Instr.wf, Instr.info, FmtR.info] at hw; simp [hw]) hw
    (by simp [zeroBits, Instr.info, FmtR.info, zero_encR])

theorem RoundTrip.fshl (o : FmtR) : RoundTrip.Statement (.fshl o) := by
  intro w hw he
  cases he
  have hd : decodeClass 0 44 (encR 0 44 o) = some (.fshl o) := congrArg (some ∘ Instr.fshl) (fmtR_encR 0 44 o)
  exact decode_word (head_encR 0 44 o (by decide) (by decide)) hd
    (by rw [guard_encR]; simp [Instr.wf, Instr.info, FmtR.info] at hw; simp [hw]) hw
    (by simp [zeroBits, Instr.info, FmtR.info, zero_encR])

theorem RoundTrip.fshr (o : FmtR) : RoundTrip.Statement (.fshr o) := by
  intro w hw he
  cases he
  have hd : decodeClass 0 45 (encR 0 45 o) = some (.fshr o) := congrArg (some ∘ Instr.fshr) (fmtR_encR 0 45 o)
  exact decode_word (head_encR 0 45 o (by decide) (by decide)) hd
    (by rw [guard_encR]; simp [Instr.wf, Instr.info, FmtR.info] at hw; simp [hw]) hw
    (by simp [zeroBits, Instr.info, FmtR.info, zero_encR])

theorem RoundTrip.popc (o : FmtR) : RoundTrip.Statement (.popc o) := by
  intro w hw he
  cases he
  have hd : decodeClass 0 46 (encR 0 46 o) = some (.popc o) := congrArg (some ∘ Instr.popc) (fmtR_encR 0 46 o)
  exact decode_word (head_encR 0 46 o (by decide) (by decide)) hd
    (by rw [guard_encR]; simp [Instr.wf, Instr.info, FmtR.info] at hw; simp [hw]) hw
    (by simp [zeroBits, Instr.info, FmtR.info, zero_encR])

theorem RoundTrip.clz (o : FmtR) : RoundTrip.Statement (.clz o) := by
  intro w hw he
  cases he
  have hd : decodeClass 0 47 (encR 0 47 o) = some (.clz o) := congrArg (some ∘ Instr.clz) (fmtR_encR 0 47 o)
  exact decode_word (head_encR 0 47 o (by decide) (by decide)) hd
    (by rw [guard_encR]; simp [Instr.wf, Instr.info, FmtR.info] at hw; simp [hw]) hw
    (by simp [zeroBits, Instr.info, FmtR.info, zero_encR])

theorem RoundTrip.brev (o : FmtR) : RoundTrip.Statement (.brev o) := by
  intro w hw he
  cases he
  have hd : decodeClass 0 48 (encR 0 48 o) = some (.brev o) := congrArg (some ∘ Instr.brev) (fmtR_encR 0 48 o)
  exact decode_word (head_encR 0 48 o (by decide) (by decide)) hd
    (by rw [guard_encR]; simp [Instr.wf, Instr.info, FmtR.info] at hw; simp [hw]) hw
    (by simp [zeroBits, Instr.info, FmtR.info, zero_encR])

theorem RoundTrip.bfx (o : FmtR) : RoundTrip.Statement (.bfx o) := by
  intro w hw he
  cases he
  have hd : decodeClass 0 49 (encR 0 49 o) = some (.bfx o) := congrArg (some ∘ Instr.bfx) (fmtR_encR 0 49 o)
  exact decode_word (head_encR 0 49 o (by decide) (by decide)) hd
    (by rw [guard_encR]; simp [Instr.wf, Instr.info, FmtR.info] at hw; simp [hw]) hw
    (by simp [zeroBits, Instr.info, FmtR.info, zero_encR])

theorem RoundTrip.bfi (o : FmtR) : RoundTrip.Statement (.bfi o) := by
  intro w hw he
  cases he
  have hd : decodeClass 0 50 (encR 0 50 o) = some (.bfi o) := congrArg (some ∘ Instr.bfi) (fmtR_encR 0 50 o)
  exact decode_word (head_encR 0 50 o (by decide) (by decide)) hd
    (by rw [guard_encR]; simp [Instr.wf, Instr.info, FmtR.info] at hw; simp [hw]) hw
    (by simp [zeroBits, Instr.info, FmtR.info, zero_encR])

theorem RoundTrip.lea (o : FmtR) : RoundTrip.Statement (.lea o) := by
  intro w hw he
  cases he
  have hd : decodeClass 0 51 (encR 0 51 o) = some (.lea o) := congrArg (some ∘ Instr.lea) (fmtR_encR 0 51 o)
  exact decode_word (head_encR 0 51 o (by decide) (by decide)) hd
    (by rw [guard_encR]; simp [Instr.wf, Instr.info, FmtR.info] at hw; simp [hw]) hw
    (by simp [zeroBits, Instr.info, FmtR.info, zero_encR])

theorem RoundTrip.fadd (o : FmtR) : RoundTrip.Statement (.fadd o) := by
  intro w hw he
  cases he
  have hd : decodeClass 0 64 (encR 0 64 o) = some (.fadd o) := congrArg (some ∘ Instr.fadd) (fmtR_encR 0 64 o)
  exact decode_word (head_encR 0 64 o (by decide) (by decide)) hd
    (by rw [guard_encR]; simp [Instr.wf, Instr.info, FmtR.info] at hw; simp [hw]) hw
    (by simp [zeroBits, Instr.info, FmtR.info, zero_encR])

theorem RoundTrip.faddImm (o : FmtI) : RoundTrip.Statement (.faddImm o) := by
  intro w hw he
  cases he
  have hd : decodeClass 0 65 (encI 0 65 o) = some (.faddImm o) := congrArg (some ∘ Instr.faddImm) (fmtI_encI 0 65 o)
  exact decode_word (head_encI 0 65 o (by decide) (by decide)) hd
    (by rw [guard_encI]; simp [Instr.wf, Instr.info, FmtI.info] at hw; simp [hw]) hw
    (by simp [zeroBits])

theorem RoundTrip.fsub (o : FmtR) : RoundTrip.Statement (.fsub o) := by
  intro w hw he
  cases he
  have hd : decodeClass 0 66 (encR 0 66 o) = some (.fsub o) := congrArg (some ∘ Instr.fsub) (fmtR_encR 0 66 o)
  exact decode_word (head_encR 0 66 o (by decide) (by decide)) hd
    (by rw [guard_encR]; simp [Instr.wf, Instr.info, FmtR.info] at hw; simp [hw]) hw
    (by simp [zeroBits, Instr.info, FmtR.info, zero_encR])

theorem RoundTrip.fsubImm (o : FmtI) : RoundTrip.Statement (.fsubImm o) := by
  intro w hw he
  cases he
  have hd : decodeClass 0 67 (encI 0 67 o) = some (.fsubImm o) := congrArg (some ∘ Instr.fsubImm) (fmtI_encI 0 67 o)
  exact decode_word (head_encI 0 67 o (by decide) (by decide)) hd
    (by rw [guard_encI]; simp [Instr.wf, Instr.info, FmtI.info] at hw; simp [hw]) hw
    (by simp [zeroBits])

theorem RoundTrip.fmul (o : FmtR) : RoundTrip.Statement (.fmul o) := by
  intro w hw he
  cases he
  have hd : decodeClass 0 68 (encR 0 68 o) = some (.fmul o) := congrArg (some ∘ Instr.fmul) (fmtR_encR 0 68 o)
  exact decode_word (head_encR 0 68 o (by decide) (by decide)) hd
    (by rw [guard_encR]; simp [Instr.wf, Instr.info, FmtR.info] at hw; simp [hw]) hw
    (by simp [zeroBits, Instr.info, FmtR.info, zero_encR])

theorem RoundTrip.fmulImm (o : FmtI) : RoundTrip.Statement (.fmulImm o) := by
  intro w hw he
  cases he
  have hd : decodeClass 0 69 (encI 0 69 o) = some (.fmulImm o) := congrArg (some ∘ Instr.fmulImm) (fmtI_encI 0 69 o)
  exact decode_word (head_encI 0 69 o (by decide) (by decide)) hd
    (by rw [guard_encI]; simp [Instr.wf, Instr.info, FmtI.info] at hw; simp [hw]) hw
    (by simp [zeroBits])

theorem RoundTrip.fmin (o : FmtR) : RoundTrip.Statement (.fmin o) := by
  intro w hw he
  cases he
  have hd : decodeClass 0 70 (encR 0 70 o) = some (.fmin o) := congrArg (some ∘ Instr.fmin) (fmtR_encR 0 70 o)
  exact decode_word (head_encR 0 70 o (by decide) (by decide)) hd
    (by rw [guard_encR]; simp [Instr.wf, Instr.info, FmtR.info] at hw; simp [hw]) hw
    (by simp [zeroBits, Instr.info, FmtR.info, zero_encR])

theorem RoundTrip.fminImm (o : FmtI) : RoundTrip.Statement (.fminImm o) := by
  intro w hw he
  cases he
  have hd : decodeClass 0 71 (encI 0 71 o) = some (.fminImm o) := congrArg (some ∘ Instr.fminImm) (fmtI_encI 0 71 o)
  exact decode_word (head_encI 0 71 o (by decide) (by decide)) hd
    (by rw [guard_encI]; simp [Instr.wf, Instr.info, FmtI.info] at hw; simp [hw]) hw
    (by simp [zeroBits])

theorem RoundTrip.fmax (o : FmtR) : RoundTrip.Statement (.fmax o) := by
  intro w hw he
  cases he
  have hd : decodeClass 0 72 (encR 0 72 o) = some (.fmax o) := congrArg (some ∘ Instr.fmax) (fmtR_encR 0 72 o)
  exact decode_word (head_encR 0 72 o (by decide) (by decide)) hd
    (by rw [guard_encR]; simp [Instr.wf, Instr.info, FmtR.info] at hw; simp [hw]) hw
    (by simp [zeroBits, Instr.info, FmtR.info, zero_encR])

theorem RoundTrip.fmaxImm (o : FmtI) : RoundTrip.Statement (.fmaxImm o) := by
  intro w hw he
  cases he
  have hd : decodeClass 0 73 (encI 0 73 o) = some (.fmaxImm o) := congrArg (some ∘ Instr.fmaxImm) (fmtI_encI 0 73 o)
  exact decode_word (head_encI 0 73 o (by decide) (by decide)) hd
    (by rw [guard_encI]; simp [Instr.wf, Instr.info, FmtI.info] at hw; simp [hw]) hw
    (by simp [zeroBits])

theorem RoundTrip.fcmp (o : FmtR) : RoundTrip.Statement (.fcmp o) := by
  intro w hw he
  cases he
  have hd : decodeClass 0 74 (encR 0 74 o) = some (.fcmp o) := congrArg (some ∘ Instr.fcmp) (fmtR_encR 0 74 o)
  exact decode_word (head_encR 0 74 o (by decide) (by decide)) hd
    (by rw [guard_encR]; simp [Instr.wf, Instr.info, FmtR.info] at hw; simp [hw]) hw
    (by simp [zeroBits, Instr.info, FmtR.info, zero_encR])

theorem RoundTrip.fcmpImm (o : FmtI) : RoundTrip.Statement (.fcmpImm o) := by
  intro w hw he
  cases he
  have hd : decodeClass 0 75 (encI 0 75 o) = some (.fcmpImm o) := congrArg (some ∘ Instr.fcmpImm) (fmtI_encI 0 75 o)
  exact decode_word (head_encI 0 75 o (by decide) (by decide)) hd
    (by rw [guard_encI]; simp [Instr.wf, Instr.info, FmtI.info] at hw; simp [hw]) hw
    (by simp [zeroBits])

theorem RoundTrip.ffma (o : FmtR) : RoundTrip.Statement (.ffma o) := by
  intro w hw he
  cases he
  have hd : decodeClass 0 76 (encR 0 76 o) = some (.ffma o) := congrArg (some ∘ Instr.ffma) (fmtR_encR 0 76 o)
  exact decode_word (head_encR 0 76 o (by decide) (by decide)) hd
    (by rw [guard_encR]; simp [Instr.wf, Instr.info, FmtR.info] at hw; simp [hw]) hw
    (by simp [zeroBits, Instr.info, FmtR.info, zero_encR])

theorem RoundTrip.fabs (o : FmtR) : RoundTrip.Statement (.fabs o) := by
  intro w hw he
  cases he
  have hd : decodeClass 0 77 (encR 0 77 o) = some (.fabs o) := congrArg (some ∘ Instr.fabs) (fmtR_encR 0 77 o)
  exact decode_word (head_encR 0 77 o (by decide) (by decide)) hd
    (by rw [guard_encR]; simp [Instr.wf, Instr.info, FmtR.info] at hw; simp [hw]) hw
    (by simp [zeroBits, Instr.info, FmtR.info, zero_encR])

theorem RoundTrip.fneg (o : FmtR) : RoundTrip.Statement (.fneg o) := by
  intro w hw he
  cases he
  have hd : decodeClass 0 78 (encR 0 78 o) = some (.fneg o) := congrArg (some ∘ Instr.fneg) (fmtR_encR 0 78 o)
  exact decode_word (head_encR 0 78 o (by decide) (by decide)) hd
    (by rw [guard_encR]; simp [Instr.wf, Instr.info, FmtR.info] at hw; simp [hw]) hw
    (by simp [zeroBits, Instr.info, FmtR.info, zero_encR])

theorem RoundTrip.fclass (o : FmtR) : RoundTrip.Statement (.fclass o) := by
  intro w hw he
  cases he
  have hd : decodeClass 0 79 (encR 0 79 o) = some (.fclass o) := congrArg (some ∘ Instr.fclass) (fmtR_encR 0 79 o)
  exact decode_word (head_encR 0 79 o (by decide) (by decide)) hd
    (by rw [guard_encR]; simp [Instr.wf, Instr.info, FmtR.info] at hw; simp [hw]) hw
    (by simp [zeroBits, Instr.info, FmtR.info, zero_encR])

theorem RoundTrip.frnd (o : FmtR) : RoundTrip.Statement (.frnd o) := by
  intro w hw he
  cases he
  have hd : decodeClass 0 80 (encR 0 80 o) = some (.frnd o) := congrArg (some ∘ Instr.frnd) (fmtR_encR 0 80 o)
  exact decode_word (head_encR 0 80 o (by decide) (by decide)) hd
    (by rw [guard_encR]; simp [Instr.wf, Instr.info, FmtR.info] at hw; simp [hw]) hw
    (by simp [zeroBits, Instr.info, FmtR.info, zero_encR])

theorem RoundTrip.fmaxa (o : FmtR) : RoundTrip.Statement (.fmaxa o) := by
  intro w hw he
  cases he
  have hd : decodeClass 0 81 (encR 0 81 o) = some (.fmaxa o) := congrArg (some ∘ Instr.fmaxa) (fmtR_encR 0 81 o)
  exact decode_word (head_encR 0 81 o (by decide) (by decide)) hd
    (by rw [guard_encR]; simp [Instr.wf, Instr.info, FmtR.info] at hw; simp [hw]) hw
    (by simp [zeroBits, Instr.info, FmtR.info, zero_encR])

theorem RoundTrip.hadd2 (o : FmtR) : RoundTrip.Statement (.hadd2 o) := by
  intro w hw he
  cases he
  have hd : decodeClass 0 82 (encR 0 82 o) = some (.hadd2 o) := congrArg (some ∘ Instr.hadd2) (fmtR_encR 0 82 o)
  exact decode_word (head_encR 0 82 o (by decide) (by decide)) hd
    (by rw [guard_encR]; simp [Instr.wf, Instr.info, FmtR.info] at hw; simp [hw]) hw
    (by simp [zeroBits, Instr.info, FmtR.info, zero_encR])

theorem RoundTrip.hmul2 (o : FmtR) : RoundTrip.Statement (.hmul2 o) := by
  intro w hw he
  cases he
  have hd : decodeClass 0 83 (encR 0 83 o) = some (.hmul2 o) := congrArg (some ∘ Instr.hmul2) (fmtR_encR 0 83 o)
  exact decode_word (head_encR 0 83 o (by decide) (by decide)) hd
    (by rw [guard_encR]; simp [Instr.wf, Instr.info, FmtR.info] at hw; simp [hw]) hw
    (by simp [zeroBits, Instr.info, FmtR.info, zero_encR])

theorem RoundTrip.hfma2 (o : FmtR) : RoundTrip.Statement (.hfma2 o) := by
  intro w hw he
  cases he
  have hd : decodeClass 0 84 (encR 0 84 o) = some (.hfma2 o) := congrArg (some ∘ Instr.hfma2) (fmtR_encR 0 84 o)
  exact decode_word (head_encR 0 84 o (by decide) (by decide)) hd
    (by rw [guard_encR]; simp [Instr.wf, Instr.info, FmtR.info] at hw; simp [hw]) hw
    (by simp [zeroBits, Instr.info, FmtR.info, zero_encR])

theorem RoundTrip.hmax2 (o : FmtR) : RoundTrip.Statement (.hmax2 o) := by
  intro w hw he
  cases he
  have hd : decodeClass 0 85 (encR 0 85 o) = some (.hmax2 o) := congrArg (some ∘ Instr.hmax2) (fmtR_encR 0 85 o)
  exact decode_word (head_encR 0 85 o (by decide) (by decide)) hd
    (by rw [guard_encR]; simp [Instr.wf, Instr.info, FmtR.info] at hw; simp [hw]) hw
    (by simp [zeroBits, Instr.info, FmtR.info, zero_encR])

theorem RoundTrip.cvt (o : FmtV) : RoundTrip.Statement (.cvt o) := by
  intro w hw he
  cases he
  have hd : decodeClass 0 88 (encV 0 88 o) = some (.cvt o) := congrArg (some ∘ Instr.cvt) (fmtV_encV 0 88 o)
  exact decode_word (head_encV 0 88 o (by decide) (by decide)) hd
    (by rw [guard_encV]; simp [Instr.wf, Instr.info, FmtV.info] at hw; simp [hw]) hw
    (by simp [zeroBits, zero_encV])

theorem RoundTrip.f8cv (o : FmtR) : RoundTrip.Statement (.f8cv o) := by
  intro w hw he
  cases he
  have hd : decodeClass 0 89 (encR 0 89 o) = some (.f8cv o) := congrArg (some ∘ Instr.f8cv) (fmtR_encR 0 89 o)
  exact decode_word (head_encR 0 89 o (by decide) (by decide)) hd
    (by rw [guard_encR]; simp [Instr.wf, Instr.info, FmtR.info] at hw; simp [hw]) hw
    (by simp [zeroBits, Instr.info, FmtR.info, zero_encR])

theorem RoundTrip.f8up (o : FmtR) : RoundTrip.Statement (.f8up o) := by
  intro w hw he
  cases he
  have hd : decodeClass 0 90 (encR 0 90 o) = some (.f8up o) := congrArg (some ∘ Instr.f8up) (fmtR_encR 0 90 o)
  exact decode_word (head_encR 0 90 o (by decide) (by decide)) hd
    (by rw [guard_encR]; simp [Instr.wf, Instr.info, FmtR.info] at hw; simp [hw]) hw
    (by simp [zeroBits, Instr.info, FmtR.info, zero_encR])

theorem RoundTrip.lshuf (o : FmtR) : RoundTrip.Statement (.lshuf o) := by
  intro w hw he
  cases he
  have hd : decodeClass 0 96 (encR 0 96 o) = some (.lshuf o) := congrArg (some ∘ Instr.lshuf) (fmtR_encR 0 96 o)
  exact decode_word (head_encR 0 96 o (by decide) (by decide)) hd
    (by rw [guard_encR]; simp [Instr.wf, Instr.info, FmtR.info] at hw; simp [hw]) hw
    (by simp [zeroBits, Instr.info, FmtR.info, zero_encR])

theorem RoundTrip.lxor (o : FmtR) : RoundTrip.Statement (.lxor o) := by
  intro w hw he
  cases he
  have hd : decodeClass 0 97 (encR 0 97 o) = some (.lxor o) := congrArg (some ∘ Instr.lxor) (fmtR_encR 0 97 o)
  exact decode_word (head_encR 0 97 o (by decide) (by decide)) hd
    (by rw [guard_encR]; simp [Instr.wf, Instr.info, FmtR.info] at hw; simp [hw]) hw
    (by simp [zeroBits, Instr.info, FmtR.info, zero_encR])

theorem RoundTrip.lrotw (o : FmtR) : RoundTrip.Statement (.lrotw o) := by
  intro w hw he
  cases he
  have hd : decodeClass 0 98 (encR 0 98 o) = some (.lrotw o) := congrArg (some ∘ Instr.lrotw) (fmtR_encR 0 98 o)
  exact decode_word (head_encR 0 98 o (by decide) (by decide)) hd
    (by rw [guard_encR]; simp [Instr.wf, Instr.info, FmtR.info] at hw; simp [hw]) hw
    (by simp [zeroBits, Instr.info, FmtR.info, zero_encR])

theorem RoundTrip.lred (o : FmtR) : RoundTrip.Statement (.lred o) := by
  intro w hw he
  cases he
  have hd : decodeClass 0 99 (encR 0 99 o) = some (.lred o) := congrArg (some ∘ Instr.lred) (fmtR_encR 0 99 o)
  exact decode_word (head_encR 0 99 o (by decide) (by decide)) hd
    (by rw [guard_encR]; simp [Instr.wf, Instr.info, FmtR.info] at hw; simp [hw]) hw
    (by simp [zeroBits, Instr.info, FmtR.info, zero_encR])

theorem RoundTrip.lscan (o : FmtR) : RoundTrip.Statement (.lscan o) := by
  intro w hw he
  cases he
  have hd : decodeClass 0 100 (encR 0 100 o) = some (.lscan o) := congrArg (some ∘ Instr.lscan) (fmtR_encR 0 100 o)
  exact decode_word (head_encR 0 100 o (by decide) (by decide)) hd
    (by rw [guard_encR]; simp [Instr.wf, Instr.info, FmtR.info] at hw; simp [hw]) hw
    (by simp [zeroBits, Instr.info, FmtR.info, zero_encR])

theorem RoundTrip.ballot (o : FmtR) : RoundTrip.Statement (.ballot o) := by
  intro w hw he
  cases he
  have hd : decodeClass 0 101 (encR 0 101 o) = some (.ballot o) := congrArg (some ∘ Instr.ballot) (fmtR_encR 0 101 o)
  exact decode_word (head_encR 0 101 o (by decide) (by decide)) hd
    (by rw [guard_encR]; simp [Instr.wf, Instr.info, FmtR.info] at hw; simp [hw]) hw
    (by simp [zeroBits, Instr.info, FmtR.info, zero_encR])

theorem RoundTrip.matchKey (o : FmtR) : RoundTrip.Statement (.matchKey o) := by
  intro w hw he
  cases he
  have hd : decodeClass 0 102 (encR 0 102 o) = some (.matchKey o) := congrArg (some ∘ Instr.matchKey) (fmtR_encR 0 102 o)
  exact decode_word (head_encR 0 102 o (by decide) (by decide)) hd
    (by rw [guard_encR]; simp [Instr.wf, Instr.info, FmtR.info] at hw; simp [hw]) hw
    (by simp [zeroBits, Instr.info, FmtR.info, zero_encR])

theorem RoundTrip.matchn (o : FmtR) : RoundTrip.Statement (.matchn o) := by
  intro w hw he
  cases he
  have hd : decodeClass 0 103 (encR 0 103 o) = some (.matchn o) := congrArg (some ∘ Instr.matchn) (fmtR_encR 0 103 o)
  exact decode_word (head_encR 0 103 o (by decide) (by decide)) hd
    (by rw [guard_encR]; simp [Instr.wf, Instr.info, FmtR.info] at hw; simp [hw]) hw
    (by simp [zeroBits, Instr.info, FmtR.info, zero_encR])

theorem RoundTrip.tbl (o : FmtR) : RoundTrip.Statement (.tbl o) := by
  intro w hw he
  cases he
  have hd : decodeClass 0 104 (encR 0 104 o) = some (.tbl o) := congrArg (some ∘ Instr.tbl) (fmtR_encR 0 104 o)
  exact decode_word (head_encR 0 104 o (by decide) (by decide)) hd
    (by rw [guard_encR]; simp [Instr.wf, Instr.info, FmtR.info] at hw; simp [hw]) hw
    (by simp [zeroBits, Instr.info, FmtR.info, zero_encR])

theorem RoundTrip.elect (o : FmtR) : RoundTrip.Statement (.elect o) := by
  intro w hw he
  cases he
  have hd : decodeClass 0 105 (encR 0 105 o) = some (.elect o) := congrArg (some ∘ Instr.elect) (fmtR_encR 0 105 o)
  exact decode_word (head_encR 0 105 o (by decide) (by decide)) hd
    (by rw [guard_encR]; simp [Instr.wf, Instr.info, FmtR.info] at hw; simp [hw]) hw
    (by simp [zeroBits, Instr.info, FmtR.info, zero_encR])

theorem RoundTrip.bra (o : FmtB) : RoundTrip.Statement (.bra o) := by
  intro w hw he
  cases he
  have hd : decodeClass 0 112 (encB 0 112 o) = some (.bra o) := congrArg (some ∘ Instr.bra) (fmtB_encB 0 112 o)
  exact decode_word (head_encB 0 112 o (by decide) (by decide)) hd
    (by rw [guard_encB]; simp [Instr.wf, Instr.info, FmtB.info] at hw; simp [hw]) hw
    (by simp [zeroBits, zero_encB])

theorem RoundTrip.jmp (o : FmtB) : RoundTrip.Statement (.jmp o) := by
  intro w hw he
  cases he
  have hd : decodeClass 0 113 (encB 0 113 o) = some (.jmp o) := congrArg (some ∘ Instr.jmp) (fmtB_encB 0 113 o)
  exact decode_word (head_encB 0 113 o (by decide) (by decide)) hd
    (by rw [guard_encB]; simp [Instr.wf, Instr.info, FmtB.info] at hw; simp [hw]) hw
    (by simp [zeroBits, zero_encB])

theorem RoundTrip.call (o : FmtB) : RoundTrip.Statement (.call o) := by
  intro w hw he
  cases he
  have hd : decodeClass 0 114 (encB 0 114 o) = some (.call o) := congrArg (some ∘ Instr.call) (fmtB_encB 0 114 o)
  exact decode_word (head_encB 0 114 o (by decide) (by decide)) hd
    (by rw [guard_encB]; simp [Instr.wf, Instr.info, FmtB.info] at hw; simp [hw]) hw
    (by simp [zeroBits, zero_encB])

theorem RoundTrip.ret (o : FmtB) : RoundTrip.Statement (.ret o) := by
  intro w hw he
  cases he
  have hd : decodeClass 0 115 (encB 0 115 o) = some (.ret o) := congrArg (some ∘ Instr.ret) (fmtB_encB 0 115 o)
  exact decode_word (head_encB 0 115 o (by decide) (by decide)) hd
    (by rw [guard_encB]; simp [Instr.wf, Instr.info, FmtB.info] at hw; simp [hw]) hw
    (by simp [zeroBits, zero_encB])

theorem RoundTrip.exit (o : FmtB) : RoundTrip.Statement (.exit o) := by
  intro w hw he
  cases he
  have hd : decodeClass 0 116 (encB 0 116 o) = some (.exit o) := congrArg (some ∘ Instr.exit) (fmtB_encB 0 116 o)
  exact decode_word (head_encB 0 116 o (by decide) (by decide)) hd
    (by rw [guard_encB]; simp [Instr.wf, Instr.info, FmtB.info] at hw; simp [hw]) hw
    (by simp [zeroBits, zero_encB])

theorem RoundTrip.trap (o : FmtB) : RoundTrip.Statement (.trap o) := by
  intro w hw he
  cases he
  have hd : decodeClass 0 117 (encB 0 117 o) = some (.trap o) := congrArg (some ∘ Instr.trap) (fmtB_encB 0 117 o)
  exact decode_word (head_encB 0 117 o (by decide) (by decide)) hd
    (by rw [guard_encB]; simp [Instr.wf, Instr.info, FmtB.info] at hw; simp [hw]) hw
    (by simp [zeroBits, zero_encB])

theorem RoundTrip.rcp (o : FmtR) : RoundTrip.Statement (.rcp o) := by
  intro w hw he
  cases he
  have hd : decodeClass 1 0 (encR 1 0 o) = some (.rcp o) := congrArg (some ∘ Instr.rcp) (fmtR_encR 1 0 o)
  exact decode_word (head_encR 1 0 o (by decide) (by decide)) hd
    (by rw [guard_encR]; simp [Instr.wf, Instr.info, FmtR.info] at hw; simp [hw]) hw
    (by simp [zeroBits, Instr.info, FmtR.info, zero_encR])

theorem RoundTrip.rsq (o : FmtR) : RoundTrip.Statement (.rsq o) := by
  intro w hw he
  cases he
  have hd : decodeClass 1 1 (encR 1 1 o) = some (.rsq o) := congrArg (some ∘ Instr.rsq) (fmtR_encR 1 1 o)
  exact decode_word (head_encR 1 1 o (by decide) (by decide)) hd
    (by rw [guard_encR]; simp [Instr.wf, Instr.info, FmtR.info] at hw; simp [hw]) hw
    (by simp [zeroBits, Instr.info, FmtR.info, zero_encR])

theorem RoundTrip.sqrt (o : FmtR) : RoundTrip.Statement (.sqrt o) := by
  intro w hw he
  cases he
  have hd : decodeClass 1 2 (encR 1 2 o) = some (.sqrt o) := congrArg (some ∘ Instr.sqrt) (fmtR_encR 1 2 o)
  exact decode_word (head_encR 1 2 o (by decide) (by decide)) hd
    (by rw [guard_encR]; simp [Instr.wf, Instr.info, FmtR.info] at hw; simp [hw]) hw
    (by simp [zeroBits, Instr.info, FmtR.info, zero_encR])

theorem RoundTrip.div (o : FmtR) : RoundTrip.Statement (.div o) := by
  intro w hw he
  cases he
  have hd : decodeClass 1 3 (encR 1 3 o) = some (.div o) := congrArg (some ∘ Instr.div) (fmtR_encR 1 3 o)
  exact decode_word (head_encR 1 3 o (by decide) (by decide)) hd
    (by rw [guard_encR]; simp [Instr.wf, Instr.info, FmtR.info] at hw; simp [hw]) hw
    (by simp [zeroBits, Instr.info, FmtR.info, zero_encR])

theorem RoundTrip.exp2 (o : FmtR) : RoundTrip.Statement (.exp2 o) := by
  intro w hw he
  cases he
  have hd : decodeClass 1 4 (encR 1 4 o) = some (.exp2 o) := congrArg (some ∘ Instr.exp2) (fmtR_encR 1 4 o)
  exact decode_word (head_encR 1 4 o (by decide) (by decide)) hd
    (by rw [guard_encR]; simp [Instr.wf, Instr.info, FmtR.info] at hw; simp [hw]) hw
    (by simp [zeroBits, Instr.info, FmtR.info, zero_encR])

theorem RoundTrip.log2 (o : FmtR) : RoundTrip.Statement (.log2 o) := by
  intro w hw he
  cases he
  have hd : decodeClass 1 5 (encR 1 5 o) = some (.log2 o) := congrArg (some ∘ Instr.log2) (fmtR_encR 1 5 o)
  exact decode_word (head_encR 1 5 o (by decide) (by decide)) hd
    (by rw [guard_encR]; simp [Instr.wf, Instr.info, FmtR.info] at hw; simp [hw]) hw
    (by simp [zeroBits, Instr.info, FmtR.info, zero_encR])

theorem RoundTrip.sinp (o : FmtR) : RoundTrip.Statement (.sinp o) := by
  intro w hw he
  cases he
  have hd : decodeClass 1 6 (encR 1 6 o) = some (.sinp o) := congrArg (some ∘ Instr.sinp) (fmtR_encR 1 6 o)
  exact decode_word (head_encR 1 6 o (by decide) (by decide)) hd
    (by rw [guard_encR]; simp [Instr.wf, Instr.info, FmtR.info] at hw; simp [hw]) hw
    (by simp [zeroBits, Instr.info, FmtR.info, zero_encR])

theorem RoundTrip.cosp (o : FmtR) : RoundTrip.Statement (.cosp o) := by
  intro w hw he
  cases he
  have hd : decodeClass 1 7 (encR 1 7 o) = some (.cosp o) := congrArg (some ∘ Instr.cosp) (fmtR_encR 1 7 o)
  exact decode_word (head_encR 1 7 o (by decide) (by decide)) hd
    (by rw [guard_encR]; simp [Instr.wf, Instr.info, FmtR.info] at hw; simp [hw]) hw
    (by simp [zeroBits, Instr.info, FmtR.info, zero_encR])

theorem RoundTrip.tanh (o : FmtR) : RoundTrip.Statement (.tanh o) := by
  intro w hw he
  cases he
  have hd : decodeClass 1 8 (encR 1 8 o) = some (.tanh o) := congrArg (some ∘ Instr.tanh) (fmtR_encR 1 8 o)
  exact decode_word (head_encR 1 8 o (by decide) (by decide)) hd
    (by rw [guard_encR]; simp [Instr.wf, Instr.info, FmtR.info] at hw; simp [hw]) hw
    (by simp [zeroBits, Instr.info, FmtR.info, zero_encR])

theorem RoundTrip.sigm (o : FmtR) : RoundTrip.Statement (.sigm o) := by
  intro w hw he
  cases he
  have hd : decodeClass 1 9 (encR 1 9 o) = some (.sigm o) := congrArg (some ∘ Instr.sigm) (fmtR_encR 1 9 o)
  exact decode_word (head_encR 1 9 o (by decide) (by decide)) hd
    (by rw [guard_encR]; simp [Instr.wf, Instr.info, FmtR.info] at hw; simp [hw]) hw
    (by simp [zeroBits, Instr.info, FmtR.info, zero_encR])

theorem RoundTrip.idiv (o : FmtR) : RoundTrip.Statement (.idiv o) := by
  intro w hw he
  cases he
  have hd : decodeClass 1 10 (encR 1 10 o) = some (.idiv o) := congrArg (some ∘ Instr.idiv) (fmtR_encR 1 10 o)
  exact decode_word (head_encR 1 10 o (by decide) (by decide)) hd
    (by rw [guard_encR]; simp [Instr.wf, Instr.info, FmtR.info] at hw; simp [hw]) hw
    (by simp [zeroBits, Instr.info, FmtR.info, zero_encR])

theorem RoundTrip.irem (o : FmtR) : RoundTrip.Statement (.irem o) := by
  intro w hw he
  cases he
  have hd : decodeClass 1 11 (encR 1 11 o) = some (.irem o) := congrArg (some ∘ Instr.irem) (fmtR_encR 1 11 o)
  exact decode_word (head_encR 1 11 o (by decide) (by decide)) hd
    (by rw [guard_encR]; simp [Instr.wf, Instr.info, FmtR.info] at hw; simp [hw]) hw
    (by simp [zeroBits, Instr.info, FmtR.info, zero_encR])

theorem RoundTrip.ldb (o : FmtM) : RoundTrip.Statement (.ldb o) := by
  intro w hw he
  cases he
  have hd : decodeClass 2 0 (encM 2 0 o) = some (.ldb o) := congrArg (some ∘ Instr.ldb) (fmtM_encM 2 0 o)
  exact decode_word (head_encM 2 0 o (by decide) (by decide)) hd
    (by rw [guard_encM]; simp [Instr.wf, Instr.info, FmtM.info] at hw; simp [hw]) hw
    (by simp [zeroBits])

theorem RoundTrip.stb (o : FmtM) : RoundTrip.Statement (.stb o) := by
  intro w hw he
  cases he
  have hd : decodeClass 2 1 (encM 2 1 o) = some (.stb o) := congrArg (some ∘ Instr.stb) (fmtM_encM 2 1 o)
  exact decode_word (head_encM 2 1 o (by decide) (by decide)) hd
    (by rw [guard_encM]; simp [Instr.wf, Instr.info, FmtM.info] at hw; simp [hw]) hw
    (by simp [zeroBits])

theorem RoundTrip.ldd (o : FmtM) : RoundTrip.Statement (.ldd o) := by
  intro w hw he
  cases he
  have hd : decodeClass 2 2 (encM 2 2 o) = some (.ldd o) := congrArg (some ∘ Instr.ldd) (fmtM_encM 2 2 o)
  exact decode_word (head_encM 2 2 o (by decide) (by decide)) hd
    (by rw [guard_encM]; simp [Instr.wf, Instr.info, FmtM.info] at hw; simp [hw]) hw
    (by simp [zeroBits])

theorem RoundTrip.std (o : FmtM) : RoundTrip.Statement (.std o) := by
  intro w hw he
  cases he
  have hd : decodeClass 2 3 (encM 2 3 o) = some (.std o) := congrArg (some ∘ Instr.std) (fmtM_encM 2 3 o)
  exact decode_word (head_encM 2 3 o (by decide) (by decide)) hd
    (by rw [guard_encM]; simp [Instr.wf, Instr.info, FmtM.info] at hw; simp [hw]) hw
    (by simp [zeroBits])

theorem RoundTrip.ldk (o : FmtM) : RoundTrip.Statement (.ldk o) := by
  intro w hw he
  cases he
  have hd : decodeClass 2 4 (encM 2 4 o) = some (.ldk o) := congrArg (some ∘ Instr.ldk) (fmtM_encM 2 4 o)
  exact decode_word (head_encM 2 4 o (by decide) (by decide)) hd
    (by rw [guard_encM]; simp [Instr.wf, Instr.info, FmtM.info] at hw; simp [hw]) hw
    (by simp [zeroBits])

theorem RoundTrip.stk (o : FmtM) : RoundTrip.Statement (.stk o) := by
  intro w hw he
  cases he
  have hd : decodeClass 2 5 (encM 2 5 o) = some (.stk o) := congrArg (some ∘ Instr.stk) (fmtM_encM 2 5 o)
  exact decode_word (head_encM 2 5 o (by decide) (by decide)) hd
    (by rw [guard_encM]; simp [Instr.wf, Instr.info, FmtM.info] at hw; simp [hw]) hw
    (by simp [zeroBits])

theorem RoundTrip.atom (o : FmtA) : RoundTrip.Statement (.atom o) := by
  intro w hw he
  cases he
  have hd : decodeClass 2 6 (encA 2 6 o) = some (.atom o) := congrArg (some ∘ Instr.atom) (fmtA_encA 2 6 o)
  exact decode_word (head_encA 2 6 o (by decide) (by decide)) hd
    (by rw [guard_encA]; simp [Instr.wf, Instr.info, FmtA.info] at hw; simp [hw]) hw
    (by simp [zeroBits, zero_encA])

theorem RoundTrip.red (o : FmtA) : RoundTrip.Statement (.red o) := by
  intro w hw he
  cases he
  have hd : decodeClass 2 7 (encA 2 7 o) = some (.red o) := congrArg (some ∘ Instr.red) (fmtA_encA 2 7 o)
  exact decode_word (head_encA 2 7 o (by decide) (by decide)) hd
    (by rw [guard_encA]; simp [Instr.wf, Instr.info, FmtA.info] at hw; simp [hw]) hw
    (by simp [zeroBits, zero_encA])

theorem RoundTrip.waitv (o : FmtA) : RoundTrip.Statement (.waitv o) := by
  intro w hw he
  cases he
  have hd : decodeClass 2 8 (encA 2 8 o) = some (.waitv o) := congrArg (some ∘ Instr.waitv) (fmtA_encA 2 8 o)
  exact decode_word (head_encA 2 8 o (by decide) (by decide)) hd
    (by rw [guard_encA]; simp [Instr.wf, Instr.info, FmtA.info] at hw; simp [hw]) hw
    (by simp [zeroBits, zero_encA])

theorem RoundTrip.note (o : FmtA) : RoundTrip.Statement (.note o) := by
  intro w hw he
  cases he
  have hd : decodeClass 2 9 (encA 2 9 o) = some (.note o) := congrArg (some ∘ Instr.note) (fmtA_encA 2 9 o)
  exact decode_word (head_encA 2 9 o (by decide) (by decide)) hd
    (by rw [guard_encA]; simp [Instr.wf, Instr.info, FmtA.info] at hw; simp [hw]) hw
    (by simp [zeroBits, zero_encA])

theorem RoundTrip.phase (o : FmtR) : RoundTrip.Statement (.phase o) := by
  intro w hw he
  cases he
  have hd : decodeClass 2 10 (encR 2 10 o) = some (.phase o) := congrArg (some ∘ Instr.phase) (fmtR_encR 2 10 o)
  exact decode_word (head_encR 2 10 o (by decide) (by decide)) hd
    (by rw [guard_encR]; simp [Instr.wf, Instr.info, FmtR.info] at hw; simp [hw]) hw
    (by simp [zeroBits, Instr.info, FmtR.info, zero_encR])

theorem RoundTrip.fence (o : FmtR) : RoundTrip.Statement (.fence o) := by
  intro w hw he
  cases he
  have hd : decodeClass 2 11 (encR 2 11 o) = some (.fence o) := congrArg (some ∘ Instr.fence) (fmtR_encR 2 11 o)
  exact decode_word (head_encR 2 11 o (by decide) (by decide)) hd
    (by rw [guard_encR]; simp [Instr.wf, Instr.info, FmtR.info] at hw; simp [hw]) hw
    (by simp [zeroBits, Instr.info, FmtR.info, zero_encR])

theorem RoundTrip.regb (o : FmtB) : RoundTrip.Statement (.regb o) := by
  intro w hw he
  cases he
  have hd : decodeClass 2 12 (encB 2 12 o) = some (.regb o) := congrArg (some ∘ Instr.regb) (fmtB_encB 2 12 o)
  exact decode_word (head_encB 2 12 o (by decide) (by decide)) hd
    (by rw [guard_encB]; simp [Instr.wf, Instr.info, FmtB.info] at hw; simp [hw]) hw
    (by simp [zeroBits, zero_encB])

theorem RoundTrip.rege (o : FmtR) : RoundTrip.Statement (.rege o) := by
  intro w hw he
  cases he
  have hd : decodeClass 2 13 (encR 2 13 o) = some (.rege o) := congrArg (some ∘ Instr.rege) (fmtR_encR 2 13 o)
  exact decode_word (head_encR 2 13 o (by decide) (by decide)) hd
    (by rw [guard_encR]; simp [Instr.wf, Instr.info, FmtR.info] at hw; simp [hw]) hw
    (by simp [zeroBits, Instr.info, FmtR.info, zero_encR])

theorem RoundTrip.regx (o : FmtR) : RoundTrip.Statement (.regx o) := by
  intro w hw he
  cases he
  have hd : decodeClass 2 14 (encR 2 14 o) = some (.regx o) := congrArg (some ∘ Instr.regx) (fmtR_encR 2 14 o)
  exact decode_word (head_encR 2 14 o (by decide) (by decide)) hd
    (by rw [guard_encR]; simp [Instr.wf, Instr.info, FmtR.info] at hw; simp [hw]) hw
    (by simp [zeroBits, Instr.info, FmtR.info, zero_encR])

theorem RoundTrip.regq (o : FmtR) : RoundTrip.Statement (.regq o) := by
  intro w hw he
  cases he
  have hd : decodeClass 2 15 (encR 2 15 o) = some (.regq o) := congrArg (some ∘ Instr.regq) (fmtR_encR 2 15 o)
  exact decode_word (head_encR 2 15 o (by decide) (by decide)) hd
    (by rw [guard_encR]; simp [Instr.wf, Instr.info, FmtR.info] at hw; simp [hw]) hw
    (by simp [zeroBits, Instr.info, FmtR.info, zero_encR])

theorem RoundTrip.fltm (o : FmtR) : RoundTrip.Statement (.fltm o) := by
  intro w hw he
  cases he
  have hd : decodeClass 2 16 (encR 2 16 o) = some (.fltm o) := by
    simp [Instr.wf, Instr.info, FmtR.info] at hw
    simp [decodeClass, decodeLds, fmtR_encR]
    omega
  exact decode_word (head_encR 2 16 o (by decide) (by decide)) hd
    (by rw [guard_encR]; simp [Instr.wf, Instr.info, FmtR.info] at hw; simp [hw]) hw
    (by simp [zeroBits, Instr.info, FmtR.info, zero_encR])

theorem RoundTrip.fltmClr (o : FmtR) : RoundTrip.Statement (.fltmClr o) := by
  intro w hw he
  cases he
  have hd : decodeClass 2 16 (encR 2 16 o) = some (.fltmClr o) := by
    simp [Instr.wf, Instr.info, FmtR.info] at hw
    simp [decodeClass, decodeLds, fmtR_encR]
    simp_all
  exact decode_word (head_encR 2 16 o (by decide) (by decide)) hd
    (by rw [guard_encR]; simp [Instr.wf, Instr.info, FmtR.info] at hw; simp [hw]) hw
    (by simp [zeroBits, Instr.info, FmtR.info, zero_encR])

theorem RoundTrip.cpyin (o : FmtC) : RoundTrip.Statement (.cpyin o) := by
  intro w hw he
  cases he
  have hd : decodeClass 3 0 (encC 3 0 o) = some (.cpyin o) := congrArg (some ∘ Instr.cpyin) (fmtC_encC 3 0 o)
  exact decode_word (head_encC 3 0 o (by decide) (by decide)) hd
    (by rw [guard_encC]; simp [Instr.wf, Instr.info, FmtC.info] at hw; simp [hw]) hw
    (by simp [zeroBits, Instr.info, FmtC.info])

theorem RoundTrip.cpyout (o : FmtC) : RoundTrip.Statement (.cpyout o) := by
  intro w hw he
  cases he
  have hd : decodeClass 3 1 (encC 3 1 o) = some (.cpyout o) := congrArg (some ∘ Instr.cpyout) (fmtC_encC 3 1 o)
  exact decode_word (head_encC 3 1 o (by decide) (by decide)) hd
    (by rw [guard_encC]; simp [Instr.wf, Instr.info, FmtC.info] at hw; simp [hw]) hw
    (by simp [zeroBits, Instr.info, FmtC.info])

theorem RoundTrip.cpyg (o : FmtC) : RoundTrip.Statement (.cpyg o) := by
  intro w hw he
  cases he
  have hd : decodeClass 3 2 (encC 3 2 o) = some (.cpyg o) := congrArg (some ∘ Instr.cpyg) (fmtC_encC 3 2 o)
  exact decode_word (head_encC 3 2 o (by decide) (by decide)) hd
    (by rw [guard_encC]; simp [Instr.wf, Instr.info, FmtC.info] at hw; simp [hw]) hw
    (by simp [zeroBits, Instr.info, FmtC.info])

theorem RoundTrip.cpys (o : FmtC) : RoundTrip.Statement (.cpys o) := by
  intro w hw he
  cases he
  have hd : decodeClass 3 3 (encC 3 3 o) = some (.cpys o) := congrArg (some ∘ Instr.cpys) (fmtC_encC 3 3 o)
  exact decode_word (head_encC 3 3 o (by decide) (by decide)) hd
    (by rw [guard_encC]; simp [Instr.wf, Instr.info, FmtC.info] at hw; simp [hw]) hw
    (by simp [zeroBits, Instr.info, FmtC.info])

theorem RoundTrip.cpyd (o : FmtC) : RoundTrip.Statement (.cpyd o) := by
  intro w hw he
  cases he
  have hd : decodeClass 3 4 (encC 3 4 o) = some (.cpyd o) := congrArg (some ∘ Instr.cpyd) (fmtC_encC 3 4 o)
  exact decode_word (head_encC 3 4 o (by decide) (by decide)) hd
    (by rw [guard_encC]; simp [Instr.wf, Instr.info, FmtC.info] at hw; simp [hw]) hw
    (by simp [zeroBits, Instr.info, FmtC.info])

theorem RoundTrip.cpyf (o : FmtC) : RoundTrip.Statement (.cpyf o) := by
  intro w hw he
  cases he
  have hd : decodeClass 3 5 (encC 3 5 o) = some (.cpyf o) := by
    simp [Instr.wf, Instr.info, FmtC.info] at hw
    simp [decodeClass, decodeCpy, fmtC_encC]
    omega
  exact decode_word (head_encC 3 5 o (by decide) (by decide)) hd
    (by rw [guard_encC]; simp [Instr.wf, Instr.info, FmtC.info] at hw; simp [hw]) hw
    (by simp [zeroBits, Instr.info, FmtC.info])

theorem RoundTrip.cpyfFar (o : FmtC) : RoundTrip.Statement (.cpyfFar o) := by
  intro w hw he
  cases he
  have hd : decodeClass 3 5 (encC 3 5 o) = some (.cpyfFar o) := by
    simp [Instr.wf, Instr.info, FmtC.info] at hw
    simp [decodeClass, decodeCpy, fmtC_encC]
    omega
  exact decode_word (head_encC 3 5 o (by decide) (by decide)) hd
    (by rw [guard_encC]; simp [Instr.wf, Instr.info, FmtC.info] at hw; simp [hw]) hw
    (by simp [zeroBits, Instr.info, FmtC.info])

theorem RoundTrip.stageMax (o : FmtC) : RoundTrip.Statement (.stageMax o) := by
  intro w hw he
  cases he
  have hd : decodeClass 3 6 (encC 3 6 o) = some (.stageMax o) := by
    simp [Instr.wf, Instr.info, FmtC.info] at hw
    simp [decodeClass, decodeCpy, byMod, fmtC_encC]
    simp_all
  exact decode_word (head_encC 3 6 o (by decide) (by decide)) hd
    (by rw [guard_encC]; simp [Instr.wf, Instr.info, FmtC.info] at hw; simp [hw]) hw
    (by simp [zeroBits, Instr.info, FmtC.info])

theorem RoundTrip.stageAdd (o : FmtC) : RoundTrip.Statement (.stageAdd o) := by
  intro w hw he
  cases he
  have hd : decodeClass 3 6 (encC 3 6 o) = some (.stageAdd o) := by
    simp [Instr.wf, Instr.info, FmtC.info] at hw
    simp [decodeClass, decodeCpy, byMod, fmtC_encC]
    simp_all
  exact decode_word (head_encC 3 6 o (by decide) (by decide)) hd
    (by rw [guard_encC]; simp [Instr.wf, Instr.info, FmtC.info] at hw; simp [hw]) hw
    (by simp [zeroBits, Instr.info, FmtC.info])

theorem RoundTrip.publ (o : FmtC) : RoundTrip.Statement (.publ o) := by
  intro w hw he
  cases he
  have hd : decodeClass 3 7 (encC 3 7 o) = some (.publ o) := congrArg (some ∘ Instr.publ) (fmtC_encC 3 7 o)
  exact decode_word (head_encC 3 7 o (by decide) (by decide)) hd
    (by rw [guard_encC]; simp [Instr.wf, Instr.info, FmtC.info] at hw; simp [hw]) hw
    (by simp [zeroBits, Instr.info, FmtC.info])

theorem RoundTrip.rpush (o : FmtC) : RoundTrip.Statement (.rpush o) := by
  intro w hw he
  cases he
  have hd : decodeClass 3 8 (encC 3 8 o) = some (.rpush o) := congrArg (some ∘ Instr.rpush) (fmtC_encC 3 8 o)
  exact decode_word (head_encC 3 8 o (by decide) (by decide)) hd
    (by rw [guard_encC]; simp [Instr.wf, Instr.info, FmtC.info] at hw; simp [hw]) hw
    (by simp [zeroBits, Instr.info, FmtC.info])

theorem RoundTrip.rpop (o : FmtC) : RoundTrip.Statement (.rpop o) := by
  intro w hw he
  cases he
  have hd : decodeClass 3 9 (encC 3 9 o) = some (.rpop o) := congrArg (some ∘ Instr.rpop) (fmtC_encC 3 9 o)
  exact decode_word (head_encC 3 9 o (by decide) (by decide)) hd
    (by rw [guard_encC]; simp [Instr.wf, Instr.info, FmtC.info] at hw; simp [hw]) hw
    (by simp [zeroBits, Instr.info, FmtC.info])

theorem RoundTrip.rwaitC (o : FmtC) : RoundTrip.Statement (.rwaitC o) := by
  intro w hw he
  cases he
  have hd : decodeClass 3 10 (encC 3 10 o) = some (.rwaitC o) := by
    simp [Instr.wf, Instr.info, FmtC.info] at hw
    simp [decodeClass, decodeCpy, byMod, fmtC_encC]
    simp_all
  exact decode_word (head_encC 3 10 o (by decide) (by decide)) hd
    (by rw [guard_encC]; simp [Instr.wf, Instr.info, FmtC.info] at hw; simp [hw]) hw
    (by simp [zeroBits, Instr.info, FmtC.info])

theorem RoundTrip.rwaitP (o : FmtC) : RoundTrip.Statement (.rwaitP o) := by
  intro w hw he
  cases he
  have hd : decodeClass 3 10 (encC 3 10 o) = some (.rwaitP o) := by
    simp [Instr.wf, Instr.info, FmtC.info] at hw
    simp [decodeClass, decodeCpy, byMod, fmtC_encC]
    simp_all
  exact decode_word (head_encC 3 10 o (by decide) (by decide)) hd
    (by rw [guard_encC]; simp [Instr.wf, Instr.info, FmtC.info] at hw; simp [hw]) hw
    (by simp [zeroBits, Instr.info, FmtC.info])

theorem RoundTrip.cpyq (o : FmtC) : RoundTrip.Statement (.cpyq o) := by
  intro w hw he
  cases he
  have hd : decodeClass 3 11 (encC 3 11 o) = some (.cpyq o) := congrArg (some ∘ Instr.cpyq) (fmtC_encC 3 11 o)
  exact decode_word (head_encC 3 11 o (by decide) (by decide)) hd
    (by rw [guard_encC]; simp [Instr.wf, Instr.info, FmtC.info] at hw; simp [hw]) hw
    (by simp [zeroBits, Instr.info, FmtC.info])

theorem RoundTrip.pfch (o : FmtC) : RoundTrip.Statement (.pfch o) := by
  intro w hw he
  cases he
  have hd : decodeClass 3 12 (encC 3 12 o) = some (.pfch o) := congrArg (some ∘ Instr.pfch) (fmtC_encC 3 12 o)
  exact decode_word (head_encC 3 12 o (by decide) (by decide)) hd
    (by rw [guard_encC]; simp [Instr.wf, Instr.info, FmtC.info] at hw; simp [hw]) hw
    (by simp [zeroBits, Instr.info, FmtC.info])

theorem RoundTrip.evict (o : FmtC) : RoundTrip.Statement (.evict o) := by
  intro w hw he
  cases he
  have hd : decodeClass 3 13 (encC 3 13 o) = some (.evict o) := congrArg (some ∘ Instr.evict) (fmtC_encC 3 13 o)
  exact decode_word (head_encC 3 13 o (by decide) (by decide)) hd
    (by rw [guard_encC]; simp [Instr.wf, Instr.info, FmtC.info] at hw; simp [hw]) hw
    (by simp [zeroBits, Instr.info, FmtC.info])

theorem RoundTrip.bufd (o : FmtC) : RoundTrip.Statement (.bufd o) := by
  intro w hw he
  cases he
  have hd : decodeClass 3 18 (encC 3 18 o) = some (.bufd o) := congrArg (some ∘ Instr.bufd) (fmtC_encC 3 18 o)
  exact decode_word (head_encC 3 18 o (by decide) (by decide)) hd
    (by rw [guard_encC]; simp [Instr.wf, Instr.info, FmtC.info] at hw; simp [hw]) hw
    (by simp [zeroBits, Instr.info, FmtC.info])

theorem RoundTrip.cload (o : FmtC) : RoundTrip.Statement (.cload o) := by
  intro w hw he
  cases he
  have hd : decodeClass 3 14 (encC 3 14 o) = some (.cload o) := congrArg (some ∘ Instr.cload) (fmtC_encC 3 14 o)
  exact decode_word (head_encC 3 14 o (by decide) (by decide)) hd
    (by rw [guard_encC]; simp [Instr.wf, Instr.info, FmtC.info] at hw; simp [hw]) hw
    (by simp [zeroBits, Instr.info, FmtC.info])

theorem RoundTrip.crun (o : FmtC) : RoundTrip.Statement (.crun o) := by
  intro w hw he
  cases he
  have hd : decodeClass 3 15 (encC 3 15 o) = some (.crun o) := congrArg (some ∘ Instr.crun) (fmtC_encC 3 15 o)
  exact decode_word (head_encC 3 15 o (by decide) (by decide)) hd
    (by rw [guard_encC]; simp [Instr.wf, Instr.info, FmtC.info] at hw; simp [hw]) hw
    (by simp [zeroBits, Instr.info, FmtC.info])

theorem RoundTrip.carm (o : FmtC) : RoundTrip.Statement (.carm o) := by
  intro w hw he
  cases he
  have hd : decodeClass 3 16 (encC 3 16 o) = some (.carm o) := congrArg (some ∘ Instr.carm) (fmtC_encC 3 16 o)
  exact decode_word (head_encC 3 16 o (by decide) (by decide)) hd
    (by rw [guard_encC]; simp [Instr.wf, Instr.info, FmtC.info] at hw; simp [hw]) hw
    (by simp [zeroBits, Instr.info, FmtC.info])

theorem RoundTrip.cstepQ (o : FmtC) : RoundTrip.Statement (.cstepQ o) := by
  intro w hw he
  cases he
  have hd : decodeClass 3 17 (encC 3 17 o) = some (.cstepQ o) := by
    simp [Instr.wf, Instr.info, FmtC.info] at hw
    simp [decodeClass, decodeCpy, byMod, fmtC_encC]
    simp_all
  exact decode_word (head_encC 3 17 o (by decide) (by decide)) hd
    (by rw [guard_encC]; simp [Instr.wf, Instr.info, FmtC.info] at hw; simp [hw]) hw
    (by simp [zeroBits, Instr.info, FmtC.info])

theorem RoundTrip.cstepWait (o : FmtC) : RoundTrip.Statement (.cstepWait o) := by
  intro w hw he
  cases he
  have hd : decodeClass 3 17 (encC 3 17 o) = some (.cstepWait o) := by
    simp [Instr.wf, Instr.info, FmtC.info] at hw
    simp [decodeClass, decodeCpy, byMod, fmtC_encC]
    simp_all
  exact decode_word (head_encC 3 17 o (by decide) (by decide)) hd
    (by rw [guard_encC]; simp [Instr.wf, Instr.info, FmtC.info] at hw; simp [hw]) hw
    (by simp [zeroBits, Instr.info, FmtC.info])

theorem RoundTrip.mma (o : FmtT) : RoundTrip.Statement (.mma o) := by
  intro w hw he
  cases he
  have hd : decodeClass 4 0 (encT 4 0 o) = some (.mma o) := by
    simp [Instr.wf, Instr.info, FmtT.info] at hw
    simp [decodeClass, decodeMma, fmtT_encT]
    omega
  exact decode_word (head_encT 4 0 o (by decide) (by decide)) hd
    (by rw [guard_encT]; simp [Instr.wf, Instr.info, FmtT.info] at hw; simp [hw]) hw
    (by simp [zeroBits, Instr.info, FmtT.info])

theorem RoundTrip.mmaKeep (o : FmtT) : RoundTrip.Statement (.mmaKeep o) := by
  intro w hw he
  cases he
  have hd : decodeClass 4 0 (encT 4 0 o) = some (.mmaKeep o) := by
    simp [Instr.wf, Instr.info, FmtT.info] at hw
    simp [decodeClass, decodeMma, fmtT_encT]
    omega
  exact decode_word (head_encT 4 0 o (by decide) (by decide)) hd
    (by rw [guard_encT]; simp [Instr.wf, Instr.info, FmtT.info] at hw; simp [hw]) hw
    (by simp [zeroBits, Instr.info, FmtT.info])

theorem RoundTrip.mclr (o : FmtT) : RoundTrip.Statement (.mclr o) := by
  intro w hw he
  cases he
  have hd : decodeClass 4 1 (encT 4 1 o) = some (.mclr o) := congrArg (some ∘ Instr.mclr) (fmtT_encT 4 1 o)
  exact decode_word (head_encT 4 1 o (by decide) (by decide)) hd
    (by rw [guard_encT]; simp [Instr.wf, Instr.info, FmtT.info] at hw; simp [hw]) hw
    (by simp [zeroBits, Instr.info, FmtT.info])

theorem RoundTrip.mldt (o : FmtT) : RoundTrip.Statement (.mldt o) := by
  intro w hw he
  cases he
  have hd : decodeClass 4 2 (encT 4 2 o) = some (.mldt o) := congrArg (some ∘ Instr.mldt) (fmtT_encT 4 2 o)
  exact decode_word (head_encT 4 2 o (by decide) (by decide)) hd
    (by rw [guard_encT]; simp [Instr.wf, Instr.info, FmtT.info] at hw; simp [hw]) hw
    (by simp [zeroBits, Instr.info, FmtT.info])

theorem RoundTrip.mmovr (o : FmtT) : RoundTrip.Statement (.mmovr o) := by
  intro w hw he
  cases he
  have hd : decodeClass 4 3 (encT 4 3 o) = some (.mmovr o) := congrArg (some ∘ Instr.mmovr) (fmtT_encT 4 3 o)
  exact decode_word (head_encT 4 3 o (by decide) (by decide)) hd
    (by rw [guard_encT]; simp [Instr.wf, Instr.info, FmtT.info] at hw; simp [hw]) hw
    (by simp [zeroBits, Instr.info, FmtT.info])

theorem RoundTrip.mmovw (o : FmtT) : RoundTrip.Statement (.mmovw o) := by
  intro w hw he
  cases he
  have hd : decodeClass 4 4 (encT 4 4 o) = some (.mmovw o) := congrArg (some ∘ Instr.mmovw) (fmtT_encT 4 4 o)
  exact decode_word (head_encT 4 4 o (by decide) (by decide)) hd
    (by rw [guard_encT]; simp [Instr.wf, Instr.info, FmtT.info] at hw; simp [hw]) hw
    (by simp [zeroBits, Instr.info, FmtT.info])

theorem RoundTrip.mqry (o : FmtT) : RoundTrip.Statement (.mqry o) := by
  intro w hw he
  cases he
  have hd : decodeClass 4 6 (encT 4 6 o) = some (.mqry o) := congrArg (some ∘ Instr.mqry) (fmtT_encT 4 6 o)
  exact decode_word (head_encT 4 6 o (by decide) (by decide)) hd
    (by rw [guard_encT]; simp [Instr.wf, Instr.info, FmtT.info] at hw; simp [hw]) hw
    (by simp [zeroBits, Instr.info, FmtT.info])

theorem RoundTrip.mdrain (o : FmtT) : RoundTrip.Statement (.mdrain o) := by
  intro w hw he
  cases he
  have hd : decodeClass 4 5 (encT 4 5 o) = some (.mdrain o) := by
    simp [Instr.wf, Instr.info, FmtT.info] at hw
    simp [decodeClass, decodeMma, fmtT_encT]
    rw [if_neg (by omega), if_neg (by omega)]
  exact decode_word (head_encT 4 5 o (by decide) (by decide)) hd
    (by rw [guard_encT]; simp [Instr.wf, Instr.info, FmtT.info] at hw; simp [hw]) hw
    (by simp [zeroBits, Instr.info, FmtT.info])

theorem RoundTrip.mdrainAdd (o : FmtT) : RoundTrip.Statement (.mdrainAdd o) := by
  intro w hw he
  cases he
  have hd : decodeClass 4 5 (encT 4 5 o) = some (.mdrainAdd o) := by
    simp [Instr.wf, Instr.info, FmtT.info] at hw
    simp [decodeClass, decodeMma, fmtT_encT]
    simp_all
  exact decode_word (head_encT 4 5 o (by decide) (by decide)) hd
    (by rw [guard_encT]; simp [Instr.wf, Instr.info, FmtT.info] at hw; simp [hw]) hw
    (by simp [zeroBits, Instr.info, FmtT.info])

theorem RoundTrip.mdrainUpd (o : FmtT) : RoundTrip.Statement (.mdrainUpd o) := by
  intro w hw he
  cases he
  have hd : decodeClass 4 5 (encT 4 5 o) = some (.mdrainUpd o) := by
    simp [Instr.wf, Instr.info, FmtT.info] at hw
    simp [decodeClass, decodeMma, fmtT_encT]
    simp_all
  exact decode_word (head_encT 4 5 o (by decide) (by decide)) hd
    (by rw [guard_encT]; simp [Instr.wf, Instr.info, FmtT.info] at hw; simp [hw]) hw
    (by simp [zeroBits, Instr.info, FmtT.info])

theorem RoundTrip.qdual (o : FmtT) : RoundTrip.Statement (.qdual o) := by
  intro w hw he
  cases he
  have hd : decodeClass 4 7 (encT 4 7 o) = some (.qdual o) := congrArg (some ∘ Instr.qdual) (fmtT_encT 4 7 o)
  exact decode_word (head_encT 4 7 o (by decide) (by decide)) hd
    (by rw [guard_encT]; simp [Instr.wf, Instr.info, FmtT.info] at hw; simp [hw]) hw
    (by simp [zeroBits, Instr.info, FmtT.info])

theorem RoundTrip.rqnt (o : FmtT) : RoundTrip.Statement (.rqnt o) := by
  intro w hw he
  cases he
  have hd : decodeClass 4 8 (encT 4 8 o) = some (.rqnt o) := congrArg (some ∘ Instr.rqnt) (fmtT_encT 4 8 o)
  exact decode_word (head_encT 4 8 o (by decide) (by decide)) hd
    (by rw [guard_encT]; simp [Instr.wf, Instr.info, FmtT.info] at hw; simp [hw]) hw
    (by simp [zeroBits, Instr.info, FmtT.info])

theorem RoundTrip.mjoin (o : FmtS) : RoundTrip.Statement (.mjoin o) := by
  intro w hw he
  cases he
  have hd : decodeClass 5 0 (encS 5 0 o) = some (.mjoin o) := congrArg (some ∘ Instr.mjoin) (fmtS_encS 5 0 o)
  exact decode_word (head_encS 5 0 o (by decide) (by decide)) hd
    (by rw [guard_encS]; simp [Instr.wf, Instr.info, FmtS.info] at hw; simp [hw]) hw
    (by simp [zeroBits, Instr.info, FmtS.info])

theorem RoundTrip.mleave (o : FmtS) : RoundTrip.Statement (.mleave o) := by
  intro w hw he
  cases he
  have hd : decodeClass 5 1 (encS 5 1 o) = some (.mleave o) := congrArg (some ∘ Instr.mleave) (fmtS_encS 5 1 o)
  exact decode_word (head_encS 5 1 o (by decide) (by decide)) hd
    (by rw [guard_encS]; simp [Instr.wf, Instr.info, FmtS.info] at hw; simp [hw]) hw
    (by simp [zeroBits, Instr.info, FmtS.info])

theorem RoundTrip.mwait (o : FmtS) : RoundTrip.Statement (.mwait o) := by
  intro w hw he
  cases he
  have hd : decodeClass 5 2 (encS 5 2 o) = some (.mwait o) := congrArg (some ∘ Instr.mwait) (fmtS_encS 5 2 o)
  exact decode_word (head_encS 5 2 o (by decide) (by decide)) hd
    (by rw [guard_encS]; simp [Instr.wf, Instr.info, FmtS.info] at hw; simp [hw]) hw
    (by simp [zeroBits, Instr.info, FmtS.info])

theorem RoundTrip.mset (o : FmtS) : RoundTrip.Statement (.mset o) := by
  intro w hw he
  cases he
  have hd : decodeClass 5 3 (encS 5 3 o) = some (.mset o) := congrArg (some ∘ Instr.mset) (fmtS_encS 5 3 o)
  exact decode_word (head_encS 5 3 o (by decide) (by decide)) hd
    (by rw [guard_encS]; simp [Instr.wf, Instr.info, FmtS.info] at hw; simp [hw]) hw
    (by simp [zeroBits, Instr.info, FmtS.info])

theorem RoundTrip.mget (o : FmtS) : RoundTrip.Statement (.mget o) := by
  intro w hw he
  cases he
  have hd : decodeClass 5 4 (encS 5 4 o) = some (.mget o) := congrArg (some ∘ Instr.mget) (fmtS_encS 5 4 o)
  exact decode_word (head_encS 5 4 o (by decide) (by decide)) hd
    (by rw [guard_encS]; simp [Instr.wf, Instr.info, FmtS.info] at hw; simp [hw]) hw
    (by simp [zeroBits, Instr.info, FmtS.info])

theorem RoundTrip.barb (o : FmtS) : RoundTrip.Statement (.barb o) := by
  intro w hw he
  cases he
  have hd : decodeClass 5 5 (encS 5 5 o) = some (.barb o) := congrArg (some ∘ Instr.barb) (fmtS_encS 5 5 o)
  exact decode_word (head_encS 5 5 o (by decide) (by decide)) hd
    (by rw [guard_encS]; simp [Instr.wf, Instr.info, FmtS.info] at hw; simp [hw]) hw
    (by simp [zeroBits, Instr.info, FmtS.info])

theorem RoundTrip.bara (o : FmtS) : RoundTrip.Statement (.bara o) := by
  intro w hw he
  cases he
  have hd : decodeClass 5 6 (encS 5 6 o) = some (.bara o) := congrArg (some ∘ Instr.bara) (fmtS_encS 5 6 o)
  exact decode_word (head_encS 5 6 o (by decide) (by decide)) hd
    (by rw [guard_encS]; simp [Instr.wf, Instr.info, FmtS.info] at hw; simp [hw]) hw
    (by simp [zeroBits, Instr.info, FmtS.info])

theorem RoundTrip.barw (o : FmtS) : RoundTrip.Statement (.barw o) := by
  intro w hw he
  cases he
  have hd : decodeClass 5 7 (encS 5 7 o) = some (.barw o) := congrArg (some ∘ Instr.barw) (fmtS_encS 5 7 o)
  exact decode_word (head_encS 5 7 o (by decide) (by decide)) hd
    (by rw [guard_encS]; simp [Instr.wf, Instr.info, FmtS.info] at hw; simp [hw]) hw
    (by simp [zeroBits, Instr.info, FmtS.info])

theorem RoundTrip.bard (o : FmtS) : RoundTrip.Statement (.bard o) := by
  intro w hw he
  cases he
  have hd : decodeClass 5 8 (encS 5 8 o) = some (.bard o) := congrArg (some ∘ Instr.bard) (fmtS_encS 5 8 o)
  exact decode_word (head_encS 5 8 o (by decide) (by decide)) hd
    (by rw [guard_encS]; simp [Instr.wf, Instr.info, FmtS.info] at hw; simp [hw]) hw
    (by simp [zeroBits, Instr.info, FmtS.info])

theorem RoundTrip.treea (o : FmtS) : RoundTrip.Statement (.treea o) := by
  intro w hw he
  cases he
  have hd : decodeClass 5 9 (encS 5 9 o) = some (.treea o) := congrArg (some ∘ Instr.treea) (fmtS_encS 5 9 o)
  exact decode_word (head_encS 5 9 o (by decide) (by decide)) hd
    (by rw [guard_encS]; simp [Instr.wf, Instr.info, FmtS.info] at hw; simp [hw]) hw
    (by simp [zeroBits, Instr.info, FmtS.info])

theorem RoundTrip.treew (o : FmtS) : RoundTrip.Statement (.treew o) := by
  intro w hw he
  cases he
  have hd : decodeClass 5 10 (encS 5 10 o) = some (.treew o) := congrArg (some ∘ Instr.treew) (fmtS_encS 5 10 o)
  exact decode_word (head_encS 5 10 o (by decide) (by decide)) hd
    (by rw [guard_encS]; simp [Instr.wf, Instr.info, FmtS.info] at hw; simp [hw]) hw
    (by simp [zeroBits, Instr.info, FmtS.info])

theorem RoundTrip.attach (o : FmtS) : RoundTrip.Statement (.attach o) := by
  intro w hw he
  cases he
  have hd : decodeClass 5 11 (encS 5 11 o) = some (.attach o) := congrArg (some ∘ Instr.attach) (fmtS_encS 5 11 o)
  exact decode_word (head_encS 5 11 o (by decide) (by decide)) hd
    (by rw [guard_encS]; simp [Instr.wf, Instr.info, FmtS.info] at hw; simp [hw]) hw
    (by simp [zeroBits, Instr.info, FmtS.info])

theorem RoundTrip.detach (o : FmtS) : RoundTrip.Statement (.detach o) := by
  intro w hw he
  cases he
  have hd : decodeClass 5 12 (encS 5 12 o) = some (.detach o) := congrArg (some ∘ Instr.detach) (fmtS_encS 5 12 o)
  exact decode_word (head_encS 5 12 o (by decide) (by decide)) hd
    (by rw [guard_encS]; simp [Instr.wf, Instr.info, FmtS.info] at hw; simp [hw]) hw
    (by simp [zeroBits, Instr.info, FmtS.info])

theorem RoundTrip.yieldStanding (o : FmtS) : RoundTrip.Statement (.yieldStanding o) := by
  intro w hw he
  cases he
  have hd : decodeClass 5 13 (encS 5 13 o) = some (.yieldStanding o) := congrArg (some ∘ Instr.yieldStanding) (fmtS_encS 5 13 o)
  exact decode_word (head_encS 5 13 o (by decide) (by decide)) hd
    (by rw [guard_encS]; simp [Instr.wf, Instr.info, FmtS.info] at hw; simp [hw]) hw
    (by simp [zeroBits, Instr.info, FmtS.info])

theorem RoundTrip.sleep (o : FmtS) : RoundTrip.Statement (.sleep o) := by
  intro w hw he
  cases he
  have hd : decodeClass 5 14 (encS 5 14 o) = some (.sleep o) := by
    simp [Instr.wf, Instr.info, FmtS.info] at hw
    simp [decodeClass, decodeSyn, byMod, fmtS_encS]
    simp_all
  exact decode_word (head_encS 5 14 o (by decide) (by decide)) hd
    (by rw [guard_encS]; simp [Instr.wf, Instr.info, FmtS.info] at hw; simp [hw]) hw
    (by simp [zeroBits, Instr.info, FmtS.info])

theorem RoundTrip.sleepUntil (o : FmtS) : RoundTrip.Statement (.sleepUntil o) := by
  intro w hw he
  cases he
  have hd : decodeClass 5 14 (encS 5 14 o) = some (.sleepUntil o) := by
    simp [Instr.wf, Instr.info, FmtS.info] at hw
    simp [decodeClass, decodeSyn, byMod, fmtS_encS]
    simp_all
  exact decode_word (head_encS 5 14 o (by decide) (by decide)) hd
    (by rw [guard_encS]; simp [Instr.wf, Instr.info, FmtS.info] at hw; simp [hw]) hw
    (by simp [zeroBits, Instr.info, FmtS.info])

theorem RoundTrip.enq (o : FmtS) : RoundTrip.Statement (.enq o) := by
  intro w hw he
  cases he
  have hd : decodeClass 5 15 (encS 5 15 o) = some (.enq o) := congrArg (some ∘ Instr.enq) (fmtS_encS 5 15 o)
  exact decode_word (head_encS 5 15 o (by decide) (by decide)) hd
    (by rw [guard_encS]; simp [Instr.wf, Instr.info, FmtS.info] at hw; simp [hw]) hw
    (by simp [zeroBits, Instr.info, FmtS.info])

theorem RoundTrip.csrr (o : FmtI) : RoundTrip.Statement (.csrr o) := by
  intro w hw he
  cases he
  have hd : decodeClass 6 0 (encI 6 0 o) = some (.csrr o) := congrArg (some ∘ Instr.csrr) (fmtI_encI 6 0 o)
  exact decode_word (head_encI 6 0 o (by decide) (by decide)) hd
    (by rw [guard_encI]; simp [Instr.wf, Instr.info, FmtI.info] at hw; simp [hw]) hw
    (by simp [zeroBits])

theorem RoundTrip.csrw (o : FmtI) : RoundTrip.Statement (.csrw o) := by
  intro w hw he
  cases he
  have hd : decodeClass 6 1 (encI 6 1 o) = some (.csrw o) := congrArg (some ∘ Instr.csrw) (fmtI_encI 6 1 o)
  exact decode_word (head_encI 6 1 o (by decide) (by decide)) hd
    (by rw [guard_encI]; simp [Instr.wf, Instr.info, FmtI.info] at hw; simp [hw]) hw
    (by simp [zeroBits])

theorem RoundTrip.tret (o : FmtR) : RoundTrip.Statement (.tret o) := by
  intro w hw he
  cases he
  have hd : decodeClass 6 2 (encR 6 2 o) = some (.tret o) := congrArg (some ∘ Instr.tret) (fmtR_encR 6 2 o)
  exact decode_word (head_encR 6 2 o (by decide) (by decide)) hd
    (by rw [guard_encR]; simp [Instr.wf, Instr.info, FmtR.info] at hw; simp [hw]) hw
    (by simp [zeroBits, Instr.info, FmtR.info, zero_encR])

theorem RoundTrip.xsave (o : FmtR) : RoundTrip.Statement (.xsave o) := by
  intro w hw he
  cases he
  have hd : decodeClass 6 3 (encR 6 3 o) = some (.xsave o) := congrArg (some ∘ Instr.xsave) (fmtR_encR 6 3 o)
  exact decode_word (head_encR 6 3 o (by decide) (by decide)) hd
    (by rw [guard_encR]; simp [Instr.wf, Instr.info, FmtR.info] at hw; simp [hw]) hw
    (by simp [zeroBits, Instr.info, FmtR.info, zero_encR])

theorem RoundTrip.xload (o : FmtR) : RoundTrip.Statement (.xload o) := by
  intro w hw he
  cases he
  have hd : decodeClass 6 4 (encR 6 4 o) = some (.xload o) := congrArg (some ∘ Instr.xload) (fmtR_encR 6 4 o)
  exact decode_word (head_encR 6 4 o (by decide) (by decide)) hd
    (by rw [guard_encR]; simp [Instr.wf, Instr.info, FmtR.info] at hw; simp [hw]) hw
    (by simp [zeroBits, Instr.info, FmtR.info, zero_encR])

theorem RoundTrip.tlbi (o : FmtR) : RoundTrip.Statement (.tlbi o) := by
  intro w hw he
  cases he
  have hd : decodeClass 6 5 (encR 6 5 o) = some (.tlbi o) := by
    simp [Instr.wf, Instr.info, FmtR.info] at hw
    simp [decodeClass, decodeSys, byMod, fmtR_encR]
    simp_all
  exact decode_word (head_encR 6 5 o (by decide) (by decide)) hd
    (by rw [guard_encR]; simp [Instr.wf, Instr.info, FmtR.info] at hw; simp [hw]) hw
    (by simp [zeroBits, Instr.info, FmtR.info, zero_encR])

theorem RoundTrip.tlbiPage (o : FmtR) : RoundTrip.Statement (.tlbiPage o) := by
  intro w hw he
  cases he
  have hd : decodeClass 6 5 (encR 6 5 o) = some (.tlbiPage o) := by
    simp [Instr.wf, Instr.info, FmtR.info] at hw
    simp [decodeClass, decodeSys, byMod, fmtR_encR]
    simp_all
  exact decode_word (head_encR 6 5 o (by decide) (by decide)) hd
    (by rw [guard_encR]; simp [Instr.wf, Instr.info, FmtR.info] at hw; simp [hw]) hw
    (by simp [zeroBits, Instr.info, FmtR.info, zero_encR])

theorem RoundTrip.pgset (o : FmtR) : RoundTrip.Statement (.pgset o) := by
  intro w hw he
  cases he
  have hd : decodeClass 6 6 (encR 6 6 o) = some (.pgset o) := congrArg (some ∘ Instr.pgset) (fmtR_encR 6 6 o)
  exact decode_word (head_encR 6 6 o (by decide) (by decide)) hd
    (by rw [guard_encR]; simp [Instr.wf, Instr.info, FmtR.info] at hw; simp [hw]) hw
    (by simp [zeroBits, Instr.info, FmtR.info, zero_encR])

theorem RoundTrip.ctxend (o : FmtR) : RoundTrip.Statement (.ctxend o) := by
  intro w hw he
  cases he
  have hd : decodeClass 6 7 (encR 6 7 o) = some (.ctxend o) := congrArg (some ∘ Instr.ctxend) (fmtR_encR 6 7 o)
  exact decode_word (head_encR 6 7 o (by decide) (by decide)) hd
    (by rw [guard_encR]; simp [Instr.wf, Instr.info, FmtR.info] at hw; simp [hw]) hw
    (by simp [zeroBits, Instr.info, FmtR.info, zero_encR])

theorem RoundTrip.halt (o : FmtR) : RoundTrip.Statement (.halt o) := by
  intro w hw he
  cases he
  have hd : decodeClass 6 8 (encR 6 8 o) = some (.halt o) := congrArg (some ∘ Instr.halt) (fmtR_encR 6 8 o)
  exact decode_word (head_encR 6 8 o (by decide) (by decide)) hd
    (by rw [guard_encR]; simp [Instr.wf, Instr.info, FmtR.info] at hw; simp [hw]) hw
    (by simp [zeroBits, Instr.info, FmtR.info, zero_encR])

theorem RoundTrip.retire (o : FmtR) : RoundTrip.Statement (.retire o) := by
  intro w hw he
  cases he
  have hd : decodeClass 6 9 (encR 6 9 o) = some (.retire o) := congrArg (some ∘ Instr.retire) (fmtR_encR 6 9 o)
  exact decode_word (head_encR 6 9 o (by decide) (by decide)) hd
    (by rw [guard_encR]; simp [Instr.wf, Instr.info, FmtR.info] at hw; simp [hw]) hw
    (by simp [zeroBits, Instr.info, FmtR.info, zero_encR])

theorem RoundTrip.snapm (o : FmtR) : RoundTrip.Statement (.snapm o) := by
  intro w hw he
  cases he
  have hd : decodeClass 6 10 (encR 6 10 o) = some (.snapm o) := congrArg (some ∘ Instr.snapm) (fmtR_encR 6 10 o)
  exact decode_word (head_encR 6 10 o (by decide) (by decide)) hd
    (by rw [guard_encR]; simp [Instr.wf, Instr.info, FmtR.info] at hw; simp [hw]) hw
    (by simp [zeroBits, Instr.info, FmtR.info, zero_encR])

theorem RoundTrip.logrAddr (o : FmtR) : RoundTrip.Statement (.logrAddr o) := by
  intro w hw he
  cases he
  have hd : decodeClass 6 11 (encR 6 11 o) = some (.logrAddr o) := by
    simp [Instr.wf, Instr.info, FmtR.info] at hw
    simp [decodeClass, decodeSys, byMod, fmtR_encR]
    simp_all
  exact decode_word (head_encR 6 11 o (by decide) (by decide)) hd
    (by rw [guard_encR]; simp [Instr.wf, Instr.info, FmtR.info] at hw; simp [hw]) hw
    (by simp [zeroBits, Instr.info, FmtR.info, zero_encR])

theorem RoundTrip.logrInfo (o : FmtR) : RoundTrip.Statement (.logrInfo o) := by
  intro w hw he
  cases he
  have hd : decodeClass 6 11 (encR 6 11 o) = some (.logrInfo o) := by
    simp [Instr.wf, Instr.info, FmtR.info] at hw
    simp [decodeClass, decodeSys, byMod, fmtR_encR]
    simp_all
  exact decode_word (head_encR 6 11 o (by decide) (by decide)) hd
    (by rw [guard_encR]; simp [Instr.wf, Instr.info, FmtR.info] at hw; simp [hw]) hw
    (by simp [zeroBits, Instr.info, FmtR.info, zero_encR])

theorem RoundTrip.logrCount (o : FmtR) : RoundTrip.Statement (.logrCount o) := by
  intro w hw he
  cases he
  have hd : decodeClass 6 11 (encR 6 11 o) = some (.logrCount o) := by
    simp [Instr.wf, Instr.info, FmtR.info] at hw
    simp [decodeClass, decodeSys, byMod, fmtR_encR]
    simp_all
  exact decode_word (head_encR 6 11 o (by decide) (by decide)) hd
    (by rw [guard_encR]; simp [Instr.wf, Instr.info, FmtR.info] at hw; simp [hw]) hw
    (by simp [zeroBits, Instr.info, FmtR.info, zero_encR])

theorem RoundTrip.logrClr (o : FmtR) : RoundTrip.Statement (.logrClr o) := by
  intro w hw he
  cases he
  have hd : decodeClass 6 11 (encR 6 11 o) = some (.logrClr o) := by
    simp [Instr.wf, Instr.info, FmtR.info] at hw
    simp [decodeClass, decodeSys, byMod, fmtR_encR]
    simp_all
  exact decode_word (head_encR 6 11 o (by decide) (by decide)) hd
    (by rw [guard_encR]; simp [Instr.wf, Instr.info, FmtR.info] at hw; simp [hw]) hw
    (by simp [zeroBits, Instr.info, FmtR.info, zero_encR])

theorem RoundTrip.tjopen (o : FmtR) : RoundTrip.Statement (.tjopen o) := by
  intro w hw he
  cases he
  have hd : decodeClass 7 0 (encR 7 0 o) = some (.tjopen o) := congrArg (some ∘ Instr.tjopen) (fmtR_encR 7 0 o)
  exact decode_word (head_encR 7 0 o (by decide) (by decide)) hd
    (by rw [guard_encR]; simp [Instr.wf, Instr.info, FmtR.info] at hw; simp [hw]) hw
    (by simp [zeroBits, Instr.info, FmtR.info, zero_encR])

theorem RoundTrip.tjstep (o : FmtR) : RoundTrip.Statement (.tjstep o) := by
  intro w hw he
  cases he
  have hd : decodeClass 7 1 (encR 7 1 o) = some (.tjstep o) := congrArg (some ∘ Instr.tjstep) (fmtR_encR 7 1 o)
  exact decode_word (head_encR 7 1 o (by decide) (by decide)) hd
    (by rw [guard_encR]; simp [Instr.wf, Instr.info, FmtR.info] at hw; simp [hw]) hw
    (by simp [zeroBits, Instr.info, FmtR.info, zero_encR])

theorem RoundTrip.tjend (o : FmtR) : RoundTrip.Statement (.tjend o) := by
  intro w hw he
  cases he
  have hd : decodeClass 7 2 (encR 7 2 o) = some (.tjend o) := by
    simp [Instr.wf, Instr.info, FmtR.info] at hw
    simp [decodeClass, decodeTrj, byMod, fmtR_encR]
    simp_all
  exact decode_word (head_encR 7 2 o (by decide) (by decide)) hd
    (by rw [guard_encR]; simp [Instr.wf, Instr.info, FmtR.info] at hw; simp [hw]) hw
    (by simp [zeroBits, Instr.info, FmtR.info, zero_encR])

theorem RoundTrip.tjendFree (o : FmtR) : RoundTrip.Statement (.tjendFree o) := by
  intro w hw he
  cases he
  have hd : decodeClass 7 2 (encR 7 2 o) = some (.tjendFree o) := by
    simp [Instr.wf, Instr.info, FmtR.info] at hw
    simp [decodeClass, decodeTrj, byMod, fmtR_encR]
    simp_all
  exact decode_word (head_encR 7 2 o (by decide) (by decide)) hd
    (by rw [guard_encR]; simp [Instr.wf, Instr.info, FmtR.info] at hw; simp [hw]) hw
    (by simp [zeroBits, Instr.info, FmtR.info, zero_encR])

theorem RoundTrip.tjrew (o : FmtR) : RoundTrip.Statement (.tjrew o) := by
  intro w hw he
  cases he
  have hd : decodeClass 7 3 (encR 7 3 o) = some (.tjrew o) := congrArg (some ∘ Instr.tjrew) (fmtR_encR 7 3 o)
  exact decode_word (head_encR 7 3 o (by decide) (by decide)) hd
    (by rw [guard_encR]; simp [Instr.wf, Instr.info, FmtR.info] at hw; simp [hw]) hw
    (by simp [zeroBits, Instr.info, FmtR.info, zero_encR])

theorem RoundTrip.tjtake (o : FmtR) : RoundTrip.Statement (.tjtake o) := by
  intro w hw he
  cases he
  have hd : decodeClass 7 4 (encR 7 4 o) = some (.tjtake o) := by
    simp [Instr.wf, Instr.info, FmtR.info] at hw
    simp [decodeClass, decodeTrj, byMod, fmtR_encR]
    simp_all
  exact decode_word (head_encR 7 4 o (by decide) (by decide)) hd
    (by rw [guard_encR]; simp [Instr.wf, Instr.info, FmtR.info] at hw; simp [hw]) hw
    (by simp [zeroBits, Instr.info, FmtR.info, zero_encR])

theorem RoundTrip.tjtakeTry (o : FmtR) : RoundTrip.Statement (.tjtakeTry o) := by
  intro w hw he
  cases he
  have hd : decodeClass 7 4 (encR 7 4 o) = some (.tjtakeTry o) := by
    simp [Instr.wf, Instr.info, FmtR.info] at hw
    simp [decodeClass, decodeTrj, byMod, fmtR_encR]
    simp_all
  exact decode_word (head_encR 7 4 o (by decide) (by decide)) hd
    (by rw [guard_encR]; simp [Instr.wf, Instr.info, FmtR.info] at hw; simp [hw]) hw
    (by simp [zeroBits, Instr.info, FmtR.info, zero_encR])

theorem RoundTrip.tjtakeDepth (o : FmtR) : RoundTrip.Statement (.tjtakeDepth o) := by
  intro w hw he
  cases he
  have hd : decodeClass 7 4 (encR 7 4 o) = some (.tjtakeDepth o) := by
    simp [Instr.wf, Instr.info, FmtR.info] at hw
    simp [decodeClass, decodeTrj, byMod, fmtR_encR]
    simp_all
  exact decode_word (head_encR 7 4 o (by decide) (by decide)) hd
    (by rw [guard_encR]; simp [Instr.wf, Instr.info, FmtR.info] at hw; simp [hw]) hw
    (by simp [zeroBits, Instr.info, FmtR.info, zero_encR])

theorem RoundTrip.tjtakeStat (o : FmtR) : RoundTrip.Statement (.tjtakeStat o) := by
  intro w hw he
  cases he
  have hd : decodeClass 7 4 (encR 7 4 o) = some (.tjtakeStat o) := by
    simp [Instr.wf, Instr.info, FmtR.info] at hw
    simp [decodeClass, decodeTrj, byMod, fmtR_encR]
    simp_all
  exact decode_word (head_encR 7 4 o (by decide) (by decide)) hd
    (by rw [guard_encR]; simp [Instr.wf, Instr.info, FmtR.info] at hw; simp [hw]) hw
    (by simp [zeroBits, Instr.info, FmtR.info, zero_encR])

theorem RoundTrip.tjset (o : FmtI) : RoundTrip.Statement (.tjset o) := by
  intro w hw he
  cases he
  have hd : decodeClass 7 5 (encI 7 5 o) = some (.tjset o) := congrArg (some ∘ Instr.tjset) (fmtI_encI 7 5 o)
  exact decode_word (head_encI 7 5 o (by decide) (by decide)) hd
    (by rw [guard_encI]; simp [Instr.wf, Instr.info, FmtI.info] at hw; simp [hw]) hw
    (by simp [zeroBits])

theorem RoundTrip.clauseIssue (w lane : Nat) (pipe : Pipe) : RoundTrip.Statement (.clauseIssue w lane pipe) := by
  intro w _ h; simp [encode] at h

theorem RoundTrip.bundlePark (w : Nat) (pipe : Pipe) : RoundTrip.Statement (.bundlePark w pipe) := by
  intro w _ h; simp [encode] at h

theorem RoundTrip.blockedRegisterFill (w lane : Nat) : RoundTrip.Statement (.blockedRegisterFill w lane) := by
  intro w _ h; simp [encode] at h

theorem RoundTrip.codeFetch (w lane : Nat) : RoundTrip.Statement (.codeFetch w lane) := by
  intro w _ h; simp [encode] at h

theorem RoundTrip.compactorMove (w base : Nat) : RoundTrip.Statement (.compactorMove w base) := by
  intro w _ h; simp [encode] at h

theorem RoundTrip.sfuQueueGrant (die core slice : Nat) : RoundTrip.Statement (.sfuQueueGrant die core slice) := by
  intro w _ h; simp [encode] at h

theorem RoundTrip.sfuResult (op : Nat) : RoundTrip.Statement (.sfuResult op) := by
  intro w _ h; simp [encode] at h

theorem RoundTrip.tableEntryGrant (die core : Nat) : RoundTrip.Statement (.tableEntryGrant die core) := by
  intro w _ h; simp [encode] at h

theorem RoundTrip.loadReturn (op : Nat) (land : Bool) : RoundTrip.Statement (.loadReturn op land) := by
  intro w _ h; simp [encode] at h

theorem RoundTrip.storeAck (op : Nat) : RoundTrip.Statement (.storeAck op) := by
  intro w _ h; simp [encode] at h

theorem RoundTrip.portOperation (op unit : Nat) : RoundTrip.Statement (.portOperation op unit) := by
  intro w _ h; simp [encode] at h

theorem RoundTrip.atomicReturn (op : Nat) : RoundTrip.Statement (.atomicReturn op) := by
  intro w _ h; simp [encode] at h

theorem RoundTrip.waiterPlaceFree (op : Nat) : RoundTrip.Statement (.waiterPlaceFree op) := by
  intro w _ h; simp [encode] at h

theorem RoundTrip.waitvTimeout (op : Nat) : RoundTrip.Statement (.waitvTimeout op) := by
  intro w _ h; simp [encode] at h

theorem RoundTrip.sleepRelease (w : Nat) : RoundTrip.Statement (.sleepRelease w) := by
  intro w _ h; simp [encode] at h

theorem RoundTrip.fenceComplete (w : Nat) (pipe : Pipe) : RoundTrip.Statement (.fenceComplete w pipe) := by
  intro w _ h; simp [encode] at h

theorem RoundTrip.publication (act : Nat) : RoundTrip.Statement (.publication act) := by
  intro w _ h; simp [encode] at h

theorem RoundTrip.treeRelease (ch die core : Nat) : RoundTrip.Statement (.treeRelease ch die core) := by
  intro w _ h; simp [encode] at h

theorem RoundTrip.treeCfgWrite (ch : Nat) (val : Word64) : RoundTrip.Statement (.treeCfgWrite ch val) := by
  intro w _ h; simp [encode] at h

theorem RoundTrip.regionOpen (w : Nat) : RoundTrip.Statement (.regionOpen w) := by
  intro w _ h; simp [encode] at h

theorem RoundTrip.regionAccessRetry (op : Nat) : RoundTrip.Statement (.regionAccessRetry op) := by
  intro w _ h; simp [encode] at h

theorem RoundTrip.regionCommit (w : Nat) : RoundTrip.Statement (.regionCommit w) := by
  intro w _ h; simp [encode] at h

theorem RoundTrip.mmaFire (top : Nat) : RoundTrip.Statement (.mmaFire top) := by
  intro w _ h; simp [encode] at h

theorem RoundTrip.tileOperationPerform (top : Nat) : RoundTrip.Statement (.tileOperationPerform top) := by
  intro w _ h; simp [encode] at h

theorem RoundTrip.tileUpdatePerform (top : Nat) : RoundTrip.Statement (.tileUpdatePerform top) := by
  intro w _ h; simp [encode] at h

theorem RoundTrip.copyQueueAccept (die core : Nat) : RoundTrip.Statement (.copyQueueAccept die core) := by
  intro w _ h; simp [encode] at h

theorem RoundTrip.copyFire (copy : Nat) : RoundTrip.Statement (.copyFire copy) := by
  intro w _ h; simp [encode] at h

theorem RoundTrip.copyComplete (copy : Nat) (unit : Option Nat) : RoundTrip.Statement (.copyComplete copy unit) := by
  intro w _ h; simp [encode] at h

theorem RoundTrip.rwaitFill (wait : Nat) : RoundTrip.Statement (.rwaitFill wait) := by
  intro w _ h; simp [encode] at h

theorem RoundTrip.scheduleFiring (block : Nat) : RoundTrip.Statement (.scheduleFiring block) := by
  intro w _ h; simp [encode] at h

theorem RoundTrip.blockPlacement (share core : Nat) : RoundTrip.Statement (.blockPlacement share core) := by
  intro w _ h; simp [encode] at h

theorem RoundTrip.placementWaitExpiry (share : Nat) : RoundTrip.Statement (.placementWaitExpiry share) := by
  intro w _ h; simp [encode] at h

theorem RoundTrip.spareWarpStart (share core slot : Nat) : RoundTrip.Statement (.spareWarpStart share core slot) := by
  intro w _ h; simp [encode] at h

theorem RoundTrip.shrinkRequest (block k : Nat) : RoundTrip.Statement (.shrinkRequest block k) := by
  intro w _ h; simp [encode] at h

theorem RoundTrip.shrinkCancel (block : Nat) : RoundTrip.Statement (.shrinkCancel block) := by
  intro w _ h; simp [encode] at h

theorem RoundTrip.preemption (block : Nat) : RoundTrip.Statement (.preemption block) := by
  intro w _ h; simp [encode] at h

theorem RoundTrip.blockSave (block : Nat) : RoundTrip.Statement (.blockSave block) := by
  intro w _ h; simp [encode] at h

theorem RoundTrip.blockRestore (block core : Nat) : RoundTrip.Statement (.blockRestore block core) := by
  intro w _ h; simp [encode] at h

theorem RoundTrip.blockEnd (block : Nat) : RoundTrip.Statement (.blockEnd block) := by
  intro w _ h; simp [encode] at h

theorem RoundTrip.kernelDone (k : Nat) : RoundTrip.Statement (.kernelDone k) := by
  intro w _ h; simp [encode] at h

theorem RoundTrip.queueEntryTake (q : Nat) : RoundTrip.Statement (.queueEntryTake q) := by
  intro w _ h; simp [encode] at h

theorem RoundTrip.dependenceCheck (k : Nat) : RoundTrip.Statement (.dependenceCheck k) := by
  intro w _ h; simp [encode] at h

theorem RoundTrip.queueLevelRaise (q : Nat) : RoundTrip.Statement (.queueLevelRaise q) := by
  intro w _ h; simp [encode] at h

theorem RoundTrip.queueDoorbell (q : Nat) (wp : Word) : RoundTrip.Statement (.queueDoorbell q wp) := by
  intro w _ h; simp [encode] at h

theorem RoundTrip.queueEnable (q : Nat) (ctl : Word) : RoundTrip.Statement (.queueEnable q ctl) := by
  intro w _ h; simp [encode] at h

theorem RoundTrip.queueDisable (q : Nat) : RoundTrip.Statement (.queueDisable q) := by
  intro w _ h; simp [encode] at h

theorem RoundTrip.queueSuspend (q : Nat) : RoundTrip.Statement (.queueSuspend q) := by
  intro w _ h; simp [encode] at h

theorem RoundTrip.queueResume (q : Nat) : RoundTrip.Statement (.queueResume q) := by
  intro w _ h; simp [encode] at h

theorem RoundTrip.registerWrite (die ctx idx : Nat) (val : Word64) : RoundTrip.Statement (.registerWrite die ctx idx val) := by
  intro w _ h; simp [encode] at h

theorem RoundTrip.contextBind (ctx : Nat) : RoundTrip.Statement (.contextBind ctx) := by
  intro w _ h; simp [encode] at h

theorem RoundTrip.contextFree (ctx : Nat) : RoundTrip.Statement (.contextFree ctx) := by
  intro w _ h; simp [encode] at h

theorem RoundTrip.errqDropClear : RoundTrip.Statement .errqDropClear := by
  intro w _ h; simp [encode] at h

theorem RoundTrip.hostContextEnd (ctx : Nat) : RoundTrip.Statement (.hostContextEnd ctx) := by
  intro w _ h; simp [encode] at h

theorem RoundTrip.contextEnded (ctx : Nat) : RoundTrip.Statement (.contextEnded ctx) := by
  intro w _ h; simp [encode] at h

theorem RoundTrip.errorRingRetry : RoundTrip.Statement .errorRingRetry := by
  intro w _ h; simp [encode] at h

theorem RoundTrip.stripeRequest (die gather member : Nat) : RoundTrip.Statement (.stripeRequest die gather member) := by
  intro w _ h; simp [encode] at h

theorem RoundTrip.gatherReply (die gather member : Nat) : RoundTrip.Statement (.gatherReply die gather member) := by
  intro w _ h; simp [encode] at h

theorem RoundTrip.gatherTimeout (die gather member : Nat) : RoundTrip.Statement (.gatherTimeout die gather member) := by
  intro w _ h; simp [encode] at h

theorem RoundTrip.reduceContribution (die red send : Nat) : RoundTrip.Statement (.reduceContribution die red send) := by
  intro w _ h; simp [encode] at h

theorem RoundTrip.reduceDone (die red src : Nat) : RoundTrip.Statement (.reduceDone die red src) := by
  intro w _ h; simp [encode] at h

theorem RoundTrip.reduceSendTimeout (die red send : Nat) : RoundTrip.Statement (.reduceSendTimeout die red send) := by
  intro w _ h; simp [encode] at h

theorem RoundTrip.reducingTimeout (die red : Nat) : RoundTrip.Statement (.reducingTimeout die red) := by
  intro w _ h; simp [encode] at h

theorem RoundTrip.migrationHandover (die mig : Nat) : RoundTrip.Statement (.migrationHandover die mig) := by
  intro w _ h; simp [encode] at h

theorem RoundTrip.mode1Fill (die fill : Nat) : RoundTrip.Statement (.mode1Fill die fill) := by
  intro w _ h; simp [encode] at h

theorem RoundTrip.meshFlitReceive (link cls : Nat) (ok : Bool) : RoundTrip.Statement (.meshFlitReceive link cls ok) := by
  intro w _ h; simp [encode] at h

theorem RoundTrip.frameReceive (port : Nat) (f : Frame) : RoundTrip.Statement (.frameReceive port f) := by
  intro w _ h; simp [encode] at h

theorem RoundTrip.ackReceive (port : Nat) (f : Frame) : RoundTrip.Statement (.ackReceive port f) := by
  intro w _ h; simp [encode] at h

theorem RoundTrip.retransmitTimeout (flow : Nat) (seq : Word) : RoundTrip.Statement (.retransmitTimeout flow seq) := by
  intro w _ h; simp [encode] at h

theorem RoundTrip.portTrainingEnd (port lanes : Nat) : RoundTrip.Statement (.portTrainingEnd port lanes) := by
  intro w _ h; simp [encode] at h

theorem RoundTrip.laneLost (port : Nat) : RoundTrip.Statement (.laneLost port) := by
  intro w _ h; simp [encode] at h

theorem RoundTrip.portEnable (port : Nat) : RoundTrip.Statement (.portEnable port) := by
  intro w _ h; simp [encode] at h

theorem RoundTrip.portDisable (port : Nat) : RoundTrip.Statement (.portDisable port) := by
  intro w _ h; simp [encode] at h

theorem RoundTrip.hostTimeout (req : Nat) : RoundTrip.Statement (.hostTimeout req) := by
  intro w _ h; simp [encode] at h

theorem RoundTrip.timeSync (die : Nat) (ref : Nat) : RoundTrip.Statement (.timeSync die ref) := by
  intro w _ h; simp [encode] at h

theorem RoundTrip.graphLoadAtPlacement (share : Nat) : RoundTrip.Statement (.graphLoadAtPlacement share) := by
  intro w _ h; simp [encode] at h

theorem RoundTrip.carmStart (share slot : Nat) : RoundTrip.Statement (.carmStart share slot) := by
  intro w _ h; simp [encode] at h

theorem RoundTrip.chunkOffer (chunk : Nat) : RoundTrip.Statement (.chunkOffer chunk) := by
  intro w _ h; simp [encode] at h

theorem RoundTrip.nodeComplete (run node : Nat) : RoundTrip.Statement (.nodeComplete run node) := by
  intro w _ h; simp [encode] at h

theorem RoundTrip.runComplete (run : Nat) : RoundTrip.Statement (.runComplete run) := by
  intro w _ h; simp [encode] at h

theorem RoundTrip.rewardMessage (die : Nat) (msg : List Byte) : RoundTrip.Statement (.rewardMessage die msg) := by
  intro w _ h; simp [encode] at h

theorem RoundTrip.joinDeadline (die entry : Nat) : RoundTrip.Statement (.joinDeadline die entry) := by
  intro w _ h; simp [encode] at h

theorem RoundTrip.orphanExpiry (die orphan : Nat) : RoundTrip.Statement (.orphanExpiry die orphan) := by
  intro w _ h; simp [encode] at h

theorem RoundTrip.turntableScan (die entry : Nat) : RoundTrip.Statement (.turntableScan die entry) := by
  intro w _ h; simp [encode] at h

theorem RoundTrip.episodeRelease (die entry : Nat) : RoundTrip.Statement (.episodeRelease die entry) := by
  intro w _ h; simp [encode] at h

theorem RoundTrip.tjtakePop (wait : Nat) : RoundTrip.Statement (.tjtakePop wait) := by
  intro w _ h; simp [encode] at h

theorem RoundTrip.cut (die ctx : Nat) : RoundTrip.Statement (.cut die ctx) := by
  intro w _ h; simp [encode] at h

theorem RoundTrip.pageDrainAck (die ctx page : Nat) : RoundTrip.Statement (.pageDrainAck die ctx page) := by
  intro w _ h; simp [encode] at h

theorem RoundTrip.warmReset (die : Nat) : RoundTrip.Statement (.warmReset die) := by
  intro w _ h; simp [encode] at h

theorem RoundTrip.dieStart (die : Nat) (warm : Bool) : RoundTrip.Statement (.dieStart die warm) := by
  intro w _ h; simp [encode] at h

theorem RoundTrip.startStepFailure (die : Nat) : RoundTrip.Statement (.startStepFailure die) := by
  intro w _ h; simp [encode] at h

theorem RoundTrip.attestationRequest (die : Nat) (nonce : List Byte) : RoundTrip.Statement (.attestationRequest die nonce) := by
  intro w _ h; simp [encode] at h

theorem RoundTrip.healthRefresh (die ind : Nat) (reading : Int) (age : Nat) : RoundTrip.Statement (.healthRefresh die ind reading age) := by
  intro w _ h; simp [encode] at h

theorem RoundTrip.sramSoftError (die : Nat) : RoundTrip.Statement (.sramSoftError die) := by
  intro w _ h; simp [encode] at h

theorem RoundTrip.powerLimit (die rate : Nat) : RoundTrip.Statement (.powerLimit die rate) := by
  intro w _ h; simp [encode] at h

theorem RoundTrip.unassignedOpcode (word : Word64) : RoundTrip.Statement (.unassignedOpcode word) := by
  intro w _ h; simp [encode] at h

theorem RoundTrip.reduceSendAcknowledgement (die red send : Nat) : RoundTrip.Statement (.reduceSendAcknowledgement die red send) := by
  intro w _ h; simp [encode] at h

theorem RoundTrip.migrationHandoverReply (die mig : Nat) : RoundTrip.Statement (.migrationHandoverReply die mig) := by
  intro w _ h; simp [encode] at h

theorem RoundTrip.errorRingWriteFailure : RoundTrip.Statement .errorRingWriteFailure := by
  intro w _ h; simp [encode] at h

theorem RoundTrip.measurementRegisterExtension (die k : Nat) (digest : List Byte) : RoundTrip.Statement (.measurementRegisterExtension die k digest) := by
  intro w _ h; simp [encode] at h

end Sys2Proof.Laws
end

