-- ==== Sys2Proof/Laws/State.lean ====
section
/-! SUPPORT. One lemma for each field of the state under each update of a table, and the same for warps, threads and issued
clauses, so that no proof unfolds a record update. -/

namespace Sys2Proof.Machine

set_option Elab.async false

/-! ### Updates of the state's tables -/

@[simp] theorem State.setDie_fresh (s : State) (d : Nat) (x : Die) : (s.setDie d x).fresh = s.fresh := rfl
@[simp] theorem State.setDie_instant (s : State) (d : Nat) (x : Die) : (s.setDie d x).instant = s.instant := rfl
@[simp] theorem State.setDie_agenda (s : State) (d : Nat) (x : Die) : (s.setDie d x).agenda = s.agenda := rfl
@[simp] theorem State.setDie_cur (s : State) (d : Nat) (x : Die) : (s.setDie d x).cur = s.cur := rfl
@[simp] theorem State.setDie_mod (s : State) (d : Nat) (x : Die) : (s.setDie d x).mod = s.mod := rfl
@[simp] theorem State.setDie_cores (s : State) (d : Nat) (x : Die) : (s.setDie d x).cores = s.cores := rfl
@[simp] theorem State.setDie_ctxs (s : State) (d : Nat) (x : Die) : (s.setDie d x).ctxs = s.ctxs := rfl
@[simp] theorem State.setDie_queues (s : State) (d : Nat) (x : Die) : (s.setDie d x).queues = s.queues := rfl
@[simp] theorem State.setDie_kernels (s : State) (d : Nat) (x : Die) : (s.setDie d x).kernels = s.kernels := rfl
@[simp] theorem State.setDie_shares (s : State) (d : Nat) (x : Die) : (s.setDie d x).shares = s.shares := rfl
@[simp] theorem State.setDie_blocks (s : State) (d : Nat) (x : Die) : (s.setDie d x).blocks = s.blocks := rfl
@[simp] theorem State.setDie_warps (s : State) (d : Nat) (x : Die) : (s.setDie d x).warps = s.warps := rfl
@[simp] theorem State.setDie_parks (s : State) (d : Nat) (x : Die) : (s.setDie d x).parks = s.parks := rfl
@[simp] theorem State.setDie_ops (s : State) (d : Nat) (x : Die) : (s.setDie d x).ops = s.ops := rfl
@[simp] theorem State.setDie_sfu (s : State) (d : Nat) (x : Die) : (s.setDie d x).sfu = s.sfu := rfl
@[simp] theorem State.setDie_copies (s : State) (d : Nat) (x : Die) : (s.setDie d x).copies = s.copies := rfl
@[simp] theorem State.setDie_parts (s : State) (d : Nat) (x : Die) : (s.setDie d x).parts = s.parts := rfl
@[simp] theorem State.setDie_tops (s : State) (d : Nat) (x : Die) : (s.setDie d x).tops = s.tops := rfl
@[simp] theorem State.setDie_rwaits (s : State) (d : Nat) (x : Die) : (s.setDie d x).rwaits = s.rwaits := rfl
@[simp] theorem State.setDie_rwaitW (s : State) (d : Nat) (x : Die) : (s.setDie d x).rwaitW = s.rwaitW := rfl
@[simp] theorem State.setDie_acts (s : State) (d : Nat) (x : Die) : (s.setDie d x).acts = s.acts := rfl
@[simp] theorem State.setDie_runs (s : State) (d : Nat) (x : Die) : (s.setDie d x).runs = s.runs := rfl
@[simp] theorem State.setDie_chunks (s : State) (d : Nat) (x : Die) : (s.setDie d x).chunks = s.chunks := rfl

@[simp] theorem State.setCore_fresh (s : State) (d c : Nat) (x : Core) : (s.setCore d c x).fresh = s.fresh := rfl
@[simp] theorem State.setCore_instant (s : State) (d c : Nat) (x : Core) : (s.setCore d c x).instant = s.instant := rfl
@[simp] theorem State.setCore_agenda (s : State) (d c : Nat) (x : Core) : (s.setCore d c x).agenda = s.agenda := rfl
@[simp] theorem State.setCore_cur (s : State) (d c : Nat) (x : Core) : (s.setCore d c x).cur = s.cur := rfl
@[simp] theorem State.setCore_mod (s : State) (d c : Nat) (x : Core) : (s.setCore d c x).mod = s.mod := rfl
@[simp] theorem State.setCore_dies (s : State) (d c : Nat) (x : Core) : (s.setCore d c x).dies = s.dies := rfl
@[simp] theorem State.setCore_ctxs (s : State) (d c : Nat) (x : Core) : (s.setCore d c x).ctxs = s.ctxs := rfl
@[simp] theorem State.setCore_queues (s : State) (d c : Nat) (x : Core) : (s.setCore d c x).queues = s.queues := rfl
@[simp] theorem State.setCore_kernels (s : State) (d c : Nat) (x : Core) : (s.setCore d c x).kernels = s.kernels := rfl
@[simp] theorem State.setCore_shares (s : State) (d c : Nat) (x : Core) : (s.setCore d c x).shares = s.shares := rfl
@[simp] theorem State.setCore_blocks (s : State) (d c : Nat) (x : Core) : (s.setCore d c x).blocks = s.blocks := rfl
@[simp] theorem State.setCore_warps (s : State) (d c : Nat) (x : Core) : (s.setCore d c x).warps = s.warps := rfl
@[simp] theorem State.setCore_parks (s : State) (d c : Nat) (x : Core) : (s.setCore d c x).parks = s.parks := rfl
@[simp] theorem State.setCore_ops (s : State) (d c : Nat) (x : Core) : (s.setCore d c x).ops = s.ops := rfl
@[simp] theorem State.setCore_sfu (s : State) (d c : Nat) (x : Core) : (s.setCore d c x).sfu = s.sfu := rfl
@[simp] theorem State.setCore_copies (s : State) (d c : Nat) (x : Core) : (s.setCore d c x).copies = s.copies := rfl
@[simp] theorem State.setCore_parts (s : State) (d c : Nat) (x : Core) : (s.setCore d c x).parts = s.parts := rfl
@[simp] theorem State.setCore_tops (s : State) (d c : Nat) (x : Core) : (s.setCore d c x).tops = s.tops := rfl
@[simp] theorem State.setCore_rwaits (s : State) (d c : Nat) (x : Core) : (s.setCore d c x).rwaits = s.rwaits := rfl
@[simp] theorem State.setCore_rwaitW (s : State) (d c : Nat) (x : Core) : (s.setCore d c x).rwaitW = s.rwaitW := rfl
@[simp] theorem State.setCore_acts (s : State) (d c : Nat) (x : Core) : (s.setCore d c x).acts = s.acts := rfl
@[simp] theorem State.setCore_runs (s : State) (d c : Nat) (x : Core) : (s.setCore d c x).runs = s.runs := rfl
@[simp] theorem State.setCore_chunks (s : State) (d c : Nat) (x : Core) : (s.setCore d c x).chunks = s.chunks := rfl

@[simp] theorem State.setCtx_fresh (s : State) (c : Nat) (x : Context) : (s.setCtx c x).fresh = s.fresh := rfl
@[simp] theorem State.setCtx_instant (s : State) (c : Nat) (x : Context) : (s.setCtx c x).instant = s.instant := rfl
@[simp] theorem State.setCtx_agenda (s : State) (c : Nat) (x : Context) : (s.setCtx c x).agenda = s.agenda := rfl
@[simp] theorem State.setCtx_cur (s : State) (c : Nat) (x : Context) : (s.setCtx c x).cur = s.cur := rfl
@[simp] theorem State.setCtx_mod (s : State) (c : Nat) (x : Context) : (s.setCtx c x).mod = s.mod := rfl
@[simp] theorem State.setCtx_dies (s : State) (c : Nat) (x : Context) : (s.setCtx c x).dies = s.dies := rfl
@[simp] theorem State.setCtx_cores (s : State) (c : Nat) (x : Context) : (s.setCtx c x).cores = s.cores := rfl
@[simp] theorem State.setCtx_queues (s : State) (c : Nat) (x : Context) : (s.setCtx c x).queues = s.queues := rfl
@[simp] theorem State.setCtx_kernels (s : State) (c : Nat) (x : Context) : (s.setCtx c x).kernels = s.kernels := rfl
@[simp] theorem State.setCtx_shares (s : State) (c : Nat) (x : Context) : (s.setCtx c x).shares = s.shares := rfl
@[simp] theorem State.setCtx_blocks (s : State) (c : Nat) (x : Context) : (s.setCtx c x).blocks = s.blocks := rfl
@[simp] theorem State.setCtx_warps (s : State) (c : Nat) (x : Context) : (s.setCtx c x).warps = s.warps := rfl
@[simp] theorem State.setCtx_parks (s : State) (c : Nat) (x : Context) : (s.setCtx c x).parks = s.parks := rfl
@[simp] theorem State.setCtx_ops (s : State) (c : Nat) (x : Context) : (s.setCtx c x).ops = s.ops := rfl
@[simp] theorem State.setCtx_sfu (s : State) (c : Nat) (x : Context) : (s.setCtx c x).sfu = s.sfu := rfl
@[simp] theorem State.setCtx_copies (s : State) (c : Nat) (x : Context) : (s.setCtx c x).copies = s.copies := rfl
@[simp] theorem State.setCtx_parts (s : State) (c : Nat) (x : Context) : (s.setCtx c x).parts = s.parts := rfl
@[simp] theorem State.setCtx_tops (s : State) (c : Nat) (x : Context) : (s.setCtx c x).tops = s.tops := rfl
@[simp] theorem State.setCtx_rwaits (s : State) (c : Nat) (x : Context) : (s.setCtx c x).rwaits = s.rwaits := rfl
@[simp] theorem State.setCtx_rwaitW (s : State) (c : Nat) (x : Context) : (s.setCtx c x).rwaitW = s.rwaitW := rfl
@[simp] theorem State.setCtx_acts (s : State) (c : Nat) (x : Context) : (s.setCtx c x).acts = s.acts := rfl
@[simp] theorem State.setCtx_runs (s : State) (c : Nat) (x : Context) : (s.setCtx c x).runs = s.runs := rfl
@[simp] theorem State.setCtx_chunks (s : State) (c : Nat) (x : Context) : (s.setCtx c x).chunks = s.chunks := rfl

@[simp] theorem State.setQueue_fresh (s : State) (q : Nat) (x : Queue) : (s.setQueue q x).fresh = s.fresh := rfl
@[simp] theorem State.setQueue_instant (s : State) (q : Nat) (x : Queue) : (s.setQueue q x).instant = s.instant := rfl
@[simp] theorem State.setQueue_agenda (s : State) (q : Nat) (x : Queue) : (s.setQueue q x).agenda = s.agenda := rfl
@[simp] theorem State.setQueue_cur (s : State) (q : Nat) (x : Queue) : (s.setQueue q x).cur = s.cur := rfl
@[simp] theorem State.setQueue_mod (s : State) (q : Nat) (x : Queue) : (s.setQueue q x).mod = s.mod := rfl
@[simp] theorem State.setQueue_dies (s : State) (q : Nat) (x : Queue) : (s.setQueue q x).dies = s.dies := rfl
@[simp] theorem State.setQueue_cores (s : State) (q : Nat) (x : Queue) : (s.setQueue q x).cores = s.cores := rfl
@[simp] theorem State.setQueue_ctxs (s : State) (q : Nat) (x : Queue) : (s.setQueue q x).ctxs = s.ctxs := rfl
@[simp] theorem State.setQueue_kernels (s : State) (q : Nat) (x : Queue) : (s.setQueue q x).kernels = s.kernels := rfl
@[simp] theorem State.setQueue_shares (s : State) (q : Nat) (x : Queue) : (s.setQueue q x).shares = s.shares := rfl
@[simp] theorem State.setQueue_blocks (s : State) (q : Nat) (x : Queue) : (s.setQueue q x).blocks = s.blocks := rfl
@[simp] theorem State.setQueue_warps (s : State) (q : Nat) (x : Queue) : (s.setQueue q x).warps = s.warps := rfl
@[simp] theorem State.setQueue_parks (s : State) (q : Nat) (x : Queue) : (s.setQueue q x).parks = s.parks := rfl
@[simp] theorem State.setQueue_ops (s : State) (q : Nat) (x : Queue) : (s.setQueue q x).ops = s.ops := rfl
@[simp] theorem State.setQueue_sfu (s : State) (q : Nat) (x : Queue) : (s.setQueue q x).sfu = s.sfu := rfl
@[simp] theorem State.setQueue_copies (s : State) (q : Nat) (x : Queue) : (s.setQueue q x).copies = s.copies := rfl
@[simp] theorem State.setQueue_parts (s : State) (q : Nat) (x : Queue) : (s.setQueue q x).parts = s.parts := rfl
@[simp] theorem State.setQueue_tops (s : State) (q : Nat) (x : Queue) : (s.setQueue q x).tops = s.tops := rfl
@[simp] theorem State.setQueue_rwaits (s : State) (q : Nat) (x : Queue) : (s.setQueue q x).rwaits = s.rwaits := rfl
@[simp] theorem State.setQueue_rwaitW (s : State) (q : Nat) (x : Queue) : (s.setQueue q x).rwaitW = s.rwaitW := rfl
@[simp] theorem State.setQueue_acts (s : State) (q : Nat) (x : Queue) : (s.setQueue q x).acts = s.acts := rfl
@[simp] theorem State.setQueue_runs (s : State) (q : Nat) (x : Queue) : (s.setQueue q x).runs = s.runs := rfl
@[simp] theorem State.setQueue_chunks (s : State) (q : Nat) (x : Queue) : (s.setQueue q x).chunks = s.chunks := rfl

@[simp] theorem State.setWarp_fresh (s : State) (w : Nat) (x : Warp) : (s.setWarp w x).fresh = s.fresh := rfl
@[simp] theorem State.setWarp_instant (s : State) (w : Nat) (x : Warp) : (s.setWarp w x).instant = s.instant := rfl
@[simp] theorem State.setWarp_agenda (s : State) (w : Nat) (x : Warp) : (s.setWarp w x).agenda = s.agenda := rfl
@[simp] theorem State.setWarp_cur (s : State) (w : Nat) (x : Warp) : (s.setWarp w x).cur = s.cur := rfl
@[simp] theorem State.setWarp_mod (s : State) (w : Nat) (x : Warp) : (s.setWarp w x).mod = s.mod := rfl
@[simp] theorem State.setWarp_dies (s : State) (w : Nat) (x : Warp) : (s.setWarp w x).dies = s.dies := rfl
@[simp] theorem State.setWarp_cores (s : State) (w : Nat) (x : Warp) : (s.setWarp w x).cores = s.cores := rfl
@[simp] theorem State.setWarp_ctxs (s : State) (w : Nat) (x : Warp) : (s.setWarp w x).ctxs = s.ctxs := rfl
@[simp] theorem State.setWarp_queues (s : State) (w : Nat) (x : Warp) : (s.setWarp w x).queues = s.queues := rfl
@[simp] theorem State.setWarp_kernels (s : State) (w : Nat) (x : Warp) : (s.setWarp w x).kernels = s.kernels := rfl
@[simp] theorem State.setWarp_shares (s : State) (w : Nat) (x : Warp) : (s.setWarp w x).shares = s.shares := rfl
@[simp] theorem State.setWarp_blocks (s : State) (w : Nat) (x : Warp) : (s.setWarp w x).blocks = s.blocks := rfl
@[simp] theorem State.setWarp_parks (s : State) (w : Nat) (x : Warp) : (s.setWarp w x).parks = s.parks := rfl
@[simp] theorem State.setWarp_ops (s : State) (w : Nat) (x : Warp) : (s.setWarp w x).ops = s.ops := rfl
@[simp] theorem State.setWarp_sfu (s : State) (w : Nat) (x : Warp) : (s.setWarp w x).sfu = s.sfu := rfl
@[simp] theorem State.setWarp_copies (s : State) (w : Nat) (x : Warp) : (s.setWarp w x).copies = s.copies := rfl
@[simp] theorem State.setWarp_parts (s : State) (w : Nat) (x : Warp) : (s.setWarp w x).parts = s.parts := rfl
@[simp] theorem State.setWarp_tops (s : State) (w : Nat) (x : Warp) : (s.setWarp w x).tops = s.tops := rfl
@[simp] theorem State.setWarp_rwaits (s : State) (w : Nat) (x : Warp) : (s.setWarp w x).rwaits = s.rwaits := rfl
@[simp] theorem State.setWarp_rwaitW (s : State) (w : Nat) (x : Warp) : (s.setWarp w x).rwaitW = s.rwaitW := rfl
@[simp] theorem State.setWarp_acts (s : State) (w : Nat) (x : Warp) : (s.setWarp w x).acts = s.acts := rfl
@[simp] theorem State.setWarp_runs (s : State) (w : Nat) (x : Warp) : (s.setWarp w x).runs = s.runs := rfl
@[simp] theorem State.setWarp_chunks (s : State) (w : Nat) (x : Warp) : (s.setWarp w x).chunks = s.chunks := rfl

@[simp] theorem State.setBlock_fresh (s : State) (b : Nat) (x : Block) : (s.setBlock b x).fresh = s.fresh := rfl
@[simp] theorem State.setBlock_instant (s : State) (b : Nat) (x : Block) : (s.setBlock b x).instant = s.instant := rfl
@[simp] theorem State.setBlock_agenda (s : State) (b : Nat) (x : Block) : (s.setBlock b x).agenda = s.agenda := rfl
@[simp] theorem State.setBlock_cur (s : State) (b : Nat) (x : Block) : (s.setBlock b x).cur = s.cur := rfl
@[simp] theorem State.setBlock_mod (s : State) (b : Nat) (x : Block) : (s.setBlock b x).mod = s.mod := rfl
@[simp] theorem State.setBlock_dies (s : State) (b : Nat) (x : Block) : (s.setBlock b x).dies = s.dies := rfl
@[simp] theorem State.setBlock_cores (s : State) (b : Nat) (x : Block) : (s.setBlock b x).cores = s.cores := rfl
@[simp] theorem State.setBlock_ctxs (s : State) (b : Nat) (x : Block) : (s.setBlock b x).ctxs = s.ctxs := rfl
@[simp] theorem State.setBlock_queues (s : State) (b : Nat) (x : Block) : (s.setBlock b x).queues = s.queues := rfl
@[simp] theorem State.setBlock_kernels (s : State) (b : Nat) (x : Block) : (s.setBlock b x).kernels = s.kernels := rfl
@[simp] theorem State.setBlock_shares (s : State) (b : Nat) (x : Block) : (s.setBlock b x).shares = s.shares := rfl
@[simp] theorem State.setBlock_warps (s : State) (b : Nat) (x : Block) : (s.setBlock b x).warps = s.warps := rfl
@[simp] theorem State.setBlock_parks (s : State) (b : Nat) (x : Block) : (s.setBlock b x).parks = s.parks := rfl
@[simp] theorem State.setBlock_ops (s : State) (b : Nat) (x : Block) : (s.setBlock b x).ops = s.ops := rfl
@[simp] theorem State.setBlock_sfu (s : State) (b : Nat) (x : Block) : (s.setBlock b x).sfu = s.sfu := rfl
@[simp] theorem State.setBlock_copies (s : State) (b : Nat) (x : Block) : (s.setBlock b x).copies = s.copies := rfl
@[simp] theorem State.setBlock_parts (s : State) (b : Nat) (x : Block) : (s.setBlock b x).parts = s.parts := rfl
@[simp] theorem State.setBlock_tops (s : State) (b : Nat) (x : Block) : (s.setBlock b x).tops = s.tops := rfl
@[simp] theorem State.setBlock_rwaits (s : State) (b : Nat) (x : Block) : (s.setBlock b x).rwaits = s.rwaits := rfl
@[simp] theorem State.setBlock_rwaitW (s : State) (b : Nat) (x : Block) : (s.setBlock b x).rwaitW = s.rwaitW := rfl
@[simp] theorem State.setBlock_acts (s : State) (b : Nat) (x : Block) : (s.setBlock b x).acts = s.acts := rfl
@[simp] theorem State.setBlock_runs (s : State) (b : Nat) (x : Block) : (s.setBlock b x).runs = s.runs := rfl
@[simp] theorem State.setBlock_chunks (s : State) (b : Nat) (x : Block) : (s.setBlock b x).chunks = s.chunks := rfl

@[simp] theorem State.setShare_fresh (s : State) (h : Nat) (x : Share) : (s.setShare h x).fresh = s.fresh := rfl
@[simp] theorem State.setShare_instant (s : State) (h : Nat) (x : Share) : (s.setShare h x).instant = s.instant := rfl
@[simp] theorem State.setShare_agenda (s : State) (h : Nat) (x : Share) : (s.setShare h x).agenda = s.agenda := rfl
@[simp] theorem State.setShare_cur (s : State) (h : Nat) (x : Share) : (s.setShare h x).cur = s.cur := rfl
@[simp] theorem State.setShare_mod (s : State) (h : Nat) (x : Share) : (s.setShare h x).mod = s.mod := rfl
@[simp] theorem State.setShare_dies (s : State) (h : Nat) (x : Share) : (s.setShare h x).dies = s.dies := rfl
@[simp] theorem State.setShare_cores (s : State) (h : Nat) (x : Share) : (s.setShare h x).cores = s.cores := rfl
@[simp] theorem State.setShare_ctxs (s : State) (h : Nat) (x : Share) : (s.setShare h x).ctxs = s.ctxs := rfl
@[simp] theorem State.setShare_queues (s : State) (h : Nat) (x : Share) : (s.setShare h x).queues = s.queues := rfl
@[simp] theorem State.setShare_kernels (s : State) (h : Nat) (x : Share) : (s.setShare h x).kernels = s.kernels := rfl
@[simp] theorem State.setShare_blocks (s : State) (h : Nat) (x : Share) : (s.setShare h x).blocks = s.blocks := rfl
@[simp] theorem State.setShare_warps (s : State) (h : Nat) (x : Share) : (s.setShare h x).warps = s.warps := rfl
@[simp] theorem State.setShare_parks (s : State) (h : Nat) (x : Share) : (s.setShare h x).parks = s.parks := rfl
@[simp] theorem State.setShare_ops (s : State) (h : Nat) (x : Share) : (s.setShare h x).ops = s.ops := rfl
@[simp] theorem State.setShare_sfu (s : State) (h : Nat) (x : Share) : (s.setShare h x).sfu = s.sfu := rfl
@[simp] theorem State.setShare_copies (s : State) (h : Nat) (x : Share) : (s.setShare h x).copies = s.copies := rfl
@[simp] theorem State.setShare_parts (s : State) (h : Nat) (x : Share) : (s.setShare h x).parts = s.parts := rfl
@[simp] theorem State.setShare_tops (s : State) (h : Nat) (x : Share) : (s.setShare h x).tops = s.tops := rfl
@[simp] theorem State.setShare_rwaits (s : State) (h : Nat) (x : Share) : (s.setShare h x).rwaits = s.rwaits := rfl
@[simp] theorem State.setShare_rwaitW (s : State) (h : Nat) (x : Share) : (s.setShare h x).rwaitW = s.rwaitW := rfl
@[simp] theorem State.setShare_acts (s : State) (h : Nat) (x : Share) : (s.setShare h x).acts = s.acts := rfl
@[simp] theorem State.setShare_runs (s : State) (h : Nat) (x : Share) : (s.setShare h x).runs = s.runs := rfl
@[simp] theorem State.setShare_chunks (s : State) (h : Nat) (x : Share) : (s.setShare h x).chunks = s.chunks := rfl

@[simp] theorem State.setKernel_fresh (s : State) (k : Nat) (x : Kernel) : (s.setKernel k x).fresh = s.fresh := rfl
@[simp] theorem State.setKernel_instant (s : State) (k : Nat) (x : Kernel) : (s.setKernel k x).instant = s.instant := rfl
@[simp] theorem State.setKernel_agenda (s : State) (k : Nat) (x : Kernel) : (s.setKernel k x).agenda = s.agenda := rfl
@[simp] theorem State.setKernel_cur (s : State) (k : Nat) (x : Kernel) : (s.setKernel k x).cur = s.cur := rfl
@[simp] theorem State.setKernel_mod (s : State) (k : Nat) (x : Kernel) : (s.setKernel k x).mod = s.mod := rfl
@[simp] theorem State.setKernel_dies (s : State) (k : Nat) (x : Kernel) : (s.setKernel k x).dies = s.dies := rfl
@[simp] theorem State.setKernel_cores (s : State) (k : Nat) (x : Kernel) : (s.setKernel k x).cores = s.cores := rfl
@[simp] theorem State.setKernel_ctxs (s : State) (k : Nat) (x : Kernel) : (s.setKernel k x).ctxs = s.ctxs := rfl
@[simp] theorem State.setKernel_queues (s : State) (k : Nat) (x : Kernel) : (s.setKernel k x).queues = s.queues := rfl
@[simp] theorem State.setKernel_shares (s : State) (k : Nat) (x : Kernel) : (s.setKernel k x).shares = s.shares := rfl
@[simp] theorem State.setKernel_blocks (s : State) (k : Nat) (x : Kernel) : (s.setKernel k x).blocks = s.blocks := rfl
@[simp] theorem State.setKernel_warps (s : State) (k : Nat) (x : Kernel) : (s.setKernel k x).warps = s.warps := rfl
@[simp] theorem State.setKernel_parks (s : State) (k : Nat) (x : Kernel) : (s.setKernel k x).parks = s.parks := rfl
@[simp] theorem State.setKernel_ops (s : State) (k : Nat) (x : Kernel) : (s.setKernel k x).ops = s.ops := rfl
@[simp] theorem State.setKernel_sfu (s : State) (k : Nat) (x : Kernel) : (s.setKernel k x).sfu = s.sfu := rfl
@[simp] theorem State.setKernel_copies (s : State) (k : Nat) (x : Kernel) : (s.setKernel k x).copies = s.copies := rfl
@[simp] theorem State.setKernel_parts (s : State) (k : Nat) (x : Kernel) : (s.setKernel k x).parts = s.parts := rfl
@[simp] theorem State.setKernel_tops (s : State) (k : Nat) (x : Kernel) : (s.setKernel k x).tops = s.tops := rfl
@[simp] theorem State.setKernel_rwaits (s : State) (k : Nat) (x : Kernel) : (s.setKernel k x).rwaits = s.rwaits := rfl
@[simp] theorem State.setKernel_rwaitW (s : State) (k : Nat) (x : Kernel) : (s.setKernel k x).rwaitW = s.rwaitW := rfl
@[simp] theorem State.setKernel_acts (s : State) (k : Nat) (x : Kernel) : (s.setKernel k x).acts = s.acts := rfl
@[simp] theorem State.setKernel_runs (s : State) (k : Nat) (x : Kernel) : (s.setKernel k x).runs = s.runs := rfl
@[simp] theorem State.setKernel_chunks (s : State) (k : Nat) (x : Kernel) : (s.setKernel k x).chunks = s.chunks := rfl

@[simp] theorem State.modDie_fresh (s : State) (d : Nat) (f : Die → Die) : (s.modDie d f).fresh = s.fresh := rfl
@[simp] theorem State.modDie_instant (s : State) (d : Nat) (f : Die → Die) : (s.modDie d f).instant = s.instant := rfl
@[simp] theorem State.modDie_agenda (s : State) (d : Nat) (f : Die → Die) : (s.modDie d f).agenda = s.agenda := rfl
@[simp] theorem State.modDie_cur (s : State) (d : Nat) (f : Die → Die) : (s.modDie d f).cur = s.cur := rfl
@[simp] theorem State.modDie_mod (s : State) (d : Nat) (f : Die → Die) : (s.modDie d f).mod = s.mod := rfl
@[simp] theorem State.modDie_cores (s : State) (d : Nat) (f : Die → Die) : (s.modDie d f).cores = s.cores := rfl
@[simp] theorem State.modDie_ctxs (s : State) (d : Nat) (f : Die → Die) : (s.modDie d f).ctxs = s.ctxs := rfl
@[simp] theorem State.modDie_queues (s : State) (d : Nat) (f : Die → Die) : (s.modDie d f).queues = s.queues := rfl
@[simp] theorem State.modDie_kernels (s : State) (d : Nat) (f : Die → Die) : (s.modDie d f).kernels = s.kernels := rfl
@[simp] theorem State.modDie_shares (s : State) (d : Nat) (f : Die → Die) : (s.modDie d f).shares = s.shares := rfl
@[simp] theorem State.modDie_blocks (s : State) (d : Nat) (f : Die → Die) : (s.modDie d f).blocks = s.blocks := rfl
@[simp] theorem State.modDie_warps (s : State) (d : Nat) (f : Die → Die) : (s.modDie d f).warps = s.warps := rfl
@[simp] theorem State.modDie_parks (s : State) (d : Nat) (f : Die → Die) : (s.modDie d f).parks = s.parks := rfl
@[simp] theorem State.modDie_ops (s : State) (d : Nat) (f : Die → Die) : (s.modDie d f).ops = s.ops := rfl
@[simp] theorem State.modDie_sfu (s : State) (d : Nat) (f : Die → Die) : (s.modDie d f).sfu = s.sfu := rfl
@[simp] theorem State.modDie_copies (s : State) (d : Nat) (f : Die → Die) : (s.modDie d f).copies = s.copies := rfl
@[simp] theorem State.modDie_parts (s : State) (d : Nat) (f : Die → Die) : (s.modDie d f).parts = s.parts := rfl
@[simp] theorem State.modDie_tops (s : State) (d : Nat) (f : Die → Die) : (s.modDie d f).tops = s.tops := rfl
@[simp] theorem State.modDie_rwaits (s : State) (d : Nat) (f : Die → Die) : (s.modDie d f).rwaits = s.rwaits := rfl
@[simp] theorem State.modDie_rwaitW (s : State) (d : Nat) (f : Die → Die) : (s.modDie d f).rwaitW = s.rwaitW := rfl
@[simp] theorem State.modDie_acts (s : State) (d : Nat) (f : Die → Die) : (s.modDie d f).acts = s.acts := rfl
@[simp] theorem State.modDie_runs (s : State) (d : Nat) (f : Die → Die) : (s.modDie d f).runs = s.runs := rfl
@[simp] theorem State.modDie_chunks (s : State) (d : Nat) (f : Die → Die) : (s.modDie d f).chunks = s.chunks := rfl

@[simp] theorem State.modCore_fresh (s : State) (d c : Nat) (f : Core → Core) : (s.modCore d c f).fresh = s.fresh := rfl
@[simp] theorem State.modCore_instant (s : State) (d c : Nat) (f : Core → Core) : (s.modCore d c f).instant = s.instant := rfl
@[simp] theorem State.modCore_agenda (s : State) (d c : Nat) (f : Core → Core) : (s.modCore d c f).agenda = s.agenda := rfl
@[simp] theorem State.modCore_cur (s : State) (d c : Nat) (f : Core → Core) : (s.modCore d c f).cur = s.cur := rfl
@[simp] theorem State.modCore_mod (s : State) (d c : Nat) (f : Core → Core) : (s.modCore d c f).mod = s.mod := rfl
@[simp] theorem State.modCore_dies (s : State) (d c : Nat) (f : Core → Core) : (s.modCore d c f).dies = s.dies := rfl
@[simp] theorem State.modCore_ctxs (s : State) (d c : Nat) (f : Core → Core) : (s.modCore d c f).ctxs = s.ctxs := rfl
@[simp] theorem State.modCore_queues (s : State) (d c : Nat) (f : Core → Core) : (s.modCore d c f).queues = s.queues := rfl
@[simp] theorem State.modCore_kernels (s : State) (d c : Nat) (f : Core → Core) : (s.modCore d c f).kernels = s.kernels := rfl
@[simp] theorem State.modCore_shares (s : State) (d c : Nat) (f : Core → Core) : (s.modCore d c f).shares = s.shares := rfl
@[simp] theorem State.modCore_blocks (s : State) (d c : Nat) (f : Core → Core) : (s.modCore d c f).blocks = s.blocks := rfl
@[simp] theorem State.modCore_warps (s : State) (d c : Nat) (f : Core → Core) : (s.modCore d c f).warps = s.warps := rfl
@[simp] theorem State.modCore_parks (s : State) (d c : Nat) (f : Core → Core) : (s.modCore d c f).parks = s.parks := rfl
@[simp] theorem State.modCore_ops (s : State) (d c : Nat) (f : Core → Core) : (s.modCore d c f).ops = s.ops := rfl
@[simp] theorem State.modCore_sfu (s : State) (d c : Nat) (f : Core → Core) : (s.modCore d c f).sfu = s.sfu := rfl
@[simp] theorem State.modCore_copies (s : State) (d c : Nat) (f : Core → Core) : (s.modCore d c f).copies = s.copies := rfl
@[simp] theorem State.modCore_parts (s : State) (d c : Nat) (f : Core → Core) : (s.modCore d c f).parts = s.parts := rfl
@[simp] theorem State.modCore_tops (s : State) (d c : Nat) (f : Core → Core) : (s.modCore d c f).tops = s.tops := rfl
@[simp] theorem State.modCore_rwaits (s : State) (d c : Nat) (f : Core → Core) : (s.modCore d c f).rwaits = s.rwaits := rfl
@[simp] theorem State.modCore_rwaitW (s : State) (d c : Nat) (f : Core → Core) : (s.modCore d c f).rwaitW = s.rwaitW := rfl
@[simp] theorem State.modCore_acts (s : State) (d c : Nat) (f : Core → Core) : (s.modCore d c f).acts = s.acts := rfl
@[simp] theorem State.modCore_runs (s : State) (d c : Nat) (f : Core → Core) : (s.modCore d c f).runs = s.runs := rfl
@[simp] theorem State.modCore_chunks (s : State) (d c : Nat) (f : Core → Core) : (s.modCore d c f).chunks = s.chunks := rfl

@[simp] theorem State.modCtx_fresh (s : State) (c : Nat) (f : Context → Context) : (s.modCtx c f).fresh = s.fresh := rfl
@[simp] theorem State.modCtx_instant (s : State) (c : Nat) (f : Context → Context) : (s.modCtx c f).instant = s.instant := rfl
@[simp] theorem State.modCtx_agenda (s : State) (c : Nat) (f : Context → Context) : (s.modCtx c f).agenda = s.agenda := rfl
@[simp] theorem State.modCtx_cur (s : State) (c : Nat) (f : Context → Context) : (s.modCtx c f).cur = s.cur := rfl
@[simp] theorem State.modCtx_mod (s : State) (c : Nat) (f : Context → Context) : (s.modCtx c f).mod = s.mod := rfl
@[simp] theorem State.modCtx_dies (s : State) (c : Nat) (f : Context → Context) : (s.modCtx c f).dies = s.dies := rfl
@[simp] theorem State.modCtx_cores (s : State) (c : Nat) (f : Context → Context) : (s.modCtx c f).cores = s.cores := rfl
@[simp] theorem State.modCtx_queues (s : State) (c : Nat) (f : Context → Context) : (s.modCtx c f).queues = s.queues := rfl
@[simp] theorem State.modCtx_kernels (s : State) (c : Nat) (f : Context → Context) : (s.modCtx c f).kernels = s.kernels := rfl
@[simp] theorem State.modCtx_shares (s : State) (c : Nat) (f : Context → Context) : (s.modCtx c f).shares = s.shares := rfl
@[simp] theorem State.modCtx_blocks (s : State) (c : Nat) (f : Context → Context) : (s.modCtx c f).blocks = s.blocks := rfl
@[simp] theorem State.modCtx_warps (s : State) (c : Nat) (f : Context → Context) : (s.modCtx c f).warps = s.warps := rfl
@[simp] theorem State.modCtx_parks (s : State) (c : Nat) (f : Context → Context) : (s.modCtx c f).parks = s.parks := rfl
@[simp] theorem State.modCtx_ops (s : State) (c : Nat) (f : Context → Context) : (s.modCtx c f).ops = s.ops := rfl
@[simp] theorem State.modCtx_sfu (s : State) (c : Nat) (f : Context → Context) : (s.modCtx c f).sfu = s.sfu := rfl
@[simp] theorem State.modCtx_copies (s : State) (c : Nat) (f : Context → Context) : (s.modCtx c f).copies = s.copies := rfl
@[simp] theorem State.modCtx_parts (s : State) (c : Nat) (f : Context → Context) : (s.modCtx c f).parts = s.parts := rfl
@[simp] theorem State.modCtx_tops (s : State) (c : Nat) (f : Context → Context) : (s.modCtx c f).tops = s.tops := rfl
@[simp] theorem State.modCtx_rwaits (s : State) (c : Nat) (f : Context → Context) : (s.modCtx c f).rwaits = s.rwaits := rfl
@[simp] theorem State.modCtx_rwaitW (s : State) (c : Nat) (f : Context → Context) : (s.modCtx c f).rwaitW = s.rwaitW := rfl
@[simp] theorem State.modCtx_acts (s : State) (c : Nat) (f : Context → Context) : (s.modCtx c f).acts = s.acts := rfl
@[simp] theorem State.modCtx_runs (s : State) (c : Nat) (f : Context → Context) : (s.modCtx c f).runs = s.runs := rfl
@[simp] theorem State.modCtx_chunks (s : State) (c : Nat) (f : Context → Context) : (s.modCtx c f).chunks = s.chunks := rfl

@[simp] theorem State.modQueue_fresh (s : State) (q : Nat) (f : Queue → Queue) : (s.modQueue q f).fresh = s.fresh := rfl
@[simp] theorem State.modQueue_instant (s : State) (q : Nat) (f : Queue → Queue) : (s.modQueue q f).instant = s.instant := rfl
@[simp] theorem State.modQueue_agenda (s : State) (q : Nat) (f : Queue → Queue) : (s.modQueue q f).agenda = s.agenda := rfl
@[simp] theorem State.modQueue_cur (s : State) (q : Nat) (f : Queue → Queue) : (s.modQueue q f).cur = s.cur := rfl
@[simp] theorem State.modQueue_mod (s : State) (q : Nat) (f : Queue → Queue) : (s.modQueue q f).mod = s.mod := rfl
@[simp] theorem State.modQueue_dies (s : State) (q : Nat) (f : Queue → Queue) : (s.modQueue q f).dies = s.dies := rfl
@[simp] theorem State.modQueue_cores (s : State) (q : Nat) (f : Queue → Queue) : (s.modQueue q f).cores = s.cores := rfl
@[simp] theorem State.modQueue_ctxs (s : State) (q : Nat) (f : Queue → Queue) : (s.modQueue q f).ctxs = s.ctxs := rfl
@[simp] theorem State.modQueue_kernels (s : State) (q : Nat) (f : Queue → Queue) : (s.modQueue q f).kernels = s.kernels := rfl
@[simp] theorem State.modQueue_shares (s : State) (q : Nat) (f : Queue → Queue) : (s.modQueue q f).shares = s.shares := rfl
@[simp] theorem State.modQueue_blocks (s : State) (q : Nat) (f : Queue → Queue) : (s.modQueue q f).blocks = s.blocks := rfl
@[simp] theorem State.modQueue_warps (s : State) (q : Nat) (f : Queue → Queue) : (s.modQueue q f).warps = s.warps := rfl
@[simp] theorem State.modQueue_parks (s : State) (q : Nat) (f : Queue → Queue) : (s.modQueue q f).parks = s.parks := rfl
@[simp] theorem State.modQueue_ops (s : State) (q : Nat) (f : Queue → Queue) : (s.modQueue q f).ops = s.ops := rfl
@[simp] theorem State.modQueue_sfu (s : State) (q : Nat) (f : Queue → Queue) : (s.modQueue q f).sfu = s.sfu := rfl
@[simp] theorem State.modQueue_copies (s : State) (q : Nat) (f : Queue → Queue) : (s.modQueue q f).copies = s.copies := rfl
@[simp] theorem State.modQueue_parts (s : State) (q : Nat) (f : Queue → Queue) : (s.modQueue q f).parts = s.parts := rfl
@[simp] theorem State.modQueue_tops (s : State) (q : Nat) (f : Queue → Queue) : (s.modQueue q f).tops = s.tops := rfl
@[simp] theorem State.modQueue_rwaits (s : State) (q : Nat) (f : Queue → Queue) : (s.modQueue q f).rwaits = s.rwaits := rfl
@[simp] theorem State.modQueue_rwaitW (s : State) (q : Nat) (f : Queue → Queue) : (s.modQueue q f).rwaitW = s.rwaitW := rfl
@[simp] theorem State.modQueue_acts (s : State) (q : Nat) (f : Queue → Queue) : (s.modQueue q f).acts = s.acts := rfl
@[simp] theorem State.modQueue_runs (s : State) (q : Nat) (f : Queue → Queue) : (s.modQueue q f).runs = s.runs := rfl
@[simp] theorem State.modQueue_chunks (s : State) (q : Nat) (f : Queue → Queue) : (s.modQueue q f).chunks = s.chunks := rfl

@[simp] theorem State.modMod_fresh (s : State) (f : Module → Module) : (s.modMod f).fresh = s.fresh := rfl
@[simp] theorem State.modMod_instant (s : State) (f : Module → Module) : (s.modMod f).instant = s.instant := rfl
@[simp] theorem State.modMod_agenda (s : State) (f : Module → Module) : (s.modMod f).agenda = s.agenda := rfl
@[simp] theorem State.modMod_cur (s : State) (f : Module → Module) : (s.modMod f).cur = s.cur := rfl
@[simp] theorem State.modMod_dies (s : State) (f : Module → Module) : (s.modMod f).dies = s.dies := rfl
@[simp] theorem State.modMod_cores (s : State) (f : Module → Module) : (s.modMod f).cores = s.cores := rfl
@[simp] theorem State.modMod_ctxs (s : State) (f : Module → Module) : (s.modMod f).ctxs = s.ctxs := rfl
@[simp] theorem State.modMod_queues (s : State) (f : Module → Module) : (s.modMod f).queues = s.queues := rfl
@[simp] theorem State.modMod_kernels (s : State) (f : Module → Module) : (s.modMod f).kernels = s.kernels := rfl
@[simp] theorem State.modMod_shares (s : State) (f : Module → Module) : (s.modMod f).shares = s.shares := rfl
@[simp] theorem State.modMod_blocks (s : State) (f : Module → Module) : (s.modMod f).blocks = s.blocks := rfl
@[simp] theorem State.modMod_warps (s : State) (f : Module → Module) : (s.modMod f).warps = s.warps := rfl
@[simp] theorem State.modMod_parks (s : State) (f : Module → Module) : (s.modMod f).parks = s.parks := rfl
@[simp] theorem State.modMod_ops (s : State) (f : Module → Module) : (s.modMod f).ops = s.ops := rfl
@[simp] theorem State.modMod_sfu (s : State) (f : Module → Module) : (s.modMod f).sfu = s.sfu := rfl
@[simp] theorem State.modMod_copies (s : State) (f : Module → Module) : (s.modMod f).copies = s.copies := rfl
@[simp] theorem State.modMod_parts (s : State) (f : Module → Module) : (s.modMod f).parts = s.parts := rfl
@[simp] theorem State.modMod_tops (s : State) (f : Module → Module) : (s.modMod f).tops = s.tops := rfl
@[simp] theorem State.modMod_rwaits (s : State) (f : Module → Module) : (s.modMod f).rwaits = s.rwaits := rfl
@[simp] theorem State.modMod_rwaitW (s : State) (f : Module → Module) : (s.modMod f).rwaitW = s.rwaitW := rfl
@[simp] theorem State.modMod_acts (s : State) (f : Module → Module) : (s.modMod f).acts = s.acts := rfl
@[simp] theorem State.modMod_runs (s : State) (f : Module → Module) : (s.modMod f).runs = s.runs := rfl
@[simp] theorem State.modMod_chunks (s : State) (f : Module → Module) : (s.modMod f).chunks = s.chunks := rfl

@[simp] theorem State.bump_instant (s : State) : (s.bump).instant = s.instant := rfl
@[simp] theorem State.bump_agenda (s : State) : (s.bump).agenda = s.agenda := rfl
@[simp] theorem State.bump_cur (s : State) : (s.bump).cur = s.cur := rfl
@[simp] theorem State.bump_mod (s : State) : (s.bump).mod = s.mod := rfl
@[simp] theorem State.bump_dies (s : State) : (s.bump).dies = s.dies := rfl
@[simp] theorem State.bump_cores (s : State) : (s.bump).cores = s.cores := rfl
@[simp] theorem State.bump_ctxs (s : State) : (s.bump).ctxs = s.ctxs := rfl
@[simp] theorem State.bump_queues (s : State) : (s.bump).queues = s.queues := rfl
@[simp] theorem State.bump_kernels (s : State) : (s.bump).kernels = s.kernels := rfl
@[simp] theorem State.bump_shares (s : State) : (s.bump).shares = s.shares := rfl
@[simp] theorem State.bump_blocks (s : State) : (s.bump).blocks = s.blocks := rfl
@[simp] theorem State.bump_warps (s : State) : (s.bump).warps = s.warps := rfl
@[simp] theorem State.bump_parks (s : State) : (s.bump).parks = s.parks := rfl
@[simp] theorem State.bump_ops (s : State) : (s.bump).ops = s.ops := rfl
@[simp] theorem State.bump_sfu (s : State) : (s.bump).sfu = s.sfu := rfl
@[simp] theorem State.bump_copies (s : State) : (s.bump).copies = s.copies := rfl
@[simp] theorem State.bump_parts (s : State) : (s.bump).parts = s.parts := rfl
@[simp] theorem State.bump_tops (s : State) : (s.bump).tops = s.tops := rfl
@[simp] theorem State.bump_rwaits (s : State) : (s.bump).rwaits = s.rwaits := rfl
@[simp] theorem State.bump_rwaitW (s : State) : (s.bump).rwaitW = s.rwaitW := rfl
@[simp] theorem State.bump_acts (s : State) : (s.bump).acts = s.acts := rfl
@[simp] theorem State.bump_runs (s : State) : (s.bump).runs = s.runs := rfl
@[simp] theorem State.bump_chunks (s : State) : (s.bump).chunks = s.chunks := rfl

@[simp] theorem State.modWarp_fresh (s : State) (w : Nat) (f : Warp → Warp) : (s.modWarp w f).fresh = s.fresh := by
  unfold State.modWarp; split <;> rfl
@[simp] theorem State.modWarp_instant (s : State) (w : Nat) (f : Warp → Warp) : (s.modWarp w f).instant = s.instant := by
  unfold State.modWarp; split <;> rfl
@[simp] theorem State.modWarp_agenda (s : State) (w : Nat) (f : Warp → Warp) : (s.modWarp w f).agenda = s.agenda := by
  unfold State.modWarp; split <;> rfl
@[simp] theorem State.modWarp_cur (s : State) (w : Nat) (f : Warp → Warp) : (s.modWarp w f).cur = s.cur := by
  unfold State.modWarp; split <;> rfl
@[simp] theorem State.modWarp_mod (s : State) (w : Nat) (f : Warp → Warp) : (s.modWarp w f).mod = s.mod := by
  unfold State.modWarp; split <;> rfl
@[simp] theorem State.modWarp_dies (s : State) (w : Nat) (f : Warp → Warp) : (s.modWarp w f).dies = s.dies := by
  unfold State.modWarp; split <;> rfl
@[simp] theorem State.modWarp_cores (s : State) (w : Nat) (f : Warp → Warp) : (s.modWarp w f).cores = s.cores := by
  unfold State.modWarp; split <;> rfl
@[simp] theorem State.modWarp_ctxs (s : State) (w : Nat) (f : Warp → Warp) : (s.modWarp w f).ctxs = s.ctxs := by
  unfold State.modWarp; split <;> rfl
@[simp] theorem State.modWarp_queues (s : State) (w : Nat) (f : Warp → Warp) : (s.modWarp w f).queues = s.queues := by
  unfold State.modWarp; split <;> rfl
@[simp] theorem State.modWarp_kernels (s : State) (w : Nat) (f : Warp → Warp) : (s.modWarp w f).kernels = s.kernels := by
  unfold State.modWarp; split <;> rfl
@[simp] theorem State.modWarp_shares (s : State) (w : Nat) (f : Warp → Warp) : (s.modWarp w f).shares = s.shares := by
  unfold State.modWarp; split <;> rfl
@[simp] theorem State.modWarp_blocks (s : State) (w : Nat) (f : Warp → Warp) : (s.modWarp w f).blocks = s.blocks := by
  unfold State.modWarp; split <;> rfl
@[simp] theorem State.modWarp_parks (s : State) (w : Nat) (f : Warp → Warp) : (s.modWarp w f).parks = s.parks := by
  unfold State.modWarp; split <;> rfl
@[simp] theorem State.modWarp_ops (s : State) (w : Nat) (f : Warp → Warp) : (s.modWarp w f).ops = s.ops := by
  unfold State.modWarp; split <;> rfl
@[simp] theorem State.modWarp_sfu (s : State) (w : Nat) (f : Warp → Warp) : (s.modWarp w f).sfu = s.sfu := by
  unfold State.modWarp; split <;> rfl
@[simp] theorem State.modWarp_copies (s : State) (w : Nat) (f : Warp → Warp) : (s.modWarp w f).copies = s.copies := by
  unfold State.modWarp; split <;> rfl
@[simp] theorem State.modWarp_parts (s : State) (w : Nat) (f : Warp → Warp) : (s.modWarp w f).parts = s.parts := by
  unfold State.modWarp; split <;> rfl
@[simp] theorem State.modWarp_tops (s : State) (w : Nat) (f : Warp → Warp) : (s.modWarp w f).tops = s.tops := by
  unfold State.modWarp; split <;> rfl
@[simp] theorem State.modWarp_rwaits (s : State) (w : Nat) (f : Warp → Warp) : (s.modWarp w f).rwaits = s.rwaits := by
  unfold State.modWarp; split <;> rfl
@[simp] theorem State.modWarp_rwaitW (s : State) (w : Nat) (f : Warp → Warp) : (s.modWarp w f).rwaitW = s.rwaitW := by
  unfold State.modWarp; split <;> rfl
@[simp] theorem State.modWarp_acts (s : State) (w : Nat) (f : Warp → Warp) : (s.modWarp w f).acts = s.acts := by
  unfold State.modWarp; split <;> rfl
@[simp] theorem State.modWarp_runs (s : State) (w : Nat) (f : Warp → Warp) : (s.modWarp w f).runs = s.runs := by
  unfold State.modWarp; split <;> rfl
@[simp] theorem State.modWarp_chunks (s : State) (w : Nat) (f : Warp → Warp) : (s.modWarp w f).chunks = s.chunks := by
  unfold State.modWarp; split <;> rfl

@[simp] theorem State.modBlock_fresh (s : State) (b : Nat) (f : Block → Block) : (s.modBlock b f).fresh = s.fresh := by
  unfold State.modBlock; split <;> rfl
@[simp] theorem State.modBlock_instant (s : State) (b : Nat) (f : Block → Block) : (s.modBlock b f).instant = s.instant := by
  unfold State.modBlock; split <;> rfl
@[simp] theorem State.modBlock_agenda (s : State) (b : Nat) (f : Block → Block) : (s.modBlock b f).agenda = s.agenda := by
  unfold State.modBlock; split <;> rfl
@[simp] theorem State.modBlock_cur (s : State) (b : Nat) (f : Block → Block) : (s.modBlock b f).cur = s.cur := by
  unfold State.modBlock; split <;> rfl
@[simp] theorem State.modBlock_mod (s : State) (b : Nat) (f : Block → Block) : (s.modBlock b f).mod = s.mod := by
  unfold State.modBlock; split <;> rfl
@[simp] theorem State.modBlock_dies (s : State) (b : Nat) (f : Block → Block) : (s.modBlock b f).dies = s.dies := by
  unfold State.modBlock; split <;> rfl
@[simp] theorem State.modBlock_cores (s : State) (b : Nat) (f : Block → Block) : (s.modBlock b f).cores = s.cores := by
  unfold State.modBlock; split <;> rfl
@[simp] theorem State.modBlock_ctxs (s : State) (b : Nat) (f : Block → Block) : (s.modBlock b f).ctxs = s.ctxs := by
  unfold State.modBlock; split <;> rfl
@[simp] theorem State.modBlock_queues (s : State) (b : Nat) (f : Block → Block) : (s.modBlock b f).queues = s.queues := by
  unfold State.modBlock; split <;> rfl
@[simp] theorem State.modBlock_kernels (s : State) (b : Nat) (f : Block → Block) : (s.modBlock b f).kernels = s.kernels := by
  unfold State.modBlock; split <;> rfl
@[simp] theorem State.modBlock_shares (s : State) (b : Nat) (f : Block → Block) : (s.modBlock b f).shares = s.shares := by
  unfold State.modBlock; split <;> rfl
@[simp] theorem State.modBlock_warps (s : State) (b : Nat) (f : Block → Block) : (s.modBlock b f).warps = s.warps := by
  unfold State.modBlock; split <;> rfl
@[simp] theorem State.modBlock_parks (s : State) (b : Nat) (f : Block → Block) : (s.modBlock b f).parks = s.parks := by
  unfold State.modBlock; split <;> rfl
@[simp] theorem State.modBlock_ops (s : State) (b : Nat) (f : Block → Block) : (s.modBlock b f).ops = s.ops := by
  unfold State.modBlock; split <;> rfl
@[simp] theorem State.modBlock_sfu (s : State) (b : Nat) (f : Block → Block) : (s.modBlock b f).sfu = s.sfu := by
  unfold State.modBlock; split <;> rfl
@[simp] theorem State.modBlock_copies (s : State) (b : Nat) (f : Block → Block) : (s.modBlock b f).copies = s.copies := by
  unfold State.modBlock; split <;> rfl
@[simp] theorem State.modBlock_parts (s : State) (b : Nat) (f : Block → Block) : (s.modBlock b f).parts = s.parts := by
  unfold State.modBlock; split <;> rfl
@[simp] theorem State.modBlock_tops (s : State) (b : Nat) (f : Block → Block) : (s.modBlock b f).tops = s.tops := by
  unfold State.modBlock; split <;> rfl
@[simp] theorem State.modBlock_rwaits (s : State) (b : Nat) (f : Block → Block) : (s.modBlock b f).rwaits = s.rwaits := by
  unfold State.modBlock; split <;> rfl
@[simp] theorem State.modBlock_rwaitW (s : State) (b : Nat) (f : Block → Block) : (s.modBlock b f).rwaitW = s.rwaitW := by
  unfold State.modBlock; split <;> rfl
@[simp] theorem State.modBlock_acts (s : State) (b : Nat) (f : Block → Block) : (s.modBlock b f).acts = s.acts := by
  unfold State.modBlock; split <;> rfl
@[simp] theorem State.modBlock_runs (s : State) (b : Nat) (f : Block → Block) : (s.modBlock b f).runs = s.runs := by
  unfold State.modBlock; split <;> rfl
@[simp] theorem State.modBlock_chunks (s : State) (b : Nat) (f : Block → Block) : (s.modBlock b f).chunks = s.chunks := by
  unfold State.modBlock; split <;> rfl

@[simp] theorem State.modShare_fresh (s : State) (h : Nat) (f : Share → Share) : (s.modShare h f).fresh = s.fresh := by
  unfold State.modShare; split <;> rfl
@[simp] theorem State.modShare_instant (s : State) (h : Nat) (f : Share → Share) : (s.modShare h f).instant = s.instant := by
  unfold State.modShare; split <;> rfl
@[simp] theorem State.modShare_agenda (s : State) (h : Nat) (f : Share → Share) : (s.modShare h f).agenda = s.agenda := by
  unfold State.modShare; split <;> rfl
@[simp] theorem State.modShare_cur (s : State) (h : Nat) (f : Share → Share) : (s.modShare h f).cur = s.cur := by
  unfold State.modShare; split <;> rfl
@[simp] theorem State.modShare_mod (s : State) (h : Nat) (f : Share → Share) : (s.modShare h f).mod = s.mod := by
  unfold State.modShare; split <;> rfl
@[simp] theorem State.modShare_dies (s : State) (h : Nat) (f : Share → Share) : (s.modShare h f).dies = s.dies := by
  unfold State.modShare; split <;> rfl
@[simp] theorem State.modShare_cores (s : State) (h : Nat) (f : Share → Share) : (s.modShare h f).cores = s.cores := by
  unfold State.modShare; split <;> rfl
@[simp] theorem State.modShare_ctxs (s : State) (h : Nat) (f : Share → Share) : (s.modShare h f).ctxs = s.ctxs := by
  unfold State.modShare; split <;> rfl
@[simp] theorem State.modShare_queues (s : State) (h : Nat) (f : Share → Share) : (s.modShare h f).queues = s.queues := by
  unfold State.modShare; split <;> rfl
@[simp] theorem State.modShare_kernels (s : State) (h : Nat) (f : Share → Share) : (s.modShare h f).kernels = s.kernels := by
  unfold State.modShare; split <;> rfl
@[simp] theorem State.modShare_blocks (s : State) (h : Nat) (f : Share → Share) : (s.modShare h f).blocks = s.blocks := by
  unfold State.modShare; split <;> rfl
@[simp] theorem State.modShare_warps (s : State) (h : Nat) (f : Share → Share) : (s.modShare h f).warps = s.warps := by
  unfold State.modShare; split <;> rfl
@[simp] theorem State.modShare_parks (s : State) (h : Nat) (f : Share → Share) : (s.modShare h f).parks = s.parks := by
  unfold State.modShare; split <;> rfl
@[simp] theorem State.modShare_ops (s : State) (h : Nat) (f : Share → Share) : (s.modShare h f).ops = s.ops := by
  unfold State.modShare; split <;> rfl
@[simp] theorem State.modShare_sfu (s : State) (h : Nat) (f : Share → Share) : (s.modShare h f).sfu = s.sfu := by
  unfold State.modShare; split <;> rfl
@[simp] theorem State.modShare_copies (s : State) (h : Nat) (f : Share → Share) : (s.modShare h f).copies = s.copies := by
  unfold State.modShare; split <;> rfl
@[simp] theorem State.modShare_parts (s : State) (h : Nat) (f : Share → Share) : (s.modShare h f).parts = s.parts := by
  unfold State.modShare; split <;> rfl
@[simp] theorem State.modShare_tops (s : State) (h : Nat) (f : Share → Share) : (s.modShare h f).tops = s.tops := by
  unfold State.modShare; split <;> rfl
@[simp] theorem State.modShare_rwaits (s : State) (h : Nat) (f : Share → Share) : (s.modShare h f).rwaits = s.rwaits := by
  unfold State.modShare; split <;> rfl
@[simp] theorem State.modShare_rwaitW (s : State) (h : Nat) (f : Share → Share) : (s.modShare h f).rwaitW = s.rwaitW := by
  unfold State.modShare; split <;> rfl
@[simp] theorem State.modShare_acts (s : State) (h : Nat) (f : Share → Share) : (s.modShare h f).acts = s.acts := by
  unfold State.modShare; split <;> rfl
@[simp] theorem State.modShare_runs (s : State) (h : Nat) (f : Share → Share) : (s.modShare h f).runs = s.runs := by
  unfold State.modShare; split <;> rfl
@[simp] theorem State.modShare_chunks (s : State) (h : Nat) (f : Share → Share) : (s.modShare h f).chunks = s.chunks := by
  unfold State.modShare; split <;> rfl

@[simp] theorem State.modKernel_fresh (s : State) (k : Nat) (f : Kernel → Kernel) : (s.modKernel k f).fresh = s.fresh := by
  unfold State.modKernel; split <;> rfl
@[simp] theorem State.modKernel_instant (s : State) (k : Nat) (f : Kernel → Kernel) : (s.modKernel k f).instant = s.instant := by
  unfold State.modKernel; split <;> rfl
@[simp] theorem State.modKernel_agenda (s : State) (k : Nat) (f : Kernel → Kernel) : (s.modKernel k f).agenda = s.agenda := by
  unfold State.modKernel; split <;> rfl
@[simp] theorem State.modKernel_cur (s : State) (k : Nat) (f : Kernel → Kernel) : (s.modKernel k f).cur = s.cur := by
  unfold State.modKernel; split <;> rfl
@[simp] theorem State.modKernel_mod (s : State) (k : Nat) (f : Kernel → Kernel) : (s.modKernel k f).mod = s.mod := by
  unfold State.modKernel; split <;> rfl
@[simp] theorem State.modKernel_dies (s : State) (k : Nat) (f : Kernel → Kernel) : (s.modKernel k f).dies = s.dies := by
  unfold State.modKernel; split <;> rfl
@[simp] theorem State.modKernel_cores (s : State) (k : Nat) (f : Kernel → Kernel) : (s.modKernel k f).cores = s.cores := by
  unfold State.modKernel; split <;> rfl
@[simp] theorem State.modKernel_ctxs (s : State) (k : Nat) (f : Kernel → Kernel) : (s.modKernel k f).ctxs = s.ctxs := by
  unfold State.modKernel; split <;> rfl
@[simp] theorem State.modKernel_queues (s : State) (k : Nat) (f : Kernel → Kernel) : (s.modKernel k f).queues = s.queues := by
  unfold State.modKernel; split <;> rfl
@[simp] theorem State.modKernel_shares (s : State) (k : Nat) (f : Kernel → Kernel) : (s.modKernel k f).shares = s.shares := by
  unfold State.modKernel; split <;> rfl
@[simp] theorem State.modKernel_blocks (s : State) (k : Nat) (f : Kernel → Kernel) : (s.modKernel k f).blocks = s.blocks := by
  unfold State.modKernel; split <;> rfl
@[simp] theorem State.modKernel_warps (s : State) (k : Nat) (f : Kernel → Kernel) : (s.modKernel k f).warps = s.warps := by
  unfold State.modKernel; split <;> rfl
@[simp] theorem State.modKernel_parks (s : State) (k : Nat) (f : Kernel → Kernel) : (s.modKernel k f).parks = s.parks := by
  unfold State.modKernel; split <;> rfl
@[simp] theorem State.modKernel_ops (s : State) (k : Nat) (f : Kernel → Kernel) : (s.modKernel k f).ops = s.ops := by
  unfold State.modKernel; split <;> rfl
@[simp] theorem State.modKernel_sfu (s : State) (k : Nat) (f : Kernel → Kernel) : (s.modKernel k f).sfu = s.sfu := by
  unfold State.modKernel; split <;> rfl
@[simp] theorem State.modKernel_copies (s : State) (k : Nat) (f : Kernel → Kernel) : (s.modKernel k f).copies = s.copies := by
  unfold State.modKernel; split <;> rfl
@[simp] theorem State.modKernel_parts (s : State) (k : Nat) (f : Kernel → Kernel) : (s.modKernel k f).parts = s.parts := by
  unfold State.modKernel; split <;> rfl
@[simp] theorem State.modKernel_tops (s : State) (k : Nat) (f : Kernel → Kernel) : (s.modKernel k f).tops = s.tops := by
  unfold State.modKernel; split <;> rfl
@[simp] theorem State.modKernel_rwaits (s : State) (k : Nat) (f : Kernel → Kernel) : (s.modKernel k f).rwaits = s.rwaits := by
  unfold State.modKernel; split <;> rfl
@[simp] theorem State.modKernel_rwaitW (s : State) (k : Nat) (f : Kernel → Kernel) : (s.modKernel k f).rwaitW = s.rwaitW := by
  unfold State.modKernel; split <;> rfl
@[simp] theorem State.modKernel_acts (s : State) (k : Nat) (f : Kernel → Kernel) : (s.modKernel k f).acts = s.acts := by
  unfold State.modKernel; split <;> rfl
@[simp] theorem State.modKernel_runs (s : State) (k : Nat) (f : Kernel → Kernel) : (s.modKernel k f).runs = s.runs := by
  unfold State.modKernel; split <;> rfl
@[simp] theorem State.modKernel_chunks (s : State) (k : Nat) (f : Kernel → Kernel) : (s.modKernel k f).chunks = s.chunks := by
  unfold State.modKernel; split <;> rfl

@[simp] theorem State.modThread_fresh (s : State) (w l : Nat) (f : Thread → Thread) : (s.modThread w l f).fresh = s.fresh := State.modWarp_fresh _ _ _
@[simp] theorem State.modThread_instant (s : State) (w l : Nat) (f : Thread → Thread) : (s.modThread w l f).instant = s.instant := State.modWarp_instant _ _ _
@[simp] theorem State.modThread_agenda (s : State) (w l : Nat) (f : Thread → Thread) : (s.modThread w l f).agenda = s.agenda := State.modWarp_agenda _ _ _
@[simp] theorem State.modThread_cur (s : State) (w l : Nat) (f : Thread → Thread) : (s.modThread w l f).cur = s.cur := State.modWarp_cur _ _ _
@[simp] theorem State.modThread_mod (s : State) (w l : Nat) (f : Thread → Thread) : (s.modThread w l f).mod = s.mod := State.modWarp_mod _ _ _
@[simp] theorem State.modThread_dies (s : State) (w l : Nat) (f : Thread → Thread) : (s.modThread w l f).dies = s.dies := State.modWarp_dies _ _ _
@[simp] theorem State.modThread_cores (s : State) (w l : Nat) (f : Thread → Thread) : (s.modThread w l f).cores = s.cores := State.modWarp_cores _ _ _
@[simp] theorem State.modThread_ctxs (s : State) (w l : Nat) (f : Thread → Thread) : (s.modThread w l f).ctxs = s.ctxs := State.modWarp_ctxs _ _ _
@[simp] theorem State.modThread_queues (s : State) (w l : Nat) (f : Thread → Thread) : (s.modThread w l f).queues = s.queues := State.modWarp_queues _ _ _
@[simp] theorem State.modThread_kernels (s : State) (w l : Nat) (f : Thread → Thread) : (s.modThread w l f).kernels = s.kernels := State.modWarp_kernels _ _ _
@[simp] theorem State.modThread_shares (s : State) (w l : Nat) (f : Thread → Thread) : (s.modThread w l f).shares = s.shares := State.modWarp_shares _ _ _
@[simp] theorem State.modThread_blocks (s : State) (w l : Nat) (f : Thread → Thread) : (s.modThread w l f).blocks = s.blocks := State.modWarp_blocks _ _ _
@[simp] theorem State.modThread_parks (s : State) (w l : Nat) (f : Thread → Thread) : (s.modThread w l f).parks = s.parks := State.modWarp_parks _ _ _
@[simp] theorem State.modThread_ops (s : State) (w l : Nat) (f : Thread → Thread) : (s.modThread w l f).ops = s.ops := State.modWarp_ops _ _ _
@[simp] theorem State.modThread_sfu (s : State) (w l : Nat) (f : Thread → Thread) : (s.modThread w l f).sfu = s.sfu := State.modWarp_sfu _ _ _
@[simp] theorem State.modThread_copies (s : State) (w l : Nat) (f : Thread → Thread) : (s.modThread w l f).copies = s.copies := State.modWarp_copies _ _ _
@[simp] theorem State.modThread_parts (s : State) (w l : Nat) (f : Thread → Thread) : (s.modThread w l f).parts = s.parts := State.modWarp_parts _ _ _
@[simp] theorem State.modThread_tops (s : State) (w l : Nat) (f : Thread → Thread) : (s.modThread w l f).tops = s.tops := State.modWarp_tops _ _ _
@[simp] theorem State.modThread_rwaits (s : State) (w l : Nat) (f : Thread → Thread) : (s.modThread w l f).rwaits = s.rwaits := State.modWarp_rwaits _ _ _
@[simp] theorem State.modThread_rwaitW (s : State) (w l : Nat) (f : Thread → Thread) : (s.modThread w l f).rwaitW = s.rwaitW := State.modWarp_rwaitW _ _ _
@[simp] theorem State.modThread_acts (s : State) (w l : Nat) (f : Thread → Thread) : (s.modThread w l f).acts = s.acts := State.modWarp_acts _ _ _
@[simp] theorem State.modThread_runs (s : State) (w l : Nat) (f : Thread → Thread) : (s.modThread w l f).runs = s.runs := State.modWarp_runs _ _ _
@[simp] theorem State.modThread_chunks (s : State) (w l : Nat) (f : Thread → Thread) : (s.modThread w l f).chunks = s.chunks := State.modWarp_chunks _ _ _

@[simp] theorem State.mapLanes_fresh (s : State) (w : Nat) (m : Lanes) (f : Nat → Thread → Thread) : (s.mapLanes w m f).fresh = s.fresh := State.modWarp_fresh _ _ _
@[simp] theorem State.mapLanes_instant (s : State) (w : Nat) (m : Lanes) (f : Nat → Thread → Thread) : (s.mapLanes w m f).instant = s.instant := State.modWarp_instant _ _ _
@[simp] theorem State.mapLanes_agenda (s : State) (w : Nat) (m : Lanes) (f : Nat → Thread → Thread) : (s.mapLanes w m f).agenda = s.agenda := State.modWarp_agenda _ _ _
@[simp] theorem State.mapLanes_cur (s : State) (w : Nat) (m : Lanes) (f : Nat → Thread → Thread) : (s.mapLanes w m f).cur = s.cur := State.modWarp_cur _ _ _
@[simp] theorem State.mapLanes_mod (s : State) (w : Nat) (m : Lanes) (f : Nat → Thread → Thread) : (s.mapLanes w m f).mod = s.mod := State.modWarp_mod _ _ _
@[simp] theorem State.mapLanes_dies (s : State) (w : Nat) (m : Lanes) (f : Nat → Thread → Thread) : (s.mapLanes w m f).dies = s.dies := State.modWarp_dies _ _ _
@[simp] theorem State.mapLanes_cores (s : State) (w : Nat) (m : Lanes) (f : Nat → Thread → Thread) : (s.mapLanes w m f).cores = s.cores := State.modWarp_cores _ _ _
@[simp] theorem State.mapLanes_ctxs (s : State) (w : Nat) (m : Lanes) (f : Nat → Thread → Thread) : (s.mapLanes w m f).ctxs = s.ctxs := State.modWarp_ctxs _ _ _
@[simp] theorem State.mapLanes_queues (s : State) (w : Nat) (m : Lanes) (f : Nat → Thread → Thread) : (s.mapLanes w m f).queues = s.queues := State.modWarp_queues _ _ _
@[simp] theorem State.mapLanes_kernels (s : State) (w : Nat) (m : Lanes) (f : Nat → Thread → Thread) : (s.mapLanes w m f).kernels = s.kernels := State.modWarp_kernels _ _ _
@[simp] theorem State.mapLanes_shares (s : State) (w : Nat) (m : Lanes) (f : Nat → Thread → Thread) : (s.mapLanes w m f).shares = s.shares := State.modWarp_shares _ _ _
@[simp] theorem State.mapLanes_blocks (s : State) (w : Nat) (m : Lanes) (f : Nat → Thread → Thread) : (s.mapLanes w m f).blocks = s.blocks := State.modWarp_blocks _ _ _
@[simp] theorem State.mapLanes_parks (s : State) (w : Nat) (m : Lanes) (f : Nat → Thread → Thread) : (s.mapLanes w m f).parks = s.parks := State.modWarp_parks _ _ _
@[simp] theorem State.mapLanes_ops (s : State) (w : Nat) (m : Lanes) (f : Nat → Thread → Thread) : (s.mapLanes w m f).ops = s.ops := State.modWarp_ops _ _ _
@[simp] theorem State.mapLanes_sfu (s : State) (w : Nat) (m : Lanes) (f : Nat → Thread → Thread) : (s.mapLanes w m f).sfu = s.sfu := State.modWarp_sfu _ _ _
@[simp] theorem State.mapLanes_copies (s : State) (w : Nat) (m : Lanes) (f : Nat → Thread → Thread) : (s.mapLanes w m f).copies = s.copies := State.modWarp_copies _ _ _
@[simp] theorem State.mapLanes_parts (s : State) (w : Nat) (m : Lanes) (f : Nat → Thread → Thread) : (s.mapLanes w m f).parts = s.parts := State.modWarp_parts _ _ _
@[simp] theorem State.mapLanes_tops (s : State) (w : Nat) (m : Lanes) (f : Nat → Thread → Thread) : (s.mapLanes w m f).tops = s.tops := State.modWarp_tops _ _ _
@[simp] theorem State.mapLanes_rwaits (s : State) (w : Nat) (m : Lanes) (f : Nat → Thread → Thread) : (s.mapLanes w m f).rwaits = s.rwaits := State.modWarp_rwaits _ _ _
@[simp] theorem State.mapLanes_rwaitW (s : State) (w : Nat) (m : Lanes) (f : Nat → Thread → Thread) : (s.mapLanes w m f).rwaitW = s.rwaitW := State.modWarp_rwaitW _ _ _
@[simp] theorem State.mapLanes_acts (s : State) (w : Nat) (m : Lanes) (f : Nat → Thread → Thread) : (s.mapLanes w m f).acts = s.acts := State.modWarp_acts _ _ _
@[simp] theorem State.mapLanes_runs (s : State) (w : Nat) (m : Lanes) (f : Nat → Thread → Thread) : (s.mapLanes w m f).runs = s.runs := State.modWarp_runs _ _ _
@[simp] theorem State.mapLanes_chunks (s : State) (w : Nat) (m : Lanes) (f : Nat → Thread → Thread) : (s.mapLanes w m f).chunks = s.chunks := State.modWarp_chunks _ _ _

@[simp] theorem State.setWreg_fresh (s : State) (w r : Nat) (v : VReg) : (s.setWreg w r v).fresh = s.fresh := State.modWarp_fresh _ _ _
@[simp] theorem State.setWreg_instant (s : State) (w r : Nat) (v : VReg) : (s.setWreg w r v).instant = s.instant := State.modWarp_instant _ _ _
@[simp] theorem State.setWreg_agenda (s : State) (w r : Nat) (v : VReg) : (s.setWreg w r v).agenda = s.agenda := State.modWarp_agenda _ _ _
@[simp] theorem State.setWreg_cur (s : State) (w r : Nat) (v : VReg) : (s.setWreg w r v).cur = s.cur := State.modWarp_cur _ _ _
@[simp] theorem State.setWreg_mod (s : State) (w r : Nat) (v : VReg) : (s.setWreg w r v).mod = s.mod := State.modWarp_mod _ _ _
@[simp] theorem State.setWreg_dies (s : State) (w r : Nat) (v : VReg) : (s.setWreg w r v).dies = s.dies := State.modWarp_dies _ _ _
@[simp] theorem State.setWreg_cores (s : State) (w r : Nat) (v : VReg) : (s.setWreg w r v).cores = s.cores := State.modWarp_cores _ _ _
@[simp] theorem State.setWreg_ctxs (s : State) (w r : Nat) (v : VReg) : (s.setWreg w r v).ctxs = s.ctxs := State.modWarp_ctxs _ _ _
@[simp] theorem State.setWreg_queues (s : State) (w r : Nat) (v : VReg) : (s.setWreg w r v).queues = s.queues := State.modWarp_queues _ _ _
@[simp] theorem State.setWreg_kernels (s : State) (w r : Nat) (v : VReg) : (s.setWreg w r v).kernels = s.kernels := State.modWarp_kernels _ _ _
@[simp] theorem State.setWreg_shares (s : State) (w r : Nat) (v : VReg) : (s.setWreg w r v).shares = s.shares := State.modWarp_shares _ _ _
@[simp] theorem State.setWreg_blocks (s : State) (w r : Nat) (v : VReg) : (s.setWreg w r v).blocks = s.blocks := State.modWarp_blocks _ _ _
@[simp] theorem State.setWreg_parks (s : State) (w r : Nat) (v : VReg) : (s.setWreg w r v).parks = s.parks := State.modWarp_parks _ _ _
@[simp] theorem State.setWreg_ops (s : State) (w r : Nat) (v : VReg) : (s.setWreg w r v).ops = s.ops := State.modWarp_ops _ _ _
@[simp] theorem State.setWreg_sfu (s : State) (w r : Nat) (v : VReg) : (s.setWreg w r v).sfu = s.sfu := State.modWarp_sfu _ _ _
@[simp] theorem State.setWreg_copies (s : State) (w r : Nat) (v : VReg) : (s.setWreg w r v).copies = s.copies := State.modWarp_copies _ _ _
@[simp] theorem State.setWreg_parts (s : State) (w r : Nat) (v : VReg) : (s.setWreg w r v).parts = s.parts := State.modWarp_parts _ _ _
@[simp] theorem State.setWreg_tops (s : State) (w r : Nat) (v : VReg) : (s.setWreg w r v).tops = s.tops := State.modWarp_tops _ _ _
@[simp] theorem State.setWreg_rwaits (s : State) (w r : Nat) (v : VReg) : (s.setWreg w r v).rwaits = s.rwaits := State.modWarp_rwaits _ _ _
@[simp] theorem State.setWreg_rwaitW (s : State) (w r : Nat) (v : VReg) : (s.setWreg w r v).rwaitW = s.rwaitW := State.modWarp_rwaitW _ _ _
@[simp] theorem State.setWreg_acts (s : State) (w r : Nat) (v : VReg) : (s.setWreg w r v).acts = s.acts := State.modWarp_acts _ _ _
@[simp] theorem State.setWreg_runs (s : State) (w r : Nat) (v : VReg) : (s.setWreg w r v).runs = s.runs := State.modWarp_runs _ _ _
@[simp] theorem State.setWreg_chunks (s : State) (w r : Nat) (v : VReg) : (s.setWreg w r v).chunks = s.chunks := State.modWarp_chunks _ _ _

@[simp] theorem State.modIss_fresh (s : State) (w : Nat) (p : Pipe) (f : Issue → Issue) : (s.modIss w p f).fresh = s.fresh := State.modWarp_fresh _ _ _
@[simp] theorem State.modIss_instant (s : State) (w : Nat) (p : Pipe) (f : Issue → Issue) : (s.modIss w p f).instant = s.instant := State.modWarp_instant _ _ _
@[simp] theorem State.modIss_agenda (s : State) (w : Nat) (p : Pipe) (f : Issue → Issue) : (s.modIss w p f).agenda = s.agenda := State.modWarp_agenda _ _ _
@[simp] theorem State.modIss_cur (s : State) (w : Nat) (p : Pipe) (f : Issue → Issue) : (s.modIss w p f).cur = s.cur := State.modWarp_cur _ _ _
@[simp] theorem State.modIss_mod (s : State) (w : Nat) (p : Pipe) (f : Issue → Issue) : (s.modIss w p f).mod = s.mod := State.modWarp_mod _ _ _
@[simp] theorem State.modIss_dies (s : State) (w : Nat) (p : Pipe) (f : Issue → Issue) : (s.modIss w p f).dies = s.dies := State.modWarp_dies _ _ _
@[simp] theorem State.modIss_cores (s : State) (w : Nat) (p : Pipe) (f : Issue → Issue) : (s.modIss w p f).cores = s.cores := State.modWarp_cores _ _ _
@[simp] theorem State.modIss_ctxs (s : State) (w : Nat) (p : Pipe) (f : Issue → Issue) : (s.modIss w p f).ctxs = s.ctxs := State.modWarp_ctxs _ _ _
@[simp] theorem State.modIss_queues (s : State) (w : Nat) (p : Pipe) (f : Issue → Issue) : (s.modIss w p f).queues = s.queues := State.modWarp_queues _ _ _
@[simp] theorem State.modIss_kernels (s : State) (w : Nat) (p : Pipe) (f : Issue → Issue) : (s.modIss w p f).kernels = s.kernels := State.modWarp_kernels _ _ _
@[simp] theorem State.modIss_shares (s : State) (w : Nat) (p : Pipe) (f : Issue → Issue) : (s.modIss w p f).shares = s.shares := State.modWarp_shares _ _ _
@[simp] theorem State.modIss_blocks (s : State) (w : Nat) (p : Pipe) (f : Issue → Issue) : (s.modIss w p f).blocks = s.blocks := State.modWarp_blocks _ _ _
@[simp] theorem State.modIss_parks (s : State) (w : Nat) (p : Pipe) (f : Issue → Issue) : (s.modIss w p f).parks = s.parks := State.modWarp_parks _ _ _
@[simp] theorem State.modIss_ops (s : State) (w : Nat) (p : Pipe) (f : Issue → Issue) : (s.modIss w p f).ops = s.ops := State.modWarp_ops _ _ _
@[simp] theorem State.modIss_sfu (s : State) (w : Nat) (p : Pipe) (f : Issue → Issue) : (s.modIss w p f).sfu = s.sfu := State.modWarp_sfu _ _ _
@[simp] theorem State.modIss_copies (s : State) (w : Nat) (p : Pipe) (f : Issue → Issue) : (s.modIss w p f).copies = s.copies := State.modWarp_copies _ _ _
@[simp] theorem State.modIss_parts (s : State) (w : Nat) (p : Pipe) (f : Issue → Issue) : (s.modIss w p f).parts = s.parts := State.modWarp_parts _ _ _
@[simp] theorem State.modIss_tops (s : State) (w : Nat) (p : Pipe) (f : Issue → Issue) : (s.modIss w p f).tops = s.tops := State.modWarp_tops _ _ _
@[simp] theorem State.modIss_rwaits (s : State) (w : Nat) (p : Pipe) (f : Issue → Issue) : (s.modIss w p f).rwaits = s.rwaits := State.modWarp_rwaits _ _ _
@[simp] theorem State.modIss_rwaitW (s : State) (w : Nat) (p : Pipe) (f : Issue → Issue) : (s.modIss w p f).rwaitW = s.rwaitW := State.modWarp_rwaitW _ _ _
@[simp] theorem State.modIss_acts (s : State) (w : Nat) (p : Pipe) (f : Issue → Issue) : (s.modIss w p f).acts = s.acts := State.modWarp_acts _ _ _
@[simp] theorem State.modIss_runs (s : State) (w : Nat) (p : Pipe) (f : Issue → Issue) : (s.modIss w p f).runs = s.runs := State.modWarp_runs _ _ _
@[simp] theorem State.modIss_chunks (s : State) (w : Nat) (p : Pipe) (f : Issue → Issue) : (s.modIss w p f).chunks = s.chunks := State.modWarp_chunks _ _ _

/-! ### Updates of a warp -/

@[simp] theorem Warp.modThread_ctx (x : Warp) (l : Nat) (f : Thread → Thread) : (x.modThread l f).ctx = x.ctx := rfl
@[simp] theorem Warp.modThread_kern (x : Warp) (l : Nat) (f : Thread → Thread) : (x.modThread l f).kern = x.kern := rfl
@[simp] theorem Warp.modThread_share (x : Warp) (l : Nat) (f : Thread → Thread) : (x.modThread l f).share = x.share := rfl
@[simp] theorem Warp.modThread_die (x : Warp) (l : Nat) (f : Thread → Thread) : (x.modThread l f).die = x.die := rfl
@[simp] theorem Warp.modThread_core (x : Warp) (l : Nat) (f : Thread → Thread) : (x.modThread l f).core = x.core := rfl
@[simp] theorem Warp.modThread_slot (x : Warp) (l : Nat) (f : Thread → Thread) : (x.modThread l f).slot = x.slot := rfl
@[simp] theorem Warp.modThread_width (x : Warp) (l : Nat) (f : Thread → Thread) : (x.modThread l f).width = x.width := rfl
@[simp] theorem Warp.modThread_nregs (x : Warp) (l : Nat) (f : Thread → Thread) : (x.modThread l f).nregs = x.nregs := rfl
@[simp] theorem Warp.modThread_base (x : Warp) (l : Nat) (f : Thread → Thread) : (x.modThread l f).base = x.base := rfl
@[simp] theorem Warp.modThread_block (x : Warp) (l : Nat) (f : Thread → Thread) : (x.modThread l f).block = x.block := rfl
@[simp] theorem Warp.modThread_index (x : Warp) (l : Nat) (f : Thread → Thread) : (x.modThread l f).index = x.index := rfl
@[simp] theorem Warp.modThread_wregs (x : Warp) (l : Nat) (f : Thread → Thread) : (x.modThread l f).wregs = x.wregs := rfl
@[simp] theorem Warp.modThread_masks (x : Warp) (l : Nat) (f : Thread → Thread) : (x.modThread l f).masks = x.masks := rfl
@[simp] theorem Warp.modThread_fpflags (x : Warp) (l : Nat) (f : Thread → Thread) : (x.modThread l f).fpflags = x.fpflags := rfl
@[simp] theorem Warp.modThread_faults (x : Warp) (l : Nat) (f : Thread → Thread) : (x.modThread l f).faults = x.faults := rfl
@[simp] theorem Warp.modThread_faulted (x : Warp) (l : Nat) (f : Thread → Thread) : (x.modThread l f).faulted = x.faulted := rfl
@[simp] theorem Warp.modThread_ctxsel (x : Warp) (l : Nat) (f : Thread → Thread) : (x.modThread l f).ctxsel = x.ctxsel := rfl
@[simp] theorem Warp.modThread_latch (x : Warp) (l : Nat) (f : Thread → Thread) : (x.modThread l f).latch = x.latch := rfl
@[simp] theorem Warp.modThread_stk (x : Warp) (l : Nat) (f : Thread → Thread) : (x.modThread l f).stk = x.stk := rfl
@[simp] theorem Warp.modThread_region (x : Warp) (l : Nat) (f : Thread → Thread) : (x.modThread l f).region = x.region := rfl
@[simp] theorem Warp.modThread_rtarget (x : Warp) (l : Nat) (f : Thread → Thread) : (x.modThread l f).rtarget = x.rtarget := rfl
@[simp] theorem Warp.modThread_aborts (x : Warp) (l : Nat) (f : Thread → Thread) : (x.modThread l f).aborts = x.aborts := rfl
@[simp] theorem Warp.modThread_reason (x : Warp) (l : Nat) (f : Thread → Thread) : (x.modThread l f).reason = x.reason := rfl
@[simp] theorem Warp.modThread_departing (x : Warp) (l : Nat) (f : Thread → Thread) : (x.modThread l f).departing = x.departing := rfl
@[simp] theorem Warp.modThread_yielded (x : Warp) (l : Nat) (f : Thread → Thread) : (x.modThread l f).yielded = x.yielded := rfl
@[simp] theorem Warp.modThread_passed (x : Warp) (l : Nat) (f : Thread → Thread) : (x.modThread l f).passed = x.passed := rfl
@[simp] theorem Warp.modThread_fetched (x : Warp) (l : Nat) (f : Thread → Thread) : (x.modThread l f).fetched = x.fetched := rfl
@[simp] theorem Warp.modThread_issA (x : Warp) (l : Nat) (f : Thread → Thread) : (x.modThread l f).issA = x.issA := rfl
@[simp] theorem Warp.modThread_issB (x : Warp) (l : Nat) (f : Thread → Thread) : (x.modThread l f).issB = x.issB := rfl
@[simp] theorem Warp.modThread_stopped (x : Warp) (l : Nat) (f : Thread → Thread) : (x.modThread l f).stopped = x.stopped := rfl

@[simp] theorem Warp.mapLanes_ctx (x : Warp) (m : Lanes) (f : Nat → Thread → Thread) : (x.mapLanes m f).ctx = x.ctx := rfl
@[simp] theorem Warp.mapLanes_kern (x : Warp) (m : Lanes) (f : Nat → Thread → Thread) : (x.mapLanes m f).kern = x.kern := rfl
@[simp] theorem Warp.mapLanes_share (x : Warp) (m : Lanes) (f : Nat → Thread → Thread) : (x.mapLanes m f).share = x.share := rfl
@[simp] theorem Warp.mapLanes_die (x : Warp) (m : Lanes) (f : Nat → Thread → Thread) : (x.mapLanes m f).die = x.die := rfl
@[simp] theorem Warp.mapLanes_core (x : Warp) (m : Lanes) (f : Nat → Thread → Thread) : (x.mapLanes m f).core = x.core := rfl
@[simp] theorem Warp.mapLanes_slot (x : Warp) (m : Lanes) (f : Nat → Thread → Thread) : (x.mapLanes m f).slot = x.slot := rfl
@[simp] theorem Warp.mapLanes_width (x : Warp) (m : Lanes) (f : Nat → Thread → Thread) : (x.mapLanes m f).width = x.width := rfl
@[simp] theorem Warp.mapLanes_nregs (x : Warp) (m : Lanes) (f : Nat → Thread → Thread) : (x.mapLanes m f).nregs = x.nregs := rfl
@[simp] theorem Warp.mapLanes_base (x : Warp) (m : Lanes) (f : Nat → Thread → Thread) : (x.mapLanes m f).base = x.base := rfl
@[simp] theorem Warp.mapLanes_block (x : Warp) (m : Lanes) (f : Nat → Thread → Thread) : (x.mapLanes m f).block = x.block := rfl
@[simp] theorem Warp.mapLanes_index (x : Warp) (m : Lanes) (f : Nat → Thread → Thread) : (x.mapLanes m f).index = x.index := rfl
@[simp] theorem Warp.mapLanes_wregs (x : Warp) (m : Lanes) (f : Nat → Thread → Thread) : (x.mapLanes m f).wregs = x.wregs := rfl
@[simp] theorem Warp.mapLanes_masks (x : Warp) (m : Lanes) (f : Nat → Thread → Thread) : (x.mapLanes m f).masks = x.masks := rfl
@[simp] theorem Warp.mapLanes_fpflags (x : Warp) (m : Lanes) (f : Nat → Thread → Thread) : (x.mapLanes m f).fpflags = x.fpflags := rfl
@[simp] theorem Warp.mapLanes_faults (x : Warp) (m : Lanes) (f : Nat → Thread → Thread) : (x.mapLanes m f).faults = x.faults := rfl
@[simp] theorem Warp.mapLanes_faulted (x : Warp) (m : Lanes) (f : Nat → Thread → Thread) : (x.mapLanes m f).faulted = x.faulted := rfl
@[simp] theorem Warp.mapLanes_ctxsel (x : Warp) (m : Lanes) (f : Nat → Thread → Thread) : (x.mapLanes m f).ctxsel = x.ctxsel := rfl
@[simp] theorem Warp.mapLanes_latch (x : Warp) (m : Lanes) (f : Nat → Thread → Thread) : (x.mapLanes m f).latch = x.latch := rfl
@[simp] theorem Warp.mapLanes_stk (x : Warp) (m : Lanes) (f : Nat → Thread → Thread) : (x.mapLanes m f).stk = x.stk := rfl
@[simp] theorem Warp.mapLanes_region (x : Warp) (m : Lanes) (f : Nat → Thread → Thread) : (x.mapLanes m f).region = x.region := rfl
@[simp] theorem Warp.mapLanes_rtarget (x : Warp) (m : Lanes) (f : Nat → Thread → Thread) : (x.mapLanes m f).rtarget = x.rtarget := rfl
@[simp] theorem Warp.mapLanes_aborts (x : Warp) (m : Lanes) (f : Nat → Thread → Thread) : (x.mapLanes m f).aborts = x.aborts := rfl
@[simp] theorem Warp.mapLanes_reason (x : Warp) (m : Lanes) (f : Nat → Thread → Thread) : (x.mapLanes m f).reason = x.reason := rfl
@[simp] theorem Warp.mapLanes_departing (x : Warp) (m : Lanes) (f : Nat → Thread → Thread) : (x.mapLanes m f).departing = x.departing := rfl
@[simp] theorem Warp.mapLanes_yielded (x : Warp) (m : Lanes) (f : Nat → Thread → Thread) : (x.mapLanes m f).yielded = x.yielded := rfl
@[simp] theorem Warp.mapLanes_passed (x : Warp) (m : Lanes) (f : Nat → Thread → Thread) : (x.mapLanes m f).passed = x.passed := rfl
@[simp] theorem Warp.mapLanes_fetched (x : Warp) (m : Lanes) (f : Nat → Thread → Thread) : (x.mapLanes m f).fetched = x.fetched := rfl
@[simp] theorem Warp.mapLanes_issA (x : Warp) (m : Lanes) (f : Nat → Thread → Thread) : (x.mapLanes m f).issA = x.issA := rfl
@[simp] theorem Warp.mapLanes_issB (x : Warp) (m : Lanes) (f : Nat → Thread → Thread) : (x.mapLanes m f).issB = x.issB := rfl
@[simp] theorem Warp.mapLanes_stopped (x : Warp) (m : Lanes) (f : Nat → Thread → Thread) : (x.mapLanes m f).stopped = x.stopped := rfl

@[simp] theorem Warp.setIss_ctx (x : Warp) (p : Pipe) (i : Option Issue) : (x.setIss p i).ctx = x.ctx := by cases p <;> rfl
@[simp] theorem Warp.setIss_kern (x : Warp) (p : Pipe) (i : Option Issue) : (x.setIss p i).kern = x.kern := by cases p <;> rfl
@[simp] theorem Warp.setIss_share (x : Warp) (p : Pipe) (i : Option Issue) : (x.setIss p i).share = x.share := by cases p <;> rfl
@[simp] theorem Warp.setIss_die (x : Warp) (p : Pipe) (i : Option Issue) : (x.setIss p i).die = x.die := by cases p <;> rfl
@[simp] theorem Warp.setIss_core (x : Warp) (p : Pipe) (i : Option Issue) : (x.setIss p i).core = x.core := by cases p <;> rfl
@[simp] theorem Warp.setIss_slot (x : Warp) (p : Pipe) (i : Option Issue) : (x.setIss p i).slot = x.slot := by cases p <;> rfl
@[simp] theorem Warp.setIss_width (x : Warp) (p : Pipe) (i : Option Issue) : (x.setIss p i).width = x.width := by cases p <;> rfl
@[simp] theorem Warp.setIss_nregs (x : Warp) (p : Pipe) (i : Option Issue) : (x.setIss p i).nregs = x.nregs := by cases p <;> rfl
@[simp] theorem Warp.setIss_base (x : Warp) (p : Pipe) (i : Option Issue) : (x.setIss p i).base = x.base := by cases p <;> rfl
@[simp] theorem Warp.setIss_block (x : Warp) (p : Pipe) (i : Option Issue) : (x.setIss p i).block = x.block := by cases p <;> rfl
@[simp] theorem Warp.setIss_index (x : Warp) (p : Pipe) (i : Option Issue) : (x.setIss p i).index = x.index := by cases p <;> rfl
@[simp] theorem Warp.setIss_threads (x : Warp) (p : Pipe) (i : Option Issue) : (x.setIss p i).threads = x.threads := by cases p <;> rfl
@[simp] theorem Warp.setIss_wregs (x : Warp) (p : Pipe) (i : Option Issue) : (x.setIss p i).wregs = x.wregs := by cases p <;> rfl
@[simp] theorem Warp.setIss_masks (x : Warp) (p : Pipe) (i : Option Issue) : (x.setIss p i).masks = x.masks := by cases p <;> rfl
@[simp] theorem Warp.setIss_fpflags (x : Warp) (p : Pipe) (i : Option Issue) : (x.setIss p i).fpflags = x.fpflags := by cases p <;> rfl
@[simp] theorem Warp.setIss_faults (x : Warp) (p : Pipe) (i : Option Issue) : (x.setIss p i).faults = x.faults := by cases p <;> rfl
@[simp] theorem Warp.setIss_faulted (x : Warp) (p : Pipe) (i : Option Issue) : (x.setIss p i).faulted = x.faulted := by cases p <;> rfl
@[simp] theorem Warp.setIss_ctxsel (x : Warp) (p : Pipe) (i : Option Issue) : (x.setIss p i).ctxsel = x.ctxsel := by cases p <;> rfl
@[simp] theorem Warp.setIss_latch (x : Warp) (p : Pipe) (i : Option Issue) : (x.setIss p i).latch = x.latch := by cases p <;> rfl
@[simp] theorem Warp.setIss_stk (x : Warp) (p : Pipe) (i : Option Issue) : (x.setIss p i).stk = x.stk := by cases p <;> rfl
@[simp] theorem Warp.setIss_region (x : Warp) (p : Pipe) (i : Option Issue) : (x.setIss p i).region = x.region := by cases p <;> rfl
@[simp] theorem Warp.setIss_rtarget (x : Warp) (p : Pipe) (i : Option Issue) : (x.setIss p i).rtarget = x.rtarget := by cases p <;> rfl
@[simp] theorem Warp.setIss_aborts (x : Warp) (p : Pipe) (i : Option Issue) : (x.setIss p i).aborts = x.aborts := by cases p <;> rfl
@[simp] theorem Warp.setIss_reason (x : Warp) (p : Pipe) (i : Option Issue) : (x.setIss p i).reason = x.reason := by cases p <;> rfl
@[simp] theorem Warp.setIss_departing (x : Warp) (p : Pipe) (i : Option Issue) : (x.setIss p i).departing = x.departing := by cases p <;> rfl
@[simp] theorem Warp.setIss_yielded (x : Warp) (p : Pipe) (i : Option Issue) : (x.setIss p i).yielded = x.yielded := by cases p <;> rfl
@[simp] theorem Warp.setIss_passed (x : Warp) (p : Pipe) (i : Option Issue) : (x.setIss p i).passed = x.passed := by cases p <;> rfl
@[simp] theorem Warp.setIss_fetched (x : Warp) (p : Pipe) (i : Option Issue) : (x.setIss p i).fetched = x.fetched := by cases p <;> rfl
@[simp] theorem Warp.setIss_stopped (x : Warp) (p : Pipe) (i : Option Issue) : (x.setIss p i).stopped = x.stopped := by cases p <;> rfl

@[simp] theorem Warp.setIss_iss (x : Warp) (p : Pipe) (i : Option Issue) : (x.setIss p i).iss p = i := by cases p <;> rfl
theorem Warp.setIss_other (x : Warp) {p q : Pipe} (i : Option Issue) (h : q ≠ p) : (x.setIss p i).iss q = x.iss q := by
  cases p <;> cases q <;> first | rfl | exact absurd rfl h
@[simp] theorem Warp.mapLanes_iss (x : Warp) (p : Pipe) (m : Lanes) (f : Nat → Thread → Thread) : (x.mapLanes m f).iss p = x.iss p := by
  cases p <;> rfl
@[simp] theorem Warp.modThread_iss (x : Warp) (p : Pipe) (l : Nat) (f : Thread → Thread) : (x.modThread l f).iss p = x.iss p := by
  cases p <;> rfl

/-! ### Updates of a thread -/

@[simp] theorem Thread.setReg_preds (t : Thread) (r : Nat) (v : VReg) : (t.setReg r v).preds = t.preds := by
  unfold Thread.setReg; split <;> (try split) <;> rfl
@[simp] theorem Thread.setReg_gen (t : Thread) (r : Nat) (v : VReg) : (t.setReg r v).gen = t.gen := by
  unfold Thread.setReg; split <;> (try split) <;> rfl
@[simp] theorem Thread.setReg_pc (t : Thread) (r : Nat) (v : VReg) : (t.setReg r v).pc = t.pc := by
  unfold Thread.setReg; split <;> (try split) <;> rfl
@[simp] theorem Thread.setReg_rstack (t : Thread) (r : Nat) (v : VReg) : (t.setReg r v).rstack = t.rstack := by
  unfold Thread.setReg; split <;> (try split) <;> rfl
@[simp] theorem Thread.setReg_pipe (t : Thread) (r : Nat) (v : VReg) : (t.setReg r v).pipe = t.pipe := by
  unfold Thread.setReg; split <;> (try split) <;> rfl
@[simp] theorem Thread.setReg_st (t : Thread) (r : Nat) (v : VReg) : (t.setReg r v).st = t.st := by
  unfold Thread.setReg; split <;> (try split) <;> rfl
@[simp] theorem Thread.setReg_count (t : Thread) (r : Nat) (v : VReg) : (t.setReg r v).count = t.count := by
  unfold Thread.setReg; split <;> (try split) <;> rfl
@[simp] theorem Thread.setReg_group (t : Thread) (r : Nat) (v : VReg) : (t.setReg r v).group = t.group := by
  unfold Thread.setReg; split <;> (try split) <;> rfl
@[simp] theorem Thread.setReg_since (t : Thread) (r : Nat) (v : VReg) : (t.setReg r v).since = t.since := by
  unfold Thread.setReg; split <;> (try split) <;> rfl
@[simp] theorem Thread.setReg_redirect (t : Thread) (r : Nat) (v : VReg) : (t.setReg r v).redirect = t.redirect := by
  unfold Thread.setReg; split <;> (try split) <;> rfl

@[simp] theorem Thread.put_preds (t : Thread) (r : Nat) (v : Word) : (t.put r v).preds = t.preds := Thread.setReg_preds _ _ _
@[simp] theorem Thread.put_gen (t : Thread) (r : Nat) (v : Word) : (t.put r v).gen = t.gen := Thread.setReg_gen _ _ _
@[simp] theorem Thread.put_pc (t : Thread) (r : Nat) (v : Word) : (t.put r v).pc = t.pc := Thread.setReg_pc _ _ _
@[simp] theorem Thread.put_rstack (t : Thread) (r : Nat) (v : Word) : (t.put r v).rstack = t.rstack := Thread.setReg_rstack _ _ _
@[simp] theorem Thread.put_pipe (t : Thread) (r : Nat) (v : Word) : (t.put r v).pipe = t.pipe := Thread.setReg_pipe _ _ _
@[simp] theorem Thread.put_st (t : Thread) (r : Nat) (v : Word) : (t.put r v).st = t.st := Thread.setReg_st _ _ _
@[simp] theorem Thread.put_count (t : Thread) (r : Nat) (v : Word) : (t.put r v).count = t.count := Thread.setReg_count _ _ _
@[simp] theorem Thread.put_group (t : Thread) (r : Nat) (v : Word) : (t.put r v).group = t.group := Thread.setReg_group _ _ _
@[simp] theorem Thread.put_since (t : Thread) (r : Nat) (v : Word) : (t.put r v).since = t.since := Thread.setReg_since _ _ _
@[simp] theorem Thread.put_redirect (t : Thread) (r : Nat) (v : Word) : (t.put r v).redirect = t.redirect := Thread.setReg_redirect _ _ _

@[simp] theorem Thread.setPred_regs (t : Thread) (p : Nat) (v : Bool) : (t.setPred p v).regs = t.regs := by
  unfold Thread.setPred; split <;> rfl
@[simp] theorem Thread.setPred_gen (t : Thread) (p : Nat) (v : Bool) : (t.setPred p v).gen = t.gen := by
  unfold Thread.setPred; split <;> rfl
@[simp] theorem Thread.setPred_pc (t : Thread) (p : Nat) (v : Bool) : (t.setPred p v).pc = t.pc := by
  unfold Thread.setPred; split <;> rfl
@[simp] theorem Thread.setPred_rstack (t : Thread) (p : Nat) (v : Bool) : (t.setPred p v).rstack = t.rstack := by
  unfold Thread.setPred; split <;> rfl
@[simp] theorem Thread.setPred_pipe (t : Thread) (p : Nat) (v : Bool) : (t.setPred p v).pipe = t.pipe := by
  unfold Thread.setPred; split <;> rfl
@[simp] theorem Thread.setPred_st (t : Thread) (p : Nat) (v : Bool) : (t.setPred p v).st = t.st := by
  unfold Thread.setPred; split <;> rfl
@[simp] theorem Thread.setPred_count (t : Thread) (p : Nat) (v : Bool) : (t.setPred p v).count = t.count := by
  unfold Thread.setPred; split <;> rfl
@[simp] theorem Thread.setPred_group (t : Thread) (p : Nat) (v : Bool) : (t.setPred p v).group = t.group := by
  unfold Thread.setPred; split <;> rfl
@[simp] theorem Thread.setPred_since (t : Thread) (p : Nat) (v : Bool) : (t.setPred p v).since = t.since := by
  unfold Thread.setPred; split <;> rfl
@[simp] theorem Thread.setPred_trap (t : Thread) (p : Nat) (v : Bool) : (t.setPred p v).trap = t.trap := by
  unfold Thread.setPred; split <;> rfl
@[simp] theorem Thread.setPred_redirect (t : Thread) (p : Nat) (v : Bool) : (t.setPred p v).redirect = t.redirect := by
  unfold Thread.setPred; split <;> rfl

@[simp] theorem Thread.ready_regs (t : Thread) (pc : CodePt) (group now : Nat) : (t.ready pc group now).regs = t.regs := rfl
@[simp] theorem Thread.ready_preds (t : Thread) (pc : CodePt) (group now : Nat) : (t.ready pc group now).preds = t.preds := rfl
@[simp] theorem Thread.ready_gen (t : Thread) (pc : CodePt) (group now : Nat) : (t.ready pc group now).gen = t.gen := rfl
@[simp] theorem Thread.ready_rstack (t : Thread) (pc : CodePt) (group now : Nat) : (t.ready pc group now).rstack = t.rstack := rfl
@[simp] theorem Thread.ready_pipe (t : Thread) (pc : CodePt) (group now : Nat) : (t.ready pc group now).pipe = t.pipe := rfl
@[simp] theorem Thread.ready_trap (t : Thread) (pc : CodePt) (group now : Nat) : (t.ready pc group now).trap = t.trap := rfl

@[simp] theorem Thread.setReg_isSome (t : Thread) (r : Nat) (v : VReg) : (t.setReg r v).trap.isSome = t.trap.isSome := by
  unfold Thread.setReg; split <;> (try split) <;> simp_all

end Sys2Proof.Machine
end

