-- ==== Sys2Proof/Laws/Table.lean ====
section
/-! SUPPORT. The laws of the plain data: finite maps, memories in canonical form, bytes and sets of lanes. -/

namespace Sys2Proof.Machine

set_option Elab.async false

/-! ### Finite maps -/

@[simp] theorem tget_tput_same {α : Type} (t : Table α) (k : Nat) (v : α) : tget (tput t k v) k = some v := by
  induction t with
  | nil => simp [tput, tget]
  | cons x t ih => obtain ⟨i, a⟩ := x; by_cases h : i = k <;> simp [tput, tget, h, ih]

theorem tget_tput_ne {α : Type} (t : Table α) {k j : Nat} (v : α) (h : j ≠ k) : tget (tput t k v) j = tget t j := by
  induction t with
  | nil => simp [tput, tget, Ne.symm h]
  | cons x t ih =>
    obtain ⟨i, a⟩ := x
    by_cases hi : i = k
    · subst hi; simp [tput, tget, Ne.symm h]
    · by_cases hj : i = j
      · subst hj; simp [tput, tget, hi]
      · simp [tput, tget, hi, hj, ih]

theorem tget_tput {α : Type} (t : Table α) (k j : Nat) (v : α) : tget (tput t k v) j = if j = k then some v else tget t j := by
  by_cases h : j = k
  · subst h; simp
  · simp [h, tget_tput_ne]

@[simp] theorem tget_tdel_same {α : Type} (t : Table α) (k : Nat) : tget (tdel t k) k = none := by
  induction t with
  | nil => rfl
  | cons x t ih => obtain ⟨i, a⟩ := x; by_cases h : i = k <;> simp_all [tdel, tget]

theorem tget_tdel_ne {α : Type} (t : Table α) {k j : Nat} (h : j ≠ k) : tget (tdel t k) j = tget t j := by
  induction t with
  | nil => rfl
  | cons x t ih =>
    obtain ⟨i, a⟩ := x
    by_cases hi : i = k
    · subst hi; simp_all [tdel, tget, Ne.symm h]
    · by_cases hj : i = j <;> simp_all [tdel, tget]

theorem tget_tmod {α : Type} (t : Table α) (k j : Nat) (f : α → α) :
    tget (tmod t k f) j = if j = k then (tget t k).map f else tget t j := by
  unfold tmod
  cases h : tget t k with
  | none => by_cases hj : j = k <;> simp [hj, h]
  | some a => simp [tget_tput]

theorem tget_tmap {α : Type} (t : Table α) (k : Nat) (f : Nat → α → α) : tget (tmap t f) k = (tget t k).map (f k) := by
  induction t with
  | nil => rfl
  | cons x t ih =>
    obtain ⟨i, a⟩ := x
    by_cases h : i = k
    · subst h; simp [tmap, tget]
    · simpa [tmap, tget, h] using ih

/-! ### Tables of the state -/

@[simp] theorem State.warp?_setWarp (s : State) (w : Nat) (x : Warp) : (s.setWarp w x).warp? w = some x := by
  simp [State.warp?, State.setWarp]
theorem State.warp?_setWarp_ne (s : State) {w k : Nat} (x : Warp) (h : k ≠ w) : (s.setWarp w x).warp? k = s.warp? k := by
  simp [State.warp?, State.setWarp, tget_tput_ne _ _ h]
theorem State.warp?_modWarp (s : State) (w : Nat) (f : Warp → Warp) : (s.modWarp w f).warp? w = (s.warp? w).map f := by
  unfold State.modWarp; cases h : s.warp? w <;> simp [h]
theorem State.warp?_modWarp_ne (s : State) {w k : Nat} (f : Warp → Warp) (h : k ≠ w) : (s.modWarp w f).warp? k = s.warp? k := by
  unfold State.modWarp; cases s.warp? w <;> simp [State.warp?_setWarp_ne, h]
@[simp] theorem State.warp?_bump (s : State) (w : Nat) : s.bump.warp? w = s.warp? w := rfl

@[simp] theorem State.die_setDie (s : State) (d : Nat) (x : Die) : (s.setDie d x).die d = x := by
  simp [State.die, State.setDie, tgetD]
theorem State.die_setDie_ne (s : State) {d k : Nat} (x : Die) (h : k ≠ d) : (s.setDie d x).die k = s.die k := by
  simp [State.die, State.setDie, tgetD, tget_tput_ne _ _ h]
@[simp] theorem State.die_modDie (s : State) (d : Nat) (f : Die → Die) : (s.modDie d f).die d = f (s.die d) := by
  simp [State.modDie]
theorem State.die_modDie_ne (s : State) {d k : Nat} (f : Die → Die) (h : k ≠ d) : (s.modDie d f).die k = s.die k := by
  simp [State.modDie, State.die_setDie_ne, h]
@[simp] theorem State.ctx_setCtx (s : State) (c : Nat) (x : Context) : (s.setCtx c x).ctx c = x := by
  simp [State.ctx, State.setCtx, tgetD]
theorem State.ctx_setCtx_ne (s : State) {c k : Nat} (x : Context) (h : k ≠ c) : (s.setCtx c x).ctx k = s.ctx k := by
  simp [State.ctx, State.setCtx, tgetD, tget_tput_ne _ _ h]
@[simp] theorem State.ctx_modCtx (s : State) (c : Nat) (f : Context → Context) : (s.modCtx c f).ctx c = f (s.ctx c) := by
  simp [State.modCtx]
@[simp] theorem State.queue_setQueue (s : State) (q : Nat) (x : Queue) : (s.setQueue q x).queue q = x := by
  simp [State.queue, State.setQueue, tgetD]
@[simp] theorem State.block?_setBlock (s : State) (b : Nat) (x : Block) : (s.setBlock b x).block? b = some x := by
  simp [State.block?, State.setBlock]
theorem State.block?_setBlock_ne (s : State) {b k : Nat} (x : Block) (h : k ≠ b) : (s.setBlock b x).block? k = s.block? k := by
  simp [State.block?, State.setBlock, tget_tput_ne _ _ h]
theorem State.block?_modBlock (s : State) (b : Nat) (f : Block → Block) : (s.modBlock b f).block? b = (s.block? b).map f := by
  unfold State.modBlock; cases h : s.block? b <;> simp [h]
@[simp] theorem State.share?_setShare (s : State) (h : Nat) (x : Share) : (s.setShare h x).share? h = some x := by
  simp [State.share?, State.setShare]
theorem State.share?_modShare (s : State) (k : Nat) (f : Share → Share) : (s.modShare k f).share? k = (s.share? k).map f := by
  unfold State.modShare; cases h : s.share? k <;> simp [h]
@[simp] theorem State.kernel?_setKernel (s : State) (k : Nat) (x : Kernel) : (s.setKernel k x).kernel? k = some x := by
  simp [State.kernel?, State.setKernel]
theorem State.core_modCore (s : State) (d c : Nat) (f : Core → Core) : (s.modCore d c f).core d c = f (s.core d c) := by
  simp [State.modCore, State.core, State.setCore, tgetD]

/-- A table a state shares reads alike: what does not touch the table leaves its entries. -/
theorem State.warp?_congr {s t : State} (h : t.warps = s.warps) (w : Nat) : t.warp? w = s.warp? w := by simp [State.warp?, h]
theorem State.block?_congr {s t : State} (h : t.blocks = s.blocks) (b : Nat) : t.block? b = s.block? b := by simp [State.block?, h]
theorem State.die_congr {s t : State} (h : t.dies = s.dies) (d : Nat) : t.die d = s.die d := by simp [State.die, h]
theorem State.ctx_congr {s t : State} (h : t.ctxs = s.ctxs) (c : Nat) : t.ctx c = s.ctx c := by simp [State.ctx, h]
theorem State.core_congr {s t : State} (h : t.cores = s.cores) (d c : Nat) : t.core d c = s.core d c := by simp [State.core, h]

/-! ### Lists -/

@[simp] theorem length_lmod {α : Type} (l : List α) (i : Nat) (f : α → α) : (lmod l i f).length = l.length := by
  induction l generalizing i with
  | nil => rfl
  | cons a l ih => cases i <;> simp [lmod, ih]

theorem getElem?_lmod {α : Type} (l : List α) (i j : Nat) (f : α → α) :
    (lmod l i f)[j]? = if j = i then (l[j]?).map f else l[j]? := by
  induction l generalizing i j with
  | nil => simp [lmod]
  | cons a l ih => cases i <;> cases j <;> simp [lmod, ih]

/-! ### Memory -/

/-- Below every listed address of a canonical memory it reads 0. -/
theorem mget_below (m : Mem) (j : Nat) (h : ∀ x ∈ m, j < x.1) : mget m j = 0 := by
  induction m with
  | nil => rfl
  | cons y m ih =>
    have hy := h y (by simp)
    have hne : ¬ y.1 = j := by omega
    have := ih fun x hx => h x (by simp [hx])
    simpa only [mget, hne, if_false] using this

theorem wf_cons {i : Nat} {c : Byte} {m : Mem} : Memory.wf ((i, c) :: m) = true ↔ c ≠ 0 ∧ (∀ x ∈ m, i < x.1) ∧ Memory.wf m = true := by
  simp [Memory.wf, and_assoc]

theorem mget_cons (i : Nat) (c : Byte) (m : Mem) (k : Nat) : mget ((i, c) :: m) k = if i = k then c else mget m k := rfl

/-- Reading after a write: the byte written there, the old byte elsewhere. -/
theorem mget_mset (m : Mem) (a : Nat) (b : Byte) (h : Memory.wf m = true) (k : Nat) :
    mget (mset m a b) k = if k = a then b else mget m k := by
  induction m with
  | nil =>
    unfold mset
    by_cases hb : b = 0
    · rw [if_pos hb, hb]; split <;> rfl
    · rw [if_neg hb, mget_cons]; simp only [eq_comm (a := a)]
  | cons x m ih =>
    obtain ⟨i, c⟩ := x
    obtain ⟨hc, hlt, hm⟩ := wf_cons.1 h
    have hz : ∀ j, j ≤ i → mget m j = 0 := fun j hj => mget_below m j fun x hx => by have := hlt x hx; omega
    unfold mset
    by_cases h1 : a < i
    · rw [if_pos h1]
      by_cases hb : b = 0
      · rw [if_pos hb]
        by_cases hk : k = a
        · subst hk; rw [if_pos rfl, mget_cons, if_neg (by omega), hz k (by omega), hb]
        · rw [if_neg hk]
      · rw [if_neg hb, mget_cons]
        by_cases hk : k = a
        · rw [if_pos hk.symm, if_pos hk]
        · rw [if_neg (Ne.symm hk), if_neg hk]
    · rw [if_neg h1]
      by_cases h2 : a = i
      · rw [if_pos h2]
        by_cases hb : b = 0
        · rw [if_pos hb]
          by_cases hk : k = a
          · rw [if_pos hk, hz k (by omega), hb]
          · rw [if_neg hk, mget_cons, if_neg (by omega)]
        · rw [if_neg hb, mget_cons, mget_cons]
          by_cases hk : k = a
          · rw [if_pos hk.symm, if_pos hk]
          · rw [if_neg (Ne.symm hk), if_neg hk, if_neg (by omega)]
      · rw [if_neg h2, mget_cons, mget_cons, ih hm]
        by_cases hk : i = k
        · rw [if_pos hk, if_neg (by omega), if_pos hk]
        · rw [if_neg hk, if_neg hk]

theorem mset_lower (m : Mem) (a : Nat) (b : Byte) (n : Nat) (h : ∀ x ∈ m, n < x.1) (ha : n < a) :
    ∀ x ∈ mset m a b, n < x.1 := by
  induction m with
  | nil => intro x hx; by_cases hb : b = 0 <;> simp_all [mset]
  | cons y m ih =>
    intro x hx
    have hm : ∀ x ∈ m, n < x.1 := fun x hx => h x (by simp [hx])
    simp only [mset] at hx
    split at hx
    · split at hx
      · exact h x hx
      · rcases List.mem_cons.1 hx with rfl | hx
        · exact ha
        · exact h x hx
    · split at hx
      · split at hx
        · exact hm x hx
        · rcases List.mem_cons.1 hx with rfl | hx
          · exact ha
          · exact hm x hx
      · rcases List.mem_cons.1 hx with rfl | hx
        · exact h y (by simp)
        · exact ih hm x hx

/-- A write keeps the canonical form. -/
theorem wf_mset (m : Mem) (a : Nat) (b : Byte) (h : Memory.wf m = true) : Memory.wf (mset m a b) = true := by
  induction m with
  | nil =>
    unfold mset
    by_cases hb : b = 0
    · rw [if_pos hb]; rfl
    · rw [if_neg hb]; exact wf_cons.2 ⟨hb, by simp, rfl⟩
  | cons x m ih =>
    obtain ⟨i, c⟩ := x
    have h' := h
    simp only [Memory.wf, Bool.and_eq_true, List.all_eq_true, decide_eq_true_eq] at h
    obtain ⟨⟨hc, hlt⟩, hm⟩ := h
    simp only [mset]
    split
    · split
      · exact h'
      · rename_i h1 hb
        simp only [Memory.wf, Bool.and_eq_true, List.all_eq_true, decide_eq_true_eq]
        refine ⟨⟨by simpa using hb, ?_⟩, ⟨hc, hlt⟩, hm⟩
        intro y hy
        rcases List.mem_cons.1 hy with rfl | hy
        · exact h1
        · exact lt_trans h1 (hlt y hy)
    · split
      · split
        · exact hm
        · rename_i h1 h2 hb
          subst h2
          simp only [Memory.wf, Bool.and_eq_true, List.all_eq_true, decide_eq_true_eq]
          exact ⟨⟨by simpa using hb, hlt⟩, hm⟩
      · rename_i h1 h2
        simp only [Memory.wf, Bool.and_eq_true, List.all_eq_true, decide_eq_true_eq]
        exact ⟨⟨hc, mset_lower m a b i hlt (by omega)⟩, ih hm⟩

theorem wf_msetAll (cells : List Host.Cell) : ∀ m : Mem, Memory.wf m = true → Memory.wf (msetAll m cells) = true := by
  induction cells with
  | nil => intro m h; exact h
  | cons x l ih => intro m h; exact ih _ (wf_mset m x.1 x.2 h)

theorem wf_mwrite (m : Mem) (a n v : Nat) (h : Memory.wf m = true) : Memory.wf (mwrite m a n v) = true := wf_msetAll _ m h

/-- Writes leave every other address alone. -/
theorem mget_msetAll_ne (cells : List Host.Cell) (k : Nat) :
    ∀ m : Mem, Memory.wf m = true → (∀ x ∈ cells, x.1 ≠ k) → mget (msetAll m cells) k = mget m k := by
  induction cells with
  | nil => intro m _ _; rfl
  | cons x l ih =>
    intro m h hk
    have h1 : k ≠ x.1 := Ne.symm (hk x (by simp))
    have := ih (mset m x.1 x.2) (wf_mset m x.1 x.2 h) fun y hy => hk y (by simp [hy])
    simpa [msetAll, mget_mset m x.1 x.2 h, h1] using this

theorem mem_cellsAt {a k : Nat} {bs : List Byte} {b : Byte} (h : (k, b) ∈ cellsAt a bs) : a ≤ k ∧ k < a + bs.length := by
  induction bs generalizing a with
  | nil => simp [cellsAt] at h
  | cons c l ih =>
    rcases List.mem_cons.1 h with h | h
    · cases h; simp
    · have := ih h; simp; omega

/-- The bytes written are the bytes read. -/
theorem mget_cellsAt (bs : List Byte) : ∀ (m : Mem) (a i : Nat), Memory.wf m = true → i < bs.length →
    mget (msetAll m (cellsAt a bs)) (a + i) = bs.getD i 0 := by
  induction bs with
  | nil => intro m a i _ hi; simp at hi
  | cons b l ih =>
    intro m a i h hi
    cases i with
    | zero =>
      have := mget_msetAll_ne (cellsAt (a + 1) l) a (mset m a b) (wf_mset m a b h) (by
        intro x hx; have := mem_cellsAt (k := x.1) (b := x.2) (by simpa using hx); omega)
      simpa [cellsAt, msetAll, mget_mset m a b h] using this
    | succ i =>
      have := ih (mset m a b) (a + 1) i (wf_mset m a b h) (by simpa using hi)
      simpa [cellsAt, msetAll, Nat.add_assoc, Nat.add_comm 1 i] using this

@[simp] theorem length_leBytes (n v : Nat) : (leBytes n v).length = n := by
  induction n generalizing v with
  | zero => rfl
  | succ n ih => simp [leBytes, ih]

theorem leNat_leBytes (n v : Nat) : leNat (leBytes n v) = v % 256 ^ n := by
  induction n generalizing v with
  | zero => simp [leBytes, leNat, Nat.mod_one]
  | succ n ih =>
    rw [leBytes, leNat, ih, BitVec.toNat_ofNat]
    have : 256 ^ (n + 1) = 256 * 256 ^ n := by ring
    rw [this]
    exact (Nat.mod_mul (a := 256) (b := 256 ^ n)).symm

/-! ### Sets of lanes -/

theorem getLsbD_laneBit (k l : Nat) : (laneBit k).getLsbD l = (decide (l < 128) && decide (l = k)) := by
  unfold laneBit
  rw [BitVec.getLsbD_ofNat, Nat.testBit_two_pow]
  simp [eq_comm]

theorem getLsbD_foldl_lanes (ls : List Nat) (m : Lanes) (l : Nat) :
    (ls.foldl (fun m k => m ||| laneBit k) m).getLsbD l = (m.getLsbD l || (decide (l < 128) && decide (l ∈ ls))) := by
  induction ls generalizing m with
  | nil => simp
  | cons k ls ih =>
    rw [List.foldl_cons, ih]
    simp only [BitVec.getLsbD_or, getLsbD_laneBit, List.mem_cons]
    by_cases h1 : l < 128 <;> by_cases h2 : l = k <;> by_cases h3 : l ∈ ls <;> simp [h1, h2, h3] <;> simp_all

@[simp] theorem getLsbD_lanesOf (ls : List Nat) (l : Nat) : (lanesOf ls).getLsbD l = (decide (l < 128) && decide (l ∈ ls)) := by
  simp [lanesOf, getLsbD_foldl_lanes]

@[simp] theorem mem_laneList (w : Nat) (m : Lanes) (l : Nat) : l ∈ laneList w m ↔ l < w ∧ m.getLsbD l = true := by
  simp [laneList]

theorem getLsbD_laneFilter (w : Nat) (m : Lanes) (p : Nat → Bool) (l : Nat) :
    (laneFilter w m p).getLsbD l = (decide (l < 128) && (decide (l < w) && m.getLsbD l && p l)) := by
  simp [laneFilter, Bool.and_assoc]

/-- A filter that drops no lane is empty of dropped lanes. -/
theorem laneFilter_none (w : Nat) (m : Lanes) (p : Nat → Bool) (h : ∀ l, l < w → m.getLsbD l = true → p l = false) :
    laneFilter w m p = 0 := by
  apply BitVec.eq_of_getLsbD_eq
  intro l _
  rw [getLsbD_laneFilter]
  by_cases h1 : l < w
  · cases h2 : m.getLsbD l
    · simp
    · simp [h l h1 h2]
  · simp [h1]

end Sys2Proof.Machine
end

