-- ==== Sys2Proof/Laws/Word.lean ====
section
/-! SUPPORT. What the frame of a word does: static checks, operands, the end of a word; one lemma for each shared operation. -/

namespace Sys2Proof.Machine

set_option Elab.async false

/-! ### Relations -/

theorem Thread.sameData.refl (u : Thread) : u.sameData u := ⟨rfl, rfl, rfl, rfl, rfl⟩
theorem Thread.sameData.trans {u v w : Thread} (h : u.sameData v) (k : v.sameData w) : u.sameData w := by
  obtain ⟨a, b, c, d, e⟩ := h; obtain ⟨a', b', c', d', e'⟩ := k
  exact ⟨a'.trans a, b'.trans b, c'.trans c, d'.trans d, e'.trans e⟩

theorem Thread.sameData_ready (u : Thread) (pc : CodePt) (g n : Nat) : u.sameData (u.ready pc g n) := ⟨rfl, rfl, rfl, rfl, rfl⟩

theorem Warp.setIss_self (x : Warp) (p : Pipe) : x.setIss p (x.iss p) = x := by cases p <;> rfl

theorem Warp.moved.refl (p : Pipe) (x : Warp) : x.moved p x :=
  ⟨(Warp.setIss_self x p).symm, rfl, fun _ u h => ⟨u, h, .refl u⟩⟩

theorem Warp.moved.trans {p : Pipe} {x y z : Warp} (h : x.moved p y) (k : y.moved p z) : x.moved p z := by
  obtain ⟨h1, h2, h3⟩ := h
  obtain ⟨k1, k2, k3⟩ := k
  refine ⟨?_, k2.trans h2, fun l u hu => ?_⟩
  · rw [k1]; rw [h1]; cases p <;> simp [Warp.setIss, Warp.iss]
  · obtain ⟨v, hv, huv⟩ := h3 l u hu
    obtain ⟨w, hw, hvw⟩ := k3 l v hv
    exact ⟨w, hw, huv.trans hvw⟩

theorem Warp.moved_setIss (p : Pipe) (x : Warp) (i : Option Issue) : x.moved p (x.setIss p i) :=
  ⟨by cases p <;> rfl, by simp, fun _ u h => ⟨u, by simpa [Warp.thread] using h, .refl u⟩⟩

theorem Warp.thread_mapLanes (x : Warp) (m : Lanes) (f : Nat → Thread → Thread) (l : Nat) :
    (x.mapLanes m f).thread l = (x.thread l).map fun t => if m.getLsbD l then f l t else t := by
  simp [Warp.thread, Warp.mapLanes, List.getElem?_mapIdx]

theorem Warp.moved_mapLanes (p : Pipe) (x : Warp) (m : Lanes) (f : Nat → Thread → Thread)
    (h : ∀ (l : Nat) (t : Thread), t.sameData (f l t)) : x.moved p (x.mapLanes m f) := by
  refine ⟨by cases p <;> rfl, by simp [Warp.mapLanes], fun l u hu => ?_⟩
  refine ⟨if m.getLsbD l then f l u else u, by rw [Warp.thread_mapLanes, hu]; rfl, ?_⟩
  split
  · exact h l u
  · exact .refl u

theorem Warp.moved_yielded (p : Pipe) (x : Warp) (y : Option Nat) : x.moved p { x with yielded := y } :=
  ⟨by cases p <;> rfl, rfl, fun _ u h => ⟨u, h, .refl u⟩⟩

theorem OnlyWarp.refl (w : Nat) (s : State) : OnlyWarp w s s := ⟨rfl, fun _ _ => rfl⟩
theorem OnlyWarp.trans {w : Nat} {s t u : State} (h : OnlyWarp w s t) (k : OnlyWarp w t u) : OnlyWarp w s u :=
  ⟨by rw [k.1]; rw [h.1], fun j hj => (k.2 j hj).trans (h.2 j hj)⟩
theorem OnlyWarp.setWarp (w : Nat) (s : State) (x : Warp) : OnlyWarp w s (s.setWarp w x) :=
  ⟨rfl, fun _ h => State.warp?_setWarp_ne s x h⟩
theorem OnlyWarp.bump (w : Nat) (s : State) : OnlyWarp w s s.bump := ⟨rfl, fun _ _ => rfl⟩
theorem OnlyWarp.modWarp (w : Nat) (s : State) (f : Warp → Warp) : OnlyWarp w s (s.modWarp w f) := by
  unfold State.modWarp; split
  · exact .setWarp w s _
  · exact .refl w s

/-- Only warp `w` differs, and it differs as `moved` says. -/
def MovesOnly (w : Nat) (p : Pipe) (s t : State) : Prop :=
  OnlyWarp w s t ∧ ∀ x, s.warp? w = some x → ∃ y, t.warp? w = some y ∧ x.moved p y

theorem MovesOnly.refl (w : Nat) (p : Pipe) (s : State) : MovesOnly w p s s := ⟨.refl w s, fun x h => ⟨x, h, .refl p x⟩⟩
theorem MovesOnly.trans {w : Nat} {p : Pipe} {s t u : State} (h : MovesOnly w p s t) (k : MovesOnly w p t u) : MovesOnly w p s u := by
  refine ⟨h.1.trans k.1, fun x hx => ?_⟩
  obtain ⟨y, hy, hxy⟩ := h.2 x hx
  obtain ⟨z, hz, hyz⟩ := k.2 y hy
  exact ⟨z, hz, hxy.trans hyz⟩
theorem MovesOnly.bump (w : Nat) (p : Pipe) (s : State) : MovesOnly w p s s.bump := ⟨.bump w s, fun x h => ⟨x, h, .refl p x⟩⟩
theorem MovesOnly.setWarp {w : Nat} {p : Pipe} {s : State} {x y : Warp} (h : s.warp? w = some x) (hm : x.moved p y) :
    MovesOnly w p s (s.setWarp w y) :=
  ⟨.setWarp w s y, fun x' h' => by rw [h] at h'; cases h'; exact ⟨y, by simp, hm⟩⟩

/-! ### The end of a word -/

theorem takeRedirects_moves (w : Nat) (p : Pipe) (s : State) : MovesOnly w p s (takeRedirects w p s) := by
  unfold takeRedirects
  cases hx : s.warp? w with
  | none => exact .refl w p s
  | some x =>
    simp only
    cases hi : x.iss p with
    | none => exact .refl w p s
    | some i =>
      simp only
      split
      · exact .refl w p s
      · exact MovesOnly.setWarp hx ((Warp.moved_setIss p x _).trans
          (Warp.moved_mapLanes p _ _ _ fun _ t => t.sameData_ready _ _ _))

theorem emptyPipe_moved (b : Bundle) (y : Bool) (x : Warp) (n : Nat) : x.moved b.pipe (emptyPipe b y x n) :=
  (Warp.moved_setIss b.pipe x none).trans (Warp.moved_yielded b.pipe _ _)

/-- The end of a word changes nothing but where the bundle's threads stand. -/
theorem finishTo_moves (b : Bundle) (dest : Nat → Nat) (s : State) : MovesOnly b.w b.pipe s (finishTo b dest s) := by
  refine (takeRedirects_moves b.w b.pipe s).trans ?_
  unfold finishTo
  generalize takeRedirects b.w b.pipe s = s
  simp only
  cases hx : s.warp? b.w with
  | none => exact .refl _ _ s
  | some x =>
    simp only
    cases hi : x.iss b.pipe with
    | none => exact .setWarp hx (emptyPipe_moved _ _ _ _)
    | some i =>
      simp only
      split
      · exact .setWarp hx (emptyPipe_moved _ _ _ _)
      · split
        · exact MovesOnly.setWarp hx (((Warp.moved_setIss b.pipe x none).trans
            (Warp.moved_mapLanes b.pipe _ i.lanes _ fun _ t => t.sameData_ready _ _ _)).trans
            (Warp.moved_yielded b.pipe _ _))
        · exact .setWarp hx (Warp.moved_setIss _ _ _)

theorem finishWord_moves (b : Bundle) (s : State) : MovesOnly b.w b.pipe s (finishWord b s) := finishTo_moves b _ s

/-! ### The frame of a word -/

theorem runWord_next {i : Instr} {s : State} {b : Bundle} (body : Bundle → Lanes → State → State) (h : Runs i s b) :
    runWord i body s = .next (body b (acting i b) s) := by
  obtain ⟨hb, hs, -⟩ := h
  simp [runWord, hb, hs, acting]

theorem bundle_warp {s : State} {b : Bundle} (h : s.bundle? = some b) : s.warp? b.w = some b.warp ∧ b.warp.iss b.pipe = some b.iss := by
  unfold State.bundle? at h
  split at h
  · cases h
  · split at h
    · cases h
    · split at h
      · cases h
      · cases h; exact ⟨by assumption, by assumption⟩

/-- The sources of a word lie among the registers it names. -/
def Covers (rs : List (Nat × Nat)) (xs : List Nat) : Prop := ∀ r ∈ xs, ∃ q ∈ rs, ∃ j, j < q.2 ∧ r = q.1 + j

theorem trapLanes_none (w : Nat) (at_ : WordAt) (c : Nat) (f : Nat → Nat) (g : Nat → Word) (s : State) :
    trapLanes w 0 at_ c f g s = s := by
  unfold trapLanes; split <;> simp

theorem acting_lt {i : Instr} {b : Bundle} {l : Nat} (h : (acting i b).getLsbD l = true) : l < b.warp.width ∧ l < 128 := by
  unfold acting guardLanes at h
  rw [getLsbD_laneFilter] at h
  simp at h; exact ⟨h.2.1.1, h.1⟩

/-- With the named registers full, no operand traps or waits. -/
theorem operands_full {i : Instr} {b : Bundle} (hf : NamedFull i b) {k : WordInfo} (hk : i.info b.warp.width = some k)
    {ss : List Src} {ds : List Nat} (hs : Covers k.regs (ss.flatMap Src.regs)) (hd : Covers k.regs ds) {l : Nat} {t : Thread}
    (hl : (acting i b).getLsbD l = true) (ht : b.warp.thread l = some t) :
    t.emptyTrap ss = false ∧ t.mustWait ss ds = false := by
  have full : ∀ xs, Covers k.regs xs → t.anyEmpty xs = false := by
    intro xs hx
    simp only [Thread.anyEmpty, List.any_eq_false, Bool.not_eq_true', Bool.not_eq_false]
    intro r hr
    obtain ⟨q, hq, j, hj, rfl⟩ := hx r hr
    exact hf l t k hl ht hk q hq j hj
  have each : ∀ x ∈ ss, t.anyEmpty x.regs = false := fun x hx =>
    full _ fun r hr => hs r (List.mem_flatMap.2 ⟨x, hx, hr⟩)
  constructor
  · simp only [Thread.emptyTrap, List.any_eq_false]
    intro x hx; simp [each x hx]
  · simp only [Thread.mustWait, Bool.or_eq_false_iff, List.any_eq_false]
    exact ⟨fun x hx => by simp [each x hx], full ds hd⟩

theorem withOperands_act {i : Instr} {b : Bundle} (hf : NamedFull i b) {k : WordInfo} (hk : i.info b.warp.width = some k)
    {ss : List Src} {ds : List Nat} (hs : Covers k.regs (ss.flatMap Src.regs)) (hd : Covers k.regs ds)
    (act : Bundle → Lanes → State → State) (s : State) :
    withOperands ss ds act b (acting i b) s = act b (acting i b) s := by
  have htr : laneFilter b.warp.width (acting i b) (fun l => ((b.warp.thread l).map fun t => t.emptyTrap ss).getD false) = 0 := by
    apply laneFilter_none
    intro l _ hl
    cases ht : b.warp.thread l with
    | none => rfl
    | some t => exact (operands_full hf hk hs hd hl ht).1
  have hrest : ((laneList b.warp.width (acting i b)).any fun l => ((b.warp.thread l).map fun t => t.mustWait ss ds).getD false) = false := by
    rw [List.any_eq_false]
    intro l hl
    rw [mem_laneList] at hl
    cases ht : b.warp.thread l with
    | none => simp
    | some t => simp [(operands_full hf hk hs hd hl.2 ht).2]
  simp only [withOperands, htr, if_true]
  have h0 : acting i b &&& ~~~(0 : Lanes) = acting i b := by
    show acting i b &&& ~~~(0#128) = acting i b
    rw [BitVec.not_zero, BitVec.and_allOnes]
  rw [h0, hrest]; rfl

theorem crossOperands_act {i : Instr} {b : Bundle} (hf : NamedFull i b) {k : WordInfo} (hk : i.info b.warp.width = some k)
    {ss : List Src} {ds : List Nat} (hs : Covers k.regs (ss.flatMap Src.regs)) (hd : Covers k.regs ds)
    (act : Bundle → Lanes → State → State) (s : State) :
    crossOperands ss ds act b (acting i b) s = act b (acting i b) s := by
  have hts : ∀ t ∈ (laneList b.warp.width (acting i b)).filterMap b.warp.thread, t.emptyTrap ss = false ∧ t.mustWait ss ds = false := by
    intro t ht
    obtain ⟨l, hl, hlt⟩ := List.mem_filterMap.1 ht
    rw [mem_laneList] at hl
    exact operands_full hf hk hs hd hl.2 hlt
  simp only [crossOperands]
  rw [if_neg, if_neg]
  · simp only [List.any_eq_true, not_exists, not_and]; intro t ht; simp [(hts t ht).2]
  · simp only [List.any_eq_true, not_exists, not_and]; intro t ht; simp [(hts t ht).1]

theorem mem_regRange {r n x : Nat} : x ∈ regRange r n ↔ ∃ j, j < n ∧ x = r + j := by
  simp [regRange, eq_comm]

theorem covers_append {rs xs ys} : Covers rs (xs ++ ys) ↔ Covers rs xs ∧ Covers rs ys := by
  simp only [Covers, List.mem_append]
  exact ⟨fun h => ⟨fun r hr => h r (.inl hr), fun r hr => h r (.inr hr)⟩, fun h r hr => hr.elim (h.1 r) (h.2 r)⟩

theorem covers_nil (rs) : Covers rs [] := by intro r h; cases h

theorem covers_of_mem {rs : List (Nat × Nat)} {r n : Nat} {xs : List Nat} (h : (r, n) ∈ rs) (hx : ∀ x ∈ xs, ∃ j, j < n ∧ x = r + j) : Covers rs xs :=
  fun x hx' => ⟨(r, n), h, hx x hx'⟩

/-- With the named registers full in its lowest guard-true lane, a word that reads them once acts with that lane. -/
theorem withLeader_act {i : Instr} {s : State} {b : Bundle} (h : Leads i s b) {k : WordInfo} (hk : i.info b.warp.width = some k)
    {ss : List Src} (hs : Covers k.regs (ss.flatMap Src.regs)) {wait : State → Bool} (hw : wait s = false)
    (act : Bundle → Lanes → Nat → State → State) :
    withLeader ss wait act b (acting i b) s = act b (acting i b) (leader i b) s := by
  obtain ⟨_, h0, hf⟩ := h
  have full : ∀ t, b.warp.thread (leader i b) = some t → t.emptyTrap ss = false ∧ t.mustWait ss [] = false := by
    intro t ht
    have each : ∀ x ∈ ss, t.anyEmpty x.regs = false := by
      intro x hx
      simp only [Thread.anyEmpty, List.any_eq_false, Bool.not_eq_true', Bool.not_eq_false]
      intro r hr
      obtain ⟨q, hq, j, hj, rfl⟩ := hs r (List.mem_flatMap.2 ⟨x, hx, hr⟩)
      exact hf t k ht hk q hq j hj
    constructor
    · simp only [Thread.emptyTrap, List.any_eq_false]
      intro x hx; simp [each x hx]
    · simp only [Thread.mustWait, Bool.or_eq_false_iff, List.any_eq_false]
      exact ⟨fun x hx => by simp [each x hx], rfl⟩
  cases hl : laneList b.warp.width (acting i b) with
  | nil =>
    exfalso; apply h0
    apply BitVec.eq_of_getLsbD_eq
    intro j _
    cases hb : (acting i b).getLsbD j with
    | false => simp
    | true =>
      have hm : j ∈ laneList b.warp.width (acting i b) := by rw [mem_laneList]; exact ⟨(acting_lt hb).1, hb⟩
      rw [hl] at hm; cases hm
  | cons l ls =>
    have hlead : leader i b = l := by simp [leader, lowestLane, hl]
    have hlow : lowestLane b.warp.width (acting i b) = some l := by simp [lowestLane, hl]
    simp only [withLeader, hlow, hw, Bool.or_false, hlead]
    cases ht : b.warp.thread l with
    | none => simp
    | some t => simp [(full t (hlead ▸ ht)).1, (full t (hlead ▸ ht)).2]

/-- A change of the warp followed by the end of a word, wherever that sends its threads. -/
theorem moves_finishTo {s : State} {b : Bundle} (h : s.bundle? = some b) (f : Warp → Warp) (dest : Nat → Nat) :
    OnlyWarp b.w s (finishTo b dest (s.modWarp b.w f)) ∧
      ∃ y, (finishTo b dest (s.modWarp b.w f)).warp? b.w = some y ∧ Warp.moved b.pipe (f b.warp) y := by
  obtain ⟨hw, _⟩ := bundle_warp h
  have hm := finishTo_moves b dest (s.modWarp b.w f)
  exact ⟨(OnlyWarp.modWarp b.w s _).trans hm.1, hm.2 (f b.warp) (by rw [State.warp?_modWarp, hw]; rfl)⟩

/-- A change of the warp followed by the end of the word. -/
theorem becomes_finish {s : State} {b : Bundle} (h : s.bundle? = some b) (f : Warp → Warp) :
    WarpBecomes b (f b.warp) s (finishWord b (s.modWarp b.w f)) := by
  obtain ⟨hw, _⟩ := bundle_warp h
  have hm := moves_finishTo h f fun _ => b.next
  exact ⟨hm.1, hm.2, s.modWarp b.w f, OnlyWarp.modWarp b.w s _, by rw [State.warp?_modWarp, hw]; rfl, rfl⟩

/-- The same, as a word's effect. -/
theorem effect_finish {i : Instr} {s : State} {b : Bundle} (h : s.bundle? = some b) (g : Nat → Thread → Thread) (fl : Flags) :
    Effect i b g fl s (finishWord b (s.modWarp b.w fun x => { x.mapLanes (acting i b) g with fpflags := x.fpflags ||| fl })) :=
  becomes_finish h fun x => { x.mapLanes (acting i b) g with fpflags := x.fpflags ||| fl }

/-- The last word of a clause: the bundle's threads go where `dest` says. -/
theorem goes_finish {i : Instr} {s : State} {b : Bundle} (h : s.bundle? = some b) (hlast : b.isLast = true) (f : Thread → Thread)
    (hr : ∀ u, (f u).redirect = u.redirect) (dest : Nat → Nat) :
    Goes i b dest f s (finishTo b dest (s.mapLanes b.w (acting i b) fun _ u => f u)) := by
  obtain ⟨hw, hi⟩ := bundle_warp h
  have hm := moves_finishTo h (fun x => x.mapLanes (acting i b) fun _ u => f u) dest
  obtain ⟨ho, y, hy, hxy⟩ := hm
  refine ⟨ho, y, hy, hxy, ?_⟩
  -- the warp the end of the word leaves
  have hx : (s.mapLanes b.w (acting i b) fun _ u => f u).warp? b.w = some (b.warp.mapLanes (acting i b) fun _ u => f u) := by
    rw [State.mapLanes, State.warp?_modWarp, hw]; rfl
  set s1 := s.mapLanes b.w (acting i b) fun _ u => f u with hs1
  set x1 := b.warp.mapLanes (acting i b) fun _ u => f u with hx1
  have hi1 : x1.iss b.pipe = some b.iss := by rw [← hi, hx1]; cases b.pipe <;> rfl
  -- after the redirected threads have gone
  have key : ∃ x2 i2, (takeRedirects b.w b.pipe s1).warp? b.w = some x2 ∧ x2.iss b.pipe = some i2 ∧
      ∀ l u, b.iss.lanes.getLsbD l = true → b.warp.thread l = some u → u.redirect = none →
        i2.lanes.getLsbD l = true ∧ ∃ v, x2.thread l = some v := by
    unfold takeRedirects
    rw [hx]; simp only [hi1]
    split
    · refine ⟨x1, b.iss, hx, hi1, fun l u hl hu hn => ⟨hl, ?_⟩⟩
      rw [hx1, Warp.thread_mapLanes, hu]; exact ⟨_, rfl⟩
    · rename_i hne
      refine ⟨_, _, by simp [State.warp?, State.setWarp]; rfl, by cases b.pipe <;> rfl, fun l u hl hu hn => ?_⟩
      constructor
      · simp only [BitVec.getLsbD_and, hl, Bool.true_and]
        have hlt : l < 128 := by
          by_contra hc; rw [BitVec.getLsbD_of_ge _ _ (by omega)] at hl; cases hl
        rw [BitVec.getLsbD_not]
        simp only [hlt, decide_true, Bool.true_and, Bool.not_eq_true']
        rw [getLsbD_lanesOf]
        simp only [decide_eq_false_iff_not, Bool.and_eq_false_iff, List.mem_filter, not_and, Bool.not_eq_true]
        right; intro _
        rw [hx1, Warp.thread_mapLanes, hu]
        simp only [Option.map_some, Option.getD_some]
        split <;> simp [hr, hn]
      · rw [Warp.thread_mapLanes]
        have : ∀ q, ((x1.setIss b.pipe q).thread l) = x1.thread l := by intro q; cases b.pipe <;> rfl
        rw [this, hx1, Warp.thread_mapLanes, hu]; exact ⟨_, rfl⟩
  obtain ⟨x2, i2, h2, hi2, hk⟩ := key
  have hfin : finishTo b dest s1 =
      if i2.lanes = 0 then (takeRedirects b.w b.pipe s1).setWarp b.w
        (emptyPipe b i2.yld x2 ((takeRedirects b.w b.pipe s1).die x2.die).time)
      else (takeRedirects b.w b.pipe s1).setWarp b.w
        { (x2.setIss b.pipe none).mapLanes i2.lanes (fun l t => t.ready (atHeader (dest l)) (takeRedirects b.w b.pipe s1).instant
            ((takeRedirects b.w b.pipe s1).die x2.die).time) with
          yielded := if i2.yld then some ((takeRedirects b.w b.pipe s1).die x2.die).time else x2.yielded } := by
    unfold finishTo
    simp only [h2, hi2, hlast, if_true]
    cases b.pipe <;> rfl
  have hy' : (finishTo b dest s1).warp? b.w = some y := hy
  rw [hfin] at hy'
  split at hy'
  · rename_i h0
    simp at hy'
    refine ⟨by rw [← hy']; unfold emptyPipe; cases b.pipe <;> rfl, fun l u hl hu hn => ?_⟩
    have := (hk l u hl hu hn).1; rw [h0] at this; simp at this
  · have hy'' := hy'
    simp [State.warp?, State.setWarp] at hy''
    refine ⟨by rw [← hy'']; cases b.pipe <;> rfl, fun l u hl hu hn => ?_⟩
    obtain ⟨hb, v, hv⟩ := hk l u hl hu hn
    refine ⟨v.ready (atHeader (dest l)) (takeRedirects b.w b.pipe s1).instant ((takeRedirects b.w b.pipe s1).die x2.die).time, ?_, rfl, rfl⟩
    rw [← hy'']
    have hth : ∀ q, ((x2.setIss b.pipe q).thread l) = x2.thread l := by intro q; cases b.pipe <;> rfl
    show Warp.thread (Warp.mapLanes _ _ _) l = _
    rw [Warp.thread_mapLanes, hth, hv]; simp [hb]

/-! ### Traps -/

/-- The thread a synchronous trap leaves (R314-R316). -/
def trapped (at_ : WordAt) (cause faddr : Nat) (code : Word) (tvec group now : Nat) (target : Option Nat) (t : Thread) : Thread :=
  { t.ready (atHeader tvec) group now with
    trap := some { cause := cause, code := code, pred := (t.preds &&& 0x7F).setWidth 32, cpc := at_.hdr, cidx := at_.idx
                   faddr := BitVec.ofNat 64 faddr, cls := at_.cls, count := at_.count
                   window := List.replicate 32 zeroReg, target := t.redirect.or target } }

theorem abortRegion_idle {w r : Nat} {s : State} {x : Warp} (hx : s.warp? w = some x) (hr : x.regionLive = false) :
    abortRegion w r s = s := by
  unfold abortRegion; rw [hx]
  unfold Warp.regionLive at hr
  cases hg : x.region <;> simp_all

theorem lmod_congr {α : Type} {l : List α} {k : Nat} {f g : α → α} {a : α} (ha : l[k]? = some a) (h : f a = g a) : lmod l k f = lmod l k g := by
  apply List.ext_getElem?
  intro j
  simp only [getElem?_lmod]
  split
  · next hj => subst hj; simp [ha, h]
  · rfl

theorem enterTrap_enters {w l : Nat} {at_ : WordAt} {c fa : Nat} {code : Word} {tg : Option Nat} {s : State} {x : Warp} {t : Thread}
    (hx : s.warp? w = some x) (ht : x.thread l = some t) (hn : t.trap = none) (hv : (s.ctx x.ctx).tvec ≠ 0) (hr : x.regionLive = false) :
    enterTrap w l at_ c fa code tg s = s.setWarp w
      { x.modThread l (trapped at_ c fa code (s.ctx x.ctx).tvec.toNat s.instant (s.die x.die).time tg) with ctxsel := x.ctx } := by
  simp only [enterTrap, hx, ht, hn, hv, Option.isSome_none, Bool.false_eq_true, if_false, abortRegion_idle hx hr]
  simp only [State.modWarp, hx]
  congr 1
  show ({ x with threads := _, ctxsel := _ } : Warp) = { x with threads := _, ctxsel := _ }
  congr 1
  exact lmod_congr ht rfl

/-- Some lanes of a warp without a live region trap outside a handler, in a context with a handler: each is READY there with its trap
frame, and nothing else changes. -/
theorem enterTraps {w : Nat} {at_ : WordAt} {c : Nat} {fa : Nat → Nat} {code : Nat → Word} {tg : Option Nat} (ls : List Nat) :
    ∀ {s : State} {x : Warp}, s.warp? w = some x → x.regionLive = false → (s.ctx x.ctx).tvec ≠ 0 → ls.Nodup →
    (∀ l ∈ ls, ∀ u, x.thread l = some u → u.trap = none) →
    let s' := ls.foldl (fun s l => enterTrap w l at_ c (fa l) (code l) tg s) s
    OnlyWarp w s s' ∧ s'.fresh = s.fresh ∧ ∃ y, s'.warp? w = some y ∧ y.regionLive = false ∧ y.issA = x.issA ∧ y.issB = x.issB ∧ y.ctx = x.ctx ∧
      y.width = x.width ∧ ∀ l u, x.thread l = some u → y.thread l = some (if l ∈ ls then
        trapped at_ c (fa l) (code l) (s.ctx x.ctx).tvec.toNat s.instant (s.die x.die).time tg u else u) := by
  induction ls with
  | nil => intro s x hx hr _ _ _; exact ⟨.refl w s, rfl, x, hx, hr, rfl, rfl, rfl, rfl, fun l u h => by simp [h]⟩
  | cons a l ih =>
    intro s x hx hr hv hd hn
    have hd' := List.nodup_cons.1 hd
    cases ht : x.thread a with
    | none =>
      have : enterTrap w a at_ c (fa a) (code a) tg s = s := by simp [enterTrap, hx, ht]
      simp only [List.foldl_cons, this]
      obtain ⟨h1, h2, y, hy, hyr, hya, hyb, hyc, hyw, hyt⟩ := ih hx hr hv hd'.2 fun k hk => hn k (List.mem_cons_of_mem _ hk)
      refine ⟨h1, h2, y, hy, hyr, hya, hyb, hyc, hyw, fun k u hk => ?_⟩
      rw [hyt k u hk]
      have : k ≠ a := by rintro rfl; rw [ht] at hk; cases hk
      simp [this]
    | some t =>
      have he := enterTrap_enters (at_ := at_) (c := c) (fa := fa a) (code := code a) (tg := tg) hx ht
        (hn a (List.mem_cons_self ..) t ht) hv hr
      simp only [List.foldl_cons, he]
      set x1 : Warp := { x.modThread a (trapped at_ c (fa a) (code a) (s.ctx x.ctx).tvec.toNat s.instant (s.die x.die).time tg) with ctxsel := x.ctx } with hx1
      have hw1 : (s.setWarp w x1).warp? w = some x1 := by simp
      have hth : ∀ k, k ≠ a → x1.thread k = x.thread k := by
        intro k hk
        show (lmod x.threads a _)[k]? = x.threads[k]?
        rw [getElem?_lmod, if_neg hk]
      have hta : x1.thread a = some (trapped at_ c (fa a) (code a) (s.ctx x.ctx).tvec.toNat s.instant (s.die x.die).time tg t) := by
        show (lmod x.threads a _)[a]? = _
        have : x.threads[a]? = some t := ht
        rw [getElem?_lmod, if_pos rfl, this]; rfl
      obtain ⟨h1, h2, y, hy, hyr, hya, hyb, hyc, hyw, hyt⟩ := ih hw1 hr hv hd'.2 fun k hk u hu => by
        have : k ≠ a := by rintro rfl; exact hd'.1 hk
        rw [hth k this] at hu
        exact hn k (List.mem_cons_of_mem _ hk) u hu
      refine ⟨(OnlyWarp.setWarp w s x1).trans h1, h2, y, hy, hyr, hya, hyb, hyc, hyw, fun k u hk => ?_⟩
      by_cases hka : k = a
      · subst hka
        rw [ht] at hk; cases hk
        rw [hyt k _ hta]; simp [hd'.1]
      · rw [hyt k u (by rw [hth k hka]; exact hk)]
        simp [hka]; rfl

/-- The lanes of a word that trap (R314-R316), as `enterTraps`: they leave the clauses of their warp. -/
theorem trapLanes_traps {w : Nat} {m : Lanes} {at_ : WordAt} {c : Nat} {fa : Nat → Nat} {code : Nat → Word} {s : State} {x : Warp}
    (hx : s.warp? w = some x) (hr : x.regionLive = false) (hv : (s.ctx x.ctx).tvec ≠ 0)
    (hn : ∀ l ∈ laneList x.width m, ∀ u, x.thread l = some u → u.trap = none) :
    let s' := trapLanes w m at_ c fa code s
    OnlyWarp w s s' ∧ ∃ y, s'.warp? w = some y ∧ y.regionLive = false ∧ y.ctx = x.ctx ∧ y.width = x.width ∧
      (∀ p, y.iss p = (x.iss p).map fun i => if m = 0 then i else { i with lanes := i.lanes &&& ~~~ m }) ∧
      ∀ l u, x.thread l = some u → y.thread l = some (if l ∈ laneList x.width m then
        trapped at_ c (fa l) (code l) (s.ctx x.ctx).tvec.toNat s.instant (s.die x.die).time none u else u) := by
  have htg : x.trapTarget = none := by simp [Warp.trapTarget, hr]
  simp only [trapLanes, hx, htg]
  by_cases h0 : m = 0
  · subst h0
    simp only [if_true]
    refine ⟨OnlyWarp.refl w s, x, hx, hr, rfl, rfl, fun p => by cases x.iss p <;> rfl, fun l u hl => ?_⟩
    rw [hl, if_neg]
    simp [mem_laneList]
  · simp only [h0, if_false]
    set x1 : Warp := { x with issA := x.issA.map fun i => { i with lanes := i.lanes &&& ~~~ m }, issB := x.issB.map fun i => { i with lanes := i.lanes &&& ~~~ m } } with hx1
    have he : (s.modWarp w fun y => { y with issA := y.issA.map fun i => { i with lanes := i.lanes &&& ~~~ m }
                                             issB := y.issB.map fun i => { i with lanes := i.lanes &&& ~~~ m } }) = s.setWarp w x1 := by
      simp [State.modWarp, hx, hx1]
    rw [he]
    have hd : (laneList x.width m).Nodup := List.Nodup.filter _ List.nodup_range
    have hw1 : (s.setWarp w x1).warp? w = some x1 := by simp
    obtain ⟨h1, h2, y, hy, hyr, hya, hyb, hyc, hyw, hyt⟩ := enterTraps (w := w) (at_ := at_) (c := c) (fa := fa) (code := code) (tg := none)
      (laneList x.width m) (s := s.setWarp w x1) (x := x1) hw1 hr hv hd hn
    refine ⟨(OnlyWarp.setWarp w s x1).trans h1, y, hy, hyr, hyc, hyw, fun p => ?_, fun l u hl => hyt l u hl⟩
    cases p
    · exact hya
    · exact hyb
/-- The end of a word leaves a thread that is not in the clause as it was. -/
theorem finishTo_keeps (b : Bundle) (dest : Nat → Nat) {s : State} {x : Warp} (hx : s.warp? b.w = some x) :
    ∃ y, (finishTo b dest s).warp? b.w = some y ∧
      ∀ l, (∀ i, x.iss b.pipe = some i → i.lanes.getLsbD l = false) → y.thread l = x.thread l := by
  have thr : ∀ (q : Warp) o l, (q.setIss b.pipe o).thread l = q.thread l := by intro q o l; cases b.pipe <;> rfl
  have thrE : ∀ (q : Warp) y n l, (emptyPipe b y q n).thread l = q.thread l := by intro q y n l; unfold emptyPipe; cases b.pipe <;> rfl
  have key : ∃ x2, (takeRedirects b.w b.pipe s).warp? b.w = some x2 ∧
      (∀ i : Issue, x2.iss b.pipe = some i → ∃ j : Issue, x.iss b.pipe = some j ∧ ∀ l, j.lanes.getLsbD l = false → i.lanes.getLsbD l = false) ∧
      ∀ l, (∀ i : Issue, x.iss b.pipe = some i → i.lanes.getLsbD l = false) → x2.thread l = x.thread l := by
    unfold takeRedirects
    rw [hx]; simp only
    cases hi : x.iss b.pipe with
    | none =>
      refine ⟨x, hx, ?_, fun _ _ => rfl⟩
      intro i h; rw [hi] at h; cases h
    | some i =>
      simp only
      split
      · exact ⟨x, hx, fun j h => ⟨i, rfl, fun l hl => by rw [hi] at h; cases h; exact hl⟩, fun l _ => rfl⟩
      · refine ⟨_, by simp [State.warp?, State.setWarp]; rfl, fun j h => ⟨i, rfl, fun l hl => ?_⟩, fun l hl => ?_⟩
        · have : ∀ (q : Warp) (o : Issue) (m : Lanes) f, ((q.setIss b.pipe (some o)).mapLanes m f).iss b.pipe = some o := by
            intro q o m f; cases b.pipe <;> rfl
          rw [this] at h; cases h
          simp [hl]
        · rw [Warp.thread_mapLanes, thr]
          have : (lanesOf ((laneList x.width i.lanes).filter fun l =>
              ((x.thread l).map fun t => t.redirect.isSome).getD false)).getLsbD l = false := by
            rw [getLsbD_lanesOf]; simp [mem_laneList, hl i rfl]
          rw [this]; simp
  obtain ⟨x2, h2, hsub, hth⟩ := key
  unfold finishTo
  simp only [h2]
  cases hi2 : x2.iss b.pipe with
  | none => exact ⟨_, by simp; rfl, fun l hl => by rw [← hth l hl, thrE]⟩
  | some i =>
    obtain ⟨j, hj, hsubl⟩ := hsub i hi2
    simp only
    split
    · exact ⟨_, by simp; rfl, fun l hl => by rw [← hth l hl, thrE]⟩
    · split
      · refine ⟨_, by simp; rfl, fun l hl => ?_⟩
        rw [← hth l hl]
        show Warp.thread (Warp.mapLanes _ _ _) l = _
        rw [Warp.thread_mapLanes, hsubl l (hl j hj), thr]; simp
      · exact ⟨_, by simp; rfl, fun l hl => by rw [← hth l hl, thr]⟩

/-- A word of one lane each (R100): it completes with its own effect. -/
theorem laneWord_completes {i : Instr} {ss : List Src} {ds : List Nat} {f : Warp → Nat → Thread → Thread × Flags}
    {s : State} {b : Bundle} (h : Runs i s b) (hf : NamedFull i b) {k : WordInfo} (hk : i.info b.warp.width = some k)
    (hs : Covers k.regs (ss.flatMap Src.regs)) (hd : Covers k.regs ds) :
    ∃ t, laneWord i ss ds f s = .next t ∧
      Effect i b (fun l t => (f b.warp l t).1) (laneFlags b.warp (acting i b) fun l t => (f b.warp l t).2) s t := by
  refine ⟨_, ?_, effect_finish h.1 _ _⟩
  rw [laneWord, runWord_next _ h, withOperands_act hf hk hs hd]
  rfl

/-- The trap of a bundle's word, at one thread. -/
theorem entered_trapped {s : State} {b : Bundle} {c a : Nat} {u : Thread} :
    Entered s b c a 0 u (trapped b.at_ c a 0 (s.ctx b.warp.ctx).tvec.toNat s.instant (s.die b.warp.die).time none u) := by
  refine ⟨rfl, rfl, rfl, rfl, rfl, rfl, ?_⟩
  simp only [trapped, Bundle.at_, zeroReg]
  cases u.redirect <;> rfl

/-- Lanes none of which traps, one of which must wait for a register: the word blocks (R36, R99). -/
theorem withOperands_blocks {ss : List Src} {ds : List Nat} {act : Bundle → Lanes → State → State} {b : Bundle} {m : Lanes} {s : State}
    (hn : ∀ l ∈ laneList b.warp.width m, ∀ u, b.warp.thread l = some u → u.emptyTrap ss = false)
    (hw : ∃ l ∈ laneList b.warp.width m, ∃ u, b.warp.thread l = some u ∧ u.mustWait ss ds = true) :
    withOperands ss ds act b m s = blockWord b s := by
  have htr : laneFilter b.warp.width m (fun l => ((b.warp.thread l).map fun t => t.emptyTrap ss).getD false) = 0 := by
    apply laneFilter_none
    intro l hl hm
    cases ht : b.warp.thread l with
    | none => rfl
    | some t => exact hn l ((mem_laneList _ _ _).2 ⟨hl, hm⟩) t ht
  have h0 : m &&& ~~~(0 : Lanes) = m := by
    show m &&& ~~~(0#128) = m
    rw [BitVec.not_zero, BitVec.and_allOnes]
  have hany : ((laneList b.warp.width m).any fun l => ((b.warp.thread l).map fun t => t.mustWait ss ds).getD false) = true := by
    obtain ⟨l, hl, u, hu, hm⟩ := hw
    exact List.any_eq_true.2 ⟨l, hl, by simp [hu, hm]⟩
  simp only [withOperands, htr, if_true, h0, hany]

/-- Lanes with an empty trap-on-empty source trap, whatever the others do (R36, R314). -/
theorem laneWord_raises {i : Instr} {ss : List Src} {ds : List Nat} {f : Warp → Nat → Thread → Thread × Flags} {s : State} {b : Bundle}
    (h : Runs i s b) (hm : MayTrap i s b) :
    ∃ t, laneWord i ss ds f s = .next t ∧ ∃ y, t.warp? b.w = some y ∧ ∀ l ∈ actors i b, ∀ u, b.warp.thread l = some u →
      u.emptyTrap ss = true → ∃ v, y.thread l = some v ∧ Entered s b 4 0 0 u v := by
  obtain ⟨hw, hiss⟩ := bundle_warp h.1
  rw [laneWord, runWord_next _ h]
  refine ⟨_, rfl, ?_⟩
  simp only [withOperands]
  set tr := laneFilter b.warp.width (acting i b) (fun l => ((b.warp.thread l).map fun t => t.emptyTrap ss).getD false) with htr
  have mem : ∀ l u, l ∈ actors i b → b.warp.thread l = some u → u.emptyTrap ss = true → l ∈ laneList b.warp.width tr := by
    intro l u hl hu he
    simp only [actors, mem_laneList] at hl
    rw [mem_laneList, htr, getLsbD_laneFilter]
    have : l < 128 := (acting_lt hl.2).2
    simp [hl.1, hl.2, hu, he, this]
  by_cases h0 : tr = 0
  · simp only [h0, if_true]
    -- no lane traps
    have : ∀ l ∈ actors i b, ∀ u, b.warp.thread l = some u → ¬ u.emptyTrap ss = true := by
      intro l hl u hu he
      have := mem l u hl hu he
      rw [h0] at this; simp [mem_laneList] at this
    split
    · refine ⟨b.warp.setIss b.pipe ((b.warp.iss b.pipe).map fun i => i.block .none (s.die b.warp.die).time), ?_,
        fun l hl u hu he => absurd he (this l hl u hu)⟩
      rw [blockWord, State.modIss, State.warp?_modWarp, hw]; rfl
    · obtain ⟨y, hy, _⟩ := finishTo_keeps b (fun _ => b.next) (s := s.modWarp b.w fun x => { x.mapLanes (acting i b &&& ~~~0) (fun l t => (f b.warp l t).1) with
        fpflags := x.fpflags ||| (laneList b.warp.width (acting i b &&& ~~~0)).foldl (fun fl l => match b.warp.thread l with
          | some t => fl ||| (f b.warp l t).2
          | none => fl) 0 }) (by rw [State.warp?_modWarp, hw]; rfl)
      exact ⟨y, hy, fun l hl u hu he => absurd he (this l hl u hu)⟩
  · simp only [h0, if_false]
    obtain ⟨ho, y, hy, hyr, hyc, hyw, hyi, hyt⟩ := trapLanes_traps (m := tr) (at_ := b.at_) (c := 0x04) (fa := fun _ => 0) (code := fun _ => 0)
      hw hm.1 hm.2.1 fun l hl u hu => by
        rw [mem_laneList, htr, getLsbD_laneFilter] at hl
        refine hm.2.2 l ?_ u hu
        simp only [actors, mem_laneList]; simp at hl; exact hl.2.2.1
    simp only [hy, Option.isNone_some, Bool.false_eq_true, if_false]
    have done : ∀ l ∈ actors i b, ∀ u, b.warp.thread l = some u → u.emptyTrap ss = true → ∃ v, y.thread l = some v ∧ Entered s b 4 0 0 u v := by
      intro l hl u hu he
      refine ⟨_, hyt l u hu, ?_⟩
      rw [if_pos (mem l u hl hu he)]
      exact entered_trapped
    split
    · refine ⟨y.setIss b.pipe ((y.iss b.pipe).map fun i =>
        i.block .none ((trapLanes b.w tr b.at_ 0x04 (fun _ => 0) (fun _ => 0) s).die b.warp.die).time), ?_, ?_⟩
      · rw [blockWord, State.modIss, State.warp?_modWarp, hy]; rfl
      · intro l hl u hu he
        obtain ⟨v, hv, hE⟩ := done l hl u hu he
        exact ⟨v, by rw [← hv]; cases b.pipe <;> rfl, hE⟩
    · set rest := acting i b &&& ~~~tr with hrest
      set s1 := trapLanes b.w tr b.at_ 0x04 (fun _ => 0) (fun _ => 0) s with hs1
      set g : Warp → Warp := fun x => { x.mapLanes rest (fun l t => (f b.warp l t).1) with
        fpflags := x.fpflags ||| (laneList b.warp.width rest).foldl (fun fl l => match b.warp.thread l with
          | some t => fl ||| (f b.warp l t).2
          | none => fl) 0 } with hg
      obtain ⟨z, hz, hzt⟩ := finishTo_keeps b (fun _ => b.next) (s := s1.modWarp b.w g) (x := g y) (by rw [State.warp?_modWarp, hy]; rfl)
      refine ⟨z, hz, fun l hl u hu he => ?_⟩
      obtain ⟨v, hv, hE⟩ := done l hl u hu he
      refine ⟨v, ?_, hE⟩
      have hml := mem l u hl hu he
      rw [mem_laneList] at hml
      rw [hzt l]
      · show (Warp.mapLanes y rest _).thread l = some v
        rw [Warp.thread_mapLanes, hv]
        have : rest.getLsbD l = false := by rw [hrest]; simp [hml.2]
        simp [this]
      · intro j hj
        have hgi : (g y).iss b.pipe = y.iss b.pipe := by cases b.pipe <;> rfl
        rw [hgi, hyi, hiss, Option.map_some, if_neg h0] at hj
        cases hj; simp [hml.2]

/-- A cross-lane word (R153): it completes with its own effect. -/
theorem crossWord_completes {i : Instr} {ss : List Src} {ds : List Nat} {f : Warp → Lanes → Nat → Thread → Thread}
    {fl : Warp → Lanes → Flags} {s : State} {b : Bundle} (h : Runs i s b) (hf : NamedFull i b) {k : WordInfo}
    (hk : i.info b.warp.width = some k) (hs : Covers k.regs (ss.flatMap Src.regs)) (hd : Covers k.regs ds) :
    ∃ t, crossWord i ss ds f fl s = .next t ∧ Effect i b (f b.warp (acting i b)) (fl b.warp (acting i b)) s t := by
  refine ⟨_, ?_, effect_finish h.1 _ _⟩
  rw [crossWord, runWord_next _ h, crossOperands_act hf hk hs hd]

/-! ### Operands and completion, for whole shapes of words -/

/-- Lanes that raise no flag raise none together. -/
theorem laneFlags_zero (w : Warp) (m : Lanes) : (laneFlags w m fun _ _ => 0) = 0 := by
  unfold laneFlags
  have : ∀ (ls : List Nat), ls.foldl (fun (fl : Flags) l => match w.thread l with
    | some _ => fl ||| 0
    | none   => fl) 0 = 0 := by
    intro ls
    induction ls with
    | nil => rfl
    | cons a l ih => simp only [List.foldl_cons]; split <;> simpa using ih
  exact this _

/-- Two changes that agree on the lanes of a set change a warp alike. -/
theorem mapLanes_congr (x : Warp) (m : Lanes) (f g : Nat → Thread → Thread)
   (h : ∀ l u, x.thread l = some u → m.getLsbD l = true → f l u = g l u) : x.mapLanes m f = x.mapLanes m g := by
  unfold Warp.mapLanes
  congr 1
  apply List.ext_getElem?
  intro l
  simp only [List.getElem?_mapIdx]
  cases ht : x.threads[l]? with
  | none => rfl
  | some u =>
    simp only [Option.map_some, Option.some.injEq]
    split
    · exact h l u ht (by assumption)
    · rfl

/-- A word that is a `laneWord` over registers it names completes with the effect its function gives. -/
theorem completes_laneWord {i : Instr} {ss : List Src} {ds : List Nat} {f : Warp → Nat → Thread → Thread × Flags}
    {g : Bundle → Nat → Thread → Thread} {fl : Bundle → Flags} {k : Nat → WordInfo}
    (he : ∀ s, exec i s = laneWord i ss ds f s) (hi : ∀ W, i.info W = some (k W))
    (hs : ∀ W, Covers (k W).regs (ss.flatMap Src.regs)) (hd : ∀ W, Covers (k W).regs ds)
    (hg : ∀ s b l u, Runs i s b → b.warp.thread l = some u → (acting i b).getLsbD l = true → (f b.warp l u).1 = g b l u)
    (hfl : ∀ b : Bundle, (laneFlags b.warp (acting i b) fun l u => (f b.warp l u).2) = fl b) : Completes i g fl := by
  intro s b h hf
  obtain ⟨t, ht, hE⟩ := laneWord_completes (f := f) h hf (hi _) (hs _) (hd _)
  refine ⟨t, (he s).trans ht, ?_⟩
  unfold Effect at hE ⊢
  rw [mapLanes_congr _ _ _ (g b) (fun l u => hg s b l u h), hfl] at hE
  exact hE

/-- How many registers a use of a field names. -/
def Use.count : Use → Nat
  | .reg n => n
  | _ => 0

theorem covers_left {xs ys r} (h : Covers xs r) : Covers (xs ++ ys) r := fun x hx => by
  obtain ⟨q, hq, j⟩ := h x hx; exact ⟨q, List.mem_append_left _ hq, j⟩

theorem covers_right {xs ys r} (h : Covers ys r) : Covers (xs ++ ys) r := fun x hx => by
  obtain ⟨q, hq, j⟩ := h x hx; exact ⟨q, List.mem_append_right _ hq, j⟩

/-- A source field lies among the registers a word names. -/
theorem covers_src (u : Use) (f : BitVec 9) (n : Nat) (e z : Bool) (h : n ≤ Use.count u) :
    Covers (regsOf u f z) ((src f n e z).flatMap Src.regs) := by
  intro x hx
  cases z
  · simp only [src, Bool.false_eq_true, if_false, List.flatMap_cons, List.flatMap_nil, List.append_nil, Src.regs, mem_regRange] at hx
    obtain ⟨j, hj, rfl⟩ := hx
    cases u <;> simp only [Use.count] at h <;> try omega
    exact ⟨(f.toNat, _), by simp only [regsOf, Bool.false_eq_true, if_false, List.mem_singleton], j, Nat.lt_of_lt_of_le hj h, rfl⟩
  · simp [src] at hx

/-- A destination field lies among the registers a word names. -/
theorem covers_dst (u : Use) (f : BitVec 9) (n : Nat) (h : n ≤ Use.count u) : Covers (regsOf u f false) (regRange f.toNat n) := by
  intro x hx
  rw [mem_regRange] at hx
  obtain ⟨j, hj, rfl⟩ := hx
  cases u <;> simp only [Use.count] at h <;> try omega
  exact ⟨(f.toNat, _), by simp only [regsOf, Bool.false_eq_true, if_false, List.mem_singleton], j, Nat.lt_of_lt_of_le hj h, rfl⟩

/-- The sources of a format R word lie among the registers it names. -/
theorem covers_srcsR (o : FmtR) (na nb nc cls opc mods d a b c l x k) (ha : na ≤ Use.count a) (hb : nb ≤ Use.count b) (hc : nc ≤ Use.count c) :
    Covers (o.info cls opc mods d a b c l x k).regs ((srcsR o na nb nc).flatMap Src.regs) := by
  have hz : ∀ rs (n : Nat) (ss : List Src), Covers rs (ss.flatMap Src.regs) → Covers rs ((if n = 0 then [] else ss).flatMap Src.regs) := by
    intro rs n ss h; split
    · exact covers_nil _
    · exact h
  simp only [srcsR, List.flatMap_append, covers_append, FmtR.info]
  exact ⟨⟨hz _ _ _ (covers_left (covers_left (covers_right (covers_src _ _ _ _ _ ha)))),
    hz _ _ _ (covers_left (covers_right (covers_src _ _ _ _ _ hb)))⟩, hz _ _ _ (covers_right (covers_src _ _ _ _ _ hc))⟩

/-- The destination of a format R word lies among the registers it names. -/
theorem covers_dR (o : FmtR) (n cls opc mods d a b c l x k) (h : n ≤ Use.count d) :
    Covers (o.info cls opc mods d a b c l x k).regs (regRange o.d.toNat n) :=
  covers_left (covers_left (covers_left (covers_dst _ _ _ h)))

theorem regRange_one (r : Nat) : [r] = regRange r 1 := rfl

/-- The source of a format I word lies among the registers it names. -/
theorem covers_srcsI (o : FmtI) (cls opc mods d a e x k) (h : 1 ≤ Use.count a) :
    Covers (o.info cls opc mods d a e x k).regs ((srcsI o).flatMap Src.regs) := covers_right (covers_src _ _ _ _ _ h)

/-- The destination of a format I word lies among the registers it names. -/
theorem covers_dI (o : FmtI) (n cls opc mods d a e x k) (h : n ≤ Use.count d) :
    Covers (o.info cls opc mods d a e x k).regs (regRange o.d.toNat n) := covers_left (covers_dst _ _ _ h)

/-- A word that is a `crossWord` over registers it names completes with the effect its function gives. -/
theorem completes_crossWord {i : Instr} {ss : List Src} {ds : List Nat} {f : Warp → Lanes → Nat → Thread → Thread} {ff : Warp → Lanes → Flags}
    {g : Bundle → Nat → Thread → Thread} {fl : Bundle → Flags} {k : Nat → WordInfo}
    (he : ∀ s, exec i s = crossWord i ss ds f ff s) (hi : ∀ W, i.info W = some (k W))
    (hs : ∀ W, Covers (k W).regs (ss.flatMap Src.regs)) (hd : ∀ W, Covers (k W).regs ds)
    (hg : ∀ s b l u, Runs i s b → b.warp.thread l = some u → (acting i b).getLsbD l = true → f b.warp (acting i b) l u = g b l u)
    (hfl : ∀ b : Bundle, ff b.warp (acting i b) = fl b) : Completes i g fl := by
  intro s b h hf
  obtain ⟨t, ht, hE⟩ := crossWord_completes (f := f) (fl := ff) h hf (hi _) (hs _) (hd _)
  refine ⟨t, (he s).trans ht, ?_⟩
  unfold Effect at hE ⊢
  rw [mapLanes_congr _ _ _ (g b) (fun l u => hg s b l u h), hfl] at hE
  exact hE

/-- A guard-true lane holds a thread. -/
theorem acting_thread {i : Instr} {b : Bundle} {l : Nat} (h : (acting i b).getLsbD l = true) : ∃ u, b.warp.thread l = some u := by
  unfold acting guardLanes at h
  rw [getLsbD_laneFilter] at h
  cases hu : b.warp.thread l with
  | none => simp [hu] at h
  | some u => exact ⟨u, rfl⟩

theorem lanes_and_all (m : Lanes) : m &&& ~~~(0 : Lanes) = m := by
  show m &&& ~~~(0#128) = m
  rw [BitVec.not_zero, BitVec.and_allOnes]

/-- No lane faults: nothing changes. -/
theorem laneFault_none (w : Nat) (s : State) : laneFault w 0 s = s := by simp [laneFault]

/-- No lane is denied: every lane of the set goes on and the state stays. -/
theorem denyLanes_none {b : Bundle} {m : Lanes} {addr : Nat → Nat} {deny : Nat → Option Denied} {s : State}
    (h : ∀ l ∈ laneList b.warp.width m, deny l = none) : denyLanes b m addr deny s = (m, s) := by
  have hf : ∀ p : Option Denied → Bool, p none = false → laneFilter b.warp.width m (fun l => p (deny l)) = 0 := by
    intro p hp
    apply laneFilter_none
    intro l h1 h2
    rw [h l (by simp [h1, h2])]; exact hp
  simp only [denyLanes]
  have h1 := hf (· == some (.trap 0x07)) (by rfl)
  have h2 := hf (· == some (.trap 0x0B)) (by rfl)
  have h3 := hf (· == some .fault) (by rfl)
  simp only [h1, h2, h3, trapLanes_none, laneFault_none]
  have : (0 : Lanes) ||| 0 ||| 0 = 0 := by decide
  rw [this, lanes_and_all]

/-- Room for some entries is room for one. -/
theorem tableFree_one {s : State} {b : Bundle} {n : Nat} (h : tableFree s b n = true) (hn : 1 ≤ n) : tableFree s b 1 = true := by
  simp only [tableFree, Bool.and_eq_true, decide_eq_true_eq] at *
  exact ⟨by omega, h.2⟩

/-- A set of guard-true lanes that is not empty has a lane. -/
theorem exists_actor {i : Instr} {b : Bundle} (h : acting i b ≠ 0) : actors i b ≠ [] := by
  intro hl
  apply h
  apply BitVec.eq_of_getLsbD_eq
  intro j hj
  cases hb : (acting i b).getLsbD j with
  | false => simp
  | true =>
    have hm : j ∈ actors i b := by simp only [actors, mem_laneList]; exact ⟨(acting_lt hb).1, hb⟩
    rw [hl] at hm; cases hm

theorem dedup_pos {l : List Nat} (h : l ≠ []) : 1 ≤ l.dedup.length := by
  cases l with
  | nil => exact absurd rfl h
  | cons a l =>
    have : a ∈ (a :: l).dedup := by simp
    cases hd : (a :: l).dedup with
    | nil => rw [hd] at this; cases this
    | cons => simp

/-- With the named registers full, no guard-true thread holds an empty one among them. -/
theorem no_empty {i : Instr} {b : Bundle} (hf : NamedFull i b) {k : WordInfo} (hk : i.info b.warp.width = some k) {ds : List Nat} (hd : Covers k.regs ds) :
   ((laneList b.warp.width (acting i b)).any fun l => ((b.warp.thread l).map fun t => t.anyEmpty ds).getD false) = false := by
  rw [List.any_eq_false]
  intro l hl
  rw [mem_laneList] at hl
  cases ht : b.warp.thread l with
  | none => simp
  | some t =>
    have := (operands_full hf hk (ss := []) (covers_nil _) hd hl.2 ht).2
    simp only [Thread.mustWait, Bool.or_eq_false_iff] at this
    simp [this.2]

end Sys2Proof.Machine
end

