-- ==== Sys2Proof/Tests/Slice0.lean ====
section
/-! SUPPORT. The model's own tests: ill-formed words refused, words written out bit by bit from the spec's formats, single steps,
and a witness for each statement with hypotheses. -/

namespace Sys2Proof.Tests

set_option Elab.async false

open Sys2Proof.Machine

/-! ### Operand records -/

/-- The guard p7: every thread. -/
def always : Guard := ⟨false, 7⟩

def R (mod : BitVec 3) (d a b c : BitVec 9) : FmtR := ⟨always, mod, d, a, b, c, 0, false, false, false, false, false, false⟩
def I (mod : BitVec 3) (d a : BitVec 9) (imm : BitVec 24) : FmtI := ⟨always, mod, d, a, false, false, false, imm⟩
def K (d : BitVec 9) (imm : BitVec 32) : FmtK := ⟨always, 0, d, imm⟩
def L (d a b c : BitVec 9) (table : BitVec 8) : FmtL := ⟨always, d, a, b, c, table⟩
def V (mod : BitVec 3) (d a conv : BitVec 9) : FmtV := ⟨always, mod, d, a, conv, false, false, false⟩
def B (off : BitVec 32) : FmtB := ⟨always, false, 0, off⟩
def M (size : BitVec 3) (d a : BitVec 9) (off : BitVec 24) : FmtM := ⟨always, size, d, a, false, false, false, off⟩
def A (op : BitVec 4) (space : BitVec 2) (d a b c : BitVec 9) : FmtA := ⟨always, op, space, false, false, d, a, b, c, false⟩
def C (token : BitVec 6) (buf : BitVec 4) (wa wp : BitVec 6) (v : BitVec 9) (mod : BitVec 5) (imm : BitVec 12) : FmtC :=
  ⟨always, token, buf, wa, wp, v, mod, imm⟩
def T (tile : BitVec 5) (mask : BitVec 4) (va vf : BitVec 9) (q : BitVec 4) (mod : BitVec 5) (imm : BitVec 12) : FmtT :=
  ⟨always, tile, mask, va, vf, q, mod, imm⟩
def S (idx : BitVec 4) (w : BitVec 6) (v : BitVec 9) (mod : BitVec 5) (imm : BitVec 24) : FmtS := ⟨always, idx, w, v, mod, imm⟩

/-! ### Ill-formed words (R30, R32-R35, R42-R49): one for each check -/

theorem test_ill_guard : (Instr.iadd { R 0 1 2 3 0 with g := ⟨true, 7⟩ }).wf = false := by decide
theorem test_ill_mod : (Instr.iadd (R 3 1 2 3 0)).wf = false := by decide
theorem test_ill_unused_source : (Instr.iabs (R 0 1 2 3 0)).wf = false := by decide
theorem test_ill_unused_destination : (Instr.nop (R 0 1 0 0 0)).wf = false := by decide
theorem test_ill_zero_literal_field : (Instr.iadd { R 0 1 2 3 0 with za := true }).wf = false := by decide
theorem test_ill_zero_literal_keep : (Instr.iadd { R 0 1 0 3 0 with za := true, keep := 1 }).wf = false := by decide
theorem test_ill_keep_unused : (Instr.iabs { R 0 1 2 0 0 with keep := 2 }).wf = false := by decide
theorem test_ill_predicate_field : (Instr.isel (R 0 1 2 3 8)).wf = false := by decide
theorem test_ill_predicate_destination : (Instr.icmp (R 0 8 2 3 0)).wf = false := by decide
theorem test_ill_control_field : (Instr.lrotw (R 0 1 2 0 16)).wf = false := by decide
theorem test_ill_movi_mod : (Instr.movi ⟨always, 1, 0, 0⟩).wf = false := by decide
theorem test_ill_pgate_field : (Instr.pgate (L 1 2 3 8 0)).wf = false := by decide
theorem test_ill_cvt_same_type : (Instr.cvt (V 0 1 2 0x11)).wf = false := by decide
theorem test_ill_branch_target : (Instr.bra (B 4)).wf = false := by decide
theorem test_ill_branch_code : (Instr.trap (B 0x10000)).wf = false := by decide
theorem test_ill_branch_bare : (Instr.exit (B 8)).wf = false := by decide
theorem test_ill_size : (Instr.stb (M 5 1 2 0)).wf = false := by decide
theorem test_ill_space : (Instr.atom (A 0 3 1 2 3 0)).wf = false := by decide
theorem test_ill_atomic_op : (Instr.atom (A 14 0 1 2 3 0)).wf = false := by decide
theorem test_ill_red_destination : (Instr.red (A 0 0 1 2 3 0)).wf = false := by decide
theorem test_ill_waitv_op : (Instr.waitv (A 1 0 1 2 3 0)).wf = false := by decide
theorem test_ill_note_source : (Instr.note (A 0 0 0 2 3 0)).wf = false := by decide
theorem test_ill_copy_field : (Instr.cpyin (C 0 1 2 4 1 0 0)).wf = false := by decide
theorem test_ill_copy_mod : (Instr.cpyin (C 0 1 2 4 0 1 0)).wf = false := by decide
theorem test_ill_tile_mod : (Instr.mclr (T 0 0 0 0 0 1 0)).wf = false := by decide
theorem test_ill_tile_index : (Instr.mclr (T 0 0 0 0 0 0 16)).wf = false := by decide
theorem test_ill_sync_field : (Instr.mjoin (S 0 1 0 0 0)).wf = false := by decide
theorem test_ill_sync_mod : (Instr.mset (S 0 0 1 3 0)).wf = false := by decide
/-- Check 5 of R49: a register beyond the allocation, an unaligned pair, and a mask that does not exist. -/
theorem test_ill_allocation : (((Instr.iadd (R 0 255 2 256 0)).info 16).map fun k => k.fits 256) = some false := by decide
theorem test_ill_alignment : (((Instr.mov (R 1 3 2 0 0)).info 16).map fun k => k.fits 256) = some false := by decide
theorem test_ill_mask_index : (((Instr.mjoin (S 12 0 0 0 0)).info 16).map fun k => k.fits 256) = some false := by decide

/-! ### Words written out from the formats (R20, R29, R38-R59) -/

/-- Format R: SUB.s v10, v11, v12 under not p3, keep on b, trap-on-empty on a. -/
theorem test_decode_gen_r : decode (0x0#4 ++ 0x12#8 ++ 1#1 ++ 3#3 ++ 1#3 ++ 10#9 ++ 11#9 ++ 12#9 ++ 0#9 ++ 2#2 ++ 1#1 ++ 0#6) =
    .ok (.isub ⟨⟨true, 3⟩, 1, 10, 11, 12, 0, 2, true, false, false, false, false, false⟩) := by decide
/-- Format I: IADD v1, v2, −1. -/
theorem test_decode_gen_i : decode (0x0#4 ++ 0x11#8 ++ 0#1 ++ 7#3 ++ 0#3 ++ 1#9 ++ 2#9 ++ 0#3 ++ 0xFFFFFF#24) =
    .ok (.iaddImm (I 0 1 2 0xFFFFFF)) := by decide
/-- Format K. -/
theorem test_decode_gen_k : decode (0x0#4 ++ 0x02#8 ++ 0#1 ++ 7#3 ++ 0#7 ++ 511#9 ++ 0xDEADBEEF#32) =
    .ok (.movi (K 511 0xDEADBEEF)) := by decide
/-- Format L: LGATE, table 0x96. -/
theorem test_decode_gen_l : decode (0x0#4 ++ 0x24#8 ++ 0#1 ++ 7#3 ++ 0#3 ++ 1#9 ++ 2#9 ++ 3#9 ++ 4#9 ++ 0x96#8 ++ 0#1) =
    .ok (.lgate (L 1 2 3 4 0x96)) := by decide
/-- Format V: CVT from FP32 to FP16. -/
theorem test_decode_gen_v : decode (0x0#4 ++ 0x58#8 ++ 0#1 ++ 7#3 ++ 0#3 ++ 5#9 ++ 6#9 ++ 0x001#9 ++ 0#9 ++ 0#2 ++ 0#1 ++ 0#2 ++ 0#1 ++ 0#3) =
    .ok (.cvt (V 0 5 6 0x001)) := by decide
/-- Format B: BRA to the header 16 bytes back. -/
theorem test_decode_gen_b : decode (0x0#4 ++ 0x70#8 ++ 0#1 ++ 7#3 ++ 0#3 ++ 0#1 ++ 0#3 ++ 0#9 ++ 0xFFFFFFF0#32) =
    .ok (.bra (B 0xFFFFFFF0)) := by decide
/-- SFU: DIV.rz. -/
theorem test_decode_sfu : decode (0x1#4 ++ 0x03#8 ++ 0#1 ++ 7#3 ++ 1#3 ++ 1#9 ++ 2#9 ++ 3#9 ++ 0#9 ++ 0#2 ++ 0#7) =
    .ok (.div (R 1 1 2 3 0)) := by decide
/-- LDS, format M: LDB of 16 bytes at v4 − 8. -/
theorem test_decode_lds_m : decode (0x2#4 ++ 0x00#8 ++ 0#1 ++ 7#3 ++ 4#3 ++ 8#9 ++ 4#9 ++ 0#3 ++ 0xFFFFF8#24) =
    .ok (.ldb (M 4 8 4 0xFFFFF8)) := by decide
/-- LDS, format A: ATOM add in main memory. -/
theorem test_decode_lds_a : decode (0x2#4 ++ 0x06#8 ++ 0#1 ++ 7#3 ++ 0#4 ++ 2#2 ++ 0#1 ++ 0#1 ++ 9#9 ++ 10#9 ++ 12#9 ++ 0#9 ++ 0#1 ++ 0#3) =
    .ok (.atom (A 0 2 9 10 12 0)) := by decide
/-- CPY, format C: CPYIN, token w3, buffer 2, far address w4, parameters w6. -/
theorem test_decode_cpy : decode (0x3#4 ++ 0x00#8 ++ 0#1 ++ 7#3 ++ 3#6 ++ 2#4 ++ 4#6 ++ 6#6 ++ 0#9 ++ 0#5 ++ 100#12) =
    .ok (.cpyin (C 3 2 4 6 0 0 100)) := by decide
/-- MMA, format T: MMA on tile 5 with mask 1. -/
theorem test_decode_mma : decode (0x4#4 ++ 0x00#8 ++ 0#1 ++ 7#3 ++ 5#5 ++ 1#4 ++ 16#9 ++ 40#9 ++ 3#4 ++ 0#5 ++ 0#12) =
    .ok (.mma (T 5 1 16 40 3 0 0)) := by decide
/-- SYN, format S: BARB 7. -/
theorem test_decode_syn : decode (0x5#4 ++ 0x05#8 ++ 0#1 ++ 7#3 ++ 7#4 ++ 0#6 ++ 0#9 ++ 0#5 ++ 0#24) = .ok (.barb (S 7 0 0 0 0)) := by decide
/-- SYS, format I: CSRR of register 0x12. -/
theorem test_decode_sys : decode (0x6#4 ++ 0x00#8 ++ 0#1 ++ 7#3 ++ 0#3 ++ 2#9 ++ 0#9 ++ 0#3 ++ 0x12#24) =
    .ok (.csrr (I 0 2 0 0x12)) := by decide
/-- TRJ: TJSTEP. -/
theorem test_decode_trj : decode (0x7#4 ++ 0x01#8 ++ 0#1 ++ 7#3 ++ 0#3 ++ 0#9 ++ 1#9 ++ 2#9 ++ 4#9 ++ 0#2 ++ 0#7) =
    .ok (.tjstep (R 0 0 1 2 4)) := by decide
/-- A header is no instruction word, an opcode of R59 is not assigned, and a field that must be zero is checked. -/
theorem test_decode_header : decode 0xF000000000000000#64 = .error .header := by decide
theorem test_decode_unassigned : decode (0x0#4 ++ 0x25#8 ++ 0#1 ++ 7#3 ++ 0#48) = .error .unassigned := by decide
theorem test_decode_zero_field : decode (0x0#4 ++ 0x00#8 ++ 0#1 ++ 7#3 ++ 1#48) = .error .badField := by decide

/-! ### Placed words -/

/-- The state right after reset with one word placed. -/
def put (i : Instr) : State := State.reset.withFetchWord 64 ((encode i).getD 0).toNat

/-- The current bundle; one that stands nowhere when there is none. -/
def bundleOf (s : State) : Bundle :=
  (s.bundle?).getD ⟨0, .a, newWarp 0 0 0 0 0 0 0 0 none probeLaunch ⟨0, 0, 0, 0, 0⟩, ⟨0, 0, 0, [], 0, false, .none, none, none, false⟩⟩

/-- The current bundle may execute the word at once: it passes the static checks, some lane is guard-true, no region is live and
every register is full. -/
def stands (i : Instr) (s : State) : Bool :=
  s.bundle?.isSome && staticTrap i (bundleOf s) == none && (!needsBlock i || (bundleOf s).warp.block.isSome) &&
  acting i (bundleOf s) != 0 && !(bundleOf s).warp.regionLive &&
  (bundleOf s).warp.threads.all fun t => t.regs.all VReg.full && (t.trap.map fun f => f.window.all VReg.full).getD true

theorem thread_mem {x : Warp} {l : Nat} {t : Thread} (h : x.thread l = some t) : t ∈ x.threads := List.mem_of_getElem? h

theorem getD_full (l : List VReg) (h : l.all VReg.full = true) (r : Nat) : (l.getD r zeroReg).full = true := by
  rw [List.getD_eq_getElem?_getD]
  cases hr : l[r]? with
  | none => rfl
  | some v => exact List.all_eq_true.1 h v (List.mem_of_getElem? hr)

theorem stands_spec {i : Instr} {s : State} (h : stands i s = true) :
    ActsFree i s (bundleOf s) ∧ LeadsFree i s (bundleOf s) ∧ StandsFree i s (bundleOf s) := by
  simp only [stands, Bool.and_eq_true, bne_iff_ne, Bool.not_eq_true', beq_iff_eq] at h
  obtain ⟨⟨⟨⟨⟨h1, h2⟩, h6⟩, h3⟩, h4⟩, h5⟩ := h
  have hb : s.bundle? = some (bundleOf s) := by
    unfold bundleOf
    cases hs : s.bundle? with
    | none => rw [hs] at h1; cases h1
    | some b => rfl
  have hr : Runs i s (bundleOf s) := ⟨hb, h2, fun hn => by simpa [hn] using h6⟩
  have full : ∀ l t, (bundleOf s).warp.thread l = some t → ∀ r, (t.reg r).full = true := by
    intro l t ht r
    have ht' := List.all_eq_true.1 h5 t (thread_mem ht)
    simp only [Bool.and_eq_true] at ht'
    unfold Thread.reg
    cases hf : t.trap with
    | none => exact getD_full _ ht'.1 r
    | some f =>
      have hw : f.window.all VReg.full = true := by simpa [hf] using ht'.2
      dsimp only
      split
      · exact getD_full _ hw r
      · exact getD_full _ ht'.1 r
  exact ⟨⟨⟨hr, fun l t k _ ht _ r _ j _ => full l t ht _, h3⟩, h4⟩, ⟨⟨hr, h3, fun t k ht _ r _ j _ => full _ t ht _⟩, h4⟩, ⟨hr, h3, h4⟩⟩

/-- Every word of a list runs right after reset. -/
theorem placed {l : List Instr} (h : (l.all fun i => stands i (put i)) = true) :
    ∀ i ∈ l, ∃ s b, ActsFree i s b ∧ LeadsFree i s b ∧ StandsFree i s b :=
  fun i hi => ⟨put i, bundleOf (put i), stands_spec (List.all_eq_true.1 h i hi)⟩

/-- A state found to have a property is a witness. -/
theorem runs_spec {i : Instr} {s : State}
    (h : (s.bundle?.isSome && staticTrap i (bundleOf s) == none && (!needsBlock i || (bundleOf s).warp.block.isSome)) = true) :
    Runs i s (bundleOf s) := by
  simp only [Bool.and_eq_true, beq_iff_eq] at h
  refine ⟨?_, h.1.2, fun hn => by simpa [hn] using h.2⟩
  unfold bundleOf
  cases hs : s.bundle? with
  | none => rw [hs] at h; cases h.1.1
  | some b => rfl

/-- A check of every guard-true thread, as the statements ask it. -/
theorem lanes_spec {i : Instr} {b : Bundle} {p : Nat → Thread → Bool}
    (h : ((actors i b).all fun l => ((b.warp.thread l).map (p l)).getD true) = true) :
    ∀ l ∈ actors i b, ∀ u, b.warp.thread l = some u → p l u = true := by
  intro l hl u hu
  have := List.all_eq_true.1 h l hl
  simpa [hu] using this

/-! ### Witnesses: words whose statements need no more than that they run -/

theorem witness_MoveWords : ∀ i ∈ [Instr.nop (R 0 0 0 0 0), .mov (R 2 4 8 0 0), .movi (K 255 7), .pmovRp (R 0 7 1 2 0), .pmovPr (R 1 1 2 3 7),
    .pmovSave (R 2 1 0 0 0), .pmovLoad (R 3 0 1 0 0), .pgate (L 7 0 1 2 0x80), .isel (R 0 1 2 3 7)],
    ∃ s b, ActsFree i s b ∧ LeadsFree i s b ∧ StandsFree i s b := placed (by decide +kernel)

theorem witness_IntegerWords : ∀ i ∈ [Instr.iadd (R 2 1 2 3 0), .iaddImm (I 2 1 2 0xFFFFFF), .isub (R 2 1 2 3 0), .isubImm (I 2 1 2 1), .imul (R 0 1 2 3 0),
    .imulImm (I 0 1 2 3), .imulh (R 2 1 2 3 0), .imulhImm (I 2 1 2 3), .imin (R 1 1 2 3 0), .iminImm (I 1 1 2 3), .imax (R 1 1 2 3 0),
    .imaxImm (I 1 1 2 3), .icmp (R 7 7 2 3 0), .icmpImm (I 7 7 2 3)],
    ∃ s b, ActsFree i s b ∧ LeadsFree i s b ∧ StandsFree i s b := placed (by decide +kernel)

theorem witness_ShiftWords : ∀ i ∈ [Instr.shl (R 0 1 2 3 0), .shlImm (I 0 1 2 32), .shr (R 0 1 2 3 0), .shrImm (I 0 1 2 32), .sar (R 0 1 2 3 0), .sarImm (I 0 1 2 32),
    .fshl (R 0 1 2 3 4), .fshr (R 0 1 2 3 4)],
    ∃ s b, ActsFree i s b ∧ LeadsFree i s b ∧ StandsFree i s b := placed (by decide +kernel)

theorem witness_BitWords : ∀ i ∈ [Instr.lgate (L 1 2 3 4 0x96), .popc (R 0 1 2 0 0), .clz (R 0 1 2 0 0), .brev (R 0 1 2 0 0), .bfx (R 1 1 2 3 0), .bfi (R 0 1 2 3 4),
    .lea (R 7 1 2 3 4), .imad (R 1 1 2 3 4), .imadw (R 1 2 4 5 6), .iaddc (R 1 1 2 3 6), .iabs (R 1 1 2 0 0), .ineg (R 1 1 2 0 0)],
    ∃ s b, ActsFree i s b ∧ LeadsFree i s b ∧ StandsFree i s b := placed (by decide +kernel)

theorem witness_FloatWords : ∀ i ∈ [Instr.fadd (R 3 1 2 3 0), .faddImm (I 3 1 2 3), .fsub (R 3 1 2 3 0), .fsubImm (I 3 1 2 3), .fmul (R 3 1 2 3 0), .fmulImm (I 3 1 2 3),
    .fmin (R 1 1 2 3 0), .fminImm (I 1 1 2 3), .fmax (R 1 1 2 3 0), .fmaxImm (I 1 1 2 3), .fcmp (R 7 6 2 3 0), .fcmpImm (I 7 6 2 3),
    .ffma (R 3 1 2 3 4), .fabs (R 0 1 2 0 0), .fneg (R 0 1 2 0 0), .fclass (R 0 1 2 0 0), .frnd (R 3 1 2 0 0), .fmaxa (R 0 1 2 3 0)],
    ∃ s b, ActsFree i s b ∧ LeadsFree i s b ∧ StandsFree i s b := placed (by decide +kernel)

theorem witness_PackedWords : ∀ i ∈ [Instr.hadd2 (R 7 1 2 3 0), .hmul2 (R 7 1 2 3 0), .hfma2 (R 7 1 2 3 4), .hmax2 (R 5 1 2 3 0), .cvt (V 4 1 2 0x001), .f8cv (R 4 1 2 3 15),
    .f8up (R 3 1 2 3 7)],
    ∃ s b, ActsFree i s b ∧ LeadsFree i s b ∧ StandsFree i s b := placed (by decide +kernel)

theorem witness_CrossLaneWords : ∀ i ∈ [Instr.lshuf (R 0 1 2 3 0), .lxor (R 0 1 2 3 0), .lrotw (R 1 1 2 0 15), .matchKey (R 1 1 2 0 7), .matchn (R 1 1 2 0 0), .tbl (R 3 1 8 3 255),
    .elect (R 0 7 0 0 0)],
    ∃ s b, ActsFree i s b ∧ LeadsFree i s b ∧ StandsFree i s b := placed (by decide +kernel)

theorem witness_ReductionWords : ∀ i ∈ [Instr.lred (R 0 1 2 0 0xBB), .lscan (R 1 1 2 0 0xBB)],
    ∃ s b, ActsFree i s b ∧ LeadsFree i s b ∧ StandsFree i s b := placed (by decide +kernel)

/-! ### Witnesses: words with conditions on the state -/

/-- The placed warp has name 3, its block 2, its share 1 and its kernel 0. -/
def onWarp (f : Warp → Warp) (s : State) : State := s.modWarp 3 f
def onThreads (f : Thread → Thread) (s : State) : State := s.mapLanes 3 (allLanes 16) fun _ u => f u
def onBlock (f : Block → Block) (s : State) : State := s.modBlock 2 f
def withBuf (q : Nat) (x : Buffer) (s : State) : State := onBlock (fun b => { b with bufs := b.bufs.set q x }) s

/-- Every register of the placed threads holds `v`. -/
def withRegs (v : Word) (s : State) : State := onThreads (fun u => { u with regs := u.regs.map fun _ => ⟨v, true⟩ }) s

/-- A PLAIN buffer of 32 KiB and a RING of four slots of 1,040 bytes, both of shared memory. -/
def plain : Buffer := { kind := .plain, die := false, psd := false, csd := false, slots := 1, base := 0, size := 0x8000, second := 0x8000, pubs := 0,
                        p := 0, c := 0, pr := 0, cr := 0, aq := 0, rl := 0, prods := [], cons := [], shadow := [] }
def ring (psd csd : Bool) : Buffer := { plain with kind := .ring, psd := psd, csd := csd, slots := 4, size := 1040, second := 0, p := 3, aq := 3 }

theorem witness_WarpWords : (∀ i ∈ [Instr.movw (I 0 1 0 63), .wset (I 0 0 1 63), .sread (I 1 1 0 0x031), .ballot (R 2 11 7 0 0), .fltm (R 0 1 0 0 0),
    .fltmClr (R 4 0 0 0 0), .mget (S 11 0 1 0 0), .yieldStanding (S 0 0 0 0 0)], ∃ s b, ActsFree i s b ∧ LeadsFree i s b ∧ StandsFree i s b) ∧
    ((bundleOf (put (.movw (I 0 1 0 63)))).wr 63).full = true ∧ ((bundleOf (put (.wset (I 0 0 1 63)))).wr 63).full = true :=
  ⟨placed (by decide +kernel), by decide +kernel, by decide +kernel⟩

/-- A state with a placed word and the condition of its statement on every guard-true thread. -/
theorem witness_BranchWords :
    (∃ s b, ActsFree (.bra (B 0xFFFFFFF8)) s b ∧ ∀ l ∈ actors (.bra (B 0xFFFFFFF8)) b,
      targetOf (B 0xFFFFFFF8) b.iss.hdr (laneVal b.warp l 0 false) % 8 = 0) ∧
    (∃ s b, LeadsFree (.jmp ⟨always, true, 1, 8⟩) s b ∧
      targetOf ⟨always, true, 1, 8⟩ b.iss.hdr (leadVal (.jmp ⟨always, true, 1, 8⟩) b 1 false) % 8 = 0) ∧
    (∃ s b, ActsFree (.call (B 16)) s b ∧ ∀ l ∈ actors (.call (B 16)) b, targetOf (B 16) b.iss.hdr (laneVal b.warp l 0 false) % 8 = 0 ∧
      ∀ u, b.warp.thread l = some u → u.rstack.length < 16) ∧
    (∃ s b, ActsFree (.ret (B 0)) s b ∧ ∀ l ∈ actors (.ret (B 0)) b, ((b.warp.thread l).bind fun u => u.rstack.head?).getD 0 % 8 = 0 ∧
      ∀ u, b.warp.thread l = some u → u.rstack ≠ []) := by
  refine ⟨⟨put (.bra (B 0xFFFFFFF8)), bundleOf _, (stands_spec (by decide +kernel)).1, by decide +kernel⟩,
    ⟨put (.jmp ⟨always, true, 1, 8⟩), bundleOf _, (stands_spec (by decide +kernel)).2.1, by decide +kernel⟩,
    ⟨onThreads (fun u => { u with rstack := List.replicate 15 16 }) (put (.call (B 16))), bundleOf _, (stands_spec (by decide +kernel)).1,
      fun l hl => ⟨?_, fun u hu => of_decide_eq_true (lanes_spec (p := fun _ u => decide (u.rstack.length < 16)) (by decide +kernel) l hl u hu)⟩⟩,
    ⟨onThreads (fun u => { u with rstack := [16] }) (put (.ret (B 0))), bundleOf _, (stands_spec (by decide +kernel)).1,
      fun l hl => ⟨?_, fun u hu => of_decide_eq_true (lanes_spec (p := fun _ u => decide (u.rstack ≠ [])) (by decide +kernel) l hl u hu)⟩⟩⟩
  · revert l; decide +kernel
  · revert l; decide +kernel

theorem witness_LeavingWords : (∀ i ∈ [Instr.exit (B 0), .detach (S 0 0 5 0 0)], ∃ s b, ActsFree i s b ∧ LeadsFree i s b ∧ StandsFree i s b) ∧
    (bundleOf (put (.detach (S 0 0 5 0 0)))).warp.departing = false ∧
    detachMarks (put (.detach (S 0 0 5 0 0))) (bundleOf (put (.detach (S 0 0 5 0 0)))).warp = false ∧
    (let s := onWarp (fun x => { x with departing := true }) (put (.detach (S 0 0 5 0 0)))
     stands (.detach (S 0 0 5 0 0)) s = true ∧ (bundleOf s).warp.departing = true) :=
  ⟨placed (by decide +kernel), by decide +kernel, by decide +kernel, by decide +kernel⟩

theorem witness_SfuWords : let ws := [Instr.rcp (R 3 1 2 0 0), .rsq (R 0 1 2 0 0), .sqrt (R 3 1 2 0 0), .div (R 3 1 2 3 0), .exp2 (R 0 1 2 0 0),
    .log2 (R 0 1 2 0 0), .sinp (R 0 1 2 0 0), .cosp (R 0 1 2 0 0), .tanh (R 0 1 2 0 0), .sigm (R 0 1 2 0 0), .idiv (R 1 1 2 3 0), .irem (R 1 1 2 3 0)]
    (∀ i ∈ ws, ∃ s b, ActsFree i s b ∧ LeadsFree i s b ∧ StandsFree i s b) ∧
    ∀ i ∈ ws, sfuUsed (put i) 0 0 0 < 16 ∧ sfuWaiters (put i) 0 0 0 = [] :=
  ⟨placed (by decide +kernel), by decide +kernel⟩

/-- At the last bytes of each space: 64 KiB windows and a stack of 64 bytes; every lane's address is what its register holds. -/
theorem witness_MemoryWords : let ws := [(Instr.ldb (M 6 1 2 0), Space.shared, 65534, 2, false), (.stb (M 4 4 2 0), .shared, 65520, 16, true),
    (.ldd (M 3 2 2 0), .scratch, 65528, 8, false), (.std (M 2 1 2 0), .scratch, 65532, 4, true), (.ldk (M 2 1 2 0), .stack, 60, 4, false),
    (.stk (M 0 1 2 0), .stack, 63, 1, true)]
    ∀ x ∈ ws, let s := withRegs (BitVec.ofNat 32 x.2.2.1) (put x.1)
      let b := bundleOf s
      let as_ := (actors x.1 b).map fun l => (l, (laneVal b.warp l 2 false + (0 : Word)).toNat)
      stands x.1 s = true ∧ as_.map Prod.snd = List.replicate 16 x.2.2.1 ∧
        deniedLanes s b.warp x.2.1 x.2.2.2.1 x.2.2.2.2 false as_ (pubLines s b.warp) = [] ∧ (List.range 17).all (tableFree s b) = true := by
  decide +kernel

theorem witness_AtomicWords : let ws := [(Instr.atom (A 13 0 1 2 3 0), A 13 0 1 2 3 0, EdgeWord.atom), (.red (A 9 1 0 2 3 4), A 9 1 0 2 3 4, .red),
    (.waitv (A 9 0 1 2 3 4), A 9 0 1 2 3 4, .waitv), (.note (A 1 1 0 2 0 0), A 1 1 0 2 0 0, .note)]
    let edges := [Instr.atom { A 0 0 1 2 3 0 with pub := true }, .red { A 0 0 0 2 3 0 with ref := true }, .waitv { A 0 0 1 2 3 0 with ref := true },
      .note { A 0 0 0 2 0 0 with pub := true }]
    (∀ i ∈ ws.map Prod.fst ++ edges, ∃ s b, ActsFree i s b ∧ LeadsFree i s b ∧ StandsFree i s b) ∧
    (∀ x ∈ ws, deniedA (put x.1) (bundleOf (put x.1)).warp x.2.2 x.2.1 0 = none ∧ tableFree (put x.1) (bundleOf (put x.1)) 16 = true) ∧
    ∀ i ∈ edges, let s := onWarp (fun x => { x with block := none }) (put i)
      stands i s = true ∧ (bundleOf s).warp.block = none :=
  ⟨placed (by decide +kernel), by decide +kernel, by decide +kernel⟩

/-- A FENCE with no entry in its scope, and one behind a store. -/
theorem witness_OrderWords : (∀ i ∈ [Instr.phase (R 2 0 0 0 0), .fence (R 3 0 0 0 0)], ∃ s b, ActsFree i s b ∧ LeadsFree i s b ∧ StandsFree i s b) ∧
    (let i := Instr.fence (R 3 0 0 0 0)
     fenceOps (put i) 3 3 = [] ∧ (bundleOf (put i)).iss.after = none ∧
     let s := { put i with ops := [(9, { newOp (put i) (bundleOf (put i)) 0 .shared .store 0 4 with entry := some 0 })] }
     stands i s = true ∧ (bundleOf s).iss.after = none ∧ entriesGone s (fenceOps s 3 3) = false) :=
  ⟨placed (by decide +kernel), by decide +kernel⟩

theorem witness_RegionWords : (∀ i ∈ [Instr.regb (B 8), .regq (R 0 1 0 0 0)], ∃ s b, ActsFree i s b ∧ LeadsFree i s b ∧ StandsFree i s b) ∧
    limitOf (put (.regb (B 8))) (bundleOf (put (.regb (B 8)))).warp .scratch ≠ 0 ∧
    targetOf (B 8) (bundleOf (put (.regb (B 8)))).iss.hdr (leadVal (.regb (B 8)) (bundleOf (put (.regb (B 8)))) 0 false) % 8 = 0 ∧
    ∀ i ∈ [Instr.rege (R 0 0 0 0 0), .regx (R 0 0 0 0 0)], let s := onWarp (fun x => { x with region := .live 0 }) (put i)
      Runs i s (bundleOf s) ∧ acting i (bundleOf s) ≠ 0 ∧ (bundleOf s).warp.regionLive = true := by
  refine ⟨placed (by decide +kernel), by decide +kernel, by decide +kernel, fun i hi => ?_⟩
  simp only [List.mem_cons, List.not_mem_nil, or_false] at hi
  rcases hi with rfl | rfl <;> exact ⟨runs_spec (by decide +kernel), by decide +kernel⟩

theorem witness_CopyWords : let ws := [(Instr.cpyin (C 3 2 4 6 0 0 0), CopyKind.cpyin, C 3 2 4 6 0 0 0), (.cpyout (C 3 2 4 6 0 16 0), .cpyout, C 3 2 4 6 0 16 0),
    (.cpyg (C 3 2 4 6 1 0 0), .cpyg, C 3 2 4 6 1 0 0), (.cpys (C 3 2 4 6 1 0 0), .cpys, C 3 2 4 6 1 0 0),
    (.cpyd (C 3 2 4 6 0 1 0), .cpyd true, C 3 2 4 6 0 1 0), (.cpyf (C 3 2 0 6 1 0 0), .cpyf, C 3 2 0 6 1 0 0),
    (.cpyfFar (C 3 0 4 6 1 1 0), .cpyfFar, C 3 0 4 6 1 1 0), (.pfch (C 3 0 4 6 0 0 0), .pfch, C 3 0 4 6 0 0 0),
    (.evict (C 3 0 4 6 0 0 0), .evict, C 3 0 4 6 0 0 0)]
    ∀ x ∈ ws, let s := withBuf 2 plain (put x.1)
      let b := bundleOf s
      let val := fun l => laneVal b.warp l x.2.2.v false
      stands x.1 s = true ∧ storesOf s b.w = [] ∧ b.iss.after = none ∧
      (∀ r ∈ x.2.2.token.toNat :: copyWregs x.2.1 x.2.2, (b.wr r).full = true) ∧
      ((copyLanes x.2.1 b (acting x.1 b)).all fun l => ((b.warp.thread l).map fun u => (u.reg x.2.2.v.toNat).full).getD true) = true ∧
      ((x.2.1.writesNear || x.2.1.readsNear) = true → copyBufOk x.2.1 (bufOf s b x.2.2.buf) x.2.2.imm.toNat = true) ∧
      copiesUsed s b.warp.die b.warp.core + (rowCommands 4 ((copyLanes x.2.1 b (acting x.1 b)).zipIdx.map fun l => (l.2, (val l.1).toNat))).length + 1 ≤ 128 ∧
      copyWaiters s b.warp.die b.warp.core = [] := by decide +kernel

/-- PLAIN and RING buffers, with a slot to push and three to pop; a descriptor of zeros describes NONE. -/
theorem witness_BufferWords :
    (let i := Instr.bufd (C 0 2 4 0 0 0 0)
     let b := bundleOf (put i)
     let rs := (List.range 4).map fun k => b.wr (4 + k)
     stands i (put i) = true ∧ (∀ r ∈ rs, r.full = true) ∧ descOk (rs.map VReg.val) (fun die => limitOf (put i) b.warp (if die then .scratch else .shared)) = true ∧
     (put i).copies = []) ∧
    (let s := withBuf 2 plain (put (.publ (C 0 2 0 0 0 0 0)))
     stands (.publ (C 0 2 0 0 0 0 0)) s = true ∧ (bufOf s (bundleOf s) 2).kind = .plain) ∧
    (let s := withBuf 2 (ring false true) (put (.rpush (C 0 2 0 0 0 0 1)))
     let q := bufOf s (bundleOf s) 2
     stands (.rpush (C 0 2 0 0 0 0 1)) s = true ∧ q.kind = .ring ∧ q.psd = false ∧ 1 ≤ q.slots ∧ 1 ≤ (q.rl + BitVec.ofNat 32 q.slots - q.p).toNat) ∧
    (let s := withBuf 2 (ring true false) (put (.rpop (C 0 2 0 0 0 0 3)))
     let q := bufOf s (bundleOf s) 2
     stands (.rpop (C 0 2 0 0 0 0 3)) s = true ∧ q.kind = .ring ∧ q.csd = false ∧ 3 ≤ (q.aq - q.c).toNat) ∧
    (let s := withBuf 2 (ring true false) (put (.rwaitC (C 3 2 0 0 0 0 4)))
     let q := bufOf s (bundleOf s) 2
     stands (.rwaitC (C 3 2 0 0 0 0 4)) s = true ∧ q.kind = .ring ∧ q.csd = false ∧ 4 ≤ q.slots ∧ ((bundleOf s).wr 3).full = true) ∧
    (let s := withBuf 2 (ring false true) (put (.rwaitP (C 3 2 0 0 0 1 4)))
     let q := bufOf s (bundleOf s) 2
     stands (.rwaitP (C 3 2 0 0 0 1 4)) s = true ∧ q.kind = .ring ∧ q.psd = false ∧ 4 ≤ q.slots ∧ ((bundleOf s).wr 3).full = true) ∧
    (let s := withBuf 2 plain (put (.cpyq (C 3 2 0 0 0 2 0)))
     stands (.cpyq (C 3 2 0 0 0 2 0)) s = true ∧ (bufOf s (bundleOf s) 2).kind ≠ .none ∧ ((bundleOf s).wr 3).full = true) ∧
    (let i := Instr.stageMax (C 0 0 0 6 0 0 0)
     stands i (put i) = true ∧ storesOf (put i) 3 = [] ∧ (bundleOf (put i)).iss.after = none ∧ ((bundleOf (put i)).wr 6).full = true) ∧
    (let i := Instr.stageAdd (C 0 0 0 0 0 1 0xFFF)
     stands i (put i) = true ∧ storesOf (put i) 3 = [] ∧ (bundleOf (put i)).iss.after = none) := by decide +kernel

/-- Context 0's tree on a die: tables in frames 1 to 5, and a leaf for page 0. -/
def paged (die : Nat) (leaf : Nat) (s : State) : State :=
  let tables : List Host.Cell := [(0x1000, 1), (0x1003, 2), (0x2000, 1), (0x2003, 3), (0x3000, 1), (0x3003, 4), (0x4000, 1), (0x4003, 5)]
  (s.modDie die fun d => { d with dram := mwrite (msetAll d.dram tables) 0x5000 8 leaf }).modCtx 0 fun c =>
    { c with pgroot := tput c.pgroot die 0x1000 }

/-- A LOCAL leaf, writable, with frame 6. -/
def localLeaf : Nat := 0x41 + 6 * 2 ^ 24

theorem witness_CollectiveWords :
    (∀ i ∈ [Instr.cload (C 3 0 4 0 0 0 7), .crun (C 3 0 4 0 0 0 7), .carm (C 3 0 4 0 2 0 7), .cstepQ (C 3 0 0 0 0 0 0), .cstepWait (C 3 0 0 0 1 1 0)],
      let s := paged 0 localLeaf (put i)
      stands i s = true ∧ storesOf s 3 = [] ∧ (bundleOf s).iss.after = none ∧ ((bundleOf s).wr 3).full = true ∧
      pairWa (bundleOf s) (C 3 0 4 0 0 0 7) = some 0) ∧
    (let s := paged 0 localLeaf (put (.crun (C 3 0 4 0 0 0 7)))
     ((s.share? 1).map fun h => (readBases 1 h 0 s).1.isSome) = some true) := by decide +kernel

theorem witness_TileWords :
    (∀ i ∈ [Instr.mclr (T 31 0 0 0 0 0 15), .mmovr (T 31 0 2 1 0 1 1023), .mmovw (T 31 0 2 1 0 1 1023), .mqry (T 31 0 2 1 0 1 31), .mldt (T 31 0 0 1 2 1 0)],
      stands i (put i) = true ∧ 31 < tileCount (put i) (bundleOf (put i)).warp ∧ tilePlace (put i) 0 0 = true) ∧
    (let s := withBuf 2 plain (withRegs (2 ^ 18) (put (.mldt (T 31 0 0 1 2 1 0))))
     stands (.mldt (T 31 0 0 1 2 1 0)) s = true ∧ (bufOf s (bundleOf s) 2).kind = .plain ∧ 8192 ≤ (bufOf s (bundleOf s) 2).size ∧
       (leadVal (.mldt (T 31 0 0 1 2 1 0)) (bundleOf s) 1 false).toNat / 2 ^ 18 = 1) ∧
    ∀ l ∈ actors (.mmovr (T 31 0 2 1 0 1 1023)) (bundleOf (put (.mmovr (T 31 0 2 1 0 1 1023)))),
      (laneVal (bundleOf (put (.mmovr (T 31 0 2 1 0 1 1023)))).warp l 1 false + 1023).toNat < 1024 := by decide +kernel

/-- MDRAIN to FP32 beside its 16-byte record, updates at the window's end, QDUAL and RQNT in a buffer of 32 KiB. -/
theorem witness_DrainWords :
    (let i := Instr.mdrain (T 31 0 1 0 2 0 0)
     let s := withBuf 2 plain (withRegs 4096 (put i))
     let q := bufOf s (bundleOf s) 2
     let at_ := (leadVal i (bundleOf s) 1 false).toNat
     stands i s = true ∧ tilePlace s 0 0 = true ∧ q.kind = .plain ∧ at_ % 16 = 0 ∧ 4096 ≤ at_ ∧ at_ + 16 ≤ q.size) ∧
    (∀ i ∈ [Instr.mdrainAdd (T 31 0 1 0 0 5 8), .mdrainUpd (T 31 0 1 1 0 6 8)],
      let s := withRegs 0xF000 (put i)
      stands i s = true ∧ tilePlace s 0 0 = true ∧ 0xF000 + 31 * 128 + 128 ≤ limitOf s (bundleOf s).warp .scratch ∧ (leadVal i (bundleOf s) 1 false).toNat = 0xF000) ∧
    (let i := Instr.qdual (T 0 0 1 2 2 0 0)
     let s := withBuf 2 plain (onThreads (fun u => { u with regs := u.regs.set 1 ⟨0x7770, true⟩ }) (put i))
     stands i s = true ∧ (leadVal i (bundleOf s) 1 false).toNat % 16 = 0 ∧ (leadVal i (bundleOf s) 1 false).toNat + 2192 ≤ 0x8000 ∧
       fmtKind (leadVal i (bundleOf s) 2 false) = 0 ∧ fmtScale (leadVal i (bundleOf s) 2 false) = 0 ∧ biasOk (fmtBias (leadVal i (bundleOf s) 2 false)) = true) ∧
    (let i := Instr.rqnt (T 0 0 1 2 2 0 0)
     let s := withBuf 2 plain (onThreads (fun u => { u with regs := u.regs.set 2 ⟨0x40000FFE, true⟩ }) (put i))
     stands i s = true ∧ (leadVal i (bundleOf s) 1 false).toNat + 4112 ≤ 0x8000 ∧ fmtKind (leadVal i (bundleOf s) 2 false) = 4 ∧
       biasOk (fmtBias (leadVal i (bundleOf s) 2 false)) = true ∧ fmtScale (leadVal i (bundleOf s) 2 false) ≠ 0xFFF) := by decide +kernel

theorem witness_SigningWords : ∀ x ∈ [(Instr.mma (T 31 11 16 40 2 0 0), false), (.mmaKeep (T 31 11 0 0 2 4 0), true)],
    let s := withBuf 2 (ring false true) (onWarp (fun y => { y with masks := y.masks.map (fun k => { k with bits := allLanes 16 }), latch := { y.latch with valid := true } }) (put x.1))
    let b := bundleOf s
    let mask := (b.warp.masks[11]?).getD ⟨0, 0, 0, none⟩
    stands x.1 s = true ∧ b.inHandler (acting x.1 b) = 0 ∧ 31 < tileCount s b.warp ∧ (bufOf s b 2).kind = .ring ∧ (bufOf s b 2).csd = true ∧ 1040 ≤ (bufOf s b 2).size ∧
      mask.round = none ∧ laneList b.warp.width (acting x.1 b &&& mask.bits) ≠ [] ∧ b.warp.latch.valid = true ∧
      ∀ l ∈ laneList b.warp.width (acting x.1 b &&& mask.bits),
        fmtKind (laneVal b.warp l 40 false) < 4 ∧ biasOk (fmtBias (laneVal b.warp l 40 false)) = true := by decide +kernel

/-- A store of the placed warp in flight. -/
def withStore (s : State) : State := { s with ops := [(9, { newOp s (bundleOf s) 0 .shared .store 0 4 with entry := some 0 })] }

theorem witness_MaskWords : (∀ i ∈ [Instr.mjoin (S 11 0 0 0 0), .mleave (S 11 0 0 0 0), .mset (S 11 0 1 2 0), .mwait (S 11 0 0 0 0)],
    ∃ s b, ActsFree i s b ∧ LeadsFree i s b ∧ StandsFree i s b) ∧
    (let i := Instr.mwait (S 11 0 0 0 0)
     storesOf (put i) 3 = [] ∧ stands i (withStore (put i)) = true ∧ storesOfLanes (withStore (put i)) 3 (laneBit 0) ≠ []) :=
  ⟨placed (by decide +kernel), by decide +kernel⟩

/-- Channel 7 of the tree, enabled for context 0 on a segment of the die (0, 0) alone. -/
def withTree (s : State) : State := s.modMod fun m => { m with treeCfg := m.treeCfg.set 7 (2 ^ 32) }

theorem witness_BarrierWords : ∀ i ∈ [Instr.barb (S 15 0 0 0 0), .bara (S 15 0 1 0 0), .barw (S 15 0 1 0 0), .bard (S 0 0 0 1 0), .treea (S 7 0 1 0 0),
    .treew (S 7 0 1 0 0)],
    let s := withTree (put i)
    let b := bundleOf s
    stands i s = true ∧ b.inHandler (acting i b) = 0 ∧ barBusy s b 15 (acting i b) = false ∧ storesOf s 3 = [] ∧ b.iss.after = none ∧
      ((s.launch? b.warp).map Launch.resident).getD false = true ∧ treeAllowed s b.warp 7 = true := by decide +kernel

theorem witness_WarpLifeWords : (∀ i ∈ [Instr.attach (S 0 0 1 0 0), .sleep (S 0 0 0 0 0xFFFFFF), .sleepUntil (S 0 0 2 1 0), .enq (S 0 62 1 0 1023)],
    ∃ s b, ActsFree i s b ∧ LeadsFree i s b ∧ StandsFree i s b) ∧
    (let b := bundleOf (put (.enq (S 0 62 1 0 1023)))
     (b.wr 62).full = true ∧ (b.wr 63).full = true) := ⟨placed (by decide +kernel), by decide +kernel⟩

theorem witness_RegisterWords : (∀ i ∈ [Instr.csrr (I 0 2 0 0x12), .csrw (I 0 0 2 0x12)],
    ∃ s b, ActsFree i s b ∧ LeadsFree i s b ∧ StandsFree i s b) ∧
    csrHandler 0x12 = false ∧ csrReadOnly 0x12 = false ∧ (∀ v, csrValueOk 0x12 v = true) ∧ (∀ u, tregEmpty 0x12 u = false) ∧
    (let s := put (.csrw (I 0 0 2 0x12))
     ((s.warp? 3).map fun x => (s.ctx x.ctxsel).st) = some .running) :=
  ⟨placed (by decide +kernel), by decide, by decide, fun _ => rfl, fun _ => rfl, by decide +kernel⟩

/-- Register a names context 1, RUNNING or PARKED there; PGSET maps page 0 of context 0 to frame 7; RETIRE names the last core. -/
theorem witness_SystemWords :
    (let i := Instr.xsave (R 0 1 2 0 0)
     let s := (withRegs 1 (put i)).modCtx 1 fun c => { c with st := .running }
     stands i s = true ∧ (leadVal i (bundleOf s) 2 false).toNat = 1 ∧ (bundleOf s).warp.ctx = 0 ∧ (s.ctx 1).st = .running) ∧
    (let i := Instr.xload (R 0 1 2 0 0)
     let s := (withRegs 1 (put i)).modCtx 1 fun c => { c with st := .parked }
     stands i s = true ∧ (leadVal i (bundleOf s) 2 false).toNat = 1 ∧ (bundleOf s).warp.ctx = 0 ∧ (s.ctx 1).st = .parked) ∧
    (∀ i ∈ [Instr.tlbi (R 0 1 2 0 0), .tlbiPage (R 1 1 2 4 0), .ctxend (R 0 1 2 0 0)],
      stands i (put i) = true ∧ (leadVal i (bundleOf (put i)) 2 false).toNat = 0 ∧ ((put i).ctx 0).bound = true ∧
        (leadPair i (bundleOf (put i)) 4 false).toNat = 0) ∧
    (let i := Instr.pgset (R 0 1 2 4 6)
     let s := paged 0 localLeaf (onThreads (fun u => { u with regs := u.regs.set 6 ⟨0x07000041, true⟩ }) (put i))
     stands i s = true ∧ (leadVal i (bundleOf s) 2 false).toNat = 0 ∧ (s.ctx 0).bound = true ∧
       (pgset 0 0 (leadPair i (bundleOf s) 4 false).toNat (leadPair i (bundleOf s) 6 false) s).1 = 0) ∧
    (let i := Instr.retire (R 0 1 2 0 0)
     let s := withRegs 159 (put i)
     stands i s = true ∧ (leadVal i (bundleOf s) 2 false).toNat = 159 ∧ (bundleOf s).warp.core = 0) ∧
    ∀ i ∈ [Instr.halt (R 0 0 0 0 0), .snapm (R 0 1 2 4 0)], stands i (put i) = true := by decide +kernel

theorem witness_LogWords : ∀ i ∈ [Instr.logrAddr (R 0 4 2 0 0), .logrInfo (R 1 4 2 0 0), .logrCount (R 2 4 0 0 0), .logrClr (R 3 0 0 0 0)],
    let s := withRegs 255 (put i)
    stands i s = true ∧ (leadVal i (bundleOf s) 2 false).toNat < 256 := by decide +kernel

/-- A handler's frame. -/
def frame : TrapFrame := { cause := 6, code := 0, pred := 0x7F, cpc := 64, cidx := 1, faddr := 0, cls := 0, count := 3
                           window := List.replicate 32 ⟨0, true⟩, target := none }
def inTrap (s : State) : State := onThreads (fun u => { u with trap := some frame }) s

theorem witness_TrapReturn : (∀ x ∈ [(Instr.tret (R 0 0 0 0 0), 0), (.tret (R 1 0 0 0 0), 1), (.tret (R 2 0 4 0 0), 2)],
    let s := inTrap (put x.1)
    stands x.1 s = true ∧ acting x.1 (bundleOf s) &&& ~~~ (bundleOf s).inHandler (acting x.1 (bundleOf s)) = 0 ∧
      ((actors x.1 (bundleOf s)).all fun l => (((bundleOf s).warp.thread l).map fun u =>
        (u.trap.bind fun f => resumePoint f x.2 ((u.pair 4).toNat % 2 ^ 57)).isSome).getD true) = true) ∧
    frame.cidx ≠ 0 ∧ frame.cidx ≠ 16 ∧ frame.cidx ≠ frame.count ∧ frame.target = none ∧ { frame with target := some 8 }.target = some 8 := by
  decide +kernel

/-- Words inside a handler, outside one, and in a warp without a block. -/
theorem witness_HandlerWords :
    (∀ i ∈ [Instr.barb (S 15 0 0 0 0), .bara (S 15 0 1 0 0), .barw (S 15 0 1 0 0), .bard (S 0 0 0 1 0), .treea (S 7 0 1 0 0), .treew (S 7 0 1 0 0)],
      let s := inTrap (put i)
      stands i s = true ∧ acting i (bundleOf s) &&& ~~~ (bundleOf s).inHandler (acting i (bundleOf s)) = 0) ∧
    (∀ i ∈ [Instr.barb (S 15 0 0 0 0), .bara (S 15 0 1 0 0), .barw (S 15 0 1 0 0), .bard (S 0 0 0 1 0)],
      let s := onWarp (fun x => { x with block := none }) (put i)
      s.bundle?.isSome = true ∧ staticTrap i (bundleOf s) = none ∧ (bundleOf s).warp.block = none) ∧
    (∀ i ∈ [Instr.tret (R 0 0 0 0 0), .csrr (I 0 2 0 1), .csrw (I 0 0 2 1), .csrw (I 0 0 2 0x200), .sread (I 0 2 0 0x100)],
      stands i (put i) = true ∧ (bundleOf (put i)).inHandler (bundleOf (put i)).iss.lanes = 0) ∧
    csrHandler 1 = true ∧ csrReadOnly 0x200 = true := by decide +kernel

theorem witness_TrapWord : let i := Instr.trap (B 0xFFFF)
    let s := (put i).modCtx 0 fun c => { c with tvec := 0x100 }
    stands i s = true ∧ (s.ctx (bundleOf s).warp.ctx).tvec ≠ 0 ∧
      ((actors i (bundleOf s)).all fun l => (((bundleOf s).warp.thread l).map fun u => u.trap.isNone).getD true) = true := by decide +kernel

/-- An unaligned pair, a word of another class, a thread in a handler, and a context without a handler. -/
theorem witness_StaticTraps : (let i := Instr.mov (R 1 3 2 0 0)
     (put i).bundle?.isSome = true ∧ (staticTrap i (bundleOf (put i))).isSome = true) ∧
    (((Instr.rcp (R 0 1 2 0 0)).info 16).map fun k => k.cls) ≠ some (bundleOf (put (.nop (R 0 0 0 0 0)))).iss.cls ∧
    ((((inTrap (put (.nop (R 0 0 0 0 0)))).warp? 3).bind fun y => y.thread 0).map fun u => u.trap.isSome) = some true ∧
    ((((put (.nop (R 0 0 0 0 0))).warp? 3).bind fun y => y.thread 0).map fun u => u.trap.isNone) = some true ∧
    ((put (.nop (R 0 0 0 0 0))).ctx 0).tvec = 0 := by decide +kernel

/-! ### Witnesses: trajectories -/

/-- The placed bundle with its lowest lane alone. -/
def alone (s : State) : State := onWarp (fun x => { x with issA := x.issA.map fun i => { i with lanes := 1 } }) s

/-- A store of two steps for each of two episodes, in page 1 of context 0, under the same leaf as page 0. -/
def withStore1 (s : State) : State :=
  (paged 0 localLeaf s).modDie 0 fun d =>
    { d with juncs := [(0, { Junction.atBind with store := 4096, steps := 2, usable := 2 })], dram := mwrite d.dram 0x5008 8 localLeaf }

/-- An episode of context 0 with ID 0, and the words of its first record at frame 6. -/
def episode (st : EpState) : Episode := { ctx := 0, idx := 0, id := 0, version := 0, st := st, length := 1, vb := 0, trunc := false, due := 0
                                          order := 1, joined := 0, term := false, late := false, busy := none, scan := none }
def withEpisode (st : EpState) (flags : Byte) (s : State) : State :=
  (withStore1 s).modDie 0 fun d => { d with episodes := [(5, episode st)], dram := msetAll d.dram [(0x600C, flags)] }

def JWork.isOk {α : Type} : JWork α → Bool
  | .ok _ => true
  | _ => false

/-- The only lane's operation is not kept back, and finds an entry no other operation is on. -/
def freeEntry (s : State) (e : Episode) : Bool :=
  (s.transfer? (laneNote (.lane 3 0))).isNone && findEpisode s 0 0 0 == some (5, e) && tget (s.die 0).episodes 5 == some e && e.busy.isNone

theorem witness_TrajectoryWords :
    (let i := Instr.tjopen (R 0 1 2 3 0)
     let s := alone (withStore1 (put i))
     let p := openEpisode 0 0 0 0 (startAct (bundleOf s) 1 (.tjopen 1 [(0, 0, 0)] []) [] s)
     stands i s = true ∧ actors i (bundleOf s) = [0] ∧ p.1.getLsbD 31 = true ∧ (fillEpisode (.engine s.fresh) 0 0 0 p.2).1 = true ∧
       (openEpisode 0 0 0 0 (startAct (bundleOf (put i)) 1 (.tjopen 1 [(0, 0, 0)] []) [] (put i))).1.getLsbD 31 = false) ∧
    (let i := Instr.tjstep (R 0 0 2 3 4)
     let s := alone (withEpisode .open_ 0 (put i))
     stands i s = true ∧ actors i (bundleOf s) = [0] ∧ freeEntry s (episode .open_) = true ∧ 0 < (s.junc 0 0).steps ∧
       (match readRecord (.lane 3 0) 0 5 (episode .open_) 0 s with
        | (.ok bs, s1) => JWork.isOk (writeRecords (.lane 3 0) 0 5 (episode .open_)
            [(0, 0, leBytes 8 0), (0, 12, leBytes 4 (BitVec.ofNat 32 (flagsOf bs) ||| 1 : Word).toNat)] s1).1
        | _ => false) = true) ∧
    (let i := Instr.tjend (R 0 0 2 3 4)
     let s := alone (withEpisode .open_ 1 (onThreads (fun u => { u with regs := u.regs.set 3 ⟨1, true⟩ }) (put i)))
     stands i s = true ∧ actors i (bundleOf s) = [0] ∧ freeEntry s (episode .open_) = true ∧ 1 ≤ (s.junc 0 0).steps ∧
       (match (readRecords (.lane 3 0) 0 5 (episode .open_) [0] s).1 with | .ok rs => rs.all isRecorded | _ => false) = true) ∧
    (∀ st ∈ [EpState.released, .expired, .dropped],
     let i := Instr.tjendFree (R 1 0 2 0 0)
     let s := alone (withEpisode st 0 (put i))
     stands i s = true ∧ actors i (bundleOf s) = [0] ∧ freeEntry s (episode st) = true) ∧
    (let i := Instr.tjrew (R 0 0 2 3 4)
     let s := alone (withEpisode .open_ 1 (put i))
     stands i s = true ∧ actors i (bundleOf s) = [0] ∧ boundOn s 0 0 = true ∧ 0 < (s.junc 0 0).steps ∧ freeEntry s (episode .open_) = true ∧
       (match readRecord (.lane 3 0) 0 5 (episode .open_) 0 s with
        | (.ok bs, s1) => !hasReward bs &&
            JWork.isOk (writeRecord (.lane 3 0) 0 5 (episode .open_) 0 8 (leBytes 4 0 ++ leBytes 4 (BitVec.ofNat 32 (flagsOf bs) ||| 2 ||| 0 : Word).toNat) s1).1
        | _ => false) = true) ∧
    (∀ i ∈ [Instr.tjset (I 0 0 2 0), .tjset (I 0 0 2 6), .tjset (I 0 0 2 8)], stands i (put i) = true ∧ ((put i).die 0).episodes = []) ∧
    tjsetOk 0 0 = true ∧ tjsetOk 6 0 = true ∧ tjsetOk 8 0 = true := by decide +kernel

theorem witness_TakeWords :
    (∀ i ∈ [Instr.tjtake (R 0 4 0 0 0), .tjtakeTry (R 1 4 0 0 0), .tjtakeDepth (R 2 4 0 0 0), .tjtakeStat (R 3 4 0 2 0)],
      stands i (alone (withRegs 7 (put i))) = true ∧ actors i (bundleOf (alone (withRegs 7 (put i)))) = [0] ∧ ((put i).die 0).takes = [] ∧
      ((put i).junc 0 0).queue = [] ∧ (laneVal (bundleOf (withRegs 7 (put i))).warp 0 2 false).toNat < 8) ∧
    (let i := Instr.tjtakeTry (R 1 4 0 0 0)
     let s := alone ((put i).modDie 0 fun d => { d with juncs := [(0, { Junction.atBind with queue := [[1, 2, 3]] })] })
     stands i s = true ∧ (s.die 0).takes = [] ∧ (s.junc 0 0).queue = [1, 2, 3] :: []) := by decide +kernel

/-! ### Witnesses: the steps of the engines -/

/-- The placed NOP's warp with nothing issued: its threads of `m` READY at header 0, the others at header 0x100, both clauses fetched. -/
def idle (m : Lanes) : State :=
  onWarp (fun x => { x.mapLanes (allLanes 16) (fun l u => { u with st := .ready, pc := atHeader (if m.getLsbD l then 0 else 0x100) }) with
    issA := none, fetched := [⟨0, 0xF000000000000000, [0x0007000000000000]⟩, ⟨0x100, 0xF000000000000000, [0x0007000000000000]⟩] })
    (put (.nop (R 0 0 0 0 0)))

/-- The same with the threads of the second header issued on pipe B. -/
def busyB : State := onWarp (fun x => { x.mapLanes (allLanes 16 &&& ~~~ 0xFF) (fun _ u => { u with st := .issued, pipe := .b }) with
  issB := some ⟨allLanes 16 &&& ~~~ 0xFF, 0x100, 0, [0x0007000000000000], 0, false, .none, none, none, false⟩ }) (idle 0xFF)

/-- The selected warp is the placed one, its first bundle holds lane 0, and it has `n` more. -/
def picks (s : State) (n : Nat) : Bool :=
  match selected s (candidates s 0 0 0) with
  | some c => c.w == 3 && (match c.cs with
      | first :: rest => first.lanes.getLsbD 0 && rest.length == n
      | [] => false)
  | none => false

/-- The placed warp blocked since time 0 at 256 cycles. -/
def parked256 : State := (onWarp (fun x => { x with issA := x.issA.map fun i => { i with blocked := true, since := some 0 } })
  (put (.nop (R 0 0 0 0 0)))).modDie 0 fun d => { d with time := 256 * d.cycle }

def isOkF {α : Type} : Fetch α → Bool
  | .ok _ => true
  | .error _ => false

/-- No pipe but the named one free, a single bundle, two bundles; a bundle parked after 256 cycles; a header in page 0. -/
theorem witness_IssueSteps :
    (picks busyB 0 = true ∧ pipeFree busyB 0 0 0 .a = true ∧ pipeFree busyB 0 0 0 .b = false) ∧
    (picks (idle 0xFFFF) 0 = true ∧ pipeFree (idle 0xFFFF) 0 0 0 .a = true ∧ pipeFree (idle 0xFFFF) 0 0 0 .b = true) ∧
    picks (idle 0xFF) 1 = true ∧
    ((((parked256.warp? 3).bind fun x => x.iss .a).map fun i => (i.blocked, i.since)) = some (true, some 0) ∧
      256 * (parked256.die 0).cycle ≤ (parked256.die 0).time) ∧
    ((parked256.warp? 3).bind fun x => blockedPipe x 0) = some .a ∧
    (let s := { idle 0xFFFF with parks := [(9, ⟨3, { (bundleOf (put (.nop (R 0 0 0 0 0)))).iss with blocked := true }, false⟩)] }
     (s.warp? 3).bind (fun x => blockedPipe x 0) = none ∧ blockedPark s 3 0 = some 9) ∧
    (let s := paged 0 localLeaf (onWarp (fun x => { x with fetched := [] }) (idle 0xFFFF))
     (s.warp? 3).map (fun x => (warpRuns s x, (x.thread 0).map fun t => (t.pc, fetchedFor x t.pc))) = some (true, some (⟨0, none, false⟩, none)) ∧
       parkOf s 3 0 = none ∧
       ((s.warp? 3).map fun x =>
         let h := readCode (.fetch 3 0) x 0 8 s
         isOkF h.1 && isOkF (readCode (.fetch 3 0) x 8 0 h.2).1) = some true) := by decide +kernel

/-- CPYQ's answer on its way. -/
theorem witness_BufferWords_answer : let a : EngineAct := ⟨3, 0, .cpyq 3 7, []⟩
    let s := { idle 0xFFFF with acts := [(9, a)] }
    tget s.acts 9 = some a ∧ ((s.warp? 3).map fun x => (x.block.map s.parked).getD false) = some false := by decide +kernel

/-- A word of the placed warp that waits for a resource. -/
def waitsFor (i : Instr) (put' : List (Nat × Pipe) → Core → Core) : State :=
  (onWarp (fun x => { x with issA := x.issA.map fun k => { k with blocked := true, grant := .waiting } }) (put i)).modCore 0 0 (put' [(3, .a)])

theorem witness_GrantSteps :
    (((idle 0xFFFF).warp? 3).map fun x => (x.threads.all (fun t => t.regs.all VReg.full), x.issA, x.issB, x.stopped, x.width * x.nregs)) =
      some (true, none, none, false, 8192) ∧ (∀ y ∈ standing (idle 0xFFFF) 0, y.1 = 3) ∧ 122880 % 8192 = 0 ∧ 122880 + 8192 ≤ 131072 ∧
    (let s := waitsFor (.rcp (R 0 1 2 0 0)) (fun q c => { c with sfuQ := q })
     sfuWaiters s 0 0 0 = [(3, .a)] ∧ sfuUsed s 0 0 0 < 16) ∧
    (let s := waitsFor (.ldb (M 2 1 2 0)) (fun q c => { c with tableQ := q })
     waitersOf s (s.core 0 0).tableQ 2 = [(3, .a)] ∧ tget s.acts 3 = none ∧ tableUsed s 0 0 < 256) ∧
    (let s := waitsFor (.pfch (C 3 0 4 6 0 0 0)) (fun q c => { c with copyQ := q })
     copyWaiters s 0 0 = [(3, .a)] ∧ copiesUsed s 0 0 < 128) ∧
    (let r : SfuOp := ⟨3, some 2, 1, [], 0, .b, 1⟩
     let s := { idle 0xFFFF with sfu := [(9, r)] }
     tget s.sfu 9 = some r ∧ (tfind s.sfu fun _ q => q.warp == 3).map Prod.fst = some 9 ∧ r.early s = false) ∧
    (let s := onWarp (fun x => { x with issA := x.issA.map fun k => { k with after := some [] } }) (put (.fence (R 3 0 0 0 0)))
     (((s.warp? 3).bind fun x => x.iss .a).bind Issue.after) = some [] ∧ entriesGone s [] = true) ∧
    ∀ ref : Bool, let a : EngineAct := ⟨3, 1, .phase true ref, []⟩
      let s := { idle 0xFFFF with acts := [(9, a)] }
      tget s.acts 9 = some a ∧ (s.warp? 3).bind Warp.block = some 2 ∧ s.parked 2 = false ∧ doneOps s [] = true := by decide +kernel

/-- An operation of lane 0 of the placed warp, in the table. -/
def opOf (sp : Space) (k : OpKind) (st : OpState) : MemOp :=
  { newOp (idle 0xFFFF) (bundleOf (put (.nop (R 0 0 0 0 0)))) 0 sp k 0 4 with entry := some 0, st := st }
def withOp (o : MemOp) : State := { idle 0xFFFF with ops := [(9, o)] }

/-- The conditions every clause about an operation asks of it. -/
def opReady (o : MemOp) : Bool :=
  let s := withOp o
  tget s.ops 9 == some o && o.block == some 2 && ((s.block? 2).map fun x => x.st != .parked).getD false && o.entry.isSome && !o.region &&
  !mustFollow s 9 o

theorem witness_LoadStoreSteps : (∀ k ∈ [OpKind.load false, .load true, .store], ∀ sp ∈ [Space.shared, .scratch], opReady (opOf sp k .sent) = true) ∧
    (let o := { opOf .scratch .store .noroom with region := true }
     tget (withOp o).ops 9 = some o) ∧
    (let o := { opOf .scratch .regq (.read 5) with dst := 511 }
     tget (withOp o).ops 9 = some o) := by decide +kernel

/-- The store's word is 0: a WAITV with b = 1 does not sleep, one with b = 0 does; its deadline is time 0. -/
theorem witness_PortSteps : (∀ k ∈ [OpKind.atom 0 true, .waitv none, .note true], opReady (opOf .shared k .sent) = true) ∧
    mread (((idle 0xFFFF).block? 2).map Block.mem |>.getD []) 0 4 = 0 ∧ storeRoom (withOp (opOf .shared (.waitv none) .sent)) (0, 2, 0) = true ∧
    { opOf .shared (.waitv none) .sent with data := 1 }.data ≠ 0 ∧
    tget (withOp { opOf .shared (.atom 0 true) (.read 7) with dst := 511 }).ops 9 = some { opOf .shared (.atom 0 true) (.read 7) with dst := 511 } ∧
    tget (withOp (opOf .shared (.waitv none) .noroom)).ops 9 = some (opOf .shared (.waitv none) .noroom) ∧
    opReady (opOf .shared (.waitv (some (0, 0))) .sent) = true ∧
    (opOf .shared (.waitv (some (0, 0))) .sent).late (withOp (opOf .shared (.waitv (some (0, 0))) .sent)) = true ∧
    (opOf .shared (.waitv none) .sent).late (withOp (opOf .shared (.waitv none) .sent)) = false ∧
    (let o := { opOf .shared (.waitv (some (0, 0))) (.sleeping 1) with spot := some (0, 2, 0) }
     tget (withOp o).ops 9 = some o ∧ ((withOp o).block? 2).isSome = true ∧ 0 ≤ ((withOp o).die o.port).time) := by decide +kernel

theorem witness_TreeSteps : ((State.reset.modCore 0 159 fun c => { c with owed := c.owed.set 7 1 }).core 0 159).owed.getD 7 0 ≠ 0 ∧
    treeCfgOk (2 ^ 32 + 2 ^ 12 - 64) = true ∧ treeCfgOk 0 = true := by decide +kernel

/-- A region that waits to open, exclusively on a die without regions; and one that commits. -/
theorem witness_RegionSteps :
    (let s := (onWarp (fun x => { x with region := .opening, aborts := 8 }) (idle 0xFFFF)).modDie 0 fun d => { d with opening := [3] }
     lowestFree 64 ((s.die 0).regions.map Region.slot) = some 0 ∧
     ((s.die 0).opening.filter fun k => ((s.warp? k).map fun y => y.region == .opening).getD false) = [3] ∧
     stampOk (s.die 0) = true ∧ exclusiveLive (s.die 0) = false ∧ (s.die 0).regions = []) ∧
    (let r : Region := ⟨63, 3, 1, 0, false, [], [], []⟩
     let s := (onWarp (fun x => { x with region := .committing 63 }) (idle 0xFFFF)).modDie 0 fun d => { d with regions := [r] }
     warpRegion s 3 = some (0, r) ∧ regionBusy s 3 = false ∧ (s.die 0).edges = []) := by decide +kernel

/-- An accepted MMA of all lanes with a ring of one block: bytes of 0 and a format word of 0. -/
def withTop (k : TileKind) (fired : Bool) (units : List Nat) : State :=
  { withBuf 2 { ring false true with csd := true } (onWarp (fun y => { y with
      masks := y.masks.map (fun m => { m with bits := 1, round := some ⟨0, 2, 0, 0, 1, [(0, ⟨List.replicate 16 0, 0, 0, 0, 0⟩)], .accepted 9⟩ }) })
      (idle 0xFFFF)) with
    tops := [(9, { ctx := 0, block := 2, warp := 3, die := 0, core := 0, half := 0, tile := 0, kind := k, fired := fired, units := units, start := 0
                   vals := [], biasV := 0, frozen := false, step := 0 })] }

theorem witness_TileSteps :
    (let s := withTop (.mma 0 true false false 0 2) false []
     ∃ t r, tget s.tops 9 = some t ∧ (((s.warp? 3).bind fun x => x.masks[0]?).bind MaskReg.round) = some r ∧ joined s 9 t = true ∧ tileFires s t = true ∧
       slotsReady (s.buf 2 2) false 1 = true ∧ earlierWaits s 2 2 9 = false ∧
       ((s.warp? 3).map fun x => wordsAgree x r 1) = some true ∧ ((s.warp? 3).map fun x => (enteringLatch x false r 1).kind % 2) = some 0) ∧
    (∀ k ∈ [TileKind.mclr 15, .update true false 0 128 0], ∃ t, tget (withTop k false []).tops 9 = some t ∧ joined (withTop k false []) 9 t = true ∧
      tileFires (withTop k false []) t = true) ∧
    ∃ t, tget (withTop (.update true false 0 128 0) true (List.range 256)).tops 9 = some t ∧ 256 ≤ t.units.length :=
  ⟨⟨_, _, rfl, rfl, by decide +kernel⟩, by
    intro k hk
    simp only [List.mem_cons, List.not_mem_nil, or_false] at hk
    rcases hk with rfl | rfl <;> exact ⟨_, rfl, by decide +kernel⟩, ⟨_, rfl, by decide +kernel⟩⟩

/-- A copy that has not fired, with a bad parameter block and with none to move; one that has; a full ring's wait; a schedule of one entry. -/
def copyOf (st : CopyState) (par : Option (List Byte)) : Copy :=
  { ctx := 0, block := some 2, die := 0, core := 0, warp := 3, token := 3, group := 9, kind := .pfch, par := par, far := 0, buf := 2, imm := 0, rows := [],
    pat := 0, bad := false, step := 0, st := st, moves := [], pub := [], units := [], got := [], status := 0, start := 0, frozen := false }
def withCopy (c : Copy) : State := { idle 0xFFFF with copies := [(9, c)] }
def entry0 : SchedEntry := { far := 0, lap := 0, stage := 0, param := 0, op := 0, ps := false, warp := 0, token := 3, buf := 2, imm := 0, zero := false, skip := false }

theorem witness_CopySteps :
    (∀ par ∈ [none, some (List.replicate 64 (0 : Byte))], let c := copyOf .waiting par
      let s := withCopy c
      tget s.copies 9 = some c ∧ blockFires s c.block = true ∧ waitsTarget s c = false ∧ copySide s c = none) ∧
    (match copyMoves (withCopy (copyOf .waiting none)) (copyOf .waiting none) with | .error _ => true | .ok _ => false) = true ∧
    tget (withCopy (copyOf .fired none)).copies 9 = some (copyOf .fired none) ∧ (copyOf .fired none).frozen = false ∧
    (let c := { copyOf .waiting none with kind := .cpyin, imm := 4 }
     let s := withBuf 2 { ring true false with p := 0, aq := 0 } (withCopy c)
     c.kind.writesNear = true ∧ publHolds s 2 2 9 = false ∧ copySide s c = some true ∧ blockFires s c.block = true ∧ waitsTarget s c = false ∧
       tfind s.copies (fun _ x => x.group == c.group && x.st == .waiting) = some (9, c) ∧ slotsReady (s.buf 2 2) true 4 = true ∧
       earlierWaits s 2 2 9 = false) ∧
    (let c := copyOf .waiting (some (List.replicate 64 0))
     (match copyMoves (withCopy c) c with | .ok _ => true | .error _ => false) = true) ∧
    (let q := { ring false true with p := 0 }
     4 ≤ (q.c + BitVec.ofNat 32 q.slots - q.p).toNat ∧ q.kind = .ring) ∧
    (let d : Sched := ⟨16, [entry0], []⟩
     let s := onBlock (fun b => { b with sched := some d }) (idle 0xFFFF)
     d.next 0 = some (0, entry0) ∧ ((s.blockWarps 2).map Prod.fst) = [3] ∧
       ((s.block? 2).map fun x => (x.saving, x.st)) = some (false, .running) ∧ copiesUsed s 0 0 < 128) := by decide +kernel

/-! ### Witnesses: the dispatcher -/

/-- The launch record of the placed kernel changed; only cores 0 and 1 of die 0 in use; 1 ms gone by; the rival: a waiting die share of priority 1. -/
def onLaunch (f : Launch → Launch) (s : State) : State := { s with kernels := tmap s.kernels fun _ k => { k with launch := f k.launch } }
def onShare (f : Share → Share) (s : State) : State := s.modShare 1 f
def cores (map : Word) (s : State) : State :=
  s.modDie 0 fun d => { d with retmap := [map, 0xFFFFFFFF, 0xFFFFFFFF, 0xFFFFFFFF, 0xFFFFFFFF], time := 1000000 * 47000000 }
def rival (wmin : Nat) (s : State) : State :=
  match s.kernel? 0, s.share? 1 with
  | some k, some h => (s.setKernel 10 { k with launch := { k.launch with prio := 1, resident := false, wmin := wmin, wmax := wmin, tiles := 0 } }).setShare 11
      { h with kern := 10, order := 10, waitAt := some 0, next := 0 }
  | _, _ => s

/-- The placed kernel without stacks and die-residence; and with a second warp in its block. -/
def quiet : State := onLaunch (fun l => { l with resident := false, stack := 0 }) (idle 0xFFFF)
def twoWarps : State :=
  match quiet.warp? 3 with
  | some x => quiet.setWarp 4 { x with index := 1, slot := 1, base := 16384 }
  | none => quiet

/-- A second block is placed on core 1, alone or as all that is left of a die-resident share. -/
def placesAt (s : State) : Bool :=
  match readScheds 1 0 0 0 1 1 s with
  | (some l, t) => if ((s.kernel? 0).map fun k => k.launch.resident).getD false then (placeAll true 1 l t).isSome else (placeBlock true 1 1 (l.headD none) t).isSome
  | (none, _) => false

theorem witness_BlockSteps_placement : ∀ r : Bool,
    let s := onShare (fun h => { h with nblocks := 2 }) (cores 0xFFFFFFFC (onLaunch (fun l => { l with resident := r }) quiet))
    ((s.share? 1).map fun h => (mayPlace s (1, h), shareCore s h, (s.kernel? h.kern).map fun k => (k.launch.resident, k.launch.sched))) =
      some (true, some 1, some (r, 0)) ∧ placesAt s = true := by decide +kernel

/-- It cannot be where core 1 is retired. -/
theorem witness_BlockSteps_wait : let s := onShare (fun h => { h with nblocks := 2, waitAt := some 0 }) (cores 0xFFFFFFFE quiet)
    ((s.share? 1).map fun h => (h.waitAt, shareWaits s h, canPlace s (1, h))) = some (some 0, true, false) ∧
      0 + 1000000 * 47000000 ≤ (s.die 0).time := by decide +kernel

theorem witness_BlockSteps_spare : let s := onLaunch (fun l => { l with elastic := 8, wmax := 2 }) (cores 0xFFFFFFFE quiet)
    let mine := (placesOn s 0).filter fun p => p.core == 0
    freeBase 8192 mine = some 8192 ∧ ctxPlaces s 0 = true ∧ s.retired 0 0 = false ∧ ((blocksOn s 0 0).any fun b => b.2.kern == 0) = true ∧
      (∀ p ∈ mine, p.slot ≠ 63) ∧ (mine.map Place.width).sum + 16 ≤ 2048 ∧
      ((s.kernel? 0).map fun k => freeIndices s 0 0 0 k) = some 1 ∧ waitingShares s 0 = [] := by decide +kernel

/-- The rival needs 15 of the 16 warps core 0 has registers for. -/
theorem witness_BlockSteps_shrink : let s := rival 15 (cores 0xFFFFFFFE twoWarps)
    ((blockedShares s 0).find? fun h => !(shrinkOrder s h).isEmpty).map Prod.fst = some 11 ∧ (∀ x ∈ s.blocks, x.2.shrink = none) ∧
      ((s.share? 11).map fun h => ((shrinkOrder s (11, h)).head?.map Prod.fst, shrinkTarget s (11, h) 2 1)) = some (some 2, some 1) := by decide +kernel

/-- A request for a block that is gone, and one for the rival's, 1 ms old. -/
theorem witness_BlockSteps_cancel :
    (let s := onBlock (fun b => { b with st := .shrinking, shrink := some ⟨1, 0, 11, 0⟩ }) (cores 0xFFFFFFFE quiet)
     s.share? 11 = none ∧ (s.block? 2).map Block.shrink = some (some ⟨1, 0, 11, 0⟩)) ∧
    (let s := onBlock (fun b => { b with st := .shrinking, shrink := some ⟨1, 0, 11, 0⟩ }) (rival 15 (cores 0xFFFFFFFE twoWarps))
     ((s.share? 11).map fun h => (shareWaits s h, h.next)) = some (true, 0) ∧ 0 + 1000000 * 47000000 ≤ (s.die 0).time) := by decide +kernel

theorem witness_BlockSteps_preemption :
    let s := onBlock (fun b => { b with st := .shrinking, shrink := some ⟨1, 0, 11, 0⟩ }) (rival 15 (cores 0xFFFFFFFE twoWarps))
    ((s.block? 2).map fun x => mayPreempt s 2 x) = some true := by decide +kernel

theorem imageUnits_beyond {seed : Nat} {pages : List Nat} (h : (pages.all fun p => decide (2 ^ 57 ≤ p)) = true) :
    ∀ u ∈ imageUnits seed pages, 2 ^ 57 ≤ u.1 := by
  intro u hu
  simp only [imageUnits, List.mem_flatMap, List.mem_map, List.mem_range] at hu
  obtain ⟨p, hp, k, -, rfl⟩ := hu
  have := of_decide_eq_true (List.all_eq_true.1 h p.1 (List.fst_mem_of_mem_zipIdx hp))
  dsimp only
  omega

/-- Units outside the address space are left out of an image. -/
theorem putImage_beyond (b : Nat) : ∀ (n : Nat) (s : State) (x : Block), s.block? b = some x →
    (∀ v, x.saved = some v → (v.pages.all fun p => decide (2 ^ 57 ≤ p)) = true) → (putImage b n s).1 = true := by
  intro n
  induction n with
  | zero => intro s x _ _; rfl
  | succ n ih =>
    intro s x hx hv
    rw [putImage, hx]
    dsimp only
    cases hu : nextUnit x with
    | none => rfl
    | some u =>
      obtain ⟨a, bs⟩ := u
      have ha : 2 ^ 57 ≤ a := by
        unfold nextUnit at hu
        cases hs : x.saved with
        | none => rw [hs] at hu; cases hu
        | some v =>
          rw [hs] at hu
          exact imageUnits_beyond (hv v hs) _ (List.mem_of_getElem? hu)
      simp only [writeAccess, engineAccess, if_pos ha, Machine.alone, Ended.waits]
      refine ih _ { x with written := x.written + 1 } ?_ hv
      rw [State.block?_modBlock, State.block?_congr (s := s) (by simp [logDispatch, logViolation, dropAnswers, dropAnswersOf]; split <;> rfl), hx]
      rfl

/-- The save area lies outside the address space: its bytes are left out. -/
def saving : State :=
  (onBlock (fun b => { b with saving := true }) (onLaunch (fun l => { l with tiles := 0, shared := 0 }) quiet)).modCtx 0 fun c =>
    { c with xsize := 0x100000, xarea := 2 ^ 57 }
def settledSave : State := (saving.blockWarps 2).foldl (fun s w => settleWarp w.1 s) saving
def flushed : Bool × State := ((settledSave.block? 2).map fun x => flushBlock 2 x settledSave).getD (false, settledSave)
def reserved : Option State := (settledSave.block? 2).bind fun x => startImage 2 x flushed.2

theorem witness_BlockSteps_save : ((saving.block? 2).map Block.saving) = some true ∧ opsOfBlock settledSave 2 = [] ∧
    ((settledSave.block? 2).map fun x => saveReady settledSave 2 x []) = some true ∧ flushed.1 = true ∧
    ∃ t, reserved = some t ∧ ∀ n, (putImage 2 n t).1 = true := by
  refine ⟨by decide +kernel, by decide +kernel, by decide +kernel, by decide +kernel, ?_⟩
  have h : ((reserved.bind fun t => t.block? 2).map fun x => (x.saved.map fun v => v.pages.all fun p => decide (2 ^ 57 ≤ p)).getD true) = some true := by
    decide +kernel
  cases ht : reserved with
  | none => rw [ht] at h; cases h
  | some t =>
    refine ⟨t, rfl, fun n => ?_⟩
    rw [ht] at h
    cases hx : t.block? 2 with
    | none => simp [hx] at h
    | some x =>
      refine putImage_beyond 2 n t x hx fun v hv => ?_
      simpa [hx, hv] using h

/-- A parked block without pages, whose digest is `d`. -/
def parkedWith (d : Word64) : State := onBlock (fun b => { b with st := .parked, saved := some ⟨[], d, 0⟩ }) (cores 0xFFFFFFFE quiet)
def restorable (s : State) : Bool :=
  ((s.block? 2).map fun x => (x.saved.map Saved.pages, (grantPlaces true (s.launchOf x) 0 (heldBy s 2) (placesOn s 0)).isSome,
    (parkedBlocks s 0).any fun b => b.1 == 2, restoreCore s (2, x))) == some (some [], true, true, some 0) && waitingShares s 0 == [] &&
  (match (aloneUnits (.engine 2) (readUnits (.engine 2) 0 0 16 [] s)).1 with | .done bs => bs == [] | _ => false)

theorem witness_BlockSteps_restore : restorable (parkedWith (hash64 [])) = true ∧ restorable (parkedWith 0) = true ∧ hash64 [] ≠ 0 := by
  decide +kernel

theorem witness_BlockSteps_end : let s := onBlock (fun b => { b with st := .ending }) quiet
    blockBusy s 2 = false ∧ ((s.block? 2).map fun b => (b.pub, exitUnits s b)) = some ([], []) ∧ (writeExits 2 1 s).1 = true := by decide +kernel

/-- The placed kernel in another state; queue 5 of context 0 with one entry in host memory. -/
def onKernel (f : Kernel → Kernel) (s : State) : State := { s with kernels := tmap s.kernels fun _ k => f k }
def queued (st : QueueState) (ctl : Word) : State :=
  (quiet.setQueue 5 { Queue.init with st := st, ctl := ctl, wp := 17, rp := 16 }).modMod fun m => { m with hostMem := msetAll m.hostMem [(1, 0x40)] }

theorem witness_QueueSteps :
    (∀ d ∈ [0, 16], let s := paged 0 localLeaf (onBlock (fun b => { b with st := .done })
        (onKernel (fun k => { k with st := .draining, launch := { k.launch with done := d } }) quiet))
     (s.kernel? 0).map (fun x => (x.st, x.launch.done)) = some (.draining, d) ∧ kernelBusy s 0 = false ∧ (addDone 0 0 d s).1 = true) ∧
    (let s := queued .ready 0x21
     (∀ x ∈ s.kernels, x.2.queue ≠ 5) ∧ (serveTurn s 5).isSome = true ∧ mayTake s = true ∧ (s.queue 5).hostRing = true) ∧
    (let s := paged 0 localLeaf (queued .ready 0x1)
     (serveTurn s 5).isSome = true ∧ (s.queue 5).hostRing = false ∧
       (match (Machine.alone (ringHolder 5) (readAccess (ringHolder 5) 0 0 0 0 8 (fun s => mainRead s 0 0 0 8) s)).1 with | .done _ => true | _ => false) = true) ∧
    (let s := onKernel (fun k => { k with st := .pending, queue := 5 }) quiet
     (tfind s.kernels (fun _ k => k.queue == 5 && k.st == .pending)).map Prod.fst = some 0) ∧
    ((onKernel (fun k => { k with st := .waiting }) quiet).kernel? 0).map Kernel.st = some .waiting ∧
    (let s := cores 0 (queued .ready 0x21)
     let t := s.modDie 0 fun d => { d with time := 10 * d.time }
     (t.queue 5).st = .ready ∧ (t.queue 5).since + 10000000 * 47000000 ≤ (t.die 0).time) ∧
    (let x := (queued .ready 0x21).queue 5
     x.st ≠ .disabled ∧ (32 : Word) ≠ x.wp ∧ (32 - x.rp).toNat = x.size ∧ x.held ≤ (32 - x.rp).toNat ∧ (33 : Word) ≠ x.wp ∧ x.size < (33 - x.rp).toNat) ∧
    (let s := queued .disabled 0
     (s.queue 5).st = .disabled ∧ qctlOk (0x0F000FE4 ||| 1) = true ∧ boundOn s (((0x0F000FE4 : Word).extractLsb' 16 8).toNat) 0 = true) ∧
    ((queued .empty 0x21).queue 5).ctl.getLsbD 0 = true ∧ qctlOk ((queued .empty 0x21).queue 5).ctl = true ∧
    ((queued .suspended 0x25).queue 5).ctl.getLsbD 0 = true ∧ qctlOk ((queued .suspended 0x25).queue 5).ctl = true := by decide +kernel

theorem witness_HostSteps :
    (∀ k ∈ [0x10, 0x11000], csrKnown k = true ∧ csrHandler k = false) ∧ (csrKnown 0x12 = true ∧ csrReadOnly 0x12 = false ∧ csrValueOk 0x12 0x100 = true) ∧
    (let s := State.reset.setCtx 255 { Context.init with dies := 1 <<< 63 }
     (s.ctx 255).st = .free ∧ (s.ctx 255).dies ≠ 0) ∧
    (let s := State.reset.setCtx 255 { Context.init with st := .ended }
     (s.ctx 255).st = .ended) ∧
    (let s := quiet.modCtx 0 fun c => { c with st := .draining }
     (s.ctx 0).st = .draining ∧ ctxBusy s 0 = false ∧ ∀ x ∈ s.kernels, x.2.st ≠ .failed) ∧
    (let s := quiet.modMod fun m => { m with errBase := 64, errSize := 65536, errLast := some 0, errWp := 1 }
     s.mod.errBase ≠ 0 ∧ s.mod.errSize ≠ 0 ∧ s.mod.errBad = none ∧ s.mod.errLast = some 0 ∧ (s.die 0).time ≤ 0 + 1000000 * 47000000) := by decide +kernel

/-! ### Witnesses: pages and links -/

/-- Context 0 on dies 0 and 1, page 0 under a leaf on each, peers 0 and 1 (dies 0 and 1 of this module), and group 0 of those two, the
mirror of member 1 being die 0. -/
def twoDies (l0 l1 : Nat) (f : Die → Die) : State :=
  let table : List Host.Cell := [(0x10008, 1), (0x18000, 1), (0x18001, 1), (0x1800A, 1), (0x1802B, 0x80)]
  let s := (paged 1 l1 (paged 0 l0 (idle 0xFFFF))).modCtx 0 fun c =>
    { c with dies := 3, peertab := tput (tput c.peertab 0 0x10000) 1 0x10000 }
  (s.modDie 1 fun d => { d with dram := msetAll d.dram table }).modDie 0 fun d => f { d with dram := msetAll d.dram table }

/-- Page 0 LOCAL, REMOTE (a mode, peer 1) or in a group's state, in frame 6. -/
def remoteLeaf (mode : Nat) : Nat := localLeaf + 2 + 16 * mode + 2 ^ 49
def groupLeaf (st : Nat) : Nat := localLeaf + 2 * st

def gathering (l1 : Nat) (reqs : Table ReqState) : State := twoDies (groupLeaf 3) l1 fun d => { d with gathers := [(20, ⟨0, 0, reqs, some (0, 1)⟩)] }

/-- A walk, and the leaf and group it finds. -/
def leafIs (s : State) (die leaf bytes : Nat) : Bool :=
  match walk s 0 die 0 with
  | .ok (p, _, n) => p.toNat == leaf && n == bytes
  | .error _ => false
def serves? (s : State) (ok : Bool) : Bool :=
  match leafGroup s 0 0 0 with
  | some (p, gr) => askedDie gr 1 false == some (0, 1) && askedDie gr 1 true == some (0, 0) &&
    (match serveStripes s 0 0 1 1 gr.n p false with | .ok _ => ok | .error _ => !ok)
  | none => false

/-- A message has come over the mesh. -/
def carried (src dst : Nat) (tag : List Nat) (s : State) : State :=
  s.modMod fun m => { m with transfers := m.transfers ++ [(90 + m.transfers.length, ⟨2, src, dst, dst, 0, tag, []⟩)] }
def comes (s : State) (a b : Nat) (tag : List Nat) : Bool := match (ride 2 0 a b tag [] s).1 with | .come => true | _ => false

theorem witness_PageSteps_gather :
    (∀ x ∈ [(2, true), (0, false)], let s := carried 0 1 (askTag 20 1 false) (gathering (groupLeaf x.1) [(1, .asked 0 false)])
      serves? s x.2 = true ∧ comes s 0 1 (askTag 20 1 false) = true ∧ comes s 0 0 (askTag 20 1 true) = true ∧ serves s 0 1 = true ∧
        serves (s.modDie 1 fun d => { d with safe := true }) 0 1 = false) ∧
    (∀ rs ∈ ([[(1, .stripes 0 false [(16, 1)])], [(1, .stripes 0 false [(16, 1)]), (2, .asked 0 false)], [(1, .refusal 0 false 4)]] : List (Table ReqState)),
      let s := carried 1 0 (replyTag 20 1 false) (gathering (groupLeaf 2) rs)
      (tget (s.die 0).gathers 20).map Gather.reqs = some rs ∧ leafIs s 0 (groupLeaf 3) 4096 = true ∧ serverOf s 0 0 0 1 false = 1 ∧
        comes s 1 0 (replyTag 20 1 false) = true) ∧
    (let s := gathering (groupLeaf 2) [(1, .stripes 0 false [(16, 1)]), (2, .asked 0 false)]
     ((tget ((setReq 0 20 1 .arrived s).die 0).gathers 20).map fun h => h.reqs.map Prod.snd) = some [.arrived, .asked 0 false]) ∧
    (∀ mirror : Bool, let s := gathering (groupLeaf 2) [(1, .asked 0 mirror)]
      0 + (s.ctx 0).peerTmo.toNat * 47000000 ≤ (s.die 0).time ∧ (ReqState.asked 0 mirror).open_ = some (0, mirror) ∧
        (leafGroup s 0 0 0).map (fun x => x.2.mir[1]?) = some (some (some (0, 0)))) := by decide +kernel

theorem witness_PageSteps_migration :
    (∀ l ∈ [localLeaf, groupLeaf 2],
      let s := carried 0 1 [7, 20] (twoDies (remoteLeaf 2) l fun d => { d with migs := [(20, ⟨0, 0, 4096, 1, 0, none⟩)] })
      tget (s.die 0).migs 20 = some ⟨0, 0, 4096, 1, 0, none⟩ ∧ comes s 0 1 [7, 20] = true ∧ serves s 0 1 = true ∧ leafIs s 1 l 4096 = true ∧
        leafIs s 0 (remoteLeaf 2) 4096 = true ∧ pteFrame (BitVec.ofNat 64 (remoteLeaf 2)) ≠ 0 ∧ peerIndex s 0 1 (s.mod.number, 0) = some 0) ∧
    (∀ r ∈ [some 3, none], let s := carried 1 0 [8, 20] (twoDies (remoteLeaf 2) localLeaf fun d => { d with migs := [(20, ⟨0, 0, 4096, 1, 0, some r⟩)] })
      tget (s.die 0).migs 20 = some ⟨0, 0, 4096, 1, 0, some r⟩ ∧ comes s 1 0 [8, 20] = true) ∧
    (let s := carried 1 0 [6, 20, 1] (twoDies (remoteLeaf 1) localLeaf fun d => { d with fills := [(20, (0, 0))] })
     (match leafOf s 0 0 0 with
      | (.ok p, s1) => pteState p == 1 && pteMode p == 1 && peerOf s1 0 0 (ptePeer p) == some (s1.mod.number, 1) &&
          (match (overMesh (fun _ => []) (fun _ => ()) [6, 20] 2 0 0 (ownerPath s1 0 0 1) id (fun s => (Ended.wait, s)) s1).1 with
           | .done _ => true
           | _ => false)
      | _ => false) = true) ∧
    -- the fill's own read of its owner, and one whose page holds no data there
    (let s := twoDies (remoteLeaf 1) localLeaf id
     (match (fillParts 0 0 1 [0] s).1 with | .done _ => true | _ => false) = true) ∧
    (let s := twoDies (remoteLeaf 1) (groupLeaf 7) id
     (match (fillParts 0 0 1 [0] s).1 with | .remote _ _ => true | _ => false) = true) := by decide +kernel

/-- Die 0 evicts page 0, PARTIAL on die 1, its send to member 1 in a state; its messages have come. -/
def reducing (state : Nat) (again sent : Bool) : State :=
  carried 1 0 [5, 20, 1] (carried 1 0 [4, 20, 0] (carried 0 1 [3, 20, 0] (twoDies (groupLeaf 6) (groupLeaf 5) fun d =>
    { d with reds := [(20, ⟨0, 0, none, true, false, [⟨1, 1, 0, false, [(2, 5)], state, 0, again⟩], sent, [], [1], 0⟩)] })))

def reducible? (state : Nat) (again sent : Bool) : Bool :=
  let s := reducing state again sent
  (tget (s.die 0).reds 20).map (fun r => (r.sends.map RedSend.state, r.sends.map RedSend.again, r.coming, r.conv, r.active, r.sent)) ==
    some ([state], [again], [1], false, true, sent) &&
  s.mod.number == 0 && comes s 0 1 [3, 20, 0] && comes s 1 0 [4, 20, 0] && serves s 0 1 && !snapHolds s 0 1 0 none &&
  leafIs s 1 (groupLeaf 5) 4096 && pteState (BitVec.ofNat 64 (groupLeaf 5)) == 5 && (s.die 1).bad == [] &&
  decide (0 + (s.ctx 0).peerTmo.toNat * 47000000 ≤ (s.die 0).time) && ((leafGroup s 0 0 0).bind fun g => g.2.mir[1]?) == some (some (0, 0)) &&
  (breakMark 0 1 0 (4096 * 6) s).isSome && (s.transfer? [5, 20, 1]).map (fun t => (t.2.at_, t.2.dst)) == some (0, 0) &&
  (leafGroup s 0 0 0).map (fun g => g.2.mem.contains (0, 0)) == some true

theorem witness_ReduceSteps : ∀ state ∈ [0, 1], ∀ again sent : Bool, reducible? state again sent = true := by decide +kernel

/-- A data frame of class 1 with number `n` from module 1, and an acknowledgement without marks; both with their check. -/
def bare (kind beats : Nat) (n : Word) : Frame :=
  { dmod := 0, ddie := 2, smod := 1, sdie := 3, cls := 1, kind := kind, beats := beats, zero := 0, seq := n, check := 0, data := List.replicate (16 * beats) 0 }
def sealed (f : Frame) : Frame := { f with check := Config.crc32 (leBytes 12 (frameHead f / 2 ^ 32) ++ f.data) }

theorem above_check (c : BitVec 32) (x : Nat) : (c.toNat + 2 ^ 32 * x) / 2 ^ 32 = x := by
  have := c.isLt
  omega

theorem frameHead_check (f : Frame) (c : BitVec 32) : frameHead { f with check := c } / 2 ^ 32 = frameHead f / 2 ^ 32 := by
  obtain ⟨_, _, _, _, _, _, _, _, _, _, _⟩ := f
  unfold frameHead
  rw [above_check, above_check]

theorem sealed_check (f : Frame) : (sealed f).check = frameCrc (sealed f) :=
  congrArg (fun x => Config.crc32 (leBytes 12 x ++ f.data)) (frameHead_check f _).symm

theorem sealed_ok (kind beats : Nat) (n : Word) (m : Module) (hk : kind < 3) (hb : beats ≤ 256) (hm : m.number = 0) :
    frameOk m (sealed (bare kind beats n)) = true := by
  have k3 : (kind != 3) = true := by simp; omega
  simp only [frameOk, sealed_check, beq_self_eq_true, Bool.true_and]
  simp [sealed, bare, hb, k3, hm]

def onMod (f : Module → Module) : State := State.reset.modMod f

/-- A flow of class 1 from die 2 to die 3 of module 1, outgoing, with one frame sent a number of times. -/
def outFlow (sends : Nat) : Flow := ⟨1, 2, 3, 1, true, 8, [⟨7, 0, 7, sends, 0, bare 0 1 7⟩], [], [], none, [], 0, false, []⟩

theorem witness_LinkSteps_mesh : ∀ dst ∈ [1, 2],
    let t : Transfer := ⟨1, 0, dst, 0, 0, [14, 20], []⟩
    let s := onMod fun m => { m with transfers := [(20, t)] }
    let l := (s.modMod fun m => signal m 1 1).mod.link 1
    (s.mod.transfers.find? fun t => t.2.cls == 1 && t.2.at_ == 1 / 4 && t.2.dst != 1 / 4 && nextDir (1 / 4) t.2.dst == 1 % 4) = some (20, t) ∧
      l.carries = true ∧ 1 ∉ l.off ∧ (s.die (hop (1 / 4) (1 % 4))).start = none := by decide +kernel

theorem witness_LinkSteps_frames :
    (State.reset.mod.portUp 31 = true ∧ frameOk State.reset.mod (sealed (bare 0 1 0)) = true ∧ (sealed (bare 0 1 0)).kind = 0 ∧
      ((sealed (bare 0 1 0)).seq - (inFlow State.reset (sealed (bare 0 1 0))).2.1.next).toNat < 2 ^ 31 ∧
      (inFlow State.reset (sealed (bare 0 1 0))).2.1.beyond = [] ∧ (inFlow State.reset (sealed (bare 0 1 0))).2.1.heldF = [] ∧
      portDie (inFlow State.reset (sealed (bare 0 1 0))).2.1.port = portDie 0 ∧ portDie (inFlow State.reset (sealed (bare 0 1 0))).2.1.port ≠ portDie 31 ∧
      2 ^ 31 ≤ ((sealed (bare 0 1 0xFFFFFFFF)).seq - (inFlow State.reset (sealed (bare 0 1 0xFFFFFFFF))).2.1.next).toNat) ∧
    (let s := onMod fun m => { m with flows := [(20, outFlow 1)] }
     frameOk s.mod (sealed (bare 1 2 8)) = true ∧ (sealed (bare 1 2 8)).data.length = 32 ∧
      (tfind s.mod.flows fun _ x => x.out && x.cls == 1 && x.src == 2 && x.dst == 3 && x.module == 1) = some (20, outFlow 1)) ∧
    (∀ n ∈ [15, 16], let s := (onMod fun m => { m with flows := [(20, outFlow n)] }).modDie 0 fun d => { d with time := 20000 * 47000000 }
      tget s.mod.flows 20 = some (outFlow n) ∧ (outFlow n).failed = false ∧
        ((outFlow n).unacked.all fun u => u.seq == 7 && decide (u.at_ + 20000 * 47000000 ≤ (s.die 0).time) && decide (u.sends = n)) = true) :=
  ⟨⟨by decide +kernel, sealed_ok 0 1 0 _ (by omega) (by omega) rfl, rfl, by decide +kernel, by decide +kernel, by decide +kernel, by decide +kernel,
      by decide +kernel, by decide +kernel⟩,
    ⟨sealed_ok 1 2 8 _ (by omega) (by omega) rfl, by decide +kernel, by decide +kernel⟩, by decide +kernel⟩

theorem witness_LinkSteps_ports :
    (∀ x ∈ ([⟨.training, 2⟩, ⟨.retraining, 0⟩, ⟨.down, 0⟩] : List Port), ((onMod fun m => { m with ports := m.ports.set 31 x }).mod.ports[31]?) = some x) ∧
    (∀ st ∈ [LinkState.training, .retraining, .up, .down, .failed], ∀ n ∈ [0, 2],
      let s := onMod fun m => { m with links := [(1, ⟨st, n, []⟩)] }
      linkExists 1 = true ∧ s.mod.ports[32 + 1]? = none ∧ (s.mod.link 1).st = st ∧ (s.mod.link 1).replays = n) ∧
    true ≠ State.reset.mod.timeHost ∧ State.reset.mod.portUp 0 = true ∧ 31 < State.reset.mod.ports.length ∧
    (2 ^ 38 - 17 + 17 ≤ 2 ^ 38 ∧ piecesOf 17 (2 ^ 38 - 17) 17 = [(2 ^ 38 - 17, 1), (2 ^ 38 - 16, 16)]) ∧
    (∀ wr ∈ [none, some (List.replicate 16 (7 : Byte))],
      let s := onMod fun m => { m with slices := [(255, (0, 95 * 2 ^ 30))] }
      tget s.mod.slices ((2 ^ 38 - 16) / 2 ^ 30) = some (0, 95 * 2 ^ 30) ∧ (s.transfer? (pieceTag 30 (2 ^ 38 - 16))).isNone ∧ (s.die 0).snaps = [] ∧
        (match (hostUnit 0 (96 * 2 ^ 30 - 16) 16 wr s).1 with | .done _ => true | _ => false) = true ∧
        (match (hostUnit 0 (96 * 2 ^ 30 - 16) 16 none (s.modDie 0 fun d => { d with bad := [3 * 2 ^ 30 - 1] })).1 with
          | .fail 2 => true
          | _ => false) = true) ∧
    (State.reset.die 0).time / 47000000 + 1000000 < 1000001 ∧ 1000000 ≠ (State.reset.die 0).time / 47000000 ∧
    1000000 ≤ (State.reset.die 0).time / 47000000 + 1000000 := by decide +kernel

/-! ### Witnesses: the collective -/

def node (op len soff : Nat) : Node := ⟨op, 0, 9, 0, 0, 0, len, soff, 0, [], 0, 0⟩
def graph (ns : List Node) (nslot trig : Nat) : Graph := ⟨ns, nslot, 16, trig, 4096, 4096⟩
/-- A run of share 1's slot 7 whose base 0 is the window, its nodes fired. -/
def runOf (ns : List Node) (trig : Nat) (dn : List Nat) : Run :=
  { share := 1, slot := 7, step := 1, graph := graph ns 1 trig, bases := [1 <<< 63], counts := [], fired := List.range ns.length, done := dn, status := 0
    units := 0, token := some (3, 63), wrote := [], pending := false, progress := [], closing := false }
def withRun (r : Run) : State := { paged 0 localLeaf (idle 0xFFFF) with runs := [(30, r)] }
def chunk0 : Chunk := ⟨1, 1, 7, 1, 9, 31, 0, List.replicate 16 1, 0, .sender, 0, none⟩

theorem witness_LinkSteps_host : let s := (withRun (runOf [node 6 1 0] 0 [])).modMod fun m => { m with hostReqs := [(40, ⟨0, 30, 0, 0⟩)] }
    tget s.mod.hostReqs 40 = some ⟨0, 30, 0, 0⟩ ∧ (tget s.runs 30).map Run.share = some 1 ∧ (s.share? 1).isSome = true ∧
      0 + (s.ctx 0).hostTmo.toNat * 47000000 ≤ (s.die 0).time := by decide +kernel

def loads (s : State) (h : Share) : Bool :=
  match readBytes (.engine 1) h.ctx h.die 8 8 s with
  | (.ok bs, s1) => leNat bs == 64 && (match loadImage 1 0 h (leNat bs) s1 with
    | (some (.ok _), _) => true
    | _ => false)
  | _ => false

/-- The image of a graph without nodes at address 64, its address at 8. -/
theorem witness_CollectiveSteps_load :
    let p := paged 0 localLeaf (onShare (fun h => { h with loaded := false }) (onLaunch (fun l => { l with graph := 8 }) (idle 0xFFFF)))
    let s := p.modDie 0 fun d => { d with dram := msetAll d.dram [(0x6008, 64), (0x6044, 16)] }
    ((s.share? 1).map fun h => (h.loaded, h.placed, h.index)) = some (false, true, 0) ∧ ((s.share? 1).map fun h => loads s h) = some true := by
  decide +kernel

theorem witness_CollectiveSteps_chunks :
    (tget [(7, (⟨0, [], 0, none⟩ : Armed))] 7).map Armed.at_ = some 0 ∧
    (let s := { withRun (runOf [node 1 1 0] 0 []) with chunks := [(50, chunk0)] }
     tget s.chunks 50 = some chunk0 ∧ readyRecv s chunk0 = some (30, 0) ∧ earlierChunk s chunk0 = false ∧
       ((s.share? 1).map fun h => (match (ride 0 h.ctx h.die h.die [9, 50] [] s).1 with | .come => true | _ => false)) = some true) ∧
    (∀ n ∈ [1, 0], ∀ req : Bool, let s := ({ onShare (fun h => { h with graphs := [(7, graph [] n 0)] }) (idle 0xFFFF) with chunks := [(50, chunk0)] }).modMod fun m =>
        { m with hostReqs := if req then [(60, ⟨0, 31, 0, 0⟩)] else [] }
      readyRecv s chunk0 = none ∧ ((s.share? 1).map fun h => tget h.graphs 7) = some (some (graph [] n 0)) ∧
        (hostReqOf s 31 0).isSome = req ∧ poolUsed s 1 7 (graph [] n 0) 0 + chunk0.data.length ≤ 4096 ∧ (s.die 0).safe = false ∧ (s.die 0).start = none) ∧
    -- a receiver on die 1, which the route reaches, or not
    (∀ ok : Bool, let s := (idle 0xFFFF).modMod fun m => { m with links := if ok then [] else [(1, ⟨.failed, 0, []⟩)] }
      (match (ride 0 0 0 1 [9, 50] [] s).1 with | .under => ok | .cut => !ok | .come => false) = true) := by decide +kernel

def nodeRuns (n : Node) (st : Option Nat) : Bool :=
  let s := withRun (runOf [n] 0 [])
  (tget s.runs 30).map (fun r => (r.pending, r.closing, r.fired, r.done)) == some (false, false, [0], []) &&
  ((s.share? 1).map fun h => nodeStatus (runOf [n] 0 []) h n) == some st

theorem witness_CollectiveSteps_nodes : (∀ n ∈ [node 0 0 0, node 0 1 0, node 1 1 0, node 6 1 0, node 7 1 0], nodeRuns n none = true) ∧
    nodeRuns (node 0 1 65536) (some 7) = true ∧
    ∀ op ∈ [2, 3, 4, 5], nodeRuns (node op 1 65520) none = true ∧
      (let r := runOf [node op 1 65520] 0 []
       let s := withRun r
       ((s.share? 1).map fun h => (nodeUnits 30 0 h (node op 1 65520) (fun r k s => readUnit 30 r h (r.src (node op 1 65520)) k s) 2 s).1) =
         some true) := by decide +kernel

/-- The trigger counter at 16 gains 1. -/
def counts (r : Run) (h : Share) (s : State) : Bool :=
  let t := closeRun 30 r h s
  match Machine.alone (.engine 30) (wordAccess (.engine 30) h.ctx h.die 16 0 4
    (fun s => mainRmw s h.ctx h.die 16 (fun v => (some (v + 1), 0)) none (((t.share? r.share).map Share.issue).getD none)) t) with
  | (.done _, _) => true
  | _ => false

theorem witness_CollectiveSteps_end : (runOf [node 0 1 0] 0 [0]).over = true ∧ (runOf [node 0 1 0] 0 [0]).pending = false ∧
    (let r := runOf [node 0 1 0] 16 [0]
     let s := withRun r
     ((s.share? 1).map fun h => counts r h s) = some true) := by decide +kernel

/-! ### Witnesses: trajectories, snapshots, dies -/

/-- An episode of two steps, both recorded, with the flags of its records. -/
def twoSteps (st : EpState) (f0 f1 : Byte) (s : State) : State :=
  (withStore1 s).modDie 0 fun d =>
    { d with episodes := [(5, { episode st with length := 2 })], dram := msetAll d.dram [(0x600C, f0), (0x601C, f1)], time := 1 }
def rewards (s : State) : Option (List Bool) :=
  match readRecords (.engine 5) 0 5 { episode .closed with length := 2 } [0, 1] s with
  | (.ok rs, _) => some (rs.map hasReward)
  | _ => none

def scans (s : State) (e : Episode) : Bool :=
  match readRecords (.engine 5) 0 5 e [0, 1] s with
  | (.ok rs, s1) =>
    let j := s.junc 0 0
    let p := e.scan.getD (j.gamma, j.lambda)
    let out := scanAll p.1.toNat (fMul fp32 .rn p.1.toNat p.2.toNat).bits (rs.zipIdx.map fun x => (x.2, x.1)).reverse e.vb.toNat 0
    JWork.isOk (writeRecords (.engine 5) 0 5 e (out.flatMap fun x => [(x.1, 0, leBytes 4 x.2.1),
      (x.1, 8, leBytes 4 x.2.2.1 ++ leBytes 4 (BitVec.ofNat 32 x.2.2.2 ||| 8 : Word).toNat)]) s1).1
  | _ => false

/-- Whether the records of an entry are lost, or wait at the page engine. -/
def recordsFail (s : State) : Option Bool :=
  match (readRecords (.engine 5) 0 5 { episode .closed with length := 2 } [0, 1] s).1 with
  | .ok _ => none
  | .dropped => some true
  | .wait => some false

/-- A reward for step 0 of episode 0, of which no other is CLOSED; entries whole, truncated and without rewards at their deadline. -/
theorem witness_TrajectorySteps :
    (let s := withEpisode .open_ 1 (idle 0xFFFF)
     pendingRewards s 0 = [] ∧ boundOn s 0 0 = true ∧ boundOn s 1 0 = false ∧ 0 < (s.junc 0 0).steps ∧ (findEpisode s 0 0 0).map Prod.fst = some 5 ∧
       findEpisode s 0 0 1 = none ∧ (s.die 0).orphans = [] ∧
       (match readRecord (.engine 9) 0 5 (episode .open_) 0 s with
        | (.ok bs, s1) => !hasReward bs && JWork.isOk (writeRecord (.engine 9) 0 5 (episode .open_) 0 8
            (leBytes 4 0 ++ leBytes 4 (BitVec.ofNat 32 (flagsOf bs) ||| 2 ||| 0 : Word).toNat) s1).1
        | _ => false) = true) ∧
    (let s := withEpisode .open_ 3 (idle 0xFFFF)
     (match readRecord (.engine 9) 0 5 (episode .open_) 0 s with | (.ok bs, _) => hasReward bs | _ => false) = true) := by decide +kernel

theorem witness_TrajectorySteps_deadline :
    (∀ x ∈ [((3 : Byte), (3 : Byte), [true, true]), (3, 1, [true, false]), (1, 1, [false, false])], let s := twoSteps .closed x.1 x.2.1 (idle 0xFFFF)
      ((tget (s.die 0).episodes 5).map fun e => (e.st, e.due, e.length, e.busy)) = some (.closed, 0, 2, none) ∧ rewards s = some x.2.2) ∧
    (let s := twoSteps .closed 3 3 (idle 0xFFFF)
     recordsFail (s.modDie 0 fun d => { d with dram := mwrite d.dram 0x5008 8 (localLeaf + 14) }) = some true ∧
       recordsFail (s.modDie 0 fun d => { d with held := [⟨0, 4096, .engine 2, false⟩] }) = some false) := by decide +kernel

/-- The next entry of the turntable, whose scan has begun with some parameters or has not. -/
def scanRuns (w : Option (Word × Word)) : Bool :=
  let e := { episode .joined with length := 2, scan := w }
  let s := (twoSteps .joined 3 7 (idle 0xFFFF)).modDie 0 fun d => { d with episodes := [(5, e)], cycles := 1 }
  tget (s.die 0).episodes 5 == some e && takesNext (s.die 0) e && !stale (s.junc 0 0) e && e.busy.isNone && scans s e &&
  stale { s.junc 0 0 with stale := 0, learner := 1 } e

/-- A scan, begun or not, of an entry neither stale nor held; an orphan without an entry; a release; a waiting lane. -/
theorem witness_TrajectorySteps_queue : scanRuns none = true ∧ scanRuns (some (0, 0)) = true ∧
    (let s := (idle 0xFFFF).modDie 0 fun d => { d with orphans := [(8, ⟨0, 7, 0, false, 0, 0⟩)] }
     tget (s.die 0).orphans 8 = some ⟨0, 7, 0, false, 0, 0⟩ ∧ findEpisode s 0 0 7 = none) ∧
    (let s := twoSteps .scanned 11 15 (idle 0xFFFF)
     ((tget (s.die 0).episodes 5).map Episode.st) = some .scanned ∧ (s.die 0).episodes.length = 1 ∧
       ((tget (s.die 0).episodes 5).map fun e => e.joinedBefore e) = some false ∧ ((s.junc 0 0).p - (s.junc 0 0).c).toNat < 256) ∧
    (let s := (idle 0xFFFF).modDie 0 fun d => { d with juncs := [(0, { Junction.atBind with queue := [[1, 2, 3]] })], takes := [(60, ⟨0, 3, 0, 508, false, false⟩)] }
     (s.dies.findSome? fun d => (tget d.2.takes 60).map fun t => (d.1, t.ctx)) = some (0, 0) ∧
       firstTake s 0 0 = some (60, ⟨0, 3, 0, 508, false, false⟩) ∧ (s.junc 0 0).queue = [1, 2, 3] :: []) := by decide +kernel

def snap (st : SnapState) (todo : List (Nat × Nat)) : Snapshot :=
  { st := st, step := 1, share := none, kern := 0, pages := [0, 4096], sbase := 0, smod := 1, sdie := 0, done := 0, result := 0, todo := todo, leaves := [], copies := []
    wrote := 0, skipped := 0, queue := [], flight := none }
def snapping (sn : Snapshot) : State := (paged 0 localLeaf (idle 0xFFFF)).modDie 0 fun d => { d with snaps := [(0, sn)] }

theorem witness_SnapshotSteps : tget ((snapping (snap .armed [])).die 0).snaps 0 = some (snap .armed []) ∧ (snap .armed []).share = none ∧
    (let sn := { snap .armed [] with share := some 1 }
     let s := snapping sn
     tget (s.die 0).snaps 0 = some sn ∧ ((s.share? 1).map fun h => (decide (2 ^ 31 ≤ (h.done - sn.step).toNat), h.ended)) = some (true, false)) ∧
    tget ((snapping (snap .cut [(0, 0)])).die 0).snaps 0 = some (snap .cut [(0, 0)]) ∧ (snap .cut [(0, 0)]).todo = (0, 0) :: [] ∧
    (tget ((sendFrame 3 0 1 0 0 4096 (snapping (snap .cut [(0, 0)]))).2.die 0).snaps 0).isSome = true := by decide +kernel

theorem witness_DieSteps : (State.reset.die 63).start = none ∧
    (∀ n ∈ [2, 3], ((State.reset.modDie 63 fun d => { d with start := some ⟨true, 2, n⟩ }).die 63).start = some ⟨true, 2, n⟩) ∧
    159 < indicators 0 := by decide +kernel

/-! ### Witnesses: the machine as a whole -/

/-- Opcode 0x25 of class 0 in place of the placed word, and a word of another class than its header's. -/
theorem witness_UnassignedOpcode : (∀ x ∈ [(0x0257000000000000#64, 0), (0x1007000000000000#64, 0)],
    let s := onWarp (fun y => { y with issA := y.issA.map fun i => { i with words := [x.1], cls := x.2 } }) (put (.nop (R 0 0 0 0 0)))
    s.bundle?.isSome = true ∧ (bundleOf s).iss.words[(bundleOf s).iss.idx]? = some x.1 ∧ (bundleOf s).iss.blocked = false ∧ (bundleOf s).iss.cls = x.2) ∧
    decode 0x0257000000000000#64 = .error .unassigned ∧ (0x1007000000000000#64).extractLsb' 60 4 ≠ 0 := by decide +kernel

theorem witness_InstructionRoundTrip : (Instr.iadd { R 2 511 510 509 0 with keep := 2, ea := true }).wf = true ∧
    (encode (.iadd { R 2 511 510 509 0 with keep := 2, ea := true })).isSome = true ∧ ((Instr.halt (R 0 0 0 0 0)).info 1).isSome = true := by decide

def runsNow (s : State) : Bool :=
  s.bundle?.isSome && !(bundleOf s).iss.blocked && (bundleOf s).iss.lanes != 0 && (bundleOf s).w == 3 && redirected (bundleOf s) == 0 &&
  !(s.die (bundleOf s).warp.die).safe && (s.die (bundleOf s).warp.die).start.isNone && (bundleOf s).iss.lanes &&& stalledLanes s 3 == 0

/-- The placed word runs, by the agenda and without one; a word that does not decode stands the same way. -/
theorem witness_StepRunsDecodedWord : (let s := put (.iadd (R 0 1 2 3 0))
    runsNow s = true ∧ s.agenda = [] ∧ s.cur = some (3, .a) ∧ runsNow { s.newInstant with agenda := [] } = true ∧
    s.newInstant.instant = s.instant ∧
    (bundleOf s).iss.words[(bundleOf s).iss.idx]?.map decode = some (.ok (.iadd (R 0 1 2 3 0))) ∧
    ((bundleOf s).iss.words[(bundleOf s).iss.idx]?.map fun v => unassignedIn (bundleOf s).iss.cls v) = some false) ∧
    (let s := onWarp (fun y => { y with issA := y.issA.map fun i => { i with words := [0x0257000000000000#64] } }) (put (.nop (R 0 0 0 0 0)))
     runsNow s = true ∧ s.cur = some (3, .a) ∧ (bundleOf s).iss.words[(bundleOf s).iss.idx]?.map decode = some (.error .unassigned)) ∧
    (Instr.contextBind 0).info 1 = none := by
  decide +kernel

theorem witness_WordEnds : ∀ n ∈ [0, 1],
    let s := onWarp (fun y => { y with issA := y.issA.map fun i => { i with words := [0x0007000000000000, 0x0007000000000000], idx := n } }) (put (.nop (R 0 0 0 0 0)))
    s.bundle?.isSome = true ∧ (bundleOf s).iss.lanes ≠ 0 ∧ ((bundleOf s).warp.threads.all fun u => u.redirect.isNone) = true ∧
      (bundleOf s).iss.idx + 1 = n + 1 ∧ (bundleOf s).iss.words.length = 2 := by decide +kernel

def memoryOk (s : State) : Bool :=
  (s.dies.all fun x => Memory.wf x.2.dram) && Memory.wf s.mod.hostMem && (s.blocks.all fun x => Memory.wf x.2.mem && Memory.wf x.2.view) &&
  s.shares.all fun x => Memory.wf x.2.home
theorem memoryOk_spec {s : State} (h : memoryOk s = true) : MemoryOk s := by
  simp only [memoryOk, Bool.and_eq_true, List.all_eq_true] at h
  exact ⟨h.1.1.1, h.1.1.2, h.1.2, h.2⟩
/-- Reset memory is canonical, a write of the last bytes of a die's DRAM lands, and a step is taken from a state with canonical memory. -/
theorem witness_MemoryReadWrite : MemoryOk State.reset ∧ (dramWrite State.reset 63 (96 * 2 ^ 30 - 2) [1, 2]).isSome = true :=
  ⟨memoryOk_spec (by decide +kernel), by decide +kernel⟩
theorem witness_MemoryOkStep : MemoryOk (put (.stb (M 2 1 2 0))) ∧ ∃ t, step (put (.stb (M 2 1 2 0))) = .next t := by
  refine ⟨memoryOk_spec (by decide +kernel), ?_⟩
  have h : (match step (put (.stb (M 2 1 2 0))) with | .next _ => true | _ => false) = true := by decide +kernel
  revert h
  cases step (put (.stb (M 2 1 2 0))) with
  | next t => exact fun _ => ⟨t, rfl⟩
  | fault _ => exact fun h => nomatch h
  | refused _ => exact fun h => nomatch h

/-! ### Witnesses: empty registers, denied accesses, refusals, and the ends of actions -/

/-- The word runs for some guard-true lane; what its registers hold is not asked. -/
def runsWord (i : Instr) (s : State) : Bool :=
  s.bundle?.isSome && staticTrap i (bundleOf s) == none && (!needsBlock i || (bundleOf s).warp.block.isSome) && acting i (bundleOf s) != 0

/-- Every register empty; a handler at 0x100; the placed warp with a live region in slot 0. -/
def hollow (s : State) : State := onThreads (fun u => { u with regs := u.regs.map fun v => { v with full := false } }) s
def hollowW (s : State) : State := onWarp (fun x => { x with wregs := x.wregs.map fun v => { v with full := false } }) s
def handled (s : State) : State := s.modCtx 0 fun c => { c with tvec := 0x100 }
def region0 : Region := ⟨0, 3, 1, 0, false, [], [], []⟩
def inRegion (s : State) : State := (onWarp (fun x => { x with region := .live 0 }) s).modDie 0 fun d => { d with regions := [region0] }
def noTrap (s : State) : Bool := !(bundleOf s).warp.regionLive && (s.ctx (bundleOf s).warp.ctx).tvec != 0 &&
  (bundleOf s).warp.threads.all fun u => u.trap.isNone

/-- Empty w registers, with the trap-on-empty bit and without. -/
theorem witness_WarpWords_empty : (∀ ea : Bool, let i := Instr.movw { I 0 1 0 63 with ea := ea }
    let s := hollowW (put i)
    runsWord i s = true ∧ ((bundleOf s).wr 63).full = false) ∧
    (let i := Instr.wset (I 0 0 1 63)
     stands i (hollowW (put i)) = true ∧ ((bundleOf (hollowW (put i))).wr 63).full = false) := by decide +kernel

/-- Targets of 4; a full and an empty return stack. -/
theorem witness_BranchWords_trap :
    (∀ x ∈ [(Instr.bra ⟨always, true, 1, 4⟩), .jmp ⟨always, true, 1, 4⟩, .call ⟨always, true, 1, 4⟩], let s := handled (put x)
      stands x s = true ∧ noTrap s = true ∧ (actors x (bundleOf s)).length = 16 ∧
      ((actors x (bundleOf s)).all fun l => targetOf ⟨always, true, 1, 4⟩ (bundleOf s).iss.hdr (laneVal (bundleOf s).warp l 1 false) == 4) = true) ∧
    (let i := Instr.call (B 16)
     let s := onThreads (fun u => { u with rstack := List.replicate 16 16 }) (handled (put i))
     stands i s = true ∧ noTrap s = true ∧ targetOf (B 16) (bundleOf s).iss.hdr 0 % 8 = 0 ∧
      ((bundleOf s).warp.threads.all fun u => decide (16 ≤ u.rstack.length)) = true) ∧
    (let i := Instr.ret (B 0)
     let s := handled (put i)
     stands i s = true ∧ noTrap s = true ∧ ((bundleOf s).warp.threads.all fun u => u.rstack == []) = true) := by decide +kernel

/-- Lane 15 leaves alone, without a region and with one; and a lane fault. -/
theorem witness_LeavingWords_leave : let s := put (.nop (R 0 0 0 0 0))
    (s.warp? 3).map (fun x => (x.block, laneBit 15 &&& x.live != 0)) = some (some 2, true) ∧
      ((leaveLanes 3 (laneBit 15) .exited 7 s).warp? 3).isSome = true ∧ ((leaveLanes 3 (laneBit 15) .off 5 s).block? 2).isSome = true ∧
      ((inRegion s).warp? 3).map Warp.region = some (.live 0) ∧ ((inRegion s).die 0).regions.any (fun r => r.slot == 0 && r.warp == 3) = true ∧
      ((leaveLanes 3 (laneBit 15) .exited 7 (inRegion s)).warp? 3).isSome = true ∧ ((laneFault 3 1 s).warp? 3).isSome = true := by decide +kernel

/-- A word of pipe A behind one of pipe B of the same warp and cycle, and behind one of an earlier cycle. -/
theorem witness_SfuWords_order : let q : SfuOp := ⟨3, some 2, 1, [], 0, .a, 1⟩
    putSfu 8 q [(7, { q with pipe := .b })] = [(8, q), (7, { q with pipe := .b })] ∧
    putSfu 8 q [(7, { q with pipe := .b, time := 0 })] = [(7, { q with pipe := .b, time := 0 }), (8, q)] := by decide +kernel

/-- Where the clauses of a denied access meet: the window's end, no block, and the stack's end. -/
theorem witness_MemoryWords_denied :
    (let s := put (.ldb (M 0 1 2 0))
     let x := (bundleOf s).warp
     1 % 2 ≠ 0 ∧ (∀ sp ∈ [Space.shared, .scratch], limitOf s x sp = 65536) ∧
       limitOf s x .stack = 64 ∧ (s.warpBlock x).isSome = true ∧ s.warpBlock { x with block := none } = none ∧
       accessDenied s x .shared 65536 1 false false [] = some .fault ∧ accessDenied s x .shared 65535 1 false false [] = none ∧
       accessDenied s x .stack 64 1 false false [] = some (.trap 0x0B) ∧ 4096 ≤ (List.replicate 4096 0).length) ∧
    (let s := handled (put (.ldb (M 0 1 2 0)))
     s.bundle?.isSome = true ∧ noTrap s = true ∧ ((denyLanes (bundleOf s) 1 (fun _ => 7) (fun _ => some (.trap 0x07)) s).1.getLsbD 0) = false) ∧
    (∀ i ∈ [Instr.ldd (M 2 1 2 0), .std (M 2 1 2 0)], let s := inRegion (put i)
      runsWord i s = true ∧ (bundleOf s).warp.regionLive = true ∧ ((bundleOf s).warp.threads.all fun u => u.regs.all VReg.full) = true ∧
        tableFree s (bundleOf s) 1 = true ∧ deniedLanes s (bundleOf s).warp .scratch 4 (i == .std (M 2 1 2 0)) true ((List.range 16).map fun l => (l, 0)) [] = []) := by
  decide +kernel

/-- An action of the placed warp, nothing before it. -/
def acts (k : ActKind) : State := { idle 0xFFFF with acts := [(9, ⟨3, 0, k, []⟩)] }
def actReady (k : ActKind) : Bool :=
  let s := acts k
  tget s.acts 9 == some ⟨3, 0, k, []⟩ && (s.warp? 3).bind Warp.block == some 2 && !s.parked 2 && doneOps s [] && goneAll s [] && entriesGone s []

theorem witness_AtomicWords_denied :
    (let s := put (.atom (A 0 0 1 2 3 0))
     let x := (bundleOf s).warp
     1 % 4 ≠ 0 ∧ x.block ≠ none ∧ (s.warpBlock x).isSome = true ∧ spaceA (A 0 2 1 2 3 0) = .main ∧ spaceA (A 0 0 1 2 3 0) ≠ .main ∧
       limitOf s x (spaceA (A 0 0 1 2 3 0)) = 65536 ∧ deniedA s { x with block := none } .atom (A 0 2 1 2 3 0) 0 = some .fault) ∧
    (∀ pub ref : Bool, actReady (.phase pub ref) = true) ∧
    (∀ p sent : Bool, actReady (.edge .atom (A 0 0 1 2 3 0) 0 0 2 0 p sent) = true) ∧ (idle 0xFFFF).ops = [] := by decide +kernel

/-- A FENCE executed again, its entries gone and left. -/
theorem witness_OrderWords_again : let i := Instr.fence (R 3 0 0 0 0)
    let o := { newOp (put i) (bundleOf (put i)) 0 .shared .store 0 4 with entry := some 0 }
    ∀ left : Bool, let s := onWarp (fun x => { x with issA := x.issA.map fun k => { k with after := some [9] } }) { put i with ops := if left then [(9, o)] else [] }
      runsWord i s = true ∧ (bundleOf s).iss.after = some [9] ∧ entriesGone s [9] = !left := by decide +kernel

/-- The first and the last word of R226, and the barrier words, in a region. -/
theorem witness_RegionWords_nested :
    (∀ i ∈ [Instr.atom (A 0 0 1 2 3 0), .regb (B 8), .sleep (S 0 0 0 0 1), .tjset (I 0 0 2 0), .logrClr (R 3 0 0 0 0), .bufd (C 0 2 4 0 0 0 0)],
      nests i = true ∧ runsWord i (inRegion (put i)) = true ∧ (bundleOf (inRegion (put i))).warp.regionLive = true) ∧
    (∀ i ∈ [Instr.barb (S 15 0 0 0 0), .treew (S 7 0 1 0 0)], let s := inRegion (put i)
      nestsBar i = true ∧ runsWord i s = true ∧ (bundleOf s).warp.regionLive = true ∧ (bundleOf s).inHandler (acting i (bundleOf s)) = 0 ∧
        ((bundleOf s).warp.threads.all fun u => u.regs.all VReg.full) = true) := by decide +kernel

theorem witness_BufferWords_ends : (∀ ref second : Bool, actReady (.bufd 2 [0, 0, 0, 0]) = true ∧ actReady (.publ 2 2 ref second) = true ∧
    actReady (.rpush 2 1) = true) ∧ usersOf (endUnfired 2 2 (acts (.bufd 2 [0, 0, 0, 0]))) 2 2 = [] ∧ ((idle 0xFFFF).block? 2).isSome = true := by decide +kernel

/-- A kernel that is not die-resident, and a channel without a configuration. -/
theorem witness_BarrierWords_refused :
    (let i := Instr.bard (S 0 0 0 1 0)
     let s := onLaunch (fun l => { l with resident := false }) (put i)
     stands i s = true ∧ (bundleOf s).inHandler (acting i (bundleOf s)) = 0 ∧ ((s.launch? (bundleOf s).warp).map Launch.resident) = some false) ∧
    ∀ i ∈ [Instr.treea (S 7 0 1 0 0), .treew (S 7 0 1 0 0)],
      stands i (put i) = true ∧ (bundleOf (put i)).inHandler (acting i (bundleOf (put i))) = 0 ∧ treeAllowed (put i) (bundleOf (put i)).warp 7 = false := by
  decide +kernel

/-- Queue 5 of context 0 with `n` entries and room for 16, its ring under page 0 of die 0 or in host memory, and an ENQ's request of some age. -/
def enqTo (n : Word) (ctl : Word) (age : Option Nat) : State :=
  let s := (paged 0 localLeaf ((acts (.enq 64 5 1)).setQueue 5 { Queue.init with st := .ready, ctl := ctl, wp := n })).modMod fun m =>
    { m with hostReqs := match age with
      | some _ => [(40, ⟨0, 9, 0, 0⟩)]
      | none => [] }
  (s.modCtx 0 fun c => { c with hostTmo := 1000 }).modDie 0 fun d => { d with time := age.getD 0 * 47000000 }
def owns (s : State) : Bool :=
  let q := s.queue 5
  ((s.warp? 3).map fun x => q.ctx == x.ctx).getD false && q.st != .disabled && !enqBusy s 9 5
def ringWrite (s : State) : Ended Unit := (Machine.alone (.engine 9) (writeAccess (.engine 9) 0 0 0 0 8 (fun s => mainWrite s 0 0 0 (leBytes 8 64) none) s)).1

theorem witness_WarpLifeWords_enq :
    (let s := enqTo 0 0x1 none
     actReady (.enq 64 5 1) = true ∧ ((s.warp? 3).map Warp.die) = some 0 ∧ s.transfer? [15, 9] = none ∧ s.transfer? [15, 9, 1] = none ∧
       ((s.warp? 3).map fun x => match (enqAt 9 x 64 5 s).1 with | .done _ => true | _ => false) = some true) ∧
    (65 % 64 ≠ 0 ∧ 64 % 64 = 0 ∧ 64 < 2 ^ 57 ∧ (State.reset.queue 5).st = .disabled) ∧
    (owns (enqTo 16 0x1 none) = true ∧ ((enqTo 16 0x1 none).queue 5).size = 16 ∧ ((enqTo 16 0x1 none).queue 5).held = 16) ∧
    (owns (enqTo 15 0x1 none) = true ∧ ((enqTo 15 0x1 none).queue 5).held = 15 ∧ ((enqTo 15 0x1 none).queue 5).hostRing = false ∧
      ringWrite (enqTo 0 0x1 none) = .done ()) ∧
    (∃ k, ringWrite ((enqTo 0 0x1 none).modCtx 0 fun c => { c with pgroot := [] }) = .fail k) ∧
    (owns (enqTo 15 0x21 none) = true ∧ ((enqTo 15 0x21 none).queue 5).hostRing = true ∧ ringReq (enqTo 15 0x21 none) 9 = none) ∧
    ∀ n ∈ [999, 1000], owns (enqTo 15 0x21 (some n)) = true ∧
      (ringReq (enqTo 15 0x21 (some n)) 9).map (fun r => r.2.overdue (enqTo 15 0x21 (some n))) = some (decide (1000 ≤ n)) := by
  refine ⟨by decide +kernel, by decide +kernel, by decide +kernel, by decide +kernel, ⟨_, rfl⟩, by decide +kernel, by decide +kernel⟩

/-- A snapshot's descriptor at address 64 with one range, of page 0; and the range's list at 128. -/
def describing (n : Byte) : State := (paged 0 localLeaf (acts (.snapm 0 1 1 64))).modDie 0 fun d =>
  { d with dram := msetAll d.dram [(0x6040, 128), (0x6048, n), (0x6088, 1)] }
def describes (s : State) : Option (Bool × Bool × Bool) :=
  match readUnits (.engine 9) 0 0 16 (unitsFrom 64 4) s with
  | (.done bs, _, t) => match readSpan (.engine 9) 0 0 (parseSnap bs).ranges (16 * (parseSnap bs).nrange) t with
    | (.done rs, _, u) => some ((parseSnap bs).ok, (governing (dropAnswers (.engine 9) u) 0 0 (parseSnap bs).grid).isSome,
        (rangesOf (parseSnap bs).nrange rs).all rangeOk)
    | _ => none
  | _ => none

theorem witness_SystemWords_ends :
    actReady (.xsave 0 1) = true ∧ actReady (.retire 1 159) = true ∧ actReady (.snapm 0 1 1 64) = true ∧ actReady (.snapm 0 1 1 65) = true ∧
    ((idle 0xFFFF).ctx 0).saves = true ∧ ((idle 0xFFFF).ctx 1).saves = false ∧ ((idle 0xFFFF).ctx 0).bound = true ∧
    ((idle 0xFFFF).ctx 1).bound = false ∧ describes (describing 1) = some (true, true, true) ∧ (describes (describing 0)).map Prod.fst = some false ∧
    ((describing 1).kernel? 0).map (fun k => (k.launch.dieset.any (snapBusy (describing 1) 0), k.launch.dieset.any (describing 1).shut)) = some (false, false) ∧
    ((describing 1).kernel? 0).map (fun k => k.launch.dieset) = some [0] ∧
    snapBusy (snapping (snap .armed [])) 0 0 = true := by
  decide +kernel

/-- Words without a block, every register full. -/
theorem witness_HandlerWords_full : (∀ i ∈ [Instr.barw (S 15 0 1 0 0), .treew (S 7 0 1 0 0)], let s := inTrap (put i)
      ((bundleOf s).warp.threads.all fun u => u.regs.all VReg.full && (u.trap.map fun f => f.window.all VReg.full).getD true) = true) ∧
    (let i := Instr.barw (S 15 0 1 0 0)
     let s := onWarp (fun x => { x with block := none }) (put i)
     s.bundle?.isSome = true ∧ staticTrap i (bundleOf s) = none ∧ (bundleOf s).warp.block = none ∧ (bundleOf s).warp.regionLive = false ∧
       ((bundleOf s).warp.threads.all fun u => u.regs.all VReg.full) = true) := by decide +kernel

/-- Every register empty: words with their trap-on-empty bits and without. -/
theorem witness_StaticTraps_empty :
    (∀ e : Bool, ∀ i ∈ [Instr.iadd { R 0 1 2 3 0 with ea := e, eb := e }, .fadd { R 0 1 2 3 0 with ea := e }, .lshuf { R 0 1 2 3 0 with ea := e },
        .iaddImm { I 0 1 2 3 with ea := e }],
      let s := hollow (handled (put i))
      runsWord i s = true ∧ noTrap s = true ∧ ((bundleOf s).warp.threads.all fun u => !(u.reg 2).full) = true) ∧
    (∀ i ∈ [Instr.ldb (M 2 1 2 0), .stk (M 2 1 2 0)], runsWord i (hollow (put i)) = true) := by decide +kernel

/-- The only lane's operation on an OPEN entry of two steps, with `v` in register 3. -/
def outOfSteps (i : Instr) (v : Word) : Bool :=
  let s := alone (withEpisode .open_ 0 (onThreads (fun u => { u with regs := u.regs.set 3 ⟨v, true⟩ }) (put i)))
  stands i s && actors i (bundleOf s) == [0] && freeEntry s (episode .open_) && (s.junc 0 0).steps == 2

/-- An operation of the only lane on no entry, in another state, on a step or a length outside, and with an unrecorded step. -/
theorem witness_TrajectoryWords_refused :
    (∀ i ∈ [Instr.tjstep (R 0 0 2 3 4), .tjend (R 0 0 2 3 4), .tjendFree (R 1 0 2 0 0)],
      let s := alone (put i)
      stands i s = true ∧ actors i (bundleOf s) = [0] ∧ s.transfer? (laneNote (.lane 3 0)) = none ∧ findEpisode s 0 0 0 = none) ∧
    (∀ i ∈ [Instr.tjstep (R 0 0 2 3 4), .tjend (R 0 0 2 3 4)], let s := alone (withEpisode .closed 0 (put i))
      stands i s = true ∧ actors i (bundleOf s) = [0] ∧ freeEntry s (episode .closed) = true) ∧
    outOfSteps (.tjstep (R 0 0 2 3 4)) 2 = true ∧ outOfSteps (.tjend (R 0 0 2 3 4)) 0 = true ∧ outOfSteps (.tjend (R 0 0 2 3 4)) 3 = true ∧
    (let i := Instr.tjend (R 0 0 2 3 4)
     let s := alone (withEpisode .open_ 0 (onThreads (fun u => { u with regs := u.regs.set 3 ⟨1, true⟩ }) (put i)))
     stands i s = true ∧ freeEntry s (episode .open_) = true ∧ 1 ≤ (s.junc 0 0).steps ∧
       (match (readRecords (.lane 3 0) 0 5 (episode .open_) [0] s).1 with | .ok rs => !rs.all isRecorded | _ => false) = true) ∧
    (let i := Instr.tjendFree (R 1 0 2 0 0)
     let s := alone (withEpisode .open_ 0 (put i))
     stands i s = true ∧ freeEntry s (episode .open_) = true) ∧
    outOfSteps (.tjrew (R 0 0 2 3 4)) 2 = true ∧ outOfSteps (.tjrew (R 0 0 2 3 4)) 0x20000 = true ∧ boundOn (withEpisode .open_ 0 (put (.tjrew (R 0 0 2 3 4)))) 0 0 = true ∧
    (∀ i ∈ [Instr.tjset (I 0 0 2 9), .tjset (I 0 0 2 7)], stands i (put i) = true) ∧ tjsetOk 9 0 = false ∧ tjsetOk 7 0 = false ∧
    (let s := withEpisode .open_ 0 (put (.tjset (I 0 0 2 6)))
     stands (.tjset (I 0 0 2 6)) s = true ∧ ((s.die 0).episodes.any fun x => x.2.ctx == 0) = true) ∧ laneList 16 1 = [0] := by decide +kernel

/-- A stack operation of lane 0 in page 0 of context 0, the block's run at address 0; the cache lines of its core. -/
def stacked (k : OpKind) (lines : List StackLine) : State :=
  (paged 0 localLeaf (onBlock (fun b => { b with stkAt := some 0 }) (withOp (opOf .stack k .sent)))).modCore 0 0 fun c => { c with lines := lines }
def touches (lines : List StackLine) (store : Bool) : Bool × State := touchLine 0 0 0 2 0 0 store (stacked .store lines)

/-- A line that hits and one that misses; one that may not be read, in a full cache the eviction of some line. -/
theorem witness_LoadStoreSteps_stack :
    (∀ k ∈ [OpKind.load false, .store], let s := stacked k []
      let o := opOf .stack k .sent
      tget s.ops 9 = some o ∧ mustFollow s 9 o = false ∧ (o.block.map s.parked) = some false ∧ stackPlace s o = some (2, 0, 0) ∧ o.entry.isSome = true) ∧
    (∀ ls ∈ [[⟨2, 0, false⟩], []], ∀ st : Bool, (touches ls st).1 = true ∧ ((touches ls st).2.warp? 3).bind Warp.block = some 2 ∧
      stackPlace (touches ls st).2 (opOf .stack .store .sent) = some (2, 0, 0)) ∧
    (let s := (stacked .store []).modCtx 0 fun c => { c with pgroot := [] }
     stackFault s 0 0 0 64 = some 1 ∧ (touchLine 0 0 0 2 0 0 true s).1 = false ∧ stackFault (stacked .store []) 0 0 0 64 = none) ∧
    (let l : StackLine := ⟨2, 9, false⟩
     let s := stacked .store (List.replicate 512 l)
     stackFault s 0 0 0 64 = none ∧ (s.core 0 0).lines.length = 512 ∧ (evictLine 0 0 l s.bump).1 = true ∧
       ((evictLine 0 0 l s.bump).2.core 0 0).lines.length < 512) ∧
    tget ([] : List Host.Cell) 0 = none ∧ tget [(0, (7 : Byte))] 0 = some 7 := by decide +kernel

theorem witness_choice (n k : Nat) (l : StackLine) (h : 0 < k) : (List.replicate k l)[n % (List.replicate k l).length]? = some l := by
  rw [List.getElem?_replicate, List.length_replicate, if_pos (Nat.mod_lt n h)]

/-- A region access of the placed warp; the region of its warp, and other regions whose edges and chains its access meets. -/
def tracked (k : OpKind) (f : Die → Die) : State :=
  ((onWarp (fun x => { x with region := .live 0 }) (withOp { opOf .scratch k .sent with region := true })).modDie 0 fun d =>
    f { d with regions := (List.range 7).map fun i => { region0 with slot := i, warp := 3 + i, stamp := BitVec.ofNat 32 i } })
def trackedBy (f : Die → Die) (r : Region) : Option Tracked :=
  (warpRegion (tracked (.load false) f) 3).map fun x => trackAccess ((tracked (.load false) f).die 0) { x.2 with reads := r.reads, writeG := r.writeG } 0 4 false

theorem witness_LoadStoreSteps_region :
    (∀ k ∈ [OpKind.load false, .store], let s := tracked k id
      let o := { opOf .scratch k .sent with region := true }
      tget s.ops 9 = some o ∧ s.parked 2 = false ∧ mustFollow s 9 o = false ∧ (warpRegion s 3).map Prod.fst = some 0 ∧ (s.share? region0.share).isSome = true ∧
        (regionAccess 3 o 65 s).1.isSome = true) ∧
    trackedBy id region0 = some .go ∧ trackedBy id { region0 with reads := List.replicate 1024 7 } = some .capacity ∧
    trackedBy (fun d => { d with chains := [(1, 0, [1])], edges := [⟨0, 1, false⟩] }) region0 = some (.cycle 1) ∧
    trackedBy (fun d => { d with chains := [(1, 0, [6])], edges := (List.range 5).map fun i => ⟨i + 1, i + 2, false⟩ }) region0 = some .stall ∧
    (let s := tracked (.load false) fun d => { d with chains := [(1, 0, [6])], edges := (List.range 5).map fun i => ⟨i + 1, i + 2, false⟩ }
     (regionAccess 3 { opOf .scratch (.load false) .sent with region := true } 65 s).1 = none) ∧
    256 ≤ (List.replicate 256 7).length ∧ (List.replicate 256 7).contains (0 / 32) = false ∧ chainOf ((idle 0xFFFF).die 0) 1 0 = [] := by decide +kernel

/-- An operation on the home state and on main memory, in page 0 of context 0. -/
def onMain (o : MemOp) : State := paged 0 localLeaf (withOp o)
def mainKinds : List OpKind := [.atom 0 true, .waitv none, .note true]
def madeOn (s : State) (o : MemOp) : Ended Word := (mainRmw s o.ctx o.port o.addr (rmwOf o) (fpAddend o) (opStep s o)).1

theorem witness_PortSteps_home : (∀ k ∈ mainKinds, opReady (opOf .scratch k .sent) = true) ∧
    (((idle 0xFFFF).block? 2).bind fun x => (idle 0xFFFF).share? x.share).isSome = true ∧
    spotOf (withOp (opOf .scratch (.atom 0 true) .sent)) (opOf .scratch (.atom 0 true) .sent) = some (1, 1, 0) ∧
    opReady { opOf .scratch (.atom 0 true) .sent with entry := none } = false ∧
    mustFollow { withOp (opOf .main (.atom 0 true) .sent) with ops := [(8, opOf .main (.atom 0 true) .sent), (9, opOf .main (.atom 0 true) .sent)] } 9
      (opOf .main (.atom 0 true) .sent) = true := by decide +kernel

theorem witness_PortSteps_main :
    (∀ k ∈ mainKinds, let o := opOf .main k .sent
      let s := onMain o
      tget s.ops 9 = some o ∧ o.entry.isSome = true ∧ (o.block.map s.parked) = some false ∧ mustFollow s 9 o = false ∧
        s.transfer? (accessTag (.op 9) true o.addr) = none ∧ s.transfer? (accessTag (.op 9) true o.addr ++ [1]) = none ∧
        heldTurn s o.port o.ctx o.addr true (.op 9) = true ∧ snapTurn s o.ctx o.port o.addr (.op 9) = true ∧
        awayMirror s (.op 9) o.ctx o.port o.addr = none ∧ pathOf s o.ctx o.port o.addr true = [] ∧ madeOn s o = .done 0) ∧
    (let o := { opOf .main (.atom 0 true) .sent with addr := 2 ^ 57 }
     tget (onMain o).ops 9 = some o ∧ mustFollow (onMain o) 9 o = false ∧ 2 ^ 57 ≤ o.addr) ∧
    madeOn (withOp (opOf .main (.atom 0 true) .sent)) (opOf .main (.atom 0 true) .sent) = .fail 1 ∧
    (let o := opOf .main (.atom 0 true) .sent
     madeOn ((onMain o).modDie 0 fun d => { d with migs := [(20, ⟨0, 0, 4096, 1, 0, none⟩)] }) o = .wait) ∧
    (let o := opOf .main (.atom 0 true) .sent
     match (locate (onMain o) 0 0 0 true true).1 with | .here d a also => d == 0 && a == 0x6000 && also == [] && (dramRead (onMain o) d a 4).isSome | _ => false) = true := by
  decide +kernel

/-- A WAITV whose limit is time 0 and one without; a full store; an answer from die 1; sleepers at each spot. -/
theorem witness_PortSteps_waits :
    (let o := opOf .main (.waitv none) .sent
     spotOf (onMain o) o = some (2, 0, 0x6000) ∧ storeRoom (onMain o) (2, 0, 0x6000) = true ∧ o.late (onMain o) = false) ∧
    (opOf .main (.waitv (some (0, 0))) .sent).late (onMain (opOf .main (.waitv none) .sent)) = true ∧
    (let o := { opOf .main (.atom 0 true) (.read 7) with spot := some (2, 1, 0x6000) }
     let s := carried 1 0 (accessTag (.op 9) true 0 ++ [1]) (withOp o)
     tget s.ops 9 = some o ∧ o.act = none ∧ o.away = some 1 ∧
       (match (ride 1 0 1 0 (accessTag (.op 9) true 0 ++ [1]) [] s).1 with | .come => true | _ => false) = true) ∧
    (∀ p ∈ [(1, 1, 0), (2, 0, 0x6000)], let o := { opOf .main (.waitv (some (0, 0))) (.sleeping 1) with spot := some p }
     tget (withOp o).ops 9 = some o ∧ 0 ≤ ((withOp o).die o.port).time) ∧ ((idle 0xFFFF).share? 1).isSome = true := by decide +kernel

/-- 256 sleepers fill the store of a bank of shared memory. -/
theorem witness_PortSteps_full : ∃ n : Nat, storeRoom { idle 0xFFFF with ops := (List.range n).map fun i =>
    (9 + i, { opOf .shared (.waitv none) (.sleeping i) with spot := some (0, 2, 0), entry := none }) } (0, 2, 0) = false :=
  ⟨256, by decide +kernel⟩

/-- The placed warp's region in slot 0, with a forward edge to slot 1, has read granule 0 of share 1's window. -/
def aborting : State := (onWarp (fun x => { x with region := .live 0 }) (handled (idle 0xFFFF))).modDie 0 fun d =>
  { d with regions := [{ region0 with reads := [0] }, { region0 with slot := 1, warp := 4 }], edges := [⟨0, 1, true⟩] }

theorem witness_RegionSteps_aborts :
    ((aborting.warp? 3).map Warp.region) = some (.live 0) ∧ ((onWarp (fun x => { x with region := .committing 0 }) aborting).warp? 3).map Warp.region = some (.committing 0) ∧
    (aborting.die 0).edges.any (fun e => e.fwd && e.from_ == 0 && e.to_ == 1) = true ∧
    ((aborting.warp? 3).bind fun x => x.thread 0).map (fun u => u.trap.isNone) = some true ∧ (aborting.ctx 0).tvec ≠ 0 ∧
    ((aborting.share? 1).map Share.die) = some 0 ∧
    (∀ a ∈ [0, 32], (((aborting.die 0).regions.filter fun r => r.share == 1 && r.reads.any (granules [a]).contains).map Region.slot) = if a = 0 then [0] else []) ∧
    (∀ s ∈ [idle 0xFFFF, parked256],
      ((readyParks 3 (parkBundle 3 .b (parkBundle 3 .a s))).warp? 3).map (fun x => (x.issA, x.issB)) = some (none, none)) := by decide +kernel

/-- An accepted operation whose tile, turn and buffer are free. -/
def tileReady (k : TileKind) (q : Buffer) : Bool :=
  let s := withBuf 2 q (withTop k false [])
  match tget s.tops 9, s.block? 2 with
  | some t, some _ => !t.fired && joined s 9 t && tileFires s t && (match t.kind.writes with
    | some w => !publHolds s 2 w 9
    | none => true)
  | _, _ => false

theorem witness_TileSteps_kinds : (∀ k ∈ [TileKind.mldt true 2 0 0, .mldt false 2 0 0, .mmovr true 4 [(0, 5, true)], .mmovw false [(0, 1023, 7)], .mqry true 4 [(0, 31, false)],
      .mdrain 0 0 2 0 4096, .qdual false 0 2 0 0 0, .rqnt 0 2 0 0 0], tileReady k plain = true) ∧
    (let q := ring true false
     tileReady (.mdrain 0 0 2 0 4096) q = true ∧ q.kind = .ring ∧ plain.kind ≠ .ring ∧ slotsReady q true 1 = true ∧
       earlierWaits (withBuf 2 q (withTop (.mdrain 0 0 2 0 4096) false [])) 2 2 9 = false) := by decide +kernel

/-- Signers who have all left; two whose format words differ; one whose words issue. -/
def signing (signed : Lanes) (f1 : Word) : State :=
  onWarp (fun y => { y with masks := y.masks.map (fun m => { m with round := some ⟨0, 2, 0, 0, signed,
    [(0, ⟨List.replicate 16 0, 0, 0, 0, 0⟩), (1, ⟨List.replicate 16 0, f1, 0, 1, 0⟩)], .accepted 9⟩, bits := 3 }) }) (withTop (.mma 0 true false false 0 2) false [])
def signs (signed : Lanes) (f1 : Word) : Option (Lanes × Bool × Bool) :=
  let s := signing signed f1
  (s.warp? 3).bind fun x => (x.masks[0]?).bind fun k => k.round.map fun r =>
    let mem := r.signed &&& k.bits
    let b := s.buf 2 2
    let bw : Word := BitVec.ofNat 32 (leNat ((((s.block? 2).map fun blk => nearRead s blk b.die (nearAddr b true b.cr 0) 1028).getD []).drop 1024))
    let a := enteringLatch x false r mem
    (mem, (match tget s.tops 9 with | some t => joined s 9 t && tileFires s t | none => false) && slotsReady b false 1 && !earlierWaits s 2 2 9 &&
      decide (fmtKind bw < 2) && biasOk (fmtBias bw), wordsAgree x r mem && a.kind % 2 == fmtKind bw)

theorem witness_TileSteps_signers : signs 0 0 = some (0, true, true) ∧ signs 3 0 = some (3, true, true) ∧ signs 3 0x1000 = some (3, true, false) := by decide +kernel

/-- A fired update, none of its units done, its values 1; at the home state, and at a page that is there, is absent, migrates or lies beyond a
failed link. -/
def updating (mem : Bool) (s : State → State) : State :=
  let t := withTop (.update false mem 0 128 0) true []
  s (paged 0 localLeaf { t with tops := tmod t.tops 9 fun t => { t with vals := List.replicate 1024 (some (1, 0)) } })
def updated (s : State) : Option (Ended Unit) := (tget s.tops 9).bind fun t => (s.block? t.block).map fun b =>
  (writeAccess (.tile 9) t.ctx t.die 0 1 16 (rmwWhole t.ctx t.die false 0 (some (b.kern, t.step)) ((List.range 4).map fun k => (4 * k, some (1, 0)))) s).1

theorem witness_TileSteps_units :
    (∀ mem : Bool, let s := updating mem id
      (tget s.ops 9).isNone = true ∧ ((tget s.tops 9).map fun t => (t.fired, t.units, t.kind)) = some (true, [], .update false mem 0 128 0) ∧
        ((s.block? 2).bind fun b => s.share? b.share).isSome = true) ∧
    updated (updating true id) = some (.done ()) ∧ updated (updating true fun s => s.modCtx 0 fun c => { c with pgroot := [] }) = some (.fail 1) ∧
    updated (updating true fun s => s.modDie 0 fun d => { d with migs := [(20, ⟨0, 0, 4096, 1, 0, none⟩)] }) = some .wait ∧
    updated { twoDies (remoteLeaf 2) localLeaf id with tops := (updating true id).tops, mod := { (twoDies (remoteLeaf 3) localLeaf id).mod with links := [(1, ⟨.failed, 0, []⟩)] } } =
      some (.remote 1 0) ∧ (fp32.decode (0x3F800000#32).toNat).isNan = false := by decide +kernel

/-- A copy that has its moves and has not fired; a siding wait whose count is reached; entries of a schedule that ask for a place and that do not, the
queue full and its block waiting or not. -/
theorem witness_CopySteps_more :
    (let c := { copyOf .waiting none with moves := [⟨0, 0, 16, 0⟩] }
     let s := withCopy c
     tget s.copies 9 = some c ∧ c.moves ≠ [] ∧ blockFires s c.block = true ∧ waitsTarget s c = false ∧ c.frozen = false) ∧
    (let s := withBuf 2 { ring true false with p := 3 } { idle 0xFFFF with rwaits := [(9, (2, 2, 3, 4, false))] }
     tget s.rwaits 9 = some (2, 2, 3, 4, false) ∧ (s.buf 2 2).kind = .ring ∧ s.parked 2 = false ∧ 3 ≤ ((s.buf 2 2).p - (s.buf 2 2).c).toNat) ∧
    (∀ op ∈ [0, 4], let d : Sched := ⟨16, [{ entry0 with op := op }], []⟩
     let s := onBlock (fun b => { b with sched := some d }) (idle 0xFFFF)
     d.next 0 = some (0, { entry0 with op := op }) ∧ ((s.blockWarps 2).find? fun y => y.2.index == 0).map Prod.fst = some 3 ∧
       ((s.warp? 3).map fun p => (p.wregs.getD 3 ⟨0, true⟩).full) = some true ∧ schedKind op = (if op = 0 then some .cpyin else none) ∧
       copyWaiters s 0 0 = [] ∧ copiesUsed s 0 0 = 0) ∧
    copiesUsed { idle 0xFFFF with copies := (List.range 128).map fun i => (i, copyOf .fired none) } 0 0 = 128 := by decide +kernel

/-- A ring in host memory whose request is on its way or not; doorbells that move too far, or backwards. -/
theorem witness_QueueSteps_host :
    (∀ r : Bool, let s := (queued .ready 0x21).modMod fun m => { m with hostReqs := if r then [(40, ⟨0, ringRun 5, 0, 0⟩)] else [] }
     (s.queue 5).hostRing = true ∧ hostReqOf s (ringRun 5) 0 = (if r then some 40 else none)) ∧
    (let x := (queued .ready 0x21).queue 5
     5 < 1024 ∧ x.st ≠ .disabled ∧ x.size = 16 ∧ x.held = 1 ∧ (33 - x.rp : Word).toNat = 17 ∧ (16 : Word) ≠ x.wp ∧ (16 - x.rp).toNat < x.held) := by decide +kernel

/-- A snapshot of die 0 that marks page 0 from step 0 on, in a state. -/
def snapped (st : SnapState) : State := (gathering (groupLeaf 2) [(1, .stripes 0 false [(16, 1)])]).modDie 0 fun d =>
  { d with snaps := [(0, { snap st [] with step := 0 })] }

/-- Stripes that a snapshot holds, and that land as the last or as one of two. -/
theorem witness_PageSteps_land : let cells : List Host.Cell := [(16, 1)]
    snapHolds (snapped .armed) 0 0 0 (some (0, 1)) = true ∧ stripePages 0 cells = [0] ∧
    (∀ s ∈ [gathering (groupLeaf 2) [], snapped .cut], snapHolds s 0 0 0 (some (0, 1)) = false ∧ snapTurn s 0 0 0 (.page 2 20 1) = true ∧
      (breakMarks 0 0 [0] s).isSome = true) ∧
    (∀ two : Bool, let s := gathering (groupLeaf 2) ((1, .stripes 0 false cells) :: if two then [(2, .asked 0 false)] else [])
      leafIs s 0 (groupLeaf 3) 4096 = true ∧
        ((tget ((setReq 0 20 1 .arrived (putStripes 0 0 0 0x6000 cells 1 s)).die 0).gathers 20).map fun h => h.reqs.any fun r => r.2 != .arrived) = some two) := by
  decide +kernel

theorem witness_ReduceSteps_turn : snapTurn (reducing 0 false false) 0 1 0 (.page 3 20 0) = true := by decide +kernel

/-- A flow into die 0 from die 3 of module 1 with 4,096 frames held, and one with none. -/
def inFlowOf (n : Nat) : Flow := { outFlow 0 with out := false, src := 3, dst := 2, next := 5, unacked := [], beyond := [9], heldF := List.replicate n (bare 0 1 9) }
theorem witness_LinkSteps_home : let s := fun n => onMod fun m => { m with flows := [(20, inFlowOf n)] }
    (∀ n ∈ [0, 4096], ((inFlow (s n) (bare 0 1 5)).2.1.next, (inFlow (s n) (bare 0 1 5)).2.1.heldF.length) = (5, n)) ∧
    2 ^ 31 ≤ ((4 : Word) - 5).toNat ∧ ((6 : Word) - 5).toNat < 2 ^ 31 ∧ ((5 : Word) - 5).toNat < 2 ^ 31 ∧ (inFlowOf 0).beyond.contains 9 = true ∧
    (bare 0 1 5).cls = 1 ∧ (bare 0 1 5).data.length = 16 ∧ (bare 0 2 5).data.length = 32 := by decide +kernel

/-- Keepers that answer; an acknowledgement at its flow's terminus and at another port; accesses of the host. -/
theorem witness_LinkSteps_host2 :
    keeperAnswers State.reset 1 = true ∧
    (let s := onMod fun m => { m with flows := [(20, outFlow 1)] }
     portDie (outFlow 1).port = portDie 0 ∧ portDie (outFlow 1).port ≠ portDie 8 ∧ s.mod.portUp 8 = true ∧ s.mod.portUp 0 = true ∧ (outFlow 1).failed = false) ∧
    (∀ ps ∈ [[], [(16, 16)]], let x : HostAccess := ⟨16, 16, ps, none, [], false⟩
     tget (onMod fun m => { m with accesses := [(9, x)] }).mod.accesses 9 = some x ∧ x.pieces = ps) ∧
    (let s := onMod fun m => { m with slices := [(0, (0, 0)), (1, (1, 0))] }
     (match (hostPiece 9 (2 ^ 31) 16 none s).1 with | .done _ => true | _ => false) = true ∧
       (match (hostPiece 9 16 16 none s).1 with | .done _ => true | _ => false) = true ∧
       (match (hostPiece 9 16 16 none (s.modDie 0 fun d => { d with bad := [0] })).1 with | .fail 2 => true | _ => false) = true ∧
       (match (hostPiece 9 (2 ^ 30) 16 none s).1 with | .wait => true | _ => false) = true ∧
       s.transfer? (pieceTag 9 16) = none ∧ s.transfer? (pieceTag 9 16 ++ [1]) = none ∧ tget s.mod.slices 2 = none) := by decide +kernel

/-- A request of an ENQ, and of a queue's ring, both without completion. -/
theorem witness_LinkSteps_requests :
    (let s := enqTo 15 0x21 (some 1000)
     let q : HostReq := ⟨0, 9, 0, 0⟩
     tget s.mod.hostReqs 40 = some q ∧ tget s.runs 9 = none ∧ q.at_ + (s.ctx 0).hostTmo.toNat * 47000000 ≤ (s.die 0).time ∧ (enqOf s q).isSome = true) ∧
    (let s := onMod fun m => { m with hostReqs := [(40, ⟨0, ringRun 5, 0, 0⟩)] }
     let q : HostReq := ⟨0, ringRun 5, 0, 0⟩
     tget s.mod.hostReqs 40 = some q ∧ tget s.runs (ringRun 5) = none ∧ q.at_ + (s.ctx 0).hostTmo.toNat * 47000000 ≤ (s.die 0).time ∧
       enqOf s q = none ∧ q.run = ringRun 5 ∧ s.chunks = []) ∧
    (30 < engineBase ∧ enqOf (withRun (runOf [node 6 1 0] 0 [])) ⟨0, 30, 0, 0⟩ = none) ∧ (1 : Nat) ≠ 0 ∧ (1 : Nat) ≠ 64 := by decide +kernel

/-- A chunk that goes to the pool: without a request, with one, behind another's, and one the pool has no room for. -/
theorem witness_CollectiveSteps_pool :
    let s := fun (reqs : List (Nat × HostReq)) (cs : List (Nat × Chunk)) =>
      (({ onShare (fun h => { h with graphs := [(7, graph [] 0 0)] }) (idle 0xFFFF) with chunks := (50, chunk0) :: cs } : State)).modMod fun m => { m with hostReqs := reqs }
    (∀ rs ∈ [[], [(60, (⟨0, 31, 0, 0⟩ : HostReq))]], readyRecv (s rs []) chunk0 = none ∧ (hostReqOf (s rs []) 31 0).isSome = !rs.isEmpty ∧ poolBusy (s rs []) 50 chunk0 = false ∧
      poolUsed (s rs []) 1 7 (graph [] 0 0) 0 + 16 ≤ 4096 ∧ (s rs []).transfer? (hostTag 31 0) = none ∧ (s rs []).transfer? (hostTag 31 0 ++ [1]) = none ∧
      ((s rs []).share? 1).map Share.die = some 0) ∧
    (let t := s [(60, ⟨0, 32, 0, 0⟩)] [(51, { chunk0 with run := 32 })]
     hostReqOf t 31 0 = none ∧ poolBusy t 50 chunk0 = true) ∧
    4080 < poolUsed (s [] [(51, { chunk0 with place := .pool, pos := 0, data := List.replicate 4096 1 })]) 1 7 (graph [] 0 0) 4096 := by decide +kernel

/-- A lane of TJTAKE.try at an empty queue. -/
theorem witness_TrajectorySteps_try :
    let s := (idle 0xFFFF).modDie 0 fun d => { d with juncs := [(0, Junction.atBind)], takes := [(60, ⟨0, 3, 0, 508, false, true⟩)] }
    (s.dies.findSome? fun d => (tget d.2.takes 60).map fun t => (d.1, t)) = some (0, ⟨0, 3, 0, 508, false, true⟩) ∧ (s.junc 0 0).queue = [] ∧
      (((s.warp? 3).bind Warp.block).map s.parked) = some false ∧ firstTake s 0 0 = some (60, ⟨0, 3, 0, 508, false, true⟩) := by decide +kernel

/-- Drains of page 0: not begun, on their way, and acknowledged, the page copied or not; leaves of each kind. -/
theorem witness_SnapshotSteps_drain :
    (∀ st ∈ [SnapState.cut, .draining], ∀ fl ∈ [none, some 0], let sn := { snap st [(0, 0)] with flight := fl, copies := [(0, 7)] }
      let s := snapping sn
      tget (s.die 0).snaps 0 = some sn ∧ s.shut 0 = false ∧ drainOut s 0 0 sn = false) ∧
    (let sn := { snap .draining [(0, 0)] with flight := some 0 }
     let s := (snapping sn).modMod fun m => { m with flows := [(20, { outFlow 1 with cls := 3, src := 0, dst := 0, unacked := [⟨7, 0, 7, 1, 0, { bare 0 1 7 with cls := 3 }⟩] })] }
     drainOut s 0 0 sn = true ∧ (outFlow 1).failed = false ∧ (s.die 0).bad = []) ∧
    (∀ st ∈ [SnapState.armed], let s := snapping { snap st [] with share := some 1, step := 1 }
     (s.share? 1).map (fun h => (decide (2 ^ 31 ≤ (h.done - (1 : Word)).toNat), h.ended)) = some (true, false)) ∧
    (let s := twoDies (groupLeaf 2) localLeaf id
     (groupOf s 0 0 (pteGroup (BitVec.ofNat 64 (groupLeaf 2)))).isSome = true ∧ pteState (BitVec.ofNat 64 (groupLeaf 2)) = 2 ∧
       pteState (BitVec.ofNat 64 localLeaf) = 0 ∧ pteState (BitVec.ofNat 64 (groupLeaf 7)) = 7) := by decide +kernel

/-- A die whose part of module storage holds no start; keepers without a log, and with one that no replay yields. -/
theorem witness_DieSteps_keeper :
    ((State.reset.modDie 63 fun d => { d with stored := false }).die 63).stored = false ∧ (State.reset.die 63).start = none ∧ diverges 63 State.reset = false ∧
    diverges 63 (setKeeper 63 ⟨true, 16, none, [.sent 20 5 0]⟩ State.reset) = true ∧ (List.replicate 64 (0 : Byte)).length = 64 := by decide +kernel

/-! ### Single steps: results calculated by hand from the rules -/

/-- Thread 0's registers set; the word placed; and what one step leaves in a register, a predicate or the warp. -/
def given (l : List (Nat × Word)) (s : State) : State := onThreads (fun u => { u with regs := l.foldl (fun r x => r.set x.1 ⟨x.2, true⟩) u.regs }) s
def warpAfter (s : State) : Option Warp := match step s with
  | .next t => t.warp? 3
  | _ => none
def regAfter (s : State) (r : Nat) : Option Nat := ((warpAfter s).bind fun x => x.thread 0).map fun u => (u.reg r).val.toNat
def predsAfter (s : State) : Option Nat := ((warpAfter s).bind fun x => x.thread 0).map fun u => u.preds.toNat
def does (i : Instr) (l : List (Nat × Word)) (r v : Nat) : Bool := regAfter (given l (put i)) r == some v

/-- R109: IADD wraps, .sat stops at 2^31 − 1; ISUB.usat stops at 0; IMULH of −1 and 2^31. -/
theorem test_iadd : (does (.iadd (R 0 1 2 3 0)) [(2, 0x7FFFFFFF), (3, 1)] 1 0x80000000 && does (.iadd (R 1 1 2 3 0)) [(2, 0x7FFFFFFF), (3, 1)] 1 0x7FFFFFFF)
    = true := by decide +kernel
theorem test_isub : (does (.isub (R 2 1 2 3 0)) [(2, 1), (3, 2)] 1 0 && does (.isubImm (I 0 1 2 0xFFFFFF)) [(2, 5)] 1 6) = true := by decide +kernel
theorem test_imulh : (does (.imulh (R 0 1 2 3 0)) [(2, 0xFFFFFFFF), (3, 0x80000000)] 1 0 && does (.imulh (R 1 1 2 3 0)) [(2, 0xFFFFFFFF), (3, 0x80000000)] 1 0x7FFFFFFF)
    = true := by decide +kernel
/-- R109, R110: ICMP.lt is signed; a shift of 32 clears, SAR of 32 fills with the sign. -/
theorem test_icmp : predsAfter (given [(2, 0xFFFFFFFF), (3, 1)] (put (.icmp (R 2 1 2 3 0)))) = some 0xFF ∧
    predsAfter (given [(2, 1), (3, 0xFFFFFFFF)] (put (.icmp (R 2 1 2 3 0)))) = some 0xFD := by decide +kernel
/-- R112, R113: the table 0x96 is the exclusive or of three inputs; FSHL takes the high word of the shifted pair. -/
theorem test_lgate : does (.lgate (L 1 2 3 4 0x96)) [(2, 0xF0F0), (3, 0xFF00), (4, 0x00FF)] 1 0x0F0F = true := by decide +kernel
theorem test_fshl : (does (.fshl (R 0 1 2 3 4)) [(2, 0x12345678), (3, 0x9ABCDEF0), (4, 8)] 1 0x3456789A && does (.fshl (R 1 1 2 3 4)) [(2, 5), (3, 7), (4, 99)] 1 7)
    = true := by decide +kernel
/-- R116: v2 + 8·v3 + v4. -/
theorem test_lea : does (.lea (R 3 1 2 3 4)) [(2, 100), (3, 5), (4, 0xFFFFFFFF)] 1 139 = true := by decide +kernel
/-- R119: 1.5 + 2.25 = 3.75; 1 · (1 + 2^−23) − 1 in one rounding. -/
theorem test_fadd : does (.fadd (R 0 1 2 3 0)) [(2, 0x3FC00000), (3, 0x40100000)] 1 0x40700000 = true := by decide +kernel
theorem test_ffma : does (.ffma (R 0 1 2 3 4)) [(2, 0x3F800000), (3, 0x3F800001), (4, 0xBF800000)] 1 0x34000000 = true := by decide +kernel
/-- R123: FRND.rz of −0.5 is −0. -/
theorem test_frnd : does (.frnd (R 1 1 2 0 0)) [(2, 0xBF000000)] 1 0x80000000 = true := by decide +kernel
/-- R126: a NaN converts to 0, and 2^31 to the largest s32. -/
theorem test_cvt : (does (.cvt (V 0 1 2 0x005)) [(2, 0x7FC00000)] 1 0 && does (.cvt (V 0 1 2 0x005)) [(2, 0x4F000000)] 1 0x7FFFFFFF) = true := by decide +kernel
/-- R143: a branch back by 16 bytes from the header at 0, modulo 2^57; TRAP enters the handler at TVEC. -/
theorem test_bra : (((warpAfter (put (.bra (B 0xFFFFFFF0)))).bind fun x => x.thread 0).map fun u => (u.st, u.pc.hdr)) = some (.ready, 2 ^ 57 - 16) := by
  decide +kernel
theorem test_trap : (((warpAfter ((put (.trap (B 0x1234))).modCtx 0 fun c => { c with tvec := 0x100 })).bind fun x => x.thread 0).map fun u =>
    (u.pc.hdr, u.trap.map fun f => (f.cause, f.code))) = some (0x100, some (6, 0x1234)) := by decide +kernel
/-- R111: a byte count of ones, and of leading zeros of 0. -/
theorem test_bits : (does (.popc (R 0 1 2 0 0)) [(2, 0xF0F00001)] 1 9 && does (.clz (R 0 1 2 0 0)) [] 1 32 && does (.brev (R 0 1 2 0 0)) [(2, 1)] 1 0x80000000) = true := by
  decide +kernel
/-- R102: a pair moves its lower register first, and MOVI holds 32 bits. -/
theorem test_mov : (does (.mov (R 1 4 8 0 0)) [(8, 7), (9, 9)] 5 9 && does (.movi (K 4 0xDEADBEEF)) [] 4 0xDEADBEEF) = true := by decide +kernel
/-- R25: the step after a clause's last word finds the threads READY at the next header, 16 bytes on. -/
theorem test_next_header : (((warpAfter (put (.nop (R 0 0 0 0 0)))).bind fun x => x.thread 15).map fun u => (u.st, u.pc.hdr)) = some (.ready, 16) := by decide +kernel
/-- R59: an opcode that is not assigned traps, and a table word decodes. -/
theorem test_unassigned : ((warpAfter (onWarp (fun y => { y with issA := y.issA.map fun i => { i with words := [0x0257000000000000#64] } })
    ((put (.nop (R 0 0 0 0 0))).modCtx 0 fun c => { c with tvec := 0x100 }))).bind fun x => x.thread 0).map (fun u => (u.pc.hdr, u.trap.map TrapFrame.cause)) =
    some (0x100, some 2) := by decide +kernel

/-- R403, FIPS 202: SHAKE256 of the empty message begins 46 b9 dd 2b 0b a8 8d 13. -/
theorem test_shake256 : shake256 8 [] = [0x46, 0xb9, 0xdd, 0x2b, 0x0b, 0xa8, 0x8d, 0x13] := by decide +kernel

end Sys2Proof.Tests
end

section
/-! PROOFS. Main memory of a die: what a write stores and leaves as it was, and that it keeps every memory canonical. -/

namespace Sys2Proof.Machine

/-! ### Entries of a finite map -/

/-- A listed value is an entry of the table. -/
theorem mem_of_tget_eq_some {α : Type} {t : Table α} {k : Nat} {v : α} (h : tget t k = some v) : (k, v) ∈ t := by
  induction t with
  | nil => simp [tget] at h
  | cons x t ih =>
    obtain ⟨i, a⟩ := x
    by_cases hi : i = k
    · simp_all [tget]
    · exact List.mem_cons_of_mem _ (ih (by simpa [tget, hi] using h))

/-- An entry of an updated table is the new one or one of the old table. -/
theorem mem_tput {α : Type} {t : Table α} {k : Nat} {v : α} {x : Nat × α} (h : x ∈ tput t k v) : x = (k, v) ∨ x ∈ t := by
  induction t with
  | nil => simpa [tput] using h
  | cons y t ih =>
    obtain ⟨i, a⟩ := y
    by_cases hi : i = k
    · simp only [tput, hi, if_true, List.mem_cons] at h ⊢
      tauto
    · simp only [tput, hi, if_false, List.mem_cons] at h ⊢
      rcases h with h | h
      · exact .inr (.inl h)
      · exact (ih h).imp_right .inr

/-! ### Bytes in a row -/

/-- A byte outside the range written is as it was. -/
theorem mget_msetAll_cellsAt_outside {m : Mem} {a k : Nat} {bs : List Byte} (hm : Memory.wf m = true)
    (hk : k < a ∨ a + bs.length ≤ k) : mget (msetAll m (cellsAt a bs)) k = mget m k := by
  refine mget_msetAll_ne _ k m hm fun x hx => ?_
  obtain ⟨hlo, hhi⟩ := mem_cellsAt (k := x.1) (b := x.2) hx
  omega

/-- Reading a range just written gives the bytes written. -/
theorem mbytes_msetAll_cellsAt {m : Mem} (a : Nat) (bs : List Byte) (hm : Memory.wf m = true) :
    mbytes (msetAll m (cellsAt a bs)) a bs.length = bs := by
  refine List.ext_getElem (by simp [mbytes]) fun i _ hi => ?_
  simp [mbytes, mget_cellsAt bs m a i hm hi, hi]

/-! ### The canonical form of every memory -/

/-- The DRAM of every die is canonical, that of a die the table does not list included. -/
theorem MemoryOk.die_dram {s : State} (h : MemoryOk s) (d : Nat) : Memory.wf (s.die d).dram = true := by
  obtain ⟨hdies, -⟩ := h
  cases hd : tget s.dies d with
  | none => simp [State.die, tgetD, hd, Die.init, Memory.wf]
  | some x => simpa [State.die, tgetD, hd] using hdies _ (mem_of_tget_eq_some hd)

/-- A die with canonical DRAM keeps the memories canonical. -/
theorem MemoryOk.setDie {s : State} (h : MemoryOk s) (d : Nat) {x : Die} (hx : Memory.wf x.dram = true) :
    MemoryOk (s.setDie d x) := by
  obtain ⟨hdies, hrest⟩ := h
  refine ⟨fun y hy => ?_, hrest⟩
  rcases mem_tput hy with rfl | hy
  · exact hx
  · exact hdies y hy

/-! ### A write of the DRAM of a die (R406) -/

/-- A die after a write of its DRAM: the bytes stored, and the units the write touches correctable. -/
def Die.written (d : Die) (a : Nat) (bs : List Byte) : Die :=
  { d with dram := msetAll d.dram (cellsAt a bs), bad := d.bad.filter fun u => !(badIn d a bs.length).contains u }

@[simp] theorem Die.written_dram (d : Die) (a : Nat) (bs : List Byte) :
    (d.written a bs).dram = msetAll d.dram (cellsAt a bs) := rfl

/-- All a write that is performed does: it changes the one die. -/
theorem dramWrite_eq_some {s t : State} {die a : Nat} {bs : List Byte} (h : dramWrite s die a bs = some t) :
    t = s.setDie die ((s.die die).written a bs) := by
  simp only [dramWrite] at h
  split at h
  · exact (Option.some.inj h).symm
  · contradiction

/-- After a write no unit it touches is uncorrectable. -/
theorem badIn_written (d : Die) (a : Nat) (bs : List Byte) : badIn (d.written a bs) a bs.length = [] := by
  simp only [badIn, Die.written, List.filter_eq_nil_iff, List.mem_filter]
  intro u ⟨hu, hgone⟩ htouched
  simp [hu, htouched] at hgone

/-- After a write its range reads as the bytes written. -/
theorem dramRead_setDie_written (s : State) (die a : Nat) (bs : List Byte) (hm : Memory.wf (s.die die).dram = true) :
    dramRead (s.setDie die ((s.die die).written a bs)) die a bs.length = some bs := by
  simp only [dramRead, State.die_setDie, badIn_written, Die.written_dram]
  exact congrArg some (mbytes_msetAll_cellsAt a bs hm)

/-- Settles O59: what `dramWrite` answers is the state with the one die written, whose DRAM reads by the laws of
memories in canonical form. -/
theorem memoryReadWrite : Obligations.MemoryReadWrite := by
  intro s die a bs t hok hw
  obtain rfl := dramWrite_eq_some hw
  have hm : Memory.wf (s.die die).dram = true := hok.die_dram die
  refine ⟨fun k hk => ?stored, fun x hx => ?outside, fun d hd => State.die_setDie_ne s _ hd,
    dramRead_setDie_written s die a bs hm, hok.setDie die (wf_msetAll _ _ hm), rfl⟩
  case stored =>
    simpa [hk] using mget_cellsAt bs _ a k hm hk
  case outside =>
    simpa using mget_msetAll_cellsAt_outside hm hx

end Sys2Proof.Machine
end


section
/-! PROOFS. The die: its start and the failures of one, the warm reset, measurement and reports, health and power. -/

namespace Sys2Proof.Machine

/-- Drawing a name leaves every die as it is. -/
@[simp] theorem State.die_bump (s : State) (d : Nat) : s.bump.die d = s.die d := rfl

/-! ### What each event of a die runs -/

theorem exec_dieStart (die : Nat) (warm : Bool) (s : State) : exec (.dieStart die warm) s = execDieStart die warm s := rfl

theorem exec_startStepFailure (die : Nat) (s : State) : exec (.startStepFailure die) s = execStartStepFailure die s := rfl

theorem exec_warmReset (die : Nat) (s : State) : exec (.warmReset die) s = .next (warmResetDie die s) := rfl

theorem exec_sramSoftError (die : Nat) (s : State) : exec (.sramSoftError die) s = .next (warmResetDie die s) := rfl

theorem exec_measurementRegisterExtension (die k : Nat) (digest : List Byte) (s : State) :
    exec (.measurementRegisterExtension die k digest) s = execMeasurementRegisterExtension die k digest s := rfl

theorem exec_attestationRequest (die : Nat) (nonce : List Byte) (s : State) :
    exec (.attestationRequest die nonce) s = execAttestationRequest die nonce s := rfl

theorem exec_healthRefresh (die ind : Nat) (reading : Int) (age : Nat) (s : State) :
    exec (.healthRefresh die ind reading age) s = execHealthRefresh die ind reading age s := rfl

theorem exec_powerLimit (die rate : Nat) (s : State) : exec (.powerLimit die rate) s = execPowerLimit die rate s := rfl

/-! ### A start and its steps (R400, R401) -/

/-- A die that is not starting begins a start: it is purged, and the start stands at its first step. -/
theorem exec_dieStart_of_start_eq_none {die : Nat} {s : State} (warm : Bool) (hdie : die < 64) (hidle : (s.die die).start = none) :
    exec (.dieStart die warm) s = .next ((purgeDie die s).modDie die fun d =>
      { d with start := some ⟨warm && warmStart die (purgeDie die s), 1, 0⟩, mrs := List.replicate 8 zeroMr }).bump := by
  simp only [exec_dieStart, execDieStart, Nat.not_le.mpr hdie, if_false, hidle]

/-- A die that is starting takes the step it is at, and no other. -/
theorem exec_dieStart_of_start_eq_some {die : Nat} {s : State} {x : Start} (warm : Bool) (hdie : die < 64)
    (hstart : (s.die die).start = some x) :
    exec (.dieStart die warm) s = .next (startStep die x.warm x.step
      (s.modDie die fun d => { d with start := some { x with step := x.step + 1, fails := 0 } })) := by
  simp only [exec_dieStart, execDieStart, Nat.not_le.mpr hdie, if_false, hstart]

/-- Without stored parameters no start is warm. -/
theorem warmStart_eq_false_of_not_stored {die : Nat} {s : State} (h : (s.die die).stored = false) : warmStart die s = false := by
  simp [warmStart, h]

/-- The first three failures of a step are counted. -/
theorem exec_startStepFailure_of_fails_lt {die : Nat} {s : State} {x : Start} (hstart : (s.die die).start = some x)
    (hfails : x.fails < 3) : exec (.startStepFailure die) s =
      .next (s.modDie die fun d => { d with start := some { x with fails := x.fails + 1 } }) := by
  have hagain : x.fails + 1 < 4 := by omega
  simp only [exec_startStepFailure, execStartStepFailure, hstart, hagain, if_true]

/-- The fourth failure of a step ends the start in safe mode. -/
theorem exec_startStepFailure_of_le_fails {die : Nat} {s : State} {x : Start} (hstart : (s.die die).start = some x)
    (hfails : 3 ≤ x.fails) : exec (.startStepFailure die) s =
      .next (s.modDie die fun d => { d with start := none, safe := true }) := by
  have hlast : ¬ x.fails + 1 < 4 := by omega
  simp only [exec_startStepFailure, execStartStepFailure, hstart, hlast, if_false]

/-! ### The warm reset (R398, R399) -/

/-- A die that is not starting is reset: the contexts placed on it end, its logic is reset, and the replay may diverge. -/
theorem warmResetDie_of_start_eq_none {die : Nat} {s : State} (hdie : die < 64) (hidle : (s.die die).start = none) :
    warmResetDie die s =
      replayDivergence die (resetLogic die (endContexts (placedOn s die) 0x07 (causeEngine die 0 0) s)) := by
  simp [warmResetDie, Nat.not_le.mpr hdie, hidle]

/-- A replay that sends again what it sent changes nothing. -/
theorem replayDivergence_of_not_diverges {die : Nat} {s : State} (h : diverges die s = false) :
    replayDivergence die s = s.bump := by
  simp [replayDivergence, h]

/-- A replay that diverges leaves the die in safe mode and ends the contexts bound on it. -/
theorem replayDivergence_of_diverges {die : Nat} {s : State} (h : diverges die s = true) :
    replayDivergence die s = (endContexts ((List.range 256).filter fun c => boundOn s c die) 0x07 (causeEngine die 0 0)
      (s.modDie die fun d => { d with safe := true })).bump := by
  simp only [replayDivergence, h, if_true]

/-! ### Measurement registers and reports (R403, R404) -/

/-- The host extends each of MR5 to MR7. -/
theorem exec_measurementRegisterExtension_of_host_register {die k : Nat} (digest : List Byte) (s : State) (hdie : die < 64)
    (hlo : 5 ≤ k) (hhi : k < 8) : exec (.measurementRegisterExtension die k digest) s = .next (extendAt die k digest s) := by
  simp [exec_measurementRegisterExtension, execMeasurementRegisterExtension, hdie, hlo, hhi]

/-- A request with a whole nonce is answered by the report of that nonce. -/
theorem exec_attestationRequest_of_nonce {die : Nat} {nonce : List Byte} (s : State) (hdie : die < 64) (hnonce : nonce.length = 64) :
    exec (.attestationRequest die nonce) s = .next (s.modMod fun m => { m with reports := m.reports ++ [report s die nonce] }) := by
  simp [exec_attestationRequest, execAttestationRequest, hdie, hnonce]

/-- A field of a report is as long as its place. -/
@[simp] theorem length_bytesTo (n : Nat) (l : List Byte) : (bytesTo n l).length = n := by
  simp [bytesTo]

/-- A report is its nonce, the identity of the module, and more. -/
theorem report_eq_nonce_append (s : State) (die : Nat) (nonce : List Byte) :
    ∃ rest, report s die nonce = nonce ++ (bytesTo 32 Config.identity ++ rest) := by
  simp only [report, reportBody, List.append_assoc]
  exact ⟨_, rfl⟩

/-- The first 64 bytes of a report are its nonce. -/
theorem take_report {nonce : List Byte} (s : State) (die : Nat) (hnonce : nonce.length = 64) :
    (report s die nonce).take 64 = nonce := by
  obtain ⟨rest, hreport⟩ := report_eq_nonce_append s die nonce
  rw [hreport, List.take_left' hnonce]

/-- The next 32 bytes of a report are the identity of the module. -/
theorem take_drop_report {nonce : List Byte} (s : State) (die : Nat) (hnonce : nonce.length = 64) :
    ((report s die nonce).drop 64).take 32 = bytesTo 32 Config.identity := by
  obtain ⟨rest, hreport⟩ := report_eq_nonce_append s die nonce
  rw [hreport, List.drop_left' hnonce, List.take_left' (length_bytesTo 32 Config.identity)]

/-! ### Health and power (R405, R19) -/

/-- The wear index ends at 1000, a free one too. -/
theorem wearIndex_le (x x0 lim : Int) (free : Nat) : wearIndex x x0 lim free ≤ 1000 := by
  simp only [wearIndex]
  split <;> omega

/-- A predicted life fits its 16 bits. -/
theorem wearLife_le (w age : Nat) : wearLife w age ≤ 65535 := by
  simp only [wearLife]
  split
  case isTrue => exact le_rfl
  case isFalse => exact min_le_left _ _

/-- Without wear the predicted life is the longest. -/
@[simp] theorem wearLife_zero (age : Nat) : wearLife 0 age = 65535 := rfl

/-- An indicator of a die as a health refresh stores it; `free` is its index where R405 states none. -/
def Health.refreshed (die ind : Nat) (reading : Int) (age free : Nat) : Health :=
  let x0 := Config.manufacture die ind
  let w := wearIndex reading x0 (wearLimit die ind x0) free
  ⟨x0, wearLimit die ind x0, reading, age, w, wearLife w age⟩

/-- A die with a refreshed indicator: that of a core at its limit retires the core at the next start. -/
def Die.refreshed (ind : Nat) (x : Health) (d : Die) : Die :=
  { d with health := tput d.health ind x
           added := if ind < 160 && x.index == 1000 && !d.added.contains ind then d.added ++ [ind] else d.added }

/-- An indicator without wear has the longest life. -/
theorem Health.refreshed_life {die ind : Nat} {reading : Int} {age free : Nat}
    (h : (Health.refreshed die ind reading age free).index = 0) : (Health.refreshed die ind reading age free).life = 65535 :=
  (congrArg (wearLife · age) h).trans (wearLife_zero age)

@[simp] theorem Die.refreshed_health (ind : Nat) (x : Health) (d : Die) : (d.refreshed ind x).health = tput d.health ind x := rfl

@[simp] theorem Die.refreshed_dram (ind : Nat) (x : Health) (d : Die) : (d.refreshed ind x).dram = d.dram := rfl

/-- A health refresh stores one indicator of the die. -/
theorem exec_healthRefresh_of_indicator {die ind : Nat} (reading : Int) (age : Nat) (s : State) (hdie : die < 64)
    (hind : ind < indicators die) : exec (.healthRefresh die ind reading age) s =
      .next (s.modDie die (Die.refreshed ind (Health.refreshed die ind reading age (Config.choice s.fresh)))).bump := by
  simp only [exec_healthRefresh, execHealthRefresh, hdie, hind, decide_true, Bool.and_self, if_true]
  rfl

/-- An indicator that is no core's, or is below its limit, retires no core. -/
theorem Die.refreshed_added {ind : Nat} {x : Health} (d : Die) (h : ind < 160 → x.index < 1000) :
    (d.refreshed ind x).added = d.added := by
  have hkept : (ind < 160 && x.index == 1000) = false := by simp; omega
  simp [Die.refreshed, hkept]

/-- A power limit sets the die's rate, at most 100 percent. -/
theorem exec_powerLimit_of_die {die : Nat} (rate : Nat) (s : State) (hdie : die < 64) :
    exec (.powerLimit die rate) s = .next (s.modDie die fun d => { d with rate := min rate 100 }) := by
  simp [exec_powerLimit, execPowerLimit, hdie]

/-- Settles O52: each event of a die by the lemma of what it does. -/
theorem dieSteps : Obligations.DieSteps := by
  refine ⟨fun die warm s hdie hidle => exec_dieStart_of_start_eq_none warm hdie hidle,
    fun die s hstored => warmStart_eq_false_of_not_stored hstored,
    fun die warm s x hdie hstart => exec_dieStart_of_start_eq_some warm hdie hstart,
    fun die s x hstart => ⟨exec_startStepFailure_of_fails_lt hstart, exec_startStepFailure_of_le_fails hstart⟩,
    fun die s hdie hidle => ?reset,
    fun die s => ⟨replayDivergence_of_not_diverges, replayDivergence_of_diverges⟩,
    fun die k digest s hdie hlo hhi => exec_measurementRegisterExtension_of_host_register digest s hdie hlo hhi,
    fun die nonce s hdie hnonce =>
      ⟨exec_attestationRequest_of_nonce s hdie hnonce, take_report s die hnonce, take_drop_report s die hnonce⟩,
    fun die ind reading age s hdie hind => ⟨_, Health.refreshed die ind reading age (Config.choice s.fresh),
      exec_healthRefresh_of_indicator reading age s hdie hind, ?stored, rfl, rfl, rfl, wearIndex_le .., wearLife_le ..,
      Health.refreshed_life, ?dram, rfl, fun hkept => ?added⟩,
    fun die rate s hdie => exec_powerLimit_of_die rate s hdie⟩
  case reset =>
    rw [exec_warmReset, exec_sramSoftError, warmResetDie_of_start_eq_none hdie hidle]
    exact ⟨rfl, rfl⟩
  case stored => simp
  case dram => simp
  case added => simpa using Die.refreshed_added (s.die die) hkept

end Sys2Proof.Machine
end


section
/-! PROOFS. The words that move values: NOP, MOV, MOVI, PMOV, PGATE and ISEL. -/

namespace Sys2Proof.Machine

/-! ### What a word that runs has passed -/

/-- A word that runs passes the checks of its fields, and ends its clause if it must (check 4 of R49). -/
theorem Runs.check4 {i : Instr} {s : State} {b : Bundle} {k : WordInfo} (h : Runs i s b)
    (hk : i.info b.warp.width = some k) :
    k.ok4 = true ∧ (k.last = true → b.isLast = true) := by
  obtain ⟨-, hs, -⟩ := h
  simp only [staticTrap, hk] at hs
  split at hs
  · contradiction
  · split at hs
    · contradiction
    · simp_all

/-- The modifier of a MOV that runs is 0, 1 or 2 (R102). -/
theorem Runs.mov_mod {o : FmtR} {s : State} {b : Bundle} (h : Runs (.mov o) s b) :
    o.mod = 0 ∨ o.mod = 1 ∨ o.mod = 2 := by
  obtain ⟨hok, -⟩ := h.check4 rfl
  have hm : o.mod.toNat = 0 ∨ o.mod.toNat = 1 ∨ o.mod.toNat = 2 := by
    simp only [FmtR.info, Bool.and_eq_true, List.contains_eq_mem, List.mem_cons, List.not_mem_nil,
        or_false, decide_eq_true_eq] at hok
    tauto
  bv_omega

/-! ### The words that move values (R102, R107, R108, R111) -/

/-- MOV as a word of one lane each. -/
theorem exec_mov (o : FmtR) (s : State) : exec (.mov o) s =
    laneWord (.mov o) (srcsR o (2 ^ o.mod.toNat) 0 0) (regRange o.d.toNat (2 ^ o.mod.toNat)) (fun _ _ u =>
      ((List.range (2 ^ o.mod.toNat)).foldl
        (fun v k => v.put (o.d.toNat + k) (if o.za then 0 else (u.reg (o.a.toNat + k)).val)) u, 0)) s := rfl

theorem mov_completes (o : FmtR) : Completes (.mov o) (fun _ _ u =>
    let d := o.d.toNat
    let a := fun k => if o.za then 0 else (u.reg (o.a.toNat + k)).val
    if o.mod = 0 then u.put d (a 0)
    else if o.mod = 1 then (u.put d (a 0)).put (d + 1) (a 1)
    else (((u.put d (a 0)).put (d + 1) (a 1)).put (d + 2) (a 2)).put (d + 3) (a 3)) fun _ => 0 := by
  refine completes_laneWord (exec_mov o) (fun _ => rfl) (fun _ => ?_) (fun _ => ?_) (fun s b l u h _ _ => ?_)
    fun b => laneFlags_zero b.warp _
  · exact covers_srcsR o _ 0 0 _ _ _ _ _ _ _ _ _ _ le_rfl (Nat.zero_le _) (Nat.zero_le _)
  · exact covers_dR o _ _ _ _ _ _ _ _ _ _ _ le_rfl
  · rcases h.mov_mod with hm | hm | hm <;> simp [hm, List.range_succ]

/-- A table bit by its index (R108). -/
theorem gateBit_eq_getLsbD (table : BitVec 8) (a b c : Bool) : gateBit table a b c =
    table.getLsbD ((if a then 1 else 0) + 2 * (if b then 1 else 0) + 4 * (if c then 1 else 0)) := by
  cases a <;> cases b <;> cases c <;> rfl

/-- A format R word of at most two sources that gives its guard-true threads new data and raises no flag. -/
theorem completes_laneWordR {i : Instr} {o : FmtR} (na nb nd : Nat) {g : Thread → Thread}
    {cls opc : Nat} {mods : List Nat}
    {d a b c : Use} {l x k : Bool}
    (he : ∀ s, exec i s = laneWord i (srcsR o na nb 0) (regRange o.d.toNat nd) (fun _ _ u => (g u, 0)) s)
    (hi : ∀ W, i.info W = some (o.info cls opc mods d a b c l x k)) (ha : na ≤ Use.count a)
        (hb : nb ≤ Use.count b) (hd : nd ≤ Use.count d) :
    Completes i (fun _ _ u => g u) fun _ => 0 :=
  completes_laneWord he hi (fun _ => covers_srcsR o na nb 0 _ _ _ _ _ _ _ _ _ _ ha hb (Nat.zero_le _))
    (fun _ => covers_dR o nd _ _ _ _ _ _ _ _ _ _ hd)
        (fun _ _ _ _ _ _ _ => rfl) fun b => laneFlags_zero b.warp _

/-- MOVI names its destination alone. -/
theorem movi_completes (o : FmtK) : Completes (.movi o) (fun _ _ u => u.put o.d.toNat o.imm) fun _ => 0 :=
  completes_laneWord (f := fun _ _ u => (u.put o.d.toNat o.imm, 0)) (ss := []) (ds :=
      regRange o.d.toNat 1) (fun _ => rfl) (fun _ => rfl)
    (fun _ => covers_nil _) (fun _ => covers_of_mem (List.mem_singleton_self _) fun _ h => mem_regRange.1 h)
    (fun _ _ _ _ _ _ _ => rfl) fun b => laneFlags_zero b.warp _

/-- PGATE names predicates alone. -/
theorem pgate_completes (o : FmtL) : Completes (.pgate o) (fun _ _ u =>
    let p := fun (r : BitVec 9) => if u.pred r.toNat then 1 else 0
    u.setPred o.d.toNat (o.table.getLsbD (p o.a + 2 * p o.b + 4 * p o.c))) fun _ => 0 :=
  completes_laneWord (ss := []) (ds := [])
    (f := fun _ _ u => (u.setPred o.d.toNat (gateBit o.table (u.pred o.a.toNat) (u.pred o.b.toNat)
        (u.pred o.c.toNat)), 0))
    (fun _ => rfl) (fun _ => rfl) (fun _ => covers_nil _) (fun _ => covers_nil _)
    (fun _ _ _ u _ _ _ => congrArg (u.setPred o.d.toNat)
        (gateBit_eq_getLsbD ..)) fun b => laneFlags_zero b.warp _

/-- Settles O1: each word is one lane's word over the registers it names, and MOV's run of writes has
one, two or four terms. -/
theorem moveWords : Obligations.MoveWords :=
  ⟨fun _ => completes_laneWordR 0 0 0 (fun _ => rfl) (fun _ => rfl) (Nat.zero_le _) (Nat.zero_le _)
      (Nat.zero_le _),
    mov_completes, movi_completes,
    fun _ => completes_laneWordR 1 1 0 (fun _ => rfl) (fun _ => rfl) le_rfl le_rfl (Nat.zero_le _),
    fun _ => completes_laneWordR 1 1 1 (fun _ => rfl) (fun _ => rfl) le_rfl le_rfl le_rfl,
    fun _ => completes_laneWordR 0 0 1 (fun _ => rfl) (fun _ => rfl) (Nat.zero_le _) (Nat.zero_le _) le_rfl,
    fun _ => completes_laneWordR 1 0 0 (fun _ => rfl) (fun _ => rfl) le_rfl (Nat.zero_le _) (Nat.zero_le _),
    pgate_completes,
    fun _ => completes_laneWordR 1 1 1 (fun _ => rfl) (fun _ => rfl) le_rfl le_rfl le_rfl⟩

end Sys2Proof.Machine
end


section
/-! PROOFS. The end of a word: where a bundle's threads stand after it (R25, R26). -/

namespace Sys2Proof.Machine

/-- A bundle whose threads no abort redirects keeps them all. -/
theorem takeRedirects_of_no_redirect {w : Nat} {p : Pipe} {s : State} {x : Warp} (hx : s.warp? w = some x)
    (hr : ∀ l u, x.thread l = some u → u.redirect = none) : takeRedirects w p s = s := by
  have hnone : ∀ l, ((x.thread l).map fun t => t.redirect.isSome).getD false = false := fun l => by
    cases hu : x.thread l with
    | none => rfl
    | some u => simp [hr l u hu]
  simp only [takeRedirects, hx]
  cases x.iss p with
  | none => rfl
  | some i => simp [hnone]

/-- Between two words of a clause the bundle goes on with the next (R25). -/
theorem finishTo_of_not_last {s : State} {b : Bundle} (dest : Nat → Nat) (hb : s.bundle? = some b)
    (h0 : b.iss.lanes ≠ 0)
    (hr : ∀ l u, b.warp.thread l = some u → u.redirect = none) (hlast : b.isLast = false) :
    finishTo b dest s = s.setWarp b.w (b.warp.setIss b.pipe (some { b.iss with
      idx := b.iss.idx + 1, blocked := false, grant := .none, after := none, since := none })) := by
  obtain ⟨hw, hi⟩ := bundle_warp hb
  simp only [finishTo, takeRedirects_of_no_redirect hw hr, hw, hi, h0, hlast, if_false, Bool.false_eq_true]

/-- The warp a clause of bundle `b` leaves at its end: its threads READY where `dest` says, its pipe
free (R26). -/
def Bundle.ended (b : Bundle) (dest : Nat → Nat) (group now : Nat) : Warp :=
  { (b.warp.setIss b.pipe none).mapLanes b.iss.lanes fun l t => t.ready (atHeader (dest l)) group now with
    yielded := if b.iss.yld then some now else b.warp.yielded }

/-- After the last word of its clause a bundle has ended (R26). -/
theorem finishTo_of_last {s : State} {b : Bundle} (dest : Nat → Nat) (hb : s.bundle? = some b)
    (h0 : b.iss.lanes ≠ 0)
    (hr : ∀ l u, b.warp.thread l = some u → u.redirect = none) (hlast : b.isLast = true) :
    finishTo b dest s = s.setWarp b.w (b.ended dest s.instant (s.die b.warp.die).time) := by
  obtain ⟨hw, hi⟩ := bundle_warp hb
  simp only [finishTo, takeRedirects_of_no_redirect hw hr, hw, hi, h0, hlast, if_false, if_true, Bundle.ended,
    Warp.mapLanes_yielded, Warp.setIss_yielded]

@[simp] theorem Bundle.ended_iss (b : Bundle) (dest : Nat → Nat) (group now : Nat) :
    (b.ended dest group now).iss b.pipe = none := by
  simp only [Bundle.ended]
  cases b.pipe <;> rfl

@[simp] theorem Warp.thread_setIss (x : Warp) (p : Pipe) (i : Option Issue) (l : Nat) :
    (x.setIss p i).thread l = x.thread l := by
  simp [Warp.thread]

/-- The threads of an ended bundle: those of its clause are READY, the others as they were. -/
theorem Bundle.ended_thread (b : Bundle) (dest : Nat → Nat) (group now l : Nat) :
    (b.ended dest group now).thread l =
    (b.warp.thread l).map fun t => if b.iss.lanes.getLsbD l then t.ready (atHeader
        (dest l)) group now else t := by
  show ((b.warp.setIss b.pipe none).mapLanes b.iss.lanes _).thread l = _
  rw [Warp.thread_mapLanes, Warp.thread_setIss]

/-- The next header stands one word past the clause's last (R26). -/
theorem Bundle.next_of_last {b : Bundle} (h : b.iss.idx + 1 = b.iss.words.length) :
    b.next = b.iss.hdr + 8 * (b.iss.words.length + 1) := by
  have : b.iss.words.length - 1 + 2 = b.iss.words.length + 1 := by omega
  simp only [Bundle.next, nextHeader, this]

/-- Settles O57: the two ends of a word, by whether it is the last of its clause. -/
theorem wordEnds : Obligations.WordEnds := by
  intro s b hb h0 hr
  refine ⟨fun hmore => ?more, fun hlast => ?last⟩
  case more =>
    have hl : b.isLast = false := by simp only [Bundle.isLast, beq_eq_false_iff_ne]; omega
    exact finishTo_of_not_last _ hb h0 hr hl
  case last =>
    have hl : b.isLast = true := by simpa only [Bundle.isLast, beq_iff_eq] using hlast
    rw [finishWord, finishTo_of_last _ hb h0 hr hl]
    refine ⟨_, State.warp?_setWarp _ _ _, b.ended_iss _ _ _, fun k hk => State.warp?_setWarp_ne _ _ hk,
        fun l u hu => ?_⟩
    refine ⟨_, by rw [b.ended_thread, hu]; rfl, ?_⟩
    cases hm : b.iss.lanes.getLsbD l with
    | true => exact ⟨rfl, rfl, fun _ => ⟨rfl, b.next_of_last hlast⟩, fun h => by contradiction⟩
    | false => exact ⟨rfl, rfl, fun h => by contradiction, fun _ => rfl⟩

end Sys2Proof.Machine
end


section
/-! PROOFS. Words whose opcode the map does not assign (R49, R59). -/

namespace Sys2Proof.Machine

/-- The opcodes R59 lists, class by class. -/
def Unlisted (c n : Nat) : Prop :=
  (c = 0 ∧ (8 ≤ n ∧ n ≤ 15 ∨ n = 37 ∨ 52 ≤ n ∧ n ≤ 63 ∨ 86 ≤ n ∧ n ≤ 87 ∨ 91 ≤ n ∧ n ≤ 95 ∨
    106 ≤ n ∧ n ≤ 111 ∨ 118 ≤ n)) ∨
  (c = 1 ∧ 12 ≤ n) ∨ (c = 2 ∧ 17 ≤ n) ∨ (c = 3 ∧ 19 ≤ n) ∨ (c = 4 ∧ 9 ≤ n) ∨ (c = 5 ∧ 16 ≤ n) ∨
  (c = 6 ∧ 12 ≤ n) ∨ (c = 7 ∧ 6 ≤ n)

/-- A listed opcode is in no arm of its class's table. -/
theorem decodeClass_of_unlisted {c n : Nat} (w : Word64) (h : Unlisted c n) : decodeClass c n w = none := by
  rcases h with ⟨rfl, h⟩ | ⟨rfl, h⟩ | ⟨rfl, h⟩ | ⟨rfl, h⟩ | ⟨rfl, h⟩ | ⟨rfl, h⟩ | ⟨rfl, h⟩ | ⟨rfl, h⟩
  all_goals
    simp only [decodeClass]
    dsimp only [decodeGen, decodeSfu, decodeLds, decodeCpy, decodeMma, decodeSyn, decodeSys, decodeTrj]
    split
    rotate_right
    · rfl
    all_goals exact absurd h (by decide)

/-- No mod makes a listed opcode known. -/
theorem opcodeKnown_of_unlisted {c n : Nat} (h : Unlisted c n) : decode.opcodeKnown c n = false := by
  rw [Bool.eq_false_iff]
  simp only [decode.opcodeKnown, ne_eq, Bool.or_eq_true, Bool.and_eq_true, beq_iff_eq, List.contains_eq_mem,
    List.mem_cons, List.not_mem_nil, or_false, decide_eq_true_eq]
  unfold Unlisted at h
  omega

/-- A listed class is below 8, so a word of it is no header. -/
theorem bit63_of_unlisted {v : Word64} {n : Nat} (h : Unlisted (bits 60 4 v).toNat n) : bit 63 v = false := by
  have hc : (bits 60 4 v).toNat < 8 := by unfold Unlisted at h; omega
  have h3 : (bits 60 4 v).getLsbD 3 = false := Nat.testBit_lt_two_pow hc
  simpa [bits, bit] using h3

theorem decode_of_unlisted {v : Word64} (h : Unlisted (bits 60 4 v).toNat (bits 52 8 v).toNat) :
    decode v = .error .unassigned := by
  simp only [decode, bit63_of_unlisted h, decodeClass_of_unlisted v h, opcodeKnown_of_unlisted h,
      Bool.false_eq_true, if_false]

/-! ### Their trap (R49) -/

/-- The words that fail check 1 or 2 of R49. -/
theorem unassignedIn_iff {cls : Nat} {v : Word64} : unassignedIn cls v = true ↔
    decode v = .error .unassigned ∨ decode v = .error .header ∨ (bits 60 4 v).toNat ≠ cls := by
  unfold unassignedIn
  split <;> simp_all

/-- Such a word of a bundle that is not blocked traps every thread of it. -/
theorem exec_unassignedOpcode {v : Word64} {s : State} {b : Bundle} (hb : s.bundle? = some b)
    (hv : b.iss.words[b.iss.idx]? = some v)
    (hrun : b.iss.blocked = false) (hu : unassignedIn b.iss.cls v = true) :
    exec (.unassignedOpcode v) s = .next (trapWord b b.iss.lanes 0x02 s) := by
  show execUnassignedOpcode v s = _
  simp [execUnassignedOpcode, hb, hv, hrun, hu]

/-- Settles O53: the ranges of R59 lie outside the decoder's tables, and check 1 and 2 of R49 trap. -/
theorem unassignedOpcode : Obligations.UnassignedOpcode := by
  refine ⟨fun v hv => decode_of_unlisted ?_,
      fun v s b hb hv hrun hu => exec_unassignedOpcode hb hv hrun (unassignedIn_iff.mpr hu)⟩
  simp only [List.mem_cons, List.not_mem_nil, or_false, exists_eq_or_imp, exists_eq_left] at hv
  unfold Unlisted bits
  rcases hv with ⟨hc, h⟩ | ⟨hc, h⟩ | ⟨hc, h⟩ | ⟨hc, h⟩ | ⟨hc, h⟩ | ⟨hc, h⟩ | ⟨hc, h⟩ | ⟨hc, h⟩
  all_goals
    simp only [hc, Nat.reduceEqDiff, true_and, false_and, false_or, or_false]
    omega

end Sys2Proof.Machine
end


section
/-! PROOFS. The word a step runs (R25, R49, R139; log entry 5). -/

namespace Sys2Proof.Machine

/-! ### The next word of a bundle -/

/-- Bundle `b` stands on pipe `p` of warp `w` with the word `v` next: it runs, no thread of it is to
leave between two words, and no
region access of it is stalled. -/
def Stands (s : State) (w : Nat) (p : Pipe) (b : Bundle) (v : Word64) : Prop :=
  ({ s with cur := some (w, p) } : State).bundle? = some b ∧ b.iss.blocked = false ∧ b.iss.lanes ≠ 0 ∧
  (s.die b.warp.die).safe = false ∧ (s.die b.warp.die).start = none ∧ (b.iss.since = none →
      redirected b = 0) ∧
  b.iss.lanes &&& stalledLanes { s with cur := some (w, p) } b.w = 0 ∧ b.iss.words[b.iss.idx]? = some v

section Next

variable {s : State} {w : Nat} {p : Pipe} {b : Bundle} {v : Word64}

/-- A bundle that stands so is the one its pipe may run. -/
theorem Stands.bundleAt (h : Stands s w p b v) : bundleAt s w p = some b := by
  obtain ⟨hb, hrun, hl, hsafe, hstart, -⟩ := h
  have hlanes : (b.iss.lanes != 0) = true := bne_iff_ne.mpr hl
  simp only [Machine.bundleAt, hb, Bundle.runs, hrun, hlanes, hsafe, hstart, Option.filter,
      Bool.not_false, Option.isNone_none,
    Bool.and_self, if_true]

/-- Its pipe executes its next word. -/
theorem Stands.runPipe (h : Stands s w p b v) : runPipe w p s = nextWord b { s with cur := some (w, p) } := by
  have hat := h.bundleAt
  obtain ⟨-, -, -, -, -, hred, -⟩ := h
  have hstay : (b.iss.since.isNone && redirected b != 0) = false := by
    cases hsince : b.iss.since with
    | none => simp [hred hsince]
    | some t => rfl
  simp only [Machine.runPipe, hat, hstay, Bool.false_eq_true, if_false]

/-- A word that decodes in its clause's class is executed. -/
theorem Stands.nextWord_of_ok (h : Stands s w p b v) {i : Instr}
    (hu : unassignedIn b.iss.cls v = false) (hi : decode v = .ok i) :
    nextWord b { s with cur := some (w, p) } = exec i { s with cur := some (w, p) } := by
  obtain ⟨-, -, -, -, -, -, hstall, hv⟩ := h
  simp [nextWord, hstall, hv, hu, hi]

/-- A word that does not decode traps its bundle with ILLEGAL-INSTRUCTION (R49). -/
theorem Stands.nextWord_of_error (h : Stands s w p b v) {e : DecodeError} (he : decode v = .error e) :
    nextWord b { s with cur := some (w, p) } =
        .next (trapWord b b.iss.lanes 0x02 { s with cur := some (w, p) }) := by
  obtain ⟨hb, hrun, -, -, -, -, hstall, hv⟩ := h
  cases hu : unassignedIn b.iss.cls v with
  | true =>
    simp only [nextWord, hstall, hv, hu, bne_self_eq_false, Bool.false_eq_true, if_false, if_true]
    exact exec_unassignedOpcode hb hv hrun hu
  | false => simp [nextWord, hstall, hv, hu, he]

/-! ### The step -/

@[simp] theorem State.newInstant_agenda (s : State) : s.newInstant.agenda = s.agenda := by
  unfold State.newInstant; split <;> rfl

@[simp] theorem State.newInstant_cur (s : State) : s.newInstant.cur = s.cur := by
  unfold State.newInstant; split <;> rfl

/-- A step takes the first happening of the agenda. -/
theorem step_of_agenda {a : Act} {rest : List Act} (h : s.agenda = a :: rest) :
    step s = runItem a { s.newInstant with agenda := rest } := by
  simp only [step, runNext, State.newInstant_agenda, h]

/-- With an empty agenda the current bundle goes on. -/
theorem Stands.step (ha : s.agenda = []) (hc : s.cur = some (w, p)) (h : Stands s.newInstant w p b v) :
    step s = nextWord b { s.newInstant with cur := some (w, p) } := by
  have hready : readyBundle s.newInstant = some (w, p) := by
    simp only [readyBundle, State.newInstant_cur, hc, Option.filter, h.bundleAt, Option.isSome_some, if_true]
  have hstep : Machine.step s = Machine.runPipe w p s.newInstant := by
    simp only [Machine.step, runNext, State.newInstant_agenda, ha, hready]
  rw [hstep, h.runPipe]

/-- A state at its current bundle names it. -/
theorem State.with_cur_newInstant (hc : s.cur = some (w, p)) :
    ({ s.newInstant with cur := some (w, p) } : State) = s.newInstant := by
  simp only [← hc, ← State.newInstant_cur s]

end Next

/-! ### A placed word (log entry 5) -/

/-- A bundle none of whose threads an abort has redirected keeps them between two words. -/
theorem redirected_of_no_redirect {b : Bundle}
    (h : ∀ l u, b.warp.thread l = some u → u.redirect = none) : redirected b = 0 := by
  refine laneFilter_none _ _ _ fun l _ _ => ?_
  cases hu : b.warp.thread l with
  | none => rfl
  | some u => simp [h l u hu]

/-- No thread of a new warp is redirected. -/
theorem newWarp_redirect {ctx kern share die index entry group now l : Nat} {block : Option Nat}
    {r : Launch} {q : Place} {u : Thread}
    (h : (newWarp ctx kern share die index entry group now block r q).thread l = some u) : u.redirect =
        none := by
  rw [List.eq_of_mem_replicate (List.mem_of_getElem? h)]
  rfl

/-- Without operations in flight no lane is stalled. -/
theorem stalledLanes_of_no_ops {s : State} (h : s.ops = []) (w : Nat) : stalledLanes s w = 0 := by
  simp only [stalledLanes, h, List.filter_nil, List.map_nil]
  rfl

/-- A word placed on the machine at reset is the next word of the current bundle, in an instant of its own. -/
theorem placeWord_reset (w : Nat) :
    (placeWord w State.reset).agenda = [] ∧ (placeWord w State.reset).cur = some (3, .a) ∧
    (placeWord w State.reset).newInstant = placeWord w State.reset ∧
    ∃ b, Stands (placeWord w State.reset) 3 .a b (BitVec.ofNat 64 w) ∧ b.iss.cls =
        (bits 60 4 (BitVec.ofNat 64 w)).toNat := by
  refine ⟨rfl, rfl, rfl, _, ⟨rfl, rfl, ?lanes, rfl, rfl,
      fun _ => redirected_of_no_redirect fun l u hu => ?threads, ?stalled, rfl⟩, rfl⟩
  case lanes => exact fun h => by cases congrArg BitVec.toNat h
  case threads =>
    obtain ⟨t, ht, rfl⟩ := Option.map_eq_some_iff.mp ((Warp.thread_mapLanes _ _ _ _).symm.trans hu)
    have hstay := newWarp_redirect ht
    split <;> exact hstay
  case stalled =>
    rw [stalledLanes_of_no_ops rfl]
    exact BitVec.and_zero

/-- A word that decodes is no unassigned word of its own class. -/
theorem unassignedIn_of_ok {v : Word64} {i : Instr} (h : decode v = .ok i) :
    unassignedIn (bits 60 4 v).toNat v = false := by
  simp [unassignedIn, h]

/-- Settles O56: the first happening of the agenda is a bundle's word, an event, a control or a tick;
without one the current bundle's
word runs; and `placeWord` makes its word that one. -/
theorem stepRunsDecodedWord : Obligations.StepRunsDecodedWord := by
  refine ⟨fun s w p rest b v i ha h hu hi => ?agenda, fun s w p b v i ha hc h hu hi => ?current,
      fun s w p b v e ha hc h he => ?undecoded,
    fun s i rest ha hi => ?event, fun s c rest ha => step_of_agenda ha,
        fun s n rest ha => step_of_agenda ha, fun w i hw hi => ?placed⟩
  case agenda =>
    rw [step_of_agenda ha]
    exact (Stands.runPipe h).trans (Stands.nextWord_of_ok h hu hi)
  case current =>
    rw [Stands.step ha hc h, Stands.nextWord_of_ok h hu hi, State.with_cur_newInstant hc]
  case undecoded =>
    rw [Stands.step ha hc h, Stands.nextWord_of_error h he, State.with_cur_newInstant hc]
  case event =>
    rw [step_of_agenda ha]
    simp only [runItem, hi, Option.isNone_none, if_true]
  case placed =>
    rw [State.withFetchWord, Nat.mod_eq_of_lt hw]
    obtain ⟨ha, hc, hinst, b, hb, hcls⟩ := placeWord_reset w
    have hb' : Stands (placeWord w State.reset).newInstant 3 .a b (BitVec.ofNat 64 w) := by rwa [hinst]
    rw [Stands.step ha hc hb', Stands.nextWord_of_ok hb' (hcls ▸ unassignedIn_of_ok hi) hi,
        State.with_cur_newInstant hc, hinst]

end Sys2Proof.Machine
end


section
/-! PROOFS. The branches: BRA, JMP, CALL and RET (R43, R143, R144). -/

namespace Sys2Proof.Machine

/-! ### Lanes of a bundle that trap one set after another -/

/-- The lanes a filter keeps. -/
theorem getLsbD_laneFilter_iff {w l : Nat} {m : Lanes} {p : Nat → Bool} :
    (laneFilter w m p).getLsbD l = true ↔ l < w ∧ m.getLsbD l = true ∧ p l = true := by
  have hlt : m.getLsbD l = true → l < 128 := BitVec.lt_of_getLsbD
  rw [getLsbD_laneFilter]
  simp only [Bool.and_eq_true, decide_eq_true_eq]
  tauto

/-- State `t` is `s` but that the lanes `gone` have left the clauses of the bundle's warp, which stands
as `y`: the other threads are as they
were, and no region of it is live. -/
def HasLeft (s : State) (b : Bundle) (gone : Nat → Prop) (t : State) (y : Warp) : Prop :=
  OnlyWarp b.w s t ∧ t.warp? b.w = some y ∧ y.regionLive = false ∧ y.ctx = b.warp.ctx ∧ y.width =
      b.warp.width ∧
    (∀ i, y.iss b.pipe = some i → ∀ l, gone l → i.lanes.getLsbD l = false) ∧
    ∀ l u, ¬ gone l → b.warp.thread l = some u → y.thread l = some u

/-- The lanes `m` of a bundle have not left it, and their threads run no handler. -/
def Remains (b : Bundle) (gone : Nat → Prop) (m : Lanes) : Prop :=
  ∀ l, m.getLsbD l = true → ¬ gone l ∧ ∃ u, b.warp.thread l = some u ∧ u.trap = .none

theorem HasLeft.none {s : State} {b : Bundle} (hb : s.bundle? = some b)
    (hr : b.warp.regionLive = false) : HasLeft s b (fun _ => False) s b.warp :=
  ⟨.refl _ _, (bundle_warp hb).1, hr, rfl, rfl, fun _ _ _ h => h.elim, fun _ _ _ h => h⟩

theorem OnlyWarp.ctx {w : Nat} {s t : State} (h : OnlyWarp w s t) (c : Nat) : t.ctx c = s.ctx c :=
  State.ctx_congr (by rw [h.1]) c

section

variable {s t : State} {b : Bundle} {gone : Nat → Prop} {y : Warp} {m : Lanes} {target : Nat → Nat}

/-- A trap of some of the lanes that have not left yet: they enter the handler, and those that have
left stay as they are. -/
theorem HasLeft.trapLanes {c : Nat} (h : HasLeft s b gone t y) (hv : (s.ctx b.warp.ctx).tvec ≠ 0)
    (hm : Remains b gone m) :
    ∃ z, HasLeft s b (fun l => gone l ∨
        l ∈ laneList b.warp.width m) (Machine.trapLanes b.w m b.at_ c target (fun _ => 0) t) z ∧
      (∀ l u, gone l → y.thread l = some u → z.thread l = some u) ∧
      ∀ l ∈ laneList b.warp.width m, ∀ u, b.warp.thread l = some u → ∃ v, z.thread l = some v ∧
          Entered s b c (target l) 0 u v := by
  obtain ⟨ho, hy, hlive, hctx, hwidth, hiss, hthr⟩ := h
  have hyn : ∀ l ∈ laneList y.width m, ∀ u, y.thread l = some u → u.trap = .none := fun l hl u hu => by
    obtain ⟨hnew, v, hv, hn⟩ := hm l ((mem_laneList _ _ _).mp hl).2
    obtain rfl := Option.some.inj ((hthr l v hnew hv).symm.trans hu)
    exact hn
  obtain ⟨ho', z, hz, hzlive, hzctx, hzwidth, hziss, hzthr⟩ := trapLanes_traps (m := m) (at_ :=
      b.at_) (c := c) (fa := target)
    (code := fun _ => 0) hy hlive (by rwa [ho.ctx, hctx]) hyn
  have hkeep : ∀ l u, l ∉ laneList b.warp.width m → y.thread l = some u → z.thread l = some u :=
      fun l u hl hu => by
    rw [hzthr l u hu, hwidth, if_neg hl]
  refine ⟨z, ⟨ho.trans ho', hz, hzlive, hzctx.trans hctx, hzwidth.trans hwidth,
      fun i hi l hl => ?lanes, fun l u hl hu => ?stay⟩,
    fun l u hl hu => hkeep l u (fun hl' => (hm l ((mem_laneList _ _ _).mp hl').2).1 hl) hu,
        fun l hl u hu => ?enter⟩
  case lanes =>
    rw [hziss] at hi
    obtain ⟨j, hj, rfl⟩ := Option.map_eq_some_iff.mp hi
    rcases hl with hl | hl
    · split <;> simp [hiss j hj l hl]
    · have hml := ((mem_laneList _ _ _).mp hl).2
      split
      · simp_all
      · simp [hml]
  case stay =>
    rw [not_or] at hl
    exact hkeep l u hl.2 (hthr l u hl.1 hu)
  case enter =>
    have htrap := hzthr l u (hthr l u (hm l ((mem_laneList _ _ _).mp hl).2).1 hu)
    rw [hwidth, if_pos hl, ho.ctx, hctx] at htrap
    exact ⟨_, htrap, entered_trapped⟩

/-- Lanes that jump: those of a bad target trap MISALIGNED there, and those that have left stay as they
are. -/
theorem HasLeft.jumpLanes (h : HasLeft s b gone t y) (hv : (s.ctx b.warp.ctx).tvec ≠ 0)
    (hm : Remains b gone m) (f : Thread → Thread) :
    ∃ z, (Machine.jumpLanes b m target f t).warp? b.w = some z ∧ (∀ l u, gone l → y.thread l = some u →
        z.thread l = some u) ∧
      ∀ l ∈ laneList b.warp.width m, ∀ u, b.warp.thread l = some u → target l % 8 ≠ 0 →
        ∃ v, z.thread l = some v ∧ Entered s b 0x07 (target l) 0 u v := by
  simp only [Machine.jumpLanes]
  set bad := laneFilter b.warp.width m fun l => target l % 8 != 0 with hbad
  have hmem : ∀ l, l ∈ laneList b.warp.width bad ↔ l ∈ laneList b.warp.width m ∧ target l % 8 ≠ 0 :=
      fun l => by
    simp only [hbad, mem_laneList, getLsbD_laneFilter_iff, bne_iff_ne]
    tauto
  obtain ⟨z, hz, hold, hent⟩ := h.trapLanes (m := bad) (c := 0x07) (target := target) hv
    fun l hl => hm l (getLsbD_laneFilter_iff.mp hl).2.1
  obtain ⟨-, hzw, -, -, -, hziss, -⟩ := hz
  set s1 := Machine.trapLanes b.w bad b.at_ 0x07 target (fun _ => 0) t
  obtain ⟨x, hx, hxt⟩ := finishTo_keeps b (fun l => if (m &&& ~~~ bad).getLsbD l then target l else b.next)
    (s := s1.mapLanes b.w (m &&& ~~~ bad) fun _ t => f t) (x := z.mapLanes (m &&& ~~~ bad) fun _ t => f t)
    (by rw [State.mapLanes, State.warp?_modWarp, hzw]; rfl)
  have hkeep : ∀ l u, (gone l ∨ l ∈ laneList b.warp.width bad) → z.thread l = some u → x.thread l =
      some u := fun l u hl hu => by
    have hgood : (m &&& ~~~ bad).getLsbD l = false := by
      rcases hl with hl | hl
      · cases hml : m.getLsbD l with
        | false => simp [hml]
        | true => exact absurd hl (hm l hml).1
      · simp [((mem_laneList _ _ _).mp hl).2]
    rw [hxt l fun i hi => hziss i (by simpa using hi) l hl, Warp.thread_mapLanes, hu, hgood]
    rfl
  refine ⟨x, hx, fun l u hl hu => hkeep l u (.inl hl) (hold l u hl hu), fun l hl u hu ht => ?_⟩
  have hlb := (hmem l).mpr ⟨hl, ht⟩
  obtain ⟨v, hv, hE⟩ := hent l hlb u hu
  exact ⟨v, hkeep l v (.inr hlb) hv, hE⟩

end

/-! ### Targets -/

/-- The target a branch forms in a lane (R43). -/
theorem branchTarget_eq_targetOf (b : Bundle) (o : FmtB) (l : Nat) :
    branchTarget b o l = targetOf o b.iss.hdr (laneVal b.warp l o.a false) := rfl

/-- The register a branch reads is the one it names. -/
theorem covers_srcsB (o : FmtB) (cls opc : Nat) (u : BUse) :
    Covers (o.info cls opc u).regs ((srcsB o).flatMap Src.regs) := by
  unfold srcsB FmtB.info
  cases o.ind with
  | false => exact covers_nil _
  | true =>
    exact covers_of_mem (List.mem_singleton_self _) fun x hx => mem_regRange.mp (by simpa [Src.regs] using hx)

/-- The guard-true lanes outside a handler have not left their bundle. -/
theorem remains_acting {i : Instr} {s : State} {b : Bundle} (hm : MayTrap i s b) :
    Remains b (fun _ => False) (acting i b) := fun l hl => by
  obtain ⟨-, -, hn⟩ := hm
  obtain ⟨u, hu⟩ := acting_thread hl
  exact ⟨not_false, u, hu, hn l ((mem_laneList _ _ _).mpr ⟨(acting_lt hl).1, hl⟩) u hu⟩

/-- Without a bad target the lanes of a word that ends its clause go where they should, and the rest of
the bundle falls through. -/
theorem jumpLanes_goes {i : Instr} {s : State} {b : Bundle} {target : Nat → Nat} {f : Thread → Thread}
    (hb : s.bundle? = some b)
    (hlast : b.isLast = true) (hr : ∀ u, (f u).redirect = u.redirect) (hgood : ∀ l ∈ actors i b,
        target l % 8 = 0) :
    Goes i b (fun l => if (acting i b).getLsbD l then target l else b.next) f s (jumpLanes b
        (acting i b) target f s) := by
  have hbad : laneFilter b.warp.width (acting i b) (fun l => target l % 8 != 0) = 0 :=
    laneFilter_none _ _ _ fun l hl hm => by simp [hgood l ((mem_laneList _ _ _).mpr ⟨hl, hm⟩)]
  simp only [jumpLanes, hbad, trapLanes_none, lanes_and_all]
  exact goes_finish hb hlast f hr _

/-! ### The four words -/

theorem exec_bra {o : FmtB} {s : State} {b : Bundle} (h : Runs (.bra o) s b) (hf : NamedFull (.bra o) b) :
    exec (.bra o) s = .next (jumpLanes b (acting (.bra o) b) (branchTarget b o) id s) := by
  show execBra o s = _
  rw [execBra, runWord_next _ h, withOperands_act hf rfl (covers_srcsB o _ _ _) (covers_nil _)]

theorem exec_jmp {o : FmtB} {s : State} {b : Bundle} (h : Leads (.jmp o) s b) :
    exec (.jmp o) s = .next (jumpLanes b (acting (.jmp o) b) (fun _ => branchTarget b o (leader
        (.jmp o) b)) id s) := by
  show execJmp o s = _
  rw [execJmp, runWord_next _ h.1, withLeader_act h rfl (covers_srcsB o _ _ _) rfl]

/-- The guard-true lanes of a CALL whose target passes and whose stack is full (R144). -/
def callFull (o : FmtB) (b : Bundle) : Lanes :=
  laneFilter b.warp.width (acting (.call o) b) fun l =>
    branchTarget b o l % 8 == 0 && ((b.warp.thread l).map fun t => decide (16 ≤ t.rstack.length)).getD false

theorem exec_call {o : FmtB} {s : State} {b : Bundle} (h : Runs (.call o) s b) (hf : NamedFull (.call o) b) :
    exec (.call o) s = .next (jumpLanes b (acting (.call o) b &&& ~~~ callFull o b) (branchTarget b o)
      (fun t => { t with rstack := b.next :: t.rstack }) (trapLanes b.w (callFull o b) b.at_ 0x0B
          (fun _ => b.next) (fun _ => 0) s)) := by
  show execCall o s = _
  rw [execCall, runWord_next _ h, withOperands_act hf rfl (covers_srcsB o _ _ _) (covers_nil _)]
  rfl

/-- The guard-true lanes of a RET whose stack is empty (R144). -/
def retVoid (o : FmtB) (b : Bundle) : Lanes :=
  laneFilter b.warp.width (acting (.ret o) b) fun l =>
      ((b.warp.thread l).map fun t => t.rstack.isEmpty).getD false

theorem exec_ret {o : FmtB} {s : State} {b : Bundle} (h : Runs (.ret o) s b) :
    exec (.ret o) s = .next (jumpLanes b (acting (.ret o) b &&& ~~~ retVoid o b)
      (fun l => ((b.warp.thread l).map fun t => t.rstack.headD 0).getD 0)
          (fun t => { t with rstack := t.rstack.tail })
      (trapLanes b.w (retVoid o b) b.at_ 0x0B (fun _ => 0) (fun _ => 0) s)) := by
  show execRet o s = _
  rw [execRet, runWord_next _ h]
  rfl

/-- A jump of every guard-true lane raises MISALIGNED for those of a bad target (R143). -/
theorem raises_of_jump {i : Instr} {s : State} {b : Bundle} {target : Nat → Nat} {f : Thread → Thread}
    (hb : s.bundle? = some b)
    (hm : MayTrap i s b) (he : exec i s = .next (jumpLanes b (acting i b) target f s)) :
    Raises i s b 0x07 (fun l _ => target l % 8 ≠ 0) target := by
  have hrem := remains_acting hm
  obtain ⟨hr, hv, -⟩ := hm
  obtain ⟨z, hz, -, hent⟩ := (HasLeft.none hb hr).jumpLanes (target := target) hv hrem f
  exact ⟨_, he, z, hz, fun l hl u hu ht => hent l hl u hu ht⟩

/-- A word of two stages: the lanes `out` of the guard-true ones trap, and the others jump. -/
theorem raises_of_trap_jump {i : Instr} {s : State} {b : Bundle} {out : Nat → Bool} {cause : Nat}
    {addr target : Nat → Nat} {f : Thread → Thread}
    (hb : s.bundle? = some b) (hm : MayTrap i s b)
    (he : exec i s = .next (jumpLanes b (acting i b &&& ~~~ laneFilter b.warp.width (acting i b) out) target f
      (trapLanes b.w (laneFilter b.warp.width (acting i b) out) b.at_ cause addr (fun _ => 0) s))) :
    Raises i s b cause (fun l _ => out l = true) addr ∧ Raises i s b 0x07 (fun l _ => out l = false ∧
        target l % 8 ≠ 0) target := by
  have hin : ∀ l, (laneFilter b.warp.width (acting i b) out).getLsbD l = true ↔
      (acting i b).getLsbD l = true ∧ out l = true := fun l => by
    have hwidth : (acting i b).getLsbD l = true → l < b.warp.width := fun h => (acting_lt h).1
    rw [getLsbD_laneFilter_iff]
    tauto
  have hrem := remains_acting hm
  obtain ⟨hr, hv, -⟩ := hm
  obtain ⟨y, hy, -, hent⟩ := (HasLeft.none hb hr).trapLanes (c := cause) (target :=
      addr) hv fun l hl => hrem l ((hin l).mp hl).1
  obtain ⟨z, hz, hold, hent'⟩ := hy.jumpLanes (target := target) hv (m :=
      acting i b &&& ~~~ laneFilter b.warp.width (acting i b) out)
    (fun l hl => by
      simp only [BitVec.getLsbD_and, BitVec.getLsbD_not, Bool.and_eq_true, Bool.not_eq_true',
          decide_eq_true_eq] at hl
      obtain ⟨hl, -, hout⟩ := hl
      refine ⟨?_, (hrem l hl).2⟩
      simp only [false_or, mem_laneList, hout, Bool.false_eq_true, and_false, not_false_eq_true]) f
  refine ⟨⟨_, he, z, hz, fun l hl u hu ho => ?out⟩, ⟨_, he, z, hz, fun l hl u hu ho => ?jump⟩⟩
  all_goals obtain ⟨hw, hl⟩ := (mem_laneList _ _ _).mp hl
  case out =>
    have hlist : l ∈ laneList b.warp.width (laneFilter b.warp.width (acting i b) out) :=
        (mem_laneList _ _ _).mpr ⟨hw, (hin l).mpr ⟨hl, ho⟩⟩
    obtain ⟨v, hv, hE⟩ := hent l hlist u hu
    exact ⟨v, hold l v (.inr hlist) hv, hE⟩
  case jump =>
    refine hent' l ((mem_laneList _ _ _).mpr ⟨hw, ?_⟩) u hu ho.2
    have hnot : (laneFilter b.warp.width (acting i b) out).getLsbD l = false := by
      rw [Bool.eq_false_iff, Ne, hin, ho.1]
      simp
    simp only [BitVec.getLsbD_and, BitVec.getLsbD_not, hl, hnot, (acting_lt hl).2, decide_true,
        Bool.not_false, Bool.and_self]

/-- Settles O10: what traps by the two stages of each word, what goes by the end of its clause. -/
theorem branchWords : Obligations.BranchWords := by
  refine ⟨fun o s b h hf hm => raises_of_jump h.1 hm (exec_bra h hf),
    fun o s b h hm => ?jmpRaises, fun o s b h hf hm => ?callRaises, fun o s b h hm => ?retRaises,
        fun o s b h hf hgood => ?bra, fun o s b h hgood => ?jmp,
    fun o s b h hf hgood => ?call, fun o s b h hgood => ?ret⟩
  case jmpRaises =>
    intro goal hgoal
    obtain ⟨t, he, y, hy, hent⟩ := raises_of_jump h.1.1 hm (exec_jmp h)
    exact ⟨t, he, y, hy, fun l hl u hu _ => hent l hl u hu hgoal⟩
  case callRaises =>
    obtain ⟨⟨t, he, y, hy, hent⟩, ⟨t', he', y', hy', hent'⟩⟩ := raises_of_trap_jump h.1 hm (exec_call h hf)
    refine ⟨⟨t', he', y', hy', fun l hl u hu ht => hent' l hl u hu ⟨?_, ht⟩⟩, ⟨t, he, y, hy,
        fun l hl u hu hw => hent l hl u hu ?_⟩⟩
    · rw [Bool.and_eq_false_iff, beq_eq_false_iff_ne]
      exact .inl ht
    · simpa [hu, branchTarget_eq_targetOf] using hw
  case retRaises =>
    obtain ⟨t, he, y, hy, hent⟩ := (raises_of_trap_jump h.1 hm (exec_ret h)).1
    exact ⟨t, he, y, hy, fun l hl u hu hw => hent l hl u hu (by simp [hu, hw])⟩
  case bra => exact ⟨_, exec_bra h hf, jumpLanes_goes h.1 ((h.check4 rfl).2 rfl) (fun _ => rfl) hgood⟩
  case jmp =>
    exact ⟨_, exec_jmp h, jumpLanes_goes h.1.1 ((h.1.check4 rfl).2 rfl) (fun _ => rfl) fun _ _ => hgood⟩
  case call =>
    have hfull : callFull o b = 0 := laneFilter_none _ _ _ fun l hl hm => by
      obtain ⟨ht, hlen⟩ := hgood l ((mem_laneList _ _ _).mpr ⟨hl, hm⟩)
      cases hu : b.warp.thread l with
      | none => simp
      | some u => simp [hlen u hu]
    refine ⟨_, exec_call h hf, ?_⟩
    rw [hfull, trapLanes_none, lanes_and_all]
    exact jumpLanes_goes h.1 ((h.check4 rfl).2 rfl) (fun _ => rfl) fun l hl => (hgood l hl).1
  case ret =>
    have hvoid : retVoid o b = 0 := laneFilter_none _ _ _ fun l hl hm => by
      obtain ⟨ht, hne⟩ := hgood l ((mem_laneList _ _ _).mpr ⟨hl, hm⟩)
      cases hu : b.warp.thread l with
      | none => simp
      | some u => simp [hne u hu]
    have htop : (fun l => ((b.warp.thread l).map fun t => t.rstack.headD 0).getD 0) =
        fun l => ((b.warp.thread l).bind fun u => u.rstack.head?).getD 0 := funext fun l => by
      cases b.warp.thread l with
      | none => rfl
      | some u => simp [List.headD_eq_head?_getD]
    refine ⟨_, exec_ret h, ?_⟩
    rw [hvoid, trapLanes_none, lanes_and_all, htop]
    exact jumpLanes_goes h.1 ((h.check4 rfl).2 rfl) (fun _ => rfl) fun l hl => (hgood l hl).1

end Sys2Proof.Machine
end


section
/-! PROOFS. Words that fail a check: empty registers, static checks, and a second exception (R49, R36,
R98, R99, R153, R314). -/

namespace Sys2Proof.Machine

/-! ### Empty registers, as the operand forms see them -/

/-- A field names an empty register of a thread under its trap-on-empty bit. -/
theorem emptyTrap_src (u : Thread) (r : BitVec 9) (e z : Bool) :
    u.emptyTrap (src r 1 e z) = true ↔ e = true ∧ Lacks u r z := by
  cases z <;> simp [Thread.emptyTrap, src, Thread.anyEmpty, Src.regs, regRange, Lacks]

theorem mustWait_src (u : Thread) (r : BitVec 9) (e z : Bool) :
    u.mustWait (src r 1 e z) [] = true ↔ Lacks u r z := by
  cases z <;> simp [Thread.mustWait, src, Thread.anyEmpty, Src.regs, regRange, Lacks]

theorem emptyTrap_append (u : Thread) (xs ys : List Src) :
    u.emptyTrap (xs ++ ys) = (u.emptyTrap xs || u.emptyTrap ys) := List.any_append

/-- A word waits for its sources and for its destination. -/
theorem mustWait_append (u : Thread) (xs ys : List Src) (d : BitVec 9) :
    u.mustWait (xs ++ ys) [d.toNat] = true ↔ u.mustWait xs [] = true ∨ u.mustWait ys [] = true ∨
        Lacks u d false := by
  simp [Thread.mustWait, Thread.anyEmpty, Lacks, or_assoc]

theorem emptyTrap_srcsR (u : Thread) (o : FmtR) :
    u.emptyTrap (srcsR o 1 1 0) = true ↔ o.ea = true ∧ Lacks u o.a o.za ∨ o.eb = true ∧ Lacks u o.b o.zb := by
  simp only [srcsR, one_ne_zero, if_false, if_true, List.append_nil, emptyTrap_append, Bool.or_eq_true,
      emptyTrap_src]

theorem mustWait_srcsR (u : Thread) (o : FmtR) :
    u.mustWait (srcsR o 1 1 0) [o.d.toNat] = true ↔ Lacks u o.a o.za ∨ Lacks u o.b o.zb ∨
        Lacks u o.d false := by
  simp only [srcsR, one_ne_zero, if_false, if_true, List.append_nil, mustWait_append, mustWait_src]

theorem emptyTrap_srcsI (u : Thread) (o : FmtI) :
    u.emptyTrap (srcsI o) = true ↔ o.ea = true ∧ Lacks u o.a o.za := emptyTrap_src ..

theorem mustWait_srcsI (u : Thread) (o : FmtI) :
    u.mustWait (srcsI o) [o.d.toNat] = true ↔ Lacks u o.a o.za ∨ Lacks u o.d false := by
  have h := mustWait_append u (srcsI o) [] o.d
  rw [List.append_nil, srcsI, mustWait_src] at h
  rw [srcsI, h]
  simp [Thread.mustWait, Thread.anyEmpty]

/-! ### One lane's words -/

/-- A word that is `laneWord` over `ss` and `ds`, whatever it computes. -/
def OneLane (i : Instr) (ss : List Src) (ds : List Nat) : Prop := ∃ f, ∀ s, exec i s = laneWord i ss ds f s

/-- Where no guard-true lane has an empty source under its bit and one waits for a register, a word of
one lane each blocks. -/
theorem OneLane.blocks {i : Instr} {ss : List Src} {ds : List Nat} (hi : OneLane i ss ds) {s : State}
    {b : Bundle} (h : Runs i s b)
    (hn : ∀ l ∈ actors i b, ∀ u, b.warp.thread l = some u → ¬ u.emptyTrap ss = true)
    (hw : ∃ l ∈ actors i b, ∃ u, b.warp.thread l = some u ∧ u.mustWait ss ds = true) : exec i s =
        .next (blockWord b s) := by
  obtain ⟨f, hf⟩ := hi
  rw [hf, laneWord, runWord_next _ h,
      withOperands_blocks (fun l hl u hu => Bool.eq_false_iff.mpr (hn l hl u hu)) hw]

/-- A lane with an empty source under its bit raises EMPTY-READ. -/
theorem OneLane.raises {i : Instr} {ss : List Src} {ds : List Nat} (hi : OneLane i ss ds) {s : State}
    {b : Bundle} (h : Runs i s b)
    (hm : MayTrap i s b) : Raises i s b 0x04 (fun _ u => u.emptyTrap ss = true) fun _ => 0 := by
  obtain ⟨f, hf⟩ := hi
  obtain ⟨t, ht, hy⟩ := laneWord_raises (ss := ss) (ds := ds) (f := f) h hm
  exact ⟨t, (hf s).trans ht, hy⟩

theorem oneLane_of_binaryR {i : Instr} {o : FmtR} (h : ∃ f, ∀ s, exec i s = binaryR i o f s) :
    OneLane i (srcsR o 1 1 0) [o.d.toNat] :=
  have ⟨_, hf⟩ := h; ⟨_, hf⟩

theorem oneLane_of_floatR2 {i : Instr} {o : FmtR} (h : ∃ f, ∀ s, exec i s = floatR2 i o f s) :
    OneLane i (srcsR o 1 1 0) [o.d.toNat] :=
  have ⟨_, hf⟩ := h; ⟨_, hf⟩

theorem oneLane_of_binaryI {i : Instr} {o : FmtI} (h : ∃ f, ∀ s, exec i s = binaryI i o f s) :
    OneLane i (srcsI o) [o.d.toNat] :=
  have ⟨_, hf⟩ := h; ⟨_, hf⟩

theorem oneLane_of_floatI2 {i : Instr} {o : FmtI} (h : ∃ f, ∀ s, exec i s = floatI2 i o f s) :
    OneLane i (srcsI o) [o.d.toNat] :=
  have ⟨_, hf⟩ := h; ⟨_, hf⟩

/-- The two-register words of classes 0 and 4: the integer ones, then the floating and packed ones. -/
theorem oneLane_regs (o : FmtR) :
    ∀ i ∈ [Instr.iadd o, .isub o, .imul o, .imulh o, .imin o, .imax o, .shl o, .shr o, .sar o, .bfx o,
    .fadd o,
    .fsub o, .fmul o, .fmin o, .fmax o, .fmaxa o, .hadd2 o, .hmul2 o, .hmax2 o],
        OneLane i (srcsR o 1 1 0) [o.d.toNat] := by
  have hint : ∀ i ∈ [Instr.iadd o, .isub o, .imul o, .imulh o, .imin o, .imax o, .shl o, .shr o,
      .sar o, .bfx o],
      ∃ f, ∀ s, exec i s = binaryR i o f s := by
    simp only [List.forall_mem_cons]
    exact ⟨⟨_, fun _ => rfl⟩, ⟨_, fun _ => rfl⟩, ⟨_, fun _ => rfl⟩, ⟨_, fun _ => rfl⟩, ⟨_,
        fun _ => rfl⟩, ⟨_, fun _ => rfl⟩, ⟨_, fun _ => rfl⟩,
      ⟨_, fun _ => rfl⟩, ⟨_, fun _ => rfl⟩, ⟨_, fun _ => rfl⟩, List.forall_mem_nil _⟩
  have hfloat : ∀ i ∈ [Instr.fadd o, .fsub o, .fmul o, .fmin o, .fmax o, .fmaxa o, .hadd2 o, .hmul2 o,
      .hmax2 o],
      ∃ f, ∀ s, exec i s = floatR2 i o f s := by
    simp only [List.forall_mem_cons]
    exact ⟨⟨_, fun _ => rfl⟩, ⟨_, fun _ => rfl⟩, ⟨_, fun _ => rfl⟩, ⟨_, fun _ => rfl⟩, ⟨_,
        fun _ => rfl⟩, ⟨_, fun _ => rfl⟩, ⟨_, fun _ => rfl⟩,
      ⟨_, fun _ => rfl⟩, ⟨_, fun _ => rfl⟩, List.forall_mem_nil _⟩
  exact List.forall_mem_append.mpr ⟨fun i hi => oneLane_of_binaryR (hint i hi),
      fun i hi => oneLane_of_floatR2 (hfloat i hi)⟩

/-- The immediate words: the integer ones, then the floating ones. -/
theorem oneLane_imms (o : FmtI) :
    ∀ i ∈ [Instr.iaddImm o, .isubImm o, .imulImm o, .imulhImm o, .iminImm o, .imaxImm o, .shlImm o,
    .shrImm o,
    .sarImm o, .faddImm o, .fsubImm o, .fmulImm o, .fminImm o, .fmaxImm o],
        OneLane i (srcsI o) [o.d.toNat] := by
  have hint : ∀ i ∈ [Instr.iaddImm o, .isubImm o, .imulImm o, .imulhImm o, .iminImm o, .imaxImm o,
      .shlImm o, .shrImm o, .sarImm o],
      ∃ f, ∀ s, exec i s = binaryI i o f s := by
    simp only [List.forall_mem_cons]
    exact ⟨⟨_, fun _ => rfl⟩, ⟨_, fun _ => rfl⟩, ⟨_, fun _ => rfl⟩, ⟨_, fun _ => rfl⟩, ⟨_,
        fun _ => rfl⟩, ⟨_, fun _ => rfl⟩, ⟨_, fun _ => rfl⟩,
      ⟨_, fun _ => rfl⟩, ⟨_, fun _ => rfl⟩, List.forall_mem_nil _⟩
  have hfloat : ∀ i ∈ [Instr.faddImm o, .fsubImm o, .fmulImm o, .fminImm o, .fmaxImm o], ∃ f, ∀ s,
      exec i s = floatI2 i o f s := by
    simp only [List.forall_mem_cons]
    exact ⟨⟨_, fun _ => rfl⟩, ⟨_, fun _ => rfl⟩, ⟨_, fun _ => rfl⟩, ⟨_, fun _ => rfl⟩, ⟨_,
        fun _ => rfl⟩, List.forall_mem_nil _⟩
  exact List.forall_mem_append.mpr ⟨fun i hi => oneLane_of_binaryI (hint i hi),
      fun i hi => oneLane_of_floatI2 (hfloat i hi)⟩

/-! ### Cross-lane words (R153) -/

/-- A word that is `crossWord` over `ss` and `ds`, whatever it computes. -/
def CrossLane (i : Instr) (ss : List Src) (ds : List Nat) :
    Prop := ∃ f fl, ∀ s, exec i s = crossWord i ss ds f fl s

theorem crossLane_permutes (o : FmtR) :
    ∀ i ∈ [Instr.lshuf o, .lxor o], CrossLane i (srcsR o 1 1 0) [o.d.toNat] := by
  simp only [List.forall_mem_cons]
  exact ⟨⟨_, _, fun s => show execLshuf o s = _ from rfl⟩, ⟨_, _, fun s => show execLxor o s =
      _ from rfl⟩, List.forall_mem_nil _⟩

/-- Some guard-true thread has a property. -/
theorem any_actor {i : Instr} {b : Bundle} (p : Thread → Bool) :
    ((actors i b).filterMap b.warp.thread).any p = true ↔ ∃ l ∈ actors i b, ∃ u, b.warp.thread l =
        some u ∧ p u = true := by
  simp only [List.any_eq_true, List.mem_filterMap]
  constructor
  · rintro ⟨u, ⟨l, hl, hu⟩, hp⟩
    exact ⟨l, hl, u, hu, hp⟩
  · rintro ⟨l, hl, u, hu, hp⟩
    exact ⟨u, ⟨l, hl, hu⟩, hp⟩

/-- One empty source under its bit traps every participating lane. -/
theorem CrossLane.traps {i : Instr} {ss : List Src} {ds : List Nat} (hi : CrossLane i ss ds)
    {s : State} {b : Bundle} (h : Runs i s b)
    (he : ∃ l ∈ actors i b, ∃ u, b.warp.thread l = some u ∧ u.emptyTrap ss = true) :
    exec i s = .next (trapWord b (acting i b) 0x04 s) := by
  obtain ⟨f, fl, hf⟩ := hi
  rw [hf, crossWord, runWord_next _ h, crossOperands]
  exact congrArg Host.Outcome.next (if_pos ((any_actor fun u => u.emptyTrap ss).mpr he))

/-- Without one, an empty source or destination of a participating lane blocks the word. -/
theorem CrossLane.blocks {i : Instr} {ss : List Src} {ds : List Nat} (hi : CrossLane i ss ds)
    {s : State} {b : Bundle} (h : Runs i s b)
    (hn : ¬ ∃ l ∈ actors i b, ∃ u, b.warp.thread l = some u ∧ u.emptyTrap ss = true)
    (hw : ∃ l ∈ actors i b, ∃ u, b.warp.thread l = some u ∧ u.mustWait ss ds = true) : exec i s =
        .next (blockWord b s) := by
  obtain ⟨f, fl, hf⟩ := hi
  rw [hf, crossWord, runWord_next _ h, crossOperands]
  exact congrArg Host.Outcome.next ((if_neg (mt (any_actor fun u => u.emptyTrap ss).mp hn)).trans
    (if_pos ((any_actor fun u => u.mustWait ss ds).mpr hw)))

/-! ### Memory words -/

/-- A load or store of format M, as `memWord`. -/
theorem exec_eq_memWord (o : FmtM) :
    ∀ i ∈ [Instr.ldb o, .stb o, .ldd o, .std o, .ldk o, .stk o],
      ∃ sp store, ∀ s, exec i s = memWord i o sp store s := by
  simp only [List.forall_mem_cons]
  exact ⟨⟨_, _, fun _ => rfl⟩, ⟨_, _, fun _ => rfl⟩, ⟨_, _, fun _ => rfl⟩, ⟨_, _, fun _ => rfl⟩,
    ⟨_, _, fun _ => rfl⟩, ⟨_, _, fun _ => rfl⟩, List.forall_mem_nil _⟩

/-- A memory word whose address register is empty in every guard-true lane needs no table entry, and
blocks. -/
theorem memWord_blocks {i : Instr} {o : FmtM} {sp : Space} {store : Bool} {s : State} {b : Bundle}
    (h : Runs i s b) (h0 : acting i b ≠ 0)
    (he : o.ea = false) (hl : ∀ l ∈ actors i b, ∀ u, b.warp.thread l = some u → Lacks u o.a o.za) :
    memWord i o sp store s = .next (blockWord b s) := by
  have hfull : (laneList b.warp.width (acting i b)).filter (fun l =>
      ((b.warp.thread l).map fun t => !(src o.a 1 o.ea o.za).any fun x => t.anyEmpty x.regs).getD false) = [] := by
    rw [List.filter_eq_nil_iff]
    intro l hm
    cases hu : b.warp.thread l with
    | none => simp
    | some u =>
      have hwait := (mustWait_src u o.a o.ea o.za).mpr (hl l hm u hu)
      simp only [Thread.mustWait, Thread.anyEmpty, List.any_nil, Bool.or_false] at hwait
      simp [Thread.anyEmpty, hwait]
  rw [memWord, runWord_next _ h]
  simp only [hfull, List.filter_nil, List.map_nil, List.dedup_nil, List.length_nil, bne_self_eq_false,
      Bool.false_and, h0, if_false,
    Bool.false_eq_true]
  obtain ⟨l, hlm⟩ := List.exists_mem_of_ne_nil _ (exists_actor h0)
  obtain ⟨u, hu⟩ := acting_thread ((mem_laneList _ _ _).mp hlm).2
  rw [withOperands_blocks (fun l _ u _ => ?_) ⟨l, hlm, u, hu, (mustWait_src ..).mpr (hl l hlm u hu)⟩]
  simp [Thread.emptyTrap, src, he]

/-! ### Static checks and second exceptions -/

/-- A bundle's word that waits is marked so, since it first had to (R25). -/
theorem blockWord_eq {s : State} {b : Bundle} (hb : s.bundle? = some b) :
    blockWord b s = s.setWarp b.w (b.warp.setIss b.pipe (some { b.iss with
    blocked := true, grant := .none, since := some (b.iss.since.getD (s.die b.warp.die).time) })) := by
  obtain ⟨hw, hi⟩ := bundle_warp hb
  simp only [blockWord, State.modIss, State.modWarp, hw, hi, Option.map_some, Issue.block]

/-- A word of another class than its clause's fails check 1 (R49). -/
theorem staticTrap_of_class {i : Instr} {b : Bundle} {k : WordInfo}
    (hk : i.info b.warp.width = some k) (hc : k.cls ≠ b.iss.cls) :
    staticTrap i b = some 2 := by
  simp [staticTrap, hk, hc]

/-- Every word begins with its static checks, and a word that fails one traps its bundle (R49): the
meaning of each constructor, run as far
as the bundle it looks for, is the frame of `runWord`. -/
theorem exec_of_staticTrap {i : Instr} {s : State} {b : Bundle} {c : Nat} (hb : s.bundle? = some b)
    (hc : staticTrap i b = some c) :
    exec i s = .next (trapWord b b.iss.lanes c s) := by
  have hword : ∃ k, i.info b.warp.width = some k := by
    cases h : i.info b.warp.width with
    | none => simp [staticTrap, h] at hc
    | some k => exact ⟨k, rfl⟩
  obtain ⟨k, hk⟩ := hword
  cases i
  all_goals cases hk
  all_goals
    conv_lhs => whnf
    simp only [hb, hc]

/-- The effects of an exception of a thread in a handler, and of one in a context without a handler, as
they end the context (R314). -/
theorem enterTrap_of_handler {w l c a : Nat} {at_ : WordAt} {x : Word} {g : Option Nat} {s : State}
    {y : Warp} {u : Thread}
    (hy : s.warp? w = some y) (hu : y.thread l = some u) (ht : u.trap ≠ none) :
    enterTrap w l at_ c a x g s = endContext y.ctx 0x02 { causeThread s w l c at_.hdr with addr := a } s := by
  simp only [enterTrap, hy, hu, Option.isSome_iff_ne_none.mpr ht, if_true]

theorem enterTrap_of_no_tvec {w l c a : Nat} {at_ : WordAt} {x : Word} {g : Option Nat} {s : State}
    {y : Warp} {u : Thread}
    (hy : s.warp? w = some y) (hu : y.thread l = some u) (ht : u.trap = none) (hv : (s.ctx y.ctx).tvec = 0) :
    enterTrap w l at_ c a x g s = endContext y.ctx 0x03 { causeThread s w l c at_.hdr with addr := a } s := by
  simp only [enterTrap, hy, hu, ht, hv, Option.isSome_none, Bool.false_eq_true, if_false, if_true]

/-- Settles O32: check 7 of R49 for each shape of word by what its operand form finds empty, then
checks 1 to 5 and the second exception. -/
theorem staticTraps : Obligations.StaticTraps := by
  refine ⟨fun o s b i hi h => ⟨fun hn hw => ?regsBlock, fun hm => ?regsRaise⟩,
      fun o s b i hi h => ⟨fun hn hw => ?immsBlock, fun hm => ?immsRaise⟩,
    fun o s b i hi h => ⟨fun he => ?crossTrap, fun hn hw => ?crossBlock⟩, fun o s b i hi h h0 he hl => ?mem,
    fun s b hb => blockWord_eq hb, fun i s b c hb hc => ?static, fun i b k hk hc => staticTrap_of_class hk hc,
    fun _ _ _ _ _ _ _ _ _ _ hy hu ht => enterTrap_of_handler hy hu ht,
        fun _ _ _ _ _ _ _ _ _ _ hy hu ht hv => enterTrap_of_no_tvec hy hu ht hv⟩
  case regsBlock =>
    exact (oneLane_regs o i hi).blocks h (by simpa only [emptyTrap_srcsR] using hn)
      (by simpa only [mustWait_srcsR] using hw)
  case regsRaise => simpa only [emptyTrap_srcsR] using (oneLane_regs o i hi).raises h hm
  case immsBlock =>
    exact (oneLane_imms o i hi).blocks h (by simpa only [emptyTrap_srcsI] using hn)
      (by simpa only [mustWait_srcsI] using hw)
  case immsRaise => simpa only [emptyTrap_srcsI] using (oneLane_imms o i hi).raises h hm
  case crossTrap => exact (crossLane_permutes o i hi).traps h (by simpa only [emptyTrap_srcsR] using he)
  case crossBlock =>
    exact (crossLane_permutes o i hi).blocks h (by simpa only [emptyTrap_srcsR] using hn)
        (by simpa only [mustWait_srcsR] using hw)
  case mem =>
    obtain ⟨sp, store, hexec⟩ := exec_eq_memWord o i hi
    rw [hexec, memWord_blocks h h0 he hl]
  case static => exact exec_of_staticTrap hb hc

end Sys2Proof.Machine
end


section
/-! PROOFS. The slice: clause issue, parking, blocked words and code fetch (R23, R25, R28, R138, R140,
R141, R309). -/

namespace Sys2Proof.Machine

/-! ### What each event of a slice runs -/

theorem exec_clauseIssue (w lane : Nat) (pipe : Pipe) (s : State) :
    exec (.clauseIssue w lane pipe) s = execClauseIssue w lane pipe s := rfl

theorem exec_bundlePark (w : Nat) (pipe : Pipe) (s : State) :
    exec (.bundlePark w pipe) s = execBundlePark w pipe s := rfl

theorem exec_blockedRegisterFill (w lane : Nat) (s : State) :
    exec (.blockedRegisterFill w lane) s = execBlockedRegisterFill w lane s := rfl

theorem exec_codeFetch (w lane : Nat) (s : State) : exec (.codeFetch w lane) s = execCodeFetch w lane s := rfl

/-! ### Clause issue (R140, R309) -/

section

/-- The slice of warp `w` has selected it, and its first bundle, which lane `lane` is in, may issue on
`pipe`. -/
def MayIssue (w lane : Nat) (pipe : Pipe) (s : State) (x : Warp) (first : Choice)
    (rest : List Choice) : Prop :=
  s.warp? w = some x ∧ (∃ c, selected s (candidates s x.die x.core x.slice) = some c ∧ c.w = w ∧ c.cs =
      first :: rest) ∧
    first.lanes.getLsbD lane = true ∧ pipeFree s x.die x.core x.slice pipe = true

/-- The state once the slice's first bundle has issued. -/
def firstIssued (w : Nat) (pipe : Pipe) (s : State) (x : Warp) (first : Choice) : State :=
  issueBundle w first pipe (notePassed w (candidates s x.die x.core x.slice)
      (sliceWarps s x.die x.core x.slice) s)

variable {w lane : Nat} {pipe : Pipe} {s : State} {x : Warp} {first : Choice} {rest : List Choice}

/-- With the other pipe taken the slice issues the one bundle. -/
theorem MayIssue.exec_of_one_pipe (h : MayIssue w lane pipe s x first rest)
    (hone : (pipeFree s x.die x.core x.slice .a && pipeFree s x.die x.core x.slice .b) = false) :
    exec (.clauseIssue w lane pipe) s = .next (pruneFetched w (firstIssued w pipe s x first)) := by
  obtain ⟨hx, ⟨c, hsel, hcw, hcs⟩, hlane, hfree⟩ := h
  simp [exec_clauseIssue, execClauseIssue, hx, hsel, hcw, hcs, hlane, hfree, hone, firstIssued]

/-- With both pipes free the second bundle of the warp, if there is one, goes to pipe B. -/
theorem MayIssue.exec_of_both_pipes (h : MayIssue w lane .a s x first rest)
    (hb : pipeFree s x.die x.core x.slice .b = true) :
    exec (.clauseIssue w lane .a) s = .next (pruneFetched w (match rest with
      | second :: _ => issueBundle w second .b (firstIssued w .a s x first)
      | [] => firstIssued w .a s x first)) := by
  obtain ⟨hx, ⟨c, hsel, hcw, hcs⟩, hlane, hfree⟩ := h
  have hpipe : (Pipe.a == Pipe.b) = false := rfl
  simp only [exec_clauseIssue, execClauseIssue, hx, hsel, hcw, hcs, hlane, hfree, hb, hpipe,
      firstIssued, bne_self_eq_false, Bool.not_true,
    Bool.or_false, Bool.and_false, Bool.and_self, Bool.false_eq_true, if_false]
  cases rest <;> rfl

end

/-! ### Parking and blocked words (R25, R138) -/

/-- A word that has waited 256 cycles leaves its pipe: its bundle parks under a new name, which takes
its place where it waited. -/
theorem exec_bundlePark_of_due {w : Nat} {pipe : Pipe} {s : State} {x : Warp} {i : Issue} {t : Nat}
    (hx : s.warp? w = some x)
    (hi : x.iss pipe = some i) (hblocked : i.blocked = true) (hsince : i.since = some t)
    (hdue : t + 256 * (s.die x.die).cycle ≤ (s.die x.die).time) :
    exec (.bundlePark w pipe) s = .next (renameWait x.die x.core (w, pipe) (s.fresh,
        .a) { s.setWarp w (x.setIss pipe none) with
      parks := tput s.parks s.fresh ⟨w, { i with since := none }, false⟩, fresh := s.fresh + 1 }) := by
  simp only [exec_bundlePark, execBundlePark, hx, hi, hblocked, hsince, hdue, if_true, parkBundle]

theorem exec_blockedRegisterFill_of_pipe {w lane : Nat} {s : State} {x : Warp} {p : Pipe}
    (hx : s.warp? w = some x)
    (hp : blockedPipe x lane = some p) :
    exec (.blockedRegisterFill w lane) s = .next (s.modIss w p fun i => { i with blocked := false }) := by
  simp only [exec_blockedRegisterFill, execBlockedRegisterFill, hx, hp]

theorem exec_blockedRegisterFill_of_park {w lane k : Nat} {s : State} {x : Warp} (hx : s.warp? w = some x)
    (hp : blockedPipe x lane = none) (hk : blockedPark s w lane = some k) :
    exec (.blockedRegisterFill w lane) s = .next { s with agenda := .retry k :: s.agenda } := by
  simp only [exec_blockedRegisterFill, execBlockedRegisterFill, hx, hp, hk]

/-- Settles O35: the four events of a slice, a second bundle issued where both pipes are free; and a
fetch whose two reads are answered. -/
theorem issueSteps : Obligations.IssueSteps := by
  refine ⟨fun w lane pipe s x c first rest hx hsel hcw hcs hlane hfree => ?issue,
    fun w pipe s x i t hx hi hb hs hdue => exec_bundlePark_of_due hx hi hb hs hdue,
    fun w lane s x hx => ⟨fun p hp => exec_blockedRegisterFill_of_pipe hx hp,
        fun k hp hk => exec_blockedRegisterFill_of_park hx hp hk⟩,
    fun w lane s x t bs ws s1 s2 hx ht hst hruns halign hcont hnot hpark hhead hwords => ?fetch⟩
  case issue =>
    have hmay : MayIssue w lane pipe s x first rest := ⟨hx, ⟨c, hsel, hcw, hcs⟩, hlane, hfree⟩
    refine ⟨fun ⟨p, hne, hp⟩ => hmay.exec_of_one_pipe ?_, ?_, ?_⟩
    · cases p <;> simp [hp]
    · rintro rfl hb rfl
      exact hmay.exec_of_both_pipes hb
    · rintro second more rfl hb rfl
      exact hmay.exec_of_both_pipes hb
  case fetch =>
    have hread : (!(t.st == .ready) || !warpRuns s x || t.pc.hdr % 8 != 0 ||
        (fetchedFor x t.pc).isSome || (parkOf s w lane).isSome) = false := by
      simp [hst, hruns, halign, hnot, hpark]
    simp only [exec_codeFetch, execCodeFetch, hx, ht, hread, hhead, hcont, hwords, Bool.false_eq_true,
        if_false]

end Sys2Proof.Machine
end


section
/-! PROOFS. Loads and stores of the shared window, the stack and the scratchpad window, and the region
tracker (R23, R97, R163-R165,
R175-R177, R220-R223, R229). -/

namespace Sys2Proof.Machine

/-! ### What each event of an operation runs -/

theorem exec_loadReturn (op : Nat) (land : Bool) (s : State) :
    exec (.loadReturn op land) s = execLoadReturn op land s := rfl

theorem exec_storeAck (op : Nat) (s : State) : exec (.storeAck op) s = execStoreAck op s := rfl

theorem exec_regionAccessRetry (op : Nat) (s : State) :
    exec (.regionAccessRetry op) s = execRegionAccessRetry op s := rfl

/-! ### An operation that may be performed (R165, R176, R186) -/

/-- Operation `op` has been sent and holds its table entry; no earlier one must be performed first, and
its block is not PARKED. -/
def MayPerform (s : State) (op : Nat) (o : MemOp) : Prop :=
  tget s.ops op = some o ∧ o.st = .sent ∧ o.entry.isSome = true ∧ mustFollow s op o = false ∧
      (o.block.map s.parked).getD false = false

/-- A block that stands and is not PARKED holds its operations. -/
theorem mayPerform_of_block {s : State} {op b : Nat} {o : MemOp} {x : Block}
    (ho : tget s.ops op = some o) (hb : o.block = some b)
    (hx : s.block? b = some x) (hst : x.st ≠ .parked) (hsent : o.st = .sent) (he : o.entry.isSome = true)
    (hf : mustFollow s op o = false) : MayPerform s op o :=
  ⟨ho, hsent, he, hf, by simp [hb, State.parked, hx, hst]⟩

section

variable {s t : State} {op : Nat} {o : MemOp}

/-- It takes no entry again. -/
theorem MayPerform.regain (h : MayPerform s op o) : regain op o s = some s := by
  obtain ⟨-, -, he, -, hp⟩ := h
  simp [Machine.regain, hp, he]

/-- A load that is performed has read its value. -/
theorem MayPerform.readOp (h : MayPerform s op o) {sg : Bool} (hk : o.kind = .load sg) {v : Nat}
    (hv : performLoad o s = (some v, t)) :
    readOp op s = { t with ops := tmod t.ops op fun o => { o with st := .read v } } := by
  have hr := h.regain
  obtain ⟨ho, hst, -, hf, -⟩ := h
  have hperf : o.performed = false := by simp [MemOp.performed, hst]
  simp only [Machine.readOp, ho, hperf, hf, hr, hk, hv, setOp, Bool.or_self, Bool.false_eq_true, if_false]

/-- A load that cannot be performed stalls, where the level limit of its region does that. -/
theorem MayPerform.readOp_stall (h : MayPerform s op o) {sg : Bool} (hk : o.kind = .load sg)
    (hv : performLoad o s = (none, t)) :
    Machine.readOp op s = stallOp op t := by
  have hr := h.regain
  obtain ⟨ho, hst, -, hf, -⟩ := h
  have hperf : o.performed = false := by simp [MemOp.performed, hst]
  simp only [Machine.readOp, ho, hperf, hf, hr, hk, hv, Bool.or_self, Bool.false_eq_true, if_false]

/-- LOAD_RETURN of a load: it is performed, and the REGE that waits for it looks again; with `land` its
result lands. -/
theorem exec_loadReturn_of_load (ho : tget s.ops op = some o) {sg : Bool} (hk : o.kind = .load sg)
    (land : Bool) :
    exec (.loadReturn op land) s =
      .next (if land then landOp op (checkRege o.warp (readOp op s)) else checkRege o.warp
          (readOp op s)) := by
  simp only [exec_loadReturn, execLoadReturn, ho, hk]

theorem MayPerform.exec_load (h : MayPerform s op o) {sg : Bool} (hk : o.kind = .load sg) {v : Nat}
    (hv : performLoad o s = (some v, t)) :
    exec (.loadReturn op false) s =
        .next (checkRege o.warp { t with ops := tmod t.ops op fun o => { o with st := .read v } }) := by
  rw [exec_loadReturn_of_load h.1 hk, h.readOp hk hv]
  rfl

theorem MayPerform.exec_load_land (h : MayPerform s op o) {sg : Bool} (hk : o.kind = .load sg) {v : Nat}
    (hv : performLoad o s = (some v, t)) : exec (.loadReturn op true) s =
      .next (landOp op (checkRege o.warp { t with ops := tmod t.ops op fun o => { o with st := .read v } })) := by
  rw [exec_loadReturn_of_load h.1 hk, h.readOp hk hv]
  rfl

theorem MayPerform.exec_load_stall (h : MayPerform s op o) {sg : Bool} (hk : o.kind = .load sg)
    (hv : performLoad o s = (none, t)) :
    exec (.loadReturn op false) s = .next (checkRege o.warp (stallOp op t)) := by
  rw [exec_loadReturn_of_load h.1 hk, h.readOp_stall hk hv]
  rfl

/-- STORE_ACK of a store: it is performed and leaves the table, or stalls. -/
theorem MayPerform.exec_store (h : MayPerform s op o) (hk : o.kind = .store) {done : Bool}
    (hv : performStore o s = (done, t)) :
    exec (.storeAck op) s = .next (checkRege o.warp (if done then dropOp op t else stallOp op t)) := by
  have hr := h.regain
  obtain ⟨ho, hst, -, hf, -⟩ := h
  simp only [exec_storeAck, execStoreAck, ackOp, ho, hf, hr, hk, hv, beq_self_eq_true, Bool.not_false,
      Bool.and_self, if_true]
  cases done <;> rfl

end

/-! ### What is read and written, space by space (R163, R175, R177) -/

section

variable {s t : State} {o : MemOp} {b : Nat} {x : Block}

theorem performLoad_shared (hb : o.block = some b) (hx : s.block? b = some x) (hsp : o.space = .shared) :
    performLoad o s = (some (mread x.mem o.addr o.size), s) := by
  simp [performLoad, hsp, hb, hx]

theorem performLoad_scratch (hb : o.block = some b) (hx : s.block? b = some x)
    (hsp : o.space = .scratch) (hr : o.region = false) :
    performLoad o s = (some (leNat ((List.range o.size).map fun k => (tget x.pub (o.addr + k)).getD
        (mget x.view (o.addr + k)))), s) := by
  simp [performLoad, hsp, hb, hx, hr, viewByte]

theorem performLoad_region (hb : o.block = some b) (hsp : o.space = .scratch) (hr : o.region = true) :
    performLoad o s = regionAccess o.warp o 65 s := by
  simp [performLoad, hsp, hb, hr]

theorem performStore_shared (hb : o.block = some b) (hx : s.block? b = some x) (hsp : o.space = .shared) :
    performStore o s = (true,
        s.setBlock b { x with mem := msetAll x.mem (cellsAt o.addr (leBytes o.size o.data)) }) := by
  simp [performStore, hsp, hb, State.modBlock, hx]

theorem performStore_scratch (hb : o.block = some b) (hx : s.block? b = some x)
    (hsp : o.space = .scratch) (hr : o.region = false) :
    performStore o s = (true, s.setBlock b { x with
      pub := (cellsAt o.addr (leBytes o.size o.data)).foldl (fun p c => tput p c.1 c.2) x.pub }) := by
  simp [performStore, hsp, hb, hr, State.modBlock, hx]

theorem performStore_region (hb : o.block = some b) (hsp : o.space = .scratch) (hr : o.region = true) :
    performStore o s = ((regionAccess o.warp o 65 s).1.isSome, (regionAccess o.warp o 65 s).2) := by
  simp [performStore, hsp, hb, hr]

end

/-! ### The stack and its cache (R164) -/

section

variable {s t : State} {o : MemOp} {b at_ off : Nat} {x y : Warp}

/-- A stack access of a block's warp reaches its bytes through its core's cache. -/
theorem stackReady_of_place (hx : s.warp? o.warp = some x) (hp : stackPlace s o = some (b, at_, off)) :
    stackReady o s = touchLine o.ctx x.die x.core b at_ off (o.kind == .store) s := by
  simp only [stackReady, hp, hx]

theorem performLoad_stack (hsp : o.space = .stack) (hr : stackReady o s = (true, t))
    (hy : t.warp? o.warp = some y) :
    performLoad o s = (some (leNat ((List.range o.size).map fun i => stackByte t y o (t.fresh + i) i)),
        { t with fresh := t.fresh + o.size }) := by
  simp only [performLoad, hsp, hr, hy]

theorem performLoad_stack_wait (hsp : o.space = .stack) (hr : stackReady o s = (false, t)) :
    performLoad o s = (none, t) := by
  simp only [performLoad, hsp, hr]

theorem performStore_stack_wait (hsp : o.space = .stack) (hr : stackReady o s = (false, t)) :
    performStore o s = (false, t) := by
  simp only [performStore, hsp, hr]

/-- A store to the stack of an attached warp writes its warp's bytes. -/
theorem performStore_stack (hsp : o.space = .stack) (hr : stackReady o s = (true, t))
    (hy : t.warp? o.warp = some y) (hb : y.block = some b)
    (hp : stackPlace t o = some (b, at_, off)) : performStore o s = (true, t.setWarp o.warp { y with
      stk := (cellsAt (warpOffset t y o.lane o.addr) (leBytes o.size o.data)).foldl
          (fun m c => tput m c.1 c.2) y.stk }) := by
  simp only [performStore, hsp, hr, stackWrite, hy, hp, hb, Option.isNone_some, Bool.false_eq_true, if_false]

/-- A byte the warp has written reads as written. -/
theorem stackByte_of_written {k i : Nat} {a : Byte}
    (h : tget y.stk (warpOffset t y o.lane (o.addr + i)) = some a) : stackByte t y o k i = a := by
  simp only [stackByte, h]

end

section

variable {ctx die core b at_ off : Nat} {store : Bool} {s : State}

/-- A line of the cache is the one an access touches. -/
def sameLine (b off : Nat) (l : StackLine) : Bool := l.block == b && l.line == off / 64

theorem touchLine_hit (h : (s.core die core).lines.any (sameLine b off) = true) :
    touchLine ctx die core b at_ off store s =
    (true, s.modCore die core fun c => { c with
      lines := c.lines.map fun l => if sameLine b off l then { l with dirty := l.dirty || store } else l }) :=
  if_pos h

/-- A miss reads the run, and takes the line in once the cache has room. -/
theorem touchLine_miss (h : (s.core die core).lines.any (sameLine b off) = false)
    (hf : stackFault s ctx die (at_ + off / 64 * 64) 64 = none) {t : State}
    (hroom : makeRoom die core ((s.core die core).lines.length + 1) s = (true,
        t)) : touchLine ctx die core b at_ off store s =
    (true, t.modCore die core fun c => { c with lines := c.lines ++ [⟨b, off / 64, store⟩] }) := by
  have hmiss := Bool.eq_false_iff.mp h
  refine (if_neg hmiss).trans ?_
  simp only [hf, hroom, if_true]

theorem touchLine_fault (h : (s.core die core).lines.any (sameLine b off) = false) {k : Nat}
    (hf : stackFault s ctx die (at_ + off / 64 * 64) 64 = some k) : touchLine ctx die core b at_ off store s =
    (false, endContext ctx 0x0B (causeEngine die (at_ + off / 64 * 64) 0) (logViolation ctx
        (at_ + off / 64 * 64) k 7 die s)) := by
  refine (if_neg (Bool.eq_false_iff.mp h)).trans ?_
  simp only [hf, stackEnd]

theorem makeRoom_of_lt (n : Nat) (h : (s.core die core).lines.length < 512) :
    makeRoom die core (n + 1) s = (true, s) := if_pos h

/-- A full cache evicts some line first. -/
theorem makeRoom_of_full {l : StackLine} {t : State} (h : 512 ≤ (s.core die core).lines.length)
    (hl : (s.core die core).lines[Config.choice s.fresh % (s.core die core).lines.length]? = some l)
    (he : evictLine die core l s.bump = (true, t)) (ht : (t.core die core).lines.length < 512) :
    makeRoom die core ((s.core die core).lines.length + 1) s = (true, t) := by
  obtain ⟨n, hn⟩ : ∃ n, (s.core die core).lines.length = n + 1 := ⟨_, (Nat.sub_add_cancel (by omega)).symm⟩
  have hfull : ¬ (s.core die core).lines.length < stackLines := Nat.not_lt.mpr h
  rw [makeRoom]
  simp only [hfull, hl, he, if_false]
  rw [hn, makeRoom_of_lt n ht]

end

/-! ### The region tracker (R220-R222, R229) -/

section

variable {w die n : Nat} {o : MemOp} {s : State} {r : Region}

theorem regionAccess_capacity (hr : warpRegion s w = some (die, r))
    (hgo : trackAccess (s.die die) r o.addr o.size (o.kind == .store) = .capacity) :
    regionAccess w o (n + 1) s = (none, abortSlots die 3 [r.slot] s) := by
  simp only [regionAccess, hr, hgo]

theorem regionAccess_stall (hr : warpRegion s w = some (die, r))
    (hgo : trackAccess (s.die die) r o.addr o.size (o.kind == .store) =
        .stall) : regionAccess w o (n + 1) s = (none, s) := by
  simp only [regionAccess, hr, hgo]

theorem regionAccess_cycle (hr : warpRegion s w = some (die, r)) {k : Nat}
    (hgo : trackAccess (s.die die) r o.addr o.size (o.kind == .store) = .cycle k) :
    regionAccess w o (n + 1) s = regionAccess w o n (abortSlots die 1 [k] s) := by
  simp only [regionAccess, hr, hgo]

/-- A tracked access reads its bytes and is recorded. -/
theorem regionAccess_go (hr : warpRegion s w = some (die, r))
    (hgo : trackAccess (s.die die) r o.addr o.size (o.kind == .store) =
        .go) {h : Share} (hh : s.share? r.share = some h) :
    regionAccess w o (n + 1) s =
        (some (leNat ((List.range o.size).map fun k => regionByte (s.die die) h r (o.addr + k))),
      s.setDie die (recordAccess (s.die die) r o.addr o.size (cellsAt o.addr (leBytes o.size o.data))
          (o.kind == .store))) := by
  simp only [regionAccess, hr, hgo, hh]

end

/-- A region that has read 1024 granules reads no other (R229). -/
theorem trackAccess_of_reads_full {d : Die} {r : Region} {a n : Nat} (hfull : 1024 ≤ r.reads.length)
    (hnew : r.reads.contains (a / 32) = false) : trackAccess d r a n false = .capacity := by
  simp only [trackAccess, hfull, hnew, Bool.false_eq_true, Bool.not_false, decide_true, Bool.and_self,
      if_false, if_true]

/-- A region that has written 256 granules writes no other (R229). -/
theorem trackAccess_of_writes_full {d : Die} {r : Region} {a n : Nat} (hfull : 256 ≤ r.writeG.length)
    (hnew : r.writeG.contains (a / 32) = false) : trackAccess d r a n true = .capacity := by
  simp only [trackAccess, hfull, hnew, Bool.not_false, decide_true, Bool.and_self, if_true]

/-- A region reads the byte it has written itself (R220). -/
theorem regionByte_of_own {d : Die} {h : Share} {r : Region} {a : Nat} {v : Byte}
    (hv : tget r.writes a = some v) : regionByte d h r a = v := by
  simp only [regionByte, hv, Option.some_or, Option.getD_some]

/-- A byte no region of the chain has written comes from home (R220). -/
theorem regionByte_of_home {d : Die} {h : Share} {r : Region} {a : Nat} (hv : tget r.writes a = none)
    (hchain : chainOf d r.share (a / 32) = []) : regionByte d h r a = mget h.home a := by
  have hno : forwarder d r a = none := by simp [forwarder, hv, hchain]
  simp only [regionByte, hv, hno, Option.bind_none, Option.or_none, Option.getD_none]

/-! ### Results on their way (R97, R221) -/

section

variable {s : State} {op : Nat} {o : MemOp}

theorem exec_regionAccessRetry_of_stalled (ho : tget s.ops op = some o) (hr : o.region = true)
    (hst : o.st = .noroom) :
    exec (.regionAccessRetry op) s = .next (checkRege o.warp (ackOp op (readOp op s))) := by
  simp only [exec_regionAccessRetry, execRegionAccessRetry, ho, hr, hst, beq_self_eq_true,
      Bool.and_self, if_true]

/-- A region query that has been answered lands. -/
theorem exec_loadReturn_of_regq (ho : tget s.ops op = some o) (hk : o.kind = .regq) {v : Nat}
    (hst : o.st = .read v) :
    exec (.loadReturn op true) s = .next (landOp op (checkRege o.warp s)) := by
  have hperf : o.performed = true := by simp [MemOp.performed, hst]
  simp only [exec_loadReturn, execLoadReturn, ho, hk, readOp, hperf, Bool.true_or, if_true]

/-- A result lands in the registers of its thread, and its operation leaves the table. -/
theorem landOp_of_read (ho : tget s.ops op = some o) {v : Nat} (hst : o.st = .read v) (hdst : o.dst < 512) :
    landOp op s = dropOp op (s.modThread o.warp o.lane (landThread o v)) := by
  simp only [landOp, ho, hst, Nat.not_le.mpr hdst, if_false]

end

/-- Settles O37: an operation that may be performed reads or writes what its space gives, and what its
line or its region lets it. -/
theorem loadStoreSteps : Obligations.LoadStoreSteps := by
  refine ⟨fun op s o b x sg hgo hk hsp => ?sharedLoad, fun op s o b x sg hgo hk hsp => ?scratchLoad,
      fun op s o b x hgo hk hsp => ?sharedStore,
    fun op s o b x hgo hk hsp => ?scratchStore,
        fun op s o b at_ off x t y ho hsp hst he hreg hf hp hx hplace => ?stack,
    fun ctx die core b at_ off store s => ⟨touchLine_hit, fun k hm hk => touchLine_fault hm hk,
        fun hm hn hlt => ?room, fun l t hm hn hfull hl hev hlt => ?full⟩,
    fun op s o b t ho hreg hsp hb hpark hst he hf => ?region, fun op s => rfl,
    fun w o n s die r hr => ⟨regionAccess_capacity hr, regionAccess_stall hr,
        fun k hk => regionAccess_cycle hr hk, fun h hgo hh => regionAccess_go hr hgo hh⟩,
    fun d r a n => ⟨trackAccess_of_reads_full, trackAccess_of_writes_full⟩,
    fun d h r a => ⟨fun v hv => regionByte_of_own hv, regionByte_of_home⟩,
    fun op s o ho hreg hst => exec_regionAccessRetry_of_stalled ho hreg hst,
        fun op s o v ho hk hst => exec_loadReturn_of_regq ho hk hst,
    fun op s o v ho hst hdst => landOp_of_read ho hst hdst⟩
  case sharedLoad =>
    obtain ⟨ho, hb, hx, hpark, hst, he, -, hf⟩ := hgo
    have hmay := mayPerform_of_block ho hb hx hpark hst he hf
    have hread := performLoad_shared hb hx hsp
    exact ⟨hmay.exec_load hk hread, hmay.exec_load_land hk hread⟩
  case scratchLoad =>
    obtain ⟨ho, hb, hx, hpark, hst, he, hreg, hf⟩ := hgo
    exact (mayPerform_of_block ho hb hx hpark hst he hf).exec_load hk (performLoad_scratch hb hx hsp hreg)
  case sharedStore =>
    obtain ⟨ho, hb, hx, hpark, hst, he, -, hf⟩ := hgo
    exact (mayPerform_of_block ho hb hx hpark hst he hf).exec_store hk (performStore_shared hb hx hsp)
  case scratchStore =>
    obtain ⟨ho, hb, hx, hpark, hst, he, hreg, hf⟩ := hgo
    exact (mayPerform_of_block ho hb hx hpark hst he hf).exec_store hk (performStore_scratch hb hx hsp hreg)
  case stack =>
    have hmay : MayPerform s op o := ⟨ho, hst, he, hf, hp⟩
    have hready := stackReady_of_place hx hplace
    refine ⟨fun sg hk ht hy => ?_, fun i a k ha => stackByte_of_written ha, fun sg hk ht => ?_,
        fun hk ht => ?_, fun hk ht hy hyb hpt => ?_⟩
    all_goals rw [hk] at hready
    · exact hmay.exec_load hk (performLoad_stack hsp (hready.trans ht) hy)
    · exact hmay.exec_load_stall hk (performLoad_stack_wait hsp (hready.trans ht))
    · exact hmay.exec_store hk (performStore_stack_wait hsp (hready.trans ht))
    · exact hmay.exec_store hk (performStore_stack hsp (hready.trans ht) hy hyb hpt)
  case room => exact touchLine_miss hm hn (makeRoom_of_lt _ hlt)
  case full => exact touchLine_miss hm hn (makeRoom_of_full hfull hl hev hlt)
  case region =>
    have hmay : MayPerform s op o := ⟨ho, hst, he, hf, by simp [hb, hpark]⟩
    have hload := performLoad_region (s := s) hb hsp hreg
    have hstore := performStore_region (s := s) hb hsp hreg
    refine ⟨fun sg v hk ha => hmay.exec_load hk (hload.trans ha), fun v hk ha => ?_,
        fun sg hk ha => hmay.exec_load_stall hk (hload.trans ha),
      fun hk ha => ?_⟩
    all_goals
      rw [ha] at hstore
      exact hmay.exec_store hk hstore

end Sys2Proof.Machine
end


section
/-! PROOFS. The packed 16-bit words and the conversions: HADD2, HMUL2, HFMA2, HMAX2, CVT, F8CV and F8UP. -/

namespace Sys2Proof.Machine

/-! ### Words that write v[d] and raise flags -/

/-- A format R word that writes v[d] and raises flags, over registers it names. -/
theorem completes_laneWordR_flags {i : Instr} {o : FmtR} (na nb nc : Nat) {f : Thread → Thread × Flags}
    {cls opc : Nat} {mods : List Nat} {a b c : Use} {l x k : Bool}
    (he : ∀ s, exec i s = laneWord i (srcsR o na nb nc) [o.d.toNat] (fun _ _ u => f u) s)
    (hi : ∀ W, i.info W = some (o.info cls opc mods (.reg 1) a b c l x k))
    (ha : na ≤ Use.count a) (hb : nb ≤ Use.count b) (hc : nc ≤ Use.count c) :
    Completes i (fun _ _ u => (f u).1) fun b => laneFlags b.warp (acting i b) fun _ u => (f u).2 :=
  completes_laneWord he hi (fun _ => covers_srcsR o na nb nc _ _ _ _ _ _ _ _ _ _ ha hb hc)
    (fun _ => covers_dR o 1 _ _ _ _ _ _ _ _ _ _ le_rfl) (fun _ _ _ _ _ _ _ => rfl) fun _ => rfl

/-- A floating word of two register sources; its c field names no register it reads. -/
theorem floatRegs_of_floatR2 {i : Instr} {o : FmtR} {f : Nat → Nat → Rounded}
    {cls opc : Nat} {mods : List Nat} {c : Use} {l x k : Bool} (he : ∀ s, exec i s = floatR2 i o f s)
    (hi : ∀ W, i.info W = some (o.info cls opc mods (.reg 1) (.reg 1) (.reg 1) c l x k)) : FloatRegs i o f :=
  (completes_laneWordR_flags 1 1 0 he hi le_rfl le_rfl (Nat.zero_le _) :)

/-- A floating word of three register sources. -/
theorem floatThree_of_floatR3 {i : Instr} {o : FmtR} {f : Nat → Nat → Nat → Rounded}
    {cls opc : Nat} {mods : List Nat} {l x k : Bool} (he : ∀ s, exec i s = floatR3 i o f s)
    (hi : ∀ W, i.info W = some (o.info cls opc mods (.reg 1) (.reg 1) (.reg 1) (.reg 1) l x k)) : FloatThree i o f :=
  (completes_laneWordR_flags 1 1 1 he hi le_rfl le_rfl le_rfl :)

/-! ### Stochastic rounding (R75, R76) -/

/-- What a conversion does to a thread's generator: one step under RS, nothing under another mode. -/
theorem rsMode_fst (m : BitVec 3) (u : Thread) :
    (rsMode m u).1 = if m = 4 then { u with gen := xorShift u.gen } else u := by
  simp only [rsMode, beq_iff_eq]; split <;> rfl

/-- The mode a conversion rounds in: under RS it carries the generator's new value. -/
theorem rsMode_snd (m : BitVec 3) (u : Thread) :
    (rsMode m u).2 = if m = 4 then Rnd.rs (xorShift u.gen).toNat else rndOf (m.toNat % 4) := by
  simp only [rsMode, beq_iff_eq]; split <;> rfl

/-! ### Conversion (R125-R127) -/

/-- The byte F8CV makes of a thread's value and scale, with its flags. -/
def f8cvResult (o : FmtR) (u : Thread) : Rounded :=
  f8cvByte (ctlFmt o.c) (rsMode o.mod u).2 (o.c.getLsbD 3) (u.val o.a o.za).toNat (u.val o.b o.zb).toNat

/-- What CVT makes of a thread's source, with its flags. -/
def cvtResult (o : FmtV) (u : Thread) : Rounded :=
  convert (o.conv.toNat % 16) (o.conv.toNat / 16 % 16) (o.conv.getLsbD 8) (rsMode o.mod u).2 (u.val o.a o.za).toNat

theorem exec_f8cv (o : FmtR) (s : State) : exec (.f8cv o) s =
    laneWord (.f8cv o) (srcsR o 1 1 0) [o.d.toNat] (fun _ _ u =>
      ((rsMode o.mod u).1.put o.d.toNat (putByte (u.reg o.d.toNat).val (o.c.toNat % 4) (f8cvResult o u).bits),
        (f8cvResult o u).flags)) s := rfl

theorem exec_cvt (o : FmtV) (s : State) : exec (.cvt o) s =
    laneWord (.cvt o) (src o.a 1 o.ea o.za) [o.d.toNat] (fun _ _ u =>
      ((rsMode o.mod u).1.put o.d.toNat (BitVec.ofNat 32 (cvtResult o u).bits), (cvtResult o u).flags)) s := rfl

theorem f8cv_completes (o : FmtR) : Completes (.f8cv o)
    (fun _ _ u => (rsMode o.mod u).1.put o.d.toNat
      (putByte (u.reg o.d.toNat).val (o.c.toNat % 4) (f8cvResult o u).bits))
    fun b => laneFlags b.warp (acting (.f8cv o) b) fun _ u => (f8cvResult o u).flags :=
  (completes_laneWordR_flags 1 1 0 (exec_f8cv o) (fun _ => rfl) le_rfl le_rfl (Nat.zero_le _) :)

/-- CVT's one source, in format V, is among the registers it names (R42). -/
theorem cvt_completes (o : FmtV) : Completes (.cvt o)
    (fun _ _ u => (rsMode o.mod u).1.put o.d.toNat (BitVec.ofNat 32 (cvtResult o u).bits))
    fun b => laneFlags b.warp (acting (.cvt o) b) fun _ u => (cvtResult o u).flags :=
  completes_laneWord (exec_cvt o) (fun _ => rfl) (fun _ => covers_right (covers_src (.reg 1) _ _ _ _ le_rfl))
    (fun _ => covers_left (covers_dst (.reg 1) _ 1 le_rfl)) (fun _ _ _ _ _ _ _ => rfl) fun _ => rfl

/-- Settles O6: a packed word is a floating word of its two or three sources, and a conversion rounds in
the mode, and leaves the generator, that `rsMode` gives. -/
theorem packedWords : Obligations.PackedWords := by
  refine ⟨fun _ => floatRegs_of_floatR2 (fun _ => rfl) fun _ => rfl,
    fun _ => floatRegs_of_floatR2 (fun _ => rfl) fun _ => rfl,
    fun _ => floatThree_of_floatR3 (fun _ => rfl) fun _ => rfl,
    fun _ => floatRegs_of_floatR2 (fun _ => rfl) fun _ => rfl, fun o => ?cvt, fun o => ?f8cv,
    fun _ => floatRegs_of_floatR2 (fun _ => rfl) fun _ => rfl⟩
  case cvt => simpa only [cvtResult, rsMode_fst, rsMode_snd] using cvt_completes o
  case f8cv => simpa only [f8cvResult, ctlFmt, rsMode_fst, rsMode_snd] using f8cv_completes o

end Sys2Proof.Machine
end


section
/-! PROOFS. The words that compute on integers and bits: sums, products, comparisons, shifts and bit fields. -/

namespace Sys2Proof.Machine

/-! ### The shapes of these words -/

/-- A format R word of up to three sources that writes v[d], or the pair there, and raises no flag. -/
theorem completes_laneWordR3 {i : Instr} {o : FmtR} (na nb nc nd : Nat) {g : Thread → Thread}
    {cls opc : Nat} {mods : List Nat} {d a b c : Use} {l x k : Bool}
    (he : ∀ s, exec i s = laneWord i (srcsR o na nb nc) (regRange o.d.toNat nd) (fun _ _ u => (g u, 0)) s)
    (hi : ∀ W, i.info W = some (o.info cls opc mods d a b c l x k)) (ha : na ≤ Use.count a)
    (hb : nb ≤ Use.count b) (hc : nc ≤ Use.count c) (hd : nd ≤ Use.count d) : Completes i (fun _ _ u => g u) fun _ => 0 :=
  completes_laneWord he hi (fun _ => covers_srcsR o na nb nc _ _ _ _ _ _ _ _ _ _ ha hb hc)
    (fun _ => covers_dR o nd _ _ _ _ _ _ _ _ _ _ hd) (fun _ _ _ _ _ _ _ => rfl) fun b => laneFlags_zero b.warp _

/-- A format I word that gives its guard-true threads new data and raises no flag. -/
theorem completes_laneWordI {i : Instr} {o : FmtI} (nd : Nat) {g : Thread → Thread} {cls opc : Nat} {mods : List Nat}
    {d : Use} {e x k : Bool} (he : ∀ s, exec i s = laneWord i (srcsI o) (regRange o.d.toNat nd) (fun _ _ u => (g u, 0)) s)
    (hi : ∀ W, i.info W = some (o.info cls opc mods d (.reg 1) e x k)) (hd : nd ≤ Use.count d) :
    Completes i (fun _ _ u => g u) fun _ => 0 :=
  completes_laneWord he hi (fun _ => covers_srcsI o _ _ _ _ _ _ _ _ le_rfl) (fun _ => covers_dI o nd _ _ _ _ _ _ _ _ hd)
    (fun _ _ _ _ _ _ _ => rfl) fun b => laneFlags_zero b.warp _

theorem onOne_of_unaryR {i : Instr} {o : FmtR} {f f' : Word → Word} {cls opc : Nat} {mods : List Nat} {l x k : Bool}
    (he : ∀ s, exec i s = unaryR i o f s)
    (hi : ∀ W, i.info W = some (o.info cls opc mods (.reg 1) (.reg 1) .none .none l x k)) (hf : ∀ a, f a = f' a) :
    OnOne i o f' := by
  obtain rfl : f = f' := funext hf
  exact completes_laneWordR3 1 0 0 1 he hi le_rfl (Nat.zero_le _) (Nat.zero_le _) le_rfl

theorem onRegs_of_binaryR {i : Instr} {o : FmtR} {f f' : Word → Word → Word} {cls opc : Nat} {mods : List Nat} {l x k : Bool}
    (he : ∀ s, exec i s = binaryR i o f s)
    (hi : ∀ W, i.info W = some (o.info cls opc mods (.reg 1) (.reg 1) (.reg 1) .none l x k))
    (hf : ∀ a b, f a b = f' a b) : OnRegs i o f' := by
  obtain rfl : f = f' := funext₂ hf
  exact completes_laneWordR3 1 1 0 1 he hi le_rfl le_rfl (Nat.zero_le _) le_rfl

theorem onImm_of_binaryI {i : Instr} {o : FmtI} {f f' : Word → Word → Word} {cls opc : Nat} {mods : List Nat} {e x k : Bool}
    (he : ∀ s, exec i s = binaryI i o f s) (hi : ∀ W, i.info W = some (o.info cls opc mods (.reg 1) (.reg 1) e x k))
    (hf : ∀ a b, f a b = f' a b) : OnImm i o f' := by
  obtain rfl : f = f' := funext₂ hf
  exact completes_laneWordI 1 he hi le_rfl

theorem onThree_of_ternaryR {i : Instr} {o : FmtR} {f f' : Word → Word → Word → Word} {cls opc : Nat} {mods : List Nat}
    {l x k : Bool} (he : ∀ s, exec i s = ternaryR i o f s)
    (hi : ∀ W, i.info W = some (o.info cls opc mods (.reg 1) (.reg 1) (.reg 1) (.reg 1) l x k))
    (hf : ∀ a b c, f a b c = f' a b c) : OnThree i o f' := by
  obtain rfl : f = f' := funext₃ hf
  exact completes_laneWordR3 1 1 1 1 he hi le_rfl le_rfl le_rfl le_rfl

/-! ### Sums, products and comparisons (R7, R109, R110) -/

/-- `Sat` of R7 is a maximum of a minimum. -/
theorem satInt_eq_max_min {x lo hi : Int} (h : lo ≤ hi) : satInt x lo hi = max lo (min x hi) := by
  simp only [satInt]
  split <;> (try split) <;> omega

theorem satS_eq (x : Int) : satS x = BitVec.ofInt 32 (max (-2 ^ 31) (min x (2 ^ 31 - 1))) := by
  rw [satS, intWord, satInt_eq_max_min (by norm_num)]

theorem satU_eq (x : Int) : satU x = BitVec.ofInt 32 (max 0 (min x (2 ^ 32 - 1))) := by
  rw [satU, intWord, satInt_eq_max_min (by norm_num)]

/-- A three-bit modifier by its value. -/
theorem mod_cases (m : BitVec 3) : m = 0 ∨ m = 1 ∨ m = 2 ∨ m = 3 ∨ m = 4 ∨ m = 5 ∨ m = 6 ∨ m = 7 := by
  revert m; decide

theorem addMod_eq (m : BitVec 3) (a b : Word) : addMod m a b =
    if m = 1 then BitVec.ofInt 32 (max (-2 ^ 31) (min (a.toInt + b.toInt) (2 ^ 31 - 1)))
    else if m = 2 then BitVec.ofInt 32 (max 0 (min ((a.toNat : Int) + b.toNat) (2 ^ 32 - 1))) else a + b := by
  rw [← satS_eq, ← satU_eq]
  rcases mod_cases m with rfl | rfl | rfl | rfl | rfl | rfl | rfl | rfl <;> rfl

theorem subMod_eq (m : BitVec 3) (a b : Word) : subMod m a b =
    if m = 1 then BitVec.ofInt 32 (max (-2 ^ 31) (min (a.toInt - b.toInt) (2 ^ 31 - 1)))
    else if m = 2 then BitVec.ofInt 32 (max 0 (min ((a.toNat : Int) - b.toNat) (2 ^ 32 - 1))) else a - b := by
  rw [← satS_eq, ← satU_eq]
  rcases mod_cases m with rfl | rfl | rfl | rfl | rfl | rfl | rfl | rfl <;> rfl

theorem mulHigh_eq (m : BitVec 3) (a b : Word) : mulHigh m a b =
    (BitVec.ofInt 64 (if m = 0 then a.toInt * b.toInt else if m = 1 then (a.toNat : Int) * b.toNat
      else a.toInt * b.toNat)).extractLsb' 32 32 := by
  rcases mod_cases m with rfl | rfl | rfl | rfl | rfl | rfl | rfl | rfl <;> rfl

/-- The order of IMIN and IMAX: unsigned under mod 1, else signed. -/
theorem minMod_eq (m : BitVec 3) (a b : Word) : minMod m a b =
    if (if m = 1 then decide (a.toNat < b.toNat) else decide (a.toInt < b.toInt)) then a else b := by
  simp only [minMod, beq_iff_eq, BitVec.ult_eq_decide, BitVec.slt_eq_decide, decide_eq_true_eq]
  split <;> simp only [decide_eq_true_eq]

theorem maxMod_eq (m : BitVec 3) (a b : Word) : maxMod m a b =
    if (if m = 1 then decide (a.toNat < b.toNat) else decide (a.toInt < b.toInt)) then b else a := by
  simp only [maxMod, beq_iff_eq, BitVec.ult_eq_decide, BitVec.slt_eq_decide, decide_eq_true_eq]
  split <;> simp only [decide_eq_true_eq]

/-- The negated orders of ICMP. -/
theorem not_slt_eq_decide (a b : Word) : (!a.slt b) = decide (b.toInt ≤ a.toInt) := by
  rw [BitVec.slt_eq_decide, ← decide_not, decide_eq_decide, not_lt]

theorem not_ult_eq_decide (a b : Word) : (!a.ult b) = decide (b.toNat ≤ a.toNat) := by
  rw [BitVec.ult_eq_decide, ← decide_not, decide_eq_decide, not_lt]

/-- The conditions of ICMP, by the table of R110. -/
theorem icmpCond_eq (m : BitVec 3) (a b : Word) : icmpCond m a b =
    match m.toNat with
    | 0 => decide (a = b)
    | 1 => decide (a ≠ b)
    | 2 => decide (a.toInt < b.toInt)
    | 3 => decide (b.toInt ≤ a.toInt)
    | 4 => decide (a.toNat < b.toNat)
    | 5 => decide (b.toNat ≤ a.toNat)
    | 6 => decide (b.toInt < a.toInt)
    | _ => decide (a.toInt ≤ b.toInt) := by
  have hne : (a != b) = decide (a ≠ b) := by rw [bne, beq_eq_decide, decide_not]
  rcases mod_cases m with rfl | rfl | rfl | rfl | rfl | rfl | rfl | rfl
  exacts [beq_eq_decide a b, hne, BitVec.slt_eq_decide, not_slt_eq_decide a b, BitVec.ult_eq_decide,
    not_ult_eq_decide a b, BitVec.slt_eq_decide, not_slt_eq_decide b a]

theorem icmp_completes (o : FmtR) {c : Word → Word → Bool} (hc : ∀ a b, icmpCond o.mod a b = c a b) :
    Completes (.icmp o) (fun _ _ u => u.setPred o.d.toNat (c (u.val o.a o.za) (u.val o.b o.zb))) fun _ => 0 := by
  obtain rfl : icmpCond o.mod = c := funext₂ hc
  exact completes_laneWordR3 1 1 0 0 (fun _ => rfl) (fun _ => rfl) le_rfl le_rfl (Nat.zero_le _) (Nat.zero_le _)

theorem icmpImm_completes (o : FmtI) {c : Word → Word → Bool} (hc : ∀ a b, icmpCond o.mod a b = c a b) :
    Completes (.icmpImm o) (fun _ _ u => u.setPred o.d.toNat (c (u.val o.a o.za) (o.imm.signExtend 32))) fun _ => 0 := by
  obtain rfl : icmpCond o.mod = c := funext₂ hc
  exact completes_laneWordI 0 (fun _ => rfl) (fun _ => rfl) (Nat.zero_le _)

/-- Settles O2: each word is one lane's word over the registers it names, and its result is the value the table
of R109 or R110 gives. -/
theorem integerWords : Obligations.IntegerWords :=
  ⟨fun o => onRegs_of_binaryR (fun _ => rfl) (fun _ => rfl) (addMod_eq o.mod),
    fun o => onImm_of_binaryI (fun _ => rfl) (fun _ => rfl) (addMod_eq o.mod),
    fun o => onRegs_of_binaryR (fun _ => rfl) (fun _ => rfl) (subMod_eq o.mod),
    fun o => onImm_of_binaryI (fun _ => rfl) (fun _ => rfl) (subMod_eq o.mod),
    fun _ => onRegs_of_binaryR (fun _ => rfl) (fun _ => rfl) fun _ _ => rfl,
    fun _ => onImm_of_binaryI (fun _ => rfl) (fun _ => rfl) fun _ _ => rfl,
    fun o => onRegs_of_binaryR (fun _ => rfl) (fun _ => rfl) (mulHigh_eq o.mod),
    fun o => onImm_of_binaryI (fun _ => rfl) (fun _ => rfl) (mulHigh_eq o.mod),
    fun o => onRegs_of_binaryR (fun _ => rfl) (fun _ => rfl) (minMod_eq o.mod),
    fun o => onImm_of_binaryI (fun _ => rfl) (fun _ => rfl) (minMod_eq o.mod),
    fun o => onRegs_of_binaryR (fun _ => rfl) (fun _ => rfl) (maxMod_eq o.mod),
    fun o => onImm_of_binaryI (fun _ => rfl) (fun _ => rfl) (maxMod_eq o.mod),
    fun o => (icmp_completes o (icmpCond_eq o.mod) :), fun o => (icmpImm_completes o (icmpCond_eq o.mod) :)⟩

end Sys2Proof.Machine
end


section
/-! PROOFS. The shifts, the bit words and the words of several sums: what their results are (R109, R111-R116). -/

namespace Sys2Proof.Machine

/-! ### Shifts (R109, R113) -/

theorem shlW_eq (a b : Word) : shlW a b = BitVec.ofNat 32 (a.toNat * 2 ^ b.toNat) := by
  apply BitVec.eq_of_toNat_eq
  rw [BitVec.toNat_ofNat, shlW]
  split
  case isTrue => rw [BitVec.toNat_shiftLeft, Nat.shiftLeft_eq]
  case isFalse h =>
    exact (Nat.mod_eq_zero_of_dvd (dvd_mul_of_dvd_right (pow_dvd_pow 2 (not_lt.mp h)) _)).symm

theorem shrW_eq (a b : Word) : shrW a b = BitVec.ofNat 32 (a.toNat / 2 ^ b.toNat) := by
  apply BitVec.eq_of_toNat_eq
  rw [BitVec.toNat_ofNat, Nat.mod_eq_of_lt ((Nat.div_le_self ..).trans_lt a.isLt), shrW]
  split
  case isTrue => rw [BitVec.toNat_ushiftRight, Nat.shiftRight_eq_div_pow]
  case isFalse h =>
    exact (Nat.div_eq_of_lt (a.isLt.trans_le (Nat.pow_le_pow_right two_pos (not_lt.mp h)))).symm

/-- A signed word divided by 2^31 or more leaves its sign. -/
theorem toInt_ediv_two_pow {a : Word} {n : Nat} (h : 31 ≤ n) : a.toInt / 2 ^ n = if a.toInt < 0 then -1 else 0 := by
  have hpow : (2 : Int) ^ 31 ≤ 2 ^ n := pow_le_pow_right₀ (by norm_num) h
  have hlo := a.le_toInt
  have hhi := a.toInt_lt
  norm_num at hlo hhi
  split
  case isTrue hneg => exact Int.ediv_eq_iff_of_pos (by omega) |>.mpr (by constructor <;> omega)
  case isFalse hpos => exact Int.ediv_eq_zero_of_lt (not_lt.mp hpos) (by omega)

theorem sarW_eq (a b : Word) : sarW a b = BitVec.ofInt 32 (a.toInt / 2 ^ b.toNat) := by
  have hshift : sarW a b = BitVec.ofInt 32 (a.toInt / 2 ^ min b.toNat 31) := by
    rw [sarW, BitVec.sshiftRight, Int.shiftRight_eq_div_pow, Nat.cast_pow, Nat.cast_ofNat]
  rw [hshift]
  rcases le_total b.toNat 31 with h | h
  · rw [min_eq_left h]
  · rw [min_eq_right h, toInt_ediv_two_pow le_rfl, toInt_ediv_two_pow h]

theorem funnelCount_eq (m : BitVec 3) (c : Word) : funnelCount m c = if m = 1 then min c.toNat 32 else c.toNat % 32 := by
  simp only [funnelCount, beq_iff_eq]

theorem fshlW_eq (m : BitVec 3) (a b c : Word) : fshlW m a b c =
    ((a ++ b : BitVec 64) <<< (if m = 1 then min c.toNat 32 else c.toNat % 32)).extractLsb' 32 32 := by
  rw [fshlW, funnelCount_eq, hiOf, pairOf]

theorem fshrW_eq (m : BitVec 3) (a b c : Word) : fshrW m a b c =
    ((a ++ b : BitVec 64) >>> (if m = 1 then min c.toNat 32 else c.toNat % 32)).extractLsb' 0 32 := by
  rw [fshrW, funnelCount_eq, loOf, pairOf]

/-- Settles O3: each shift is one lane's word, and its result the quotient or product by the power of its whole count. -/
theorem shiftWords : Obligations.ShiftWords :=
  ⟨fun _ => onRegs_of_binaryR (fun _ => rfl) (fun _ => rfl) shlW_eq,
    fun _ => onImm_of_binaryI (fun _ => rfl) (fun _ => rfl) shlW_eq,
    fun _ => onRegs_of_binaryR (fun _ => rfl) (fun _ => rfl) shrW_eq,
    fun _ => onImm_of_binaryI (fun _ => rfl) (fun _ => rfl) shrW_eq,
    fun _ => onRegs_of_binaryR (fun _ => rfl) (fun _ => rfl) sarW_eq,
    fun _ => onImm_of_binaryI (fun _ => rfl) (fun _ => rfl) sarW_eq,
    fun o => onThree_of_ternaryR (fun _ => rfl) (fun _ => rfl) (fshlW_eq o.mod),
    fun o => onThree_of_ternaryR (fun _ => rfl) (fun _ => rfl) (fshrW_eq o.mod)⟩

/-! ### Bits of one word (R112, R114, R116) -/

/-- One minterm of LGATE at one bit: the table's entry `j`, where the source bits are the digits of `j`. -/
theorem getLsbD_minterm (table : BitVec 8) (j : Nat) (a b c : Word) {k : Nat} (hk : k < 32) :
    (if table.getLsbD j then (if j % 2 = 1 then a else ~~~ a) &&& (if j / 2 % 2 = 1 then b else ~~~ b) &&&
      (if j / 4 % 2 = 1 then c else ~~~ c) else 0).getLsbD k =
    (table.getLsbD j && (a.getLsbD k == decide (j % 2 = 1)) && (b.getLsbD k == decide (j / 2 % 2 = 1)) &&
      (c.getLsbD k == decide (j / 4 % 2 = 1))) := by
  cases table.getLsbD j
  case false => simp
  case true => split_ifs <;> simp [*]

/-- The OR of a table's minterms gives at each bit the table's entry of the three source bits (R112). -/
theorem lgateW_eq (table : BitVec 8) (a b c : Word) : lgateW table a b c = BitVec.ofFnLE fun k : Fin 32 =>
    table.getLsbD ((if a.getLsbD k then 1 else 0) + 2 * (if b.getLsbD k then 1 else 0) + 4 * (if c.getLsbD k then 1 else 0)) := by
  apply BitVec.eq_of_getLsbD_eq
  intro k hk
  rw [BitVec.getLsbD_ofFnLE, dif_pos hk]
  unfold lgateW
  extract_lets term
  have hterm : ∀ j, (term j).getLsbD k = _ := fun j => getLsbD_minterm table j a b c hk
  simp only [BitVec.getLsbD_or, hterm]
  cases a.getLsbD k <;> cases b.getLsbD k <;> cases c.getLsbD k <;> simp

theorem lgate_completes (o : FmtL) : Completes (.lgate o) (fun _ _ u => u.put o.d.toNat
    (lgateW o.table (u.reg o.a.toNat).val (u.reg o.b.toNat).val (u.reg o.c.toNat).val)) fun _ => 0 :=
  completes_laneWord (ss := src o.a 1 false false ++ (src o.b 1 false false ++ src o.c 1 false false)) (ds := [o.d.toNat])
    (f := fun _ _ u => (u.put o.d.toNat
      (lgateW o.table (u.reg o.a.toNat).val (u.reg o.b.toNat).val (u.reg o.c.toNat).val), 0))
    (fun _ => rfl) (fun _ => rfl)
    (fun _ => by
      simp only [List.flatMap_append, covers_append]
      exact ⟨covers_left (covers_left (covers_right (covers_src (.reg 1) _ _ _ _ le_rfl))),
        covers_left (covers_right (covers_src (.reg 1) _ _ _ _ le_rfl)), covers_right (covers_src (.reg 1) _ _ _ _ le_rfl)⟩)
    (fun _ => covers_left (covers_left (covers_left (covers_dst (.reg 1) _ 1 le_rfl))))
    (fun _ _ _ _ _ _ _ => rfl) fun b => laneFlags_zero b.warp _

theorem popcW_eq (a : Word) : popcW a = BitVec.ofNat 32 ((List.range 32).filter fun k => a.getLsbD k).length := rfl

/-- The place of the highest set bit, searched from the top (R114). -/
theorem clzW_eq (a : Word) : clzW a = BitVec.ofNat 32 (((List.range 32).find? fun k => a.getLsbD (31 - k)).getD 32) := by
  rw [clzW, natWord]
  split
  case isTrue h =>
    subst h
    rfl
  case isFalse h =>
    have hne : a.toNat ≠ 0 := fun h0 => h (BitVec.eq_of_toNat_eq h0)
    have hlog : a.toNat.log2 < 32 := (Nat.log2_lt hne).mpr a.isLt
    have hfind : (List.range 32).find? (fun k => a.getLsbD (31 - k)) = some (31 - a.toNat.log2) := by
      refine List.find?_range_eq_some.mpr ⟨?_, by simp; omega, fun j hj => ?_⟩
      · rw [show 31 - (31 - a.toNat.log2) = a.toNat.log2 by omega]
        exact Nat.testBit_log2 hne
      · rw [Bool.not_eq_true']
        exact Nat.testBit_lt_two_pow (Nat.lt_log2_self.trans_le (Nat.pow_le_pow_right two_pos (by omega)))
    rw [hfind, Option.getD_some]

/-! ### Sums and products of several sources (R111, R116) -/

theorem exec_lea (o : FmtR) (s : State) :
    exec (.lea o) s = ternaryR (.lea o) o (fun a b c => a + b <<< o.mod.toNat + c) s := rfl

theorem lea_eq (m : BitVec 3) (a b c : Word) :
    a + b <<< m.toNat + c = a + b * BitVec.ofNat 32 (2 ^ m.toNat) + c := by
  rw [BitVec.shiftLeft_eq_mul_twoPow]
  rcases mod_cases m with rfl | rfl | rfl | rfl | rfl | rfl | rfl | rfl <;> rfl

theorem imadW_eq (m : BitVec 3) (a b c : Word) : imadW m a b c =
    if m = 1 then BitVec.ofInt 32 (max (-2 ^ 31) (min (a.toInt * b.toInt + c.toInt) (2 ^ 31 - 1))) else a * b + c := by
  simp only [imadW, beq_iff_eq, satS_eq]

/-- A sign-extended word is its signed value. -/
theorem imadwPair_eq (m : BitVec 3) (a b : Word) (c : Word64) : imadwPair m a b c =
    if m = 1 then BitVec.ofNat 64 (a.toNat * b.toNat) + c else BitVec.ofInt 64 (a.toInt * b.toInt) + c := by
  simp only [imadwPair, beq_iff_eq, BitVec.ofNat_mul, BitVec.ofNat_toNat, BitVec.ofInt_mul]
  rfl

theorem addcSum_eq (m : BitVec 3) (a b : Word) (p : Bool) :
    addcSum m a b p = a.toNat + (if m = 1 then ~~~ b else b).toNat + if p then 1 else 0 := by
  simp only [addcSum, beq_iff_eq]
  split
  case isTrue => rw [BitVec.toNat_not]
  case isFalse => rfl

theorem absMod_eq (m : BitVec 3) (a : Word) : absMod m a =
    if m = 1 then BitVec.ofInt 32 (max (-2 ^ 31) (min |a.toInt| (2 ^ 31 - 1))) else BitVec.ofInt 32 |a.toInt| := by
  simp only [absMod, beq_iff_eq, satS_eq, intWord, Int.natCast_natAbs]

theorem negMod_eq (m : BitVec 3) (a : Word) : negMod m a =
    if m = 1 then BitVec.ofInt 32 (max (-2 ^ 31) (min (-a.toInt) (2 ^ 31 - 1))) else -a := by
  simp only [negMod, beq_iff_eq, satS_eq]

theorem imadw_completes (o : FmtR) : Completes (.imadw o) (fun _ _ u => u.putPair o.d.toNat
    (imadwPair o.mod (u.val o.a o.za) (u.val o.b o.zb) (if o.zc then 0 else u.pair o.c.toNat))) fun _ => 0 :=
  completes_laneWordR3 1 1 2 2 (fun _ => rfl) (fun _ => rfl) le_rfl le_rfl le_rfl le_rfl

/-- The carry of IADDC is read before it is written. -/
theorem iaddc_completes (o : FmtR) : Completes (.iaddc o) (fun _ _ u =>
    let x := addcSum o.mod (u.val o.a o.za) (u.val o.b o.zb) (u.pred o.c.toNat)
    (u.put o.d.toNat (BitVec.ofNat 32 x)).setPred o.c.toNat (decide (2 ^ 32 ≤ x))) fun _ => 0 :=
  completes_laneWordR3 1 1 0 1 (fun _ => rfl) (fun _ => rfl) le_rfl le_rfl (Nat.zero_le _) le_rfl

/-- Settles O4: each word is one lane's word over the registers it names, and its result the value of its rule. -/
theorem bitWords : Obligations.BitWords := by
  refine ⟨fun o => ?lgate, fun _ => onOne_of_unaryR (fun _ => rfl) (fun _ => rfl) popcW_eq,
    fun _ => onOne_of_unaryR (fun _ => rfl) (fun _ => rfl) clzW_eq,
    fun _ => onOne_of_unaryR (fun _ => rfl) (fun _ => rfl) fun _ => rfl,
    fun _ => onRegs_of_binaryR (fun _ => rfl) (fun _ => rfl) fun _ _ => rfl,
    fun _ => onThree_of_ternaryR (fun _ => rfl) (fun _ => rfl) fun _ _ _ => rfl,
    fun o => onThree_of_ternaryR (exec_lea o) (fun _ => rfl) (lea_eq o.mod),
    fun o => onThree_of_ternaryR (fun _ => rfl) (fun _ => rfl) (imadW_eq o.mod),
    fun o => ?imadw, fun o => ?iaddc,
    fun o => onOne_of_unaryR (fun _ => rfl) (fun _ => rfl) (absMod_eq o.mod),
    fun o => onOne_of_unaryR (fun _ => rfl) (fun _ => rfl) (negMod_eq o.mod)⟩
  case lgate => simpa only [lgateW_eq] using lgate_completes o
  case imadw => simpa only [imadwPair_eq] using imadw_completes o
  case iaddc => simpa only [addcSum_eq] using iaddc_completes o

end Sys2Proof.Machine
end


section
/-! PROOFS. The words on the warp: MOVW, WSET, SREAD, BALLOT, FLTM, MGET and YIELD (R102, R104-R106, R151, R156, R170, R178). -/

namespace Sys2Proof.Machine

/-! ### Words that act once for the bundle -/

/-- A word that runs and changes its warp by `f` before it ends leaves the warp so. -/
theorem becomes_runWord {i : Instr} {s : State} {b : Bundle} {body : Bundle → Lanes → State → State} {f : Warp → Warp}
    (h : Runs i s b) (hb : body b (acting i b) s = finishWord b (s.modWarp b.w f)) :
    ∃ t, runWord i body s = .next t ∧ WarpBecomes b (f b.warp) s t :=
  ⟨_, (runWord_next body h).trans (congrArg _ hb), becomes_finish h.1 f⟩

/-- A lowest guard-true lane whose sources are full waits for what the bundle's word waits for (R102). -/
theorem withLeader_waits {i : Instr} {s : State} {b : Bundle} (h : Leads i s b) {k : WordInfo}
    (hk : i.info b.warp.width = some k) {ss : List Src} (hs : Covers k.regs (ss.flatMap Src.regs)) {wait : State → Bool}
    (hw : wait s = true) (act : Bundle → Lanes → Nat → State → State) :
    withLeader ss wait act b (acting i b) s = blockWord b s := by
  obtain ⟨-, h0, hfull⟩ := h
  obtain ⟨l, ls, hl⟩ := List.exists_cons_of_ne_nil (exists_actor h0)
  have hlow : lowestLane b.warp.width (acting i b) = some l := by
    rw [lowestLane, show laneList b.warp.width (acting i b) = l :: ls from hl, List.head?_cons]
  have hlead : leader i b = l := by rw [leader, hlow, Option.getD_some]
  have htrap : ((b.warp.thread l).map fun t => t.emptyTrap ss).getD false = false := by
    cases ht : b.warp.thread l with
    | none => rfl
    | some t =>
      simp only [Option.map_some, Option.getD_some, Thread.emptyTrap, List.any_eq_false, Bool.and_eq_true, not_and]
      intro x hx _
      simp only [Thread.anyEmpty, List.any_eq_true, not_exists, not_and, Bool.not_eq_true', Bool.not_eq_false]
      intro r hr
      obtain ⟨q, hq, j, hj, rfl⟩ := hs r (List.mem_flatMap.2 ⟨x, hx, hr⟩)
      exact hfull t k (hlead ▸ ht) hk q hq j hj
  simp only [withLeader, hlow, htrap, hw, Bool.or_true, if_true, Bool.false_eq_true, if_false]

/-- New data for the guard-true threads alone is a word's effect without flags. -/
theorem effect_of_becomes_mapLanes {i : Instr} {b : Bundle} {g : Nat → Thread → Thread} {s t : State}
    (h : WarpBecomes b (b.warp.mapLanes (acting i b) g) s t) : Effect i b g 0 s t := by
  have hflags : b.warp.fpflags ||| 0 = b.warp.fpflags := BitVec.or_zero
  rw [Effect, hflags]
  exact h

/-! ### MOVW and WSET (R102) -/

theorem exec_movw (o : FmtI) (s : State) : exec (.movw o) s = execMovw o s := rfl

theorem exec_wset (o : FmtI) (s : State) : exec (.wset o) s = execWset o s := rfl

/-- MOVW of an empty w register waits, or traps its guard-true threads. -/
theorem exec_movw_of_empty {o : FmtI} {s : State} {b : Bundle} (h : Runs (.movw o) s b) (h0 : acting (.movw o) b ≠ 0)
    (he : (b.wr o.imm.toNat).full = false) : exec (.movw o) s =
      .next (if o.ea then trapWord b (acting (.movw o) b) 0x04 s else blockWord b s) := by
  rw [Bundle.wr] at he
  rw [exec_movw, execMovw, runWord_next _ h]
  simp only [he, ne_eq, h0, not_false_eq_true, decide_true, Bool.not_false, Bool.true_and, if_true]

/-- MOVW of a full w register writes it to every guard-true thread. -/
theorem exec_movw_of_full {o : FmtI} {s : State} {b : Bundle} (h : Runs (.movw o) s b) (hf : NamedFull (.movw o) b)
    (hw : (b.wr o.imm.toNat).full = true) :
    ∃ t, exec (.movw o) s = .next t ∧ Effect (.movw o) b (fun _ u => u.put o.d.toNat (b.wr o.imm.toNat).val) 0 s t := by
  have hd := covers_dI o 1 0 3 [0] (.reg 1) .none true true (decide (o.imm.toNat < 64)) le_rfl
  have hw' : (b.warp.wregs.getD o.imm.toNat zeroReg).full = true := hw
  rw [exec_movw, execMovw]
  refine (becomes_runWord (f := fun x => x.mapLanes (acting (.movw o) b) fun _ u => u.put o.d.toNat (b.wr o.imm.toNat).val)
    h ?_).imp fun t ⟨ht, hE⟩ => ⟨ht, effect_of_becomes_mapLanes hE⟩
  simp only [hw', Bool.not_true, Bool.and_false, Bool.false_and, Bool.false_eq_true, if_false]
  exact withOperands_act hf rfl (ss := []) (covers_nil _) hd _ s

/-- The sources of WSET are among the registers it names. -/
theorem covers_wset (o : FmtI) (W : Nat) : ∃ k, (Instr.wset o).info W = some k ∧ Covers k.regs ((srcsI o).flatMap Src.regs) :=
  ⟨_, rfl, covers_srcsI o _ _ _ _ _ _ _ _ le_rfl⟩

/-- WSET waits for an empty w register. -/
theorem exec_wset_of_empty {o : FmtI} {s : State} {b : Bundle} (h : Leads (.wset o) s b)
    (he : (b.wr o.imm.toNat).full = false) : exec (.wset o) s = .next (blockWord b s) := by
  have ⟨hr, _, _⟩ := h
  obtain ⟨k, hk, hs⟩ := covers_wset o b.warp.width
  rw [Bundle.wr] at he
  rw [exec_wset, execWset, runWord_next _ hr, withLeader_waits h hk hs]
  simp only [hr.1, Option.map_some, Option.getD_some, he, Bool.not_false]

/-- WSET of a full w register writes it from the lowest guard-true lane. -/
theorem exec_wset_of_full {o : FmtI} {s : State} {b : Bundle} (h : Leads (.wset o) s b)
    (hw : (b.wr o.imm.toNat).full = true) : ∃ t, exec (.wset o) s = .next t ∧ WarpBecomes b
      { b.warp with wregs := b.warp.wregs.set o.imm.toNat ⟨leadVal (.wset o) b o.a o.za, true⟩ } s t := by
  have ⟨hr, _, _⟩ := h
  obtain ⟨k, hk, hs⟩ := covers_wset o b.warp.width
  rw [Bundle.wr] at hw
  exact becomes_runWord (f := fun x => { x with wregs := x.wregs.set o.imm.toNat ⟨leadVal (.wset o) b o.a o.za, true⟩ }) hr
    (withLeader_act h hk hs (by simp only [hr.1, Option.map_some, Option.getD_some, hw, Bool.not_true]) _)

/-! ### SREAD (R104-R106) -/

theorem exec_sread (o : FmtI) (s : State) : exec (.sread o) s = execSread o s := rfl

/-- The registers SREAD writes are among those it names. -/
theorem covers_sread (o : FmtI) (W : Nat) : ∃ k, (Instr.sread o).info W = some k ∧
    Covers k.regs (regRange o.d.toNat (if sreg64 o.imm.toNat then 2 else 1)) :=
  ⟨_, rfl, covers_dI o _ _ _ _ _ _ _ _ _ le_rfl⟩

theorem tput_tput_same {α : Type} (t : Table α) (k : Nat) (u v : α) : tput (tput t k u) k v = tput t k v := by
  induction t with
  | nil => simp [tput]
  | cons x t ih =>
    obtain ⟨i, a⟩ := x
    by_cases hi : i = k <;> simp [tput, hi, ih]

/-- Two changes of one warp are one. -/
theorem State.modWarp_modWarp (s : State) (w : Nat) (f g : Warp → Warp) :
    (s.modWarp w f).modWarp w g = s.modWarp w fun x => g (f x) := by
  cases hw : s.warp? w with
  | none => simp only [State.modWarp, hw]
  | some x =>
    simp only [State.modWarp, hw, State.warp?_setWarp]
    simp only [State.setWarp, tput_tput_same]

/-- The warp after SREAD: the register's value in every guard-true thread, and .clr clears the flags returned. -/
def sreadWarp (o : FmtI) (s : State) (b : Bundle) (x : Warp) : Warp :=
  { x.mapLanes (acting (.sread o) b) fun l u => u.putSreg o.d.toNat o.imm.toNat (sregValue s b.warp l u o.imm.toNat) with
    fpflags := if o.mod = 1 ∧ acting (.sread o) b ≠ 0 then x.fpflags &&& ~~~ b.warp.fpflags else x.fpflags }

theorem sreadWarp_of_clear {o : FmtI} {b : Bundle} (s : State) (h : o.mod = 1 ∧ acting (.sread o) b ≠ 0) :
    sreadWarp o s b = fun x =>
      { x.mapLanes (acting (.sread o) b) fun l u => u.putSreg o.d.toNat o.imm.toNat (sregValue s b.warp l u o.imm.toNat) with
        fpflags := x.fpflags &&& ~~~ b.warp.fpflags } := by
  funext x
  rw [sreadWarp, if_pos h]

theorem sreadWarp_of_keep {o : FmtI} {b : Bundle} (s : State) (h : ¬ (o.mod = 1 ∧ acting (.sread o) b ≠ 0)) :
    sreadWarp o s b = fun x =>
      x.mapLanes (acting (.sread o) b) fun l u => u.putSreg o.d.toNat o.imm.toNat (sregValue s b.warp l u o.imm.toNat) := by
  funext x
  rw [sreadWarp, if_neg h]
  rfl

/-- The bundle's own warp ends with no flag after .clr, and with its flags otherwise. -/
theorem sreadWarp_self (o : FmtI) (s : State) (b : Bundle) : sreadWarp o s b b.warp =
    { b.warp.mapLanes (acting (.sread o) b) fun l u => u.putSreg o.d.toNat o.imm.toNat (sregValue s b.warp l u o.imm.toNat) with
      fpflags := if o.mod = 1 ∧ acting (.sread o) b ≠ 0 then 0 else b.warp.fpflags } := by
  have hself : b.warp.fpflags &&& ~~~ b.warp.fpflags = 0 := BitVec.and_not_self _
  rw [sreadWarp, hself]

/-- A register below 0x100, or one read by a bundle that runs a handler, is read. -/
theorem exec_sread_reads {o : FmtI} {s : State} {b : Bundle} (h : Runs (.sread o) s b) (hf : NamedFull (.sread o) b)
    (hin : o.imm.toNat < 0x100 ∨ Inside b b.iss.lanes) :
    ∃ t, exec (.sread o) s = .next t ∧ WarpBecomes b (sreadWarp o s b b.warp) s t := by
  obtain ⟨k, hk, hd⟩ := covers_sread o b.warp.width
  have hbad : (if 0x100 ≤ o.imm.toNat then b.iss.lanes &&& ~~~ b.inHandler b.iss.lanes else 0) = 0 := by
    split
    case isTrue hge => exact hin.resolve_left (not_lt.mpr hge)
    case isFalse => rfl
  rw [exec_sread, execSread]
  refine becomes_runWord (f := sreadWarp o s b) h ?_
  simp only [hbad, trapThen, if_true]
  refine (withOperands_act hf hk (ss := []) (covers_nil _) hd _ s).trans (congrArg (finishWord b) ?_)
  have hclear : (o.mod == 1 && acting (.sread o) b != 0) = decide (o.mod = 1 ∧ acting (.sread o) b ≠ 0) := by
    simp [beq_eq_decide, bne]
  rw [hclear]
  by_cases hc : o.mod = 1 ∧ acting (.sread o) b ≠ 0
  · rw [if_pos (decide_eq_true hc), sreadWarp_of_clear s hc, State.mapLanes, State.modWarp_modWarp]
    rfl
  · rw [if_neg (by simpa using hc), sreadWarp_of_keep s hc, State.mapLanes]

/-! ### BALLOT, FLTM, MGET and YIELD (R151, R156, R170, R178) -/

theorem exec_ballot (o : FmtR) (s : State) : exec (.ballot o) s = execBallot o s := rfl

theorem exec_fltmClr (o : FmtR) (s : State) : exec (.fltmClr o) s = execFltmClr o s := rfl

theorem exec_yieldStanding (o : FmtS) (s : State) : exec (.yieldStanding o) s = execYieldStanding o s := rfl

/-- What BALLOT makes of a mask's bits `k`: `v` is where the predicate holds among the lanes `m` (R156). -/
def ballotBits (mod : BitVec 3) (m v k : Lanes) : Lanes := match mod.toNat with
  | 0 => v
  | 1 => k ||| v
  | _ => (k &&& ~~~ m) ||| v

theorem ballotBits_eq (mod : BitVec 3) (m v k : Lanes) :
    ballotBits mod m v k = if mod = 0 then v else if mod = 1 then k ||| v else k &&& ~~~ m ||| v := by
  rcases mod_cases mod with h | h | h | h | h | h | h | h <;> rw [h] <;> rfl

/-- BALLOT writes a mask from the predicates of its guard-true threads, and looks whether the mask is complete. -/
theorem exec_ballot_of_acting {o : FmtR} {s : State} {b : Bundle} (h : Runs (.ballot o) s b) (h0 : acting (.ballot o) b ≠ 0) :
    exec (.ballot o) s = .next (finishWord b (checkMask b.w (o.d.toNat % 16) (s.modWarp b.w fun x =>
      { x with masks := lmod x.masks (o.d.toNat % 16) fun r =>
          { r with bits := ballotBits o.mod (acting (.ballot o) b) (laneFilter b.warp.width (acting (.ballot o) b) fun l =>
            ((b.warp.thread l).map fun t => t.pred o.a.toNat).getD false) r.bits } }))) := by
  rw [exec_ballot, execBallot, runWord_next _ h, if_neg h0]
  rfl

/-- FLTM names its destination alone. -/
theorem fltm_completes (o : FmtR) : Completes (.fltm o)
    (fun b _ u => u.put o.d.toNat (b.warp.faults.extractLsb' (32 * o.mod.toNat) 32)) fun _ => 0 :=
  completes_laneWord (ss := []) (ds := [o.d.toNat]) (f := fun w _ u => (u.put o.d.toNat (lanesWord w.faults o.mod.toNat), 0))
    (fun _ => rfl) (fun _ => rfl) (fun _ => covers_nil _) (fun _ => covers_dR o 1 _ _ _ _ _ _ _ _ _ _ le_rfl)
    (fun _ _ _ _ _ _ _ => rfl) fun b => laneFlags_zero b.warp _

/-- The part of a mask or of its arrived lanes that MGET reads; a mask that is not there reads 0. -/
def mgetWord (o : FmtS) (x : Warp) : Word := match x.masks[o.idx.toNat]? with
  | some r => lanesWord (if o.mod == 0 then r.bits else r.arr) o.imm.toNat
  | none => 0

theorem mgetWord_eq (o : FmtS) (x : Warp) : mgetWord o x = ((x.masks[o.idx.toNat]?).map fun r =>
    (if o.mod = 0 then r.bits else r.arr).extractLsb' (32 * o.imm.toNat) 32).getD 0 := by
  rw [mgetWord]
  cases x.masks[o.idx.toNat]? with
  | none => rfl
  | some r => simp only [lanesWord, beq_iff_eq, Option.map_some, Option.getD_some]

/-- MGET names its destination alone. -/
theorem mget_completes (o : FmtS) : Completes (.mget o) (fun b _ u => u.put o.v.toNat (mgetWord o b.warp)) fun _ => 0 :=
  completes_laneWord (ss := []) (ds := regRange o.v.toNat 1) (f := fun w _ u => (u.put o.v.toNat (mgetWord o w), 0))
    (fun _ => rfl) (fun _ => rfl) (fun _ => covers_nil _)
    (fun _ => covers_of_mem (List.mem_singleton_self _) fun _ h => mem_regRange.1 h)
    (fun _ _ _ _ _ _ _ => rfl) fun b => laneFlags_zero b.warp _

/-- Settles O9: MOVW and WSET by whether the w register is empty, the others by the one change each makes to its warp. -/
theorem warpWords : Obligations.WarpWords := by
  refine ⟨fun o s b h h0 he => ⟨fun hea => ?movwWaits, fun hea => ?movwTraps⟩, fun o s b h he => exec_wset_of_empty h he,
    fun o s b h hf hw => exec_movw_of_full h hf hw, fun o s b h hw => exec_wset_of_full h hw,
    fun o s b h hf hin => ?sread, fun o s b h h0 => ?ballot, fltm_completes, fun o s b h h0 => ?fltmClr,
    fun o => ?mget, fun o s b h h0 => ?yield⟩
  case movwWaits => simpa only [hea, Bool.false_eq_true, if_false] using exec_movw_of_empty h h0 he
  case movwTraps => simpa only [hea, if_true] using exec_movw_of_empty h h0 he
  case sread => simpa only [sreadWarp_self] using exec_sread_reads h hf hin
  case ballot => simpa only [ballotBits_eq] using exec_ballot_of_acting h h0
  case fltmClr =>
    rw [exec_fltmClr, execFltmClr]
    exact becomes_runWord (f := fun x => { x with faults := 0 }) h (congrArg (finishWord b) (if_neg h0))
  case mget => simpa only [mgetWord_eq] using mget_completes o
  case yield => rw [exec_yieldStanding, execYieldStanding, runWord_next _ h, if_neg h0]

end Sys2Proof.Machine
end


section
/-! PROOFS. The words that ask whether their threads run a handler (R105, R213, R313, R317). -/

namespace Sys2Proof.Machine

/-! ### Sets of lanes in and outside a handler -/

/-- A word that passes its static checks acts for its guard-true lanes, attached to a block or not. -/
theorem runWord_of_staticTrap_eq_none {i : Instr} {s : State} {b : Bundle} (body : Bundle → Lanes → State → State)
    (hb : s.bundle? = some b) (hs : staticTrap i b = none) : runWord i body s = .next (body b (acting i b) s) := by
  simp only [runWord, hb, hs, acting]

theorem getLsbD_acting {i : Instr} {b : Bundle} {l : Nat} (h : (acting i b).getLsbD l = true) : b.iss.lanes.getLsbD l = true := by
  rw [acting, guardLanes, getLsbD_laneFilter] at h
  simp only [Bool.and_eq_true] at h
  obtain ⟨-, ⟨-, hl⟩, -⟩ := h
  exact hl

/-- The guard-true lanes are lanes of the bundle. -/
theorem acting_and_not_lanes (i : Instr) (b : Bundle) : acting i b &&& ~~~ b.iss.lanes = 0 := by
  apply BitVec.eq_of_getLsbD_eq
  intro l hl
  cases ha : (acting i b).getLsbD l with
  | false => simp [ha]
  | true => simp [getLsbD_acting ha]

/-- Of lanes that all run a handler, those that do are all of them. -/
theorem inHandler_of_inside {b : Bundle} {m : Lanes} (h : Inside b m) : b.inHandler m = m := by
  apply BitVec.eq_of_getLsbD_eq
  intro l hl
  have hlane : (m &&& ~~~ b.inHandler m).getLsbD l = (0 : Lanes).getLsbD l := by rw [h]
  cases hm : m.getLsbD l with
  | false => rw [Bundle.inHandler, getLsbD_laneFilter, hm]; simp
  | true => simpa [hl, hm] using hlane

/-- All lanes of a word trap, and it has no other effect (R314). -/
theorem trapThen_all {b : Bundle} {m out : Lanes} (c : Nat) (act : Lanes → State → State) (s : State) (h0 : out ≠ 0)
    (hall : m &&& ~~~ out = 0) : trapThen b m out c act s = trapWord b out c s := by
  simp only [trapThen, h0, if_false, hall, decide_true, Bool.true_or, if_true, trapWord]

theorem trapThen_none {b : Bundle} (m : Lanes) (c : Nat) (act : Lanes → State → State) (s : State) :
    trapThen b m 0 c act s = act m s := if_pos rfl

/-- The lanes outside a handler, of lanes none of which runs one. -/
theorem and_not_inHandler_of_outside {b : Bundle} {m : Lanes} (h : Outside b m) : m &&& ~~~ b.inHandler m = m := by
  rw [h, lanes_and_all]

theorem trapWord_none (b : Bundle) (c : Nat) (s : State) : trapWord b 0 c s = finishWord b s := by
  rw [trapWord, trapLanes_none]

/-! ### The barrier words (R213) -/

/-- The operands `ss` and `ds` of a word neither trap nor make it wait. -/
def OperandsReady (i : Instr) (ss : List Src) (ds : List Nat) (b : Bundle) : Prop :=
  ∀ (act : Bundle → Lanes → State → State) (s : State), withOperands ss ds act b (acting i b) s = act b (acting i b) s

/-- A word without operands waits for none. -/
theorem operandsReady_nil (i : Instr) (b : Bundle) : OperandsReady i [] [] b := by
  intro act s
  have htrap : laneFilter b.warp.width (acting i b) (fun l => ((b.warp.thread l).map fun t => t.emptyTrap []).getD false) = 0 :=
    laneFilter_none _ _ _ fun l _ _ => by cases b.warp.thread l <;> rfl
  have hwait : ((laneList b.warp.width (acting i b)).any fun l =>
      ((b.warp.thread l).map fun t => t.mustWait [] []).getD false) = false := by
    rw [List.any_eq_false]
    intro l _
    cases b.warp.thread l <;> simp [Thread.mustWait, Thread.anyEmpty]
  simp only [withOperands, htrap, if_true, lanes_and_all, hwait, Bool.false_eq_true, if_false]

/-- With the registers it names full, a word waits for no operand. -/
theorem operandsReady_of_namedFull {i : Instr} {b : Bundle} (hf : NamedFull i b) {k : WordInfo}
    (hk : i.info b.warp.width = some k) {ss : List Src} {ds : List Nat} (hs : Covers k.regs (ss.flatMap Src.regs))
    (hd : Covers k.regs ds) : OperandsReady i ss ds b :=
  withOperands_act hf hk hs hd

/-- A word that is `barWord` over the sources `ss`, whatever it does when it may. -/
def IsBarWord (i : Instr) (ss : List Src) : Prop := ∃ bad act, ∀ s, exec i s = barWord i ss bad act s

section
variable {i : Instr} {ss : List Src} {s : State} {b : Bundle} (hi : IsBarWord i ss) (hb : s.bundle? = some b)
  (hs : staticTrap i b = none) (ho : OperandsReady i ss [] b)
include hi hb hs ho

/-- Inside a handler a barrier word is ILLEGAL-INSTRUCTION. -/
theorem IsBarWord.traps_inside (h0 : acting i b ≠ 0) (hin : Inside b (acting i b)) :
    exec i s = .next (trapWord b (acting i b) 0x02 s) := by
  obtain ⟨bad, act, hexec⟩ := hi
  rw [hexec, barWord, runWord_of_staticTrap_eq_none _ hb hs, ho, inHandler_of_inside hin,
    trapThen_all _ _ _ h0 (BitVec.and_not_self _)]

/-- Outside one, a barrier word that needs a block is ILLEGAL-OPERAND in a warp without one. -/
theorem IsBarWord.traps_unattached (hneeds : needsBlock i = true) (hblock : b.warp.block = none)
    (hlive : b.warp.regionLive = false) (hout : Outside b (acting i b)) :
    exec i s = .next (trapWord b (acting i b) 0x03 s) := by
  obtain ⟨bad, act, hexec⟩ := hi
  have hlacks : lacksBlock i b = true := by rw [lacksBlock, hneeds, hblock]; rfl
  rw [hexec, barWord, runWord_of_staticTrap_eq_none _ hb hs, ho, hout, trapThen_none]
  by_cases h0 : acting i b = 0
  · rw [if_pos h0, h0, trapWord_none]
  · simp only [h0, hlive, hlacks, Bool.true_or, Bool.false_eq_true, if_false, if_true]

end

/-- BARB, BARA, BARD and TREEA read no register. -/
theorem isBarWord_nil (o : FmtS) : ∀ i ∈ [Instr.barb o, .bara o, .bard o, .treea o], IsBarWord i [] := by
  simp only [List.forall_mem_cons]
  exact ⟨⟨_, _, fun _ => rfl⟩, ⟨_, _, fun _ => rfl⟩, ⟨_, _, fun _ => rfl⟩, ⟨_, _, fun _ => rfl⟩, List.forall_mem_nil _⟩

/-- BARW and TREEW read their token, which is among the registers they name. -/
theorem isBarWord_token (o : FmtS) : ∀ i ∈ [Instr.barw o, .treew o], IsBarWord i [⟨o.v.toNat, 1, false⟩] ∧
    ∀ W, ∃ k, i.info W = some k ∧ Covers k.regs ([(⟨o.v.toNat, 1, false⟩ : Src)].flatMap Src.regs) := by
  have hcovers : Covers [(o.v.toNat, 1)] ([(⟨o.v.toNat, 1, false⟩ : Src)].flatMap Src.regs) :=
    covers_of_mem (List.mem_singleton_self _) fun x hx => mem_regRange.mp (by simpa [Src.regs] using hx)
  simp only [List.forall_mem_cons]
  exact ⟨⟨⟨_, _, fun _ => rfl⟩, fun _ => ⟨_, rfl, hcovers⟩⟩, ⟨⟨_, _, fun _ => rfl⟩, fun _ => ⟨_, rfl, hcovers⟩⟩,
    List.forall_mem_nil _⟩

/-- The sources of BARW and TREEW are ready once the registers they name are full. -/
theorem operandsReady_token {o : FmtS} {i : Instr} {b : Bundle} (hi : i ∈ [Instr.barw o, .treew o]) (hf : NamedFull i b) :
    OperandsReady i [⟨o.v.toNat, 1, false⟩] [] b := by
  obtain ⟨-, hinfo⟩ := isBarWord_token o i hi
  obtain ⟨k, hk, hs⟩ := hinfo b.warp.width
  exact operandsReady_of_namedFull hf hk hs (covers_nil _)

/-! ### TRET, CSRR, CSRW and SREAD (R105, R313, R317) -/

theorem exec_tret (o : FmtR) (s : State) : exec (.tret o) s = execTret o s := rfl

theorem exec_csrr (o : FmtI) (s : State) : exec (.csrr o) s = execCsrr o s := rfl

theorem exec_csrw (o : FmtI) (s : State) : exec (.csrw o) s = execCsrw o s := rfl

/-- TRET reads its target, a pair, under mod 2 alone. -/
theorem operandsReady_tret {o : FmtR} {b : Bundle} (hf : NamedFull (.tret o) b) :
    OperandsReady (.tret o) (if o.mod.toNat = 2 then src o.a 2 o.ea o.za else []) [] b := by
  refine operandsReady_of_namedFull hf rfl ?_ (covers_nil _)
  by_cases hm : o.mod = 2
  · rw [if_pos (show o.mod.toNat = 2 from congrArg BitVec.toNat hm), if_pos (beq_iff_eq.mpr hm)]
    exact covers_left (covers_left (covers_right (covers_src (.reg 2) _ _ _ _ le_rfl)))
  · rw [if_neg (show ¬ o.mod.toNat = 2 from fun h => hm (BitVec.eq_of_toNat_eq h))]
    exact covers_nil _

/-- TRET outside a handler is ILLEGAL-INSTRUCTION. -/
theorem exec_tret_outside {o : FmtR} {s : State} {b : Bundle} (h : ActsFree (.tret o) s b)
    (hout : Outside b (acting (.tret o) b)) : exec (.tret o) s = .next (trapWord b (acting (.tret o) b) 0x02 s) := by
  obtain ⟨⟨hr, hf, h0⟩, hlive⟩ := h
  rw [exec_tret, execTret, runWord_next _ hr]
  simp only [h0, hlive, Bool.false_eq_true, if_false]
  rw [operandsReady_tret hf, and_not_inHandler_of_outside hout, trapThen_all _ _ _ h0 (BitVec.and_not_self _)]

/-- CSRR of a handler's register outside a handler is ILLEGAL-OPERAND. -/
theorem exec_csrr_outside {o : FmtI} {s : State} {b : Bundle} (hr : Runs (.csrr o) s b) (h0 : acting (.csrr o) b ≠ 0)
    (hk : csrHandler o.imm.toNat = true) (hout : Outside b (acting (.csrr o) b)) :
    exec (.csrr o) s = .next (trapWord b (acting (.csrr o) b) 0x03 s) := by
  rw [exec_csrr, execCsrr, runWord_next _ hr, if_pos hk, and_not_inHandler_of_outside hout,
    trapThen_all _ _ _ h0 (BitVec.and_not_self _)]

/-- The source of CSRW is among the registers it names. -/
theorem operandsReady_csrw {o : FmtI} {b : Bundle} (hf : NamedFull (.csrw o) b) :
    OperandsReady (.csrw o) (src o.a (if csr64 o.imm.toNat then 2 else 1) o.ea o.za) [] b :=
  operandsReady_of_namedFull hf rfl (covers_right (covers_src (.reg _) _ _ _ _ le_rfl)) (covers_nil _)

/-- CSRW of a read-only register, and of a handler's register outside a handler, is ILLEGAL-OPERAND. -/
theorem exec_csrw_denied {o : FmtI} {s : State} {b : Bundle} (h : ActsFree (.csrw o) s b)
    (hk : csrReadOnly o.imm.toNat = true ∨ csrHandler o.imm.toNat = true ∧ Outside b (acting (.csrw o) b)) :
    exec (.csrw o) s = .next (trapWord b (acting (.csrw o) b) 0x03 s) := by
  obtain ⟨⟨hr, hf, h0⟩, hlive⟩ := h
  have hdenied : (if csrReadOnly o.imm.toNat then acting (.csrw o) b
      else if csrHandler o.imm.toNat then acting (.csrw o) b &&& ~~~ b.inHandler (acting (.csrw o) b) else 0) =
      acting (.csrw o) b := by
    split
    case isTrue => rfl
    case isFalse hro =>
      obtain ⟨hh, hout⟩ := hk.resolve_left hro
      rw [if_pos hh, and_not_inHandler_of_outside hout]
  rw [exec_csrw, execCsrw, runWord_next _ hr]
  simp only [h0, hlive, Bool.false_eq_true, if_false]
  rw [operandsReady_csrw hf, hdenied, trapThen_all _ _ _ h0 (BitVec.and_not_self _)]

/-- SREAD of a trap register outside a handler is ILLEGAL-OPERAND on the whole bundle. -/
theorem exec_sread_outside {o : FmtI} {s : State} {b : Bundle} (hr : Runs (.sread o) s b) (hk : 0x100 ≤ o.imm.toNat)
    (h0 : b.iss.lanes ≠ 0) (hout : Outside b b.iss.lanes) :
    exec (.sread o) s = .next (trapWord b b.iss.lanes 0x03 s) := by
  rw [exec_sread, execSread, runWord_next _ hr, if_pos hk, and_not_inHandler_of_outside hout,
    trapThen_all _ _ _ h0 (acting_and_not_lanes _ b)]

/-- Settles O30: the barrier words by their common frame, then each word that asks for a handler by the lanes it finds
outside one. -/
theorem handlerWords : Obligations.HandlerWords := by
  refine ⟨fun o s b i hi hb hs h0 hin => (isBarWord_nil o i hi).traps_inside hb hs (operandsReady_nil i b) h0 hin,
    fun o s b i hi hb hs hf h0 hin => ?token,
    fun o s b i hi hb hs hblock hlive hout => ?unattached, fun o s b hb hs hblock hf hlive hout => ?barw,
    fun o s b h hout => exec_tret_outside h hout, fun o s b h h0 hk hout => exec_csrr_outside h h0 hk hout,
    fun o s b h hk => exec_csrw_denied h hk, fun o s b h hk h0 hout => exec_sread_outside h hk h0 hout⟩
  case token =>
    obtain ⟨hbar, -⟩ := isBarWord_token o i hi
    exact hbar.traps_inside hb hs (operandsReady_token hi hf) h0 hin
  case unattached =>
    have hneeds : ∀ i ∈ [Instr.barb o, .bara o, .bard o], needsBlock i = true := by
      simp only [List.forall_mem_cons]
      exact ⟨rfl, rfl, rfl, List.forall_mem_nil _⟩
    have hbar := isBarWord_nil o i (List.mem_append_left [Instr.treea o] hi)
    exact hbar.traps_unattached hb hs (operandsReady_nil i b) (hneeds i hi) hblock hlive hout
  case barw =>
    have hmem : Instr.barw o ∈ [Instr.barw o, .treew o] := List.mem_cons_self
    obtain ⟨hbar, -⟩ := isBarWord_token o _ hmem
    exact hbar.traps_unattached hb hs (operandsReady_token hmem hf) rfl hblock hlive hout

end Sys2Proof.Machine
end


section
/-! PROOFS. Compaction, grants, SFU results, fences, sleeps and publication (R96, R133, R134, R171, R181, R186, R188, R239). -/

namespace Sys2Proof.Machine

/-! ### What each of these events runs -/

theorem exec_compactorMove (w base : Nat) (s : State) : exec (.compactorMove w base) s = execCompactorMove w base s := rfl

theorem exec_sfuQueueGrant (die core slice : Nat) (s : State) :
    exec (.sfuQueueGrant die core slice) s = execSfuQueueGrant die core slice s := rfl

theorem exec_sfuResult (op : Nat) (s : State) : exec (.sfuResult op) s = execSfuResult op s := rfl

theorem exec_tableEntryGrant (die core : Nat) (s : State) :
    exec (.tableEntryGrant die core) s = execTableEntryGrant die core s := rfl

theorem exec_copyQueueAccept (die core : Nat) (s : State) :
    exec (.copyQueueAccept die core) s = execCopyQueueAccept die core s := rfl

theorem exec_fenceComplete (w : Nat) (pipe : Pipe) (s : State) : exec (.fenceComplete w pipe) s = execFenceComplete w pipe s := rfl

theorem exec_sleepRelease (w : Nat) (s : State) : exec (.sleepRelease w) s = execSleepRelease w s := rfl

theorem exec_publication (act : Nat) (s : State) : exec (.publication act) s = execPublication act s := rfl

/-! ### Compaction (R96) -/

/-- An allocation of full registers, of a warp that executes no clause, moves to a run that no other allocation of its core meets. -/
theorem exec_compactorMove_of_free {w base : Nat} {s : State} {x : Warp} (hx : s.warp? w = some x)
    (hfull : x.threads.all (fun t => t.regs.all VReg.full) = true) (hA : x.issA = none) (hB : x.issB = none)
    (hrun : x.stopped = false) (hpark : (x.block.map s.parked).getD false = false) (halign : base % (x.width * x.nregs) = 0)
    (hfit : base + x.width * x.nregs ≤ 131072)
    (hfree : ∀ y ∈ standing s x.die, y.1 ≠ w → y.2.core = x.core →
      y.2.place.base + y.2.place.size ≤ base ∨ base + x.width * x.nregs ≤ y.2.place.base) :
    exec (.compactorMove w base) s = .next (s.setWarp w { x with base := base }) := by
  have hothers : ((standing s x.die).filterMap fun y => if y.1 != w && y.2.core == x.core then some y.2.place else none).all
      (fun p => decide (p.base + p.size ≤ base) || decide (base + x.width * x.nregs ≤ p.base)) = true := by
    rw [List.all_eq_true]
    intro p hp
    obtain ⟨y, hy, hplace⟩ := List.mem_filterMap.mp hp
    split at hplace
    case isTrue hc =>
      simp only [Bool.and_eq_true, bne_iff_ne, beq_iff_eq] at hc
      obtain rfl := Option.some.inj hplace
      simpa only [Bool.or_eq_true, decide_eq_true_eq] using hfree y hy hc.1 hc.2
    case isFalse => contradiction
  rw [exec_compactorMove, execCompactorMove, hx]
  simp only [hfull, hA, hB, hrun, hpark, halign, hfit, hothers, Option.isNone_none, Bool.not_false, beq_self_eq_true,
    decide_true, Bool.and_self, if_true]

/-! ### Grants (R133, R186, R239) -/

/-- The word that has waited longest executes again, on its pipe or from its continuation clause. -/
theorem grantFirst_cons (w : Nat) (p : Pipe) (rest : List (Nat × Pipe)) (s : State) : grantFirst ((w, p) :: rest) s =
    if (tget s.parks w).isSome then
      fillParked w { s with parks := tmod s.parks w fun x => { x with iss := { x.iss with grant := .granted } } }
    else s.modIss w p fun i => { i with blocked := false, grant := .granted } := rfl

/-- An SFU queue with a free entry grants it to the first of the slice's waiting words. -/
theorem exec_sfuQueueGrant_of_free {die core slice : Nat} {s : State} {q : List (Nat × Pipe)}
    (hq : sfuWaiters s die core slice = q) (hfree : sfuUsed s die core slice < 16) :
    exec (.sfuQueueGrant die core slice) s = .next (grantFirst q s) := by
  rw [exec_sfuQueueGrant, execSfuQueueGrant, if_pos hfree, hq]

/-- A transaction table with a free entry grants it to the first waiting word, when no engine action waits before it. -/
theorem exec_tableEntryGrant_of_word {die core w : Nat} {s : State} {p : Pipe} {rest : List (Nat × Pipe)}
    (hq : waitersOf s (s.core die core).tableQ 2 = (w, p) :: rest) (hact : tget s.acts w = none)
    (hfree : tableUsed s die core < 256) :
    exec (.tableEntryGrant die core) s = .next (grantFirst ((w, p) :: rest) s) := by
  simp only [exec_tableEntryGrant, execTableEntryGrant, hfree, hq, hact, List.head?_cons, Option.isSome_none,
    Bool.false_eq_true, if_true, if_false]

/-- A copy queue with a free place grants it to the first waiting word, when no schedule waits before it. -/
theorem exec_copyQueueAccept_of_word {die core w : Nat} {s : State} {p : Pipe} {rest : List (Nat × Pipe)}
    (hq : copyWaiters s die core = (w, p) :: rest) (hfree : copiesUsed s die core < 128) (hblock : s.block? w = none) :
    exec (.copyQueueAccept die core) s = .next (grantFirst ((w, p) :: rest) s) := by
  simp only [exec_copyQueueAccept, execCopyQueueAccept, hfree, hq, hblock, List.head?_cons, Option.isSome_none,
    Bool.false_eq_true, if_true, if_false]

/-! ### Results, fences and sleeps (R134, R171, R188) -/

/-- The results of a warp's oldest SFU word land. -/
theorem exec_sfuResult_of_oldest {op : Nat} {s : State} {r : SfuOp} (hr : tget s.sfu op = some r)
    (hold : (tfind s.sfu fun _ q => q.warp == r.warp).map Prod.fst = some op) (hearly : r.early s = false) :
    exec (.sfuResult op) s = .next (reapWarp r.warp { s.modWarp r.warp (landSfu r) with sfu := tdel s.sfu op }) := by
  simp only [exec_sfuResult, execSfuResult, hr, hold, hearly, Bool.not_false, decide_true, Bool.and_self, if_true]

/-- A fence whose entries are gone goes on. -/
theorem exec_fenceComplete_of_gone {w : Nat} {pipe : Pipe} {s : State} {x : Warp} {i : Issue} {ids : List Nat}
    (hx : s.warp? w = some x) (hi : x.iss pipe = some i) (hids : i.after = some ids) (hgone : entriesGone s ids = true) :
    exec (.fenceComplete w pipe) s = .next (s.modIss w pipe fun i => { i with blocked := false }) := by
  simp only [exec_fenceComplete, execFenceComplete, hx, hi, hids, Option.bind_some, hgone, if_true]

/-- A sleep whose time has come by `now` (R171). -/
def Wait.sleepDue (now : Nat) : Wait → Bool
  | .sleep t => decide (t ≤ now)
  | _ => false

/-- Sleepers whose time has come are released together. -/
theorem exec_sleepRelease_of_warp {w : Nat} {s : State} {x : Warp} (hx : s.warp? w = some x) :
    exec (.sleepRelease w) s = .next (releaseWhere w (Wait.sleepDue (s.die x.die).time) s) := by
  rw [exec_sleepRelease, execSleepRelease, hx]
  rfl

/-! ### Publication (R181) -/

/-- A waiting action of a warp whose block is not PARKED is at its next stage. -/
theorem resumeAct_phase {act b : Nat} {s : State} {a : EngineAct} {x : Warp} {pub ref : Bool} (ha : tget s.acts act = some a)
    (hk : a.kind = .phase pub ref) (hx : s.warp? a.warp = some x) (hb : x.block = some b) (hp : s.parked b = false) :
    resumeAct act s = stepPhase act a pub ref s := by
  simp only [resumeAct, ha, hx, hk, hb, Option.map_some, Option.getD_some, hp, Bool.false_and, Bool.false_eq_true, if_false]

/-- The publication a PHASE waits for is made, and a refresh that is still to come stays. -/
theorem exec_publication_of_phase {act b : Nat} {s : State} {a : EngineAct} {x : Warp} {ref : Bool}
    (ha : tget s.acts act = some a) (hk : a.kind = .phase true ref) (hx : s.warp? a.warp = some x) (hb : x.block = some b)
    (hp : s.parked b = false) (hdone : doneOps s a.after = true) : exec (.publication act) s =
      .next (if ref then setAct act (.phase false true) (publish b s) else endAct act (publish b s)) := by
  have hblock : actBlock s a = some b := by rw [actBlock, hx, Option.bind_some, hb]
  have hpublishes : a.kind.publishes = true := by rw [hk]; rfl
  simp only [exec_publication, execPublication, ha, hpublishes, if_true, resumeAct_phase ha hk hx hb hp, stepPhase, hblock,
    hdone, Bool.not_true, Bool.false_eq_true, if_false]

/-- Settles O36: each event by the lemma of what it does; the three grants take the head of their queue. -/
theorem grantSteps : Obligations.GrantSteps := by
  refine ⟨fun w base s x => exec_compactorMove_of_free, fun die core slice s w p rest hq hfree => ?sfu,
    fun op s r => exec_sfuResult_of_oldest, fun die core s w p rest hq hact hfree => ?table,
    fun die core s w p rest hq hfree hblock => ?copy,
    fun w pipe s x i ids => exec_fenceComplete_of_gone, fun w s x hx => (exec_sleepRelease_of_warp hx :),
    fun act s a x b ref => exec_publication_of_phase⟩
  case sfu => rw [exec_sfuQueueGrant_of_free hq hfree, grantFirst_cons]
  case table => rw [exec_tableEntryGrant_of_word hq hact hfree, grantFirst_cons]
  case copy => rw [exec_copyQueueAccept_of_word hq hfree hblock, grantFirst_cons]

end Sys2Proof.Machine
end


section
/-! PROOFS. The buffer, ring and stage words, and the ends of the actions they start (R97, R235, R250-R254, R257). -/

namespace Sys2Proof.Machine

/-! ### The frame of these words -/

/-- A word that runs has the block it needs (R166, R233). -/
theorem Runs.lacksBlock_eq_false {i : Instr} {s : State} {b : Bundle} (h : Runs i s b) : lacksBlock i b = false := by
  obtain ⟨-, -, hneeds⟩ := h
  rw [lacksBlock, Bool.and_eq_false_imp]
  intro hn
  rw [Option.isNone_eq_false_iff]
  exact hneeds hn

/-- A buffer word that stands, whose w registers are full and whose buffer allows it, acts. -/
theorem bufWord_acts {i : Instr} {void : Bundle → Lanes → Bool} {bad : State → Bundle → Bool}
    {act : Bundle → Lanes → State → State} {s : State} {b : Bundle} (h : StandsFree i s b)
    (hvoid : void b (acting i b) = false) (hbad : bad s b = false) :
    bufWord i void bad act s = .next (act b (acting i b) s) := by
  obtain ⟨hr, h0, hlive⟩ := h
  rw [bufWord, runWord_next _ hr]
  simp only [h0, hlive, hvoid, hr.lacksBlock_eq_false, hbad, Bool.or_self, Bool.false_eq_true, if_false]

/-- The threads of a word that starts an engine action wait for it, under a new name (R138). -/
def startedAct (b : Bundle) (m : Lanes) (k : ActKind) (after : List Nat) (s : State) : State :=
  finishWord b (waitLanes b m (.act s.fresh) { s with
    acts := tput s.acts s.fresh ⟨b.w, m, k, after⟩, fresh := s.fresh + 1 })

theorem startAct_eq (b : Bundle) (m : Lanes) (k : ActKind) (after : List Nat) (s : State) :
    startAct b m k after s = startedAct b m k after s := rfl

theorem exec_bufd (o : FmtC) (s : State) : exec (.bufd o) s = execBufd o s := rfl

theorem exec_publ (o : FmtC) (s : State) : exec (.publ o) s = execPubl o s := rfl

theorem exec_rpush (o : FmtC) (s : State) : exec (.rpush o) s = execRpush o s := rfl

theorem exec_rpop (o : FmtC) (s : State) : exec (.rpop o) s = execRpop o s := rfl

theorem exec_rwaitC (o : FmtC) (s : State) : exec (.rwaitC o) s = rwaitWord (.rwaitC o) o false s := rfl

theorem exec_rwaitP (o : FmtC) (s : State) : exec (.rwaitP o) s = rwaitWord (.rwaitP o) o true s := rfl

theorem exec_cpyq (o : FmtC) (s : State) : exec (.cpyq o) s = execCpyq o s := rfl

theorem exec_stageMax (o : FmtC) (s : State) : exec (.stageMax o) s = execStageMax o s := rfl

theorem exec_stageAdd (o : FmtC) (s : State) : exec (.stageAdd o) s = execStageAdd o s := rfl

/-! ### BUFD, PUBL and RPUSH start an action (R235, R250, R254) -/

/-- No copy that waits to fire: none ends. -/
theorem endUnfired_of_none {b q : Nat} {s : State} (h : (s.copies.filter fun c => c.2.block == some b && c.2.buf == q &&
    c.2.st == .waiting && (c.2.kind.writesNear || c.2.kind.readsNear)) = []) : endUnfired b q s = s := by
  rw [endUnfired, h, List.foldl_nil]

/-- The four words of the descriptor that BUFD reads. -/
def descWords (o : FmtC) (b : Bundle) : List Word := (List.range 4).map fun k => (b.wr (o.wa.toNat + k)).val

theorem map_val_wr (o : FmtC) (b : Bundle) :
    ((List.range 4).map fun k => b.wr (o.wa.toNat + k)).map VReg.val = descWords o b := by
  rw [List.map_map]
  rfl

/-- BUFD with a descriptor that passes the checks of R234 waits for the users of its buffer. -/
theorem exec_bufd_of_ok {o : FmtC} {s : State} {b : Bundle} (h : StandsFree (.bufd o) s b)
    (hfull : ∀ r ∈ (List.range 4).map (fun k => b.wr (o.wa.toNat + k)), r.full = true)
    (hok : descOk (descWords o b) (fun die => limitOf s b.warp (if die then .scratch else .shared)) = true)
    (hnone : (s.copies.filter fun c => c.2.block == some (b.warp.block.getD 0) && c.2.buf == o.buf.toNat &&
      c.2.st == .waiting && (c.2.kind.writesNear || c.2.kind.readsNear)) = []) :
    exec (.bufd o) s = .next (startedAct b (acting (.bufd o) b) (.bufd o.buf.toNat (descWords o b))
      (usersOf s (b.warp.block.getD 0) o.buf.toNat) s) := by
  have hvoid : b.wrEmpty ((List.range 4).map (o.wa.toNat + ·)) = false := by
    simp only [Bundle.wrEmpty, List.any_eq_false, List.forall_mem_map] at hfull ⊢
    intro k hk
    simp [hfull k hk]
  rw [exec_bufd, execBufd, bufWord_acts h hvoid rfl]
  rw [descWords] at hok
  simp only [hok, Bool.not_true, Bool.false_eq_true, if_false, endUnfired_of_none hnone, startAct_eq, descWords]

/-- PUBL of a plain buffer, a scratchpad one under its mod, waits for the writers of the buffer. -/
theorem exec_publ_of_plain {o : FmtC} {s : State} {b : Bundle} (h : StandsFree (.publ o) s b)
    (hkind : (bufOf s b o.buf).kind = .plain) (hdie : o.mod = 1 → (bufOf s b o.buf).die = true) :
    exec (.publ o) s = .next (startedAct b (acting (.publ o) b)
      (.publ (b.warp.block.getD 0) o.buf.toNat (o.mod == 1) false) (writersOf s (b.warp.block.getD 0) o.buf.toNat) s) := by
  have hbad : ((wordBuf s b o.buf).kind != .plain || (o.mod == 1 && !(wordBuf s b o.buf).die)) = false := by
    rw [show wordBuf s b o.buf = bufOf s b o.buf from rfl, hkind]
    simpa using hdie
  rw [exec_publ, execPubl, bufWord_acts h rfl hbad, startAct_eq]

/-- RPUSH of slots its ring has room for waits for the warp's stores. -/
theorem exec_rpush_of_room {o : FmtC} {s : State} {b : Bundle} (h : StandsFree (.rpush o) s b)
    (hkind : (bufOf s b o.buf).kind = .ring) (hside : (bufOf s b o.buf).psd = false) (himm : o.imm ≠ 0)
    (hslots : o.imm.toNat ≤ (bufOf s b o.buf).slots)
    (hroom : o.imm.toNat ≤ ((bufOf s b o.buf).rl + BitVec.ofNat 32 (bufOf s b o.buf).slots - (bufOf s b o.buf).p).toNat) :
    exec (.rpush o) s = .next (startedAct b (acting (.rpush o) b) (.rpush o.buf.toNat o.imm.toNat) (storesOf s b.w) s) := by
  have hbad : ((bufOf s b o.buf).kind != .ring || (bufOf s b o.buf).psd || o.imm == 0 ||
      decide ((bufOf s b o.buf).slots < o.imm.toNat) || decide (((bufOf s b o.buf).rl +
        BitVec.ofNat 32 (bufOf s b o.buf).slots - (bufOf s b o.buf).p).toNat < o.imm.toNat)) = false := by
    simp only [hkind, hside, beq_eq_false_iff_ne.mpr himm, decide_eq_false (not_lt.mpr hslots),
      decide_eq_false (not_lt.mpr hroom), bne_self_eq_false, Bool.or_self]
  rw [exec_rpush, execRpush, bufWord_acts h rfl hbad, startAct_eq]

/-! ### RPOP, RWAIT, CPYQ and STAGE act at once (R251-R253, R257) -/

/-- RPOP of slots the block has acquired advances C. -/
theorem exec_rpop_of_acquired {o : FmtC} {s : State} {b : Bundle} (h : StandsFree (.rpop o) s b)
    (hkind : (bufOf s b o.buf).kind = .ring) (hside : (bufOf s b o.buf).csd = false) (himm : o.imm ≠ 0)
    (hroom : o.imm.toNat ≤ ((bufOf s b o.buf).aq - (bufOf s b o.buf).c).toNat) :
    exec (.rpop o) s = .next (finishWord b (s.modBuf (b.warp.block.getD 0) o.buf.toNat fun q =>
      { q with c := q.c + o.imm.setWidth 32, cr := q.c + o.imm.setWidth 32 })) := by
  have hbad : ((bufOf s b o.buf).kind != .ring || (bufOf s b o.buf).csd || o.imm == 0 ||
      decide (((bufOf s b o.buf).aq - (bufOf s b o.buf).c).toNat < o.imm.toNat)) = false := by
    simp only [hkind, hside, beq_eq_false_iff_ne.mpr himm, decide_eq_false (not_lt.mpr hroom), bne_self_eq_false, Bool.or_self]
  rw [exec_rpop, execRpop, bufWord_acts h rfl hbad]

/-- RWAIT on the side that its ring leaves to the threads waits with its token empty. -/
theorem rwaitWord_waits {i : Instr} {o : FmtC} {prod : Bool} {s : State} {b : Bundle} (h : StandsFree i s b)
    (hkind : (bufOf s b o.buf).kind = .ring)
    (hside : (if prod then (bufOf s b o.buf).psd else (bufOf s b o.buf).csd) = false) (himm : o.imm ≠ 0)
    (hslots : o.imm.toNat ≤ (bufOf s b o.buf).slots) (htoken : (b.wr o.token.toNat).full = true) :
    rwaitWord i o prod s = .next (finishWord b { s.setWreg b.w o.token.toNat ⟨(b.wr o.token.toNat).val, false⟩ with
      rwaits := tput s.rwaits s.fresh (b.warp.block.getD 0, o.buf.toNat, o.imm.toNat, o.token.toNat, prod)
      rwaitW := tput s.rwaitW s.fresh b.w, fresh := s.fresh + 1 }) := by
  have hbad : ((bufOf s b o.buf).kind != .ring || (if prod then (bufOf s b o.buf).psd else (bufOf s b o.buf).csd) ||
      o.imm == 0 || decide ((bufOf s b o.buf).slots < o.imm.toNat)) = false := by
    simp only [hkind, hside, beq_eq_false_iff_ne.mpr himm, decide_eq_false (not_lt.mpr hslots), bne_self_eq_false, Bool.or_self]
  rw [rwaitWord, bufWord_acts h rfl hbad]
  simp only [htoken, takeToken, Bool.not_true, Bool.false_eq_true, if_false, State.setWreg_rwaits, State.setWreg_rwaitW,
    State.setWreg_fresh]

/-- What CPYQ reads: a counter of the buffer, or the stage counter (R253). -/
def cpyqValue (o : FmtC) (s : State) (b : Bundle) : Word := match o.mod.toNat with
  | 0 => if (bufOf s b o.buf).kind = .ring then (bufOf s b o.buf).p else 0
  | 1 => if (bufOf s b o.buf).kind = .ring then (bufOf s b o.buf).c else 0
  | 2 => if (bufOf s b o.buf).kind = .ring then 0 else (bufOf s b o.buf).pubs
  | _ => ((s.block? (b.warp.block.getD 0)).map Block.sigma).getD 0

/-- CPYQ marks its register empty until the value lands. -/
theorem exec_cpyq_of_full {o : FmtC} {s : State} {b : Bundle} (h : StandsFree (.cpyq o) s b)
    (hkind : o.mod = 3 ∨ (bufOf s b o.buf).kind ≠ .none) (htoken : (b.wr o.token.toNat).full = true) :
    exec (.cpyq o) s = .next (finishWord b { s.setWreg b.w o.token.toNat ⟨(b.wr o.token.toNat).val, false⟩ with
      acts := tput s.acts s.fresh ⟨b.w, 0, .cpyq o.token.toNat (cpyqValue o s b), []⟩, fresh := s.fresh + 1 }) := by
  have hbad : (o.mod != 3 && (bufOf s b o.buf).kind == .none) = false := by
    rcases hkind with hm | hk
    · simp [hm]
    · simp [hk]
  rw [exec_cpyq, execCpyq, bufWord_acts h rfl hbad]
  simp only [htoken, takeToken, Bool.not_true, Bool.false_eq_true, if_false, State.setWreg_acts, State.setWreg_fresh]
  rfl

/-- With no store unacknowledged, a word that waits for them acts. -/
theorem afterStores_of_done {s : State} {b : Bundle} (h : StoresDone s b) (act : Bundle → Lanes → State → State) (m : Lanes) :
    afterStores act b m s = act b m s := by
  obtain ⟨hstores, hafter⟩ := h
  rw [afterStores, hafter, Option.getD_none, hstores]
  rfl

/-- A STAGE word whose source is full changes the stage counter. -/
theorem stageWord_acts {i : Instr} {o : FmtC} {f : Bundle → Word → Word} {s : State} {b : Bundle} (h : StandsFree i s b)
    (hdone : StoresDone s b) (hfull : i = .stageMax o → (b.wr o.wp.toNat).full = true) :
    stageWord i o f s = .next (finishWord b (s.modBlock (b.warp.block.getD 0) fun x => { x with sigma := f b x.sigma })) := by
  have hempty : (i == .stageMax o && !(b.wr o.wp.toNat).full) = false := by
    by_cases hi : i = .stageMax o
    · rw [hfull hi, Bool.not_true, Bool.and_false]
    · rw [beq_eq_false_iff_ne.mpr hi, Bool.false_and]
  have hvoid : (i == .stageMax o && b.wrEmpty [o.wp.toNat]) = false := by
    simpa only [Bundle.wrEmpty, List.any_cons, List.any_nil, Bool.or_false] using hempty
  rw [stageWord, bufWord_acts h hvoid rfl, afterStores_of_done hdone]
  simp only [hempty, Bool.false_eq_true, if_false]

/-- STAGE.max raises the counter to its operand. -/
theorem exec_stageMax_of_full {o : FmtC} {s : State} {b : Bundle} (h : StandsFree (.stageMax o) s b) (hdone : StoresDone s b)
    (hfull : (b.wr o.wp.toNat).full = true) :
    exec (.stageMax o) s = .next (finishWord b (s.modBlock (b.warp.block.getD 0) fun x =>
      { x with sigma := if x.sigma.toNat < (b.wr o.wp.toNat).val.toNat then (b.wr o.wp.toNat).val else x.sigma })) := by
  rw [exec_stageMax, execStageMax, stageWord_acts h hdone fun _ => hfull]
  simp only [BitVec.ult_eq_decide, decide_eq_true_eq]

/-- STAGE.add adds its immediate, up to the largest value. -/
theorem exec_stageAdd_of_done {o : FmtC} {s : State} {b : Bundle} (h : StandsFree (.stageAdd o) s b) (hdone : StoresDone s b) :
    exec (.stageAdd o) s = .next (finishWord b (s.modBlock (b.warp.block.getD 0) fun x =>
      { x with sigma := BitVec.ofNat 32 (min (x.sigma.toNat + o.imm.toNat) (2 ^ 32 - 1)) })) := by
  rw [exec_stageAdd, execStageAdd, stageWord_acts h hdone nofun]
  rfl

/-! ### The ends of the actions (R235, R250, R253, R254) -/

section
variable {id b : Nat} {s : State} {a : EngineAct} {x : Warp} (ha : tget s.acts id = some a) (hx : s.warp? a.warp = some x)
  (hp : (x.block.map s.parked).getD false = false)
include ha hx hp

/-- A buffer action of a warp whose block is not PARKED is at its next stage. -/
theorem resumeAct_bufAct (hk : (∃ q ws, a.kind = .bufd q ws) ∨ (∃ c q ref sw, a.kind = .publ c q ref sw) ∨
      (∃ q k, a.kind = .rpush q k) ∨ ∃ r v, a.kind = .cpyq r v) :
    resumeAct id s = stepBufAct id a s := by
  rcases hk with ⟨_, _, hk⟩ | ⟨_, _, _, _, hk⟩ | ⟨_, _, hk⟩ | ⟨_, _, hk⟩ <;>
    simp only [resumeAct, ha, hx, hk, hp, Bool.false_and, Bool.false_eq_true, if_false]

/-- The value of a CPYQ lands in its register. -/
theorem resumeAct_cpyq {r : Nat} {v : Word} (hk : a.kind = .cpyq r v) (hgone : goneAll s a.after = true) :
    resumeAct id s = fillToken a.warp r v { s with acts := tdel s.acts id } := by
  rw [resumeAct_bufAct ha hx hp (.inr (.inr (.inr ⟨r, v, hk⟩)))]
  simp only [stepBufAct, hgone, hk, Bool.not_true, Bool.false_eq_true, if_false]

/-- PUBL exchanges front and shadow, then refreshes the block's view if it must. -/
theorem resumeAct_publ {c q : Nat} {ref : Bool} (hk : a.kind = .publ c q ref false) (hgone : goneAll s a.after = true) :
    resumeAct id s = if ref then setAct id (.publ c q ref true) (exchangeBuf c q s) else endAct id (exchangeBuf c q s) := by
  rw [resumeAct_bufAct ha hx hp (.inr (.inl ⟨c, q, ref, false, hk⟩))]
  cases ref <;> simp only [stepBufAct, hgone, hk, Bool.not_true, Bool.false_eq_true, if_false, if_true]

theorem resumeAct_publ_swapped {c q : Nat} {ref : Bool} (hk : a.kind = .publ c q ref true) (hgone : goneAll s a.after = true) :
    resumeAct id s = endAct id (refresh c s) := by
  rw [resumeAct_bufAct ha hx hp (.inr (.inl ⟨c, q, ref, true, hk⟩))]
  simp only [stepBufAct, hgone, hk, Bool.not_true, Bool.false_eq_true, if_false, if_true]

variable (hb : x.block = some b)
include hb

omit ha hp in
theorem actBlock_eq_some : actBlock s a = some b := by rw [actBlock, hx, Option.bind_some, hb]

/-- BUFD installs its descriptor once nothing uses the buffer. -/
theorem resumeAct_bufd {q : Nat} {ws : List Word} (hk : a.kind = .bufd q ws) (hgone : goneAll s a.after = true)
    (hfree : usersOf (endUnfired b q s) b q = []) :
    resumeAct id s = endAct id (installBuf b q ws (endUnfired b q s)) := by
  rw [resumeAct_bufAct ha hx hp (.inl ⟨q, ws, hk⟩)]
  simp only [stepBufAct, hgone, hk, actBlock_eq_some hx hb, stepBufd, hfree, List.isEmpty_nil, Bool.not_true, Bool.false_eq_true,
    if_false, if_true]

/-- RPUSH advances P. -/
theorem resumeAct_rpush {q k : Nat} (hk : a.kind = .rpush q k) (hgone : goneAll s a.after = true) :
    resumeAct id s = endAct id (pushSlots b q k s) := by
  rw [resumeAct_bufAct ha hx hp (.inr (.inr (.inl ⟨q, k, hk⟩)))]
  simp only [stepBufAct, hgone, hk, actBlock_eq_some hx hb, Bool.not_true, Bool.false_eq_true, if_false]

end

/-- An action whose next stage publishes is tried again. -/
theorem exec_publication_of_publishes {id : Nat} {s : State} {a : EngineAct} (ha : tget s.acts id = some a)
    (hk : a.kind.publishes = true) : exec (.publication id) s = .next (resumeAct id s) := by
  simp only [exec_publication, execPublication, ha, hk, if_true]

/-- The exchange of a buffer in shared memory, and of one in the scratchpad window (R254). -/
theorem exchangeBuf_of_shared {b q : Nat} {s : State} {x : Block} (hx : s.block? b = some x) (hdie : (x.buf q).die = false) :
    exchangeBuf b q s = (s.modBuf b q fun z => { z with pubs := z.pubs + 1 }).modBlock b fun z => { z with
      mem := msetAll (msetAll z.mem (cellsAt (x.buf q).base (nearRead s x (x.buf q).die (x.buf q).second (x.buf q).size)))
        (cellsAt (x.buf q).second (nearRead s x (x.buf q).die (x.buf q).base (x.buf q).size)) } := by
  simp only [exchangeBuf, hx, hdie, Bool.false_eq_true, if_false]

theorem exchangeBuf_of_scratch {b q : Nat} {s : State} {x : Block} (hx : s.block? b = some x) (hdie : (x.buf q).die = true) :
    exchangeBuf b q s = homeWrite x.share ((List.range (x.buf q).size).map fun k => ((x.buf q).base + k,
        (tget (x.buf q).shadow ((x.buf q).second + k)).getD
          ((nearRead s x (x.buf q).die (x.buf q).second (x.buf q).size).getD k 0)))
      ((s.modBuf b q fun z => { z with pubs := z.pubs + 1 }).modBuf b q fun z =>
        { z with shadow := cellsAt (x.buf q).second (nearRead s x (x.buf q).die (x.buf q).base (x.buf q).size) }) := by
  simp only [exchangeBuf, hx, hdie, if_true]

theorem pushSlots_of_block {b q k : Nat} {s : State} {x : Block} (hx : s.block? b = some x) :
    let y := x.buf q
    let inSlot := fun (a : Nat) => ((List.range k).map fun i => nearAddr y true y.p (i * y.size)).any fun lo =>
      decide (lo ≤ a) && decide (a < lo + y.size)
    let out := x.pub.filter fun c => inSlot c.1
    let t := s.modBuf b q fun z => { z with p := z.p + BitVec.ofNat 32 k, pr := z.p + BitVec.ofNat 32 k }
    pushSlots b q k s = if y.die then homeWrite x.share out (t.modBlock b fun z =>
      { z with pub := z.pub.filter fun c => !inSlot c.1, view := msetAll z.view out }) else t := by
  simp only [pushSlots, hx]

/-- Settles O18: each word by the action it starts or the change it makes, each action by its last stage. -/
theorem bufferWords : Obligations.BufferWords := by
  refine ⟨fun o s b h => ?bufd, fun o s b h hkind hdie => exec_publ_of_plain h hkind hdie,
    fun o s b h => ?rpush, fun o s b h => ?rpop, fun o s b h => ?rwaitC, fun o s b h => ?rwaitP,
    fun o s b h hkind htoken => (exec_cpyq_of_full h hkind htoken :),
    fun id s a r v x ha hk hafter hx hp => resumeAct_cpyq ha hx hp hk (by rw [hafter]; rfl),
    fun o s b h hdone hfull => exec_stageMax_of_full h hdone hfull, fun o s b h hdone => exec_stageAdd_of_done h hdone,
    fun id s a x b ha hx hb hparked hgone => ?ends,
    fun b q s x hx => ⟨fun hdie => exchangeBuf_of_shared hx hdie, fun hdie => exchangeBuf_of_scratch hx hdie⟩,
    fun b q k s x hx => pushSlots_of_block hx⟩
  case bufd =>
    intro rs blk hfull hok hnone
    rw [map_val_wr] at hok
    rw [map_val_wr]
    exact exec_bufd_of_ok h hfull hok hnone
  case rpush => exact fun hkind hside himm hslots hroom => exec_rpush_of_room h hkind hside himm hslots hroom
  case rpop => exact fun hkind hside himm hroom => exec_rpop_of_acquired h hkind hside himm hroom
  case rwaitC =>
    exact fun hkind hside himm hslots htoken =>
      (exec_rwaitC o s).trans (rwaitWord_waits h hkind hside himm hslots htoken)
  case rwaitP =>
    exact fun hkind hside himm hslots htoken =>
      (exec_rwaitP o s).trans (rwaitWord_waits h hkind hside himm hslots htoken)
  case ends =>
    have hp : (x.block.map s.parked).getD false = false := by rw [hb, Option.map_some, Option.getD_some, hparked]
    exact ⟨fun q ws hk hfree => resumeAct_bufd ha hx hp hb hk hgone hfree,
      fun c q ref hk => ⟨resumeAct_publ ha hx hp hk hgone, exec_publication_of_publishes ha (by rw [hk]; rfl)⟩,
      fun c q ref hk => resumeAct_publ_swapped ha hx hp hk hgone,
      fun q k hk => (exec_publication_of_publishes ha (by rw [hk]; rfl)).trans
        (congrArg _ (resumeAct_rpush ha hx hp hb hk hgone))⟩

end Sys2Proof.Machine
end


section
/-! PROOFS. The block steps: placement, spare warps, shrink requests, pre-emption, saving, restoring and the end of a block
(R96, R166, R168, R172, R304-R308, R318). -/

namespace Sys2Proof.Machine

/-! ### What each event of a block runs -/

theorem exec_blockPlacement (share core : Nat) (s : State) :
    exec (.blockPlacement share core) s = execBlockPlacement share core s := rfl

theorem exec_placementWaitExpiry (share : Nat) (s : State) :
    exec (.placementWaitExpiry share) s = execPlacementWaitExpiry share s := rfl

theorem exec_spareWarpStart (share core slot : Nat) (s : State) :
    exec (.spareWarpStart share core slot) s = execSpareWarpStart share core slot s := rfl

theorem exec_shrinkRequest (block k : Nat) (s : State) : exec (.shrinkRequest block k) s = execShrinkRequest block k s := rfl

theorem exec_shrinkCancel (block : Nat) (s : State) : exec (.shrinkCancel block) s = execShrinkCancel block s := rfl

theorem exec_preemption (block : Nat) (s : State) : exec (.preemption block) s = execPreemption block s := rfl

theorem exec_blockSave (block : Nat) (s : State) : exec (.blockSave block) s = execBlockSave block s := rfl

theorem exec_blockRestore (block core : Nat) (s : State) : exec (.blockRestore block core) s = execBlockRestore block core s := rfl

theorem exec_blockEnd (block : Nat) (s : State) : exec (.blockEnd block) s = execBlockEnd block s := rfl

/-! ### Placement (R304, R305) -/

section
variable {share core : Nat} {s s1 t : State} {h : Share} {k : Kernel} {scheds : List (Option Sched)}
  (hh : s.share? share = some h) (hk : s.kernel? h.kern = some k) (hmay : mayPlace s (share, h) = true)
  (hcore : shareCore s h = some core)
  (hread : readScheds share h.ctx h.die k.launch.sched h.next (if k.launch.resident then h.nblocks - h.next else 1) s =
    (some scheds, s1))
include hh hk hmay hcore hread

/-- A block the dispatcher may place goes to the core the rules choose, once its copy schedule is read. -/
theorem exec_blockPlacement_of_single (hres : k.launch.resident = false)
    (hplace : placeBlock true share core (scheds.headD none) s1 = some t) :
    exec (.blockPlacement share core) s = .next (dropScheds share t) := by
  simp only [hres, Bool.false_eq_true, if_false] at hread
  simp only [exec_blockPlacement, execBlockPlacement, hh, hk, hmay, hcore, hres, hread, hplace, beq_self_eq_true, Bool.and_self,
    Bool.false_eq_true, if_false, if_true, Option.map_some, Option.getD_some]

/-- A die-resident share places all its blocks. -/
theorem exec_blockPlacement_of_resident (hres : k.launch.resident = true) (hplace : placeAll true share scheds s1 = some t) :
    exec (.blockPlacement share core) s = .next (dropScheds share t) := by
  simp only [hres, if_true] at hread
  simp only [exec_blockPlacement, execBlockPlacement, hh, hk, hmay, hcore, hres, hread, hplace, beq_self_eq_true, Bool.and_self,
    if_true, Option.map_some, Option.getD_some]

end

/-- A share whose block has waited 1 ms and has no place has resources kept. -/
theorem exec_placementWaitExpiry_of_waited {share t : Nat} {s : State} {h : Share} (hh : s.share? share = some h)
    (ht : h.waitAt = some t) (hwait : shareWaits s h = true) (hlong : t + 1000000 * 47000000 ≤ (s.die h.die).time)
    (hplace : canPlace s (share, h) = false) :
    exec (.placementWaitExpiry share) s = .next (s.setShare share { h with kept := true }) := by
  have hlong' : t + 1000000 * unitsPerNs ≤ (s.die h.die).time := hlong
  simp only [exec_placementWaitExpiry, execPlacementWaitExpiry, hh, ht, hwait, hplace, hlong', decide_true, Bool.not_false, Bool.and_self, if_true]

/-! ### Spare warps (R166) -/

/-- The warps of a kernel on a core that stand without a block. -/
def spareWarps (s : State) (h : Share) (core : Nat) : List (Nat × Warp) :=
  s.warps.filter fun w => w.2.kern == h.kern && w.2.die == h.die && w.2.core == core && w.2.block.isNone && w.2.live != 0

/-- A spare warp starts where a kernel has an index free for it and no share waits. -/
theorem exec_spareWarpStart_of_free {share core slot : Nat} {s : State} {h : Share} {k : Kernel} {base : Nat}
    (hh : s.share? share = some h) (hk : s.kernel? h.kern = some k)
    (hbase : freeBase (k.launch.width * k.launch.nregs) ((placesOn s h.die).filter fun p => p.core == core) = some base)
    (helastic : k.launch.elastic ≠ 0) (hmax : k.launch.wmin < k.launch.wmax) (hactive : k.st.active = true)
    (hsafe : (s.die h.die).safe = false) (hctx : ctxPlaces s h.ctx = true) (hretired : s.retired h.die core = false)
    (hgrid : ((blocksOn s h.die core).any fun b => b.2.kern == h.kern) = true) (hslot : slot < 64)
    (hfree : ∀ p ∈ (placesOn s h.die).filter fun p => p.core == core, p.slot ≠ slot)
    (hwidth : (((placesOn s h.die).filter fun p => p.core == core).map Place.width).sum + k.launch.width ≤ 2048)
    (hindex : (spareWarps s h core).length < freeIndices s h.kern h.die core k) (hwaiting : waitingShares s h.die = []) :
    exec (.spareWarpStart share core slot) s = .next (seedWarp s.fresh (s.bump.setWarp s.fresh
      (newWarp h.ctx h.kern share h.die 0 k.launch.elastic s.instant (s.die h.die).time none k.launch
        ⟨core, slot, base, k.launch.width * k.launch.nregs, k.launch.width⟩))) := by
  have hslots : ((placesOn s h.die).filter fun p => p.core == core).any (fun p => p.slot == slot) = false := by
    simp only [List.any_eq_false, beq_iff_eq]
    exact hfree
  rw [spareWarps] at hindex
  simp only [exec_spareWarpStart, execSpareWarpStart, hh, hk, hbase, bne_iff_ne.mpr helastic, hmax, hactive, hsafe, hctx,
    hretired, hgrid, hslot, hslots, hwidth, hindex, hwaiting, List.isEmpty_nil, decide_true, Bool.not_false, Bool.and_self, if_true]

/-! ### Shrink requests (R168, R306) -/

/-- One request on a die, on the block the rules choose for the first waiting share that one helps. -/
theorem exec_shrinkRequest_of_first {block k : Nat} {s : State} {b : Block} {h : Nat × Share} (hb : s.block? block = some b)
    (hfind : (blockedShares s b.die).find? (fun h => !(shrinkOrder s h).isEmpty) = some h)
    (hnone : ∀ x ∈ s.blocks, x.2.die = b.die → x.2.shrink = none)
    (hfirst : (shrinkOrder s h).head?.map Prod.fst = some block)
    (htarget : shrinkTarget s h block (s.launchOf b).wmin = some k) :
    exec (.shrinkRequest block k) s = .next (s.setBlock block { b with
      st := .shrinking, shrink := some ⟨k, (s.die b.die).time, h.1, h.2.next⟩ }) := by
  have hstands : s.blocks.any (fun x => x.2.die == b.die && x.2.shrink.isSome) = false := by
    simp only [List.any_eq_false, Bool.and_eq_true, beq_iff_eq, not_and, Bool.not_eq_true, Option.isSome_eq_false_iff,
      Option.isNone_iff_eq_none]
    exact hnone
  simp only [exec_shrinkRequest, execShrinkRequest, hb, hfind, hstands, hfirst, htarget, beq_self_eq_true, Bool.not_false,
    Bool.and_self, if_true]

/-- A request whose share has been placed elsewhere, or waits no more, is taken back. -/
theorem exec_shrinkCancel_of_placed {block : Nat} {s : State} {b : Block} {r : Shrink} (hb : s.block? block = some b)
    (hr : b.shrink = some r) (hgone : ∀ h, s.share? r.share = some h → shareWaits s h = true → h.next ≠ r.next) :
    exec (.shrinkCancel block) s = .next (s.setBlock block b.unshrink) := by
  have hnone : ((s.share? r.share).filter fun h => shareWaits s h && h.next == r.next) = none := by
    simp only [Option.filter_eq_none_iff, Bool.and_eq_true, beq_iff_eq, not_and]
    exact hgone
  simp only [exec_shrinkCancel, execShrinkCancel, hb, hr, hnone]

/-- After 1 ms it is taken back too, and the block is pre-empted for a kernel of higher priority that has no place yet. -/
theorem exec_shrinkCancel_of_expired {block : Nat} {s : State} {b : Block} {r : Shrink} {h : Share}
    (hb : s.block? block = some b) (hr : b.shrink = some r) (hh : s.share? r.share = some h) (hwait : shareWaits s h = true)
    (hnext : h.next = r.next) (hlong : r.at_ + 1000000 * 47000000 ≤ (s.die b.die).time) :
    exec (.shrinkCancel block) s = .next (expireShrink block b (r.share, h) s) := by
  have hsome : ((s.share? r.share).filter fun h => shareWaits s h && h.next == r.next) = some h := by
    simp only [hh, Option.filter_some, hwait, hnext, beq_self_eq_true, Bool.and_self, if_true]
  have hlong' : r.at_ + 1000000 * unitsPerNs ≤ (s.die b.die).time := hlong
  simp only [exec_shrinkCancel, execShrinkCancel, hb, hr, hsome, hlong', if_true]

theorem expireShrink_eq (block : Nat) (b : Block) (h : Nat × Share) (s : State) : expireShrink block b h s =
    if b.unshrink.savable = true ∧ prioOf (s.setBlock block b.unshrink) b.kern < prioOf (s.setBlock block b.unshrink) h.2.kern ∧
        canPlace (s.setBlock block b.unshrink) h = false then startSave block (s.setBlock block b.unshrink)
    else s.setBlock block b.unshrink := by
  simp only [expireShrink, Bool.and_eq_true, decide_eq_true_eq, Bool.not_eq_true', and_assoc]

/-! ### Pre-emption, saving and restoring (R307, R308, R318) -/

/-- A block the dispatcher may pre-empt starts to be saved. -/
theorem exec_preemption_of_may {block : Nat} {s : State} {x : Block} (hx : s.block? block = some x)
    (hmay : mayPreempt s block x = true) : exec (.preemption block) s = .next (startSave block s) := by
  simp only [exec_preemption, execPreemption, hx, hmay, if_true]

/-- The operations that a block's save withdraws: those that may be, and those ordered after them. -/
def goneOps (s : State) (block : Nat) : List Nat :=
  withdrawSet s (opsOfBlock s block) (opsOfBlock s block).length
    (((opsOfBlock s block).filter fun o => o.2.withdrawable).map Prod.fst)

/-- The state in which the warps of a block stand at clause boundaries, as far as they can. -/
def settledBlock (s : State) (block : Nat) : State := (s.blockWarps block).foldl (fun s w => settleWarp w.1 s) s

section
variable {block : Nat} {s s2 : State} {x0 x : Block} (hx0 : s.block? block = some x0) (hsaving : x0.saving = true)
  (hx : (settledBlock s block).block? block = some x)
  (hready : saveReady (settledBlock s block) block x (goneOps (settledBlock s block) block) = true)
  (hflush : flushBlock block x (settledBlock s block) = (true, s2))
include hx0 hsaving hx hready hflush

/-- An image that exceeds XSIZE ends the context. -/
theorem exec_blockSave_of_no_room (himage : startImage block x s2 = none) :
    exec (.blockSave block) s = .next (endContext x.ctx 0x09 (causeEngine x.die 0 0) s2) := by
  rw [settledBlock, goneOps] at hready
  rw [settledBlock] at hx hflush
  simp only [exec_blockSave, execBlockSave, hx0, hsaving, hx, hready, hflush, himage, Bool.not_true, Bool.false_eq_true,
    if_false]

/-- A block whose image is written is PARKED. -/
theorem exec_blockSave_of_written {s3 s4 : State} (himage : startImage block x s2 = some s3)
    (hput : putImage block (imageBytes s3 x / 16 + 1) s3 = (true, s4)) :
    exec (.blockSave block) s = .next (parkBlock block (goneOps (settledBlock s block) block) s4) := by
  rw [settledBlock, goneOps] at hready
  rw [settledBlock] at hx hflush
  simp only [exec_blockSave, execBlockSave, hx0, hsaving, hx, settledBlock, goneOps, hready, hflush, himage, hput, Bool.not_true,
    Bool.false_eq_true, if_false]

end

/-- A PARKED block that may be restored reads its image: its digest decides whether it runs on or its context ends. -/
theorem exec_blockRestore_of_read {block core : Nat} {s s1 : State} {x : Block} {sv : Saved} {places : List (Nat × Place)}
    {bs : List Byte} {a : Nat} (hx : s.block? block = some x) (hsv : x.saved = some sv)
    (hplaces : grantPlaces true (s.launchOf x) core (heldBy s block) (placesOn s x.die) = some places)
    (hparked : ((parkedBlocks s x.die).any fun b => b.1 == block) = true) (hsafe : (s.die x.die).safe = false)
    (hcore : restoreCore s (block, x) = some core) (hprio : ∀ h ∈ waitingShares s x.die, prioOf s h.2.kern ≤ prioOf s x.kern)
    (hread : aloneUnits (.engine block)
      (readUnits (.engine block) x.ctx x.die 16 (sv.pages.flatMap fun a => unitsFrom a 256) s) = (.done bs, a, s1)) :
    exec (.blockRestore block core) s = .next (if hash64 bs = sv.digest then unpark block core places s1
      else endContext x.ctx 0x0A (causeEngine x.die 0 0) s1) := by
  have hall : (waitingShares s x.die).all (fun h => decide (prioOf s h.2.kern ≤ prioOf s x.kern)) = true := by
    simpa only [List.all_eq_true, decide_eq_true_eq] using hprio
  simp only [exec_blockRestore, execBlockRestore, hx, hsv, hplaces, hparked, hsafe, hcore, hall, hread, beq_self_eq_true,
    Bool.not_false, Bool.and_self, if_true]
  split <;> rfl

/-! ### The end of a block (R172) -/

/-- An ENDING block whose work has landed is DONE once its stores are published and its exit records written. -/
theorem exec_blockEnd_of_landed {block : Nat} {s t : State} {b : Block} (hb : s.block? block = some b) (hst : b.st = .ending)
    (hidle : blockBusy s block = false)
    (hexits : writeExits block ((exitUnits (if b.pub = [] then s else publish block s) b).length + 1)
      (if b.pub = [] then s else publish block s) = (true, t)) :
    exec (.blockEnd block) s = .next (settleCtx b.ctx (endShare b.share (t.modBlock block fun x =>
      { x with st := .done, stkAt := none }))) := by
  simp only [exec_blockEnd, execBlockEnd, hb, hst, hidle, bne_self_eq_false, Bool.or_self, Bool.false_eq_true, if_false,
    List.isEmpty_iff, hexits]

/-- Settles O43: each step of a block by the lemma of what it does. -/
theorem blockSteps : Obligations.BlockSteps := by
  refine ⟨fun share core s h k scheds s1 t hh hk hmay hcore hread =>
      ⟨exec_blockPlacement_of_single hh hk hmay hcore hread, exec_blockPlacement_of_resident hh hk hmay hcore hread⟩,
    fun share s h t => exec_placementWaitExpiry_of_waited, fun share core slot s h k base hh hk => exec_spareWarpStart_of_free hh hk,
    fun block k s b h => exec_shrinkRequest_of_first,
    fun block s b r hb hr => ⟨exec_shrinkCancel_of_placed hb hr, fun h hh hwait hnext hlong => ?expired⟩,
    fun block s x => exec_preemption_of_may,
    fun block s x0 x s2 s3 s4 hx0 hsaving hx hready hflush => ⟨exec_blockSave_of_no_room hx0 hsaving hx hready hflush,
      exec_blockSave_of_written hx0 hsaving hx hready hflush⟩,
    fun block core s x sv places bs a s1 hx hsv hplaces hparked hsafe hcore hprio hread => ?restore,
    fun block s b t => exec_blockEnd_of_landed⟩
  case expired =>
    exact (exec_shrinkCancel_of_expired hb hr hh hwait hnext hlong).trans (congrArg _ (expireShrink_eq block b (r.share, h) s))
  case restore =>
    have hexec := exec_blockRestore_of_read hx hsv hplaces hparked hsafe hcore hprio hread
    exact ⟨fun hd => hexec.trans (congrArg _ (if_pos hd)), fun hd => hexec.trans (congrArg _ (if_neg hd))⟩

end Sys2Proof.Machine
end


section
/-! PROOFS. The words of floating point and the special-function unit: FP32 arithmetic, its bit words, FRND, FMAXA, and
the words whose results the unit's queue brings (R117-R123, R129-R134). -/

namespace Sys2Proof.Machine

/-! ### FP32 words of one source, of an immediate, and of a predicate (R117, R121) -/

/-- A floating word of one register source. -/
theorem floatOne_of_floatR1 {i : Instr} {o : FmtR} {f : Nat → Rounded} {cls opc : Nat} {mods : List Nat} {b c : Use} {l x k : Bool}
    (he : ∀ s, exec i s = floatR1 i o f s)
    (hi : ∀ W, i.info W = some (o.info cls opc mods (.reg 1) (.reg 1) b c l x k)) : FloatOne i o f :=
  (completes_laneWordR_flags 1 0 0 he hi le_rfl (Nat.zero_le _) (Nat.zero_le _) :)

/-- The FP32 image of an immediate as a number. -/
theorem immF_toNat (imm : BitVec 24) : (immF imm).toNat = 256 * imm.toNat := by
  rw [immF]
  bv_omega

/-- A format I word that gives its guard-true threads new data and raises flags. -/
theorem completes_laneWordI_flags {i : Instr} {o : FmtI} (nd : Nat) {f : Thread → Thread × Flags} {cls opc : Nat}
    {mods : List Nat} {d : Use} {e x k : Bool}
    (he : ∀ s, exec i s = laneWord i (srcsI o) (regRange o.d.toNat nd) (fun _ _ u => f u) s)
    (hi : ∀ W, i.info W = some (o.info cls opc mods d (.reg 1) e x k)) (hd : nd ≤ Use.count d) :
    Completes i (fun _ _ u => (f u).1) fun b => laneFlags b.warp (acting i b) fun _ u => (f u).2 :=
  completes_laneWord he hi (fun _ => covers_srcsI o _ _ _ _ _ _ _ _ le_rfl) (fun _ => covers_dI o nd _ _ _ _ _ _ _ _ hd)
    (fun _ _ _ _ _ _ _ => rfl) fun _ => rfl

/-- A floating word of a register and an immediate's image. -/
theorem floatImm_of_floatI2 {i : Instr} {o : FmtI} {f : Nat → Nat → Rounded} {cls opc : Nat} {mods : List Nat} {e x k : Bool}
    (he : ∀ s, exec i s = floatI2 i o f s) (hi : ∀ W, i.info W = some (o.info cls opc mods (.reg 1) (.reg 1) e x k)) :
    FloatImm i o f := by
  unfold FloatImm
  simp only [← immF_toNat]
  exact (completes_laneWordI_flags 1 he hi le_rfl :)

theorem exec_fcmp (o : FmtR) (s : State) : exec (.fcmp o) s =
    laneWord (.fcmp o) (srcsR o 1 1 0) [] (fun _ _ u =>
      (u.setPred o.d.toNat (fCmp o.mod.toNat (u.val o.a o.za).toNat (u.val o.b o.zb).toNat).1,
        (fCmp o.mod.toNat (u.val o.a o.za).toNat (u.val o.b o.zb).toNat).2)) s := rfl

theorem exec_fcmpImm (o : FmtI) (s : State) : exec (.fcmpImm o) s =
    laneWord (.fcmpImm o) (srcsI o) [] (fun _ _ u =>
      (u.setPred o.d.toNat (fCmp o.mod.toNat (u.val o.a o.za).toNat (immF o.imm).toNat).1,
        (fCmp o.mod.toNat (u.val o.a o.za).toNat (immF o.imm).toNat).2)) s := rfl

/-- FCMP names its two sources alone: its destination is a predicate. -/
theorem fcmp_completes (o : FmtR) :
    Completes (.fcmp o) (fun _ _ u => u.setPred o.d.toNat (fCmp o.mod.toNat (u.val o.a o.za).toNat (u.val o.b o.zb).toNat).1)
      fun b => laneFlags b.warp (acting (.fcmp o) b) fun _ u =>
        (fCmp o.mod.toNat (u.val o.a o.za).toNat (u.val o.b o.zb).toNat).2 :=
  completes_laneWord (exec_fcmp o) (fun _ => rfl)
    (fun _ => covers_srcsR o 1 1 0 _ _ _ _ _ _ _ _ _ _ le_rfl le_rfl (Nat.zero_le _)) (fun _ => covers_nil _)
    (fun _ _ _ _ _ _ _ => rfl) fun _ => rfl

theorem fcmpImm_completes (o : FmtI) :
    Completes (.fcmpImm o) (fun _ _ u => u.setPred o.d.toNat (fCmp o.mod.toNat (u.val o.a o.za).toNat (256 * o.imm.toNat)).1)
      fun b => laneFlags b.warp (acting (.fcmpImm o) b) fun _ u =>
        (fCmp o.mod.toNat (u.val o.a o.za).toNat (256 * o.imm.toNat)).2 := by
  simp only [← immF_toNat]
  exact (completes_laneWordI_flags 0 (exec_fcmpImm o) (fun _ => rfl) (Nat.zero_le _) :)

/-- Settles O5: each word is one lane's word over the registers it names, whose result and flags its rule gives. -/
theorem floatWords : Obligations.FloatWords :=
  ⟨fun _ => floatRegs_of_floatR2 (fun _ => rfl) fun _ => rfl, fun _ => floatImm_of_floatI2 (fun _ => rfl) fun _ => rfl,
    fun _ => floatRegs_of_floatR2 (fun _ => rfl) fun _ => rfl, fun _ => floatImm_of_floatI2 (fun _ => rfl) fun _ => rfl,
    fun _ => floatRegs_of_floatR2 (fun _ => rfl) fun _ => rfl, fun _ => floatImm_of_floatI2 (fun _ => rfl) fun _ => rfl,
    fun _ => floatRegs_of_floatR2 (fun _ => rfl) fun _ => rfl, fun _ => floatImm_of_floatI2 (fun _ => rfl) fun _ => rfl,
    fun _ => floatRegs_of_floatR2 (fun _ => rfl) fun _ => rfl, fun _ => floatImm_of_floatI2 (fun _ => rfl) fun _ => rfl,
    fcmp_completes, fcmpImm_completes, fun _ => floatThree_of_floatR3 (fun _ => rfl) fun _ => rfl,
    fun _ => onOne_of_unaryR (f := fun a => a &&& 0x7FFFFFFF) (fun _ => rfl) (fun _ => rfl) fun _ => rfl,
    fun _ => onOne_of_unaryR (f := fun a => a ^^^ 0x80000000) (fun _ => rfl) (fun _ => rfl) fun _ => rfl,
    fun _ => onOne_of_unaryR (f := fun a => natWord (fClass a.toNat)) (fun _ => rfl) (fun _ => rfl) fun _ => rfl,
    fun _ => floatOne_of_floatR1 (fun _ => rfl) fun _ => rfl, fun _ => floatRegs_of_floatR2 (fun _ => rfl) fun _ => rfl⟩

/-! ### The order of a warp's words in the queue (R134) -/

/-- A word of pipe A joins before one of its warp that pipe B issued in its cycle, and behind any other. -/
theorem putSfu_cons (id : Nat) (q : SfuOp) (k : Nat) (p : SfuOp) (t : Table SfuOp) : putSfu id q ((k, p) :: t) =
    if p.warp = q.warp ∧ p.pipe = .b ∧ q.pipe = .a ∧ p.time = q.time then (id, q) :: (k, p) :: t
    else (k, p) :: putSfu id q t := by
  rw [putSfu]
  refine if_congr ?_ rfl rfl
  simp only [Bool.and_eq_true, beq_iff_eq]
  tauto

/-- A word that counts as issued before none of the queued ones goes last. -/
theorem putSfu_eq_append (id : Nat) (q : SfuOp) (t : Table SfuOp)
    (h : ∀ x ∈ t, ¬ (x.2.warp = q.warp ∧ x.2.pipe = .b ∧ q.pipe = .a ∧ x.2.time = q.time)) : putSfu id q t = t ++ [(id, q)] := by
  induction t with
  | nil => rfl
  | cons x t ih =>
    obtain ⟨hx, ht⟩ := List.forall_mem_cons.mp h
    rw [putSfu_cons, if_neg hx, ih ht, List.cons_append]

/-! ### A word that takes an entry (R129, R133) -/

/-- Issuing an SFU word empties its destination, and queues its results and flags under a new name. -/
theorem sfuIssue_eq (b : Bundle) (d : Nat) (f : Thread → Rounded) (m : Lanes) (s : State) : sfuIssue b d f m s =
    { s.mapLanes b.w m (fun _ t => t.empty [d]) with
      sfu := putSfu s.fresh ⟨b.w, b.warp.block, d,
        (laneList b.warp.width m).filterMap fun l => (b.warp.thread l).map fun t => (l, natWord (f t).bits, t.inWin d),
        laneFlags b.warp m fun _ t => (f t).flags, b.pipe, (s.die b.warp.die).cycles⟩ s.sfu
      fresh := s.fresh + 1 } := by
  have hdie : (s.mapLanes b.w m fun _ t => t.empty [d]).die b.warp.die = s.die b.warp.die := by
    rw [State.die, State.mapLanes_dies, State.die]
  rw [sfuIssue, hdie, State.mapLanes_sfu, State.mapLanes_fresh]
  rfl

/-- An SFU word that finds a free entry and no earlier word marks its destination empty, and its results are on their way. -/
theorem exec_sfuWord_of_free {i : Instr} {o : FmtR} {two : Bool} {f f' : Thread → Rounded} {cls opc : Nat} {mods : List Nat}
    {u : Use} {l x k : Bool} (he : ∀ s, exec i s = sfuWord i o two f s)
    (hi : ∀ W, i.info W = some (o.info cls opc mods (.reg 1) (.reg 1) u .none l x k))
    (hu : (if two then 1 else 0) ≤ Use.count u) (hf : ∀ t, f t = f' t) (s : State) (b : Bundle) (h : Acts i s b)
    (hfree : sfuUsed s b.warp.die b.warp.core b.warp.slice < 16) (hfirst : sfuWaiters s b.warp.die b.warp.core b.warp.slice = []) :
    exec i s = .next (finishWord b { s.mapLanes b.w (acting i b) (fun _ t => t.empty [o.d.toNat]) with
      sfu := putSfu s.fresh ⟨b.w, b.warp.block, o.d.toNat,
        (actors i b).filterMap fun l => (b.warp.thread l).map fun t => (l, natWord (f' t).bits, t.inWin o.d.toNat),
        laneFlags b.warp (acting i b) fun _ t => (f' t).flags, b.pipe, (s.die b.warp.die).cycles⟩ s.sfu
      fresh := s.fresh + 1 }) := by
  obtain rfl : f = f' := funext hf
  obtain ⟨hruns, hfull, hact⟩ := h
  have hturn : (!(decide (sfuUsed s b.warp.die b.warp.core b.warp.slice < 16) && myTurn b [])) = false := by
    rw [decide_eq_true hfree]; rfl
  have hsrcs := covers_srcsR o 1 (if two then 1 else 0) 0 cls opc mods (.reg 1) (.reg 1) u .none l x k le_rfl hu le_rfl
  have hdst : Covers _ [o.d.toNat] := covers_dR o 1 cls opc mods (.reg 1) (.reg 1) u .none l x k le_rfl
  rw [he, sfuWord, runWord_next _ hruns, hfirst, if_neg hact, hturn, if_neg Bool.false_ne_true,
    withOperands_act hfull (hi _) hsrcs hdst, if_neg hact, sfuIssue_eq, actors]

/-! ### Division of integers (R132) -/

theorem idivW_eq (m : BitVec 3) (a b : Word) : idivW (m == 1) a b =
    if b = 0 then 0xFFFFFFFF else if m = 1 then BitVec.ofNat 32 (a.toNat / b.toNat) else BitVec.ofInt 32 (a.toInt.tdiv b.toInt) := by
  simp only [idivW, beq_iff_eq]
  rfl

theorem iremW_eq (m : BitVec 3) (a b : Word) : iremW (m == 1) a b =
    if b = 0 then a else if m = 1 then BitVec.ofNat 32 (a.toNat % b.toNat) else BitVec.ofInt 32 (a.toInt.tmod b.toInt) := by
  simp only [iremW, beq_iff_eq]
  rfl

/-- Settles O12: the queue's order by its two cases, and each word by what it takes an entry for. -/
theorem sfuWords : Obligations.SfuWords :=
  ⟨putSfu_eq_append,
    fun id q k p t hw hb ha ht => (putSfu_cons id q k p t).trans (if_pos ⟨hw, hb, ha, ht⟩),
    fun _ => exec_sfuWord_of_free (fun _ => rfl) (fun _ => rfl) (Nat.zero_le _) fun _ => rfl,
    fun _ => exec_sfuWord_of_free (fun _ => rfl) (fun _ => rfl) (Nat.zero_le _) fun _ => rfl,
    fun _ => exec_sfuWord_of_free (fun _ => rfl) (fun _ => rfl) (Nat.zero_le _) fun _ => rfl,
    fun _ => exec_sfuWord_of_free (fun _ => rfl) (fun _ => rfl) le_rfl fun _ => rfl,
    fun _ => exec_sfuWord_of_free (fun _ => rfl) (fun _ => rfl) (Nat.zero_le _) fun _ => rfl,
    fun _ => exec_sfuWord_of_free (fun _ => rfl) (fun _ => rfl) (Nat.zero_le _) fun _ => rfl,
    fun _ => exec_sfuWord_of_free (fun _ => rfl) (fun _ => rfl) (Nat.zero_le _) fun _ => rfl,
    fun _ => exec_sfuWord_of_free (fun _ => rfl) (fun _ => rfl) (Nat.zero_le _) fun _ => rfl,
    fun _ => exec_sfuWord_of_free (fun _ => rfl) (fun _ => rfl) (Nat.zero_le _) fun _ => rfl,
    fun _ => exec_sfuWord_of_free (fun _ => rfl) (fun _ => rfl) (Nat.zero_le _) fun _ => rfl,
    fun o => exec_sfuWord_of_free (fun _ => rfl) (fun _ => rfl) le_rfl fun _ => by rw [idivW_eq],
    fun o => exec_sfuWord_of_free (fun _ => rfl) (fun _ => rfl) le_rfl fun _ => by rw [iremW_eq]⟩

end Sys2Proof.Machine
end


section
/-! PROOFS. The cross-lane words: permutes, matches, table look-up, ELECT, LRED and LSCAN (R153-R155, R157-R159). -/

namespace Sys2Proof.Machine

/-! ### The shape of these words (R153) -/

/-- A format R cross-lane word of at most two sources, by what its `meaning` makes of a participating thread and the flags it
raises. -/
theorem completes_crossWordR {i : Instr} (o : FmtR) (na nb nd : Nat) (meaning : State → Outcome) {f : Warp → Lanes → Nat → Thread → Thread}
    {ff : Warp → Lanes → Flags} {g : Bundle → Nat → Thread → Thread} {fl : Bundle → Flags} {cls opc : Nat} {mods : List Nat}
    {d a b c : Use} {l x k : Bool}
    (he : ∀ s, exec i s = meaning s) (hx : ∀ s, meaning s = crossWord i (srcsR o na nb 0) (regRange o.d.toNat nd) f ff s)
    (hi : ∀ W, i.info W = some (o.info cls opc mods d a b c l x k)) (ha : na ≤ Use.count a) (hb : nb ≤ Use.count b)
    (hd : nd ≤ Use.count d)
    (hg : ∀ b l u, b.warp.thread l = some u → f b.warp (acting i b) l u = g b l u)
    (hfl : ∀ b, ff b.warp (acting i b) = fl b) : Completes i g fl :=
  completes_crossWord (fun s => (he s).trans (hx s)) hi (fun _ => covers_srcsR o na nb 0 _ _ _ _ _ _ _ _ _ _ ha hb (Nat.zero_le _))
    (fun _ => covers_dR o nd _ _ _ _ _ _ _ _ _ _ hd) (fun _ b l u _ hu _ => hg b l u hu) hfl

/-! ### The permutes (R154) -/

/-- A register of a lane that holds a thread is the thread's. -/
theorem laneVal_eq_val {w : Warp} {l : Nat} {u : Thread} (hu : w.thread l = some u) (r : BitVec 9) (z : Bool) :
    laneVal w l r z = u.val r z := by
  rw [laneVal, hu]
  rfl

/-- The source lane of LROTW, up under its modifier 1 and down otherwise. -/
theorem rotLane_eq (mod : BitVec 3) (n : Nat) (w : Warp) (l : Nat) : rotLane (mod == 1) n w l =
    if mod = 1 then (l + w.width - n * w.width / 16 % w.width) % w.width else (l + n * w.width / 16) % w.width := by
  simp only [rotLane, beq_iff_eq]

/-- A permute that takes its value from lane `g` where that lane participates, and else keeps its own. -/
theorem permute_completes {i : Instr} (o : FmtR) (nb : Nat) (meaning : State → Outcome) {from_ : Warp → Nat → Nat}
    {g : Bundle → Nat → Thread → Nat} {opc : Nat} {mods : List Nat} {b c : Use} {x k : Bool}
    (he : ∀ s, exec i s = meaning s)
    (hx : ∀ s, meaning s = crossWord i (srcsR o 1 nb 0) (regRange o.d.toNat 1) (permute o from_) (fun _ _ => 0) s)
    (hi : ∀ W, i.info W = some (o.info 0 opc mods (.reg 1) (.reg 1) b c false x k)) (hb : nb ≤ Use.count b)
    (hg : ∀ b l u, b.warp.thread l = some u → from_ b.warp l = g b l u) :
    Completes i (fun b l u => u.put o.d.toNat
      (laneVal b.warp (if (acting i b).getLsbD (g b l u) then g b l u else l) o.a o.za)) fun _ => 0 :=
  completes_crossWordR o 1 nb 1 meaning he hx hi le_rfl hb le_rfl (fun b l u hu => by rw [permute, hg b l u hu]) fun _ => rfl

/-- Settles O7: each word is a cross-lane word over the registers it names, and a lane's own register in a permute is the
register of its thread. -/
theorem crossLaneWords : Obligations.CrossLaneWords := by
  refine ⟨fun o => ?lshuf, fun o => ?lxor, fun o => ?lrotw, fun o => ?matchKey, fun o => ?matchn, fun o => ?tbl, fun o => ?elect⟩
  case lshuf =>
    exact permute_completes o 1 (execLshuf o) (fun _ => rfl) (fun _ => rfl) (fun _ => rfl) le_rfl
      fun b l u hu => by rw [laneVal_eq_val hu]
  case lxor =>
    exact permute_completes o 1 (execLxor o) (fun _ => rfl) (fun _ => rfl) (fun _ => rfl) le_rfl
      fun b l u hu => by rw [laneVal_eq_val hu]
  case lrotw =>
    exact permute_completes o 0 (execLrotw o) (fun _ => rfl) (fun _ => rfl) (fun _ => rfl) (Nat.zero_le _)
      fun b l u _ => rotLane_eq o.mod (o.c.toNat % 16) b.warp l
  case matchKey =>
    exact completes_crossWordR o _ 0 1 (execMatchKey o) (fun _ => rfl) (fun _ => rfl) (fun _ => rfl) le_rfl (Nat.zero_le _) le_rfl
      (fun _ _ _ _ => rfl) fun _ => rfl
  case matchn =>
    exact completes_crossWordR o _ 0 1 (execMatchn o) (fun _ => rfl) (fun _ => rfl) (fun _ => rfl) le_rfl (Nat.zero_le _) le_rfl
      (fun _ _ _ _ => rfl) fun _ => rfl
  case tbl =>
    exact completes_crossWordR o _ 1 1 (execTbl o) (fun _ => rfl) (fun _ => rfl) (fun _ => rfl) le_rfl le_rfl le_rfl
      (fun _ _ _ _ => rfl) fun _ => rfl
  case elect =>
    exact completes_crossWordR o 0 0 0 (execElect o) (fun _ => rfl) (fun _ => rfl) (fun _ => rfl) (Nat.zero_le _) (Nat.zero_le _)
      (Nat.zero_le _) (fun _ _ _ _ => by simp only [lowestLane, beq_eq_decide]) fun _ => rfl

/-! ### LRED and LSCAN (R155) -/

/-- Flags a set of guard-true lanes raises, whatever their threads hold: each such lane holds a thread. -/
theorem laneFlags_acting (i : Instr) (b : Bundle) (f : Nat → Flags) :
    laneFlags b.warp (acting i b) (fun l _ => f l) = (actors i b).foldl (fun fl l => fl ||| f l) 0 := by
  refine List.foldl_ext _ _ _ fun fl l hl => ?_
  obtain ⟨u, hu⟩ := acting_thread ((mem_laneList _ _ _).mp hl).2
  rw [hu]

/-- Settles O8: each word is a cross-lane word of one source, and LSCAN raises the flags of every participating lane's fold. -/
theorem reductionWords : Obligations.ReductionWords := by
  refine ⟨fun o => ?lred, fun o => ?lscan⟩
  case lred =>
    exact completes_crossWordR o 1 0 1 (execLred o) (fun _ => rfl) (fun _ => rfl) (fun _ => rfl) le_rfl (Nat.zero_le _) le_rfl
      (fun _ _ _ _ => rfl) fun _ => rfl
  case lscan =>
    exact completes_crossWordR o 1 0 1 (execLscan o) (fun _ => rfl) (fun _ => rfl) (fun _ => rfl) le_rfl (Nat.zero_le _) le_rfl
      (fun _ _ _ _ => rfl) fun b => (laneFlags_acting (.lscan o) b fun l => (scanAt b.warp (acting (.lscan o) b) o l).2).symm

end Sys2Proof.Machine
end


section
/-! PROOFS. TRAP: its guard-true threads enter the handler (R147, R314-R316). -/

namespace Sys2Proof.Machine

theorem exec_trap {o : FmtB} {s : State} {b : Bundle} (h : Runs (.trap o) s b) : exec (.trap o) s =
    .next (finishWord b (trapLanes b.w (acting (.trap o) b) b.at_ 0x06 (fun _ => 0) (fun _ => o.off) s)) := by
  show execTrap o s = _
  rw [execTrap, runWord_next _ h]

/-- Settles O31: the traps of the guard-true lanes, who have left the clause when the word ends; the end moves the other
threads only. -/
theorem trapWord_enters : Obligations.TrapWord := by
  intro o s b h hlive htvec hout
  obtain ⟨hw, hi⟩ := bundle_warp h.1
  obtain ⟨honly, x, hx, -, -, -, hiss, hthr⟩ := trapLanes_traps (m := acting (.trap o) b) (at_ := b.at_) (c := 0x06)
    (fa := fun _ => 0) (code := fun _ => o.off) hw hlive htvec hout
  obtain ⟨honly', hmove⟩ := finishWord_moves b (trapLanes b.w (acting (.trap o) b) b.at_ 0x06 (fun _ => 0) (fun _ => o.off) s)
  obtain ⟨y, hy, -, -, hdata⟩ := hmove x hx
  obtain ⟨y', hy', hkeep⟩ := finishTo_keeps b (fun _ => b.next) hx
  obtain rfl : y' = y := Option.some.inj (hy'.symm.trans hy)
  refine ⟨_, exec_trap h, honly.trans honly', y', hy, fun l u hu => ?_⟩
  have hlu : x.thread l = some (if l ∈ actors (.trap o) b then _ else u) := hthr l u hu
  split
  case isTrue hl =>
    rw [if_pos hl] at hlu
    refine ⟨_, (hkeep l fun i hxi => ?_).trans hlu, rfl, rfl, rfl, rfl, rfl, rfl, ?_⟩
    · rw [hiss, hi, Option.map_some, if_neg fun h0 => by simp [actors, h0] at hl] at hxi
      obtain rfl := Option.some.inj hxi
      simp [((mem_laneList _ _ _).mp hl).2]
    · simp only [trapped, Bundle.at_, zeroReg, Option.or_none]
      rfl
  case isFalse hl =>
    rw [if_neg hl] at hlu
    exact hdata l u hlu

end Sys2Proof.Machine
end

section
/-! PROOFS. The words of the mask registers, MJOIN, MLEAVE, MSET and MWAIT, and when threads arrive (R149-R151). -/

namespace Sys2Proof.Machine

/-! ### The four words -/

theorem exec_mjoin {o : FmtS} {s : State} {b : Bundle} (h : Runs (.mjoin o) s b) (h0 : acting (.mjoin o) b ≠ 0) :
    exec (.mjoin o) s = .next (finishWord b (writeMask b.w o.idx.toNat (· ||| acting (.mjoin o) b) s)) := by
  show execMjoin o s = _
  rw [execMjoin, runWord_next _ h, if_neg h0]

theorem exec_mleave {o : FmtS} {s : State} {b : Bundle} (h : Runs (.mleave o) s b) (h0 : acting (.mleave o) b ≠ 0) :
    exec (.mleave o) s = .next (finishWord b (writeMask b.w o.idx.toNat (· &&& ~~~ acting (.mleave o) b) s)) := by
  show execMleave o s = _
  rw [execMleave, runWord_next _ h, if_neg h0]

theorem exec_mset {o : FmtS} {s : State} {b : Bundle} (h : Leads (.mset o) s b) : exec (.mset o) s =
    .next (finishWord b (writeMask b.w o.idx.toNat
      (sliceMask o.mod.toNat o.imm.toNat b.warp.width (leadVal (.mset o) b o.v false)) s)) := by
  have ⟨hr, _, _⟩ := h
  have hs : Covers [(o.v.toNat, 1)] ([⟨o.v.toNat, 1, false⟩].flatMap Src.regs) :=
    covers_of_mem (List.mem_singleton_self _) fun x hx => mem_regRange.mp (by simpa [Src.regs] using hx)
  show execMset o s = _
  rw [execMset, runWord_next _ hr, withLeader_act h rfl hs rfl]
  rfl

theorem exec_mwait {o : FmtS} {s : State} {b : Bundle} (h : Runs (.mwait o) s b) (h0 : acting (.mwait o) b ≠ 0) :
    exec (.mwait o) s =
      .next (startArrival b (acting (.mwait o) b) (.arriveMask o.idx.toNat) (arriveMask b.w o.idx.toNat) s) := by
  show execMwait o s = _
  rw [execMwait, runWord_next _ h, if_neg h0]

/-- MSET's three modifiers: 32 bits of a set replaced, joined or cleared (R151). -/
theorem sliceMask_eq (mod : BitVec 5) (k w : Nat) (x : Word) (bits : Lanes) : sliceMask mod.toNat k w x bits =
    (if mod = 0 then bits &&& ~~~ (0xFFFFFFFF#128 <<< (32 * k)) ||| x.setWidth 128 <<< (32 * k)
      else if mod = 1 then bits ||| x.setWidth 128 <<< (32 * k) else bits &&& ~~~ (x.setWidth 128 <<< (32 * k))) &&&
      allLanes w := by
  by_cases h0 : mod = 0
  · rw [h0]; rfl
  · by_cases h1 : mod = 1
    · rw [h1]; rfl
    · rw [if_neg h0, if_neg h1, sliceMask]
      · exact fun h => h0 (BitVec.eq_of_toNat_eq (y := 0) h)
      · exact fun h => h1 (BitVec.eq_of_toNat_eq (y := 1) h)

/-! ### Arrivals (R149, R150, R202) -/

/-- The lanes of a set of one. -/
theorem laneList_laneBit {w l : Nat} (hl : l < 128) (hw : l < w) : laneList w (laneBit l) = [l] := by
  have hbit : (fun k => (laneBit l).getLsbD k) = fun k => k == l := funext fun k => by
    rw [getLsbD_laneBit]
    cases hk : decide (k = l) <;> simp_all
  rw [laneList, hbit, List.filter_beq, List.count_eq_one_of_mem List.nodup_range (List.mem_range.mpr hw), List.replicate_one]

theorem laneList_zero (w : Nat) : laneList w 0 = [] := by simp [laneList]

/-- No store of the warp is unacknowledged: its threads arrive at once. -/
theorem startArrival_of_storesOf {b : Bundle} {m : Lanes} {s : State} (kind : ActKind) (now : Lanes → State → State)
    (h0 : m ≠ 0) (h : storesOf s b.w = []) :
    startArrival b m kind now s = now m (finishWord b (waitLanes b m (.act s.fresh) s)) := by
  have hlate : laneFilter b.warp.width m (fun l => !(storesOfLanes s b.w (laneBit l)).isEmpty) = 0 :=
    laneFilter_none _ _ _ fun l _ _ => by simp [storesOfLanes, h]
  simp only [startArrival, hlate, lanes_and_all, laneList_zero, List.foldl_nil, if_neg h0]

/-- A thread whose own stores are unacknowledged waits for them, and arrives by an action of its own. -/
theorem startArrival_laneBit {b : Bundle} {l : Nat} {s : State} (kind : ActKind) (now : Lanes → State → State)
    (hl : l < 128) (hw : l < b.warp.width) (h : storesOfLanes s b.w (laneBit l) ≠ []) :
    startArrival b (laneBit l) kind now s =
      (let t := waitLanes b (laneBit l) (.act s.fresh) { s with
        acts := tput s.acts s.fresh ⟨b.w, laneBit l, kind, storesOfLanes s b.w (laneBit l)⟩, fresh := s.fresh + 1 }
      finishWord b (waitLanes b 0 (.act t.fresh) t)) := by
  have hlate : laneFilter b.warp.width (laneBit l) (fun l => !(storesOfLanes s b.w (laneBit l)).isEmpty) = laneBit l := by
    rw [laneFilter, laneList_laneBit hl hw]
    simp [h, lanesOf]
  have hsoon : laneBit l &&& ~~~ laneBit l = 0 := BitVec.and_not_self _
  simp only [startArrival, hlate, hsoon, laneList_laneBit hl hw, List.foldl_cons, List.foldl_nil, if_true]

/-- Settles O23: the three words that write a mask, MWAIT's arrival, and an arrival without and with stores to wait for. -/
theorem maskWords : Obligations.MaskWords := by
  refine ⟨fun o s b h h0 => exec_mjoin h h0, fun o s b h h0 => exec_mleave h h0, fun o s b h => ?mset,
    fun o s b h h0 => exec_mwait h h0, fun b m k now s h0 h => startArrival_of_storesOf k now h0 h,
    fun b l k now s hl hw h => startArrival_laneBit k now hl hw h⟩
  case mset =>
    rw [exec_mset h, funext (sliceMask_eq o.mod o.imm.toNat b.warp.width _)]
    rfl

end Sys2Proof.Machine
end


section
/-! PROOFS. A thread that leaves may stay a member of a barrier (R146, R203): a state that names one warp twice. -/

namespace Sys2Proof.Machine

/-- A placed word's state whose table of warps names warp 3 twice. `State.warp?` reads the first entry, and a write changes
that one alone; the warps of a block (`State.blockWarps`), and so its live threads, are those of both. -/
def twiceNamed : State :=
  let s := State.reset.withFetchWord 64 0
  { s with warps := s.warps ++ s.warps }

/-- Thread 0 of warp 3 stands live in block 2. -/
theorem twiceNamed_warp : (twiceNamed.warp? 3).map (fun x => (x.block, (allLanes 16 &&& x.live).getLsbD 0)) =
    some (some 2, true) := by decide +kernel

/-- When every thread of warp 3 has left, the rounds of block 2 complete, and the second entry of the warp makes thread 0 a
member of the next. -/
theorem twiceNamed_member : ((leaveLanes 3 (allLanes 16) .exited 7 twiceNamed).block? 2).map
    (fun k => k.bars.any fun r => r.members.contains (3, 0)) = some true := by decide +kernel

/-- Refutes O11: its second clause asks nothing of the table of warps. In `twiceNamed` thread 0 of warp 3 leaves and is a member
of its block's next round. The counterexample needs a warp named twice; it says nothing of a table that names each warp once. -/
theorem not_leavingWords : ¬ Obligations.LeavingWords := by
  rintro ⟨-, hbars, -⟩
  obtain ⟨x, hx, hlane⟩ := Option.map_eq_some_iff.mp twiceNamed_warp
  obtain ⟨hblock, hlive⟩ := Prod.mk.inj hlane
  obtain ⟨blk, hblk, hany⟩ := Option.map_eq_some_iff.mp twiceNamed_member
  obtain ⟨r, hr, hmem⟩ := List.any_eq_true.mp hany
  obtain ⟨hgone, -, -⟩ := hbars 3 (allLanes 16) .exited 7 twiceNamed x 2 blk 0 (.inl rfl) hx hblock hblk hlive r hr
  exact hgone (List.contains_iff_mem.mp hmem)

end Sys2Proof.Machine
end


section
/-! PROOFS. Loads and stores enter the table: LDB, STB, LDD, STD, LDK and STK (R143, R163, R175, R177, R185, R220). -/

namespace Sys2Proof.Machine

/-! ### The checks of one access (R163, R175, R177) -/

section
variable {s : State} {w : Warp} {sp : Space} {a n : Nat} {write region : Bool} {ls : List Nat}

theorem accessDenied_of_misaligned (h : a % n ≠ 0) :
    accessDenied s w sp a n write region ls = some (.trap 0x07) :=
  if_pos (bne_iff_ne.mpr h)

variable (hal : a % n = 0)
include hal

theorem accessDenied_of_beyond (h : limitOf s w sp < a + n) :
    accessDenied s w sp a n write region ls = some (if sp = .stack then .trap 0x0B else .fault) := by
  simp only [accessDenied, hal, h, bne_self_eq_false, Bool.false_eq_true, if_false, if_true, beq_iff_eq]

theorem accessDenied_of_stack (h : a + n ≤ limitOf s w .stack) : accessDenied s w .stack a n write region ls = none := by
  simp only [accessDenied, hal, not_lt.mpr h, bne_self_eq_false, Bool.false_eq_true, if_false, beq_self_eq_true, if_true]

variable (hsp : sp = .shared ∨ sp = .scratch)
include hsp

theorem accessDenied_of_unattached (hx : s.warpBlock w = none) : accessDenied s w sp a n write region ls = some .fault := by
  have hns : sp ≠ .stack := by rcases hsp with rfl | rfl <;> decide
  by_cases h : limitOf s w sp < a + n
  · rw [accessDenied_of_beyond hal h, if_neg hns]
  · simp only [accessDenied, hal, h, hx, hns, bne_self_eq_false, Bool.false_eq_true, if_false, beq_iff_eq]

/-- An access inside the window of an attached warp is made or takes a lane fault, as the buffers and the publish buffer have it. -/
theorem accessDenied_of_block {x : Block} (h : a + n ≤ limitOf s w sp) (hx : s.warpBlock w = some x) :
    accessDenied s w sp a n write region ls =
      if slotsOk x (sp == .scratch) a n write = true ∧
        ¬ (sp = .scratch ∧ write = true ∧ region = false ∧ 4096 ≤ ls.length ∧ a / 64 ∉ ls) then none else some .fault := by
  have hns : sp ≠ .stack := by rcases hsp with rfl | rfl <;> decide
  simp only [accessDenied, hal, not_lt.mpr h, hx, hns, bne_self_eq_false, Bool.false_eq_true, if_false, beq_iff_eq]
  cases hs : slotsOk x (sp == .scratch) a n write with
  | false => rfl
  | true =>
    simp only [Bool.not_true, Bool.false_eq_true, if_false, true_and, ite_not, Bool.and_eq_true, beq_iff_eq, Bool.not_eq_true',
      decide_eq_true_eq, List.contains_eq_mem, decide_eq_false_iff_not, and_assoc]

end

/-! ### Two sets of lanes that trap one after the other (R314) -/

section
variable {w : Nat} {at_ : WordAt} {c : Nat} {fa : Nat → Nat} {code : Nat → Word}

/-- Traps make no thread. -/
theorem enterTraps_absent {k : Nat} {tg : Option Nat} (ls : List Nat) : ∀ {s : State} {x : Warp}, s.warp? w = some x →
    x.regionLive = false → (s.ctx x.ctx).tvec ≠ 0 → ls.Nodup → (∀ l ∈ ls, ∀ u, x.thread l = some u → u.trap = none) →
    x.thread k = none → ∀ y, (ls.foldl (fun s l => enterTrap w l at_ c (fa l) (code l) tg s) s).warp? w = some y →
    y.thread k = none := by
  induction ls with
  | nil =>
    intro s x hx _ _ _ _ hk y hy
    obtain rfl := Option.some.inj (hx.symm.trans hy)
    exact hk
  | cons a l ih =>
    intro s x hx hr hv hd hn hk
    obtain ⟨hal, hd⟩ := List.nodup_cons.mp hd
    rw [List.foldl_cons]
    cases ht : x.thread a with
    | none =>
      have he : enterTrap w a at_ c (fa a) (code a) tg s = s := by simp only [enterTrap, hx, ht]
      rw [he]
      exact ih hx hr hv hd (fun j hj => hn j (List.mem_cons_of_mem _ hj)) hk
    | some t =>
      rw [enterTrap_enters hx ht (hn a List.mem_cons_self t ht) hv hr]
      have hother : ∀ j, j ≠ a → ∀ f, (x.modThread a f).thread j = x.thread j := fun j hj f => by
        simp only [Warp.thread, Warp.modThread, getElem?_lmod, if_neg hj]
      have hka : k ≠ a := fun h => by rw [h, ht] at hk; contradiction
      refine ih (State.warp?_setWarp ..) hr hv hd (fun j hj u hu => ?traps) ?absent
      case traps => exact hn j (List.mem_cons_of_mem _ hj) u ((hother j (fun h => hal (h ▸ hj)) _).symm.trans hu)
      case absent => exact (hother k hka _).trans hk

theorem trapLanes_absent {k : Nat} {m : Lanes} {s : State} {x y : Warp} (hx : s.warp? w = some x) (hr : x.regionLive = false)
    (hv : (s.ctx x.ctx).tvec ≠ 0) (hn : ∀ l ∈ laneList x.width m, ∀ u, x.thread l = some u → u.trap = none)
    (hk : x.thread k = none) (hy : (trapLanes w m at_ c fa code s).warp? w = some y) : y.thread k = none := by
  simp only [trapLanes, hx] at hy
  split at hy
  case isTrue =>
    obtain rfl := Option.some.inj (hx.symm.trans hy)
    exact hk
  case isFalse =>
    have hdrop := State.warp?_modWarp s w fun y => { y with
      issA := y.issA.map fun i => { i with lanes := i.lanes &&& ~~~ m }
      issB := y.issB.map fun i => { i with lanes := i.lanes &&& ~~~ m } }
    rw [hx, Option.map_some] at hdrop
    exact enterTraps_absent _ hdrop hr (by rwa [(OnlyWarp.modWarp w s _).ctx]) (List.Nodup.filter _ List.nodup_range) hn hk y hy

/-- Two sets without a lane in common trap on a bundle's word, one for each cause, and each thread enters the handler for its own. -/
theorem trapLanes_twice {s : State} {b : Bundle} {m₁ m₂ : Lanes} {c₁ c₂ : Nat} (hb : s.bundle? = some b)
    (hr : b.warp.regionLive = false) (hv : (s.ctx b.warp.ctx).tvec ≠ 0) (hdisj : ∀ l, m₁.getLsbD l = true → m₂.getLsbD l = false)
    (hn₁ : ∀ l ∈ laneList b.warp.width m₁, ∀ u, b.warp.thread l = some u → u.trap = none)
    (hn₂ : ∀ l ∈ laneList b.warp.width m₂, ∀ u, b.warp.thread l = some u → u.trap = none) :
    let t := trapLanes b.w m₂ b.at_ c₂ fa (fun _ => 0) (trapLanes b.w m₁ b.at_ c₁ fa (fun _ => 0) s)
    OnlyWarp b.w s t ∧ ∃ y, t.warp? b.w = some y ∧ ∀ l u, b.warp.thread l = some u →
      (l ∈ laneList b.warp.width m₁ → ∃ v, y.thread l = some v ∧ Entered s b c₁ (fa l) 0 u v) ∧
      (l ∈ laneList b.warp.width m₂ → ∃ v, y.thread l = some v ∧ Entered s b c₂ (fa l) 0 u v) := by
  have hdisj' : ∀ l, l ∈ laneList b.warp.width m₂ → l ∉ laneList b.warp.width m₁ := fun l h₂ h₁ => by
    simp only [mem_laneList] at h₁ h₂
    rw [hdisj l h₁.2] at h₂
    exact Bool.false_ne_true h₂.2
  obtain ⟨hwarp, -⟩ := bundle_warp hb
  obtain ⟨ho₁, y₁, hy₁, hr₁, hc, hwidth, -, ht₁⟩ := trapLanes_traps (at_ := b.at_) (c := c₁) (fa := fa) (code := fun _ => 0)
    hwarp hr hv hn₁
  have hn₂' : ∀ l ∈ laneList y₁.width m₂, ∀ u, y₁.thread l = some u → u.trap = none := by
    intro l hl u hu
    rw [hwidth] at hl
    cases hx : b.warp.thread l with
    | none =>
      rw [trapLanes_absent hwarp hr hv hn₁ hx hy₁] at hu
      contradiction
    | some v =>
      rw [ht₁ l v hx, if_neg (hdisj' l hl)] at hu
      obtain rfl := Option.some.inj hu
      exact hn₂ l hl v hx
  obtain ⟨ho₂, y₂, hy₂, -, -, -, -, ht₂⟩ := trapLanes_traps (at_ := b.at_) (c := c₂) (fa := fa) (code := fun _ => 0)
    hy₁ hr₁ (by rwa [hc, ho₁.ctx]) hn₂'
  refine ⟨ho₁.trans ho₂, y₂, hy₂, fun l u hu => ?_⟩
  have hu₂ := ht₂ l _ (ht₁ l u hu)
  rw [hwidth, ho₁.ctx, hc] at hu₂
  constructor
  · intro hl
    rw [if_neg fun h => hdisj' l h hl, if_pos hl] at hu₂
    exact ⟨_, hu₂, entered_trapped⟩
  · intro hl
    rw [if_pos hl, if_neg (hdisj' l hl)] at hu₂
    exact ⟨_, hu₂, entered_trapped⟩

end

/-! ### The lanes a word's checks take out (R143, R163) -/

/-- The lanes of a set that are denied for one reason. -/
def deniedFor (b : Bundle) (m : Lanes) (deny : Nat → Option Denied) (d : Denied) : Lanes :=
  laneFilter b.warp.width m fun l => deny l == some d

section
variable {s : State} {b : Bundle} {m : Lanes} {addr : Nat → Nat} {deny : Nat → Option Denied} {d : Denied} {l : Nat}

theorem getLsbD_deniedFor :
    (deniedFor b m deny d).getLsbD l = true ↔ l < b.warp.width ∧ m.getLsbD l = true ∧ deny l = some d := by
  rw [deniedFor, getLsbD_laneFilter_iff, beq_iff_eq]

theorem mem_laneList_deniedFor :
    l ∈ laneList b.warp.width (deniedFor b m deny d) ↔ l ∈ laneList b.warp.width m ∧ deny l = some d := by
  simp only [mem_laneList, getLsbD_deniedFor]
  tauto

theorem deniedFor_of_none (h : ∀ l, deny l ≠ some d) : deniedFor b m deny d = 0 :=
  laneFilter_none _ _ _ fun l _ _ => beq_eq_false_iff_ne.mpr (h l)

/-- The three reasons, one after the other: MISALIGNED, STACK-OVERFLOW, and the lane faults. -/
theorem denyLanes_eq (b : Bundle) (m : Lanes) (addr : Nat → Nat) (deny : Nat → Option Denied) (s : State) :
    denyLanes b m addr deny s =
      (m &&& ~~~ (deniedFor b m deny (.trap 0x07) ||| deniedFor b m deny (.trap 0x0B) ||| deniedFor b m deny .fault),
        laneFault b.w (deniedFor b m deny .fault) (trapLanes b.w (deniedFor b m deny (.trap 0x0B)) b.at_ 0x0B addr (fun _ => 0)
          (trapLanes b.w (deniedFor b m deny (.trap 0x07)) b.at_ 0x07 addr (fun _ => 0) s))) := rfl

/-- A lane that goes on is one of the set that is denied for no reason. -/
theorem getLsbD_denyLanes : (denyLanes b m addr deny s).1.getLsbD l = true ↔ m.getLsbD l = true ∧
    ∀ d ∈ [Denied.trap 0x07, .trap 0x0B, .fault], (deniedFor b m deny d).getLsbD l = false := by
  have hlt : m.getLsbD l = true → l < 128 := BitVec.lt_of_getLsbD
  simp only [denyLanes_eq, BitVec.getLsbD_and, BitVec.getLsbD_not, BitVec.getLsbD_or, Bool.and_eq_true, decide_eq_true_eq,
    Bool.not_eq_true', Bool.or_eq_false_iff, List.mem_cons, List.not_mem_nil, or_false, forall_eq_or_imp, forall_eq]
  tauto

theorem deny_ne_of_passes (h : (denyLanes b m addr deny s).1.getLsbD l = true) (hw : l < b.warp.width)
    (hd : d ∈ [Denied.trap 0x07, .trap 0x0B, .fault]) : deny l ≠ some d := by
  obtain ⟨hm, hout⟩ := getLsbD_denyLanes.mp h
  exact fun hdeny => Bool.eq_false_iff.mp (hout d hd) (getLsbD_deniedFor.mpr ⟨hw, hm, hdeny⟩)

/-- Without a trap only lane faults remain. -/
theorem denyLanes_of_no_trap (h : ∀ l c, deny l ≠ some (.trap c)) :
    (denyLanes b m addr deny s).2 = laneFault b.w (deniedFor b m deny .fault) s := by
  simp only [denyLanes_eq, deniedFor_of_none fun l => h l _, trapLanes_none]

/-- Outside a region and a handler, and with no lane fault, the denied lanes enter the handler and only their warp changes. -/
theorem denyLanes_traps (hb : s.bundle? = some b) (hr : b.warp.regionLive = false) (hv : (s.ctx b.warp.ctx).tvec ≠ 0)
    (hf : ∀ l, deny l ≠ some .fault) (hn : ∀ l ∈ laneList b.warp.width m, ∀ u, b.warp.thread l = some u → u.trap = none) :
    OnlyWarp b.w s (denyLanes b m addr deny s).2 ∧ ∃ y, (denyLanes b m addr deny s).2.warp? b.w = some y ∧
      ∀ l ∈ laneList b.warp.width m, ∀ u c, b.warp.thread l = some u → deny l = some (.trap c) → (c = 0x07 ∨ c = 0x0B) →
        (denyLanes b m addr deny s).1.getLsbD l = false ∧ ∃ v, y.thread l = some v ∧ Entered s b c (addr l) 0 u v := by
  have hdisj : ∀ l, (deniedFor b m deny (.trap 0x07)).getLsbD l = true → (deniedFor b m deny (.trap 0x0B)).getLsbD l = false := by
    intro l h
    refine Bool.eq_false_iff.mpr fun h' => ?_
    have hsame := (getLsbD_deniedFor.mp h).2.2.symm.trans (getLsbD_deniedFor.mp h').2.2
    exact absurd hsame (by decide)
  obtain ⟨ho, y, hy, hent⟩ := trapLanes_twice (c₁ := 0x07) (c₂ := 0x0B) (fa := addr) hb hr hv hdisj
    (fun l hl => hn l (mem_laneList_deniedFor.mp hl).1) fun l hl => hn l (mem_laneList_deniedFor.mp hl).1
  have hstate : (denyLanes b m addr deny s).2 = trapLanes b.w (deniedFor b m deny (.trap 0x0B)) b.at_ 0x0B addr (fun _ => 0)
      (trapLanes b.w (deniedFor b m deny (.trap 0x07)) b.at_ 0x07 addr (fun _ => 0) s) := by
    rw [denyLanes_eq, deniedFor_of_none hf, laneFault_none]
  refine ⟨hstate ▸ ho, y, hstate ▸ hy, fun l hl u c hu hdeny hc => ⟨?out, ?enters⟩⟩
  case out =>
    refine Bool.eq_false_iff.mpr fun hpass => deny_ne_of_passes hpass ((mem_laneList _ _ _).mp hl).1 ?_ hdeny
    rcases hc with rfl | rfl <;> simp
  case enters =>
    rcases hc with rfl | rfl
    · exact (hent l u hu).1 (mem_laneList_deniedFor.mpr ⟨hl, hdeny⟩)
    · exact (hent l u hu).2 (mem_laneList_deniedFor.mpr ⟨hl, hdeny⟩)

end

/-! ### The words (R163, R175, R185, R220) -/

/-- The address a lane of a format M word forms (R44). -/
def memAddrOf (o : FmtM) (b : Bundle) (l : Nat) : Nat := ((b.warp.thread l).map (fmtMAddr o)).getD 0

/-- The table line of a lane's access: a stack's among its block's run (R164, R185). -/
def memLineOf (o : FmtM) (sp : Space) (s : State) (b : Bundle) (l : Nat) : Nat :=
  if sp = .stack then stackOffset s b.warp l (memAddrOf o b l) / 64 else memAddrOf o b l / 64

/-- The accesses of a bundle that a word's checks deny. -/
def memDenied (i : Instr) (o : FmtM) (sp : Space) (store : Bool) (s : State) (b : Bundle) : Table Denied :=
  deniedLanes s b.warp sp (sizeBytes o.size) store (sp == .scratch && b.warp.regionLive)
    ((actors i b).map fun l => (l, memAddrOf o b l)) (pubLines s b.warp)

/-- The lines a word takes entries for. -/
def memLines (i : Instr) (o : FmtM) (sp : Space) (store : Bool) (s : State) (b : Bundle) : List Nat :=
  (((actors i b).filter fun l => (tget (memDenied i o sp store s b) l).isNone).map (memLineOf o sp s b)).dedup

/-- What the checks leave: the lanes that go on, and the state in which the others have trapped or left. -/
def memPassed (i : Instr) (o : FmtM) (sp : Space) (store : Bool) (s : State) (b : Bundle) : Lanes × State :=
  denyLanes b (acting i b) (memAddrOf o b) (tget (memDenied i o sp store s b)) s

/-- The operation a lane sends. -/
def memOpOf (o : FmtM) (sp : Space) (store : Bool) (s t : State) (b : Bundle) (l : Nat) : MemOp :=
  { newOp t b l sp (if store then .store else .load (signedSize o.size)) (memAddrOf o b l) (sizeBytes o.size) with
    data := if store then ((b.warp.thread l).map fun u => u.multi o.d.toNat (sizeRegs o.size)).getD 0 else 0
    dst := o.d.toNat, ndst := if store then 0 else sizeRegs o.size
    win := ((b.warp.thread l).map fun u => u.inWin o.d.toNat).getD false
    region := sp == .scratch && b.warp.regionLive, st := .sent, entry := some (memLineOf o sp s b l) }

section
variable {i : Instr} {o : FmtM} {sp : Space} {store : Bool} {s : State} {b : Bundle}

/-- A word that names a run of registers covers it. -/
theorem covers_run (r n : Nat) : Covers [(r, n)] (regRange r n) :=
  covers_of_mem (List.mem_singleton_self _) fun _ h => mem_regRange.mp h

/-- The sources of a format M word lie among the registers it names. -/
theorem covers_srcM (o : FmtM) (cls opc ms : Nat) : Covers (o.info cls opc ms).regs ((src o.a 1 o.ea o.za).flatMap Src.regs) :=
  covers_right (covers_src (.reg 1) _ _ _ _ le_rfl)

/-- So does its register run. -/
theorem covers_dM (o : FmtM) (cls opc ms : Nat) : Covers (o.info cls opc ms).regs (regRange o.d.toNat (sizeRegs o.size)) :=
  covers_left (covers_run _ _)

/-- With the named registers full, every guard-true lane's address can be read. -/
theorem readable_actors {k : WordInfo} (hf : NamedFull i b) (hk : i.info b.warp.width = some k)
    (hs : Covers k.regs ((src o.a 1 o.ea o.za).flatMap Src.regs)) :
    ((laneList b.warp.width (acting i b)).filter fun l =>
      ((b.warp.thread l).map fun t => !(src o.a 1 o.ea o.za).any fun x => t.anyEmpty x.regs).getD false) = actors i b := by
  refine List.filter_eq_self.mpr fun l hl => ?_
  have hacts := ((mem_laneList _ _ _).mp hl).2
  obtain ⟨u, hu⟩ := acting_thread hacts
  have hwait := (operands_full hf hk hs (covers_nil _) hacts hu).2
  rw [Thread.mustWait, Bool.or_eq_false_iff] at hwait
  rw [hu, Option.map_some, Option.getD_some, hwait.1, Bool.not_false]

/-- The register run of a lane that its checks leave is full. -/
theorem passed_full {cls opc ms : Nat} {addr : Nat → Nat} {deny : Nat → Option Denied} (hf : NamedFull i b)
    (hk : i.info b.warp.width = some (o.info cls opc ms)) :
    ((laneList b.warp.width (denyLanes b (acting i b) addr deny s).1).any fun l =>
      ((b.warp.thread l).map fun t => t.anyEmpty (regRange o.d.toNat (sizeRegs o.size))).getD false) = false := by
  refine List.any_eq_false.mpr fun l hl => List.any_eq_false.mp (no_empty hf hk (covers_dM o cls opc ms)) l ?_
  obtain ⟨hw, hpass⟩ := (mem_laneList _ _ _).mp hl
  exact (mem_laneList _ _ _).mpr ⟨hw, (getLsbD_denyLanes.mp hpass).1⟩

/-- A load or store with an entry for each of its lines sends the operations of the lanes its checks leave. -/
theorem memWord_sends {cls opc ms : Nat} {m : Lanes} {t : State} (h : Acts i s b)
    (hk : i.info b.warp.width = some (o.info cls opc ms))
    (hfree : memLines i o sp store s b = [] ∨ tableFree s b (memLines i o sp store s b).length = true)
    (hpass : memPassed i o sp store s b = (m, t))
    (hlive : ∃ y, t.warp? b.w = some y ∧ ((sp == .scratch && b.warp.regionLive) = true → y.regionLive = true)) :
    memWord i o sp store s = .next (finishWord b (addOps ((laneList b.warp.width m).map (memOpOf o sp store s t b))
      (if store then t else t.mapLanes b.w m fun _ u => u.empty (regRange o.d.toNat (sizeRegs o.size))))) := by
  obtain ⟨hr, hf, h0⟩ := h
  obtain ⟨y, hy, hlive⟩ := hlive
  have hs := covers_srcM o cls opc ms
  have hroom : ((memLines i o sp store s b).length != 0 && !tableFree s b (memLines i o sp store s b).length) = false := by
    rcases hfree with he | ht
    · rw [he, List.length_nil, bne_self_eq_false, Bool.false_and]
    · rw [ht, Bool.not_true, Bool.and_false]
  have hgone : ((sp == .scratch && b.warp.regionLive) && !y.regionLive) = false := by
    rw [Bool.and_eq_false_imp]
    intro hreg
    rw [hlive hreg, Bool.not_true]
  have hdeny : denyLanes b (acting i b) (fun l => ((b.warp.thread l).map (fmtMAddr o)).getD 0)
      (tget (deniedLanes s b.warp sp (sizeBytes o.size) store (sp == .scratch && b.warp.regionLive)
        ((actors i b).map fun l => (l, ((b.warp.thread l).map (fmtMAddr o)).getD 0)) (pubLines s b.warp))) s = (m, t) := hpass
  rw [memWord, runWord_next _ hr]
  simp only [readable_actors hf hk hs, h0, if_false, beq_iff_eq (b := Space.stack)]
  refine congrArg Host.Outcome.next ?_
  refine (if_neg (Bool.eq_false_iff.mp hroom)).trans ?_
  refine (withOperands_act hf hk hs (covers_nil _) _ s).trans ?_
  refine (if_neg (Bool.eq_false_iff.mp (passed_full hf hk))).trans ?_
  simp only [hdeny, hy, hgone, Option.isNone_some, Option.map_some, Option.getD_some, Bool.and_false, Bool.false_eq_true, if_false]
  rfl

end

/-- Settles O13: the checks case by case, the lanes they take out, and what the six words send for the others. -/
theorem memoryWords : Obligations.MemoryWords := by
  refine ⟨fun s w sp a n write region ls => ?checks, fun s b m addr deny hb => ?deny, ?ldb, ?stb, ?ldd, ?std, ?ldk, ?stk⟩
  case checks =>
    refine ⟨accessDenied_of_misaligned, accessDenied_of_beyond, accessDenied_of_unattached, fun x hal hin hsp hx => ?_,
      accessDenied_of_stack⟩
    rw [accessDenied_of_block hal hsp hin hx]
    constructor <;> simp
  case deny =>
    exact ⟨fun l hl => ⟨(getLsbD_denyLanes.mp hl).1, fun hw => deny_ne_of_passes hl hw (by simp)⟩,
      fun hr hv hf hn => denyLanes_traps hb hr hv hf hn, fun h => denyLanes_of_no_trap h⟩
  all_goals exact fun o s b h hfree hlive => memWord_sends h rfl hfree rfl hlive

end Sys2Proof.Machine
end


section
/-! PROOFS. ATTACH, SLEEP, SLEEP.until and ENQ, and what die 0 answers an ENQ (R167, R171, R297). -/

namespace Sys2Proof.Machine

/-! ### The words (R167, R171, R297) -/

section
variable {o : FmtS} {s : State} {b : Bundle}

/-- ATTACH's threads wait, and the last of them decides. -/
theorem exec_attach_of_acts (h : Acts (.attach o) s b) : exec (.attach o) s =
    .next (checkAttach b.w (finishWord b (waitLanes b (acting (.attach o) b) (.attach o.v.toNat) s))) := by
  obtain ⟨hr, hf, h0⟩ := h
  show execAttach o s = _
  rw [execAttach, runWord_next _ hr]
  exact congrArg Host.Outcome.next ((withOperands_act hf rfl (ss := []) (covers_nil _) (covers_run _ 1) _ s).trans (if_neg h0))

theorem exec_sleep_of_stands (h : StandsFree (.sleep o) s b) : exec (.sleep o) s =
    .next (sleepLanes b (acting (.sleep o) b) (fun _ => (s.die b.warp.die).time + o.imm.toNat * unitsPerNs) s) := by
  obtain ⟨hr, h0, hlive⟩ := h
  show execSleep o s = _
  rw [execSleep, runWord_next _ hr]
  simp only [h0, hlive, Bool.false_eq_true, if_false]

theorem exec_sleepUntil_of_acts (h : ActsFree (.sleepUntil o) s b) : exec (.sleepUntil o) s =
    .next (sleepLanes b (acting (.sleepUntil o) b)
      (fun l => ((b.warp.thread l).map fun t => (t.pair o.v.toNat).toNat).getD 0 * unitsPerNs) s) := by
  obtain ⟨⟨hr, hf, h0⟩, hlive⟩ := h
  have hs : Covers [(o.v.toNat, 2)] ([⟨o.v.toNat, 2, false⟩].flatMap Src.regs) :=
    covers_run o.v.toNat 2
  show execSleepUntil o s = _
  rw [execSleepUntil, runWord_next _ hr]
  simp only [h0, hlive, Bool.false_eq_true, if_false]
  exact congrArg Host.Outcome.next (withOperands_act hf rfl hs (covers_nil _) _ s)

/-- ENQ with its pair of w registers full starts an action that waits for the entries of FENCE.module. -/
theorem exec_enq_of_full (h : ActsFree (.enq o) s b) (hlo : (b.wr o.w.toNat).full = true) (hhi : (b.wr (o.w.toNat + 1)).full = true) :
    exec (.enq o) s = .next (startedAct b (acting (.enq o) b)
      (.enq (pairOf (b.wr o.w.toNat).val (b.wr (o.w.toNat + 1)).val).toNat o.imm.toNat o.v.toNat) (fenceOps s b.w 2) s) := by
  obtain ⟨⟨hr, hf, h0⟩, hlive⟩ := h
  show execEnq o s = _
  rw [execEnq, runWord_next _ hr]
  simp only [h0, hlive, Bool.false_eq_true, if_false]
  refine congrArg Host.Outcome.next ((withOperands_act hf rfl (ss := []) (covers_nil _) (covers_run _ 1) _ s).trans ?_)
  simp only [hlo, hhi, Bool.not_true, Bool.or_self, Bool.false_eq_true, if_false, startAct_eq]

end

/-! ### The action of an ENQ (R297, R345) -/

/-- An access of a holder on die 0, at die 0, crosses no mesh: it answers what it does there. -/
theorem overMesh_done_of_here {α : Type} {enc : α → List Byte} {dec : List Byte → α} {tag : List Nat} {cls ctx : Nat}
    {first : State → State} {f : State → Ended α × State} {s t : State} {r : α} (hreq : s.transfer? tag = none)
    (hans : s.transfer? (tag ++ [1]) = none) (hf : f s = (.done r, t)) :
    overMesh enc dec tag cls ctx 0 [0] first f s = (.done r, t) := by
  have hreach : reach tag cls ctx 0 [0] first s = (.come, s) := by
    simp only [reach, hreq, List.getLastD_cons, List.getLastD_nil, if_true]
  simp only [overMesh, hans, hreach, hf, hreq, Option.isNone_none, if_true]

/-- The threads of an ENQ on die 0 receive what die 0 answers. -/
theorem resumeAct_enq {id : Nat} {s t : State} {a : EngineAct} {x : Warp} {addr queue v : Nat} {r : Word} (ha : tget s.acts id = some a)
    (hk : a.kind = .enq addr queue v) (hx : s.warp? a.warp = some x) (hp : (x.block.map s.parked).getD false = false)
    (hgone : entriesGone s a.after = true) (hdie : x.die = 0) (hreq : s.transfer? [15, id] = none)
    (hans : s.transfer? [15, id, 1] = none) (henq : enqAt id x addr queue s = (.done r, t)) :
    resumeAct id s = answerAct id a v r (dropMessage [15, id, 1] t) := by
  have hstep : resumeAct id s = stepEnq id a addr queue v s := by
    simp only [resumeAct, ha, hx, hk, hp, Bool.false_and, Bool.false_eq_true, if_false]
  simp only [hstep, stepEnq, hx, hgone, hdie, overMesh_done_of_here hreq hans henq, Bool.not_true, Bool.false_eq_true, if_false]

/-! ### ENQ at die 0 (R297) -/

theorem enqResult_of_status {n : Nat} (h : n ≠ 0) (k : Nat) : enqResult n k = BitVec.ofNat 32 (2 ^ 24 * n) := by
  rw [enqResult, if_neg h, Nat.zero_add, natWord]

theorem enqResult_slot (k : Nat) : enqResult 0 k = BitVec.ofNat 32 (2 ^ 31 + k) := by
  rw [enqResult, if_pos rfl, Nat.mul_zero, Nat.add_zero, natWord]

/-- A record's address may go to a queue: aligned, of 57 bits, the queue enabled and the context's, no other ENQ writing its ring. -/
def EnqOwned (id : Nat) (x : Warp) (addr queue : Nat) (s : State) : Prop :=
  addr % 64 = 0 ∧ addr < 2 ^ 57 ∧ (s.queue queue).ctx = x.ctx ∧ (s.queue queue).st ≠ .disabled ∧ enqBusy s id queue = false

/-- The ring entry is written: QWP goes on and the slot is the answer. -/
def enqPush (queue : Nat) (q : Queue) (s : State) : Ended Word × State :=
  (.done (BitVec.ofNat 32 (2 ^ 31 + q.wp.toNat % q.size)), settleQueue queue (s.modQueue queue fun y => { y with wp := y.wp + 1 }))

/-- The ring entry cannot be written: RING-ERROR, and the queue is disabled. -/
def enqLost (ctx queue : Nat) (q : Queue) (s : State) : Ended Word × State :=
  (.done (BitVec.ofNat 32 (2 ^ 24 * 4)),
    disableQueue queue 0x03 { causeDispatch with addr := q.entryAt q.wp } (logViolation ctx (q.entryAt q.wp) 3 4 0 s))

/-- The write of the ring entry through die 0's translation. -/
def enqWrite (id : Nat) (x : Warp) (addr queue : Nat) (s : State) : Ended Unit × State :=
  let at_ := (s.queue queue).entryAt (s.queue queue).wp
  alone (.engine id) (writeAccess (.engine id) x.ctx 0 at_ 0 8 (fun s => mainWrite s x.ctx 0 at_ (leBytes 8 addr) none) s)

section
variable {id addr queue : Nat} {x : Warp} {s : State}

theorem enqAt_of_bad_address (h : addr % 64 ≠ 0 ∨ 2 ^ 57 ≤ addr) :
    enqAt id x addr queue s = (.done (BitVec.ofNat 32 (2 ^ 24 * 1)), s) := by
  rw [← enqResult_of_status one_ne_zero 0]
  exact if_pos (by simpa only [Bool.or_eq_true, bne_iff_ne, decide_eq_true_eq] using h)

theorem enqAt_of_bad_queue (hal : addr % 64 = 0) (hlt : addr < 2 ^ 57)
    (h : (s.queue queue).ctx ≠ x.ctx ∨ (s.queue queue).st = .disabled) :
    enqAt id x addr queue s = (.done (BitVec.ofNat 32 (2 ^ 24 * 2)), s) := by
  rw [← enqResult_of_status two_ne_zero 0]
  refine (if_neg ?_).trans (if_pos ?_)
  · simp only [hal, not_le.mpr hlt, bne_self_eq_false, decide_false, Bool.or_self, Bool.false_eq_true, not_false_iff]
  · simpa only [Bool.or_eq_true, bne_iff_ne, beq_iff_eq] using h

/-- The checks that such an ENQ passes. -/
theorem EnqOwned.passes (h : EnqOwned id x addr queue s) :
    (addr % 64 != 0 || decide (2 ^ 57 ≤ addr)) = false ∧
      ((s.queue queue).ctx != x.ctx || (s.queue queue).st == .disabled) = false ∧ enqBusy s id queue = false := by
  obtain ⟨hal, hlt, hctx, hst, hbusy⟩ := h
  refine ⟨?_, ?_, hbusy⟩
  · rw [hal, decide_eq_false (not_le.mpr hlt), bne_self_eq_false, Bool.or_self]
  · rw [hctx, bne_self_eq_false, Bool.false_or, beq_eq_false_iff_ne.mpr hst]

variable (h : EnqOwned id x addr queue s)
include h

theorem enqAt_of_full (hfull : (s.queue queue).size ≤ (s.queue queue).held) :
    enqAt id x addr queue s = (.done (BitVec.ofNat 32 (2 ^ 24 * 3)), s) := by
  obtain ⟨haddr, hqueue, hbusy⟩ := h.passes
  simp only [enqAt, haddr, hqueue, hbusy, hfull, Bool.false_eq_true, if_false, if_true, enqResult_of_status three_ne_zero]

variable (hroom : (s.queue queue).held < (s.queue queue).size)
include hroom

section
variable (hhost : (s.queue queue).hostRing = false)
include hhost

/-- A ring that die 0 may write takes the address. -/
theorem enqAt_of_written {u : State} (hw : enqWrite id x addr queue s = (.done (), u)) :
    enqAt id x addr queue s = enqPush queue (s.queue queue) u := by
  obtain ⟨haddr, hqueue, hbusy⟩ := h.passes
  rw [enqWrite] at hw
  simp only [enqAt, haddr, hqueue, hbusy, not_le.mpr hroom, hhost, hw, Bool.false_eq_true, if_false, enqResult_slot, enqPush]

/-- One that it may not write is lost. -/
theorem enqAt_of_unwritten {k : Nat} {u : State} (hw : enqWrite id x addr queue s = (.fail k, u)) :
    enqAt id x addr queue s = enqLost x.ctx queue (s.queue queue) u := by
  obtain ⟨haddr, hqueue, hbusy⟩ := h.passes
  rw [enqWrite] at hw
  simp only [enqAt, haddr, hqueue, hbusy, not_le.mpr hroom, hhost, hw, Bool.false_eq_true, if_false,
    enqResult_of_status four_ne_zero, logDispatch, enqLost]

end

variable (hhost : (s.queue queue).hostRing = true)
include hhost

/-- A ring in host memory is written by a request to the host (R354). -/
theorem enqAt_of_unasked (hreq : ringReq s id = none) : enqAt id x addr queue s = (.wait, askHost x.ctx id 0 0 s) := by
  obtain ⟨haddr, hqueue, hbusy⟩ := h.passes
  simp only [enqAt, haddr, hqueue, hbusy, not_le.mpr hroom, hhost, hreq, Bool.false_eq_true, if_false, if_true]

/-- A request that is overdue loses the ring; one in time has written the entry. -/
theorem enqAt_of_asked {k : Nat} {r : HostReq} (hreq : ringReq s id = some (k, r)) : enqAt id x addr queue s =
    if r.overdue s = true then enqLost x.ctx queue (s.queue queue) (dropHostReq k s)
    else enqPush queue (s.queue queue) ((dropHostReq k s).modMod fun m =>
      { m with hostMem := msetAll m.hostMem (cellsAt ((s.queue queue).entryAt (s.queue queue).wp) (leBytes 8 addr)) }) := by
  obtain ⟨haddr, hqueue, hbusy⟩ := h.passes
  have hdrop : r.overdue (dropHostReq k s) = r.overdue s := rfl
  simp only [enqAt, haddr, hqueue, hbusy, not_le.mpr hroom, hhost, hreq, hdrop, Bool.false_eq_true, if_false, if_true,
    enqResult_of_status four_ne_zero, enqResult_slot, logDispatch, enqLost, enqPush]

end

/-- Settles O25: each word by what its threads wait for, and ENQ at die 0 check by check. -/
theorem warpLifeWords : Obligations.WarpLifeWords := by
  refine ⟨fun o s b h => exec_attach_of_acts h, fun o s b h => exec_sleep_of_stands h, fun o s b h => exec_sleepUntil_of_acts h,
    fun o s b h hlo hhi => exec_enq_of_full h hlo hhi, ?resume,
    fun id s x addr queue => ⟨enqAt_of_bad_address, enqAt_of_bad_queue, enqAt_of_full,
      fun u h hroom hhost hw => enqAt_of_written h hroom hhost hw, fun k u h hroom hhost hw => enqAt_of_unwritten h hroom hhost hw,
      fun h hroom hhost hreq => enqAt_of_unasked h hroom hhost hreq, fun k r h hroom hhost hreq => ⟨fun hlate => ?late, fun hsoon => ?soon⟩⟩⟩
  case resume =>
    exact fun id s a x addr queue v r t ha hk hx hp hgone hdie hreq hans henq =>
      resumeAct_enq ha hk hx hp hgone hdie hreq hans henq
  case late => exact (enqAt_of_asked h hroom hhost hreq).trans (if_pos hlate)
  case soon => exact (enqAt_of_asked h hroom hhost hreq).trans (if_neg (Bool.eq_false_iff.mp hsoon))

end Sys2Proof.Machine
end


section
/-! PROOFS. PHASE and FENCE: the action a PHASE starts, and how long a FENCE blocks (R181, R188). -/

namespace Sys2Proof.Machine

/-! ### PHASE (R181) -/

/-- PHASE outside a live region starts the publication and refresh of its mod, after the warp's unacknowledged stores. -/
theorem exec_phase_of_stands {o : FmtR} {s : State} {b : Bundle} (h : StandsFree (.phase o) s b) : exec (.phase o) s =
    .next (startedAct b (acting (.phase o) b) (.phase (o.mod != 1) (o.mod != 0)) (storesOf s b.w) s) := by
  obtain ⟨hr, h0, hlive⟩ := h
  show execPhase o s = _
  rw [execPhase, runWord_next _ hr]
  simp only [h0, hlive, hr.lacksBlock_eq_false, Bool.false_eq_true, if_false, startAct_eq]

/-! ### An issued clause that changes and blocks (R25) -/

/-- The clause of a pipe after a change of it. -/
theorem State.warp?_modIss_of_iss {s : State} {w : Nat} {p : Pipe} {x : Warp} {i : Issue} (f : Issue → Issue)
    (hw : s.warp? w = some x) (hi : x.iss p = some i) : (s.modIss w p f).warp? w = some (x.setIss p (some (f i))) := by
  rw [State.modIss, State.warp?_modWarp, hw, Option.map_some, hi, Option.map_some]

/-- A word that blocks, and the entries it waits for. -/
def blockedFor (b : Bundle) (ids : List Nat) (s : State) : State :=
  blockWord b (s.modIss b.w b.pipe fun i => { i with after := some ids })

theorem blockedFor_onlyWarp (b : Bundle) (ids : List Nat) (s : State) : OnlyWarp b.w s (blockedFor b ids s) :=
  (OnlyWarp.modWarp b.w s _).trans (OnlyWarp.modWarp b.w _ _)

/-- The blocked clause stands at the same word with the same lanes. -/
theorem blockedFor_iss {s : State} {b : Bundle} (ids : List Nat) (hb : s.bundle? = some b) :
    ∃ y j, (blockedFor b ids s).warp? b.w = some y ∧ y.iss b.pipe = some j ∧ j.blocked = true ∧ j.after = some ids ∧
      j.idx = b.iss.idx ∧ j.lanes = b.iss.lanes := by
  obtain ⟨hw, hi⟩ := bundle_warp hb
  have hafter := State.warp?_modIss_of_iss (fun i => { i with after := some ids }) hw hi
  exact ⟨_, _, State.warp?_modIss_of_iss _ hafter (Warp.setIss_iss ..), Warp.setIss_iss .., rfl, rfl, rfl, rfl⟩

/-! ### FENCE (R188) -/

/-- The entries a FENCE waits for: those it found when it first blocked, else those of its scope. -/
def fenceWaits (o : FmtR) (s : State) (b : Bundle) : List Nat :=
  b.iss.after.getD (if acting (.fence o) b = 0 then [] else fenceOps s b.w o.mod.toNat)

section
variable {o : FmtR} {s : State} {b : Bundle}

theorem fenceWaits_of_first (h0 : acting (.fence o) b ≠ 0) (ha : b.iss.after = none) :
    fenceWaits o s b = fenceOps s b.w o.mod.toNat := by
  rw [fenceWaits, ha, Option.getD_none, if_neg h0]

theorem fenceWaits_of_again {ids : List Nat} (ha : b.iss.after = some ids) : fenceWaits o s b = ids := by
  rw [fenceWaits, ha, Option.getD_some]

/-- A FENCE that finds no entry in its scope waits for none, whether or not a thread of it is guard-true. -/
theorem fenceWaits_of_empty (ha : b.iss.after = none) (hnone : fenceOps s b.w o.mod.toNat = []) : fenceWaits o s b = [] := by
  rw [fenceWaits, ha, Option.getD_none, hnone, ite_self]

variable (h : Runs (.fence o) s b)
include h

/-- A FENCE ends where no thread is guard-true or no entry it waits for is left; else it blocks and keeps their names. -/
theorem exec_fence_eq : exec (.fence o) s = .next (if acting (.fence o) b = 0 || entriesGone s (fenceWaits o s b)
    then finishWord b s else blockedFor b (fenceWaits o s b) s) := by
  show execFence o s = _
  exact runWord_next _ h

theorem exec_fence_of_gone (hgone : entriesGone s (fenceWaits o s b) = true) : exec (.fence o) s = .next (finishWord b s) := by
  rw [exec_fence_eq h, hgone, Bool.or_true, if_pos rfl]

theorem exec_fence_of_left (h0 : acting (.fence o) b ≠ 0) (hleft : entriesGone s (fenceWaits o s b) = false) :
    exec (.fence o) s = .next (blockedFor b (fenceWaits o s b) s) := by
  rw [exec_fence_eq h, hleft, decide_eq_false h0, Bool.or_self, if_neg Bool.false_ne_true]

end

/-- Settles O15: PHASE by the action it starts, FENCE by whether an entry it waits for is left. -/
theorem orderWords : Obligations.OrderWords := by
  refine ⟨fun o s b h => exec_phase_of_stands h, fun o s b h ha hnone => ?empty, fun o s b h h0 ha hleft => ?first,
    fun o s b ids h h0 ha => ⟨fun hgone => ?gone, fun hleft => ?left⟩⟩
  case empty => exact exec_fence_of_gone h (by rw [fenceWaits_of_empty ha hnone]; rfl)
  case first =>
    have hids := fenceWaits_of_first (s := s) h0 ha
    exact hids ▸ exec_fence_of_left h h0 (by rwa [hids])
  case gone => exact exec_fence_of_gone h (by rwa [fenceWaits_of_again ha])
  case left =>
    have hids := fenceWaits_of_again (o := o) (s := s) ha
    refine ⟨blockedFor b ids s, hids ▸ exec_fence_of_left h h0 (by rwa [hids]), blockedFor_onlyWarp b ids s, ?_⟩
    exact blockedFor_iss ids h.1

end Sys2Proof.Machine
end


section
/-! PROOFS. ATOM, RED, WAITV and NOTE: the checks of an address, the operations a word sends, the action an edge starts, and the
stages of an action that publishes and refreshes (R166, R177, R181, R190, R193, R194, R196, R198). -/

namespace Sys2Proof.Machine

/-! ### The checks of one address (R177, R193) -/

/-- ATOM and RED write their word. -/
theorem EdgeWord.writes_eq (u : EdgeWord) : u.writes = (u == .atom || u == .red) := by
  cases u <;> rfl

section
variable {s : State} {w : Warp} {u : EdgeWord} {o : FmtA} {a : Nat}

theorem deniedA_of_misaligned (h : a % 4 ≠ 0) : deniedA s w u o a = some (.trap 0x07) :=
  if_pos (bne_iff_ne.mpr h)

variable (hal : a % 4 = 0)
include hal

/-- A word of an unattached warp, or beyond its window, takes a lane fault. -/
theorem deniedA_of_outside (h : w.block = none ∨ (spaceA o ≠ .main ∧ limitOf s w (spaceA o) < a + 4)) :
    deniedA s w u o a = some .fault := by
  have hout : (w.block.isNone || limitOf s w (spaceA o) < a + 4 && spaceA o != .main) = true := by
    rcases h with hb | ⟨hsp, hlim⟩
    · simp [hb]
    · simp [hsp, hlim]
  simp only [deniedA, hal, hout, bne_self_eq_false, Bool.false_eq_true, if_false, if_true]

variable (hb : w.block ≠ none)
include hb

/-- A main-memory word is checked at its port alone. -/
theorem deniedA_of_main (hsp : spaceA o = .main) : deniedA s w u o a = none := by
  simp only [deniedA, hal, hsp, Option.isNone_eq_false_iff.mpr (Option.isSome_iff_ne_none.mpr hb), bne_self_eq_false,
    beq_self_eq_true, Bool.and_false, Bool.or_self, Bool.false_eq_true, if_false, if_true]

/-- A window word of an attached warp is checked against the block's buffers. -/
theorem deniedA_of_block {x : Block} (hx : s.warpBlock w = some x) (hsp : spaceA o ≠ .main)
    (hin : a + 4 ≤ limitOf s w (spaceA o)) :
    deniedA s w u o a = if slotsOk x (spaceA o == .scratch) a 4 (u == .atom || u == .red) then none else some .fault := by
  simp only [deniedA, hal, hx, u.writes_eq, beq_eq_false_iff_ne.mpr hsp, decide_eq_false (not_lt.mpr hin),
    Option.isNone_eq_false_iff.mpr (Option.isSome_iff_ne_none.mpr hb), bne_self_eq_false, Bool.false_and, Bool.or_self,
    Bool.false_eq_true, if_false]

end

/-! ### The stages of PHASE and of an edge (R181, R194) -/

section
variable {id b : Nat} {s : State} {a : EngineAct} {x : Warp}

/-- PHASE publishes, then refreshes: what it does once the stores it waits for are acknowledged. -/
theorem stepPhase_of_done {pub ref : Bool} (hb : actBlock s a = some b) (hdone : doneOps s a.after = true) :
    stepPhase id a pub ref s =
      if pub then (if ref then setAct id (.phase false true) (publish b s) else endAct id (publish b s))
      else endAct id (if ref then refresh b s else s) := by
  simp only [stepPhase, hb, hdone, Bool.not_true, Bool.false_eq_true, if_false]

variable {u : EdgeWord} {o : FmtA} {hdr idx cls n : Nat} {pub sent : Bool}

theorem resumeAct_edge (ha : tget s.acts id = some a) (hk : a.kind = .edge u o hdr idx cls n pub sent)
    (hx : s.warp? a.warp = some x) (hp : (x.block.map s.parked).getD false = false) :
    resumeAct id s = stepEdge id a u o hdr idx cls n pub sent s := by
  simp only [resumeAct, ha, hx, hk, hp, Bool.false_and, Bool.false_eq_true, if_false]

variable (hx : s.warp? a.warp = some x) (hb : x.block = some b)
include hx hb

theorem stepEdge_publishes (hdone : doneOps s a.after = true) : stepEdge id a u o hdr idx cls n true sent s =
    setAct id (.edge u o hdr idx cls n false sent) (publish b s) := by
  simp only [stepEdge, hx, hb, hdone, if_true]

/-- A word all of whose operations have left the table refreshes where it must, and ends. -/
theorem stepEdge_ends (hleft : ∀ y ∈ s.ops, y.2.act ≠ some id) : stepEdge id a u o hdr idx cls n false true s =
    endAct id (if o.ref then refresh b s else s) := by
  have hnone : (tany s.ops fun _ p => p.act == some id) = false :=
    List.any_eq_false.mpr fun y hy => by simpa using hleft y hy
  simp only [stepEdge, hx, hb, hnone, Bool.and_false, Bool.not_true, Bool.false_eq_true, if_false]
  cases o.ref <;> rfl

end

/-! ### The registers a format A word names (R190, R196, R198) -/

/-- The use a format A word makes of its fields. -/
def EdgeWord.use : EdgeWord → AUse
  | .atom => .atom
  | .red => .red
  | .waitv => .waitv
  | .note => .note

theorem covers_ite {c : Prop} [Decidable c] {rs rs' : List (Nat × Nat)} {xs xs' : List Nat} (h : Covers rs xs)
    (h' : Covers rs' xs') : Covers (if c then rs else rs') (if c then xs else xs') := by
  split
  case isTrue => exact h
  case isFalse => exact h'

/-- The registers a word reads: its address, its operand but for NOTE, and its third field where it uses it. -/
theorem regs_srcsA (u : EdgeWord) (o : FmtA) : (srcsA u o).flatMap Src.regs =
    regRange o.a.toNat (if o.space == 2 then 2 else 1) ++ (if u.use == .note then [] else regRange o.b.toNat 1) ++
      (if o.usesC u.use then regRange o.c.toNat 1 else []) := by
  cases u
  case note =>
    rw [show (EdgeWord.use .note == .note) = true from rfl, show o.usesC (EdgeWord.use .note) = false from rfl]
    simp only [srcsA, List.flatMap_singleton, Src.regs, if_true, Bool.false_eq_true, if_false, List.append_nil]
  all_goals
    simp only [srcsA, EdgeWord.use, FmtA.usesC, decide_eq_true_eq, List.flatMap_append, apply_ite (List.flatMap Src.regs)]
    rfl

theorem covers_srcsA (u : EdgeWord) (o : FmtA) (cls opc : Nat) :
    Covers (o.info cls opc u.use).regs ((srcsA u o).flatMap Src.regs) := by
  rw [regs_srcsA, covers_append, covers_append]
  exact ⟨⟨covers_left (covers_left (covers_left (covers_run _ _))),
    covers_left (covers_left (covers_right (covers_ite (covers_nil _) (covers_run _ 1))))⟩,
    covers_left (covers_right (covers_ite (covers_run _ 1) (covers_nil _)))⟩

theorem covers_dstsA (u : EdgeWord) (o : FmtA) (cls opc : Nat) : Covers (o.info cls opc u.use).regs (dstsA u o) := by
  have hdst : u.hasDst = (u.use == .atom || u.use == .waitv) := by cases u <;> rfl
  rw [dstsA, hdst]
  exact covers_right (covers_ite (covers_run _ 1) (covers_nil _))

/-! ### A word without an edge (R193) -/

/-- The address of a lane. -/
def laneAddrA (o : FmtA) (b : Bundle) (l : Nat) : Nat := ((b.warp.thread l).map (addrA o)).getD 0

/-- The entries a word takes: one for each line, or lane, of an operation that its checks allow (R185). -/
def entriesA (i : Instr) (u : EdgeWord) (o : FmtA) (s : State) (b : Bundle) : List Nat :=
  (((actors i b).filter fun l => (b.warp.thread l).isSome && (deniedA s b.warp u o (laneAddrA o b l)).isNone).map
    fun l => entryA u o l (laneAddrA o b l)).dedup

section
variable {i : Instr} {u : EdgeWord} {o : FmtA} {s : State} {b : Bundle} {opc : Nat}

/-- What no guard-true thread has, no guard-true lane has. -/
theorem map_thread_getD_of_acting {p : Thread → Bool} {l : Nat}
    (h : ∀ t, (acting i b).getLsbD l = true → b.warp.thread l = some t → p t = false) (hl : (acting i b).getLsbD l = true) :
    ((b.warp.thread l).map p).getD false = false := by
  obtain ⟨t, ht⟩ := acting_thread hl
  rw [ht, Option.map_some, Option.getD_some, h t hl ht]

/-- With the registers a word names full, no lane that its checks leave has an empty one among `ds`. -/
theorem passed_no_empty {k : WordInfo} {ds : List Nat} {addr : Nat → Nat} {deny : Nat → Option Denied} (hf : NamedFull i b)
    (hk : i.info b.warp.width = some k) (hd : Covers k.regs ds) :
    ((laneList b.warp.width (denyLanes b (acting i b) addr deny s).1).any fun l =>
      ((b.warp.thread l).map fun t => t.anyEmpty ds).getD false) = false := by
  refine List.any_eq_false.mpr fun l hl => List.any_eq_false.mp (no_empty hf hk hd) l ?_
  obtain ⟨hw, hpass⟩ := (mem_laneList _ _ _).mp hl
  exact (mem_laneList _ _ _).mpr ⟨hw, (getLsbD_denyLanes.mp hpass).1⟩

variable (hf : NamedFull i b) (hk : i.info b.warp.width = some (o.info 2 opc u.use))
include hf hk

/-- With its operands full a guard-true lane needs an entry unless its checks deny it. -/
theorem needsA_of_full : needsA u o b (acting i b) s = (entriesA i u o s b).length := by
  rw [needsA, entriesA, actors, ← List.filterMap_eq_map, List.filterMap_filter]
  refine congrArg (fun es : List Nat => es.dedup.length) (List.filterMap_congr fun l hl => ?_)
  obtain ⟨-, hacts⟩ := (mem_laneList _ _ _).mp hl
  obtain ⟨t, ht⟩ := acting_thread hacts
  obtain ⟨-, hwait⟩ := operands_full hf hk (covers_srcsA u o 2 opc) (covers_nil _) hacts ht
  obtain ⟨hfull, -⟩ := Bool.or_eq_false_iff.mp hwait
  simp only [laneAddrA, ht, hfull, Function.comp_apply, Option.map_some, Option.getD_some, Option.bind_some, Option.isSome_some,
    Bool.false_or, Bool.true_and]
  cases deniedA s b.warp u o (addrA o t) <;> rfl

/-- A word that has its entries sends the operations of the lanes that its checks leave. -/
theorem sendA_of_full {act : Option Nat} {free : State → Nat → Bool} {m : Lanes} {t : State}
    (hfree : entriesA i u o s b = [] ∨ free s (entriesA i u o s b).length = true)
    (hpass : denyLanes b (acting i b) (laneAddrA o b) (fun l => deniedA s b.warp u o (laneAddrA o b l)) s = (m, t))
    (hstands : (t.warp? b.w).isSome = true) : sendA u o act free b (acting i b) s =
      (.sent m, addOps ((laneList b.warp.width m).filterMap fun l => (b.warp.thread l).map (opA t b u o act l))
        (t.mapLanes b.w m fun _ t => t.empty (dstsA u o))) := by
  have hroom : (needsA u o b (acting i b) s != 0 && !free s (needsA u o b (acting i b) s)) = false := by
    rw [needsA_of_full hf hk]
    rcases hfree with he | hroom
    · rw [he, List.length_nil, bne_self_eq_false, Bool.false_and]
    · rw [hroom, Bool.not_true, Bool.and_false]
  have hsrc := fun {l t} => operands_full (l := l) (t := t) hf hk (covers_srcsA u o 2 opc) (covers_nil _)
  have htrap : laneFilter b.warp.width (acting i b)
      (fun l => ((b.warp.thread l).map fun t => t.emptyTrap (srcsA u o)).getD false) = 0 :=
    laneFilter_none _ _ _ fun l _ hl => map_thread_getD_of_acting (fun t hl ht => (hsrc hl ht).1) hl
  have hwait : ((laneList b.warp.width (acting i b)).any fun l =>
      ((b.warp.thread l).map fun t => t.mustWait (srcsA u o) []).getD false) = false :=
    List.any_eq_false.mpr fun l hl => Bool.eq_false_iff.mp
      (map_thread_getD_of_acting (fun t hl ht => (hsrc hl ht).2) ((mem_laneList _ _ _).mp hl).2)
  have hdst := passed_no_empty (s := s) (addr := laneAddrA o b) (deny := fun l => deniedA s b.warp u o (laneAddrA o b l))
    hf hk (covers_dstsA u o 2 opc)
  rw [hpass] at hdst
  have hpass' : denyLanes b (acting i b) (fun l => ((b.warp.thread l).map (addrA o)).getD 0)
    (fun l => deniedA s b.warp u o (((b.warp.thread l).map (addrA o)).getD 0)) s = (m, t) := hpass
  simp only [sendA, hroom, htrap, trapLanes_none, lanes_and_all, hwait, hpass', hdst, Option.isNone_eq_false_iff.mpr hstands,
    Bool.false_eq_true, if_false]

end

/-! ### The words outside a region (R166, R193, R194) -/

section
variable {i : Instr} {u : EdgeWord} {o : FmtA} {s : State} {b : Bundle} {opc : Nat} (h : ActsFree i s b)
include h

/-- A word without an edge sends its operations and goes on. -/
theorem fmtAWord_sends {m : Lanes} {t : State} (hk : i.info b.warp.width = some (o.info 2 opc u.use)) (hpub : o.pub = false)
    (href : o.ref = false) (hfree : entriesA i u o s b = [] ∨ tableFree s b (entriesA i u o s b).length = true)
    (hpass : denyLanes b (acting i b) (laneAddrA o b) (fun l => deniedA s b.warp u o (laneAddrA o b l)) s = (m, t))
    (hstands : (t.warp? b.w).isSome = true) : fmtAWord i u o s =
      .next (finishWord b (addOps ((laneList b.warp.width m).filterMap fun l => (b.warp.thread l).map (opA t b u o none l))
        (t.mapLanes b.w m fun _ t => t.empty (dstsA u o)))) := by
  obtain ⟨⟨hr, hf, h0⟩, hlive⟩ := h
  have hsend := sendA_of_full hf hk (act := none) (free := fun s n => tableFree s b n) hfree hpass hstands
  rw [fmtAWord, runWord_next _ hr]
  simp only [h0, hlive, hpub, href, hsend, Bool.or_self, Bool.false_and, Bool.false_eq_true, if_false]

variable (hedge : o.pub = true ∨ o.ref = true)
include hedge

/-- A word with an edge starts an action, which publishes first where it must, after the warp's unacknowledged stores. -/
theorem fmtAWord_starts (hb : b.warp.block.isSome = true) : fmtAWord i u o s =
    .next (startedAct b (acting i b) (.edge u o b.iss.hdr b.iss.idx b.iss.cls (b.iss.words.length - 1) o.pub false)
      (if o.pub then storesOf s b.w else []) s) := by
  obtain ⟨⟨hr, -, h0⟩, hlive⟩ := h
  rw [← Bool.or_eq_true_iff] at hedge
  rw [fmtAWord, runWord_next _ hr]
  simp only [h0, hlive, hedge, Option.isNone_eq_false_iff.mpr hb, startAct_eq, Bool.and_false, Bool.false_eq_true, if_false, if_true]

/-- In a warp without a block it traps, once its operands are read. -/
theorem fmtAWord_traps (hk : i.info b.warp.width = some (o.info 2 opc u.use)) (hb : b.warp.block = none) :
    fmtAWord i u o s = .next (trapWord b (acting i b) 0x03 s) := by
  obtain ⟨⟨hr, hf, h0⟩, hlive⟩ := h
  rw [← Bool.or_eq_true_iff] at hedge
  rw [fmtAWord, runWord_next _ hr]
  simp only [h0, hlive, hedge, hb, Option.isNone_none, Bool.and_self, Bool.false_eq_true, if_false, if_true]
  exact congrArg Host.Outcome.next (withOperands_act hf hk (covers_srcsA u o 2 opc) (covers_nil _) _ s)

end

/-- Settles O14: an address by the checks it meets, an action by its stages, and the four words by the edges they carry. -/
theorem atomicWords : Obligations.AtomicWords := by
  refine ⟨fun s w u o a => ⟨deniedA_of_misaligned, deniedA_of_outside, deniedA_of_main,
      fun x hal hx hb => deniedA_of_block hal hb hx⟩,
    fun id s a x b pub ref ha hx hb hparked => ?stages, ?atom, ?red, ?waitv, ?note⟩
  case stages =>
    have hp : (x.block.map s.parked).getD false = false := by rw [hb, Option.map_some, Option.getD_some, hparked]
    exact ⟨fun hk hdone => (resumeAct_phase ha hk hx hb hparked).trans (stepPhase_of_done (actBlock_eq_some hx hb) hdone),
      fun u o hdr idx cls n sent hk hdone => (resumeAct_edge ha hk hx hp).trans (stepEdge_publishes hx hb hdone),
      fun u o hdr idx cls n hk hleft => (resumeAct_edge ha hk hx hp).trans (stepEdge_ends hx hb hleft)⟩
  all_goals exact fun o => ⟨fun s b h hpub href hfree hstands => fmtAWord_sends h rfl hpub href hfree rfl hstands,
    fun s b h hedge => ⟨fmtAWord_starts h hedge, fmtAWord_traps h hedge rfl⟩⟩

end Sys2Proof.Machine
end


section
/-! PROOFS. PORT_OPERATION tries the waiting word of an operation again (R194): an operation that waits behind another, of a word whose
threads are released then. -/

namespace Sys2Proof.Machine

/-- The state after `RED.add.die.pub [v2], v3` has started, published and sent its operations: sixteen lanes at one word, none yet
performed. Their threads still wait for action 4; lane 1 has operation 6. -/
def redSent : Option State :=
  match step (State.reset.withFetchWord 64 0x2077050000806000) with
  | .next s => some (resumeAct 4 (resumeAct 4 s))
  | _ => none

/-- Operation 6 must follow that of lane 0. -/
theorem redSent_follows : redSent.map (fun s => ((tget s.ops 6).map (mustFollow s 6), (tget s.acts 4).isSome)) =
    some (some true, true) := by decide +kernel

/-- PORT_OPERATION of it ends action 4: RED has no result to wait for and the word no refresh. -/
theorem redSent_released : redSent.map (fun s => match exec (.portOperation 6 0) s with
    | .next t => (tget t.acts 4).isSome
    | _ => true) = some false := by decide +kernel

/-- Refutes O38: its clause on an operation that must follow an earlier one leaves out that no word waits for it (`o.act = none`, which
the clauses on shared memory and ATOMIC_RETURN ask for). In `redSent`, which a placed word reaches by the stages of its action, operation 6
itself waits, but the event tries its word again, and the word has only to release its threads. -/
theorem not_portSteps : ¬ Obligations.PortSteps := by
  rintro ⟨-, -, -, -, -, -, -, -, -, -, hfollow, -⟩
  obtain ⟨s, hs, hboth⟩ := Option.map_eq_some_iff.mp redSent_follows
  obtain ⟨hop, hact⟩ := Prod.mk.inj hboth
  obtain ⟨o, ho, hmust⟩ := Option.map_eq_some_iff.mp hop
  have hends := redSent_released
  simp only [hs, Option.map_some, hfollow 6 0 s o ho hmust, hact, Option.some.injEq, Bool.true_eq_false] at hends

end Sys2Proof.Machine
end


section
/-! PROOFS. The AND tree's events: a core receives a release, and a channel is configured (R207, R209). -/

namespace Sys2Proof.Machine

/-! ### A release comes to a core (R209) -/

theorem exec_treeRelease (ch die core : Nat) (s : State) :
    exec (.treeRelease ch die core) s = execTreeRelease ch die core s := rfl

/-- The state once a core has counted one release that was owed to it: R209's first effect, and the only one of a retired core. -/
def countRelease (ch die core : Nat) (s : State) : State :=
  let c := s.core die core
  s.setCore die core { c with owed := lmod c.owed ch (· - 1), counts := c.counts.set ch (c.counts.getD ch 0 + 1) }

/-- R209's other two effects, of a core whose release count is now `n`: the arrival is cleared, and every warp of the core has its
TREEW waiters released whose rounds `n` has passed (R204). -/
def beginRound (ch die core : Nat) (n : Word) (s : State) : State :=
  let t := s.modCore die core fun c => { c with arrived := c.arrived.set ch false }
  (t.warps.filter fun x => x.2.die == die && x.2.core == core).foldl (fun s x => releaseWhere x.1 (fun q => match q with
    | .tree k r => k == ch && passedRound n r
    | _ => false) s) t

section
variable {ch die core : Nat} {s : State} (howed : (s.core die core).owed.getD ch 0 ≠ 0)
include howed

/-- A retired core discards an owed release, except for the count. -/
theorem exec_treeRelease_of_retired (hret : (countRelease ch die core s).retired die core = true) :
    exec (.treeRelease ch die core) s = .next (countRelease ch die core s) := by
  rw [exec_treeRelease, execTreeRelease, if_neg howed]
  exact if_pos hret

/-- A core in service counts an owed release and begins its next round. -/
theorem exec_treeRelease_of_in_service (hret : ¬ (countRelease ch die core s).retired die core = true) :
    exec (.treeRelease ch die core) s =
      .next (beginRound ch die core ((s.core die core).counts.getD ch 0 + 1) (countRelease ch die core s)) := by
  rw [exec_treeRelease, execTreeRelease, if_neg howed]
  exact if_neg hret

end

/-! ### A channel is configured (R207) -/

theorem exec_treeCfgWrite (ch : Nat) (v : Word64) (s : State) :
    exec (.treeCfgWrite ch v) s = execTreeCfgWrite ch v s := rfl

/-- A legal configuration of a channel there is takes effect. -/
theorem exec_treeCfgWrite_of_legal {ch : Nat} {v : Word64} {s : State} (hch : ch < 8) (hok : treeCfgOk v = true) :
    exec (.treeCfgWrite ch v) s = .next (writeTreeCfg ch v s) := by
  rw [exec_treeCfgWrite, execTreeCfgWrite, decide_eq_true hch, hok, Bool.and_self, if_pos rfl]

/-- Settles O39: a retired core counts its release and no more, a core in service begins its next round; a legal write of TREE_CFG ends
the round under the old contents and takes the excuse words under the new. -/
theorem treeSteps : Obligations.TreeSteps := by
  refine ⟨fun ch die core s howed => ?release, fun ch v s hch hok => ?config⟩
  case release =>
    by_cases hret : (countRelease ch die core s).retired die core = true
    · exact (exec_treeRelease_of_retired howed hret).trans (congrArg Host.Outcome.next (if_pos hret).symm)
    · exact (exec_treeRelease_of_in_service howed hret).trans (congrArg Host.Outcome.next (if_neg hret).symm)
  case config =>
    rw [exec_treeCfgWrite_of_legal hch hok, writeTreeCfg]

end Sys2Proof.Machine
end

section
/-! PROOFS. Encoding and decoding: every word decodes to its instruction, every word instruction has a word (R20, R29, R38-R58). -/

namespace Sys2Proof.Laws

/-- A happening, which has no word, decodes from none. -/
theorem RoundTrip.of_encode_eq_none {i : Instr} (h : encode i = none) : RoundTrip.Statement i := by
  intro w _ hw
  simp [h] at hw

/-- The word of any instruction decodes to it: the law of each constructor, in the order of the opcode table. -/
theorem roundTrip (i : Instr) : RoundTrip.Statement i := by
  cases i
  exacts [RoundTrip.nop _, RoundTrip.mov _, RoundTrip.movi _, RoundTrip.movw _, RoundTrip.wset _, RoundTrip.sread _,
    RoundTrip.pmovRp _, RoundTrip.pmovPr _, RoundTrip.pmovSave _, RoundTrip.pmovLoad _, RoundTrip.pgate _, RoundTrip.iadd _,
    RoundTrip.iaddImm _, RoundTrip.isub _, RoundTrip.isubImm _, RoundTrip.imul _, RoundTrip.imulImm _, RoundTrip.imulh _,
    RoundTrip.imulhImm _, RoundTrip.imin _, RoundTrip.iminImm _, RoundTrip.imax _, RoundTrip.imaxImm _, RoundTrip.icmp _,
    RoundTrip.icmpImm _, RoundTrip.shl _, RoundTrip.shlImm _, RoundTrip.shr _, RoundTrip.shrImm _, RoundTrip.sar _,
    RoundTrip.sarImm _, RoundTrip.lgate _, RoundTrip.imad _, RoundTrip.imadw _, RoundTrip.iaddc _, RoundTrip.isel _,
    RoundTrip.iabs _, RoundTrip.ineg _, RoundTrip.fshl _, RoundTrip.fshr _, RoundTrip.popc _, RoundTrip.clz _,
    RoundTrip.brev _, RoundTrip.bfx _, RoundTrip.bfi _, RoundTrip.lea _, RoundTrip.fadd _, RoundTrip.faddImm _,
    RoundTrip.fsub _, RoundTrip.fsubImm _, RoundTrip.fmul _, RoundTrip.fmulImm _, RoundTrip.fmin _, RoundTrip.fminImm _,
    RoundTrip.fmax _, RoundTrip.fmaxImm _, RoundTrip.fcmp _, RoundTrip.fcmpImm _, RoundTrip.ffma _, RoundTrip.fabs _,
    RoundTrip.fneg _, RoundTrip.fclass _, RoundTrip.frnd _, RoundTrip.fmaxa _, RoundTrip.hadd2 _, RoundTrip.hmul2 _,
    RoundTrip.hfma2 _, RoundTrip.hmax2 _, RoundTrip.cvt _, RoundTrip.f8cv _, RoundTrip.f8up _, RoundTrip.lshuf _,
    RoundTrip.lxor _, RoundTrip.lrotw _, RoundTrip.lred _, RoundTrip.lscan _, RoundTrip.ballot _, RoundTrip.matchKey _,
    RoundTrip.matchn _, RoundTrip.tbl _, RoundTrip.elect _, RoundTrip.bra _, RoundTrip.jmp _, RoundTrip.call _,
    RoundTrip.ret _, RoundTrip.exit _, RoundTrip.trap _, RoundTrip.rcp _, RoundTrip.rsq _, RoundTrip.sqrt _, RoundTrip.div _,
    RoundTrip.exp2 _, RoundTrip.log2 _, RoundTrip.sinp _, RoundTrip.cosp _, RoundTrip.tanh _, RoundTrip.sigm _,
    RoundTrip.idiv _, RoundTrip.irem _, RoundTrip.ldb _, RoundTrip.stb _, RoundTrip.ldd _, RoundTrip.std _, RoundTrip.ldk _,
    RoundTrip.stk _, RoundTrip.atom _, RoundTrip.red _, RoundTrip.waitv _, RoundTrip.note _, RoundTrip.phase _,
    RoundTrip.fence _, RoundTrip.regb _, RoundTrip.rege _, RoundTrip.regx _, RoundTrip.regq _, RoundTrip.fltm _,
    RoundTrip.fltmClr _, RoundTrip.cpyin _, RoundTrip.cpyout _, RoundTrip.cpyg _, RoundTrip.cpys _, RoundTrip.cpyd _,
    RoundTrip.cpyf _, RoundTrip.cpyfFar _, RoundTrip.stageMax _, RoundTrip.stageAdd _, RoundTrip.publ _, RoundTrip.rpush _,
    RoundTrip.rpop _, RoundTrip.rwaitC _, RoundTrip.rwaitP _, RoundTrip.cpyq _, RoundTrip.pfch _, RoundTrip.evict _,
    RoundTrip.bufd _, RoundTrip.cload _, RoundTrip.crun _, RoundTrip.carm _, RoundTrip.cstepQ _, RoundTrip.cstepWait _,
    RoundTrip.mma _, RoundTrip.mmaKeep _, RoundTrip.mclr _, RoundTrip.mldt _, RoundTrip.mmovr _, RoundTrip.mmovw _,
    RoundTrip.mqry _, RoundTrip.mdrain _, RoundTrip.mdrainAdd _, RoundTrip.mdrainUpd _, RoundTrip.qdual _, RoundTrip.rqnt _,
    RoundTrip.mjoin _, RoundTrip.mleave _, RoundTrip.mwait _, RoundTrip.mset _, RoundTrip.mget _, RoundTrip.barb _,
    RoundTrip.bara _, RoundTrip.barw _, RoundTrip.bard _, RoundTrip.treea _, RoundTrip.treew _, RoundTrip.attach _,
    RoundTrip.detach _, RoundTrip.yieldStanding _, RoundTrip.sleep _, RoundTrip.sleepUntil _, RoundTrip.enq _,
    RoundTrip.csrr _, RoundTrip.csrw _, RoundTrip.tret _, RoundTrip.xsave _, RoundTrip.xload _, RoundTrip.tlbi _,
    RoundTrip.tlbiPage _, RoundTrip.pgset _, RoundTrip.ctxend _, RoundTrip.halt _, RoundTrip.retire _, RoundTrip.snapm _,
    RoundTrip.logrAddr _, RoundTrip.logrInfo _, RoundTrip.logrCount _, RoundTrip.logrClr _, RoundTrip.tjopen _,
    RoundTrip.tjstep _, RoundTrip.tjend _, RoundTrip.tjendFree _, RoundTrip.tjrew _, RoundTrip.tjtake _,
    RoundTrip.tjtakeTry _, RoundTrip.tjtakeDepth _, RoundTrip.tjtakeStat _, RoundTrip.tjset _, RoundTrip.clauseIssue _ _ _,
    RoundTrip.bundlePark _ _, RoundTrip.blockedRegisterFill _ _, RoundTrip.codeFetch _ _, RoundTrip.compactorMove _ _,
    RoundTrip.sfuQueueGrant _ _ _, RoundTrip.sfuResult _, RoundTrip.tableEntryGrant _ _, RoundTrip.loadReturn _ _,
    RoundTrip.storeAck _, RoundTrip.portOperation _ _, RoundTrip.atomicReturn _, RoundTrip.waiterPlaceFree _,
    RoundTrip.waitvTimeout _, RoundTrip.sleepRelease _, RoundTrip.fenceComplete _ _, RoundTrip.publication _,
    RoundTrip.treeRelease _ _ _, RoundTrip.treeCfgWrite _ _, RoundTrip.regionOpen _, RoundTrip.regionAccessRetry _,
    RoundTrip.regionCommit _, RoundTrip.mmaFire _, RoundTrip.tileOperationPerform _, RoundTrip.tileUpdatePerform _,
    RoundTrip.copyQueueAccept _ _, RoundTrip.copyFire _, RoundTrip.copyComplete _ _, RoundTrip.rwaitFill _,
    RoundTrip.scheduleFiring _, RoundTrip.blockPlacement _ _, RoundTrip.placementWaitExpiry _,
    RoundTrip.spareWarpStart _ _ _, RoundTrip.shrinkRequest _ _, RoundTrip.shrinkCancel _, RoundTrip.preemption _,
    RoundTrip.blockSave _, RoundTrip.blockRestore _ _, RoundTrip.blockEnd _, RoundTrip.kernelDone _,
    RoundTrip.queueEntryTake _, RoundTrip.dependenceCheck _, RoundTrip.queueLevelRaise _, RoundTrip.queueDoorbell _ _,
    RoundTrip.queueEnable _ _, RoundTrip.queueDisable _, RoundTrip.queueSuspend _, RoundTrip.queueResume _,
    RoundTrip.registerWrite _ _ _ _, RoundTrip.contextBind _, RoundTrip.contextFree _, RoundTrip.errqDropClear,
    RoundTrip.hostContextEnd _, RoundTrip.contextEnded _, RoundTrip.errorRingRetry, RoundTrip.stripeRequest _ _ _,
    RoundTrip.gatherReply _ _ _, RoundTrip.gatherTimeout _ _ _, RoundTrip.reduceContribution _ _ _,
    RoundTrip.reduceDone _ _ _, RoundTrip.reduceSendTimeout _ _ _, RoundTrip.reducingTimeout _ _,
    RoundTrip.migrationHandover _ _, RoundTrip.mode1Fill _ _, RoundTrip.meshFlitReceive _ _ _, RoundTrip.frameReceive _ _,
    RoundTrip.ackReceive _ _, RoundTrip.retransmitTimeout _ _, RoundTrip.portTrainingEnd _ _, RoundTrip.laneLost _,
    RoundTrip.portEnable _, RoundTrip.portDisable _, RoundTrip.of_encode_eq_none rfl, RoundTrip.hostTimeout _,
    RoundTrip.timeSync _ _, RoundTrip.graphLoadAtPlacement _, RoundTrip.carmStart _ _, RoundTrip.chunkOffer _,
    RoundTrip.nodeComplete _ _, RoundTrip.runComplete _, RoundTrip.rewardMessage _ _, RoundTrip.joinDeadline _ _,
    RoundTrip.orphanExpiry _ _, RoundTrip.turntableScan _ _, RoundTrip.episodeRelease _ _, RoundTrip.tjtakePop _,
    RoundTrip.cut _ _, RoundTrip.pageDrainAck _ _ _, RoundTrip.warmReset _, RoundTrip.dieStart _ _,
    RoundTrip.startStepFailure _, RoundTrip.attestationRequest _ _, RoundTrip.healthRefresh _ _ _ _,
    RoundTrip.sramSoftError _, RoundTrip.powerLimit _ _, RoundTrip.unassignedOpcode _,
    RoundTrip.reduceSendAcknowledgement _ _ _, RoundTrip.migrationHandoverReply _ _, RoundTrip.errorRingWriteFailure,
    RoundTrip.measurementRegisterExtension _ _ _]

/-- The instructions that have a word are those that have a word's shape. -/
theorem isSome_encode (i : Instr) (W : Nat) : (encode i).isSome = (i.info W).isSome := by
  cases i <;> rfl

/-- Settles O54: the laws of the single constructors, and that the encoder has a word for each shape there is. -/
theorem instructionRoundTrip : Obligations.InstructionRoundTrip := by
  intro i
  exact ⟨fun hwf w hw => roundTrip i w hwf hw, fun hword => (isSome_encode i 1).trans hword⟩

/-- Settles O55: each of the four words is the encoder's word of its instruction, which decodes to it. -/
theorem decodedWords : Obligations.DecodedWords :=
  ⟨roundTrip (.iadd _) _ rfl rfl, roundTrip (.movi _) _ rfl rfl, roundTrip (.rcp _) _ rfl rfl, roundTrip (.halt _) _ rfl rfl⟩

end Sys2Proof.Laws
end

section
/-! PROOFS. The machine right after reset (R297, R312, R400, R402). -/

namespace Sys2Proof.Machine

/-! ### What a reset table answers: the initial record (log entries 3 and 4) -/

@[simp] theorem reset_die (d : Nat) : State.reset.die d = Die.init := rfl
@[simp] theorem reset_ctx (c : Nat) : State.reset.ctx c = Context.init := rfl
@[simp] theorem reset_queue (q : Nat) : State.reset.queue q = Queue.init := rfl

/-- Every port of the module is UP after reset. -/
theorem reset_ports {p : Nat} (hp : p < 32) : (State.reset.mod.ports[p]?).map Port.st = some .up := by
  have hports : State.reset.mod.ports = List.replicate 32 ⟨.up, 0⟩ := rfl
  rw [hports, List.getElem?_replicate, if_pos hp]
  rfl

/-- The memories after reset list no byte, so they are canonical. -/
theorem memoryOk_reset : MemoryOk State.reset := by
  refine ⟨?_, rfl, ?_, ?_⟩ <;> exact fun _ h => absurd h (List.not_mem_nil)

/-- Settles O58: every table of the reset state is empty, so each accessor answers its initial record. -/
theorem resetState : Obligations.ResetState := by
  refine ⟨fun c => by rw [reset_ctx]; rfl, fun q => by rw [reset_queue]; rfl, fun _ => rfl, fun _ => rfl,
    rfl, rfl, rfl, rfl, rfl, fun d a => by rw [reset_die]; rfl, fun d => by rw [reset_die]; exact ⟨rfl, rfl, rfl⟩,
    fun p hp => reset_ports hp, memoryOk_reset⟩

end Sys2Proof.Machine
end

section
/-! PROOFS. The region words, and the words that abort a live region (R219, R223, R224, R226, R232). -/

namespace Sys2Proof.Machine

/-! ### The words that abort a live region (R226) -/

/-- The body of a word that R226 names: nothing without a guard-true thread; a live region aborts with NESTED; else `act`. -/
def nestedBody (act : Bundle → Lanes → State → State) (b : Bundle) (m : Lanes) (s : State) : State :=
  if m = 0 then finishWord b s
  else if b.warp.regionLive then finishWord b (abortRegion b.w 8 s)
  else act b m s

/-- A word with that body, whatever it does outside a region. -/
def Nested (i : Instr) : Prop := ∃ act, ∀ s, exec i s = runWord i (nestedBody act) s

section
variable {i : Instr}

/-! Each shared frame of such words is that body, with what it does outside a region. -/

theorem Nested.of_fmtAWord {u : EdgeWord} {o : FmtA} (h : ∀ s, exec i s = fmtAWord i u o s) : Nested i := ⟨_, h⟩

theorem Nested.of_bufWord {void : Bundle → Lanes → Bool} {bad : State → Bundle → Bool} {act : Bundle → Lanes → State → State}
    (h : ∀ s, exec i s = bufWord i void bad act s) : Nested i := ⟨_, h⟩

theorem Nested.of_copyWord {kind : CopyKind} {o : FmtC} (h : ∀ s, exec i s = copyWord i kind o s) : Nested i := .of_bufWord h

theorem Nested.of_stageWord {o : FmtC} {f : Bundle → Word → Word} (h : ∀ s, exec i s = stageWord i o f s) : Nested i :=
  .of_bufWord h

theorem Nested.of_rwaitWord {o : FmtC} {prod : Bool} (h : ∀ s, exec i s = rwaitWord i o prod s) : Nested i := .of_bufWord h

theorem Nested.of_collWord {o : FmtC} {act : Bundle → Lanes → State → State} (h : ∀ s, exec i s = collWord i o act s) :
    Nested i := .of_bufWord h

theorem Nested.of_sysWord {ss : List Src} {ds : List Nat} {act : Bundle → Lanes → Thread → State → State}
    (h : ∀ s, exec i s = sysWord i ss ds act s) : Nested i := ⟨_, h⟩

theorem Nested.of_ctxWord {o : FmtR} {nb nc : Nat} {act : Bundle → Lanes → Thread → Nat → State → State}
    (h : ∀ s, exec i s = ctxWord i o nb nc act s) : Nested i := .of_sysWord h

theorem Nested.of_logrWord {o : FmtR} {n : Nat} {f : LogEntry → Thread → Thread} (h : ∀ s, exec i s = logrWord i o n f s) :
    Nested i := .of_sysWord h

theorem Nested.of_trajWord {ss : List Src} {act : Nat → Nat → Holder → Thread → JStep}
    (h : ∀ s, exec i s = trajWord i ss act s) : Nested i := ⟨_, h⟩

theorem Nested.of_takeWord {ss : List Src} {rs : List Nat} {act : Bundle → Lanes → State → State}
    (h : ∀ s, exec i s = takeWord i ss rs act s) : Nested i := ⟨_, h⟩

end

/-- Each word of `nests` has that body. -/
theorem nested_of_nests {i : Instr} (h : nests i = true) : Nested i := by
  cases i with
  | atom => exact .of_fmtAWord fun _ => (rfl : execAtom _ _ = _)
  | red => exact .of_fmtAWord fun _ => (rfl : execRed _ _ = _)
  | waitv => exact .of_fmtAWord fun _ => (rfl : execWaitv _ _ = _)
  | note => exact .of_fmtAWord fun _ => (rfl : execNote _ _ = _)
  | cpyin => exact .of_copyWord fun _ => (rfl : execCpyin _ _ = _)
  | cpyout => exact .of_copyWord fun _ => (rfl : execCpyout _ _ = _)
  | cpyg => exact .of_copyWord fun _ => (rfl : execCpyg _ _ = _)
  | cpys => exact .of_copyWord fun _ => (rfl : execCpys _ _ = _)
  | cpyd => exact .of_copyWord fun _ => (rfl : execCpyd _ _ = _)
  | cpyf => exact .of_copyWord fun _ => (rfl : execCpyf _ _ = _)
  | cpyfFar => exact .of_copyWord fun _ => (rfl : execCpyfFar _ _ = _)
  | pfch => exact .of_copyWord fun _ => (rfl : execPfch _ _ = _)
  | evict => exact .of_copyWord fun _ => (rfl : execEvict _ _ = _)
  | stageMax => exact .of_stageWord fun _ => (rfl : execStageMax _ _ = _)
  | stageAdd => exact .of_stageWord fun _ => (rfl : execStageAdd _ _ = _)
  | rwaitC => exact .of_rwaitWord fun _ => (rfl : execRwaitC _ _ = _)
  | rwaitP => exact .of_rwaitWord fun _ => (rfl : execRwaitP _ _ = _)
  | publ => exact .of_bufWord fun _ => (rfl : execPubl _ _ = _)
  | rpush => exact .of_bufWord fun _ => (rfl : execRpush _ _ = _)
  | rpop => exact .of_bufWord fun _ => (rfl : execRpop _ _ = _)
  | cpyq => exact .of_bufWord fun _ => (rfl : execCpyq _ _ = _)
  | bufd => exact .of_bufWord fun _ => (rfl : execBufd _ _ = _)
  | cload => exact .of_collWord fun _ => (rfl : execCload _ _ = _)
  | crun => exact .of_collWord fun _ => (rfl : execCrun _ _ = _)
  | carm => exact .of_collWord fun _ => (rfl : execCarm _ _ = _)
  | cstepQ => exact .of_collWord fun _ => (rfl : execCstepQ _ _ = _)
  | cstepWait => exact .of_collWord fun _ => (rfl : execCstepWait _ _ = _)
  | xsave => exact .of_ctxWord fun _ => (rfl : execXsave _ _ = _)
  | xload => exact .of_ctxWord fun _ => (rfl : execXload _ _ = _)
  | tlbi => exact .of_ctxWord fun _ => (rfl : execTlbi _ _ = _)
  | tlbiPage => exact .of_ctxWord fun _ => (rfl : execTlbiPage _ _ = _)
  | pgset => exact .of_ctxWord fun _ => (rfl : execPgset _ _ = _)
  | ctxend => exact .of_ctxWord fun _ => (rfl : execCtxend _ _ = _)
  | logrAddr => exact .of_logrWord fun _ => (rfl : execLogrAddr _ _ = _)
  | logrInfo => exact .of_logrWord fun _ => (rfl : execLogrInfo _ _ = _)
  | halt => exact .of_sysWord fun _ => (rfl : execHalt _ _ = _)
  | retire => exact .of_sysWord fun _ => (rfl : execRetire _ _ = _)
  | snapm => exact .of_sysWord fun _ => (rfl : execSnapm _ _ = _)
  | logrCount => exact .of_sysWord fun _ => (rfl : execLogrCount _ _ = _)
  | logrClr => exact .of_sysWord fun _ => (rfl : execLogrClr _ _ = _)
  | tjstep => exact .of_trajWord fun _ => (rfl : execTjstep _ _ = _)
  | tjend => exact .of_trajWord fun _ => (rfl : execTjend _ _ = _)
  | tjendFree => exact .of_trajWord fun _ => (rfl : execTjendFree _ _ = _)
  | tjrew => exact .of_trajWord fun _ => (rfl : execTjrew _ _ = _)
  | tjtake => exact .of_takeWord fun _ => (rfl : execTjtake _ _ = _)
  | tjtakeTry => exact .of_takeWord fun _ => (rfl : execTjtakeTry _ _ = _)
  | tjtakeDepth => exact .of_takeWord fun _ => (rfl : execTjtakeDepth _ _ = _)
  | tjtakeStat => exact .of_takeWord fun _ => (rfl : execTjtakeStat _ _ = _)
  | phase => exact ⟨_, fun _ => (rfl : execPhase _ _ = _)⟩
  | regb => exact ⟨_, fun _ => (rfl : execRegb _ _ = _)⟩
  | sleep => exact ⟨_, fun _ => (rfl : execSleep _ _ = _)⟩
  | sleepUntil => exact ⟨_, fun _ => (rfl : execSleepUntil _ _ = _)⟩
  | enq => exact ⟨_, fun _ => (rfl : execEnq _ _ = _)⟩
  | csrw => exact ⟨_, fun _ => (rfl : execCsrw _ _ = _)⟩
  | tret => exact ⟨_, fun _ => (rfl : execTret _ _ = _)⟩
  | tjopen => exact ⟨_, fun _ => (rfl : execTjopen _ _ = _)⟩
  | tjset => exact ⟨_, fun _ => (rfl : execTjset _ _ = _)⟩
  | _ => exact absurd h Bool.false_ne_true

section
variable {i : Instr} {s : State} {b : Bundle} (hr : Runs i s b) (h0 : acting i b ≠ 0)
include hr h0

/-- In a live region such a word aborts the region, and does nothing else. -/
theorem exec_nested_of_live (hn : nests i = true) (hlive : b.warp.regionLive = true) :
    exec i s = .next (finishWord b (abortRegion b.w 8 s)) := by
  obtain ⟨act, hexec⟩ := nested_of_nests hn
  rw [hexec, runWord_next _ hr, nestedBody, if_neg h0, if_pos hlive]

/-- A barrier word outside a handler, whose token is full, aborts a live region; else its condition `bad` or its action decides. -/
theorem barWord_of_outside {ss : List Src} {bad : State → Bundle → Bool} {act : Bundle → Lanes → State → State}
    (ho : OperandsReady i ss [] b) (hout : Outside b (acting i b)) :
    barWord i ss bad act s = .next (if b.warp.regionLive then finishWord b (abortRegion b.w 8 s)
      else if bad s b then trapWord b (acting i b) 0x03 s else act b (acting i b) s) := by
  rw [barWord, runWord_next _ hr, ho, hout, trapThen_none, if_neg h0, hr.lacksBlock_eq_false, Bool.false_or]

end

/-- In a live region a barrier word outside a handler aborts the region, and does nothing else (log entry 13). -/
theorem exec_nestsBar_of_live {i : Instr} {s : State} {b : Bundle} (hn : nestsBar i = true) (h : Acts i s b)
    (hout : Outside b (acting i b)) (hlive : b.warp.regionLive = true) :
    exec i s = .next (finishWord b (abortRegion b.w 8 s)) := by
  obtain ⟨hr, hf, h0⟩ := h
  have aborts : ∀ ss, IsBarWord i ss → OperandsReady i ss [] b → exec i s = .next (finishWord b (abortRegion b.w 8 s)) := by
    intro ss ⟨bad, act, hexec⟩ ho
    rw [hexec, barWord_of_outside hr h0 ho hout, if_pos hlive]
  cases i with
  | barb o => exact aborts _ (isBarWord_nil o _ (by simp)) (operandsReady_nil _ _)
  | bara o => exact aborts _ (isBarWord_nil o _ (by simp)) (operandsReady_nil _ _)
  | bard o => exact aborts _ (isBarWord_nil o _ (by simp)) (operandsReady_nil _ _)
  | treea o => exact aborts _ (isBarWord_nil o _ (by simp)) (operandsReady_nil _ _)
  | barw o => exact aborts _ (isBarWord_token o _ (by simp)).1 (operandsReady_token (by simp) hf)
  | treew o => exact aborts _ (isBarWord_token o _ (by simp)).1 (operandsReady_token (by simp) hf)
  | _ => exact absurd hn Bool.false_ne_true

/-! ### REGB, REGE, REGX and REGQ (R219, R223, R224, R232) -/

section
variable {s : State} {b : Bundle}

/-- REGB with an aligned target, in a kernel with a scratchpad window. -/
theorem exec_regb_of_leads {o : FmtB} (h : LeadsFree (.regb o) s b) (hwin : limitOf s b.warp .scratch ≠ 0)
    (hgoal : branchTarget b o (leader (.regb o) b) % 8 = 0) :
    exec (.regb o) s = .next (checkRegb b.w (finishWord b (waitLanes b (acting (.regb o) b) .regb
      (s.modWarp b.w fun x => { x with region := .opening, rtarget := branchTarget b o (leader (.regb o) b) })))) := by
  obtain ⟨hl, hlive⟩ := h
  have h0 : acting (.regb o) b ≠ 0 := hl.2.1
  have haligned : (branchTarget b o (leader (.regb o) b) % 8 != 0) = false := by rw [hgoal]; rfl
  rw [show exec (.regb o) s = execRegb o s from rfl, execRegb, runWord_next _ hl.1]
  simp only [h0, hlive, Bool.false_eq_true, if_false]
  rw [withLeader_act hl rfl (covers_srcsB o _ _ _) rfl]
  simp only [regbTarget, hwin, haligned, Bool.false_eq_true, if_false]

theorem exec_rege_of_live {o : FmtR} (hr : Runs (.rege o) s b) (h0 : acting (.rege o) b ≠ 0) (hlive : b.warp.regionLive = true) :
    exec (.rege o) s = .next (checkRege b.w (finishWord b (waitLanes b (acting (.rege o) b) .rege s))) := by
  rw [show exec (.rege o) s = execRege o s from rfl, execRege, runWord_next _ hr]
  simp only [h0, hlive, Bool.not_true, Bool.false_eq_true, if_false]

theorem exec_regx_of_live {o : FmtR} (hr : Runs (.regx o) s b) (h0 : acting (.regx o) b ≠ 0) (hlive : b.warp.regionLive = true) :
    exec (.regx o) s = .next (finishWord b (abortRegion b.w 7 s)) := by
  rw [show exec (.regx o) s = execRegx o s from rfl, execRegx, runWord_next _ hr]
  simp only [h0, hlive, Bool.not_true, Bool.false_eq_true, if_false]

/-- REGQ with its register full marks it empty and asks the tracker. -/
theorem exec_regq_of_full {o : FmtR} (hr : Runs (.regq o) s b) (hf : NamedFull (.regq o) b) :
    exec (.regq o) s = .next (finishWord b (addOps
      ((actors (.regq o) b).map fun l => { newOp s b l .scratch .regq 0 4 with
        dst := o.d.toNat, ndst := 1, entry := none, win := ((b.warp.thread l).map fun u => u.inWin o.d.toNat).getD false })
      (s.mapLanes b.w (acting (.regq o) b) fun _ u => u.empty [o.d.toNat]))) := by
  have hready : OperandsReady (.regq o) [] [o.d.toNat] b :=
    operandsReady_of_namedFull hf rfl (covers_nil _) (covers_dR o 1 _ _ _ _ _ _ _ _ _ _ le_rfl)
  rw [show exec (.regq o) s = execRegq o s from rfl, execRegq, runWord_next _ hr, hready]
  rfl

end

/-- Settles O16: each region word by its meaning, the words of R226 by the body they share, the barrier words by theirs. -/
theorem regionWords : Obligations.RegionWords :=
  ⟨fun _ _ _ h hwin hgoal => exec_regb_of_leads h hwin hgoal,
    fun _ _ _ hn hr h0 hlive => exec_nested_of_live hr h0 hn hlive,
    fun _ _ _ hn h hout hlive => exec_nestsBar_of_live hn h hout hlive,
    fun _ _ _ hr h0 hlive => exec_rege_of_live hr h0 hlive,
    fun _ _ _ hr h0 hlive => exec_regx_of_live hr h0 hlive,
    fun _ _ _ hr hf => exec_regq_of_full hr hf⟩

end Sys2Proof.Machine
end

section
/-! PROOFS. The barrier words: arrivals and waits at block barriers, the die barrier and the AND tree (R200-R213). -/

namespace Sys2Proof.Machine

/-! ### Outside a handler and a region (R213) -/

section
variable {i : Instr} {ss : List Src} {bad : State → Bundle → Bool} {act : Bundle → Lanes → State → State} {s : State} {b : Bundle}
  (h : StandsFree i s b) (ho : OperandsReady i ss [] b) (hout : Outside b (acting i b))
include h ho hout

/-- A barrier word whose condition holds acts. -/
theorem barWord_acts (hbad : bad s b = false) : barWord i ss bad act s = .next (act b (acting i b) s) := by
  obtain ⟨hr, h0, hlive⟩ := h
  rw [barWord_of_outside hr h0 ho hout, if_neg (by simp [hlive]), if_neg (by simp [hbad])]

/-- A barrier word whose condition fails is ILLEGAL-OPERAND. -/
theorem barWord_refuses (hbad : bad s b = true) : barWord i ss bad act s = .next (trapWord b (acting i b) 0x03 s) := by
  obtain ⟨hr, h0, hlive⟩ := h
  rw [barWord_of_outside hr h0 ho hout, if_neg (by simp [hlive]), if_pos hbad]

end

theorem ActsFree.stands {i : Instr} {s : State} {b : Bundle} (h : ActsFree i s b) : StandsFree i s b := by
  obtain ⟨⟨hr, -, h0⟩, hlive⟩ := h
  exact ⟨hr, h0, hlive⟩

theorem ActsFree.full {i : Instr} {s : State} {b : Bundle} (h : ActsFree i s b) : NamedFull i b := h.1.2.1

theorem exec_barb (o : FmtS) (s : State) : exec (.barb o) s = execBarb o s := rfl
theorem exec_bara (o : FmtS) (s : State) : exec (.bara o) s = execBara o s := rfl
theorem exec_barw (o : FmtS) (s : State) : exec (.barw o) s = execBarw o s := rfl
theorem exec_bard (o : FmtS) (s : State) : exec (.bard o) s = execBard o s := rfl
theorem exec_treea (o : FmtS) (s : State) : exec (.treea o) s = execTreea o s := rfl
theorem exec_treew (o : FmtS) (s : State) : exec (.treew o) s = execTreew o s := rfl

/-- BARA and TREEA write their token's register once it is full. -/
theorem operandsReady_tokenOut {o : FmtS} {i : Instr} {b : Bundle} (hi : i ∈ [Instr.bara o, .treea o]) (hf : NamedFull i b) :
    OperandsReady i [] [o.v.toNat] b := by
  have hcovers : Covers [(o.v.toNat, 1)] [o.v.toNat] :=
    covers_of_mem (List.mem_singleton_self _) fun x hx => ⟨0, Nat.one_pos, List.mem_singleton.mp hx⟩
  have hinfo : ∃ k, i.info b.warp.width = some k ∧ k.regs = [(o.v.toNat, 1)] := by
    rcases List.mem_pair.mp hi with rfl | rfl <;> exact ⟨_, rfl, rfl⟩
  obtain ⟨k, hk, hregs⟩ := hinfo
  exact operandsReady_of_namedFull hf hk (covers_nil _) (hregs ▸ hcovers)

/-! ### The words (R212) -/

section
variable {o : FmtS} {s : State} {b : Bundle}

theorem exec_barb_of_free (h : StandsFree (.barb o) s b) (hout : Outside b (acting (.barb o) b))
    (hbusy : barBusy s b o.idx.toNat (acting (.barb o) b) = false) :
    exec (.barb o) s = .next (startArrival b (acting (.barb o) b) (.arriveBar o.idx.toNat)
      (arriveBarWait (b.warp.block.getD 0) b.w o.idx.toNat) s) := by
  rw [exec_barb, execBarb, barWord_acts h (operandsReady_nil _ _) hout rfl, hbusy]
  rfl

theorem exec_bara_of_free (h : ActsFree (.bara o) s b) (hout : Outside b (acting (.bara o) b))
    (hstores : storesOfLanes s b.w (acting (.bara o) b) = []) (hafter : b.iss.after = none)
    (hbusy : barBusy s b o.idx.toNat (acting (.bara o) b) = false) :
    exec (.bara o) s = .next (finishWord b (arriveBar (b.warp.block.getD 0) b.w o.idx.toNat (acting (.bara o) b)
      (s.mapLanes b.w (acting (.bara o) b) fun l u =>
        u.put o.v.toNat (arrivalToken (s.bar (b.warp.block.getD 0) o.idx.toNat) (b.w, l))))) := by
  rw [exec_bara, execBara, barWord_acts h.stands (operandsReady_nil _ _) hout rfl,
    operandsReady_tokenOut (by simp) h.full, afterOwnStores, hafter, Option.getD_none, hstores]
  simp only [doneOps, List.all_nil, if_true, hbusy, Bool.false_eq_true, if_false]

theorem exec_barw_of_full (h : ActsFree (.barw o) s b) (hout : Outside b (acting (.barw o) b)) :
    exec (.barw o) s = .next (waitTokens b (acting (.barw o) b) o.v.toNat (s.bar (b.warp.block.getD 0) o.idx.toNat).counter
      (.barrier o.idx.toNat) s) := by
  rw [exec_barw, execBarw, barWord_acts h.stands (operandsReady_token (by simp) h.full) hout rfl]

theorem exec_bard_of_resident (h : StandsFree (.bard o) s b) (hout : Outside b (acting (.bard o) b))
    (hres : ((s.launch? b.warp).map Launch.resident).getD false = true) :
    exec (.bard o) s = .next (startArrival b (acting (.bard o) b) (.arriveDie (o.mod == 1))
      (fun m => arriveDie b.w m (o.mod == 1)) s) := by
  rw [exec_bard, execBard, barWord_acts h (operandsReady_nil _ _) hout (by rw [hres]; rfl)]

theorem exec_bard_of_not_resident (h : StandsFree (.bard o) s b) (hout : Outside b (acting (.bard o) b))
    (hres : ((s.launch? b.warp).map Launch.resident).getD false = false) :
    exec (.bard o) s = .next (trapWord b (acting (.bard o) b) 0x03 s) := by
  rw [exec_bard, execBard, barWord_refuses h (operandsReady_nil _ _) hout (by rw [hres]; rfl)]

/-- TREEA writes the core's release count, and arrives for a core that has not arrived yet. -/
theorem exec_treea_of_allowed (h : ActsFree (.treea o) s b) (hout : Outside b (acting (.treea o) b))
    (hok : treeAllowed s b.warp o.idx.toNat = true) :
    let c := s.core b.warp.die b.warp.core
    let t := s.mapLanes b.w (acting (.treea o) b) fun _ u => u.put o.v.toNat (c.counts.getD o.idx.toNat 0)
    exec (.treea o) s = .next (finishWord b (if c.arrived.getD o.idx.toNat false then t
      else checkTree o.idx.toNat (t.modCore b.warp.die b.warp.core fun c => { c with arrived := c.arrived.set o.idx.toNat true }))) := by
  intro c t
  have h0 : acting (.treea o) b ≠ 0 := h.stands.2.1
  rw [exec_treea, execTreea, barWord_acts h.stands (operandsReady_nil _ _) hout (by rw [hok]; rfl),
    operandsReady_tokenOut (by simp) h.full]
  by_cases harr : c.arrived.getD o.idx.toNat false = true
  · simp only [c, h0, decide_false, Bool.false_or, harr, if_true, t]
  · simp only [c, h0, decide_false, Bool.false_or, harr, if_false, t, Bool.false_eq_true]

theorem exec_treea_of_not_allowed (h : StandsFree (.treea o) s b) (hout : Outside b (acting (.treea o) b))
    (hno : treeAllowed s b.warp o.idx.toNat = false) :
    exec (.treea o) s = .next (trapWord b (acting (.treea o) b) 0x03 s) := by
  rw [exec_treea, execTreea, barWord_refuses h (operandsReady_nil _ _) hout (by rw [hno]; rfl)]

theorem exec_treew_of_allowed (h : ActsFree (.treew o) s b) (hout : Outside b (acting (.treew o) b))
    (hok : treeAllowed s b.warp o.idx.toNat = true) :
    exec (.treew o) s = .next (waitTokens b (acting (.treew o) b) o.v.toNat
      ((s.core b.warp.die b.warp.core).counts.getD o.idx.toNat 0) (.tree o.idx.toNat) s) := by
  rw [exec_treew, execTreew, barWord_acts h.stands (operandsReady_token (by simp) h.full) hout (by rw [hok]; rfl)]

theorem exec_treew_of_not_allowed (h : ActsFree (.treew o) s b) (hout : Outside b (acting (.treew o) b))
    (hno : treeAllowed s b.warp o.idx.toNat = false) :
    exec (.treew o) s = .next (trapWord b (acting (.treew o) b) 0x03 s) := by
  rw [exec_treew, execTreew, barWord_refuses h.stands (operandsReady_token (by simp) h.full) hout (by rw [hno]; rfl)]

end

/-- A warp may use a channel whose tree is enabled for its context and whose segment has its die (R207). -/
theorem treeAllowed_iff (x : Warp) (ch : Nat) (s : State) : treeAllowed s x ch = true ↔ (s.mod.tree ch).getLsbD 32 = true ∧
    ((s.mod.tree ch).extractLsb' 33 8).toNat = x.ctx ∧ inSegment (s.mod.tree ch) x.die = true := by
  simp only [treeAllowed, Bool.and_eq_true, beq_iff_eq, and_assoc]

/-- Settles O24: each word by its action in the frame the barrier words share; the waits by `waitTokens`. -/
theorem barrierWords : Obligations.BarrierWords :=
  ⟨fun _ _ _ h hout hres => exec_bard_of_not_resident h hout hres,
    fun _ _ _ hno => ⟨fun h hout => exec_treea_of_not_allowed h hout hno, fun h hout => exec_treew_of_not_allowed h hout hno⟩,
    treeAllowed_iff,
    fun _ _ _ h hout hbusy => exec_barb_of_free h hout hbusy,
    fun _ _ _ h hout hstores hafter hbusy => exec_bara_of_free h hout hstores hafter hbusy,
    fun _ _ _ h hout => exec_barw_of_full h hout,
    fun _ _ _ h hout hres => exec_bard_of_resident h hout hres,
    fun _ _ _ h hout hok => exec_treea_of_allowed h hout hok,
    fun _ _ _ h hout hok => exec_treew_of_allowed h hout hok⟩

end Sys2Proof.Machine
end

section
/-! PROOFS. The nine copy words take their token and are accepted (R239, R245-R248, R338). -/

namespace Sys2Proof.Machine

section
variable {kind : CopyKind} {o : FmtC} {b : Bundle} {m : Lanes}

/-- With its w registers and its lanes' index registers full, no source of a copy word is empty. -/
theorem copySources_of_full (hw : ∀ r ∈ copyWregs kind o, (b.wr r).full = true)
    (hv : ∀ l ∈ copyLanes kind b m, ∀ u, b.warp.thread l = some u → (u.reg o.v.toNat).full = true) :
    copySources kind o b m = false := by
  have hwregs : b.wrEmpty (copyWregs kind o) = false := by
    rw [Bundle.wrEmpty, List.any_eq_false]
    intro r hr
    simp [hw r hr]
  have hlanes : ((copyLanes kind b m).any fun l => ((b.warp.thread l).map fun t => t.anyEmpty [o.v.toNat]).getD false) = false := by
    rw [List.any_eq_false]
    intro l hl
    cases hu : b.warp.thread l with
    | none => simp
    | some u => simp [Thread.anyEmpty, hv l hl u hu]
  rw [copySources, hwregs, hlanes, Bool.or_self]

/-- The rows of a copy word's commands: an index of each lane (R246). -/
def copyRows (kind : CopyKind) (o : FmtC) (b : Bundle) (ls : List Nat) : List (Nat × Nat) :=
  if kind = .cpyg ∨ kind = .cpys then ls.zipIdx.map fun x => (x.2, (laneVal b.warp x.1 o.v false).toNat) else []

/-- The rows by command. -/
def copyGroups (kind : CopyKind) (o : FmtC) (b : Bundle) (ls : List Nat) : List (List (Nat × Nat)) :=
  if kind = .cpyg ∨ kind = .cpys then rowCommands 4 (copyRows kind o b ls) else [[]]

/-- The copy that the commands share, but for their rows. -/
def copyOf (kind : CopyKind) (o : FmtC) (s : State) (b : Bundle) (ls : List Nat) : Copy :=
  newCopy s b.w b.warp o.token.toNat kind (readPar s b.warp (o.mod.getLsbD 4) (b.wr o.wp.toNat).val.toNat)
    (if kind = .cpyf then 0 else (b.wr o.wa.toNat).val.toNat + 2 ^ 32 * (b.wr (o.wa.toNat + 1)).val.toNat)
    o.buf.toNat o.imm.toNat ((ls.head?.map fun l => laneVal b.warp l o.v false).getD 0)

/-- A copy word that is ready, with room in its queue and no word before it, is accepted. -/
theorem copyWord_accepts {i : Instr} {s : State} (h : StandsFree i s b) (hstores : StoresDone s b)
    (hw : ∀ r ∈ o.token.toNat :: copyWregs kind o, (b.wr r).full = true)
    (hv : ∀ l ∈ copyLanes kind b (acting i b), ∀ u, b.warp.thread l = some u → (u.reg o.v.toNat).full = true)
    (hbuf : (kind.writesNear || kind.readsNear) = true → copyBufOk kind (bufOf s b o.buf) o.imm.toNat = true)
    (hroom : copiesUsed s b.warp.die b.warp.core + (copyGroups kind o b (copyLanes kind b (acting i b))).length ≤ 128)
    (hturn : copyWaiters s b.warp.die b.warp.core = []) :
    copyWord i kind o s = .next (finishWord b (acceptCopies
      ((copyGroups kind o b (copyLanes kind b (acting i b))).map fun g =>
        { copyOf kind o s b (copyLanes kind b (acting i b)) with rows := g })
      (s.setWreg b.w o.token.toNat ⟨(b.wr o.token.toNat).val, false⟩))) := by
  obtain ⟨htoken, hwregs⟩ := List.forall_mem_cons.mp hw
  have hfull : copySources kind o b (acting i b) = false := copySources_of_full hwregs hv
  have hbad : ((kind.writesNear || kind.readsNear) && !copyBufOk kind (wordBuf s b o.buf) o.imm.toNat) = false := by
    rw [Bool.and_eq_false_imp]
    exact fun hnear => by rw [show wordBuf s b o.buf = bufOf s b o.buf from rfl, hbuf hnear]; rfl
  have hrows : (if (decide (kind = .cpyg) || decide (kind = .cpys)) = true then
      (copyLanes kind b (acting i b)).zipIdx.map fun x => (x.2, (laneVal b.warp x.1 o.v false).toNat) else []) =
      copyRows kind o b (copyLanes kind b (acting i b)) := by
    simp only [copyRows, Bool.or_eq_true, decide_eq_true_eq]
  have hgroups : (if (decide (kind = .cpyg) || decide (kind = .cpys)) = true then
      rowCommands 4 (copyRows kind o b (copyLanes kind b (acting i b))) else [[]]) =
      copyGroups kind o b (copyLanes kind b (acting i b)) := by
    simp only [copyGroups, Bool.or_eq_true, decide_eq_true_eq]
  have hplace : (decide (copiesUsed s b.warp.die b.warp.core + (copyGroups kind o b (copyLanes kind b (acting i b))).length ≤ 128) &&
      myTurn b (copyWaiters s b.warp.die b.warp.core)) = true := by
    rw [hturn, decide_eq_true hroom]
    rfl
  rw [copyWord, bufWord_acts h hfull hbad]
  simp only [htoken, Bool.not_true, Bool.false_eq_true, if_false, afterStores_of_done hstores, hfull, hrows, hgroups, hplace]
  rfl

end

/-- Settles O17: the nine words share one meaning, which accepts each of them. -/
theorem copyWords : Obligations.CopyWords := by
  refine ⟨fun o => ?_, fun o => ?_, fun o => ?_, fun o => ?_, fun o => ?_, fun o => ?_, fun o => ?_, fun o => ?_, fun o => ?_⟩ <;>
    exact fun _ _ h hstores hw hv hbuf hroom hturn => copyWord_accepts h hstores hw hv hbuf hroom hturn

end Sys2Proof.Machine
end

section
/-! PROOFS. The tile words queue one tile operation: MCLR, MLDT, MMOVR, MMOVW, MQRY, MDRAIN, QDUAL and RQNT (R261, R271-R287). -/

namespace Sys2Proof.Machine

/-! ### The frame of the tile words (R259, R261) -/

/-- A word's one source of some registers at a field lies among the registers it names. -/
theorem covers_src_of_mem {rs : List (Nat × Nat)} {r n : Nat} (e : Bool) (h : (r, n) ∈ rs) :
    Covers rs ((⟨r, n, e⟩ : Src).regs) :=
  covers_of_mem h fun _ hx => mem_regRange.mp hx

/-- A tile word whose tile exists and whose static checks pass acts. -/
theorem tileWord_acts {i : Instr} {o : FmtT} {names : Bool} {bad : State → Bundle → Bool} {act : Bundle → Lanes → State → State}
    {s : State} {b : Bundle} (hr : Runs i s b) (h0 : acting i b ≠ 0) (htile : names = true → o.tile.toNat < tileCount s b.warp)
    (hbad : bad s b = false) : tileWord i o names bad act s = .next (act b (acting i b) s) := by
  have hnames : (names && decide (tileCount s b.warp ≤ o.tile.toNat)) = false := by
    rw [Bool.and_eq_false_imp]
    exact fun hn => decide_eq_false (not_le.mpr (htile hn))
  rw [tileWord, runWord_next _ hr, hnames, hbad, Bool.or_self, if_neg Bool.false_ne_true, if_neg h0]

/-- The state in which a bundle has queued one tile operation. -/
def queuedTile (b : Bundle) (tile : Nat) (kind : TileKind) (s : State) : State :=
  finishWord b { s with tops := tput s.tops s.fresh (tileOpOf s b tile kind), fresh := s.fresh + 1 }

/-- With a place free the operation is queued. -/
theorem queueTile_of_place {s : State} {b : Bundle} (tile : Nat) (kind : TileKind)
    (h : tilePlace s b.warp.die b.warp.core = true) : queueTile b tile kind s = queuedTile b tile kind s :=
  if_pos h

/-- A change of a warp's threads frees and takes no place. -/
theorem tilePlace_mapLanes (s : State) (w : Nat) (m : Lanes) (f : Nat → Thread → Thread) (die core : Nat) :
    tilePlace (s.mapLanes w m f) die core = tilePlace s die core := by
  unfold tilePlace State.parked State.block?
  rw [State.mapLanes_tops, State.mapLanes_blocks]

section
variable {i : Instr} {o : FmtT} {s : State} {b : Bundle} {k : WordInfo}

/-- A word that reads its operands once for the bundle, from registers it names. -/
theorem tileLeader_acts {ss : List Src} {names : Bool} {bad : State → Bundle → Bool} {act : Bundle → Lanes → Nat → State → State}
    (h : Leads i s b) (hk : i.info b.warp.width = some k) (hs : Covers k.regs (ss.flatMap Src.regs))
    (htile : names = true → o.tile.toNat < tileCount s b.warp) (hbad : bad s b = false) :
    tileWord i o names bad (withLeader ss (fun _ => false) act) s = .next (act b (acting i b) (leader i b) s) := by
  rw [tileWord_acts h.1 h.2.1 htile hbad, withLeader_act h hk hs rfl]

/-- A per-lane tile word whose registers are full and whose indices are in range is queued for all its lanes. -/
theorem laneTile_queues {limit : Nat} {uses : Bool} {rs dst : List Nat} {kind : Bundle → List Nat → TileKind}
    (h : Acts i s b) (hroom : TileRoom s b o.tile.toNat) (hk : i.info b.warp.width = some k)
    (hvf : uses = true → Covers k.regs [o.vf.toNat]) (hrs : Covers k.regs rs)
    (hindex : uses = true → ∀ l ∈ actors i b, elemIndex o b l < limit) :
    laneTile i o limit uses rs kind dst s = .next (queuedTile b o.tile.toNat (kind b (actors i b))
      (s.mapLanes b.w (acting i b) fun _ t => t.empty dst)) := by
  obtain ⟨hr, hf, h0⟩ := h
  obtain ⟨htile, hplace⟩ := hroom
  obtain ⟨hw, -⟩ := bundle_warp hr.1
  have hempty : (uses && (laneList b.warp.width (acting i b)).any fun l =>
      ((b.warp.thread l).map fun t => t.anyEmpty [o.vf.toNat]).getD false) = false := by
    rw [Bool.and_eq_false_imp]
    exact fun hu => no_empty hf hk (hvf hu)
  have hbad : (if uses = true then laneFilter b.warp.width (acting i b) fun l => decide (limit ≤ elemIndex o b l) else 0) = 0 := by
    split
    · next hu =>
      exact laneFilter_none _ _ _ fun l hl hm =>
        decide_eq_false (not_le.mpr (hindex hu l ((mem_laneList _ _ _).mpr ⟨hl, hm⟩)))
    · rfl
  rw [laneTile, tileWord_acts hr h0 (fun _ => htile) rfl, hempty, hbad]
  simp only [lanes_and_all, trapLanes_none, hw, Option.isNone_some, h0, decide_false, Bool.or_self, no_empty hf hk hrs, hplace,
    Bool.not_true, Bool.false_eq_true, if_false]
  rw [queueTile_of_place _ _ ((tilePlace_mapLanes _ _ _ _ _ _).trans hplace)]
  rfl

end

/-! ### MCLR, MLDT, MMOVR, MMOVW and MQRY (R271-R274) -/

section
variable {o : FmtT} {s : State} {b : Bundle}

theorem mclr_queues (hr : Runs (.mclr o) s b) (h0 : acting (.mclr o) b ≠ 0) (hroom : TileRoom s b o.tile.toNat) :
    Queues (.mclr o) b o.tile.toNat (.mclr (o.imm.toNat % 16)) s s := by
  rw [Queues, show exec (.mclr o) s = execMclr o s from rfl, execMclr, tileWord_acts hr h0 (fun _ => hroom.1) rfl,
    queueTile_of_place _ _ hroom.2]
  rfl

theorem mldt_queues (h : Leads (.mldt o) s b) (hroom : TileRoom s b o.tile.toNat) (hkind : (bufOf s b o.q).kind = .plain)
    (hsize : 16 * o.imm.toNat + 8192 ≤ (bufOf s b o.q).size) (hx : (leadVal (.mldt o) b o.vf false).toNat < 2 ^ 20)
    (hcls : (leadVal (.mldt o) b o.vf false).toNat / 2 ^ 18 = 1 ∨ (leadVal (.mldt o) b o.vf false).toNat / 2 ^ 18 = 2) :
    Queues (.mldt o) b o.tile.toNat (.mldt (o.mod == 1) o.q.toNat o.imm.toNat (leadVal (.mldt o) b o.vf false)) s s := by
  have hs : Covers [(o.vf.toNat, 1)] ([(⟨o.vf.toNat, 1, false⟩ : Src)].flatMap Src.regs) := by
    simpa using covers_src_of_mem false (List.mem_singleton_self _)
  have hbad : ((bufOf s b o.q).kind != .plain || decide ((bufOf s b o.q).size < 16 * o.imm.toNat + 8192)) = false := by
    rw [hkind, decide_eq_false (not_lt.mpr hsize)]
    rfl
  rw [leadVal] at hx hcls
  have hword : ((laneVal b.warp (leader (.mldt o) b) o.vf false).toNat / 2 ^ 20 != 0 ||
      (laneVal b.warp (leader (.mldt o) b) o.vf false).toNat / 2 ^ 18 % 4 == 0 ||
      (laneVal b.warp (leader (.mldt o) b) o.vf false).toNat / 2 ^ 18 % 4 == 3) = false := by
    rw [Nat.div_eq_of_lt hx]
    rcases hcls with hc | hc <;> rw [hc] <;> rfl
  rw [Queues, show exec (.mldt o) s = execMldt o s from rfl, execMldt,
    tileLeader_acts h rfl hs (fun _ => hroom.1) hbad]
  simp only [hword, Bool.false_eq_true, if_false]
  rw [queueTile_of_place _ _ hroom.2]
  rfl

/-- MMOVR and MMOVW name their element register and the pair they move. -/
theorem covers_move (o : FmtT) : Covers [(o.va.toNat, 2), (o.vf.toNat, 1)] [o.vf.toNat] ∧
    Covers [(o.va.toNat, 2), (o.vf.toNat, 1)] (regRange o.va.toNat 2) :=
  ⟨covers_of_mem (n := 1) (by simp) fun x hx => ⟨0, Nat.one_pos, List.mem_singleton.mp hx⟩,
    covers_of_mem (n := 2) (by simp) fun x hx => mem_regRange.mp hx⟩

theorem mmovr_queues (h : Acts (.mmovr o) s b) (hroom : TileRoom s b o.tile.toNat)
    (hindex : ∀ l ∈ actors (.mmovr o) b, elemIndex o b l < 1024) :
    Queues (.mmovr o) b o.tile.toNat (.mmovr (o.mod == 1) o.va.toNat
      ((actors (.mmovr o) b).map fun l => (l, elemIndex o b l, laneWin b l o.va.toNat))) s
      (s.mapLanes b.w (acting (.mmovr o) b) fun _ u => u.empty (regRange o.va.toNat 2)) := by
  obtain ⟨hvf, hva⟩ := covers_move o
  rw [Queues, show exec (.mmovr o) s = execMmovr o s from rfl, execMmovr]
  exact laneTile_queues h hroom rfl (fun _ => hvf) hva fun _ => hindex

theorem mmovw_queues (h : Acts (.mmovw o) s b) (hroom : TileRoom s b o.tile.toNat)
    (hindex : ∀ l ∈ actors (.mmovw o) b, elemIndex o b l < 1024) :
    Queues (.mmovw o) b o.tile.toNat (.mmovw (o.mod == 1) ((actors (.mmovw o) b).map fun l =>
      (l, elemIndex o b l, ((b.warp.thread l).map fun u => u.pair o.va.toNat).getD 0))) s
      (s.mapLanes b.w (acting (.mmovw o) b) fun _ u => u.empty []) := by
  obtain ⟨hvf, hva⟩ := covers_move o
  rw [Queues, show exec (.mmovw o) s = execMmovw o s from rfl, execMmovw]
  exact laneTile_queues h hroom rfl (fun _ => hvf) hva fun _ => hindex

theorem mqry_queues (h : Acts (.mqry o) s b) (hroom : TileRoom s b o.tile.toNat)
    (hindex : o.mod = 1 → ∀ l ∈ actors (.mqry o) b, elemIndex o b l < 32) :
    Queues (.mqry o) b o.tile.toNat (.mqry (o.mod == 1) o.va.toNat ((actors (.mqry o) b).map fun l =>
      (l, if o.mod = 1 then elemIndex o b l else 0, laneWin b l o.va.toNat))) s
      (s.mapLanes b.w (acting (.mqry o) b) fun _ u => u.empty [o.va.toNat]) := by
  have hvf : (o.mod == 1) = true →
      Covers ([(o.va.toNat, 1)] ++ if o.mod == 1 then [(o.vf.toNat, 1)] else []) [o.vf.toNat] := by
    intro hm
    exact covers_of_mem (n := 1) (List.mem_append_right _ (by rw [if_pos hm]; exact List.mem_singleton_self _))
      fun x hx => ⟨0, Nat.one_pos, List.mem_singleton.mp hx⟩
  have hva : Covers ([(o.va.toNat, 1)] ++ if o.mod == 1 then [(o.vf.toNat, 1)] else []) [o.va.toNat] :=
    covers_of_mem (n := 1) (by simp) fun x hx => ⟨0, Nat.one_pos, List.mem_singleton.mp hx⟩
  rw [Queues, show exec (.mqry o) s = execMqry o s from rfl, execMqry,
    laneTile_queues h hroom rfl hvf hva fun hm => hindex (beq_iff_eq.mp hm)]
  simp only [beq_iff_eq]
  rfl

end

/-- Settles O20: each word by the frame it shares, with its indices in range and its registers full. -/
theorem tileWords : Obligations.TileWords :=
  ⟨fun _ _ _ hr h0 hroom => mclr_queues hr h0 hroom,
    fun _ _ _ h hroom hkind hsize hx hcls => mldt_queues h hroom hkind hsize hx hcls,
    fun _ _ _ h hroom hindex => mmovr_queues h hroom hindex,
    fun _ _ _ h hroom hindex => mmovw_queues h hroom hindex,
    fun _ _ _ h hroom hindex => mqry_queues h hroom hindex⟩

/-! ### MDRAIN, QDUAL and RQNT (R279, R283, R286, R287) -/

section
variable {o : FmtT} {s : State} {b : Bundle}

theorem overlaps_eq_false {a n c m : Nat} (h : a + n ≤ c ∨ c + m ≤ a) : overlaps a n c m = false := by
  simp only [overlaps, Bool.and_eq_false_iff, decide_eq_false_iff_not]
  omega

/-- The offset of a drain's elements: 0 in a ring, whose slot is the ring's own (R279). -/
def drainAt (o : FmtT) (s : State) (b : Bundle) : Nat := if (bufOf s b o.q).kind = .ring then 0 else 16 * o.imm.toNat

theorem mdrain_queues (h : Leads (.mdrain o) s b) (hroom : TileRoom s b o.tile.toNat) (hnone : (bufOf s b o.q).kind ≠ .none)
    (hring : (bufOf s b o.q).kind = .ring → (bufOf s b o.q).psd = true ∧ o.imm = 0)
    (halign : (leadVal (.mdrain o) b o.va false).toNat % 16 = 0)
    (helems : drainAt o s b + drainSize (o.mod.toNat % 8) ≤ (bufOf s b o.q).size)
    (hrec : (leadVal (.mdrain o) b o.va false).toNat + (if o.mod.toNat % 8 = 4 then 80 else 16) ≤ (bufOf s b o.q).size)
    (hapart : drainAt o s b + drainSize (o.mod.toNat % 8) ≤ (leadVal (.mdrain o) b o.va false).toNat ∨
      (leadVal (.mdrain o) b o.va false).toNat + (if o.mod.toNat % 8 = 4 then 80 else 16) ≤ drainAt o s b) :
    Queues (.mdrain o) b o.tile.toNat (.mdrain (o.mod.toNat % 8) (drainRnd o) o.q.toNat (drainAt o s b)
      (leadVal (.mdrain o) b o.va false).toNat) s s := by
  have hs : Covers [(o.va.toNat, 1)] ([(⟨o.va.toNat, 1, false⟩ : Src)].flatMap Src.regs) := by
    simpa using covers_src_of_mem false (List.mem_singleton_self _)
  have hbad : ((bufOf s b o.q).kind == .none || ((bufOf s b o.q).kind == .ring && (!(bufOf s b o.q).psd || o.imm != 0))) = false := by
    rw [beq_eq_false_iff_ne.mpr hnone, Bool.false_or, Bool.and_eq_false_imp]
    intro hk
    obtain ⟨hpsd, himm⟩ := hring (beq_iff_eq.mp hk)
    rw [hpsd, himm]
    rfl
  have hparams : ((leadVal (.mdrain o) b o.va false).toNat % 16 != 0 ||
      decide ((bufOf s b o.q).size < drainAt o s b + drainSize (o.mod.toNat % 8)) ||
      decide ((bufOf s b o.q).size < (leadVal (.mdrain o) b o.va false).toNat + if o.mod.toNat % 8 = 4 then 80 else 16) ||
      overlaps (drainAt o s b) (drainSize (o.mod.toNat % 8)) (leadVal (.mdrain o) b o.va false).toNat
        (if o.mod.toNat % 8 = 4 then 80 else 16)) = false := by
    rw [halign, decide_eq_false (not_lt.mpr helems), decide_eq_false (not_lt.mpr hrec), overlaps_eq_false hapart]
    rfl
  rw [Queues, show exec (.mdrain o) s = execMdrain o s from rfl, execMdrain]
  exact (tileLeader_acts h rfl hs (fun _ => hroom.1) hbad).trans
    (congrArg _ ((if_neg (Bool.eq_false_iff.mp hparams)).trans (queueTile_of_place _ _ hroom.2)))

/-- The address operand of an update: a pair for main memory, else a register (R283). -/
def updateAddr (i : Instr) (o : FmtT) (b : Bundle) : Nat :=
  if o.mod.toNat / 8 == 1 then (leadPair i b o.va false).toNat else (leadVal i b o.va false).toNat

theorem updateAddr_eq (i : Instr) (o : FmtT) (b : Bundle) : ((b.warp.thread (leader i b)).map fun t =>
    if o.mod.toNat / 8 == 1 then (t.pair o.va.toNat).toNat else (t.reg o.va.toNat).val.toNat).getD 0 = updateAddr i o b := by
  rw [updateAddr, leadPair, leadVal, laneVal]
  cases b.warp.thread (leader i b) <;> simp [Thread.pairVal, Thread.val]

/-- MDRAIN.add and MDRAIN.upd with a legal address and stride. -/
theorem updateWord_queues {i : Instr} {upd : Bool} {k : WordInfo} (h : Leads i s b) (hroom : TileRoom s b o.tile.toNat)
    (hk : i.info b.warp.width = some k)
    (hregs : k.regs = (o.va.toNat, if o.mod.toNat / 8 == 1 then 2 else 1) :: if upd then [(o.vf.toNat, 1)] else [])
    (halign : updateAddr i o b % 16 = 0) (hstride : 8 ≤ o.imm.toNat)
    (hwin : (o.mod.toNat / 8 == 1) = false → updateAddr i o b + 31 * (16 * o.imm.toNat) + 128 ≤ limitOf s b.warp .scratch) :
    updateWord i o upd s = .next (queuedTile b o.tile.toNat (.update upd (o.mod.toNat / 8 == 1) (updateAddr i o b)
      (16 * o.imm.toNat) (if upd then leadVal i b o.vf false else 0)) s) := by
  have hs : Covers k.regs (([⟨o.va.toNat, if o.mod.toNat / 8 == 1 then 2 else 1, false⟩] ++
      (if upd then [⟨o.vf.toNat, 1, false⟩] else []) : List Src).flatMap Src.regs) := by
    rw [hregs, List.flatMap_append, covers_append]
    refine ⟨by simpa using covers_src_of_mem false (List.mem_cons_self ..), ?_⟩
    cases upd with
    | false => exact covers_nil _
    | true => simpa using covers_src_of_mem false (List.mem_cons_of_mem _ (List.mem_singleton_self _))
  have hparams : (updateAddr i o b % 16 != 0 || decide (o.imm.toNat < 8) || (!(o.mod.toNat / 8 == 1) &&
      decide (limitOf s b.warp .scratch < updateAddr i o b + 31 * (16 * o.imm.toNat) + 128))) = false := by
    have hin : (!(o.mod.toNat / 8 == 1) &&
        decide (limitOf s b.warp .scratch < updateAddr i o b + 31 * (16 * o.imm.toNat) + 128)) = false := by
      rw [Bool.and_eq_false_imp]
      exact fun hm => decide_eq_false (not_lt.mpr (hwin (by simpa using hm)))
    rw [halign, decide_eq_false (not_lt.mpr hstride), hin]
    rfl
  rw [updateWord, tileLeader_acts h hk hs (fun _ => hroom.1) rfl]
  simp only [updateAddr_eq, hparams, Bool.false_eq_true, if_false]
  rw [queueTile_of_place _ _ hroom.2]
  rfl

/-- The two registers that QDUAL and RQNT read. -/
theorem covers_pairSrc (o : FmtT) : Covers [(o.va.toNat, 1), (o.vf.toNat, 1)]
    ([(⟨o.va.toNat, 1, false⟩ : Src), ⟨o.vf.toNat, 1, false⟩].flatMap Src.regs) := by
  simp only [List.flatMap_cons, List.flatMap_nil, List.append_nil, covers_append]
  exact ⟨covers_src_of_mem false (by simp), covers_src_of_mem false (by simp)⟩

theorem qdual_queues (h : Leads (.qdual o) s b) (hplace : tilePlace s b.warp.die b.warp.core = true)
    (hkind : (bufOf s b o.q).kind = .plain) (halign : (leadVal (.qdual o) b o.va false).toNat % 16 = 0)
    (hfmt : fmtKind (leadVal (.qdual o) b o.vf false) = 0) (hscale : fmtScale (leadVal (.qdual o) b o.vf false) = 0)
    (hbias : biasOk (fmtBias (leadVal (.qdual o) b o.vf false)) = true)
    (hsrc : 16 * o.imm.toNat + (if o.mod.getLsbD 0 then 2048 else 4096) ≤ (bufOf s b o.q).size)
    (hdst : (leadVal (.qdual o) b o.va false).toNat + 2192 ≤ (bufOf s b o.q).size) :
    Queues (.qdual o) b 0 (.qdual (o.mod.getLsbD 0) (drainRnd o) o.q.toNat (16 * o.imm.toNat)
      (leadVal (.qdual o) b o.va false).toNat (leadVal (.qdual o) b o.vf false)) s s := by
  have hparams : ((bufOf s b o.q).kind != .plain || (leadVal (.qdual o) b o.va false).toNat % 16 != 0 ||
      fmtKind (leadVal (.qdual o) b o.vf false) != 0 || fmtScale (leadVal (.qdual o) b o.vf false) != 0 ||
      !biasOk (fmtBias (leadVal (.qdual o) b o.vf false)) ||
      decide ((bufOf s b o.q).size < 16 * o.imm.toNat + (if o.mod.getLsbD 0 then 2048 else 4096)) ||
      decide ((bufOf s b o.q).size < (leadVal (.qdual o) b o.va false).toNat + 2192)) = false := by
    rw [hkind, halign, hfmt, hscale, hbias, decide_eq_false (not_lt.mpr hsrc), decide_eq_false (not_lt.mpr hdst)]
    rfl
  rw [Queues, show exec (.qdual o) s = execQdual o s from rfl, execQdual]
  exact (tileLeader_acts h rfl (covers_pairSrc o) (fun hn => absurd hn Bool.false_ne_true) rfl).trans
    (congrArg Host.Outcome.next ((if_neg (Bool.eq_false_iff.mp hparams)).trans (queueTile_of_place _ _ hplace)))

theorem rqnt_queues (h : Leads (.rqnt o) s b) (hplace : tilePlace s b.warp.die b.warp.core = true)
    (hkind : (bufOf s b o.q).kind = .plain) (halign : (leadVal (.rqnt o) b o.va false).toNat % 16 = 0)
    (hfmt : fmtKind (leadVal (.rqnt o) b o.vf false) = 0 ∨ fmtKind (leadVal (.rqnt o) b o.vf false) = 1 ∨
      fmtKind (leadVal (.rqnt o) b o.vf false) = 4)
    (hbias : biasOk (fmtBias (leadVal (.rqnt o) b o.vf false)) = true)
    (hscale : fmtScale (leadVal (.rqnt o) b o.vf false) ≠ 0xFFF)
    (hsrc : 16 * o.imm.toNat + 1040 ≤ (bufOf s b o.q).size)
    (hdst : (leadVal (.rqnt o) b o.va false).toNat + recordSize (fmtKind (leadVal (.rqnt o) b o.vf false)) ≤
      (bufOf s b o.q).size) :
    Queues (.rqnt o) b 0 (.rqnt (drainRnd o) o.q.toNat (16 * o.imm.toNat) (leadVal (.rqnt o) b o.va false).toNat
      (leadVal (.rqnt o) b o.vf false)) s s := by
  have hok : fmtOk [0, 1, 4] (leadVal (.rqnt o) b o.vf false) = true := by
    rw [fmtOk, hbias, Bool.and_true]
    rcases hfmt with hf | hf | hf <;> rw [hf] <;> rfl
  have hparams : ((bufOf s b o.q).kind != .plain || (leadVal (.rqnt o) b o.va false).toNat % 16 != 0 ||
      !fmtOk [0, 1, 4] (leadVal (.rqnt o) b o.vf false) || fmtScale (leadVal (.rqnt o) b o.vf false) == 0xFFF ||
      decide ((bufOf s b o.q).size < 16 * o.imm.toNat + 1040) ||
      decide ((bufOf s b o.q).size < (leadVal (.rqnt o) b o.va false).toNat +
        recordSize (fmtKind (leadVal (.rqnt o) b o.vf false)))) = false := by
    rw [hkind, halign, hok, beq_eq_false_iff_ne.mpr hscale, decide_eq_false (not_lt.mpr hsrc), decide_eq_false (not_lt.mpr hdst)]
    rfl
  rw [Queues, show exec (.rqnt o) s = execRqnt o s from rfl, execRqnt]
  exact (tileLeader_acts h rfl (covers_pairSrc o) (fun hn => absurd hn Bool.false_ne_true) rfl).trans
    (congrArg _ ((if_neg (Bool.eq_false_iff.mp hparams)).trans (queueTile_of_place _ _ hplace)))

end

/-- Settles O21: each word by the parameters its checks let pass. -/
theorem drainWords : Obligations.DrainWords :=
  ⟨fun _ _ _ h hroom hnone hring halign helems hrec hapart => mdrain_queues h hroom hnone hring halign helems hrec hapart,
    fun _ _ _ h hroom halign hstride hwin => updateWord_queues h hroom rfl rfl halign hstride hwin,
    fun _ _ _ h hroom halign hstride hwin => updateWord_queues h hroom rfl rfl halign hstride hwin,
    fun _ _ _ h hplace hkind halign hfmt hscale hbias hsrc hdst => qdual_queues h hplace hkind halign hfmt hscale hbias hsrc hdst,
    fun _ _ _ h hplace hkind halign hfmt hbias hscale hsrc hdst => rqnt_queues h hplace hkind halign hfmt hbias hscale hsrc hdst⟩

end Sys2Proof.Machine
end

section
/-! PROOFS. MMA and MMA.keep sign their mask's round (R264, R268). -/

namespace Sys2Proof.Machine

section
variable {o : FmtT} {b : Bundle} {s : State}

/-- The mask register an MMA word names. -/
def signMask (o : FmtT) (b : Bundle) : MaskReg := (b.warp.masks[o.mask.toNat]?).getD ⟨0, 0, 0, none⟩

/-- The round an MMA word signs: its mask's, or a new one. -/
def signRound (o : FmtT) (b : Bundle) : SignRound :=
  (signMask o b).round.getD ⟨o.tile.toNat, o.q.toNat, o.mod.toNat, o.imm.toNat, 0, [], .opened⟩

/-- What a member stages: its registers and format word, or none under .keep, and where its word stands. -/
def stagedBy (o : FmtT) (keep : Bool) (b : Bundle) (l : Nat) : Staged :=
  ⟨if keep then [] else (stageRegs b.warp.width o).map fun r => ((b.warp.thread l).map fun u => (u.reg r).val).getD 0,
    if keep then 0 else laneVal b.warp l o.vf false, b.iss.hdr, b.iss.idx, b.iss.words.length - 1⟩

/-- Some members have signed a round: they wait, and the round is checked. -/
def signedBy (o : FmtT) (keep : Bool) (b : Bundle) (mem : Lanes) (s : State) : State :=
  checkSign b.w o.mask.toNat (finishWord b (waitLanes b mem (.sign o.mask.toNat) (s.modWarp b.w fun y =>
    { y with masks := lmod y.masks o.mask.toNat fun z => { z with round := some { signRound o b with
        signed := (signRound o b).signed ||| mem
        staged := (laneList b.warp.width mem).foldl (fun t l => tput t l (stagedBy o keep b l)) (signRound o b).staged } } })))

/-- The members' registers are full and their format words legal; or, under .keep, the latch is valid. -/
def SignReady (o : FmtT) (keep : Bool) (b : Bundle) (ls : List Nat) : Prop :=
  if keep then b.warp.latch.valid = true else
    (∀ l ∈ ls, ∀ u, b.warp.thread l = some u → ∀ r ∈ o.vf.toNat :: stageRegs b.warp.width o, (u.reg r).full = true) ∧
    ∀ l ∈ ls, fmtKind (laneVal b.warp l o.vf false) < 4 ∧ biasOk (fmtBias (laneVal b.warp l o.vf false)) = true

/-- A round that is open stops no member from signing. -/
theorem sign_not_busy (hst : (signRound o b).st = .opened) :
    (match (signMask o b).round with | some r => r.st != RoundState.opened | none => false) = false := by
  rw [signRound] at hst
  cases hround : (signMask o b).round with
  | none => rfl
  | some r =>
    rw [hround, Option.getD_some] at hst
    simp [hst]

/-- A round with the word's tile, buffer, mod and immediate agrees with it. -/
theorem sign_same (htile : (signRound o b).tile = o.tile.toNat) (hq : (signRound o b).q = o.q.toNat)
    (hmod : (signRound o b).mod = o.mod.toNat) (himm : (signRound o b).imm = o.imm.toNat) :
    (match (signMask o b).round with
      | some r => r.tile == o.tile.toNat && r.q == o.q.toNat && r.mod == o.mod.toNat && r.imm == o.imm.toNat
      | none => true) = true := by
  rw [signRound] at htile hq hmod himm
  cases hround : (signMask o b).round with
  | none => rfl
  | some r =>
    rw [hround, Option.getD_some] at htile hq hmod himm
    simp [htile, hq, hmod, himm]

theorem fmtOk_of_lt {w : Word} (hk : fmtKind w < 4) (hb : biasOk (fmtBias w) = true) : fmtOk [0, 1, 2, 3] w = true := by
  rw [fmtOk, hb, Bool.and_true, List.contains_eq_mem, decide_eq_true_eq]
  simp only [List.mem_cons, List.not_mem_nil, or_false]
  omega

section
variable {keep : Bool} {mem : Lanes} (h : SignReady o keep b (laneList b.warp.width mem))
include h

/-- No register that a ready member stages is empty. -/
theorem SignReady.none_empty : ((laneList b.warp.width mem).any fun l => ((b.warp.thread l).map fun t =>
    t.anyEmpty (if keep then [] else o.vf.toNat :: stageRegs b.warp.width o)).getD false) = false := by
  rw [List.any_eq_false]
  intro l hl
  cases hu : b.warp.thread l with
  | none => simp
  | some u =>
    cases keep with
    | true => simp [Thread.anyEmpty]
    | false =>
      obtain ⟨hfull, -⟩ := h
      have hregs := hfull l hl u hu
      simpa only [Thread.anyEmpty, Option.map_some, Option.getD_some, Bool.false_eq_true, if_false, List.any_eq_true,
        Bool.not_eq_true', not_exists, not_and, Bool.not_eq_false] using hregs

/-- No ready member traps. -/
theorem SignReady.none_bad : (if keep then (if b.warp.latch.valid then 0 else mem)
    else laneFilter b.warp.width mem fun l => !fmtOk [0, 1, 2, 3] (laneVal b.warp l o.vf false)) = (0 : Lanes) := by
  cases keep with
  | true =>
    rw [if_pos rfl, if_pos (show b.warp.latch.valid = true from h)]
  | false =>
    obtain ⟨-, hfmt⟩ := h
    refine laneFilter_none _ _ _ fun l hl hm => ?_
    obtain ⟨hkind, hbias⟩ := hfmt l ((mem_laneList _ _ _).mpr ⟨hl, hm⟩)
    rw [fmtOk_of_lt hkind hbias]
    rfl

end

/-- A member of a mask outside a handler signs its round. -/
theorem signAct_signs {keep : Bool} {m : Lanes} (hout : Outside b m) (hst : (signRound o b).st = .opened)
    (htile : (signRound o b).tile = o.tile.toNat) (hq : (signRound o b).q = o.q.toNat)
    (hmod : (signRound o b).mod = o.mod.toNat) (himm : (signRound o b).imm = o.imm.toNat)
    (hls : laneList b.warp.width (m &&& (signMask o b).bits) ≠ [])
    (hready : SignReady o keep b (laneList b.warp.width (m &&& (signMask o b).bits))) :
    signAct o keep b m s = signedBy o keep b (m &&& (signMask o b).bits) s := by
  have hmem : m &&& (signMask o b).bits ≠ 0 := fun h => hls (by rw [h, laneList_zero])
  have hbad := hready.none_bad
  unfold signMask at hbad hmem
  rw [signAct, hout, trapThen_none]
  refine (if_neg (Bool.eq_false_iff.mp (sign_not_busy hst))).trans ((if_neg ?differs).trans
    ((if_neg (Bool.eq_false_iff.mp hready.none_empty)).trans ?signs))
  case differs => exact Bool.eq_false_iff.mp (congrArg Bool.not (sign_same htile hq hmod himm))
  case signs =>
    simp only [hbad, lanes_and_all, trapLanes_none, hmem, if_false]
    rfl

theorem mmaBufBad_eq_false (hkind : (bufOf s b o.q).kind = .ring) (hcsd : (bufOf s b o.q).csd = true)
    (hsize : 1040 ≤ (bufOf s b o.q).size) : mmaBufBad o s b = false := by
  have hsmall : decide ((bufOf s b o.q).size < 1040) = false := decide_eq_false (not_lt.mpr hsize)
  show ((bufOf s b o.q).kind != .ring || !(bufOf s b o.q).csd || decide ((bufOf s b o.q).size < 1040)) = false
  rw [hkind, hcsd, hsmall]
  rfl

/-- The word's staging, as the statement writes it. -/
theorem stagedBy_eq (o : FmtT) (keep : Bool) (b : Bundle) : (fun l => if keep then
      (⟨[], 0, b.iss.hdr, b.iss.idx, b.iss.words.length - 1⟩ : Staged)
    else ⟨(regRange o.va.toNat (256 / b.warp.width)).map fun r => ((b.warp.thread l).map fun u => (u.reg r).val).getD 0,
      laneVal b.warp l o.vf false, b.iss.hdr, b.iss.idx, b.iss.words.length - 1⟩) = stagedBy o keep b := by
  cases keep <;> rfl

end

/-- Settles O22: both words by the one action that signs. -/
theorem signingWords : Obligations.SigningWords := by
  refine ⟨fun o s b hr h0 => ?mma, fun o s b hr h0 => ?keep⟩
  case mma =>
    intro q k mask mem ls rs stage r0 hout htile hkind hcsd hsize hst ht hq hmod himm hls hready
    rw [show exec (.mma o) s = execMma o s from rfl, execMma,
      tileWord_acts hr h0 (fun _ => htile) (mmaBufBad_eq_false hkind hcsd hsize),
      signAct_signs hout hst ht hq hmod himm hls hready, signedBy, ← stagedBy_eq]
    rfl
  case keep =>
    intro q k mask mem ls rs stage r0 hout htile hkind hcsd hsize hst ht hq hmod himm hls hready
    rw [show exec (.mmaKeep o) s = execMmaKeep o s from rfl, execMmaKeep,
      tileWord_acts hr h0 (fun _ => htile) (mmaBufBad_eq_false hkind hcsd hsize),
      signAct_signs hout hst ht hq hmod himm hls hready, signedBy, ← stagedBy_eq]
    rfl

end Sys2Proof.Machine
end

section
/-! PROOFS. CSRR, CSRW and TRET: control registers read and written, and the return from a handler (R312, R313, R317). -/

namespace Sys2Proof.Machine

/-- Of lanes that all run a handler, none is outside one. -/
theorem and_not_inHandler_of_inside {b : Bundle} {m : Lanes} (h : Inside b m) : m &&& ~~~ b.inHandler m = 0 := h

/-! ### CSRR and CSRW (R312, R313) -/

section
variable {o : FmtI} {s : State} {b : Bundle}

/-- No guard-true thread's TREG register is empty: the access waits for none (R313). -/
theorem any_tregEmpty_eq_false {i : Instr} {k : Nat}
    (h : ∀ l ∈ actors i b, ∀ u, b.warp.thread l = some u → tregEmpty k u = false) :
    ((laneList b.warp.width (acting i b)).any fun l => ((b.warp.thread l).map (tregEmpty k)).getD false) = false := by
  rw [List.any_eq_false]
  intro l hl
  cases hu : b.warp.thread l with
  | none => simp
  | some u => simp [h l hl u hu]

/-- What CSRR leaves of a thread. -/
def csrrThread (o : FmtI) (s : State) (x : Warp) (u : Thread) : Thread :=
  let v := csrRead s x u o.imm.toNat
  if csr64 o.imm.toNat then u.putPair o.d.toNat v else u.put o.d.toNat (loOf v)

theorem exec_csrr_reads (h : Runs (.csrr o) s b) (hf : NamedFull (.csrr o) b)
    (hin : csrHandler o.imm.toNat = true → Inside b (acting (.csrr o) b))
    (ht : ∀ l ∈ actors (.csrr o) b, ∀ u, b.warp.thread l = some u → tregEmpty o.imm.toNat u = false) :
    ∃ t, exec (.csrr o) s = .next t ∧ Answers (.csrr o) b (csrrThread o s b.warp) s t := by
  have hout : (if csrHandler o.imm.toNat = true then acting (.csrr o) b &&& ~~~ b.inHandler (acting (.csrr o) b) else 0) = 0 := by
    split
    · next hk => exact and_not_inHandler_of_inside (hin hk)
    · rfl
  have hready : OperandsReady (.csrr o) [] (regRange o.d.toNat (if csr64 o.imm.toNat then 2 else 1)) b :=
    operandsReady_of_namedFull hf rfl (covers_nil _) (covers_dI o _ _ _ _ _ _ _ _ _ le_rfl)
  rw [exec_csrr, execCsrr]
  refine (becomes_runWord (f := fun x => x.mapLanes (acting (.csrr o) b) fun _ u => csrrThread o s b.warp u) h ?_).imp
    fun t ⟨hs, hE⟩ => ⟨hs, effect_of_becomes_mapLanes hE⟩
  rw [hout, trapThen_none, hready, any_tregEmpty_eq_false ht, if_neg Bool.false_ne_true]
  rfl

/-- The value a lane writes with CSRW. -/
def csrwValue (o : FmtI) (b : Bundle) (l : Nat) : Word64 := ((b.warp.thread l).map fun u => if o.za then 0
  else if csr64 o.imm.toNat then u.pair o.a.toNat else (u.reg o.a.toNat).val.setWidth 64).getD 0

theorem exec_csrw_writes (h : ActsFree (.csrw o) s b) (hro : csrReadOnly o.imm.toNat = false)
    (hin : csrHandler o.imm.toNat = true → Inside b (acting (.csrw o) b))
    (ht : ∀ l ∈ actors (.csrw o) b, ∀ u, b.warp.thread l = some u → tregEmpty o.imm.toNat u = false)
    (hok : ∀ l ∈ actors (.csrw o) b, csrValueOk o.imm.toNat (csrwValue o b l) = true) :
    exec (.csrw o) s = .next (finishWord b ((actors (.csrw o) b).foldl
      (fun s l => csrWrite b l o.imm.toNat (csrwValue o b l) s) s)) := by
  obtain ⟨⟨hr, hf, h0⟩, hlive⟩ := h
  have hout : (if csrReadOnly o.imm.toNat = true then acting (.csrw o) b else if csrHandler o.imm.toNat = true then
      acting (.csrw o) b &&& ~~~ b.inHandler (acting (.csrw o) b) else 0) = 0 := by
    rw [hro, if_neg Bool.false_ne_true]
    split
    · next hk => exact and_not_inHandler_of_inside (hin hk)
    · rfl
  have hbad : laneFilter b.warp.width (acting (.csrw o) b) (fun l => !csrValueOk o.imm.toNat (csrwValue o b l)) = 0 :=
    laneFilter_none _ _ _ fun l hl hm => by rw [hok l ((mem_laneList _ _ _).mpr ⟨hl, hm⟩)]; rfl
  rw [exec_csrw, execCsrw, runWord_next _ hr]
  simp only [h0, hlive, Bool.false_eq_true, if_false]
  rw [operandsReady_csrw hf, hout, trapThen_none, any_tregEmpty_eq_false ht, if_neg Bool.false_ne_true]
  have writes : ∀ f : Nat → Word64, f = csrwValue o b →
      trapLanes b.w (laneFilter b.warp.width (acting (.csrw o) b) fun l => !csrValueOk o.imm.toNat (f l)) b.at_ 0x03 (fun _ => 0)
        (fun _ => 0) ((laneList b.warp.width (acting (.csrw o) b &&& ~~~ laneFilter b.warp.width (acting (.csrw o) b) fun l =>
          !csrValueOk o.imm.toNat (f l))).foldl (fun s l => csrWrite b l o.imm.toNat (f l) s) s) =
      (actors (.csrw o) b).foldl (fun s l => csrWrite b l o.imm.toNat (csrwValue o b l) s) s := by
    rintro _ rfl
    rw [hbad, lanes_and_all, trapLanes_none]
    rfl
  refine congrArg Host.Outcome.next (congrArg (finishWord b) (writes _ (funext fun l => ?_)))
  rw [csrwValue]
  cases b.warp.thread l <;> rfl

end

/-- Settles O26: CSRR and CSRW by their lanes' values, the four registers by what a write of each does. -/
theorem registerWords : Obligations.RegisterWords := by
  refine ⟨fun o s b h hf hin ht => exec_csrr_reads h hf hin ht, fun o s b h hro hin => exec_csrw_writes h hro hin,
    fun b l v s x hx hst => ?tvec, fun b l v s => rfl, fun b l v s => rfl, fun b l v s k hk => ?treg⟩
  case tvec =>
    have hsel : ((s.warp? b.w).map Warp.ctxsel).getD 0 = x.ctxsel := by rw [hx]; rfl
    show regWrite b.warp.die (((s.warp? b.w).map Warp.ctxsel).getD 0) 0x12 (b.warp.ctx == 0) v (causeThread s b.w l 0 b.iss.hdr) s = _
    rw [hsel]
    exact if_neg hst
  case treg =>
    have htreg : csrTreg (0x800 + k) = true := by simp [csrTreg]; omega
    have h1 : 0x800 + k ≠ 1 := by omega
    have h2 : 0x800 + k ≠ 2 := by omega
    rw [csrWrite, if_neg h1, if_neg h2, if_pos htreg, Nat.add_sub_cancel_left]

/-! ### TRET (R317) -/

/-- Dropping the pending results of a window leaves every die's time. -/
theorem time_dropWindow (w : Nat) (m : Lanes) (s : State) (d : Nat) : ((dropWindow w m s).die d).time = (s.die d).time := by
  unfold State.die tgetD dropWindow
  simp only [tget_tmap]
  cases tget s.dies d <;> rfl

theorem exec_tret_returns {o : FmtR} {s : State} {b : Bundle} (h : ActsFree (.tret o) s b) (hin : Inside b (acting (.tret o) b))
    {point : Thread → Option CodePt} (hpoint : point = fun u => u.trap.bind fun f =>
      resumePoint f o.mod.toNat ((if o.za then 0 else u.pair o.a.toNat).toNat % 2 ^ 57))
    (hsome : ∀ l ∈ actors (.tret o) b, ∀ u, b.warp.thread l = some u → (point u).isSome = true) :
    let t := dropWindow b.w (acting (.tret o) b) s
    exec (.tret o) s = .next (finishWord b (dropLanes b (acting (.tret o) b) (t.mapLanes b.w (acting (.tret o) b) fun _ u =>
      leaveTrap ((point u).getD u.pc) t.instant (t.die b.warp.die).time u))) := by
  intro t
  obtain ⟨⟨hr, hf, h0⟩, hlive⟩ := h
  have hbad : laneFilter b.warp.width (acting (.tret o) b)
      (fun l => ((b.warp.thread l).map fun t => (point t).isNone).getD false) = 0 :=
    laneFilter_none _ _ _ fun l hl hm => by
      cases hu : b.warp.thread l with
      | none => rfl
      | some u => simpa [Option.isNone_eq_false_iff] using hsome l ((mem_laneList _ _ _).mpr ⟨hl, hm⟩) u hu
  subst hpoint
  rw [exec_tret, execTret, runWord_next _ hr]
  simp only [h0, hlive, Bool.false_eq_true, if_false]
  rw [operandsReady_tret hf, and_not_inHandler_of_inside hin, trapThen_none]
  simp only [hbad, lanes_and_all, trapLanes_none]
  rw [show (t.die b.warp.die).time = (s.die b.warp.die).time from time_dropWindow _ _ _ _]

/-- A return to the word that trapped, and past it, inside its clause. -/
theorem resumePoint_inside {f : TrapFrame} (h0 : f.cidx ≠ 0) (h16 : f.cidx ≠ 16) (hlast : f.cidx ≠ f.count) :
    resumePoint f 0 0 = some ⟨f.cpc, some ⟨f.cls, f.count, f.cidx⟩, false⟩ ∧
    resumePoint f 1 0 = some ⟨f.cpc, some ⟨f.cls, f.count, f.cidx + 1⟩, false⟩ := by
  simp [resumePoint, h0, h16, hlast]

/-- Settles O29: TRET by the resume points its threads have, and what a thread that leaves the handler is. -/
theorem trapReturn : Obligations.TrapReturn := by
  refine ⟨fun o s b h hin => exec_tret_returns h hin rfl, fun u f pc g n hf htarget => ?leaves,
    fun u f pc g n a hf htarget => ?target, fun f h0 h16 hlast => resumePoint_inside h0 h16 hlast, fun _ _ => rfl⟩
  case leaves => simp [leaveTrap, hf, htarget, Thread.ready]
  case target => simp [leaveTrap, hf, htarget, Thread.ready]

end Sys2Proof.Machine
end

section
/-! PROOFS. The words of R320 that read the violation log (R320, R322), and the frame they share with the other SYS words. -/

namespace Sys2Proof.Machine

/-! ### The lowest guard-true lane (R320) -/

section
variable {i : Instr} {s : State} {b : Bundle}

theorem leader_acting (h0 : acting i b ≠ 0) : (acting i b).getLsbD (leader i b) = true := by
  obtain ⟨l, ls, hl⟩ := List.exists_cons_of_ne_nil (exists_actor h0)
  have hlead : leader i b = l := by simp [leader, lowestLane, show laneList b.warp.width (acting i b) = l :: ls from hl]
  have hmem : l ∈ laneList b.warp.width (acting i b) := by rw [show laneList b.warp.width (acting i b) = l :: ls from hl]; simp
  rw [hlead]
  exact ((mem_laneList _ _ _).mp hmem).2

theorem exists_leader (h0 : acting i b ≠ 0) : ∃ u, b.warp.thread (leader i b) = some u := acting_thread (leader_acting h0)

/-- A word whose named registers are full in every guard-true thread has them full in the lowest. -/
theorem ActsFree.leads (h : ActsFree i s b) : LeadsFree i s b := by
  obtain ⟨⟨hr, hf, h0⟩, hlive⟩ := h
  exact ⟨⟨hr, h0, fun t k ht hk r hreg j hj => hf _ t k (leader_acting h0) ht hk r hreg j hj⟩, hlive⟩

/-- A word that names no register leads as soon as it stands. -/
theorem StandsFree.leads (h : StandsFree i s b) {k : WordInfo} (hk : i.info b.warp.width = some k) (hregs : k.regs = []) :
    LeadsFree i s b := by
  obtain ⟨hr, h0, hlive⟩ := h
  refine ⟨⟨hr, h0, fun t k' ht hk' r hreg => ?_⟩, hlive⟩
  obtain rfl : k = k' := Option.some.inj (hk.symm.trans hk')
  simp [hregs] at hreg

/-- A value of the lowest guard-true thread. -/
theorem val_of_leader {u : Thread} (hu : b.warp.thread (leader i b) = some u) (r : BitVec 9) (z : Bool) :
    u.val r z = leadVal i b r z := by
  rw [leadVal, laneVal, hu]
  rfl

theorem pairVal_of_leader {u : Thread} (hu : b.warp.thread (leader i b) = some u) (r : BitVec 9) (z : Bool) :
    u.pairVal r z = leadPair i b r z := by
  rw [leadPair, hu]
  rfl

/-! ### The frame of the words of R320 -/

/-- The registers `ds` are full in every guard-true thread. -/
def ResultsFull (i : Instr) (b : Bundle) (ds : List Nat) : Prop :=
  ∀ l ∈ actors i b, ∀ u, b.warp.thread l = some u → u.anyEmpty ds = false

theorem resultsFull_nil (i : Instr) (b : Bundle) : ResultsFull i b [] := fun _ _ _ _ => rfl

theorem resultsFull_of_namedFull (hf : NamedFull i b) {k : WordInfo} (hk : i.info b.warp.width = some k) {ds : List Nat}
    (hd : Covers k.regs ds) : ResultsFull i b ds := by
  intro l hl u hu
  obtain ⟨-, hwait⟩ := operands_full hf hk (ss := []) (covers_nil _) hd ((mem_laneList _ _ _).mp hl).2 hu
  simp only [Thread.mustWait, Bool.or_eq_false_iff] at hwait
  exact hwait.2

/-- The destination of a format R word is full in its guard-true threads. -/
theorem resultsFull_dR {o : FmtR} {cls opc : Nat} {mods : List Nat} {a c d : Use} {l x k : Bool} (hf : NamedFull i b)
    (hk : i.info b.warp.width = some (o.info cls opc mods (.reg 1) a c d l x k)) : ResultsFull i b [o.d.toNat] :=
  resultsFull_of_namedFull hf hk (covers_dR o 1 _ _ _ _ _ _ _ _ _ _ le_rfl)

/-- A word of R320 whose operands and results are ready acts, with its lowest guard-true thread. -/
theorem sysWord_acts {ss : List Src} {ds : List Nat} {act : Bundle → Lanes → Thread → State → State} (h : LeadsFree i s b)
    {k : WordInfo} (hk : i.info b.warp.width = some k) (hs : Covers k.regs (ss.flatMap Src.regs)) (hd : ResultsFull i b ds)
    {u : Thread} (hu : b.warp.thread (leader i b) = some u) :
    sysWord i ss ds act s = .next (act b (acting i b) u s) := by
  obtain ⟨hl, hlive⟩ := h
  have hb : s.bundle? = some b := hl.1.1
  have h0 : acting i b ≠ 0 := hl.2.1
  obtain ⟨hw, -⟩ := bundle_warp hb
  have hwait : ((laneList b.warp.width (acting i b &&& b.iss.lanes)).any fun l =>
      ((b.warp.thread l).map fun t => t.anyEmpty ds).getD false) = false := by
    rw [List.any_eq_false]
    intro l hl
    obtain ⟨hlt, hm⟩ := (mem_laneList _ _ _).mp hl
    rw [BitVec.getLsbD_and, Bool.and_eq_true] at hm
    cases ht : b.warp.thread l with
    | none => simp
    | some t => simp [hd l ((mem_laneList _ _ _).mpr ⟨hlt, hm.1⟩) t ht]
  have hthread : s.thread? b.w (leader i b) = some u := by rw [State.thread?, hw, Option.bind_some, hu]
  rw [sysWord, runWord_next _ hl.1]
  simp only [h0, hlive, Bool.false_eq_true, if_false]
  rw [withLeader_act hl hk hs (by simp only [hb]; exact hwait), hthread]

/-- The operands of a word of R320 lie among the registers it names. -/
theorem covers_srcsSys (o : FmtR) (nb nc cls opc : Nat) (mods : List Nat) (d a b c : Use) (l x k : Bool) (ha : 1 ≤ Use.count a)
    (hb : nb ≤ Use.count b) (hc : nc ≤ Use.count c) :
    Covers (o.info cls opc mods d a b c l x k).regs ((srcsSys o nb nc).flatMap Src.regs) :=
  covers_srcsR o 1 nb nc cls opc mods d a b c l x k ha hb hc

/-! ### LOGR (R320, R322) -/

theorem exec_logrAddr (o : FmtR) (s : State) : exec (.logrAddr o) s =
    logrWord (.logrAddr o) o 2 (fun e t => t.putPair o.d.toNat e.addr) s := rfl

theorem exec_logrInfo (o : FmtR) (s : State) : exec (.logrInfo o) s =
    logrWord (.logrInfo o) o 1 (fun e t => t.put o.d.toNat e.info) s := rfl

theorem exec_logrCount (o : FmtR) (s : State) : exec (.logrCount o) s = execLogrCount o s := rfl

theorem exec_logrClr (o : FmtR) (s : State) : exec (.logrClr o) s = execLogrClr o s := rfl

/-- LOGR.addr's register pair is full when the word's register and the one after it are. -/
theorem resultsFull_pair {o : FmtR} (hf : NamedFull (.logrAddr o) b) (hp : ∀ l ∈ actors (.logrAddr o) b, ∀ u,
    b.warp.thread l = some u → (u.reg (o.d.toNat + 1)).full = true) : ResultsFull (.logrAddr o) b (regRange o.d.toNat 2) := by
  intro l hl u hu
  have hd := resultsFull_dR hf rfl l hl u hu
  simpa [Thread.anyEmpty, regRange, List.range_succ, hp l hl u hu] using hd

section
variable {o : FmtR} {n : Nat} {put : LogEntry → Thread → Thread} {mods : List Nat} (h : ActsFree i s b)
  (hk : i.info b.warp.width = some (o.info 6 11 mods (.reg 1) (.reg 1) .none .none false true true))
  (hd : ResultsFull i b (regRange o.d.toNat n))
include h hk hd

/-- An index of the log there is: its entry is read into every guard-true thread. -/
theorem logrWord_reads (hlog : (leadVal i b o.a o.za).toNat < 256) (halign : o.d.toNat % n = 0) :
    ∃ t, logrWord i o n put s = .next t ∧
      Answers i b (put (logEntry s b.warp (leadVal i b o.a o.za).toNat)) s t := by
  obtain ⟨u, hu⟩ := exists_leader h.stands.2.1
  rw [logrWord, sysWord_acts h.leads hk (covers_srcsSys o 0 0 _ _ _ _ _ _ _ _ _ _ le_rfl le_rfl le_rfl) hd hu]
  have hok : (decide (256 ≤ (leadVal i b o.a o.za).toNat) || o.d.toNat % n != 0) = false := by
    rw [decide_eq_false (not_le.mpr hlog), halign]
    rfl
  simp only [val_of_leader hu, hok, Bool.false_eq_true, if_false]
  exact ⟨_, rfl, effect_of_becomes_mapLanes (becomes_finish h.stands.1.1
    fun x => x.mapLanes (acting i b) fun _ t => put (logEntry s b.warp (leadVal i b o.a o.za).toNat) t)⟩

/-- An index above 255, or a register that is not aligned, is ILLEGAL-OPERAND. -/
theorem logrWord_traps (hbad : 256 ≤ (leadVal i b o.a o.za).toNat ∨ o.d.toNat % n ≠ 0) :
    logrWord i o n put s = .next (trapWord b (acting i b) 0x03 s) := by
  obtain ⟨u, hu⟩ := exists_leader h.stands.2.1
  rw [logrWord, sysWord_acts h.leads hk (covers_srcsSys o 0 0 _ _ _ _ _ _ _ _ _ _ le_rfl le_rfl le_rfl) hd hu]
  have hnot : (decide (256 ≤ (leadVal i b o.a o.za).toNat) || o.d.toNat % n != 0) = true := by
    simpa [or_iff_not_imp_left] using hbad
  simp only [val_of_leader hu, hnot, if_true]

end

theorem exec_logrCount_of_acts {o : FmtR} (h : ActsFree (.logrCount o) s b) : ∃ t, exec (.logrCount o) s = .next t ∧
    Answers (.logrCount o) b (fun u => u.put o.d.toNat (natWord (s.ctx b.warp.ctxsel).logged)) s t := by
  obtain ⟨u, hu⟩ := exists_leader h.stands.2.1
  rw [exec_logrCount, execLogrCount, sysWord_acts h.leads rfl (covers_nil _) (resultsFull_dR h.full rfl) hu]
  exact ⟨_, rfl, effect_of_becomes_mapLanes (becomes_finish h.stands.1.1
    fun x => x.mapLanes (acting (.logrCount o) b) fun _ t => t.put o.d.toNat (natWord (s.ctx b.warp.ctxsel).logged))⟩

theorem exec_logrClr_of_stands {o : FmtR} (h : StandsFree (.logrClr o) s b) : exec (.logrClr o) s =
    .next (finishWord b (s.modCtx b.warp.ctxsel fun x => { x with log := [], logged := 0 })) := by
  obtain ⟨u, hu⟩ := exists_leader h.2.1
  rw [exec_logrClr, execLogrClr, sysWord_acts (h.leads rfl rfl) rfl (covers_nil _) (resultsFull_nil _ _) hu]

end

/-- Settles O28: LOGR.addr and LOGR.info by the frame they share, the other two by what they answer or clear. -/
theorem logWords : Obligations.LogWords := by
  refine ⟨fun o s b h hp hlog halign => ?addr, fun o s b h hp hbad => ?addrTraps, fun o s b h hbad => ?infoTraps,
    fun o s b h hlog => ?info, fun o s b h => exec_logrCount_of_acts h, fun o s b h => exec_logrClr_of_stands h⟩
  case addr =>
    rw [exec_logrAddr]
    exact logrWord_reads h rfl (resultsFull_pair h.full hp) hlog halign
  case addrTraps =>
    rw [exec_logrAddr]
    exact logrWord_traps h rfl (resultsFull_pair h.full hp) (hbad.imp_right fun hodd => by omega)
  case infoTraps =>
    rw [exec_logrInfo]
    exact logrWord_traps h rfl (resultsFull_dR h.full rfl) (.inl hbad)
  case info =>
    rw [exec_logrInfo]
    exact logrWord_reads h rfl (resultsFull_dR h.full rfl) hlog (Nat.mod_one _)

end Sys2Proof.Machine
end

section
/-! PROOFS. XSAVE, XLOAD, TLBI, PGSET, CTXEND, HALT, RETIRE and SNAPM, and the ends of the actions they start (R319, R320, R337,
R391, R402). -/

namespace Sys2Proof.Machine

/-! ### The actions a word starts -/

/-- The end of a word changes no action. -/
theorem finishWord_acts (b : Bundle) (s : State) : (finishWord b s).acts = s.acts := by
  obtain ⟨⟨heq, -⟩, -⟩ := finishWord_moves b s
  rw [heq]

theorem waitLanes_acts (b : Bundle) (m : Lanes) (k : Wait) (s : State) : (waitLanes b m k s).acts = s.acts := by
  simp only [waitLanes, dropLanes, State.modIss, State.modWarp_acts, State.mapLanes_acts]

/-- A started action is listed under its name. -/
theorem tget_startAct (b : Bundle) (m : Lanes) (k : ActKind) (after : List Nat) (s : State) :
    tget (startAct b m k after s).acts s.fresh = some ⟨b.w, m, k, after⟩ := by
  rw [startAct_eq, startedAct, finishWord_acts, waitLanes_acts]
  exact tget_tput_same _ _ _

/-! ### The words that name a context (R320) -/

section
variable {i : Instr} {o : FmtR} {s : State} {b : Bundle} {c : Nat}

/-- A word of R320 on a context, its operand a context's number: it acts, with the lowest guard-true thread `u`. -/
theorem ctxWord_acts {nb nc cls opc : Nat} {mods : List Nat} {ub uc : Use} {l x k : Bool}
    {act : Bundle → Lanes → Thread → Nat → State → State} (h : ActsFree i s b)
    (hk : i.info b.warp.width = some (o.info cls opc mods (.reg 1) (.reg 1) ub uc l x k)) (hb : nb ≤ Use.count ub)
    (hc : nc ≤ Use.count uc) (heq : c = (leadVal i b o.a o.za).toNat) (hlt : c < 256) {u : Thread}
    (hu : b.warp.thread (leader i b) = some u) :
    ctxWord i o nb nc act s = .next (act b (acting i b) u c s) := by
  rw [ctxWord, sysWord_acts h.leads hk (covers_srcsSys o nb nc _ _ _ _ _ _ _ _ _ _ le_rfl hb hc) (resultsFull_dR h.full hk) hu]
  simp only [val_of_leader hu, ← heq, not_le.mpr hlt, if_false]

theorem exec_xsave_of_saves (h : ActsFree (.xsave o) s b) (heq : c = (leadVal (.xsave o) b o.a o.za).toNat) (hlt : c < 256)
    (hself : c ≠ b.warp.ctx) (hst : (s.ctx c).st = .running ∨ (s.ctx c).st = .runnable) :
    exec (.xsave o) s = .next (startAct b (acting (.xsave o) b) (.xsave c o.d.toNat) []
      (stopUnattached c true (saveBlocks (fun x => x.ctx == c) s))) := by
  obtain ⟨u, hu⟩ := exists_leader h.stands.2.1
  have hsaves : (s.ctx c).saves = true := by rcases hst with hst | hst <;> rw [Context.saves, hst] <;> rfl
  rw [show exec (.xsave o) s = execXsave o s from rfl, execXsave,
    ctxWord_acts h rfl (Nat.zero_le _) (Nat.zero_le _) heq hlt hu]
  simp only [hself, hsaves, Bool.not_true, Bool.false_eq_true, if_false]

theorem exec_xload_of_parked (h : ActsFree (.xload o) s b) (heq : c = (leadVal (.xload o) b o.a o.za).toNat) (hlt : c < 256)
    (hself : c ≠ b.warp.ctx) (hst : (s.ctx c).st = .parked) :
    exec (.xload o) s = .next (answerWord b (acting (.xload o) b) o 0
      (stopUnattached c false (settleCtx c (s.modCtx c fun x => { x with st := .runnable })))) := by
  obtain ⟨u, hu⟩ := exists_leader h.stands.2.1
  have hparked : ((s.ctx c).st != .parked) = false := by rw [hst]; rfl
  rw [show exec (.xload o) s = execXload o s from rfl, execXload,
    ctxWord_acts h rfl (Nat.zero_le _) (Nat.zero_le _) heq hlt hu]
  simp only [hself, hparked, Bool.false_eq_true, if_false]

theorem exec_tlbi_of_bound (h : ActsFree (.tlbi o) s b) (heq : c = (leadVal (.tlbi o) b o.a o.za).toNat) (hlt : c < 256)
    (hbound : (s.ctx c).bound = true) :
    exec (.tlbi o) s = .next (answerWord b (acting (.tlbi o) b) o 0 { s with
      dies := tmap s.dies fun _ d => { d with tlb := d.tlb.filter fun e => !(e.ctx == c) } }) := by
  obtain ⟨u, hu⟩ := exists_leader h.stands.2.1
  rw [show exec (.tlbi o) s = execTlbi o s from rfl, execTlbi,
    ctxWord_acts h rfl (Nat.zero_le _) (Nat.zero_le _) heq hlt hu]
  simp only [hbound, Bool.not_true, Bool.false_eq_true, if_false, dropCached, Bool.and_true]

theorem exec_tlbiPage_of_bound (h : ActsFree (.tlbiPage o) s b) (heq : c = (leadVal (.tlbiPage o) b o.a o.za).toNat)
    (hlt : c < 256) (hbound : (s.ctx c).bound = true) {x : Nat} (hx : x = (leadPair (.tlbiPage o) b o.b o.zb).toNat)
    (halign : x % 4096 = 0) (hrange : x < 2 ^ 57) :
    exec (.tlbiPage o) s = .next (answerWord b (acting (.tlbiPage o) b) o 0 { s with
      dies := tmap s.dies fun _ d => { d with tlb := d.tlb.filter fun e =>
        !(e.ctx == c && (decide (e.page ≤ x) && decide (x < e.page + e.bytes))) } }) := by
  obtain ⟨u, hu⟩ := exists_leader h.stands.2.1
  have hok : (x % 4096 != 0 || decide (2 ^ 57 ≤ x)) = false := by
    rw [halign, decide_eq_false (not_le.mpr hrange)]
    rfl
  rw [show exec (.tlbiPage o) s = execTlbiPage o s from rfl, execTlbiPage,
    ctxWord_acts (nb := 2) h rfl le_rfl (Nat.zero_le _) heq hlt hu]
  simp only [pairVal_of_leader hu, ← hx, hbound, hok, Bool.not_true, Bool.false_eq_true, if_false, dropCached]

theorem exec_pgset_of_ok {t : State} (h : ActsFree (.pgset o) s b) (heq : c = (leadVal (.pgset o) b o.a o.za).toNat)
    (hlt : c < 256) (hbound : (s.ctx c).bound = true)
    (hset : pgset c b.warp.die (leadPair (.pgset o) b o.b o.zb).toNat (leadPair (.pgset o) b o.c o.zc) s = (0, t)) :
    exec (.pgset o) s = .next (answerWord b (acting (.pgset o) b) o 0 t) := by
  obtain ⟨u, hu⟩ := exists_leader h.stands.2.1
  rw [show exec (.pgset o) s = execPgset o s from rfl, execPgset,
    ctxWord_acts (nb := 2) (nc := 2) h rfl le_rfl le_rfl heq hlt hu]
  simp only [pairVal_of_leader hu, hbound, hset, Bool.not_true, Bool.false_eq_true, if_false]

theorem exec_ctxend_of_bound (h : ActsFree (.ctxend o) s b) (heq : c = (leadVal (.ctxend o) b o.a o.za).toNat) (hlt : c < 256)
    (hbound : (s.ctx c).bound = true) :
    exec (.ctxend o) s = .next (answerWord b (acting (.ctxend o) b) o 0
      (endContext c 0x04 (causeThread s b.w (leader (.ctxend o) b) 0 b.iss.hdr) s)) := by
  obtain ⟨u, hu⟩ := exists_leader h.stands.2.1
  rw [show exec (.ctxend o) s = execCtxend o s from rfl, execCtxend,
    ctxWord_acts h rfl (Nat.zero_le _) (Nat.zero_le _) heq hlt hu]
  simp only [hbound, Bool.not_true, Bool.false_eq_true, if_false]
  rfl

/-! ### HALT, RETIRE and SNAPM (R320, R391, R402) -/

theorem exec_halt_of_stands (h : StandsFree (.halt o) s b) : exec (.halt o) s =
    .next (finishWord b (((residents s b.warp.die).foldl (fun s' c =>
      endContext c 0x05 (causeThread s b.w (leader (.halt o) b) 0 b.iss.hdr) s') s).modDie b.warp.die
        fun d => { d with safe := true })) := by
  obtain ⟨u, hu⟩ := exists_leader h.2.1
  rw [show exec (.halt o) s = execHalt o s from rfl, execHalt,
    sysWord_acts (h.leads rfl rfl) rfl (covers_nil _) (resultsFull_nil _ _) hu]
  rfl

theorem exec_retire_of_other (h : ActsFree (.retire o) s b) {k : Nat} (hk : k = (leadVal (.retire o) b o.a o.za).toNat)
    (hlt : k < 160) (hother : k ≠ b.warp.core) : exec (.retire o) s =
      .next (startAct b (acting (.retire o) b) (.retire o.d.toNat k) [] (retireCore b.warp.die k s)) := by
  obtain ⟨u, hu⟩ := exists_leader h.stands.2.1
  have hok : (decide (160 ≤ k) || k == b.warp.core) = false := by
    rw [decide_eq_false (not_le.mpr hlt), beq_eq_false_iff_ne.mpr hother]
    rfl
  rw [show exec (.retire o) s = execRetire o s from rfl, execRetire,
    sysWord_acts h.leads rfl (covers_srcsSys o 0 0 _ _ _ _ _ _ _ _ _ _ le_rfl le_rfl le_rfl) (resultsFull_dR h.full rfl) hu]
  simp only [val_of_leader hu, ← hk, hok, Bool.false_eq_true, if_false]

/-- SNAPM starts its action, whose first stage comes at once. -/
theorem exec_snapm_of_acts (h : ActsFree (.snapm o) s b) {step : Word} {addr : Nat} (hstep : step = leadVal (.snapm o) b o.a o.za)
    (haddr : addr = (leadPair (.snapm o) b o.b o.zb).toNat) : exec (.snapm o) s =
      .next (stepSnapm s.fresh ⟨b.w, acting (.snapm o) b, .snapm b.warp.ctxsel o.d.toNat step addr, []⟩ b.warp.ctxsel o.d.toNat
        step addr (startAct b (acting (.snapm o) b) (.snapm b.warp.ctxsel o.d.toNat step addr) [] s)) := by
  obtain ⟨u, hu⟩ := exists_leader h.stands.2.1
  obtain ⟨hw, -⟩ := bundle_warp h.stands.1.1
  rw [show exec (.snapm o) s = execSnapm o s from rfl, execSnapm,
    sysWord_acts h.leads rfl (covers_srcsSys o 2 0 _ _ _ _ _ _ _ _ _ _ le_rfl le_rfl le_rfl) (resultsFull_dR h.full rfl) hu]
  simp only [val_of_leader hu, pairVal_of_leader hu, ← hstep, ← haddr, hw, Option.map_some, Option.getD_some, tget_startAct]

end

/-! ### The ends of the actions (R320, R391) -/

section
variable {id : Nat} {s : State} {a : EngineAct} {x : Warp} (ha : tget s.acts id = some a) (hx : s.warp? a.warp = some x)
  (hp : (x.block.map s.parked).getD false = false)
include ha hx hp

/-- An action of a SYS word, of a warp whose block is not PARKED, is at its next stage. -/
theorem resumeAct_sys (hk : (∃ c v, a.kind = .xsave c v) ∨ (∃ v core, a.kind = .retire v core) ∨
    ∃ c v step addr, a.kind = .snapm c v step addr) : resumeAct id s = stepSys id a s := by
  rcases hk with ⟨_, _, hk⟩ | ⟨_, _, hk⟩ | ⟨_, _, _, _, hk⟩ <;>
    simp only [resumeAct, ha, hx, hk, hp, Bool.false_and, Bool.false_eq_true, if_false]

section
variable {c v : Nat} (hk : a.kind = .xsave c v)
include hk

theorem resumeAct_xsave : resumeAct id s = stepXsave id a c v s := by
  rw [resumeAct_sys ha hx hp (.inl ⟨c, v, hk⟩), stepSys, hk]

theorem resumeAct_xsave_of_left (hleft : (s.ctx c).saves = false) : resumeAct id s = answerAct id a v 1 s := by
  rw [resumeAct_xsave ha hx hp hk, stepXsave, hleft]
  rfl

/-- XSAVE ends once the context's blocks are saved and its warps of no block stand. -/
theorem resumeAct_xsave_of_saves (hsaves : (s.ctx c).saves = true) :
    let begun := saveBlocks (fun b => b.ctx == c) s
    let t := (unattached begun c).foldl (fun s w => settleWarp w.1 s) begun
    let stands := unattachedStand t c && (t.blocks.filter fun b => b.2.ctx == c).all fun b => b.2.st == .parked || b.2.st == .done
    resumeAct id s = if stands then answerAct id a v 0 (t.modCtx c fun x => { x with st := .parked }) else t := by
  rw [resumeAct_xsave ha hx hp hk, stepXsave, hsaves]
  rfl

end

theorem resumeAct_retire {v core : Nat} (hk : a.kind = .retire v core) :
    let t := saveBlocks (fun b => b.on x.die core) s
    resumeAct id s = if (blocksOn t x.die core).isEmpty then answerAct id a v 0 t else t := by
  rw [resumeAct_sys ha hx hp (.inr (.inl ⟨v, core, hk⟩)), stepSys, hk]
  simp only [stepRetire, hx]

section
variable {c v : Nat} {step : Word} {addr : Nat} (hk : a.kind = .snapm c v step addr)
include hk

omit hx in
theorem resumeAct_snapm (hx : s.warp? a.warp = some x) : resumeAct id s = stepSnapm id a c v step addr s := by
  rw [resumeAct_sys ha hx hp (.inr (.inr ⟨c, v, step, addr, hk⟩)), stepSys, hk]

theorem resumeAct_snapm_of_unbound (hbound : (s.ctx c).bound = false) : resumeAct id s = answerAct id a v 1 s := by
  rw [resumeAct_snapm ha hp hk hx]
  simp only [stepSnapm, hx, hbound, Bool.not_false, if_true]

section
variable (hbound : (s.ctx c).bound = true)
include hbound

theorem resumeAct_snapm_of_misaligned (haddr : addr % 64 ≠ 0) : resumeAct id s = answerAct id a v 3 s := by
  have hbad : (addr % 64 != 0 || decide (2 ^ 57 ≤ addr)) = true := by rw [bne_iff_ne.mpr haddr, Bool.true_or]
  rw [resumeAct_snapm ha hp hk hx]
  simp only [stepSnapm, hx, hbound, hbad, Bool.not_true, Bool.false_eq_true, if_false, if_true]

section
variable (halign : addr % 64 = 0) (hrange : addr < 2 ^ 57) {bs : List Byte} {n : Nat} {t : State}
  (hread : readUnits (.engine id) c x.die 16 (unitsFrom addr 4) s = (.done bs, n, t))
include halign hrange hread

/-- A descriptor whose fields are not legal is BAD-VALUE (R390). -/
theorem resumeAct_snapm_of_illegal (hd : (parseSnap bs).ok = false) :
    resumeAct id s = answerAct id a v 3 (dropAnswers (.engine id) t) := by
  have hok : (addr % 64 != 0 || decide (2 ^ 57 ≤ addr)) = false := by
    rw [halign, decide_eq_false (not_le.mpr hrange)]
    rfl
  rw [resumeAct_snapm ha hp hk hx]
  simp only [stepSnapm, hx, hbound, hok, hread, hd, Bool.not_true, Bool.not_false, Bool.false_eq_true, if_false, if_true]

section
variable (hd : (parseSnap bs).ok = true) {rs : List Byte} {m : Nat} {u : State}
  (hspan : readSpan (.engine id) c x.die (parseSnap bs).ranges (16 * (parseSnap bs).nrange) t = (.done rs, m, u))
include hd hspan

/-- The grid a descriptor names must run (R391). -/
theorem resumeAct_snapm_of_no_grid (hgrid : governing (dropAnswers (.engine id) u) c x.kern (parseSnap bs).grid = none) :
    resumeAct id s = answerAct id a v 3 (dropAnswers (.engine id) u) := by
  have hok : (addr % 64 != 0 || decide (2 ^ 57 ≤ addr)) = false := by
    rw [halign, decide_eq_false (not_le.mpr hrange)]
    rfl
  rw [resumeAct_snapm ha hp hk hx]
  simp only [stepSnapm, hx, hbound, hok, hread, hd, hspan, hgrid, Bool.not_true, Bool.false_eq_true, if_false]

/-- How far a snapshot's step lies ahead of its grid's completed step (R391). -/
def snapAhead (w : State) (k : Nat × Kernel) (step : Word) : Nat :=
  (step - ((tfind w.shares fun _ h => h.kern == k.1 && h.index == 0).map fun h => h.2.done).getD 0).toNat

/-- The values R391 asks for: aligned ranges and a step ahead. -/
def SnapLegal (ranges : List (Nat × Nat)) (ahead : Nat) : Prop := ranges.all rangeOk = true ∧ ahead ≠ 0 ∧ ahead < 2 ^ 31

omit ha hx hp hk hbound halign hrange hread hd hspan in
theorem snapLegal_iff (ranges : List (Nat × Nat)) (ahead : Nat) :
    (!ranges.all rangeOk || ahead == 0 || decide (2 ^ 31 ≤ ahead)) = false ↔ SnapLegal ranges ahead := by
  simp only [SnapLegal, Bool.or_eq_false_iff, Bool.not_eq_false', beq_eq_false_iff_ne, decide_eq_false_iff_not, not_le, and_assoc]

/-- With its descriptor and ranges read, SNAPM's values, then the dies' snapshots, then their engines decide (R391, R402). -/
theorem resumeAct_snapm_of_grid {k : Nat × Kernel}
    (hgrid : governing (dropAnswers (.engine id) u) c x.kern (parseSnap bs).grid = some k) :
    let w := dropAnswers (.engine id) u
    let ranges := rangesOf (parseSnap bs).nrange rs
    resumeAct id s =
      if !ranges.all rangeOk || snapAhead w k step == 0 || decide (2 ^ 31 ≤ snapAhead w k step) then answerAct id a v 3 w
      else if k.2.launch.dieset.any (snapBusy w c) then answerAct id a v 5 w
      else if k.2.launch.dieset.any w.shut then w
      else answerAct id a v 0 (armSnap c step k (parseSnap bs) (snapPages ranges) w) := by
  intro w ranges
  have hok : (addr % 64 != 0 || decide (2 ^ 57 ≤ addr)) = false := by
    rw [halign, decide_eq_false (not_le.mpr hrange)]
    rfl
  rw [resumeAct_snapm ha hp hk hx]
  simp only [stepSnapm, hx, hbound, hok, hread, hd, hspan, hgrid, Bool.not_true, Bool.false_eq_true, if_false]
  rfl

end

end

end

end

end

/-- Settles O27: each word by its effect or the action it starts, each action by its stages. -/
theorem systemWords : Obligations.SystemWords := by
  refine ⟨fun o s b c ⟨h, heq, hlt⟩ hself hst => exec_xsave_of_saves h heq hlt hself hst,
    fun o s b c ⟨h, heq, hlt⟩ hself hst => exec_xload_of_parked h heq hlt hself hst,
    fun o s b c ⟨h, heq, hlt⟩ hbound => exec_tlbi_of_bound h heq hlt hbound,
    fun o s b c ⟨h, heq, hlt⟩ hbound => exec_tlbiPage_of_bound h heq hlt hbound rfl,
    fun o s b c t ⟨h, heq, hlt⟩ hbound hset => exec_pgset_of_ok h heq hlt hbound hset,
    fun o s b c ⟨h, heq, hlt⟩ hbound => exec_ctxend_of_bound h heq hlt hbound,
    fun o s b h => exec_halt_of_stands h, fun o s b h => exec_retire_of_other h rfl, fun o s b h => exec_snapm_of_acts h rfl rfl,
    fun id s a x ha hx hp => ⟨fun c v hk => ⟨resumeAct_xsave_of_left ha hx hp hk, resumeAct_xsave_of_saves ha hx hp hk⟩,
      fun v core hk => resumeAct_retire ha hx hp hk, fun c v step addr hk => ⟨resumeAct_snapm_of_unbound ha hx hp hk,
        resumeAct_snapm_of_misaligned ha hx hp hk, fun bs n t rs m u hbound halign hrange hread => ?_⟩⟩⟩
  refine ⟨resumeAct_snapm_of_illegal ha hx hp hk hbound halign hrange hread, fun hd hspan =>
    ⟨resumeAct_snapm_of_no_grid ha hx hp hk hbound halign hrange hread hd hspan, fun k hgrid => ?_⟩⟩
  have hsteps := resumeAct_snapm_of_grid ha hx hp hk hbound halign hrange hread hd hspan hgrid
  have hlegal := snapLegal_iff (rangesOf (parseSnap bs).nrange rs) (snapAhead (dropAnswers (.engine id) u) k step)
  refine ⟨fun hnot => ?illegal, fun hok hbusy => ?busy, fun hok hbusy hopen => ?armed⟩
  case illegal => exact hsteps.trans (if_pos (Bool.eq_true_of_not_eq_false (mt hlegal.mp hnot)))
  case busy => exact hsteps.trans ((if_neg (Bool.eq_false_iff.mp (hlegal.mpr hok))).trans (if_pos hbusy))
  case armed =>
    exact hsteps.trans ((if_neg (Bool.eq_false_iff.mp (hlegal.mpr hok))).trans
      ((if_neg (Bool.eq_false_iff.mp hbusy)).trans (if_neg (Bool.eq_false_iff.mp hopen))))

end Sys2Proof.Machine
end

section
/-! PROOFS. The collective words CLOAD, CRUN, CARM, CSTEP.q and CSTEP.wait (R366-R369). -/

namespace Sys2Proof.Machine

section
variable {i : Instr} {o : FmtC} {s : State} {b : Bundle}

/-- A collective word outside a region acts once its token is full and the warp's stores are acknowledged (R366). -/
theorem collWord_acts {act : Bundle → Lanes → State → State} (h : StandsFree i s b) (hstores : StoresDone s b)
    (htoken : (b.wr o.token.toNat).full = true) : collWord i o act s = .next (act b (acting i b) s) := by
  rw [collWord, bufWord_acts h rfl rfl]
  simp only [htoken, Bool.not_true, Bool.false_eq_true, if_false, afterStores_of_done hstores]

theorem LeadsFree.stands (h : LeadsFree i s b) : StandsFree i s b := by
  obtain ⟨⟨hr, h0, -⟩, hlive⟩ := h
  exact ⟨hr, h0, hlive⟩

/-- The token of a word is empty until it fills. -/
def tokenTaken (o : FmtC) (b : Bundle) (s : State) : State := s.setWreg b.w o.token.toNat ⟨(b.wr o.token.toNat).val, false⟩

theorem takeToken_eq (o : FmtC) (b : Bundle) (s : State) : takeToken b o.token.toNat s = tokenTaken o b s := rfl

/-- With the base table read, a start goes on with its entries (R368). -/
theorem withBases_of_read {act : Bundle → Lanes → List Word64 → Nat → State → State} {m : Lanes} {a : Nat} {h : Share}
    {es : List Word64} {bad : Nat} {t : State} (ha : pairWa b o = some a) (hh : s.share? b.warp.share = some h)
    (hread : readBases b.warp.share h a s = (some (es, bad), t)) : withBases o act b m s = act b m es bad t := by
  rw [withBases, ha, hh]
  simp only [hread]

/-- The lowest guard-true thread, as CARM and CSTEP.wait look for it. -/
theorem bind_lowestLane (h0 : acting i b ≠ 0) : (lowestLane b.warp.width (acting i b)).bind b.warp.thread =
    b.warp.thread (leader i b) := by
  obtain ⟨l, ls, hl⟩ := List.exists_cons_of_ne_nil (exists_actor h0)
  have hlow : lowestLane b.warp.width (acting i b) = some l := by
    rw [lowestLane, show laneList b.warp.width (acting i b) = l :: ls from hl]
    rfl
  rw [leader, hlow]
  rfl

/-- The registers a leading word names are full in its lowest guard-true thread. -/
theorem leaderFull_of_leads (h : Leads i s b) {k : WordInfo} (hk : i.info b.warp.width = some k) {r n : Nat}
    (hregs : Covers k.regs (regRange r n)) : leaderFull b (acting i b) r n = true := by
  obtain ⟨-, h0, hf⟩ := h
  obtain ⟨u, hu⟩ := exists_leader h0
  rw [leaderFull, bind_lowestLane h0, hu]
  simp only [Thread.anyEmpty, Bool.not_eq_true', List.any_eq_false, Bool.not_eq_false]
  intro x hx
  obtain ⟨q, hq, j, hj, rfl⟩ := hregs x hx
  exact hf u k hu hk q hq j hj

/-! ### The five words -/

theorem exec_cload (o : FmtC) (s : State) : exec (.cload o) s = execCload o s := rfl
theorem exec_crun (o : FmtC) (s : State) : exec (.crun o) s = execCrun o s := rfl
theorem exec_carm (o : FmtC) (s : State) : exec (.carm o) s = execCarm o s := rfl
theorem exec_cstepQ (o : FmtC) (s : State) : exec (.cstepQ o) s = execCstepQ o s := rfl
theorem exec_cstepWait (o : FmtC) (s : State) : exec (.cstepWait o) s = execCstepWait o s := rfl

theorem exec_cload_of_addr {a : Nat} (h : LeadsFree (.cload o) s b) (hstores : StoresDone s b)
    (htoken : (b.wr o.token.toNat).full = true) (ha : pairWa b o = some a) :
    exec (.cload o) s =
      let s := endArmed b.warp.share o.imm.toNat (tokenTaken o b s)
      .next (serveAll b.warp.share o.imm.toNat (finishWord b (s.modShare b.warp.share fun h =>
        { h with waits := h.waits ++ [.load s.fresh o.imm.toNat a (some (b.w, o.token.toNat))] }).bump)) := by
  rw [exec_cload, execCload, collWord_acts h.stands hstores htoken]
  simp only [ha, takeToken_eq]

section
variable {a bad : Nat} {h : Share} {es : List Word64} {t : State} (hstores : StoresDone s b)
  (htoken : (b.wr o.token.toNat).full = true) (ha : pairWa b o = some a) (hh : s.share? b.warp.share = some h)
  (hread : readBases b.warp.share h a s = (some (es, bad), t))
include hstores htoken ha hh hread

theorem exec_crun_of_bases (hl : LeadsFree (.crun o) s b) :
    exec (.crun o) s = .next (startRun b.warp.share o.imm.toNat es bad (some (b.w, o.token.toNat))
      (finishWord b (tokenTaken o b t))) := by
  rw [exec_crun, execCrun, collWord_acts hl.stands hstores htoken, withBases_of_read ha hh hread, takeToken_eq]

theorem exec_carm_of_bases (hl : LeadsFree (.carm o) s b) :
    exec (.carm o) s = .next (finishWord b ((endArmed b.warp.share o.imm.toNat (tokenTaken o b t)).modShare b.warp.share fun h =>
      { h with
        armed := tput h.armed o.imm.toNat ⟨(leadPair (.carm o) b o.v false).toNat, es, bad, some (b.w, o.token.toNat)⟩ })) := by
  have hfull : leaderFull b (acting (.carm o) b) o.v.toNat 2 = true :=
    leaderFull_of_leads hl.1 rfl (covers_of_mem (n := 2) (List.mem_singleton_self _) fun x hx => mem_regRange.mp hx)
  obtain ⟨u, hu⟩ := exists_leader hl.stands.2.1
  rw [exec_carm, execCarm, collWord_acts hl.stands hstores htoken]
  simp only [hfull, Bool.not_true, Bool.false_eq_true, if_false]
  rw [withBases_of_read ha hh hread]
  simp only [bind_lowestLane hl.stands.2.1, hu, takeToken_eq, leadPair, Option.map_some, Option.getD_some, Thread.pairVal,
    Bool.false_eq_true, if_false]

end

/-- CSTEP.q writes the completed step to its token at once. -/
theorem exec_cstepQ_of_leads (h : LeadsFree (.cstepQ o) s b) (hstores : StoresDone s b) (htoken : (b.wr o.token.toNat).full = true) :
    ∃ t, exec (.cstepQ o) s = .next t ∧ WarpBecomes b { b.warp with
      wregs := b.warp.wregs.set o.token.toNat ⟨((s.share? b.warp.share).map Share.done).getD 0, true⟩ } s t := by
  rw [exec_cstepQ, execCstepQ, collWord_acts h.stands hstores htoken]
  exact ⟨_, rfl, becomes_finish h.1.1.1 fun x => { x with wregs := x.wregs.set o.token.toNat ⟨doneStep s b, true⟩ }⟩

theorem exec_cstepWait_of_leads (h : LeadsFree (.cstepWait o) s b) (hstores : StoresDone s b)
    (htoken : (b.wr o.token.toNat).full = true) : exec (.cstepWait o) s =
    .next (fillSteps b.warp.share (finishWord b ((tokenTaken o b s).modShare b.warp.share fun h =>
      { h with waits := h.waits ++ [.step (leadVal (.cstepWait o) b o.v false) (some (b.w, o.token.toNat))] }))) := by
  have hfull : leaderFull b (acting (.cstepWait o) b) o.v.toNat 1 = true :=
    leaderFull_of_leads h.1 rfl (covers_of_mem (n := 1) (List.mem_singleton_self _) fun x hx => mem_regRange.mp hx)
  obtain ⟨u, hu⟩ := exists_leader h.stands.2.1
  rw [exec_cstepWait, execCstepWait, collWord_acts h.stands hstores htoken]
  simp only [hfull, Bool.not_true, Bool.false_eq_true, if_false, bind_lowestLane h.stands.2.1, hu, takeToken_eq, leadVal, laneVal,
    Option.map_some, Option.getD_some, Thread.val]

end

/-- Settles O19: each word by its meaning in the frame they share. -/
theorem collectiveWords : Obligations.CollectiveWords :=
  ⟨fun _ _ _ _ ⟨h, hstores, htoken⟩ ha => exec_cload_of_addr h hstores htoken ha,
    fun _ _ _ _ _ _ _ _ ⟨h, hstores, htoken⟩ ha hh hread => exec_crun_of_bases hstores htoken ha hh hread h,
    fun _ _ _ _ _ _ _ _ ⟨h, hstores, htoken⟩ ha hh hread => exec_carm_of_bases hstores htoken ha hh hread h,
    fun _ _ _ ⟨h, hstores, htoken⟩ => exec_cstepQ_of_leads h hstores htoken,
    fun _ _ _ ⟨h, hstores, htoken⟩ => exec_cstepWait_of_leads h hstores htoken⟩

end Sys2Proof.Machine
end

section
/-! PROOFS. The junction's recording words TJOPEN, TJSTEP, TJEND, TJREW and TJSET, for a bundle of one guard-true lane (R377-R383). -/

namespace Sys2Proof.Machine

/-! ### Operations on an entry -/

/-- An entry that no operation holds. -/
theorem yieldEntry_of_free {e : Episode} (hbusy : e.busy = none) (h : Holder) (s : State) : yieldEntry e h s = s := by
  rw [yieldEntry, hbusy]

/-- An operation that is performed on an entry no other holds. -/
theorem onEntry_of_free {h : Holder} {die n : Nat} {f : Episode → JStep} {e : Episode} {s t : State}
    (he : tget (s.die die).episodes n = some e) (hbusy : e.busy = none) (hf : f e s = (true, t)) :
    onEntry h die n f s = (true, dropAnswers h t) := by
  rw [onEntry, he]
  simp only [hbusy, Option.any_none, Bool.false_eq_true, if_false, yieldEntry_of_free hbusy, hf, Option.isSome_none]

theorem onId_of_found {h : Holder} {die c : Nat} {id : Word} {n : Nat} {e : Episode} {s : State} (f : Nat → Episode → JStep)
    (hfound : findEpisode s die c id = some (n, e)) : onId h die c id f s = onEntry h die n (f n) s := by
  rw [onId, hfound]

theorem onId_of_unknown {h : Holder} {die c : Nat} {id : Word} {s : State} (f : Nat → Episode → JStep)
    (hnone : findEpisode s die c id = none) : onId h die c id f s = (true, countJunc die c 1 s) := by
  rw [onId, hnone]

theorem thenWork_ok {α : Type} (a : α) (s : State) (k : α → JStep) : thenWork (.ok a, s) k = k a s := rfl

/-- A reward for a step of an OPEN entry that has none is kept (R383). -/
theorem rewardWork_of_open {h : Holder} {die n step : Nat} {term : Bool} {reward : Word} {e : Episode} {bs : List Byte} {s t u : State}
    (he : tget (s.die die).episodes n = some e) (hopen : e.st = .open_) (hstep : step < (s.junc die e.ctx).steps)
    (hread : readRecord h die n e step s = (.ok bs, t)) (hnew : hasReward bs = false)
    (hwrite : writeRecord h die n e step 8 (leBytes 4 reward.toNat ++
      leBytes 4 (BitVec.ofNat 32 (flagsOf bs) ||| 2 ||| (if term then 4 else 0) : Word).toNat) t = (.ok (), u)) :
    rewardWork h die n step term reward s = (true, u) := by
  rw [rewardWork, he]
  have hclosed : (EpState.open_ == EpState.closed) = false := rfl
  simp only [hopen, hclosed, Bool.false_and, Bool.or_false, beq_self_eq_true, hstep, decide_true, Bool.and_self, if_true, hread, thenWork_ok, hnew,
    Bool.false_eq_true, if_false, readRecords, hwrite]

/-- A reward message of a bad step or field is refused (R383). -/
theorem handleReward_of_bad {h : Holder} {die c : Nat} {id : Word} {step : Nat} {term : Bool} {reward : Word} {bad : Bool} {s : State}
    (hbound : boundOn s c die = true) (hbad : bad = true ∨ (s.junc die c).steps ≤ step) :
    handleReward h die c id step term reward bad s = (true, countJunc die c 1 s) := by
  have hrefused : (bad || decide ((s.junc die c).steps ≤ step)) = true := by simpa using hbad
  simp only [handleReward, hbound, Bool.not_true, Bool.false_eq_true, if_false, hrefused, if_true]

theorem handleReward_of_found {h : Holder} {die c : Nat} {id : Word} {step n : Nat} {term : Bool} {reward : Word} {e : Episode} {s : State}
    (hbound : boundOn s c die = true) (hstep : step < (s.junc die c).steps) (hfound : findEpisode s die c id = some (n, e)) :
    handleReward h die c id step term reward false s = onEntry h die n (fun _ => rewardWork h die n step term reward) s := by
  simp only [handleReward, hbound, Bool.not_true, Bool.false_eq_true, if_false, Bool.false_or, decide_eq_true_eq,
    Nat.not_le.mpr hstep, hfound]

/-! ### The frame of the words with one guard-true lane -/

section
variable {i : Instr} {s t : State} {b : Bundle} {l : Nat} {u : Thread} (h : ActsFree i s b) (hl : actors i b = [l])
  (hu : b.warp.thread l = some u)
include h hl hu

/-- The lane's junction operation, performed, ends the word. -/
theorem trajWord_one {ss : List Src} {act : Nat → Nat → Holder → Thread → JStep} {k : WordInfo} (hk : i.info b.warp.width = some k)
    (hs : Covers k.regs (ss.flatMap Src.regs)) (hnote : s.transfer? (laneNote (.lane b.w l)) = none)
    (hact : act b.warp.die b.warp.ctx (.lane b.w l) u s = (true, t)) : trajWord i ss act s = .next (finishWord b t) := by
  have h0 : acting i b ≠ 0 := h.stands.2.1
  obtain ⟨hw, -⟩ := bundle_warp h.stands.1.1
  have hlanes : laneList b.warp.width (acting i b) = [l] := hl
  rw [trajWord, runWord_next _ h.stands.1, if_neg h0, if_neg (Bool.eq_false_iff.mp h.2),
    withOperands_act h.full hk hs (covers_nil _)]
  simp only [hlanes, laneOps, hnote, Option.isSome_none, Bool.false_eq_true, if_false, hw, hu, hact,
    Option.isNone_some]

end

/-- The action of a started word stands in the warp of its bundle, on the same die and in the same context. -/
theorem exists_warp_startAct {s : State} {b : Bundle} (hb : s.bundle? = some b) (m : Lanes) (k : ActKind) (after : List Nat) :
    ∃ x, (startAct b m k after s).warp? b.w = some x ∧ x.die = b.warp.die ∧ x.ctx = b.warp.ctx := by
  obtain ⟨hw, -⟩ := bundle_warp hb
  obtain ⟨x, hx, hdie, hctx⟩ : ∃ x, (waitLanes b m (.act s.fresh) { s with
      acts := tput s.acts s.fresh ⟨b.w, m, k, after⟩, fresh := s.fresh + 1 }).warp? b.w = some x ∧
      x.die = b.warp.die ∧ x.ctx = b.warp.ctx := by
    have hw' : State.warp? { s with acts := tput s.acts s.fresh ⟨b.w, m, k, after⟩, fresh := s.fresh + 1 } b.w = some b.warp := hw
    simp only [waitLanes, dropLanes, State.modIss, State.mapLanes, State.warp?_modWarp, hw', Option.map_some]
    exact ⟨_, rfl, by cases b.pipe <;> rfl, by cases b.pipe <;> rfl⟩
  obtain ⟨y, hy, hmoved, -⟩ := (finishWord_moves b _).2 x hx
  refine ⟨y, hy, ?_, ?_⟩
  · rw [hmoved, ← hdie]
    cases b.pipe <;> rfl
  · rw [hmoved, ← hctx]
    cases b.pipe <;> rfl

/-! ### TJOPEN (R379, R380) -/

/-- The lane of a TJOPEN whose entry is filled ends the action while its block stands. -/
theorem stepTjopen_one {id v l : Nat} {a : EngineAct} {i ver : Word} {s t : State} {x : Warp} (hx : s.warp? a.warp = some x)
    (hfill : (if (openEpisode x.die x.ctx i ver s).1.getLsbD 31
      then fillEpisode (.engine id) x.die x.ctx i (openEpisode x.die x.ctx i ver s).2
      else (true, (openEpisode x.die x.ctx i ver s).2)) = (true, t))
    (hparked : (((t.warp? a.warp).bind Warp.block).map t.parked).getD false = false) :
    stepTjopen id a v [(l, i, ver)] [] s = endAct id (t.mapLanes a.warp (actLanes t id a) fun k w =>
      if k = l then w.put v (openEpisode x.die x.ctx i ver s).1 else w) := by
  rw [stepTjopen, hx]
  simp only [show tget ([] : List (Nat × Word)) l = none from rfl, hfill]
  rw [stepTjopen, hparked]
  refine congrArg (fun f => endAct id (t.mapLanes a.warp (actLanes t id a) f)) (funext₂ fun k w => ?_)
  by_cases hk : k = l
  · rw [hk, tget_tput_same, if_pos rfl]
  · rw [tget_tput_ne _ _ hk, if_neg hk]
    rfl

/-- TJOPEN's two sources lie among the registers it names. -/
theorem covers_openSrcs (o : FmtR) (cls opc : Nat) (mods : List Nat) (d c : Use) (l x k : Bool) :
    Covers (o.info cls opc mods d (.reg 1) (.reg 1) c l x k).regs
      ((src o.a 1 o.ea o.za ++ src o.b 1 o.eb o.zb).flatMap Src.regs) := by
  rw [List.flatMap_append, covers_append]
  exact ⟨covers_left (covers_left (covers_right (covers_src _ _ _ _ _ le_rfl))),
    covers_left (covers_right (covers_src _ _ _ _ _ le_rfl))⟩

theorem exec_tjopen (o : FmtR) (s : State) : exec (.tjopen o) s = execTjopen o s := rfl

section
variable {s t : State} {b : Bundle} {l : Nat} {u : Thread} {o : FmtR}

theorem exec_tjopen_one (h : ActsFree (.tjopen o) s b) (hl : actors (.tjopen o) b = [l]) (hu : b.warp.thread l = some u) :
    let id := u.val o.a o.za
    let a : EngineAct := ⟨b.w, acting (.tjopen o) b, .tjopen o.d.toNat [(l, id, u.val o.b o.zb)] [], []⟩
    let p := openEpisode b.warp.die b.warp.ctx id (u.val o.b o.zb) (startAct b (acting (.tjopen o) b) a.kind [] s)
    (if p.1.getLsbD 31 then fillEpisode (.engine s.fresh) b.warp.die b.warp.ctx id p.2 else (true, p.2)) = (true, t) →
    (((t.warp? b.w).bind Warp.block).map t.parked).getD false = false → exec (.tjopen o) s = .next (endAct s.fresh
      (t.mapLanes b.w (actLanes t s.fresh a) fun k v => if k = l then v.put o.d.toNat p.1 else v)) := by
  intro id a p hfill hparked
  have h0 : acting (.tjopen o) b ≠ 0 := h.stands.2.1
  have hlanes : laneList b.warp.width (acting (.tjopen o) b) = [l] := hl
  obtain ⟨x, hx, hdie, hctx⟩ := exists_warp_startAct h.stands.1.1 (acting (.tjopen o) b) a.kind []
  rw [exec_tjopen, execTjopen, runWord_next _ h.stands.1, if_neg h0, if_neg (Bool.eq_false_iff.mp h.2),
    withOperands_act (ds := [o.d.toNat]) h.full rfl (covers_openSrcs o _ _ _ _ _ _ _ _) (covers_dR o 1 _ _ _ _ _ _ _ _ _ _ le_rfl),
    if_neg h0]
  simp only [hlanes, List.filterMap_cons, List.filterMap_nil, hu, Option.map_some, tget_startAct]
  subst p
  rw [← hdie, ← hctx] at hfill ⊢
  exact congrArg _ (stepTjopen_one (a := a) hx hfill hparked)

/-! ### TJSTEP, TJEND, TJEND.free and TJREW (R381-R383) -/

theorem exec_tjstep (o : FmtR) (s : State) : exec (.tjstep o) s = execTjstep o s := rfl
theorem exec_tjend (o : FmtR) (s : State) : exec (.tjend o) s = execTjend o s := rfl
theorem exec_tjendFree (o : FmtR) (s : State) : exec (.tjendFree o) s = execTjendFree o s := rfl
theorem exec_tjrew (o : FmtR) (s : State) : exec (.tjrew o) s = execTjrew o s := rfl
theorem exec_tjset (o : FmtI) (s : State) : exec (.tjset o) s = execTjset o s := rfl

/-- What TJSTEP does to the entry it names. -/
def stepEntry (o : FmtR) (die c : Nat) (h : Holder) (u : Thread) (n : Nat) (e : Episode) : JStep := fun s =>
  let step := (u.val o.b o.zb).toNat
  if e.st == .open_ && decide (step < (s.junc die c).steps) then
    thenWork (readRecord h die n e step s) fun bs s =>
      thenWork (writeRecords h die n e [(step, 0, leBytes 8 (if o.zc then 0 else u.pair o.c.toNat).toNat),
        (step, 12, leBytes 4 (BitVec.ofNat 32 (flagsOf bs) ||| 1 : Word).toNat)] s) fun _ s => (true, s)
  else (true, countJunc die c 1 s)

theorem execTjstep_eq (o : FmtR) (s : State) : execTjstep o s = trajWord (.tjstep o) (srcsR o 1 1 2)
    (fun die c h u => onId h die c (u.val o.a o.za) (stepEntry o die c h u)) s := rfl

/-- A closed entry: its length, bootstrap value and deadline (R381). -/
def closedEntry (o : FmtR) (u : Thread) (due : Nat) (e : Episode) : Episode :=
  { e with st := .closed, length := (u.val o.b o.zb).toNat, vb := u.val o.c o.zc, due := due }

/-- What TJEND does to the entry it names. -/
def endEntry (o : FmtR) (die c : Nat) (h : Holder) (u : Thread) (n : Nat) (e : Episode) : JStep := fun s =>
  let len := (u.val o.b o.zb).toNat
  let j := s.junc die c
  if e.st == .open_ && decide (1 ≤ len) && decide (len ≤ j.steps) then
    thenWork (readRecords h die n e (List.range len) s) fun rs s =>
      if !rs.all isRecorded then (true, countJunc die c 4 (modEpisode die n (fun e => { e with st := .dropped }) s))
      else
        let close := closedEntry o u ((s.die die).time + j.join.toNat * unitsPerNs)
        (true, if rs.all hasReward then joinEpisode die n close s else modEpisode die n close s)
  else (true, countJunc die c 1 s)

theorem execTjend_eq (o : FmtR) (s : State) : execTjend o s = trajWord (.tjend o) (srcsR o 1 1 1)
    (fun die c h u => onId h die c (u.val o.a o.za) (endEntry o die c h u)) s := rfl

/-- What TJEND.free does to the entry it names. -/
def freeEntry (die c n : Nat) (e : Episode) : JStep := fun s =>
  (true, if e.st.over then s.modDie die fun d => { d with episodes := tdel d.episodes n } else countJunc die c 1 s)

theorem execTjendFree_eq (o : FmtR) (s : State) : execTjendFree o s = trajWord (.tjendFree o) (srcsR o 1 0 0)
    (fun die c h u => onId h die c (u.val o.a o.za) (freeEntry die c)) s := by
  rw [srcsR, if_neg Nat.one_ne_zero, if_pos rfl, if_pos rfl, List.append_nil, List.append_nil]
  rfl

theorem execTjrew_eq (o : FmtR) (s : State) : execTjrew o s = trajWord (.tjrew o) (srcsR o 1 1 1) (fun die c h u =>
    let word := (u.val o.b o.zb).toNat
    handleReward h die c (u.val o.a o.za) (word % 2 ^ 16) (word / 2 ^ 16 % 2 == 1) (u.val o.c o.zc) (word / 2 ^ 17 != 0)) s := rfl

theorem stepEntry_records {o : FmtR} {die c n : Nat} {h : Holder} {u : Thread} {e : Episode} {bs : List Byte} {s s1 s2 : State}
    (hopen : e.st = .open_) (hstep : (u.val o.b o.zb).toNat < (s.junc die c).steps)
    (hread : readRecord h die n e (u.val o.b o.zb).toNat s = (.ok bs, s1))
    (hwrite : writeRecords h die n e [((u.val o.b o.zb).toNat, 0, leBytes 8 (if o.zc then 0 else u.pair o.c.toNat).toNat),
      ((u.val o.b o.zb).toNat, 12, leBytes 4 (BitVec.ofNat 32 (flagsOf bs) ||| 1 : Word).toNat)] s1 = (.ok (), s2)) :
    stepEntry o die c h u n e s = (true, s2) := by
  simp only [stepEntry, hopen, beq_self_eq_true, hstep, decide_true, Bool.and_self, if_true, hread, thenWork_ok, hwrite]

theorem stepEntry_refuses {o : FmtR} {die c n : Nat} {h : Holder} {u : Thread} {e : Episode} {s : State}
    (hbad : e.st ≠ .open_ ∨ (s.junc die c).steps ≤ (u.val o.b o.zb).toNat) :
    stepEntry o die c h u n e s = (true, countJunc die c 1 s) := by
  refine if_neg fun hok => ?_
  simp only [Bool.and_eq_true, beq_iff_eq, decide_eq_true_eq] at hok
  obtain hst | hlen := hbad
  · exact hst hok.1
  · omega

section
variable {die c n : Nat} {h : Holder} {e : Episode} {rs : List (List Byte)} {s1 : State} (hopen : e.st = .open_)
  (hlow : 1 ≤ (u.val o.b o.zb).toNat) (hhigh : (u.val o.b o.zb).toNat ≤ (s.junc die c).steps)
  (hread : readRecords h die n e (List.range (u.val o.b o.zb).toNat) s = (.ok rs, s1))
include hopen hlow hhigh hread

theorem endEntry_closes (hall : rs.all isRecorded = true) : endEntry o die c h u n e s = (true,
    if rs.all hasReward then joinEpisode die n (closedEntry o u ((s1.die die).time + (s.junc die c).join.toNat * unitsPerNs)) s1
    else modEpisode die n (closedEntry o u ((s1.die die).time + (s.junc die c).join.toNat * unitsPerNs)) s1) := by
  simp only [endEntry, hopen, beq_self_eq_true, hlow, hhigh, decide_true, Bool.and_self, if_true, hread, thenWork_ok, hall,
    Bool.not_true, Bool.false_eq_true, if_false]

theorem endEntry_drops (hmiss : rs.all isRecorded = false) : endEntry o die c h u n e s =
    (true, countJunc die c 4 (modEpisode die n (fun e => { e with st := .dropped }) s1)) := by
  simp only [endEntry, hopen, beq_self_eq_true, hlow, hhigh, decide_true, Bool.and_self, if_true, hread, thenWork_ok, hmiss,
    Bool.not_false]

end

theorem endEntry_refuses {die c n : Nat} {h : Holder} {e : Episode} (hbad : e.st ≠ .open_ ∨ (u.val o.b o.zb).toNat = 0 ∨
    (s.junc die c).steps < (u.val o.b o.zb).toNat) : endEntry o die c h u n e s = (true, countJunc die c 1 s) := by
  refine if_neg fun hok => ?_
  simp only [Bool.and_eq_true, beq_iff_eq, decide_eq_true_eq] at hok
  obtain ⟨⟨hopen, hlow⟩, hhigh⟩ := hok
  obtain hst | hlen | hlen := hbad
  · exact hst hopen
  · omega
  · omega

theorem freeEntry_frees {die c n : Nat} {e : Episode} (hover : e.st = .released ∨ e.st = .expired ∨ e.st = .dropped) :
    freeEntry die c n e s = (true, s.modDie die fun d => { d with episodes := tdel d.episodes n }) := by
  rw [freeEntry]
  obtain hst | hst | hst := hover <;> rw [hst] <;> rfl

theorem freeEntry_refuses {die c n : Nat} {e : Episode} (hreleased : e.st ≠ .released) (hexpired : e.st ≠ .expired)
    (hdropped : e.st ≠ .dropped) : freeEntry die c n e s = (true, countJunc die c 1 s) := by
  have hover : e.st.over = false := by
    unfold EpState.over
    split <;> simp_all
  rw [freeEntry, hover]
  rfl

/-! ### A word on the entry its lane names -/

/-- An entry that the lane's operation of the word finds, and that no operation holds. -/
def EntryFree (b : Bundle) (l : Nat) (id : Word) (n : Nat) (e : Episode) (s : State) : Prop :=
  s.transfer? (laneNote (.lane b.w l)) = none ∧ findEpisode s b.warp.die b.warp.ctx id = some (n, e) ∧
    tget (s.die b.warp.die).episodes n = some e ∧ e.busy = none

section
variable {i : Instr} {ss : List Src} {k : WordInfo} (h : ActsFree i s b) (hl : actors i b = [l]) (hu : b.warp.thread l = some u)
  (hk : i.info b.warp.width = some k) (hs : Covers k.regs (ss.flatMap Src.regs))
include h hl hu hk hs

/-- The operation `op` on the entry the lane names, performed, ends the word. -/
theorem trajWord_onId {op : Nat → Nat → Holder → Thread → Nat → Episode → JStep} {n : Nat} {e : Episode}
    (hfree : EntryFree b l (u.val o.a o.za) n e s) (hop : op b.warp.die b.warp.ctx (.lane b.w l) u n e s = (true, t)) :
    trajWord i ss (fun die c h u => onId h die c (u.val o.a o.za) (op die c h u)) s =
      .next (finishWord b (dropAnswers (.lane b.w l) t)) := by
  obtain ⟨hnote, hfound, hentry, hbusy⟩ := hfree
  exact trajWord_one h hl hu hk hs hnote ((onId_of_found _ hfound).trans (onEntry_of_free hentry hbusy hop))

/-- A word on an ID that names no entry is refused (R381). -/
theorem trajWord_unknown {op : Nat → Nat → Holder → Thread → Nat → Episode → JStep}
    (hnote : s.transfer? (laneNote (.lane b.w l)) = none) (hnone : findEpisode s b.warp.die b.warp.ctx (u.val o.a o.za) = none) :
    trajWord i ss (fun die c h u => onId h die c (u.val o.a o.za) (op die c h u)) s =
      .next (finishWord b (countJunc b.warp.die b.warp.ctx 1 s)) :=
  trajWord_one h hl hu hk hs hnote (onId_of_unknown _ hnone)

end

section
variable {n : Nat} {e : Episode} (hu : b.warp.thread l = some u)
include hu

theorem exec_tjstep_entry (h : ActsFree (.tjstep o) s b) (hl : actors (.tjstep o) b = [l]) (hfree : EntryFree b l (u.val o.a o.za) n e s)
    (hop : stepEntry o b.warp.die b.warp.ctx (.lane b.w l) u n e s = (true, t)) :
    exec (.tjstep o) s = .next (finishWord b (dropAnswers (.lane b.w l) t)) := by
  rw [exec_tjstep, execTjstep_eq, trajWord_onId h hl hu rfl (covers_srcsR o 1 1 2 _ _ _ _ _ _ _ _ _ _ le_rfl le_rfl le_rfl) hfree hop]

theorem exec_tjend_entry (h : ActsFree (.tjend o) s b) (hl : actors (.tjend o) b = [l]) (hfree : EntryFree b l (u.val o.a o.za) n e s)
    (hop : endEntry o b.warp.die b.warp.ctx (.lane b.w l) u n e s = (true, t)) :
    exec (.tjend o) s = .next (finishWord b (dropAnswers (.lane b.w l) t)) := by
  rw [exec_tjend, execTjend_eq, trajWord_onId h hl hu rfl (covers_srcsR o 1 1 1 _ _ _ _ _ _ _ _ _ _ le_rfl le_rfl le_rfl) hfree hop]

theorem exec_tjendFree_entry (h : ActsFree (.tjendFree o) s b) (hl : actors (.tjendFree o) b = [l])
    (hfree : EntryFree b l (u.val o.a o.za) n e s) (hop : freeEntry b.warp.die b.warp.ctx n e s = (true, t)) :
    exec (.tjendFree o) s = .next (finishWord b (dropAnswers (.lane b.w l) t)) := by
  rw [exec_tjendFree, execTjendFree_eq, trajWord_onId (op := fun die c _ _ => freeEntry die c) h hl hu rfl
    (covers_srcsR o 1 0 0 _ _ _ _ _ _ _ _ _ _ le_rfl le_rfl le_rfl) hfree hop]

theorem exec_unknown {i : Instr} (hi : i ∈ [Instr.tjstep o, .tjend o, .tjendFree o]) (h : ActsFree i s b) (hl : actors i b = [l])
    (hnote : s.transfer? (laneNote (.lane b.w l)) = none) (hnone : findEpisode s b.warp.die b.warp.ctx (u.val o.a o.za) = none) :
    exec i s = .next (finishWord b (countJunc b.warp.die b.warp.ctx 1 s)) := by
  simp only [List.mem_cons, List.not_mem_nil, or_false] at hi
  obtain rfl | rfl | rfl := hi
  · rw [exec_tjstep, execTjstep_eq, trajWord_unknown h hl hu rfl
      (covers_srcsR o 1 1 2 _ _ _ _ _ _ _ _ _ _ le_rfl le_rfl le_rfl) hnote hnone]
  · rw [exec_tjend, execTjend_eq, trajWord_unknown h hl hu rfl
      (covers_srcsR o 1 1 1 _ _ _ _ _ _ _ _ _ _ le_rfl le_rfl le_rfl) hnote hnone]
  · rw [exec_tjendFree, execTjendFree_eq, trajWord_unknown (op := fun die c _ _ => freeEntry die c) h hl hu rfl
      (covers_srcsR o 1 0 0 _ _ _ _ _ _ _ _ _ _ le_rfl le_rfl le_rfl) hnote hnone]

theorem exec_tjrew_handles (h : ActsFree (.tjrew o) s b) (hl : actors (.tjrew o) b = [l])
    (hnote : s.transfer? (laneNote (.lane b.w l)) = none)
    (hop : handleReward (.lane b.w l) b.warp.die b.warp.ctx (u.val o.a o.za) ((u.val o.b o.zb).toNat % 2 ^ 16)
      ((u.val o.b o.zb).toNat / 2 ^ 16 % 2 == 1) (u.val o.c o.zc) ((u.val o.b o.zb).toNat / 2 ^ 17 != 0) s = (true, t)) :
    exec (.tjrew o) s = .next (finishWord b t) := by
  rw [exec_tjrew, execTjrew_eq, trajWord_one h hl hu rfl (covers_srcsR o 1 1 1 _ _ _ _ _ _ _ _ _ _ le_rfl le_rfl le_rfl) hnote hop]

end

/-- A reward word for a step of an OPEN entry (R382). -/
theorem exec_tjrew_keeps {n : Nat} {e : Episode} (h : ActsFree (.tjrew o) s b)
    (hl : actors (.tjrew o) b = [l]) (hu : b.warp.thread l = some u) (hword : (u.val o.b o.zb).toNat < 2 ^ 17)
    (hbound : boundOn s b.warp.ctx b.warp.die = true) (hstep : (u.val o.b o.zb).toNat % 2 ^ 16 < (s.junc b.warp.die b.warp.ctx).steps)
    (hfree : EntryFree b l (u.val o.a o.za) n e s)
    (hop : rewardWork (.lane b.w l) b.warp.die n ((u.val o.b o.zb).toNat % 2 ^ 16) ((u.val o.b o.zb).toNat / 2 ^ 16 % 2 == 1)
      (u.val o.c o.zc) s = (true, t)) :
    exec (.tjrew o) s = .next (finishWord b (dropAnswers (.lane b.w l) t)) := by
  obtain ⟨hnote, hfound, hentry, hbusy⟩ := hfree
  refine exec_tjrew_handles hu h hl hnote ?_
  rw [Nat.div_eq_of_lt hword, bne_self_eq_false, handleReward_of_found hbound hstep hfound]
  exact onEntry_of_free hentry hbusy hop

/-! ### TJSET (R377) -/

/-- The value TJSET reads: a pair for the store, else one register. -/
def tjsetValue (o : FmtI) (b : Bundle) : Word64 :=
  if o.imm.toNat = 6 then leadPair (.tjset o) b o.a o.za else (leadVal (.tjset o) b o.a o.za).setWidth 64

theorem exec_tjset_leads {o : FmtI} (h : LeadsFree (.tjset o) s b) : exec (.tjset o) s =
    .next (if !tjsetOk o.imm.toNat (tjsetValue o b) ||
        (decide (6 ≤ o.imm.toNat) && tany (s.die b.warp.die).episodes fun _ e => e.ctx == b.warp.ctx)
      then trapWord b (acting (.tjset o) b) 0x03 s
      else finishWord b (modJunc b.warp.die b.warp.ctx (fun j => j.write o.imm.toNat (tjsetValue o b)) s)) := by
  obtain ⟨u, hu⟩ := exists_leader h.stands.2.1
  have hcount : (if o.imm.toNat = 6 then 2 else 1) ≤ Use.count (.reg (if o.imm == 6 then 2 else 1)) := by
    have hsix : o.imm = 6 ↔ o.imm.toNat = 6 := by
      rw [← BitVec.toNat_inj]
      rfl
    simp only [Use.count, beq_iff_eq, hsix, le_refl]
  have hvalue : (if o.za then (0 : Word64) else if o.imm.toNat = 6 then u.pair o.a.toNat else (u.reg o.a.toNat).val.setWidth 64) =
      tjsetValue o b := by
    simp only [tjsetValue, leadPair, leadVal, laneVal, hu, Option.map_some, Option.getD_some, Thread.pairVal, Thread.val]
    cases o.za with
    | false => rfl
    | true => simp
  rw [exec_tjset, execTjset, runWord_next _ h.stands.1, if_neg h.stands.2.1, if_neg (Bool.eq_false_iff.mp h.2),
    withLeader_act h.1 rfl (covers_right (covers_src _ _ _ _ _ hcount)) rfl]
  simp only [hu, hvalue]

/-- TJSET is refused when its value is not legal, or the store's shape is set while an entry stands (R377). -/
theorem tjset_refused_iff {o : FmtI} : (!tjsetOk o.imm.toNat (tjsetValue o b) ||
      (decide (6 ≤ o.imm.toNat) && tany (s.die b.warp.die).episodes fun _ e => e.ctx == b.warp.ctx)) = true ↔
    tjsetOk o.imm.toNat (tjsetValue o b) = false ∨
      (6 ≤ o.imm.toNat ∧ ∃ x ∈ (s.die b.warp.die).episodes, x.2.ctx = b.warp.ctx) := by
  simp [tany]

end

/-- Settles O33: each word by what its lane's operation comes to, in the frame of one guard-true lane. -/
theorem trajectoryWords : Obligations.TrajectoryWords := by
  refine ⟨fun o s b l u t h hl hu => exec_tjopen_one h hl hu, ?step, ?close, ?free, ?keep, ?set, ?setTraps, ?unknown, ?stepRefused,
    ?endRefused, ?endDrops, ?freeRefused, ?rewardRefused⟩
  case step =>
    intro o s b l u n e bs s1 s2 h hl hu die hold step hfree hopen hstep hread hwrite
    exact exec_tjstep_entry hu h hl hfree (stepEntry_records hopen hstep hread hwrite)
  case close =>
    intro o s b l u n e rs s1 h hl hu die len j close hfree hopen hlow hhigh hread hall
    exact exec_tjend_entry hu h hl hfree (endEntry_closes hopen hlow hhigh hread hall)
  case free =>
    intro o s b l u n e h hl hu hfree hover
    exact exec_tjendFree_entry hu h hl hfree (freeEntry_frees hover)
  case keep =>
    intro o s b l u n e bs s1 s2 h hl hu die hold w term hword hbound hstep hfree hopen hread hnew hwrite
    have hctx : e.ctx = b.warp.ctx := by
      obtain ⟨-, hfound, -⟩ := hfree
      have := List.find?_some hfound
      simp_all
    exact exec_tjrew_keeps h hl hu hword hbound hstep hfree
      (rewardWork_of_open hfree.2.2.1 hopen (hctx ▸ hstep) hread hnew hwrite)
  case set =>
    intro o s b h k v hok hnone
    rw [exec_tjset_leads h, if_neg]
    · rfl
    · rw [tjset_refused_iff]
      rintro (hbad | ⟨hstore, x, hx, hctx⟩)
      · exact Bool.false_ne_true (hbad.symm.trans hok)
      · exact hnone hstore x hx hctx
  case setTraps =>
    intro o s b h k v hbad
    rw [exec_tjset_leads h, if_pos (tjset_refused_iff.mpr hbad)]
  case unknown =>
    intro o s b l u i hi h hl hu hnote hnone
    exact exec_unknown hu hi h hl hnote hnone
  case stepRefused =>
    intro o s b l u n e h hl hu hfree hbad
    exact exec_tjstep_entry hu h hl hfree (stepEntry_refuses hbad)
  case endRefused =>
    intro o s b l u n e h hl hu hfree hbad
    exact exec_tjend_entry hu h hl hfree (endEntry_refuses hbad)
  case endDrops =>
    intro o s b l u n e rs s1 h hl hu len hfree hopen hlow hhigh hread hmiss
    exact exec_tjend_entry hu h hl hfree (endEntry_drops hopen hlow hhigh hread hmiss)
  case freeRefused =>
    intro o s b l u n e h hl hu hfree hreleased hexpired hdropped
    exact exec_tjendFree_entry hu h hl hfree (freeEntry_refuses hreleased hexpired hdropped)
  case rewardRefused =>
    intro o s b l u h hl hu hnote hbound w hbad
    refine exec_tjrew_handles hu h hl hnote (handleReward_of_bad hbound (hbad.imp_left fun hbig => ?_))
    have : 0 < w / 2 ^ 17 := Nat.div_pos hbig (by decide)
    exact bne_iff_ne.mpr (by omega)

end Sys2Proof.Machine
end

section
/-! PROOFS. The words that take from the learner queue: TJTAKE, TJTAKE.try, TJTAKE.depth and TJTAKE.stat (R387). -/

namespace Sys2Proof.Machine

section
variable {i : Instr} {s : State} {b : Bundle}

/-- A word of the learner queue outside a region acts once the registers it names are full. -/
theorem takeWord_acts {ss : List Src} {ds : List Nat} {act : Bundle → Lanes → State → State} (h : ActsFree i s b) {k : WordInfo}
    (hk : i.info b.warp.width = some k) (hs : Covers k.regs (ss.flatMap Src.regs)) (hd : Covers k.regs ds) :
    takeWord i ss ds act s = .next (finishWord b (act b (acting i b) s)) := by
  rw [takeWord, runWord_next _ h.stands.1, if_neg h.stands.2.1, if_neg (Bool.eq_false_iff.mp h.2), withOperands_act h.full hk hs hd]

/-- The places of the lanes in the take order change no warp. -/
theorem takePlaces_warps (die : Nat) (place : State → Nat → TakeWait) (ls : List Nat) (s : State) :
    (ls.foldl (fun s l => (s.modDie die fun x => { x with takes := tput x.takes s.fresh (place s l) }).bump) s).warps = s.warps := by
  induction ls generalizing s with
  | nil => rfl
  | cons l ls ih => exact (ih _).trans rfl

theorem waitTakes_warps (b : Bundle) (m : Lanes) (d : Nat) (try_ : Bool) (s : State) :
    (waitTakes b m d try_ s).warps = (s.mapLanes b.w m fun _ t => t.empty (regRange d 4)).warps :=
  takePlaces_warps b.warp.die _ _ _

/-- One lane takes the place behind those that wait. -/
theorem takes_waitTakes_one {m : Lanes} {l : Nat} (d : Nat) (try_ : Bool) (s : State) (hl : laneList b.warp.width m = [l]) :
    ((waitTakes b m d try_ s).die b.warp.die).takes = tput (s.die b.warp.die).takes s.fresh
      ⟨b.warp.ctx, b.w, l, d, ((b.warp.thread l).map fun t => t.inWin d).getD false, try_⟩ := by
  rw [waitTakes, hl]
  simp only [List.foldl_cons, List.foldl_nil, State.die_bump, State.die_modDie, State.mapLanes_fresh]
  simp only [State.die, State.mapLanes_dies]

theorem exec_tjtake (o : FmtR) (s : State) : exec (.tjtake o) s = execTjtake o s := rfl
theorem exec_tjtakeTry (o : FmtR) (s : State) : exec (.tjtakeTry o) s = execTjtakeTry o s := rfl
theorem exec_tjtakeDepth (o : FmtR) (s : State) : exec (.tjtakeDepth o) s = execTjtakeDepth o s := rfl
theorem exec_tjtakeStat (o : FmtR) (s : State) : exec (.tjtakeStat o) s = execTjtakeStat o s := rfl

variable {o : FmtR}

theorem exec_tjtake_of_acts (h : ActsFree (.tjtake o) s b) : exec (.tjtake o) s =
    let t := waitTakes b (acting (.tjtake o) b) o.d.toNat false s
    .next (finishWord b (serveTakes b.warp.die b.warp.ctx (takesOn t b.warp.die) t)) := by
  rw [exec_tjtake, execTjtake, takeWord_acts h rfl (covers_nil _) (covers_dR o 4 _ _ _ _ _ _ _ _ _ _ le_rfl)]

theorem exec_tjtakeTry_of_acts (h : ActsFree (.tjtakeTry o) s b) :
    exec (.tjtakeTry o) s = .next (finishWord b (waitTakes b (acting (.tjtakeTry o) b) o.d.toNat true s)) := by
  rw [exec_tjtakeTry, execTjtakeTry, takeWord_acts h rfl (covers_nil _) (covers_dR o 4 _ _ _ _ _ _ _ _ _ _ le_rfl)]

theorem exec_tjtakeDepth_of_acts (h : ActsFree (.tjtakeDepth o) s b) :
    let j := s.junc b.warp.die b.warp.ctx
    exec (.tjtakeDepth o) s = .next (finishWord b (answerLanes b o.d.toNat 1
      ((actors (.tjtakeDepth o) b).map fun l => (l, (j.p - j.c).toNat)) s)) := by
  rw [exec_tjtakeDepth, execTjtakeDepth,
    takeWord_acts (ds := [o.d.toNat]) h rfl (covers_nil _) (covers_dR o 1 _ _ _ _ _ _ _ _ _ _ le_rfl)]
  rfl

theorem toNat_laneVal (w : Warp) (l : Nat) (r : BitVec 9) (z : Bool) :
    (laneVal w l r z).toNat = ((w.thread l).map fun t => (t.val r z).toNat).getD 0 := by
  rw [laneVal]
  cases w.thread l <;> rfl

theorem exec_tjtakeStat_of_acts (h : ActsFree (.tjtakeStat o) s b)
    (hlow : ∀ l ∈ actors (.tjtakeStat o) b, (laneVal b.warp l o.b o.zb).toNat < 8) :
    let j := s.junc b.warp.die b.warp.ctx
    exec (.tjtakeStat o) s = .next (finishWord b (answerLanes b o.d.toNat 1
      ((actors (.tjtakeStat o) b).map fun l => (l, (j.counts.getD (laneVal b.warp l o.b o.zb).toNat 0).toNat)) s)) := by
  obtain ⟨hw, -⟩ := bundle_warp h.stands.1.1
  have hbad : laneFilter b.warp.width (acting (.tjtakeStat o) b)
      (fun l => decide (8 ≤ ((b.warp.thread l).map fun t => (t.val o.b o.zb).toNat).getD 0)) = 0 :=
    laneFilter_none _ _ _ fun l hl hact => by
      rw [← toNat_laneVal, decide_eq_false_iff_not, not_le]
      exact hlow l ((mem_laneList _ _ _).mpr ⟨hl, hact⟩)
  rw [exec_tjtakeStat, execTjtakeStat, takeWord_acts (ds := [o.d.toNat]) h rfl
    (covers_left (covers_right (covers_src _ _ 1 o.eb _ le_rfl))) (covers_dR o 1 _ _ _ _ _ _ _ _ _ _ le_rfl)]
  simp only [hbad, trapLanes_none, hw, Option.isNone_some, Bool.false_eq_true, if_false, lanes_and_all, toNat_laneVal]
  rfl

end

/-- Settles O34: each word by its meaning in the frame they share, and what its lanes' places and answers are. -/
theorem takeWords : Obligations.TakeWords :=
  ⟨fun _ _ _ h => exec_tjtake_of_acts h, fun _ _ _ h => exec_tjtakeTry_of_acts h, waitTakes_warps,
    fun _ _ d try_ s _ hl => takes_waitTakes_one d try_ s hl, fun _ _ _ h => exec_tjtakeDepth_of_acts h,
    fun _ _ _ h hlow => exec_tjtakeStat_of_acts h hlow, fun _ _ _ _ _ => rfl⟩

end Sys2Proof.Machine
end

section
/-! PROOFS. Contexts bound, freed and ended, and the host's writes (R310, R312, R319, R321). -/

namespace Sys2Proof.Machine

variable {c : Nat} {s : State}

theorem exec_registerWrite (die ctx idx : Nat) (val : Word64) (s : State) :
    exec (.registerWrite die ctx idx val) s = execRegisterWrite die ctx idx val s := rfl
theorem exec_contextBind (c : Nat) (s : State) : exec (.contextBind c) s = execContextBind c s := rfl
theorem exec_contextFree (c : Nat) (s : State) : exec (.contextFree c) s = execContextFree c s := rfl
theorem exec_contextEnded (c : Nat) (s : State) : exec (.contextEnded c) s = execContextEnded c s := rfl
theorem exec_errorRingRetry (s : State) : exec .errorRingRetry s = execErrorRingRetry s := rfl
theorem exec_errorRingWriteFailure (s : State) : exec .errorRingWriteFailure s = execErrorRingWriteFailure s := rfl

/-- A register the host may write, of a context and a die there are, with a value it may hold. -/
theorem exec_registerWrite_of_ok {die idx : Nat} {val : Word64} (hc : c < 256) (hd : die < 64) (hlow : 0x10 ≤ idx)
    (hknown : csrKnown idx = true) (hhandler : csrHandler idx = false) (hro : csrReadOnly idx = false)
    (hok : csrValueOk idx (if csr64 idx then val else (loOf val).setWidth 64) = true) :
    exec (.registerWrite die c idx val) s =
      .next (regWrite die c idx true (if csr64 idx then val else (loOf val).setWidth 64) causeHost s) := by
  rw [exec_registerWrite, execRegisterWrite]
  simp only [hc, hd, hlow, hknown, hhandler, hro, hok, decide_true, Bool.not_false, Bool.and_self, if_true]

theorem bindContext_of_free (hfree : (s.ctx c).st = .free) (hdies : (s.ctx c).dies ≠ 0) : bindContext c s =
    (dieList (s.ctx c).dies).foldl (fun s d => s.modDie d fun y => { y with juncs := tput y.juncs c Junction.atBind })
      (s.setCtx c { Context.init with st := .bound, dies := (s.ctx c).dies, peerTmo := 200000, migrate := 256, hostTmo := 1000000 }) :=
  if_pos (by rw [hfree, bne_iff_ne.mpr hdies]; rfl)

/-- A freed context keeps its dies alone, and none of its kernels stays (R310). -/
theorem freeContext_frees (why : Cause) (hst : (s.ctx c).st = .bound ∨ (s.ctx c).st = .ended) :
    (freeContext c why s).ctx c = { Context.init with dies := (s.ctx c).dies } ∧
      ∀ k x, (k, x) ∈ (freeContext c why s).kernels → x.ctx ≠ c := by
  rw [freeContext, if_pos (by simpa using hst)]
  constructor
  · simp only [State.ctx, State.setCtx, tgetD, tget_tput_same, Option.getD_some]
  · intro k x hx
    simpa using (List.mem_filter.mp hx).2

/-- No kernel fails with the context's end: the context's record alone goes to the host (R321). -/
theorem execContextEnded_of_drained (hdrain : (s.ctx c).st = .draining) (hidle : ctxBusy s c = false)
    (hnone : ∀ k x, (k, x) ∈ s.kernels → x.ctx = c → x.st = .failed → x.reason ≠ 0x0A) :
    execContextEnded c s = .next (appendRecord 1 c (s.ctx c).reason ((s.ctx c).cause.getD causeDispatch) 0
      (s.modCtx c fun x => { x with st := .ended })) := by
  have hfilter : s.kernels.filter (fun k => k.2.ctx == c && k.2.st == .failed && k.2.reason == 0x0A) = [] := by
    rw [List.filter_eq_nil_iff]
    rintro ⟨k, x⟩ hx hall
    simp only [Bool.and_eq_true, beq_iff_eq] at hall
    exact hnone k x hx hall.1.1 hall.1.2 hall.2
  have hkeep : ∀ t : State, t.kernels = s.kernels →
      { t with kernels := tkeep t.kernels fun _ k => !(k.ctx == c && k.st == .failed && k.reason == 0x0A) } = t := by
    intro t ht
    rw [tkeep, List.filter_eq_self.mpr]
    rintro ⟨k, x⟩ hx
    rw [Bool.not_eq_true']
    exact Bool.eq_false_iff.mpr (List.filter_eq_nil_iff.mp hfilter (k, x) (ht ▸ hx))
  have hends : (decide ((s.ctx c).st = .draining) && !ctxBusy s c) = true := by rw [hdrain, hidle]; rfl
  refine (if_pos hends).trans ?_
  simp only [appendRecord, State.modMod_kernels, State.modCtx_kernels, hfilter, List.foldl_nil]
  exact congrArg Host.Outcome.next (hkeep _ rfl)

/-- The ring has been reached since: the waiting records go out (R321). -/
theorem execErrorRingRetry_of_reached (hbase : s.mod.errBase ≠ 0) (hsize : s.mod.errSize ≠ 0) (hgood : s.mod.errBad = none) :
    execErrorRingRetry s = .next (s.modMod fun m => drainRing (s.die 0).time m.errWait { m with errWait := [], errBad := none }) := by
  simp only [execErrorRingRetry, hgood, bne_iff_ne.mpr hbase, bne_iff_ne.mpr hsize, Bool.and_self, if_true]

/-- A write reported failed within 1 ms is taken back (R321). -/
theorem execErrorRingWriteFailure_of_recent {t : Nat} (hlast : s.mod.errLast = some t)
    (hsoon : (s.die 0).time ≤ t + 1000000 * unitsPerNs) (hbase : s.mod.errBase ≠ 0) (hsize : s.mod.errSize ≠ 0) :
    execErrorRingWriteFailure s = .next (s.modMod fun m => { m with
      errWp := m.errWp - 1, errLast := none, errBad := some (s.die 0).time
      errWait := ringRecord s.mod (s.mod.errWp - 1) :: m.errWait }) := by
  simp only [execErrorRingWriteFailure, hlast, hsoon, bne_iff_ne.mpr hbase, bne_iff_ne.mpr hsize, decide_true, Bool.and_self, if_true]

/-- Settles O45: each step by the branch of its definition that the premises choose. -/
theorem hostSteps : Obligations.HostSteps := by
  refine ⟨?write, ?bind, ?free, fun _ => rfl, fun _ _ => rfl, ?ended, ?retry, ?failure⟩
  case write =>
    intro die c idx val s hc hd hlow hknown hhandler hro v hok
    exact exec_registerWrite_of_ok hc hd hlow hknown hhandler hro hok
  case bind =>
    intro c s hc hfree hdies
    rw [exec_contextBind, execContextBind, if_pos hc, bindContext_of_free hfree hdies]
  case free =>
    intro c s hc hst
    refine ⟨_, ?_, freeContext_frees causeHost hst⟩
    rw [exec_contextFree, execContextFree, if_pos hc]
  case ended =>
    intro c s hdrain hidle hnone
    exact (exec_contextEnded c s).trans (execContextEnded_of_drained hdrain hidle hnone)
  case retry =>
    intro s hbase hsize hgood
    exact (exec_errorRingRetry s).trans (execErrorRingRetry_of_reached hbase hsize hgood)
  case failure =>
    intro s t hlast hsoon hbase hsize
    exact (exec_errorRingWriteFailure s).trans (execErrorRingWriteFailure_of_recent hlast hsoon hbase hsize)

end Sys2Proof.Machine
end

section
/-! PROOFS. The steps of the reductions of partial pages (R335). -/

namespace Sys2Proof.Machine

theorem exec_reduceContribution (die red send : Nat) (s : State) :
    exec (.reduceContribution die red send) s = execReduceContribution die red send s := rfl
theorem exec_reduceSendAcknowledgement (die red send : Nat) (s : State) :
    exec (.reduceSendAcknowledgement die red send) s = execReduceSendAcknowledgement die red send s := rfl
theorem exec_reduceSendTimeout (die red send : Nat) (s : State) :
    exec (.reduceSendTimeout die red send) s = execReduceSendTimeout die red send s := rfl
theorem exec_reduceDone (die red src : Nat) (s : State) : exec (.reduceDone die red src) s = execReduceDone die red src s := rfl
theorem exec_reducingTimeout (die red : Nat) (s : State) : exec (.reducingTimeout die red) s = execReducingTimeout die red s := rfl

/-- A die without uncorrectable units has none in any range. -/
theorem badIn_nil {d : Die} (h : d.bad = []) (a n : Nat) : badIn d a n = [] := by
  simp only [badIn, h, List.filter_nil]

/-- A time-out that has run out. -/
theorem not_before_timeout {s : State} {c t now : Nat} (hover : t + (s.ctx c).peerTmo.toNat * unitsPerNs ≤ now) :
    ¬ now < t + s.peerTmo c := Nat.not_lt.mpr hover

/-- The member's mirror, once more the receiver of what the member has not answered (R332, R335). -/
theorem askedDie_mirror {g : Group} {k : Nat} {r : Option (Nat × Nat)} (h : g.mir[k]? = some r) : askedDie g k true = r := by
  simp only [askedDie, if_true, List.getD_eq_getElem?_getD, h, Option.getD_some]

section
variable {die red send : Nat} {s : State} {r : Reduction} {x : RedSend} (hr : tget (s.die die).reds red = some r)
include hr

section
variable (hx : r.sends[send]? = some x)
include hx

/-- A send to this module that has come to a receiver with a PARTIAL or REDUCING page is added there. -/
theorem execReduceContribution_of_come {p : Word64} {a n : Nat} (hstate : x.state = 0) (hmod : x.module = s.mod.number)
    (hcome : ride 2 r.ctx die x.die [3, red, send] [] s = (.come, s)) (hserves : serves s r.ctx x.die = true)
    (hfree : snapHolds s r.ctx x.die r.page r.step = false) (hturn : snapTurn s r.ctx x.die r.page (.page 3 red send) = true)
    (hwalk : walk s r.ctx x.die r.page = .ok (p, a, n)) (hpte : pteState p = 5 ∨ pteState p = 6) (hbad : (s.die x.die).bad = []) :
    execReduceContribution die red send s = .next (takeSend die red send r x (pteFrame p) s) := by
  have hpartial : (pteState p == 5 || pteState p == 6) = true := by simpa using hpte
  have hclean : (x.stripes.any fun w => !(badIn (s.die x.die) (4096 * pteFrame p + 8 * w.1) 8).isEmpty) = false := by
    simp only [badIn_nil hbad, List.isEmpty_nil, Bool.not_true, List.any_eq_false, Bool.false_eq_true, not_false_eq_true, implies_true]
  simp only [execReduceContribution, hr, hx, Option.bind_some, Option.map_some, hstate, hmod, bne_self_eq_false, Bool.or_self,
    Bool.false_eq_true, if_false, hcome, hserves, Bool.not_true, hfree, hturn, hwalk, hpartial, hclean]

/-- An acknowledgement that has come back. -/
theorem execReduceSendAcknowledgement_of_come (hstate : x.state = 1)
    (hcome : ride 2 r.ctx x.die die [4, red, send] [] s = (.come, s)) :
    execReduceSendAcknowledgement die red send s = .next (settleRed die red
      ((setSend die red send (fun y => { y with state := 2 }) (dropMessage [4, red, send] s)).modDie die fun d =>
        { d with reds := tmod d.reds red fun r => { r with timer := d.time } })) := by
  simp only [execReduceSendAcknowledgement, hr, hx, Option.bind_some, Option.map_some, hstate, bne_self_eq_false, Bool.false_eq_true,
    if_false, hcome]

section
variable (hstate : x.state < 2) (hover : x.at_ + (s.ctx r.ctx).peerTmo.toNat * unitsPerNs ≤ (s.die die).time)
include hstate hover

/-- A send that has waited PEER_TMO goes to the member's mirror. -/
theorem execReduceSendTimeout_mirror {p : Word64} {gr : Group} {m d : Nat} (hfirst : x.again = false)
    (hgroup : leafGroup (dropMessage [4, red, send] (dropMessage [3, red, send] s)) r.ctx die r.page = some (p, gr))
    (hmirror : gr.mir[x.member]? = some (some (m, d))) :
    let u := setSend die red send (fun y => { y with module := m, die := d, state := 0, at_ := (s.die die).time, again := true })
      (dropMessage [4, red, send] (dropMessage [3, red, send] s))
    execReduceSendTimeout die red send s =
      .next (if m = s.mod.number then u else (sendFrame 2 die m d r.ctx (8 * x.stripes.length) u).2) := by
  simp only [execReduceSendTimeout, hr, hx, Option.bind_some, Option.map_some, Nat.not_le.mpr hstate, not_before_timeout hover, decide_false,
    Bool.or_self, Bool.false_eq_true, if_false, hfirst, hgroup, askedDie_mirror hmirror]
  rfl

/-- A send whose mirror has not answered either: the member has failed. -/
theorem execReduceSendTimeout_failed (hagain : x.again = true) :
    execReduceSendTimeout die red send s = .next (settleRed die red (setSend die red send (fun y => { y with state := 3 })
      (dropMessage [4, red, send] (dropMessage [3, red, send] s)))) := by
  simp only [execReduceSendTimeout, hr, hx, Option.bind_some, Option.map_some, Nat.not_le.mpr hstate, not_before_timeout hover, decide_false,
    Bool.or_self, Bool.false_eq_true, if_false, hagain]

end
end

/-- A done that has come. -/
theorem execReduceDone_of_come {src k : Nat} {t : Transfer} (hcoming : src ∈ r.coming)
    (hmsg : s.transfer? [5, red, src] = some (k, t)) (hthere : t.at_ = t.dst) :
    execReduceDone die red src s = .next (settleRed die red ((dropMessage [5, red, src] s).modDie die fun d =>
      { d with reds := tput d.reds red { r with
        coming := r.coming.erase src, timer := (s.die die).time
        dones := if src ∈ r.dones then r.dones else r.dones ++ [src] } })) := by
  have hhere : r.coming.contains src = true := List.contains_iff_mem.mpr hcoming
  simp only [execReduceDone, hr, hhere, List.contains_iff_mem, hmsg, Option.map_some, hthere, beq_self_eq_true,
    Option.getD_some, Bool.and_self, if_true]
  rfl

section
variable (hopen : r.conv = false) (hactive : r.active = true)
  (hover : r.timer + (s.ctx r.ctx).peerTmo.toNat * unitsPerNs ≤ (s.die die).time)
include hopen hactive hover

/-- The progress timer of a page whose own sends are out: its record goes. -/
theorem execReducingTimeout_of_sent (hsent : r.sent = true) :
    execReducingTimeout die red s = .next (updateLeaf r.ctx die r.page (fun q => pteSet q 1 3 7)
      (s.modDie die fun d => { d with reds := tdel d.reds red })) := by
  have hdue : decide (r.timer + s.peerTmo r.ctx ≤ (s.die die).time) = true := decide_eq_true hover
  simp only [execReducingTimeout, hr, hopen, hactive, hdue, Bool.not_false, Bool.true_or, Bool.and_self, if_true, hsent]
  rfl

/-- The progress timer of a member's page whose sends go on: its record stays. -/
theorem execReducingTimeout_of_member {p : Word64} {g : Group} (hsent : r.sent = false)
    (hgroup : leafGroup s r.ctx die r.page = some (p, g)) (hmember : (s.mod.number, die) ∈ g.mem) :
    execReducingTimeout die red s = .next (updateLeaf r.ctx die r.page (fun q => pteSet q 1 3 7)
      (s.modDie die fun d => { d with reds := tput d.reds red { r with conv := true } })) := by
  have hdue : decide (r.timer + s.peerTmo r.ctx ≤ (s.die die).time) = true := decide_eq_true hover
  simp only [execReducingTimeout, hr, hopen, hactive, hdue, Bool.not_false, Bool.true_or, Bool.and_self, if_true, hsent, hgroup,
    List.contains_iff_mem.mpr hmember, Bool.not_true, Bool.or_self, Bool.false_eq_true, if_false]
  rfl

end
end

/-- A receiver whose acknowledgement finds its way (R335). -/
theorem takeSend_of_ride {die red send frame : Nat} {r : Reduction} {x : RedSend} {s u v : State} {k : Ride}
    (hmark : breakMark r.ctx x.die r.page (4096 * frame) s = some u)
    (hride : ride 2 r.ctx x.die die [4, red, send] [] (setSend die red send (fun y => { y with state := 1 })
      (snapLeave r.ctx x.die r.page (.page 3 red send)
        (x.stripes.foldl (addSend r.ctx x.die frame) (touch r.ctx x.die r.page true (dropMessage [3, red, send] u))))) = (k, v))
    (hk : k ≠ .cut) : takeSend die red send r x frame s = v := by
  simp only [takeSend, hmark, hride]

/-- Settles O47: each step by the branch of its definition that the premises choose. -/
theorem reduceSteps : Obligations.ReduceSteps := by
  refine ⟨?contribution, ?take, ?acknowledgement, ?timeout, ?done, ?progress⟩
  case contribution =>
    intro die red send s r x p a n hr hx hstate hmod hcome hserves hfree hturn hwalk hpte hbad
    exact (exec_reduceContribution die red send s).trans
      (execReduceContribution_of_come hr hx hstate hmod hcome hserves hfree hturn hwalk hpte hbad)
  case take =>
    intro die red send r x frame s u k v hmark hride hk
    exact takeSend_of_ride hmark hride hk
  case acknowledgement =>
    intro die red send s r x hr hx hstate hcome
    exact (exec_reduceSendAcknowledgement die red send s).trans (execReduceSendAcknowledgement_of_come hr hx hstate hcome)
  case timeout =>
    intro die red send s r x hr hx hstate hover t
    exact ⟨fun p gr m d hfirst hgroup hmirror => (exec_reduceSendTimeout die red send s).trans
        (execReduceSendTimeout_mirror hr hx hstate hover hfirst hgroup hmirror),
      fun hagain => (exec_reduceSendTimeout die red send s).trans (execReduceSendTimeout_failed hr hx hstate hover hagain)⟩
  case done =>
    intro die red src s r k t hr hcoming hmsg hthere
    exact (exec_reduceDone die red src s).trans (execReduceDone_of_come hr hcoming hmsg hthere)
  case progress =>
    intro die red s r hr hopen hactive hover lost
    exact ⟨fun hsent => (exec_reducingTimeout die red s).trans (execReducingTimeout_of_sent hr hopen hactive hover hsent),
      fun p g hsent hgroup hmember => (exec_reducingTimeout die red s).trans
        (execReducingTimeout_of_member hr hopen hactive hover hsent hgroup hmember)⟩

end Sys2Proof.Machine
end

section
/-! PROOFS. Kernels completed, queue entries taken, and the registers of the queues (R294-R303). -/

namespace Sys2Proof.Machine

theorem exec_kernelDone (k : Nat) (s : State) : exec (.kernelDone k) s = execKernelDone k s := rfl
theorem exec_queueEntryTake (q : Nat) (s : State) : exec (.queueEntryTake q) s = execQueueEntryTake q s := rfl
theorem exec_dependenceCheck (k : Nat) (s : State) : exec (.dependenceCheck k) s = execDependenceCheck k s := rfl
theorem exec_queueLevelRaise (q : Nat) (s : State) : exec (.queueLevelRaise q) s = execQueueLevelRaise q s := rfl
theorem exec_queueDoorbell (q : Nat) (wp : Word) (s : State) : exec (.queueDoorbell q wp) s = execQueueDoorbell q wp s := rfl
theorem exec_queueEnable (q : Nat) (ctl : Word) (s : State) : exec (.queueEnable q ctl) s = execQueueEnable q ctl s := rfl
theorem exec_queueDisable (q : Nat) (s : State) : exec (.queueDisable q) s = execQueueDisable q s := rfl
theorem exec_queueSuspend (q : Nat) (s : State) : exec (.queueSuspend q) s = execQueueSuspend q s := rfl
theorem exec_queueResume (q : Nat) (s : State) : exec (.queueResume q) s = execQueueResume q s := rfl

/-- A write to the registers of a queue there is. -/
theorem hostQueue_of_lt {q : Nat} (hq : q < 1024) (f : State → State) (s : State) : hostQueue q f s = .next (f s) := by
  rw [hostQueue, if_pos hq]

/-! ### Kernels (R294, R303) -/

/-- A drained kernel whose counter has taken its completion is DONE, and those that wait for the counter are checked. -/
theorem execKernelDone_of_drained {k : Nat} {s t : State} {x : Kernel} (hk : s.kernel? k = some x) (hst : x.st = .draining)
    (hidle : kernelBusy s k = false) (hdone : addDone k x.ctx x.launch.done s = (true, t)) :
    execKernelDone k s =
      let u := settleCtx x.ctx { t.setKernel k { x with st := .done } with blocks := tkeep t.blocks fun _ b => b.kern != k }
      .next (checkAll (if x.launch.done = 0 then [] else waitersOn u x.ctx x.launch.done) u) := by
  simp only [execKernelDone, hk, hst, bne_self_eq_false, hidle, Bool.or_self, Bool.false_eq_true, if_false, hdone]

theorem execDependenceCheck_of_waiting {k : Nat} {s : State} {x : Kernel} (hk : s.kernel? k = some x) (hst : x.st = .waiting) :
    execDependenceCheck k s = .next (checkAll (waitingKernels s fun _ => true) s) := by
  simp only [execDependenceCheck, hk, hst, if_true]

theorem checkKernel_of_waiting {k : Nat} {s : State} {x : Kernel} (hk : s.kernel? k = some x) (hst : x.st = .waiting) :
    checkKernel k s = settleQueue x.queue (dispatchKernel k (checkDeps k x.ctx x.unmet s)) := by
  simp only [checkKernel, hk, hst, if_true]

/-! ### A read is made in the state it finds -/

/-- A request that has come to its last die has changed nothing since. -/
theorem reach_come {tag : List Nat} {cls ctx die : Nat} {path : List Nat} {first : State → State} {s t : State}
    (h : reach tag cls ctx die path first s = (.come, t)) : t = s := by
  unfold reach at h
  grind

theorem overMesh_congr {α : Type} (enc : α → List Byte) (dec : List Byte → α) (tag : List Nat) (cls ctx die : Nat) (path : List Nat)
    (first : State → State) {f g : State → Ended α × State} {s : State} (h : f s = g s) :
    overMesh enc dec tag cls ctx die path first f s = overMesh enc dec tag cls ctx die path first g s := by
  unfold overMesh
  cases hreach : reach tag cls ctx die path first s with
  | mk r t =>
    cases r with
    | come =>
      obtain rfl := reach_come hreach
      simp only [h]
    | under => rfl
    | cut => rfl

theorem inTurn_congr {α : Type} (write : Bool) (hold : Holder) (ctx die x : Nat) {f g : State → Ended α × State} {s : State}
    (h : f s = g s) : inTurn write hold ctx die x f s = inTurn write hold ctx die x g s := by
  simp only [inTurn, h]

/-- A read depends on what it does in the state it is made in alone. -/
theorem readAccess_congr (hold : Holder) (ctx die x cls bytes : Nat) {f g : State → Ended (List Byte) × State} {s : State}
    (h : f s = g s) : readAccess hold ctx die x cls bytes f s = readAccess hold ctx die x cls bytes g s := by
  have hact : (if (pathOf s ctx die x false).isEmpty then f else inTurn false hold ctx ((pathOf s ctx die x false).getLastD die) x f) s =
      (if (pathOf s ctx die x false).isEmpty then g else inTurn false hold ctx ((pathOf s ctx die x false).getLastD die) x g) s := by
    split
    · exact h
    · exact inTurn_congr false hold ctx _ x h
  simp only [readAccess, engineAccess, Bool.false_eq_true, if_false, overMesh_congr _ _ _ _ _ _ _ _ hact]

/-! ### Entries (R299, R300, R302) -/

theorem execQueueEntryTake_of_pending {q k : Nat} {s : State} {x : Kernel}
    (hpending : tfind s.kernels (fun _ k => k.queue == q && k.st == .pending) = some (k, x)) :
    execQueueEntryTake q s = .next (fixRecord k s) := by
  rw [execQueueEntryTake, hpending]

section
variable {q lvl : Nat} {s : State} {t : Turn} (hnone : ∀ k x, (k, x) ∈ s.kernels → x.queue = q → x.st ≠ .pending)
  (hturn : serveTurn s q = some (lvl, t)) (htake : mayTake s = true)
include hnone hturn htake

/-- The queue the rounds choose gives its next entry, from the ring its control word names. -/
theorem execQueueEntryTake_of_turn : execQueueEntryTake q s =
    let x := s.queue q
    let a := x.entryAt x.rp
    if x.hostRing then match hostReqOf s (ringRun q) 0 with
      | none => .next (askHost x.ctx (ringRun q) 0 0 (keepTurn lvl t s))
      | some r => .next (takeEntry q lvl t (mread s.mod.hostMem a 8) (dropHostReq r s))
    else match alone (ringHolder q) (readAccess (ringHolder q) x.ctx 0 a 0 8 (fun s => mainRead s x.ctx 0 a 8) s) with
      | (.done bs, s) => .next (takeEntry q lvl t (leNat bs) s)
      | (.remote d e, s) => .next (remoteEnd x.ctx d a e s)
      | (r, s) => if r.waits then .next (keepTurn lvl t s) else .next (ringFails q a s) := by
  have hfree : tfind s.kernels (fun _ k => k.queue == q && k.st == .pending) = none := by
    rw [tfind, List.find?_eq_none]
    rintro ⟨k, x⟩ hx hall
    simp only [Bool.and_eq_true, beq_iff_eq] at hall
    exact hnone k x hx hall.1 hall.2
  rw [execQueueEntryTake, hfree]
  simp only [hturn, htake, if_true] <;> rfl

theorem execQueueEntryTake_asks (hhost : (s.queue q).hostRing = true) (hreq : hostReqOf s (ringRun q) 0 = none) :
    execQueueEntryTake q s = .next (askHost (s.queue q).ctx (ringRun q) 0 0 (keepTurn lvl t s)) := by
  rw [execQueueEntryTake_of_turn hnone hturn htake]
  simp only [hhost, if_true, hreq]

theorem execQueueEntryTake_host {r : Nat} (hhost : (s.queue q).hostRing = true) (hreq : hostReqOf s (ringRun q) 0 = some r) :
    execQueueEntryTake q s =
      .next (takeEntry q lvl t (mread s.mod.hostMem ((s.queue q).entryAt (s.queue q).rp) 8) (dropHostReq r s)) := by
  rw [execQueueEntryTake_of_turn hnone hturn htake]
  simp only [hhost, if_true, hreq]

theorem execQueueEntryTake_main {bs : List Byte} {u : State} (hmain : (s.queue q).hostRing = false)
    (hread : alone (ringHolder q) (readAccess (ringHolder q) (s.queue q).ctx 0 ((s.queue q).entryAt (s.queue q).rp) 0 8
      (fun u => mainRead u (s.queue q).ctx 0 ((s.queue q).entryAt (s.queue q).rp) 8) s) = (.done bs, u)) :
    execQueueEntryTake q s = .next (takeEntry q lvl t (leNat bs) u) := by
  rw [execQueueEntryTake_of_turn hnone hturn htake]
  simp only [hmain, Bool.false_eq_true, if_false, hread]

end

theorem execQueueLevelRaise_of_ready {q : Nat} {s : State} (hst : (s.queue q).st = .ready)
    (hlong : (s.queue q).since + 10000000 * unitsPerNs ≤ (s.die 0).time) :
    execQueueLevelRaise q s = .next (s.setQueue q { s.queue q with raised := true }) := by
  simp only [execQueueLevelRaise, hst, hlong, decide_true, Bool.and_self, if_true]

/-! ### The doorbell (R299) -/

section
variable {q : Nat} {wp : Word} {s : State} (hst : (s.queue q).st ≠ .disabled) (hnew : wp ≠ (s.queue q).wp)
include hst hnew

theorem doorbell_forward (why : Cause) (hfits : (wp - (s.queue q).rp).toNat ≤ (s.queue q).size)
    (hforward : (s.queue q).held ≤ (wp - (s.queue q).rp).toNat) :
    doorbell q wp why s = settleQueue q (s.setQueue q { s.queue q with wp := wp }) := by
  rw [Queue.held] at hforward
  simp only [doorbell, hst, hnew, Nat.not_lt.mpr hfits, Nat.not_lt.mpr hforward, decide_false, Bool.or_self, Bool.false_eq_true, if_false]

theorem doorbell_backward (why : Cause) (hbad : (s.queue q).size < (wp - (s.queue q).rp).toNat ∨
    (wp - (s.queue q).rp).toNat < (s.queue q).held) : doorbell q wp why s = disableQueue q 0x02 why s := by
  have hrefused : (decide ((s.queue q).size < (wp - (s.queue q).rp).toNat) ||
      decide ((wp - (s.queue q).rp).toNat < ((s.queue q).wp - (s.queue q).rp).toNat)) = true := by simpa [Queue.held] using hbad
  simp only [doorbell, hst, hnew, decide_false, Bool.or_self, Bool.false_eq_true, if_false, hrefused, if_true]

end

/-! ### The control word (R298, R301) -/

/-- The bits `f` outside those a write keeps. -/
theorem keep_or {k f : Word} (c : Word) (h : f &&& k = 0#32) : (c &&& k) ||| ((c ||| f) &&& ~~~k) = c ||| f := by
  ext i hi
  have hbit := congrArg (fun x : Word => x[i]) h
  simp only [BitVec.getElem_and, BitVec.getElem_zero] at hbit
  have hmix : ∀ c f k : Bool, (f && k) = false → (c && k || (c || f) && !k) = (c || f) := by decide
  simp only [BitVec.getElem_or, BitVec.getElem_and, BitVec.getElem_not]
  exact hmix _ _ _ hbit

/-- The bits `f` cleared outside those a write keeps. -/
theorem keep_and {k f : Word} (c : Word) (h : f &&& k = 0#32) : (c &&& k) ||| ((c &&& ~~~f) &&& ~~~k) = c &&& ~~~f := by
  ext i hi
  have hbit := congrArg (fun x : Word => x[i]) h
  simp only [BitVec.getElem_and, BitVec.getElem_zero] at hbit
  have hmix : ∀ c f k : Bool, (f && k) = false → (c && k || (c && !f) && !k) = (c && !f) := by decide
  simp only [BitVec.getElem_or, BitVec.getElem_and, BitVec.getElem_not]
  exact hmix _ _ _ hbit

/-- The suspend bit is none of those that must be zero. -/
theorem qctlOk_suspend (c : Word) : qctlOk (c ||| 4) = qctlOk c := by
  have h28 : (4 : Word).extractLsb' 28 4 = 0#4 := rfl
  have h12 : (4 : Word).extractLsb' 12 4 = 0#4 := rfl
  have h3 : (4 : Word).extractLsb' 3 2 = 0#2 := rfl
  have h1 : (4 : Word).getLsbD 1 = false := rfl
  simp only [qctlOk, BitVec.extractLsb'_or, BitVec.getLsbD_or, h28, h12, h3, h1, Bool.or_false, BitVec.or_zero]

theorem qctlOk_resume (c : Word) : qctlOk (c &&& ~~~4) = qctlOk c := by
  have h28 : (~~~4 : Word).extractLsb' 28 4 = BitVec.allOnes 4 := rfl
  have h12 : (~~~4 : Word).extractLsb' 12 4 = BitVec.allOnes 4 := rfl
  have h3 : (~~~4 : Word).extractLsb' 3 2 = BitVec.allOnes 2 := rfl
  have h1 : (~~~4 : Word).getLsbD 1 = true := rfl
  simp only [qctlOk, BitVec.extractLsb'_and, BitVec.getLsbD_and, h28, h12, h3, h1, Bool.and_true, BitVec.and_allOnes]

section
variable {q : Nat} {s : State} {v : Word}

/-- A write that enables a DISABLED queue. -/
theorem writeQctl_enables (why : Cause) (hst : (s.queue q).st = .disabled) (hok : qctlOk v = true) (hset : v.getLsbD 0 = true)
    (hbound : boundOn s (v.extractLsb' 16 8).toNat 0 = true) :
    writeQctl q v why s = resettle q (s.setQueue q { s.queue q with
      ctl := v, rp := (s.queue q).wp, st := .empty, reason := 0, raised := false, last := none, since := (s.die 0).time }) := by
  simp only [writeQctl, hok, Bool.not_true, Bool.false_eq_true, if_false, hst, if_true, hset, hbound]

/-- A write to an enabled queue that leaves it enabled. -/
theorem writeQctl_keeps (why : Cause) (hst : (s.queue q).st ≠ .disabled) (hok : qctlOk v = true) (hset : v.getLsbD 0 = true) :
    writeQctl q v why s = resettle q (s.setQueue q { s.queue q with
      ctl := ((s.queue q).ctl &&& 0x0FFF0020) ||| (v &&& ~~~ 0x0FFF0020) }) := by
  simp only [writeQctl, hok, Bool.not_true, Bool.false_eq_true, if_false, hst, hset, if_true]

theorem resettle_suspends {x : Queue} (hst : x.st ≠ .disabled) (hset : x.ctl.getLsbD 2 = true) :
    resettle q (s.setQueue q x) = leaveRound q (s.setQueue q { x with st := .suspended, raised := false }) := by
  simp only [resettle, State.queue_setQueue, hst, if_false, hset, if_true]
  simp only [State.setQueue, tput_tput_same]

theorem resettle_resumes {x : Queue} (hst : x.st = .suspended) (hclear : x.ctl.getLsbD 2 = false) :
    resettle q (s.setQueue q x) = settleQueue q (s.setQueue q { x with st := .empty }) := by
  simp only [resettle, State.queue_setQueue, hst, reduceCtorEq, if_false, hclear, Bool.false_eq_true, if_true]
  simp only [State.setQueue, tput_tput_same]

theorem writeQctl_suspends (why : Cause) (hst : (s.queue q).st ≠ .disabled) (hset : (s.queue q).ctl.getLsbD 0 = true)
    (hok : qctlOk (s.queue q).ctl = true) : writeQctl q ((s.queue q).ctl ||| 4) why s =
      leaveRound q (s.setQueue q { s.queue q with ctl := (s.queue q).ctl ||| 4, st := .suspended, raised := false }) := by
  rw [writeQctl_keeps why hst ((qctlOk_suspend _).trans hok) (by rw [BitVec.getLsbD_or, hset]; rfl), keep_or _ (by decide)]
  exact resettle_suspends hst (by rw [BitVec.getLsbD_or, show (4 : Word).getLsbD 2 = true from rfl, Bool.or_true])

theorem writeQctl_resumes (why : Cause) (hst : (s.queue q).st = .suspended) (hset : (s.queue q).ctl.getLsbD 0 = true)
    (hok : qctlOk (s.queue q).ctl = true) : writeQctl q ((s.queue q).ctl &&& ~~~4) why s =
      settleQueue q (s.setQueue q { s.queue q with ctl := (s.queue q).ctl &&& ~~~4, st := .empty }) := by
  rw [writeQctl_keeps why (by rw [hst]; exact nofun) ((qctlOk_resume _).trans hok) (by rw [BitVec.getLsbD_and, hset]; rfl),
    keep_and _ (by decide)]
  exact resettle_resumes hst (by rw [BitVec.getLsbD_and, show (~~~4 : Word).getLsbD 2 = false from rfl, Bool.and_false])

end

/-- Settles O44: each step by the branch of its definition that the premises choose. -/
theorem queueSteps : Obligations.QueueSteps := by
  refine ⟨?done, ?take, ?pending, ?check, ?raise, ?doorbell, ?enable, ?disable, ?suspend, ?resume⟩
  case done =>
    intro k s x t hk hst hidle hdone u
    have hexec := (exec_kernelDone k s).trans (execKernelDone_of_drained hk hst hidle hdone)
    exact ⟨fun hzero => hexec.trans (congrArg (fun ks => Host.Outcome.next (checkAll ks u)) (if_pos hzero)),
      fun hcounter => hexec.trans (congrArg (fun ks => Host.Outcome.next (checkAll ks u)) (if_neg hcounter))⟩
  case take =>
    intro q s lvl t hnone hturn htake a h
    have hsame : readAccess h (s.queue q).ctx 0 a 0 8 (fun u => mainRead u (u.queue q).ctx 0 a 8) s =
        readAccess h (s.queue q).ctx 0 a 0 8 (fun u => mainRead u (s.queue q).ctx 0 a 8) s := readAccess_congr _ _ _ _ _ _ rfl
    exact ⟨fun hhost hreq => (exec_queueEntryTake q s).trans (execQueueEntryTake_asks hnone hturn htake hhost hreq),
      fun r hhost hreq => (exec_queueEntryTake q s).trans (execQueueEntryTake_host hnone hturn htake hhost hreq),
      fun bs u hmain hread => (exec_queueEntryTake q s).trans (execQueueEntryTake_main hnone hturn htake hmain (hsame ▸ hread))⟩
  case pending =>
    intro q s k x hpending
    exact (exec_queueEntryTake q s).trans (execQueueEntryTake_of_pending hpending)
  case check =>
    intro k s x hk hst
    exact ⟨(exec_dependenceCheck k s).trans (execDependenceCheck_of_waiting hk hst), checkKernel_of_waiting hk hst⟩
  case raise =>
    intro q s hst hlong
    exact (exec_queueLevelRaise q s).trans (execQueueLevelRaise_of_ready hst hlong)
  case doorbell =>
    intro q wp s hq hst hnew ahead
    have hexec := (exec_queueDoorbell q wp s).trans (hostQueue_of_lt hq (doorbell q wp causeHost) s)
    exact ⟨fun hfits hforward => hexec.trans (congrArg _ (doorbell_forward hst hnew causeHost hfits hforward)),
      fun hbad => hexec.trans (congrArg _ (doorbell_backward hst hnew causeHost hbad))⟩
  case enable =>
    intro q ctl s hq hst hok hbound
    have hctx : (ctl ||| 1).extractLsb' 16 8 = ctl.extractLsb' 16 8 := by
      rw [BitVec.extractLsb'_or, show (1 : Word).extractLsb' 16 8 = 0#8 from rfl, BitVec.or_zero]
    refine (exec_queueEnable q ctl s).trans ((hostQueue_of_lt hq _ s).trans (congrArg _ ?_))
    exact writeQctl_enables causeHost hst hok (by rw [BitVec.getLsbD_or, show (1 : Word).getLsbD 0 = true from rfl, Bool.or_true])
      (hctx ▸ hbound)
  case disable =>
    intro q s hq
    exact (exec_queueDisable q s).trans (hostQueue_of_lt hq _ s)
  case suspend =>
    intro q s hq hst hsuspended hset hok
    exact (exec_queueSuspend q s).trans ((hostQueue_of_lt hq _ s).trans (congrArg _ (writeQctl_suspends causeHost hst hset hok)))
  case resume =>
    intro q s hq hst hset hok
    exact (exec_queueResume q s).trans ((hostQueue_of_lt hq _ s).trans (congrArg _ (writeQctl_resumes causeHost hst hset hok)))

end Sys2Proof.Machine
end

section
/-! PROOFS. Gathers, migrations and local copies of pages (R331, R332, R340). -/

namespace Sys2Proof.Machine

theorem exec_stripeRequest (die gather member : Nat) (s : State) :
    exec (.stripeRequest die gather member) s = execStripeRequest die gather member s := rfl
theorem exec_gatherReply (die gather member : Nat) (s : State) :
    exec (.gatherReply die gather member) s = execGatherReply die gather member s := rfl
theorem exec_gatherTimeout (die gather member : Nat) (s : State) :
    exec (.gatherTimeout die gather member) s = execGatherTimeout die gather member s := rfl
theorem exec_migrationHandover (die mig : Nat) (s : State) :
    exec (.migrationHandover die mig) s = execMigrationHandover die mig s := rfl
theorem exec_migrationHandoverReply (die mig : Nat) (s : State) :
    exec (.migrationHandoverReply die mig) s = execMigrationHandoverReply die mig s := rfl
theorem exec_mode1Fill (die fill : Nat) (s : State) : exec (.mode1Fill die fill) s = execMode1Fill die fill s := rfl

/-! ### Requests and answers of a gather (R331, R332) -/

section
variable {die gather member : Nat} {s : State} {g : Gather} (hg : tget (s.die die).gathers gather = some g)
include hg

/-- A request that has come to a member or mirror of this module, at the branch that says whether it serves. -/
theorem execStripeRequest_of_come {t d : Nat} {mirror : Bool} {p : Word64} {gr : Group} (hr : tget g.reqs member = some (.asked t mirror))
    (hgroup : leafGroup s g.ctx die g.page = some (p, gr)) (hasked : askedDie gr member mirror = some (s.mod.number, d))
    (hcome : ride 2 g.ctx die d (askTag gather member mirror) [] s = (.come, s)) :
    execStripeRequest die gather member s =
      if !serves s g.ctx d then .next s
      else match serveStripes s g.ctx g.page d member gr.n p mirror with
        | .ok cells => .next (sendReply g.ctx d die gather member mirror (.stripes t mirror cells) (touch g.ctx d g.page false s))
        | .error st => .next (sendReply g.ctx d die gather member mirror (.refusal t mirror st) s) := by
  simp only [execStripeRequest, hg, hr, Option.bind_some, Option.map_some, hgroup, hasked, bne_self_eq_false, Bool.false_eq_true,
    if_false, hcome] <;> rfl

section
variable {t : Nat} {mirror : Bool}
  (hcome : ride 2 g.ctx (serverOf s g.ctx die g.page member mirror) die (replyTag gather member mirror) [] s = (.come, s))
include hcome

theorem execGatherReply_of_stripes {cells : List Host.Cell} (hr : tget g.reqs member = some (.stripes t mirror cells)) :
    execGatherReply die gather member s = .next (landStripes die gather member mirror g cells s) := by
  simp only [execGatherReply, hg, hr, Option.bind_some, Option.map_some, hcome]

theorem execGatherReply_of_refusal {st : Nat} (hr : tget g.reqs member = some (.refusal t mirror st)) :
    execGatherReply die gather member s =
      .next (remoteEnd g.ctx (serverOf s g.ctx die g.page member mirror) g.page st s) := by
  simp only [execGatherReply, hg, hr, Option.bind_some, Option.map_some, hcome]

end

/-- The page of a gather that is given up (R332). -/
def lostGather (die gather : Nat) (g : Gather) (s : State) : State :=
  updateLeaf g.ctx die g.page (fun q => pteSet q 1 3 7)
    ((dropAsks [gather] s).modDie die fun d => { d with gathers := tdel d.gathers gather })

section
variable {r : ReqState} {t : Nat} (hr : tget g.reqs member = some r)
  (hover : t + (s.ctx g.ctx).peerTmo.toNat * unitsPerNs ≤ (s.die die).time)
include hr hover

section
variable {p : Word64} {gr : Group} (hopen : r.open_ = some (t, false)) (hgroup : leafGroup s g.ctx die g.page = some (p, gr))
include hopen hgroup

/-- A request unanswered by the member goes to its mirror. -/
theorem execGatherTimeout_mirror {m d : Nat} (hmirror : gr.mir[member]? = some (some (m, d))) :
    let u := setReq die gather member (.asked (s.die die).time true) (dropAsks [gather, member] s)
    execGatherTimeout die gather member s = .next (if m = s.mod.number then u else (sendFrame 2 die m d g.ctx 16 u).2) := by
  simp only [execGatherTimeout, hg, hr, Option.bind_some, hopen, Option.map_some, not_before_timeout hover, if_false, hgroup,
    askedDie_mirror hmirror]
  rfl

/-- A member without a mirror does not answer: the page is LOST. -/
theorem execGatherTimeout_single (hnone : gr.mir[member]? = some none) :
    execGatherTimeout die gather member s = .next (lostGather die gather g s) := by
  simp only [execGatherTimeout, hg, hr, Option.bind_some, hopen, Option.map_some, not_before_timeout hover, if_false, hgroup,
    askedDie_mirror hnone]
  rfl

end

/-- A mirror does not answer either: the page is LOST. -/
theorem execGatherTimeout_lost (hopen : r.open_ = some (t, true)) :
    execGatherTimeout die gather member s = .next (lostGather die gather g s) := by
  simp only [execGatherTimeout, hg, hr, Option.bind_some, hopen, Option.map_some, not_before_timeout hover, if_false]
  rfl

end
end

/-! ### Stripes that have come (R393, R394) -/

section
variable {die gather member : Nat} {mirror : Bool} {g : Gather} {cells : List Host.Cell} {s : State}

/-- Stripes a snapshot of their die holds. -/
theorem landStripes_held (hheld : ∃ x ∈ stripePages g.page cells, snapHolds s g.ctx die x g.step = true) :
    landStripes die gather member mirror g cells s =
      (stripePages g.page cells).foldl (fun s x => snapHold g.ctx die x (.page 2 gather member) s) s :=
  if_pos (List.any_eq_true.mpr hheld)

/-- Stripes that nothing holds are written. -/
theorem landStripes_free {u : State} (hfree : ∀ x ∈ stripePages g.page cells,
      snapHolds s g.ctx die x g.step = false ∧ snapTurn s g.ctx die x (.page 2 gather member) = true)
    (hmarks : breakMarks g.ctx die (stripePages g.page cells) s = some u) :
    landStripes die gather member mirror g cells s =
      (stripePages g.page cells).foldl (fun s x => snapLeave g.ctx die x (.page 2 gather member) s)
        (putGather die gather member g cells (dropMessage (replyTag gather member mirror) u)) := by
  have hhold : ¬ ((stripePages g.page cells).any fun x => snapHolds s g.ctx die x g.step) = true := by
    rw [List.any_eq_true]
    rintro ⟨x, hx, hheld⟩
    exact Bool.false_ne_true ((hfree x hx).1.symm.trans hheld)
  have hturn : ¬ ((stripePages g.page cells).any fun x => !snapTurn s g.ctx die x (.page 2 gather member)) = true := by
    rw [List.any_eq_true]
    rintro ⟨x, hx, hwaits⟩
    rw [(hfree x hx).2] at hwaits
    exact Bool.false_ne_true hwaits
  simp only [landStripes, if_neg hhold, if_neg hturn, hmarks]

/-- The state after the stripes of one request have been written. -/
def stripesPut (die gather member : Nat) (g : Gather) (cells : List Host.Cell) (p : Word64) (s : State) : State :=
  setReq die gather member .arrived (putStripes g.ctx die g.page (frameAddr p g.page) cells cells.length s)

section
variable {p : Word64} {a n : Nat} (hwalk : walk s g.ctx die g.page = .ok (p, a, n)) {h : Gather}
  (hh : tget ((stripesPut die gather member g cells p s).die die).gathers gather = some h)
include hwalk hh

theorem putGather_eq : putGather die gather member g cells s =
    if h.reqs.all fun r => r.2 == .arrived
    then updateLeaf g.ctx die g.page (fun q => pteSet q 1 3 4)
      ((stripesPut die gather member g cells p s).modDie die fun d => { d with gathers := tdel d.gathers gather })
    else stripesPut die gather member g cells p s := by
  rw [stripesPut] at hh
  simp only [putGather, hwalk, hh, stripesPut]

/-- After the last stripe the page is GATHERED. -/
theorem putGather_of_last (hall : ∀ r ∈ h.reqs, r.2 = .arrived) : putGather die gather member g cells s =
    updateLeaf g.ctx die g.page (fun q => pteSet q 1 3 4)
      ((stripesPut die gather member g cells p s).modDie die fun d => { d with gathers := tdel d.gathers gather }) :=
  (putGather_eq hwalk hh).trans (if_pos (List.all_eq_true.mpr fun r hr => beq_iff_eq.mpr (hall r hr)))

theorem putGather_of_open {r : Nat × ReqState} (hr : r ∈ h.reqs) (hopen : r.2 ≠ .arrived) :
    putGather die gather member g cells s = stripesPut die gather member g cells p s :=
  (putGather_eq hwalk hh).trans (if_neg fun hall => hopen (beq_iff_eq.mp (List.all_eq_true.mp hall r hr)))

end
end

/-! ### Migrations (R340) -/

section
variable {die mig : Nat} {s : State} {m : Migration} (hm : tget (s.die die).migs mig = some m)
include hm

section
variable {q p : Word64} {a b l n k : Nat} (hreply : m.reply = none) (hcome : ride 2 m.ctx die m.owner [7, mig] [] s = (.come, s))
  (hserves : serves s m.ctx m.owner = true) (howner : walk s m.ctx m.owner m.page = .ok (q, a, l))
  (hleaf : walk s m.ctx die m.page = .ok (p, b, n)) (hindex : peerIndex s m.ctx m.owner (s.mod.number, die) = some k)
include hreply hcome hserves howner hleaf hindex

theorem execMigrationHandover_of_come : execMigrationHandover die mig s =
    if pteState q = 0 && l = m.bytes && pteFrame p != 0 then
      .next (answerMig die mig m (some (pteF q 6 2))
        (updateLeaf m.ctx m.owner m.page (fun q => pteSet (pteSet (pteSet (pteSet q 1 3 1) 4 2 0) 24 25 0) 49 12 k)
          (movePage m.owner (frameAddr q m.page) die (frameAddr p m.page) m.bytes s)))
    else .next (answerMig die mig m none s) := by
  simp only [execMigrationHandover, hm, hreply, Option.isSome_none, Bool.false_eq_true, if_false, hcome, hserves, Bool.not_true,
    howner, hleaf, hindex]

/-- The owner hands a LOCAL page over. -/
theorem execMigrationHandover_of_local (hlocal : pteState q = 0) (hlen : l = m.bytes) (hframe : pteFrame p ≠ 0) :
    execMigrationHandover die mig s = .next (answerMig die mig m (some (pteF q 6 2))
        (updateLeaf m.ctx m.owner m.page (fun q => pteSet (pteSet (pteSet (pteSet q 1 3 1) 4 2 0) 24 25 0) 49 12 k)
          (movePage m.owner (frameAddr q m.page) die (frameAddr p m.page) m.bytes s))) := by
  rw [execMigrationHandover_of_come hm hreply hcome hserves howner hleaf hindex, if_pos]
  rw [hlocal, hlen, bne_iff_ne.mpr hframe]
  simp only [decide_true, Bool.and_self]

/-- The owner keeps a page that is not LOCAL. -/
theorem execMigrationHandover_of_other (hother : pteState q ≠ 0) :
    execMigrationHandover die mig s = .next (answerMig die mig m none s) := by
  rw [execMigrationHandover_of_come hm hreply hcome hserves howner hleaf hindex, if_neg]
  simp only [hother, decide_false, Bool.false_and, Bool.false_eq_true, not_false_eq_true]

end

section
variable (hcome : ride 2 m.ctx m.owner die [8, mig] [] s = (.come, s))
include hcome

/-- A page handed over becomes LOCAL with the owner's bits. -/
theorem execMigrationHandoverReply_of_page {bits : Nat} (hreply : m.reply = some (some bits)) :
    execMigrationHandoverReply die mig s =
      .next (updateLeaf m.ctx die m.page (fun q => pteSet (pteSet (pteSet (pteSet q 1 3 0) 4 2 0) 6 2 bits) 49 12 0)
        ((dropMessage [8, mig] s).modDie die fun d => { d with migs := tdel d.migs mig })) := by
  simp only [execMigrationHandoverReply, hm, Option.bind_some, hreply, Option.map_some, hcome]

/-- The count of a page the owner keeps starts from 0. -/
theorem execMigrationHandoverReply_of_refusal (hreply : m.reply = some none) :
    execMigrationHandoverReply die mig s = .next (modTlb m.ctx die m.page (fun e => { e with count := 0 })
      ((dropMessage [8, mig] s).modDie die fun d => { d with migs := tdel d.migs mig })) := by
  simp only [execMigrationHandoverReply, hm, Option.bind_some, hreply, Option.map_some, hcome]

end
end

/-! ### Local copies (R340) -/

/-- What a fill does at the owner: the page's parts are read and moved into the local copy. -/
def fetchPage (c die d page : Nat) (p : Word64) (s : State) : Ended Unit × State :=
  match fillParts c die d ((List.range (pageBytes p / 4096)).map fun i => page + 4096 * i) s with
  | (.done l, s) => (Ended.done (), l.foldl (fun s x => movePage x.2.1 x.2.2 die (frameAddr p x.1) 4096 s) s)
  | (.remote e k, s) => (.remote e k, s)
  | (_, s) => (.wait, s)

section
variable {die fill c page d : Nat} {s s1 : State} {p : Word64} (hf : tget (s.die die).fills fill = some (c, page))
  (hleaf : leafOf s c die page = (.ok p, s1)) (hstate : pteState p = 1) (hmode : pteMode p = 1)
  (hpeer : peerOf s1 c die (ptePeer p) = some (s1.mod.number, d))
include hf hleaf hstate hmode hpeer

theorem execMode1Fill_of_peer : execMode1Fill die fill s =
    match overMesh (fun _ => []) (fun _ => ()) [6, fill] 2 c die (if d = die then [] else ownerPath s1 c page d) id
      (fetchPage c die d page p) s1 with
    | (.done _, s) => .next (modTlb c die page (fun e => { e with valid := true }) (endFill die fill s))
    | (.remote e k, s) => .next (remoteEnd c e page k s)
    | (_, s) => .next s := by
  simp only [execMode1Fill, hf, hleaf, hstate, hmode, beq_self_eq_true, Bool.and_self, hpeer, bne_self_eq_false, Bool.false_eq_true,
    if_false]
  rfl

end

/-- Settles O46: each step by the branch of its definition that the premises choose. -/
theorem pageSteps : Obligations.PageSteps := by
  refine ⟨?request, ?reply, ?land, ?put, ?timeout, ?handover, ?handoverReply, ?fill⟩
  case request =>
    intro die gather member s g t mirror p gr d hask hgroup hasked hcome
    obtain ⟨hg, hr⟩ := hask
    have hexec := (exec_stripeRequest die gather member s).trans (execStripeRequest_of_come hg hr hgroup hasked hcome)
    refine ⟨fun hsilent => ?_, fun cells hserves hok => ?_, fun st hserves hrefused => ?_⟩
    · rw [hexec, hsilent]
      rfl
    · rw [hexec, hserves, hok]
      rfl
    · rw [hexec, hserves, hrefused]
      rfl
  case reply =>
    intro die gather member s g t mirror hcome
    exact ⟨fun cells ⟨hg, hr⟩ => (exec_gatherReply die gather member s).trans (execGatherReply_of_stripes hg hcome hr),
      fun st ⟨hg, hr⟩ => (exec_gatherReply die gather member s).trans (execGatherReply_of_refusal hg hcome hr)⟩
  case land =>
    intro die gather member mirror g cells s ps
    exact ⟨landStripes_held, fun u hfree hmarks => landStripes_free hfree hmarks⟩
  case put =>
    intro die gather member g cells s p a n hwalk u
    exact ⟨fun h hh hall => putGather_of_last hwalk hh hall, fun h r hh hr hopen => putGather_of_open hwalk hh hr hopen⟩
  case timeout =>
    intro die gather member s g r t hask hover lost
    obtain ⟨hg, hr⟩ := hask
    have hexec := exec_gatherTimeout die gather member s
    exact ⟨fun p gr m d hopen hgroup hmirror => hexec.trans (execGatherTimeout_mirror hg hr hover hopen hgroup hmirror),
      fun p gr hopen hgroup hnone => hexec.trans (execGatherTimeout_single hg hr hover hopen hgroup hnone),
      fun hopen => hexec.trans (execGatherTimeout_lost hg hr hover hopen)⟩
  case handover =>
    intro die mig s m hm hreply hcome
    have hexec := exec_migrationHandover die mig s
    exact ⟨fun q p a b n k hserves howner hleaf hindex hlocal hframe =>
        hexec.trans (execMigrationHandover_of_local hm hreply hcome hserves howner hleaf hindex hlocal rfl hframe),
      fun q p a b n l k hserves howner hleaf hindex hother =>
        hexec.trans (execMigrationHandover_of_other hm hreply hcome hserves howner hleaf hindex hother)⟩
  case handoverReply =>
    intro die mig s m hm hcome gone
    have hexec := exec_migrationHandoverReply die mig s
    exact ⟨fun bits hreply => hexec.trans (execMigrationHandoverReply_of_page hm hcome hreply),
      fun hreply => hexec.trans (execMigrationHandoverReply_of_refusal hm hcome hreply)⟩
  case fill =>
    intro die fill s c page p s1 d s2 hf hleaf hstate hmode hpeer fetch trip
    have hexec := (exec_mode1Fill die fill s).trans (execMode1Fill_of_peer hf hleaf hstate hmode hpeer)
    have htrip : overMesh (fun _ => []) (fun _ => ()) [6, fill] 2 c die (if d = die then [] else ownerPath s1 c page d) id
        (fetchPage c die d page p) s1 = trip := rfl
    rw [htrip] at hexec
    refine ⟨fun hdone => ?_, fun e k hremote => ?_⟩
    · rw [hexec, hdone]
    · rw [hexec, hremote]
      rfl

end Sys2Proof.Machine
end

section
/-! PROOFS. Rewards, joins, the turntable, releases and the learner queue (R383-R387). -/

namespace Sys2Proof.Machine

theorem exec_rewardMessage (die : Nat) (msg : List Byte) (s : State) :
    exec (.rewardMessage die msg) s = execRewardMessage die msg s := rfl
theorem exec_joinDeadline (die entry : Nat) (s : State) : exec (.joinDeadline die entry) s = execJoinDeadline die entry s := rfl
theorem exec_orphanExpiry (die orphan : Nat) (s : State) : exec (.orphanExpiry die orphan) s = execOrphanExpiry die orphan s := rfl
theorem exec_turntableScan (die entry : Nat) (s : State) : exec (.turntableScan die entry) s = execTurntableScan die entry s := rfl
theorem exec_episodeRelease (die entry : Nat) (s : State) :
    exec (.episodeRelease die entry) s = execEpisodeRelease die entry s := rfl
theorem exec_tjtakePop (wait : Nat) (s : State) : exec (.tjtakePop wait) s = execTjtakePop wait s := rfl

/-! ### Reward messages (R383) -/

/-- What is put into a table stands in it. -/
theorem mem_tput_same {α : Type} (t : Table α) (k : Nat) (v : α) : (k, v) ∈ tput t k v := by
  induction t with
  | nil => exact List.mem_singleton_self _
  | cons y t ih =>
    obtain ⟨j, w⟩ := y
    rw [tput]
    split
    · exact List.mem_cons_self
    · exact List.mem_cons_of_mem _ ih

/-- A pending reward message as it stands among the transfers. -/
theorem mem_pendingRewards {s : State} {die : Nat} {m : Nat × Nat × List Byte} : m ∈ pendingRewards s die ↔
    ∃ x ∈ s.mod.transfers, x.2.tag = [14, m.1] ∧ x.2.dst = die ∧ x.2.ctx = m.2.1 ∧ x.2.data = m.2.2 := by
  obtain ⟨n, c, data⟩ := m
  simp only [pendingRewards, List.mem_filterMap]
  refine exists_congr fun x => and_congr_right fun _ => ?_
  split
  next k htag =>
    rw [htag]
    split <;> simp_all [and_comm]
  next htag =>
    refine ⟨nofun, fun h => absurd h.1 (htag n)⟩

/-- A message that has come to a die waits there behind those before. -/
theorem mem_pendingRewards_queueReward {s : State} {die : Nat} {msg : List Byte} {m : Nat × Nat × List Byte}
    (h : m ∈ pendingRewards (queueReward die msg s) die) :
    m = (s.fresh, (msg.getD 7 0).toNat, msg) ∨ m ∈ pendingRewards s die := by
  obtain ⟨x, hx, htag, hdst, hctx, hdata⟩ := mem_pendingRewards.mp h
  obtain rfl | hold := mem_tput hx
  · simp only [List.cons.injEq, and_true, true_and] at htag
    exact .inl (Prod.ext htag.symm (Prod.ext hctx.symm hdata.symm))
  · exact .inr (mem_pendingRewards.mpr ⟨x, hold, htag, hdst, hctx, hdata⟩)

theorem queued_mem_pendingRewards (die : Nat) (msg : List Byte) (s : State) :
    (s.fresh, (msg.getD 7 0).toNat, msg) ∈ pendingRewards (queueReward die msg s) die :=
  mem_pendingRewards.mpr ⟨_, mem_tput_same _ _ _, rfl, rfl, rfl, rfl⟩

section
variable {die : Nat} {msg : List Byte} {s : State} (halone : ∀ m ∈ pendingRewards s die,
  m.1 ≠ s.fresh ∧ ¬ (m.2.1 = (msg.getD 7 0).toNat ∧ m.2.2.take 4 = msg.take 4))
include halone

/-- Of one number there is one message. -/
theorem find_queueReward : (pendingRewards (queueReward die msg s) die).find? (fun m => m.1 == s.fresh) =
    some (s.fresh, (msg.getD 7 0).toNat, msg) := by
  cases hfind : (pendingRewards (queueReward die msg s) die).find? (fun m => m.1 == s.fresh) with
  | none => exact absurd (beq_self_eq_true s.fresh) (List.find?_eq_none.mp hfind _ (queued_mem_pendingRewards die msg s))
  | some m =>
    have hnumber : (m.1 == s.fresh) = true := List.find?_some (p := fun m : Nat × Nat × List Byte => m.1 == s.fresh) hfind
    obtain rfl | hold := mem_pendingRewards_queueReward (List.mem_of_find?_eq_some hfind)
    · rfl
    · exact absurd (beq_iff_eq.mp hnumber) (halone m hold).1

/-- A message with none for its entry before it takes its turn at once. -/
theorem execRewardTurn_of_alone : execRewardTurn die s.fresh (queueReward die msg s) =
    .next (takeReward die s.fresh msg (queueReward die msg s)) := by
  have hfirst : ((pendingRewards (queueReward die msg s) die).takeWhile fun x => x.1 != s.fresh).any
      (fun x => x.2.1 == (msg.getD 7 0).toNat && x.2.2.take 4 == msg.take 4) = false := by
    rw [List.any_eq_false]
    intro m hm hsame
    simp only [Bool.and_eq_true, beq_iff_eq] at hsame
    obtain rfl | hold := mem_pendingRewards_queueReward (List.takeWhile_subset _ hm)
    · exact absurd (List.mem_takeWhile_imp hm) (by simp)
    · exact (halone m hold).2 hsame
  simp only [execRewardTurn, find_queueReward halone, hfirst, Bool.false_eq_true, if_false]

theorem execRewardMessage_of_alone (hlen : msg.length = 16) (hsafe : (s.die die).safe = false) (hstart : (s.die die).start = none) :
    execRewardMessage die msg s = .next (takeReward die s.fresh msg (queueReward die msg s)) := by
  simp only [execRewardMessage, hlen, bne_self_eq_false, hsafe, hstart, Option.isSome_none, Bool.or_self, Bool.false_eq_true, if_false,
    execRewardTurn_of_alone halone]

end

/-- A reward of a context that is not bound here is dropped. -/
theorem handleReward_of_unbound {h : Holder} {die c : Nat} {id : Word} {step : Nat} {term : Bool} {reward : Word} {bad : Bool} {s : State}
    (hbound : boundOn s c die = false) : handleReward h die c id step term reward bad s = (true, s) := by
  rw [handleReward, hbound]
  rfl

/-- A reward of an ID that names no entry becomes an orphan while there is room. -/
theorem handleReward_of_unknown {h : Holder} {die c : Nat} {id : Word} {step : Nat} {term : Bool} {reward : Word} {s : State}
    (hbound : boundOn s c die = true) (hstep : step < (s.junc die c).steps) (hnone : findEpisode s die c id = none) :
    let o : Orphan := ⟨c, id, step, term, reward, (s.die die).time + (s.junc die c).grace.toNat * unitsPerNs⟩
    handleReward h die c id step term reward false s =
      if 4096 ≤ (s.die die).orphans.length then (true, countJunc die c 0 s)
      else (true, (s.modDie die fun d => { d with orphans := tput d.orphans s.fresh o }).bump) := by
  simp only [handleReward, hbound, Bool.not_true, Bool.false_eq_true, if_false, Bool.false_or, decide_eq_true_eq,
    Nat.not_le.mpr hstep, hnone]

/-- A second reward for a step of an OPEN entry is refused. -/
theorem rewardWork_of_second {h : Holder} {die n step : Nat} {term : Bool} {reward : Word} {e : Episode} {bs : List Byte} {s t : State}
    (he : tget (s.die die).episodes n = some e) (hopen : e.st = .open_) (hstep : step < (s.junc die e.ctx).steps)
    (hread : readRecord h die n e step s = (.ok bs, t)) (hold : hasReward bs = true) :
    rewardWork h die n step term reward s = (true, countJunc die e.ctx 1 t) := by
  have hclosed : (EpState.open_ == EpState.closed) = false := rfl
  simp only [rewardWork, he, hopen, hclosed, Bool.false_and, Bool.or_false, beq_self_eq_true, hstep, decide_true, Bool.and_self, if_true,
    hread, thenWork_ok, hold]

/-! ### Deadlines (R384) -/

/-- An operation on an entry no other holds that waits at the page engine. -/
theorem onEntry_waits {h : Holder} {die n : Nat} {f : Episode → JStep} {e : Episode} {s t : State}
    (he : tget (s.die die).episodes n = some e) (hbusy : e.busy = none) (hf : f e s = (false, t)) :
    onEntry h die n f s = (false, modEpisode die n (fun e => { e with busy := some h }) t) := by
  rw [onEntry, he]
  simp only [hbusy, Option.any_none, Bool.false_eq_true, if_false, yieldEntry_of_free hbusy, hf]

/-- What the records read at a deadline make of their entry. -/
def joinRecords (die n : Nat) (e : Episode) (rs : List (List Byte)) (s : State) : State :=
  match rs.findIdx? fun bs => !hasReward bs with
  | none => joinEpisode die n id s
  | some 0 => countJunc die e.ctx 5 (modEpisode die n (fun e => { e with st := .expired }) s)
  | some t => countJunc die e.ctx 2 (joinEpisode die n (fun e =>
      { e with length := t, trunc := true, vb := natWord (fieldAt (rs.getD t []) 0 4) }) s)

/-- The operation of a deadline on its entry. -/
def joinWork (die n : Nat) (e : Episode) : JStep := fun s =>
  if e.st != .closed then (true, s)
  else thenWork (readRecords (.engine n) die n e (List.range e.length) s) fun rs s => (true, joinRecords die n e rs s)

theorem joinDue_eq (die n : Nat) (s : State) : joinDue die n s =
    match onEntry (.engine n) die n (joinWork die n) s with
    | (true, s) => s
    | (false, s) => modEpisode die n (fun e => { e with late := true }) s := rfl

section
variable {die n : Nat} {e : Episode} {s : State}

theorem joinRecords_of_all {rs : List (List Byte)} (hall : ∀ r ∈ rs, hasReward r = true) :
    joinRecords die n e rs s = joinEpisode die n id s := by
  have hnone : rs.findIdx? (fun bs => !hasReward bs) = none := by
    rw [List.findIdx?_eq_none_iff]
    intro r hr
    rw [hall r hr]
    rfl
  rw [joinRecords, hnone]

/-- The first step without a reward, after `pre`. -/
theorem findIdx_of_first {pre post : List (List Byte)} {r : List Byte} (hpre : ∀ q ∈ pre, hasReward q = true)
    (hr : hasReward r = false) : (pre ++ r :: post).findIdx? (fun bs => !hasReward bs) = some pre.length := by
  induction pre with
  | nil => simp [List.findIdx?_cons, hr]
  | cons q pre ih =>
    have hq := hpre q List.mem_cons_self
    simp [List.findIdx?_cons, hq, ih fun x hx => hpre x (List.mem_cons_of_mem _ hx)]

theorem joinRecords_of_none {r : List Byte} {rest : List (List Byte)} (hr : hasReward r = false) :
    joinRecords die n e (r :: rest) s = countJunc die e.ctx 5 (modEpisode die n (fun e => { e with st := .expired }) s) := by
  have hzero : (r :: rest).findIdx? (fun bs => !hasReward bs) = some 0 :=
    findIdx_of_first (pre := []) (fun _ hq => absurd hq List.not_mem_nil) hr
  rw [joinRecords, hzero]
  rfl

theorem joinRecords_of_some {pre post : List (List Byte)} {r : List Byte} (hne : pre ≠ []) (hpre : ∀ q ∈ pre, hasReward q = true)
    (hr : hasReward r = false) : joinRecords die n e (pre ++ r :: post) s = countJunc die e.ctx 2 (joinEpisode die n (fun e =>
      { e with length := pre.length, trunc := true, vb := natWord (fieldAt r 0 4) }) s) := by
  have hget : (pre ++ r :: post).getD pre.length [] = r := by simp
  obtain ⟨k, hk⟩ := Nat.exists_eq_succ_of_ne_zero (mt List.length_eq_zero_iff.mp hne)
  simp only [joinRecords, findIdx_of_first hpre hr, hk]
  rw [← hk, hget]

section
variable (he : tget (s.die die).episodes n = some e) (hclosed : e.st = .closed) (hdue : e.due ≤ (s.die die).time) (hbusy : e.busy = none)
include he hclosed hdue

theorem execJoinDeadline_of_due : execJoinDeadline die n s = .next (joinDue die n s) := by
  simp only [execJoinDeadline, he, hclosed, bne_self_eq_false, Nat.not_lt.mpr hdue, decide_false, Bool.or_self, Bool.false_eq_true,
    if_false]

include hbusy

/-- The records have been read, or their store has dropped the entry: the deadline is over. -/
theorem execJoinDeadline_ends {t : State} (hwork : joinWork die n e s = (true, t)) :
    execJoinDeadline die n s = .next (dropAnswers (.engine n) t) := by
  rw [execJoinDeadline_of_due he hclosed hdue, joinDue_eq, onEntry_of_free he hbusy hwork]

theorem execJoinDeadline_waits {t : State} (hwork : joinWork die n e s = (false, t)) :
    execJoinDeadline die n s = .next (modEpisode die n (fun e => { e with late := true })
      (modEpisode die n (fun e => { e with busy := some (.engine n) }) t)) := by
  rw [execJoinDeadline_of_due he hclosed hdue, joinDue_eq, onEntry_waits he hbusy hwork]

end

theorem joinWork_of_closed (hclosed : e.st = .closed) : joinWork die n e s =
    thenWork (readRecords (.engine n) die n e (List.range e.length) s) fun rs s => (true, joinRecords die n e rs s) := by
  rw [joinWork, hclosed]
  rfl

theorem joinWork_of_read {rs : List (List Byte)} {t : State} (hclosed : e.st = .closed)
    (hread : readRecords (.engine n) die n e (List.range e.length) s = (.ok rs, t)) :
    joinWork die n e s = (true, joinRecords die n e rs t) := by
  rw [joinWork_of_closed hclosed, hread, thenWork_ok]

end

/-! ### Orphans, the turntable and releases (R383, R385, R386) -/

theorem execOrphanExpiry_of_due {die orphan : Nat} {s : State} {o : Orphan} (ho : tget (s.die die).orphans orphan = some o)
    (hdue : o.at_ ≤ (s.die die).time) (hnone : findEpisode s die o.ctx o.id = none) : execOrphanExpiry die orphan s =
      .next (countJunc die o.ctx 0 (s.modDie die fun d => { d with orphans := tdel d.orphans orphan })) := by
  simp only [execOrphanExpiry, ho, hdue, decide_true, hnone, Option.isNone_none, Bool.and_self, if_true]

/-- The scan's writes for the records it has read (R385). -/
def scanWrites (p : Word × Word) (e : Episode) (rs : List (List Byte)) : List (Nat × Nat × List Byte) :=
  (scanAll p.1.toNat (fMul fp32 .rn p.1.toNat p.2.toNat).bits (rs.zipIdx.map fun x => (x.2, x.1)).reverse e.vb.toNat 0).flatMap fun x =>
    [(x.1, 0, leBytes 4 x.2.1), (x.1, 8, leBytes 4 x.2.2.1 ++ leBytes 4 (BitVec.ofNat 32 x.2.2.2 ||| 8 : Word).toNat)]

/-- The operation of the turntable on an entry. -/
def scanWork (die n : Nat) (p : Word × Word) (e : Episode) : JStep := fun s =>
  thenWork (readRecords (.engine n) die n e (List.range e.length) s) fun rs s =>
    thenWork (writeRecords (.engine n) die n e (scanWrites p e rs) s) fun _ s =>
      (true, modEpisode die n (fun e => { e with st := .scanned, term := rs.any isTerminal }) s)

section
variable {die n : Nat} {s : State} {e : Episode} (he : tget (s.die die).episodes n = some e)
include he

theorem execTurntableScan_of_next (hnext : takesNext (s.die die) e = true) : execTurntableScan die n s =
    if e.scan.isNone && stale (s.junc die e.ctx) e then
      .next (countJunc die e.ctx 3 (modEpisode die n (fun e => { e with st := .dropped }) s))
    else
      let p := e.scan.getD ((s.junc die e.ctx).gamma, (s.junc die e.ctx).lambda)
      match onEntry (.engine n) die n (scanWork die n p) s with
      | (true, s) => .next s
      | (false, s) => .next (modEpisode die n (fun e => { e with scan := some p }) s) := by
  simp only [execTurntableScan, he, hnext, Bool.not_true, Bool.false_eq_true, if_false]
  rfl

theorem execTurntableScan_of_stale (hnext : takesNext (s.die die) e = true) (hfresh : e.scan = none)
    (hstale : stale (s.junc die e.ctx) e = true) : execTurntableScan die n s =
      .next (countJunc die e.ctx 3 (modEpisode die n (fun e => { e with st := .dropped }) s)) := by
  rw [execTurntableScan_of_next he hnext, hfresh, hstale]
  rfl

theorem execTurntableScan_of_records {rs : List (List Byte)} {s1 s2 : State} (hnext : takesNext (s.die die) e = true)
    (hgoes : e.scan ≠ none ∨ stale (s.junc die e.ctx) e = false) (hbusy : e.busy = none)
    (hread : readRecords (.engine n) die n e (List.range e.length) s = (.ok rs, s1))
    (hwrite : writeRecords (.engine n) die n e
      (scanWrites (e.scan.getD ((s.junc die e.ctx).gamma, (s.junc die e.ctx).lambda)) e rs) s1 = (.ok (), s2)) :
    execTurntableScan die n s = .next (dropAnswers (.engine n)
      (modEpisode die n (fun e => { e with st := .scanned, term := rs.any isTerminal }) s2)) := by
  have hkept : ¬ (e.scan.isNone && stale (s.junc die e.ctx) e) = true := by
    simp only [Bool.and_eq_true, Option.isNone_iff_eq_none, not_and, Bool.not_eq_true]
    exact fun hfresh => hgoes.resolve_left (absurd hfresh)
  have hwork : scanWork die n (e.scan.getD ((s.junc die e.ctx).gamma, (s.junc die e.ctx).lambda)) e s =
      (true, modEpisode die n (fun e => { e with st := .scanned, term := rs.any isTerminal }) s2) := by
    rw [scanWork, hread, thenWork_ok, hwrite, thenWork_ok]
  rw [execTurntableScan_of_next he hnext, if_neg hkept]
  simp only [onEntry_of_free he hbusy hwork]

theorem execEpisodeRelease_of_first (hscanned : e.st = .scanned)
    (hfirst : ∀ k x, (k, x) ∈ (s.die die).episodes → x.ctx = e.ctx → x.joinedBefore e = true → x.st.over = true)
    (hroom : ((s.junc die e.ctx).p - (s.junc die e.ctx).c).toNat < 256) : execEpisodeRelease die n s =
      .next (countJunc die e.ctx 6 (modEpisode die n (fun e => { e with st := .released })
        (modJunc die e.ctx (fun j => { j with queue := j.queue ++ [queueEntry e], p := j.p + 1 }) s))) := by
  have hnone : tany (s.die die).episodes (fun _ x => x.ctx == e.ctx && x.joinedBefore e && !x.st.over) = false := by
    rw [tany, List.any_eq_false]
    rintro ⟨k, x⟩ hx hall
    simp only [Bool.and_eq_true, beq_iff_eq, Bool.not_eq_true'] at hall
    exact Bool.false_ne_true (hall.2.symm.trans (hfirst k x hx hall.1.1 hall.1.2))
  simp only [execEpisodeRelease, he, hscanned, beq_self_eq_true, hnone, Bool.not_false, hroom, decide_true, Bool.and_self, if_true]

end

/-! ### The learner queue (R387) -/

section
variable {wait die : Nat} {s : State} {t : TakeWait}

theorem endTake_of_reg {bs : List Byte} (hdst : t.dst < 512) : endTake die wait t bs s = reapWarp t.warp
    ((s.modDie die fun d => { d with takes := tdel d.takes wait }).modThread t.warp t.lane (landQuad t.win t.dst bs)) := by
  rw [endTake, if_neg (Nat.not_le.mpr hdst)]

/-- The lane that has waited longest pops. -/
theorem execTjtakePop_of_first {c : Nat} {bs : List Byte} {rest : List (List Byte)}
    (hwait : (s.dies.findSome? fun d => (tget d.2.takes wait).map fun t => (d.1, t.ctx)) = some (die, c))
    (hfirst : firstTake s die c = some (wait, t)) (hqueue : (s.junc die c).queue = bs :: rest) :
    execTjtakePop wait s =
      .next (endTake die wait t bs (modJunc die c (fun j => { j with queue := rest, c := j.c + 1 }) s)) := by
  obtain ⟨x, hx, rfl⟩ : ∃ x, (s.dies.findSome? fun d => (tget d.2.takes wait).map fun t => (d.1, t)) = some (die, x) ∧ x.ctx = c := by
    have hmap : (s.dies.findSome? fun d => (tget d.2.takes wait).map fun t => (d.1, t)).map (fun y => (y.1, y.2.ctx)) =
        some (die, c) := by
      rw [List.map_findSome?, ← hwait]
      exact congrArg (s.dies.findSome? ·) (funext fun d => Option.map_map _ _ _)
    obtain ⟨⟨d, x⟩, hx, heq⟩ := Option.map_eq_some_iff.mp hmap
    simp only [Prod.mk.injEq] at heq
    obtain ⟨rfl, hctx⟩ := heq
    exact ⟨x, hx, hctx⟩
  simp only [execTjtakePop, hx, hfirst, Option.map_some, beq_self_eq_true, if_true, popTake, hqueue, Option.getD_some]

/-- A lane of .try takes zeros from an empty queue. -/
theorem execTjtakePop_of_empty (hwait : (s.dies.findSome? fun d => (tget d.2.takes wait).map fun t => (d.1, t)) = some (die, t))
    (htry : t.try_ = true) (hqueue : (s.junc die t.ctx).queue = [])
    (hstands : (((s.warp? t.warp).bind Warp.block).map s.parked).getD false = false)
    (hfirst : (firstTake s die t.ctx).map Prod.fst = some wait → firstTake s die t.ctx = some (wait, t)) :
    execTjtakePop wait s = .next (endTake die wait t noEntry s) := by
  by_cases hturn : (firstTake s die t.ctx).map Prod.fst = some wait
  · simp only [execTjtakePop, hwait, hfirst hturn, Option.map_some, beq_self_eq_true, if_true, popTake, hqueue, htry, Option.getD_some]
  · simp only [execTjtakePop, hwait, beq_iff_eq, hturn, if_false, htry, hqueue, List.isEmpty_nil, hstands, Bool.not_false, Bool.and_self,
      if_true]

end

/-- Settles O50: each step by the branch of its definition that the premises choose. -/
theorem trajectorySteps : Obligations.TrajectorySteps := by
  refine ⟨?message, ?take, ?handle, ?reward, ?deadline, ?orphan, ?scan, ?release, ?pop, ?zeros⟩
  case message =>
    intro die msg s hlen hsafe hstart halone
    exact (exec_rewardMessage die msg s).trans (execRewardMessage_of_alone halone hlen hsafe hstart)
  case take =>
    intro die n msg s k t hhandle
    rw [takeReward]
    simp only [hhandle]
    cases k <;> rfl
  case handle =>
    intro h die c id step term reward bad s o ends
    refine ⟨handleReward_of_unbound, handleReward_of_bad, fun hbound hgood hstep => ?_⟩
    subst hgood
    have hunknown := handleReward_of_unknown (h := h) (id := id) (term := term) (reward := reward) hbound hstep
    exact ⟨fun n e hfound => handleReward_of_found hbound hstep hfound,
      fun hnone hroom => (hunknown hnone).trans (if_neg (Nat.not_le.mpr hroom)),
      fun hnone hfull => (hunknown hnone).trans (if_pos hfull)⟩
  case reward =>
    intro h die n step term reward s e bs s1 he hopen hstep hread
    exact ⟨fun hold => rewardWork_of_second he hopen hstep hread hold,
      fun s2 hnew hwrite => rewardWork_of_open he hopen hstep hread hnew hwrite⟩
  case deadline =>
    intro die entry s e he hclosed hdue hbusy done
    have hends := fun {t} hwork => (exec_joinDeadline die entry s).trans (execJoinDeadline_ends (t := t) he hclosed hdue hbusy hwork)
    refine ⟨fun rs s1 hread => ?_, fun s1 hdropped => ?_, fun s1 hwaits => ?_⟩
    · have hread := hends (joinWork_of_read hclosed hread)
      refine ⟨fun hall => ?_, fun r rest hrs hr => ?_, fun pre r post hrs hne hpre hr => ?_⟩
      · rw [hread, joinRecords_of_all hall]
      · rw [hread, hrs, joinRecords_of_none hr]
      · rw [hread, hrs, joinRecords_of_some hne hpre hr]
    · exact hends (by rw [joinWork_of_closed hclosed, hdropped]; rfl)
    · exact (exec_joinDeadline die entry s).trans
        (execJoinDeadline_waits he hclosed hdue hbusy (by rw [joinWork_of_closed hclosed, hwaits]; rfl))
  case orphan =>
    intro die orphan s o ho hdue hnone
    exact (exec_orphanExpiry die orphan s).trans (execOrphanExpiry_of_due ho hdue hnone)
  case scan =>
    intro die entry s e he hnext j
    have hexec := exec_turntableScan die entry s
    refine ⟨fun hfresh hstale => hexec.trans (execTurntableScan_of_stale he hnext hfresh hstale), fun rs s1 s2 hgoes hbusy hread => ?_⟩
    intro p out hwrite
    exact hexec.trans (execTurntableScan_of_records he hnext hgoes hbusy hread hwrite)
  case release =>
    intro die entry s e he hscanned j hfirst hroom
    exact (exec_episodeRelease die entry s).trans (execEpisodeRelease_of_first he hscanned hfirst hroom)
  case pop =>
    intro wait s die c t bs rest hwait hfirst hqueue hdst
    rw [exec_tjtakePop, execTjtakePop_of_first hwait hfirst hqueue, endTake_of_reg hdst]
  case zeros =>
    intro wait s die t hwait htry hqueue hstands hdst hfirst
    rw [exec_tjtakePop, execTjtakePop_of_empty hwait htry hqueue hstands hfirst, endTake_of_reg hdst]
    rfl

end Sys2Proof.Machine
end

section
/-! PROOFS. The cut and the drain of a snapshot (R392-R396). -/

namespace Sys2Proof.Machine

theorem exec_cut (die ctx : Nat) (s : State) : exec (.cut die ctx) s = execCut die ctx s := rfl
theorem exec_pageDrainAck (die ctx page : Nat) (s : State) :
    exec (.pageDrainAck die ctx page) s = execPageDrainAck die ctx page s := rfl

/-! ### The cut (R392) -/

/-- A die may cut when no share decides, its share has completed the step, or its share has ended. -/
theorem cutDue_of_reached {s : State} {sn : Snapshot} (h : sn.share = none ∨ ∃ k h, sn.share = some k ∧ s.share? k = some h ∧
    ((h.done - sn.step).toNat < 2 ^ 31 ∨ h.ended = true)) : cutDue s sn = true := by
  obtain hnone | ⟨k, h, hk, hh, hdue⟩ := h
  · simp only [cutDue, hnone, Option.bind_none]
  · simp only [cutDue, hk, Option.bind_some, hh, Bool.or_eq_true, decide_eq_true_eq]
    exact hdue

theorem cutDue_of_before {s : State} {sn : Snapshot} {k : Nat} {h : Share} (hk : sn.share = some k) (hh : s.share? k = some h)
    (hbefore : 2 ^ 31 ≤ (h.done - sn.step).toNat) (hlives : h.ended = false) : cutDue s sn = false := by
  simp only [cutDue, hk, Option.bind_some, hh, hlives, Bool.or_false, decide_eq_false_iff_not]
  exact Nat.not_lt.mpr hbefore

section
variable {die ctx : Nat} {s : State} {sn : Snapshot} (hsn : tget (s.die die).snaps ctx = some sn)
include hsn

/-- The marks of a cut, and the writes it lets go. -/
theorem cutDie_of_armed (harmed : sn.st = .armed) :
    let rs := sn.pages.zipIdx.map fun x => cutPage s ctx die (x.2, x.1)
    let t := s.modDie die fun d => { d with snaps := tput d.snaps ctx { sn with
      st := .cut, todo := rs.filterMap fun r => r.1.map fun y => (y.1, y.2.1)
      leaves := rs.filterMap fun r => r.1.map Prod.snd, skipped := (rs.map Prod.snd).sum } }
    cutDie die ctx s = { t with
      ops := tmap t.ops fun _ o => if o.ctx = ctx ∧ o.st = .held then { o with st := .sent } else o } := by
  simp only [cutDie, hsn, harmed, if_true, Bool.and_eq_true, beq_iff_eq]

theorem execCut_of_due (hopen : s.shut die = false) (harmed : sn.st = .armed) (hdue : cutDue s sn = true) :
    execCut die ctx s = .next (snapDone die ctx (cutDie die ctx s)) := by
  simp only [execCut, hsn, hopen, Bool.false_eq_true, if_false, harmed, hdue, decide_true, Bool.and_self, if_true]

theorem execCut_of_before (harmed : sn.st = .armed) (hbefore : cutDue s sn = false) : execCut die ctx s = .next s := by
  simp only [execCut, hsn, harmed, hbefore, Bool.and_false, Bool.false_eq_true, if_false, reduceCtorEq, ite_self]

theorem execCut_of_cut (hopen : s.shut die = false) (hcut : sn.st = .cut) : execCut die ctx s = .next (snapDone die ctx s) := by
  simp only [execCut, hsn, hopen, hcut, reduceCtorEq, decide_false, Bool.false_and, Bool.false_eq_true, if_false, if_true]

/-! ### The drain (R394-R396) -/

section
variable {page p : Nat} {rest : List (Nat × Nat)} (hopen : s.shut die = false) (hst : sn.st = .cut ∨ sn.st = .draining)
  (htodo : sn.todo = (p, page) :: rest)
include hopen hst htodo

/-- The first marked page of a set that drains. -/
theorem execPageDrainAck_of_first : execPageDrainAck die ctx page s =
    if sn.flight.isNone then .next (sendPage die ctx p page sn s)
    else if drainOut s die ctx sn then .next s
    else .next (snapDone die ctx (s.modDie die fun d => { d with
      spare := match tget sn.copies page with
        | some f => tdel d.spare f
        | none => d.spare
      snaps := tput d.snaps ctx { sn with
        st := .draining, todo := rest, copies := tdel sn.copies page, wrote := sn.wrote + 1, flight := none } })) := by
  have hdrains : (sn.st == .cut || sn.st == .draining) = true := by simpa using hst
  simp only [execPageDrainAck, hsn, hdrains, Bool.not_true, hopen, Bool.or_self, Bool.false_eq_true, if_false, htodo, List.head?_cons,
    bne_self_eq_false, List.tail_cons] <;> rfl

theorem execPageDrainAck_sends (hidle : sn.flight = none) :
    execPageDrainAck die ctx page s = .next (sendPage die ctx p page sn s) := by
  rw [execPageDrainAck_of_first hsn hopen hst htodo, hidle]
  rfl

theorem execPageDrainAck_waits (hflight : sn.flight ≠ none) (hout : drainOut s die ctx sn = true) :
    execPageDrainAck die ctx page s = .next s := by
  rw [execPageDrainAck_of_first hsn hopen hst htodo, if_neg (mt Option.isNone_iff_eq_none.mp hflight), if_pos hout]

theorem execPageDrainAck_clears (hflight : sn.flight ≠ none) (hacked : drainOut s die ctx sn = false) :
    execPageDrainAck die ctx page s = .next (snapDone die ctx (s.modDie die fun d => { d with
      spare := match tget sn.copies page with
        | some f => tdel d.spare f
        | none => d.spare
      snaps := tput d.snaps ctx { sn with
        st := .draining, todo := rest, copies := tdel sn.copies page, wrote := sn.wrote + 1, flight := none } })) := by
  rw [execPageDrainAck_of_first hsn hopen hst htodo, if_neg (mt Option.isNone_iff_eq_none.mp hflight), if_neg]
  rw [hacked]
  exact Bool.false_ne_true

end
end

/-- A die without uncorrectable units sends the bytes of its memory. -/
theorem sentBytes_of_good {s : State} {die : Nat} (hgood : (s.die die).bad = []) (a n : Nat) :
    sentBytes s die a n = mbytes (s.die die).dram a n := by
  simp only [sentBytes, tableBad, badIn_nil hgood, List.isEmpty_nil, Bool.not_true, Bool.false_eq_true, if_false, mbytes]

theorem sendPage_of_good {die ctx p page : Nat} {sn : Snapshot} {s : State} (hflow : (outFlow 3 die sn.smod sn.sdie s).2.1.failed = false)
    (hgood : (s.die die).bad = []) :
    let leaf := tgetD sn.leaves page 0
    let a := ((tget sn.copies page).map fun f => 4096 * f).getD (frameAddr leaf page / 4096 * 4096)
    let parts := drainParts s ctx die page leaf
    let ps := parts.map fun x => mbytes (s.die die).dram (a + x.1) x.2
    sendPage die ctx p page sn s = (sendData 3 die sn.smod sn.sdie ctx ps
      ((s.modDie die fun d => { d with snaps := tput d.snaps ctx { sn with st := .draining, flight := some page } }).modMod fun m =>
        { m with storage := m.storage ++ (parts.zip ps).map fun x => (die, sn.sbase + 4096 * p + x.1.1, x.2) })).2.2 := by
  have hclean : ∀ ps : List (Nat × Nat), ∀ a, (ps.any fun x => tableBad s die (a + x.1) x.2) = false := fun ps a => by
    simp only [tableBad, badIn_nil hgood, List.isEmpty_nil, Bool.not_true, List.any_eq_false, Bool.false_eq_true, not_false_eq_true,
      implies_true]
  simp only [sendPage, hflow, Bool.false_eq_true, if_false, hclean, sentBytes_of_good hgood]

/-! ### What a die writes of a page (R395) -/

section
variable {s : State} {c die x : Nat} {p : Word64}

theorem drainParts_of_local (hlocal : pteState p = 0) : drainParts s c die x p = [(0, 4096)] := if_pos hlocal

theorem drainParts_of_striped {g : Group} (hst : pteState p = 2 ∨ pteState p = 4) (hg : groupOf s c die (pteGroup p) = some g) :
    drainParts s c die x p = ((List.range (4096 / stripeBytes p)).filter fun i =>
      g.own (s.mod.number, die) ((x % pageBytes p / stripeBytes p + i) % g.n)).map fun i => (stripeBytes p * i, stripeBytes p) := by
  have hnonlocal : pteState p ≠ 0 := by omega
  have hstriped : (decide (pteState p = 2) || decide (pteState p = 4)) = true := by simpa using hst
  simp only [drainParts, hnonlocal, if_false, hstriped, if_true, hg]

theorem drainParts_of_other (hnonlocal : pteState p ≠ 0) (hsharded : pteState p ≠ 2) (hgathered : pteState p ≠ 4) :
    drainParts s c die x p = [] := by
  simp only [drainParts, hnonlocal, hsharded, hgathered, decide_false, Bool.or_self, Bool.false_eq_true, if_false]

/-- A die writes its own stripes of a striped page, each at its offset. -/
theorem mem_drainParts_of_striped {g : Group} (hst : pteState p = 2 ∨ pteState p = 4) (hg : groupOf s c die (pteGroup p) = some g)
    (o n : Nat) : (o, n) ∈ drainParts s c die x p ↔ n = stripeBytes p ∧ o < 4096 / n * n ∧ o % n = 0 ∧
      g.own (s.mod.number, die) ((x % pageBytes p / n + o / n) % g.n) = true := by
  simp only [drainParts_of_striped hst hg, List.mem_map, List.mem_filter, List.mem_range, Prod.mk.injEq]
  constructor
  · rintro ⟨i, ⟨hi, hown⟩, rfl, rfl⟩
    have hpos : 0 < stripeBytes p := Nat.pos_of_ne_zero fun hzero => by simp [hzero] at hi
    refine ⟨rfl, ?_, Nat.mul_mod_right _ _, ?_⟩
    · rw [Nat.mul_comm]
      exact Nat.mul_lt_mul_of_pos_right hi hpos
    · rwa [Nat.mul_div_cancel_left _ hpos]
  · rintro ⟨rfl, hlt, hmod, hown⟩
    have hpos : 0 < stripeBytes p := Nat.pos_of_ne_zero fun hzero => by simp [hzero] at hlt
    exact ⟨o / stripeBytes p, ⟨(Nat.div_lt_iff_lt_mul hpos).mpr hlt, hown⟩, Nat.mul_div_cancel' (Nat.dvd_of_mod_eq_zero hmod), rfl⟩

end

/-- Settles O51: each step by the branch of its definition that the premises choose. -/
theorem snapshotSteps : Obligations.SnapshotSteps := by
  refine ⟨?due, ?before, ?again, ?drain, ?send, ?parts⟩
  case due =>
    intro die ctx s sn hsn hopen harmed hreached rs t
    rw [exec_cut, execCut_of_due hsn hopen harmed (cutDue_of_reached hreached), cutDie_of_armed hsn harmed]
  case before =>
    intro die ctx s sn k h hsn harmed hk hh hbefore hlives
    exact (exec_cut die ctx s).trans (execCut_of_before hsn harmed (cutDue_of_before hk hh hbefore hlives))
  case again =>
    intro die ctx s sn hsn hopen hcut
    exact (exec_cut die ctx s).trans (execCut_of_cut hsn hopen hcut)
  case drain =>
    intro die ctx page s sn p rest hsn hopen hst htodo
    have hexec := exec_pageDrainAck die ctx page s
    exact ⟨fun hidle => hexec.trans (execPageDrainAck_sends hsn hopen hst htodo hidle),
      fun hflight hout => hexec.trans (execPageDrainAck_waits hsn hopen hst htodo hflight hout),
      fun hflight hacked => hexec.trans (execPageDrainAck_clears hsn hopen hst htodo hflight hacked)⟩
  case send =>
    intro die ctx p page sn s leaf a parts ps hflow hgood
    exact sendPage_of_good hflow hgood
  case parts =>
    intro s c die x p
    exact ⟨drainParts_of_local, fun g hst hg o n => mem_drainParts_of_striped hst hg o n, drainParts_of_other⟩

end Sys2Proof.Machine
end

section
/-! PROOFS. The collective engine's steps (R357, R361-R368). -/

namespace Sys2Proof.Machine

theorem exec_graphLoadAtPlacement (share : Nat) (s : State) :
    exec (.graphLoadAtPlacement share) s = execGraphLoadAtPlacement share s := rfl
theorem exec_carmStart (share slot : Nat) (s : State) : exec (.carmStart share slot) s = execCarmStart share slot s := rfl
theorem exec_chunkOffer (chunk : Nat) (s : State) : exec (.chunkOffer chunk) s = execChunkOffer chunk s := rfl
theorem exec_nodeComplete (run node : Nat) (s : State) : exec (.nodeComplete run node) s = execNodeComplete run node s := rfl
theorem exec_runComplete (run : Nat) (s : State) : exec (.runComplete run) s = execRunComplete run s := rfl

/-! ### Images and armed starts (R357, R368) -/

/-- The image a die share's directory entry names is loaded into the first slot. -/
theorem execGraphLoadAtPlacement_of_image {share : Nat} {s s1 s2 : State} {h : Share} {bs : List Byte} {g : Graph}
    (hh : s.share? share = some h) (hnew : h.loaded = false) (hplaced : h.placed = true)
    (hdir : ((s.kernel? h.kern).map fun k => k.launch.graph).getD 0 ≠ 0)
    (hread : readBytes (.engine share) h.ctx h.die (((s.kernel? h.kern).map fun k => k.launch.graph).getD 0 + 8 * h.index) 8 s = (.ok bs, s1))
    (haddr : leNat bs ≠ 0) (himage : loadImage share 0 h (leNat bs) s1 = (some (.ok g), s2)) :
    execGraphLoadAtPlacement share s =
      .next ((setGraph share 0 (some g) s2).modShare share fun h => { h with loaded := true }) := by
  simp only [execGraphLoadAtPlacement, hh, hnew, hplaced, Bool.not_true, Bool.false_eq_true, if_false, hdir, hread, haddr, himage]

theorem execCarmStart_of_due {share slot : Nat} {s : State} {h : Share} {a : Armed} (hh : s.share? share = some h)
    (ha : tget h.armed slot = some a) (hdue : a.at_ * unitsPerNs ≤ (s.die h.die).time) :
    execCarmStart share slot s = .next (startRun share slot a.bases a.bad a.token
      (s.modShare share fun h => { h with armed := tdel h.armed slot })) := by
  simp only [execCarmStart, hh, Option.bind_some, ha, Option.map_some, hdue, if_true]

/-! ### Chunks offered (R364) -/

section
variable {chunk : Nat} {s : State} {c : Chunk} {g h : Share} (hc : tget s.chunks chunk = some c) (hg : s.share? c.src = some g)
  (hh : s.share? c.dst = some h)
include hc hg hh

/-- The data of a chunk that has been accepted follows. -/
theorem execChunkOffer_of_accepted (hplace : c.place ≠ .sender) :
    execChunkOffer chunk s = .next (moveChunk chunk c g.die h.die h.ctx s) := by
  simp only [execChunkOffer, hc, hg, hh, bne_iff_ne.mpr hplace, if_true]

section
variable (hplace : c.place = .sender)
include hplace

theorem execChunkOffer_of_come (hcome : ride 0 h.ctx g.die h.die [9, chunk] [] s = (.come, s)) (hsafe : (s.die h.die).safe = false)
    (hstart : (s.die h.die).start = none) : execChunkOffer chunk s = .next (placeChunk chunk c g.die h s) := by
  simp only [execChunkOffer, hc, hg, hh, hplace, bne_self_eq_false, Bool.false_eq_true, if_false, hcome, hsafe, hstart, Option.isSome_none,
    Bool.or_self]

theorem execChunkOffer_of_cut {t : State} (hcut : ride 0 h.ctx g.die h.die [9, chunk] [] s = (.cut, t)) :
    execChunkOffer chunk s = .next (remoteEnd h.ctx h.die 0 0 t) := by
  simp only [execChunkOffer, hc, hg, hh, hplace, bne_self_eq_false, Bool.false_eq_true, if_false, hcut]

theorem execChunkOffer_of_under {t : State} (hunder : ride 0 h.ctx g.die h.die [9, chunk] [] s = (.under, t)) :
    execChunkOffer chunk s = .next t := by
  simp only [execChunkOffer, hc, hg, hh, hplace, bne_self_eq_false, Bool.false_eq_true, if_false, hunder]

end
end

/-! ### Where a receiver takes a chunk (R364) -/

/-- The chunks that stand in a slot's places. -/
def slotsUsed (s : State) (c : Chunk) : Nat :=
  (s.chunks.filter fun y => y.2.dst == c.dst && y.2.slot == c.slot && y.2.place == .slot).length

/-- The bytes of a chunk written into its slot's pool from its tail on. -/
def putPool (g : Graph) (tail : Nat) (c : Chunk) (s : State) : Unit × State :=
  ((), s.modMod fun m => { m with
    hostMem := msetAll m.hostMem (c.data.zipIdx.map fun b => (g.pool + (tail + b.2) % g.poolb, b.1)) })

section
variable {id : Nat} {c : Chunk} {src : Nat} {h : Share} {s : State}

theorem placeChunk_of_recv {who : Nat × Nat} (hrecv : readyRecv s c = some who) (hfirst : earlierChunk s c = false) :
    placeChunk id c src h s = acceptChunk id { c with place := .landed, taker := some who } src h s := by
  simp only [placeChunk, hrecv, hfirst]

section
variable {g : Graph} (hnone : readyRecv s c = none) (hg : tget h.graphs c.slot = some g)
include hnone hg

theorem placeChunk_of_slot (hfree : slotsUsed s c < g.nslot) (hfits : c.data.length ≤ g.slotb) :
    placeChunk id c src h s = acceptChunk id { c with place := .slot } src h s := by
  rw [slotsUsed] at hfree
  simp only [placeChunk, hnone, hg, hfree, hfits, decide_true, Bool.and_self, if_true]

section
variable (hfull : g.nslot ≤ slotsUsed s c)
include hfull

section
variable (hpool : g.pool ≠ 0) (hpoolb : g.poolb ≠ 0)
  (hroom : poolUsed s c.dst c.slot g (tgetD h.tails c.slot 0) + c.data.length ≤ g.poolb)
include hpool hpoolb hroom

/-- With every place of its slot taken, a chunk goes into the slot's pool by a host request. -/
theorem placeChunk_of_pool : placeChunk id c src h s =
    if (hostReqOf s c.run c.node).isNone then (if poolBusy s id c then s else newHostReq c.run c.node h s)
    else match atHost (fun _ => []) (fun _ => ()) c.run c.node h.ctx h.die (putPool g (tgetD h.tails c.slot 0) c) s with
      | (.done (), s) => acceptChunk id { c with place := .pool, pos := tgetD h.tails c.slot 0 } src h
          (s.setShare c.dst { h with tails := tput h.tails c.slot ((tgetD h.tails c.slot 0 + c.data.length) % g.poolb) })
      | (e, s) => hostCut h.ctx e s := by
  rw [slotsUsed] at hfull
  simp only [placeChunk, hnone, hg, Nat.not_lt.mpr hfull, decide_false, Bool.false_and, Bool.false_eq_true, if_false,
    bne_iff_ne.mpr hpool, bne_iff_ne.mpr hpoolb, hroom, decide_true, Bool.and_self, if_true]
  rfl

theorem placeChunk_of_pool_ask (hreq : hostReqOf s c.run c.node = none) (hfree : poolBusy s id c = false) :
    placeChunk id c src h s = newHostReq c.run c.node h s := by
  rw [placeChunk_of_pool hnone hg hfull hpool hpoolb hroom, hreq, hfree]
  rfl

theorem placeChunk_of_pool_wait (hreq : hostReqOf s c.run c.node = none) (hbusy : poolBusy s id c = true) :
    placeChunk id c src h s = s := by
  rw [placeChunk_of_pool hnone hg hfull hpool hpoolb hroom, hreq, hbusy]
  rfl

theorem placeChunk_of_pool_written {q : Nat} {t : State} (hreq : hostReqOf s c.run c.node = some q)
    (hput : atHost (fun _ => []) (fun _ => ()) c.run c.node h.ctx h.die (putPool g (tgetD h.tails c.slot 0) c) s = (.done (), t)) :
    placeChunk id c src h s = acceptChunk id { c with place := .pool, pos := tgetD h.tails c.slot 0 } src h
      (t.setShare c.dst { h with tails := tput h.tails c.slot ((tgetD h.tails c.slot 0 + c.data.length) % g.poolb) }) := by
  rw [placeChunk_of_pool hnone hg hfull hpool hpoolb hroom, hreq, hput]
  rfl

end

/-- A chunk for which there is no room stays at its sender. -/
theorem placeChunk_of_full (hfullPool : g.pool = 0 ∨ g.poolb = 0 ∨
    g.poolb < poolUsed s c.dst c.slot g (tgetD h.tails c.slot 0) + c.data.length) : placeChunk id c src h s = s := by
  have hno : (g.pool != 0 && g.poolb != 0 &&
      decide (poolUsed s c.dst c.slot g (tgetD h.tails c.slot 0) + c.data.length ≤ g.poolb)) = false := by
    rw [Bool.eq_false_iff]
    simp only [ne_eq, Bool.and_eq_true, bne_iff_ne, decide_eq_true_eq]
    omega
  rw [slotsUsed] at hfull
  simp only [placeChunk, hnone, hg, Nat.not_lt.mpr hfull, decide_false, Bool.false_and, Bool.false_eq_true, if_false, hno]

end
end
end

/-- A host request of die 0, where the host port stands, is performed at once. -/
theorem atHost_of_edge {α : Type} (enc : α → List Byte) (dec : List Byte → α) {run node die : Nat} (ctx : Nat) (f : State → α × State)
    {s : State} (hdie : die = 0) (hask : s.transfer? (hostTag run node) = none) (hanswer : s.transfer? (hostTag run node ++ [1]) = none) :
    atHost enc dec run node ctx die f s = (.done (f s).1, (f s).2) := by
  simp only [atHost, hdie, overMesh, hanswer, reach, hask, if_true, List.getLastD_nil, Option.isNone_none]

/-- The answer of a receiver on the sender's own die is there at once. -/
theorem acceptChunk_of_here (id : Nat) (c : Chunk) (h : Share) (s : State) : acceptChunk id c h.die h s =
    endHostReq c.run c.node (dropMessage [9, id] { s with chunks := tput s.chunks id { c with seq := s.fresh }, fresh := s.fresh + 1 }) := by
  simp only [acceptChunk, ride, if_true]

/-! ### Nodes (R361-R363) -/

section
variable {run node : Nat} {s : State} {r : Run} {h : Share} {n : Node} (hr : tget s.runs run = some r)
  (hh : s.share? r.share = some h) (hn : r.graph.nodes[node]? = some n) (hbegun : r.pending = false) (hopen : r.closing = false)
  (hfired : node ∈ r.fired) (hleft : node ∉ r.done) (hworks : s.shut h.die = false)
include hr hh hn hbegun hopen hfired hleft hworks

/-- A fired node that has not completed acts. -/
theorem execNodeComplete_of_fired : execNodeComplete run node s =
    if n.len = 0 then .next (endNode run node 0 s)
    else match nodeStatus r h n with
      | some st => .next (endNode run node st s)
      | none => .next (match n.op with
        | 0 => sendNode run node r h n s
        | 1 => recvNode run node r h n s
        | 6 => spillNode run node r h n s
        | 7 => refetchNode run node r h n s
        | _ => endUnits run node (nodeUnits run node h n (fun r k s => readUnit run r h (r.src n) k s) (n.len + 1) s)) := by
  have hfired : r.fired.contains node = true := List.contains_iff_mem.mpr hfired
  have hleft : r.done.contains node = false := Bool.eq_false_iff.mpr fun hin => hleft (List.contains_iff_mem.mp hin)
  simp only [execNodeComplete, hr, Option.bind_some, hh, hn, Option.map_some, hbegun, hopen, hfired, hleft, hworks, Bool.not_true,
    Bool.or_self, Bool.false_eq_true, if_false] <;> rfl

theorem execNodeComplete_of_empty (hlen : n.len = 0) : execNodeComplete run node s = .next (endNode run node 0 s) := by
  rw [execNodeComplete_of_fired hr hh hn hbegun hopen hfired hleft hworks, if_pos hlen]

theorem execNodeComplete_of_bad {st : Nat} (hlen : n.len ≠ 0) (hbad : nodeStatus r h n = some st) :
    execNodeComplete run node s = .next (endNode run node st s) := by
  rw [execNodeComplete_of_fired hr hh hn hbegun hopen hfired hleft hworks, if_neg hlen, hbad]

/-- A node with good parameters does what its operation says. -/
theorem execNodeComplete_of_good (hlen : n.len ≠ 0) (hgood : nodeStatus r h n = none) : execNodeComplete run node s =
    .next (match n.op with
      | 0 => sendNode run node r h n s
      | 1 => recvNode run node r h n s
      | 6 => spillNode run node r h n s
      | 7 => refetchNode run node r h n s
      | _ => endUnits run node (nodeUnits run node h n (fun r k s => readUnit run r h (r.src n) k s) (n.len + 1) s)) := by
  rw [execNodeComplete_of_fired hr hh hn hbegun hopen hfired hleft hworks, if_neg hlen, hgood]

/-- A node that copies or combines units goes through them. -/
theorem execNodeComplete_of_units {k : Bool} {t : State} (hlen : n.len ≠ 0) (hgood : nodeStatus r h n = none) (hlow : 2 ≤ n.op)
    (hhigh : n.op ≤ 5) (hunits : nodeUnits run node h n (fun r k s => readUnit run r h (r.src n) k s) (n.len + 1) s = (k, t)) :
    execNodeComplete run node s = .next (if k then endNode run node 0 t else t) := by
  rw [execNodeComplete_of_good hr hh hn hbegun hopen hfired hleft hworks hlen hgood]
  obtain hop | hop | hop | hop : n.op = 2 ∨ n.op = 3 ∨ n.op = 4 ∨ n.op = 5 := by omega
  all_goals rw [hop]; exact congrArg (fun x => Host.Outcome.next (endUnits run node x)) hunits

end

/-! ### Runs that complete (R365) -/

/-- What is left of a run once its trigger has gained 1: its token fills, and the slot goes on. -/
def endRun (run : Nat) (r : Run) (s : State) : State :=
  serveAll r.share r.slot (fillTok r.token (tokenWord r.status r.units) { s with runs := tdel s.runs run })

section
variable {run : Nat} {s : State} {r : Run} {h : Share} (hr : tget s.runs run = some r) (hh : s.share? r.share = some h)
  (hbegun : r.pending = false) (hover : r.over = true)
include hr hh hbegun hover

theorem execRunComplete_of_silent (htrig : r.graph.trig = 0) :
    execRunComplete run s = .next (endRun run r (if r.closing then s else closeRun run r h s)) := by
  simp only [execRunComplete, hr, Option.bind_some, hh, Option.map_some, hbegun, hover, Bool.not_true, Bool.or_self, Bool.false_eq_true,
    if_false, htrig, if_true, endRun]

theorem execRunComplete_of_trigger {w : Word} {u : State} (htrig : r.graph.trig ≠ 0) :
    let t := if r.closing then s else closeRun run r h s
    alone (.engine run) (wordAccess (.engine run) h.ctx h.die r.graph.trig 0 4
      (fun s => mainRmw s h.ctx h.die r.graph.trig (fun v => (some (v + 1), 0)) none (((t.share? r.share).map Share.issue).getD none)) t) =
        (.done w, u) → execRunComplete run s = .next (endRun run r u) := by
  intro t hadd
  simp only [execRunComplete, hr, Option.bind_some, hh, Option.map_some, hbegun, hover, Bool.not_true, Bool.or_self, Bool.false_eq_true,
    if_false, htrig]
  rw [hadd]
  rfl

end

/-- A run that reaches no snapshot's step: its window writes are published and the completed step advances. -/
theorem closeRun_of_quiet (run : Nat) (r : Run) (h : Share) (s : State) :
    let u := if r.wrote = [] then s else homeWrite r.share r.wrote s
    let d := advanceStep (h.runsDone.length + 1) h.done (h.runsDone ++ [r.step])
    let v := u.modShare r.share fun h => { h with done := d.1, runsDone := d.2 }
    (∀ x ∈ (v.die h.die).snaps, x.2.st ≠ .armed) →
    closeRun run r h s = refreshKeeper h.die (fillSteps r.share (modRun run (fun r => { r with closing := true }) v)) := by
  intro u d v hquiet
  have hnone : (v.die h.die).snaps.filter (fun x => x.2.share == some r.share && x.2.st == .armed && stepReached d.1 x.2.step) = [] := by
    rw [List.filter_eq_nil_iff]
    intro x hx hall
    simp only [Bool.and_eq_true, beq_iff_eq] at hall
    exact hquiet x hx hall.1.2
  have hcuts : ∀ f : State → Nat × Snapshot → State, List.foldl f v
      ((v.die h.die).snaps.filter fun x => x.2.share == some r.share && x.2.st == .armed && stepReached d.1 x.2.step) = v := fun f => by
    rw [hnone, List.foldl_nil]
  have hpublished : (if r.wrote.isEmpty then s else homeWrite r.share r.wrote s) = u := by
    simp only [u, List.isEmpty_iff]
  simp only [closeRun, hpublished, List.length_append, List.length_singleton]
  rw [hcuts]

/-- Settles O49: each step by the branch of its definition that the premises choose. -/
theorem collectiveSteps : Obligations.CollectiveSteps := by
  refine ⟨?image, ?armed, ?offer, ?place, fun id c h s => acceptChunk_of_here id c h s, ?node, ?run, closeRun_of_quiet⟩
  case image =>
    intro share s h bs s1 g s2 hh hnew hplaced dir hdir hread haddr himage
    exact (exec_graphLoadAtPlacement share s).trans (execGraphLoadAtPlacement_of_image hh hnew hplaced hdir hread haddr himage)
  case armed =>
    intro share slot s h a hh ha hdue
    exact (exec_carmStart share slot s).trans (execCarmStart_of_due hh ha hdue)
  case offer =>
    intro chunk s c g h hc hg hh
    have hexec := exec_chunkOffer chunk s
    exact ⟨fun hplace => hexec.trans (execChunkOffer_of_accepted hc hg hh hplace),
      fun hplace hcome hsafe hstart => hexec.trans (execChunkOffer_of_come hc hg hh hplace hcome hsafe hstart),
      fun t hplace hcut => hexec.trans (execChunkOffer_of_cut hc hg hh hplace hcut),
      fun t hplace hunder => hexec.trans (execChunkOffer_of_under hc hg hh hplace hunder)⟩
  case place =>
    intro id c src h s used tail
    refine ⟨fun who hrecv hfirst => placeChunk_of_recv hrecv hfirst, fun g hnone hg hfree hfits => placeChunk_of_slot hnone hg hfree hfits,
      fun g hnone hg hfull hpool hpoolb hroom => ?_,
      fun g hnone hg hfull hfullPool => placeChunk_of_full hnone hg hfull hfullPool⟩
    exact ⟨fun hreq hfree => placeChunk_of_pool_ask hnone hg hfull hpool hpoolb hroom hreq hfree,
      fun hreq hbusy => placeChunk_of_pool_wait hnone hg hfull hpool hpoolb hroom hreq hbusy,
      fun q t hreq hput => placeChunk_of_pool_written hnone hg hfull hpool hpoolb hroom hreq hput,
      fun hdie hask hanswer => atHost_of_edge _ _ h.ctx (putPool g tail c) hdie hask hanswer⟩
  case node =>
    intro run node s r h n hr hh hn hbegun hopen hfired hleft hworks
    have hexec := exec_nodeComplete run node s
    have hgoes := fun hlen hgood => hexec.trans (execNodeComplete_of_good hr hh hn hbegun hopen hfired hleft hworks hlen hgood)
    refine ⟨fun hlen => hexec.trans (execNodeComplete_of_empty hr hh hn hbegun hopen hfired hleft hworks hlen),
      fun st hlen hbad => hexec.trans (execNodeComplete_of_bad hr hh hn hbegun hopen hfired hleft hworks hlen hbad),
      fun hlen hgood => ⟨fun hop => ?_, fun hop => ?_, fun hop => ?_, fun hop => ?_, fun hlow hhigh k t hunits => ?_⟩⟩
    · rw [hgoes hlen hgood, hop]
      rfl
    · rw [hgoes hlen hgood, hop]
      rfl
    · rw [hgoes hlen hgood, hop]
      rfl
    · rw [hgoes hlen hgood, hop]
      rfl
    · exact hexec.trans (execNodeComplete_of_units hr hh hn hbegun hopen hfired hleft hworks hlen hgood hlow hhigh hunits)
  case run =>
    intro run s r h hr hh hbegun hover t done
    exact ⟨fun htrig => (exec_runComplete run s).trans (execRunComplete_of_silent hr hh hbegun hover htrig),
      fun w u htrig hadd => (exec_runComplete run s).trans (execRunComplete_of_trigger hr hh hbegun hover htrig hadd)⟩

end Sys2Proof.Machine
end

section
/-! PROOFS. The mesh, flows and frames, ports and links, the host's window, and time (R345-R356). -/

namespace Sys2Proof.Machine

/-! ### The mesh (R345-R348) -/

theorem exec_meshFlitReceive (link cls : Nat) (ok : Bool) (s : State) :
    exec (.meshFlitReceive link cls ok) s = execMeshFlitReceive link cls ok s := rfl

/-- A link read after one has been put among the links. -/
theorem link_of_links {m : Module} {k j : Nat} {l : MeshLink} :
    Module.link { m with links := tput m.links k l } j = if j = k then l else m.link j := by
  rw [Module.link, tgetD, tget_tput]
  split <;> rfl

/-- Signalling changes no replay count. -/
theorem signal_replays (m : Module) (k cls j : Nat) : ((signal m k cls).link j).replays = (m.link j).replays := by
  rw [signal, link_of_links]
  split
  next h => rw [h]
  next => rfl

theorem signal_transfers (m : Module) (k cls : Nat) : (signal m k cls).transfers = m.transfers := rfl

/-- The module once transfer `id` has crossed a link: the link has no failed replay, and the buffers at both of its ends have changed. -/
def crossed (link cls id goal : Nat) (t : Transfer) (m : Module) : Module :=
  let n := signal { m with
    links := tput m.links link { m.link link with replays := 0 }, transfers := tput m.transfers id { t with at_ := goal } } link cls
  match cameBy t with
  | some k => signal n k cls
  | none => n

section
variable (link cls id goal : Nat) (t : Transfer) (m : Module)

/-- What `crossed` keeps of a module may be read before the signals at the link before. -/
theorem crossed_ind {p : Module → Prop} (hfirst : p (signal { m with
      links := tput m.links link { m.link link with replays := 0 }, transfers := tput m.transfers id { t with at_ := goal } } link cls))
    (hsignal : ∀ n k, p n → p (signal n k cls)) : p (crossed link cls id goal t m) := by
  rw [crossed]
  split
  · exact hsignal _ _ hfirst
  · exact hfirst

theorem crossed_keeps : tget (crossed link cls id goal t m).transfers id = some { t with at_ := goal } ∧
    ((crossed link cls id goal t m).link link).replays = 0 ∧ (crossed link cls id goal t m).hostMem = m.hostMem ∧
    (crossed link cls id goal t m).ports = m.ports ∧ (crossed link cls id goal t m).flows = m.flows := by
  refine crossed_ind (p := fun n => tget n.transfers id = some { t with at_ := goal } ∧ (n.link link).replays = 0 ∧
    n.hostMem = m.hostMem ∧ n.ports = m.ports ∧ n.flows = m.flows) link cls id goal t m ⟨tget_tput_same _ _ _, ?_, rfl, rfl, rfl⟩ ?_
  · rw [signal_replays]
    exact congrArg MeshLink.replays (link_of_links (m := { m with transfers := tput m.transfers id { t with at_ := goal } })
      |>.trans (if_pos rfl))
  · rintro n k ⟨htransfer, hreplays, hrest⟩
    exact ⟨htransfer, (signal_replays n k cls link).trans hreplays, hrest⟩

end

section
variable {link cls id : Nat} {t : Transfer} {s : State}
  (hfind : (s.mod.transfers.find? fun t => t.2.cls == cls && t.2.at_ == link / 4 && t.2.dst != link / 4 &&
    routeDir t.2.tag (link / 4) t.2.dst == link % 4) = some (id, t))
  (hcarries : ((s.modMod fun m => signal m link cls).mod.link link).carries = true)
  (hon : cls ∉ ((s.modMod fun m => signal m link cls).mod.link link).off)
  (hstart : (s.die (hop (link / 4) (link % 4))).start = none)
  (hkeeper : t.dst = hop (link / 4) (link % 4) → keeperAnswers (s.modMod fun m => signal m link cls) (hop (link / 4) (link % 4)) = true)
include hcarries hon hstart hkeeper

/-- Nothing keeps the oldest transfer of a class from its link. -/
theorem flit_goes : (!((s.modMod fun m => signal m link cls).mod.link link).carries ||
    ((s.modMod fun m => signal m link cls).mod.link link).off.contains cls ||
    ((s.modMod fun m => signal m link cls).die (hop (link / 4) (link % 4))).start.isSome ||
    (t.dst == hop (link / 4) (link % 4) && !keeperAnswers (s.modMod fun m => signal m link cls) (hop (link / 4) (link % 4)))) = false := by
  have hoff : ((s.modMod fun m => signal m link cls).mod.link link).off.contains cls = false :=
    Bool.eq_false_iff.mpr fun hin => hon (List.contains_iff_mem.mp hin)
  have hnostart : ((s.modMod fun m => signal m link cls).die (hop (link / 4) (link % 4))).start = none := hstart
  have hanswers : (t.dst == hop (link / 4) (link % 4) &&
      !keeperAnswers (s.modMod fun m => signal m link cls) (hop (link / 4) (link % 4))) = false := by
    by_cases hend : t.dst = hop (link / 4) (link % 4)
    · rw [hkeeper hend, Bool.not_true, Bool.and_false]
    · rw [beq_eq_false_iff_ne.mpr hend, Bool.false_and]
  rw [hcarries, hoff, hnostart, hanswers]
  rfl

include hfind

/-- A good flit crosses its link. -/
theorem execMeshFlitReceive_good : execMeshFlitReceive link cls true s =
    let goal := hop (link / 4) (link % 4)
    let u := { s with mod := crossed link cls id goal t (signal s.mod link cls) }
    .next (if t.dst = goal then land id { t with at_ := goal } (logMessage goal t.cls t.src t.tag t.data u) else u) := by
  have hfind' : ((s.modMod fun m => signal m link cls).mod.transfers.find? fun t => t.2.cls == cls && t.2.at_ == link / 4 &&
    t.2.dst != link / 4 && routeDir t.2.tag (link / 4) t.2.dst == link % 4) = some (id, t) := hfind
  simp only [execMeshFlitReceive, hfind', flit_goes hcarries hon hstart hkeeper, Bool.false_eq_true, if_false, Bool.not_true]
  rfl

/-- A failed flit is counted, the 65th in succession failing the link. -/
theorem execMeshFlitReceive_failed :
    let l := (s.modMod fun m => signal m link cls).mod.link link
    let v := (s.modMod fun m => signal m link cls).modMod fun m => { m with links := tput m.links link { l with replays := l.replays + 1 } }
    execMeshFlitReceive link cls false s = .next (if l.replays < 64 then v else failLink link v) := by
  intro l v
  have hfind' : ((s.modMod fun m => signal m link cls).mod.transfers.find? fun t => t.2.cls == cls && t.2.at_ == link / 4 &&
    t.2.dst != link / 4 && routeDir t.2.tag (link / 4) t.2.dst == link % 4) = some (id, t) := hfind
  simp only [execMeshFlitReceive, hfind', flit_goes hcarries hon hstart hkeeper, Bool.false_eq_true, if_false, Bool.not_false, if_true]
  by_cases hfew : l.replays < 64
  · rw [if_pos hfew, if_neg (show ¬ 65 ≤ l.replays + 1 by omega)]
  · rw [if_neg hfew, if_pos (show 65 ≤ l.replays + 1 by omega)]

end

/-! ### Flows and frames (R349-R352) -/

theorem exec_frameReceive (port : Nat) (f : Frame) (s : State) : exec (.frameReceive port f) s = execFrameReceive port f s := rfl
theorem exec_ackReceive (port : Nat) (f : Frame) (s : State) : exec (.ackReceive port f) s = execAckReceive port f s := rfl
theorem exec_retransmitTimeout (flow : Nat) (seq : Word) (s : State) :
    exec (.retransmitTimeout flow seq) s = execRetransmitTimeout flow seq s := rfl

section
variable {port id : Nat} {f : Frame} {s s1 : State} {x : Flow} (hup : s.mod.portUp port = true) (hok : frameOk s.mod f = true)
include hup hok

/-- A data frame that passes its checks goes to the home terminus of its flow. -/
theorem execFrameReceive_of_data (hdata : f.kind = 0) (hflow : inFlow s f = (id, x, s1)) : execFrameReceive port f s =
    let u := s1.modMod fun m => { m with flows := tput m.flows id x }
    if portDie x.port = portDie port then .next (atHome f u)
    else .next (ride f.cls noCtx (portDie port) (portDie x.port) [16, u.fresh] (frameBytes f) u).2.bump := by
  simp only [execFrameReceive, hup, hok, hdata, beq_self_eq_true, Bool.and_self, if_true, hflow]

/-- An acknowledgement that passes its checks goes to the terminus of its flow. -/
theorem execAckReceive_of_ack (hack : f.kind = 1) (hlen : f.data.length = 32) (hflow : outgoing s f = some (id, x)) :
    execAckReceive port f s = if portDie x.port = portDie port then .next (ackHome f s)
      else .next (ride f.cls noCtx (portDie port) (portDie x.port) [20, s.fresh] (frameBytes f) s).2.bump := by
  simp only [execAckReceive, hup, hok, hack, hlen, beq_self_eq_true, Bool.and_self, if_true, hflow]

end

/-- A flow stands with the acknowledgement it returns. -/
def putFlow (id : Nat) (y : Flow) (s : State) : State :=
  s.modMod fun m => { m with flows := tput m.flows id { y with ack := some (ackFrame m.number y) } }

/-- A frame that is delivered no more, or not yet. -/
def frameRefused (f : Frame) (x : Flow) : Prop :=
  2 ^ 31 ≤ (f.seq - x.next).toNat ∨ f.seq ∈ x.beyond ∨ (f.cls = 1 ∧ f.seq ≠ x.next ∧ 4096 ≤ x.heldF.length)

section
variable {f : Frame} {s s1 : State} {id : Nat} {x : Flow}

/-- The test of a home terminus says so. -/
theorem atHome_test : (decide (2 ^ 31 ≤ (f.seq - x.next).toNat) || x.beyond.contains f.seq ||
    (f.cls == 1 && (f.seq - x.next).toNat != 0 && decide (4096 ≤ x.heldF.length))) = true ↔ frameRefused f x := by
  have hnext : (f.seq - x.next).toNat = 0 ↔ f.seq = x.next := by
    rw [show (0 : Nat) = (0#32 : Word).toNat from rfl, BitVec.toNat_inj, BitVec.sub_eq_iff_eq_add, BitVec.zero_add]
  simp only [frameRefused, Bool.or_eq_true, Bool.and_eq_true, decide_eq_true_eq, List.contains_iff_mem, beq_iff_eq, bne_iff_ne, ne_eq,
    hnext, or_assoc, and_assoc]

variable (hflow : inFlow s f = (id, x, s1))
include hflow

theorem atHome_of_refused (hrefused : frameRefused f x) : atHome f s = putFlow id x s1 := by
  simp only [atHome, hflow, atHome_test.mpr hrefused, if_true]
  rfl

/-- A frame of a new number is delivered, in order where its class is ordered. -/
theorem atHome_of_new (hnew : ¬ frameRefused f x) :
    let r := advanceFlow (x.beyond.length + 1)
      { x with beyond := x.beyond ++ [f.seq], heldF := if f.cls = 1 then x.heldF ++ [f] else x.heldF }
    let home := portDie r.1.port
    atHome f s = if f.cls = 1 then r.2.foldl (fun s g => deliver home g s) (putFlow id r.1 s1) else deliver home f (putFlow id r.1 s1) := by
  simp only [atHome, hflow, if_neg (mt atHome_test.mp hnew)]
  rfl

end

/-- The home terminus on the frame's own die gives it up there. -/
theorem deliver_of_here (f : Frame) (s : State) : deliver f.ddie f s =
    if f.cls = 1 ∧ f.data.length = 16 then queueReward f.ddie f.data (logMessage f.ddie f.cls f.sdie [13, f.cls] f.data s)
    else logMessage f.ddie f.cls f.sdie [13, f.cls] f.data s := by
  simp only [deliver, if_true, takeFrame, Bool.and_eq_true, decide_eq_true_eq]

/-- The numbers an acknowledgement reports as arrived (R351). -/
def acked (f : Frame) (u : Unacked) : Bool :=
  decide ((f.seq - u.seq).toNat - 1 < 2 ^ 31) && f.seq != u.seq || ackBit f u.seq

theorem ackHome_of_flow {f : Frame} {s : State} {id : Nat} {x : Flow} (hflow : outgoing s f = some (id, x)) (hlives : x.failed = false) :
    ackHome f s = modFlow id (fun x => if x.failed then x else Flow.number (s.die 0).time x.waiting.length x)
      (resend id (fun u => ackMissing f u.seq)
        (modFlow id (fun x => { x with unacked := x.unacked.filter fun u => !acked f u }) s)) := by
  simp only [ackHome, hflow, hlives, Bool.false_eq_true, if_false]
  rfl

section
variable {id : Nat} {s : State} {f : Flow} {which : Unacked → Bool} (hf : tget s.mod.flows id = some f) (hlives : f.failed = false)
include hf hlives

/-- A frame sent 16 times already fails its flow. -/
theorem resend_of_last (hlast : ∃ u ∈ f.unacked, which u = true ∧ 16 ≤ u.sends) : resend id which s = failFlow id s := by
  have hany : (f.unacked.any fun u => which u && decide (16 ≤ u.sends)) = true := by
    simpa only [List.any_eq_true, Bool.and_eq_true, decide_eq_true_eq] using hlast
  simp only [resend, hf, hlives, Bool.false_eq_true, if_false, hany, if_true]

theorem resend_of_few (hfew : ∀ u ∈ f.unacked, which u = true → u.sends < 16) : resend id which s =
    modFlow id (fun g => { g with
      unacked := g.unacked.map fun u => if which u then { u with sends := u.sends + 1, at_ := (s.die 0).time } else u }) s := by
  have hany : (f.unacked.any fun u => which u && decide (16 ≤ u.sends)) = false := by
    rw [List.any_eq_false]
    intro u hu hall
    simp only [Bool.and_eq_true, decide_eq_true_eq] at hall
    exact absurd (hfew u hu hall.1) (Nat.not_lt.mpr hall.2)
  simp only [resend, hf, hlives, Bool.false_eq_true, if_false, hany]

end

/-! ### Ports and mesh links (R353) -/

theorem exec_portTrainingEnd (port lanes : Nat) (s : State) :
    exec (.portTrainingEnd port lanes) s = execPortTrainingEnd port lanes s := rfl
theorem exec_laneLost (port : Nat) (s : State) : exec (.laneLost port) s = execLaneLost port s := rfl
theorem exec_portEnable (port : Nat) (s : State) : exec (.portEnable port) s = execPortEnable port s := rfl
theorem exec_portDisable (port : Nat) (s : State) : exec (.portDisable port) s = execPortDisable port s := rfl

/-- The four ends of a training. -/
theorem trained_full (n : Nat) : trained 8 n = (.up, 0) := rfl

theorem trained_some {lanes : Nat} (n : Nat) (hlow : 4 ≤ lanes) (hhigh : lanes < 8) : trained lanes n = (.degraded, 0) := by
  rw [trained, if_neg (by omega), if_pos hlow]

theorem trained_again {lanes n : Nat} (hlow : lanes < 4) (hfew : n < 2) : trained lanes n = (.training, n + 1) := by
  rw [trained, if_neg (by omega), if_neg (by omega), if_pos (by omega)]

theorem trained_never {lanes n : Nat} (hlow : lanes < 4) (hlast : 2 ≤ n) : trained lanes n = (.failed, 0) := by
  rw [trained, if_neg (by omega), if_neg (by omega), if_neg (by omega)]

/-- A link that trains. -/
theorem trains_iff {st : LinkState} : st.trains = true ↔ st = .training ∨ st = .retraining := by
  simp only [LinkState.trains, Bool.or_eq_true, beq_iff_eq]

section
variable {port lanes : Nat} {s : State} {x : Port} (hx : s.mod.ports[port]? = some x) (htrains : x.st = .training ∨ x.st = .retraining)
  (hlanes : lanes ≤ 8)
include hx htrains hlanes

theorem execPortTrainingEnd_of_port {st : LinkState} {n : Nat} (hend : trained lanes x.attempts = (st, n)) :
    execPortTrainingEnd port lanes s =
      let t := setPort port ⟨if st = .training then x.st else st, n⟩ s
      .next (if st = .failed then moveFlows port t else t) := by
  simp only [execPortTrainingEnd, Nat.not_lt.mpr hlanes, if_false, hx, trains_iff.mpr htrains, Bool.not_true, Bool.false_eq_true, hend]

end

theorem linkOf_of_port {port : Nat} (hport : port < 32) : linkOf port = none := by
  simp only [linkOf, Nat.not_le.mpr hport, decide_false, Bool.false_and, Bool.false_eq_true, if_false]

theorem linkOf_of_link {k : Nat} (hk : linkExists k = true) : linkOf (32 + k) = some k := by
  simp only [linkOf, Nat.le_add_right, decide_true, Nat.add_sub_cancel_left, hk, Bool.and_self, if_true]

section
variable {port : Nat} {s : State}

theorem execLaneLost_of_port (hport : port < 32) (hup : s.mod.portUp port = true) :
    execLaneLost port s = .next (setPort port ⟨.retraining, 0⟩ s) := by
  simp only [execLaneLost, linkOf_of_port hport, hup, if_true]

theorem execPortEnable_of_port {x : Port} (hx : s.mod.ports[port]? = some x) (hdown : x.st = .down) :
    execPortEnable port s = .next (setPort port ⟨.training, 0⟩ s) := by
  simp only [execPortEnable, hx, hdown, if_true]

theorem execPortDisable_of_port (hport : port < 32) (hthere : port < s.mod.ports.length) :
    execPortDisable port s = .next (moveFlows port (setPort port ⟨.down, 0⟩ s)) := by
  simp only [execPortDisable, linkOf_of_port hport, hthere, if_true]

end

/-- A mesh link in a new state, with no attempts or replays counted. -/
def becomeLink (k : Nat) (st : LinkState) (s : State) : State := modLink k (fun l => { l with st := st, replays := 0 }) s

section
variable {k : Nat} {s : State} (hk : linkExists k = true)
include hk

section
variable (hport : s.mod.ports[32 + k]? = none)
include hport

section
variable {lanes : Nat} (htrains : (s.mod.link k).st = .training ∨ (s.mod.link k).st = .retraining) (hlanes : lanes ≤ 8)
include htrains hlanes

theorem execPortTrainingEnd_of_link {st : LinkState} {n : Nat} (hend : trained lanes (s.mod.link k).replays = (st, n)) :
    execPortTrainingEnd (32 + k) lanes s = .next (if st = .failed then failLink k s
      else modLink k (fun l => { l with st := if st = .training then l.st else st, replays := n }) s) := by
  simp only [execPortTrainingEnd, Nat.not_lt.mpr hlanes, if_false, hport, linkOf_of_link hk, trainLink, trains_iff.mpr htrains,
    Bool.not_true, Bool.false_eq_true, hend]

end

theorem execPortEnable_of_link (hdown : (s.mod.link k).st = .down) :
    execPortEnable (32 + k) s = .next (becomeLink k .training s) := by
  simp only [execPortEnable, hport, linkOf_of_link hk, hdown, if_true, becomeLink]

end

theorem execLaneLost_of_link (hcarries : (s.mod.link k).carries = true) :
    execLaneLost (32 + k) s = .next (becomeLink k .retraining s) := by
  simp only [execLaneLost, linkOf_of_link hk, hcarries, if_true, becomeLink]

theorem execPortDisable_of_link : execPortDisable (32 + k) s =
    .next (if (s.mod.link k).st = .failed then s else becomeLink k .down s) := by
  simp only [execPortDisable, linkOf_of_link hk, MeshLink.failed, beq_iff_eq, becomeLink]
  split <;> rfl

end

/-! ### The host's window (R355) -/

theorem exec_cxlMemAccess (addr len : Nat) (wr : Option (List Byte)) (s : State) :
    exec (.cxlMemAccess addr len wr) s = execCxlMemAccess addr len wr s := rfl
theorem exec_hostTimeout (req : Nat) (s : State) : exec (.hostTimeout req) s = execHostTimeout req s := rfl

theorem execCxlMemAccess_of_window {addr len : Nat} {wr : Option (List Byte)} (s : State) (hin : addr + len ≤ 2 ^ 38)
    (hwr : ∀ bs, wr = some bs → bs.length = len) : execCxlMemAccess addr len wr s =
      .next (resumeHost s.fresh (s.modMod fun m => { m with
        accesses := tput m.accesses s.fresh ⟨addr, len, piecesOf len addr len, wr, [], false⟩ }).bump) := by
  have hall : (wr.all fun bs => bs.length == len) = true := by
    cases wr with
    | none => rfl
    | some bs => exact beq_iff_eq.mpr (hwr bs rfl)
  simp only [execCxlMemAccess, hin, hall, decide_true, Bool.and_self, if_true]

section
variable {id n : Nat} {s : State} {x : HostAccess} (hx : tget s.mod.accesses id = some x)
include hx

theorem stepHost_of_last (hdone : x.pieces = []) : stepHost id (n + 1) s = s.modMod fun m => { m with
    accesses := tdel m.accesses id, answers := m.answers ++ [x.answer] } := by
  simp only [stepHost, hx, hdone]

section
variable {a k : Nat} {rest : List (Nat × Nat)} {t : State} (hpieces : x.pieces = (a, k) :: rest)
include hpieces

theorem stepHost_of_done {bs : List Byte} (hpiece : hostPiece id a k (x.write.map fun bs => (bs.drop (a - x.addr)).take k) s = (.done bs, t)) :
    stepHost id (n + 1) s = stepHost id n (endPiece id a (fun x => { x with got := x.got ++ cellsAt a bs }) t) := by
  simp only [stepHost, hx, hpieces, hpiece]

theorem stepHost_of_fail {c : Nat} (hpiece : hostPiece id a k (x.write.map fun bs => (bs.drop (a - x.addr)).take k) s = (.fail c, t)) :
    stepHost id (n + 1) s = stepHost id n (endPiece id a (fun x => { x with failed := true }) t) := by
  simp only [stepHost, hx, hpieces, hpiece]

theorem stepHost_of_wait (hpiece : hostPiece id a k (x.write.map fun bs => (bs.drop (a - x.addr)).take k) s = (.wait, t)) :
    stepHost id (n + 1) s = t := by
  simp only [stepHost, hx, hpieces, hpiece]

end
end

/-- A piece at a die's controller ends there, or waits. -/
theorem hostUnit_ends (die d n : Nat) (wr : Option (List Byte)) (s : State) :
    ∃ r t, hostUnit die d n wr s = (r, t) ∧ ((∃ bs, r = .done bs) ∨ r = .fail 2 ∨ r = .wait) := by
  unfold hostUnit
  grind

/-- Where no slice is mapped, a piece reads as zeros. -/
theorem hostPiece_of_unmapped (id n : Nat) (wr : Option (List Byte)) {a : Nat} {s : State}
    (hnone : tget s.mod.slices (a / 2 ^ 30) = none) : hostPiece id a n wr s = (.done (List.replicate n 0), s) := by
  rw [hostPiece, hnone]

/-- A slice of die 0, at whose edge the host port stands. -/
theorem hostPiece_of_edge {id a n : Nat} (wr : Option (List Byte)) {s : State} {off : Nat}
    (hslice : tget s.mod.slices (a / 2 ^ 30) = some (0, off)) (hask : s.transfer? (pieceTag id a) = none)
    (hanswer : s.transfer? (pieceTag id a ++ [1]) = none) : hostPiece id a n wr s = hostUnit 0 (off + a % 2 ^ 30) n wr s := by
  obtain ⟨r, t, hunit, hr⟩ := hostUnit_ends 0 (off + a % 2 ^ 30) n wr s
  rw [hostPiece, hslice]
  simp only [if_true, overMesh, hanswer, reach, hask, List.getLastD_nil, hunit, Option.isNone_none]
  obtain ⟨bs, rfl⟩ | rfl | rfl := hr <;> rfl

section
variable {die d : Nat} {s : State}

theorem hostUnit_read {n : Nat} {bs : List Byte} (hread : dramRead s die d n = some bs) : hostUnit die d n none s = (.done bs, s) := by
  simp only [hostUnit, hread]

theorem hostUnit_unreadable {n : Nat} (hread : dramRead s die d n = none) : hostUnit die d n none s = (.fail 2, s) := by
  simp only [hostUnit, hread]

variable {bs : List Byte} (n : Nat) (hsnaps : (s.die die).snaps = [])
include hsnaps

theorem hostUnit_written {t : State} (hwrite : dramWrite s die d bs = some t) : hostUnit die d n (some bs) s = (.done [], t) := by
  simp only [hostUnit, hsnaps, hostMarks, hwrite]

theorem hostUnit_unwritable (hwrite : dramWrite s die d bs = none) : hostUnit die d n (some bs) s = (.fail 2, s) := by
  simp only [hostUnit, hsnaps, hostMarks, hwrite]

end

/-! ### Host requests without completion (R354) -/

section
variable {req : Nat} {s : State} {q : HostReq} (hq : tget s.mod.hostReqs req = some q)
include hq

/-- A node's request: the node ends with TIMEOUT. -/
theorem execHostTimeout_of_node {r : Run} {h : Share} (hr : tget s.runs q.run = some r) (hh : s.share? r.share = some h)
    (hover : q.at_ + (s.ctx q.ctx).hostTmo.toNat * unitsPerNs ≤ (s.die h.die).time) (henq : enqOf s q = none) (hrun : q.run < engineBase) :
    execHostTimeout req s = .next (endNode q.run q.node 0x03 (dropHostReq req (endHostReq q.run q.node { s with
      chunks := tkeep s.chunks fun _ c =>
        !(c.taker == some (q.run, q.node) || (c.run == q.run && c.node == q.node && c.place == .sender)) }))) := by
  simp only [execHostTimeout, hq, hr, Option.bind_some, hh, Option.map_some, Option.getD_some, hover, if_true, henq,
    Nat.not_le.mpr hrun, if_false]

section
variable (hr : tget s.runs q.run = none) (hover : q.at_ + (s.ctx q.ctx).hostTmo.toNat * unitsPerNs ≤ (s.die 0).time)
include hr hover

/-- An ENQ's request: the ENQ goes on, and finds it overdue. -/
theorem execHostTimeout_of_enq {a : EngineAct} {addr queue v : Nat} (henq : enqOf s q = some (a, addr, queue, v)) :
    execHostTimeout req s = .next (stepEnq q.run a addr queue v s) := by
  simp only [execHostTimeout, hq, hr, Option.bind_none, Option.map_none, Option.getD_none, hover, if_true, henq]

/-- A ring's request: its queue is DISABLED. -/
theorem execHostTimeout_of_ring {i : Nat} (henq : enqOf s q = none) (hrun : q.run = ringRun i) (hchunks : s.chunks = []) :
    execHostTimeout req s =
      let t := dropHostReq req (endHostReq q.run q.node s)
      .next (ringFails i ((t.queue i).entryAt (t.queue i).rp) t) := by
  have hsame : { s with chunks := tkeep s.chunks fun _ c =>
      !(c.taker == some (q.run, q.node) || (c.run == q.run && c.node == q.node && c.place == .sender)) } = s := by
    rw [hchunks, show tkeep ([] : Table Chunk) _ = [] from rfl, ← hchunks]
  have hbase : engineBase ≤ q.run := by
    rw [hrun, ringRun, Nat.add_assoc]
    exact Nat.le_add_right _ _
  have hindex : q.run - ringRun 0 = i := by
    rw [hrun, ringRun, ringRun, Nat.add_zero, Nat.add_sub_cancel_left]
  simp only [execHostTimeout, hq, hr, Option.bind_none, Option.map_none, Option.getD_none, hover, if_true, henq, hsame, hbase, hindex]

end
end

/-! ### Time (R356) -/

theorem exec_timeSync (die ref : Nat) (s : State) : exec (.timeSync die ref) s = execTimeSync die ref s := rfl

/-- A reference of the source that is not chosen does not count. -/
theorem execTimeSync_of_other {host : Bool} (ref : Nat) {s : State} (hother : host ≠ s.mod.timeHost) :
    execTimeSync (timeSource host) ref s = .next s := by
  unfold execTimeSync timeSource
  revert hother
  cases host <;> cases s.mod.timeHost <;> simp

/-- Changing some dies in turn, each once. -/
theorem die_foldl_modDie (f : Die → Die) {ks : List Nat} (hks : ks.Nodup) (s : State) (d : Nat) :
    ((ks.foldl (fun s k => s.modDie k f) s).die d) = if d ∈ ks then f (s.die d) else s.die d := by
  induction ks generalizing s with
  | nil => rw [List.foldl_nil, if_neg List.not_mem_nil]
  | cons k ks ih =>
    obtain ⟨hk, hks⟩ := List.nodup_cons.mp hks
    rw [List.foldl_cons, ih hks]
    by_cases hd : d = k
    · subst hd
      rw [if_neg hk, if_pos List.mem_cons_self, State.die_modDie]
    · rw [State.die_modDie_ne _ _ hd]
      simp only [List.mem_cons, hd, false_or]

/-- Changes of dies leave the module and the warps. -/
theorem foldl_modDie_keeps (f : Die → Die) (ks : List Nat) (s : State) :
    (ks.foldl (fun s k => s.modDie k f) s).mod = s.mod ∧ (ks.foldl (fun s k => s.modDie k f) s).warps = s.warps := by
  induction ks generalizing s with
  | nil => exact ⟨rfl, rfl⟩
  | cons k ks ih => exact ih _

/-- What a reference sets in a die: its rate, and its time when it is stepped. -/
def syncDie (far : Bool) (ppm : Int) (ref : Nat) : Die → Die := fun d =>
  { d with ppm := ppm, time := if far then max d.time (ref * unitsPerNs) else d.time }

/-- The rate a reference sets. -/
def syncRate (s : State) (ref : Nat) : Int :=
  let rate : Int := Config.choice s.fresh % 500 + 1
  if ref = s.ns 0 ∨ s.ns 0 + 1000000 < ref then 0 else if s.ns 0 < ref then rate else -rate

theorem syncTime_eq (ref : Nat) (s : State) : syncTime ref s =
    ((List.range 64).foldl (fun u k => u.modDie k (syncDie (decide (s.ns 0 + 1000000 < ref)) (syncRate s ref) ref)) s).bump := by
  unfold syncDie
  simp only [syncTime, syncRate, Bool.or_eq_true, decide_eq_true_eq]

theorem syncTime_die (ref : Nat) (s : State) {d : Nat} (hd : d < 64) :
    (syncTime ref s).die d = syncDie (decide (s.ns 0 + 1000000 < ref)) (syncRate s ref) ref (s.die d) := by
  rw [syncTime_eq, State.die_bump, die_foldl_modDie _ List.nodup_range, if_pos (List.mem_range.mpr hd)]

theorem syncTime_keeps (ref : Nat) (s : State) : (syncTime ref s).mod = s.mod ∧ (syncTime ref s).warps = s.warps := by
  rw [syncTime_eq, State.bump_mod, State.bump_warps]
  exact foldl_modDie_keeps _ _ s

/-- A reference of the chosen source counts. -/
theorem execTimeSync_of_chosen (ref : Nat) (s : State) :
    execTimeSync (timeSource s.mod.timeHost) ref s = .next (syncTime ref s) := by
  rw [execTimeSync, if_pos rfl]

/-- A reference far ahead leaves no rate. -/
theorem syncRate_of_far {ref : Nat} {s : State} (hfar : s.ns 0 + 1000000 < ref) : syncRate s ref = 0 := if_pos (.inr hfar)

/-- A near reference slews by at most 500 ppm, back where it is behind. -/
theorem syncRate_of_near {ref : Nat} {s : State} (hne : ref ≠ s.ns 0) (hnear : ref ≤ s.ns 0 + 1000000) :
    (syncRate s ref).natAbs ≤ 500 ∧ (ref < s.ns 0 ↔ syncRate s ref < 0) := by
  rw [syncRate, if_neg (by omega)]
  generalize Config.choice s.fresh = c
  split <;> omega

/-- Any other number names a die whose copy of module time follows die 0's. -/
theorem execTimeSync_of_die {die : Nat} (ref : Nat) (s : State) (hzero : die ≠ 0) (hhost : die ≠ 64) :
    execTimeSync die ref s = .next (followTime die s) := by
  have hsource : die ≠ timeSource s.mod.timeHost := by
    rw [timeSource]
    split <;> assumption
  rw [execTimeSync, if_neg hsource, if_neg]
  simp only [hzero, hhost, decide_false, Bool.or_self, Bool.false_eq_true, not_false_iff]

/-- The rate a copy's offset is slewed at. -/
def followRate (s : State) : Int := Config.choice s.fresh % 500 + 1

theorem followRate_bounds (s : State) : 1 ≤ followRate s ∧ followRate s ≤ 500 := by
  rw [followRate]
  omega

theorem followTime_die (die : Nat) (s : State) :
    let z := s.die 0
    let d := s.die die
    (followTime die s).die die = if d.time + 1000000 * unitsPerNs < z.time then { d with ppm := z.ppm, time := z.time }
      else { d with ppm := if d.time < z.time then min 500 (z.ppm + followRate s)
        else if z.time < d.time then max (-500) (z.ppm - followRate s) else z.ppm } := by
  rw [followTime, State.die_bump, State.die_modDie]
  rfl

theorem followTime_die_ne {die k : Nat} (s : State) (hk : k ≠ die) : (followTime die s).die k = s.die k := by
  rw [followTime, State.die_bump, State.die_modDie_ne _ _ hk]

/-- Settles O48, each clause by the lemma about its step. -/
theorem linkSteps : Obligations.LinkSteps := by
  refine ⟨?flit, ?frame, ?home, ?delivery, ?ack, ?acked, ?retransmit, ?training, ?lane, ?enable, ?disable, ?links, ?window, ?pieces,
    ?slice, ?unit, ?node, ?request, ?other, ?step, ?slew, ?follow⟩
  case flit =>
    intro link cls s id t hfind u l goal hcarries hon hstart hkeeper
    refine ⟨⟨crossed link cls id goal t (signal s.mod link cls), ?_, crossed_keeps link cls id goal t _⟩, ?_⟩
    · exact (exec_meshFlitReceive ..).trans (execMeshFlitReceive_good hfind hcarries hon hstart hkeeper)
    · exact (exec_meshFlitReceive ..).trans (execMeshFlitReceive_failed hfind hcarries hon hstart hkeeper)
  case frame =>
    intro port f s id x s1 hup hok hdata hflow u
    have hexec := (exec_frameReceive port f s).trans (execFrameReceive_of_data hup hok hdata hflow)
    exact ⟨fun hhome => hexec.trans (if_pos hhome), fun haway => hexec.trans (if_neg haway)⟩
  case home =>
    intro f s id x s1 hflow put
    refine ⟨atHome_of_refused hflow, fun hnumber hnew hplace => atHome_of_new hflow ?_⟩
    rintro (h | h | ⟨hcls, hseq, hfull⟩)
    · exact absurd hnumber (Nat.not_lt.mpr h)
    · exact hnew h
    · exact (hplace hcls).elim hseq (Nat.not_lt.mpr hfull)
  case delivery => exact deliver_of_here
  case ack =>
    intro port f s id x hup hok hack hlen hflow
    have hexec := (exec_ackReceive port f s).trans (execAckReceive_of_ack hup hok hack hlen hflow)
    exact ⟨fun hhome => hexec.trans (if_pos hhome), fun haway => hexec.trans (if_neg haway)⟩
  case acked => exact fun f s id x hflow hlives => ackHome_of_flow hflow hlives
  case retransmit =>
    intro flow seq s f hf hlives due
    exact ⟨fun hlast => (exec_retransmitTimeout ..).trans (congrArg _ (resend_of_last hf hlives hlast)),
      fun hfew => (exec_retransmitTimeout ..).trans (congrArg _ (resend_of_few hf hlives hfew))⟩
  case training =>
    intro port lanes s x hx htrains
    refine ⟨fun hfull => ?_, fun hlow hhigh => ?_, fun hlow hfew => ?_, fun hlow hlast => ?_⟩
    · subst hfull
      exact execPortTrainingEnd_of_port hx htrains le_rfl (trained_full _)
    · exact execPortTrainingEnd_of_port hx htrains hhigh.le (trained_some _ hlow hhigh)
    · exact execPortTrainingEnd_of_port hx htrains (by omega) (trained_again hlow hfew)
    · exact execPortTrainingEnd_of_port hx htrains (by omega) (trained_never hlow hlast)
  case lane => exact fun port s hport hup => execLaneLost_of_port hport hup
  case enable => exact fun port s x hx hdown => execPortEnable_of_port hx hdown
  case disable => exact fun port s hport hthere => execPortDisable_of_port hport hthere
  case links =>
    intro k s hk hport l become
    refine ⟨fun htrains => ⟨?_, fun n hlow hhigh => ?_, fun n hlow hfew => ?_, fun n hlow hlast => ?_⟩, fun hcarries => ?_, fun hdown => ?_, ?_⟩
    · exact execPortTrainingEnd_of_link hk hport htrains le_rfl (trained_full _)
    · exact execPortTrainingEnd_of_link hk hport htrains hhigh.le (trained_some _ hlow hhigh)
    · exact execPortTrainingEnd_of_link hk hport htrains (by omega) (trained_again hlow hfew)
    · exact execPortTrainingEnd_of_link hk hport htrains (by omega) (trained_never hlow hlast)
    · exact execLaneLost_of_link hk hcarries
    · exact execPortEnable_of_link hk hport hdown
    · exact execPortDisable_of_link hk
  case window => exact fun addr len wr s => execCxlMemAccess_of_window s
  case pieces =>
    intro id n s x hx
    refine ⟨stepHost_of_last hx, fun a k rest hpieces => ?_⟩
    exact ⟨fun bs t => stepHost_of_done hx hpieces, fun c t => stepHost_of_fail hx hpieces, fun t => stepHost_of_wait hx hpieces⟩
  case slice =>
    intro id a n wr s
    exact ⟨hostPiece_of_unmapped id n wr, fun off => hostPiece_of_edge wr⟩
  case unit =>
    intro die d n s
    exact ⟨fun bs => hostUnit_read, hostUnit_unreadable, fun bs t hsnaps hwrite => hostUnit_written n hsnaps hwrite,
      fun bs => hostUnit_unwritable n⟩
  case node =>
    intro req s q r h hq hr hh hover henq hrun
    exact (exec_hostTimeout ..).trans (execHostTimeout_of_node hq hr hh hover henq hrun)
  case request =>
    intro req s q hq hr hover
    exact ⟨fun a addr queue v henq => (exec_hostTimeout ..).trans (execHostTimeout_of_enq hq hr hover henq),
      fun i henq hrun hchunks => (exec_hostTimeout ..).trans (execHostTimeout_of_ring hq hr hover henq hrun hchunks)⟩
  case other => exact fun host ref s hother => execTimeSync_of_other ref hother
  case step =>
    intro ref s hfar
    have hfar : s.ns 0 + 1000000 < ref := hfar
    obtain ⟨hmod, hwarps⟩ := syncTime_keeps ref s
    refine ⟨syncTime ref s, execTimeSync_of_chosen ref s, hmod, hwarps, fun d hd => ?_⟩
    rw [syncTime_die ref s hd, syncRate_of_far hfar, decide_eq_true hfar]
    exact ⟨rfl, rfl, rfl⟩
  case slew =>
    intro ref s hne hnear
    obtain ⟨hmod, hwarps⟩ := syncTime_keeps ref s
    refine ⟨syncTime ref s, execTimeSync_of_chosen ref s, hmod, hwarps, fun d hd => ?_⟩
    rw [syncTime_die ref s hd]
    exact ⟨if_neg fun hfar => absurd (of_decide_eq_true hfar) (Nat.not_lt.mpr hnear), syncRate_of_near hne hnear⟩
  case follow =>
    intro die ref s hzero hhost z d
    exact ⟨followTime die s, followRate s, execTimeSync_of_die ref s hzero hhost, followRate_bounds s, rfl, rfl,
      fun k hk => followTime_die_ne s hk, followTime_die die s⟩

end Sys2Proof.Machine
end

section
/-! PROOFS. Copies fire, complete and fill their tokens (R238-R256). -/

namespace Sys2Proof.Machine

/-! ### Copies (R238, R243, R246) -/

theorem exec_copyFire (copy : Nat) (s : State) : exec (.copyFire copy) s = execCopyFire copy s := rfl
theorem exec_copyComplete (copy : Nat) (unit : Option Nat) (s : State) :
    exec (.copyComplete copy unit) s = execCopyComplete copy unit s := rfl

/-- No earlier PUBL holds a copy, which need not write its near side. -/
theorem not_publHolds {copy : Nat} {s : State} {c : Copy}
    (hpubl : c.kind.writesNear = true → publHolds s (c.block.getD 0) c.buf copy = false) :
    ¬ (c.kind.writesNear && publHolds s (c.block.getD 0) c.buf copy) = true := by
  rw [Bool.and_eq_true]
  rintro ⟨hnear, hholds⟩
  exact Bool.false_ne_true ((hpubl hnear).symm.trans hholds)

section
variable {copy : Nat} {s : State} {c : Copy} (hc : tget s.copies copy = some c) (hst : c.st = .waiting) (hthaw : c.frozen = false)
  (hblock : blockFires s c.block = true) (htarget : waitsTarget s c = false)
include hc hst hthaw hblock htarget

/-- A copy that may fire goes on where it was saved, behind its siding's PUBL, or on its siding. -/
theorem execCopyFire_of_waiting : execCopyFire copy s =
    if c.moves ≠ [] then .next (fireGroup c c.start s)
    else if c.kind.writesNear && publHolds s (c.block.getD 0) c.buf copy then .next s
    else match copySide s c with
      | none => .next (fireGroup c c.start s)
      | some prod =>
        let first := tfind s.copies fun _ x => x.group == c.group && x.st == .waiting
        if slotsReady (s.buf (c.block.getD 0) c.buf) prod c.imm &&
            !earlierWaits s (c.block.getD 0) c.buf ((first.map Prod.fst).getD copy) then
          .next (fireGroup c (nextSlot (s.buf (c.block.getD 0) c.buf) prod) (reserveSlots (c.block.getD 0) c.buf prod c.group c.imm s))
        else .next s := by
  have hwaits : (c.st != .waiting) = false := by rw [hst]; rfl
  have hmoves : (!c.moves.isEmpty) = true ↔ c.moves ≠ [] := by cases c.moves <;> simp
  simp only [execCopyFire, hc, hwaits, hthaw, hblock, htarget, Bool.not_true, Bool.or_self, Bool.false_eq_true, if_false, hmoves] <;> rfl

/-- A copy saved in the middle fires as it is. -/
theorem execCopyFire_again (hmoves : c.moves ≠ []) : execCopyFire copy s = .next (fireGroup c c.start s) := by
  rw [execCopyFire_of_waiting hc hst hthaw hblock htarget, if_pos hmoves]

section
variable (hmoves : c.moves = []) (hpubl : c.kind.writesNear = true → publHolds s (c.block.getD 0) c.buf copy = false)
include hmoves hpubl

/-- A copy on no siding fires. -/
theorem execCopyFire_off_siding (hside : copySide s c = none) : execCopyFire copy s = .next (fireGroup c c.start s) := by
  rw [execCopyFire_of_waiting hc hst hthaw hblock htarget, if_neg (not_not_intro hmoves),
    if_neg (not_publHolds hpubl), hside]

/-- A copy on a siding reserves its slots and fires. -/
theorem execCopyFire_on_siding {prod : Bool} {first : Nat × Copy} (hside : copySide s c = some prod)
    (hfirst : tfind s.copies (fun _ x => x.group == c.group && x.st == .waiting) = some first)
    (hready : slotsReady (s.buf (c.block.getD 0) c.buf) prod c.imm = true)
    (hearlier : earlierWaits s (c.block.getD 0) c.buf first.1 = false) : execCopyFire copy s =
      .next (fireGroup c (nextSlot (s.buf (c.block.getD 0) c.buf) prod) (reserveSlots (c.block.getD 0) c.buf prod c.group c.imm s)) := by
  rw [execCopyFire_of_waiting hc hst hthaw hblock htarget, if_neg (not_not_intro hmoves),
    if_neg (not_publHolds hpubl), hside]
  simp only [hfirst, Option.map_some, Option.getD_some, hready, hearlier, Bool.not_false, Bool.and_self, if_true]

end
end

section
variable {c x : Copy} {start : Word} {s : State} {k : Nat} (hx : tget s.copies k = some x) (hgroup : x.group = c.group)
  (hst : x.st = .waiting)
include hx hgroup hst

/-- What firing makes of a command of the word. -/
theorem fireGroup_copy : tget (fireGroup c start s).copies k = some (
    if !x.moves.isEmpty then { x with st := .fired }
    else match copyMoves s { x with start := start } with
      | .error st => { x with start := start, st := .fired, status := st, moves := [] }
      | .ok ms => { x with start := start, st := .fired, moves := ms }) := by
  have hwaits : (x.group != c.group || x.st != .waiting) = false := by
    rw [hgroup, hst, bne_self_eq_false]
    rfl
  simp only [fireGroup, tget_tmap, hx, Option.map_some, hwaits, Bool.false_eq_true, if_false] <;> rfl

theorem fireGroup_again (hmoves : x.moves ≠ []) : tget (fireGroup c start s).copies k = some { x with st := .fired } := by
  rw [fireGroup_copy hx hgroup hst, if_pos (by simpa using hmoves)]

section
variable (hmoves : x.moves = [])
include hmoves

theorem fireGroup_error {st : Nat} (herr : copyMoves s { x with start := start } = .error st) :
    tget (fireGroup c start s).copies k = some { x with start := start, st := .fired, status := st, moves := [] } := by
  rw [fireGroup_copy hx hgroup hst, if_neg (by simp [hmoves]), herr]

theorem fireGroup_ok {ms : List Move} (hok : copyMoves s { x with start := start } = .ok ms) :
    tget (fireGroup c start s).copies k = some { x with start := start, st := .fired, moves := ms } := by
  rw [fireGroup_copy hx hgroup hst, if_neg (by simp [hmoves]), hok]

end
end

/-- A fired copy performs a unit, or the rest and its token. -/
theorem execCopyComplete_of_fired {copy : Nat} {s : State} {c : Copy} (hc : tget s.copies copy = some c) (hst : c.st = .fired)
    (hthaw : c.frozen = false) : (∀ u, execCopyComplete copy (some u) s = .next (copyUnit copy u s)) ∧
    execCopyComplete copy none s = .next (finishCopy copy (copyRest copy c.moves.length s)) := by
  have hfired : (c.st != .fired) = false := by rw [hst]; rfl
  simp only [execCopyComplete, hc, hfired, hthaw, Bool.or_self, Bool.false_eq_true, if_false, implies_true, and_self]

/-! ### Siding waits (R252) -/

theorem exec_rwaitFill (wait : Nat) (s : State) : exec (.rwaitFill wait) s = execRwaitFill wait s := rfl

section
variable {wait b q k r : Nat} {s : State} (hring : (s.buf b q).kind = .ring) (hstands : s.parked b = false)
include hring hstands

/-- A producer's wait whose count is reached. -/
theorem execRwaitFill_of_producer (hwait : tget s.rwaits wait = some (b, q, k, r, true))
    (hcount : k ≤ ((s.buf b q).c + BitVec.ofNat 32 (s.buf b q).slots - (s.buf b q).p).toNat) : execRwaitFill wait s =
      let t := fillToken (tgetD s.rwaitW wait 0) r (s.buf b q).c (s.modBuf b q fun y => { y with rl := y.c })
      .next { t with rwaits := tdel t.rwaits wait, rwaitW := tdel t.rwaitW wait } := by
  have hgoes : ((s.buf b q).kind != .ring) = false := by rw [hring]; rfl
  simp only [execRwaitFill, hwait, hgoes, hstands, Bool.or_self, Bool.false_eq_true, if_false, hcount, decide_true, if_true]

/-- A consumer's wait whose count is reached. -/
theorem execRwaitFill_of_consumer (hwait : tget s.rwaits wait = some (b, q, k, r, false))
    (hcount : k ≤ ((s.buf b q).p - (s.buf b q).c).toNat) : execRwaitFill wait s =
      let t := fillToken (tgetD s.rwaitW wait 0) r (s.buf b q).p
        (acquireSlots b q (s.buf b q).aq (s.modBuf b q fun y => { y with aq := y.p }))
      .next { t with rwaits := tdel t.rwaits wait, rwaitW := tdel t.rwaitW wait } := by
  have hgoes : ((s.buf b q).kind != .ring) = false := by rw [hring]; rfl
  simp only [execRwaitFill, hwait, hgoes, hstands, Bool.or_self, Bool.false_eq_true, if_false, hcount, decide_true, if_true]

end

/-! ### Schedules (R256) -/

theorem exec_scheduleFiring (block : Nat) (s : State) : exec (.scheduleFiring block) s = execScheduleFiring block s := rfl

section
variable {block e w0 w : Nat} {s : State} {x : Block} {d : Sched} {en : SchedEntry} {p0 p : Warp} {rest : List (Nat × Warp)}
  (hx : s.block? block = some x) (hd : x.sched = some d) (hnext : d.next x.sigma.toNat = some (e, en))
  (hwarps : s.blockWarps block = (w0, p0) :: rest) (hsaving : x.saving = false) (hst : x.st = .running ∨ x.st = .shrinking)
  (hfind : ((w0, p0) :: rest).find? (fun y => y.2.index == en.warp) = some (w, p))
  (hfull : (p.wregs.getD en.token ⟨0, true⟩).full = true)
include hx hd hnext hwarps hsaving hst hfind hfull

/-- A due entry whose token register is full fires, a copy at its place. -/
theorem execScheduleFiring_of_due : execScheduleFiring block s = .next (
    if (schedKind en.op).isNone then fireEntry block x d e en w p true s
    else schedPlace block x.die (coreOfIndex x en.warp) (fireEntry block x d e en w p true) s) := by
  have hruns : (x.st == .running || x.st == .shrinking) = true := by simpa using hst
  have hfull : (p.wregs.getD en.token zeroReg).full = true := hfull
  simp only [execScheduleFiring, hx, hd, hnext, hwarps, hsaving, hruns, Bool.not_true, Bool.or_self, Bool.false_eq_true, if_false, hfind,
    hfull, if_true]

theorem execScheduleFiring_of_publ (hkind : schedKind en.op = none) :
    execScheduleFiring block s = .next (fireEntry block x d e en w p true s) := by
  rw [execScheduleFiring_of_due hx hd hnext hwarps hsaving hst hfind hfull, hkind, Option.isNone_none, if_pos rfl]

section
variable (hkind : schedKind en.op ≠ none)
include hkind

/-- A copy's entry goes through the places of its core. -/
theorem execScheduleFiring_of_copy : execScheduleFiring block s =
    .next (schedPlace block x.die (coreOfIndex x en.warp) (fireEntry block x d e en w p true) s) := by
  rw [execScheduleFiring_of_due hx hd hnext hwarps hsaving hst hfind hfull, if_neg (by simpa using hkind)]

theorem execScheduleFiring_takes (hroom : copiesUsed s x.die (coreOfIndex x en.warp) < 128)
    (hnone : copyWaiters s x.die (coreOfIndex x en.warp) = []) : execScheduleFiring block s =
      .next (fireEntry block x d e en w p true
        (s.modCore x.die (coreOfIndex x en.warp) fun c => { c with copyQ := c.copyQ.filter (· != (block, .a)) })) := by
  rw [execScheduleFiring_of_copy hx hd hnext hwarps hsaving hst hfind hfull hkind]
  simp only [schedPlace, hroom, hnone, decide_true, List.isEmpty_nil, Bool.true_or, Bool.and_self, if_true, modCopyQ]

theorem execScheduleFiring_waits (hroom : 128 ≤ copiesUsed s x.die (coreOfIndex x en.warp))
    (hnew : (block, .a) ∉ copyWaiters s x.die (coreOfIndex x en.warp)) : execScheduleFiring block s =
      .next (s.modCore x.die (coreOfIndex x en.warp) fun c => { c with
        copyQ := copyWaiters s x.die (coreOfIndex x en.warp) ++ [(block, .a)] }) := by
  have hnew : (copyWaiters s x.die (coreOfIndex x en.warp)).contains (block, .a) = false :=
    Bool.eq_false_iff.mpr fun hin => hnew (List.contains_iff_mem.mp hin)
  rw [execScheduleFiring_of_copy hx hd hnext hwarps hsaving hst hfind hfull hkind]
  simp only [schedPlace, Nat.not_lt.mpr hroom, hnew, decide_false, Bool.false_and, Bool.false_eq_true, if_false, modCopyQ]

end
end

/-- Settles O42, each clause by the lemma about its step. -/
theorem copySteps : Obligations.CopySteps := by
  refine ⟨?fire, ?again, ?group, ?complete, ?producer, ?consumer, ?schedule⟩
  case fire =>
    intro copy s c hc hst hthaw hblock htarget
    refine ⟨execCopyFire_again hc hst hthaw hblock htarget, fun hmoves hpubl => ⟨?_, ?_⟩⟩
    · exact execCopyFire_off_siding hc hst hthaw hblock htarget hmoves hpubl
    · intro prod first hside hfirst q hready hearlier
      exact execCopyFire_on_siding hc hst hthaw hblock htarget hmoves hpubl hside hfirst hready hearlier
  case again => exact fun c start s k x hx hgroup hst hmoves => fireGroup_again hx hgroup hst hmoves
  case group =>
    intro c start s k x hx hgroup hst hmoves y
    exact ⟨fun st herr => fireGroup_error hx hgroup hst hmoves herr, fun ms hok => fireGroup_ok hx hgroup hst hmoves hok⟩
  case complete => exact fun copy s c hc hst hthaw => execCopyComplete_of_fired hc hst hthaw
  case producer => exact fun wait s b q k r hwait hring hstands hcount => execRwaitFill_of_producer hring hstands hwait hcount
  case consumer => exact fun wait s b q k r hwait hring hstands hcount => execRwaitFill_of_consumer hring hstands hwait hcount
  case schedule =>
    intro block s x d e en w0 p0 rest w p hx hd hnext hwarps hsaving hst hfind hfull core
    exact ⟨execScheduleFiring_of_publ hx hd hnext hwarps hsaving hst hfind hfull,
      execScheduleFiring_takes hx hd hnext hwarps hsaving hst hfind hfull,
      execScheduleFiring_waits hx hd hnext hwarps hsaving hst hfind hfull⟩

end Sys2Proof.Machine
end

section
/-! PROOFS. Regions open, commit and abort (R219-R231). -/

namespace Sys2Proof.Machine

/-! ### Opening and committing (R219, R223, R229, R231) -/

theorem exec_regionOpen (w : Nat) (s : State) : exec (.regionOpen w) s = execRegionOpen w s := rfl
theorem exec_regionCommit (w : Nat) (s : State) : exec (.regionCommit w) s = execRegionCommit w s := rfl

/-- The die's first waiting warp gets the lowest free slot and the next stamp. -/
theorem execRegionOpen_of_first {w slot : Nat} {s : State} {x : Warp} {rest : List Nat} (hx : s.warp? w = some x)
    (hopening : x.region = .opening) (hslot : lowestFree 64 ((s.die x.die).regions.map Region.slot) = some slot)
    (hfirst : ((s.die x.die).opening.filter fun k => ((s.warp? k).map fun y => y.region == .opening).getD false) = w :: rest)
    (hstamp : stampOk (s.die x.die) = true) (hexcl : exclusiveLive (s.die x.die) = false)
    (halone : 8 ≤ x.aborts → (s.die x.die).regions = []) : execRegionOpen w s =
      .next (releaseWhere w (· == .regb)
        ((s.setDie x.die { s.die x.die with
            opening := rest, stamp := (s.die x.die).stamp + 1
            regions := (s.die x.die).regions ++ [⟨slot, w, x.share, (s.die x.die).stamp, decide (8 ≤ x.aborts), [], [], []⟩] }).modWarp w
          fun y => { y with region := .live slot })) := by
  have hprogress : (!decide (8 ≤ x.aborts) || (s.die x.die).regions.isEmpty) = true := by
    by_cases hmany : 8 ≤ x.aborts
    · rw [halone hmany, List.isEmpty_nil, Bool.or_true]
    · rw [decide_eq_false hmany, Bool.not_false, Bool.true_or]
  simp only [execRegionOpen, hx, hslot, hfirst, hopening, List.head?_cons, List.tail_cons, beq_self_eq_true, decide_true, hstamp, hexcl,
    hprogress, Bool.not_false, Bool.and_self, if_true]

/-- A committing region with no predecessor, all of whose accesses are performed, writes its bytes and is no more. -/
theorem execRegionCommit_of_last {w die : Nat} {s : State} {x : Warp} {r : Region} (hx : s.warp? w = some x)
    (hr : warpRegion s w = some (die, r)) (hcommitting : x.region = .committing r.slot) (hidle : regionBusy s w = false)
    (hfirst : ∀ e ∈ (s.die die).edges, e.to_ ≠ r.slot) : execRegionCommit w s =
      .next (releaseWhere w (· == .rege)
        ((((s.modDie die fun d => { d with
            regions := d.regions.filter fun q => q.slot != r.slot
            edges := d.edges.filter fun e => e.from_ != r.slot
            chains := d.chains.map fun g => (g.1, g.2.1, g.2.2.filter (· != r.slot)) }).modShare r.share fun h =>
          { h with home := msetAll h.home r.writes })).modWarp w fun y => { y with region := .none, aborts := 0, reason := 0 })) := by
  have hedges : (s.die die).edges.all (fun e => e.to_ != r.slot) = true := by
    simpa only [List.all_eq_true, bne_iff_ne] using hfirst
  simp only [execRegionCommit, hx, hr, hcommitting, hidle, hedges, decide_true, Bool.not_false, Bool.and_self, if_true, writeHome]

/-! ### Aborts (R225, R227, R228, R230) -/

/-- A warp's region, live or committing, aborts alone or with its forward dependents. -/
theorem abortRegion_of_slot {w slot : Nat} (reason : Nat) {s : State} {x : Warp} (hx : s.warp? w = some x)
    (hregion : x.region = .live slot ∨ x.region = .committing slot) : abortRegion w reason s = abortSlots x.die reason [slot] s := by
  obtain hlive | hcommitting := hregion
  · simp only [abortRegion, hx, hlive]
  · simp only [abortRegion, hx, hcommitting]

/-- The slots that hold a forward edge from one of some slots and are not among them. -/
def cascadeMore (d : Die) (slots : List Nat) : List Nat :=
  (d.edges.filter fun e => e.fwd && slots.contains e.from_ && !slots.contains e.to_).map Edge.to_

theorem cascade_succ (d : Die) (n : Nat) (slots : List Nat) :
    cascade d (n + 1) slots = if (cascadeMore d slots).isEmpty then slots else cascade d n (slots ++ (cascadeMore d slots).dedup) := rfl

theorem mem_cascadeMore {d : Die} {slots : List Nat} {e : Edge} (he : e ∈ d.edges) (hfwd : e.fwd = true) (hfrom : e.from_ ∈ slots)
    (hto : e.to_ ∉ slots) : e.to_ ∈ cascadeMore d slots := by
  refine List.mem_map.mpr ⟨e, List.mem_filter.mpr ⟨he, ?_⟩, rfl⟩
  simp [hfwd, hfrom, hto]

theorem mem_cascade (d : Die) (n : Nat) {slots : List Nat} {k : Nat} (hk : k ∈ slots) : k ∈ cascade d n slots := by
  induction n generalizing slots with
  | zero => exact hk
  | succ n ih =>
    rw [cascade_succ]
    split
    · exact hk
    · exact ih (List.mem_append_left _ hk)

/-- A forward edge carries the abort on. -/
theorem mem_cascade_of_edge {d : Die} (n : Nat) {slots : List Nat} {e : Edge} (he : e ∈ d.edges) (hfwd : e.fwd = true)
    (hfrom : e.from_ ∈ slots) : e.to_ ∈ cascade d (n + 1) slots := by
  by_cases hto : e.to_ ∈ slots
  · exact mem_cascade d (n + 1) hto
  · have hmore := mem_cascadeMore he hfwd hfrom hto
    rw [cascade_succ, if_neg fun hempty => List.ne_nil_of_mem hmore (List.isEmpty_iff.mp hempty)]
    exact mem_cascade d n (List.mem_append_right _ (List.mem_dedup.mpr hmore))

/-- Where no forward edge leaves the slots, nothing aborts with them. -/
theorem cascade_of_closed {d : Die} (n : Nat) {slots : List Nat}
    (hclosed : ∀ e ∈ d.edges, e.fwd = true → e.from_ ∈ slots → e.to_ ∈ slots) : cascade d n slots = slots := by
  cases n with
  | zero => rfl
  | succ n =>
    have hmore : cascadeMore d slots = [] := by
      rw [cascadeMore, List.map_eq_nil_iff, List.filter_eq_nil_iff]
      intro e he hin
      simp only [Bool.and_eq_true, Bool.not_eq_true', List.contains_iff_mem] at hin
      obtain ⟨⟨hfwd, hfrom⟩, hout⟩ := hin
      exact Bool.false_ne_true (hout.symm.trans (List.contains_iff_mem.mpr (hclosed e he hfwd hfrom)))
    rw [cascade_succ, hmore, List.isEmpty_nil, if_pos rfl]

/-- Whether a bundle of an aborted warp stays issued: not when it is blocked at a region access. -/
def issueStays (s : State) (w : Nat) (i : Issue) : Bool := !(i.inAccess || (i.lanes &&& stalledLanes s w) != 0)

/-- Whether a lane of an aborted warp executes a clause that stays. -/
def laneBusy (s : State) (w : Nat) (x : Warp) (l : Nat) : Bool :=
  ([x.issA, x.issB].reduceOption ++
    ((s.parks.filter fun p => p.2.warp == w && !(p.2.ready || !issueStays s w p.2.iss)).map fun p => p.2.iss)).any
      fun i => i.lanes.getLsbD l && issueStays s w i

/-- The warp of an aborted region. -/
theorem abortWarp_keeps {w : Nat} (reason : Nat) {s : State} {x : Warp} (hx : s.warp? w = some x) :
    (abortWarp w reason s).shares = s.shares ∧ ∃ y, (abortWarp w reason s).warp? w = some y ∧ y.region = .none ∧
      y.aborts = x.aborts + 1 ∧ y.reason = reason ∧ y.threads.length = x.threads.length ∧ ∀ l u, x.thread l = some u →
        y.thread l = some (redirectThread x.rtarget s.instant (s.die x.die).time (laneBusy s w x l) (reason == 4) u) := by
  have hstays : ∀ p : Nat × Parked, (p.2.warp == w && (p.2.warp != w || !(p.2.ready || (p.2.iss.inAccess ||
      (p.2.iss.lanes &&& stalledLanes s w) != 0)))) = (p.2.warp == w && !(p.2.ready || !issueStays s w p.2.iss)) := by
    intro p
    rw [issueStays, Bool.not_not, bne, Bool.and_or_distrib_left, Bool.and_not_self, Bool.false_or]
  unfold abortWarp
  rw [hx]
  refine ⟨rfl, _, State.warp?_setWarp s w _, rfl, rfl, rfl, List.length_mapIdx, fun l u hu => ?_⟩
  have hu : x.threads[l]? = some u := hu
  simp only [Warp.thread, List.getElem?_mapIdx, hu, Option.map_some, hstays]
  rfl

/-- Where the abort of its region sends a thread. -/
theorem redirectThread_of_region {target group now : Nat} {executing saved : Bool} {t : Thread}
    (hst : t.st = .waiting .regb ∨ t.st = .waiting .rege) :
    redirectThread target group now executing saved t = t.ready (atHeader target) group now := by
  rw [redirectThread]
  obtain hst | hst := hst <;> rw [hst]

theorem redirectThread_of_ready {target group now : Nat} {executing saved : Bool} {t : Thread} (hst : t.st = .ready) :
    redirectThread target group now executing saved t =
      { t.ready (atHeader target) group now with count := if saved then t.count else 0 } := by
  rw [redirectThread, hst]

theorem redirectThread_of_issued {target group now : Nat} {executing saved : Bool} {t : Thread} (hst : t.st = .issued) :
    redirectThread target group now executing saved t =
      if executing then { t with redirect := some target } else t.ready (atHeader target) group now := by
  rw [redirectThread, hst]

theorem redirectThread_of_wait {target group now : Nat} {executing saved : Bool} {t : Thread} {q : Wait} (hst : t.st = .waiting q)
    (hregb : q ≠ .regb) (hrege : q ≠ .rege) : redirectThread target group now executing saved t =
      if saved then t.ready (atHeader target) group now else { t with pc := atHeader target, redirect := some target } := by
  unfold redirectThread
  rw [hst]
  split
  case h_5 => rfl
  all_goals simp_all

theorem redirectThread_of_gone {target group now : Nat} {executing saved : Bool} {t : Thread} (hgone : t.live = false) :
    redirectThread target group now executing saved t = t := by
  unfold Thread.live at hgone
  unfold redirectThread
  cases hst : t.st
  case exited | off => rfl
  all_goals simp [hst] at hgone

/-- A trap aborts the region with reason 5, and its frame keeps the region's target. -/
theorem enterTrap_aborts {w l : Nat} (at_ : WordAt) (cause faddr : Nat) (code : Word) (target : Option Nat) {s : State} {x : Warp}
    {t : Thread} (hx : s.warp? w = some x) (ht : x.thread l = some t) (hout : t.trap = none) (htvec : (s.ctx x.ctx).tvec ≠ 0) :
    let u := abortRegion w 5 s
    let frame : TrapFrame :=
      { cause := cause, code := code, pred := (t.preds &&& 0x7F).setWidth 32, cpc := at_.hdr, cidx := at_.idx
        faddr := BitVec.ofNat 64 faddr, cls := at_.cls, count := at_.count
        window := List.replicate 32 ⟨0, true⟩, target := t.redirect.or target }
    enterTrap w l at_ cause faddr code target s = u.modWarp w fun y =>
      { y.modThread l (fun v => { v.ready (atHeader (u.ctx x.ctx).tvec.toNat) u.instant (u.die x.die).time with trap := some frame }) with
        ctxsel := x.ctx } := by
  simp only [enterTrap, hx, ht, hout, htvec, Option.isSome_none, Bool.false_eq_true, if_false]
  rfl

theorem laneFault_of_lanes {m : Lanes} (w : Nat) (s : State) (hm : m ≠ 0) : laneFault w m s =
    leaveLanes w m .off 5 (s.modWarp w fun x => { x with faults := x.faults ||| m, faulted := x.faulted ||| m }) := by
  rw [laneFault, if_neg hm]

/-- The regions of a share that a write from outside meets. -/
def externalHits (s : State) (h die : Nat) (cells : List Host.Cell) : List Nat :=
  ((s.die die).regions.filter fun r => r.share == h && r.reads.any (granules (cells.map Prod.fst)).contains).map Region.slot

/-- A write from outside aborts what it meets before it is made. -/
theorem homeWrite_eq {h : Nat} (cells : List Host.Cell) {s : State} {x : Share} (hx : s.share? h = some x) : homeWrite h cells s =
    (if (externalHits s h x.die cells).isEmpty then s else abortSlots x.die 6 (externalHits s h x.die cells) s).modShare h
      fun y => { y with home := msetAll y.home cells } := by
  have hnone : ∀ k : Nat, (some k != (none : Option Nat)) = true := fun _ => rfl
  simp only [homeWrite, hx, writeHome, externalWrite, hnone, Bool.and_true, externalHits]
  rfl

/-- A warp that stands at a clause boundary is settled for its save. -/
theorem settleWarp_of_boundary {w : Nat} {s : State} {x : Warp} (hx : (readyParks w (parkBundle w .b (parkBundle w .a s))).warp? w = some x)
    (ha : x.issA = none) (hb : x.issB = none) : settleWarp w s =
      (standAtTargets w (abortRegion w 4 (readyParks w (parkBundle w .b (parkBundle w .a s))))).modDie x.die
        fun d => { d with opening := d.opening.filter (· != w) } := by
  simp only [settleWarp, hx, ha, hb, Option.isNone_none, Bool.and_self, if_true]

/-- Settles O40, each clause by the lemma about its step. -/
theorem regionSteps : Obligations.RegionSteps := by
  refine ⟨?opens, ?commits, ?region, ?slots, ?cascade, ?warp, ?thread, ?trap, ?fault, ?external, ?save⟩
  case opens =>
    exact fun w s x slot rest hx hopening hslot hfirst hstamp hexcl halone =>
      execRegionOpen_of_first hx hopening hslot hfirst hstamp hexcl halone
  case commits => exact fun w s x die r hx hr hcommitting hidle hfirst => execRegionCommit_of_last hx hr hcommitting hidle hfirst
  case region => exact fun w reason s x slot hx hregion => abortRegion_of_slot reason hx hregion
  case slots => exact fun die reason slots s => rfl
  case cascade =>
    intro d n slots
    exact ⟨fun k => mem_cascade d n, fun e => mem_cascade_of_edge n, cascade_of_closed n⟩
  case warp => exact fun w reason s x hx => abortWarp_keeps reason hx
  case thread =>
    intro target group now executing saved t goes at_
    exact ⟨redirectThread_of_region, redirectThread_of_ready, redirectThread_of_issued, fun q => redirectThread_of_wait,
      redirectThread_of_gone⟩
  case trap =>
    exact fun w l at_ cause faddr code target s x t hx ht hout htvec => enterTrap_aborts at_ cause faddr code target hx ht hout htvec
  case fault => exact fun w m s hm => laneFault_of_lanes w s hm
  case external =>
    intro h cells s x hx hit writes
    refine ⟨fun hnone => ?_, fun hsome => ?_⟩
    · exact (homeWrite_eq cells hx).trans (congrArg writes (if_pos (List.isEmpty_iff.mpr hnone)))
    · exact (homeWrite_eq cells hx).trans (congrArg writes (if_neg (mt List.isEmpty_iff.mp hsome)))
  case save =>
    intro w s x t hx ha hb
    exact settleWarp_of_boundary hx ha hb

end Sys2Proof.Machine
end

section
/-! PROOFS. MMAs fire, and tile operations and updates are performed (R261-R287). -/

namespace Sys2Proof.Machine

/-! ### MMAs (R266) -/

theorem exec_mmaFire (top : Nat) (s : State) : exec (.mmaFire top) s = execMmaFire top s := rfl

theorem endTile_of_operation {top : Nat} {s : State} {t : TileOp} (ht : tget s.tops top = some t) :
    endTile top s = reapWarp t.warp (acceptRounds t.die t.core { s with tops := tdel s.tops top }) := by
  simp only [endTile, ht]

/-- What an MMA needs of its words, its operand and its tile to issue rather than diverge (R266). -/
def mmaAgrees (x : Warp) (r : SignRound) (mem : Lanes) (keep z : Bool) (a : Latch) (bw : Word) (tile : Tile) : Prop :=
  fmtKind bw < 2 ∧ biasOk (fmtBias bw) = true ∧ (keep = false → wordsAgree x r mem = true) ∧ a.kind % 2 = fmtKind bw ∧
    (z = true ∨ tile.cls = .unset ∨ tile.cls = (if a.kind < 2 then .sx else .vx))

/-- The test of an MMA that fires says so. -/
theorem mmaAgrees_test {x : Warp} {r : SignRound} {mem : Lanes} {keep z : Bool} {a : Latch} {bw : Word} {tile : Tile} :
    (decide (fmtKind bw < 2) && biasOk (fmtBias bw) && (keep || wordsAgree x r mem) && a.kind % 2 == fmtKind bw &&
      (z || tile.cls == .unset || tile.cls == (if a.kind < 2 then .sx else .vx))) = true ↔ mmaAgrees x r mem keep z a bw tile := by
  have hwords : (keep || wordsAgree x r mem) = true ↔ (keep = false → wordsAgree x r mem = true) := by cases keep <;> simp
  rw [mmaAgrees, ← hwords]
  simp only [Bool.and_eq_true, decide_eq_true_eq, beq_iff_eq, Bool.or_eq_true, and_assoc, or_assoc]

section
variable {top m h q : Nat} {z tr keep : Bool} {s : State} {t : TileOp} {x : Warp} {blk : Block} {k : MaskReg} {r : SignRound}
  (ht : tget s.tops top = some t) (hkind : t.kind = .mma m z tr keep h q) (hx : s.warp? t.warp = some x)
  (hblk : s.block? t.block = some blk) (hk : x.masks[m]? = some k) (hr : k.round = some r) (hjoined : joined s top t = true)
  (hfires : tileFires s t = true)
include ht hkind hx hblk hk hr hjoined hfires

/-- An MMA whose signers have all left is given up. -/
theorem execMmaFire_of_left (hleft : r.signed &&& k.bits = 0) : execMmaFire top s = .next (closeRound t.warp m (endTile top s)) := by
  have hround : ((x.masks[m]?).bind fun k => k.round.map fun r => (k.bits, r)) = some (k.bits, r) := by
    rw [hk, Option.bind_some, hr, Option.map_some]
  simp only [execMmaFire, ht, hkind, hx, hblk, hround, hjoined, hfires, Bool.not_true, Bool.or_self, Bool.false_eq_true, if_false, hleft,
    if_true]

section
variable (hsigned : r.signed &&& k.bits ≠ 0) (hready : slotsReady (s.buf t.block q) false 1 = true)
  (hearlier : earlierWaits s t.block q top = false)
include hsigned hready hearlier

/-- An MMA reads its block, and issues or diverges. -/
theorem execMmaFire_of_signed :
    let b := s.buf t.block q
    let bs := nearRead s blk b.die (nearAddr b true b.cr 0) 1028
    let bw := natWord (leNat (bs.drop 1024))
    let a := enteringLatch x keep r (r.signed &&& k.bits)
    let tile := blk.tile t.half t.tile
    let ended := endTile top (endSlots t.block q false top (reserveSlots t.block q false top 1 s))
    execMmaFire top s = if (decide (fmtKind bw < 2) && biasOk (fmtBias bw) && (keep || wordsAgree x r (r.signed &&& k.bits)) &&
        a.kind % 2 == fmtKind bw && (z || tile.cls == .unset || tile.cls == (if a.kind < 2 then .sx else .vx))) = true
      then .next (closeRound t.warp m ((ended.modTile t.block t.half t.tile fun u => mmaTile u z h a (fmtKind bw) tr bs bw).modWarp t.warp
        fun y => { y with latch := a }))
      else .next (diverge t.warp m x r ended) := by
  have hround : ((x.masks[m]?).bind fun k => k.round.map fun r => (k.bits, r)) = some (k.bits, r) := by
    rw [hk, Option.bind_some, hr, Option.map_some]
  simp only [execMmaFire, ht, hkind, hx, hblk, hround, hjoined, hfires, hsigned, hready, hearlier, Bool.not_true, Bool.or_self,
    Bool.false_eq_true, if_false]

end
end

/-! ### Tile operations (R270-R274, R279-R287) -/

theorem exec_tileOperationPerform (top : Nat) (s : State) : exec (.tileOperationPerform top) s = execTileOperationPerform top s := rfl

section
variable {top : Nat} {s : State} {t : TileOp} {b : Block} (ht : tget s.tops top = some t) (hb : s.block? t.block = some b)
  (hwaits : t.fired = false) (hjoined : joined s top t = true) (hfires : tileFires s t = true)
include ht hb hwaits hjoined hfires

theorem execTileOperationPerform_of_mclr {h : Nat} (hkind : t.kind = .mclr h) : execTileOperationPerform top s =
    .next (endTile top (s.modTile t.block t.half t.tile fun _ => clearTile h)) := by
  simp only [execTileOperationPerform, ht, hb, hwaits, hjoined, hfires, hkind, TileKind.writes, Bool.not_true, Bool.or_self,
    Bool.false_eq_true, if_false, performTile]

theorem execTileOperationPerform_of_mldt {raw : Bool} {q n : Nat} {c : Word} (hkind : t.kind = .mldt raw q n c) :
    let bs := nearRead s b (b.buf q).die (nearAddr (b.buf q) true 0 (16 * n)) 8192
    execTileOperationPerform top s =
      .next (endTile top (s.modTile t.block t.half t.tile fun _ => loadTile raw c fun k => leNat ((bs.drop (8 * k)).take 8))) := by
  simp only [execTileOperationPerform, ht, hb, hwaits, hjoined, hfires, hkind, TileKind.writes, Bool.not_true, Bool.or_self,
    Bool.false_eq_true, if_false, performTile]

theorem execTileOperationPerform_of_mmovr {raw : Bool} {dst : Nat} {ls : List (Nat × Nat × Bool)} (hkind : t.kind = .mmovr raw dst ls) :
    execTileOperationPerform top s = .next (endTile top (landTile t.warp dst (ls.map fun l =>
      (l.1, l.2.2, [loOf (readElem raw (b.tile t.half t.tile) l.2.1), hiOf (readElem raw (b.tile t.half t.tile) l.2.1)])) s)) := by
  simp only [execTileOperationPerform, ht, hb, hwaits, hjoined, hfires, hkind, TileKind.writes, Bool.not_true, Bool.or_self,
    Bool.false_eq_true, if_false, performTile]

theorem execTileOperationPerform_of_mmovw {raw : Bool} {ls : List (Nat × Nat × Word64)} (hkind : t.kind = .mmovw raw ls) :
    execTileOperationPerform top s = .next (endTile top
      (s.modTile t.block t.half t.tile fun u => ls.foldl (fun u l => writeElem raw u l.2.1 l.2.2) u)) := by
  simp only [execTileOperationPerform, ht, hb, hwaits, hjoined, hfires, hkind, TileKind.writes, Bool.not_true, Bool.or_self,
    Bool.false_eq_true, if_false, performTile]

theorem execTileOperationPerform_of_mqry {row : Bool} {dst : Nat} {ls : List (Nat × Nat × Bool)} (hkind : t.kind = .mqry row dst ls) :
    execTileOperationPerform top s = .next (endTile top (landTile t.warp dst (ls.map fun l =>
      (l.1, l.2.2, [if row then rowStatus (b.tile t.half t.tile) l.2.1 else tileStatus (b.tile t.half t.tile)])) s)) := by
  simp only [execTileOperationPerform, ht, hb, hwaits, hjoined, hfires, hkind, TileKind.writes, Bool.not_true, Bool.or_self,
    Bool.false_eq_true, if_false, performTile]

theorem execTileOperationPerform_of_update {u mem : Bool} {a st : Nat} {lr : Word} (hkind : t.kind = .update u mem a st lr) :
    execTileOperationPerform top s =
      .next { s with tops := tput s.tops top { t with fired := true, vals := updateVals (b.tile t.half t.tile) } } := by
  simp only [execTileOperationPerform, ht, hb, hwaits, hjoined, hfires, hkind, TileKind.writes, Bool.not_true, Bool.or_self,
    Bool.false_eq_true, if_false]

section
variable (hpubl : ∀ q, t.kind.writes = some q → publHolds s t.block q top = false)
include hpubl

/-- A store drain, in one slot of a siding. -/
theorem execTileOperationPerform_of_mdrain {fmt rnd q n o : Nat} (hkind : t.kind = .mdrain fmt rnd q n o) :
    let d := drainBytes (b.tile t.half t.tile) fmt (rndOf rnd)
    execTileOperationPerform top s = if (b.buf q).kind = .ring then
        if slotsReady (b.buf q) true 1 && !earlierWaits s t.block q top then
          .next (endTile top (endSlots t.block q true top
            (drainWrite t top q n o (b.buf q).pr d.1 d.2 (reserveSlots t.block q true top 1 s))))
        else .next s
      else .next (endTile top (drainWrite t top q n o 0 d.1 d.2 s)) := by
  have hfree := hpubl q (by rw [hkind]; rfl)
  simp only [execTileOperationPerform, ht, hb, hwaits, hjoined, hfires, hkind, TileKind.writes, hfree, Bool.not_true, Bool.or_self,
    Bool.false_eq_true, if_false]

theorem execTileOperationPerform_of_qdual {bf : Bool} {rnd q n o : Nat} {w : Word} (hkind : t.kind = .qdual bf rnd q n o w) :
    let bs := nearRead s b (b.buf q).die (nearAddr (b.buf q) true 0 n) (if bf then 2048 else 4096)
    execTileOperationPerform top s = .next (endTile top (drainWrite t top q o o 0 (dualBytes bf (rndOf rnd) w bs) [] s)) := by
  have hfree := hpubl q (by rw [hkind]; rfl)
  simp only [execTileOperationPerform, ht, hb, hwaits, hjoined, hfires, hkind, TileKind.writes, hfree, Bool.not_true, Bool.or_self,
    Bool.false_eq_true, if_false]

theorem execTileOperationPerform_of_rqnt {rnd q n o : Nat} {w : Word} (hkind : t.kind = .rqnt rnd q n o w) :
    let bs := nearRead s b (b.buf q).die (nearAddr (b.buf q) true 0 n) (min 4112 ((b.buf q).size - n))
    let r := requantBytes (rndOf rnd) (sourceWord s bs) w bs
    execTileOperationPerform top s =
      .next (endTile top (drainWrite t top q o (o + if fmtKind w = 4 then 4096 else 1024) 0 r.1 r.2 s.bump)) := by
  have hfree := hpubl q (by rw [hkind]; rfl)
  simp only [execTileOperationPerform, ht, hb, hwaits, hjoined, hfires, hkind, TileKind.writes, hfree, Bool.not_true, Bool.or_self,
    Bool.false_eq_true, if_false]

end
end

/-! ### Tile updates (R283, R284) -/

theorem exec_portOperation (op unit : Nat) (s : State) : exec (.portOperation op unit) s = execPortOperation op unit s := rfl
theorem exec_tileUpdatePerform (top : Nat) (s : State) : exec (.tileUpdatePerform top) s = execTileUpdatePerform top s := rfl

/-- The address of a unit of a tile update. -/
def unitAddr (a st unit : Nat) : Nat := a + unit / 8 * st + 16 * (unit % 8)

/-- The four words of a unit: where they stand, and the values that change them. -/
def unitVals (t : TileOp) (a st unit : Nat) : List (Nat × Option (Int × Int)) :=
  (List.range 4).map fun k => (unitAddr a st unit + 4 * k, t.vals.getD (32 * (unit / 8) + 4 * (unit % 8) + k) none)

/-- A unit is done. -/
def unitDone (top a st unit : Nat) (u : State) : State :=
  dropAnswersOf (.tile top) (fun _ x => x == unitAddr a st unit)
    { u with tops := tmod u.tops top fun t => { t with units := t.units ++ [unit] } }

section
variable {top unit a st : Nat} {upd mem : Bool} {lr : Word} {s : State} {t : TileOp} {b : Block} (hop : tget s.ops top = none)
  (ht : tget s.tops top = some t) (hkind : t.kind = .update upd mem a st lr) (hb : s.block? t.block = some b) (hfired : t.fired = true)
  (hunit : unit < 256) (hopen : t.units.contains unit = false)
include hop ht hkind hb hfired hunit hopen

/-- A unit at the scratchpad's home. -/
theorem execPortOperation_at_home {h : Share} (hmem : mem = false) (hh : s.share? b.share = some h) :
    let rs := (unitVals t a st unit).map fun v => (v.1, updateNew upd lr v.2 (BitVec.ofNat 32 (mread h.home v.1 4)))
    execPortOperation top unit s = .next (unitDone top a st unit
      (homeWrite b.share (rs.flatMap fun r => cellsAt r.1 (leBytes 4 r.2.1.toNat))
        (orFpstat t.ctx ((rs.map fun r => r.2.2).foldl (· ||| ·) 0) s))) := by
  simp only [execPortOperation, hop, updateUnit, ht, hkind, hb, hfired, Nat.not_le.mpr hunit, hopen, hmem, Bool.not_true, decide_false,
    Bool.or_self, Bool.false_eq_true, if_false, hh, Option.map_some, Option.getD_some]
  rfl

section
variable {u : State} {r : Ended Unit} (hmem : mem = true)
  (haccess : writeAccess (.tile top) t.ctx t.die (unitAddr a st unit) 1 16
    (rmwWhole t.ctx t.die upd lr (some (b.kern, t.step)) (unitVals t a st unit)) s = (r, u))
include hmem haccess

/-- A unit at main memory ends as its access does. -/
theorem execPortOperation_at_memory : execPortOperation top unit s = .next (match r with
    | .done () => unitDone top a st unit u
    | .fail k => unitDone top a st unit (logViolation t.ctx (unitAddr a st unit) k 3 t.die u)
    | .lost => unitDone top a st unit (logViolation t.ctx (unitAddr a st unit) 1 3 t.die u)
    | .remote d k => remoteEnd t.ctx d (unitAddr a st unit) k u
    | _ => u) := by
  rw [unitVals, unitAddr] at haccess
  simp only [execPortOperation, hop, updateUnit, ht, hkind, hb, hfired, Nat.not_le.mpr hunit, hopen, hmem, Bool.not_true, decide_false,
    Bool.or_self, Bool.false_eq_true, if_false, if_true, haccess]
  cases r <;> rfl

end
end

/-- A value added to a word that is no NaN. -/
theorem updateNew_of_number (lr : Word) (x : Int × Int) {old : Word} (hnum : (fp32.decode old.toNat).isNan = false) :
    updateNew false lr (some x) old =
      (BitVec.ofNat 32 (addVals fp32 .rn (fp32.decode old.toNat) (.fin (dyInt x.1 x.2))).bits,
        (addVals fp32 .rn (fp32.decode old.toNat) (.fin (dyInt x.1 x.2))).flags) := by
  have hval : (FVal.fin (dyInt x.1 x.2)).isNan = false := rfl
  simp only [updateNew, updateVal, hnum, hval, Bool.or_self, Bool.false_eq_true, if_false, natWord]

/-- A tile update all of whose units are done has performed. -/
theorem execTileUpdatePerform_of_done {top : Nat} {s : State} {t : TileOp} (ht : tget s.tops top = some t) (hfired : t.fired = true)
    (hall : 256 ≤ t.units.length) : execTileUpdatePerform top s = .next (endTile top s) := by
  simp only [execTileUpdatePerform, ht, hfired, hall, decide_true, Bool.and_self, if_true]

/-- Settles O41, each clause by the lemma about its step. -/
theorem tileSteps : Obligations.TileSteps := by
  refine ⟨?mma, ?ends, ?perform, ?unit, ?sum, ?clear, ?update, ?performed⟩
  case mma =>
    intro top s t m z tr keep h q x blk k r ht hkind hx hblk hk hr hjoined hfires mem b bs bw a tile
    have hsigned := fun hne hready hearlier =>
      (exec_mmaFire top s).trans (execMmaFire_of_signed ht hkind hx hblk hk hr hjoined hfires hne hready hearlier)
    refine ⟨execMmaFire_of_left ht hkind hx hblk hk hr hjoined hfires, ?_, ?_⟩
    · intro hne hready hearlier hbkind hbias hwords hakind hcls
      exact (hsigned hne hready hearlier).trans (if_pos (mmaAgrees_test.mpr ⟨hbkind, hbias, hwords, hakind, hcls⟩))
    · intro hne hready hearlier hdiverge
      exact (hsigned hne hready hearlier).trans (if_neg (mt mmaAgrees_test.mp hdiverge))
  case ends => exact fun top s t => endTile_of_operation
  case perform =>
    intro top s t b ht hb hwaits hjoined hfires hpubl tile ends writes
    refine ⟨?_, ?_, ?_, ?_, ?_, ?_, ?_⟩
    · exact fun raw q n x hkind => execTileOperationPerform_of_mldt ht hb hwaits hjoined hfires hkind
    · exact fun raw dst ls hkind => execTileOperationPerform_of_mmovr ht hb hwaits hjoined hfires hkind
    · exact fun raw ls hkind => execTileOperationPerform_of_mmovw ht hb hwaits hjoined hfires hkind
    · exact fun row dst ls hkind => execTileOperationPerform_of_mqry ht hb hwaits hjoined hfires hkind
    · intro fmt rnd q n o hkind d
      have hexec := (exec_tileOperationPerform top s).trans (execTileOperationPerform_of_mdrain ht hb hwaits hjoined hfires hpubl hkind)
      refine ⟨fun hplain => hexec.trans (if_neg hplain), fun hring hready hearlier => (hexec.trans (if_pos hring)).trans (if_pos ?_)⟩
      rw [hready, hearlier]
      rfl
    · exact fun bf rnd q n o w hkind => execTileOperationPerform_of_qdual ht hb hwaits hjoined hfires hpubl hkind
    · exact fun rnd q n o w hkind => execTileOperationPerform_of_rqnt ht hb hwaits hjoined hfires hpubl hkind
  case unit =>
    intro top unit s t upd mem a st lr b hop ht hkind hb hfired hunit hopen at_ vals fin
    refine ⟨fun h hmem hh => execPortOperation_at_home hop ht hkind hb hfired hunit hopen hmem hh, fun r u hmem haccess => ?_⟩
    have hexec := (exec_portOperation top unit s).trans
      (execPortOperation_at_memory hop ht hkind hb hfired hunit hopen hmem haccess)
    refine ⟨?_, ?_, ?_, ?_⟩
    · rintro rfl
      exact hexec
    · rintro k rfl
      exact hexec
    · rintro d k rfl
      exact hexec
    · rintro rfl
      exact hexec
  case sum => exact fun lr x old hnum => updateNew_of_number lr x hnum
  case clear =>
    exact fun top s t b h ht hkind hb hwaits hjoined hfires => execTileOperationPerform_of_mclr ht hb hwaits hjoined hfires hkind
  case update =>
    exact fun top s t b u mem a st lr ht hkind hb hwaits hjoined hfires =>
      execTileOperationPerform_of_update ht hb hwaits hjoined hfires hkind
  case performed => exact fun top s t ht hfired hall => execTileUpdatePerform_of_done ht hfired hall

end Sys2Proof.Machine
end

section
/-! PROOFS. Every function of the model that answers a state keeps the memories in canonical form. -/

namespace Sys2Proof.Machine

-- Elaborated one after another: hundreds of short proofs at once want more threads than the memory limit lets start.
set_option Elab.async false

/-! ### Canonical memories, table by table -/

/-- A die whose DRAM is canonical. -/
def DieOk (d : Die) : Prop := Memory.wf d.dram = true

/-- A block whose scratchpad windows are canonical. -/
def BlockOk (b : Block) : Prop := Memory.wf b.mem = true ∧ Memory.wf b.view = true

/-- A share whose window is canonical. -/
def ShareOk (h : Share) : Prop := Memory.wf h.home = true

/-- A module whose host memory is canonical. -/
def ModuleOk (m : Module) : Prop := Memory.wf m.hostMem = true

theorem moduleOk_msetAll {m : Module} {cells : List Host.Cell} (h : ModuleOk m) :
    ModuleOk { m with hostMem := msetAll m.hostMem cells } := wf_msetAll _ _ h

/-- A table all of whose entries satisfy `p`. -/
def TableOk {α : Type} (p : α → Prop) (t : Table α) : Prop := ∀ x ∈ t, p x.2

theorem memoryOk_iff {s : State} :
    MemoryOk s ↔ TableOk DieOk s.dies ∧ ModuleOk s.mod ∧ TableOk BlockOk s.blocks ∧ TableOk ShareOk s.shares := Iff.rfl

section
variable {α : Type} {p : α → Prop} {t : Table α}

theorem tableOk_tput {k : Nat} {v : α} (ht : TableOk p t) (hv : p v) : TableOk p (tput t k v) := by
  intro x hx
  obtain rfl | hx := mem_tput hx
  · exact hv
  · exact ht x hx

theorem tableOk_tget {k : Nat} {v : α} (ht : TableOk p t) (hv : tget t k = some v) : p v := ht _ (mem_of_tget_eq_some hv)

theorem tableOk_filter {q : Nat × α → Bool}
    (ht : TableOk p t) : TableOk p (t.filter q) := fun x hx => ht x (List.mem_of_mem_filter hx)

theorem tableOk_tkeep {q : Nat → α → Bool} (ht : TableOk p t) : TableOk p (tkeep t q) := tableOk_filter ht

theorem tableOk_tmap {f : Nat → α → α} (ht : TableOk p t) (hf : ∀ k v, p v → p (f k v)) : TableOk p (tmap t f) := by
  intro x hx
  obtain ⟨y, hy, rfl⟩ := List.mem_map.mp hx
  exact hf y.1 y.2 (ht y hy)

end

theorem foldl_memoryOk {β : Type} {f : State → β → State} {l : List β} {s : State} (h : MemoryOk s)
    (hf : ∀ u x, MemoryOk u → MemoryOk (f u x)) : MemoryOk (l.foldl f s) := by
  induction l generalizing s with
  | nil => exact h
  | cons x l ih => exact ih (hf s x h)

/-- An outcome that, if it is a state, has canonical memories. -/
def NextOk (o : Outcome) : Prop := ∀ t, o = .next t → MemoryOk t

theorem nextOk_next {s : State} : NextOk (.next s) ↔ MemoryOk s := ⟨fun h => h s rfl, fun h t ht => by cases ht; exact h⟩

theorem nextOk_fault {r : Fault} : NextOk (.fault r) := fun _ ht => by cases ht

/-- The state of an answer, once the answer is named. -/
theorem snd_memoryOk {α : Type} {r : α × State} {a : α} {t : State} (h : MemoryOk r.2) (hr : r = (a, t)) : MemoryOk t := by
  rw [hr] at h
  exact h

theorem snd2_memoryOk {α β : Type} {r : α × β × State} {a : α} {x : β × State} (h : MemoryOk r.2.2) (hr : r = (a, x))
    : MemoryOk x.2 := by
  rw [hr] at h
  exact h

theorem foldl_memoryOk_mem {β : Type} {f : State → β → State} {l : List β} {s : State} (h : MemoryOk s)
    (hf : ∀ u x, x ∈ l → MemoryOk u → MemoryOk (f u x)) : MemoryOk (l.foldl f s) := by
  induction l generalizing s with
  | nil => exact h
  | cons x l ih => exact ih (hf s x List.mem_cons_self h) fun u y hy => hf u y (List.mem_cons_of_mem _ hy)

theorem getD_memoryOk {o : Option State} {s : State} (h : MemoryOk s) (ho : ∀ t, o = some t → MemoryOk t)
    : MemoryOk (o.getD s) := by
  cases o with
  | none => exact h
  | some t => exact ho t rfl

theorem foldl_snd_memoryOk {α β : Type} {f : α × State → β → α × State} {l : List β} {r : α × State} (h : MemoryOk r.2)
    (hf : ∀ r x, MemoryOk r.2 → MemoryOk (f r x).2) : MemoryOk (l.foldl f r).2 := by
  induction l generalizing r with
  | nil => exact h
  | cons x l ih => exact ih (hf r x h)

theorem tableOk_tgetD {α : Type} {p : α → Prop} {t : Table α} {k : Nat} {v : α} (ht : TableOk p t)
    (hv : p v) : p (tgetD t k v) := by
  rw [tgetD]
  cases hk : tget t k with
  | none => exact hv
  | some x => exact tableOk_tget ht hk

/-! ### Finite maps, memories and tables of the state -/

theorem die_dieOk {s d} (h : MemoryOk s) : DieOk (s.die d) := h.die_dram d

theorem block_blockOk {s b x} (h : MemoryOk s) (hx : s.block? b = some x) : BlockOk x := tableOk_tget h.2.2.1 hx

theorem share_shareOk {s k x} (h : MemoryOk s) (hx : s.share? k = some x) : ShareOk x := tableOk_tget h.2.2.2 hx

theorem setDie_memoryOk {s d x} (h : MemoryOk s) (hx : DieOk x) : MemoryOk (s.setDie d x) := h.setDie d hx

theorem setCore_memoryOk {s d c x} (h : MemoryOk s) : MemoryOk (State.setCore s d c x) := by
  unfold State.setCore
  grind [memoryOk_iff]

theorem setCtx_memoryOk {s c x} (h : MemoryOk s) : MemoryOk (State.setCtx s c x) := by
  unfold State.setCtx
  grind [memoryOk_iff]

theorem setQueue_memoryOk {s q x} (h : MemoryOk s) : MemoryOk (State.setQueue s q x) := by
  unfold State.setQueue
  grind [memoryOk_iff]

theorem setWarp_memoryOk {s w x} (h : MemoryOk s) : MemoryOk (State.setWarp s w x) := by
  unfold State.setWarp
  grind [memoryOk_iff]

theorem setBlock_memoryOk {s b x} (h : MemoryOk s) (hx : BlockOk x) : MemoryOk (s.setBlock b x) := by
  unfold State.setBlock
  grind [memoryOk_iff, tableOk_tput]

theorem setShare_memoryOk {s k x} (h : MemoryOk s) (hx : ShareOk x) : MemoryOk (s.setShare k x) := by
  unfold State.setShare
  grind [memoryOk_iff, tableOk_tput]

theorem setKernel_memoryOk {s k x} (h : MemoryOk s) : MemoryOk (State.setKernel s k x) := by
  unfold State.setKernel
  grind [memoryOk_iff]

theorem modDie_memoryOk {s d f} (h : MemoryOk s) (hf : ∀ x, DieOk x → DieOk (f x)) : MemoryOk (s.modDie d f) := by
  unfold State.modDie
  grind [setDie_memoryOk, die_dieOk]

theorem modCore_memoryOk {s d c f} (h : MemoryOk s) : MemoryOk (State.modCore s d c f) := by
  unfold State.modCore
  grind [setCore_memoryOk]

theorem modCtx_memoryOk {s c f} (h : MemoryOk s) : MemoryOk (State.modCtx s c f) := by
  unfold State.modCtx
  grind [setCtx_memoryOk]

theorem modQueue_memoryOk {s q f} (h : MemoryOk s) : MemoryOk (State.modQueue s q f) := by
  unfold State.modQueue
  grind [setQueue_memoryOk]

theorem modMod_memoryOk {s f} (h : MemoryOk s) (hf : ModuleOk s.mod → ModuleOk (f s.mod)) : MemoryOk (s.modMod f) := by
  unfold State.modMod
  grind [memoryOk_iff]

theorem modWarp_memoryOk {s w f} (h : MemoryOk s) : MemoryOk (State.modWarp s w f) := by
  unfold State.modWarp
  grind [setWarp_memoryOk]

theorem modBlock_memoryOk {s b f} (h : MemoryOk s) (hf : ∀ x, BlockOk x → BlockOk (f x)) : MemoryOk (s.modBlock b f) := by
  unfold State.modBlock
  grind [setBlock_memoryOk, block_blockOk]

theorem modShare_memoryOk {s k f} (h : MemoryOk s) (hf : ∀ x, ShareOk x → ShareOk (f x)) : MemoryOk (s.modShare k f) := by
  unfold State.modShare
  grind [setShare_memoryOk, share_shareOk]

theorem modKernel_memoryOk {s k f} (h : MemoryOk s) : MemoryOk (State.modKernel s k f) := by
  unfold State.modKernel
  grind [setKernel_memoryOk]

theorem bump_memoryOk {s} (h : MemoryOk s) : MemoryOk (State.bump s) := by
  unfold State.bump
  grind [memoryOk_iff]

theorem modThread_memoryOk {s w l f} (h : MemoryOk s) : MemoryOk (State.modThread s w l f) := by
  unfold State.modThread
  grind [modWarp_memoryOk]

theorem mapLanes_memoryOk {s w m f} (h : MemoryOk s) : MemoryOk (State.mapLanes s w m f) := by
  unfold State.mapLanes
  grind [modWarp_memoryOk]

theorem setWreg_memoryOk {s w r v} (h : MemoryOk s) : MemoryOk (State.setWreg s w r v) := by
  unfold State.setWreg
  grind [modWarp_memoryOk]

theorem releaseLanes_memoryOk {s w m} (h : MemoryOk s) : MemoryOk (State.releaseLanes s w m) := by
  unfold State.releaseLanes
  grind [mapLanes_memoryOk]

/-! ### Logs, kernels, ends of contexts, regions, rounds, barriers, exceptions and the current word -/

theorem logViolation_memoryOk {c addr kind source die s} (h : MemoryOk s) : MemoryOk (logViolation c addr kind source die s) := by
  unfold logViolation
  grind [modCtx_memoryOk]

theorem writeRecord_moduleOk {m now r} (h : ModuleOk m) : ModuleOk (m.writeRecord now r) := wf_msetAll _ _ h

theorem append_moduleOk {m now r} (h : ModuleOk m) : ModuleOk (m.append now r) := by
  unfold Module.append
  grind [ModuleOk, writeRecord_moduleOk]

theorem appendRecord_memoryOk {kind ctx reason c record s} (h : MemoryOk s)
    : MemoryOk (appendRecord kind ctx reason c record s) := by
  unfold appendRecord
  grind [append_moduleOk, modMod_memoryOk]

theorem failKernel_memoryOk {k reason why s} (h : MemoryOk s) : MemoryOk (failKernel k reason why s) := by
  unfold failKernel
  grind [appendRecord_memoryOk, setKernel_memoryOk]

theorem leaveRound_memoryOk {q s} (h : MemoryOk s) : MemoryOk (leaveRound q s) := by
  unfold leaveRound
  grind [ModuleOk, modMod_memoryOk]

theorem disableQueue_memoryOk {q reason why s} (h : MemoryOk s) : MemoryOk (disableQueue q reason why s) := by
  unfold disableQueue
  grind [failKernel_memoryOk, foldl_memoryOk, leaveRound_memoryOk, modQueue_memoryOk]

theorem settleQueue_memoryOk {q s} (h : MemoryOk s) : MemoryOk (settleQueue q s) := by
  unfold settleQueue
  grind [leaveRound_memoryOk, setQueue_memoryOk]

theorem acceptRound_memoryOk {w m s} (h : MemoryOk s) : MemoryOk (acceptRound w m s) := by
  unfold acceptRound
  grind [memoryOk_iff, setWarp_memoryOk]

theorem acceptRounds_memoryOk {die core s} (h : MemoryOk s) : MemoryOk (acceptRounds die core s) := by
  unfold acceptRounds
  grind [acceptRound_memoryOk, foldl_memoryOk]

theorem acceptAll_memoryOk {s} (h : MemoryOk s) : MemoryOk (acceptAll s) := by
  unfold acceptAll
  grind [acceptRound_memoryOk, foldl_memoryOk]

theorem endContext_memoryOk {c reason cause s} (h : MemoryOk s) : MemoryOk (endContext c reason cause s) := by
  unfold endContext
  grind [DieOk, ModuleOk, acceptAll_memoryOk, disableQueue_memoryOk, foldl_memoryOk, memoryOk_iff, modCtx_memoryOk, tableOk_tkeep,
    tableOk_tmap]

theorem abortWarp_memoryOk {w reason s} (h : MemoryOk s) : MemoryOk (abortWarp w reason s) := by
  unfold abortWarp
  grind [memoryOk_iff, setWarp_memoryOk]

theorem abortSlots_memoryOk {die reason slots s} (h : MemoryOk s) : MemoryOk (abortSlots die reason slots s) := by
  unfold abortSlots
  grind [DieOk, abortWarp_memoryOk, die_dieOk, foldl_memoryOk, setDie_memoryOk]

theorem abortRegion_memoryOk {w reason s} (h : MemoryOk s) : MemoryOk (abortRegion w reason s) := by
  unfold abortRegion
  grind [abortSlots_memoryOk]

theorem externalWrite_memoryOk {h0 die as except s} (h : MemoryOk s) : MemoryOk (externalWrite h0 die as except s) := by
  unfold externalWrite
  grind [abortSlots_memoryOk]

theorem writeHome_memoryOk {h0 cells s} (h : MemoryOk s) : MemoryOk (writeHome h0 cells s) := by
  unfold writeHome
  grind [ShareOk, modShare_memoryOk, wf_msetAll]

theorem homeWrite_memoryOk {h0 cells s} (h : MemoryOk s) : MemoryOk (homeWrite h0 cells s) := by
  unfold homeWrite
  grind [externalWrite_memoryOk, writeHome_memoryOk]

theorem publish_memoryOk {b s} (h : MemoryOk s) : MemoryOk (publish b s) := by
  unfold publish
  grind [BlockOk, homeWrite_memoryOk, modBlock_memoryOk, wf_msetAll]

theorem refresh_memoryOk {b s} (h : MemoryOk s) : MemoryOk (refresh b s) := by
  unfold refresh
  cases hx : (s.block? b).bind fun x => s.share? x.share with
  | none => exact h
  | some y =>
    obtain ⟨x, -, hy⟩ := Option.bind_eq_some_iff.mp hx
    exact modBlock_memoryOk h fun z hz => ⟨hz.1, share_shareOk h hy⟩

theorem wakeResign_memoryOk {w m s} (h : MemoryOk s) : MemoryOk (wakeResign w m s) := by
  unfold wakeResign
  grind [releaseLanes_memoryOk]

theorem closeRound_memoryOk {w m s} (h : MemoryOk s) : MemoryOk (closeRound w m s) := by
  unfold closeRound
  grind [releaseLanes_memoryOk, setWarp_memoryOk, wakeResign_memoryOk]

theorem checkSign_memoryOk {w m s} (h : MemoryOk s) : MemoryOk (checkSign w m s) := by
  unfold checkSign
  grind [acceptRound_memoryOk, closeRound_memoryOk, setWarp_memoryOk]

theorem checkWait_memoryOk {w m s} (h : MemoryOk s) : MemoryOk (checkWait w m s) := by
  unfold checkWait
  grind [modWarp_memoryOk, releaseLanes_memoryOk]

theorem checkMask_memoryOk {w m s} (h : MemoryOk s) : MemoryOk (checkMask w m s) := by
  unfold checkMask
  grind [checkSign_memoryOk, checkWait_memoryOk]

theorem releaseWhere_memoryOk {w p s} (h : MemoryOk s) : MemoryOk (releaseWhere w p s) := by
  unfold releaseWhere
  grind [releaseLanes_memoryOk]

theorem completeBar_memoryOk {b k s} (h : MemoryOk s) : MemoryOk (completeBar b k s) := by
  unfold completeBar
  grind [BlockOk, foldl_memoryOk, modBlock_memoryOk, releaseWhere_memoryOk]

theorem checkBar_memoryOk {b k s} (h : MemoryOk s) : MemoryOk (checkBar b k s) := by
  unfold checkBar
  grind [completeBar_memoryOk]

theorem checkDieBar_memoryOk {k s} (h : MemoryOk s) : MemoryOk (checkDieBar k s) := by
  unfold checkDieBar
  split
  · exact h
  next x hx =>
    have hset : ∀ y, ShareOk y → MemoryOk (s.setShare k y) := fun y => setShare_memoryOk h
    have hx := share_shareOk h hx
    dsimp only
    split
    · exact foldl_memoryOk (foldl_memoryOk (hset _ hx) fun u b => refresh_memoryOk) fun u y hu =>
        foldl_memoryOk hu fun v z => releaseWhere_memoryOk
    · exact hset _ hx

theorem checkRegb_memoryOk {w s} (h : MemoryOk s) : MemoryOk (checkRegb w s) := by
  unfold checkRegb
  grind [DieOk, modDie_memoryOk]

theorem checkRege_memoryOk {w s} (h : MemoryOk s) : MemoryOk (checkRege w s) := by
  unfold checkRege
  grind [setWarp_memoryOk]

theorem seedWarp_memoryOk {w s} (h : MemoryOk s) : MemoryOk (seedWarp w s) := by
  unfold seedWarp
  grind [setWarp_memoryOk]

theorem joinBlock_memoryOk {w b s} (h : MemoryOk s) : MemoryOk (joinBlock w b s) := by
  unfold joinBlock
  grind [memoryOk_iff]

theorem attachLines_memoryOk {x b i s} (h : MemoryOk s) : MemoryOk (attachLines x b i s) := by
  unfold attachLines
  grind [modCore_memoryOk]

theorem checkAttach_memoryOk {w s} (h : MemoryOk s) : MemoryOk (checkAttach w s) := by
  unfold checkAttach
  grind [attachLines_memoryOk, joinBlock_memoryOk, mapLanes_memoryOk, releaseLanes_memoryOk, seedWarp_memoryOk, setWarp_memoryOk]

theorem reapWarp_memoryOk {w s} (h : MemoryOk s) : MemoryOk (reapWarp w s) := by
  unfold reapWarp
  grind [memoryOk_iff]

theorem endBlock_memoryOk {b s} (h : MemoryOk s) : MemoryOk (endBlock b s) := by
  unfold endBlock
  split
  · exact h
  next x hx =>
    have hx := block_blockOk h hx
    extract_lets s1 s2 s3
    have h1 : MemoryOk s1 := setBlock_memoryOk h hx
    have h2 : MemoryOk s2 := h1
    have h3 : MemoryOk s3 := checkDieBar_memoryOk h2
    clear_value s3
    grind [setKernel_memoryOk]

theorem leaveStack_memoryOk {x s} (h : MemoryOk s) : MemoryOk (leaveStack x s) := by
  unfold leaveStack
  grind [BlockOk, modBlock_memoryOk, modCtx_memoryOk]

theorem endWarp_memoryOk {w s} (h : MemoryOk s) : MemoryOk (endWarp w s) := by
  unfold endWarp
  split
  · exact h
  next x hx =>
    split
    · exact h
    extract_lets s1 s2
    have h1 : MemoryOk s1 := leaveStack_memoryOk h
    have h2 : MemoryOk s2 := by grind [setWarp_memoryOk, memoryOk_iff]
    clear_value s2
    split
    · exact h2
    next b _ =>
      split
      · exact h2
      next y hy =>
        have hy := block_blockOk h2 hy
        have hset : ∀ z, BlockOk z → MemoryOk (s2.setBlock b z) := fun z => setBlock_memoryOk h2
        dsimp only
        split
        · exact endBlock_memoryOk (hset _ hy)
        · exact hset _ hy

theorem departBars_memoryOk {b w l s} (h : MemoryOk s) : MemoryOk (departBars b w l s) := by
  unfold departBars
  grind [BlockOk, checkBar_memoryOk, foldl_memoryOk, modBlock_memoryOk]

theorem checkWarp_memoryOk {w s} (h : MemoryOk s) : MemoryOk (checkWarp w s) := by
  unfold checkWarp
  grind [checkAttach_memoryOk, checkMask_memoryOk, checkRegb_memoryOk, checkRege_memoryOk, foldl_memoryOk]

theorem leaveLanes_memoryOk {w m st reason s} (h : MemoryOk s) : MemoryOk (leaveLanes w m st reason s) := by
  unfold leaveLanes
  grind [abortRegion_memoryOk, checkDieBar_memoryOk, checkWarp_memoryOk, departBars_memoryOk, endWarp_memoryOk, foldl_memoryOk,
    memoryOk_iff, setWarp_memoryOk]

theorem laneFault_memoryOk {w m s} (h : MemoryOk s) : MemoryOk (laneFault w m s) := by
  unfold laneFault
  grind [leaveLanes_memoryOk, modWarp_memoryOk]

theorem enterTrap_memoryOk {w l at_ cause faddr code target s} (h : MemoryOk s)
    : MemoryOk (enterTrap w l at_ cause faddr code target s) := by
  unfold enterTrap
  grind [abortRegion_memoryOk, endContext_memoryOk, modWarp_memoryOk]

theorem trapLanes_memoryOk {w m at_ cause faddr code s} (h : MemoryOk s) : MemoryOk (trapLanes w m at_ cause faddr code s) := by
  unfold trapLanes
  grind [enterTrap_memoryOk, foldl_memoryOk, modWarp_memoryOk]

theorem dropWindow_memoryOk {w m s} (h : MemoryOk s) : MemoryOk (dropWindow w m s) := by
  unfold dropWindow
  grind [DieOk, memoryOk_iff, tableOk_tmap]

theorem modIss_memoryOk {s w p f} (h : MemoryOk s) : MemoryOk (State.modIss s w p f) := by
  unfold State.modIss
  grind [modWarp_memoryOk]

theorem dropLanes_memoryOk {b m s} (h : MemoryOk s) : MemoryOk (dropLanes b m s) := by
  unfold dropLanes
  grind [modIss_memoryOk]

theorem waitLanes_memoryOk {b m k s} (h : MemoryOk s) : MemoryOk (waitLanes b m k s) := by
  unfold waitLanes
  grind [dropLanes_memoryOk, mapLanes_memoryOk]

theorem blockWord_memoryOk {b s} (h : MemoryOk s) : MemoryOk (blockWord b s) := by
  unfold blockWord
  grind [modIss_memoryOk]

theorem takeRedirects_memoryOk {w p s} (h : MemoryOk s) : MemoryOk (takeRedirects w p s) := by
  unfold takeRedirects
  grind [setWarp_memoryOk]

theorem finishTo_memoryOk {b dest s} (h : MemoryOk s) : MemoryOk (finishTo b dest s) := by
  unfold finishTo
  grind [setWarp_memoryOk, takeRedirects_memoryOk]

theorem finishWord_memoryOk {b s} (h : MemoryOk s) : MemoryOk (finishWord b s) := by
  unfold finishWord
  grind [finishTo_memoryOk]

theorem waitGrant_memoryOk {b q put s} (h : MemoryOk s) : MemoryOk (waitGrant b q put s) := by
  unfold waitGrant
  grind [modCore_memoryOk, modIss_memoryOk]

theorem fillParked_memoryOk {id s} (h : MemoryOk s) : MemoryOk (fillParked id s) := by
  unfold fillParked
  grind [mapLanes_memoryOk, memoryOk_iff]

theorem grantFirst_memoryOk {q s} (h : MemoryOk s) : MemoryOk (grantFirst q s) := by
  unfold grantFirst
  grind [fillParked_memoryOk, memoryOk_iff, modIss_memoryOk]

theorem trapWord_memoryOk {b m cause s} (h : MemoryOk s) : MemoryOk (trapWord b m cause s) := by
  unfold trapWord
  grind [finishWord_memoryOk, trapLanes_memoryOk]

theorem trapThen_memoryOk {b m out cause act s} (hact : ∀ m u, MemoryOk u → MemoryOk (act m u)) (h : MemoryOk s) :
    MemoryOk (trapThen b m out cause act s) := by
  unfold trapThen
  grind [trapLanes_memoryOk, finishWord_memoryOk]

theorem runWord_memoryOk {i body s} (hbody : ∀ b m u, MemoryOk u → MemoryOk (body b m u)) (h : MemoryOk s) :
    NextOk (runWord i body s) := by
  unfold runWord
  grind [nextOk_next, nextOk_fault, trapWord_memoryOk]

theorem withOperands_memoryOk {ss ds act b m s} (hact : ∀ b m u, MemoryOk u → MemoryOk (act b m u)) (h : MemoryOk s) :
    MemoryOk (withOperands ss ds act b m s) := by
  unfold withOperands
  grind [blockWord_memoryOk, trapLanes_memoryOk, finishWord_memoryOk]

theorem laneWord_memoryOk {i ss ds f s} (h : MemoryOk s) : NextOk (laneWord i ss ds f s) := by
  unfold laneWord
  grind [finishWord_memoryOk, modWarp_memoryOk, runWord_memoryOk, withOperands_memoryOk]

/-! ### Words that move values and compute on integers -/

theorem unaryR_memoryOk {i o f s} (h : MemoryOk s) : NextOk (unaryR i o f s) := by
  unfold unaryR
  grind [laneWord_memoryOk]

theorem binaryR_memoryOk {i o f s} (h : MemoryOk s) : NextOk (binaryR i o f s) := by
  unfold binaryR
  grind [laneWord_memoryOk]

theorem binaryI_memoryOk {i o f s} (h : MemoryOk s) : NextOk (binaryI i o f s) := by
  unfold binaryI
  grind [laneWord_memoryOk]

theorem ternaryR_memoryOk {i o f s} (h : MemoryOk s) : NextOk (ternaryR i o f s) := by
  unfold ternaryR
  grind [laneWord_memoryOk]

theorem withLeader_memoryOk {ss wait act b m s} (hact : ∀ b m l u, MemoryOk u → MemoryOk (act b m l u)) (h : MemoryOk s) :
    MemoryOk (withLeader ss wait act b m s) := by
  unfold withLeader
  grind [blockWord_memoryOk, trapLanes_memoryOk, finishWord_memoryOk]

theorem execNop_memoryOk {o s} (h : MemoryOk s) : NextOk (execNop o s) := by
  unfold execNop
  grind [laneWord_memoryOk]

theorem execMov_memoryOk {o s} (h : MemoryOk s) : NextOk (execMov o s) := by
  unfold execMov
  grind [laneWord_memoryOk]

theorem execMovi_memoryOk {o s} (h : MemoryOk s) : NextOk (execMovi o s) := by
  unfold execMovi
  grind [laneWord_memoryOk]

theorem execMovw_memoryOk {o s} (h : MemoryOk s) : NextOk (execMovw o s) := by
  unfold execMovw
  grind [blockWord_memoryOk, finishWord_memoryOk, mapLanes_memoryOk, runWord_memoryOk, trapWord_memoryOk, withOperands_memoryOk]

theorem execWset_memoryOk {o s} (h : MemoryOk s) : NextOk (execWset o s) := by
  unfold execWset
  grind [finishWord_memoryOk, runWord_memoryOk, setWreg_memoryOk, withLeader_memoryOk]

theorem execSread_memoryOk {o s} (h : MemoryOk s) : NextOk (execSread o s) := by
  unfold execSread
  grind [finishWord_memoryOk, mapLanes_memoryOk, modWarp_memoryOk, runWord_memoryOk, trapThen_memoryOk, withOperands_memoryOk]

theorem execPmovRp_memoryOk {o s} (h : MemoryOk s) : NextOk (execPmovRp o s) := by
  unfold execPmovRp
  grind [laneWord_memoryOk]

theorem execPmovPr_memoryOk {o s} (h : MemoryOk s) : NextOk (execPmovPr o s) := by
  unfold execPmovPr
  grind [laneWord_memoryOk]

theorem execPmovSave_memoryOk {o s} (h : MemoryOk s) : NextOk (execPmovSave o s) := by
  unfold execPmovSave
  grind [laneWord_memoryOk]

theorem execPmovLoad_memoryOk {o s} (h : MemoryOk s) : NextOk (execPmovLoad o s) := by
  unfold execPmovLoad
  grind [laneWord_memoryOk]

theorem execPgate_memoryOk {o s} (h : MemoryOk s) : NextOk (execPgate o s) := by
  unfold execPgate
  grind [laneWord_memoryOk]

theorem execIadd_memoryOk {o s} (h : MemoryOk s) : NextOk (execIadd o s) := by
  unfold execIadd
  grind [binaryR_memoryOk]

theorem execIaddImm_memoryOk {o s} (h : MemoryOk s) : NextOk (execIaddImm o s) := by
  unfold execIaddImm
  grind [binaryI_memoryOk]

theorem execIsub_memoryOk {o s} (h : MemoryOk s) : NextOk (execIsub o s) := by
  unfold execIsub
  grind [binaryR_memoryOk]

theorem execIsubImm_memoryOk {o s} (h : MemoryOk s) : NextOk (execIsubImm o s) := by
  unfold execIsubImm
  grind [binaryI_memoryOk]

theorem execImul_memoryOk {o s} (h : MemoryOk s) : NextOk (execImul o s) := by
  unfold execImul
  grind [binaryR_memoryOk]

theorem execImulImm_memoryOk {o s} (h : MemoryOk s) : NextOk (execImulImm o s) := by
  unfold execImulImm
  grind [binaryI_memoryOk]

theorem execImulh_memoryOk {o s} (h : MemoryOk s) : NextOk (execImulh o s) := by
  unfold execImulh
  grind [binaryR_memoryOk]

theorem execImulhImm_memoryOk {o s} (h : MemoryOk s) : NextOk (execImulhImm o s) := by
  unfold execImulhImm
  grind [binaryI_memoryOk]

theorem execImin_memoryOk {o s} (h : MemoryOk s) : NextOk (execImin o s) := by
  unfold execImin
  grind [binaryR_memoryOk]

theorem execIminImm_memoryOk {o s} (h : MemoryOk s) : NextOk (execIminImm o s) := by
  unfold execIminImm
  grind [binaryI_memoryOk]

theorem execImax_memoryOk {o s} (h : MemoryOk s) : NextOk (execImax o s) := by
  unfold execImax
  grind [binaryR_memoryOk]

theorem execImaxImm_memoryOk {o s} (h : MemoryOk s) : NextOk (execImaxImm o s) := by
  unfold execImaxImm
  grind [binaryI_memoryOk]

theorem execIcmp_memoryOk {o s} (h : MemoryOk s) : NextOk (execIcmp o s) := by
  unfold execIcmp
  grind [laneWord_memoryOk]

theorem execIcmpImm_memoryOk {o s} (h : MemoryOk s) : NextOk (execIcmpImm o s) := by
  unfold execIcmpImm
  grind [laneWord_memoryOk]

theorem execShl_memoryOk {o s} (h : MemoryOk s) : NextOk (execShl o s) := by
  unfold execShl
  grind [binaryR_memoryOk]

theorem execShlImm_memoryOk {o s} (h : MemoryOk s) : NextOk (execShlImm o s) := by
  unfold execShlImm
  grind [binaryI_memoryOk]

theorem execShr_memoryOk {o s} (h : MemoryOk s) : NextOk (execShr o s) := by
  unfold execShr
  grind [binaryR_memoryOk]

theorem execShrImm_memoryOk {o s} (h : MemoryOk s) : NextOk (execShrImm o s) := by
  unfold execShrImm
  grind [binaryI_memoryOk]

theorem execSar_memoryOk {o s} (h : MemoryOk s) : NextOk (execSar o s) := by
  unfold execSar
  grind [binaryR_memoryOk]

theorem execSarImm_memoryOk {o s} (h : MemoryOk s) : NextOk (execSarImm o s) := by
  unfold execSarImm
  grind [binaryI_memoryOk]

theorem execLgate_memoryOk {o s} (h : MemoryOk s) : NextOk (execLgate o s) := by
  unfold execLgate
  grind [laneWord_memoryOk]

theorem execImad_memoryOk {o s} (h : MemoryOk s) : NextOk (execImad o s) := by
  unfold execImad
  grind [ternaryR_memoryOk]

theorem execImadw_memoryOk {o s} (h : MemoryOk s) : NextOk (execImadw o s) := by
  unfold execImadw
  grind [laneWord_memoryOk]

theorem execIaddc_memoryOk {o s} (h : MemoryOk s) : NextOk (execIaddc o s) := by
  unfold execIaddc
  grind [laneWord_memoryOk]

theorem execIsel_memoryOk {o s} (h : MemoryOk s) : NextOk (execIsel o s) := by
  unfold execIsel
  grind [laneWord_memoryOk]

theorem execIabs_memoryOk {o s} (h : MemoryOk s) : NextOk (execIabs o s) := by
  unfold execIabs
  grind [unaryR_memoryOk]

theorem execIneg_memoryOk {o s} (h : MemoryOk s) : NextOk (execIneg o s) := by
  unfold execIneg
  grind [unaryR_memoryOk]

theorem execFshl_memoryOk {o s} (h : MemoryOk s) : NextOk (execFshl o s) := by
  unfold execFshl
  grind [ternaryR_memoryOk]

theorem execFshr_memoryOk {o s} (h : MemoryOk s) : NextOk (execFshr o s) := by
  unfold execFshr
  grind [ternaryR_memoryOk]

theorem execPopc_memoryOk {o s} (h : MemoryOk s) : NextOk (execPopc o s) := by
  unfold execPopc
  grind [unaryR_memoryOk]

theorem execClz_memoryOk {o s} (h : MemoryOk s) : NextOk (execClz o s) := by
  unfold execClz
  grind [unaryR_memoryOk]

theorem execBrev_memoryOk {o s} (h : MemoryOk s) : NextOk (execBrev o s) := by
  unfold execBrev
  grind [unaryR_memoryOk]

theorem execBfx_memoryOk {o s} (h : MemoryOk s) : NextOk (execBfx o s) := by
  unfold execBfx
  grind [binaryR_memoryOk]

theorem execBfi_memoryOk {o s} (h : MemoryOk s) : NextOk (execBfi o s) := by
  unfold execBfi
  grind [ternaryR_memoryOk]

theorem execLea_memoryOk {o s} (h : MemoryOk s) : NextOk (execLea o s) := by
  unfold execLea
  grind [ternaryR_memoryOk]

/-! ### FP32 and packed 16-bit words -/

theorem floatR1_memoryOk {i o f s} (h : MemoryOk s) : NextOk (floatR1 i o f s) := by
  unfold floatR1
  grind [laneWord_memoryOk]

theorem floatR2_memoryOk {i o f s} (h : MemoryOk s) : NextOk (floatR2 i o f s) := by
  unfold floatR2
  grind [laneWord_memoryOk]

theorem floatI2_memoryOk {i o f s} (h : MemoryOk s) : NextOk (floatI2 i o f s) := by
  unfold floatI2
  grind [laneWord_memoryOk]

theorem floatR3_memoryOk {i o f s} (h : MemoryOk s) : NextOk (floatR3 i o f s) := by
  unfold floatR3
  grind [laneWord_memoryOk]

theorem execFadd_memoryOk {o s} (h : MemoryOk s) : NextOk (execFadd o s) := by
  unfold execFadd
  grind [floatR2_memoryOk]

theorem execFaddImm_memoryOk {o s} (h : MemoryOk s) : NextOk (execFaddImm o s) := by
  unfold execFaddImm
  grind [floatI2_memoryOk]

theorem execFsub_memoryOk {o s} (h : MemoryOk s) : NextOk (execFsub o s) := by
  unfold execFsub
  grind [floatR2_memoryOk]

theorem execFsubImm_memoryOk {o s} (h : MemoryOk s) : NextOk (execFsubImm o s) := by
  unfold execFsubImm
  grind [floatI2_memoryOk]

theorem execFmul_memoryOk {o s} (h : MemoryOk s) : NextOk (execFmul o s) := by
  unfold execFmul
  grind [floatR2_memoryOk]

theorem execFmulImm_memoryOk {o s} (h : MemoryOk s) : NextOk (execFmulImm o s) := by
  unfold execFmulImm
  grind [floatI2_memoryOk]

theorem execFmin_memoryOk {o s} (h : MemoryOk s) : NextOk (execFmin o s) := by
  unfold execFmin
  grind [floatR2_memoryOk]

theorem execFminImm_memoryOk {o s} (h : MemoryOk s) : NextOk (execFminImm o s) := by
  unfold execFminImm
  grind [floatI2_memoryOk]

theorem execFmax_memoryOk {o s} (h : MemoryOk s) : NextOk (execFmax o s) := by
  unfold execFmax
  grind [floatR2_memoryOk]

theorem execFmaxImm_memoryOk {o s} (h : MemoryOk s) : NextOk (execFmaxImm o s) := by
  unfold execFmaxImm
  grind [floatI2_memoryOk]

theorem execFcmp_memoryOk {o s} (h : MemoryOk s) : NextOk (execFcmp o s) := by
  unfold execFcmp
  grind [laneWord_memoryOk]

theorem execFcmpImm_memoryOk {o s} (h : MemoryOk s) : NextOk (execFcmpImm o s) := by
  unfold execFcmpImm
  grind [laneWord_memoryOk]

theorem execFfma_memoryOk {o s} (h : MemoryOk s) : NextOk (execFfma o s) := by
  unfold execFfma
  grind [floatR3_memoryOk]

theorem execFabs_memoryOk {o s} (h : MemoryOk s) : NextOk (execFabs o s) := by
  unfold execFabs
  grind [unaryR_memoryOk]

theorem execFneg_memoryOk {o s} (h : MemoryOk s) : NextOk (execFneg o s) := by
  unfold execFneg
  grind [unaryR_memoryOk]

theorem execFclass_memoryOk {o s} (h : MemoryOk s) : NextOk (execFclass o s) := by
  unfold execFclass
  grind [unaryR_memoryOk]

theorem execFrnd_memoryOk {o s} (h : MemoryOk s) : NextOk (execFrnd o s) := by
  unfold execFrnd
  grind [floatR1_memoryOk]

theorem execFmaxa_memoryOk {o s} (h : MemoryOk s) : NextOk (execFmaxa o s) := by
  unfold execFmaxa
  grind [floatR2_memoryOk]

theorem execHadd2_memoryOk {o s} (h : MemoryOk s) : NextOk (execHadd2 o s) := by
  unfold execHadd2
  grind [floatR2_memoryOk]

theorem execHmul2_memoryOk {o s} (h : MemoryOk s) : NextOk (execHmul2 o s) := by
  unfold execHmul2
  grind [floatR2_memoryOk]

theorem execHfma2_memoryOk {o s} (h : MemoryOk s) : NextOk (execHfma2 o s) := by
  unfold execHfma2
  grind [floatR3_memoryOk]

theorem execHmax2_memoryOk {o s} (h : MemoryOk s) : NextOk (execHmax2 o s) := by
  unfold execHmax2
  grind [floatR2_memoryOk]

theorem execCvt_memoryOk {o s} (h : MemoryOk s) : NextOk (execCvt o s) := by
  unfold execCvt
  grind [laneWord_memoryOk]

theorem execF8cv_memoryOk {o s} (h : MemoryOk s) : NextOk (execF8cv o s) := by
  unfold execF8cv
  grind [laneWord_memoryOk]

theorem execF8up_memoryOk {o s} (h : MemoryOk s) : NextOk (execF8up o s) := by
  unfold execF8up
  grind [floatR2_memoryOk]

/-! ### Cross-lane words -/

theorem crossOperands_memoryOk {ss ds act b m s} (hact : ∀ b m u, MemoryOk u → MemoryOk (act b m u)) (h : MemoryOk s) :
    MemoryOk (crossOperands ss ds act b m s) := by
  unfold crossOperands
  grind [blockWord_memoryOk, trapWord_memoryOk]

theorem crossWord_memoryOk {i ss ds f fl s} (h : MemoryOk s) : NextOk (crossWord i ss ds f fl s) := by
  unfold crossWord
  grind [crossOperands_memoryOk, finishWord_memoryOk, modWarp_memoryOk, runWord_memoryOk]

theorem execLshuf_memoryOk {o s} (h : MemoryOk s) : NextOk (execLshuf o s) := by
  unfold execLshuf
  grind [crossWord_memoryOk]

theorem execLxor_memoryOk {o s} (h : MemoryOk s) : NextOk (execLxor o s) := by
  unfold execLxor
  grind [crossWord_memoryOk]

theorem execLrotw_memoryOk {o s} (h : MemoryOk s) : NextOk (execLrotw o s) := by
  unfold execLrotw
  grind [crossWord_memoryOk]

theorem execLred_memoryOk {o s} (h : MemoryOk s) : NextOk (execLred o s) := by
  unfold execLred
  grind [crossWord_memoryOk]

theorem execLscan_memoryOk {o s} (h : MemoryOk s) : NextOk (execLscan o s) := by
  unfold execLscan
  grind [crossWord_memoryOk]

theorem writeMask_memoryOk {w k f s} (h : MemoryOk s) : MemoryOk (writeMask w k f s) := by
  unfold writeMask
  grind [checkMask_memoryOk, modWarp_memoryOk]

theorem execBallot_memoryOk {o s} (h : MemoryOk s) : NextOk (execBallot o s) := by
  unfold execBallot
  grind [finishWord_memoryOk, runWord_memoryOk, writeMask_memoryOk]

theorem execMatchKey_memoryOk {o s} (h : MemoryOk s) : NextOk (execMatchKey o s) := by
  unfold execMatchKey
  grind [crossWord_memoryOk]

theorem execMatchn_memoryOk {o s} (h : MemoryOk s) : NextOk (execMatchn o s) := by
  unfold execMatchn
  grind [crossWord_memoryOk]

theorem execTbl_memoryOk {o s} (h : MemoryOk s) : NextOk (execTbl o s) := by
  unfold execTbl
  grind [crossWord_memoryOk]

theorem execElect_memoryOk {o s} (h : MemoryOk s) : NextOk (execElect o s) := by
  unfold execElect
  grind [crossWord_memoryOk]

/-! ### Branches -/

theorem jumpLanes_memoryOk {b m target f s} (h : MemoryOk s) : MemoryOk (jumpLanes b m target f s) := by
  unfold jumpLanes
  grind [finishTo_memoryOk, mapLanes_memoryOk, trapLanes_memoryOk]

theorem execBra_memoryOk {o s} (h : MemoryOk s) : NextOk (execBra o s) := by
  unfold execBra
  grind [jumpLanes_memoryOk, runWord_memoryOk, withOperands_memoryOk]

theorem execJmp_memoryOk {o s} (h : MemoryOk s) : NextOk (execJmp o s) := by
  unfold execJmp
  grind [jumpLanes_memoryOk, runWord_memoryOk, withLeader_memoryOk]

theorem execCall_memoryOk {o s} (h : MemoryOk s) : NextOk (execCall o s) := by
  unfold execCall
  grind [jumpLanes_memoryOk, runWord_memoryOk, trapLanes_memoryOk, withOperands_memoryOk]

theorem execRet_memoryOk {o s} (h : MemoryOk s) : NextOk (execRet o s) := by
  unfold execRet
  grind [jumpLanes_memoryOk, runWord_memoryOk, trapLanes_memoryOk]

theorem execExit_memoryOk {o s} (h : MemoryOk s) : NextOk (execExit o s) := by
  unfold execExit
  grind [finishWord_memoryOk, leaveLanes_memoryOk, runWord_memoryOk]

theorem execTrap_memoryOk {o s} (h : MemoryOk s) : NextOk (execTrap o s) := by
  unfold execTrap
  grind [finishWord_memoryOk, runWord_memoryOk, trapLanes_memoryOk]

/-! ### The special-function unit -/

theorem sfuIssue_memoryOk {b d f m s} (h : MemoryOk s) : MemoryOk (sfuIssue b d f m s) := by
  unfold sfuIssue
  grind [mapLanes_memoryOk, memoryOk_iff]

theorem sfuWord_memoryOk {i o two f s} (h : MemoryOk s) : NextOk (sfuWord i o two f s) := by
  unfold sfuWord
  grind [finishWord_memoryOk, runWord_memoryOk, sfuIssue_memoryOk, waitGrant_memoryOk, withOperands_memoryOk]

theorem sfuOne_memoryOk {i o f s} (h : MemoryOk s) : NextOk (sfuOne i o f s) := by
  unfold sfuOne
  grind [sfuWord_memoryOk]

theorem execRcp_memoryOk {o s} (h : MemoryOk s) : NextOk (execRcp o s) := by
  unfold execRcp
  grind [sfuOne_memoryOk]

theorem execRsq_memoryOk {o s} (h : MemoryOk s) : NextOk (execRsq o s) := by
  unfold execRsq
  grind [sfuOne_memoryOk]

theorem execSqrt_memoryOk {o s} (h : MemoryOk s) : NextOk (execSqrt o s) := by
  unfold execSqrt
  grind [sfuOne_memoryOk]

theorem execDiv_memoryOk {o s} (h : MemoryOk s) : NextOk (execDiv o s) := by
  unfold execDiv
  grind [sfuWord_memoryOk]

theorem execExp2_memoryOk {o s} (h : MemoryOk s) : NextOk (execExp2 o s) := by
  unfold execExp2
  grind [sfuOne_memoryOk]

theorem execLog2_memoryOk {o s} (h : MemoryOk s) : NextOk (execLog2 o s) := by
  unfold execLog2
  grind [sfuOne_memoryOk]

theorem execSinp_memoryOk {o s} (h : MemoryOk s) : NextOk (execSinp o s) := by
  unfold execSinp
  grind [sfuOne_memoryOk]

theorem execCosp_memoryOk {o s} (h : MemoryOk s) : NextOk (execCosp o s) := by
  unfold execCosp
  grind [sfuOne_memoryOk]

theorem execTanh_memoryOk {o s} (h : MemoryOk s) : NextOk (execTanh o s) := by
  unfold execTanh
  grind [sfuOne_memoryOk]

theorem execSigm_memoryOk {o s} (h : MemoryOk s) : NextOk (execSigm o s) := by
  unfold execSigm
  grind [sfuOne_memoryOk]

theorem execIdiv_memoryOk {o s} (h : MemoryOk s) : NextOk (execIdiv o s) := by
  unfold execIdiv
  grind [sfuWord_memoryOk]

theorem execIrem_memoryOk {o s} (h : MemoryOk s) : NextOk (execIrem o s) := by
  unfold execIrem
  grind [sfuWord_memoryOk]

theorem execSfuQueueGrant_memoryOk {die core slice s} (h : MemoryOk s) : NextOk (execSfuQueueGrant die core slice s) := by
  unfold execSfuQueueGrant
  grind [grantFirst_memoryOk, nextOk_next]

theorem execSfuResult_memoryOk {op s} (h : MemoryOk s) : NextOk (execSfuResult op s) := by
  unfold execSfuResult
  grind [memoryOk_iff, modWarp_memoryOk, nextOk_next, reapWarp_memoryOk]

/-! ### Main memory, the mesh and accesses at other dies -/

theorem dramWrite_memoryOk {s die a bs t} (h : MemoryOk s) (ht : dramWrite s die a bs = some t) : MemoryOk t := by
  unfold dramWrite at ht
  grind [DieOk, modDie_memoryOk, wf_msetAll]

theorem dramPut_memoryOk {die a bs s} (h : MemoryOk s) : MemoryOk (dramPut die a bs s) := by
  unfold dramPut
  cases hw : dramWrite s die a bs with
  | none => exact h
  | some t => exact dramWrite_memoryOk h hw

theorem modTlb_memoryOk {ctx die x f s} (h : MemoryOk s) : MemoryOk (modTlb ctx die x f s) := by
  unfold modTlb
  grind [DieOk, modDie_memoryOk]

theorem updateLeaf_memoryOk {ctx die x f s} (h : MemoryOk s) : MemoryOk (updateLeaf ctx die x f s) := by
  unfold updateLeaf
  grind [dramPut_memoryOk, logViolation_memoryOk, modTlb_memoryOk]

theorem engineDram_memoryOk {ctx die x a bs s} (h : MemoryOk s) : MemoryOk (engineDram ctx die x a bs s) := by
  unfold engineDram
  grind [dramWrite_memoryOk, logViolation_memoryOk]

theorem leafOf_memoryOk {s ctx die x} (h : MemoryOk s) : MemoryOk (leafOf s ctx die x).2 := by
  unfold leafOf
  grind [DieOk, bump_memoryOk, modDie_memoryOk]

theorem leafOf_memoryOk_of_eq {s ctx die x a t} (h : MemoryOk s) (ht : leafOf s ctx die x = (a, t)) : MemoryOk t :=
  snd_memoryOk (leafOf_memoryOk h) ht

theorem copyFrames_dieOk {d ctx src part fs} (h : DieOk d) : DieOk (copyFrames d ctx src part fs) := by
  unfold copyFrames
  induction fs.zipIdx generalizing d with
  | nil => exact h
  | cons x l ih =>
    rw [List.foldl_cons]
    apply ih
    apply wf_msetAll
    exact h

theorem breakCow_memoryOk {ctx die x p s t} (h : MemoryOk s) (ht : breakCow ctx die x p s = some t) : MemoryOk t := by
  unfold breakCow at ht
  grind [copyFrames_dieOk, modDie_memoryOk, updateLeaf_memoryOk]

theorem breakMark_memoryOk {ctx die page addr s t} (h : MemoryOk s) (ht : breakMark ctx die page addr s = some t) : MemoryOk t := by
  unfold breakMark at ht
  grind [DieOk, copyFrames_dieOk, modDie_memoryOk]

theorem cutDie_memoryOk {die c s} (h : MemoryOk s) : MemoryOk (cutDie die c s) := by
  unfold cutDie
  grind [DieOk, memoryOk_iff, modDie_memoryOk]

theorem cutShare_memoryOk {die share s} (h : MemoryOk s) : MemoryOk (cutShare die share s) := by
  unfold cutShare
  grind [cutDie_memoryOk, foldl_memoryOk]

theorem startFill_memoryOk {ctx die page s} (h : MemoryOk s) : MemoryOk (startFill ctx die page s) := by
  unfold startFill
  grind [DieOk, bump_memoryOk, modDie_memoryOk]

theorem countAccess_memoryOk {ctx die x owner p s} (h : MemoryOk s) : MemoryOk (countAccess ctx die x owner p s) := by
  unfold countAccess
  grind [DieOk, bump_memoryOk, modDie_memoryOk, modTlb_memoryOk]

theorem dropMessage_memoryOk {tag s} (h : MemoryOk s) : MemoryOk (dropMessage tag s) := by
  unfold dropMessage
  grind [ModuleOk, modMod_memoryOk]

theorem ride_memoryOk {cls ctx a b tag data s} (h : MemoryOk s) : MemoryOk (ride cls ctx a b tag data s).2 := by
  unfold ride
  grind [ModuleOk, memoryOk_iff]

theorem ride_memoryOk_of_eq {cls ctx a b tag data s a1 t} (h : MemoryOk s) (ht : ride cls ctx a b tag data s = (a1, t))
    : MemoryOk t :=
  snd_memoryOk (ride_memoryOk h) ht

theorem askGather_memoryOk {ctx die x g p s} (h : MemoryOk s) : MemoryOk (askGather ctx die x g p s) := by
  unfold askGather
  grind [DieOk, bump_memoryOk, modDie_memoryOk, updateLeaf_memoryOk]

theorem remoteEnd_memoryOk {c die addr status s} (h : MemoryOk s) : MemoryOk (remoteEnd c die addr status s) := by
  unfold remoteEnd
  grind [endContext_memoryOk]

theorem setKeeper_memoryOk {die k s} (h : MemoryOk s) : MemoryOk (setKeeper die k s) := by
  unfold setKeeper
  grind [DieOk, modDie_memoryOk]

theorem refreshKeeper_memoryOk {die s} (h : MemoryOk s) : MemoryOk (refreshKeeper die s) := by
  unfold refreshKeeper
  grind [DieOk, modDie_memoryOk, setKeeper_memoryOk]

theorem logKeeper_memoryOk {die bytes e s} (h : MemoryOk s) : MemoryOk (logKeeper die bytes e s) := by
  unfold logKeeper
  grind [refreshKeeper_memoryOk, setKeeper_memoryOk]

theorem numberFrame_memoryOk {id name ctx data s} (h : MemoryOk s) : MemoryOk (numberFrame id name ctx data s) := by
  unfold numberFrame
  grind [DieOk, ModuleOk, logKeeper_memoryOk, modDie_memoryOk, modMod_memoryOk]

theorem sendPayload_memoryOk {id src ctx f data s} (h : MemoryOk s) : MemoryOk (sendPayload id src ctx f data s) := by
  unfold sendPayload
  grind [ModuleOk, bump_memoryOk, memoryOk_iff, numberFrame_memoryOk]

theorem outFlow_memoryOk {cls src module ddie s} (h : MemoryOk s) : MemoryOk (outFlow cls src module ddie s).2.2 := by
  unfold outFlow
  grind [bump_memoryOk]

theorem sendData_memoryOk {cls src module ddie ctx ps s} (h : MemoryOk s)
    : MemoryOk (sendData cls src module ddie ctx ps s).2.2 := by
  unfold sendData
  grind [ModuleOk, foldl_memoryOk, modMod_memoryOk, outFlow_memoryOk, remoteEnd_memoryOk, sendPayload_memoryOk]

theorem sendFrame_memoryOk {cls src module ddie ctx bytes s} (h : MemoryOk s)
    : MemoryOk (sendFrame cls src module ddie ctx bytes s).2 := by
  unfold sendFrame
  grind [sendData_memoryOk]

theorem startGather_memoryOk {ctx die x g p s} (h : MemoryOk s) : MemoryOk (startGather ctx die x g p s) := by
  unfold startGather
  grind [askGather_memoryOk, foldl_memoryOk, sendFrame_memoryOk]

theorem askFill_memoryOk {ctx die page m d s} (h : MemoryOk s) : MemoryOk (askFill ctx die page m d s) := by
  unfold askFill
  grind [sendFrame_memoryOk, startFill_memoryOk]

theorem touch_memoryOk {ctx die x write s} (h : MemoryOk s) : MemoryOk (touch ctx die x write s) := by
  unfold touch
  grind [updateLeaf_memoryOk]

theorem inFrame_memoryOk {ctx d x write p s a t} (h : MemoryOk s) (ht : inFrame ctx d x write p s = some (a, t)) : MemoryOk t := by
  unfold inFrame at ht
  obtain ⟨u, hu, hut⟩ := Option.map_eq_some_iff.mp ht
  grind [breakCow_memoryOk, touch_memoryOk]

theorem remoteAt_memoryOk {s ctx x write fuel d} (h : MemoryOk s) : MemoryOk (remoteAt s ctx x write fuel d).2 := by
  induction fuel generalizing s d with
  | zero => exact h
  | succ fuel ih =>
    unfold remoteAt
    grind [leafOf_memoryOk, inFrame_memoryOk, touch_memoryOk]

theorem mirrorAt_memoryOk {s ctx d x g} (h : MemoryOk s) : MemoryOk (mirrorAt s ctx d x g).2 := by
  unfold mirrorAt
  grind [inFrame_memoryOk, touch_memoryOk]

theorem mirrorAt_memoryOk_of_eq {s ctx d x g a t} (h : MemoryOk s) (ht : mirrorAt s ctx d x g = (a, t)) : MemoryOk t :=
  snd_memoryOk (mirrorAt_memoryOk h) ht

theorem withMirror_memoryOk {ctx die x g mir w s} (h : MemoryOk s) : MemoryOk (withMirror ctx die x g mir w s).2 := by
  unfold withMirror
  grind [mirrorAt_memoryOk, mirrorAt_memoryOk_of_eq]

theorem locate_memoryOk {s ctx die x write fadd} (h : MemoryOk s) : MemoryOk (locate s ctx die x write fadd).2 := by
  unfold locate
  split
  next k t ht => exact snd_memoryOk (leafOf_memoryOk h) ht
  next p t ht =>
    have ht := snd_memoryOk (leafOf_memoryOk h) ht
    clear h
    dsimp only
    split
    · exact ht
    split <;> grind [inFrame_memoryOk, touch_memoryOk, withMirror_memoryOk, startGather_memoryOk, askFill_memoryOk,
      remoteAt_memoryOk]

theorem addAt_memoryOk {d a q s t} (h : MemoryOk s) (ht : addAt d a q s = some t) : MemoryOk t := by
  unfold addAt at ht
  obtain ⟨j, -, hj⟩ := Option.bind_eq_some_iff.mp ht
  exact dramWrite_memoryOk h hj

theorem mainRead_memoryOk {s ctx die x n} (h : MemoryOk s) : MemoryOk (mainRead s ctx die x n).2 := by
  unfold mainRead
  grind [locate_memoryOk]

theorem changeAll_memoryOk {ctx page step f ps s t} (h : MemoryOk s) (hf : ∀ d a u t, MemoryOk u → f d a u = some t → MemoryOk t)
    (ht : changeAll ctx page step f ps s = .ok t) : MemoryOk t := by
  fun_induction changeAll ctx page step f ps s <;> grind [breakMark_memoryOk]

theorem writeAll_memoryOk {ctx page step bs ps s t} (h : MemoryOk s) (ht : writeAll ctx page step bs ps s = .ok t) : MemoryOk t :=
  changeAll_memoryOk h (fun _ _ _ _ => dramWrite_memoryOk) ht

theorem dramCells_memoryOk {s die a cells t} (h : MemoryOk s) (ht : dramCells s die a cells = some t) : MemoryOk t := by
  unfold dramCells at ht
  grind [DieOk, modDie_memoryOk, wf_msetAll]

theorem mainChange_memoryOk {s ctx die x f step} (h : MemoryOk s) (hf : ∀ d a u t, MemoryOk u → f d a u = some t → MemoryOk t) :
    MemoryOk (mainChange s ctx die x f step).2 := by
  unfold mainChange
  grind [locate_memoryOk, changeAll_memoryOk]

theorem mainWrite_memoryOk {s ctx die x bs step} (h : MemoryOk s) : MemoryOk (mainWrite s ctx die x bs step).2 := by
  unfold mainWrite
  grind [dramWrite_memoryOk, mainChange_memoryOk]

theorem mainWrite_memoryOk_of_eq {s ctx die x bs step a t} (h : MemoryOk s) (ht : mainWrite s ctx die x bs step = (a, t))
    : MemoryOk t :=
  snd_memoryOk (mainWrite_memoryOk h) ht

theorem mainUnit_memoryOk {s ctx die x cells step} (h : MemoryOk s) : MemoryOk (mainUnit s ctx die x cells step).2 := by
  unfold mainUnit
  grind [dramCells_memoryOk, mainChange_memoryOk]

theorem mainPair_memoryOk {s ctx die x bs step} (h : MemoryOk s) : MemoryOk (mainPair s ctx die x bs step).2 := by
  unfold mainPair
  grind [locate_memoryOk, mainWrite_memoryOk, mainWrite_memoryOk_of_eq, writeAll_memoryOk]

theorem orFpstat_memoryOk {ctx f s} (h : MemoryOk s) : MemoryOk (orFpstat ctx f s) := by
  unfold orFpstat
  grind [modCtx_memoryOk]

theorem mainRmw_memoryOk {s ctx die x f v step} (h : MemoryOk s) : MemoryOk (mainRmw s ctx die x f v step).2 := by
  have hl : MemoryOk (locate s ctx die x true v.isSome).2 := locate_memoryOk h
  unfold mainRmw
  split <;> have ht := snd_memoryOk hl ‹_›
  · grind [writeAll_memoryOk, orFpstat_memoryOk]
  · grind [changeAll_memoryOk, addAt_memoryOk, orFpstat_memoryOk]
  all_goals exact ht

theorem mainRmw_memoryOk_of_eq {s ctx die x f v step a t} (h : MemoryOk s) (ht : mainRmw s ctx die x f v step = (a, t))
    : MemoryOk t :=
  snd_memoryOk (mainRmw_memoryOk h) ht

theorem holdAccess_memoryOk {die ctx x write h0 s} (h : MemoryOk s) : MemoryOk (holdAccess die ctx x write h0 s) := by
  unfold holdAccess
  grind [DieOk, modDie_memoryOk]

theorem freeAccess_memoryOk {die ctx x h0 s} (h : MemoryOk s) : MemoryOk (freeAccess die ctx x h0 s) := by
  unfold freeAccess
  grind [DieOk, modDie_memoryOk]

theorem countRemote_memoryOk {s ctx die x} (h : MemoryOk s) : MemoryOk (countRemote s ctx die x) := by
  unfold countRemote
  grind [countAccess_memoryOk]

theorem dropAnswersOf_memoryOk {h0 p s} (h : MemoryOk s) : MemoryOk (dropAnswersOf h0 p s) := by
  unfold dropAnswersOf
  grind [ModuleOk, modMod_memoryOk]

theorem dropAnswers_memoryOk {h0 s} (h : MemoryOk s) : MemoryOk (dropAnswers h0 s) := by
  unfold dropAnswers
  grind [dropAnswersOf_memoryOk]

theorem dropMessages_memoryOk {h0 s} (h : MemoryOk s) : MemoryOk (dropMessages h0 s) := by
  unfold dropMessages
  grind [ModuleOk, modMod_memoryOk]

theorem forgetHolder_memoryOk {h0 s} (h : MemoryOk s) : MemoryOk (forgetHolder h0 s) := by
  unfold forgetHolder
  grind [DieOk, dropMessages_memoryOk, memoryOk_iff, tableOk_tmap]

theorem reach_memoryOk {tag cls ctx die path first s} (hfirst : ∀ u, MemoryOk u → MemoryOk (first u)) (h : MemoryOk s) :
    MemoryOk (reach tag cls ctx die path first s).2 := by
  unfold reach
  grind [ride_memoryOk, dropMessage_memoryOk]

theorem overMesh_memoryOk {α : Type} {enc : α → List Byte} {dec tag cls ctx die path first} {f : State → Ended α × State} {s}
    (hfirst : ∀ u, MemoryOk u → MemoryOk (first u)) (hf : ∀ u, MemoryOk u → MemoryOk (f u).2) (h : MemoryOk s) :
    MemoryOk (overMesh enc dec tag cls ctx die path first f s).2 := by
  have hr : MemoryOk (reach tag cls ctx die path first s).2 := reach_memoryOk hfirst h
  unfold overMesh
  dsimp only
  split
  · split <;> exact h
  split
  next t ht => exact snd_memoryOk hr ht
  next t ht => exact snd_memoryOk hr ht
  next t ht =>
    have hft := hf t (snd_memoryOk hr ht)
    split
    next u hu => exact snd_memoryOk hft hu
    next u hu => exact snd_memoryOk hft hu
    next u hu => exact dropMessage_memoryOk (snd_memoryOk hft hu)
    next r u _ _ _ hu =>
      have hu := snd_memoryOk hft hu
      split
      · exact hu
      · split <;> exact ride_memoryOk_of_eq (dropMessage_memoryOk hu) ‹_›

theorem overMesh_memoryOk_of_eq {α : Type} {enc : α → List Byte} {dec tag cls ctx die path first} {f : State → Ended α × State}
    {s a t} (hfirst : ∀ u, MemoryOk u → MemoryOk (first u)) (hf : ∀ u, MemoryOk u → MemoryOk (f u).2) (h : MemoryOk s)
    (ht : overMesh enc dec tag cls ctx die path first f s = (a, t)) : MemoryOk t :=
  snd_memoryOk (overMesh_memoryOk hfirst hf h) ht

theorem mirrorFirst_memoryOk {h0 ctx die x bytes s} (h : MemoryOk s) : MemoryOk (mirrorFirst h0 ctx die x bytes s).2 := by
  unfold mirrorFirst
  grind [ModuleOk, memoryOk_iff, sendData_memoryOk]

theorem snapHold_memoryOk {ctx die x h0 s} (h : MemoryOk s) : MemoryOk (snapHold ctx die x h0 s) := by
  unfold snapHold
  grind [DieOk, modDie_memoryOk]

theorem snapLeave_memoryOk {ctx die x h0 s} (h : MemoryOk s) : MemoryOk (snapLeave ctx die x h0 s) := by
  unfold snapLeave
  grind [DieOk, modDie_memoryOk]

theorem stampGathers_memoryOk {h0 die from_ s} (h : MemoryOk s) : MemoryOk (stampGathers h0 die from_ s) := by
  unfold stampGathers
  grind [DieOk, modDie_memoryOk]

theorem inTurn_memoryOk {α : Type} {write hd ctx die x} {f : State → Ended α × State} {s}
    (hf : ∀ u, MemoryOk u → MemoryOk (f u).2) (h : MemoryOk s) : MemoryOk (inTurn write hd ctx die x f s).2 := by
  unfold inTurn
  grind [freeAccess_memoryOk, holdAccess_memoryOk, snapHold_memoryOk, snapLeave_memoryOk]

theorem engineAccess_memoryOk {α : Type} {enc : α → List Byte} {dec write hd ctx die x cls bytes} {f : State → Ended α × State} {s}
    (hf : ∀ u, MemoryOk u → MemoryOk (f u).2) (h : MemoryOk s) :
    MemoryOk (engineAccess enc dec write hd ctx die x cls bytes f s).2 := by
  unfold engineAccess
  grind [freeAccess_memoryOk, holdAccess_memoryOk, snapHold_memoryOk, snapLeave_memoryOk, mirrorFirst_memoryOk, overMesh_memoryOk,
    countRemote_memoryOk, inTurn_memoryOk, stampGathers_memoryOk, sendFrame_memoryOk, dropMessage_memoryOk]

theorem readAccess_memoryOk {hd ctx die x cls bytes f s} (hf : ∀ u, MemoryOk u → MemoryOk (f u).2) (h : MemoryOk s) :
    MemoryOk (readAccess hd ctx die x cls bytes f s).2 := engineAccess_memoryOk hf h

theorem readAccess_memoryOk_of_eq {hd ctx die x cls bytes f s a t} (hf : ∀ u, MemoryOk u → MemoryOk (f u).2) (h : MemoryOk s)
    (ht : readAccess hd ctx die x cls bytes f s = (a, t)) : MemoryOk t := snd_memoryOk (readAccess_memoryOk hf h) ht

theorem writeAccess_memoryOk {hd ctx die x cls bytes f s} (hf : ∀ u, MemoryOk u → MemoryOk (f u).2) (h : MemoryOk s) :
    MemoryOk (writeAccess hd ctx die x cls bytes f s).2 := engineAccess_memoryOk hf h

theorem writeAccess_memoryOk_of_eq {hd ctx die x cls bytes f s a t} (hf : ∀ u, MemoryOk u → MemoryOk (f u).2) (h : MemoryOk s)
    (ht : writeAccess hd ctx die x cls bytes f s = (a, t)) : MemoryOk t := snd_memoryOk (writeAccess_memoryOk hf h) ht

theorem wordAccess_memoryOk {hd ctx die x cls bytes f s} (hf : ∀ u, MemoryOk u → MemoryOk (f u).2) (h : MemoryOk s) :
    MemoryOk (wordAccess hd ctx die x cls bytes f s).2 := engineAccess_memoryOk hf h

theorem onceAccess_memoryOk {α : Type} {enc : α → List Byte} {dec write hd ctx die x cls bytes} {f : State → Ended α × State} {s}
    (hf : ∀ u, MemoryOk u → MemoryOk (f u).2) (h : MemoryOk s) :
    MemoryOk (onceAccess enc dec write hd ctx die x cls bytes f s).2 := by
  unfold onceAccess
  grind [engineAccess_memoryOk, memoryOk_iff, ModuleOk]

theorem alone_memoryOk {α : Type} {hd} {r : Ended α × State} (h : MemoryOk r.2) : MemoryOk (alone hd r).2 := by
  unfold alone
  grind [dropAnswers_memoryOk]

/-! ### Loads, stores and the region tracker -/

theorem waitTable_memoryOk {b s} (h : MemoryOk s) : MemoryOk (waitTable b s) := by
  unfold waitTable
  grind [waitGrant_memoryOk]

theorem addOps_memoryOk {ops s} (h : MemoryOk s) : MemoryOk (addOps ops s) := by
  unfold addOps
  grind [foldl_memoryOk, memoryOk_iff]

theorem denyLanes_memoryOk {b m addr deny s} (h : MemoryOk s) : MemoryOk (denyLanes b m addr deny s).2 := by
  unfold denyLanes
  grind [laneFault_memoryOk, trapLanes_memoryOk]

theorem memWord_memoryOk {i o sp store s} (h : MemoryOk s) : NextOk (memWord i o sp store s) := by
  unfold memWord
  grind [addOps_memoryOk, blockWord_memoryOk, denyLanes_memoryOk, finishWord_memoryOk, mapLanes_memoryOk, runWord_memoryOk,
    waitTable_memoryOk, withOperands_memoryOk]

theorem execLdb_memoryOk {o s} (h : MemoryOk s) : NextOk (execLdb o s) := by
  unfold execLdb
  grind [memWord_memoryOk]

theorem execStb_memoryOk {o s} (h : MemoryOk s) : NextOk (execStb o s) := by
  unfold execStb
  grind [memWord_memoryOk]

theorem execLdd_memoryOk {o s} (h : MemoryOk s) : NextOk (execLdd o s) := by
  unfold execLdd
  grind [memWord_memoryOk]

theorem execStd_memoryOk {o s} (h : MemoryOk s) : NextOk (execStd o s) := by
  unfold execStd
  grind [memWord_memoryOk]

theorem execLdk_memoryOk {o s} (h : MemoryOk s) : NextOk (execLdk o s) := by
  unfold execLdk
  grind [memWord_memoryOk]

theorem execStk_memoryOk {o s} (h : MemoryOk s) : NextOk (execStk o s) := by
  unfold execStk
  grind [memWord_memoryOk]

theorem recordAccess_dieOk {d r a n cells write} (h : DieOk d) : DieOk (recordAccess d r a n cells write) := by
  unfold recordAccess
  grind [DieOk]

theorem regionAccess_memoryOk {w o fuel s} (h : MemoryOk s) : MemoryOk (regionAccess w o fuel s).2 := by
  induction fuel generalizing s with
  | zero => exact h
  | succ fuel ih =>
    unfold regionAccess
    grind [abortSlots_memoryOk, setDie_memoryOk, die_dieOk, recordAccess_dieOk]

theorem stackEnd_memoryOk {ctx die addr kind s} (h : MemoryOk s) : MemoryOk (stackEnd ctx die addr kind s) := by
  unfold stackEnd
  grind [endContext_memoryOk, logViolation_memoryOk]

theorem writeBack_memoryOk {ctx die base step cells s} (h : MemoryOk s) : MemoryOk (writeBack ctx die base step cells s).2 := by
  induction cells generalizing s with
  | nil => exact h
  | cons c cells ih =>
    unfold writeBack
    grind [mainWrite_memoryOk]

theorem evictLine_memoryOk {die core l s} (h : MemoryOk s) : MemoryOk (evictLine die core l s).2 := by
  unfold evictLine
  grind [modCore_memoryOk, writeBack_memoryOk, stackEnd_memoryOk]

theorem makeRoom_memoryOk {die core n s} (h : MemoryOk s) : MemoryOk (makeRoom die core n s).2 := by
  induction n generalizing s with
  | zero => exact h
  | succ n ih =>
    unfold makeRoom
    grind [evictLine_memoryOk, bump_memoryOk]

theorem touchLine_memoryOk {ctx die core b at_ off store s} (h : MemoryOk s)
    : MemoryOk (touchLine ctx die core b at_ off store s).2 := by
  unfold touchLine
  grind [makeRoom_memoryOk, modCore_memoryOk, stackEnd_memoryOk]

theorem stackReady_memoryOk {o s} (h : MemoryOk s) : MemoryOk (stackReady o s).2 := by
  unfold stackReady
  grind [touchLine_memoryOk]

theorem performLoad_memoryOk {o s} (h : MemoryOk s) : MemoryOk (performLoad o s).2 := by
  unfold performLoad
  grind [memoryOk_iff, regionAccess_memoryOk, stackReady_memoryOk]

theorem performLoad_memoryOk_of_eq {o s a t} (h : MemoryOk s) (ht : performLoad o s = (a, t)) : MemoryOk t :=
  snd_memoryOk (performLoad_memoryOk h) ht

theorem stackWrite_memoryOk {o s} (h : MemoryOk s) : MemoryOk (stackWrite o s) := by
  unfold stackWrite
  grind [BlockOk, modBlock_memoryOk, setWarp_memoryOk]

theorem performStore_memoryOk {o s} (h : MemoryOk s) : MemoryOk (performStore o s).2 := by
  unfold performStore
  grind [BlockOk, modBlock_memoryOk, regionAccess_memoryOk, stackReady_memoryOk, stackWrite_memoryOk, wf_msetAll]

theorem dropOp_memoryOk {id s} (h : MemoryOk s) : MemoryOk (dropOp id s) := by
  unfold dropOp
  grind [memoryOk_iff, reapWarp_memoryOk]

theorem landOp_memoryOk {id s} (h : MemoryOk s) : MemoryOk (landOp id s) := by
  unfold landOp
  grind [dropOp_memoryOk, modThread_memoryOk]

theorem setOp_memoryOk {id f s} (h : MemoryOk s) : MemoryOk (setOp id f s) := by
  unfold setOp
  grind [memoryOk_iff]

theorem stallOp_memoryOk {id s} (h : MemoryOk s) : MemoryOk (stallOp id s) := by
  unfold stallOp
  grind [setOp_memoryOk]

theorem regain_memoryOk {id o s t} (h : MemoryOk s) (ht : regain id o s = some t) : MemoryOk t := by
  unfold regain at ht
  grind [setOp_memoryOk]

theorem readOp_memoryOk {id s} (h : MemoryOk s) : MemoryOk (readOp id s) := by
  unfold readOp
  split
  · exact h
  split
  · exact h
  split
  · exact h
  next u hu =>
    have hu := regain_memoryOk h hu
    split
    · exact setOp_memoryOk hu
    · split
      next v t ht => exact setOp_memoryOk (performLoad_memoryOk_of_eq hu ht)
      next t ht => exact stallOp_memoryOk (performLoad_memoryOk_of_eq hu ht)
    · exact hu

theorem execLoadReturn_memoryOk {op land s} (h : MemoryOk s) : NextOk (execLoadReturn op land s) := by
  unfold execLoadReturn
  grind [checkRege_memoryOk, landOp_memoryOk, nextOk_next, readOp_memoryOk]

theorem ackOp_memoryOk {id s} (h : MemoryOk s) : MemoryOk (ackOp id s) := by
  unfold ackOp
  grind [dropOp_memoryOk, performStore_memoryOk, regain_memoryOk, stallOp_memoryOk]

theorem execStoreAck_memoryOk {op s} (h : MemoryOk s) : NextOk (execStoreAck op s) := by
  unfold execStoreAck
  grind [ackOp_memoryOk, checkRege_memoryOk, nextOk_next]

theorem execRegionAccessRetry_memoryOk {op s} (h : MemoryOk s) : NextOk (execRegionAccessRetry op s) := by
  unfold execRegionAccessRetry
  grind [ackOp_memoryOk, checkRege_memoryOk, nextOk_next, readOp_memoryOk]

/-! ### Atomics, edges, publications and the region words -/

theorem sendA_memoryOk {u o act free b m s} (h : MemoryOk s) : MemoryOk (sendA u o act free b m s).2 := by
  unfold sendA
  grind [addOps_memoryOk, denyLanes_memoryOk, mapLanes_memoryOk, trapLanes_memoryOk]

theorem startAct_memoryOk {b m kind after s} (h : MemoryOk s) : MemoryOk (startAct b m kind after s) := by
  unfold startAct
  grind [finishWord_memoryOk, memoryOk_iff, waitLanes_memoryOk]

theorem fmtAWord_memoryOk {i u o s} (h : MemoryOk s) : NextOk (fmtAWord i u o s) := by
  unfold fmtAWord
  grind [abortRegion_memoryOk, blockWord_memoryOk, finishWord_memoryOk, runWord_memoryOk, sendA_memoryOk, startAct_memoryOk,
    trapLanes_memoryOk, waitTable_memoryOk, withOperands_memoryOk]

theorem execAtom_memoryOk {o s} (h : MemoryOk s) : NextOk (execAtom o s) := by
  unfold execAtom
  grind [fmtAWord_memoryOk]

theorem execRed_memoryOk {o s} (h : MemoryOk s) : NextOk (execRed o s) := by
  unfold execRed
  grind [fmtAWord_memoryOk]

theorem execWaitv_memoryOk {o s} (h : MemoryOk s) : NextOk (execWaitv o s) := by
  unfold execWaitv
  grind [fmtAWord_memoryOk]

theorem execNote_memoryOk {o s} (h : MemoryOk s) : NextOk (execNote o s) := by
  unfold execNote
  grind [fmtAWord_memoryOk]

theorem endAct_memoryOk {id s} (h : MemoryOk s) : MemoryOk (endAct id s) := by
  unfold endAct
  grind [memoryOk_iff, releaseWhere_memoryOk]

theorem setAct_memoryOk {id k s} (h : MemoryOk s) : MemoryOk (setAct id k s) := by
  unfold setAct
  grind [memoryOk_iff]

theorem stepEdge_memoryOk {id a u o hdr idx cls count pub sent s} (h : MemoryOk s)
    : MemoryOk (stepEdge id a u o hdr idx cls count pub sent s) := by
  unfold stepEdge
  grind [endAct_memoryOk, memoryOk_iff, modCore_memoryOk, publish_memoryOk, refresh_memoryOk, sendA_memoryOk, setAct_memoryOk]

theorem stepPhase_memoryOk {id a pub ref s} (h : MemoryOk s) : MemoryOk (stepPhase id a pub ref s) := by
  unfold stepPhase
  grind [endAct_memoryOk, publish_memoryOk, refresh_memoryOk, setAct_memoryOk]

theorem execPhase_memoryOk {o s} (h : MemoryOk s) : NextOk (execPhase o s) := by
  unfold execPhase
  grind [abortRegion_memoryOk, finishWord_memoryOk, runWord_memoryOk, startAct_memoryOk, trapWord_memoryOk]

theorem tryEdge_memoryOk {id s} (h : MemoryOk s) : MemoryOk (tryEdge id s) := by
  unfold tryEdge
  grind [stepEdge_memoryOk]

theorem execTableEntryGrant_memoryOk {die core s} (h : MemoryOk s) : NextOk (execTableEntryGrant die core s) := by
  unfold execTableEntryGrant
  grind [grantFirst_memoryOk, nextOk_next, tryEdge_memoryOk]

theorem answerOp_memoryOk {id v s} (h : MemoryOk s) : MemoryOk (answerOp id v s) := by
  unfold answerOp
  grind [dropOp_memoryOk, setOp_memoryOk]

theorem wakeWaiters_memoryOk {id o all v s} (h : MemoryOk s) : MemoryOk (wakeWaiters id o all v s) := by
  unfold wakeWaiters
  grind [answerOp_memoryOk, foldl_memoryOk, setOp_memoryOk]

theorem enqueueWaiter_memoryOk {id o s} (h : MemoryOk s) : MemoryOk (enqueueWaiter id o s) := by
  unfold enqueueWaiter
  grind [answerOp_memoryOk, bump_memoryOk, setOp_memoryOk]

theorem afterRmw_memoryOk {id o old s} (h : MemoryOk s) : MemoryOk (afterRmw id o old s) := by
  unfold afterRmw
  grind [answerOp_memoryOk, enqueueWaiter_memoryOk, setOp_memoryOk, wakeWaiters_memoryOk]

theorem rmwWindow_memoryOk {id o s} (h : MemoryOk s) : MemoryOk (rmwWindow id o s) := by
  unfold rmwWindow
  grind [BlockOk, afterRmw_memoryOk, homeWrite_memoryOk, modBlock_memoryOk, orFpstat_memoryOk, wf_mwrite]

theorem rmwFault_memoryOk {id o kind s} (h : MemoryOk s) : MemoryOk (rmwFault id o kind s) := by
  unfold rmwFault
  grind [answerOp_memoryOk, landOp_memoryOk, laneFault_memoryOk, logViolation_memoryOk, setOp_memoryOk]

theorem rmwRefused_memoryOk {id o r s} (h : MemoryOk s) : MemoryOk (rmwRefused id o r s) := by
  unfold rmwRefused
  grind [remoteEnd_memoryOk, rmwFault_memoryOk]

theorem rmwHere_memoryOk {id o last s} (h : MemoryOk s) : MemoryOk (rmwHere id o last s) := by
  unfold rmwHere
  extract_lets hd tag leave free
  have hleave : ∀ {d u}, MemoryOk u → MemoryOk (leave d u) := fun hu => snapLeave_memoryOk (freeAccess_memoryOk hu)
  have hfree : ∀ {u}, MemoryOk u → MemoryOk (free u) := fun hu =>
    hleave (hleave (dropMessage_memoryOk (dropMessage_memoryOk hu)))
  have ht := mainRmw_memoryOk (ctx := o.ctx) (die := o.port) (x := o.addr) (f := rmwOf o) (v := fpAddend o) (step := opStep s o) h
  clear_value free
  generalize mainRmw s o.ctx o.port o.addr (rmwOf o) (fpAddend o) (opStep s o) = r at ht ⊢
  obtain ⟨r, t⟩ := r
  have hrefused : ∀ r, MemoryOk (if (s.transfer? tag).isNone then rmwRefused id o r (free t)
      else match ride 1 o.ctx last o.port (tag ++ [1]) (answerBytes (fun _ => []) r) (free t) with
        | (.cut, t) => remoteEnd o.ctx last o.addr 0 t
        | (_, t) => t) := by
    intro r
    split
    · exact rmwRefused_memoryOk (hfree ht)
    · split
      · exact remoteEnd_memoryOk (ride_memoryOk_of_eq (hfree ht) ‹_›)
      · exact ride_memoryOk_of_eq (hfree ht) ‹_›
  cases r with
  | done old => exact afterRmw_memoryOk (hfree ht)
  | wait => exact holdAccess_memoryOk ht
  | held => exact setOp_memoryOk (snapHold_memoryOk (snapHold_memoryOk ht))
  | far m d =>
    dsimp only
    split
    · exact ht
    · exact setOp_memoryOk (sendFrame_memoryOk ht)
  | fail k => exact hrefused _
  | lost => exact hrefused _
  | remote d k => exact hrefused _

theorem rmwMain_memoryOk {id o s} (h : MemoryOk s) : MemoryOk (rmwMain id o s) := by
  unfold rmwMain
  grind [countRemote_memoryOk, dropMessage_memoryOk, holdAccess_memoryOk, mirrorFirst_memoryOk, reach_memoryOk, remoteEnd_memoryOk,
    rmwFault_memoryOk, rmwHere_memoryOk, rmwRefused_memoryOk]

theorem portOp_memoryOk {id s} (h : MemoryOk s) : MemoryOk (portOp id s) := by
  unfold portOp
  grind [regain_memoryOk, rmwMain_memoryOk, rmwWindow_memoryOk]

theorem returnOp_memoryOk {id o s} (h : MemoryOk s) : MemoryOk (returnOp id o s) := by
  unfold returnOp
  grind [dropMessage_memoryOk, landOp_memoryOk, remoteEnd_memoryOk, ride_memoryOk]

theorem execAtomicReturn_memoryOk {op s} (h : MemoryOk s) : NextOk (execAtomicReturn op s) := by
  unfold execAtomicReturn
  grind [nextOk_next, returnOp_memoryOk, tryEdge_memoryOk]

theorem execWaiterPlaceFree_memoryOk {op s} (h : MemoryOk s) : NextOk (execWaiterPlaceFree op s) := by
  unfold execWaiterPlaceFree
  grind [nextOk_next, portOp_memoryOk]

theorem execWaitvTimeout_memoryOk {op s} (h : MemoryOk s) : NextOk (execWaitvTimeout op s) := by
  unfold execWaitvTimeout
  grind [answerOp_memoryOk, nextOk_next]

theorem execFence_memoryOk {o s} (h : MemoryOk s) : NextOk (execFence o s) := by
  unfold execFence
  grind [blockWord_memoryOk, finishWord_memoryOk, modIss_memoryOk, runWord_memoryOk]

theorem execFenceComplete_memoryOk {w pipe s} (h : MemoryOk s) : NextOk (execFenceComplete w pipe s) := by
  unfold execFenceComplete
  grind [modIss_memoryOk, nextOk_next]

theorem execFltm_memoryOk {o s} (h : MemoryOk s) : NextOk (execFltm o s) := by
  unfold execFltm
  grind [laneWord_memoryOk]

theorem execFltmClr_memoryOk {o s} (h : MemoryOk s) : NextOk (execFltmClr o s) := by
  unfold execFltmClr
  grind [finishWord_memoryOk, modWarp_memoryOk, runWord_memoryOk]

theorem execRegb_memoryOk {o s} (h : MemoryOk s) : NextOk (execRegb o s) := by
  unfold execRegb
  grind [abortRegion_memoryOk, checkRegb_memoryOk, finishWord_memoryOk, modWarp_memoryOk, runWord_memoryOk, trapLanes_memoryOk,
    waitLanes_memoryOk, withLeader_memoryOk]

theorem execRege_memoryOk {o s} (h : MemoryOk s) : NextOk (execRege o s) := by
  unfold execRege
  grind [checkRege_memoryOk, finishWord_memoryOk, runWord_memoryOk, trapWord_memoryOk, waitLanes_memoryOk]

theorem execRegx_memoryOk {o s} (h : MemoryOk s) : NextOk (execRegx o s) := by
  unfold execRegx
  grind [abortRegion_memoryOk, finishWord_memoryOk, runWord_memoryOk, trapWord_memoryOk]

theorem execRegq_memoryOk {o s} (h : MemoryOk s) : NextOk (execRegq o s) := by
  unfold execRegq
  grind [addOps_memoryOk, finishWord_memoryOk, mapLanes_memoryOk, runWord_memoryOk, withOperands_memoryOk]

theorem execRegionOpen_memoryOk {w s} (h : MemoryOk s) : NextOk (execRegionOpen w s) := by
  unfold execRegionOpen
  grind [DieOk, die_dieOk, modWarp_memoryOk, nextOk_next, releaseWhere_memoryOk, setDie_memoryOk]

theorem execRegionCommit_memoryOk {w s} (h : MemoryOk s) : NextOk (execRegionCommit w s) := by
  unfold execRegionCommit
  grind [DieOk, modDie_memoryOk, modWarp_memoryOk, nextOk_next, releaseWhere_memoryOk, writeHome_memoryOk]

/-! ### Buffers and sidings -/

theorem modBuf_memoryOk {s b q f} (h : MemoryOk s) : MemoryOk (State.modBuf s b q f) := by
  unfold State.modBuf
  grind [BlockOk, modBlock_memoryOk]

theorem nearWrite_memoryOk {b q op cells s} (h : MemoryOk s) : MemoryOk (nearWrite b q op cells s) := by
  unfold nearWrite
  grind [BlockOk, modBlock_memoryOk, modBuf_memoryOk, wf_msetAll]

theorem reserveSlots_memoryOk {b q prod op k s} (h : MemoryOk s) : MemoryOk (reserveSlots b q prod op k s) := by
  unfold reserveSlots
  grind [modBuf_memoryOk]

theorem advanceP_memoryOk {b q s} (h : MemoryOk s) : MemoryOk (advanceP b q s) := by
  unfold advanceP
  grind [homeWrite_memoryOk, modBuf_memoryOk]

theorem advanceC_memoryOk {b q s} (h : MemoryOk s) : MemoryOk (advanceC b q s) := by
  unfold advanceC
  grind [modBuf_memoryOk]

theorem endSlots_memoryOk {b q prod op s} (h : MemoryOk s) : MemoryOk (endSlots b q prod op s) := by
  unfold endSlots
  grind [advanceC_memoryOk, advanceP_memoryOk, modBuf_memoryOk]

theorem fillToken_memoryOk {w r v s} (h : MemoryOk s) : MemoryOk (fillToken w r v s) := by
  unfold fillToken
  grind [setWreg_memoryOk]

theorem endCopy_memoryOk {id status s} (h : MemoryOk s) : MemoryOk (endCopy id status s) := by
  unfold endCopy
  grind [fillToken_memoryOk, memoryOk_iff]

theorem bufWord_memoryOk {i void bad act s} (hact : ∀ b m u, MemoryOk u → MemoryOk (act b m u)) (h : MemoryOk s) :
    NextOk (bufWord i void bad act s) := by
  unfold bufWord
  refine runWord_memoryOk (fun b m u hu => ?_) h
  grind [finishWord_memoryOk, abortRegion_memoryOk, blockWord_memoryOk, trapWord_memoryOk]

theorem takeToken_memoryOk {b k s} (h : MemoryOk s) : MemoryOk (takeToken b k s) := by
  unfold takeToken
  grind [setWreg_memoryOk]

theorem afterStores_memoryOk {act b m s} (hact : ∀ b m u, MemoryOk u → MemoryOk (act b m u)) (h : MemoryOk s) :
    MemoryOk (afterStores act b m s) := by
  unfold afterStores
  grind [blockWord_memoryOk, modIss_memoryOk]

theorem endUnfired_memoryOk {b q s} (h : MemoryOk s) : MemoryOk (endUnfired b q s) := by
  unfold endUnfired
  grind [endCopy_memoryOk, foldl_memoryOk]

theorem execBufd_memoryOk {o s} (h : MemoryOk s) : NextOk (execBufd o s) := by
  unfold execBufd
  grind [bufWord_memoryOk, endUnfired_memoryOk, startAct_memoryOk, trapWord_memoryOk]

theorem installBuf_memoryOk {b q ws s} (h : MemoryOk s) : MemoryOk (installBuf b q ws s) := by
  unfold installBuf
  grind [modBuf_memoryOk]

theorem exchangeBuf_memoryOk {b q s} (h : MemoryOk s) : MemoryOk (exchangeBuf b q s) := by
  unfold exchangeBuf
  grind [BlockOk, homeWrite_memoryOk, modBlock_memoryOk, modBuf_memoryOk, wf_msetAll]

theorem execPubl_memoryOk {o s} (h : MemoryOk s) : NextOk (execPubl o s) := by
  unfold execPubl
  grind [bufWord_memoryOk, startAct_memoryOk]

theorem execRpush_memoryOk {o s} (h : MemoryOk s) : NextOk (execRpush o s) := by
  unfold execRpush
  grind [bufWord_memoryOk, startAct_memoryOk]

theorem pushSlots_memoryOk {b q k s} (h : MemoryOk s) : MemoryOk (pushSlots b q k s) := by
  unfold pushSlots
  grind [BlockOk, homeWrite_memoryOk, modBlock_memoryOk, modBuf_memoryOk, wf_msetAll]

theorem execRpop_memoryOk {o s} (h : MemoryOk s) : NextOk (execRpop o s) := by
  unfold execRpop
  grind [bufWord_memoryOk, finishWord_memoryOk, modBuf_memoryOk]

theorem rwaitWord_memoryOk {i o prod s} (h : MemoryOk s) : NextOk (rwaitWord i o prod s) := by
  unfold rwaitWord
  grind [blockWord_memoryOk, bufWord_memoryOk, finishWord_memoryOk, memoryOk_iff, takeToken_memoryOk]

theorem execRwaitC_memoryOk {o s} (h : MemoryOk s) : NextOk (execRwaitC o s) := by
  unfold execRwaitC
  grind [rwaitWord_memoryOk]

theorem execRwaitP_memoryOk {o s} (h : MemoryOk s) : NextOk (execRwaitP o s) := by
  unfold execRwaitP
  grind [rwaitWord_memoryOk]

theorem acquireSlots_memoryOk {b q from_ s} (h : MemoryOk s) : MemoryOk (acquireSlots b q from_ s) := by
  unfold acquireSlots
  grind [BlockOk, modBlock_memoryOk, wf_msetAll]

theorem execRwaitFill_memoryOk {wait s} (h : MemoryOk s) : NextOk (execRwaitFill wait s) := by
  unfold execRwaitFill
  grind [acquireSlots_memoryOk, fillToken_memoryOk, memoryOk_iff, modBuf_memoryOk, nextOk_next]

theorem execCpyq_memoryOk {o s} (h : MemoryOk s) : NextOk (execCpyq o s) := by
  unfold execCpyq
  grind [blockWord_memoryOk, bufWord_memoryOk, finishWord_memoryOk, memoryOk_iff, takeToken_memoryOk]

theorem stepBufd_memoryOk {id b q ws s} (h : MemoryOk s) : MemoryOk (stepBufd id b q ws s) := by
  unfold stepBufd
  grind [endAct_memoryOk, endUnfired_memoryOk, installBuf_memoryOk]

theorem stepBufAct_memoryOk {id a s} (h : MemoryOk s) : MemoryOk (stepBufAct id a s) := by
  unfold stepBufAct
  grind [endAct_memoryOk, exchangeBuf_memoryOk, fillToken_memoryOk, memoryOk_iff, pushSlots_memoryOk, refresh_memoryOk,
    setAct_memoryOk, stepBufd_memoryOk]

/-! ### The copy engine -/

theorem acceptCopies_memoryOk {cs s} (h : MemoryOk s) : MemoryOk (acceptCopies cs s) := by
  unfold acceptCopies
  grind [bump_memoryOk, foldl_memoryOk, memoryOk_iff]

theorem copyWord_memoryOk {i kind o s} (h : MemoryOk s) : NextOk (copyWord i kind o s) := by
  unfold copyWord
  grind [acceptCopies_memoryOk, afterStores_memoryOk, blockWord_memoryOk, bufWord_memoryOk, finishWord_memoryOk, takeToken_memoryOk,
    waitGrant_memoryOk]

theorem execCpyin_memoryOk {o s} (h : MemoryOk s) : NextOk (execCpyin o s) := by
  unfold execCpyin
  grind [copyWord_memoryOk]

theorem execCpyout_memoryOk {o s} (h : MemoryOk s) : NextOk (execCpyout o s) := by
  unfold execCpyout
  grind [copyWord_memoryOk]

theorem execCpyg_memoryOk {o s} (h : MemoryOk s) : NextOk (execCpyg o s) := by
  unfold execCpyg
  grind [copyWord_memoryOk]

theorem execCpys_memoryOk {o s} (h : MemoryOk s) : NextOk (execCpys o s) := by
  unfold execCpys
  grind [copyWord_memoryOk]

theorem execCpyd_memoryOk {o s} (h : MemoryOk s) : NextOk (execCpyd o s) := by
  unfold execCpyd
  grind [copyWord_memoryOk]

theorem execCpyf_memoryOk {o s} (h : MemoryOk s) : NextOk (execCpyf o s) := by
  unfold execCpyf
  grind [copyWord_memoryOk]

theorem execCpyfFar_memoryOk {o s} (h : MemoryOk s) : NextOk (execCpyfFar o s) := by
  unfold execCpyfFar
  grind [copyWord_memoryOk]

theorem execPfch_memoryOk {o s} (h : MemoryOk s) : NextOk (execPfch o s) := by
  unfold execPfch
  grind [copyWord_memoryOk]

theorem execEvict_memoryOk {o s} (h : MemoryOk s) : NextOk (execEvict o s) := by
  unfold execEvict
  grind [copyWord_memoryOk]

theorem fireGroup_memoryOk {c start s} (h : MemoryOk s) : MemoryOk (fireGroup c start s) := by
  unfold fireGroup
  grind [memoryOk_iff]

theorem execCopyFire_memoryOk {copy s} (h : MemoryOk s) : NextOk (execCopyFire copy s) := by
  unfold execCopyFire
  grind [fireGroup_memoryOk, nextOk_next, reserveSlots_memoryOk]

theorem farRead_memoryOk {id c a n s} (h : MemoryOk s) : MemoryOk (farRead id c a n s).2 := by
  unfold farRead
  split
  · split
    · exact h
    · exact overMesh_memoryOk (fun u hu => hu) (fun u hu => hu) h
  · exact readAccess_memoryOk (fun u hu => mainRead_memoryOk hu) h

theorem farWrite_memoryOk {id c a cells s} (h : MemoryOk s) : MemoryOk (farWrite id c a cells s).2 := by
  unfold farWrite
  split
  · split
    · exact h
    · exact overMesh_memoryOk (fun u hu => hu) (fun u hu => hu) h
  · exact writeAccess_memoryOk (fun u hu => mainUnit_memoryOk hu) h

theorem sourceUnit_memoryOk {id key read s} (hread : ∀ u, MemoryOk u → MemoryOk (read u).2) (h : MemoryOk s) :
    MemoryOk (sourceUnit id key read s).2 := by
  rcases hr : read s with ⟨r, t⟩
  have ht : MemoryOk t := snd_memoryOk (hread s h) hr
  unfold sourceUnit
  rw [hr]
  split
  · exact h
  · cases r <;> exact ht

theorem sourceUnit_memoryOk_of_eq {id key read s a t} (hread : ∀ u, MemoryOk u → MemoryOk (read u).2) (h : MemoryOk s)
    (ht : sourceUnit id key read s = (a, t)) : MemoryOk t := snd_memoryOk (sourceUnit_memoryOk hread h) ht

theorem farCells_memoryOk {id c as cs s} (h : MemoryOk s) : MemoryOk (farCells id c as cs s).2 := by
  induction as generalizing cs s with
  | nil => exact h
  | cons a as ih =>
    have hread : ∀ u, MemoryOk u → MemoryOk (farRead id c (a / 16 * 16) 16 u).2 := fun u hu => farRead_memoryOk hu
    unfold farCells
    dsimp only
    split
    · exact ih h
    · split <;> have ht := sourceUnit_memoryOk_of_eq hread h ‹_›
      · exact ih ht
      all_goals exact ht

theorem farBytes_memoryOk {id c as s} (h : MemoryOk s) : MemoryOk (farBytes id c as s).2 := by
  unfold farBytes
  grind [farCells_memoryOk]

theorem farBytes_memoryOk_of_eq {id c as s a t} (h : MemoryOk s) (ht : farBytes id c as s = (a, t)) : MemoryOk t :=
  snd_memoryOk (farBytes_memoryOk h) ht

theorem blockUnit_memoryOk {id c p m s} (h : MemoryOk s) : MemoryOk (blockUnit id c p m s).2 := by
  unfold blockUnit
  grind [farBytes_memoryOk, farBytes_memoryOk_of_eq]

theorem nearBytes_memoryOk {id c m s} (h : MemoryOk s) : MemoryOk (nearBytes id c m s).2 := by
  unfold nearBytes
  grind [sourceUnit_memoryOk]

theorem moveData_memoryOk {id c m s} (h : MemoryOk s) : MemoryOk (moveData id c m s).2 := by
  unfold moveData
  grind [blockUnit_memoryOk, farBytes_memoryOk, nearBytes_memoryOk]

theorem moveData_memoryOk_of_eq {id c m s a t} (h : MemoryOk s) (ht : moveData id c m s = (a, t)) : MemoryOk t :=
  snd_memoryOk (moveData_memoryOk h) ht

theorem convertPage_memoryOk {die r p g s} (h : MemoryOk s) : MemoryOk (convertPage die r p g s) := by
  unfold convertPage
  grind [engineDram_memoryOk, foldl_memoryOk, orFpstat_memoryOk, updateLeaf_memoryOk]

theorem sendDone_memoryOk {ctx page src from_ to_ s} (h : MemoryOk s) : MemoryOk (sendDone ctx page src from_ to_ s) := by
  unfold sendDone
  grind [DieOk, bump_memoryOk, modDie_memoryOk, remoteEnd_memoryOk, ride_memoryOk, sendFrame_memoryOk]

theorem settleRed_memoryOk {die id s} (h : MemoryOk s) : MemoryOk (settleRed die id s) := by
  unfold settleRed
  split
  · exact h
  split
  · exact h
  split
  · exact h
  extract_lets me mine member others send conv r s1 s2
  have h1 : MemoryOk s1 := modDie_memoryOk h fun x hx => hx
  have h2 : MemoryOk s2 := by
    unfold s2
    split
    · exact convertPage_memoryOk h1
    · exact h1
  clear_value s2
  split
  · exact foldl_memoryOk h2 fun u d hu => foldl_memoryOk hu fun v k hv => sendDone_memoryOk hv
  · exact h2

theorem startReduce_memoryOk {ctx die page p g step s} (h : MemoryOk s) : MemoryOk (startReduce ctx die page p g step s) := by
  unfold startReduce
  grind [DieOk, bump_memoryOk, foldl_memoryOk, modDie_memoryOk, sendFrame_memoryOk, settleRed_memoryOk, updateLeaf_memoryOk]

theorem evictPage_memoryOk {id c x s} (h : MemoryOk s) : MemoryOk (evictPage id c x s).2 := by
  unfold evictPage
  grind [freeAccess_memoryOk, holdAccess_memoryOk, leafOf_memoryOk, modTlb_memoryOk, startReduce_memoryOk, updateLeaf_memoryOk]

theorem evictPage_memoryOk_of_eq {id c x s a t} (h : MemoryOk s) (ht : evictPage id c x s = (a, t)) : MemoryOk t :=
  snd_memoryOk (evictPage_memoryOk h) ht

theorem prefetch_memoryOk {id c x n s} (h : MemoryOk s) : MemoryOk (prefetch id c x n s).2 := by
  unfold prefetch
  grind [farRead_memoryOk, freeAccess_memoryOk]

theorem prefetch_memoryOk_of_eq {id c x n s a t} (h : MemoryOk s) (ht : prefetch id c x n s = (a, t)) : MemoryOk t :=
  snd_memoryOk (prefetch_memoryOk h) ht

theorem modCopy_memoryOk {id f s} (h : MemoryOk s) : MemoryOk (modCopy id f s) := by
  unfold modCopy
  grind [memoryOk_iff]

theorem forgetCopy_memoryOk {id s} (h : MemoryOk s) : MemoryOk (forgetCopy id s) := by
  unfold forgetCopy
  grind [dropMessages_memoryOk]

theorem stopCopy_memoryOk {α : Type} {id c a} {r : Ended α} {s} (h : MemoryOk s) : MemoryOk (stopCopy id c a r s) := by
  unfold stopCopy
  grind [forgetCopy_memoryOk, modCopy_memoryOk, logViolation_memoryOk, remoteEnd_memoryOk]

theorem unitCells_memoryOk {id c addr ms s} (h : MemoryOk s) : MemoryOk (unitCells id c addr ms s).2 := by
  induction ms generalizing s with
  | nil => exact h
  | cons m ms ih =>
    unfold unitCells
    split <;> have ht := moveData_memoryOk_of_eq h ‹_›
    · have hrest := ih ht
      split
      next l a u hu => exact snd_memoryOk hrest hu
      next => exact hrest
    all_goals exact ht

theorem unitCells_memoryOk_of_eq {id c addr ms s a t} (h : MemoryOk s) (ht : unitCells id c addr ms s = (a, t)) : MemoryOk t :=
  snd_memoryOk (unitCells_memoryOk h) ht

theorem writeFar_memoryOk {id c u pair cs s} (h : MemoryOk s) : MemoryOk (writeFar id c u pair cs s).2 := by
  unfold writeFar
  grind [farWrite_memoryOk, mainPair_memoryOk, writeAccess_memoryOk]

theorem writeFar_memoryOk_of_eq {id c u pair cs s a t} (h : MemoryOk s) (ht : writeFar id c u pair cs s = (a, t)) : MemoryOk t :=
  snd_memoryOk (writeFar_memoryOk h) ht

theorem copyUnit_memoryOk {id u s} (h : MemoryOk s) : MemoryOk (copyUnit id u s) := by
  unfold copyUnit
  split
  · exact h
  extract_lets pair mine ms used fin
  have hfin : ∀ {count t}, MemoryOk t → MemoryOk (fin count t) := fun ht => dropAnswersOf_memoryOk (modCopy_memoryOk ht)
  clear_value fin ms
  rcases ms with _ | ⟨m0, ms⟩
  · exact h
  dsimp only
  split
  · split <;> have ht := evictPage_memoryOk_of_eq h ‹_›
    · exact hfin ht
    · exact stopCopy_memoryOk ht
  · split <;> have ht := prefetch_memoryOk_of_eq h ‹_›
    · exact hfin ht
    · exact stopCopy_memoryOk ht
  · split <;> have ht := unitCells_memoryOk_of_eq h ‹_›
    next l a t _ =>
      have hv : ∀ k, MemoryOk (if (m0 :: ms).length < 2 then t else { t with fresh := k }) := by
        intro k
        split <;> exact ht
      split
      · split <;> have hw := writeFar_memoryOk_of_eq (hv _) ‹_›
        · exact hfin hw
        · exact stopCopy_memoryOk hw
      · exact hfin (nearWrite_memoryOk (hv _))
    · exact stopCopy_memoryOk ht

theorem copyRest_memoryOk {id n s} (h : MemoryOk s) : MemoryOk (copyRest id n s) := by
  induction n generalizing s with
  | zero => exact h
  | succ n ih =>
    unfold copyRest
    split
    · exact h
    split
    · exact h
    dsimp only
    split
    · exact copyUnit_memoryOk h
    · split
      · exact copyUnit_memoryOk h
      · exact ih (copyUnit_memoryOk h)

theorem finishCopy_memoryOk {id s} (h : MemoryOk s) : MemoryOk (finishCopy id s) := by
  unfold finishCopy
  grind [endCopy_memoryOk, endSlots_memoryOk, homeWrite_memoryOk]

theorem execCopyComplete_memoryOk {copy unit s} (h : MemoryOk s) : NextOk (execCopyComplete copy unit s) := by
  unfold execCopyComplete
  grind [copyRest_memoryOk, copyUnit_memoryOk, finishCopy_memoryOk, nextOk_next]

theorem stageWord_memoryOk {i o f s} (h : MemoryOk s) : NextOk (stageWord i o f s) := by
  unfold stageWord
  grind [BlockOk, afterStores_memoryOk, blockWord_memoryOk, bufWord_memoryOk, finishWord_memoryOk, modBlock_memoryOk]

theorem execStageMax_memoryOk {o s} (h : MemoryOk s) : NextOk (execStageMax o s) := by
  unfold execStageMax
  grind [stageWord_memoryOk]

theorem execStageAdd_memoryOk {o s} (h : MemoryOk s) : NextOk (execStageAdd o s) := by
  unfold execStageAdd
  grind [stageWord_memoryOk]

theorem startPubl_memoryOk {b q w s} (h : MemoryOk s) : MemoryOk (fireEntry.startPubl b q w s) := by
  unfold fireEntry.startPubl
  split <;> exact h

theorem fireEntry_memoryOk {b x d e en w wp own s} (h : MemoryOk s) : MemoryOk (fireEntry b x d e en w wp own s) := by
  unfold fireEntry
  extract_lets lap s1 broken far s2
  have h1 : MemoryOk s1 := modBlock_memoryOk h fun y hy => hy
  clear_value s1
  split
  · grind [fillToken_memoryOk, startPubl_memoryOk]
  · have h2 : MemoryOk s2 := by
      unfold s2
      split
      · exact setWreg_memoryOk h1
      · exact h1
    exact acceptCopies_memoryOk h2

theorem modCopyQ_memoryOk {die core f s} (h : MemoryOk s) : MemoryOk (modCopyQ die core f s) := by
  unfold modCopyQ
  grind [modCore_memoryOk]

theorem schedPlace_memoryOk {b die core go s} (hgo : ∀ u, MemoryOk u → MemoryOk (go u)) (h : MemoryOk s) :
    MemoryOk (schedPlace b die core go s) := by
  unfold schedPlace
  grind [modCopyQ_memoryOk]

theorem execScheduleFiring_memoryOk {b s} (h : MemoryOk s) : NextOk (execScheduleFiring b s) := by
  unfold execScheduleFiring
  split
  · exact nextOk_next.mpr h
  split
  · exact nextOk_next.mpr h
  split
  · split
    · exact nextOk_next.mpr h
    extract_lets core place
    have hplace : ∀ {go}, (∀ u, MemoryOk u → MemoryOk (go u)) → MemoryOk (place go s) := by
      intro go hgo
      unfold place
      split
      · exact hgo s h
      · exact schedPlace_memoryOk hgo h
    clear_value place
    split
    · split
      · exact nextOk_next.mpr (hplace fun u hu => fireEntry_memoryOk hu)
      · exact nextOk_next.mpr (modCopyQ_memoryOk h)
    · exact nextOk_next.mpr (hplace fun u hu => fireEntry_memoryOk hu)
  · exact nextOk_next.mpr h

theorem execCopyQueueAccept_memoryOk {die core s} (h : MemoryOk s) : NextOk (execCopyQueueAccept die core s) := by
  unfold execCopyQueueAccept
  grind [execScheduleFiring_memoryOk, grantFirst_memoryOk, nextOk_next]

/-! ### The matrix engine -/

theorem modTile_memoryOk {s b half k f} (h : MemoryOk s) : MemoryOk (State.modTile s b half k f) := by
  unfold State.modTile
  grind [BlockOk, modBlock_memoryOk]

theorem tileWord_memoryOk {i o names bad act s} (hact : ∀ b m u, MemoryOk u → MemoryOk (act b m u)) (h : MemoryOk s) :
    NextOk (tileWord i o names bad act s) := by
  unfold tileWord
  refine runWord_memoryOk (fun b m u hu => ?_) h
  grind [finishWord_memoryOk, trapWord_memoryOk]

theorem queueTile_memoryOk {b tile kind s} (h : MemoryOk s) : MemoryOk (queueTile b tile kind s) := by
  unfold queueTile
  grind [blockWord_memoryOk, finishWord_memoryOk, memoryOk_iff]

theorem signAct_memoryOk {o keep b m s} (h : MemoryOk s) : MemoryOk (signAct o keep b m s) := by
  unfold signAct
  grind [blockWord_memoryOk, checkSign_memoryOk, dropLanes_memoryOk, finishWord_memoryOk, mapLanes_memoryOk, modWarp_memoryOk,
    trapLanes_memoryOk, trapThen_memoryOk, trapWord_memoryOk, waitLanes_memoryOk]

theorem execMma_memoryOk {o s} (h : MemoryOk s) : NextOk (execMma o s) := by
  unfold execMma
  grind [signAct_memoryOk, tileWord_memoryOk]

theorem execMmaKeep_memoryOk {o s} (h : MemoryOk s) : NextOk (execMmaKeep o s) := by
  unfold execMmaKeep
  grind [signAct_memoryOk, tileWord_memoryOk]

theorem endTile_memoryOk {id s} (h : MemoryOk s) : MemoryOk (endTile id s) := by
  unfold endTile
  grind [acceptRounds_memoryOk, memoryOk_iff, reapWarp_memoryOk]

theorem diverge_memoryOk {w m x r s} (h : MemoryOk s) : MemoryOk (diverge w m x r s) := by
  unfold diverge
  grind [closeRound_memoryOk, enterTrap_memoryOk, foldl_memoryOk]

theorem execMmaFire_memoryOk {top s} (h : MemoryOk s) : NextOk (execMmaFire top s) := by
  unfold execMmaFire
  grind [closeRound_memoryOk, diverge_memoryOk, endSlots_memoryOk, endTile_memoryOk, modTile_memoryOk, modWarp_memoryOk,
    nextOk_next, reserveSlots_memoryOk]

theorem execMclr_memoryOk {o s} (h : MemoryOk s) : NextOk (execMclr o s) := by
  unfold execMclr
  grind [queueTile_memoryOk, tileWord_memoryOk]

theorem execMldt_memoryOk {o s} (h : MemoryOk s) : NextOk (execMldt o s) := by
  unfold execMldt
  grind [queueTile_memoryOk, tileWord_memoryOk, trapWord_memoryOk, withLeader_memoryOk]

theorem laneTile_memoryOk {i o limit uses rs kind dst s} (h : MemoryOk s) : NextOk (laneTile i o limit uses rs kind dst s) := by
  unfold laneTile
  grind [blockWord_memoryOk, finishWord_memoryOk, mapLanes_memoryOk, queueTile_memoryOk, tileWord_memoryOk, trapLanes_memoryOk]

theorem execMmovr_memoryOk {o s} (h : MemoryOk s) : NextOk (execMmovr o s) := by
  unfold execMmovr
  grind [laneTile_memoryOk]

theorem execMmovw_memoryOk {o s} (h : MemoryOk s) : NextOk (execMmovw o s) := by
  unfold execMmovw
  grind [laneTile_memoryOk]

theorem execMqry_memoryOk {o s} (h : MemoryOk s) : NextOk (execMqry o s) := by
  unfold execMqry
  grind [laneTile_memoryOk]

theorem landTile_memoryOk {w dst vs s} (h : MemoryOk s) : MemoryOk (landTile w dst vs s) := by
  unfold landTile
  grind [modWarp_memoryOk]

theorem performTile_memoryOk {t s} (h : MemoryOk s) : MemoryOk (performTile t s) := by
  unfold performTile
  grind [landTile_memoryOk, modTile_memoryOk]

/-! ### The drain -/

theorem execMdrain_memoryOk {o s} (h : MemoryOk s) : NextOk (execMdrain o s) := by
  unfold execMdrain
  grind [queueTile_memoryOk, tileWord_memoryOk, trapWord_memoryOk, withLeader_memoryOk]

theorem updateWord_memoryOk {i o upd s} (h : MemoryOk s) : NextOk (updateWord i o upd s) := by
  unfold updateWord
  grind [queueTile_memoryOk, tileWord_memoryOk, trapWord_memoryOk, withLeader_memoryOk]

theorem execMdrainAdd_memoryOk {o s} (h : MemoryOk s) : NextOk (execMdrainAdd o s) := by
  unfold execMdrainAdd
  grind [updateWord_memoryOk]

theorem execMdrainUpd_memoryOk {o s} (h : MemoryOk s) : NextOk (execMdrainUpd o s) := by
  unfold execMdrainUpd
  grind [updateWord_memoryOk]

theorem rmwUnit_memoryOk {ctx die upd lr step ws s} (h : MemoryOk s) : MemoryOk (rmwUnit ctx die upd lr step ws s).2 := by
  induction ws generalizing s with
  | nil => exact h
  | cons w ws ih =>
    unfold rmwUnit
    split <;> have ht := mainRmw_memoryOk_of_eq h ‹_›
    · exact ih ht
    all_goals exact ht

theorem rmwWhole_memoryOk {ctx die upd lr step ws s} (h : MemoryOk s) : MemoryOk (rmwWhole ctx die upd lr step ws s).2 := by
  unfold rmwWhole
  grind [rmwUnit_memoryOk]

theorem updateUnit_memoryOk {id u s} (h : MemoryOk s) : MemoryOk (updateUnit id u s) := by
  unfold updateUnit
  grind [dropAnswersOf_memoryOk, homeWrite_memoryOk, logViolation_memoryOk, memoryOk_iff, orFpstat_memoryOk, remoteEnd_memoryOk,
    rmwWhole_memoryOk, writeAccess_memoryOk]

theorem execPortOperation_memoryOk {op unit s} (h : MemoryOk s) : NextOk (execPortOperation op unit s) := by
  unfold execPortOperation
  grind [nextOk_next, portOp_memoryOk, tryEdge_memoryOk, updateUnit_memoryOk]

theorem execTileUpdatePerform_memoryOk {top s} (h : MemoryOk s) : NextOk (execTileUpdatePerform top s) := by
  unfold execTileUpdatePerform
  grind [endTile_memoryOk, nextOk_next]

theorem execQdual_memoryOk {o s} (h : MemoryOk s) : NextOk (execQdual o s) := by
  unfold execQdual
  grind [queueTile_memoryOk, tileWord_memoryOk, trapWord_memoryOk, withLeader_memoryOk]

theorem execRqnt_memoryOk {o s} (h : MemoryOk s) : NextOk (execRqnt o s) := by
  unfold execRqnt
  grind [queueTile_memoryOk, tileWord_memoryOk, trapWord_memoryOk, withLeader_memoryOk]

theorem drainWrite_memoryOk {t id q n o start els rec_ s} (h : MemoryOk s) : MemoryOk (drainWrite t id q n o start els rec_ s) := by
  unfold drainWrite
  grind [nearWrite_memoryOk]

theorem execTileOperationPerform_memoryOk {top s} (h : MemoryOk s) : NextOk (execTileOperationPerform top s) := by
  unfold execTileOperationPerform
  grind [bump_memoryOk, drainWrite_memoryOk, endSlots_memoryOk, endTile_memoryOk, memoryOk_iff, nextOk_next, performTile_memoryOk,
    reserveSlots_memoryOk]

/-! ### Masks, barriers and the tree -/

theorem execMjoin_memoryOk {o s} (h : MemoryOk s) : NextOk (execMjoin o s) := by
  unfold execMjoin
  grind [finishWord_memoryOk, runWord_memoryOk, writeMask_memoryOk]

theorem execMleave_memoryOk {o s} (h : MemoryOk s) : NextOk (execMleave o s) := by
  unfold execMleave
  grind [finishWord_memoryOk, runWord_memoryOk, writeMask_memoryOk]

theorem arriveMask_memoryOk {w k m s} (h : MemoryOk s) : MemoryOk (arriveMask w k m s) := by
  unfold arriveMask
  grind [checkMask_memoryOk, mapLanes_memoryOk, modWarp_memoryOk]

theorem execMset_memoryOk {o s} (h : MemoryOk s) : NextOk (execMset o s) := by
  unfold execMset
  grind [finishWord_memoryOk, runWord_memoryOk, withLeader_memoryOk, writeMask_memoryOk]

theorem execMget_memoryOk {o s} (h : MemoryOk s) : NextOk (execMget o s) := by
  unfold execMget
  grind [laneWord_memoryOk]

theorem arriveBar_memoryOk {blk w k m s} (h : MemoryOk s) : MemoryOk (arriveBar blk w k m s) := by
  unfold arriveBar
  grind [BlockOk, checkBar_memoryOk, modBlock_memoryOk]

theorem arriveBarWait_memoryOk {blk w k m s} (h : MemoryOk s) : MemoryOk (arriveBarWait blk w k m s) := by
  unfold arriveBarWait
  grind [arriveBar_memoryOk, mapLanes_memoryOk]

theorem barWord_memoryOk {i ss bad act s} (hact : ∀ b m u, MemoryOk u → MemoryOk (act b m u)) (h : MemoryOk s) :
    NextOk (barWord i ss bad act s) := by
  unfold barWord
  refine runWord_memoryOk (fun b m u hu => withOperands_memoryOk (fun b m v hv => trapThen_memoryOk (fun m w hw => ?_) hv) hu) h
  grind [finishWord_memoryOk, abortRegion_memoryOk, trapWord_memoryOk]

theorem startArrival_memoryOk {b m k now s} (hnow : ∀ m u, MemoryOk u → MemoryOk (now m u)) (h : MemoryOk s) :
    MemoryOk (startArrival b m k now s) := by
  unfold startArrival
  extract_lets late soon s1 s2
  have h1 : MemoryOk s1 := foldl_memoryOk h fun u l hu => waitLanes_memoryOk hu
  have h2 : MemoryOk s2 := finishWord_memoryOk (waitLanes_memoryOk h1)
  split
  · exact h2
  · exact hnow _ _ h2

theorem afterOwnStores_memoryOk {act b m s} (hact : ∀ b m u, MemoryOk u → MemoryOk (act b m u)) (h : MemoryOk s) :
    MemoryOk (afterOwnStores act b m s) := by
  unfold afterOwnStores
  grind [blockWord_memoryOk, modIss_memoryOk]

theorem execMwait_memoryOk {o s} (h : MemoryOk s) : NextOk (execMwait o s) := by
  unfold execMwait
  grind [arriveMask_memoryOk, finishWord_memoryOk, runWord_memoryOk, startArrival_memoryOk]

theorem execBarb_memoryOk {o s} (h : MemoryOk s) : NextOk (execBarb o s) := by
  unfold execBarb
  grind [arriveBarWait_memoryOk, barWord_memoryOk, blockWord_memoryOk, startArrival_memoryOk]

theorem execBara_memoryOk {o s} (h : MemoryOk s) : NextOk (execBara o s) := by
  unfold execBara
  grind [afterOwnStores_memoryOk, arriveBar_memoryOk, barWord_memoryOk, blockWord_memoryOk, finishWord_memoryOk, mapLanes_memoryOk,
    withOperands_memoryOk]

theorem waitTokens_memoryOk {b m r count k s} (h : MemoryOk s) : MemoryOk (waitTokens b m r count k s) := by
  unfold waitTokens
  grind [dropLanes_memoryOk, finishWord_memoryOk, mapLanes_memoryOk]

theorem execBarw_memoryOk {o s} (h : MemoryOk s) : NextOk (execBarw o s) := by
  unfold execBarw
  grind [barWord_memoryOk, waitTokens_memoryOk]

theorem arriveDie_memoryOk {w m pub s} (h : MemoryOk s) : MemoryOk (arriveDie w m pub s) := by
  unfold arriveDie
  grind [ShareOk, checkDieBar_memoryOk, mapLanes_memoryOk, modShare_memoryOk, publish_memoryOk]

theorem execBard_memoryOk {o s} (h : MemoryOk s) : NextOk (execBard o s) := by
  unfold execBard
  grind [arriveDie_memoryOk, barWord_memoryOk, startArrival_memoryOk]

theorem stepArrival_memoryOk {id a s} (h : MemoryOk s) : MemoryOk (stepArrival id a s) := by
  unfold stepArrival
  grind [arriveBarWait_memoryOk, arriveDie_memoryOk, arriveMask_memoryOk, memoryOk_iff]

theorem oweCores_memoryOk {ch die s} (h : MemoryOk s) : MemoryOk (oweCores ch die s) := by
  unfold oweCores
  grind [foldl_memoryOk, modCore_memoryOk]

theorem sendRelease_memoryOk {ch root die ctx s} (h : MemoryOk s) : MemoryOk (sendRelease ch root die ctx s) := by
  unfold sendRelease
  grind [oweCores_memoryOk, remoteEnd_memoryOk, ride_memoryOk]

theorem completeTree_memoryOk {ch s} (h : MemoryOk s) : MemoryOk (completeTree ch s) := by
  unfold completeTree
  grind [DieOk, ModuleOk, foldl_memoryOk, modDie_memoryOk, modMod_memoryOk, sendRelease_memoryOk]

theorem reportTree_memoryOk {ch root ctx die s} (h : MemoryOk s) : MemoryOk (reportTree ch root ctx die s).2 := by
  unfold reportTree
  grind [remoteEnd_memoryOk, ride_memoryOk]

theorem checkTree_memoryOk {ch s} (h : MemoryOk s) : MemoryOk (checkTree ch s) := by
  unfold checkTree
  extract_lets v
  split
  · have hfold : ∀ (ds : List Nat) (r : Bool × State), MemoryOk r.2 → MemoryOk (ds.foldl (fun r d =>
        let (ok, s) := reportTree ch (rootDie v) (v.extractLsb' 33 8).toNat d r.2
        (r.1 && ok, s)) r).2 := by
      intro ds
      induction ds with
      | nil => exact fun r hr => hr
      | cons d ds ih => exact fun r hr => ih _ (reportTree_memoryOk hr)
    have hall := hfold ((List.range 64).filter (inSegment v)) (true, s) h
    split
    next all t ht =>
      have ht := snd_memoryOk hall ht
      split
      · exact completeTree_memoryOk ht
      · exact ht
  · exact h

theorem landTree_memoryOk {id t s} (h : MemoryOk s) : MemoryOk (landTree id t s) := by
  unfold landTree
  grind [ModuleOk, checkTree_memoryOk, modMod_memoryOk, oweCores_memoryOk]

theorem execTreea_memoryOk {o s} (h : MemoryOk s) : NextOk (execTreea o s) := by
  unfold execTreea
  grind [barWord_memoryOk, checkTree_memoryOk, finishWord_memoryOk, mapLanes_memoryOk, modCore_memoryOk, withOperands_memoryOk]

theorem execTreew_memoryOk {o s} (h : MemoryOk s) : NextOk (execTreew o s) := by
  unfold execTreew
  grind [barWord_memoryOk, waitTokens_memoryOk]

theorem execTreeRelease_memoryOk {ch die core s} (h : MemoryOk s) : NextOk (execTreeRelease ch die core s) := by
  unfold execTreeRelease
  grind [foldl_memoryOk, modCore_memoryOk, nextOk_next, releaseWhere_memoryOk, setCore_memoryOk]

theorem writeTreeCfg_memoryOk {ch v s} (h : MemoryOk s) : MemoryOk (writeTreeCfg ch v s) := by
  unfold writeTreeCfg
  grind [DieOk, ModuleOk, completeTree_memoryOk, foldl_memoryOk, modDie_memoryOk, modMod_memoryOk]

theorem execTreeCfgWrite_memoryOk {ch val s} (h : MemoryOk s) : NextOk (execTreeCfgWrite ch val s) := by
  unfold execTreeCfgWrite
  grind [nextOk_next, writeTreeCfg_memoryOk]

theorem execAttach_memoryOk {o s} (h : MemoryOk s) : NextOk (execAttach o s) := by
  unfold execAttach
  grind [checkAttach_memoryOk, finishWord_memoryOk, runWord_memoryOk, waitLanes_memoryOk, withOperands_memoryOk]

theorem execDetach_memoryOk {o s} (h : MemoryOk s) : NextOk (execDetach o s) := by
  unfold execDetach
  grind [finishWord_memoryOk, leaveLanes_memoryOk, mapLanes_memoryOk, modWarp_memoryOk, runWord_memoryOk, withOperands_memoryOk]

theorem execYieldStanding_memoryOk {o s} (h : MemoryOk s) : NextOk (execYieldStanding o s) := by
  unfold execYieldStanding
  grind [finishWord_memoryOk, modIss_memoryOk, runWord_memoryOk]

theorem sleepLanes_memoryOk {b m t s} (h : MemoryOk s) : MemoryOk (sleepLanes b m t s) := by
  unfold sleepLanes
  grind [dropLanes_memoryOk, finishWord_memoryOk, mapLanes_memoryOk]

theorem execSleep_memoryOk {o s} (h : MemoryOk s) : NextOk (execSleep o s) := by
  unfold execSleep
  grind [abortRegion_memoryOk, finishWord_memoryOk, runWord_memoryOk, sleepLanes_memoryOk]

theorem execSleepUntil_memoryOk {o s} (h : MemoryOk s) : NextOk (execSleepUntil o s) := by
  unfold execSleepUntil
  grind [abortRegion_memoryOk, finishWord_memoryOk, runWord_memoryOk, sleepLanes_memoryOk, withOperands_memoryOk]

theorem execSleepRelease_memoryOk {w s} (h : MemoryOk s) : NextOk (execSleepRelease w s) := by
  unfold execSleepRelease
  grind [nextOk_next, releaseWhere_memoryOk]

theorem execEnq_memoryOk {o s} (h : MemoryOk s) : NextOk (execEnq o s) := by
  unfold execEnq
  grind [abortRegion_memoryOk, blockWord_memoryOk, finishWord_memoryOk, runWord_memoryOk, startAct_memoryOk, withOperands_memoryOk]

theorem logDispatch_memoryOk {c addr kind die s} (h : MemoryOk s) : MemoryOk (logDispatch c addr kind die s) := by
  unfold logDispatch
  grind [logViolation_memoryOk]

theorem answerAct_memoryOk {id a r v s} (h : MemoryOk s) : MemoryOk (answerAct id a r v s) := by
  unfold answerAct
  grind [endAct_memoryOk, mapLanes_memoryOk]

theorem askHost_memoryOk {ctx run node die s} (h : MemoryOk s) : MemoryOk (askHost ctx run node die s) := by
  unfold askHost
  grind [ModuleOk, bump_memoryOk, modMod_memoryOk]

theorem dropHostReq_memoryOk {id s} (h : MemoryOk s) : MemoryOk (dropHostReq id s) := by
  unfold dropHostReq
  grind [ModuleOk, modMod_memoryOk]

theorem enqAt_memoryOk {id x addr queue s} (h : MemoryOk s) : MemoryOk (enqAt id x addr queue s).2 := by
  unfold enqAt
  extract_lets q base push why lost
  have hpush : ∀ {u}, MemoryOk u → MemoryOk (push u).2 := fun hu => settleQueue_memoryOk (modQueue_memoryOk hu)
  have hlost : ∀ {u}, MemoryOk u → MemoryOk (lost u).2 := fun hu => disableQueue_memoryOk (logDispatch_memoryOk hu)
  clear_value push lost
  split
  · exact h
  split
  · exact h
  split
  · exact h
  split
  · exact h
  split
  · rcases ringReq s id with _ | ⟨k, r⟩
    · exact askHost_memoryOk h
    · dsimp only
      split
      · exact hlost (dropHostReq_memoryOk h)
      · exact hpush (modMod_memoryOk (dropHostReq_memoryOk h) moduleOk_msetAll)
  · have hw : MemoryOk (alone (.engine id) (writeAccess (.engine id) x.ctx 0 base 0 8
        (fun s => mainWrite s x.ctx 0 base (leBytes 8 addr) none) s)).2 :=
      alone_memoryOk (writeAccess_memoryOk (fun _ hu => mainWrite_memoryOk hu) h)
    split <;> have ht := snd_memoryOk hw ‹_›
    · exact hpush ht
    · exact hlost ht
    · exact hlost ht
    all_goals exact ht

theorem stepEnq_memoryOk {id a addr queue v s} (h : MemoryOk s) : MemoryOk (stepEnq id a addr queue v s) := by
  unfold stepEnq
  split
  · exact dropMessage_memoryOk h
  next x _ =>
    split
    · exact h
    split <;> have ht := overMesh_memoryOk_of_eq (fun u hu => hu) (fun u hu => enqAt_memoryOk hu) h ‹_›
    · exact answerAct_memoryOk (dropMessage_memoryOk ht)
    · exact remoteEnd_memoryOk ht
    · exact ht

/-! ### Contexts and queues -/

theorem settleCtx_memoryOk {c s} (h : MemoryOk s) : MemoryOk (settleCtx c s) := by
  unfold settleCtx
  grind [modCtx_memoryOk]

theorem bindContext_memoryOk {c s} (h : MemoryOk s) : MemoryOk (bindContext c s) := by
  unfold bindContext
  grind [DieOk, foldl_memoryOk, modDie_memoryOk, setCtx_memoryOk]

theorem freeContext_memoryOk {c why s} (h : MemoryOk s) : MemoryOk (freeContext c why s) := by
  unfold freeContext
  grind [DieOk, disableQueue_memoryOk, foldl_memoryOk, memoryOk_iff, setCtx_memoryOk, tableOk_tmap]

theorem execContextBind_memoryOk {ctx s} (h : MemoryOk s) : NextOk (execContextBind ctx s) := by
  unfold execContextBind
  grind [bindContext_memoryOk, nextOk_next]

theorem execContextFree_memoryOk {ctx s} (h : MemoryOk s) : NextOk (execContextFree ctx s) := by
  unfold execContextFree
  grind [freeContext_memoryOk, nextOk_next]

theorem resettle_memoryOk {q s} (h : MemoryOk s) : MemoryOk (resettle q s) := by
  unfold resettle
  grind [leaveRound_memoryOk, setQueue_memoryOk, settleQueue_memoryOk]

theorem writeQctl_memoryOk {q v why s} (h : MemoryOk s) : MemoryOk (writeQctl q v why s) := by
  unfold writeQctl
  grind [disableQueue_memoryOk, resettle_memoryOk, setQueue_memoryOk]

theorem writeQbase_memoryOk {q v s} (h : MemoryOk s) : MemoryOk (writeQbase q v s) := by
  unfold writeQbase
  grind [modQueue_memoryOk]

theorem doorbell_memoryOk {q wp why s} (h : MemoryOk s) : MemoryOk (doorbell q wp why s) := by
  unfold doorbell
  grind [disableQueue_memoryOk, setQueue_memoryOk, settleQueue_memoryOk]

theorem hostQueue_memoryOk {q f s} (hf : ∀ u, MemoryOk u → MemoryOk (f u)) (h : MemoryOk s) : NextOk (hostQueue q f s) := by
  unfold hostQueue
  grind [nextOk_next]

theorem execQueueDoorbell_memoryOk {q wp s} (h : MemoryOk s) : NextOk (execQueueDoorbell q wp s) := by
  unfold execQueueDoorbell
  grind [doorbell_memoryOk, hostQueue_memoryOk]

theorem execQueueEnable_memoryOk {q ctl s} (h : MemoryOk s) : NextOk (execQueueEnable q ctl s) := by
  unfold execQueueEnable
  grind [hostQueue_memoryOk, writeQctl_memoryOk]

theorem execQueueDisable_memoryOk {q s} (h : MemoryOk s) : NextOk (execQueueDisable q s) := by
  unfold execQueueDisable
  grind [disableQueue_memoryOk, hostQueue_memoryOk]

theorem execQueueSuspend_memoryOk {q s} (h : MemoryOk s) : NextOk (execQueueSuspend q s) := by
  unfold execQueueSuspend
  grind [hostQueue_memoryOk, writeQctl_memoryOk]

theorem execQueueResume_memoryOk {q s} (h : MemoryOk s) : NextOk (execQueueResume q s) := by
  unfold execQueueResume
  grind [hostQueue_memoryOk, writeQctl_memoryOk]

theorem execQueueLevelRaise_memoryOk {q s} (h : MemoryOk s) : NextOk (execQueueLevelRaise q s) := by
  unfold execQueueLevelRaise
  grind [nextOk_next, setQueue_memoryOk]

theorem readUnits_memoryOk {hd ctx die z as s} (h : MemoryOk s) : MemoryOk (readUnits hd ctx die z as s).2.2 := by
  induction as generalizing s with
  | nil => exact h
  | cons a as ih =>
    unfold readUnits
    split <;> have ht := readAccess_memoryOk_of_eq (fun u hu => mainRead_memoryOk hu) h ‹_›
    · have hrest := ih ht
      split
      next cs x hx => exact snd2_memoryOk hrest hx
      next => exact hrest
    · exact ht

theorem readUnits_memoryOk_of_eq {hd ctx die z as s a b t} (h : MemoryOk s) (ht : readUnits hd ctx die z as s = (a, b, t)) :
    MemoryOk t := by
  have hs : MemoryOk (readUnits hd ctx die z as s).2.2 := readUnits_memoryOk h
  rw [ht] at hs
  exact hs

theorem aloneUnits_memoryOk {hd r} (h : MemoryOk r.2.2) : MemoryOk (aloneUnits hd r).2.2 := by
  unfold aloneUnits
  grind [dropAnswers_memoryOk]

theorem aloneUnits_memoryOk_of_eq {hd r a b t} (h : MemoryOk r.2.2) (ht : aloneUnits hd r = (a, b, t)) : MemoryOk t := by
  have hs : MemoryOk (aloneUnits hd r).2.2 := aloneUnits_memoryOk h
  rw [ht] at hs
  exact hs

theorem readSpan_memoryOk {h0 ctx die a n s} (h : MemoryOk s) : MemoryOk (readSpan h0 ctx die a n s).2.2 := by
  unfold readSpan
  grind [readUnits_memoryOk, readUnits_memoryOk_of_eq]

theorem readSpan_memoryOk_of_eq {h0 ctx die a n s a1 b t} (h : MemoryOk s) (ht : readSpan h0 ctx die a n s = (a1, b, t))
    : MemoryOk t := by
  have hs : MemoryOk (readSpan h0 ctx die a n s).2.2 := readSpan_memoryOk h
  rw [ht] at hs
  exact hs

theorem newShares_shareOk {k x order now y} (hy : y ∈ newShares k x order now) : ShareOk y := by
  unfold newShares at hy
  obtain ⟨d, -, rfl⟩ := List.mem_map.mp hy
  rfl

theorem dispatchKernel_memoryOk {k s} (h : MemoryOk s) : MemoryOk (dispatchKernel k s) := by
  unfold dispatchKernel
  split
  · exact h
  next x _ =>
    split
    · extract_lets s1 s2
      have h1 : MemoryOk s1 := setKernel_memoryOk h
      have h2 : MemoryOk s2 := by
        refine foldl_memoryOk_mem h1 fun u y hy hu => ?_
        have hy : ShareOk y.2 := newShares_shareOk (List.of_mem_zip hy).2
        obtain ⟨hdies, hmod, hblocks, hshares⟩ := memoryOk_iff.mp hu
        exact memoryOk_iff.mpr ⟨hdies, hmod, hblocks, tableOk_tput hshares hy⟩
      exact settleQueue_memoryOk (settleCtx_memoryOk h2)
    · exact h

theorem fixRecord_memoryOk {k s} (h : MemoryOk s) : MemoryOk (fixRecord k s) := by
  unfold fixRecord
  grind [aloneUnits_memoryOk, failKernel_memoryOk, logDispatch_memoryOk, readUnits_memoryOk, remoteEnd_memoryOk, setKernel_memoryOk,
    settleQueue_memoryOk]

theorem keepTurn_memoryOk {lvl t s} (h : MemoryOk s) : MemoryOk (keepTurn lvl t s) := by
  unfold keepTurn
  grind [ModuleOk, modMod_memoryOk]

theorem takeEntry_memoryOk {q lvl t entry s} (h : MemoryOk s) : MemoryOk (takeEntry q lvl t entry s) := by
  unfold takeEntry
  grind [DieOk, appendRecord_memoryOk, fixRecord_memoryOk, keepTurn_memoryOk, memoryOk_iff, modDie_memoryOk, setQueue_memoryOk,
    settleQueue_memoryOk]

theorem ringFails_memoryOk {q a s} (h : MemoryOk s) : MemoryOk (ringFails q a s) := by
  unfold ringFails
  grind [disableQueue_memoryOk, logDispatch_memoryOk]

theorem execQueueEntryTake_memoryOk {q s} (h : MemoryOk s) : NextOk (execQueueEntryTake q s) := by
  unfold execQueueEntryTake
  grind [alone_memoryOk, askHost_memoryOk, dropHostReq_memoryOk, fixRecord_memoryOk, keepTurn_memoryOk, mainRead_memoryOk,
    nextOk_next, readAccess_memoryOk, remoteEnd_memoryOk, ringFails_memoryOk, takeEntry_memoryOk]

theorem checkDeps_memoryOk {k ctx ds s} (h : MemoryOk s) : MemoryOk (checkDeps k ctx ds s) := by
  induction ds generalizing s with
  | nil => exact h
  | cons d ds ih =>
    unfold checkDeps
    split <;> have ht := readAccess_memoryOk_of_eq (fun u hu => mainRead_memoryOk hu) h ‹_›
    · dsimp only
      split
      · exact ih (modKernel_memoryOk (dropAnswersOf_memoryOk ht))
      · exact ih (dropAnswersOf_memoryOk ht)
    · exact remoteEnd_memoryOk ht
    · split
      · exact ih ht
      · exact failKernel_memoryOk (logDispatch_memoryOk (forgetHolder_memoryOk ht))

theorem checkKernel_memoryOk {k s} (h : MemoryOk s) : MemoryOk (checkKernel k s) := by
  unfold checkKernel
  grind [checkDeps_memoryOk, dispatchKernel_memoryOk, settleQueue_memoryOk]

theorem checkAll_memoryOk {ks s} (h : MemoryOk s) : MemoryOk (checkAll ks s) := by
  unfold checkAll
  grind [checkKernel_memoryOk, foldl_memoryOk]

theorem execDependenceCheck_memoryOk {k s} (h : MemoryOk s) : NextOk (execDependenceCheck k s) := by
  unfold execDependenceCheck
  grind [checkAll_memoryOk, nextOk_next]

/-! ### The dispatcher of a die -/

theorem readEntries_memoryOk {hd ctx die as s} (h : MemoryOk s) : MemoryOk (readEntries hd ctx die as s).2 := by
  induction as generalizing s with
  | nil => exact h
  | cons a as ih =>
    unfold readEntries
    extract_lets next
    have hnext : ∀ {e u}, MemoryOk u → MemoryOk (next e u).2 := by
      intro e u hu
      have hrest := ih hu
      unfold next
      split
      next es bad v hv => exact snd_memoryOk hrest hv
      next => exact hrest
    clear_value next
    split <;> have ht := readSpan_memoryOk_of_eq h ‹_›
    · exact hnext ht
    · exact ht
    · split
      · exact ht
      · exact hnext ht

theorem readSched_memoryOk {h0 ctx die addr s} (h : MemoryOk s) : MemoryOk (readSched h0 ctx die addr s).2 := by
  unfold readSched
  grind [readEntries_memoryOk, readSpan_memoryOk]

theorem readSched_memoryOk_of_eq {h0 ctx die addr s a t} (h : MemoryOk s) (ht : readSched h0 ctx die addr s = (a, t))
    : MemoryOk t :=
  snd_memoryOk (readSched_memoryOk h) ht

theorem readScheds_memoryOk {share ctx die addr i n s} (h : MemoryOk s) : MemoryOk (readScheds share ctx die addr i n s).2 := by
  induction n generalizing i s with
  | zero => exact h
  | succ n ih =>
    unfold readScheds
    split <;> have ht := readSched_memoryOk_of_eq h ‹_›
    · have hrest := ih (i := i + 1) ht
      split <;> have hu := snd_memoryOk hrest ‹_›
      · exact foldl_memoryOk hu fun v a hv => logDispatch_memoryOk hv
      · exact hu
    · exact remoteEnd_memoryOk ht
    · exact ht

theorem readScheds_memoryOk_of_eq {share ctx die addr i n s a t} (h : MemoryOk s)
    (ht : readScheds share ctx die addr i n s = (a, t)) : MemoryOk t := snd_memoryOk (readScheds_memoryOk h) ht

theorem dropScheds_memoryOk {share s} (h : MemoryOk s) : MemoryOk (dropScheds share s) := by
  unfold dropScheds
  grind [ModuleOk, modMod_memoryOk]

theorem newBlock_blockOk {y share core seq l home ws sched stk} (h : Memory.wf home = true) :
    BlockOk (newBlock y share core seq l home ws sched stk) := ⟨rfl, h⟩

theorem placeBlock_memoryOk {exact share core sched s t} (h : MemoryOk s) (ht : placeBlock exact share core sched s = some t) :
    MemoryOk t := by
  unfold placeBlock at ht
  split at ht
  · exact absurd ht (by simp)
  next y hy =>
    have hy := share_shareOk h hy
    split at ht
    · exact absurd ht (by simp)
    next k _ =>
      extract_lets l is now b at ht
      split at ht
      · split at ht
        · extract_lets names s1 s2 s3 s4 s5 at ht
          have h1 : MemoryOk s1 := h
          have h2 : MemoryOk s2 := setBlock_memoryOk h1 (newBlock_blockOk hy)
          have h3 : MemoryOk s3 := foldl_memoryOk h2 fun u x hu => seedWarp_memoryOk (setWarp_memoryOk hu)
          have h4 : MemoryOk s4 := setShare_memoryOk h3 hy
          have h5 : MemoryOk s5 := by
            unfold s5
            split
            · exact setKernel_memoryOk h4
            · exact h4
          obtain rfl := Option.some.inj ht
          exact settleCtx_memoryOk h5
        · exact absurd ht (by simp)
      · exact absurd ht (by simp)

theorem placeAll_memoryOk {exact share ds s t} (h : MemoryOk s) (ht : placeAll exact share ds s = some t) : MemoryOk t := by
  induction ds generalizing s with
  | nil =>
    obtain rfl := Option.some.inj ht
    exact h
  | cons d ds ih =>
    unfold placeAll at ht
    split at ht
    · exact absurd ht (by simp)
    split at ht
    · exact absurd ht (by simp)
    obtain ⟨u, hu, hut⟩ := Option.bind_eq_some_iff.mp ht
    exact ih (placeBlock_memoryOk h hu) hut

theorem execBlockPlacement_memoryOk {share core s} (h : MemoryOk s) : NextOk (execBlockPlacement share core s) := by
  unfold execBlockPlacement
  split
  · exact nextOk_next.mpr h
  split
  · exact nextOk_next.mpr h
  split
  · split <;> have ht := readScheds_memoryOk_of_eq h ‹_›
    · exact nextOk_next.mpr ht
    · refine nextOk_next.mpr (getD_memoryOk h fun v hv => ?_)
      obtain ⟨w, hw, rfl⟩ := Option.map_eq_some_iff.mp hv
      split at hw
      · exact dropScheds_memoryOk (placeAll_memoryOk ht hw)
      · exact dropScheds_memoryOk (placeBlock_memoryOk ht hw)
  · exact nextOk_next.mpr h

theorem execPlacementWaitExpiry_memoryOk {share s} (h : MemoryOk s) : NextOk (execPlacementWaitExpiry share s) := by
  unfold execPlacementWaitExpiry
  split
  · exact nextOk_next.mpr h
  next x hx =>
    have hx := share_shareOk h hx
    have hset : MemoryOk (s.setShare share { x with kept := true }) := setShare_memoryOk h hx
    split
    · split
      · exact nextOk_next.mpr hset
      · exact nextOk_next.mpr h
    · exact nextOk_next.mpr h

theorem execSpareWarpStart_memoryOk {share core slot s} (h : MemoryOk s) : NextOk (execSpareWarpStart share core slot s) := by
  unfold execSpareWarpStart
  grind [bump_memoryOk, nextOk_next, seedWarp_memoryOk, setWarp_memoryOk]

theorem execCompactorMove_memoryOk {w base s} (h : MemoryOk s) : NextOk (execCompactorMove w base s) := by
  unfold execCompactorMove
  grind [nextOk_next, setWarp_memoryOk]

theorem execShrinkRequest_memoryOk {block k s} (h : MemoryOk s) : NextOk (execShrinkRequest block k s) := by
  unfold execShrinkRequest
  split
  · exact nextOk_next.mpr h
  next b hb =>
    have hb := block_blockOk h hb
    split
    · exact nextOk_next.mpr h
    · split
      · exact nextOk_next.mpr (setBlock_memoryOk h hb)
      · exact nextOk_next.mpr h

theorem writeExits_memoryOk {block n s} (h : MemoryOk s) : MemoryOk (writeExits block n s).2 := by
  induction n generalizing s with
  | zero => exact h
  | succ n ih =>
    unfold writeExits
    split
    · exact h
    split
    · exact h
    split <;> have ht := snd_memoryOk (alone_memoryOk (writeAccess_memoryOk (fun u hu => mainWrite_memoryOk hu) h)) ‹_›
    · exact ih (modBlock_memoryOk ht fun x hx => hx)
    · exact remoteEnd_memoryOk ht
    · split
      · exact ht
      · exact logDispatch_memoryOk ht

theorem endShare_memoryOk {share s} (h : MemoryOk s) : MemoryOk (endShare share s) := by
  unfold endShare
  split
  · exact h
  next x hx =>
    have hx := share_shareOk h hx
    split
    · exact cutShare_memoryOk (setShare_memoryOk h hx)
    · exact h

theorem execBlockEnd_memoryOk {block s} (h : MemoryOk s) : NextOk (execBlockEnd block s) := by
  unfold execBlockEnd
  grind [BlockOk, endShare_memoryOk, modBlock_memoryOk, nextOk_next, publish_memoryOk, settleCtx_memoryOk, writeExits_memoryOk]

theorem addDone_memoryOk {k ctx addr s} (h : MemoryOk s) : MemoryOk (addDone k ctx addr s).2 := by
  unfold addDone
  grind [alone_memoryOk, logDispatch_memoryOk, mainRmw_memoryOk, remoteEnd_memoryOk, wordAccess_memoryOk]

theorem execKernelDone_memoryOk {k s} (h : MemoryOk s) : NextOk (execKernelDone k s) := by
  unfold execKernelDone
  grind [addDone_memoryOk, checkAll_memoryOk, memoryOk_iff, nextOk_next, setKernel_memoryOk, settleCtx_memoryOk, tableOk_tkeep]

/-! ### Saving and restoring blocks -/

theorem freezeHeld_memoryOk {b s} (h : MemoryOk s) : MemoryOk (freezeHeld b s) := by
  unfold freezeHeld
  grind [foldl_memoryOk, forgetHolder_memoryOk, memoryOk_iff]

theorem startSave_memoryOk {b s} (h : MemoryOk s) : MemoryOk (startSave b s) := by
  unfold startSave
  grind [BlockOk, freezeHeld_memoryOk, memoryOk_iff, modBlock_memoryOk]

theorem unshrink_blockOk {b : Block} (h : BlockOk b) : BlockOk b.unshrink := h

theorem expireShrink_memoryOk {block b y s} (h : MemoryOk s) (hb : BlockOk b) : MemoryOk (expireShrink block b y s) := by
  unfold expireShrink
  have hset : MemoryOk (s.setBlock block b.unshrink) := setBlock_memoryOk h (unshrink_blockOk hb)
  dsimp only
  split
  · exact startSave_memoryOk hset
  · exact hset

theorem execShrinkCancel_memoryOk {block s} (h : MemoryOk s) : NextOk (execShrinkCancel block s) := by
  unfold execShrinkCancel
  split
  · exact nextOk_next.mpr h
  next b hb =>
    have hb := block_blockOk h hb
    split
    · exact nextOk_next.mpr h
    split
    · exact nextOk_next.mpr (setBlock_memoryOk h (unshrink_blockOk hb))
    split
    · exact nextOk_next.mpr (expireShrink_memoryOk h hb)
    · exact nextOk_next.mpr h

theorem execPreemption_memoryOk {block s} (h : MemoryOk s) : NextOk (execPreemption block s) := by
  unfold execPreemption
  grind [nextOk_next, startSave_memoryOk]

theorem renameWait_memoryOk {die core a b s} (h : MemoryOk s) : MemoryOk (renameWait die core a b s) := by
  unfold renameWait
  grind [modCore_memoryOk]

theorem parkBundle_memoryOk {w p s} (h : MemoryOk s) : MemoryOk (parkBundle w p s) := by
  unfold parkBundle
  grind [memoryOk_iff, renameWait_memoryOk, setWarp_memoryOk]

theorem readyParks_memoryOk {w s} (h : MemoryOk s) : MemoryOk (readyParks w s) := by
  unfold readyParks
  grind [fillParked_memoryOk, foldl_memoryOk, memoryOk_iff]

theorem standAtTargets_memoryOk {w s} (h : MemoryOk s) : MemoryOk (standAtTargets w s) := by
  unfold standAtTargets
  grind [mapLanes_memoryOk, memoryOk_iff]

theorem settleWarp_memoryOk {w s} (h : MemoryOk s) : MemoryOk (settleWarp w s) := by
  unfold settleWarp
  grind [DieOk, abortRegion_memoryOk, modDie_memoryOk, parkBundle_memoryOk, readyParks_memoryOk, standAtTargets_memoryOk]

theorem startImage_memoryOk {b x s t} (h : MemoryOk s) (hx : BlockOk x) (ht : startImage b x s = some t) : MemoryOk t := by
  unfold startImage at ht
  split at ht
  · obtain rfl := Option.some.inj ht
    exact h
  · obtain ⟨pages, -, rfl⟩ := Option.map_eq_some_iff.mp ht
    exact bump_memoryOk (setBlock_memoryOk h hx)

theorem putImage_memoryOk {b n s} (h : MemoryOk s) : MemoryOk (putImage b n s).2 := by
  induction n generalizing s with
  | zero => exact h
  | succ n ih =>
    unfold putImage
    split
    · exact h
    split
    · exact h
    extract_lets on
    have hon : ∀ {u}, MemoryOk u → MemoryOk (on u) := fun hu => modBlock_memoryOk hu fun x hx => hx
    clear_value on
    split <;> have ht := snd_memoryOk (alone_memoryOk (writeAccess_memoryOk (fun u hu => mainWrite_memoryOk hu) h)) ‹_›
    · exact ih (hon ht)
    · exact remoteEnd_memoryOk ht
    · split
      · exact ht
      · exact ih (hon (logDispatch_memoryOk ht))

theorem putImage_memoryOk_of_eq {b x1 s a t} (h : MemoryOk s) (ht : putImage b x1 s = (a, t)) : MemoryOk t :=
  snd_memoryOk (putImage_memoryOk h) ht

theorem flushLines_memoryOk {die core b ls s} (h : MemoryOk s) : MemoryOk (flushLines die core b ls s).2 := by
  induction ls generalizing s with
  | nil => exact h
  | cons l ls ih =>
    have he : MemoryOk (evictLine die core l s).2 := evictLine_memoryOk h
    unfold flushLines
    generalize evictLine die core l s = r at he ⊢
    obtain ⟨_ | _, t⟩ := r
    · exact he
    · exact ih he

theorem flushBlock_memoryOk {b x s} (h : MemoryOk s) : MemoryOk (flushBlock b x s).2 := by
  unfold flushBlock
  refine foldl_snd_memoryOk h fun r c hr => ?_
  split
  · exact flushLines_memoryOk hr
  · exact hr

theorem flushBlock_memoryOk_of_eq {b x s a t} (h : MemoryOk s) (ht : flushBlock b x s = (a, t)) : MemoryOk t :=
  snd_memoryOk (flushBlock_memoryOk h) ht

theorem parkBlock_memoryOk {b gone s} (h : MemoryOk s) : MemoryOk (parkBlock b gone s) := by
  unfold parkBlock
  extract_lets mine
  split
  · exact h
  next x hx =>
    have hx := block_blockOk h hx
    extract_lets s1 s2 s3
    have h2 : MemoryOk s2 := setBlock_memoryOk (freezeHeld_memoryOk h) hx
    have h3 : MemoryOk s3 := foldl_memoryOk h2 fun u k hu => dropMessages_memoryOk hu
    exact foldl_memoryOk h3 fun u c hu => acceptRounds_memoryOk hu

theorem execBlockSave_memoryOk {block s} (h : MemoryOk s) : NextOk (execBlockSave block s) := by
  unfold execBlockSave
  split
  · exact nextOk_next.mpr h
  split
  · exact nextOk_next.mpr h
  extract_lets s1
  have h1 : MemoryOk s1 := foldl_memoryOk h fun u w hu => settleWarp_memoryOk hu
  clear_value s1
  split
  · exact nextOk_next.mpr h1
  next x hx =>
    have hx := block_blockOk h1 hx
    split
    · exact nextOk_next.mpr h1
    split <;> have ht := flushBlock_memoryOk_of_eq h1 ‹_›
    · exact nextOk_next.mpr ht
    split
    · exact nextOk_next.mpr (endContext_memoryOk ht)
    next u hu =>
      have hu := startImage_memoryOk ht hx hu
      split <;> have hv := putImage_memoryOk_of_eq hu ‹_›
      · exact nextOk_next.mpr hv
      · exact nextOk_next.mpr (parkBlock_memoryOk hv)

theorem wakeWarp_memoryOk {w s} (h : MemoryOk s) : MemoryOk (wakeWarp w s) := by
  unfold wakeWarp
  grind [checkRegb_memoryOk, releaseWhere_memoryOk]

theorem requeueOps_memoryOk {b s} (h : MemoryOk s) : MemoryOk (requeueOps b s) := by
  unfold requeueOps
  grind [foldl_memoryOk, modCore_memoryOk]

theorem unpark_memoryOk {b core places s} (h : MemoryOk s) : MemoryOk (unpark b core places s) := by
  unfold unpark
  split
  · exact h
  next x hx =>
    have hx := block_blockOk h hx
    extract_lets half s0 s1 s2 s3
    have h1 : MemoryOk s1 := setBlock_memoryOk h hx
    have h2 : MemoryOk s2 := requeueOps_memoryOk (refresh_memoryOk h1)
    have h3 : MemoryOk s3 := foldl_memoryOk h2 fun u w hu => wakeWarp_memoryOk hu
    exact foldl_memoryOk h3 fun u c hu => acceptRounds_memoryOk hu

theorem execBlockRestore_memoryOk {block core s} (h : MemoryOk s) : NextOk (execBlockRestore block core s) := by
  unfold execBlockRestore
  split
  · exact nextOk_next.mpr h
  extract_lets l may
  split
  · split
    · split <;> have ht := aloneUnits_memoryOk_of_eq (readUnits_memoryOk h) ‹_›
      · split
        · exact nextOk_next.mpr (unpark_memoryOk ht)
        · exact nextOk_next.mpr (endContext_memoryOk ht)
      · exact nextOk_next.mpr (remoteEnd_memoryOk ht)
      · split
        · exact nextOk_next.mpr ht
        · exact nextOk_next.mpr (endContext_memoryOk (logDispatch_memoryOk ht))
    · exact nextOk_next.mpr h
  · exact nextOk_next.mpr h

/-! ### The supervisor words and snapshots -/

theorem execCsrr_memoryOk {o s} (h : MemoryOk s) : NextOk (execCsrr o s) := by
  unfold execCsrr
  grind [blockWord_memoryOk, finishWord_memoryOk, mapLanes_memoryOk, runWord_memoryOk, trapThen_memoryOk, withOperands_memoryOk]

theorem writeDies_memoryOk {c v s} (h : MemoryOk s) : MemoryOk (writeDies c v s) := by
  unfold writeDies
  grind [modCtx_memoryOk]

theorem writeCtxState_memoryOk {c v why s} (h : MemoryOk s) : MemoryOk (writeCtxState c v why s) := by
  unfold writeCtxState
  grind [bindContext_memoryOk, freeContext_memoryOk]

theorem queueRegWrite_memoryOk {q f v why s} (h : MemoryOk s) : MemoryOk (queueRegWrite q f v why s) := by
  unfold queueRegWrite
  grind [doorbell_memoryOk, writeQbase_memoryOk, writeQctl_memoryOk]

theorem regWrite_memoryOk {die c k any v why s} (h : MemoryOk s) : MemoryOk (regWrite die c k any v why s) := by
  unfold regWrite
  grind [DieOk, ModuleOk, modCtx_memoryOk, modDie_memoryOk, modMod_memoryOk, queueRegWrite_memoryOk, writeCtxState_memoryOk,
    writeDies_memoryOk, writeTreeCfg_memoryOk]

theorem csrWrite_memoryOk {b l k v s} (h : MemoryOk s) : MemoryOk (csrWrite b l k v s) := by
  unfold csrWrite
  grind [modThread_memoryOk, modWarp_memoryOk, regWrite_memoryOk]

theorem execCsrw_memoryOk {o s} (h : MemoryOk s) : NextOk (execCsrw o s) := by
  unfold execCsrw
  grind [abortRegion_memoryOk, blockWord_memoryOk, csrWrite_memoryOk, finishWord_memoryOk, foldl_memoryOk, runWord_memoryOk,
    trapLanes_memoryOk, trapThen_memoryOk, withOperands_memoryOk]

theorem execTret_memoryOk {o s} (h : MemoryOk s) : NextOk (execTret o s) := by
  unfold execTret
  grind [abortRegion_memoryOk, dropLanes_memoryOk, dropWindow_memoryOk, finishWord_memoryOk, mapLanes_memoryOk, runWord_memoryOk,
    trapLanes_memoryOk, trapThen_memoryOk, withOperands_memoryOk]

theorem sysWord_memoryOk {i ss ds act s} (hact : ∀ b m t u, MemoryOk u → MemoryOk (act b m t u)) (h : MemoryOk s) :
    NextOk (sysWord i ss ds act s) := by
  unfold sysWord
  refine runWord_memoryOk (fun b m u hu => ?_) h
  split
  · exact finishWord_memoryOk hu
  split
  · exact finishWord_memoryOk (abortRegion_memoryOk hu)
  · refine withLeader_memoryOk (fun b m l v hv => ?_) hu
    split
    · exact hact _ _ _ _ hv
    · exact finishWord_memoryOk hv

theorem answerWord_memoryOk {b m o status s} (h : MemoryOk s) : MemoryOk (answerWord b m o status s) := by
  unfold answerWord
  grind [finishWord_memoryOk, mapLanes_memoryOk]

theorem ctxWord_memoryOk {i o nb nc act s} (hact : ∀ b m t c u, MemoryOk u → MemoryOk (act b m t c u)) (h : MemoryOk s) :
    NextOk (ctxWord i o nb nc act s) := by
  unfold ctxWord
  refine sysWord_memoryOk (fun b m t u hu => ?_) h
  grind [answerWord_memoryOk]

theorem stopUnattached_memoryOk {c stop s} (h : MemoryOk s) : MemoryOk (stopUnattached c stop s) := by
  unfold stopUnattached
  grind [memoryOk_iff]

theorem saveBlocks_memoryOk {p s} (h : MemoryOk s) : MemoryOk (saveBlocks p s) := by
  unfold saveBlocks
  grind [foldl_memoryOk, startSave_memoryOk]

theorem stepXsave_memoryOk {id a c v s} (h : MemoryOk s) : MemoryOk (stepXsave id a c v s) := by
  unfold stepXsave
  grind [answerAct_memoryOk, foldl_memoryOk, modCtx_memoryOk, saveBlocks_memoryOk, settleWarp_memoryOk]

theorem execXsave_memoryOk {o s} (h : MemoryOk s) : NextOk (execXsave o s) := by
  unfold execXsave
  grind [answerWord_memoryOk, ctxWord_memoryOk, saveBlocks_memoryOk, startAct_memoryOk, stopUnattached_memoryOk]

theorem execXload_memoryOk {o s} (h : MemoryOk s) : NextOk (execXload o s) := by
  unfold execXload
  grind [answerWord_memoryOk, ctxWord_memoryOk, modCtx_memoryOk, settleCtx_memoryOk, stopUnattached_memoryOk]

theorem dropCached_memoryOk {c page s} (h : MemoryOk s) : MemoryOk (dropCached c page s) := by
  unfold dropCached
  grind [DieOk, memoryOk_iff, tableOk_tmap]

theorem execTlbi_memoryOk {o s} (h : MemoryOk s) : NextOk (execTlbi o s) := by
  unfold execTlbi
  grind [answerWord_memoryOk, ctxWord_memoryOk, dropCached_memoryOk]

theorem execTlbiPage_memoryOk {o s} (h : MemoryOk s) : NextOk (execTlbiPage o s) := by
  unfold execTlbiPage
  grind [answerWord_memoryOk, ctxWord_memoryOk, dropCached_memoryOk]

theorem execCtxend_memoryOk {o s} (h : MemoryOk s) : NextOk (execCtxend o s) := by
  unfold execCtxend
  grind [answerWord_memoryOk, ctxWord_memoryOk, endContext_memoryOk]

theorem execHalt_memoryOk {o s} (h : MemoryOk s) : NextOk (execHalt o s) := by
  unfold execHalt
  grind [DieOk, endContext_memoryOk, finishWord_memoryOk, foldl_memoryOk, modDie_memoryOk, sysWord_memoryOk]

theorem retireCore_memoryOk {die core s} (h : MemoryOk s) : MemoryOk (retireCore die core s) := by
  unfold retireCore
  grind [DieOk, checkTree_memoryOk, foldl_memoryOk, modCore_memoryOk, modDie_memoryOk, saveBlocks_memoryOk]

theorem stepRetire_memoryOk {id a v core s} (h : MemoryOk s) : MemoryOk (stepRetire id a v core s) := by
  unfold stepRetire
  grind [answerAct_memoryOk, memoryOk_iff, saveBlocks_memoryOk]

theorem execRetire_memoryOk {o s} (h : MemoryOk s) : NextOk (execRetire o s) := by
  unfold execRetire
  grind [answerWord_memoryOk, retireCore_memoryOk, startAct_memoryOk, sysWord_memoryOk]

theorem pgset_memoryOk {ctx die x new s} (h : MemoryOk s) : MemoryOk (pgset ctx die x new s).2 := by
  unfold pgset
  grind [DieOk, bump_memoryOk, engineDram_memoryOk, modDie_memoryOk]

theorem execPgset_memoryOk {o s} (h : MemoryOk s) : NextOk (execPgset o s) := by
  unfold execPgset
  grind [answerWord_memoryOk, ctxWord_memoryOk, pgset_memoryOk]

theorem logrWord_memoryOk {i o n put s} (h : MemoryOk s) : NextOk (logrWord i o n put s) := by
  unfold logrWord
  grind [finishWord_memoryOk, mapLanes_memoryOk, sysWord_memoryOk, trapWord_memoryOk]

theorem execLogrAddr_memoryOk {o s} (h : MemoryOk s) : NextOk (execLogrAddr o s) := by
  unfold execLogrAddr
  grind [logrWord_memoryOk]

theorem execLogrInfo_memoryOk {o s} (h : MemoryOk s) : NextOk (execLogrInfo o s) := by
  unfold execLogrInfo
  grind [logrWord_memoryOk]

theorem execLogrCount_memoryOk {o s} (h : MemoryOk s) : NextOk (execLogrCount o s) := by
  unfold execLogrCount
  grind [finishWord_memoryOk, mapLanes_memoryOk, sysWord_memoryOk]

theorem execLogrClr_memoryOk {o s} (h : MemoryOk s) : NextOk (execLogrClr o s) := by
  unfold execLogrClr
  grind [finishWord_memoryOk, modCtx_memoryOk, sysWord_memoryOk]

theorem armSnap_memoryOk {c step k d pages s} (h : MemoryOk s) : MemoryOk (armSnap c step k d pages s) := by
  unfold armSnap
  grind [DieOk, foldl_memoryOk, modDie_memoryOk]

theorem stepSnapm_memoryOk {id a c v step addr s} (h : MemoryOk s) : MemoryOk (stepSnapm id a c v step addr s) := by
  unfold stepSnapm
  split
  · exact h
  next x _ =>
    extract_lets hd bad
    have hbad : ∀ {r}, MemoryOk r.2.2 → MemoryOk (bad r) := by
      intro r hr
      unfold bad
      grind [remoteEnd_memoryOk, answerAct_memoryOk, logViolation_memoryOk, dropAnswers_memoryOk]
    clear_value bad
    split
    · exact answerAct_memoryOk h
    split
    · exact answerAct_memoryOk h
    have hr : MemoryOk (readUnits hd c x.die 16 (unitsFrom addr 4) s).2.2 := readUnits_memoryOk h
    split
    next bs n t ht =>
      have ht := readUnits_memoryOk_of_eq h ht
      extract_lets d
      split
      · exact answerAct_memoryOk (dropAnswers_memoryOk ht)
      have hs : MemoryOk (readSpan hd c x.die d.ranges (16 * d.nrange) t).2.2 := readSpan_memoryOk ht
      split
      next rs m u hu =>
        have hu := dropAnswers_memoryOk (h0 := hd) (readSpan_memoryOk_of_eq ht hu)
        grind [answerAct_memoryOk, armSnap_memoryOk]
      · exact hbad hs
    · exact hbad hr

theorem execSnapm_memoryOk {o s} (h : MemoryOk s) : NextOk (execSnapm o s) := by
  unfold execSnapm
  grind [startAct_memoryOk, stepSnapm_memoryOk, sysWord_memoryOk]

theorem stepSys_memoryOk {id a s} (h : MemoryOk s) : MemoryOk (stepSys id a s) := by
  unfold stepSys
  grind [stepRetire_memoryOk, stepSnapm_memoryOk, stepXsave_memoryOk]

theorem execRegisterWrite_memoryOk {die ctx idx val s} (h : MemoryOk s) : NextOk (execRegisterWrite die ctx idx val s) := by
  unfold execRegisterWrite
  grind [nextOk_next, regWrite_memoryOk]

theorem execErrqDropClear_memoryOk {s} (h : MemoryOk s) : NextOk (execErrqDropClear s) := by
  unfold execErrqDropClear
  grind [ModuleOk, modMod_memoryOk, nextOk_next]

theorem execHostContextEnd_memoryOk {ctx s} (h : MemoryOk s) : NextOk (execHostContextEnd ctx s) := by
  unfold execHostContextEnd
  grind [endContext_memoryOk, nextOk_next]

theorem execContextEnded_memoryOk {ctx s} (h : MemoryOk s) : NextOk (execContextEnded ctx s) := by
  unfold execContextEnded
  grind [appendRecord_memoryOk, foldl_memoryOk, memoryOk_iff, modCtx_memoryOk, nextOk_next]

theorem drainRing_moduleOk {now rs m} (h : ModuleOk m) : ModuleOk (drainRing now rs m) := by
  induction rs generalizing m with
  | nil => exact h
  | cons r rs ih => exact ih (writeRecord_moduleOk h)

theorem execErrorRingRetry_memoryOk {s} (h : MemoryOk s) : NextOk (execErrorRingRetry s) := by
  unfold execErrorRingRetry
  have hdrain : MemoryOk (s.modMod fun m => drainRing (s.die 0).time m.errWait { m with errWait := [], errBad := none }) :=
    modMod_memoryOk h fun hm => drainRing_moduleOk hm
  extract_lets m now due
  clear_value due
  split
  · exact nextOk_next.mpr hdrain
  · exact nextOk_next.mpr h

theorem execErrorRingWriteFailure_memoryOk {s} (h : MemoryOk s) : NextOk (execErrorRingWriteFailure s) := by
  unfold execErrorRingWriteFailure
  grind [ModuleOk, modMod_memoryOk, nextOk_next]

theorem snapStage_memoryOk {α : Type} {die c a mark} {r : Ended α × State} (h : MemoryOk r.2) :
    MemoryOk (snapStage die c a mark r).2 := by
  unfold snapStage
  extract_lets on
  have hon : ∀ {u}, MemoryOk u → MemoryOk (on u) := fun hu => modDie_memoryOk hu fun x hx => hx
  clear_value on
  grind [remoteEnd_memoryOk, logViolation_memoryOk]

theorem snapResult_memoryOk {die c final s} (h : MemoryOk s) : MemoryOk (snapResult die c final s).2 := by
  unfold snapResult
  extract_lets hd snap
  have hwrite : ∀ {a bs}, MemoryOk (alone hd (writeAccess hd c die a 0 16 (fun s => mainWrite s c die a bs none) s)).2 :=
    alone_memoryOk (writeAccess_memoryOk (fun _ hu => mainWrite_memoryOk hu) h)
  split
  next ok t ht =>
    have ht : MemoryOk t := by
      split at ht
      · exact snd_memoryOk h ht
      · exact snd_memoryOk (snapStage_memoryOk hwrite) ht
    split
    · exact ht
    split
    · exact ht
    · exact snapStage_memoryOk (alone_memoryOk (wordAccess_memoryOk (fun u hu => mainRmw_memoryOk hu) ht))

theorem snapDone_memoryOk {die c s} (h : MemoryOk s) : MemoryOk (snapDone die c s) := by
  unfold snapDone
  grind [DieOk, bump_memoryOk, modDie_memoryOk, snapResult_memoryOk]

theorem execCut_memoryOk {die ctx s} (h : MemoryOk s) : NextOk (execCut die ctx s) := by
  unfold execCut
  grind [cutDie_memoryOk, nextOk_next, snapDone_memoryOk]

theorem failStorage_memoryOk {die c s} (h : MemoryOk s) : MemoryOk (failStorage die c s) := by
  unfold failStorage
  grind [DieOk, modDie_memoryOk, snapResult_memoryOk]

theorem sendPage_memoryOk {die ctx p page sn s} (h : MemoryOk s) : MemoryOk (sendPage die ctx p page sn s) := by
  unfold sendPage
  grind [DieOk, ModuleOk, bump_memoryOk, failStorage_memoryOk, logViolation_memoryOk, modDie_memoryOk, modMod_memoryOk,
    remoteEnd_memoryOk, sendData_memoryOk]

theorem execPageDrainAck_memoryOk {die ctx page s} (h : MemoryOk s) : NextOk (execPageDrainAck die ctx page s) := by
  unfold execPageDrainAck
  grind [DieOk, modDie_memoryOk, nextOk_next, sendPage_memoryOk, snapDone_memoryOk]

/-! ### The page engines -/

theorem setReq_memoryOk {die gather k r s} (h : MemoryOk s) : MemoryOk (setReq die gather k r s) := by
  unfold setReq
  grind [DieOk, modDie_memoryOk]

theorem dropAsks_memoryOk {pre s} (h : MemoryOk s) : MemoryOk (dropAsks pre s) := by
  unfold dropAsks
  grind [ModuleOk, modMod_memoryOk]

theorem sendReply_memoryOk {c server die gather member mirror r s} (h : MemoryOk s)
    : MemoryOk (sendReply c server die gather member mirror r s) := by
  unfold sendReply
  grind [dropMessage_memoryOk, remoteEnd_memoryOk, ride_memoryOk, setReq_memoryOk]

theorem execStripeRequest_memoryOk {die gather member s} (h : MemoryOk s) : NextOk (execStripeRequest die gather member s) := by
  unfold execStripeRequest
  split
  · split
    · exact nextOk_next.mpr h
    split
    · exact nextOk_next.mpr h
    split
    · exact nextOk_next.mpr h
    split <;> have ht := ride_memoryOk_of_eq h ‹_›
    · exact nextOk_next.mpr (remoteEnd_memoryOk ht)
    · exact nextOk_next.mpr ht
    split
    · exact nextOk_next.mpr ht
    split
    · exact nextOk_next.mpr (sendReply_memoryOk (touch_memoryOk ht))
    · exact nextOk_next.mpr (sendReply_memoryOk ht)
  · exact nextOk_next.mpr h

theorem putStripes_memoryOk {c die page a cells n s} (h : MemoryOk s) : MemoryOk (putStripes c die page a cells n s) := by
  induction n generalizing cells s with
  | zero => exact h
  | succ n ih =>
    unfold putStripes
    split
    · exact h
    · exact ih (engineDram_memoryOk h)

theorem putGather_memoryOk {die gather member g cells s} (h : MemoryOk s) : MemoryOk (putGather die gather member g cells s) := by
  unfold putGather
  grind [DieOk, modDie_memoryOk, putStripes_memoryOk, setReq_memoryOk, updateLeaf_memoryOk]

theorem breakMarks_memoryOk {c die xs s t} (h : MemoryOk s) (ht : breakMarks c die xs s = some t) : MemoryOk t := by
  induction xs generalizing s with
  | nil =>
    obtain rfl := Option.some.inj ht
    exact h
  | cons x xs ih =>
    unfold breakMarks at ht
    split at ht
    · obtain ⟨u, hu, hut⟩ := Option.bind_eq_some_iff.mp ht
      exact ih (breakMark_memoryOk h hu) hut
    · exact ih h ht

theorem landStripes_memoryOk {die gather member mirror g cells s} (h : MemoryOk s)
    : MemoryOk (landStripes die gather member mirror g cells s) := by
  unfold landStripes
  grind [breakMarks_memoryOk, dropMessage_memoryOk, foldl_memoryOk, putGather_memoryOk, snapHold_memoryOk, snapLeave_memoryOk]

theorem execGatherReply_memoryOk {die gather member s} (h : MemoryOk s) : NextOk (execGatherReply die gather member s) := by
  unfold execGatherReply
  grind [landStripes_memoryOk, nextOk_next, remoteEnd_memoryOk, ride_memoryOk]

theorem losePage_memoryOk {c die page s} (h : MemoryOk s) : MemoryOk (losePage c die page s) := by
  unfold losePage
  grind [updateLeaf_memoryOk]

theorem execGatherTimeout_memoryOk {die gather member s} (h : MemoryOk s) : NextOk (execGatherTimeout die gather member s) := by
  unfold execGatherTimeout
  split
  next g t mirror _ =>
    extract_lets now
    split
    · exact nextOk_next.mpr h
    split
    · refine nextOk_next.mpr ?_
      split
      · exact setReq_memoryOk (dropAsks_memoryOk h)
      · exact sendFrame_memoryOk (setReq_memoryOk (dropAsks_memoryOk h))
    · exact nextOk_next.mpr (losePage_memoryOk (modDie_memoryOk (dropAsks_memoryOk h) fun x hx => hx))
  · exact nextOk_next.mpr h

theorem setSend_memoryOk {die red k f s} (h : MemoryOk s) : MemoryOk (setSend die red k f s) := by
  unfold setSend
  grind [DieOk, modDie_memoryOk]

theorem addSend_memoryOk {c d frame s x} (h : MemoryOk s) : MemoryOk (addSend c d frame s x) := by
  unfold addSend
  exact orFpstat_memoryOk (getD_memoryOk h fun t ht => addAt_memoryOk h ht)

theorem takeSend_memoryOk {die red send r x frame s} (h : MemoryOk s) : MemoryOk (takeSend die red send r x frame s) := by
  unfold takeSend
  grind [addSend_memoryOk, breakMark_memoryOk, dropMessage_memoryOk, foldl_memoryOk, remoteEnd_memoryOk, ride_memoryOk,
    setSend_memoryOk, snapLeave_memoryOk, touch_memoryOk]

theorem execReduceContribution_memoryOk {die red send s} (h : MemoryOk s) : NextOk (execReduceContribution die red send s) := by
  unfold execReduceContribution
  grind [nextOk_next, remoteEnd_memoryOk, ride_memoryOk, snapHold_memoryOk, takeSend_memoryOk]

theorem execReduceSendAcknowledgement_memoryOk {die red send s} (h : MemoryOk s)
    : NextOk (execReduceSendAcknowledgement die red send s) := by
  unfold execReduceSendAcknowledgement
  grind [DieOk, dropMessage_memoryOk, modDie_memoryOk, nextOk_next, ride_memoryOk, setSend_memoryOk, settleRed_memoryOk]

theorem execReduceSendTimeout_memoryOk {die red send s} (h : MemoryOk s) : NextOk (execReduceSendTimeout die red send s) := by
  unfold execReduceSendTimeout
  grind [dropMessage_memoryOk, nextOk_next, sendFrame_memoryOk, setSend_memoryOk, settleRed_memoryOk]

theorem execReduceDone_memoryOk {die red src s} (h : MemoryOk s) : NextOk (execReduceDone die red src s) := by
  unfold execReduceDone
  grind [DieOk, dropMessage_memoryOk, modDie_memoryOk, nextOk_next, settleRed_memoryOk]

theorem execReducingTimeout_memoryOk {die red s} (h : MemoryOk s) : NextOk (execReducingTimeout die red s) := by
  unfold execReducingTimeout
  grind [DieOk, losePage_memoryOk, modDie_memoryOk, nextOk_next]

theorem movePage_memoryOk {src a dst b n s} (h : MemoryOk s) : MemoryOk (movePage src a dst b n s) := by
  unfold movePage
  grind [DieOk, modDie_memoryOk, wf_msetAll]

theorem answerMig_memoryOk {die mig m r s} (h : MemoryOk s) : MemoryOk (answerMig die mig m r s) := by
  unfold answerMig
  grind [DieOk, dropMessage_memoryOk, modDie_memoryOk, remoteEnd_memoryOk, ride_memoryOk]

theorem execMigrationHandover_memoryOk {die mig s} (h : MemoryOk s) : NextOk (execMigrationHandover die mig s) := by
  unfold execMigrationHandover
  split
  · exact nextOk_next.mpr h
  split
  · exact nextOk_next.mpr h
  split <;> have ht := ride_memoryOk_of_eq h ‹_›
  · exact nextOk_next.mpr (remoteEnd_memoryOk ht)
  · exact nextOk_next.mpr ht
  split
  · split
    · exact nextOk_next.mpr (answerMig_memoryOk ht)
    · exact nextOk_next.mpr ht
  split
  · split
    · exact nextOk_next.mpr (answerMig_memoryOk (updateLeaf_memoryOk (movePage_memoryOk ht)))
    · exact nextOk_next.mpr (answerMig_memoryOk ht)
  · exact nextOk_next.mpr (answerMig_memoryOk ht)

theorem execMigrationHandoverReply_memoryOk {die mig s} (h : MemoryOk s) : NextOk (execMigrationHandoverReply die mig s) := by
  unfold execMigrationHandoverReply
  grind [DieOk, dropMessage_memoryOk, modDie_memoryOk, modTlb_memoryOk, nextOk_next, ride_memoryOk, updateLeaf_memoryOk]

theorem fillParts_memoryOk {c die d xs s} (h : MemoryOk s) : MemoryOk (fillParts c die d xs s).2 := by
  induction xs generalizing s with
  | nil => exact h
  | cons x xs ih =>
    have hr : MemoryOk (remoteAt s c x false 2 d).2 := remoteAt_memoryOk h
    unfold fillParts
    split <;> have ht := snd_memoryOk hr ‹_›
    · split
      · exact ht
      · have hrest := ih ht
        split
        next l u hu => exact snd_memoryOk hrest hu
        next => exact hrest
    all_goals exact ht

theorem fillParts_memoryOk_of_eq {c die d x1 s a t} (h : MemoryOk s) (ht : fillParts c die d x1 s = (a, t)) : MemoryOk t :=
  snd_memoryOk (fillParts_memoryOk h) ht

theorem endFill_memoryOk {die fill s} (h : MemoryOk s) : MemoryOk (endFill die fill s) := by
  unfold endFill
  grind [DieOk, dropMessage_memoryOk, modDie_memoryOk]

theorem execMode1Fill_memoryOk {die fill s} (h : MemoryOk s) : NextOk (execMode1Fill die fill s) := by
  unfold execMode1Fill
  split
  · exact nextOk_next.mpr h
  split <;> have ht := leafOf_memoryOk_of_eq h ‹_›
  · exact nextOk_next.mpr (endFill_memoryOk ht)
  split
  · split
    · exact nextOk_next.mpr ht
    extract_lets parts fetch
    have hfetch : ∀ u, MemoryOk u → MemoryOk (fetch u).2 := by
      intro u hu
      unfold fetch
      split <;> have hv := fillParts_memoryOk_of_eq hu ‹_›
      · exact foldl_memoryOk hv fun v x hv => movePage_memoryOk hv
      · exact hv
      · exact hv
    clear_value fetch
    split <;> have hu := overMesh_memoryOk_of_eq (fun u hu => hu) hfetch ht ‹_›
    · exact nextOk_next.mpr (modTlb_memoryOk (endFill_memoryOk hu))
    · exact nextOk_next.mpr (remoteEnd_memoryOk hu)
    · exact nextOk_next.mpr hu
  · exact nextOk_next.mpr (endFill_memoryOk ht)

/-! ### The links -/

theorem logMessage_memoryOk {die cls src tag data s} (h : MemoryOk s) : MemoryOk (logMessage die cls src tag data s) := by
  unfold logMessage
  grind [logKeeper_memoryOk]

theorem signal_moduleOk {m link cls} (h : ModuleOk m) : ModuleOk (signal m link cls) := h

theorem modLink_memoryOk {link f s} (h : MemoryOk s) : MemoryOk (modLink link f s) := by
  unfold modLink
  grind [ModuleOk, modMod_memoryOk]

theorem cutTransfer_memoryOk {s t} (h : MemoryOk s) : MemoryOk (cutTransfer s t) := by
  unfold cutTransfer
  grind [ModuleOk, modMod_memoryOk, remoteEnd_memoryOk]

theorem failLink_memoryOk {link s} (h : MemoryOk s) : MemoryOk (failLink link s) := by
  unfold failLink
  grind [cutTransfer_memoryOk, foldl_memoryOk, modLink_memoryOk]

theorem queueReward_memoryOk {die msg s} (h : MemoryOk s) : MemoryOk (queueReward die msg s) := by
  unfold queueReward
  grind [ModuleOk, memoryOk_iff]

theorem takeFrame_memoryOk {die cls data s} (h : MemoryOk s) : MemoryOk (takeFrame die cls data s) := by
  unfold takeFrame
  grind [queueReward_memoryOk]

theorem deliver_memoryOk {home f s} (h : MemoryOk s) : MemoryOk (deliver home f s) := by
  unfold deliver
  grind [bump_memoryOk, logMessage_memoryOk, ride_memoryOk, takeFrame_memoryOk]

theorem inFlow_memoryOk {s f} (h : MemoryOk s) : MemoryOk (inFlow s f).2.2 := by
  unfold inFlow
  grind [bump_memoryOk]

theorem atHome_memoryOk {f s} (h : MemoryOk s) : MemoryOk (atHome f s) := by
  unfold atHome
  grind [ModuleOk, deliver_memoryOk, foldl_memoryOk, inFlow_memoryOk, modMod_memoryOk]

theorem modFlow_memoryOk {id f s} (h : MemoryOk s) : MemoryOk (modFlow id f s) := by
  unfold modFlow
  grind [ModuleOk, modMod_memoryOk]

theorem failFlow_memoryOk {id s} (h : MemoryOk s) : MemoryOk (failFlow id s) := by
  unfold failFlow
  grind [failStorage_memoryOk, foldl_memoryOk, modFlow_memoryOk, remoteEnd_memoryOk]

theorem resend_memoryOk {id which s} (h : MemoryOk s) : MemoryOk (resend id which s) := by
  unfold resend
  grind [failFlow_memoryOk, modFlow_memoryOk]

theorem ackHome_memoryOk {f s} (h : MemoryOk s) : MemoryOk (ackHome f s) := by
  unfold ackHome
  grind [modFlow_memoryOk, resend_memoryOk]

theorem land_memoryOk {id t s} (h : MemoryOk s) : MemoryOk (land id t s) := by
  unfold land
  grind [ModuleOk, ackHome_memoryOk, atHome_memoryOk, landTree_memoryOk, modMod_memoryOk, numberFrame_memoryOk, takeFrame_memoryOk]

theorem execMeshFlitReceive_memoryOk {link cls ok s} (h : MemoryOk s) : NextOk (execMeshFlitReceive link cls ok s) := by
  unfold execMeshFlitReceive
  extract_lets s1 l src dst
  have h1 : MemoryOk s1 := modMod_memoryOk h signal_moduleOk
  clear_value s1
  split
  · exact nextOk_next.mpr h1
  next id t _ =>
    split
    · exact nextOk_next.mpr h1
    split
    · refine nextOk_next.mpr ?_
      split
      · exact failLink_memoryOk (modMod_memoryOk h1 fun hm => hm)
      · exact modMod_memoryOk h1 fun hm => hm
    · extract_lets t' s2
      have h2 : MemoryOk s2 := by
        refine modMod_memoryOk h1 fun hm => ?_
        dsimp only
        split
        · exact signal_moduleOk (signal_moduleOk hm)
        · exact signal_moduleOk hm
      clear_value s2
      refine nextOk_next.mpr ?_
      split
      · exact land_memoryOk (logMessage_memoryOk h2)
      · exact h2

theorem homeFlows_memoryOk {s} (h : MemoryOk s) : MemoryOk (homeFlows s) := by
  unfold homeFlows
  grind [ModuleOk, modMod_memoryOk]

theorem moveFlows_memoryOk {port s} (h : MemoryOk s) : MemoryOk (moveFlows port s) := by
  unfold moveFlows
  grind [foldl_memoryOk, homeFlows_memoryOk, modFlow_memoryOk, resend_memoryOk]

theorem routeFlows_memoryOk {module s} (h : MemoryOk s) : MemoryOk (routeFlows module s) := by
  unfold routeFlows
  grind [foldl_memoryOk, homeFlows_memoryOk, modFlow_memoryOk, resend_memoryOk]

theorem execFrameReceive_memoryOk {port f s} (h : MemoryOk s) : NextOk (execFrameReceive port f s) := by
  unfold execFrameReceive
  grind [ModuleOk, atHome_memoryOk, bump_memoryOk, inFlow_memoryOk, modMod_memoryOk, nextOk_next, ride_memoryOk]

theorem execAckReceive_memoryOk {port f s} (h : MemoryOk s) : NextOk (execAckReceive port f s) := by
  unfold execAckReceive
  grind [ackHome_memoryOk, bump_memoryOk, nextOk_next, ride_memoryOk]

theorem execRetransmitTimeout_memoryOk {flow seq s} (h : MemoryOk s) : NextOk (execRetransmitTimeout flow seq s) := by
  unfold execRetransmitTimeout
  grind [nextOk_next, resend_memoryOk]

theorem setPort_memoryOk {p x s} (h : MemoryOk s) : MemoryOk (setPort p x s) := by
  unfold setPort
  grind [ModuleOk, homeFlows_memoryOk, modMod_memoryOk]

theorem trainLink_memoryOk {k lanes s} (h : MemoryOk s) : MemoryOk (trainLink k lanes s) := by
  unfold trainLink
  grind [failLink_memoryOk, modLink_memoryOk]

theorem execPortTrainingEnd_memoryOk {port lanes s} (h : MemoryOk s) : NextOk (execPortTrainingEnd port lanes s) := by
  unfold execPortTrainingEnd
  grind [moveFlows_memoryOk, nextOk_next, setPort_memoryOk, trainLink_memoryOk]

theorem execLaneLost_memoryOk {port s} (h : MemoryOk s) : NextOk (execLaneLost port s) := by
  unfold execLaneLost
  grind [modLink_memoryOk, nextOk_next, setPort_memoryOk]

theorem execPortEnable_memoryOk {port s} (h : MemoryOk s) : NextOk (execPortEnable port s) := by
  unfold execPortEnable
  grind [modLink_memoryOk, nextOk_next, setPort_memoryOk]

theorem execPortDisable_memoryOk {port s} (h : MemoryOk s) : NextOk (execPortDisable port s) := by
  unfold execPortDisable
  grind [modLink_memoryOk, moveFlows_memoryOk, nextOk_next, setPort_memoryOk]

theorem control_memoryOk {c s} (h : MemoryOk s) : MemoryOk (control c s) := by
  unfold control
  grind [DieOk, ModuleOk, modDie_memoryOk, modMod_memoryOk, routeFlows_memoryOk]

theorem hostMarks_memoryOk {die a sns s t} (h : MemoryOk s) (ht : hostMarks die a sns s = some t) : MemoryOk t := by
  induction sns generalizing s with
  | nil =>
    obtain rfl := Option.some.inj ht
    exact h
  | cons x sns ih =>
    unfold hostMarks at ht
    split at ht
    · obtain ⟨u, hu, hut⟩ := Option.bind_eq_some_iff.mp ht
      exact ih (breakMark_memoryOk h hu) hut
    · exact ih h ht

theorem hostUnit_memoryOk {die d n wr s} (h : MemoryOk s) : MemoryOk (hostUnit die d n wr s).2 := by
  unfold hostUnit
  split
  · split
    · exact h
    next t ht =>
      have ht := hostMarks_memoryOk h ht
      split
      next u hu => exact dramWrite_memoryOk ht hu
      next => exact ht
  · split <;> exact h

theorem hostPiece_memoryOk {id a n wr s} (h : MemoryOk s) : MemoryOk (hostPiece id a n wr s).2 := by
  unfold hostPiece
  split
  · exact h
  · exact overMesh_memoryOk (fun u hu => hu) (fun u hu => hostUnit_memoryOk hu) h

theorem hostPiece_memoryOk_of_eq {id a n wr s a1 t} (h : MemoryOk s) (ht : hostPiece id a n wr s = (a1, t)) : MemoryOk t :=
  snd_memoryOk (hostPiece_memoryOk h) ht

theorem modAccess_memoryOk {id f s} (h : MemoryOk s) : MemoryOk (modAccess id f s) := by
  unfold modAccess
  grind [ModuleOk, modMod_memoryOk]

theorem endPiece_memoryOk {id a f s} (h : MemoryOk s) : MemoryOk (endPiece id a f s) := by
  unfold endPiece
  grind [dropMessage_memoryOk, modAccess_memoryOk]

theorem stepHost_memoryOk {id fuel s} (h : MemoryOk s) : MemoryOk (stepHost id fuel s) := by
  induction fuel generalizing s with
  | zero => exact h
  | succ fuel ih =>
    unfold stepHost
    split
    · exact h
    split
    · exact modMod_memoryOk h fun hm => hm
    · split <;> have ht := hostPiece_memoryOk_of_eq h ‹_›
      · exact ih (endPiece_memoryOk ht)
      · exact ht
      · exact ht
      · exact ih (endPiece_memoryOk ht)

theorem resumeHost_memoryOk {id s} (h : MemoryOk s) : MemoryOk (resumeHost id s) := by
  unfold resumeHost
  grind [stepHost_memoryOk]

theorem execCxlMemAccess_memoryOk {addr len wr s} (h : MemoryOk s) : NextOk (execCxlMemAccess addr len wr s) := by
  unfold execCxlMemAccess
  grind [ModuleOk, bump_memoryOk, modMod_memoryOk, nextOk_next, resumeHost_memoryOk]

theorem syncTime_memoryOk {ref s} (h : MemoryOk s) : MemoryOk (syncTime ref s) := by
  have hset : ∀ {far ppm d}, DieOk d → DieOk (syncDie far ppm ref d) := fun hd => hd
  rw [syncTime_eq]
  exact bump_memoryOk (foldl_memoryOk h fun _ _ hu => modDie_memoryOk hu fun _ hd => hset hd)

theorem followTime_memoryOk {die s} (h : MemoryOk s) : MemoryOk (followTime die s) := by
  unfold followTime
  grind [DieOk, bump_memoryOk, modDie_memoryOk]

theorem execTimeSync_memoryOk {die ref s} (h : MemoryOk s) : NextOk (execTimeSync die ref s) := by
  unfold execTimeSync
  grind [followTime_memoryOk, nextOk_next, syncTime_memoryOk]

/-! ### The collective engine -/

theorem readBytes_memoryOk {h0 ctx die a n s} (h : MemoryOk s) : MemoryOk (readBytes h0 ctx die a n s).2 := by
  unfold readBytes
  grind [readSpan_memoryOk]

theorem writeSpan_memoryOk {hd ctx die step us bs s} (h : MemoryOk s) : MemoryOk (writeSpan hd ctx die step us bs s).2 := by
  induction us generalizing bs s with
  | nil => exact h
  | cons x us ih =>
    unfold writeSpan
    split <;> have ht := writeAccess_memoryOk_of_eq (fun u hu => mainWrite_memoryOk hu) h ‹_›
    · have hrest := fun bs => ih (bs := bs) ht
      have hagain := fun bs => ih (bs := bs) h
      split
      next b r u hu =>
        have hu := snd_memoryOk (hrest _) hu
        split
        · split
          next v hv => exact snd_memoryOk (hagain _) hv
          next => exact h
        · exact hu
      next => exact hrest _
    · exact ht

theorem spanFail_memoryOk {c die source a r s} (h : MemoryOk s) : MemoryOk (spanFail c die source a r s).2 := by
  unfold spanFail
  grind [logViolation_memoryOk, remoteEnd_memoryOk]

theorem imageFail_memoryOk {h0 x s} (h : MemoryOk s) : MemoryOk (imageFail h0 x s).2 := by
  unfold imageFail
  grind [spanFail_memoryOk]

theorem readImage_memoryOk {share slot h0 addr s} (h : MemoryOk s) : MemoryOk (readImage share slot h0 addr s).2 := by
  unfold readImage
  grind [imageFail_memoryOk, readBytes_memoryOk]

theorem readImage_memoryOk_of_eq {share slot h0 addr s a t} (h : MemoryOk s) (ht : readImage share slot h0 addr s = (a, t))
    : MemoryOk t :=
  snd_memoryOk (readImage_memoryOk h) ht

theorem loadImage_memoryOk {share slot h0 addr s} (h : MemoryOk s) : MemoryOk (loadImage share slot h0 addr s).2 := by
  unfold loadImage
  grind [dropAnswers_memoryOk, readImage_memoryOk, readImage_memoryOk_of_eq]

theorem loadImage_memoryOk_of_eq {share slot h0 addr s a t} (h : MemoryOk s) (ht : loadImage share slot h0 addr s = (a, t))
    : MemoryOk t :=
  snd_memoryOk (loadImage_memoryOk h) ht

theorem setGraph_memoryOk {share slot g s} (h : MemoryOk s) : MemoryOk (setGraph share slot g s) := by
  unfold setGraph
  grind [ShareOk, modShare_memoryOk]

theorem fillTok_memoryOk {t v s} (h : MemoryOk s) : MemoryOk (fillTok t v s) := by
  unfold fillTok
  grind [fillToken_memoryOk]

theorem modRun_memoryOk {id f s} (h : MemoryOk s) : MemoryOk (modRun id f s) := by
  unfold modRun
  grind [memoryOk_iff]

theorem beginRun_memoryOk {id s} (h : MemoryOk s) : MemoryOk (beginRun id s) := by
  unfold beginRun
  split
  · exact h
  split
  · exact h
  next x hx =>
    have hx := share_shareOk h hx
    exact setShare_memoryOk h hx

theorem finishLoad_memoryOk {share slot ord t r s} (h : MemoryOk s) : MemoryOk (finishLoad share slot ord t r s) := by
  unfold finishLoad
  grind [ShareOk, fillTok_memoryOk, modShare_memoryOk, setGraph_memoryOk]

theorem serveSlot_memoryOk {share slot fuel s} (h : MemoryOk s) : MemoryOk (serveSlot share slot fuel s) := by
  induction fuel generalizing s with
  | zero => exact h
  | succ fuel ih =>
    unfold serveSlot
    split
    · exact h
    split
    · exact h
    split
    · exact h
    · exact beginRun_memoryOk h
    · split
      · split
        · exact beginRun_memoryOk h
        · split <;> have ht := loadImage_memoryOk_of_eq h ‹_›
          · exact ht
          · exact ih (finishLoad_memoryOk ht)
      · split <;> have ht := loadImage_memoryOk_of_eq h ‹_›
        · exact ht
        · exact ih (finishLoad_memoryOk ht)

theorem serveAll_memoryOk {share slot s} (h : MemoryOk s) : MemoryOk (serveAll share slot s) := by
  unfold serveAll
  grind [serveSlot_memoryOk]

theorem startRun_memoryOk {share slot bases bad t s} (h : MemoryOk s) : MemoryOk (startRun share slot bases bad t s) := by
  unfold startRun
  grind [memoryOk_iff, serveAll_memoryOk]

theorem endArmed_memoryOk {share slot s} (h : MemoryOk s) : MemoryOk (endArmed share slot s) := by
  unfold endArmed
  grind [ShareOk, fillTok_memoryOk, modShare_memoryOk]

theorem collWord_memoryOk {i o act s} (hact : ∀ b m u, MemoryOk u → MemoryOk (act b m u)) (h : MemoryOk s) :
    NextOk (collWord i o act s) := by
  unfold collWord
  refine bufWord_memoryOk (fun b m u hu => ?_) h
  split
  · exact blockWord_memoryOk hu
  · exact afterStores_memoryOk hact hu

theorem execCload_memoryOk {o s} (h : MemoryOk s) : NextOk (execCload o s) := by
  unfold execCload
  grind [ShareOk, blockWord_memoryOk, bump_memoryOk, collWord_memoryOk, endArmed_memoryOk, finishWord_memoryOk, modShare_memoryOk,
    serveAll_memoryOk, takeToken_memoryOk]

theorem readBases_memoryOk {share h0 a s} (h : MemoryOk s) : MemoryOk (readBases share h0 a s).2 := by
  unfold readBases
  grind [dropAnswers_memoryOk, readBytes_memoryOk, spanFail_memoryOk]

theorem readBases_memoryOk_of_eq {share h0 a s a1 t} (h : MemoryOk s) (ht : readBases share h0 a s = (a1, t)) : MemoryOk t :=
  snd_memoryOk (readBases_memoryOk h) ht

theorem withBases_memoryOk {o act b m s} (hact : ∀ b m es bad u, MemoryOk u → MemoryOk (act b m es bad u)) (h : MemoryOk s) :
    MemoryOk (withBases o act b m s) := by
  unfold withBases
  split
  · split <;> have ht := readBases_memoryOk_of_eq h ‹_›
    · exact blockWord_memoryOk ht
    · exact hact _ _ _ _ _ ht
  · exact blockWord_memoryOk h
  · exact finishWord_memoryOk h

theorem execCrun_memoryOk {o s} (h : MemoryOk s) : NextOk (execCrun o s) := by
  unfold execCrun
  grind [collWord_memoryOk, finishWord_memoryOk, startRun_memoryOk, takeToken_memoryOk, withBases_memoryOk]

theorem execCarm_memoryOk {o s} (h : MemoryOk s) : NextOk (execCarm o s) := by
  unfold execCarm
  grind [ShareOk, blockWord_memoryOk, collWord_memoryOk, endArmed_memoryOk, finishWord_memoryOk, modShare_memoryOk,
    takeToken_memoryOk, withBases_memoryOk]

theorem execCstepQ_memoryOk {o s} (h : MemoryOk s) : NextOk (execCstepQ o s) := by
  unfold execCstepQ
  grind [collWord_memoryOk, finishWord_memoryOk, setWreg_memoryOk]

theorem fillSteps_memoryOk {share s} (h : MemoryOk s) : MemoryOk (fillSteps share s) := by
  unfold fillSteps
  split
  · exact h
  next x hx =>
    have hx := share_shareOk h hx
    extract_lets due
    refine foldl_memoryOk (setShare_memoryOk h hx) fun u w hu => ?_
    split
    · exact fillTok_memoryOk hu
    · exact hu

theorem execCstepWait_memoryOk {o s} (h : MemoryOk s) : NextOk (execCstepWait o s) := by
  unfold execCstepWait
  grind [ShareOk, blockWord_memoryOk, collWord_memoryOk, fillSteps_memoryOk, finishWord_memoryOk, modShare_memoryOk,
    takeToken_memoryOk]

theorem execGraphLoadAtPlacement_memoryOk {share s} (h : MemoryOk s) : NextOk (execGraphLoadAtPlacement share s) := by
  unfold execGraphLoadAtPlacement
  grind [ShareOk, bump_memoryOk, dropAnswers_memoryOk, foldl_memoryOk, loadImage_memoryOk, logViolation_memoryOk, modShare_memoryOk,
    nextOk_next, readBytes_memoryOk, serveAll_memoryOk, setGraph_memoryOk, spanFail_memoryOk]

theorem execCarmStart_memoryOk {share slot s} (h : MemoryOk s) : NextOk (execCarmStart share slot s) := by
  unfold execCarmStart
  split
  · split
    · exact nextOk_next.mpr (startRun_memoryOk (modShare_memoryOk h fun x hx => hx))
    · exact nextOk_next.mpr h
  · exact nextOk_next.mpr h

theorem readUnit_memoryOk {id r h0 x k s} (h : MemoryOk s) : MemoryOk (readUnit id r h0 x k s).2 := by
  unfold readUnit
  grind [readBytes_memoryOk]

theorem writeChunk_memoryOk {id h0 x k bs s} (h : MemoryOk s) : MemoryOk (writeChunk id h0 x k bs s).2 := by
  unfold writeChunk
  grind [mainPair_memoryOk, modRun_memoryOk, writeAccess_memoryOk, writeSpan_memoryOk]

theorem writeChunk_memoryOk_of_eq {id h0 x k bs s a t} (h : MemoryOk s) (ht : writeChunk id h0 x k bs s = (a, t)) : MemoryOk t :=
  snd_memoryOk (writeChunk_memoryOk h) ht

theorem endNode_memoryOk {run node st s} (h : MemoryOk s) : MemoryOk (endNode run node st s) := by
  unfold endNode
  grind [modRun_memoryOk]

theorem failNode_memoryOk {run node h0 a r s} (h : MemoryOk s) : MemoryOk (failNode run node h0 a r s) := by
  unfold failNode
  grind [endNode_memoryOk, spanFail_memoryOk]

theorem dropUnits_memoryOk {run x k n s} (h : MemoryOk s) : MemoryOk (dropUnits run x k n s) := by
  unfold dropUnits
  grind [dropAnswersOf_memoryOk]

theorem nodeUnits_memoryOk {run node y n data fuel s} (hdata : ∀ r k u, MemoryOk u → MemoryOk (data r k u).2) (h : MemoryOk s) :
    MemoryOk (nodeUnits run node y n data fuel s).2 := by
  induction fuel generalizing s with
  | zero => exact h
  | succ fuel ih =>
    unfold nodeUnits
    split
    · exact h
    next r _ =>
    extract_lets k x two src n1
    split
    · exact h
    have hsrc : MemoryOk src.2 := by
      unfold src
      have hk := hdata r k s h
      split
      next a t ht =>
        have ht := snd_memoryOk hk ht
        have hnext := hdata r (k + 1) t ht
        split
        · split
          next b u hu => exact snd_memoryOk hnext hu
          next => exact hnext
        · exact ht
      next => exact hk
    clear_value src
    have hfail : ∀ {u a e}, MemoryOk u → MemoryOk (if e.waits then u else failNode run node y a e u) := by
      intro u a e hu
      split
      · exact hu
      · exact failNode_memoryOk hu
    split <;> have ht := snd_memoryOk hsrc rfl
    · exact hfail ht
    extract_lets old
    have hold : MemoryOk old.2 := by
      unfold old
      split
      · exact readUnit_memoryOk ht
      · exact ht
    clear_value old
    split <;> have hu := snd_memoryOk hold rfl
    · exact hfail hu
    extract_lets c
    split <;> have hv := writeChunk_memoryOk_of_eq hu ‹_›
    · exact hfail hv
    · exact ih (orFpstat_memoryOk (modRun_memoryOk (dropUnits_memoryOk (dropUnits_memoryOk hv))))

theorem endUnits_memoryOk {run node} {x : Bool × State} (h : MemoryOk x.2) : MemoryOk (endUnits run node x) := by
  unfold endUnits
  split
  · exact endNode_memoryOk h
  · exact h

theorem readChunk_memoryOk {run r y x ks s} (h : MemoryOk s) : MemoryOk (readChunk run r y x ks s).2 := by
  induction ks generalizing s with
  | nil => exact h
  | cons k ks ih =>
    have hr : MemoryOk (readUnit run r y x k s).2 := readUnit_memoryOk h
    unfold readChunk
    split
    next bs t ht =>
      have hrest := ih (snd_memoryOk hr ht)
      split
      next cs u hu => exact snd_memoryOk hrest hu
      next => exact hrest
    next => exact hr

theorem readChunk_memoryOk_of_eq {run r h0 x x1 s a t} (h : MemoryOk s) (ht : readChunk run r h0 x x1 s = (a, t)) : MemoryOk t :=
  snd_memoryOk (readChunk_memoryOk h) ht

theorem sendNode_memoryOk {run node r y n s} (h : MemoryOk s) : MemoryOk (sendNode run node r y n s) := by
  unfold sendNode
  split
  · split
    · exact h
    · exact endNode_memoryOk h
  · exact h
  split
  · exact endNode_memoryOk h
  split <;> have ht := readChunk_memoryOk_of_eq h ‹_›
  · split
    · exact ht
    · exact failNode_memoryOk ht
  extract_lets s1 sent
  have h1 : MemoryOk s1 := dropUnits_memoryOk ht
  have hsent : ∀ {k u}, MemoryOk u → MemoryOk (sent k u) := fun hu => modRun_memoryOk hu
  clear_value s1 sent
  split
  · exact hsent (sendFrame_memoryOk h1)
  split
  · exact hsent h1
  · exact hsent h1

theorem newHostReq_memoryOk {run node h0 s} (h : MemoryOk s) : MemoryOk (newHostReq run node h0 s) := by
  unfold newHostReq
  grind [askHost_memoryOk]

theorem atHost_memoryOk {α : Type} {enc : α → List Byte} {dec run node ctx die} {f : State → α × State} {s}
    (hf : ∀ u, MemoryOk u → MemoryOk (f u).2) (h : MemoryOk s) : MemoryOk (atHost enc dec run node ctx die f s).2 := by
  unfold atHost
  exact overMesh_memoryOk (fun u hu => hu) hf h

theorem atHost_memoryOk_of_eq {α : Type} {enc : α → List Byte} {dec run node ctx die} {f : State → α × State} {s a t}
    (hf : ∀ u, MemoryOk u → MemoryOk (f u).2) (h : MemoryOk s) (ht : atHost enc dec run node ctx die f s = (a, t)) : MemoryOk t :=
  snd_memoryOk (atHost_memoryOk hf h) ht

theorem endHostReq_memoryOk {run node s} (h : MemoryOk s) : MemoryOk (endHostReq run node s) := by
  unfold endHostReq
  grind [dropHostReq_memoryOk, dropMessage_memoryOk]

theorem hostCut_memoryOk {α : Type} {ctx} {r : Ended α} {s} (h : MemoryOk s) : MemoryOk (hostCut ctx r s) := by
  unfold hostCut
  split
  · exact remoteEnd_memoryOk h
  · exact h

theorem writeRecv_memoryOk {run node id c bs h0 n s} (h : MemoryOk s) : MemoryOk (writeRecv run node id c bs h0 n s) := by
  unfold writeRecv
  grind [endHostReq_memoryOk, endUnits_memoryOk, memoryOk_iff, nodeUnits_memoryOk]

theorem recvNode_memoryOk {run node r h0 n s} (h : MemoryOk s) : MemoryOk (recvNode run node r h0 n s) := by
  unfold recvNode
  grind [atHost_memoryOk, atHost_memoryOk_of_eq, endNode_memoryOk, hostCut_memoryOk, memoryOk_iff, newHostReq_memoryOk,
    tableOk_tput, writeRecv_memoryOk]

theorem spillNode_memoryOk {run node r h0 n s} (h : MemoryOk s) : MemoryOk (spillNode run node r h0 n s) := by
  unfold spillNode
  grind [ModuleOk, atHost_memoryOk, dropUnits_memoryOk, endHostReq_memoryOk, endNode_memoryOk, failNode_memoryOk, hostCut_memoryOk,
    modMod_memoryOk, modRun_memoryOk, newHostReq_memoryOk, readChunk_memoryOk, wf_msetAll]

theorem refetchNode_memoryOk {run node r y n s} (h : MemoryOk s) : MemoryOk (refetchNode run node r y n s) := by
  unfold refetchNode
  split
  · exact newHostReq_memoryOk h
  split <;> have ht := atHost_memoryOk_of_eq (fun _ hu => hu) h ‹_›
  · extract_lets data s1
    have h1 : MemoryOk s1 := endUnits_memoryOk (nodeUnits_memoryOk (fun r k u hu => hu) ht)
    split
    · exact endHostReq_memoryOk h1
    · exact h1
  · exact hostCut_memoryOk ht

theorem putHost_memoryOk {cells : List Host.Cell} {s} (h : MemoryOk s) :
    MemoryOk (s.modMod fun m => { m with hostMem := msetAll m.hostMem cells }) :=
  modMod_memoryOk h fun hm => moduleOk_msetAll hm

theorem execNodeComplete_memoryOk {run node s} (h : MemoryOk s) : NextOk (execNodeComplete run node s) := by
  unfold execNodeComplete
  grind [endNode_memoryOk, endUnits_memoryOk, nextOk_next, nodeUnits_memoryOk, readUnit_memoryOk, recvNode_memoryOk,
    refetchNode_memoryOk, sendNode_memoryOk, spillNode_memoryOk]

theorem execHostTimeout_memoryOk {req s} (h : MemoryOk s) : NextOk (execHostTimeout req s) := by
  unfold execHostTimeout
  split
  · exact nextOk_next.mpr h
  next q _ =>
  extract_lets die s1 s2 i
  split
  · split
    · exact nextOk_next.mpr (stepEnq_memoryOk h)
    have h1 : MemoryOk s1 := h
    have h2 : MemoryOk s2 := dropHostReq_memoryOk (endHostReq_memoryOk h1)
    clear_value s2
    split
    · exact nextOk_next.mpr (ringFails_memoryOk h2)
    · exact nextOk_next.mpr (endNode_memoryOk h2)
  · exact nextOk_next.mpr h

theorem acceptChunk_memoryOk {id c src h0 s} (h : MemoryOk s) : MemoryOk (acceptChunk id c src h0 s) := by
  unfold acceptChunk
  grind [dropMessage_memoryOk, endHostReq_memoryOk, memoryOk_iff, remoteEnd_memoryOk, ride_memoryOk]

theorem placeChunk_memoryOk {id c src y s} (hy : ShareOk y) (h : MemoryOk s) : MemoryOk (placeChunk id c src y s) := by
  unfold placeChunk
  split
  · exact acceptChunk_memoryOk h
  split
  · exact h
  next g _ =>
  extract_lets used tail n cells put
  split
  · exact acceptChunk_memoryOk h
  split
  · split
    · split
      · exact h
      · exact newHostReq_memoryOk h
    · split <;> have ht := atHost_memoryOk_of_eq (fun _ hu => putHost_memoryOk hu) h ‹_›
      · exact acceptChunk_memoryOk (setShare_memoryOk ht hy)
      · exact hostCut_memoryOk ht
  · exact h

theorem moveChunk_memoryOk {id c src dst ctx s} (h : MemoryOk s) : MemoryOk (moveChunk id c src dst ctx s) := by
  unfold moveChunk
  grind [dropMessage_memoryOk, remoteEnd_memoryOk, ride_memoryOk]

theorem execChunkOffer_memoryOk {chunk s} (h : MemoryOk s) : NextOk (execChunkOffer chunk s) := by
  unfold execChunkOffer
  grind [memoryOk_iff, moveChunk_memoryOk, nextOk_next, placeChunk_memoryOk, remoteEnd_memoryOk, ride_memoryOk, share_shareOk]

theorem closeRun_memoryOk {id r h0 s} (h : MemoryOk s) : MemoryOk (closeRun id r h0 s) := by
  unfold closeRun
  grind [ShareOk, cutDie_memoryOk, fillSteps_memoryOk, foldl_memoryOk, homeWrite_memoryOk, modRun_memoryOk, modShare_memoryOk,
    refreshKeeper_memoryOk, snapDone_memoryOk]

theorem execRunComplete_memoryOk {run s} (h : MemoryOk s) : NextOk (execRunComplete run s) := by
  unfold execRunComplete
  grind [alone_memoryOk, closeRun_memoryOk, fillTok_memoryOk, mainRmw_memoryOk, memoryOk_iff, nextOk_next, serveAll_memoryOk,
    spanFail_memoryOk, wordAccess_memoryOk]

/-! ### The trajectory engine -/

theorem modJunc_memoryOk {die c f s} (h : MemoryOk s) : MemoryOk (modJunc die c f s) := by
  unfold modJunc
  grind [DieOk, modDie_memoryOk]

theorem countJunc_memoryOk {die c k s} (h : MemoryOk s) : MemoryOk (countJunc die c k s) := by
  unfold countJunc
  grind [modJunc_memoryOk]

theorem modEpisode_memoryOk {die n f s} (h : MemoryOk s) : MemoryOk (modEpisode die n f s) := by
  unfold modEpisode
  grind [DieOk, modDie_memoryOk]

theorem dropStore_memoryOk {die n a e r s} (h : MemoryOk s) : MemoryOk (dropStore die n a e r s) := by
  unfold dropStore
  grind [logViolation_memoryOk, modEpisode_memoryOk, remoteEnd_memoryOk]

theorem recordWork_memoryOk {α : Type} {die n a e} {r : Ended α × State} (h : MemoryOk r.2)
    : MemoryOk (recordWork die n a e r).2 := by
  unfold recordWork
  split
  · exact h
  · split
    · exact h
    · exact dropStore_memoryOk h

theorem readRecord_memoryOk {hd die n e t s} (h : MemoryOk s) : MemoryOk (readRecord hd die n e t s).2 :=
  recordWork_memoryOk (onceAccess_memoryOk (fun _ hu => mainRead_memoryOk hu) h)

theorem readRecord_memoryOk_of_eq {h0 die n e t s a t1} (h : MemoryOk s) (ht : readRecord h0 die n e t s = (a, t1)) : MemoryOk t1 :=
  snd_memoryOk (readRecord_memoryOk h) ht

theorem writeRecord_memoryOk {hd die n e t o bs s} (h : MemoryOk s) : MemoryOk (writeRecord hd die n e t o bs s).2 :=
  recordWork_memoryOk (onceAccess_memoryOk (fun _ hu => mainWrite_memoryOk hu) h)

theorem readRecords_memoryOk {hd die n e ts s} (h : MemoryOk s) : MemoryOk (readRecords hd die n e ts s).2 := by
  induction ts generalizing s with
  | nil => exact h
  | cons k ts ih =>
    unfold readRecords
    split <;> have ht := readRecord_memoryOk_of_eq h ‹_›
    · have hrest := ih ht
      split
      next l u hu => exact snd_memoryOk hrest hu
      next => exact hrest
    all_goals exact ht

theorem writeRecords_memoryOk {hd die n e ws s} (h : MemoryOk s) : MemoryOk (writeRecords hd die n e ws s).2 := by
  induction ws generalizing s with
  | nil => exact h
  | cons w ws ih =>
    have hw : MemoryOk (writeRecord hd die n e w.1 w.2.1 w.2.2 s).2 := writeRecord_memoryOk h
    unfold writeRecords
    split
    next t ht => exact ih (snd_memoryOk hw ht)
    next => exact hw

theorem thenWork_memoryOk {α : Type} {r : JWork α × State} {k} (hk : ∀ a u, MemoryOk u → MemoryOk (k a u).2) (h : MemoryOk r.2) :
    MemoryOk (thenWork r k).2 := by
  unfold thenWork
  split
  next a u => exact hk a u h
  next u => exact h
  next u => exact h

theorem yieldEntry_memoryOk {e h0 s} (h : MemoryOk s) : MemoryOk (yieldEntry e h0 s) := by
  unfold yieldEntry
  grind [forgetHolder_memoryOk]

theorem onEntry_memoryOk {hd die n} {f : Episode → JStep} {s} (hf : ∀ e u, MemoryOk u → MemoryOk (f e u).2) (h : MemoryOk s) :
    MemoryOk (onEntry hd die n f s).2 := by
  unfold onEntry
  split
  · exact h
  next e _ =>
    split
    · exact h
    have hfe := hf e _ (yieldEntry_memoryOk (e := e) (h0 := hd) h)
    split <;> have ht := snd_memoryOk hfe ‹_›
    · refine dropAnswers_memoryOk ?_
      split
      · exact modEpisode_memoryOk ht
      · exact ht
    · exact modEpisode_memoryOk ht

theorem joinEpisode_memoryOk {die n f s} (h : MemoryOk s) : MemoryOk (joinEpisode die n f s) := by
  unfold joinEpisode
  grind [DieOk, modDie_memoryOk]

theorem rewardWork_memoryOk {h0 die n step term reward s} (h : MemoryOk s)
    : MemoryOk (rewardWork h0 die n step term reward s).2 := by
  unfold rewardWork
  grind [countJunc_memoryOk, joinEpisode_memoryOk, readRecord_memoryOk, readRecords_memoryOk, thenWork_memoryOk,
    writeRecord_memoryOk]

theorem handleReward_memoryOk {h0 die c id step term reward bad s} (h : MemoryOk s) : MemoryOk
    (handleReward h0 die c id step term reward bad s).2 := by
  unfold handleReward
  grind [DieOk, bump_memoryOk, countJunc_memoryOk, modDie_memoryOk, onEntry_memoryOk, rewardWork_memoryOk]

theorem takeReward_memoryOk {die n msg s} (h : MemoryOk s) : MemoryOk (takeReward die n msg s) := by
  unfold takeReward
  grind [dropMessage_memoryOk, handleReward_memoryOk]

theorem execRewardTurn_memoryOk {die n s} (h : MemoryOk s) : NextOk (execRewardTurn die n s) := by
  unfold execRewardTurn
  grind [nextOk_next, takeReward_memoryOk]

theorem execRewardMessage_memoryOk {die msg s} (h : MemoryOk s) : NextOk (execRewardMessage die msg s) := by
  unfold execRewardMessage
  grind [execRewardTurn_memoryOk, nextOk_next, queueReward_memoryOk]

theorem laneOps_memoryOk {die c w} {act : Holder → Nat → JStep} {ls s} (hact : ∀ hd l u, MemoryOk u → MemoryOk (act hd l u).2)
    (h : MemoryOk s) : MemoryOk (laneOps die c w act ls s).2 := by
  induction ls generalizing s with
  | nil => exact h
  | cons l ls ih =>
    have hrest := ih h
    have hdone := hact (.lane w l) l s h
    unfold laneOps
    dsimp only
    split
    · split
      next t ht => exact dropMessage_memoryOk (snd_memoryOk hrest ht)
      next => exact hrest
    split
    · exact h
    split <;> have ht := snd_memoryOk hdone ‹_›
    · have hnext := ih ht
      split
      next u hu => exact snd_memoryOk hnext hu
      next u hu =>
        have hu := snd_memoryOk hnext hu
        exact hu
    · exact ht

theorem laneOps_memoryOk_of_eq {die c w} {act : Holder → Nat → JStep} {ls s a t}
    (hact : ∀ hd l u, MemoryOk u → MemoryOk (act hd l u).2)
    (h : MemoryOk s) (ht : laneOps die c w act ls s = (a, t)) : MemoryOk t := snd_memoryOk (laneOps_memoryOk hact h) ht

theorem trajWord_memoryOk {i ss act s} (hact : ∀ die c hd t u, MemoryOk u → MemoryOk (act die c hd t u).2) (h : MemoryOk s) :
    NextOk (trajWord i ss act s) := by
  unfold trajWord
  refine runWord_memoryOk (fun b m u hu => ?_) h
  split
  · exact finishWord_memoryOk hu
  split
  · exact finishWord_memoryOk (abortRegion_memoryOk hu)
  refine withOperands_memoryOk (fun b m v hv => ?_) hu
  extract_lets die c
  have hlane : ∀ hd l w, MemoryOk w → MemoryOk ((match b.warp.thread l with
      | some t => act die c hd t
      | none => fun s => (true, s)) w).2 := by
    intro hd l w hw
    cases b.warp.thread l with
    | none => exact hw
    | some t => exact hact die c hd t w hw
  split <;> have ht := laneOps_memoryOk_of_eq hlane hv ‹_›
  · exact finishWord_memoryOk ht
  · exact blockWord_memoryOk ht

theorem onId_memoryOk {hd die c id} {f : Nat → Episode → JStep} {s} (hf : ∀ n e u, MemoryOk u → MemoryOk (f n e u).2) (h
    : MemoryOk s) :
    MemoryOk (onId hd die c id f s).2 := by
  unfold onId
  split
  · exact onEntry_memoryOk (fun e u hu => hf _ e u hu) h
  · exact countJunc_memoryOk h

theorem execTjstep_memoryOk {o s} (h : MemoryOk s) : NextOk (execTjstep o s) := by
  unfold execTjstep
  grind [countJunc_memoryOk, onId_memoryOk, readRecord_memoryOk, thenWork_memoryOk, trajWord_memoryOk, writeRecords_memoryOk]

theorem execTjend_memoryOk {o s} (h : MemoryOk s) : NextOk (execTjend o s) := by
  unfold execTjend
  grind [countJunc_memoryOk, joinEpisode_memoryOk, modEpisode_memoryOk, onId_memoryOk, readRecords_memoryOk, thenWork_memoryOk,
    trajWord_memoryOk]

theorem execTjendFree_memoryOk {o s} (h : MemoryOk s) : NextOk (execTjendFree o s) := by
  unfold execTjendFree
  grind [DieOk, countJunc_memoryOk, modDie_memoryOk, onId_memoryOk, trajWord_memoryOk]

theorem execTjrew_memoryOk {o s} (h : MemoryOk s) : NextOk (execTjrew o s) := by
  unfold execTjrew
  grind [handleReward_memoryOk, trajWord_memoryOk]

theorem giveOrphans_memoryOk {die n os s} (h : MemoryOk s) : MemoryOk (giveOrphans die n os s).2 := by
  induction os generalizing s with
  | nil => exact h
  | cons o os ih =>
    have hr : MemoryOk (rewardWork (.engine o.1) die n o.2.step o.2.term o.2.reward s).2 := rewardWork_memoryOk h
    unfold giveOrphans
    split <;> have ht := snd_memoryOk hr ‹_›
    · exact ih (dropAnswers_memoryOk (modDie_memoryOk ht fun x hx => hx))
    · exact ht

theorem giveOrphans_memoryOk_of_eq {die n x1 s a t} (h : MemoryOk s) (ht : giveOrphans die n x1 s = (a, t)) : MemoryOk t :=
  snd_memoryOk (giveOrphans_memoryOk h) ht

theorem openEpisode_memoryOk {die c id version s} (h : MemoryOk s) : MemoryOk (openEpisode die c id version s).2 := by
  unfold openEpisode
  grind [DieOk, bump_memoryOk, modDie_memoryOk]

theorem fillEpisode_memoryOk {h0 die c id s} (h : MemoryOk s) : MemoryOk (fillEpisode h0 die c id s).2 := by
  unfold fillEpisode
  grind [giveOrphans_memoryOk_of_eq, onEntry_memoryOk, writeRecords_memoryOk]

theorem stepTjopen_memoryOk {id a v x1 x2 s} (h : MemoryOk s) : MemoryOk (stepTjopen id a v x1 x2 s) := by
  induction x1 generalizing x2 s with
  | nil =>
    unfold stepTjopen
    split
    · exact setAct_memoryOk h
    · exact endAct_memoryOk (mapLanes_memoryOk h)
  | cons y ys ih =>
    obtain ⟨l, i, ver⟩ := y
    unfold stepTjopen
    split
    · exact h
    next x _ =>
    have hopen : MemoryOk (match tget x2 l with
        | some r => (r, s)
        | none => openEpisode x.die x.ctx i ver s).2 := by
      split
      · exact h
      · exact openEpisode_memoryOk h
    split
    next r t hr =>
    have ht := snd_memoryOk hopen hr
    have hfill : MemoryOk (if r.getLsbD 31 then fillEpisode (.engine id) x.die x.ctx i t else (true, t)).2 := by
      split
      · exact fillEpisode_memoryOk ht
      · exact ht
    split <;> have hu := snd_memoryOk hfill ‹_›
    · exact ih hu
    · exact setAct_memoryOk hu

theorem execTjopen_memoryOk {o s} (h : MemoryOk s) : NextOk (execTjopen o s) := by
  unfold execTjopen
  grind [abortRegion_memoryOk, finishWord_memoryOk, runWord_memoryOk, startAct_memoryOk, stepTjopen_memoryOk, withOperands_memoryOk]

theorem joinDue_memoryOk {die n s} (h : MemoryOk s) : MemoryOk (joinDue die n s) := by
  unfold joinDue
  grind [countJunc_memoryOk, joinEpisode_memoryOk, modEpisode_memoryOk, onEntry_memoryOk, readRecords_memoryOk, thenWork_memoryOk]

theorem execJoinDeadline_memoryOk {die entry s} (h : MemoryOk s) : NextOk (execJoinDeadline die entry s) := by
  unfold execJoinDeadline
  grind [joinDue_memoryOk, nextOk_next]

theorem execOrphanExpiry_memoryOk {die orphan s} (h : MemoryOk s) : NextOk (execOrphanExpiry die orphan s) := by
  unfold execOrphanExpiry
  grind [DieOk, countJunc_memoryOk, modDie_memoryOk, nextOk_next]

theorem execTurntableScan_memoryOk {die entry s} (h : MemoryOk s) : NextOk (execTurntableScan die entry s) := by
  unfold execTurntableScan
  grind [countJunc_memoryOk, modEpisode_memoryOk, nextOk_next, onEntry_memoryOk, readRecords_memoryOk, thenWork_memoryOk,
    writeRecords_memoryOk]

theorem endTake_memoryOk {die k t bs s} (h : MemoryOk s) : MemoryOk (endTake die k t bs s) := by
  unfold endTake
  grind [DieOk, modDie_memoryOk, modThread_memoryOk, reapWarp_memoryOk]

theorem popTake_memoryOk {die c s t} (h : MemoryOk s) (ht : popTake die c s = some t) : MemoryOk t := by
  unfold popTake at ht
  grind [endTake_memoryOk, modJunc_memoryOk]

theorem serveTakes_memoryOk {die c n s} (h : MemoryOk s) : MemoryOk (serveTakes die c n s) := by
  induction n generalizing s with
  | zero => exact h
  | succ n ih =>
    unfold serveTakes
    split
    next t ht => exact ih (popTake_memoryOk h ht)
    next => exact h

theorem execTjtakePop_memoryOk {wait s} (h : MemoryOk s) : NextOk (execTjtakePop wait s) := by
  unfold execTjtakePop
  split
  next die t _ =>
    split
    · exact nextOk_next.mpr (getD_memoryOk h fun u hu => popTake_memoryOk h hu)
    split
    · exact nextOk_next.mpr (endTake_memoryOk h)
    · exact nextOk_next.mpr h
  next => exact nextOk_next.mpr h

theorem execEpisodeRelease_memoryOk {die entry s} (h : MemoryOk s) : NextOk (execEpisodeRelease die entry s) := by
  unfold execEpisodeRelease
  grind [countJunc_memoryOk, modEpisode_memoryOk, modJunc_memoryOk, nextOk_next]

theorem takeWord_memoryOk {i ss rs act s} (hact : ∀ b m u, MemoryOk u → MemoryOk (act b m u)) (h : MemoryOk s) :
    NextOk (takeWord i ss rs act s) := by
  unfold takeWord
  refine runWord_memoryOk (fun b m u hu => ?_) h
  split
  · exact finishWord_memoryOk hu
  split
  · exact finishWord_memoryOk (abortRegion_memoryOk hu)
  · exact withOperands_memoryOk (fun b m v hv => finishWord_memoryOk (hact b m v hv)) hu

theorem waitTakes_memoryOk {b m d try_ s} (h : MemoryOk s) : MemoryOk (waitTakes b m d try_ s) := by
  unfold waitTakes
  grind [DieOk, bump_memoryOk, foldl_memoryOk, mapLanes_memoryOk, modDie_memoryOk]

theorem execTjtake_memoryOk {o s} (h : MemoryOk s) : NextOk (execTjtake o s) := by
  unfold execTjtake
  grind [serveTakes_memoryOk, takeWord_memoryOk, waitTakes_memoryOk]

theorem answerLanes_memoryOk {b d n vs s} (h : MemoryOk s) : MemoryOk (answerLanes b d n vs s) := by
  unfold answerLanes
  grind [addOps_memoryOk, mapLanes_memoryOk]

theorem execTjtakeTry_memoryOk {o s} (h : MemoryOk s) : NextOk (execTjtakeTry o s) := by
  unfold execTjtakeTry
  grind [takeWord_memoryOk, waitTakes_memoryOk]

theorem execTjtakeDepth_memoryOk {o s} (h : MemoryOk s) : NextOk (execTjtakeDepth o s) := by
  unfold execTjtakeDepth
  grind [answerLanes_memoryOk, takeWord_memoryOk]

theorem execTjtakeStat_memoryOk {o s} (h : MemoryOk s) : NextOk (execTjtakeStat o s) := by
  unfold execTjtakeStat
  grind [answerLanes_memoryOk, takeWord_memoryOk, trapLanes_memoryOk]

theorem execTjset_memoryOk {o s} (h : MemoryOk s) : NextOk (execTjset o s) := by
  unfold execTjset
  grind [abortRegion_memoryOk, finishWord_memoryOk, modJunc_memoryOk, runWord_memoryOk, trapWord_memoryOk, withLeader_memoryOk]

/-! ### The die and its reset -/

theorem extendAt_memoryOk {die k m s} (h : MemoryOk s) : MemoryOk (extendAt die k m s) := by
  unfold extendAt
  grind [DieOk, modDie_memoryOk]

theorem measureInto_memoryOk {die k s} (h : MemoryOk s) : MemoryOk (measureInto die k s) := by
  unfold measureInto
  grind [extendAt_memoryOk]

theorem execMeasurementRegisterExtension_memoryOk {die k digest s} (h : MemoryOk s)
    : NextOk (execMeasurementRegisterExtension die k digest s) := by
  unfold execMeasurementRegisterExtension
  grind [extendAt_memoryOk, nextOk_next]

theorem execAttestationRequest_memoryOk {die nonce s} (h : MemoryOk s) : NextOk (execAttestationRequest die nonce s) := by
  unfold execAttestationRequest
  grind [ModuleOk, modMod_memoryOk, nextOk_next]

theorem purgeContext_memoryOk {c s} (h : MemoryOk s) : MemoryOk (purgeContext c s) := by
  unfold purgeContext
  grind [endContext_memoryOk, freeContext_memoryOk, modCtx_memoryOk, setCtx_memoryOk]

theorem purgeDie_memoryOk {die s} (h : MemoryOk s) : MemoryOk (purgeDie die s) := by
  unfold purgeDie
  grind [DieOk, ModuleOk, foldl_memoryOk, memoryOk_iff, modDie_memoryOk, purgeContext_memoryOk, setKeeper_memoryOk]

theorem trainPorts_memoryOk {die warm s} (h : MemoryOk s) : MemoryOk (trainPorts die warm s) := by
  unfold trainPorts
  grind [ModuleOk, foldl_memoryOk, modMod_memoryOk, moveFlows_memoryOk]

theorem trainLinks_memoryOk {die warm s} (h : MemoryOk s) : MemoryOk (trainLinks die warm s) := by
  unfold trainLinks
  grind [foldl_memoryOk, modLink_memoryOk]

theorem firmwareStep_memoryOk {die s} (h : MemoryOk s) : MemoryOk (firmwareStep die s) := by
  unfold firmwareStep
  grind [DieOk, bump_memoryOk, modDie_memoryOk]

theorem startStep_memoryOk {die warm k s} (h : MemoryOk s) : MemoryOk (startStep die warm k s) := by
  have hsame : ∀ {f : Die → Die} {u}, (∀ d, (f d).dram = d.dram) → MemoryOk u → MemoryOk (u.modDie die f) := by
    intro f u hf hu
    refine modDie_memoryOk hu fun d hd => ?_
    rw [DieOk, hf]
    exact hd
  unfold startStep
  split
  · exact measureInto_memoryOk h
  split
  · exact measureInto_memoryOk (measureInto_memoryOk (firmwareStep_memoryOk h))
  split
  · split
    · exact h
    · exact modDie_memoryOk h fun _ _ => rfl
  split
  · exact trainLinks_memoryOk h
  split
  · refine measureInto_memoryOk (trainPorts_memoryOk ?_)
    split
    · exact h
    · exact bump_memoryOk (hsame (fun _ => rfl) h)
  split
  · refine measureInto_memoryOk ?_
    split
    · exact h
    · exact hsame (fun _ => rfl) h
  split
  · exact hsame (fun _ => rfl) (purgeDie_memoryOk (hsame (fun _ => rfl) h))
  · exact h

theorem execDieStart_memoryOk {die warm s} (h : MemoryOk s) : NextOk (execDieStart die warm s) := by
  unfold execDieStart
  grind [DieOk, bump_memoryOk, modDie_memoryOk, nextOk_next, purgeDie_memoryOk, startStep_memoryOk]

theorem execStartStepFailure_memoryOk {die s} (h : MemoryOk s) : NextOk (execStartStepFailure die s) := by
  unfold execStartStepFailure
  grind [DieOk, modDie_memoryOk, nextOk_next]

theorem endContexts_memoryOk {cs reason why s} (h : MemoryOk s) : MemoryOk (endContexts cs reason why s) := by
  unfold endContexts
  grind [endContext_memoryOk, foldl_memoryOk]

theorem resetLogic_memoryOk {die s} (h : MemoryOk s) : MemoryOk (resetLogic die s) := by
  unfold resetLogic
  grind [DieOk, bump_memoryOk, foldl_memoryOk, modCore_memoryOk, modDie_memoryOk]

theorem replayDivergence_memoryOk {die s} (h : MemoryOk s) : MemoryOk (replayDivergence die s) := by
  unfold replayDivergence
  grind [DieOk, bump_memoryOk, endContexts_memoryOk, modDie_memoryOk]

theorem warmResetDie_memoryOk {die s} (h : MemoryOk s) : MemoryOk (warmResetDie die s) := by
  unfold warmResetDie
  grind [endContexts_memoryOk, replayDivergence_memoryOk, resetLogic_memoryOk]

theorem execWarmReset_memoryOk {die s} (h : MemoryOk s) : NextOk (execWarmReset die s) := by
  unfold execWarmReset
  grind [nextOk_next, warmResetDie_memoryOk]

theorem execSramSoftError_memoryOk {die s} (h : MemoryOk s) : NextOk (execSramSoftError die s) := by
  unfold execSramSoftError
  grind [nextOk_next, warmResetDie_memoryOk]

theorem execHealthRefresh_memoryOk {die ind reading age s} (h : MemoryOk s) : NextOk (execHealthRefresh die ind reading age s) := by
  unfold execHealthRefresh
  grind [DieOk, bump_memoryOk, modDie_memoryOk, nextOk_next]

theorem execPowerLimit_memoryOk {die rate s} (h : MemoryOk s) : NextOk (execPowerLimit die rate s) := by
  unfold execPowerLimit
  grind [DieOk, modDie_memoryOk, nextOk_next]

/-! ### The slice -/

theorem takePipe_memoryOk {w x m i p s} (h : MemoryOk s) : MemoryOk (takePipe w x m i p s) := by
  unfold takePipe
  grind [BlockOk, modBlock_memoryOk, modWarp_memoryOk]

theorem issueBundle_memoryOk {w c p s} (h : MemoryOk s) : MemoryOk (issueBundle w c p s) := by
  unfold issueBundle
  split
  · exact h
  split
  · exact h
  split
  · exact renameWait_memoryOk (takePipe_memoryOk h)
  extract_lets at_ brk f bad
  split
  · exact trapLanes_memoryOk h
  clear_value bad f
  split
  · exact trapLanes_memoryOk h
  · exact h
  · exact takePipe_memoryOk h

theorem pruneFetched_memoryOk {w s} (h : MemoryOk s) : MemoryOk (pruneFetched w s) := by
  unfold pruneFetched
  grind [modWarp_memoryOk]

theorem notePassed_memoryOk {chosen cs ws s} (h : MemoryOk s) : MemoryOk (notePassed chosen cs ws s) := by
  unfold notePassed
  grind [foldl_memoryOk, modWarp_memoryOk]

theorem execClauseIssue_memoryOk {w lane pipe s} (h : MemoryOk s) : NextOk (execClauseIssue w lane pipe s) := by
  unfold execClauseIssue
  split
  · exact nextOk_next.mpr h
  extract_lets free both cs s1
  split
  · exact nextOk_next.mpr h
  split
  · exact nextOk_next.mpr h
  split
  · exact nextOk_next.mpr h
  split
  · exact nextOk_next.mpr h
  extract_lets s2
  have h2 : MemoryOk s2 := issueBundle_memoryOk (notePassed_memoryOk h)
  clear_value both s2
  refine nextOk_next.mpr (pruneFetched_memoryOk ?_)
  split
  · exact issueBundle_memoryOk h2
  · exact h2

theorem failFetch_memoryOk {w lane x a r s} (h : MemoryOk s) : MemoryOk (failFetch w lane x a r s) := by
  unfold failFetch
  grind [endContext_memoryOk, logViolation_memoryOk, remoteEnd_memoryOk]

theorem addFetched_memoryOk {w f s} (h : MemoryOk s) : MemoryOk (addFetched w f s) := by
  unfold addFetched
  grind [modWarp_memoryOk]

theorem readCode_memoryOk {h0 x a n s} (h : MemoryOk s) : MemoryOk (readCode h0 x a n s).2 := by
  unfold readCode
  grind [readBytes_memoryOk]

theorem readCode_memoryOk_of_eq {h0 x a n s a1 t} (h : MemoryOk s) (ht : readCode h0 x a n s = (a1, t)) : MemoryOk t :=
  snd_memoryOk (readCode_memoryOk h) ht

theorem execCodeFetch_memoryOk {w lane s} (h : MemoryOk s) : NextOk (execCodeFetch w lane s) := by
  unfold execCodeFetch
  split
  · exact nextOk_next.mpr h
  next x _ =>
  split
  · exact nextOk_next.mpr h
  next t _ =>
  extract_lets hd fail
  have hfail : ∀ a r u, MemoryOk u → MemoryOk (fail a r u) := by
    intro a r u hu
    unfold fail
    split
    · exact hu
    · exact failFetch_memoryOk (dropAnswers_memoryOk hu)
  clear_value fail
  split
  · exact nextOk_next.mpr h
  split <;> have ht := readCode_memoryOk_of_eq h ‹_›
  · exact nextOk_next.mpr (hfail _ _ _ ht)
  extract_lets header n
  split <;> have hu := readCode_memoryOk_of_eq ht ‹_›
  · exact nextOk_next.mpr (hfail _ _ _ hu)
  · exact nextOk_next.mpr (addFetched_memoryOk (dropAnswers_memoryOk hu))

theorem execBundlePark_memoryOk {w pipe s} (h : MemoryOk s) : NextOk (execBundlePark w pipe s) := by
  unfold execBundlePark
  grind [nextOk_next, parkBundle_memoryOk]

theorem execBlockedRegisterFill_memoryOk {w lane s} (h : MemoryOk s) : NextOk (execBlockedRegisterFill w lane s) := by
  unfold execBlockedRegisterFill
  grind [memoryOk_iff, modIss_memoryOk, nextOk_next]

theorem resumeAct_memoryOk {id s} (h : MemoryOk s) : MemoryOk (resumeAct id s) := by
  unfold resumeAct
  grind [memoryOk_iff, stepArrival_memoryOk, stepBufAct_memoryOk, stepEdge_memoryOk, stepEnq_memoryOk, stepPhase_memoryOk,
    stepSys_memoryOk, stepTjopen_memoryOk]

theorem execPublication_memoryOk {act s} (h : MemoryOk s) : NextOk (execPublication act s) := by
  unfold execPublication
  grind [nextOk_next, resumeAct_memoryOk]

theorem execUnassignedOpcode_memoryOk {word s} (h : MemoryOk s) : NextOk (execUnassignedOpcode word s) := by
  unfold execUnassignedOpcode
  grind [nextOk_next, trapWord_memoryOk]

/-! ### Every instruction -/

theorem exec_memoryOk {i s} (h : MemoryOk s) : NextOk (exec i s) :=
  match i with
  | .nop _ => execNop_memoryOk h
  | .mov _ => execMov_memoryOk h
  | .movi _ => execMovi_memoryOk h
  | .movw _ => execMovw_memoryOk h
  | .wset _ => execWset_memoryOk h
  | .sread _ => execSread_memoryOk h
  | .pmovRp _ => execPmovRp_memoryOk h
  | .pmovPr _ => execPmovPr_memoryOk h
  | .pmovSave _ => execPmovSave_memoryOk h
  | .pmovLoad _ => execPmovLoad_memoryOk h
  | .pgate _ => execPgate_memoryOk h
  | .iadd _ => execIadd_memoryOk h
  | .iaddImm _ => execIaddImm_memoryOk h
  | .isub _ => execIsub_memoryOk h
  | .isubImm _ => execIsubImm_memoryOk h
  | .imul _ => execImul_memoryOk h
  | .imulImm _ => execImulImm_memoryOk h
  | .imulh _ => execImulh_memoryOk h
  | .imulhImm _ => execImulhImm_memoryOk h
  | .imin _ => execImin_memoryOk h
  | .iminImm _ => execIminImm_memoryOk h
  | .imax _ => execImax_memoryOk h
  | .imaxImm _ => execImaxImm_memoryOk h
  | .icmp _ => execIcmp_memoryOk h
  | .icmpImm _ => execIcmpImm_memoryOk h
  | .shl _ => execShl_memoryOk h
  | .shlImm _ => execShlImm_memoryOk h
  | .shr _ => execShr_memoryOk h
  | .shrImm _ => execShrImm_memoryOk h
  | .sar _ => execSar_memoryOk h
  | .sarImm _ => execSarImm_memoryOk h
  | .lgate _ => execLgate_memoryOk h
  | .imad _ => execImad_memoryOk h
  | .imadw _ => execImadw_memoryOk h
  | .iaddc _ => execIaddc_memoryOk h
  | .isel _ => execIsel_memoryOk h
  | .iabs _ => execIabs_memoryOk h
  | .ineg _ => execIneg_memoryOk h
  | .fshl _ => execFshl_memoryOk h
  | .fshr _ => execFshr_memoryOk h
  | .popc _ => execPopc_memoryOk h
  | .clz _ => execClz_memoryOk h
  | .brev _ => execBrev_memoryOk h
  | .bfx _ => execBfx_memoryOk h
  | .bfi _ => execBfi_memoryOk h
  | .lea _ => execLea_memoryOk h
  | .fadd _ => execFadd_memoryOk h
  | .faddImm _ => execFaddImm_memoryOk h
  | .fsub _ => execFsub_memoryOk h
  | .fsubImm _ => execFsubImm_memoryOk h
  | .fmul _ => execFmul_memoryOk h
  | .fmulImm _ => execFmulImm_memoryOk h
  | .fmin _ => execFmin_memoryOk h
  | .fminImm _ => execFminImm_memoryOk h
  | .fmax _ => execFmax_memoryOk h
  | .fmaxImm _ => execFmaxImm_memoryOk h
  | .fcmp _ => execFcmp_memoryOk h
  | .fcmpImm _ => execFcmpImm_memoryOk h
  | .ffma _ => execFfma_memoryOk h
  | .fabs _ => execFabs_memoryOk h
  | .fneg _ => execFneg_memoryOk h
  | .fclass _ => execFclass_memoryOk h
  | .frnd _ => execFrnd_memoryOk h
  | .fmaxa _ => execFmaxa_memoryOk h
  | .hadd2 _ => execHadd2_memoryOk h
  | .hmul2 _ => execHmul2_memoryOk h
  | .hfma2 _ => execHfma2_memoryOk h
  | .hmax2 _ => execHmax2_memoryOk h
  | .cvt _ => execCvt_memoryOk h
  | .f8cv _ => execF8cv_memoryOk h
  | .f8up _ => execF8up_memoryOk h
  | .lshuf _ => execLshuf_memoryOk h
  | .lxor _ => execLxor_memoryOk h
  | .lrotw _ => execLrotw_memoryOk h
  | .lred _ => execLred_memoryOk h
  | .lscan _ => execLscan_memoryOk h
  | .ballot _ => execBallot_memoryOk h
  | .matchKey _ => execMatchKey_memoryOk h
  | .matchn _ => execMatchn_memoryOk h
  | .tbl _ => execTbl_memoryOk h
  | .elect _ => execElect_memoryOk h
  | .bra _ => execBra_memoryOk h
  | .jmp _ => execJmp_memoryOk h
  | .call _ => execCall_memoryOk h
  | .ret _ => execRet_memoryOk h
  | .exit _ => execExit_memoryOk h
  | .trap _ => execTrap_memoryOk h
  | .rcp _ => execRcp_memoryOk h
  | .rsq _ => execRsq_memoryOk h
  | .sqrt _ => execSqrt_memoryOk h
  | .div _ => execDiv_memoryOk h
  | .exp2 _ => execExp2_memoryOk h
  | .log2 _ => execLog2_memoryOk h
  | .sinp _ => execSinp_memoryOk h
  | .cosp _ => execCosp_memoryOk h
  | .tanh _ => execTanh_memoryOk h
  | .sigm _ => execSigm_memoryOk h
  | .idiv _ => execIdiv_memoryOk h
  | .irem _ => execIrem_memoryOk h
  | .ldb _ => execLdb_memoryOk h
  | .stb _ => execStb_memoryOk h
  | .ldd _ => execLdd_memoryOk h
  | .std _ => execStd_memoryOk h
  | .ldk _ => execLdk_memoryOk h
  | .stk _ => execStk_memoryOk h
  | .atom _ => execAtom_memoryOk h
  | .red _ => execRed_memoryOk h
  | .waitv _ => execWaitv_memoryOk h
  | .note _ => execNote_memoryOk h
  | .phase _ => execPhase_memoryOk h
  | .fence _ => execFence_memoryOk h
  | .regb _ => execRegb_memoryOk h
  | .rege _ => execRege_memoryOk h
  | .regx _ => execRegx_memoryOk h
  | .regq _ => execRegq_memoryOk h
  | .fltm _ => execFltm_memoryOk h
  | .fltmClr _ => execFltmClr_memoryOk h
  | .cpyin _ => execCpyin_memoryOk h
  | .cpyout _ => execCpyout_memoryOk h
  | .cpyg _ => execCpyg_memoryOk h
  | .cpys _ => execCpys_memoryOk h
  | .cpyd _ => execCpyd_memoryOk h
  | .cpyf _ => execCpyf_memoryOk h
  | .cpyfFar _ => execCpyfFar_memoryOk h
  | .stageMax _ => execStageMax_memoryOk h
  | .stageAdd _ => execStageAdd_memoryOk h
  | .publ _ => execPubl_memoryOk h
  | .rpush _ => execRpush_memoryOk h
  | .rpop _ => execRpop_memoryOk h
  | .rwaitC _ => execRwaitC_memoryOk h
  | .rwaitP _ => execRwaitP_memoryOk h
  | .cpyq _ => execCpyq_memoryOk h
  | .pfch _ => execPfch_memoryOk h
  | .evict _ => execEvict_memoryOk h
  | .bufd _ => execBufd_memoryOk h
  | .cload _ => execCload_memoryOk h
  | .crun _ => execCrun_memoryOk h
  | .carm _ => execCarm_memoryOk h
  | .cstepQ _ => execCstepQ_memoryOk h
  | .cstepWait _ => execCstepWait_memoryOk h
  | .mma _ => execMma_memoryOk h
  | .mmaKeep _ => execMmaKeep_memoryOk h
  | .mclr _ => execMclr_memoryOk h
  | .mldt _ => execMldt_memoryOk h
  | .mmovr _ => execMmovr_memoryOk h
  | .mmovw _ => execMmovw_memoryOk h
  | .mqry _ => execMqry_memoryOk h
  | .mdrain _ => execMdrain_memoryOk h
  | .mdrainAdd _ => execMdrainAdd_memoryOk h
  | .mdrainUpd _ => execMdrainUpd_memoryOk h
  | .qdual _ => execQdual_memoryOk h
  | .rqnt _ => execRqnt_memoryOk h
  | .mjoin _ => execMjoin_memoryOk h
  | .mleave _ => execMleave_memoryOk h
  | .mwait _ => execMwait_memoryOk h
  | .mset _ => execMset_memoryOk h
  | .mget _ => execMget_memoryOk h
  | .barb _ => execBarb_memoryOk h
  | .bara _ => execBara_memoryOk h
  | .barw _ => execBarw_memoryOk h
  | .bard _ => execBard_memoryOk h
  | .treea _ => execTreea_memoryOk h
  | .treew _ => execTreew_memoryOk h
  | .attach _ => execAttach_memoryOk h
  | .detach _ => execDetach_memoryOk h
  | .yieldStanding _ => execYieldStanding_memoryOk h
  | .sleep _ => execSleep_memoryOk h
  | .sleepUntil _ => execSleepUntil_memoryOk h
  | .enq _ => execEnq_memoryOk h
  | .csrr _ => execCsrr_memoryOk h
  | .csrw _ => execCsrw_memoryOk h
  | .tret _ => execTret_memoryOk h
  | .xsave _ => execXsave_memoryOk h
  | .xload _ => execXload_memoryOk h
  | .tlbi _ => execTlbi_memoryOk h
  | .tlbiPage _ => execTlbiPage_memoryOk h
  | .pgset _ => execPgset_memoryOk h
  | .ctxend _ => execCtxend_memoryOk h
  | .halt _ => execHalt_memoryOk h
  | .retire _ => execRetire_memoryOk h
  | .snapm _ => execSnapm_memoryOk h
  | .logrAddr _ => execLogrAddr_memoryOk h
  | .logrInfo _ => execLogrInfo_memoryOk h
  | .logrCount _ => execLogrCount_memoryOk h
  | .logrClr _ => execLogrClr_memoryOk h
  | .tjopen _ => execTjopen_memoryOk h
  | .tjstep _ => execTjstep_memoryOk h
  | .tjend _ => execTjend_memoryOk h
  | .tjendFree _ => execTjendFree_memoryOk h
  | .tjrew _ => execTjrew_memoryOk h
  | .tjtake _ => execTjtake_memoryOk h
  | .tjtakeTry _ => execTjtakeTry_memoryOk h
  | .tjtakeDepth _ => execTjtakeDepth_memoryOk h
  | .tjtakeStat _ => execTjtakeStat_memoryOk h
  | .tjset _ => execTjset_memoryOk h
  | .clauseIssue _ _ _ => execClauseIssue_memoryOk h
  | .bundlePark _ _ => execBundlePark_memoryOk h
  | .blockedRegisterFill _ _ => execBlockedRegisterFill_memoryOk h
  | .codeFetch _ _ => execCodeFetch_memoryOk h
  | .compactorMove _ _ => execCompactorMove_memoryOk h
  | .sfuQueueGrant _ _ _ => execSfuQueueGrant_memoryOk h
  | .sfuResult _ => execSfuResult_memoryOk h
  | .tableEntryGrant _ _ => execTableEntryGrant_memoryOk h
  | .loadReturn _ _ => execLoadReturn_memoryOk h
  | .storeAck _ => execStoreAck_memoryOk h
  | .portOperation _ _ => execPortOperation_memoryOk h
  | .atomicReturn _ => execAtomicReturn_memoryOk h
  | .waiterPlaceFree _ => execWaiterPlaceFree_memoryOk h
  | .waitvTimeout _ => execWaitvTimeout_memoryOk h
  | .sleepRelease _ => execSleepRelease_memoryOk h
  | .fenceComplete _ _ => execFenceComplete_memoryOk h
  | .publication _ => execPublication_memoryOk h
  | .treeRelease _ _ _ => execTreeRelease_memoryOk h
  | .treeCfgWrite _ _ => execTreeCfgWrite_memoryOk h
  | .regionOpen _ => execRegionOpen_memoryOk h
  | .regionAccessRetry _ => execRegionAccessRetry_memoryOk h
  | .regionCommit _ => execRegionCommit_memoryOk h
  | .mmaFire _ => execMmaFire_memoryOk h
  | .tileOperationPerform _ => execTileOperationPerform_memoryOk h
  | .tileUpdatePerform _ => execTileUpdatePerform_memoryOk h
  | .copyQueueAccept _ _ => execCopyQueueAccept_memoryOk h
  | .copyFire _ => execCopyFire_memoryOk h
  | .copyComplete _ _ => execCopyComplete_memoryOk h
  | .rwaitFill _ => execRwaitFill_memoryOk h
  | .scheduleFiring _ => execScheduleFiring_memoryOk h
  | .blockPlacement _ _ => execBlockPlacement_memoryOk h
  | .placementWaitExpiry _ => execPlacementWaitExpiry_memoryOk h
  | .spareWarpStart _ _ _ => execSpareWarpStart_memoryOk h
  | .shrinkRequest _ _ => execShrinkRequest_memoryOk h
  | .shrinkCancel _ => execShrinkCancel_memoryOk h
  | .preemption _ => execPreemption_memoryOk h
  | .blockSave _ => execBlockSave_memoryOk h
  | .blockRestore _ _ => execBlockRestore_memoryOk h
  | .blockEnd _ => execBlockEnd_memoryOk h
  | .kernelDone _ => execKernelDone_memoryOk h
  | .queueEntryTake _ => execQueueEntryTake_memoryOk h
  | .dependenceCheck _ => execDependenceCheck_memoryOk h
  | .queueLevelRaise _ => execQueueLevelRaise_memoryOk h
  | .queueDoorbell _ _ => execQueueDoorbell_memoryOk h
  | .queueEnable _ _ => execQueueEnable_memoryOk h
  | .queueDisable _ => execQueueDisable_memoryOk h
  | .queueSuspend _ => execQueueSuspend_memoryOk h
  | .queueResume _ => execQueueResume_memoryOk h
  | .registerWrite _ _ _ _ => execRegisterWrite_memoryOk h
  | .contextBind _ => execContextBind_memoryOk h
  | .contextFree _ => execContextFree_memoryOk h
  | .errqDropClear => execErrqDropClear_memoryOk h
  | .hostContextEnd _ => execHostContextEnd_memoryOk h
  | .contextEnded _ => execContextEnded_memoryOk h
  | .errorRingRetry => execErrorRingRetry_memoryOk h
  | .stripeRequest _ _ _ => execStripeRequest_memoryOk h
  | .gatherReply _ _ _ => execGatherReply_memoryOk h
  | .gatherTimeout _ _ _ => execGatherTimeout_memoryOk h
  | .reduceContribution _ _ _ => execReduceContribution_memoryOk h
  | .reduceDone _ _ _ => execReduceDone_memoryOk h
  | .reduceSendTimeout _ _ _ => execReduceSendTimeout_memoryOk h
  | .reducingTimeout _ _ => execReducingTimeout_memoryOk h
  | .migrationHandover _ _ => execMigrationHandover_memoryOk h
  | .mode1Fill _ _ => execMode1Fill_memoryOk h
  | .meshFlitReceive _ _ _ => execMeshFlitReceive_memoryOk h
  | .frameReceive _ _ => execFrameReceive_memoryOk h
  | .ackReceive _ _ => execAckReceive_memoryOk h
  | .retransmitTimeout _ _ => execRetransmitTimeout_memoryOk h
  | .portTrainingEnd _ _ => execPortTrainingEnd_memoryOk h
  | .laneLost _ => execLaneLost_memoryOk h
  | .portEnable _ => execPortEnable_memoryOk h
  | .portDisable _ => execPortDisable_memoryOk h
  | .cxlMemAccess _ _ _ => execCxlMemAccess_memoryOk h
  | .hostTimeout _ => execHostTimeout_memoryOk h
  | .timeSync _ _ => execTimeSync_memoryOk h
  | .graphLoadAtPlacement _ => execGraphLoadAtPlacement_memoryOk h
  | .carmStart _ _ => execCarmStart_memoryOk h
  | .chunkOffer _ => execChunkOffer_memoryOk h
  | .nodeComplete _ _ => execNodeComplete_memoryOk h
  | .runComplete _ => execRunComplete_memoryOk h
  | .rewardMessage _ _ => execRewardMessage_memoryOk h
  | .joinDeadline _ _ => execJoinDeadline_memoryOk h
  | .orphanExpiry _ _ => execOrphanExpiry_memoryOk h
  | .turntableScan _ _ => execTurntableScan_memoryOk h
  | .episodeRelease _ _ => execEpisodeRelease_memoryOk h
  | .tjtakePop _ => execTjtakePop_memoryOk h
  | .cut _ _ => execCut_memoryOk h
  | .pageDrainAck _ _ _ => execPageDrainAck_memoryOk h
  | .warmReset _ => execWarmReset_memoryOk h
  | .dieStart _ _ => execDieStart_memoryOk h
  | .startStepFailure _ => execStartStepFailure_memoryOk h
  | .attestationRequest _ _ => execAttestationRequest_memoryOk h
  | .healthRefresh _ _ _ _ => execHealthRefresh_memoryOk h
  | .sramSoftError _ => execSramSoftError_memoryOk h
  | .powerLimit _ _ => execPowerLimit_memoryOk h
  | .unassignedOpcode _ => execUnassignedOpcode_memoryOk h
  | .reduceSendAcknowledgement _ _ _ => execReduceSendAcknowledgement_memoryOk h
  | .migrationHandoverReply _ _ => execMigrationHandoverReply_memoryOk h
  | .errorRingWriteFailure => execErrorRingWriteFailure_memoryOk h
  | .measurementRegisterExtension _ _ _ => execMeasurementRegisterExtension_memoryOk h

/-! ### The agenda and the passing of time -/

theorem nextWord_memoryOk {b s} (h : MemoryOk s) : NextOk (nextWord b s) := by
  unfold nextWord
  grind [blockWord_memoryOk, execUnassignedOpcode_memoryOk, exec_memoryOk, finishWord_memoryOk, nextOk_next, trapWord_memoryOk]

theorem leaveBundle_memoryOk {w p s} (h : MemoryOk s) : MemoryOk (leaveBundle w p s) := by
  unfold leaveBundle
  grind [modWarp_memoryOk, takeRedirects_memoryOk]

theorem runPipe_memoryOk {w p s} (h : MemoryOk s) : NextOk (runPipe w p s) := by
  unfold runPipe
  grind [leaveBundle_memoryOk, memoryOk_iff, nextOk_next, nextWord_memoryOk]

theorem retryParked_memoryOk {id s} (h : MemoryOk s) : NextOk (retryParked id s) := by
  unfold retryParked
  split
  · exact nextOk_next.mpr h
  split
  · exact nextOk_next.mpr h
  split
  · exact nextOk_next.mpr h
  extract_lets i u t
  have hu : MemoryOk u := setWarp_memoryOk h
  have ht : MemoryOk t := hu
  clear_value t
  have hfill : NextOk (.next (fillParked id s)) := nextOk_next.mpr (fillParked_memoryOk h)
  split
  · exact nextOk_next.mpr h
  split
  next u hu =>
    have hu : MemoryOk u := nextWord_memoryOk ht u hu
    split
    · split
      · exact nextOk_next.mpr (modWarp_memoryOk hu)
      · exact hfill
    · exact hfill
  next => exact hfill

theorem tableOk_tick {ks : List Nat} {t : Table Die} (ht : TableOk DieOk t) : TableOk DieOk (ks.foldl (fun ds d =>
    let x := tgetD ds d Die.init
    tput ds d { x with time := x.time + x.cycle, cycles := x.cycles + 1 }) t) := by
  induction ks generalizing t with
  | nil => exact ht
  | cons k ks ih =>
    have hk : DieOk (tgetD t k Die.init) := tableOk_tgetD ht rfl
    exact ih (tableOk_tput ht hk)

theorem tick_memoryOk {s} (h : MemoryOk s) : MemoryOk (tick s) := by
  obtain ⟨hdies, hmod, hblocks, hshares⟩ := memoryOk_iff.mp h
  unfold tick
  generalize List.range 64 = ks
  exact memoryOk_iff.mpr ⟨tableOk_tick hdies, hmod, hblocks, hshares⟩

theorem settled_memoryOk {f s} (hf : NextOk (f s)) (h : MemoryOk s) : MemoryOk (settled f s) := by
  unfold settled
  split
  next t ht => exact hf t ht
  next => exact h

/-- A happening that keeps the memories canonical. -/
def KeepsMemory (f : State → Outcome) : Prop := ∀ u, MemoryOk u → NextOk (f u)

/-- Happenings all of which keep the memories canonical. -/
def KeepAll (l : List (State → Outcome)) : Prop := ∀ f ∈ l, KeepsMemory f

@[simp] theorem keepAll_nil : KeepAll [] := fun _ hf => by cases hf

@[simp] theorem keepAll_cons {f l} : KeepAll (f :: l) ↔ KeepsMemory f ∧ KeepAll l := List.forall_mem_cons

@[simp] theorem keepAll_append {l m} : KeepAll (l ++ m) ↔ KeepAll l ∧ KeepAll m := List.forall_mem_append

@[simp] theorem keepAll_map {α : Type} {g : α → State → Outcome} {l : List α} : KeepAll (l.map g) ↔ ∀ x ∈ l, KeepsMemory (g x) :=
  List.forall_mem_map

@[simp] theorem keepAll_flatMap {α : Type} {g : α → List (State → Outcome)} {l : List α} :
    KeepAll (l.flatMap g) ↔ ∀ x ∈ l, KeepAll (g x) := List.forall_mem_flatMap

@[simp] theorem keepAll_ite {p : Prop} [Decidable p] {l m} : KeepAll (if p then l else m) ↔ (p → KeepAll l) ∧ (¬ p → KeepAll m) := by
  split <;> simp [*]

theorem keepAll_dieExpiries {s d x} : KeepAll (dieExpiries s d x) := by
  unfold dieExpiries
  simp +contextual [KeepsMemory, execGatherTimeout_memoryOk, execReducingTimeout_memoryOk, execReduceSendTimeout_memoryOk,
    execMigrationHandover_memoryOk, execJoinDeadline_memoryOk, execOrphanExpiry_memoryOk]

theorem keepAll_expiries {s} : KeepAll (expiries s) := by
  unfold expiries
  simp +contextual [-List.map_take, KeepsMemory, execWaitvTimeout_memoryOk, execSleepRelease_memoryOk, execBundlePark_memoryOk,
    execHostTimeout_memoryOk,
    execRetransmitTimeout_memoryOk, execQueueLevelRaise_memoryOk, execPlacementWaitExpiry_memoryOk, execShrinkCancel_memoryOk,
    execCarmStart_memoryOk, execDependenceCheck_memoryOk, execErrorRingRetry_memoryOk, keepAll_dieExpiries]

theorem cycleOver_memoryOk {s} (h : MemoryOk s) : MemoryOk (cycleOver s) := by
  unfold cycleOver
  have hall := keepAll_expiries (s := s)
  generalize expiries s = l at hall ⊢
  have hs : MemoryOk (l.foldl (fun s f => settled f s) s) :=
    foldl_memoryOk_mem h fun u f hf hu => settled_memoryOk (hall f hf u hu) hu
  extract_lets t
  have ht : MemoryOk t := tick_memoryOk hs
  clear_value t
  exact ht

theorem advance_memoryOk {n s} (h : MemoryOk s) : MemoryOk (advance n s) := by
  induction n generalizing s with
  | zero => exact h
  | succ n ih => exact ih (cycleOver_memoryOk h)

theorem resumeAny_memoryOk {id s} (h : MemoryOk s) : MemoryOk (resumeAny id s) := by
  unfold resumeAny
  grind [resumeAct_memoryOk, resumeHost_memoryOk]

theorem runItem_memoryOk {a s} (h : MemoryOk s) : NextOk (runItem a s) := by
  unfold runItem
  grind [advance_memoryOk, control_memoryOk, exec_memoryOk, nextOk_next, resumeAny_memoryOk, retryParked_memoryOk, runPipe_memoryOk]

theorem keepAll_warpActs {s} : KeepAll (warpActs s) := by
  unfold warpActs
  simp +contextual [KeepsMemory, execCodeFetch_memoryOk, execClauseIssue_memoryOk, execBlockedRegisterFill_memoryOk,
    execBundlePark_memoryOk, execFenceComplete_memoryOk, execSleepRelease_memoryOk, execRegionOpen_memoryOk,
      execRegionCommit_memoryOk,
    execSfuQueueGrant_memoryOk, execTableEntryGrant_memoryOk, execCopyQueueAccept_memoryOk, execCompactorMove_memoryOk]

theorem keepAll_opActs {s} : KeepAll (opActs s) := by
  unfold opActs
  simp +contextual [KeepsMemory, execLoadReturn_memoryOk, execStoreAck_memoryOk, execPortOperation_memoryOk,
    execAtomicReturn_memoryOk,
    execWaiterPlaceFree_memoryOk, execWaitvTimeout_memoryOk, execRegionAccessRetry_memoryOk, execSfuResult_memoryOk,
    execPublication_memoryOk, execMmaFire_memoryOk, execTileOperationPerform_memoryOk, execTileUpdatePerform_memoryOk,
    execCopyFire_memoryOk, execCopyComplete_memoryOk, execRwaitFill_memoryOk, retryParked_memoryOk, nextOk_next, resumeAct_memoryOk]

theorem keepAll_dispatchActs {s} : KeepAll (dispatchActs s) := by
  unfold dispatchActs
  simp +contextual [KeepsMemory, execScheduleFiring_memoryOk, execShrinkRequest_memoryOk, execShrinkCancel_memoryOk,
    execPreemption_memoryOk, execBlockSave_memoryOk, execBlockRestore_memoryOk, execBlockEnd_memoryOk, execBlockPlacement_memoryOk,
    execPlacementWaitExpiry_memoryOk, execSpareWarpStart_memoryOk, execGraphLoadAtPlacement_memoryOk, execCarmStart_memoryOk,
    execKernelDone_memoryOk, execDependenceCheck_memoryOk, execQueueEntryTake_memoryOk, execQueueLevelRaise_memoryOk,
    execContextEnded_memoryOk, execErrorRingRetry_memoryOk]

theorem keepAll_dieActs {s} : KeepAll (dieActs s) := by
  unfold dieActs
  simp +contextual [KeepsMemory, execStripeRequest_memoryOk, execGatherReply_memoryOk, execGatherTimeout_memoryOk,
    execReducingTimeout_memoryOk, execReduceContribution_memoryOk, execReduceSendAcknowledgement_memoryOk,
    execReduceSendTimeout_memoryOk, execReduceDone_memoryOk, execMigrationHandover_memoryOk, execMigrationHandoverReply_memoryOk,
    execMode1Fill_memoryOk, execJoinDeadline_memoryOk, execTurntableScan_memoryOk, execEpisodeRelease_memoryOk,
    execOrphanExpiry_memoryOk, execTjtakePop_memoryOk, execRewardTurn_memoryOk, execCut_memoryOk, execPageDrainAck_memoryOk]

theorem keepAll_linkActs {s} : KeepAll (linkActs s) := by
  unfold linkActs
  simp +contextual [KeepsMemory, execMeshFlitReceive_memoryOk, execRetransmitTimeout_memoryOk, execHostTimeout_memoryOk,
    execRunComplete_memoryOk, execNodeComplete_memoryOk, execChunkOffer_memoryOk, execTreeRelease_memoryOk, nextOk_next,
    resumeHost_memoryOk]

theorem keepAll_idleActs {s} : KeepAll (idleActs s) :=
  keepAll_cons.mpr ⟨fun _ hu => nextOk_next.mpr (advance_memoryOk hu), by
    simp [keepAll_warpActs, keepAll_opActs, keepAll_dispatchActs, keepAll_dieActs, keepAll_linkActs]⟩

theorem idleStep_memoryOk {s} (h : MemoryOk s) : NextOk (idleStep s) := by
  have hgetD : ∀ (l : List (State → Outcome)) k, KeepAll l → KeepsMemory (l.getD k fun s => .next s) := by
    intro l k hl
    rw [List.getD_eq_getElem?_getD]
    cases hk : l[k]? with
    | none => exact fun u hu => nextOk_next.mpr hu
    | some f => exact hl f (List.mem_of_getElem? hk)
  exact hgetD _ _ keepAll_idleActs _ h

theorem newInstant_memoryOk {s} (h : MemoryOk s) : MemoryOk (State.newInstant s) := by
  unfold State.newInstant
  grind [memoryOk_iff]

theorem runNext_memoryOk {s} (h : MemoryOk s) : NextOk (runNext s) := by
  unfold runNext
  grind [idleStep_memoryOk, memoryOk_iff, newInstant_memoryOk, runItem_memoryOk, runPipe_memoryOk]

/-! ### One step -/

theorem step_memoryOk {s} (h : MemoryOk s) : NextOk (step s) := by
  unfold step
  grind [runNext_memoryOk]

/-- Settles O60: every function the step is made of keeps each table of memories canonical, from the writes of single bytes up to the
agenda. -/
theorem memoryOkStep : Obligations.MemoryOkStep := fun _ t h ht => step_memoryOk h t ht

end Sys2Proof.Machine
end
